-- ==== Sys2Proof/Word.lean ====
section
/-! DEFINITION. The word types of the Urmetar X9 and the shape of a capability (R337, R340 of
12_isa_encoding.md). Bit ranges are written hi:lo, bit 0 least significant (R4 of 00_scope.md). -/

namespace Sys2Proof

/-- One byte of memory. -/
abbrev Byte := BitVec 8
/-- A 64-bit word: a control register, one word of a capability, an integer value. -/
abbrev W64 := BitVec 64
/-- A vector register: 32 lanes of 32 bits, lane `k` in bits `32k+31 : 32k` (R337). -/
abbrev VReg := BitVec 1024

/-- A capability, or an untagged integer, as a g register holds it: two words and a tag (R340).
`w0` holds permissions 63:57 and the address 56:0; `w1` holds UP, DN, E, K, FREG and SMODE. -/
structure Cap where
  w0 : W64 := 0
  w1 : W64 := 0
  tag : Bool := false
  deriving DecidableEq, Repr

/-- The null untagged zero, which g0 reads as (R338). -/
def Cap.null : Cap := ⟨0, 0, false⟩

/-- An integer result in a register: value in word 0, word 1 zero, no tag (R338). -/
def Cap.ofInt (v : W64) : Cap := ⟨v, 0, false⟩

/-- The field `hi:lo` of a natural number read as bits. -/
def bitsOf (x hi lo : Nat) : Nat := (x / 2 ^ lo) % 2 ^ (hi + 1 - lo)

/-- Two's-complement reading of the low `n` bits of `x`. -/
def signedOf (n x : Nat) : Int :=
  if x % 2 ^ n < 2 ^ (n - 1) then (x % 2 ^ n : Nat) else (x % 2 ^ n : Nat) - (2 ^ n : Nat)

end Sys2Proof
end

