-- ==== Sys2Proof/Syntax.lean ====
section
/-! DEFINITION. The steps of the Urmetar X9: one constructor of `Instr` for each row of
spec/opcode_table.json. A row that is a Faton head carries the head's fields (R333, R334 of
12_isa_encoding.md); a row that is a step of the device carries what the environment or the
schedule supplies: which unit it strikes, and data that comes from outside (a packet, a register
write, a temperature). Which data the device itself holds is in `Machine.State`. -/

namespace Sys2Proof

/-- The form a head's L field selects (R334). -/
inductive Form where
  | H | T1 | T2 | T4
  deriving DecidableEq, Repr

/-- The fields of a head and its tail (R333, R334). `f` is the variant F where an entry uses it as an
operand (a size, an element type, a format pair); for a mnemonic with an F value of its own it holds
that value. `imm` holds the immediate bits, zero above the form's width. -/
structure Head where
  s : Bool := false
  form : Form := .T1
  d : BitVec 6 := 0
  a : BitVec 6 := 0
  b : BitVec 6 := 0
  f : BitVec 4 := 0
  imm : BitVec 48 := 0
  deriving DecidableEq, Repr

/-- A fabric packet: the 128-bit header flit of R34 and the data flits, and the capability tags of a
message's payload registers ride in flit 1 (R35, R491 of 14_isa_memory_sync.md). -/
structure Packet where
  hdr : BitVec 128 := 0
  data : List (BitVec 512) := []
  deriving DecidableEq, Repr

/-- What the far end of a link offers at training (R60): versions 1.0 and 1.1 as bits 0 and 1, whether
it has the 224 Gb/s rate, the serial lanes that trained, and the flits of credit it grants for the request lane and the
reply lane (R40). `commanded` says that the control column asked for the training. -/
structure LinkOffer where
  versions : BitVec 2
  rate224 : Bool
  lanes : Nat
  commanded : Bool := false
  credReq : Nat := 0
  credRep : Nat := 0
  deriving DecidableEq, Repr

/-- A scale-out Ethernet frame (R58, R59): the 4-byte frame header, whether its FCS is good, the packets
its length holds, and of its MAC header the destination address, the EtherType and, where it carries an IEEE 802.1Q tag, the
802.1p priority. -/
structure Frame where
  hdr : BitVec 32
  fcsOk : Bool
  packets : List Packet
  mac : BitVec 48 := 0
  etype : BitVec 16 := 0x88B5
  prio : Option Nat := none
  deriving DecidableEq, Repr

/-- A containment rectangle: die, first and last logical column, first and last half (04, Containment
rectangles). `die2` is the die the last column lies on: a rectangle that crosses a die is refused. -/
structure Rect where
  die : Nat
  die2 : Nat
  col0 : Nat
  col1 : Nat
  half0 : Nat
  half1 : Nat
  deriving DecidableEq, Repr

/-- The steps of the machine, one constructor per row of the opcode table: the heads in the table's order,
the packets of the command stream, and the other steps of the device. -/
inductive Instr where
  /-- nop (R356). -/
  | nop (h : Head)
  /-- add (R356). -/
  | add (h : Head)
  /-- add.w (R356). -/
  | addW (h : Head)
  /-- sub (R356). -/
  | sub (h : Head)
  /-- sub.w (R356). -/
  | subW (h : Head)
  /-- mul (R357). -/
  | mul (h : Head)
  /-- mulh (R357). -/
  | mulh (h : Head)
  /-- mulhu (R357). -/
  | mulhu (h : Head)
  /-- mul.w (R357). -/
  | mulW (h : Head)
  /-- div (R358). -/
  | div (h : Head)
  /-- divu (R358). -/
  | divu (h : Head)
  /-- rem (R358). -/
  | rem (h : Head)
  /-- remu (R358). -/
  | remu (h : Head)
  /-- and (R356). -/
  | and (h : Head)
  /-- or (R356). -/
  | or (h : Head)
  /-- xor (R356). -/
  | xor (h : Head)
  /-- andn (R356). -/
  | andn (h : Head)
  /-- shl (R359). -/
  | shl (h : Head)
  /-- shr (R359). -/
  | shr (h : Head)
  /-- sra (R359). -/
  | sra (h : Head)
  /-- ror (R359). -/
  | ror (h : Head)
  /-- seq (R356). -/
  | seq (h : Head)
  /-- sne (R356). -/
  | sne (h : Head)
  /-- slt (R356). -/
  | slt (h : Head)
  /-- sge (R356). -/
  | sge (h : Head)
  /-- sltu (R356). -/
  | sltu (h : Head)
  /-- sgeu (R356). -/
  | sgeu (h : Head)
  /-- min (R356). -/
  | min (h : Head)
  /-- max (R356). -/
  | max (h : Head)
  /-- minu (R356). -/
  | minu (h : Head)
  /-- maxu (R356). -/
  | maxu (h : Head)
  /-- clz (R360). -/
  | clz (h : Head)
  /-- ctz (R360). -/
  | ctz (h : Head)
  /-- popc (R360). -/
  | popc (h : Head)
  /-- brev (R360). -/
  | brev (h : Head)
  /-- bswap (R360). -/
  | bswap (h : Head)
  /-- ext (R361). -/
  | ext (h : Head)
  /-- extu (R361). -/
  | extu (h : Head)
  /-- ins (R361). -/
  | ins (h : Head)
  /-- csel (R362). -/
  | csel (h : Head)
  /-- cselz (R362). -/
  | cselz (h : Head)
  /-- madd (R363). -/
  | madd (h : Head)
  /-- cinc (R365). -/
  | cinc (h : Head)
  /-- cseta (R365). -/
  | cseta (h : Head)
  /-- csetb (R366). -/
  | csetb (h : Head)
  /-- csetb.o (R366). -/
  | csetbO (h : Head)
  /-- cperm (R367). -/
  | cperm (h : Head)
  /-- cfmt (R368). -/
  | cfmt (h : Head)
  /-- cget.addr (R369). -/
  | cgetAddr (h : Head)
  /-- cget.base (R369). -/
  | cgetBase (h : Head)
  /-- cget.len (R369). -/
  | cgetLen (h : Head)
  /-- cget.perm (R369). -/
  | cgetPerm (h : Head)
  /-- cget.fmt (R369). -/
  | cgetFmt (h : Head)
  /-- cget.k (R369). -/
  | cgetK (h : Head)
  /-- cget.tag (R369). -/
  | cgetTag (h : Head)
  /-- cget.top (R369). -/
  | cgetTop (h : Head)
  /-- mov (R370). -/
  | mov (h : Head)
  /-- movd (R370). -/
  | movd (h : Head)
  /-- csub (R371). -/
  | csub (h : Head)
  /-- cchk (R372). -/
  | cchk (h : Head)
  /-- beq (R374). -/
  | beq (h : Head)
  /-- bne (R374). -/
  | bne (h : Head)
  /-- blt (R374). -/
  | blt (h : Head)
  /-- bge (R374). -/
  | bge (h : Head)
  /-- bltu (R374). -/
  | bltu (h : Head)
  /-- bgeu (R374). -/
  | bgeu (h : Head)
  /-- bz (R374). -/
  | bz (h : Head)
  /-- bnz (R374). -/
  | bnz (h : Head)
  /-- jmp (R375). -/
  | jmp (h : Head)
  /-- jmp.c (R376). -/
  | jmpC (h : Head)
  /-- call (R375). -/
  | call (h : Head)
  /-- call.c (R376). -/
  | callC (h : Head)
  /-- ret (R376). -/
  | ret (h : Head)
  /-- loop (R377). -/
  | loop (h : Head)
  /-- end (R378). -/
  | endFiring (h : Head)
  /-- ende (R378). -/
  | ende (h : Head)
  /-- yield (R380). -/
  | yield (h : Head)
  /-- waitt (R381). -/
  | waitt (h : Head)
  /-- waite.msg (R383). -/
  | waiteMsg (h : Head)
  /-- waite.str (R383). -/
  | waiteStr (h : Head)
  /-- waite.ring (R383). -/
  | waiteRing (h : Head)
  /-- waite.slot (R383). -/
  | waiteSlot (h : Head)
  /-- fire (R384). -/
  | fire (h : Head)
  /-- trap (R387). -/
  | trap (h : Head)
  /-- eret (R388). -/
  | eret (h : Head)
  /-- grow.c (R385). -/
  | growC (h : Head)
  /-- grow.v (R385). -/
  | growV (h : Head)
  /-- shrink.c (R386). -/
  | shrinkC (h : Head)
  /-- shrink.v (R386). -/
  | shrinkV (h : Head)
  /-- ld (R393). -/
  | ld (h : Head)
  /-- st (R393). -/
  | st (h : Head)
  /-- ldc (R394). -/
  | ldc (h : Head)
  /-- stc (R394). -/
  | stc (h : Head)
  /-- ldaq (R395). -/
  | ldaq (h : Head)
  /-- strl (R395). -/
  | strl (h : Head)
  /-- fence.ar (R396). -/
  | fenceAr (h : Head)
  /-- fence.acq (R396). -/
  | fenceAcq (h : Head)
  /-- fence.rel (R396). -/
  | fenceRel (h : Head)
  /-- fence.full (R396). -/
  | fenceFull (h : Head)
  /-- movb (R397). -/
  | movb (h : Head)
  /-- fill (R397). -/
  | fill (h : Head)
  /-- ipin.l1i (R399). -/
  | ipinL1i (h : Head)
  /-- ipin.l2 (R399). -/
  | ipinL2 (h : Head)
  /-- ipin.pf1 (R399). -/
  | ipinPf1 (h : Head)
  /-- ipin.pf2 (R399). -/
  | ipinPf2 (h : Head)
  /-- ipin.un (R399). -/
  | ipinUn (h : Head)
  /-- cache.wb (R399). -/
  | cacheWb (h : Head)
  /-- cache.inv (R399). -/
  | cacheInv (h : Head)
  /-- cache.pf1 (R399). -/
  | cachePf1 (h : Head)
  /-- cache.pf2 (R399). -/
  | cachePf2 (h : Head)
  /-- aadd (R403). -/
  | aadd (h : Head)
  /-- aand (R403). -/
  | aand (h : Head)
  /-- aor (R403). -/
  | aor (h : Head)
  /-- axor (R403). -/
  | axor (h : Head)
  /-- amin (R403). -/
  | amin (h : Head)
  /-- amax (R403). -/
  | amax (h : Head)
  /-- aminu (R403). -/
  | aminu (h : Head)
  /-- amaxu (R403). -/
  | amaxu (h : Head)
  /-- aswp (R403). -/
  | aswp (h : Head)
  /-- afadd (R403). -/
  | afadd (h : Head)
  /-- afmax (R403). -/
  | afmax (h : Head)
  /-- acas (R404). -/
  | acas (h : Head)
  /-- redadd (R405). -/
  | redadd (h : Head)
  /-- redand (R405). -/
  | redand (h : Head)
  /-- redor (R405). -/
  | redor (h : Head)
  /-- redxor (R405). -/
  | redxor (h : Head)
  /-- redmin (R405). -/
  | redmin (h : Head)
  /-- redmax (R405). -/
  | redmax (h : Head)
  /-- redminu (R405). -/
  | redminu (h : Head)
  /-- redmaxu (R405). -/
  | redmaxu (h : Head)
  /-- redfadd (R405). -/
  | redfadd (h : Head)
  /-- redfmax (R405). -/
  | redfmax (h : Head)
  /-- take (R406). -/
  | take (h : Head)
  /-- peek (R406). -/
  | peek (h : Head)
  /-- trytake (R406). -/
  | trytake (h : Head)
  /-- feget (R406). -/
  | feget (h : Head)
  /-- put (R406). -/
  | put (h : Head)
  /-- fput (R406). -/
  | fput (h : Head)
  /-- fclr (R406). -/
  | fclr (h : Head)
  /-- bar (R409). -/
  | bar (h : Head)
  /-- barin (R409). -/
  | barin (h : Head)
  /-- barwt (R409). -/
  | barwt (h : Head)
  /-- barmax (R411). -/
  | barmax (h : Head)
  /-- gang (R412). -/
  | gang (h : Head)
  /-- send (R414). -/
  | send (h : Head)
  /-- send.c (R414). -/
  | sendC (h : Head)
  /-- send.r (R414). -/
  | sendR (h : Head)
  /-- nput (R415). -/
  | nput (h : Head)
  /-- nput.arm (R415). -/
  | nputArm (h : Head)
  /-- push (R416). -/
  | push (h : Head)
  /-- consume (R417). -/
  | consume (h : Head)
  /-- vadd (R422). -/
  | vadd (h : Head)
  /-- vsub (R422). -/
  | vsub (h : Head)
  /-- vmul (R422). -/
  | vmul (h : Head)
  /-- vfma (R422). -/
  | vfma (h : Head)
  /-- vfms (R422). -/
  | vfms (h : Head)
  /-- vmin (R422). -/
  | vmin (h : Head)
  /-- vmax (R422). -/
  | vmax (h : Head)
  /-- vand (R423). -/
  | vand (h : Head)
  /-- vor (R423). -/
  | vor (h : Head)
  /-- vxor (R423). -/
  | vxor (h : Head)
  /-- vandn (R423). -/
  | vandn (h : Head)
  /-- vshl (R424). -/
  | vshl (h : Head)
  /-- vshr (R424). -/
  | vshr (h : Head)
  /-- vsra (R424). -/
  | vsra (h : Head)
  /-- vcmp (R425). -/
  | vcmp (h : Head)
  /-- vsel (R426). -/
  | vsel (h : Head)
  /-- mand (R427). -/
  | mand (h : Head)
  /-- mor (R427). -/
  | mor (h : Head)
  /-- mxor (R427). -/
  | mxor (h : Head)
  /-- mnot (R427). -/
  | mnot (h : Head)
  /-- mpop (R427). -/
  | mpop (h : Head)
  /-- mfirst (R427). -/
  | mfirst (h : Head)
  /-- vrcp (R428). -/
  | vrcp (h : Head)
  /-- vrsq (R428). -/
  | vrsq (h : Head)
  /-- vexp2 (R428). -/
  | vexp2 (h : Head)
  /-- vlog2 (R428). -/
  | vlog2 (h : Head)
  /-- vsqrt (R428). -/
  | vsqrt (h : Head)
  /-- vtanh (R428). -/
  | vtanh (h : Head)
  /-- vredsum (R429). -/
  | vredsum (h : Head)
  /-- vredmax (R429). -/
  | vredmax (h : Head)
  /-- vredmin (R429). -/
  | vredmin (h : Head)
  /-- vscan (R430). -/
  | vscan (h : Head)
  /-- vperm (R431). -/
  | vperm (h : Head)
  /-- vbcast (R432). -/
  | vbcast (h : Head)
  /-- vextr (R433). -/
  | vextr (h : Head)
  /-- vins (R433). -/
  | vins (h : Head)
  /-- vmov (R434). -/
  | vmov (h : Head)
  /-- vld (R436). -/
  | vld (h : Head)
  /-- vld.s (R436). -/
  | vldS (h : Head)
  /-- vld.g (R436). -/
  | vldG (h : Head)
  /-- vst (R437). -/
  | vst (h : Head)
  /-- vst.s (R437). -/
  | vstS (h : Head)
  /-- vst.x (R437). -/
  | vstX (h : Head)
  /-- vcvt (R439). -/
  | vcvt (h : Head)
  /-- vqnt (R441). -/
  | vqnt (h : Head)
  /-- vdeq (R442). -/
  | vdeq (h : Head)
  /-- sbind (R443). -/
  | sbind (h : Head)
  /-- sunbind (R445). -/
  | sunbind (h : Head)
  /-- sstat (R446). -/
  | sstat (h : Head)
  /-- sclaim (R450). -/
  | sclaim (h : Head)
  /-- srel (R450). -/
  | srel (h : Head)
  /-- sfmt (R451). -/
  | sfmt (h : Head)
  /-- sload (R452). -/
  | sload (h : Head)
  /-- mma (R456). -/
  | mma (h : Head)
  /-- azero (R458). -/
  | azero (h : Head)
  /-- astore (R459). -/
  | astore (h : Head)
  /-- aload (R459). -/
  | aload (h : Head)
  /-- ascale (R458). -/
  | ascale (h : Head)
  /-- amovv (R458). -/
  | amovv (h : Head)
  /-- mfc (R461). -/
  | mfc (h : Head)
  /-- mtc (R462). -/
  | mtc (h : Head)
  /-- cpgo (R463). -/
  | cpgo (h : Head)
  /-- compose (R464). -/
  | compose (h : Head)
  /-- decompose (R465). -/
  | decompose (h : Head)
  /-- pair (R466). -/
  | pair (h : Head)
  /-- unpair (R467). -/
  | unpair (h : Head)
  /-- ctx.save (R469). -/
  | ctxSave (h : Head)
  /-- ctx.load (R470). -/
  | ctxLoad (h : Head)
  /-- ctx.drop (R471). -/
  | ctxDrop (h : Head)
  /-- tlbinv.va (R472). -/
  | tlbinvVa (h : Head)
  /-- tlbinv.asid (R472). -/
  | tlbinvAsid (h : Head)
  /-- tlbinv.all (R472). -/
  | tlbinvAll (h : Head)
  /-- tagset (R474). -/
  | tagset (h : Head)
  /-- dirrd (R475). -/
  | dirrd (h : Head)
  /-- dirwr (R475). -/
  | dirwr (h : Head)
  /-- reply (R476). -/
  | reply (h : Head)
  /-- fwd (R477). -/
  | fwd (h : Head)
  /-- btx (R478). -/
  | btx (h : Head)
  /-- hdone (R479). -/
  | hdone (h : Head)
  /-- R117: Packet that sends an active message to the home core of its data address and signals on retirement. -/
  | actmsg (slot : Nat)
  /-- R118: Packet that reads a launch header and starts a sweep, or refuses it. -/
  | sweep (slot : Nat)
  /-- R119: Packet that, after earlier packets complete, stores or adds a value at system scope as a release. -/
  | signal (slot : Nat)
  /-- R120: Packet that blocks later packets until its memory test holds, aborting GUARD dependants under CMP 4. -/
  | wait (slot : Nat)
  /-- R120: An open WAIT rereads its word at least every 2 µs. -/
  | waitReread (slot : Nat)
  /-- R121: Packet that stores or adds a value at the home. -/
  | write (slot : Nat)
  /-- R122: Packet that tests a word once and issues or skips the next SKIP packets. -/
  | pred (slot : Nat)
  /-- R123: Packet that executes a buffer at the next indirection level. -/
  | ind (slot : Nat)
  /-- R124: Packet that repeats the BACK bytes before it COUNT times. -/
  | loopPacket (slot : Nat)
  /-- R125: Packet that waits for earlier packets and discards the prefetched bytes beyond it. -/
  | ffence (slot : Nat)
  /-- R127: Packet that updates its vector's coalescer and counts one event. -/
  | intr (slot : Nat)
  /-- R129: Packet that checks a graph descriptor and starts an iteration by launching the root nodes. -/
  | graph (slot : Nat)
  /-- R115: A packet with B set issues, as a system-scope acquire, once every earlier packet of the queue has completed. -/
  | packetBarrierIssue (slot : Nat)
  /-- R91: Power is applied. The security block verifies a boot slot, writes the strip map and FWCTL, loads firmware and starts the control column, which trains memory and links and opens the PF. -/
  | powerOn
  /-- R28: A host command or thermal trip resets all dies and the strip map, zeroes HBM and boots again, keeping the black box and fuse map. -/
  | deviceReset
  /-- R85: A PCIe function-level reset of a VF tears down its queues, closes its fault records and resets HVSEL, FQCTL.EN and ICOAL. -/
  | functionLevelReset (f : Nat)
  /-- R85: A function-level reset of the PF acts as a function-level reset of every function and disables SR-IOV. -/
  | pfFunctionLevelReset
  /-- R28: The control column resets one die's cores, L2 slices, routers and edge ports after an uncontainable error, with HBM held in self-refresh. -/
  | computeDieReset (die : Nat) (failed : List Nat)
  /-- R28: Loss of standby power loses the black-box record. -/
  | standbyPowerLoss
  /-- R27: The power limiter changes a die's throttle step to hold the 100 ms and 1 ms power averages and records the change in the black box. -/
  | powerLimitWindow (die step : Nat)
  /-- R27: A die junction reaches 105 °C and the die is throttled whatever the power. -/
  | thermalThrottle (die step : Nat)
  /-- R27: A junction reaches 115 °C. The event is recorded, a freeze starts, and the device resets. -/
  | thermalTrip (die : Nat)
  /-- R86: Every 1 ms, MGMTPWR and MGMTTEMP are updated with power averages, throttle steps and temperatures. `pmax` is the highest
  1 ms average since the host last read MGMTPWR (log 75). -/
  | mgmtUpdate (pavg pmax : Nat) (temps : BitVec 48)
  /-- R19: The control column pre-empts a strip's firings, fences it, copies its state to the new half-column, writes the map entry and restores the firings. -/
  | stripMapChange (strip : Nat) (entry : BitVec 32)
  /-- R19: A sender whose in-flight access got a negative acknowledgement at a remap retries it against the new placement. -/
  | fencedAccessRetry (idx : Nat)
  /-- R33: A flit fails its per-hop CRC, and the receiving end asks for a resend from that flit. -/
  | flitCrcResend (port : Nat)
  /-- R33: Sixteen consecutive per-hop resends fail, and the link is declared down. -/
  | linkResendFailureLimit (port : Nat)
  /-- R33: A link end loses block lock and declares the link down. -/
  | blockLockLoss (port : Nat)
  /-- R33: No valid flit arrives for 2 µs, and the link is declared down. -/
  | linkIdleTimeout (port : Nat)
  /-- R33: A link end sends an idle flit at least every 256 ns. -/
  | idleFlit (port : Nat)
  /-- R60: A Xitrum link trains to the highest common version, rate and width. A link with no common version stays down and is recorded. -/
  | linkTraining (port : Nat) (peer : LinkOffer)
  /-- R54: A sequenced read request arrives, passes the duplicate filter and ordering, and is read at the home. RDATA answers it. -/
  | rd (port : Nat) (p : Packet)
  /-- R54: A whole-block write arrives and, once accepted, is performed at the home slice. -/
  | wr (port : Nat) (p : Packet)
  /-- R54: A masked write arrives and is performed at the home slice. -/
  | wrm (port : Nat) (p : Packet)
  /-- R54: An atomic packet arrives and is performed at the fabric atomic unit. ARES answers it, and the result cache records it. -/
  | amo (port : Nat) (p : Packet)
  /-- R244: A reduction contribution is accepted and combined into the receiving port Prism's partial buffer, or refused when the region is not RED. -/
  | redc (port : Nat) (p : Packet)
  /-- R54: An active message arrives and is enqueued at its target core's inbound queue, or returned undeliverable. -/
  | msg (port : Nat) (p : Packet)
  /-- R46: A signal packet writes or increments its word once every earlier packet of its window has been performed. -/
  | sig (port : Nat) (p : Packet)
  /-- R240: A probe, invalidation or recall arrives and is dispatched at the receiving Prism. -/
  | prb (port : Nat) (p : Packet)
  /-- R46: Read data arrives and completes the outstanding request. A reply for a request no longer outstanding is dropped. -/
  | rdata (port : Nat) (p : Packet)
  /-- R46: An atomic result arrives and completes the outstanding atomic, or is dropped. -/
  | ares (port : Nat) (p : Packet)
  /-- R42: A cumulative acknowledgement frees retry copies up to DONE and raises BASE. -/
  | ack (port : Nat) (p : Packet)
  /-- R47: A refusal arrives and is reported under its status, or resent later for RETRY. -/
  | nak (port : Nat) (p : Packet)
  /-- R54: A SEND reply arrives and is enqueued in the requesting core's reply entries. -/
  | mrep (port : Nat) (p : Packet)
  /-- R57: An ACK with the SYNC bit sets the receiver's CUM to BASE − 1 and clears that source's map and result cache. -/
  | sync (port : Nat) (p : Packet)
  /-- R42: A window with unacknowledged packets sends an ACK at least every 1 µs. -/
  | ackTimer (src lane : Nat)
  /-- R50: A window's acknowledgement timer reaches TACK, and the window fails over with its partner lane. -/
  | tackExpiry (dest lane : Nat)
  /-- R53: After every candidate has been DOWN for 100 µs, every outstanding request completes UNREACHABLE and the sequence state is freed. -/
  | unreachableTimeout (dest : Nat)
  /-- R53: When a new route entry follows UNREACHABLE, new requests are held for 1 ms and then SYNC is sent on each lane. -/
  | resyncHoldExpiry (dest : Nat)
  /-- R47: A request refused with RETRY is sent again as a new packet after 1 µs, up to 64 times, and then reported FENCED. -/
  | nakRetryResend (idx : Nat)
  /-- R51: The control column checks the path over a candidate and clears its DOWN bit on success. -/
  | pathCheck (dest cand : Nat) (ok : Bool)
  /-- R56: Once COUNT reaches EXPECT and the released remote writes are covered, the device sends BARA and sets STATE 2. -/
  | baraSend (entry : Nat)
  /-- R56: A barrier release for the current epoch releases the waiting firings, resets COUNT, advances EPOCH and closes RED blocks. -/
  | barb (port : Nat) (p : Packet)
  /-- R56: A switch-failure notice makes the device resend BARA for the open epoch on its next candidate. -/
  | treeNotice (entry : Nat)
  /-- R56: No BARB has come within 2 × TACK of a failover, and BARA is resent on the next candidate. -/
  | barbTimeout (entry : Nat)
  /-- R57: One millisecond after a device reset, the device sends SYNC to each destination it will use. -/
  | postResetSync (dest : Nat)
  /-- R59: A scale-out Ethernet frame arrives. It is discarded if malformed, and its packets are otherwise processed. -/
  | scaleOutFrame (port : Nat) (fr : Frame)
  /-- R65: A host write chooses versions. A write that is unsupported, or made while queues are mapped, is refused and sets VERR. -/
  | hvselWrite (f : Nat) (v : W64)
  /-- R66: Writing 1 clears HSTAT's sticky error flags. -/
  | hstatWrite (f : Nat) (v : W64)
  /-- R68: The PF sets a function's ASID range and slot quota. An invalid write is refused and sets CFGERR. -/
  | vfctlWrite (f : Nat) (v : W64)
  /-- R107: Sets the queue directory. The write is discarded while any queue of the function is enabled. -/
  | qdirbaseWrite (f : Nat) (v : W64)
  /-- R63: A write to a host-visible register that has no behaviour of its own stores the value. A write to an undefined offset is discarded. -/
  | registerWrite (f off : Nat) (v : W64)
  /-- R104: A write of the header's SEL bit chooses the I/O die whose record the window shows. -/
  | blackboxSelWrite (sel : Bool)
  /-- R74: The host advances its fault-queue head, and waiting fault records are written into the freed ring entries. -/
  | fqheadWrite (f : Nat) (v : W64)
  /-- R75: FRESUME with ACT 0 closes the record and makes every parked firing retry its access. -/
  | fresumeRetry (f : Nat) (v : W64)
  /-- R75: FRESUME with ACT 1 closes the record and delivers the fault as a trap to every parked firing. -/
  | fresumeDeliver (f : Nat) (v : W64)
  /-- R77: TIMER µs after the oldest pending event, the vector's MSI-X message is sent and PEND is cleared. -/
  | coalesceTimer (f vec : Nat)
  /-- R77: A masked vector with its pending bit set sends its message on unmask. -/
  | msixUnmask (f vec : Nat)
  /-- R83: BIASCTL GO starts a flip of a page range. The flip is refused if busy or if the range runs out of bounds. -/
  | biasFlipStart (v : W64)
  /-- R84: Once no range lock covers a busy page, the CXL Prism writes back or recalls its lines, switches its tags and releases the waiting accesses. -/
  | biasFlipPage
  /-- R84: A flip that has waited over 1 ms on range locks posts a FLIPWAIT record and later ends with STATUS 3. -/
  | biasFlipWaitTimeout
  /-- R82: A host CXL.mem access to device HBM is served from HBM, after a recall when the page is in device bias. -/
  | hostMemAccess (addr : Nat) (data : Option (BitVec 512))
  /-- R80: A host snoop makes the CXL port Prism recall the host line from the L2 slices that hold it. -/
  | h2dSnoop (addr : Nat) (data : Option (BitVec 512))
  /-- R80: The CXL Prism's RdShared or RdOwn completes, and the line fills the home slice and releases the suspended access. -/
  | hostLineFill (addr : Nat) (data : BitVec 512) (own : Bool)
  /-- R70: The front end reads a mapped queue's write-pointer word at least every 2 µs, or at once when it has drained, and fetches new packets. -/
  | wptrPoll (slot : Nat)
  /-- R96: The mailbox command returns the identity certificate chain. -/
  | getcert
  /-- R97: Returns an attestation report over the nonce, the SVN, the digests and CYC, signed with the identity key. -/
  | attest
  /-- R98: Checks a hot-patch image and gates the listed functions while it waits for their activity counts. -/
  | patch (sigOk : Bool)
  /-- R98: Once the listed activity counts read zero, the entries are written, the version is updated, the digest is extended and the gates are cleared. -/
  | patchApply
  /-- R98: The activity counts are still non-zero after 1 ms, so the gates are cleared and the patch is refused with STATUS 5. -/
  | patchQuiesceTimeout
  /-- R100: Fences a containment rectangle: ROLE 0b10, boundary routers NAK, firings inside abort. `r` is
  the rectangle that the request in the buffer names. -/
  | containFence (r : Rect)
  /-- R100: Fences a rectangle and then resets its strips under R29 and R30. -/
  | containReset (r : Rect) (failed : List Nat)
  /-- R100: Releases a fenced rectangle by setting ROLE 0b00. -/
  | containRelease (r : Rect)
  /-- R92: The host confirms the image, and the fused anti-rollback count is raised when SVNC is set. -/
  | commit
  /-- R105: Starts a black-box freeze. -/
  | bbctlFreeze
  /-- R105: Clears FROZEN and LOST in the black-box record. -/
  | bbctlUnfreeze
  /-- R105: After 256 further entries following a freeze start, the record sets FROZEN. -/
  | blackboxFrozen (die : Nat)
  /-- R95: Applies route, domain-barrier and scale-out MAC entries in order, path-checks the route candidates, and stops at the first refused entry. -/
  | fabcfg (pathOk : List Bool)
  /-- R103: With encryption on, the patrol visits each page once per PATROL hours, corrects ECC errors and recomputes the integrity tag. `ecc` lists
  32-byte words that have gained an error that ECC corrects, `integBad` says that the page no longer fits its tag (log 88). -/
  | patrolScrub (page : Nat) (ecc : List Nat) (integBad : Bool)
  /-- R129: A node completes and its successors' counts fall. The graph ends, or aborts, when every node is done. -/
  | graphNodeComplete (graph node : Nat)
  /-- R112: The gang-mapping service maps pending gangs by priority and age, unmapping older low-priority gangs at a packet boundary. -/
  | gangMap (f gang : Nat)
  /-- R111: Write pointers of enabled unmapped queues are polled at least every 100 µs to find pending gangs. -/
  | unmappedQueuePoll (f q : Nat)
  /-- R131: A cleared EN or a reset tears a queue down: issue stops, firings are discarded, copies are cancelled, signals are written aborted and TDONE is set. -/
  | queueTeardown (f q : Nat)
  /-- R146: When every core of the range has reported its share, the front end writes SIGNAL done or failed. -/
  | sweepSignal (sweep : Nat)
  /-- R488: A core accepts a sweep wake, rereads and checks the actor record, and enumerates its share into the firing queue. -/
  | sweepWakeAccept (core : Nat)
  /-- R134: The head of the firing queue gets a context and chunks. The generation advances and the start registers are set. -/
  | firingPlace (core : Nat)
  /-- R149: A binding whose inputs, credits and queue room allow it gets a FIFO firing queued. -/
  | fifoFire (core binding : Nat)
  /-- R416: A pushed entry arrives at the consumer's FIFO and is appended, or refused with a credit return and a record. -/
  | fifoEntryArrival (idx : Nat)
  /-- R150: A credit return raises the producer binding's CRED and re-evaluates the firing rule. -/
  | creditReturn (idx : Nat)
  /-- R147: A write of a control-page FIFO entry sets it up, or drops it when V is cleared. -/
  | fifoTableWrite (core entry : Nat) (v : BitVec 128)
  /-- R148: A binding-table write reads and checks the actor record. V stays 0 when the record is invalid. -/
  | bindingWrite (core entry : Nat) (v : BitVec 128)
  /-- R153: A message enters the core's inbound queue, or the spill ring when the queue is full or the ring is occupied, or is held when the ring is full. -/
  | messageArrival (idx : Nat)
  /-- R157: An undeliverable return reaches its sender. The sender traps at its next boundary, or a QUIET ring record is written. -/
  | undeliverableReturn (idx : Nat)
  /-- R159: A GROW stall lasting 2^20 cycles posts one GROWSTALL record. -/
  | growstall (core : Nat)
  /-- R161: A queued firing that has waited 2^20 cycles rises one priority level. -/
  | priorityAgeing (core idx : Nat)
  /-- R162: A context that has held the issue slot for 4,096 cycles releases it and parks until its results return. -/
  | slotLimitExpiry (core : Nat)
  /-- R174: A variable-latency result arrives, sets the presence bit and ends any stall or park waiting on it. -/
  | resultArrival (cid idx : Nat)
  /-- R164: An unrecorded full/empty waiter retries its operation every 256 cycles. -/
  | feWaiterRetry (cid : Nat)
  /-- R167: The pre-emption service stops a firing at a boundary, waits for its results and writes its image to the save area. -/
  | preempt (cid : Nat)
  /-- R307: Every write of the image is performed at its home. The context frees and the firing is requeued or held. -/
  | saveComplete (cid : Nat)
  /-- R168: A saved firing whose context is free and at the head is restored into its context and resumes. -/
  | restore (core : Nat)
  /-- R176: A neighbour write or window copy lands in an armed register, waits in the hold buffer, updates a saved image, or returns undeliverable. -/
  | neighbourWriteArrival (idx : Nat)
  /-- R175: A store's acknowledgement frees its store-buffer entry. -/
  | storeAck (core idx : Nat)
  /-- R179: A read stream unit performs pattern loads ahead of the pops, up to 4 registers. -/
  | streamPrefetch (core unit : Nat)
  /-- R212: An ownership notice clears a core's owned bits for a line, or drops a strip atomic unit's copy, and is acknowledged. -/
  | ownershipNotice (idx : Nat)
  /-- R219: The home acknowledges a strip atomic unit's write-through, and the atomic is performed and returns its result. -/
  | stripAtomicAck (strip idx : Nat)
  /-- R217: A forwarded write to a replicated page reaches another die's home and is written there. -/
  | replicaForward (idx : Nat)
  /-- R217: Under MCA 1, once all four busy marks are acknowledged, the replicas are written, the marks cleared and the writer acknowledged. -/
  | replicaMarkAck (idx : Nat)
  /-- R220: A home slice evicts a line, writing dirty local lines to HBM and sending PUTM or PUTS for proxied lines. -/
  | l2Eviction (line : Nat)
  /-- R187: The gang watchdog count reaches GWLIM, and a gang peer fault record is posted. -/
  | gangWatchdog (strip : Nat)
  /-- R457: An array operation starts after the sixteenth MMA issue, or after the previous operation ends. -/
  | arrayOperationStart (strip : Nat)
  /-- R457: Twenty-four cycles after the operation's last cycle, the MMA retires on every rank and its bank holds the result. -/
  | mmaRetire (strip : Nat)
  /-- R188: Once every element is free, the registers are spread and the lens starts after COMPOSE. -/
  | lensStart (cid : Nat)
  /-- R191: A branch resolves against the dealt line. Later heads are discarded and dealing restarts. -/
  | lensBranchResolve (cid : Nat)
  /-- R201: Agreeing fingerprints confirm the interval. Its held stores drain and its ending head is performed by the primary. -/
  | mirrorIntervalConfirm (cid : Nat)
  /-- R202: Disagreeing fingerprints roll both cores back to the checkpoint, re-execute and record. A second disagreement fences. -/
  | mirrorMismatch (cid : Nat)
  /-- R466: The partner context comes free, the firing's state is copied, and checked execution starts. -/
  | pairStart (cid : Nat)
  /-- R231: A Prism thread takes an inbox message and starts its handler from the governing handler table, or refuses it when the entry is absent. -/
  | prismDispatch (prism thread : Nat)
  /-- R241: A read-share request reaches the home Prism and is granted read-only or starts a recall. -/
  | gets (prism idx : Nat)
  /-- R241: A write-ownership request invalidates sharers or recalls the owner before a writable grant. -/
  | getm (prism idx : Nat)
  /-- R241: A clean release from a holder removes it, or is discarded as stale. -/
  | puts (prism idx : Nat)
  /-- R241: A dirty write-back from the owner writes HBM when current, and is dropped when stale. -/
  | putm (prism idx : Nat)
  /-- R241: Probe data answers a recall, is written to HBM, and the waiting request is granted. -/
  | pdata (prism idx : Nat)
  /-- R241: A probe answered without data, covered by an ACK, completes a round or is discarded. -/
  | probeAnswer (prism idx : Nat)
  /-- R241: A suspended local load reaches its Prism, which recalls or requests the block. -/
  | lread (prism idx : Nat)
  /-- R241: A suspended local store reaches its Prism, which invalidates or recalls copies, or performs it under UPD, PUSH or ONCE. -/
  | lwrite (prism idx : Nat)
  /-- R241: A suspended local atomic reaches its Prism, which invalidates or recalls copies. -/
  | latom (prism idx : Nat)
  /-- R242: A grant at the proxy fills the line with its tag and SEQ and releases the suspended accesses. -/
  | grant (prism idx : Nat)
  /-- R242: An update or push arriving at a proxy fills the line into its home slice. -/
  | update (prism idx : Nat)
  /-- R242: A probe at the proxy drops or downgrades the copy and answers with PDATA when dirty. -/
  | proxyProbe (prism idx : Nat)
  /-- R251: A LOST notice poisons the block, marks it busy-poisoned and moves its entry to I. -/
  | lost (prism idx : Nat)
  /-- R248: A push release makes the home push every marked block to each consumer and clear the marks. -/
  | pushrel (prism idx : Nat)
  /-- R477: A NAK answering a Prism's FWD completes suspended accesses and is dispatched as type 0x3F, or recorded. -/
  | fwdNak (prism idx : Nat)
  /-- R236: A handler run reaches the watchdog limit and is stopped. The block stays busy and a record is posted. -/
  | handlerWatchdog (prism thread : Nat)
  /-- R234: Room in the outbound request queue drains the Prism's spill ring, oldest first. -/
  | prismSpillDrain (prism : Nat)
  /-- R479: A message left by HDONE RETRY is dispatched again when a record frees, or after 256 cycles. -/
  | retryRedispatch (prism idx : Nat)
  /-- R235: PRCMD command that makes every Prism reread the region table. -/
  | rtsync
  /-- R229: PRCMD command that rebinds a region: busy, close reductions, recall copies, reset tags, switch protocol, advance VERSION. -/
  | rebind
  /-- R235: PRCMD command that discards a busy block's transaction record, sets its tag and re-dispatches or refuses its parked accesses. -/
  | unbusy
  /-- R235: PRCMD command that sets the handler watchdog limit of one or every Prism. -/
  | setwd
  /-- R250: PRCMD command that locks a page read-only and copies it to its new place. -/
  | migrate
  /-- R250: PRCMD command that answers the parked writes with RETRY and clears LOCK. -/
  | migdone
  /-- R243: A partial-buffer entry open for 100 µs is sent as one REDC. -/
  | partialEntryTimeout (prism idx : Nat)
  /-- R257: A copy's last write is performed. The signal is sent, the locks freed, the ring record written and the release performed. -/
  | copyComplete (idx : Nat)
  /-- R258: CYC reaches an incomplete copy's promise while a context waits on it, and that context takes trap 0x0D once. -/
  | promiseMissed (cid : Nat)
  /-- R293: A page walk ends with a leaf, installing translations for its coalesced misses, or with a fault. -/
  | tlbWalkComplete (idx : Nat)
  /-- R381: CYC reaches a WAITT's operand and the wait ends. -/
  | waittExpiry (cid : Nat)
  /-- R84: The host's answer to the CXL port Prism's RdOwnNoData for the lines of a page being flipped to device bias arrives, after which the Prism switches the page's tags and releases its parked and held accesses. -/
  | rdownnodataCompletion
  deriving DecidableEq, Repr

end Sys2Proof
end

