-- ==== Sys2Proof/Config.lean ====
section
/-! DEFINITION. What an implementation or the environment fixes and the spec leaves open: constants
marked by a log entry, and the free values, which have no body, so that nothing can evaluate them. -/

namespace Sys2Proof.Config

/-- Number of control-column columns `c` (R1, R2 of 00_scope.md: the device ships with 1). -/
def columns : Nat := 1
/-- The device's number in the domain. DESIGN CHOICE (log 6): the fabric manager's choice; 0. -/
def device : Nat := 0
/-- Whether the configuration table enables the fabric (R48, R89 FLAGS bit 1). DESIGN CHOICE (log 6). -/
def fabric : Bool := true
/-- Whether the configuration table turns HBM encryption on (R89 FLAGS bit 0). DESIGN CHOICE (log 6). -/
def encryption : Bool := false
/-- TACK in µs: the default of R50. -/
def tackUs : Nat := 8
/-- Arithmetic cycles in one microsecond: 1.9 GHz (R6, R26). -/
def cyclesPerUs : Nat := 1900

/-- A fresh free value: what the spec leaves undefined after a step that goes on. DESIGN CHOICE (log 3): nothing
constrains it. -/
opaque freeWord : Nat → BitVec 64
/-- A fresh free byte. DESIGN CHOICE (log 3). -/
opaque freeByte : Nat → Byte
/-- Which value inside the stated error bound VRCP, VRSQ, VEXP2, VLOG2 or VTANH gives, by function and operand (R326).
DESIGN CHOICE (log 8): a free value. -/
opaque ulpPick : Nat → BitVec 32 → Nat
/-- The bytes of a certificate, a signature or a digest that R96 and R97 leave to keys. DESIGN CHOICE (log 9). -/
opaque secretByte : Nat → Byte
/-- SHA-512 of a list of digests (R97). DESIGN CHOICE (log 9): a free function. -/
opaque sha512 : List (BitVec 512) → BitVec 512
/-- A byte of the fabric state area as the fabric logic keeps it, by address and cycle: its layout is not given (R48, log 3). -/
opaque fabricByte : Nat → Nat → Byte
/-- The AES-256-XTS encryption of a 64-byte block: by boot (each boot draws its key), physical address and content (R103).
DESIGN CHOICE (log 9): a free function. -/
opaque aesXts : Nat → Nat → Nat → BitVec 512
/-- The keyed hash of a page's ciphertext and address, by boot (R103). DESIGN CHOICE (log 9): a free function. -/
opaque pageHash : Nat → Nat → List (BitVec 512) → BitVec 64
/-- Bytes of free patch space after boot (R98). DESIGN CHOICE (log 9): the spec gives no number. -/
opaque patchSpace : Nat
/-- What the engine adds to CYC + 64 for a promise (R255). DESIGN CHOICE (log 10). -/
opaque promiseSlack : Nat → Nat

end Sys2Proof.Config
end

