-- ==== Sys2Proof/Machine/Sparse.lean ====
section
/-! DEFINITION. Sparse tables: plain data for memories, register files and the large tables of the
device. A table is a list of (key, value) with strictly rising keys and no value equal to the default
that an unlisted key reads as, so equal tables are equal lists. -/

namespace Sys2Proof.Machine

/-- A sparse table; the default value belongs to the reader. -/
abbrev SMap (α : Type) := List (Nat × α)

namespace SMap

variable {α : Type}

/-- The value at `k`, or the default. -/
def get (d : α) : SMap α → Nat → α
  | [], _ => d
  | (j, x) :: rest, k => if k == j then x else get d rest k

/-- Remove what key `k` lists. -/
def erase : SMap α → Nat → SMap α
  | [], _ => []
  | (j, x) :: rest, k => if k == j then erase rest k else (j, x) :: erase rest k

/-- Put `x` at key `k`, keeping the keys rising. -/
def insert : SMap α → Nat → α → SMap α
  | [], k, x => [(k, x)]
  | (j, y) :: rest, k, x =>
    if k == j then (k, x) :: rest else if k < j then (k, x) :: (j, y) :: rest else (j, y) :: insert rest k x

/-- Set the value at `k`; a value equal to the default is not listed. -/
def set [DecidableEq α] (d : α) (m : SMap α) (k : Nat) (x : α) : SMap α :=
  if x = d then erase m k else insert m k x

/-- Every listed key is above `lo`, keys rise strictly, and no listed value is the default. -/
def wfFrom [DecidableEq α] (d : α) : Nat → SMap α → Bool
  | _, [] => true
  | lo, (k, x) :: rest => decide (lo ≤ k) && decide (x ≠ d) && wfFrom d (k + 1) rest

/-- The canonical form of a table. -/
def wf [DecidableEq α] (d : α) (m : SMap α) : Bool := wfFrom d 0 m

end SMap

end Sys2Proof.Machine
end

