-- ==== Sys2Proof/Machine/State.lean ====
section
/-! DEFINITION. The state of one Urmetar X9 device, as plain data, the reasons a step can stop, and the
state after reset. Numbers that software never sees as a word are Nat; registers are bit vectors. A
context is numbered `core * 8 + context`; thread `t` of Prism `p` is context `32768 + 8 * p + t`. -/

namespace Sys2Proof.Machine

/-! ### What moves -/

/-- One agent's turn: a step of the device or its surroundings, a head of a core, a head of a Prism
thread, or the next packet of a mapped queue. -/
inductive Act where
  | event (i : Instr)
  | core (k : Nat)
  | thread (p t : Nat)
  | packet (slot : Nat)
  deriving DecidableEq, Repr

/-- What the world does to the device beside the steps of the table (log 88): `strike` is what radiation or wear does to a
32-byte word of HBM, 1 an error that ECC corrects, 2 one that it cannot, 3 a page whose integrity tag no longer fits;
`call` and `back` are a firmware function that is entered or returns (R98); `barRead` a host read of a register of a
function's BAR0 (R86); `sriov` and `hdm` what the host's configuration software writes into the SR-IOV capability and the
HDM decoder (R61, R79); `grant` an idle flit of the far end of a port, with the flits of credit that it grants for the request
lane and the reply lane (R33, R40); `leaves` the moment at which a message of the package network leaves its sender's outbound
queue (R155). -/
inductive Env where
  | strike (word kind : Nat)
  | call (fn : Nat)
  | back (fn : Nat)
  | barRead (f off : Nat)
  | sriov (on : Bool)
  | hdm (base : Nat)
  | grant (port req rep : Nat)
  | leaves (idx : Nat)
  deriving DecidableEq, Repr

/-- An input: the cycles that pass before it, what the world does before it, and whose turn it is (log 1, log 2). -/
structure Input where
  dt : Nat := 1
  act : Act
  env : List Env := []
  deriving DecidableEq, Repr

/-! ### Contexts -/

/-- The states of a context (R172 of 06_execution_model.md). -/
inductive CtxState where
  | free | ready | issuing | parked | stalled | waiting | saving
  deriving DecidableEq, Repr

/-- What a context waits for (R163 of 06_execution_model.md); `walk` is a translation in progress (R291),
`tag` an access suspended at a Prism (R225), `pairPark` a PAIR that waits for a partner (R466), `remote` a read that
RDATA answers (R54). -/
inductive Wait where
  | none
  | marker
  | waitt (until_ xid : Nat)
  | waiteMsg
  | waiteStr (v : Nat)
  | waiteRing (xid : Nat)
  | waiteSlot (slot : Nat)
  | fullEmpty (pa : Nat) (recorded : Bool)
  | barrier (level episode : Nat)
  | domBarrier (entry epoch : Nat)
  | gang
  | grow (vec : Bool) (n : Nat)
  | fault (id cause va : Nat)
  | compose (n : Nat)
  | release
  | mma
  | walk (page : Nat)
  | tag
  | pair
  | pairPark
  | remote (pa n : Nat)
  deriving DecidableEq, Repr

/-- The program counter: a line address (bits 56:6) and a head index (R331 of 12_isa_encoding.md). -/
structure Pc where
  line : Nat := 0
  head : Nat := 0
  deriving DecidableEq, Repr

/-- An actor record as read (R135 of 06_execution_model.md). -/
structure Actor where
  code : Cap := {}
  data : Cap := {}
  save : Cap := {}
  trape : Nat := 0
  ver : Nat := 0
  checked : Bool := false
  composable : Bool := false
  cch : Nat := 1
  vch : Nat := 0
  prio : Nat := 0
  spoff : Nat := 0
  splen : Nat := 0
  ins : List W64 := []
  outs : List W64 := []
  deriving DecidableEq, Repr

/-- Where a firing came from (R137). -/
inductive Path where
  | sweep (id : Nat)
  | fifo (binding : Nat)
  | fire
  | message
  deriving DecidableEq, Repr

/-- A firing: everything that belongs to it alone beside the registers of its context (R133, R137, R157,
R184, R305, R382, R408, R409, R411). -/
structure Firing where
  handle : Nat := 0
  path : Path := .fire
  actor : Actor := {}
  prio : Nat := 0
  cch : Nat := 1
  vch : Nat := 0
  asid : BitVec 12 := 0
  fn : Nat := 0
  queue : Nat := 0
  wid : W64 := 0
  packet : Option (Nat × Nat) := none
  wakes : Nat := 0
  saves : Nat := 0
  mmaOrd : Nat := 0
  mmaBad : Bool := false
  gangPassed : Bool := false
  arrivals : SMap Nat := []
  openBarin : SMap Nat := []
  missTaken : List Nat := []
  undelivered : List W64 := []
  lens : Option Nat := none
  paired : Bool := false
  deriving DecidableEq, Repr

/-- A value held for a register that is not armed (R176 of 07_cores_strips.md). -/
structure HoldEntry where
  isV : Bool
  reg : Nat
  sender : Nat
  cap : Cap
  vec : VReg
  deriving DecidableEq, Repr

/-- One read of an outstanding load: physical address, bytes, the value when the store buffer gave it at
issue (R175) or it has been performed, its tag, the TRAPINFO of poisoned data (R392), and whether it goes through the
L1 or is answered by RDATA (R54). -/
structure Piece where
  pa : Nat
  n : Nat
  known : Option Nat := none
  knownTag : Bool := false
  bad : Option Nat := none
  viaL1 : Bool := false
  remote : Bool := false
  deriving DecidableEq, Repr

/-- Where an outstanding result goes. -/
inductive Dst where
  | none
  | g (r : Nat)
  | v (r : Nat)
  | vs (r n : Nat)
  | bank (pa : Nat)
  | slotRow (slot rank : Nat) (scaled : Bool)
  deriving DecidableEq, Repr

/-- A read-modify-write: its F value, whether it is ACAS, bytes, operand, expected value and virtual address. -/
structure Rmw where
  f : Nat
  cas : Bool
  w : Nat
  y : Nat
  e : Nat
  va : Nat := 0
  deriving DecidableEq, Repr

/-- Where an atomic is performed (R262, R271); `fau` is the fabric atomic unit, or for a host line the CXL port Prism. -/
inductive Place where
  | l1 (pa : Nat)
  | sau (pa : Nat)
  | home (pa : Nat)
  | fau (pa : Nat)
  | packet (d off : Nat)
  deriving DecidableEq, Repr

/-- How the bytes of an outstanding load become a value, or what else an outstanding result waits for: an MMA that
retires (R457), the status of a CTX.SAVE (R468), the completion of a TLBINV (R472), an atomic or RED that its home holds
suspended, with its leaf and place (R225). -/
inductive Fin_ where
  | int (bytes : Nat) (sext : Bool)
  | cap (keepTag : Bool)
  | lanes (ks : List Nat) (old : VReg)
  | narrow (ks : List Nat) (old : VReg) (fmt : W64) (nibble : List Bool) (scales : Nat)
  | rows (bytes : Nat)
  | cst (c : Cap)
  | mma
  | status
  | inv
  | rmw (a : Rmw) (red : Bool) (attr : W64) (at_ : Place)
  deriving DecidableEq, Repr

/-- An outstanding result of variable latency (R174). -/
structure Pend where
  id : Nat
  dst : Dst
  pieces : List Piece := []
  fin : Fin_
  readyAt : Nat := 0
  deriving DecidableEq, Repr

/-- A store-buffer entry (R175): a store in program order of its core, with the tag an STC stores. `ep` counts the
fences of its context before it: stores of an earlier count are performed first (R269); `va` is the address that a
RETRY of a page migration translates again (R250), `home` the slice of its line (R214), `seen` lists the other contexts
of the core that have read it and publish it with their next release (R266), and `fenced` says that a fence of its context
follows it (R143). -/
structure SbEntry where
  pa : Nat
  n : Nat
  data : Nat
  tag : Bool := false
  cid : Nat := 0
  mca : Nat := 0
  ep : Nat := 0
  va : Nat := 0
  home : Nat := 0
  seen : List Nat := []
  fenced : Bool := false
  deriving DecidableEq, Repr

/-- A context of a core, or a Prism thread, with the registers of R337 and R343. Presence is kept inverted:
`absG` and `absV` list the registers whose presence bit is clear. `granted` says that the event a wait is for has
occurred, `since` when the wait began; `fetched` holds what RDATA answered a step of the head under way: address,
bytes, whether it is data, and the data or its status; `ep` counts the fences that order stores (R269);
`moving` holds, of a MOVB under way, where its source began and where its source and destination end (R397),
`storing` the lines of an ASTORE under way that have not entered the store buffer (R459), and `chunks` the allotment of
a mirror pair's partner context (R199). `relBegun` says that the release of the head under way has begun, `relSent` that
its writes are performed and its PUSHRELs follow, and `relPush` lists the homes whose PUSHREL it has yet to post (R243, R248). -/
structure Ctx where
  st : CtxState := .free
  wait : Wait := .none
  granted : Bool := false
  since : Nat := 0
  g : SMap Cap := []
  v : SMap VReg := []
  m : SMap (BitVec 32) := []
  f : SMap W64 := []
  fpflags : BitVec 6 := 0
  absG : SMap Bool := []
  absV : SMap Bool := []
  poiG : SMap Nat := []
  poiV : SMap Nat := []
  dirtyG : SMap Bool := []
  dirtyV : SMap Bool := []
  armG : SMap Bool := []
  armV : SMap Bool := []
  hold : List HoldEntry := []
  pc : Pc := {}
  sup : Bool := false
  fl : Bool := false
  trappc : W64 := 0
  trapcause : W64 := 0
  trapaddr : W64 := 0
  trapinfo : W64 := 0
  asid : BitVec 12 := 0
  tblsel : W64 := 0
  cpsrc : Cap := {}
  cpdst : Cap := {}
  cpring : Cap := {}
  cpcnt : W64 := 0
  cpstr : W64 := 0
  cpmcast : W64 := 0
  cpctl : W64 := 0
  gen : BitVec 8 := 0
  fir : Option Firing := none
  pend : List Pend := []
  nextPend : Nat := 0
  fetched : List (Nat × Nat × Bool × Nat) := []
  ep : Nat := 0
  moving : Option (Nat × Nat × Nat) := none
  storing : List SbEntry := []
  chunks : Option (Nat × Nat) := none
  relBegun : Bool := false
  relSent : Bool := false
  relPush : List Nat := []
  deriving DecidableEq, Repr

/-! ### Messages and the package network -/

/-- An active message (R151, R154, R413). `quiet` is the ring of a SEND with QUIET set; `packet` is the
ACTMSG that sent it, if any (function and packet number), `from_` the window and number of the fabric packet that brought
it; `left` says that it has left its sender's outbound queue (R155), `gone` that its queue was torn down while it stood in a
spill ring (R131). -/
structure Msg where
  left : Bool := false
  gone : Bool := false
  line : Nat
  target : W64
  sender : Nat
  asid : BitVec 12
  payload : List Cap
  reply : Bool := false
  quiet : Option Cap := none
  packet : Option (Nat × Nat) := none
  fn : Nat := 0
  queue : Nat := 0
  from_ : Option (Nat × Nat) := none
  deriving DecidableEq, Repr

/-- A package message that an event of the table receives (R21 of 01_package.md). `src` is the core or slice that sends it, `st` the
status of a return (R47),
`owner` the function and queue of the firing that pushed (R137). -/
inductive NetMsg where
  | msg (core : Nat) (m : Msg)
  | undeliverable (src st sender : Nat) (target : W64) (line : Nat) (quiet : Option Cap) (asid : BitVec 12) (packet : Option (Nat × Nat))
  | nwrite (cid handle : Nat) (isV : Bool) (reg : Nat) (cap : Cap) (vec : VReg) (sender : Nat)
  | fifo (src core fifo : Nat) (bytes : List Byte) (owner : Nat × Nat)
  | credit (core consumer fifo n : Nat)
  | notice (src unit line : Nat)
  | replica (pa : Nat) (bytes : List Byte) (tag mca : Bool) (src : Nat)
  deriving DecidableEq, Repr

/-! ### Cores -/

/-- A 64-byte line of the L1: data, a valid and an owned bit per 32-bit word, and the access tag copied at the fill
(R211, R212, R224), and the capability tags of its four granules. -/
structure L1Line where
  data : BitVec 512 := 0
  tags : BitVec 4 := 0
  valid : BitVec 16 := 0
  owned : BitVec 16 := 0
  atag : BitVec 2 := 2
  deriving DecidableEq, Repr

/-- A line of the L1 instruction cache (R213, R399). -/
structure L1ILine where
  data : BitVec 512 := 0
  pinned : Bool := false
  deriving DecidableEq, Repr

/-- A firing in the firing queue (R160): its start registers g1 to g12, or the context it is restored to; `told` says
that its PAIRLESS record is posted (R199). -/
structure QFiring where
  fir : Firing
  enq : Nat
  starts : List (Nat × Cap) := []
  restoreTo : Option Nat := none
  told : Bool := false
  deriving DecidableEq, Repr

/-- A stream unit (R177 to R181, R443, R446). `slot` is the operand slot of an SL stream; `pos` counts
elements popped or pushed; `ahead` holds registers prefetched, with the flags of their conversion and how a read failed, `out`
stores of a push that have not entered the store
buffer. -/
structure SUnit where
  cid : Nat
  v : Nat
  tcap : Cap
  dims : List Nat
  strs : List Int
  starts : List Nat
  lens : List Nat
  esz : Nat
  write : Bool
  cv : Bool
  fmt : W64 := 0
  slot : Option Nat := none
  pos : Nat := 0
  ahead : List (VReg × BitVec 6 × Option (Nat × Nat)) := []
  endSeen : Bool := false
  overrun : Bool := false
  failed : Option (Nat × Nat) := none
  out : List SbEntry := []
  pattern : List Byte := []
  deriving DecidableEq, Repr

/-- A firing that is asked to be saved, is being saved or is SAVED (R168, R169): its context, what the image does not
hold, its ASID, the wait in which it stopped and whether a domain barrier keeps its arrival, whether a fault answered
while it was saved is to be delivered, whether the image is written, whether it is complete, and whether CTX.SAVE HOLD
keeps it (R469). `requester` is the context and the outstanding status of a CTX.SAVE; `parked` says that the save or
restore waits for FRESUME (R308); `units` are its bound streams with their numbers; `late` counts wakes that the image
does not hold yet (R157), and `shadow` keeps the shadow copy registers and TBLSEL, which have no place in the image. -/
structure Saved where
  cid : Nat
  fir : Firing
  asid : BitVec 12
  wait : Wait := .none
  keep : Bool := false
  deliver : Bool := false
  written : Bool := false
  complete : Bool := false
  held : Bool := false
  requester : Option (Nat × Nat) := none
  parked : Bool := false
  paired : Bool := false
  units : List (Nat × SUnit) := []
  poiG : SMap Nat := []
  poiV : SMap Nat := []
  late : Nat := 0
  shadow : Ctx := {}
  deriving DecidableEq, Repr

/-- A core's share of a sweep (R141, R145, R146): the next place group and identifier, firings still
alive, and how the share ended. -/
structure Share where
  sweep : Nat
  actor : Actor := {}
  group : Nat
  nextId : Nat
  alive : Nat := 0
  enumerated : Bool := false
  failed : Bool := false
  aborted : Bool := false
  deriving DecidableEq, Repr

/-- What a byte of a core's launch area held before a program's store to it that no fence of its context follows yet: offset,
byte, the tag of its granule, and the context (R143). -/
structure LaunchOld where
  off : Nat
  byte : Byte
  tag : Bool
  cid : Nat
  deriving DecidableEq, Repr

/-- One core (06_execution_model.md, 07_cores_strips.md). `pushed` holds a block of each home of this device that it has
written under PUSH since its last release (R248), `launchOld` what stream units still see of the launch area (R143). -/
structure CoreSt where
  slot : Option Nat := none
  slotSince : Nat := 0
  rr : List Nat := []
  fq : List QFiring := []
  inbound : List Msg := []
  poolC : Nat := 23
  poolV : Nat := 31
  trapvec : Cap := {}
  hdcap : Cap := {}
  spbase : W64 := 0
  spctl : W64 := 4
  spillMeta : List Msg := []
  sb : List SbEntry := []
  l1 : SMap (Option L1Line) := []
  l1i : SMap (Option L1ILine) := []
  spDirty : SMap Bool := []
  units : SMap (Option SUnit) := []
  fifo : SMap (BitVec 128) := []
  bind : SMap (BitVec 128) := []
  bindActor : SMap (Option Actor) := []
  bindOwner : SMap (Nat × Nat) := []
  bindPush : SMap (Option (Nat × Nat)) := []
  bindCount : SMap Nat := []
  cred : SMap (BitVec 16) := []
  xid : Nat := 0
  share : Option Share := none
  wakes : List Nat := []
  saved : List Saved := []
  stallSince : Option Nat := none
  stallPosted : Bool := false
  lensLead : Option Nat := none
  pushed : List Nat := []
  launchOld : List LaunchOld := []
  deriving DecidableEq, Repr

/-! ### Strips -/

/-- The states of an operand slot (R185 of 07_cores_strips.md). -/
inductive SlotState where
  | free | claimed | releasing
  deriving DecidableEq, Repr

/-- An operand slot: state, last claimer's ASID, and its format when set: the register copy, SMODE and K
(R185, R451). `bad` lists the ranks whose share holds a poisoned row (R452). Bytes that nothing has written since the
claim are zero, or free values numbered from `fill` (log 3). -/
structure Slot where
  st : SlotState := .free
  asid : Nat := 4096
  fmt : Option (W64 × Nat × Nat) := none
  bad : List Nat := []
  fill : Option Nat := none
  deriving DecidableEq, Repr

/-- One rank's part of an array operation: bank and zero flag. -/
structure MmaPart where
  rank : Nat
  cid : Nat
  bank : Nat
  z : Bool
  deriving DecidableEq, Repr

/-- An array operation (R184, R457): its slots and format pair, the ranks' parts, when it started, and whether a teardown
or a containment struck it. -/
structure ArrayOp where
  slotA : Nat
  slotB : Nat
  f : Nat
  parts : List MmaPart
  started : Option Nat := none
  struck : Bool := false
  deriving DecidableEq, Repr

/-- A rank's MMA that waits at issue for the other ranks (R184). -/
structure MmaWait where
  cid : Nat
  rank : Nat
  ord : Nat
  slotA : Nat
  slotB : Nat
  f : Nat
  bank : Nat
  z : Bool
  deriving DecidableEq, Repr

/-- One strip (07_cores_strips.md; the atomic unit: R219 of 08_memory_prisms.md). `sauWait` holds the
atomics whose write-through is not acknowledged: context, pending result, bytes to write. `remap` is the new map entry
while the control column moves the strip, and `fenced` says that its old half-column is fenced (R19). `gangSince` is when the
open barrier began and `gangCount` the watchdog's count (R187). -/
structure StripSt where
  slots : SMap Slot := []
  opmem : SMap (Option Byte) := []
  scale : SMap (Option Byte) := []
  gang : List (Nat × Nat) := []
  barmax : List (Nat × Nat × W64) := []
  gangSince : Option Nat := none
  gangCount : Nat := 0
  gwlim : W64 := 0x4000
  mmaWait : List MmaWait := []
  ops : List ArrayOp := []
  sau : SMap (Option (BitVec 512)) := []
  sauWait : List (Nat × Nat × SbEntry) := []
  remap : Option (BitVec 32) := none
  fenced : Bool := false
  deriving DecidableEq, Repr

/-! ### Translation, faults, copies -/

/-- A translation held by a TLB (R291): the strip whose TLBs hold it (256 for the engines), ASID, first address and size of the page or run, its physical base
and the attributes of the leaf. -/
structure TlbEntry where
  unit : Nat
  asid : Nat
  va : Nat
  size : Nat
  pa : Nat
  attr : W64
  deriving DecidableEq, Repr

/-- A walk in flight (R293). -/
structure Walk where
  unit : Nat
  asid : Nat
  page : Nat
  kind : BitVec 8
  user : Bool
  deriving DecidableEq, Repr

/-- Who is parked on a fault record (R297): a firing by its handle, a copy, a queue as `1024 * function + directory
entry`, a core that accepts a wake, a save or restore of a firing. -/
inductive Parked where
  | ctx (handle : Nat)
  | copy (id : Nat)
  | queue (id : Nat)
  | wake (core : Nat)
  | save (handle : Nat)
  deriving DecidableEq, Repr

/-- A fault record of the device's store (R73, R74). `ring` is its index once written to the host's ring. -/
structure FaultRec where
  id : Nat
  fn : Nat
  asid : Nat
  va : Nat
  cause : Nat
  kind : BitVec 8
  handle : Nat
  level : Nat
  gang : Bool
  time : Nat
  waiters : List Parked
  ring : Bool := false
  deriving DecidableEq, Repr

/-- A fault pending because its function holds 256 open records or the store is full (R74). -/
structure FaultPend where
  fr : FaultRec
  who : Parked
  deriving DecidableEq, Repr

/-- A range lock of a compute die (R260). -/
structure Lock where
  die : Nat
  copy : Nat
  asid : Nat
  lo : Nat
  hi : Nat
  dest : Bool
  deriving DecidableEq, Repr

/-- A copy in progress (R252 to R261). `destLo` to `destHi` is the lowest to highest byte of all its destinations;
`offPkg` names its I/O die, `ddev` the destination device, `noRoute` a route entry that is not valid. What the engine
has done: `begun` says that the receivers were asked (R259), `moved` counts pattern bytes moved, `written` bytes
written, `got` blocks that RDATA or NAK answered, `asked` the block whose RD is out, `reg` the bytes gathered for a
register, `ended` how it ended, `signed` that the signal went, `pushed` and `relPush` the homes written under PUSH and those
whose PUSHREL is to be posted (R248), `relBegun` that its release has begun, `recorded` that its record is written, and `late`
the range locks that wait for a bias flip (R84). -/
structure Copy where
  id : Nat
  core : Nat
  xid : Nat
  cid : Nat
  handle : Nat
  asid : Nat
  src : Cap
  dst : Cap
  ring : Cap
  cnt : W64
  str : W64
  mcast : W64
  ctl : W64
  promise : Nat
  srcLo : Nat
  srcHi : Nat
  dstLo : Nat
  dstHi : Nat
  offPkg : Option Nat := none
  ddev : Nat := 0
  noRoute : Bool := false
  user : Bool := true
  parked : Bool := false
  fn : Nat := 0
  queue : Nat := 0
  begun : Bool := false
  moved : Nat := 0
  written : Nat := 0
  refmask : Nat := 0
  got : List (Nat × Bool × Nat) := []
  asked : Option Nat := none
  reg : Nat := 0
  ended : Option (Nat × Nat) := none
  signed : Bool := false
  pushed : List Nat := []
  relPush : List Nat := []
  relBegun : Bool := false
  recorded : Bool := false
  late : List Lock := []
  deriving DecidableEq, Repr

/-- State of a line that a home slice holds (R212, R214, R220, R239, R400): `home` is the slice, a logical core; the owner is
a core, or 4096 + strip for a strip atomic unit; `pinned` names the slice that pins it. -/
structure L2Line where
  home : Nat := 0
  dirty : Bool := false
  owner : Option Nat := none
  pinned : Option Nat := none
  seq : BitVec 16 := 0
  deriving DecidableEq, Repr

/-- An access the home holds suspended or parked on a block (R225): who made it and as which type, 0 load,
1 store, 2 atomic; whether a tag set since has let it through, or the status with which it was refused (R49). -/
structure Susp where
  block : Nat
  ty : Nat
  cid : Nat
  handle : Nat
  allowed : Bool := false
  refused : Option Nat := none
  deriving DecidableEq, Repr

/-! ### Device registers -/

/-- Device-wide control registers (R343) and the tables behind TBLSEL and TBLDATA (R345): HOMEMASK (R215),
the named-core table (R216), the strip map (R16); and the firmware registers (R343). `prstep` says that the command of PRCMD
has begun (R229). -/
structure DevRegs where
  ptroot : W64 := 0
  rtbase : W64 := 0
  htbase : W64 := 0
  pspbase : W64 := 0
  prcmd : W64 := 0
  prbusy : Bool := false
  prstep : Bool := false
  prstatus : BitVec 3 := 0
  prarg : W64 := 0
  srbase : W64 := 0
  srctl : W64 := 8
  srphase : Bool := true
  fwctl : W64 := 0
  homemask : SMap W64 := []
  named : SMap (BitVec 32) := []
  stripMap : SMap (BitVec 32) := []
  fwregs : SMap W64 := []
  deriving DecidableEq, Repr

/-! ### Host interface and command stream -/

/-- The host-visible registers of one function (R63 of 03_host_interface.md); `vtab` holds its MSI-X table, `vmask` and
`vpend` the mask and pending bits (R77). -/
structure Fn where
  hvsel : W64 := 0
  hstat : W64 := 0
  fqbase : W64 := 0
  fqctl : W64 := 6
  fqtail : W64 := 0
  fqhead : W64 := 0
  fqphase : Bool := true
  qdirbase : W64 := 0
  vfctl : W64 := 0
  icoal : SMap W64 := []
  icoalSince : SMap Nat := []
  vtab : SMap (BitVec 128) := []
  vmask : SMap Bool := []
  vpend : SMap Bool := []
  deriving DecidableEq, Repr

/-- A level of a queue's packet stream (R123, R126): base address, length (0 for the ring), whether it
lies in device memory, next offset, loop counter, prefetched bytes by offset. -/
structure Level where
  base : Nat
  len : Nat
  loc : Bool
  pos : Nat
  loops : Nat := 0
  held : SMap (Option Byte) := []
  skip : Nat := 0
  guardN : Nat := 0
  deriving DecidableEq, Repr

/-- A packet issued and not yet complete (R115): its number on the device, type, completion signal, level,
graph node, the status a finished graph node ended with, and the test of a WAIT node: address, value, mask and CMP. -/
structure Issued where
  serial : Nat
  ty : Nat
  signal : Nat := 0
  level : Nat := 0
  node : Option (Nat × Nat) := none
  done : Option Nat := none
  test : Option (Nat × W64 × W64 × Nat) := none
  deriving DecidableEq, Repr

/-- A queue mapped to a slot (R107 to R126). `rptr` is the read pointer, `levels` the packet streams with the innermost
first; `wait` is an open WAIT: address, value, mask, CMP, GUARD; `sigs` are completion signals whose write waits behind a
fault or a tag; `recFault` is 1 while the queue is parked on a record that SWEEP issue reads and 2 when that fault was
delivered, and `held` names what an access that a tag suspends belongs to, while nothing else of the queue issues (R487). `fslot`
is its slot in the function's quota (R110), and `torn` says that it is being torn down (R131). -/
structure Queue where
  fn : Nat
  qidx : Nat
  asid : Nat
  gang : Nat
  prio : Nat
  since : Nat
  err : Nat := 0
  failed : Bool := false
  retired : Nat := 0
  ring : Nat
  wptrA : Nat
  rptrA : Nat
  log2 : Nat
  loc : Bool
  wptr : Nat := 0
  rptr : Nat := 0
  levels : List Level
  issued : List Issued := []
  wait : Option (Nat × W64 × W64 × Nat × Nat) := none
  parked : Bool := false
  recFault : Nat := 0
  sigs : List (Nat × Nat) := []
  held : Option Nat := none
  fslot : Nat := 0
  torn : Bool := false
  deriving DecidableEq, Repr

/-- A queue descriptor field copy kept for a queue not mapped: when its gang began to wait (R112). -/
structure GangAge where
  fn : Nat
  gang : Nat
  since : Nat
  deriving DecidableEq, Repr

/-- State of a graph node in the running iteration (R129). -/
inductive NodeSt where
  | waiting (left : Nat)
  | launched
  | done
  | aborted
  deriving DecidableEq, Repr

/-- An open graph (R128 to R130); `cond` is its COND node. -/
structure Graph where
  id : Nat
  serial : Nat
  desc : Nat
  sig : Nat
  iter : Nat
  nodes : List NodeSt
  pkts : List Nat
  succs : List (List Nat)
  preds : List Nat
  cond : Option Nat := none
  deriving DecidableEq, Repr

/-- A sweep in progress (R138 to R146): its launch header with the tags of its granules, and its shape records as
numbers with theirs. `reports` lists the cores that have reported and how. -/
structure Sweep where
  id : Nat
  serial : Nat
  fn : Nat
  queue : Nat
  asid : Nat
  header : List W64
  htags : Nat := 0
  arg : W64
  shapes : List (Nat × Nat)
  reports : List (Nat × Nat) := []
  node : Option (Nat × Nat) := none
  deriving DecidableEq, Repr

/-- A bias flip in progress (R84): pages left, direction, start, whether the 1 ms record was posted,
whether RdOwnNoData is outstanding for the page. -/
structure Flip where
  page : Nat
  left : Nat
  toDevice : Bool
  since : Nat
  late : Bool := false
  asked : Bool := false
  deriving DecidableEq, Repr

/-- A host access held during a flip (R84). -/
structure HostHeld where
  addr : Nat
  data : Option (BitVec 512)
  deriving DecidableEq, Repr

/-- One I/O die's black-box record (R104, R105): `left` counts the entries still taken after a freeze. -/
structure BlackBox where
  entries : SMap (List W64) := []
  widx : Nat := 1
  wraps : Nat := 0
  frozen : Bool := false
  lost : Bool := false
  left : Option Nat := none
  seq : Nat := 0
  deriving DecidableEq, Repr

/-- The default configuration table (R89, R90), byte 0 least significant: MAGIC, FORMAT 1, WIDTH, FLAGS, PRIQ 5 and PRIP 6
(R58), the default roles, and a signature that the model does not compute (log 9). -/
def tableDefault (width flags tack : Nat) : BitVec 32768 :=
  BitVec.ofNat 32768 (0x57434647 + 2 ^ 32 + width * 2 ^ 48 + flags * 2 ^ 56 + tack * 2 ^ 96 + 0x0605 * 2 ^ 128 +
    0x77665544333322221111111111111111 * 2 ^ 256)

/-- The header of a firmware image (R92): magic, SVN, function-table version, load map and public key. -/
structure ImageHeader where
  magic : BitVec 32 := 0
  svn : Nat := 0
  fnVersion : BitVec 32 := 0
  loadMap : List (Nat × Nat) := []
  key : BitVec 4096 := 0
  deriving DecidableEq, Repr

/-- A flash slot: the 4,096 bytes of its configuration table (R89), and its firmware image (R92): header, body, signature,
and the function-pointer table that the body loads (R98). `keyHash` is the fused key that the public key hashes to, none
when it hashes to neither; `imageOk` and `sigOk` say whether the RSASSA-PSS signatures of image and table verify (log 9). -/
structure FlashSlot where
  table : BitVec 32768 := tableDefault 1 2 8
  header : ImageHeader := {}
  body : List Byte := []
  sig : BitVec 4096 := 0
  fnTable : SMap W64 := []
  keyHash : Option Nat := some 0
  imageOk : Bool := true
  sigOk : Bool := true
  deriving DecidableEq, Repr

/-- A hot patch under way (R98): versions, replacement entries, inactive list, and the code body with its length. -/
structure PatchImage where
  base : BitVec 32 := 0
  target : BitVec 32 := 0
  repl : List (Nat × W64) := []
  inactive : List Nat := []
  size : Nat := 0
  body : Nat := 0
  digest : BitVec 512 := 0
  deriving DecidableEq, Repr

/-- The service mailbox and hot-patch state (R93 to R98). `patches` holds the digests of the patches applied since boot
(R97), `bodies` their code with its lengths, and `waiting` the calls that wait at a gate. -/
structure Svc where
  ctl : BitVec 32 := 0
  addr : W64 := 0
  bootedA : Bool := true
  fusedSvn : Nat := 0
  patch : Option PatchImage := none
  patchSince : Nat := 0
  version : BitVec 32 := 0
  fnTable : SMap W64 := []
  activity : SMap Nat := []
  gates : List Nat := []
  patches : List (BitVec 512) := []
  bodies : List (Nat × Nat) := []
  waiting : List Nat := []
  deriving DecidableEq, Repr

/-! ### Fabric -/

/-- A packet a sequencing port holds a copy of (R41, R42): number, packet, whether DONE covers it, whether
it waits for a reply and has had it, the context and pending result it answers, and the ring of a SEND with QUIET set. -/
structure HeldPkt where
  seq : Nat
  pkt : Packet
  acked : Bool := false
  wantsReply : Bool := false
  answered : Bool := false
  cid : Option (Nat × Nat) := none
  quiet : Option Cap := none
  retries : Nat := 0
  sent : Nat := 0
  deriving DecidableEq, Repr

/-- A window of a destination and lane (R41, R50, R53). -/
structure Window where
  next : Nat := 0
  base : Nat := 0
  held : List HeldPkt := []
  timer : Option Nat := none
  allDown : Option Nat := none
  holdUntil : Option Nat := none
  synced : Bool := false
  queued : List HeldPkt := []
  lastSent : Nat := 0
  deriving DecidableEq, Repr

/-- A duplicate filter of a source and lane (R44): numbers accepted above CUM, the numbers performed, and
the accepted packets that wait for a gap or for a tag, with number and port (R46). `known` is false where no window state exists (R57). -/
structure Filter where
  known : Bool := false
  cum : Nat := 0
  accepted : List Nat := []
  performed : List Nat := []
  done : Nat := 0
  unacked : Nat := 0
  since : Option Nat := none
  waiting : List (Nat × Nat × Packet) := []
  deriving DecidableEq, Repr

/-- An entry of the result cache (R45); `pz` marks the result of an atomic on poisoned data (R49). -/
structure ResEntry where
  seq : Nat
  val : W64
  nak : Bool
  pz : Bool := false
  deriving DecidableEq, Repr

/-- A link of a Xitrum or scale-out port (R33, R60); `credReq` and `credRep` count the flits of credit that the far end
grants for the request lane and the reply lane (R40). -/
structure Port where
  credReq : Nat := 0
  credRep : Nat := 0
  up : Bool := false
  ver11 : Bool := false
  rate224 : Bool := false
  lanes : Nat := 0
  resends : Nat := 0
  lastValid : Nat := 0
  lastIdle : Nat := 0
  deriving DecidableEq, Repr

/-! ### Prisms -/

/-- A message in a Prism's inbox (R231, R232): `requester` is g5 of the handler, `from_` the window and number of the
packet that brought it, `retryAt` when a message left by HDONE RETRY is dispatched again (R479); `pz` marks poisoned
data (R49). -/
structure PMsg where
  ty : Nat
  block : Nat
  requester : W64 := 0
  seq : W64 := 0
  data : Option (BitVec 512) := none
  from_ : Option (Nat × Nat) := none
  retryAt : Option Nat := none
  pz : Bool := false
  deriving DecidableEq, Repr

/-- A transaction record (R233, R475): its word, and the requesters whose reply slots are bound to it, oldest first, each with
the packet that its reply answers. -/
structure Txn where
  word : W64
  bound : List (W64 × Option (Nat × Nat)) := []
  deriving DecidableEq, Repr

/-- An entry of a partial buffer (R243). -/
structure Partial where
  block : Nat
  f : Nat
  w8 : Bool
  mask : BitVec 16
  data : BitVec 512
  opened : Nat
  seqNo : Nat
  deriving DecidableEq, Repr

/-- The run of a Prism thread (R231 to R236, R473). `tag` numbers the run; `buf` is its message buffer and `bufBad` marks
poisoned data in it; `tagset` is the result of a TAGSET that waits for the accesses it let through. -/
structure ThrRun where
  msg : PMsg
  tag : Nat := 0
  count : Nat := 0
  buf : BitVec 512 := 0
  bufBad : Bool := false
  replied : Bool := false
  tagset : Option Nat := none
  deriving DecidableEq, Repr

/-- An atomic that the fabric atomic unit, or the CXL port Prism, has read and not yet written (R262, R271, R272): address, old
and new value, the writer, and what its result answers: a pending result of the writer, or a packet's window and number.
`age` counts the turns since the read. -/
structure FauOp where
  pa : Nat
  n : Nat
  old : Nat
  new : Option Nat
  cid : Nat
  id : Nat := 0
  from_ : Option (Nat × Nat) := none
  age : Nat := 0
  deriving DecidableEq, Repr

/-- A packet that leaves by a port once the link's credits cover its flits; `left` counts those not yet sent (R40). -/
structure OutPkt where
  port : Nat
  pkt : Packet
  left : Nat
  deriving DecidableEq, Repr

/-- One Prism (R230 to R245, R484): inboxes, spilled FWDs, reply slots in use, runs started, transaction records,
directory, partial buffer, watchdog limit, region table, threads, and the blocks of other devices that stand for the
homes written under PUSH since the last PUSHREL (R248). A spilled packet stands with its run; `spilled` counts them. `errs`
lists the error records sent to it, with their black-box event codes (R36, R222). -/
structure PrismSt where
  req : List PMsg := []
  rep : List PMsg := []
  spill : List (Nat × Packet) := []
  spilled : Nat := 0
  slots : Nat := 0
  runs : Nat := 0
  txn : SMap (Option Txn) := []
  dir : SMap (Option W64) := []
  lru : List Nat := []
  part : List Partial := []
  wd : Nat := 2048
  regions : SMap (BitVec 128) := []
  thr : SMap (Option ThrRun) := []
  marks : List Nat := []
  errs : List (Nat × List W64) := []
  deriving DecidableEq, Repr

/-! ### Groups -/

/-- A barrier episode of a sweep group (R409): the work identifiers that have arrived. -/
structure Episode where
  sweep : Nat
  level : Nat
  group : Nat
  k : Nat
  arrived : List Nat := []
  complete : Bool := false
  deriving DecidableEq, Repr

/-- A lens (R188 to R198): lead context, element cores in order, whether it has started, the lines dealt and not yet
executed with the elements that take them (R191), the cycle of the claim (R189), and whether the firings on the elements
have been asked to stop. -/
structure Lens where
  lead : Nat
  elems : List Nat
  started : Bool := false
  dealt : List (Nat × Nat) := []
  claimed : Nat := 0
  asked : Bool := false
  deriving DecidableEq, Repr

/-- A mirror pair (R199 to R203): primary and partner contexts, the checkpoint, retired heads and held
stores of the interval, the fingerprints of the primary and of the partner, whether the interval has closed and whether it
closed between two heads, and whether it is being executed again. `started` is false between the confirmation of an interval
and the end of the head that closed it; `landed` holds the neighbour writes that landed in the interval (R176), and `checkP`
the partner's checkpoint. -/
structure Pair where
  prim : Nat
  part : Nat
  started : Bool := false
  count : Nat := 0
  fp : W64 := 0
  fpP : W64 := 0
  held : List SbEntry := []
  landed : List HoldEntry := []
  check : Ctx := {}
  checkP : Ctx := {}
  closed : Bool := false
  boundary : Bool := false
  again : Bool := false
  deriving DecidableEq, Repr

/-- A waiter that a bank records for a word (R407): its address, context, operation (0 TAKE, 1 PEEK, 2 PUT) and, for a
PUT, its value. -/
structure FeWait where
  pa : Nat
  cid : Nat
  op : Nat
  val : Nat := 0
  deriving DecidableEq, Repr

/-- The physical map of R205 (08_memory_prisms.md) and what stands beside its bytes: capability tags by
16-byte granule, poison by 32-byte word, full/empty bits by 4-byte word, access tags by 64-byte block
(default writable), lines held by home slices, full/empty waiters, and suspended accesses. `flaw` marks the 32-byte words
whose ECC corrects an error (1) or cannot (2), and `itag` holds the integrity tag of each page that has been written since
boot (R102, R103, R221). `hostio` is host memory as PCIe requests name it: `f * 2^64 +` I/O virtual address. -/
structure MemSt where
  mem : List Host.Cell := []
  ctag : SMap Bool := []
  poison : SMap Bool := []
  flaw : SMap Nat := []
  itag : SMap (Option W64) := []
  full : SMap Bool := []
  atag : SMap (BitVec 2) := []
  hostio : List Host.Cell := []
  l2 : SMap (Option L2Line) := []
  feq : List FeWait := []
  susp : List Susp := []
  deriving DecidableEq, Repr

/-- Translation state (10_translation_traps.md): TLBs, walks, TLBINVs that wait for accesses, fault records. -/
structure TransSt where
  tlb : List TlbEntry := []
  walks : List Walk := []
  faults : List FaultRec := []
  pending : List FaultPend := []
  nextFault : Nat := 1
  deriving DecidableEq, Repr

/-- Copy engines (R252 to R261). -/
structure CopySt where
  copies : List Copy := []
  locks : List Lock := []
  nextCopy : Nat := 0
  deriving DecidableEq, Repr

/-- Barrier episodes, lenses and mirror pairs. -/
structure GroupSt where
  episodes : List Episode := []
  lenses : List Lens := []
  pairs : List Pair := []
  deriving DecidableEq, Repr

/-- The host interface (03_host_interface.md). `msix` lists messages sent (function, vector), oldest first;
`out` lists what CXL.mem reads returned, none for
poison; `iobad` marks the pages of host memory (`2^52 * function +` page number) whose reads the host or its IOMMU answers
with an error (R71). `sriov` says that the PF driver has enabled the VFs, `hdmBase` is the base of the HDM decoder (R61, R79). -/
structure HostSt where
  fns : SMap Fn := []
  biasAddr : W64 := 0
  biasCtl : W64 := 0
  hostBias : SMap Bool := []
  flip : Option Flip := none
  held : List HostHeld := []
  out : List (Nat × Option (BitVec 512)) := []
  mgmtPwr : W64 := 0
  mgmtTemp : W64 := 0
  throttle : SMap Nat := []
  msix : List (Nat × Nat) := []
  iobad : SMap Bool := []
  sriov : Bool := false
  hdmBase : Nat := 0
  deriving DecidableEq, Repr

/-- Firmware, security and the black-box records (04_control_column.md). `ecc` counts corrected errors by 32-byte
sector (R102), `boots` the boots, each of which draws a key (R103); `patrolAt` says when the patrol last visited a page;
`column` lists what is reported to the control column (R60): event code and data. -/
structure FirmSt where
  powered : Bool := true
  booted : Bool := true
  svc : Svc := {}
  flashA : FlashSlot := {}
  flashB : FlashSlot := {}
  key0Revoked : Bool := false
  fuseMap : SMap (BitVec 32) := []
  bb : SMap BlackBox := []
  bbsel : Bool := false
  ecc : SMap Nat := []
  boots : Nat := 0
  patrolAt : SMap Nat := []
  column : List (Nat × List W64) := []
  deriving DecidableEq, Repr

/-- The command front end (05_command_stream.md). `off` holds what is kept of queues unmapped under R112; `got` the blocks of
uncached pages of other devices that RDATA or NAK has answered and those asked for: ASID, block, and the answer, 0 for data
and one more than the status of a refusal (R54, R487). -/
structure FrontSt where
  slots : SMap (Option Queue) := []
  off : List Queue := []
  nextSerial : Nat := 1
  gangAges : List GangAge := []
  graphs : List Graph := []
  nextGraph : Nat := 0
  sweeps : List Sweep := []
  nextSweep : Nat := 0
  got : List (Nat × Nat × Option Nat) := []
  deriving DecidableEq, Repr

/-- The fabric (02_xitrum_fabric.md). Windows are numbered `2 * destination + lane`, filters
`2 * source + lane`. `tx` lists packets sent (port, packet), oldest first, `frames` the scale-out frames that carry those of
ports 18 to 25, and `outq` the packets that wait for credit (R40, R59); `bara` holds of each domain-barrier entry the free
value that stands for the path of its BARA and the candidate in use (R56); `fau` holds the atomics under way at the fabric
atomic unit and the CXL port Prism (R272); `nakWait` the requests refused
with RETRY; `prbWait` the probes and push releases whose runs have ended: window, number, Prism and the mark of what they wait for (R43, R246); `failedAt` is
when a window last failed over and `resetAt` when the device was reset (R56, R57). -/
structure FabSt where
  routes : SMap (BitVec 32) := []
  dombar : SMap W64 := []
  macs : SMap (BitVec 48) := []
  win : SMap Window := []
  filt : SMap Filter := []
  rcache : SMap (Option ResEntry) := []
  ports : SMap Port := []
  tx : List (Nat × Packet) := []
  frames : List (Nat × Frame) := []
  outq : List OutPkt := []
  fau : List FauOp := []
  bara : SMap (Nat × Nat) := []
  nakWait : List (Nat × HeldPkt × Nat) := []
  prbWait : List (Nat × Nat × Nat × Nat) := []
  failedAt : Option Nat := none
  resetAt : Nat := 0
  frameErrs : Nat := 0
  tackUs : Nat := 8
  deriving DecidableEq, Repr

/-- The device. `agenda`, `cur`, `heads`, `focus` and `freeCtr` are the model's own (log 1, 2, 3): `cur` is the
issuing context and `heads` the number of heads of its line. -/
structure State where
  agenda : List Input := []
  cur : Nat := 0
  heads : Nat := 1
  focus : Nat := 32
  freeCtr : Nat := 0
  cyc : Nat := 0
  dev : Nat := 0
  ms : MemSt := {}
  ctxs : SMap Ctx := []
  cores : SMap CoreSt := []
  strips : SMap StripSt := []
  regs : DevRegs := {}
  tr : TransSt := {}
  cp : CopySt := {}
  net : List NetMsg := []
  grp : GroupSt := {}
  host : HostSt := {}
  firm : FirmSt := {}
  fe : FrontSt := {}
  fab : FabSt := {}
  prisms : SMap PrismSt := []
  deriving DecidableEq, Repr

/-- Reset value of HOMEMASK entry 0: V = 1, FIRST 0, CNT 4,096 (R215). -/
def homemask0 : W64 := BitVec.ofNat 64 (2 ^ 63 + 4096 * 2 ^ 27)

/-- The strip-map entry of logical strip `s` after boot: V = 1, ROLE control column for the first strips,
else compute (R14, R16), placed on the physical half-column of the same number (log 6). -/
def stripReset (c s : Nat) : BitVec 32 :=
  BitVec.ofNat 32 (2 ^ 31 + (if s < 2 * c then 2 ^ 29 else 0) + ((s % 64) / 2) * 2 + s % 2)

/-- VFCTL of function 0 after reset: ASIDCNT 4,096, SLOTQ 256 (R67). -/
def vfctl0 : W64 := BitVec.ofNat 64 (4096 * 2 ^ 27 + 256 * 2 ^ 18)

/-- The machine right after reset: booted from flash slot A with the default configuration table (R91), no
firing placed, no queue mapped, memory zero with tags clear and access tags writable (R28). -/
def State.reset : State :=
  { dev := Config.device
    focus := 32 * Config.columns
    regs := { fwctl := BitVec.ofNat 64 (2 ^ 63 + (if Config.encryption then 4 else 0) + (Config.columns - 1))
              homemask := [(0, homemask0)]
              stripMap := (List.range 256).map fun s => (s, stripReset Config.columns s) }
    host := { fns := [(0, { vfctl := vfctl0 })] }
    firm := { flashA := { table := tableDefault Config.columns ((if Config.encryption then 1 else 0) + (if Config.fabric then 2 else 0)) Config.tackUs }
              fuseMap := (List.range 256).map fun s => (s, stripReset 0 s) }
    fab := { tackUs := Config.tackUs } }

/-- Why the machine stops. -/
inductive Fault where
  /-- Raised by `step` when a control-column core whose contexts are all free is given a turn: what it runs then is the
  firmware's, which the spec does not give (R87, R91). Safe: the model stops where the device runs firmware. -/
  | firmwareCore
  deriving DecidableEq, Repr

/-- Why an instruction has no meaning here. -/
inductive Refusal where
  /-- The instruction is not modelled yet. Raised by `exec`. Safe: no claim can follow from it. -/
  | notModelled (mnemonic : String)
  /-- A firmware register, 0x301 to 0xFFF, reached from the control column (R343: defined by the firmware
  image). Raised by MFC and MTC. Safe: the model stops where the spec gives no effect. -/
  | firmwareRegister
  deriving DecidableEq, Repr

end Sys2Proof.Machine
end

