-- ==== Sys2Proof/Machine/Opcodes.lean ====
section
/-! DEFINITION. The opcode map of R348 (12_isa_encoding.md) as a list of rows: major, F values, allowed
forms, what each field names, which immediate bits the entry uses, and the checks of field values that
each entry of chapters 13 to 16 states. The checks give the TRAPINFO subcodes of R336. -/

namespace Sys2Proof

/-- Immediate field `hi:lo` of a head. -/
def Head.im (h : Head) (hi lo : Nat) : Nat := bitsOf h.imm.toNat hi lo

end Sys2Proof

namespace Sys2Proof.Machine

/-- What a register field names (R335): nothing (it must be zero), a g, v or m register, an accumulator
bank, or a number the entry checks itself. -/
inductive Kind where
  | none | g | v | m | acc | num
  deriving DecidableEq, Repr

/-- One row of the opcode map. `b1` is B's use in the T1 form and `b2` in T2 and T4; `imm` marks the bits of
a 16-bit immediate that the entry uses; `fine` gives the subcode of a value check that fails; `pick` tells
apart two mnemonics of one major and F. -/
structure Row where
  major : Nat
  f0 : Nat
  f1 : Nat
  forms : List Form
  d : Kind
  a : Kind
  b1 : Kind := .none
  b2 : Kind := .none
  imm : Nat := 0xFFFF
  fine : Head → Option Nat := fun _ => Option.none
  pick : Head → Bool := fun _ => true
  build : Head → Instr

/-- A subcode when a condition fails. -/
def need (c : Bool) (sub : Nat) : Option Nat := if c then Option.none else some sub

/-- The first failed check. -/
def firstBad : List (Option Nat) → Option Nat
  | [] => Option.none
  | Option.none :: r => firstBad r
  | some x :: _ => some x

/-- NOP is the head 0x0000 or 0x8000 alone (R336). -/
def nopFine (h : Head) : Option Nat := need (h.form == .H) 0x06
/-- EXT, EXTU, INS: p + len at most 64 (R361). -/
def extFine (h : Head) : Option Nat := need (h.im 5 0 + (h.im 11 6 + 1) ≤ 64) 0x0A
/-- GROW and SHRINK: n at least 1 (R385, R386). -/
def growFine (h : Head) : Option Nat := need (h.im 3 0 != 0) 0x0A
/-- A scope in B (R395). -/
def scopeBFine (h : Head) : Option Nat := need (h.b.toNat ≤ 5) 0x0A
/-- A scope in D (R396). -/
def scopeDFine (h : Head) : Option Nat := need (h.d.toNat ≤ 5) 0x0A
/-- MOVB and FILL name three registers apart (R398). -/
def moveFine (h : Head) : Option Nat := need (h.d != h.a && h.b != h.d && h.b != h.a) 0x0A
/-- IPIN and CACHE: n from 1 to 512 (R399). -/
def linesFine (h : Head) : Option Nat := need (1 ≤ h.im 15 0 && h.im 15 0 ≤ 512) 0x0A
/-- A scope in immediate bits 2:0 (R401, R406). -/
def scopeImmFine (h : Head) : Option Nat := need (h.im 2 0 ≤ 5) 0x0A
/-- AMO and ACAS (R401). -/
def amoFine (h : Head) : Option Nat := scopeImmFine h
/-- AFADD and AFMAX need W = 1 (R402). -/
def amoFFine (h : Head) : Option Nat := firstBad [scopeImmFine h, need (h.im 5 5 == 1) 0x0A]
/-- RED: ORD none or release (R405). -/
def redFine (h : Head) : Option Nat := firstBad [scopeImmFine h, need (h.im 3 3 == 0) 0x0A]
/-- REDFADD and REDFMAX (R402, R405). -/
def redFFine (h : Head) : Option Nat := firstBad [redFine h, need (h.im 5 5 == 1) 0x0A]
/-- BAR, BARIN, BARWT: the two forms of R408. -/
def barFine (h : Head) : Option Nat :=
  firstBad [need (h.b.toNat ≤ 1) 0x0A, need (h.b == 1 || h.a == 0) 0x06,
    need (if h.b == 1 then h.d == 4 || h.d == 5 else h.d.toNat ≤ 5) 0x0A]
/-- SEND: n at most 8 and the payload registers exist (R413). -/
def sendFine (h : Head) : Option Nat :=
  need (h.im 3 0 ≤ 8 && (h.im 3 0 == 0 || h.d.toNat + h.im 3 0 - 1 ≤ 63)) 0x0A
/-- A register field that names a v register when `v` holds (R335). -/
def vOk (v : Bool) (x : BitVec 6) : Option Nat := need (!v || x.toNat < 32) 0x07
/-- The arming form of NPUT (R415). -/
def nputArmPick (h : Head) : Bool := h.im 4 4 == 1
def nputPick (h : Head) : Bool := h.im 4 4 == 0
def nputArmFine (h : Head) : Option Nat :=
  firstBad [need (h.im 2 0 == 0 && h.a == 0 && h.b == 0) 0x06, vOk (h.im 3 3 == 1) h.d]
/-- The write form of NPUT (R415). -/
def nputFine (h : Head) : Option Nat :=
  firstBad [need (h.im 2 2 == 0) 0x06, vOk (h.im 3 3 == 1) h.d, vOk (h.im 3 3 == 1) h.a]
/-- PUSH and CONSUME name an index 0 to 3 (R416, R417). -/
def kFine (h : Head) : Option Nat := need (h.d.toNat ≤ 3) 0x0A
def consumeFine (h : Head) : Option Nat :=
  firstBad [kFine h, need (h.form != .T2 || (1 ≤ h.im 15 0 && h.im 15 0 ≤ 4096)) 0x0A]
/-- Operand b of a vector head: a g register under BS, else a v register (R420). -/
def vbFine (h : Head) : Option Nat := vOk (h.im 5 5 == 0) h.b
/-- VSHL, VSHR, VSRA by SEL (R424). -/
def vshPick (k : Nat) (h : Head) : Bool := h.im 8 6 == k
def vshLast (h : Head) : Bool := 2 ≤ h.im 8 6
def vshFine (h : Head) : Option Nat :=
  firstBad [need (h.im 8 6 ≤ 2) 0x0A,
    (if h.im 14 14 == 1 then firstBad [need (h.b == 0 && h.im 5 5 == 0) 0x06,
        need (h.f != 4 || h.im 13 9 < 16) 0x0A]
     else need (h.im 13 9 == 0) 0x06),
    vbFine h]
/-- The element type in SEL, 0 to 4 (R420, R429). -/
def selTypeFine (h : Head) : Option Nat := need (h.im 8 6 ≤ 4) 0x0A
/-- SEL 0 or 1 (R431, R432). -/
def sel01Fine (h : Head) : Option Nat := need (h.im 8 6 ≤ 1) 0x0A
/-- SEL 0 to 2: float types (R428). -/
def vfnFine (h : Head) : Option Nat := need (h.im 8 6 ≤ 2) 0x0A
/-- VCMP: predicate and type (R425). -/
def vcmpFine (h : Head) : Option Nat :=
  firstBad [selTypeFine h, need (h.im 12 9 ≤ 8) 0x0A,
    need (if h.im 8 6 ≤ 2 then h.im 12 9 ≤ 6 else h.im 12 9 != 6) 0x0A, vbFine h]
/-- VSCAN (R430). -/
def vscanFine (h : Head) : Option Nat :=
  firstBad [selTypeFine h, need (h.im 10 9 ≤ 2) 0x0A, need (h.im 5 5 == 0) 0x06,
    need (h.im 12 12 == 1 || h.b == 0) 0x06]
/-- VEXTR and VINS: the index (R433). -/
def vextrFine (h : Head) : Option Nat :=
  if h.b != 0 then need (h.im 5 0 == 0) 0x06 else need (h.im 6 6 == 1 || h.im 5 0 < 32) 0x0A
/-- Contiguous VLD and VST: GS only with F 2; with CV it is a range error (R435, R438). -/
def vldFine (h : Head) : Option Nat := need (h.im 6 5 == 0) (if h.im 7 7 == 1 then 0x0A else 0x06)
/-- Strided: no CV and no GS (R435, R438). -/
def vldSFine (h : Head) : Option Nat := firstBad [need (h.im 7 7 == 0) 0x0A, need (h.im 6 5 == 0) 0x06]
/-- Gather and scatter: no CV (R438). -/
def vldGFine (h : Head) : Option Nat := need (h.im 7 7 == 0) 0x0A
/-- The conversions VCVT allows (R439, R320): narrow with a float side, or two different types but not an
integer pair. Types: 0 FP32, 1 BF16, 2 FP16, 3 i32, 4 i16, 5 narrow. -/
def vcvtPair (dst fr : Nat) : Bool :=
  dst ≤ 5 && fr ≤ 5 && dst != fr && !(3 ≤ dst && 3 ≤ fr)
/-- The Q bits a conversion uses (R440): 16-bit with 32-bit one bit, narrow with FP32 two, with 16-bit one
or two by the format's width, which is known at issue only. -/
def vcvtQ (dst fr : Nat) : Nat :=
  let half (t : Nat) : Bool := t == 1 || t == 2 || t == 4
  if dst == 5 || fr == 5 then 3 else if half dst == half fr then 0 else 1
def vcvtFine (h : Head) : Option Nat :=
  firstBad [need (h.im 11 9 == 5 || h.im 8 6 == 5 || h.im 15 12 == 0) 0x06,
    need (vcvtPair (h.im 11 9) (h.im 8 6)) 0x0A, need (h.im 5 4 ≤ vcvtQ (h.im 11 9) (h.im 8 6)) 0x0A]
/-- VQNT (R441) and VDEQ (R442): the register ranges, and GS with OWN. -/
def vqntFine (h : Head) : Option Nat :=
  firstBad [need (h.a.toNat + 2 ^ h.im 1 0 ≤ 32) 0x0A, need (h.im 3 2 != 3) 0x0A]
def vdeqFine (h : Head) : Option Nat := need (h.d.toNat + 2 ^ h.im 1 0 ≤ 32) 0x0A
/-- SBIND: the static checks of R443. -/
def sbindFine (h : Head) : Option Nat :=
  firstBad [need (h.im 6 6 == 1 || h.b == 0) 0x06, need (h.im 5 4 != 3) 0x0A,
    need (h.im 2 2 == 1 || h.a == 0) 0x0A, need (h.im 2 2 == 0 || h.im 1 0 == 0) 0x0A,
    need (h.im 7 7 == 0 || (h.im 5 4 == 0 && h.im 6 6 == 0)) 0x0A]
/-- AZERO: a row mask that is not 0 (R458). -/
def azeroFine (h : Head) : Option Nat := need (h.form != .T2 || h.im 7 0 != 0) 0x0A
/-- ASCALE names gA in T1 only (R458). -/
def ascaleFine (h : Head) : Option Nat := need (h.form != .T2 || h.a == 0) 0x06
/-- CPGO: D from 1 to 62 (R463). -/
def cpgoFine (h : Head) : Option Nat := need (1 ≤ h.d.toNat && h.d.toNat ≤ 62) 0x0A
/-- COMPOSE: n from 2 to 16 (R464). -/
def composeFine (h : Head) : Option Nat := need (2 ≤ h.im 4 0 && h.im 4 0 ≤ 16) 0x0A
/-- CTX.SAVE: B bit 0 is HOLD (R469). -/
def holdFine (h : Head) : Option Nat := need (h.b.toNat ≤ 1) 0x06
/-- FWD: KIND 0 to 10 (R477). -/
def fwdFine (h : Head) : Option Nat := need (h.im 3 0 ≤ 10) 0x0A

namespace Rows
def nop : Row := { major := 0x00, f0 := 0, f1 := 15, forms := [.H, .T1, .T2, .T4], d := .none, a := .none, imm := 0x0, fine := nopFine, build := .nop }
def add : Row := { major := 0x01, f0 := 0, f1 := 0, forms := [.T1, .T2, .T4], d := .g, a := .g, b1 := .g, build := .add }
def addW : Row := { major := 0x01, f0 := 1, f1 := 1, forms := [.T1, .T2, .T4], d := .g, a := .g, b1 := .g, build := .addW }
def sub : Row := { major := 0x02, f0 := 0, f1 := 0, forms := [.T1, .T2, .T4], d := .g, a := .g, b1 := .g, build := .sub }
def subW : Row := { major := 0x02, f0 := 1, f1 := 1, forms := [.T1, .T2, .T4], d := .g, a := .g, b1 := .g, build := .subW }
def mul : Row := { major := 0x03, f0 := 0, f1 := 0, forms := [.T1, .T2], d := .g, a := .g, b1 := .g, build := .mul }
def mulh : Row := { major := 0x03, f0 := 1, f1 := 1, forms := [.T1, .T2], d := .g, a := .g, b1 := .g, build := .mulh }
def mulhu : Row := { major := 0x03, f0 := 2, f1 := 2, forms := [.T1, .T2], d := .g, a := .g, b1 := .g, build := .mulhu }
def mulW : Row := { major := 0x03, f0 := 3, f1 := 3, forms := [.T1, .T2], d := .g, a := .g, b1 := .g, build := .mulW }
def div : Row := { major := 0x04, f0 := 0, f1 := 0, forms := [.T1], d := .g, a := .g, b1 := .g, build := .div }
def divu : Row := { major := 0x04, f0 := 1, f1 := 1, forms := [.T1], d := .g, a := .g, b1 := .g, build := .divu }
def rem : Row := { major := 0x04, f0 := 2, f1 := 2, forms := [.T1], d := .g, a := .g, b1 := .g, build := .rem }
def remu : Row := { major := 0x04, f0 := 3, f1 := 3, forms := [.T1], d := .g, a := .g, b1 := .g, build := .remu }
def and : Row := { major := 0x05, f0 := 0, f1 := 0, forms := [.T1, .T2, .T4], d := .g, a := .g, b1 := .g, build := .and }
def or : Row := { major := 0x06, f0 := 0, f1 := 0, forms := [.T1, .T2, .T4], d := .g, a := .g, b1 := .g, build := .or }
def xor : Row := { major := 0x07, f0 := 0, f1 := 0, forms := [.T1, .T2, .T4], d := .g, a := .g, b1 := .g, build := .xor }
def andn : Row := { major := 0x08, f0 := 0, f1 := 0, forms := [.T1, .T2, .T4], d := .g, a := .g, b1 := .g, build := .andn }
def shl : Row := { major := 0x09, f0 := 0, f1 := 0, forms := [.T1, .T2], d := .g, a := .g, b1 := .g, imm := 0x3F, build := .shl }
def shr : Row := { major := 0x09, f0 := 1, f1 := 1, forms := [.T1, .T2], d := .g, a := .g, b1 := .g, imm := 0x3F, build := .shr }
def sra : Row := { major := 0x09, f0 := 2, f1 := 2, forms := [.T1, .T2], d := .g, a := .g, b1 := .g, imm := 0x3F, build := .sra }
def ror : Row := { major := 0x09, f0 := 3, f1 := 3, forms := [.T1, .T2], d := .g, a := .g, b1 := .g, imm := 0x3F, build := .ror }
def seq : Row := { major := 0x0A, f0 := 0, f1 := 0, forms := [.T1, .T2], d := .g, a := .g, b1 := .g, build := .seq }
def sne : Row := { major := 0x0A, f0 := 1, f1 := 1, forms := [.T1, .T2], d := .g, a := .g, b1 := .g, build := .sne }
def slt : Row := { major := 0x0A, f0 := 2, f1 := 2, forms := [.T1, .T2], d := .g, a := .g, b1 := .g, build := .slt }
def sge : Row := { major := 0x0A, f0 := 3, f1 := 3, forms := [.T1, .T2], d := .g, a := .g, b1 := .g, build := .sge }
def sltu : Row := { major := 0x0A, f0 := 4, f1 := 4, forms := [.T1, .T2], d := .g, a := .g, b1 := .g, build := .sltu }
def sgeu : Row := { major := 0x0A, f0 := 5, f1 := 5, forms := [.T1, .T2], d := .g, a := .g, b1 := .g, build := .sgeu }
def min : Row := { major := 0x0B, f0 := 0, f1 := 0, forms := [.T1, .T2], d := .g, a := .g, b1 := .g, build := .min }
def max : Row := { major := 0x0B, f0 := 1, f1 := 1, forms := [.T1, .T2], d := .g, a := .g, b1 := .g, build := .max }
def minu : Row := { major := 0x0B, f0 := 2, f1 := 2, forms := [.T1, .T2], d := .g, a := .g, b1 := .g, build := .minu }
def maxu : Row := { major := 0x0B, f0 := 3, f1 := 3, forms := [.T1, .T2], d := .g, a := .g, b1 := .g, build := .maxu }
def clz : Row := { major := 0x0C, f0 := 0, f1 := 0, forms := [.T1], d := .g, a := .g, build := .clz }
def ctz : Row := { major := 0x0C, f0 := 1, f1 := 1, forms := [.T1], d := .g, a := .g, build := .ctz }
def popc : Row := { major := 0x0C, f0 := 2, f1 := 2, forms := [.T1], d := .g, a := .g, build := .popc }
def brev : Row := { major := 0x0C, f0 := 3, f1 := 3, forms := [.T1], d := .g, a := .g, build := .brev }
def bswap : Row := { major := 0x0C, f0 := 4, f1 := 4, forms := [.T1], d := .g, a := .g, build := .bswap }
def ext : Row := { major := 0x0D, f0 := 0, f1 := 0, forms := [.T2], d := .g, a := .g, imm := 0xFFF, fine := extFine, build := .ext }
def extu : Row := { major := 0x0D, f0 := 1, f1 := 1, forms := [.T2], d := .g, a := .g, imm := 0xFFF, fine := extFine, build := .extu }
def ins : Row := { major := 0x0D, f0 := 2, f1 := 2, forms := [.T2], d := .g, a := .g, imm := 0xFFF, fine := extFine, build := .ins }
def csel : Row := { major := 0x0E, f0 := 0, f1 := 0, forms := [.T2], d := .g, a := .g, b1 := .g, b2 := .g, imm := 0x3F, build := .csel }
def cselz : Row := { major := 0x0E, f0 := 1, f1 := 1, forms := [.T2], d := .g, a := .g, b1 := .g, b2 := .g, imm := 0x3F, build := .cselz }
def madd : Row := { major := 0x0F, f0 := 0, f1 := 0, forms := [.T1], d := .g, a := .g, b1 := .g, build := .madd }
def cinc : Row := { major := 0x10, f0 := 0, f1 := 0, forms := [.T1, .T2, .T4], d := .g, a := .g, b1 := .g, build := .cinc }
def csetb : Row := { major := 0x11, f0 := 0, f1 := 0, forms := [.T1, .T2], d := .g, a := .g, b1 := .g, build := .csetb }
def csetbO : Row := { major := 0x11, f0 := 1, f1 := 1, forms := [.T1, .T2], d := .g, a := .g, b1 := .g, build := .csetbO }
def cperm : Row := { major := 0x12, f0 := 0, f1 := 0, forms := [.T2], d := .g, a := .g, imm := 0x7F, build := .cperm }
def cfmt : Row := { major := 0x13, f0 := 0, f1 := 0, forms := [.T2], d := .g, a := .g, imm := 0xFFF, build := .cfmt }
def cgetAddr : Row := { major := 0x14, f0 := 0, f1 := 0, forms := [.T1], d := .g, a := .g, build := .cgetAddr }
def cgetBase : Row := { major := 0x14, f0 := 1, f1 := 1, forms := [.T1], d := .g, a := .g, build := .cgetBase }
def cgetLen : Row := { major := 0x14, f0 := 2, f1 := 2, forms := [.T1], d := .g, a := .g, build := .cgetLen }
def cgetPerm : Row := { major := 0x14, f0 := 3, f1 := 3, forms := [.T1], d := .g, a := .g, build := .cgetPerm }
def cgetFmt : Row := { major := 0x14, f0 := 4, f1 := 4, forms := [.T1], d := .g, a := .g, build := .cgetFmt }
def cgetK : Row := { major := 0x14, f0 := 5, f1 := 5, forms := [.T1], d := .g, a := .g, build := .cgetK }
def cgetTag : Row := { major := 0x14, f0 := 6, f1 := 6, forms := [.T1], d := .g, a := .g, build := .cgetTag }
def cgetTop : Row := { major := 0x14, f0 := 7, f1 := 7, forms := [.T1], d := .g, a := .g, build := .cgetTop }
def cseta : Row := { major := 0x15, f0 := 0, f1 := 0, forms := [.T1], d := .g, a := .g, b1 := .g, build := .cseta }
def mov : Row := { major := 0x16, f0 := 0, f1 := 0, forms := [.T1], d := .g, a := .g, build := .mov }
def movd : Row := { major := 0x16, f0 := 1, f1 := 1, forms := [.T1], d := .g, a := .g, build := .movd }
def csub : Row := { major := 0x17, f0 := 0, f1 := 0, forms := [.T1], d := .g, a := .g, b1 := .g, build := .csub }
def cchk : Row := { major := 0x18, f0 := 0, f1 := 0, forms := [.T1, .T2], d := .none, a := .g, b1 := .g, b2 := .g, imm := 0x7F, build := .cchk }
def beq : Row := { major := 0x20, f0 := 0, f1 := 0, forms := [.T2], d := .none, a := .g, b1 := .g, b2 := .g, build := .beq }
def bne : Row := { major := 0x20, f0 := 1, f1 := 1, forms := [.T2], d := .none, a := .g, b1 := .g, b2 := .g, build := .bne }
def blt : Row := { major := 0x20, f0 := 2, f1 := 2, forms := [.T2], d := .none, a := .g, b1 := .g, b2 := .g, build := .blt }
def bge : Row := { major := 0x20, f0 := 3, f1 := 3, forms := [.T2], d := .none, a := .g, b1 := .g, b2 := .g, build := .bge }
def bltu : Row := { major := 0x20, f0 := 4, f1 := 4, forms := [.T2], d := .none, a := .g, b1 := .g, b2 := .g, build := .bltu }
def bgeu : Row := { major := 0x20, f0 := 5, f1 := 5, forms := [.T2], d := .none, a := .g, b1 := .g, b2 := .g, build := .bgeu }
def bz : Row := { major := 0x20, f0 := 6, f1 := 6, forms := [.T2], d := .none, a := .g, build := .bz }
def bnz : Row := { major := 0x20, f0 := 7, f1 := 7, forms := [.T2], d := .none, a := .g, build := .bnz }
def jmp : Row := { major := 0x21, f0 := 0, f1 := 0, forms := [.T2, .T4], d := .none, a := .none, build := .jmp }
def jmpC : Row := { major := 0x21, f0 := 1, f1 := 1, forms := [.T1], d := .none, a := .g, build := .jmpC }
def call : Row := { major := 0x22, f0 := 0, f1 := 0, forms := [.T2, .T4], d := .g, a := .none, build := .call }
def callC : Row := { major := 0x22, f0 := 1, f1 := 1, forms := [.T1], d := .g, a := .g, build := .callC }
def ret : Row := { major := 0x23, f0 := 0, f1 := 0, forms := [.T1], d := .none, a := .g, build := .ret }
def loop : Row := { major := 0x24, f0 := 0, f1 := 0, forms := [.T2], d := .g, a := .none, build := .loop }
def endFiring : Row := { major := 0x25, f0 := 0, f1 := 0, forms := [.H], d := .g, a := .none, build := .endFiring }
def ende : Row := { major := 0x25, f0 := 1, f1 := 1, forms := [.T1], d := .none, a := .none, build := .ende }
def yield : Row := { major := 0x26, f0 := 0, f1 := 0, forms := [.H], d := .none, a := .none, build := .yield }
def waitt : Row := { major := 0x27, f0 := 0, f1 := 0, forms := [.T1], d := .none, a := .g, b1 := .g, build := .waitt }
def waiteMsg : Row := { major := 0x28, f0 := 0, f1 := 0, forms := [.T1], d := .none, a := .none, build := .waiteMsg }
def waiteStr : Row := { major := 0x28, f0 := 1, f1 := 1, forms := [.T1], d := .none, a := .v, build := .waiteStr }
def waiteRing : Row := { major := 0x28, f0 := 2, f1 := 2, forms := [.T1], d := .none, a := .g, build := .waiteRing }
def waiteSlot : Row := { major := 0x28, f0 := 3, f1 := 3, forms := [.T1], d := .none, a := .g, build := .waiteSlot }
def fire : Row := { major := 0x29, f0 := 0, f1 := 0, forms := [.T1], d := .g, a := .g, b1 := .g, build := .fire }
def trap : Row := { major := 0x2A, f0 := 0, f1 := 0, forms := [.T2], d := .none, a := .none, build := .trap }
def eret : Row := { major := 0x2B, f0 := 0, f1 := 0, forms := [.H], d := .g, a := .none, build := .eret }
def growC : Row := { major := 0x2C, f0 := 0, f1 := 0, forms := [.T2], d := .none, a := .none, imm := 0xF, fine := growFine, build := .growC }
def growV : Row := { major := 0x2C, f0 := 1, f1 := 1, forms := [.T2], d := .none, a := .none, imm := 0xF, fine := growFine, build := .growV }
def shrinkC : Row := { major := 0x2D, f0 := 0, f1 := 0, forms := [.T2], d := .none, a := .none, imm := 0xF, fine := growFine, build := .shrinkC }
def shrinkV : Row := { major := 0x2D, f0 := 1, f1 := 1, forms := [.T2], d := .none, a := .none, imm := 0xF, fine := growFine, build := .shrinkV }
def ld : Row := { major := 0x30, f0 := 0, f1 := 6, forms := [.T1, .T2, .T4], d := .g, a := .g, b1 := .g, build := .ld }
def st : Row := { major := 0x31, f0 := 0, f1 := 3, forms := [.T1, .T2, .T4], d := .g, a := .g, b1 := .g, build := .st }
def ldc : Row := { major := 0x32, f0 := 0, f1 := 0, forms := [.T1, .T2], d := .g, a := .g, b1 := .g, build := .ldc }
def stc : Row := { major := 0x33, f0 := 0, f1 := 0, forms := [.T1, .T2], d := .g, a := .g, b1 := .g, build := .stc }
def ldaq : Row := { major := 0x34, f0 := 0, f1 := 6, forms := [.T2], d := .g, a := .g, b1 := .num, b2 := .num, fine := scopeBFine, build := .ldaq }
def strl : Row := { major := 0x35, f0 := 0, f1 := 3, forms := [.T2], d := .g, a := .g, b1 := .num, b2 := .num, fine := scopeBFine, build := .strl }
def fenceAr : Row := { major := 0x36, f0 := 0, f1 := 0, forms := [.T1], d := .num, a := .none, fine := scopeDFine, build := .fenceAr }
def fenceAcq : Row := { major := 0x36, f0 := 1, f1 := 1, forms := [.T1], d := .num, a := .none, fine := scopeDFine, build := .fenceAcq }
def fenceRel : Row := { major := 0x36, f0 := 2, f1 := 2, forms := [.T1], d := .num, a := .none, fine := scopeDFine, build := .fenceRel }
def fenceFull : Row := { major := 0x36, f0 := 3, f1 := 3, forms := [.T1], d := .num, a := .none, fine := scopeDFine, build := .fenceFull }
def movb : Row := { major := 0x37, f0 := 0, f1 := 0, forms := [.T1], d := .g, a := .g, b1 := .g, fine := moveFine, build := .movb }
def fill : Row := { major := 0x38, f0 := 0, f1 := 0, forms := [.T1], d := .g, a := .g, b1 := .g, fine := moveFine, build := .fill }
def ipinL1i : Row := { major := 0x39, f0 := 0, f1 := 0, forms := [.T2], d := .none, a := .g, fine := linesFine, build := .ipinL1i }
def ipinL2 : Row := { major := 0x39, f0 := 1, f1 := 1, forms := [.T2], d := .none, a := .g, fine := linesFine, build := .ipinL2 }
def ipinPf1 : Row := { major := 0x39, f0 := 2, f1 := 2, forms := [.T2], d := .none, a := .g, fine := linesFine, build := .ipinPf1 }
def ipinPf2 : Row := { major := 0x39, f0 := 3, f1 := 3, forms := [.T2], d := .none, a := .g, fine := linesFine, build := .ipinPf2 }
def ipinUn : Row := { major := 0x39, f0 := 4, f1 := 4, forms := [.T2], d := .none, a := .g, fine := linesFine, build := .ipinUn }
def cacheWb : Row := { major := 0x3A, f0 := 0, f1 := 0, forms := [.T2], d := .none, a := .g, fine := linesFine, build := .cacheWb }
def cacheInv : Row := { major := 0x3A, f0 := 1, f1 := 1, forms := [.T2], d := .none, a := .g, fine := linesFine, build := .cacheInv }
def cachePf1 : Row := { major := 0x3A, f0 := 2, f1 := 2, forms := [.T2], d := .none, a := .g, fine := linesFine, build := .cachePf1 }
def cachePf2 : Row := { major := 0x3A, f0 := 3, f1 := 3, forms := [.T2], d := .none, a := .g, fine := linesFine, build := .cachePf2 }
def aadd : Row := { major := 0x40, f0 := 0, f1 := 0, forms := [.T2], d := .g, a := .g, b1 := .g, b2 := .g, imm := 0x3F, fine := amoFine, build := .aadd }
def aand : Row := { major := 0x40, f0 := 1, f1 := 1, forms := [.T2], d := .g, a := .g, b1 := .g, b2 := .g, imm := 0x3F, fine := amoFine, build := .aand }
def aor : Row := { major := 0x40, f0 := 2, f1 := 2, forms := [.T2], d := .g, a := .g, b1 := .g, b2 := .g, imm := 0x3F, fine := amoFine, build := .aor }
def axor : Row := { major := 0x40, f0 := 3, f1 := 3, forms := [.T2], d := .g, a := .g, b1 := .g, b2 := .g, imm := 0x3F, fine := amoFine, build := .axor }
def amin : Row := { major := 0x40, f0 := 4, f1 := 4, forms := [.T2], d := .g, a := .g, b1 := .g, b2 := .g, imm := 0x3F, fine := amoFine, build := .amin }
def amax : Row := { major := 0x40, f0 := 5, f1 := 5, forms := [.T2], d := .g, a := .g, b1 := .g, b2 := .g, imm := 0x3F, fine := amoFine, build := .amax }
def aminu : Row := { major := 0x40, f0 := 6, f1 := 6, forms := [.T2], d := .g, a := .g, b1 := .g, b2 := .g, imm := 0x3F, fine := amoFine, build := .aminu }
def amaxu : Row := { major := 0x40, f0 := 7, f1 := 7, forms := [.T2], d := .g, a := .g, b1 := .g, b2 := .g, imm := 0x3F, fine := amoFine, build := .amaxu }
def aswp : Row := { major := 0x40, f0 := 8, f1 := 8, forms := [.T2], d := .g, a := .g, b1 := .g, b2 := .g, imm := 0x3F, fine := amoFine, build := .aswp }
def afadd : Row := { major := 0x40, f0 := 9, f1 := 9, forms := [.T2], d := .g, a := .g, b1 := .g, b2 := .g, imm := 0x3F, fine := amoFFine, build := .afadd }
def afmax : Row := { major := 0x40, f0 := 10, f1 := 10, forms := [.T2], d := .g, a := .g, b1 := .g, b2 := .g, imm := 0x3F, fine := amoFFine, build := .afmax }
def acas : Row := { major := 0x41, f0 := 0, f1 := 0, forms := [.T2], d := .g, a := .g, b1 := .g, b2 := .g, imm := 0x3F, fine := amoFine, build := .acas }
def redadd : Row := { major := 0x42, f0 := 0, f1 := 0, forms := [.T2], d := .none, a := .g, b1 := .g, b2 := .g, imm := 0x3F, fine := redFine, build := .redadd }
def redand : Row := { major := 0x42, f0 := 1, f1 := 1, forms := [.T2], d := .none, a := .g, b1 := .g, b2 := .g, imm := 0x3F, fine := redFine, build := .redand }
def redor : Row := { major := 0x42, f0 := 2, f1 := 2, forms := [.T2], d := .none, a := .g, b1 := .g, b2 := .g, imm := 0x3F, fine := redFine, build := .redor }
def redxor : Row := { major := 0x42, f0 := 3, f1 := 3, forms := [.T2], d := .none, a := .g, b1 := .g, b2 := .g, imm := 0x3F, fine := redFine, build := .redxor }
def redmin : Row := { major := 0x42, f0 := 4, f1 := 4, forms := [.T2], d := .none, a := .g, b1 := .g, b2 := .g, imm := 0x3F, fine := redFine, build := .redmin }
def redmax : Row := { major := 0x42, f0 := 5, f1 := 5, forms := [.T2], d := .none, a := .g, b1 := .g, b2 := .g, imm := 0x3F, fine := redFine, build := .redmax }
def redminu : Row := { major := 0x42, f0 := 6, f1 := 6, forms := [.T2], d := .none, a := .g, b1 := .g, b2 := .g, imm := 0x3F, fine := redFine, build := .redminu }
def redmaxu : Row := { major := 0x42, f0 := 7, f1 := 7, forms := [.T2], d := .none, a := .g, b1 := .g, b2 := .g, imm := 0x3F, fine := redFine, build := .redmaxu }
def redfadd : Row := { major := 0x42, f0 := 9, f1 := 9, forms := [.T2], d := .none, a := .g, b1 := .g, b2 := .g, imm := 0x3F, fine := redFFine, build := .redfadd }
def redfmax : Row := { major := 0x42, f0 := 10, f1 := 10, forms := [.T2], d := .none, a := .g, b1 := .g, b2 := .g, imm := 0x3F, fine := redFFine, build := .redfmax }
def take : Row := { major := 0x43, f0 := 0, f1 := 0, forms := [.T2], d := .g, a := .g, imm := 0x7, fine := scopeImmFine, build := .take }
def peek : Row := { major := 0x43, f0 := 1, f1 := 1, forms := [.T2], d := .g, a := .g, imm := 0x7, fine := scopeImmFine, build := .peek }
def trytake : Row := { major := 0x43, f0 := 2, f1 := 2, forms := [.T2], d := .g, a := .g, imm := 0x7, fine := scopeImmFine, build := .trytake }
def feget : Row := { major := 0x43, f0 := 3, f1 := 3, forms := [.T2], d := .g, a := .g, imm := 0x7, fine := scopeImmFine, build := .feget }
def put : Row := { major := 0x44, f0 := 0, f1 := 0, forms := [.T2], d := .g, a := .g, imm := 0x7, fine := scopeImmFine, build := .put }
def fput : Row := { major := 0x44, f0 := 1, f1 := 1, forms := [.T2], d := .g, a := .g, imm := 0x7, fine := scopeImmFine, build := .fput }
def fclr : Row := { major := 0x44, f0 := 2, f1 := 2, forms := [.T2], d := .none, a := .g, imm := 0x7, fine := scopeImmFine, build := .fclr }
def bar : Row := { major := 0x46, f0 := 0, f1 := 0, forms := [.T1], d := .num, a := .g, b1 := .num, b2 := .num, fine := barFine, build := .bar }
def barin : Row := { major := 0x46, f0 := 1, f1 := 1, forms := [.T1], d := .num, a := .g, b1 := .num, b2 := .num, fine := barFine, build := .barin }
def barwt : Row := { major := 0x46, f0 := 2, f1 := 2, forms := [.T1], d := .num, a := .g, b1 := .num, b2 := .num, fine := barFine, build := .barwt }
def barmax : Row := { major := 0x47, f0 := 0, f1 := 0, forms := [.T1], d := .g, a := .g, build := .barmax }
def gang : Row := { major := 0x48, f0 := 0, f1 := 0, forms := [.H], d := .none, a := .none, build := .gang }
def send : Row := { major := 0x49, f0 := 0, f1 := 0, forms := [.T2], d := .g, a := .g, b1 := .g, b2 := .g, imm := 0x1F, fine := sendFine, build := .send }
def sendC : Row := { major := 0x49, f0 := 1, f1 := 1, forms := [.T2], d := .g, a := .g, b1 := .g, b2 := .g, imm := 0x1F, fine := sendFine, build := .sendC }
def sendR : Row := { major := 0x49, f0 := 2, f1 := 2, forms := [.T2], d := .g, a := .g, b1 := .g, b2 := .g, imm := 0x1F, fine := sendFine, build := .sendR }
def nputArm : Row := { major := 0x4A, f0 := 0, f1 := 0, forms := [.T2], d := .num, a := .num, b1 := .num, b2 := .num, imm := 0x1F, fine := nputArmFine, pick := nputArmPick, build := .nputArm }
def nput : Row := { major := 0x4A, f0 := 0, f1 := 0, forms := [.T2], d := .num, a := .num, b1 := .g, b2 := .g, imm := 0x1F, fine := nputFine, pick := nputPick, build := .nput }
def push : Row := { major := 0x4B, f0 := 0, f1 := 0, forms := [.T1], d := .num, a := .g, b1 := .g, fine := kFine, build := .push }
def consume : Row := { major := 0x4C, f0 := 0, f1 := 0, forms := [.T1, .T2], d := .num, a := .none, b1 := .g, fine := consumeFine, build := .consume }
def vadd : Row := { major := 0x50, f0 := 0, f1 := 4, forms := [.T1, .T2], d := .v, a := .v, b1 := .v, b2 := .num, imm := 0x3F, fine := vbFine, build := .vadd }
def vsub : Row := { major := 0x51, f0 := 0, f1 := 4, forms := [.T1, .T2], d := .v, a := .v, b1 := .v, b2 := .num, imm := 0x3F, fine := vbFine, build := .vsub }
def vmul : Row := { major := 0x52, f0 := 0, f1 := 4, forms := [.T1, .T2], d := .v, a := .v, b1 := .v, b2 := .num, imm := 0x3F, fine := vbFine, build := .vmul }
def vfma : Row := { major := 0x53, f0 := 0, f1 := 4, forms := [.T1, .T2], d := .v, a := .v, b1 := .v, b2 := .num, imm := 0x3F, fine := vbFine, build := .vfma }
def vfms : Row := { major := 0x54, f0 := 0, f1 := 4, forms := [.T1, .T2], d := .v, a := .v, b1 := .v, b2 := .num, imm := 0x3F, fine := vbFine, build := .vfms }
def vmin : Row := { major := 0x55, f0 := 0, f1 := 4, forms := [.T1, .T2], d := .v, a := .v, b1 := .v, b2 := .num, imm := 0x3F, fine := vbFine, build := .vmin }
def vmax : Row := { major := 0x56, f0 := 0, f1 := 4, forms := [.T1, .T2], d := .v, a := .v, b1 := .v, b2 := .num, imm := 0x3F, fine := vbFine, build := .vmax }
def vand : Row := { major := 0x57, f0 := 0, f1 := 0, forms := [.T1, .T2], d := .v, a := .v, b1 := .v, b2 := .num, imm := 0x3F, fine := vbFine, build := .vand }
def vor : Row := { major := 0x57, f0 := 1, f1 := 1, forms := [.T1, .T2], d := .v, a := .v, b1 := .v, b2 := .num, imm := 0x3F, fine := vbFine, build := .vor }
def vxor : Row := { major := 0x57, f0 := 2, f1 := 2, forms := [.T1, .T2], d := .v, a := .v, b1 := .v, b2 := .num, imm := 0x3F, fine := vbFine, build := .vxor }
def vandn : Row := { major := 0x57, f0 := 3, f1 := 3, forms := [.T1, .T2], d := .v, a := .v, b1 := .v, b2 := .num, imm := 0x3F, fine := vbFine, build := .vandn }
def vshl : Row := { major := 0x58, f0 := 3, f1 := 4, forms := [.T1, .T2], d := .v, a := .v, b1 := .v, b2 := .num, imm := 0x7FFF, fine := vshFine, pick := vshPick 0, build := .vshl }
def vshr : Row := { major := 0x58, f0 := 3, f1 := 4, forms := [.T1, .T2], d := .v, a := .v, b1 := .v, b2 := .num, imm := 0x7FFF, fine := vshFine, pick := vshPick 1, build := .vshr }
def vsra : Row := { major := 0x58, f0 := 3, f1 := 4, forms := [.T1, .T2], d := .v, a := .v, b1 := .v, b2 := .num, imm := 0x7FFF, fine := vshFine, pick := vshLast, build := .vsra }
def vcmp : Row := { major := 0x59, f0 := 0, f1 := 0, forms := [.T2], d := .m, a := .v, b1 := .num, b2 := .num, imm := 0x1FEF, fine := vcmpFine, build := .vcmp }
def vsel : Row := { major := 0x5A, f0 := 0, f1 := 0, forms := [.T2], d := .v, a := .v, b1 := .num, b2 := .num, imm := 0x27, fine := vbFine, build := .vsel }
def vrcp : Row := { major := 0x5B, f0 := 0, f1 := 0, forms := [.T2], d := .v, a := .v, imm := 0x1DF, fine := vfnFine, build := .vrcp }
def vrsq : Row := { major := 0x5B, f0 := 1, f1 := 1, forms := [.T2], d := .v, a := .v, imm := 0x1DF, fine := vfnFine, build := .vrsq }
def vexp2 : Row := { major := 0x5B, f0 := 2, f1 := 2, forms := [.T2], d := .v, a := .v, imm := 0x1DF, fine := vfnFine, build := .vexp2 }
def vlog2 : Row := { major := 0x5B, f0 := 3, f1 := 3, forms := [.T2], d := .v, a := .v, imm := 0x1DF, fine := vfnFine, build := .vlog2 }
def vsqrt : Row := { major := 0x5B, f0 := 4, f1 := 4, forms := [.T2], d := .v, a := .v, imm := 0x1DF, fine := vfnFine, build := .vsqrt }
def vtanh : Row := { major := 0x5B, f0 := 5, f1 := 5, forms := [.T2], d := .v, a := .v, imm := 0x1DF, fine := vfnFine, build := .vtanh }
def vredsum : Row := { major := 0x5C, f0 := 0, f1 := 0, forms := [.T2], d := .g, a := .v, imm := 0x1CF, fine := selTypeFine, build := .vredsum }
def vredmax : Row := { major := 0x5C, f0 := 1, f1 := 1, forms := [.T2], d := .g, a := .v, imm := 0x1CF, fine := selTypeFine, build := .vredmax }
def vredmin : Row := { major := 0x5C, f0 := 2, f1 := 2, forms := [.T2], d := .g, a := .v, imm := 0x1CF, fine := selTypeFine, build := .vredmin }
def vperm : Row := { major := 0x5D, f0 := 0, f1 := 0, forms := [.T1, .T2], d := .v, a := .v, b1 := .v, b2 := .v, imm := 0x1DF, fine := sel01Fine, build := .vperm }
def vbcast : Row := { major := 0x5E, f0 := 0, f1 := 0, forms := [.T1, .T2], d := .v, a := .g, imm := 0x1DF, fine := sel01Fine, build := .vbcast }
def vextr : Row := { major := 0x5F, f0 := 0, f1 := 0, forms := [.T2], d := .g, a := .v, b1 := .g, b2 := .g, imm := 0xFF, fine := vextrFine, build := .vextr }
def vins : Row := { major := 0x5F, f0 := 1, f1 := 1, forms := [.T2], d := .v, a := .g, b1 := .g, b2 := .g, imm := 0x7F, fine := vextrFine, build := .vins }
def vld : Row := { major := 0x60, f0 := 0, f1 := 0, forms := [.T1, .T2], d := .v, a := .g, b1 := .g, b2 := .g, imm := 0xFF, fine := vldFine, build := .vld }
def vldS : Row := { major := 0x60, f0 := 1, f1 := 1, forms := [.T1, .T2], d := .v, a := .g, b1 := .g, b2 := .g, imm := 0xFF, fine := vldSFine, build := .vldS }
def vldG : Row := { major := 0x60, f0 := 2, f1 := 2, forms := [.T1, .T2], d := .v, a := .g, b1 := .v, b2 := .v, imm := 0xFF, fine := vldGFine, build := .vldG }
def vst : Row := { major := 0x61, f0 := 0, f1 := 0, forms := [.T1, .T2], d := .v, a := .g, b1 := .g, b2 := .g, imm := 0xEF, fine := vldFine, build := .vst }
def vstS : Row := { major := 0x61, f0 := 1, f1 := 1, forms := [.T1, .T2], d := .v, a := .g, b1 := .g, b2 := .g, imm := 0xEF, fine := vldSFine, build := .vstS }
def vstX : Row := { major := 0x61, f0 := 2, f1 := 2, forms := [.T1, .T2], d := .v, a := .g, b1 := .v, b2 := .v, imm := 0xEF, fine := vldGFine, build := .vstX }
def vcvt : Row := { major := 0x62, f0 := 0, f1 := 0, forms := [.T2], d := .v, a := .v, fine := vcvtFine, build := .vcvt }
def vqnt : Row := { major := 0x63, f0 := 0, f1 := 0, forms := [.T2], d := .g, a := .v, b1 := .g, b2 := .g, imm := 0xF, fine := vqntFine, build := .vqnt }
def vdeq : Row := { major := 0x64, f0 := 0, f1 := 0, forms := [.T2], d := .v, a := .g, imm := 0x3, fine := vdeqFine, build := .vdeq }
def mand : Row := { major := 0x65, f0 := 0, f1 := 0, forms := [.T1], d := .m, a := .m, b1 := .m, build := .mand }
def mor : Row := { major := 0x65, f0 := 1, f1 := 1, forms := [.T1], d := .m, a := .m, b1 := .m, build := .mor }
def mxor : Row := { major := 0x65, f0 := 2, f1 := 2, forms := [.T1], d := .m, a := .m, b1 := .m, build := .mxor }
def mnot : Row := { major := 0x65, f0 := 3, f1 := 3, forms := [.T1], d := .m, a := .m, build := .mnot }
def mpop : Row := { major := 0x65, f0 := 4, f1 := 4, forms := [.T1], d := .g, a := .m, build := .mpop }
def mfirst : Row := { major := 0x65, f0 := 5, f1 := 5, forms := [.T1], d := .g, a := .m, build := .mfirst }
def sbind : Row := { major := 0x66, f0 := 0, f1 := 0, forms := [.T2], d := .v, a := .g, b1 := .g, b2 := .g, imm := 0xFF, fine := sbindFine, build := .sbind }
def sunbind : Row := { major := 0x67, f0 := 0, f1 := 0, forms := [.T1], d := .none, a := .v, build := .sunbind }
def sstat : Row := { major := 0x68, f0 := 0, f1 := 0, forms := [.T1], d := .g, a := .v, build := .sstat }
def vmov : Row := { major := 0x69, f0 := 0, f1 := 0, forms := [.T1], d := .v, a := .v, build := .vmov }
def vscan : Row := { major := 0x6A, f0 := 0, f1 := 0, forms := [.T2], d := .v, a := .v, b1 := .num, b2 := .num, imm := 0x1FDF, fine := vscanFine, build := .vscan }
def sclaim : Row := { major := 0x70, f0 := 0, f1 := 0, forms := [.T1], d := .none, a := .g, build := .sclaim }
def srel : Row := { major := 0x71, f0 := 0, f1 := 0, forms := [.T1], d := .none, a := .g, build := .srel }
def sload : Row := { major := 0x72, f0 := 0, f1 := 0, forms := [.T2], d := .g, a := .g, b1 := .g, b2 := .g, build := .sload }
def mma : Row := { major := 0x73, f0 := 0, f1 := 3, forms := [.T2], d := .acc, a := .g, b1 := .g, b2 := .g, imm := 0x1, build := .mma }
def azero : Row := { major := 0x74, f0 := 0, f1 := 0, forms := [.T1, .T2], d := .acc, a := .none, imm := 0xFF, fine := azeroFine, build := .azero }
def astore : Row := { major := 0x74, f0 := 1, f1 := 1, forms := [.T1, .T2], d := .acc, a := .g, b1 := .g, b2 := .g, build := .astore }
def aload : Row := { major := 0x74, f0 := 2, f1 := 2, forms := [.T1, .T2], d := .acc, a := .g, b1 := .g, b2 := .g, build := .aload }
def ascale : Row := { major := 0x74, f0 := 3, f1 := 3, forms := [.T1, .T2], d := .acc, a := .num, imm := 0xFF, fine := ascaleFine, build := .ascale }
def amovv : Row := { major := 0x74, f0 := 4, f1 := 4, forms := [.T1, .T2], d := .v, a := .acc, imm := 0x3F, build := .amovv }
def sfmt : Row := { major := 0x75, f0 := 0, f1 := 0, forms := [.T1], d := .none, a := .g, b1 := .g, build := .sfmt }
def mfc : Row := { major := 0x78, f0 := 0, f1 := 0, forms := [.T2], d := .g, a := .none, imm := 0xFFF, build := .mfc }
def mtc : Row := { major := 0x79, f0 := 0, f1 := 0, forms := [.T2], d := .none, a := .g, imm := 0xFFF, build := .mtc }
def cpgo : Row := { major := 0x7A, f0 := 0, f1 := 0, forms := [.H], d := .g, a := .none, fine := cpgoFine, build := .cpgo }
def compose : Row := { major := 0x7B, f0 := 0, f1 := 0, forms := [.T2], d := .none, a := .none, imm := 0x1F, fine := composeFine, build := .compose }
def decompose : Row := { major := 0x7B, f0 := 1, f1 := 1, forms := [.T1], d := .none, a := .none, build := .decompose }
def pair : Row := { major := 0x7B, f0 := 2, f1 := 2, forms := [.T1], d := .none, a := .none, build := .pair }
def unpair : Row := { major := 0x7B, f0 := 3, f1 := 3, forms := [.T1], d := .none, a := .none, build := .unpair }
def ctxSave : Row := { major := 0x7C, f0 := 0, f1 := 0, forms := [.T1], d := .g, a := .g, b1 := .num, fine := holdFine, build := .ctxSave }
def ctxLoad : Row := { major := 0x7C, f0 := 1, f1 := 1, forms := [.T1], d := .g, a := .g, build := .ctxLoad }
def ctxDrop : Row := { major := 0x7C, f0 := 2, f1 := 2, forms := [.T1], d := .g, a := .g, build := .ctxDrop }
def tlbinvVa : Row := { major := 0x7D, f0 := 0, f1 := 0, forms := [.T1], d := .none, a := .g, b1 := .g, build := .tlbinvVa }
def tlbinvAsid : Row := { major := 0x7D, f0 := 1, f1 := 1, forms := [.T1], d := .none, a := .none, b1 := .g, build := .tlbinvAsid }
def tlbinvAll : Row := { major := 0x7D, f0 := 2, f1 := 2, forms := [.T1], d := .none, a := .none, build := .tlbinvAll }
def tagset : Row := { major := 0x7E, f0 := 0, f1 := 0, forms := [.T2], d := .g, a := .g, imm := 0x1B, build := .tagset }
def dirrd : Row := { major := 0x7E, f0 := 1, f1 := 1, forms := [.T1, .T2], d := .g, a := .g, imm := 0x1, build := .dirrd }
def dirwr : Row := { major := 0x7E, f0 := 2, f1 := 2, forms := [.T1, .T2], d := .g, a := .g, b1 := .g, b2 := .g, imm := 0x1, build := .dirwr }
def reply : Row := { major := 0x7E, f0 := 3, f1 := 3, forms := [.T2], d := .none, a := .g, b1 := .g, b2 := .g, imm := 0x13, build := .reply }
def fwd : Row := { major := 0x7E, f0 := 4, f1 := 4, forms := [.T2], d := .none, a := .g, b1 := .g, b2 := .g, imm := 0x1F, fine := fwdFine, build := .fwd }
def btx : Row := { major := 0x7E, f0 := 5, f1 := 5, forms := [.T2], d := .none, a := .g, b1 := .g, b2 := .g, imm := 0x1FF, build := .btx }
def hdone : Row := { major := 0x7E, f0 := 6, f1 := 6, forms := [.T1, .T2], d := .none, a := .none, imm := 0x1, build := .hdone }
end Rows

/-- The opcode map, in the table's order. Where two rows share a major and F, the first whose `pick` holds
is meant. -/
def opRows : List Row :=
  [Rows.nop, Rows.add, Rows.addW, Rows.sub, Rows.subW, Rows.mul, Rows.mulh, Rows.mulhu, Rows.mulW, Rows.div, Rows.divu, Rows.rem, Rows.remu, Rows.and, Rows.or, Rows.xor, Rows.andn, Rows.shl, Rows.shr, Rows.sra, Rows.ror, Rows.seq, Rows.sne, Rows.slt] ++
  [Rows.sge, Rows.sltu, Rows.sgeu, Rows.min, Rows.max, Rows.minu, Rows.maxu, Rows.clz, Rows.ctz, Rows.popc, Rows.brev, Rows.bswap, Rows.ext, Rows.extu, Rows.ins, Rows.csel, Rows.cselz, Rows.madd, Rows.cinc, Rows.csetb, Rows.csetbO, Rows.cperm, Rows.cfmt, Rows.cgetAddr] ++
  [Rows.cgetBase, Rows.cgetLen, Rows.cgetPerm, Rows.cgetFmt, Rows.cgetK, Rows.cgetTag, Rows.cgetTop, Rows.cseta, Rows.mov, Rows.movd, Rows.csub, Rows.cchk, Rows.beq, Rows.bne, Rows.blt, Rows.bge, Rows.bltu, Rows.bgeu, Rows.bz, Rows.bnz, Rows.jmp, Rows.jmpC, Rows.call, Rows.callC] ++
  [Rows.ret, Rows.loop, Rows.endFiring, Rows.ende, Rows.yield, Rows.waitt, Rows.waiteMsg, Rows.waiteStr, Rows.waiteRing, Rows.waiteSlot, Rows.fire, Rows.trap, Rows.eret, Rows.growC, Rows.growV, Rows.shrinkC, Rows.shrinkV, Rows.ld, Rows.st, Rows.ldc, Rows.stc, Rows.ldaq, Rows.strl, Rows.fenceAr] ++
  [Rows.fenceAcq, Rows.fenceRel, Rows.fenceFull, Rows.movb, Rows.fill, Rows.ipinL1i, Rows.ipinL2, Rows.ipinPf1, Rows.ipinPf2, Rows.ipinUn, Rows.cacheWb, Rows.cacheInv, Rows.cachePf1, Rows.cachePf2, Rows.aadd, Rows.aand, Rows.aor, Rows.axor, Rows.amin, Rows.amax, Rows.aminu, Rows.amaxu, Rows.aswp, Rows.afadd] ++
  [Rows.afmax, Rows.acas, Rows.redadd, Rows.redand, Rows.redor, Rows.redxor, Rows.redmin, Rows.redmax, Rows.redminu, Rows.redmaxu, Rows.redfadd, Rows.redfmax, Rows.take, Rows.peek, Rows.trytake, Rows.feget, Rows.put, Rows.fput, Rows.fclr, Rows.bar, Rows.barin, Rows.barwt, Rows.barmax, Rows.gang] ++
  [Rows.send, Rows.sendC, Rows.sendR, Rows.nputArm, Rows.nput, Rows.push, Rows.consume, Rows.vadd, Rows.vsub, Rows.vmul, Rows.vfma, Rows.vfms, Rows.vmin, Rows.vmax, Rows.vand, Rows.vor, Rows.vxor, Rows.vandn, Rows.vshl, Rows.vshr, Rows.vsra, Rows.vcmp, Rows.vsel, Rows.vrcp] ++
  [Rows.vrsq, Rows.vexp2, Rows.vlog2, Rows.vsqrt, Rows.vtanh, Rows.vredsum, Rows.vredmax, Rows.vredmin, Rows.vperm, Rows.vbcast, Rows.vextr, Rows.vins, Rows.vld, Rows.vldS, Rows.vldG, Rows.vst, Rows.vstS, Rows.vstX, Rows.vcvt, Rows.vqnt, Rows.vdeq, Rows.mand, Rows.mor, Rows.mxor] ++
  [Rows.mnot, Rows.mpop, Rows.mfirst, Rows.sbind, Rows.sunbind, Rows.sstat, Rows.vmov, Rows.vscan, Rows.sclaim, Rows.srel, Rows.sload, Rows.mma, Rows.azero, Rows.astore, Rows.aload, Rows.ascale, Rows.amovv, Rows.sfmt, Rows.mfc, Rows.mtc, Rows.cpgo, Rows.compose, Rows.decompose, Rows.pair] ++
  [Rows.unpair, Rows.ctxSave, Rows.ctxLoad, Rows.ctxDrop, Rows.tlbinvVa, Rows.tlbinvAsid, Rows.tlbinvAll, Rows.tagset, Rows.dirrd, Rows.dirwr, Rows.reply, Rows.fwd, Rows.btx, Rows.hdone]

/-- The row of a head instruction, with its fields; none for a step of the device. -/
def rowOf : Instr → Option (Row × Head)
  | .nop h => some (Rows.nop, h)
  | .add h => some (Rows.add, h)
  | .addW h => some (Rows.addW, h)
  | .sub h => some (Rows.sub, h)
  | .subW h => some (Rows.subW, h)
  | .mul h => some (Rows.mul, h)
  | .mulh h => some (Rows.mulh, h)
  | .mulhu h => some (Rows.mulhu, h)
  | .mulW h => some (Rows.mulW, h)
  | .div h => some (Rows.div, h)
  | .divu h => some (Rows.divu, h)
  | .rem h => some (Rows.rem, h)
  | .remu h => some (Rows.remu, h)
  | .and h => some (Rows.and, h)
  | .or h => some (Rows.or, h)
  | .xor h => some (Rows.xor, h)
  | .andn h => some (Rows.andn, h)
  | .shl h => some (Rows.shl, h)
  | .shr h => some (Rows.shr, h)
  | .sra h => some (Rows.sra, h)
  | .ror h => some (Rows.ror, h)
  | .seq h => some (Rows.seq, h)
  | .sne h => some (Rows.sne, h)
  | .slt h => some (Rows.slt, h)
  | .sge h => some (Rows.sge, h)
  | .sltu h => some (Rows.sltu, h)
  | .sgeu h => some (Rows.sgeu, h)
  | .min h => some (Rows.min, h)
  | .max h => some (Rows.max, h)
  | .minu h => some (Rows.minu, h)
  | .maxu h => some (Rows.maxu, h)
  | .clz h => some (Rows.clz, h)
  | .ctz h => some (Rows.ctz, h)
  | .popc h => some (Rows.popc, h)
  | .brev h => some (Rows.brev, h)
  | .bswap h => some (Rows.bswap, h)
  | .ext h => some (Rows.ext, h)
  | .extu h => some (Rows.extu, h)
  | .ins h => some (Rows.ins, h)
  | .csel h => some (Rows.csel, h)
  | .cselz h => some (Rows.cselz, h)
  | .madd h => some (Rows.madd, h)
  | .cinc h => some (Rows.cinc, h)
  | .csetb h => some (Rows.csetb, h)
  | .csetbO h => some (Rows.csetbO, h)
  | .cperm h => some (Rows.cperm, h)
  | .cfmt h => some (Rows.cfmt, h)
  | .cgetAddr h => some (Rows.cgetAddr, h)
  | .cgetBase h => some (Rows.cgetBase, h)
  | .cgetLen h => some (Rows.cgetLen, h)
  | .cgetPerm h => some (Rows.cgetPerm, h)
  | .cgetFmt h => some (Rows.cgetFmt, h)
  | .cgetK h => some (Rows.cgetK, h)
  | .cgetTag h => some (Rows.cgetTag, h)
  | .cgetTop h => some (Rows.cgetTop, h)
  | .cseta h => some (Rows.cseta, h)
  | .mov h => some (Rows.mov, h)
  | .movd h => some (Rows.movd, h)
  | .csub h => some (Rows.csub, h)
  | .cchk h => some (Rows.cchk, h)
  | .beq h => some (Rows.beq, h)
  | .bne h => some (Rows.bne, h)
  | .blt h => some (Rows.blt, h)
  | .bge h => some (Rows.bge, h)
  | .bltu h => some (Rows.bltu, h)
  | .bgeu h => some (Rows.bgeu, h)
  | .bz h => some (Rows.bz, h)
  | .bnz h => some (Rows.bnz, h)
  | .jmp h => some (Rows.jmp, h)
  | .jmpC h => some (Rows.jmpC, h)
  | .call h => some (Rows.call, h)
  | .callC h => some (Rows.callC, h)
  | .ret h => some (Rows.ret, h)
  | .loop h => some (Rows.loop, h)
  | .endFiring h => some (Rows.endFiring, h)
  | .ende h => some (Rows.ende, h)
  | .yield h => some (Rows.yield, h)
  | .waitt h => some (Rows.waitt, h)
  | .waiteMsg h => some (Rows.waiteMsg, h)
  | .waiteStr h => some (Rows.waiteStr, h)
  | .waiteRing h => some (Rows.waiteRing, h)
  | .waiteSlot h => some (Rows.waiteSlot, h)
  | .fire h => some (Rows.fire, h)
  | .trap h => some (Rows.trap, h)
  | .eret h => some (Rows.eret, h)
  | .growC h => some (Rows.growC, h)
  | .growV h => some (Rows.growV, h)
  | .shrinkC h => some (Rows.shrinkC, h)
  | .shrinkV h => some (Rows.shrinkV, h)
  | .ld h => some (Rows.ld, h)
  | .st h => some (Rows.st, h)
  | .ldc h => some (Rows.ldc, h)
  | .stc h => some (Rows.stc, h)
  | .ldaq h => some (Rows.ldaq, h)
  | .strl h => some (Rows.strl, h)
  | .fenceAr h => some (Rows.fenceAr, h)
  | .fenceAcq h => some (Rows.fenceAcq, h)
  | .fenceRel h => some (Rows.fenceRel, h)
  | .fenceFull h => some (Rows.fenceFull, h)
  | .movb h => some (Rows.movb, h)
  | .fill h => some (Rows.fill, h)
  | .ipinL1i h => some (Rows.ipinL1i, h)
  | .ipinL2 h => some (Rows.ipinL2, h)
  | .ipinPf1 h => some (Rows.ipinPf1, h)
  | .ipinPf2 h => some (Rows.ipinPf2, h)
  | .ipinUn h => some (Rows.ipinUn, h)
  | .cacheWb h => some (Rows.cacheWb, h)
  | .cacheInv h => some (Rows.cacheInv, h)
  | .cachePf1 h => some (Rows.cachePf1, h)
  | .cachePf2 h => some (Rows.cachePf2, h)
  | .aadd h => some (Rows.aadd, h)
  | .aand h => some (Rows.aand, h)
  | .aor h => some (Rows.aor, h)
  | .axor h => some (Rows.axor, h)
  | .amin h => some (Rows.amin, h)
  | .amax h => some (Rows.amax, h)
  | .aminu h => some (Rows.aminu, h)
  | .amaxu h => some (Rows.amaxu, h)
  | .aswp h => some (Rows.aswp, h)
  | .afadd h => some (Rows.afadd, h)
  | .afmax h => some (Rows.afmax, h)
  | .acas h => some (Rows.acas, h)
  | .redadd h => some (Rows.redadd, h)
  | .redand h => some (Rows.redand, h)
  | .redor h => some (Rows.redor, h)
  | .redxor h => some (Rows.redxor, h)
  | .redmin h => some (Rows.redmin, h)
  | .redmax h => some (Rows.redmax, h)
  | .redminu h => some (Rows.redminu, h)
  | .redmaxu h => some (Rows.redmaxu, h)
  | .redfadd h => some (Rows.redfadd, h)
  | .redfmax h => some (Rows.redfmax, h)
  | .take h => some (Rows.take, h)
  | .peek h => some (Rows.peek, h)
  | .trytake h => some (Rows.trytake, h)
  | .feget h => some (Rows.feget, h)
  | .put h => some (Rows.put, h)
  | .fput h => some (Rows.fput, h)
  | .fclr h => some (Rows.fclr, h)
  | .bar h => some (Rows.bar, h)
  | .barin h => some (Rows.barin, h)
  | .barwt h => some (Rows.barwt, h)
  | .barmax h => some (Rows.barmax, h)
  | .gang h => some (Rows.gang, h)
  | .send h => some (Rows.send, h)
  | .sendC h => some (Rows.sendC, h)
  | .sendR h => some (Rows.sendR, h)
  | .nputArm h => some (Rows.nputArm, h)
  | .nput h => some (Rows.nput, h)
  | .push h => some (Rows.push, h)
  | .consume h => some (Rows.consume, h)
  | .vadd h => some (Rows.vadd, h)
  | .vsub h => some (Rows.vsub, h)
  | .vmul h => some (Rows.vmul, h)
  | .vfma h => some (Rows.vfma, h)
  | .vfms h => some (Rows.vfms, h)
  | .vmin h => some (Rows.vmin, h)
  | .vmax h => some (Rows.vmax, h)
  | .vand h => some (Rows.vand, h)
  | .vor h => some (Rows.vor, h)
  | .vxor h => some (Rows.vxor, h)
  | .vandn h => some (Rows.vandn, h)
  | .vshl h => some (Rows.vshl, h)
  | .vshr h => some (Rows.vshr, h)
  | .vsra h => some (Rows.vsra, h)
  | .vcmp h => some (Rows.vcmp, h)
  | .vsel h => some (Rows.vsel, h)
  | .vrcp h => some (Rows.vrcp, h)
  | .vrsq h => some (Rows.vrsq, h)
  | .vexp2 h => some (Rows.vexp2, h)
  | .vlog2 h => some (Rows.vlog2, h)
  | .vsqrt h => some (Rows.vsqrt, h)
  | .vtanh h => some (Rows.vtanh, h)
  | .vredsum h => some (Rows.vredsum, h)
  | .vredmax h => some (Rows.vredmax, h)
  | .vredmin h => some (Rows.vredmin, h)
  | .vperm h => some (Rows.vperm, h)
  | .vbcast h => some (Rows.vbcast, h)
  | .vextr h => some (Rows.vextr, h)
  | .vins h => some (Rows.vins, h)
  | .vld h => some (Rows.vld, h)
  | .vldS h => some (Rows.vldS, h)
  | .vldG h => some (Rows.vldG, h)
  | .vst h => some (Rows.vst, h)
  | .vstS h => some (Rows.vstS, h)
  | .vstX h => some (Rows.vstX, h)
  | .vcvt h => some (Rows.vcvt, h)
  | .vqnt h => some (Rows.vqnt, h)
  | .vdeq h => some (Rows.vdeq, h)
  | .mand h => some (Rows.mand, h)
  | .mor h => some (Rows.mor, h)
  | .mxor h => some (Rows.mxor, h)
  | .mnot h => some (Rows.mnot, h)
  | .mpop h => some (Rows.mpop, h)
  | .mfirst h => some (Rows.mfirst, h)
  | .sbind h => some (Rows.sbind, h)
  | .sunbind h => some (Rows.sunbind, h)
  | .sstat h => some (Rows.sstat, h)
  | .vmov h => some (Rows.vmov, h)
  | .vscan h => some (Rows.vscan, h)
  | .sclaim h => some (Rows.sclaim, h)
  | .srel h => some (Rows.srel, h)
  | .sload h => some (Rows.sload, h)
  | .mma h => some (Rows.mma, h)
  | .azero h => some (Rows.azero, h)
  | .astore h => some (Rows.astore, h)
  | .aload h => some (Rows.aload, h)
  | .ascale h => some (Rows.ascale, h)
  | .amovv h => some (Rows.amovv, h)
  | .sfmt h => some (Rows.sfmt, h)
  | .mfc h => some (Rows.mfc, h)
  | .mtc h => some (Rows.mtc, h)
  | .cpgo h => some (Rows.cpgo, h)
  | .compose h => some (Rows.compose, h)
  | .decompose h => some (Rows.decompose, h)
  | .pair h => some (Rows.pair, h)
  | .unpair h => some (Rows.unpair, h)
  | .ctxSave h => some (Rows.ctxSave, h)
  | .ctxLoad h => some (Rows.ctxLoad, h)
  | .ctxDrop h => some (Rows.ctxDrop, h)
  | .tlbinvVa h => some (Rows.tlbinvVa, h)
  | .tlbinvAsid h => some (Rows.tlbinvAsid, h)
  | .tlbinvAll h => some (Rows.tlbinvAll, h)
  | .tagset h => some (Rows.tagset, h)
  | .dirrd h => some (Rows.dirrd, h)
  | .dirwr h => some (Rows.dirwr, h)
  | .reply h => some (Rows.reply, h)
  | .fwd h => some (Rows.fwd, h)
  | .btx h => some (Rows.btx, h)
  | .hdone h => some (Rows.hdone, h)
  | .powerOn => none
  | .deviceReset => none
  | .functionLevelReset _ => none
  | .pfFunctionLevelReset => none
  | .computeDieReset _ _ => none
  | .standbyPowerLoss => none
  | .powerLimitWindow _ _ => none
  | .thermalThrottle _ _ => none
  | .thermalTrip _ => none
  | .mgmtUpdate _ _ _ => none
  | .stripMapChange _ _ => none
  | .fencedAccessRetry _ => none
  | .flitCrcResend _ => none
  | .linkResendFailureLimit _ => none
  | .blockLockLoss _ => none
  | .linkIdleTimeout _ => none
  | .idleFlit _ => none
  | .linkTraining _ _ => none
  | .rd _ _ => none
  | .wr _ _ => none
  | .wrm _ _ => none
  | .amo _ _ => none
  | .redc _ _ => none
  | .msg _ _ => none
  | .sig _ _ => none
  | .prb _ _ => none
  | .rdata _ _ => none
  | .ares _ _ => none
  | .ack _ _ => none
  | .nak _ _ => none
  | .mrep _ _ => none
  | .sync _ _ => none
  | .ackTimer _ _ => none
  | .tackExpiry _ _ => none
  | .unreachableTimeout _ => none
  | .resyncHoldExpiry _ => none
  | .nakRetryResend _ => none
  | .pathCheck _ _ _ => none
  | .baraSend _ => none
  | .barb _ _ => none
  | .treeNotice _ => none
  | .barbTimeout _ => none
  | .postResetSync _ => none
  | .scaleOutFrame _ _ => none
  | .hvselWrite _ _ => none
  | .hstatWrite _ _ => none
  | .vfctlWrite _ _ => none
  | .qdirbaseWrite _ _ => none
  | .registerWrite _ _ _ => none
  | .blackboxSelWrite _ => none
  | .fqheadWrite _ _ => none
  | .fresumeRetry _ _ => none
  | .fresumeDeliver _ _ => none
  | .coalesceTimer _ _ => none
  | .msixUnmask _ _ => none
  | .biasFlipStart _ => none
  | .biasFlipPage => none
  | .biasFlipWaitTimeout => none
  | .hostMemAccess _ _ => none
  | .h2dSnoop _ _ => none
  | .hostLineFill _ _ _ => none
  | .wptrPoll _ => none
  | .getcert => none
  | .attest => none
  | .patch _ => none
  | .patchApply => none
  | .patchQuiesceTimeout => none
  | .containFence _ => none
  | .containReset _ _ => none
  | .containRelease _ => none
  | .commit => none
  | .bbctlFreeze => none
  | .bbctlUnfreeze => none
  | .blackboxFrozen _ => none
  | .fabcfg _ => none
  | .patrolScrub _ _ _ => none
  | .actmsg _ => none
  | .sweep _ => none
  | .signal _ => none
  | .wait _ => none
  | .waitReread _ => none
  | .write _ => none
  | .pred _ => none
  | .ind _ => none
  | .loopPacket _ => none
  | .ffence _ => none
  | .intr _ => none
  | .graph _ => none
  | .graphNodeComplete _ _ => none
  | .packetBarrierIssue _ => none
  | .gangMap _ _ => none
  | .unmappedQueuePoll _ _ => none
  | .queueTeardown _ _ => none
  | .sweepSignal _ => none
  | .sweepWakeAccept _ => none
  | .firingPlace _ => none
  | .fifoFire _ _ => none
  | .fifoEntryArrival _ => none
  | .creditReturn _ => none
  | .fifoTableWrite _ _ _ => none
  | .bindingWrite _ _ _ => none
  | .messageArrival _ => none
  | .undeliverableReturn _ => none
  | .growstall _ => none
  | .priorityAgeing _ _ => none
  | .slotLimitExpiry _ => none
  | .resultArrival _ _ => none
  | .feWaiterRetry _ => none
  | .preempt _ => none
  | .saveComplete _ => none
  | .restore _ => none
  | .neighbourWriteArrival _ => none
  | .storeAck _ _ => none
  | .streamPrefetch _ _ => none
  | .ownershipNotice _ => none
  | .stripAtomicAck _ _ => none
  | .replicaForward _ => none
  | .replicaMarkAck _ => none
  | .l2Eviction _ => none
  | .gangWatchdog _ => none
  | .arrayOperationStart _ => none
  | .mmaRetire _ => none
  | .lensStart _ => none
  | .lensBranchResolve _ => none
  | .mirrorIntervalConfirm _ => none
  | .mirrorMismatch _ => none
  | .pairStart _ => none
  | .prismDispatch _ _ => none
  | .gets _ _ => none
  | .getm _ _ => none
  | .puts _ _ => none
  | .putm _ _ => none
  | .pdata _ _ => none
  | .probeAnswer _ _ => none
  | .lread _ _ => none
  | .lwrite _ _ => none
  | .latom _ _ => none
  | .grant _ _ => none
  | .update _ _ => none
  | .proxyProbe _ _ => none
  | .lost _ _ => none
  | .pushrel _ _ => none
  | .fwdNak _ _ => none
  | .handlerWatchdog _ _ => none
  | .prismSpillDrain _ => none
  | .retryRedispatch _ _ => none
  | .rtsync => none
  | .rebind => none
  | .unbusy => none
  | .setwd => none
  | .migrate => none
  | .migdone => none
  | .partialEntryTimeout _ _ => none
  | .copyComplete _ => none
  | .promiseMissed _ => none
  | .tlbWalkComplete _ => none
  | .waittExpiry _ => none
  | .rdownnodataCompletion => none

/-- A field that names nothing is zero (R335). -/
def Kind.unusedOk (k : Kind) (x : BitVec 6) : Bool := k != .none || x == 0

/-- A field lies in the range of the registers it names (R335). -/
def Kind.inRange : Kind → BitVec 6 → Bool
  | .v, x => x.toNat < 32
  | .m, x => x.toNat < 8
  | .acc, x => x.toNat < 4
  | _, _ => true

/-- B's use in the head's form. -/
def Row.bKind (r : Row) (h : Head) : Kind :=
  match h.form with
  | .T1 => r.b1
  | .T2 | .T4 => r.b2
  | .H => .none

/-- The immediate bits that lie outside the form or that the entry does not use are zero (R334, R335). -/
def Row.immOk (r : Row) (h : Head) : Bool :=
  match h.form with
  | .H | .T1 => h.imm == 0
  | .T2 => h.imm.toNat < 2 ^ 16 && (Nat.land h.imm.toNat (0xFFFF - r.imm) == 0)
  | .T4 => true

/-- The static checks of a head against its row, in the order form, unused fields, register ranges, value
ranges: the subcode of the first that fails (R336). -/
def Row.bad (r : Row) (h : Head) : Option Nat :=
  firstBad [need (r.forms.contains h.form) 0x00,
    need (r.d.unusedOk h.d && r.a.unusedOk h.a && (r.bKind h).unusedOk h.b && r.immOk h) 0x06,
    need (r.d.inRange h.d && r.a.inRange h.a && (r.bKind h).inRange h.b) 0x07,
    r.fine h]

end Sys2Proof.Machine
end

