-- ==== Sys2Proof/WellFormed.lean ====
section
/-! DEFINITION. Which instructions have an encoding: a head that passes every static check of R334, R335
and R336 (12_isa_encoding.md) for the row of its mnemonic. A step of the device has no encoding. -/

namespace Sys2Proof

open Machine

/-- The head's variant field lies in its row's F values, and its immediate picks that row (R348). -/
def Machine.Row.covers (r : Row) (h : Head) : Bool :=
  decide (r.f0 ≤ h.f.toNat) && decide (h.f.toNat ≤ r.f1) && r.pick h

/-- An H-form head has no tail: A, B, F and the immediate are zero (R334). -/
def Head.bare (h : Head) : Bool :=
  h.form != .H || (h.a == 0 && h.b == 0 && h.f == 0 && h.imm == 0)

/-- A head that a line can hold for its mnemonic. -/
def Instr.wf (i : Instr) : Bool :=
  match rowOf i with
  | some (r, h) => r.covers h && (r.bad h).isNone && h.bare
  | none => false

end Sys2Proof
end

