-- ==== Sys2Proof/Decode.lean ====
section
/-! DEFINITION. Lines, heads and tails (R329 to R336 of 12_isa_encoding.md): the check of a fetched line,
the decoder of one head with its tail units, and the encoder. -/

namespace Sys2Proof

open Machine

/-- A line of 64 bytes; slot `k` is bits `16k+15 : 16k` (R329). -/
abbrev Line := BitVec 512

/-- Slot `k` of a line. -/
def slotOf (l : Line) (k : Nat) : BitVec 16 := BitVec.ofNat 16 (l.toNat / 2 ^ (16 * k))

/-- The number of heads N: header bits 15:11 (R329). -/
def headsOf (l : Line) : Nat := bitsOf (slotOf l 0).toNat 15 11

/-- Tail units by the L field (R330, R334). -/
def tailUnits (w : BitVec 16) : Nat :=
  match bitsOf w.toNat 14 13 with
  | 0 => 0
  | 1 => 1
  | 2 => 2
  | _ => 4

/-- The tail units of the heads 1 to `n` (R330). -/
def usedUpTo (l : Line) : Nat → Nat
  | 0 => 0
  | n + 1 => usedUpTo l n + tailUnits (slotOf l (n + 1))

/-- The major opcode of a head (R333). -/
def majorOf (w : BitVec 16) : Nat := bitsOf w.toNat 12 6

/-- The control transfers: majors 0x20 to 0x25 and 0x2B (R331). -/
def isTransfer (major : Nat) : Bool := (0x20 ≤ major && major ≤ 0x25) || major == 0x2B

/-- The first misplaced control transfer among heads `i`, `i + 1`, ... (R332 subcode 5). -/
def misplaced (l : Line) (n : Nat) : Nat → Nat → Option Nat
  | 0, _ => none
  | k + 1, i => if i < n && isTransfer (majorOf (slotOf l i)) then some i else misplaced l n k (i + 1)

/-- The check of a line that execution enters at head `entry`: TRAPINFO of trap 0x01, or none (R332). -/
def lineBad (l : Line) (entry : Nat) : Option Nat :=
  let n := headsOf l
  let used := usedUpTo l n
  if n == 0 then some 1
  else if bitsOf (slotOf l 0).toNat 10 0 != 0 then some 2
  else if 31 < n + used then some 3
  else if (List.range 32).any fun k => n < k && k < 32 - used && slotOf l k != 0 then some 4
  else match misplaced l n 31 1 with
    | some i => some (i * 256 + 5)
    | none => if entry == 0 || n < entry then some 6 else none

/-- The form the L field selects (R334). -/
def formOf (w : BitVec 16) : Form :=
  match bitsOf w.toNat 14 13 with
  | 0 => .H
  | 1 => .T1
  | 2 => .T2
  | _ => .T4

/-- The fields of a head with its tail units, unit 0 first (R333, R334). -/
def fieldsOf (w : BitVec 16) (units : List (BitVec 16)) : Head :=
  let u (k : Nat) : Nat := (units.getD k 0).toNat
  { s := bitsOf w.toNat 15 15 == 1
    form := formOf w
    d := BitVec.ofNat 6 w.toNat
    a := BitVec.ofNat 6 (u 0 / 2 ^ 10)
    b := BitVec.ofNat 6 (u 0 / 2 ^ 4)
    f := BitVec.ofNat 4 (u 0)
    imm := BitVec.ofNat 48 (u 1 + u 2 * 2 ^ 16 + u 3 * 2 ^ 32) }

/-- The row of a major whose F values and choice cover the head (R348). -/
def findRow (major : Nat) (h : Head) : Option Row :=
  opRows.find? fun r => r.major == major && r.covers h

/-- One head: the instruction, or the subcode of the illegal-instruction trap 0x02 (R336). -/
def decodeHead (w : BitVec 16) (units : List (BitVec 16)) : Except Nat Instr :=
  let h := fieldsOf w units
  match findRow (majorOf w) h with
  | none => .error 0x00
  | some r =>
    match r.bad h with
    | some sub => .error sub
    | none => .ok (r.build h)

/-- The tail units of head `i` of a line: unit `u` in slot `31 - used - u` (R330). -/
def unitsOf (l : Line) (i : Nat) : List (BitVec 16) :=
  (List.range (tailUnits (slotOf l i))).map fun u => slotOf l (31 - usedUpTo l (i - 1) - u)

/-- Head `i` of a line that passed `lineBad`. -/
def decodeLine (l : Line) (i : Nat) : Except Nat Instr := decodeHead (slotOf l i) (unitsOf l i)

/-- The L field of a form. -/
def formBits : Form → Nat
  | .H => 0
  | .T1 => 1
  | .T2 => 2
  | .T4 => 3

/-- The head word (R333). -/
def headWord (major : Nat) (h : Head) : BitVec 16 :=
  BitVec.ofNat 16 ((if h.s then 1 else 0) * 2 ^ 15 + formBits h.form * 2 ^ 13 + major * 2 ^ 6 + h.d.toNat)

/-- Tail unit 0 (R333). -/
def unit0 (h : Head) : BitVec 16 := BitVec.ofNat 16 (h.a.toNat * 2 ^ 10 + h.b.toNat * 2 ^ 4 + h.f.toNat)

/-- The tail units, unit 0 first (R334). -/
def unitWords (h : Head) : List (BitVec 16) :=
  match h.form with
  | .H => []
  | .T1 => [unit0 h]
  | .T2 => [unit0 h, BitVec.ofNat 16 h.imm.toNat]
  | .T4 => [unit0 h, BitVec.ofNat 16 h.imm.toNat, BitVec.ofNat 16 (h.imm.toNat / 2 ^ 16),
      BitVec.ofNat 16 (h.imm.toNat / 2 ^ 32)]

/-- The words of an instruction: the head, then its tail units; none for a step of the device. -/
def encode (i : Instr) : Option (List (BitVec 16)) :=
  (rowOf i).map fun (r, h) => headWord r.major h :: unitWords h

/-- The instruction a head and the words after it give; words past the form's tail are ignored. -/
def decodeWords (ws : List (BitVec 16)) : Option Instr :=
  match ws with
  | [] => none
  | w :: units => (decodeHead w (units.take (tailUnits w))).toOption

/-- The words of a number: word `k` is bits `16k+15 : 16k`. -/
def wordsOf (x : Nat) : List (BitVec 16) := (List.range 5).map fun k => BitVec.ofNat 16 (x / 2 ^ (16 * k))

/-- The instruction whose head is bits 15:0 of `w`, tail unit 0 bits 31:16 and immediate units above it. -/
def decodeTableWord (nbits w : Nat) : Option Instr := decodeWords (wordsOf (w % 2 ^ nbits))

/-- A line that holds one head, its tail units from slot 31 down, and zeros (R329, R330). -/
def lineOf (ws : List (BitVec 16)) : Line :=
  match ws with
  | [] => 0
  | w :: units =>
    BitVec.ofNat 512 (1 * 2 ^ 11 + w.toNat * 2 ^ 16 +
      ((List.range units.length).map fun u => (units.getD u 0).toNat * 2 ^ (16 * (31 - u))).sum)

end Sys2Proof
end

