-- ==== Sys2Proof/Machine/Basic.lean ====
section
/-! DEFINITION. Reading and writing the parts of the state, registers of a context, capabilities, bytes,
and the names of cores, strips and windows. Every other file reaches the state through these. -/

namespace Sys2Proof.Machine

/-- Why a head does not complete in this step: a trap with its TRAPADDR and TRAPINFO, a stream
fault at a register (R180), a translation fault (R296), a wait of R163 that releases the issue slot, or a stall in
place. -/
inductive Stop where
  | trap (cause addr info : Nat)
  | stream (v addr sub : Nat)
  | fault (va cause level : Nat) (kind : BitVec 8)
  | wait (w : Wait)
  | stall
  deriving DecidableEq, Repr

/-- What a head does: it changes the state and gives a value, or it stops. -/
abbrev X := EStateM Stop State

/-- Raise(cause) of R346 with TRAPADDR and TRAPINFO. -/
def raise {α : Type} (cause : Nat) (addr : Nat := 0) (info : Nat := 0) : X α := throw (.trap cause addr info)

/-- Raise the illegal-instruction trap with a subcode (R336). -/
def illegal {α : Type} (sub : Nat) : X α := raise 0x02 0 sub

/-- Raise a trap when the condition fails. -/
def ensure (c : Bool) (cause : Nat) (addr : Nat := 0) (info : Nat := 0) : X Unit :=
  if c then pure () else raise cause addr info

/-- Change the state. -/
def upd (f : State → State) : X Unit := modify f

/-! ### Contexts, cores, strips -/

/-- Context `c`. -/
def ctxOf (s : State) (c : Nat) : Ctx := SMap.get {} s.ctxs c
def setCtx (s : State) (c : Nat) (x : Ctx) : State := { s with ctxs := SMap.set {} s.ctxs c x }
def modCtx (c : Nat) (f : Ctx → Ctx) (s : State) : State := setCtx s c (f (ctxOf s c))
/-- Core `k`. -/
def coreOf (s : State) (k : Nat) : CoreSt := SMap.get {} s.cores k
def setCore (s : State) (k : Nat) (x : CoreSt) : State := { s with cores := SMap.set {} s.cores k x }
def modCore (k : Nat) (f : CoreSt → CoreSt) (s : State) : State := setCore s k (f (coreOf s k))
/-- Strip `k`. -/
def stripOf (s : State) (k : Nat) : StripSt := SMap.get {} s.strips k
def setStrip (s : State) (k : Nat) (x : StripSt) : State := { s with strips := SMap.set {} s.strips k x }
def modStrip (k : Nat) (f : StripSt → StripSt) (s : State) : State := setStrip s k (f (stripOf s k))
/-- Prism `p`. -/
def prismOf (s : State) (p : Nat) : PrismSt := SMap.get {} s.prisms p
def setPrism (s : State) (p : Nat) (x : PrismSt) : State := { s with prisms := SMap.set {} s.prisms p x }
def modPrism (p : Nat) (f : PrismSt → PrismSt) (s : State) : State := setPrism s p (f (prismOf s p))
/-- Function `f` of the host interface. -/
def fnOf (s : State) (f : Nat) : Fn := SMap.get {} s.host.fns f
def setFn (s : State) (f : Nat) (x : Fn) : State := { s with host := { s.host with fns := SMap.set {} s.host.fns f x } }
def modFn (f : Nat) (g : Fn → Fn) (s : State) : State := setFn s f (g (fnOf s f))

def modMs (f : MemSt → MemSt) (s : State) : State := { s with ms := f s.ms }
def modTr (f : TransSt → TransSt) (s : State) : State := { s with tr := f s.tr }
def modCp (f : CopySt → CopySt) (s : State) : State := { s with cp := f s.cp }
def modGrp (f : GroupSt → GroupSt) (s : State) : State := { s with grp := f s.grp }
def modFe (f : FrontSt → FrontSt) (s : State) : State := { s with fe := f s.fe }
def modFab (f : FabSt → FabSt) (s : State) : State := { s with fab := f s.fab }
def modHost (f : HostSt → HostSt) (s : State) : State := { s with host := f s.host }
def modFirm (f : FirmSt → FirmSt) (s : State) : State := { s with firm := f s.firm }
def modRegs (f : DevRegs → DevRegs) (s : State) : State := { s with regs := f s.regs }

/-- The issuing context. -/
def here (s : State) : Ctx := ctxOf s s.cur
/-- Change the issuing context. -/
def modHere (f : Ctx → Ctx) (s : State) : State := modCtx s.cur f s

/-- A context number that is a Prism thread; copy `n` stands among contexts as `2^44 + n`. -/
def isThread (c : Nat) : Bool := 32768 ≤ c && c < 65536
/-- The core of a context; the strip of a core; a core's rank in its strip (R13). -/
def coreNo (c : Nat) : Nat := c / 8
def stripNo (k : Nat) : Nat := k / 16
def rankNo (k : Nat) : Nat := k % 16
/-- The compute die of a core (R12). -/
def dieOfCore (k : Nat) : Nat := k / 1024
/-- Prism and thread of a thread context. -/
def prismNo (c : Nat) : Nat := (c - 32768) / 8
def threadNo (c : Nat) : Nat := c % 8

/-- The strip-map entry of strip `k` (R16). -/
def stripEntry (s : State) (k : Nat) : BitVec 32 := SMap.get 0 s.regs.stripMap k
def stripValid (s : State) (k : Nat) : Bool := (stripEntry s k).getLsbD 31
def stripRole (s : State) (k : Nat) : Nat := bitsOf (stripEntry s k).toNat 30 29
/-- A core whose strip computes: valid, ROLE 0b00. -/
def computeCore (s : State) (k : Nat) : Bool :=
  k < 4096 && stripValid s (stripNo k) && stripRole s (stripNo k) == 0
/-- A control-column core (R14). -/
def controlCore (s : State) (k : Nat) : Bool :=
  k < 4096 && stripValid s (stripNo k) && stripRole s (stripNo k) == 1
/-- A retired core (R17, R18): V = 0 or ROLE 0b11. -/
def retiredCore (s : State) (k : Nat) : Bool :=
  4096 ≤ k || !stripValid s (stripNo k) || stripRole s (stripNo k) == 3
/-- A core a home may fall on (R215). -/
def homeCore (s : State) (k : Nat) : Bool := !controlCore s k && !retiredCore s k

/-- The physical number of a core (R11, R17) and of a strip's half-column. -/
def physicalCore (s : State) (core : Nat) : Nat :=
  let e := (stripEntry s (stripNo core)).toNat
  dieOfCore core * 1056 + bitsOf e 6 1 * 32 + e % 2 * 16 + rankNo core
def physicalStrip (s : State) (k : Nat) : Nat :=
  let e := (stripEntry s k).toNat
  k / 64 * 66 + bitsOf e 6 1 * 2 + e % 2

/-! ### Free values (log 3) -/

/-- A fresh free 64-bit value. -/
def freshWord (s : State) : BitVec 64 × State := (Config.freeWord s.freeCtr, { s with freeCtr := s.freeCtr + 1 })
/-- A fresh free byte. -/
def freshByte (s : State) : Byte × State := (Config.freeByte s.freeCtr, { s with freeCtr := s.freeCtr + 1 })
/-- `n` fresh free bytes, as one little-endian number. -/
def freshBytes : Nat → State → Nat × State
  | 0, s => (0, s)
  | n + 1, s =>
    let (b, s) := freshByte s
    let (x, s) := freshBytes n s
    (b.toNat + 256 * x, s)
/-- The `n` bytes `x` written from address `a`, each of those inside `lo` to `hi` a free byte instead: the overlapping
bytes of a move or a copy are undefined (R260, R397). -/
def freeOverlap (lo hi a : Int) (x : Nat) : Nat → State → Nat × State
  | 0, s => (x, s)
  | n + 1, s =>
    let (x, s) := freeOverlap lo hi a x n s
    if lo ≤ a + n && a + n ≤ hi then
      let (b, s) := freshByte s
      (x - x / 2 ^ (8 * n) % 256 * 2 ^ (8 * n) + b.toNat * 2 ^ (8 * n), s)
    else (x, s)

/-! ### Capabilities (R340 to R342) -/

namespace CapF

/-- The address, bits 56:0. -/
def addr (c : Cap) : Nat := c.w0.toNat % 2 ^ 57
/-- The permissions, bits 63:57, LD in bit 0 (R367). -/
def perms (c : Cap) : Nat := c.w0.toNat / 2 ^ 57
def up (c : Cap) : Int := signedOf 23 (bitsOf c.w1.toNat 63 41)
def dn (c : Cap) : Int := signedOf 23 (bitsOf c.w1.toNat 40 18)
def e (c : Cap) : Nat := bitsOf c.w1.toNat 17 12
def k (c : Cap) : Nat := bitsOf c.w1.toNat 11 8
def freg (c : Cap) : Nat := bitsOf c.w1.toNat 7 4
def smode (c : Cap) : Nat := bitsOf c.w1.toNat 3 0
/-- The bounds by R341. -/
def base (c : Cap) : Int := ((addr c / 2 ^ e c : Nat) - dn c) * (2 ^ e c : Nat)
def top (c : Cap) : Int := ((addr c / 2 ^ e c : Nat) + up c) * (2 ^ e c : Nat)
/-- Bounds(c, a, n) of R346. -/
def inBounds (c : Cap) (a n : Nat) : Bool := decide (e c ≤ 34) && decide (base c ≤ a) && decide ((a + n : Nat) ≤ top c)

def LD : Nat := 1
def ST : Nat := 2
def LDC : Nat := 4
def STC : Nat := 8
def EXE : Nat := 16
def GLB : Nat := 32
def SYS : Nat := 64

/-- Every permission of `p` is held. -/
def holds (c : Cap) (p : Nat) : Bool := Nat.land (perms c) p == p

/-- A 23-bit field of a signed number. -/
def field23 (x : Int) : Nat := (x % (2 ^ 23 : Nat)).toNat
/-- A number fits DN and UP (R341). -/
def fits23 (x : Int) : Bool := decide (-(2 ^ 22 : Nat) ≤ x) && decide (x ≤ 2 ^ 22 - 1)

/-- Word 0 with another address. -/
def w0With (c : Cap) (a : Nat) : W64 := BitVec.ofNat 64 (perms c * 2 ^ 57 + a % 2 ^ 57)
/-- Word 1 with other distances. -/
def w1With (c : Cap) (u d : Int) : W64 :=
  BitVec.ofNat 64 (field23 u * 2 ^ 41 + field23 d * 2 ^ 18 + bitsOf c.w1.toNat 17 0)

/-- The capability derived with a new address: DN and UP move with the granule, and the tag is cleared
when either leaves its field (R342). -/
def setAddr (c : Cap) (a : Nat) : Cap :=
  let dl : Int := (a % 2 ^ 57 / 2 ^ e c : Nat) - (addr c / 2 ^ e c : Nat)
  let d := dn c + dl
  let u := up c - dl
  { w0 := w0With c a, w1 := w1With c u d, tag := c.tag && fits23 d && fits23 u }

/-- A capability over `base` to `base + len` with E = 0 (R134, R375). -/
def make (p a len : Nat) : Cap :=
  { w0 := BitVec.ofNat 64 (p * 2 ^ 57 + a % 2 ^ 57), w1 := BitVec.ofNat 64 (len * 2 ^ 41), tag := true }

end CapF

end Sys2Proof.Machine

/-- The integer a g operand gives (R338): the address when tagged, else word 0. -/
def Sys2Proof.Cap.val (c : Sys2Proof.Cap) : Sys2Proof.W64 :=
  if c.tag then BitVec.ofNat 64 (Sys2Proof.Machine.CapF.addr c) else c.w0

namespace Sys2Proof.Machine

/-! ### Registers of a context -/

/-- gr as it stands; g0 is the null untagged zero (R338). -/
def readG (x : Ctx) (r : Nat) : Cap := if r == 0 then Cap.null else SMap.get {} x.g r
/-- Write gr: a write of g0 is discarded; the dirty bit is set and the poison mark goes (R306, R392). -/
def writeG (x : Ctx) (r : Nat) (c : Cap) : Ctx :=
  if r == 0 then x
  else { x with g := SMap.set {} x.g r c, poiG := SMap.erase x.poiG r, dirtyG := SMap.set false x.dirtyG r true }
def readV (x : Ctx) (r : Nat) : VReg := SMap.get 0 x.v r
def writeV (x : Ctx) (r : Nat) (v : VReg) : Ctx :=
  { x with v := SMap.set 0 x.v r v, poiV := SMap.erase x.poiV r, dirtyV := SMap.set false x.dirtyV r true }
def readM (x : Ctx) (r : Nat) : BitVec 32 := SMap.get 0 x.m r
def writeM (x : Ctx) (r : Nat) (v : BitVec 32) : Ctx := { x with m := SMap.set 0 x.m r v }
def readF (x : Ctx) (r : Nat) : W64 := SMap.get 0 x.f r
def writeF (x : Ctx) (r : Nat) (v : W64) : Ctx := { x with f := SMap.set 0 x.f r v }
/-- Presence bits, kept inverted (R174). -/
def presentG (x : Ctx) (r : Nat) : Bool := r == 0 || !SMap.get false x.absG r
def presentV (x : Ctx) (r : Nat) : Bool := !SMap.get false x.absV r
def clearG (x : Ctx) (r : Nat) : Ctx := if r == 0 then x else { x with absG := SMap.set false x.absG r true }
def clearV (x : Ctx) (r : Nat) : Ctx := { x with absV := SMap.set false x.absV r true }
def arriveG (x : Ctx) (r : Nat) : Ctx := { x with absG := SMap.set false x.absG r false }
def arriveV (x : Ctx) (r : Nat) : Ctx := { x with absV := SMap.set false x.absV r false }
/-- Mark a register poisoned with the TRAPINFO its use gives (R392, R49). -/
def poisonG (x : Ctx) (r info : Nat) : Ctx :=
  if r == 0 then x else { x with poiG := SMap.set 0 x.poiG r (info + 1), dirtyG := SMap.set false x.dirtyG r true }
def poisonV (x : Ctx) (r info : Nat) : Ctx :=
  { x with poiV := SMap.set 0 x.poiV r (info + 1), dirtyV := SMap.set false x.dirtyV r true }

/-- Chunks held: 8 capability chunks for a Prism thread (log 11). -/
def cchOf (c : Nat) (x : Ctx) : Nat := if isThread c then 8 else (x.chunks.map (·.1)).getD ((x.fir.map (·.cch)).getD 1)
def vchOf (c : Nat) (x : Ctx) : Nat := if isThread c then 0 else (x.chunks.map (·.2)).getD ((x.fir.map (·.vch)).getD 0)
/-- A register of the allotment (R158). -/
def allotG (c : Nat) (x : Ctx) (r : Nat) : Bool := r < 8 * cchOf c x
def allotV (c : Nat) (x : Ctx) (r : Nat) : Bool := r < 4 * vchOf c x

/-- A lane of a vector register. -/
def lane (v : VReg) (k : Nat) : BitVec 32 := v.extractLsb' (32 * k) 32
/-- A vector register from its lanes. -/
def ofLanes (ls : List (BitVec 32)) : VReg :=
  BitVec.ofNat 1024 ((ls.zipIdx.map fun (x, k) => x.toNat * 2 ^ (32 * k)).sum)
def lanesOf (v : VReg) : List (BitVec 32) := (List.range 32).map (lane v)

/-! ### Handles (R156) -/

/-- The firing handle: device 36:23, core 22:11, context 10:8, generation 7:0. -/
def mkHandle (dev core ctx gen : Nat) : Nat :=
  dev % 16384 * 2 ^ 23 + core % 4096 * 2 ^ 11 + ctx % 8 * 2 ^ 8 + gen % 256
def handleDev (h : Nat) : Nat := bitsOf h 36 23
def handleCore (h : Nat) : Nat := bitsOf h 22 11
def handleCtx (h : Nat) : Nat := bitsOf h 10 8
/-- The context a handle names on this device. -/
def handleCid (h : Nat) : Nat := handleCore h * 8 + handleCtx h

/-- The firing of a context. -/
def firOf (s : State) (c : Nat) : Firing := ((ctxOf s c).fir).getD {}
/-- Change the firing of a context. -/
def modFir (c : Nat) (f : Firing → Firing) (s : State) : State := modCtx c (fun x => { x with fir := x.fir.map f }) s
/-- The partner context of a firing in checked execution (R199). -/
def partnerOf (s : State) (c : Nat) : Option Nat :=
  if (firOf s c).paired then (s.grp.pairs.find? fun p => p.prim == c && p.part != c).map (·.part) else none
/-- Change a context, and its mirror partner with it (R200). -/
def modBoth (c : Nat) (f : Ctx → Ctx) (s : State) : State :=
  match partnerOf s c with
  | some q => modCtx q f (modCtx c f s)
  | none => modCtx c f s
/-- The saved firing of a handle on its core (R168). -/
def savedOf (s : State) (h : Nat) : Option Saved :=
  (coreOf s (handleCore h)).saved.find? fun v => v.fir.handle == h % 2 ^ 37
/-- The handle is held by a firing that is live: placed, or saved (R156, R157). -/
def placedHandle (s : State) (h : Nat) : Bool :=
  handleDev h == s.dev && handleCore h < 4096 &&
    match (ctxOf s (handleCid h)).fir with
    | some f => f.handle == h % 2 ^ 37
    | none => false
def liveHandle (s : State) (h : Nat) : Bool :=
  placedHandle s h || (handleDev h == s.dev && (savedOf s h).isSome)

/-! ### Bytes -/

/-- The little-endian number of a list of bytes. -/
def leNat : List Byte → Nat
  | [] => 0
  | b :: r => b.toNat + 256 * leNat r
/-- `n` little-endian bytes of a number. -/
def leBytes : Nat → Nat → List Byte
  | 0, _ => []
  | n + 1, x => BitVec.ofNat 8 x :: leBytes n (x / 256)
/-- Bytes from `a` upward of a byte table. -/
def peekBytes (m : SMap Byte) (a : Nat) : Nat → List Byte
  | 0 => []
  | n + 1 => SMap.get 0 m a :: peekBytes m (a + 1) n
/-- Write bytes from `a` upward. -/
def pokeBytes (m : SMap Byte) (a : Nat) : List Byte → SMap Byte
  | [] => m
  | b :: r => pokeBytes (SMap.set 0 m a b) (a + 1) r

/-- The canonical form of a memory: addresses strictly rising, no listed byte equal to the 0 that an unlisted address
reads as (log 4). -/
def Memory.wf (m : List Host.Cell) : Bool := SMap.wf 0 m

/-! ### The configuration table of a flash slot (R89) -/

/-- `n` bytes of the table from `off`. -/
def tableAt (t : FlashSlot) (off n : Nat) : Nat := t.table.toNat / 2 ^ (8 * off) % 2 ^ (8 * n)
def FlashSlot.width (t : FlashSlot) : Nat := tableAt t 0x06 1
def FlashSlot.enc (t : FlashSlot) : Bool := t.table.getLsbD 56
def FlashSlot.fabric (t : FlashSlot) : Bool := t.table.getLsbD 57
def FlashSlot.svnc (t : FlashSlot) : Bool := t.table.getLsbD 58
def FlashSlot.svn (t : FlashSlot) : Nat := tableAt t 0x08 4
/-- TACK in µs: 0 means 8. -/
def FlashSlot.tack (t : FlashSlot) : Nat := if tableAt t 0x0C 1 == 0 then 8 else tableAt t 0x0C 1
/-- PATROL in hours: 0 means 24. -/
def FlashSlot.patrol (t : FlashSlot) : Nat := if tableAt t 0x0D 1 == 0 then 24 else tableAt t 0x0D 1
/-- ETYPE: 0 means 0x88B5. -/
def FlashSlot.etype (t : FlashSlot) : Nat := if tableAt t 0x0E 2 == 0 then 0x88B5 else tableAt t 0x0E 2
def FlashSlot.priq (t : FlashSlot) : Nat := tableAt t 0x10 1
def FlashSlot.prip (t : FlashSlot) : Nat := tableAt t 0x11 1
/-- The service of each control-column core, a nibble each. -/
def FlashSlot.roles (t : FlashSlot) : List Nat := (List.range 128).map fun k => t.table.toNat / 2 ^ (0x100 + 4 * k) % 16
def FlashSlot.retire (t : FlashSlot) : List Nat := (List.range 256).filter fun k => t.table.getLsbD (0x300 + k)

/-- The configuration table of the slot that the device booted from (R91). -/
def bootTable (s : State) : FlashSlot := if s.firm.svc.bootedA then s.firm.flashA else s.firm.flashB

/-- `n` bytes of the physical map, least significant first, as they stand. -/
def peek (s : State) (a n : Nat) : Nat := leNat (peekBytes s.ms.mem a n)
def hbmTop : Nat := 0xC000000000
/-- The integrity tag of a page of HBM: the keyed hash of its ciphertext and address (R103). -/
def pageTag (boot : Nat) (m : SMap Byte) (page : Nat) : W64 :=
  Config.pageHash boot page ((List.range 64).map fun k =>
    Config.aesXts boot (4096 * page + 64 * k) (leNat (peekBytes m (4096 * page + 64 * k) 64)))
/-- With encryption on, a write renews the tag of every page of HBM that it touches (R103). -/
def retag (s : State) (a n : Nat) (m : SMap Byte) : SMap (Option W64) :=
  if (bootTable s).enc && a < hbmTop then
    (List.range ((a + n - 1) / 4096 - a / 4096 + 1)).foldl (fun t k =>
      SMap.set none t (a / 4096 + k) (some (pageTag s.firm.boots m (a / 4096 + k)))) s.ms.itag
  else s.ms.itag
/-- Write `n` bytes of the physical map. -/
def poke (a n x : Nat) (s : State) : State :=
  modMs (fun m => { m with mem := pokeBytes m.mem a (leBytes n x), itag := retag s a n (pokeBytes m.mem a (leBytes n x)) }) s
/-- Bytes of host memory as PCIe names it: function and I/O virtual address (R62). -/
def hostPeek (s : State) (f a n : Nat) : Nat := leNat (peekBytes s.ms.hostio (f * 2 ^ 64 + a % 2 ^ 64) n)
/-- A read of host memory ends in a PCIe completion error or an IOMMU fault (R71). -/
def hostBad (s : State) (f a n : Nat) : Bool :=
  let page (x : Nat) : Nat := f * 2 ^ 52 + x % 2 ^ 64 / 4096
  SMap.get false s.host.iobad (page a) || SMap.get false s.host.iobad (page (a + (n - 1)))
def hostPoke (f a n x : Nat) (s : State) : State :=
  modMs (fun m => { m with hostio := pokeBytes m.hostio (f * 2 ^ 64 + a % 2 ^ 64) (leBytes n x) }) s

/-! ### The physical map (R205, R207) -/

/-- Where a physical address lies. Windows give core and offset. -/
inductive Space where
  | hbm
  | host
  | spad (core off : Nat)
  | regs (core off : Nat)
  | acc (core off : Nat)
  | ctl (core off : Nat)
  | remote (dev off : Nat)
  | hole
  deriving DecidableEq, Repr

def fabricArea : Nat := 0xBFDF000000
def hostBase : Nat := 0x4000000000000
def winBase : Nat := 0x40000000000000

/-- The space of a window offset (R207). -/
def windowSpace (core off : Nat) : Space :=
  if off < 0x40000 then .spad core off
  else if 0x100000 ≤ off && off < 0x110000 then
    if off % 0x2000 < 0x400 || 0x1000 ≤ off % 0x2000 then .regs core off else .hole
  else if 0x200000 ≤ off && off < 0x204000 then .acc core off
  else if 0x300000 ≤ off && off < 0x301000 then .ctl core off
  else .hole

/-- A remote-form address of this device names the equivalent local address, or a hole (R39, R48). -/
def normPa (s : State) (pa : Nat) : Nat :=
  if 2 ^ 55 ≤ pa && pa / 2 ^ 41 % 2 ^ 14 == s.dev then
    let off := pa % 2 ^ 41
    if off < fabricArea then off
    else if 0x10000000000 ≤ off && off < 0x10400000000 then
      let w := off % 0x400000
      if w < 0x40000 || (0x200000 ≤ w && w < 0x204000) then winBase + (off - 0x10000000000) else hbmTop
    else hbmTop
  else pa

/-- The space of a physical address; the fabric state area is a hole (R206). -/
def spaceOf (s : State) (pa : Nat) : Space :=
  if 2 ^ 55 ≤ pa then .remote (pa / 2 ^ 41 % 2 ^ 14) (pa % 2 ^ 41)
  else if pa < hbmTop then (if (bootTable s).fabric && fabricArea ≤ pa then .hole else .hbm)
  else if hostBase ≤ pa && pa < 2 * hostBase then .host
  else if winBase ≤ pa && pa < winBase + 0x400000000 then
    let core := (pa - winBase) / 0x400000
    if stripValid s (stripNo core) then windowSpace core ((pa - winBase) % 0x400000) else .hole
  else .hole

/-- The window of a core. -/
def windowOf (core : Nat) : Nat := winBase + core * 0x400000
/-- The physical address of bank `b` of a core (R207). -/
def bankPa (core b : Nat) : Nat := windowOf core + 0x200000 + 0x1000 * b

/-- Local HBM outside the fabric state area (R285). -/
def localHbm (s : State) (pa : Nat) : Bool := spaceOf s pa == .hbm

/-- An address of the fabric state area (R48). -/
def inFabricArea (s : State) (pa : Nat) : Bool := (bootTable s).fabric && fabricArea ≤ pa && pa < hbmTop
/-- Status of an access by context `c`: 0, ADDRESS for a hole (R206), FENCED for a control-column window or
a fenced strip's window (R87, R100); a control-column core reaches every window. -/
def accessStatus (s : State) (c : Nat) (pa : Nat) : Nat :=
  let fenced (core : Nat) : Nat :=
    if controlCore s (coreNo c) then 0
    else if controlCore s core || stripRole s (stripNo core) == 2 then 6 else 0
  match spaceOf s pa with
  | .hole => 1
  | .spad k _ | .regs k _ | .acc k _ | .ctl k _ => fenced k
  | _ => 0

/-- The block of 64 bytes, the granule of 16, the 32-byte ECC word, the 4-byte word of an address. -/
def blockOf (a : Nat) : Nat := a / 64
def granuleOf (a : Nat) : Nat := a / 16

/-- A space whose words carry poison bits. -/
def poisonable (s : State) (pa : Nat) : Bool :=
  match spaceOf s pa with
  | .hbm | .host | .remote _ _ => true
  | _ => false
/-- The 32-byte words that bytes touch. -/
def eccWords (pa n : Nat) : List Nat := (List.range ((pa + n - 1) / 32 - pa / 32 + 1)).map (pa / 32 + ·)
/-- A read of a word gives poisoned data: its poison bit is set, or its ECC cannot correct it (R221). -/
def badWord (s : State) (w : Nat) : Bool := SMap.get false s.ms.poison w || SMap.get 0 s.ms.flaw w == 2
def poisonAt (s : State) (pa n : Nat) : Bool := (eccWords pa n).any (badWord s)

/-- What radiation or wear does to a 32-byte word of HBM (R102, R103, R221, log 88). -/
def strike (s : State) (e : Nat × Nat) : State :=
  let page := 32 * e.1 / 4096
  if hbmTop ≤ 32 * e.1 then s
  else if e.2 == 3 then
    if (bootTable s).enc then
      modMs (fun m => { m with itag := SMap.set none m.itag page (some (~~~(pageTag s.firm.boots m.mem page))) }) s
    else s
  else if e.2 == 0 || SMap.get 0 s.ms.flaw e.1 == 2 then s
  else modMs (fun m => { m with flaw := SMap.set 0 m.flaw e.1 (Nat.min e.2 2) }) s

/-- The I/O die whose record a Prism writes (R9, R478). -/
def prismIo (p : Nat) : Nat :=
  if p < 24 then p / 12 else if p < 33 then 0 else if p < 42 then 1 else if p < 46 then 0 else 1

/-- The memory-side Prism of a local HBM address: its controller (R10, R225). -/
def hbmPrism (pa : Nat) : Nat := pa / 0x3000000000 * 6 + (pa / 256) % 6

end Sys2Proof.Machine
end

