-- ==== Sys2Proof/Machine/Regions.lean ====
section
/-! DEFINITION. The region table as the Prisms hold it (R227, R228 of 08_memory_prisms.md). -/

namespace Sys2Proof.Machine

def regV (e : BitVec 128) : Bool := e.getLsbD 127
def regPend (e : BitVec 128) : Bool := e.getLsbD 126
def regProto (e : BitVec 128) : Nat := bitsOf e.toNat 125 123
def regNproto (e : BitVec 128) : Nat := bitsOf e.toNat 122 120
def regLog2 (e : BitVec 128) : Nat := bitsOf e.toNat 119 114
def regHome (e : BitVec 128) : Nat := bitsOf e.toNat 113 100
def regVersion (e : BitVec 128) : Nat := bitsOf e.toNat 99 92
def regBid (e : BitVec 128) : Nat := bitsOf e.toNat 91 80
def regHtab (e : BitVec 128) : Nat := bitsOf e.toNat 79 72
def regHtver (e : BitVec 128) : Nat := bitsOf e.toNat 71 68
def regBase (e : BitVec 128) : Nat := bitsOf e.toNat 40 16 * 65536

/-- HVSEL.PRV of the physical function (R64). -/
def prvVer (s : State) : Nat := bitsOf (fnOf s 0).hvsel.toNat 3 0

/-- An entry's fields are valid (R227). -/
def regOk (s : State) (e : BitVec 128) : Bool :=
  regProto e != 7 && 16 ≤ regLog2 e && regLog2 e ≤ 40 && regHtver e == prvVer s && regBase e % 2 ^ regLog2 e == 0 &&
    bitsOf e.toNat 67 41 == 0 && bitsOf e.toNat 15 0 == 0

/-- Home device and offset of an HBM block, local or of another device; host lines and windows have none. -/
def blockPlace (s : State) (pa : Nat) : Option (Nat × Nat) :=
  match spaceOf s pa with
  | .hbm => some (s.dev, pa)
  | .remote d off => some (d, off)
  | _ => none

/-- The region entry that governs a block at a Prism: the lowest-numbered valid one that covers it (R228). -/
def regionOf (s : State) (p pa : Nat) : Option (Nat × BitVec 128) :=
  match blockPlace s pa with
  | none => none
  | some (d, off) => (prismOf s p).regions.find? fun (_, e) =>
      regV e && regOk s e && regHome e == d && regBase e ≤ off && off < regBase e + 2 ^ regLog2 e

/-- The protocol of a block at a Prism: INV where no valid entry covers it (R228). -/
def protoOf (s : State) (p pa : Nat) : Nat := ((regionOf s p pa).map fun r => regProto r.2).getD 0

end Sys2Proof.Machine
end

