-- ==== Sys2Proof/Machine/Records.lean ====
section
/-! DEFINITION. The records the device leaves: black-box entries (R104, R105 of 04_control_column.md),
MSI-X events (R76, R77 of 03_host_interface.md), supervisor records (R303, R304 of
10_translation_traps.md) and fault records (R72 to R75 of 03_host_interface.md). -/

namespace Sys2Proof.Machine

/-! ### Black box -/

/-- The entry's second word: unit code, physical number, event code, sequence number (log 12). -/
def bbWord (unit num event seq : Nat) : W64 :=
  BitVec.ofNat 64 (unit % 256 + num % 65536 * 2 ^ 8 + event % 256 * 2 ^ 24 + seq % 2 ^ 32 * 2 ^ 32)

/-- Write one entry to the record of I/O die `d`; a frozen record only sets LOST (R104, R105). -/
def bbWrite (d unit num event : Nat) (data : List W64) (s : State) : State :=
  let b := SMap.get {} s.firm.bb d
  let b' : BlackBox :=
    if b.frozen || b.left == some 0 then { b with lost := true }
    else
      { b with
        entries := SMap.set [] b.entries b.widx ([BitVec.ofNat 64 s.cyc, bbWord unit num event b.seq] ++ data)
        widx := if b.widx == 4095 then 1 else b.widx + 1
        wraps := if b.widx == 4095 then Nat.min (b.wraps + 1) 65535 else b.wraps
        left := b.left.map (· - 1)
        seq := b.seq + 1 }
  modFirm (fun f => { f with bb := SMap.set {} f.bb d b' }) s

/-- Start a freeze of both records: 256 further entries are taken (R105). -/
def bbFreeze (s : State) : State :=
  let go (d : Nat) (f : FirmSt) : FirmSt :=
    let b := SMap.get {} f.bb d
    { f with bb := SMap.set {} f.bb d (if b.frozen || b.left.isSome then b else { b with left := some 256 }) }
  modFirm (fun f => go 1 (go 0 f)) s

/-! ### MSI-X (R77) -/

/-- Send the message of a vector, or set its pending bit when it is masked; PEND falls to 0. -/
def vecSend (f v : Nat) (s : State) : State :=
  let x := fnOf s f
  let ic := SMap.get 1 x.icoal v
  let x := { x with icoal := SMap.set 1 x.icoal v (BitVec.ofNat 64 (ic.toNat % 2 ^ 32)), icoalSince := SMap.erase x.icoalSince v }
  if SMap.get false x.vmask v then setFn s f { x with vpend := SMap.set false x.vpend v true }
  else modHost (fun h => { h with msix := h.msix ++ [(f, v)] }) (setFn s f x)

/-- One event of a vector: PEND rises, and the message goes when it reaches COUNT (R77). -/
def vecEvent (f v : Nat) (s : State) : State :=
  let x := fnOf s f
  let ic := (SMap.get 1 x.icoal v).toNat
  let pend := Nat.min (bitsOf ic 47 32 + 1) 65535
  let x' := { x with
    icoal := SMap.set 1 x.icoal v (BitVec.ofNat 64 (ic % 2 ^ 32 + pend * 2 ^ 32))
    icoalSince := if (bitsOf ic 47 32) == 0 then SMap.insert x.icoalSince v s.cyc else x.icoalSince }
  let s := setFn s f x'
  if bitsOf ic 15 0 ≤ 1 || bitsOf ic 15 0 ≤ pend then vecSend f v s else s

/-- MSI-X vectors of a function (R64, R76). -/
def nvec (f : Nat) : Nat := if f == 0 then 64 else 16

/-! ### Supervisor records -/

/-- A supervisor record (R304). -/
structure SupRec where
  code : Nat
  source : Nat
  unit : Nat
  handle : Nat := 0
  addr : Nat := 0
  info : Nat := 0
  asid : Nat := 0
  deriving DecidableEq, Repr

/-- The ring's size: LOG2, values below 6 taken as 6 (R303). -/
def srSize (ctl : W64) : Nat := 2 ^ Nat.max 6 (bitsOf ctl.toNat 3 0)

/-- The 64 bytes of a record (R304); the phase bit is 1 on the ring's first pass and alternates on every wrap. -/
def srBytes (r : SupRec) (time phase : Nat) : Nat :=
  time % 2 ^ 64 + r.handle % 2 ^ 37 * 2 ^ 64 + r.addr % 2 ^ 64 * 2 ^ 128 + r.info % 2 ^ 64 * 2 ^ 192 +
    r.code % 256 * 2 ^ 256 + r.source % 256 * 2 ^ 264 + r.unit % 65536 * 2 ^ 272 + r.asid % 65536 * 2 ^ 288 +
    phase * 2 ^ 504

/-- The I/O die whose record takes an entry of a unit, and the unit's physical number (R15, R104); units are numbered as in
SOURCE of a supervisor record (log 12). -/
def recordDie (source unit : Nat) : Nat :=
  match source with
  | 0 => if unit < 2048 then 0 else 1
  | 1 => if unit < 128 then 0 else 1
  | 2 => prismIo unit
  | 7 => if unit < 12 then 0 else 1
  | _ => 0
def physicalUnit (s : State) (source unit : Nat) : Nat :=
  match source with
  | 0 => physicalCore s unit
  | 1 => physicalStrip s unit
  | _ => unit

/-- Post a supervisor record: into the ring, or the black box when the ring is full or off, with OVF; one
event on the PF's vector 1 follows (R303). -/
def supRecord (r : SupRec) (s : State) : State :=
  let ctl := s.regs.srctl
  let n := srSize ctl
  let head := bitsOf ctl.toNat 47 32
  let tail := bitsOf ctl.toNat 31 16
  let s :=
    if ctl.getLsbD 63 && (tail + 1) % n != head % n then
      let phase := if s.regs.srphase then 1 else 0
      let s := poke (s.regs.srbase.toNat + 64 * (tail % n)) 64 (srBytes r s.cyc phase) s
      let tail' := (tail + 1) % n
      modRegs (fun g => { g with srctl := BitVec.ofNat 64 (ctl.toNat - tail * 2 ^ 16 + tail' * 2 ^ 16)
                                 srphase := if tail' == 0 then !g.srphase else g.srphase }) s
    else
      modRegs (fun g => { g with srctl := g.srctl ||| BitVec.ofNat 64 (2 ^ 62) })
        (bbWrite (recordDie r.source r.unit) r.source (physicalUnit s r.source r.unit) r.code
          [BitVec.ofNat 64 r.handle, BitVec.ofNat 64 r.addr, BitVec.ofNat 64 r.info] s)
  vecEvent 0 1 s

/-- The unit that a party stands for: a core, a Prism of a thread, a copy engine, or the front end (R304). -/
def partyUnit (cid : Nat) : Nat × Nat :=
  if isThread cid then (2, prismNo cid)
  else if cid < 32768 then (0, coreNo cid)
  else if 2 ^ 44 ≤ cid then (3, 0) else (4, 0)
/-- An error record of a posted access that failed: supervisor record POSTED and a black-box entry (R49,
R304). -/
def postedFail (cid pa status : Nat) (s : State) : State :=
  let (source, unit) := partyUnit cid
  supRecord { code := 0x43, source := source, unit := unit, handle := (firOf s cid).handle, addr := pa, info := status,
              asid := (ctxOf s cid).asid.toNat }
    (bbWrite (recordDie source unit) source (physicalUnit s source unit) 0x43 [BitVec.ofNat 64 pa, BitVec.ofNat 64 status] s)

/-! ### Fault records -/

/-- The function whose ASID range holds a device ASID (R67, R296); 0 when none does. -/
def fnOfAsid (s : State) (asid : Nat) : Nat :=
  ((List.range 64).find? fun f =>
    let v := (fnOf s f).vfctl.toNat
    bitsOf v 51 40 ≤ asid && asid < bitsOf v 51 40 + bitsOf v 39 27).getD 0

/-- The local ASID of a device ASID (R69). -/
def localAsid (s : State) (f asid : Nat) : Nat := asid - bitsOf (fnOf s f).vfctl.toNat 51 40

/-- The ring's size: LOG2N from 6 to 16, others taken as 6 (R72). -/
def fqSize (ctl : W64) : Nat :=
  let l := bitsOf ctl.toNat 4 0
  2 ^ (if 6 ≤ l && l ≤ 16 then l else 6)

/-- The 64 bytes of a fault record (R73). -/
def faultBytes (s : State) (r : FaultRec) (phase : Nat) : Nat :=
  r.id % 2 ^ 32 + r.waiters.length % 2 ^ 32 * 2 ^ 32 + r.va % 2 ^ 57 * 2 ^ 64 + r.handle % 2 ^ 37 * 2 ^ 128 +
    localAsid s r.fn r.asid % 65536 * 2 ^ 192 + r.cause % 256 * 2 ^ 208 + r.kind.toNat * 2 ^ 216 +
    r.level % 256 * 2 ^ 224 + (if r.gang then 2 ^ 232 else 0) + r.time % 2 ^ 64 * 2 ^ 256 + phase * 2 ^ 448

/-- Write the waiting records of function `f` into its ring while there is room, at most `n` of them; a
record left waiting sets FQOVF and raises the queue's vector at once (R74). While FQCTL.EN = 0 records wait unwritten and
FQOVF stays: DESIGN CHOICE (log 84). -/
def faultDrain (f : Nat) : Nat → State → State
  | 0, s => s
  | n + 1, s =>
    match s.tr.faults.find? fun r => r.fn == f && !r.ring with
    | none => s
    | some r =>
      let x := fnOf s f
      let size := fqSize x.fqctl
      let vec := bitsOf x.fqctl.toNat 23 16
      if !x.fqctl.getLsbD 63 then s
      else if (x.fqtail.toNat + 1) % size == x.fqhead.toNat % size then
        if x.hstat.getLsbD 5 then s
        else vecSend f vec (setFn s f { x with hstat := x.hstat ||| 0x20 })
      else
        let t := x.fqtail.toNat % size
        let s := hostPoke f (x.fqbase.toNat + 64 * t) 64 (faultBytes s r (if x.fqphase then 1 else 0)) s
        let x' := { x with fqtail := BitVec.ofNat 64 ((t + 1) % size), fqphase := if t + 1 == size then !x.fqphase else x.fqphase }
        let s := modTr (fun q => { q with faults := q.faults.map fun y => if y.id == r.id && y.fn == f then { y with ring := true } else y })
          (setFn s f x')
        faultDrain f n (vecEvent f vec s)

/-- Open or join a record for a translation fault (R74); a fault over the limits stays pending. -/
def openFault (fr : FaultRec) (who : Parked) (s : State) : State :=
  let same (r : FaultRec) : Bool := r.asid == fr.asid && r.va / 4096 == fr.va / 4096 && r.cause == fr.cause
  if s.tr.faults.any same then
    modTr (fun q => { q with faults := q.faults.map fun r => if same r then { r with waiters := r.waiters ++ [who] } else r }) s
  else if 4096 ≤ s.tr.faults.length || 256 ≤ (s.tr.faults.filter (·.fn == fr.fn)).length then
    modTr (fun q => { q with pending := q.pending ++ [{ fr := fr, who := who }] }) s
  else
    let s := modTr (fun q => { q with faults := q.faults ++ [{ fr with id := q.nextFault, waiters := [who] }],
                                       nextFault := (q.nextFault + 1) % 2 ^ 32 }) s
    faultDrain fr.fn 256 s

/-- A fault joins an open record or has room for its own (R74). -/
def faultRoom (s : State) (fr : FaultRec) : Bool :=
  (s.tr.faults.any fun r => r.asid == fr.asid && r.va / 4096 == fr.va / 4096 && r.cause == fr.cause) ||
    !(4096 ≤ s.tr.faults.length || 256 ≤ (s.tr.faults.filter (·.fn == fr.fn)).length)
/-- Take up the pending faults that now have room, oldest first; one whose function is full does not hold the others back
(R74). -/
def faultPending (s : State) : State :=
  s.tr.pending.foldl (fun s p =>
    if faultRoom s p.fr then openFault p.fr p.who (modTr (fun q => { q with pending := q.pending.erase p }) s) else s) s

/-- The record that a write of FRESUME names: written to the function's ring, or waiting. -/
def faultById (s : State) (f id : Nat) : Option FaultRec := s.tr.faults.find? fun r => r.fn == f && r.id == id
/-- Close a record. -/
def faultClose (f id : Nat) (s : State) : State :=
  faultPending (modTr (fun q => { q with faults := q.faults.filter fun r => !(r.fn == f && r.id == id) }) s)

end Sys2Proof.Machine
end

