-- ==== Sys2Proof/Machine/Translate.lean ====
section
/-! DEFINITION. Homes of lines (R214 to R217 of 08_memory_prisms.md), the page walk, the TLBs and
translation faults (R284 to R297 of 10_translation_traps.md). -/

namespace Sys2Proof.Machine

/-! ### Homes -/

/-- The hash of a physical address (R215). -/
def homeHash (pa : Nat) : Nat := Nat.xor (Nat.xor (bitsOf pa 29 6) (bitsOf pa 53 30)) (bitsOf pa 55 54)

/-- The first core from `k` upward, wrapping from the end of the mask to `first`, that may be a home. -/
def homeFrom (s : State) (first cnt : Nat) : Nat → Nat → Nat
  | 0, k => k
  | n + 1, k => if homeCore s k then k else homeFrom s first cnt n (if k + 1 < first + cnt then k + 1 else first)

/-- Entry `i` of the HOMEMASK, entry 0 when it is not valid (R215). -/
def homeEntry (s : State) (i : Nat) : Nat :=
  let e := SMap.get 0 s.regs.homemask i
  if e.getLsbD 63 then e.toNat else (SMap.get 0 s.regs.homemask 0).toNat

/-- The home of a physical address hashed under mask entry `i` (R215). -/
def hashedHome (s : State) (i pa : Nat) : Nat :=
  let e := homeEntry s i
  let first := bitsOf e 51 40
  let cnt := bitsOf e 39 27
  homeFrom s first cnt cnt (first + homeHash pa % (if cnt == 0 then 1 else cnt))

/-- The usable cores of a die, for replicated pages (R214). -/
def dieHome (s : State) (die pa : Nat) : Nat := homeFrom s (die * 1024) 1024 1024 (die * 1024 + homeHash pa % 1024)

/-- Homing mode and index of a leaf (R287). -/
def hmode (attr : W64) : Nat := bitsOf attr.toNat 63 62
def hidx (attr : W64) : Nat := bitsOf attr.toNat 61 56

/-- The home core of a physical address under a leaf, for an accessor on `die` (R214 to R217). -/
def homeOf (s : State) (attr : W64) (die pa : Nat) : Nat :=
  match hmode attr with
  | 1 =>
    let e := (SMap.get 0 s.regs.named (hidx attr)).toNat
    if bitsOf e 31 31 == 1 && homeCore s (bitsOf e 11 0) then bitsOf e 11 0 else hashedHome s 0 pa
  | 2 => dieHome s die pa
  | _ => hashedHome s (hidx attr) pa

/-! ### The walk -/

/-- How a walk ends: a leaf with the first address, size and physical base of what it maps, its attributes
and the entry's own address; or a fault with its cause and level. -/
inductive WalkRes where
  | leaf (va size pa : Nat) (attr : W64) (pte : Nat)
  | fault (cause level : Nat)
  deriving DecidableEq, Repr

/-- Size of the page a leaf at `level` maps (R286). -/
def pageSize (level : Nat) : Nat := 2 ^ (12 + 9 * (level - 1))

/-- The permission check of a leaf (R288): kind bit 0 read, 1 write, 2 execute. -/
def leafAllows (pte : Nat) (kind : BitVec 8) (user : Bool) : Bool :=
  (!kind.getLsbD 0 || bitsOf pte 2 2 == 1) && (!kind.getLsbD 1 || bitsOf pte 3 3 == 1) &&
    (!kind.getLsbD 2 || bitsOf pte 4 4 == 1) && (!user || bitsOf pte 5 5 == 1)

/-- The reserved-bit rules of a leaf at a level (R288). -/
def leafBad (level pte va : Nat) : Bool :=
  let pa := bitsOf pte 55 12 * 4096
  let c := bitsOf pte 6 6 == 1
  4 ≤ level || (level == 2 && bitsOf pa 20 12 != 0) || (level == 3 && bitsOf pa 29 12 != 0) || (level == 3 && c) ||
    (level == 1 && c && bitsOf pa 15 12 != bitsOf va 15 12) || (level == 2 && c && bitsOf pa 24 21 != bitsOf va 24 21) ||
    (hmode (BitVec.ofNat 64 pte) == 2 && 0x3000000000 ≤ pa)

/-- One level of the walk and those below it (R288, R289). -/
def walkFrom (s : State) (va : Nat) (kind : BitVec 8) (user : Bool) : Nat → Nat → WalkRes
  | 0, _ => .fault 0x03 1
  | level + 1, table =>
    if !localHbm s table then .fault 0x03 (level + 1)
    else
      let lv := level + 1
      let at_ := table + 8 * bitsOf va (20 + 9 * level) (12 + 9 * level)
      let pte := peek s at_ 8
      if bitsOf pte 0 0 == 0 then .fault 0x0A lv
      else if bitsOf pte 11 11 == 1 then .fault 0x03 lv
      else if bitsOf pte 1 1 == 0 then
        if bitsOf pte 11 2 != 0 || bitsOf pte 63 56 != 0 then .fault 0x03 lv
        else walkFrom s va kind user level (bitsOf pte 55 12 * 4096)
      else if leafBad lv pte va then .fault 0x03 lv
      else if !leafAllows pte kind user then .fault 0x0B lv
      else
        let size := if bitsOf pte 6 6 == 1 then 16 * pageSize lv else pageSize lv
        let pa := bitsOf pte 55 12 * 4096
        .leaf (va / size * size) size (pa / size * size) (BitVec.ofNat 64 pte) at_

/-- The walk of an address in an ASID (R285, R288): the directory entry, then levels 5 to 1. -/
def walkTable (s : State) (asid va : Nat) (kind : BitVec 8) (user : Bool) : WalkRes :=
  let base := bitsOf s.regs.ptroot.toNat 55 15 * 32768
  if !localHbm s base then .fault 0x03 5
  else
    let e := peek s (base + 8 * asid) 8
    if bitsOf e 63 63 == 0 then .fault 0x0A 5
    else if bitsOf e 62 56 != 0 || bitsOf e 11 0 != 0 then .fault 0x03 5
    else walkFrom s va kind user 5 (bitsOf e 55 12 * 4096)

/-- The walker sets A, and D on a write, at the entry's home (R290). -/
def setAD (pte : Nat) (write : Bool) (s : State) : State :=
  poke pte 8 (Nat.lor (peek s pte 8) (if write then 0x180 else 0x80)) s

/-- The attributes a TLB keeps: the leaf with the A and D bits just set. -/
def attrAD (attr : W64) (write : Bool) : W64 := attr ||| (if write then 0x180 else 0x80)

/-- A translation made for the engines and the front end, which read the table at once: the physical
address and the leaf, or the fault (R294, R487). -/
def engineWalk (s : State) (asid va : Nat) (kind : BitVec 8) (user : Bool) : Except (Nat × Nat) (Nat × W64) × State :=
  match walkTable s asid va kind user with
  | .fault c l => (.error (c, l), s)
  | .leaf v _ pa attr pte => (.ok (normPa s (pa + (va - v)), attr), setAD pte (kind.getLsbD 1) s)

/-! ### The TLBs -/

/-- The strip whose TLBs a context uses. -/
def tlbUnit (c : Nat) : Nat := stripNo (coreNo c)

/-- A TLB entry that answers an access: it covers the address, allows the access, and has D set for a write
(R290). -/
def tlbHit (e : TlbEntry) (unit asid va : Nat) (kind : BitVec 8) (user : Bool) : Bool :=
  e.unit == unit && e.asid == asid && e.va ≤ va && va < e.va + e.size && leafAllows e.attr.toNat kind user &&
    (!kind.getLsbD 1 || e.attr.getLsbD 8)

/-- The walk an access waits for, put in flight unless one of the same ASID and 4 KiB page is (R293). -/
def startWalk (w : Walk) (s : State) : State :=
  if s.tr.walks.any fun x => x.unit == w.unit && x.asid == w.asid && x.page == w.page && x.kind == w.kind && x.user == w.user then s
  else modTr (fun t => { t with walks := t.walks ++ [w] }) s

/-- Translate an access of the issuing context: physical address and leaf, or a wait for a walk, which may have ended
with a fault (R293, R296). A Prism thread's addresses are physical (R230). -/
def translate (va : Nat) (kind : BitVec 8) : X (Nat × W64) := do
  let s ← get
  if isThread s.cur then return (normPa s (va % 2 ^ 56), 3 * 2 ^ 62)
  let x := here s
  let unit := tlbUnit s.cur
  match s.tr.tlb.find? fun e => tlbHit e unit x.asid.toNat va kind (!x.sup) with
  | some e => return (normPa s (e.pa + (va - e.va)), e.attr)
  | none =>
    if x.granted && x.wait == .walk (va / 4096) then
      match walkTable s x.asid.toNat va kind (!x.sup) with
      | .leaf v _ pa attr pte =>
        upd (setAD pte (kind.getLsbD 1))
        return (normPa s (pa + (va - v)), attr)
      | .fault cause level =>
        if cause == 3 then raise 0x03 va else throw (.fault va cause level kind)
    upd (startWalk { unit := unit, asid := x.asid.toNat, page := va / 4096, kind := kind, user := !x.sup })
    throw (.wait (.walk (va / 4096)))

/-- The fault record of a translation fault (R73). -/
def mkFault (s : State) (asid va cause level handle : Nat) (kind : BitVec 8) (gang : Bool) : FaultRec :=
  { id := 0, fn := fnOfAsid s asid, asid := asid, va := va, cause := cause, kind := kind, handle := handle,
    level := level, gang := gang, time := s.cyc, waiters := [] }

def kRead : BitVec 8 := 1
def kWrite : BitVec 8 := 2
def kExec : BitVec 8 := 4
def kCapStore : BitVec 8 := 10
def kEngine : BitVec 8 := 16

/-! ### Which Prism serves a block (R225, R473) -/

/-- The Prism beside a fabric port: Xitrum ports 0 to 17, scale-out ports 18 to 25 (R230). -/
def portPrism (port : Nat) : Nat := 24 + port
/-- The route entry of a destination (R37) and its sequencing port C0 (R38). -/
def routeOf (s : State) (dest : Nat) : BitVec 32 := SMap.get 0x1FFFFE0#32 s.fab.routes dest
def seqPort (s : State) (dest : Nat) : Nat := bitsOf (routeOf s dest).toNat 9 5
/-- The sequencing port of a destination as a unit of the package network. -/
def portUnit (s : State) (dest : Nat) : Nat := 2 ^ 20 + seqPort s dest
/-- The Prism that serves a block: controller, sequencing port or CXL port. -/
def servingPrism (s : State) (pa : Nat) : Nat :=
  match spaceOf s pa with
  | .remote d _ => portPrism (seqPort s d)
  | .host => 50
  | _ => hbmPrism pa

/-- Keys of the directory: line entries odd, region entries even (R238). -/
def dirLine (pa : Nat) : Nat := 2 * (pa / 64) + 1
def dirRegion (pa : Nat) : Nat := 2 * (pa / 4096)
/-- The directory entry of a block: line entry, else region entry, else zero (R475). -/
def dirEntry (s : State) (p pa : Nat) : W64 :=
  let d := (prismOf s p).dir
  ((SMap.get none d (dirLine pa)).getD ((SMap.get none d (dirRegion pa)).getD 0))
/-- The busy-poisoned mark: HSW bit 8 (R237). -/
def busyPoisoned (s : State) (pa : Nat) : Bool := (dirEntry s (servingPrism s pa) pa).getLsbD 8

end Sys2Proof.Machine
end

