-- ==== Sys2Proof/Machine/Actors.lean ====
section
/-! DEFINITION. Actor records (R135, R136 of 06_execution_model.md) and the control page: FIFO table,
binding table and credit table (R147 to R150). -/

namespace Sys2Proof.Machine

/-- Bytes of the save image of a firing with SPLEN KiB of scratchpad (R305). -/
def imageLen (splen : Nat) : Nat := 0x6000 + 1024 * splen

/-- Bits of a FIFO entry of an actor record (R135). -/
def fifoUsed (e : W64) : Bool := e.getLsbD 63
def fifoNum (e : W64) : Nat := bitsOf e.toNat 62 58
def fifoCore (e : W64) : Nat := bitsOf e.toNat 57 46
def fifoCount (e : W64) : Nat := bitsOf e.toNat 45 30

/-- The used IN entries name FIFOs apart from each other (R136). -/
def fifosApart (es : List W64) : Bool :=
  let used := (es.filter fifoUsed).map fifoNum
  used.length == used.eraseDups.length

/-- The actor of 128 raw bytes with the tags of its first three granules, when the record is valid under the
version `ver` (R136). -/
def parseActor (ver raw : Nat) (t0 t1 t2 : Bool) : Option Actor :=
  let word (off : Nat) : W64 := BitVec.ofNat 64 (raw / 2 ^ (8 * off))
  let byte (off : Nat) : Nat := raw / 2 ^ (8 * off) % 256
  let code : Cap := ⟨word 0x00, word 0x08, t0⟩
  let data : Cap := ⟨word 0x10, word 0x18, t1⟩
  let save : Cap := ⟨word 0x20, word 0x28, t2⟩
  let trape := (word 0x30).toNat
  let flags := byte 0x39
  let cch := byte 0x3A % 16
  let vch := byte 0x3A / 16
  let prio := byte 0x3B
  let spoff := raw / 2 ^ (8 * 0x3C) % 65536
  let splen := raw / 2 ^ (8 * 0x3E) % 65536
  let ins := [0x40, 0x48, 0x50, 0x58].map word
  let outs := [0x60, 0x68, 0x70, 0x78].map word
  let a := CapF.addr code
  let ok :=
    byte 0x38 == ver && code.tag && CapF.holds code CapF.EXE && a % 64 == 0 && CapF.inBounds code a 64 &&
    (data.tag || data == Cap.null) && (save.tag || save == Cap.null) &&
    (!save.tag || (CapF.holds save 3 && CapF.addr save % 64 == 0 && CapF.inBounds save (CapF.addr save) (imageLen splen))) &&
    (trape == 0 || (trape % 64 == 0 && CapF.inBounds code trape 64)) &&
    1 ≤ cch && cch ≤ 8 && vch ≤ 8 && prio < 4 && flags < 4 && flags != 3 && spoff + splen ≤ 252 &&
    (ins ++ outs).all (fun e => !fifoUsed e || (1 ≤ fifoCount e && bitsOf e.toNat 29 0 == 0)) && fifosApart ins
  if ok then
    some { code := code, data := data, save := save, trape := trape, ver := ver, checked := flags == 1,
           composable := flags == 2, cch := cch, vch := vch, prio := prio, spoff := spoff, splen := splen,
           ins := ins, outs := outs }
  else none

/-- HVSEL.ACT of a function (R64). -/
def actVer (s : State) (f : Nat) : Nat := bitsOf (fnOf s f).hvsel.toNat 7 4

/-- The capability tag of a granule. -/
def tagAt (s : State) (pa : Nat) : Bool := SMap.get false s.ms.ctag (granuleOf pa)

/-- Bytes that an engine reads are refused, or are poisoned data (R49, R226, R487). -/
def engineUnreadable (s : State) (pa n : Nat) : Bool :=
  accessStatus s (2 ^ 27) pa != 0 || (poisonable s pa && (busyPoisoned s pa || poisonAt s pa n))

/-- Read an actor record in an ASID as an engine does: the valid record, none when it is not valid or not readable, or the
translation fault of its page (R136, R487, R488). -/
def readActor (s : State) (asid f va : Nat) : Except (Nat × Nat) (Option Actor) × State :=
  if va % 128 != 0 then (.ok none, s)
  else
    match engineWalk s asid va (kRead ||| kEngine) true with
    | (.error e, s) => (.error e, s)
    | (.ok (pa, _), s) =>
      if engineUnreadable s pa 128 then (.ok none, s) else
      (.ok (parseActor (actVer s f) (peek s pa 128) (tagAt s pa) (tagAt s (pa + 16)) (tagAt s (pa + 32))), s)

/-! ### FIFO table (R147) -/

def fifoV (e : BitVec 128) : Bool := e.getLsbD 127
/-- Entry size in bytes. -/
def fifoEsz (e : BitVec 128) : Nat := 2 ^ (bitsOf e.toNat 126 124 + 3)
/-- Capacity in entries. -/
def fifoCap (e : BitVec 128) : Nat := 2 ^ bitsOf e.toNat 123 120
def fifoBase (e : BitVec 128) : Nat := bitsOf e.toNat 119 102
def fifoCnt (e : BitVec 128) : Nat := bitsOf e.toNat 101 89
def fifoHead (e : BitVec 128) : Nat := bitsOf e.toNat 88 77
def fifoTail (e : BitVec 128) : Nat := bitsOf e.toNat 76 65
def fifoPcore (e : BitVec 128) : Nat := bitsOf e.toNat 64 53

/-- The entry with other COUNT, HEAD and TAIL. -/
def fifoWith (e : BitVec 128) (cnt head tail : Nat) : BitVec 128 :=
  BitVec.ofNat 128 (e.toNat / 2 ^ 102 * 2 ^ 102 + cnt * 2 ^ 89 + head * 2 ^ 77 + tail * 2 ^ 65 + bitsOf e.toNat 64 53 * 2 ^ 53)

/-- ESZ, LOG2 and BASE of an entry are usable. -/
def fifoSetOk (e : BitVec 128) : Bool :=
  let size := fifoEsz e * fifoCap e
  bitsOf e.toNat 126 124 != 7 && bitsOf e.toNat 123 120 ≤ 12 && fifoBase e % size == 0 && fifoBase e + size ≤ 0x3F000

/-- A write of entry `e`: fields are taken while V = 0; writing V to 0 drops every entry; a write of V = 1
with unusable fields leaves V at 0 (R147). -/
def fifoWritten (old v : BitVec 128) : BitVec 128 :=
  if fifoV old then
    if fifoV v then old
    else BitVec.ofNat 128 ((fifoWith old 0 0 0).toNat % 2 ^ 127)
  else
    let e := fifoWith v 0 0 0
    if fifoSetOk v then e else BitVec.ofNat 128 (e.toNat % 2 ^ 127)

def fifoOf (s : State) (core e : Nat) : BitVec 128 := SMap.get 0 (coreOf s core).fifo e
def setFifo (core e : Nat) (v : BitVec 128) (s : State) : State :=
  modCore core (fun c => { c with fifo := SMap.set 0 c.fifo e v }) s

/-! ### Binding table (R148) and credits -/

/-- A write of a binding entry: V stays 0 when the record is not valid (R148). `owner` is the function and
queue of the writer. -/
def bindWritten (core e : Nat) (v : BitVec 128) (owner : Nat × Nat) (s : State) : State :=
  let asid := bitsOf v.toNat 124 113
  let va := bitsOf v.toNat 56 7 * 128
  let raw := bitsOf v.toNat 127 127 * 2 ^ 127 + asid * 2 ^ 113 + va
  let f := fnOfAsid s asid
  let (r, s) := if v.getLsbD 127 then readActor s asid f va else (.ok none, s)
  let a : Option Actor := match r with
    | .ok a => a
    | .error _ => none
  let entry := if a.isSome then raw else raw % 2 ^ 127
  modCore core (fun c => { c with
    bind := SMap.set 0 c.bind e (BitVec.ofNat 128 entry)
    bindActor := SMap.set none c.bindActor e a
    bindOwner := SMap.insert c.bindOwner e owner
    bindPush := SMap.set none c.bindPush e none
    bindCount := SMap.set 0 c.bindCount e 0 }) s

def bindOf (s : State) (core b : Nat) : BitVec 128 := SMap.get 0 (coreOf s core).bind b
def bindingActor (s : State) (core b : Nat) : Actor := (SMap.get none (coreOf s core).bindActor b).getD {}
/-- CRED(b, k). -/
def credOf (s : State) (core b k : Nat) : Nat := (SMap.get 0 (coreOf s core).cred (4 * b + k)).toNat
def setCred (core b k n : Nat) (s : State) : State :=
  modCore core (fun c => { c with cred := SMap.set 0 c.cred (4 * b + k) (BitVec.ofNat 16 (n % 2 ^ 13)) }) s

/-! ### The control page as memory (R207) -/

/-- The byte at a control-page offset. -/
def ctlByte (s : State) (core off : Nat) : Nat :=
  let c := coreOf s core
  if off < 0x200 then (SMap.get 0 c.fifo (off / 16)).toNat / 2 ^ (8 * (off % 16)) % 256
  else if off < 0x300 then (SMap.get 0 c.bind ((off - 0x200) / 16)).toNat / 2 ^ (8 * (off % 16)) % 256
  else if off < 0x380 then (SMap.get 0 c.cred ((off - 0x300) / 2)).toNat / 2 ^ (8 * (off % 2)) % 256
  else 0

/-- `n` bytes from a control-page offset. -/
def ctlRead (s : State) (core off : Nat) : Nat → Nat
  | 0 => 0
  | n + 1 => ctlByte s core off + 256 * ctlRead s core (off + 1) n

/-- A field of `w` bytes with `n` bytes from byte `at_` replaced. -/
def mergeBytes (old at_ n x : Nat) : Nat :=
  old - old / 2 ^ (8 * at_) % 2 ^ (8 * n) * 2 ^ (8 * at_) + x % 2 ^ (8 * n) * 2 ^ (8 * at_)

/-- A store of at most 16 bytes inside one granule of the control page. -/
def ctlWrite (core off n x : Nat) (owner : Nat × Nat) (s : State) : State :=
  if off < 0x200 then
    let e := off / 16
    let old := fifoOf s core e
    setFifo core e (fifoWritten old (BitVec.ofNat 128 (mergeBytes old.toNat (off % 16) n x))) s
  else if off < 0x300 then
    let e := (off - 0x200) / 16
    bindWritten core e (BitVec.ofNat 128 (mergeBytes (bindOf s core e).toNat (off % 16) n x)) owner s
  else if off < 0x380 then
    let old := ctlRead s core (off / 16 * 16) 16
    let new := mergeBytes old (off % 16) n x
    (List.range 8).foldl (fun s k =>
      let i := (off / 16 * 16 - 0x300) / 2 + k
      setCred core (i / 4) (i % 4) (new / 2 ^ (16 * k)) s) s
  else s

end Sys2Proof.Machine
end

