-- ==== Sys2Proof/Machine/Send.lean ====
section
/-! DEFINITION. Sending fabric packets: headers (R34), route candidates (R37, R38), windows and held copies
(R41, R42, R50, R51, R53) of 02_xitrum_fabric.md. -/

namespace Sys2Proof.Machine

/-- The fields of a header flit (R34). -/
structure Hdr where
  ty : Nat
  lane : Nat := 0
  len : Nat := 0
  ddev : Nat := 0
  sdev : Nat := 0
  seq : Nat := 0
  base : Nat := 0
  op : Nat := 0
  o : Bool := false
  rp : Bool := false
  pz : Bool := false
  rsv : Nat := 0
  off : Nat := 0
  scope : Nat := 0
  cand : Nat := 0
  deriving DecidableEq, Repr

/-- The 128 bits of a header. -/
def hdrBits (h : Hdr) : BitVec 128 :=
  BitVec.ofNat 128 (h.ty % 16 * 2 ^ 124 + h.lane % 2 * 2 ^ 123 + h.len % 8 * 2 ^ 120 + h.ddev % 2 ^ 14 * 2 ^ 106 +
    h.sdev % 2 ^ 14 * 2 ^ 92 + h.seq % 65536 * 2 ^ 76 + h.base % 65536 * 2 ^ 60 + h.op % 64 * 2 ^ 54 +
    (if h.o then 2 ^ 53 else 0) + (if h.rp then 2 ^ 52 else 0) + (if h.pz then 2 ^ 51 else 0) +
    h.off % 2 ^ 41 * 2 ^ 9 + h.scope % 8 * 2 ^ 6 + h.cand % 4 * 2 ^ 4)

/-- The fields of a header as received; `rsv` holds bits 50 and 3:0. -/
def hdrOf (x : BitVec 128) : Hdr :=
  let n := x.toNat
  { ty := bitsOf n 127 124, lane := bitsOf n 123 123, len := bitsOf n 122 120, ddev := bitsOf n 119 106,
    sdev := bitsOf n 105 92, seq := bitsOf n 91 76, base := bitsOf n 75 60, op := bitsOf n 59 54,
    o := bitsOf n 53 53 == 1, rp := bitsOf n 52 52 == 1, pz := bitsOf n 51 51 == 1,
    rsv := bitsOf n 50 50 * 16 + bitsOf n 3 0, off := bitsOf n 49 9, scope := bitsOf n 8 6, cand := bitsOf n 5 4 }

def tRD : Nat := 1
def tWR : Nat := 2
def tWRM : Nat := 3
def tAMO : Nat := 4
def tREDC : Nat := 5
def tMSG : Nat := 6
def tSIG : Nat := 7
def tPRB : Nat := 8
def tRDATA : Nat := 9
def tARES : Nat := 10
def tACK : Nat := 11
def tNAK : Nat := 12
def tMREP : Nat := 13
def tBARA : Nat := 14
def tBARB : Nat := 15

/-- Lane, LEN and whether sequenced, by type (R35). -/
def typeLane (ty : Nat) : Nat := if ty ∈ [9, 10, 11, 12, 13, 15] then 1 else 0
def typeLen (ty : Nat) : Nat :=
  match ty with
  | 2 | 4 | 9 | 10 => 1
  | 3 | 5 => 2
  | 6 | 13 => 3
  | _ => 0
def sequenced (ty : Nat) : Bool := ty ∈ [1, 2, 3, 4, 5, 6, 7, 8, 13]

/-- Candidate `i`'s port of a route entry (R37). -/
def candPort (r : BitVec 32) (i : Nat) : Nat := bitsOf r.toNat (9 + 5 * i) (5 + 5 * i)
def candDown (r : BitVec 32) (i : Nat) : Bool := r.getLsbD (25 + i)
/-- The active candidate: the lowest with a valid port and DOWN clear (R38). -/
def activeCand (r : BitVec 32) : Option Nat :=
  (List.range 4).find? fun i => candPort r i < 26 && !candDown r i
def routeValid (r : BitVec 32) : Bool := r.getLsbD 31

/-- Windows are numbered `2 * destination + lane`. -/
def winOf (s : State) (w : Nat) : Window := SMap.get {} s.fab.win w
def setWin (s : State) (w : Nat) (x : Window) : State := modFab (fun f => { f with win := SMap.set {} f.win w x }) s

def portOf (s : State) (p : Nat) : Port := SMap.get {} s.fab.ports p
def modPort (p : Nat) (f : Port → Port) (s : State) : State := modFab (fun x => { x with ports := SMap.set {} x.ports p (f (portOf s p)) }) s

/-- Flits of a packet: its header and its data (R34). -/
def flitsOf (p : Packet) : Nat := 1 + p.data.length
/-- The lane of a packet. -/
def laneOf_ (p : Packet) : Nat := bitsOf p.hdr.toNat 123 123
/-- Credits of a port's lane, and the port with fewer (R40). -/
def creditsOf (x : Port) (lane : Nat) : Nat := if lane == 0 then x.credReq else x.credRep
def spend (lane n : Nat) (x : Port) : Port :=
  if lane == 0 then { x with credReq := x.credReq - n } else { x with credRep := x.credRep - n }

/-- The frame of a packet that leaves by a scale-out port: the MAC address of its destination, the EtherType and the 802.1p
priority of its lane (R58, R59). A frame carries one packet, and a tag only for a priority: DESIGN CHOICE (log 85). -/
def frameOf (s : State) (port : Nat) (p : Packet) : Frame :=
  let t := bootTable s
  { hdr := BitVec.ofNat 32 (2 ^ 28), fcsOk := true, packets := [p],
    mac := SMap.get 0 s.fab.macs ((port - 18) * 16384 + bitsOf p.hdr.toNat 119 106),
    etype := BitVec.ofNat 16 t.etype, prio := some (if laneOf_ p == 0 then t.priq else t.prip) }
/-- A packet leaves by a port, in a frame by a scale-out port. -/
def wire (port : Nat) (p : Packet) (s : State) : State :=
  let s := if port < 18 then s else modFab (fun f => { f with frames := f.frames ++ [(port, frameOf s port p)] }) s
  modFab (fun f => { f with tx := f.tx ++ [(port, p)] }) s
/-- A packet that waits at its port goes as far as the credits of its lane carry it, in order of its lane (R40). -/
def sendOut (s : State) (e : OutPkt) : State :=
  let lane := laneOf_ e.pkt
  let back (left : Nat) (s : State) : State := modFab (fun f => { f with outq := f.outq ++ [{ e with left := left }] }) s
  if s.fab.outq.any fun x => x.port == e.port && laneOf_ x.pkt == lane then back e.left s
  else
    let n := Nat.min (creditsOf (portOf s e.port) lane) e.left
    let s := modPort e.port (spend lane n) s
    if n == e.left then wire e.port e.pkt s else back (e.left - n) s
def outPump (s : State) : State := s.fab.outq.foldl sendOut (modFab (fun f => { f with outq := [] }) s)
/-- Put a packet on a port: it waits for credit, and is lost where the link is down (R33, R40). -/
def transmit (port : Nat) (p : Packet) (s : State) : State :=
  if !(portOf s port).up then s
  else outPump (modFab (fun f => { f with outq := f.outq ++ [{ port := port, pkt := p, left := flitsOf p }] }) s)

/-- The oldest sequence number whose copy the window holds, or next (R42). -/
def winBaseNow (w : Window) : Nat :=
  match w.held with
  | [] => w.next
  | h :: _ => h.seq

/-- Stamp BASE, RP and CAND on a held packet and send it on the active candidate of its destination. -/
def sendHeld (dest w : Nat) (rp : Bool) (h : HeldPkt) (s : State) : State :=
  let r := routeOf s dest
  match activeCand r with
  | none => s
  | some c =>
    let hd := hdrOf h.pkt.hdr
    transmit (candPort r c) { h.pkt with hdr := hdrBits { hd with base := winBaseNow (winOf s w), rp := rp, cand := c } } s

/-- Flits of one lane that a sequencing port's retry buffer holds (R41). -/
def bufferUsed (s : State) (port lane : Nat) : Nat :=
  (s.fab.win.map fun (w, x) =>
    if w % 2 == lane && seqPort s (w / 2) == port then (x.held.map fun h => flitsOf h.pkt).sum else 0).sum
/-- The retry buffer of a destination's port has room for a whole packet: of its 4,096 flits 1,024 are the reply lane's
(R41). -/
def bufferRoom (s : State) (dest lane : Nat) (p : Packet) : Bool :=
  bufferUsed s (seqPort s dest) lane + flitsOf p ≤ (if lane == 0 then 3072 else 1024)

/-- Give the queued packets of a window sequence numbers while window and retry buffer have room, at most `n` (R41). -/
def windowPump (dest w : Nat) : Nat → State → State
  | 0, s => s
  | n + 1, s =>
    let x := winOf s w
    match x.queued with
    | [] => s
    | h :: rest =>
      if x.holdUntil.isSome || !x.synced || (x.next + 65536 - winBaseNow x) % 65536 ≥ 2048 || !bufferRoom s dest (w % 2) h.pkt then s
      else
        let hd := hdrOf h.pkt.hdr
        let h' : HeldPkt := { h with
          seq := x.next
          sent := s.cyc
          pkt := { h.pkt with hdr := hdrBits { hd with seq := x.next } } }
        let x' := { x with
          next := (x.next + 1) % 65536
          held := x.held ++ [h']
          queued := rest
          timer := if x.held.isEmpty then some s.cyc else x.timer
          lastSent := if (activeCand (routeOf s dest)).isSome then s.cyc else x.lastSent }
        windowPump dest w n (sendHeld dest w false h' (setWin s w x'))

/-- Every window whose sequencing port is this one sends what now has room (R41). -/
def portPump (port : Nat) (s : State) : State :=
  (s.fab.win.map (·.1)).foldl (fun s w => if seqPort s (w / 2) == port then windowPump (w / 2) w 2048 s else s) s

/-- Send a sequenced packet: it takes the next number of its window, or waits for room (R41). `cid` names the
context and pending result it belongs to. -/
def sendSeqQ (hd : Hdr) (data : List (BitVec 512)) (cid : Option (Nat × Nat)) (wants : Bool) (quiet : Option Cap) (s : State) : State :=
  let w := 2 * hd.ddev + typeLane hd.ty
  let pkt : Packet := { hdr := hdrBits { hd with sdev := s.dev, lane := typeLane hd.ty, len := typeLen hd.ty }, data := data }
  let x := winOf s w
  windowPump hd.ddev w 1 (setWin s w { x with queued := x.queued ++ [{ seq := 0, pkt := pkt, cid := cid, wantsReply := wants, quiet := quiet }] })
def sendSeq (hd : Hdr) (data : List (BitVec 512)) (cid : Option (Nat × Nat)) (wants : Bool) (s : State) : State :=
  sendSeqQ hd data cid wants none s

/-- Send an unsequenced packet on the active candidate (R38). -/
def sendRaw (hd : Hdr) (data : List (BitVec 512)) (s : State) : State :=
  let r := routeOf s hd.ddev
  match activeCand r with
  | none => s
  | some c =>
    transmit (candPort r c)
      { hdr := hdrBits { hd with sdev := s.dev, lane := typeLane hd.ty, len := typeLen hd.ty, cand := c }, data := data } s

/-- The destination can be reached: its route entry is valid (R39). -/
def routable (s : State) (dest : Nat) : Bool := routeValid (routeOf s dest)

/-- The packets that this device has sent, is to send, or is to send again (R41, R47). -/
def outPkts (s : State) : List HeldPkt := (s.fab.win.flatMap fun (_, w) => w.held ++ w.queued) ++ s.fab.nakWait.map (·.2.1)
/-- Windows from here on stand for no device: they mark the PUSHRELs that releases of this device post (R248). -/
def localWin : Nat := 2 ^ 40
/-- A party's earlier sequenced packets are covered by acknowledgements (R43). -/
def packetsCovered (s : State) (cid : Nat) : Bool := (outPkts s).all fun h => h.acked || !h.cid.any fun c => c.1 == cid

/-- The remote-map offset of a local address (R48). -/
def remoteOff (pa : Nat) : Nat := if pa < hbmTop then pa else 0x10000000000 + (pa - winBase)
/-- An address of another device in remote form (R39). -/
def remotePa (dev off : Nat) : Nat := 2 ^ 55 + dev % 16384 * 2 ^ 41 + off % 2 ^ 41
/-- The local address of an offset of the remote map, or none (R48). -/
def offsetPa (s : State) (off : Nat) : Option Nat :=
  if off < (if (bootTable s).fabric then fabricArea else hbmTop) then some off
  else if 0x10000000000 ≤ off && off < 0x10400000000 then
    let w := off % 0x400000
    if w < 0x40000 || (0x200000 ≤ w && w < 0x204000) then some (winBase + (off - 0x10000000000)) else none
  else none

end Sys2Proof.Machine
end

