-- ==== Sys2Proof/Machine/Access.lean ====
section
/-! DEFINITION. How an access is checked, translated and performed: capability checks (R347 of
12_isa_encoding.md), window rules (R208), access tags and suspension (R223 to R226), poison (R221, R222),
the L1 (R211 to R213), the store buffer (R175), range locks (R260), release and acquire (R266, R267). -/

namespace Sys2Proof.Machine

/-! ### Tags and suspension -/

/-- The access tag of a block where its home holds it: the sideband for HBM, the line for a remote or host
block, which is invalid when no slice holds it and no record holds it busy (R224, R475). -/
def atagOf (s : State) (pa : Nat) : Nat :=
  let t := (SMap.get 2 s.ms.atag (blockOf pa)).toNat
  match spaceOf s pa with
  | .host | .remote _ _ => if (SMap.get none s.ms.l2 (blockOf pa)).isSome || t == 3 then t else 0
  | .hbm => t
  | _ => 2
/-- Whether a tag lets an access of a type through: 0 load, 1 store, 2 atomic (R223). -/
def tagAllows (ty tag : Nat) : Bool := if ty == 0 then tag == 1 || tag == 2 else tag == 2

/-- Contexts that wait at a Prism on these blocks try again (R225). -/
def wakeTags (p : Nat → Bool) (s : State) : State :=
  let wakes (c : Nat) (x : Ctx) : Bool :=
    x.st == .waiting && x.wait == .tag && s.ms.susp.any fun u => u.cid == c && p u.block
  if s.ms.susp.isEmpty then s
  else { s with ctxs := s.ctxs.map fun (c, x) => if wakes c x then (c, { x with st := .ready }) else (c, x) }
/-- The suspended accesses of these blocks that the tags now allow are let through (R225). -/
def letThrough (p : Nat → Bool) (s : State) : State :=
  let now (u : Susp) : Susp :=
    if p u.block && tagAllows u.ty (atagOf s (64 * u.block)) then { u with allowed := true } else u
  if s.ms.susp.isEmpty then s else wakeTags p (modMs (fun m => { m with susp := m.susp.map now }) s)
/-- The suspended accesses of these blocks and types that no tag has let through are refused with a status (R49, R231). -/
def refuseSusp (p : Nat → Bool) (tys : List Nat) (status : Nat) (s : State) : State :=
  let now (u : Susp) : Susp := if p u.block && tys.contains u.ty && !u.allowed then { u with refused := some status } else u
  wakeTags p (modMs (fun m => { m with susp := m.susp.map now }) s)
/-- Set a block's tag (R224, R225). -/
def setAtag (pa t : Nat) (s : State) : State :=
  letThrough (fun b => b == blockOf pa)
    (modMs (fun m => { m with atag := SMap.set 2 m.atag (blockOf pa) (BitVec.ofNat 2 t) }) s)

/-- The message type's number for a suspended access: LREAD, LWRITE, LATOM (R231). -/
def suspMsg (ty : Nat) : Nat := 6 + ty

/-- A message of this block and type is at the Prism: in its inbox or in a handler run (R225). -/
def outstandingAt (s : State) (p ty blk : Nat) : Bool :=
  let x := prismOf s p
  x.req.any (fun m => m.ty == ty && m.block == blk) || x.thr.any fun (_, r) =>
    match r with
    | some run => run.msg.ty == ty && run.msg.block == blk
    | none => false

/-- Put a message in a Prism's request inbox; a full inbox holds it back at its sender (R489). -/
def postReq (p : Nat) (m : PMsg) (s : State) : State :=
  if 64 ≤ (prismOf s p).req.length then s else modPrism p (fun x => { x with req := x.req ++ [m] }) s

/-- The oldest access of a core suspended on a block, with the leaf of its page as a TLB holds it. -/
def suspLeaf (s : State) (blk : Nat) : Option (Nat × W64) :=
  (s.ms.susp.find? fun u => u.block == blk && u.cid < 32768).bind fun u =>
    (s.tr.tlb.find? fun e =>
      e.asid == (ctxOf s u.cid).asid.toNat && e.pa ≤ 64 * blk && 64 * blk < e.pa + e.size).map fun e => (u.cid, e.attr)
/-- A core sends an access whose leaf says host straight to the CXL port Prism, when the page is in host bias; the stored tag
decides the outcome, not the leaf (R81). -/
def sentToCxl (s : State) (blk : Nat) : Bool :=
  localHbm s (64 * blk) && SMap.get false s.host.hostBias (64 * blk / 4096) && (suspLeaf s blk).any fun l => l.2.getLsbD 10

/-- The Prism that hears of a suspended access. -/
def suspPrism (s : State) (blk : Nat) : Nat := if sentToCxl s blk then 50 else servingPrism s (blk * 64)

/-- Post the message of a block and type for its oldest suspended access, unless one is outstanding (R225). -/
def postSusp (blk ty : Nat) (s : State) : State :=
  let p := suspPrism s blk
  if outstandingAt s p (suspMsg ty) (blk * 64) || outstandingAt s 50 (suspMsg ty) (blk * 64) then s
  else match s.ms.susp.find? fun u => u.block == blk && u.ty == ty && u.refused.isNone && !u.allowed with
    | some u => postReq p { ty := suspMsg ty, block := blk * 64, requester := BitVec.ofNat 64 u.handle } s
    | none => s

/-- A Prism's inbox has room again: the accesses suspended there whose message has not been posted announce themselves, the
oldest first (R225). -/
def announce (p : Nat) (s : State) : State :=
  s.ms.susp.foldl (fun s u =>
    if u.refused.isNone && !u.allowed && suspPrism s u.block == p && atagOf s (64 * u.block) != 3
    then postSusp u.block u.ty s else s) s
/-- The oldest suspended access of a block and type is refused with a status (R49, R231). -/
def refuseOldest (blk ty status : Nat) (s : State) : State :=
  match s.ms.susp.findIdx? fun u => u.block == blk && u.ty == ty && u.refused.isNone && !u.allowed with
  | some i => wakeTags (fun b => b == blk) (modMs (fun m => { m with susp := m.susp.modify i fun u => { u with refused := some status } }) s)
  | none => s

/-- Hold an access at its home (R225); `post` is false for an access parked on a busy tag. -/
def suspendAs (pa ty cid handle : Nat) (post : Bool) (s : State) : State :=
  let u : Susp := { block := blockOf pa, ty := ty, cid := cid, handle := handle }
  let s := if s.ms.susp.any (fun v => v.block == u.block && v.ty == ty && v.cid == cid) then s
    else modMs (fun m => { m with susp := m.susp ++ [u] }) s
  if post then postSusp u.block ty s else s
def suspend (pa ty cid : Nat) (post : Bool) (s : State) : State := suspendAs pa ty cid (firOf s cid).handle post s
/-- Take a performed access from the suspended ones. -/
def unsuspend (pa ty cid : Nat) (s : State) : State :=
  if s.ms.susp.isEmpty then s
  else modMs (fun m => { m with susp := m.susp.filter fun v => !(v.block == blockOf pa && v.ty == ty && v.cid == cid) }) s

/-- A party's own suspended access of a type on a block. -/
def mySusp (s : State) (pa ty cid : Nat) : Option Susp :=
  s.ms.susp.find? fun v => v.block == blockOf pa && v.cid == cid && v.ty == ty
/-- The oldest suspended access of a block that a tag lets through, or that was let through before (R225). -/
def firstSusp (s : State) (pa tag : Nat) : Option Susp :=
  s.ms.susp.find? fun v => v.block == blockOf pa && v.refused.isNone && (v.allowed || tagAllows v.ty tag)

/-- An array operation that names the bank is forming or running (R208). -/
def bankBusy (s : State) (core bank : Nat) : Bool :=
  (stripOf s (stripNo core)).ops.any fun o => o.parts.any fun p => p.rank == rankNo core && p.bank == bank

/-- The four homes of a replicated block hold a busy mark while a write under MCA 1 is under way (R217). -/
def busyMarked (s : State) (pa : Nat) : Bool :=
  s.net.any fun m =>
    match m with
    | .replica a _ _ true _ => a % 0x3000000000 / 64 == pa % 0x3000000000 / 64 && pa < hbmTop
    | _ => false

/-- An access from outside to a window of a strip that is being moved has had a negative acknowledgement, and its sender
has not tried again (R19). -/
def remapHeld (s : State) (cid pa ty core : Nat) : Bool :=
  !(cid < 32768 && stripNo (coreNo cid) == stripNo core) &&
    ((stripOf s (stripNo core)).fenced || (mySusp s pa ty cid).any fun u => u.refused == some 2)

/-- What the home answers an access: perform it, refuse it with a status, or hold it. -/
inductive Gate where
  | go
  | refuse (info : Nat)
  | hold (post : Bool)
  deriving DecidableEq, Repr

/-- A control-column core reads the fabric state area (R48, R87, R206). -/
def columnRead (s : State) (cid pa ty : Nat) : Bool :=
  ty == 0 && cid < 32768 && controlCore s (coreNo cid) && inFabricArea s pa
/-- The check of an access at its home (R48, R87, R206, R208, R217, R223, R226). -/
def homeGate (s : State) (cid pa ty : Nat) : Gate :=
  let st := accessStatus s cid pa
  if columnRead s cid pa ty then .go
  else if st != 0 then .refuse st
  else match spaceOf s pa with
    | .hbm | .host | .remote _ _ =>
      if isThread cid then (if busyMarked s pa then .hold false else .go)
      else match (mySusp s pa ty cid).bind (·.refused) with
      | some st => .refuse st
      | none =>
        if busyMarked s pa then .hold false
        else if busyPoisoned s pa then .refuse 0
        else
          let t := atagOf s pa
          match firstSusp s pa t with
          | some v => if v.cid == cid && v.ty == ty then .go else .hold (!tagAllows ty t && t != 3)
          | none => if tagAllows ty t then .go else .hold (t != 3)
    | .acc k off => if remapHeld s cid pa ty k || bankBusy s k (off / 0x1000) then .hold false else .go
    | .spad k _ | .regs k _ | .ctl k _ => if remapHeld s cid pa ty k then .hold false else .go
    | .hole => .go

/-! ### Performing reads and writes at the home -/

/-- One corrected error of a sector: it is written back, and the fourth is recorded (R102). -/
def countEcc (s : State) (w : Nat) : State :=
  let n := SMap.get 0 s.firm.ecc w + 1
  let s := modFirm (fun f => { f with ecc := SMap.set 0 f.ecc w n }) (modMs (fun m => { m with flaw := SMap.set 0 m.flaw w 0 }) s)
  if n == 4 then bbWrite (hbmPrism (32 * w) / 12) 7 (hbmPrism (32 * w)) 0x67 [BitVec.ofNat 64 (32 * w)] s else s
/-- A read corrects the errors that ECC can correct (R102, R221). -/
def correct (pa n : Nat) (s : State) : State :=
  if s.ms.flaw.isEmpty then s else ((eccWords pa n).filter fun w => SMap.get 0 s.ms.flaw w == 1).foldl countEcc s

/-- The parts of bytes of a register window that lie in one register each, 16 bytes for g and 128 for v: offset, length
and place in the access. -/
def winParts (off : Nat) : Nat → Nat → Nat → List (Nat × Nat × Nat)
  | 0, _, _ => []
  | fuel + 1, done, n =>
    let k := Nat.min n (16 - off % 16)
    if off % 0x2000 < 0x400 && k < n then (off, k, done) :: winParts (off + k) fuel (done + k) (n - k) else [(off, n, done)]
/-- The bytes of one register of the window from an offset on (R207, R208): 128 bits for g, 1,024 for v. -/
def winReg (s : State) (core off : Nat) : Nat × Bool :=
  let cid := core * 8 + off % 0x10000 / 0x2000
  let x := ctxOf s cid
  let o := off % 0x2000
  if o < 0x400 then
    let c := if allotG cid x (o / 16) then readG x (o / 16) else Cap.null
    ((c.w0.toNat + c.w1.toNat * 2 ^ 64) / 2 ^ (8 * (o % 16)), c.tag && o % 16 == 0)
  else
    let r := (o - 0x1000) / 128
    let v := if allotV cid x r then readV x r else 0
    (v.toNat / 2 ^ (8 * (o % 128)), false)

/-- `n` bytes of a register window. -/
def winRead (s : State) (core off n : Nat) : Nat :=
  ((winParts off 5 0 n).map fun p => (winReg s core p.1).1 % 2 ^ (8 * p.2.1) * 2 ^ (8 * p.2.2)).sum
/-- `n` bytes at a home and the tag of their granule, as they stand. -/
def homeBytes (s : State) (pa n : Nat) : Nat × Bool :=
  match spaceOf s pa with
  | .regs k off => (winRead s k off n, (winReg s k off).2)
  | .ctl k off => (ctlRead s k (off % 0x1000) n, false)
  | .hole => (if inFabricArea s pa then leNat ((List.range n).map fun i => Config.fabricByte (pa + i) s.cyc) else 0, false)
  | .hbm | .spad _ _ => (peek s pa n, tagAt s pa)
  | _ => (peek s pa n, false)

/-- A store to one register of a window: it writes the register and sets its presence bit; a register that is not
allotted drops it with an error record (R208). -/
def winPut (core off n x : Nat) (tag : Bool) (writer : Nat) (s : State) : State :=
  let cid := core * 8 + off % 0x10000 / 0x2000
  let c := ctxOf s cid
  let o := off % 0x2000
  if o < 0x400 then
    let r := o / 16
    if !allotG cid c r then postedFail writer (windowOf core + off) 0 s
    else
      let old := readG c r
      let m := mergeBytes (old.w0.toNat + old.w1.toNat * 2 ^ 64) (o % 16) n x
      modBoth cid (fun c => arriveG (writeG c r ⟨BitVec.ofNat 64 m, BitVec.ofNat 64 (m / 2 ^ 64), tag⟩) r) s
  else
    let r := (o - 0x1000) / 128
    if !allotV cid c r then postedFail writer (windowOf core + off) 0 s
    else modBoth cid (fun c => arriveV (writeV c r (BitVec.ofNat 1024 (mergeBytes (readV c r).toNat (o % 128) n x))) r) s

/-- A store to a register window. -/
def winWrite (core off n x : Nat) (tag : Bool) (writer : Nat) (s : State) : State :=
  (winParts off 5 0 n).foldl (fun s p => winPut core p.1 p.2.1 (x / 2 ^ (8 * p.2.2) % 2 ^ (8 * p.2.1)) tag writer s) s

/-- Set or clear the capability tags of the granules that a data store touches (R209, R221). -/
def clearTags (pa n : Nat) (s : State) : State :=
  (List.range ((pa + n - 1) / 16 - pa / 16 + 1)).foldl
    (fun s k => modMs (fun m => { m with ctag := SMap.set false m.ctag (pa / 16 + k) false }) s) s
def setTag (pa : Nat) (t : Bool) (s : State) : State :=
  modMs (fun m => { m with ctag := SMap.set false m.ctag (granuleOf pa) t }) s

/-- The error record of a write to part of a word that cannot be corrected: the word's address, the mask of the bytes
written, and the bytes (R222). -/
def partRecord (w pa n x : Nat) : List W64 :=
  let lo := Nat.max pa (32 * w)
  let k := Nat.min (pa + n) (32 * w + 32) - lo
  let data := x / 2 ^ (8 * (lo - pa)) % 2 ^ (8 * k) * 2 ^ (8 * (lo - 32 * w))
  [BitVec.ofNat 64 (32 * w), BitVec.ofNat 64 ((2 ^ k - 1) * 2 ^ (lo - 32 * w))] ++
    (List.range 4).map fun i => BitVec.ofNat 64 (data / 2 ^ (64 * i))
/-- A write at the controller (R222): a whole 32-byte word is clean again; of part of a word the rest is read: an error is
corrected, or the word is poisoned, and the record goes to the memory-side Prism and the black box. -/
def poisonWord (pa n x : Nat) (s : State) (w : Nat) : State :=
  if pa ≤ 32 * w && 32 * w + 32 ≤ pa + n then
    modMs (fun m => { m with poison := SMap.erase m.poison w, flaw := SMap.set 0 m.flaw w 0 }) s
  else if !badWord s w then correct (32 * w) 32 s
  else if !localHbm s pa then s
  else
    let s := modMs (fun m => { m with poison := SMap.set false m.poison w true, flaw := SMap.set 0 m.flaw w 0 }) s
    let s := modPrism (hbmPrism pa) (fun p => { p with errs := p.errs ++ [(0x80, partRecord w pa n x)] }) s
    bbWrite (hbmPrism pa / 12) 7 (hbmPrism pa) 0x80 (partRecord w pa n x) s
def poisonWrite (pa n x : Nat) (s : State) : State :=
  if s.ms.poison.isEmpty && s.ms.flaw.isEmpty then s else (eccWords pa n).foldl (poisonWord pa n x) s

/-- An ownership notice reaches its unit: a core's owned bits of the line go, or a strip atomic unit's copy
(R212, R219). -/
def dropOwned (unit blk : Nat) (s : State) : State :=
  if unit < 4096 then
    modCore unit (fun c => { c with l1 := SMap.set none c.l1 blk ((SMap.get none c.l1 blk).map fun l => { l with owned := 0 }) }) s
  else modStrip (unit - 4096) (fun t => { t with sau := SMap.set none t.sau blk none }) s
/-- The unit that a home slice has registered as the last writer of a line (R212). -/
def ownerOf (s : State) (blk : Nat) : Option Nat := ((SMap.get none s.ms.l2 blk).getD {}).owner
/-- A write of another unit takes the line from its registered owner (R212). -/
def takeOwner (pa : Nat) (unit : Option Nat) (s : State) : State :=
  match ownerOf s (blockOf pa) with
  | some k =>
    if some k == unit then s
    else dropOwned k (blockOf pa) (modMs (fun m =>
      { m with l2 := SMap.set none m.l2 (blockOf pa) ((SMap.get none m.l2 (blockOf pa)).map fun l => { l with owner := none }) }) s)
  | none => s

/-- The home writes bytes of memory: data, tags, poison; a line of the L2 is dirty and registers its owner
(R212, R220); a scratchpad line is dirty for a save (R306). -/
def memWrite (pa n x : Nat) (tag : Bool) (owner : Option Nat) (s : State) : State :=
  let s := poke pa n x s
  let s := if tag then setTag pa true s else clearTags pa n s
  match spaceOf s pa with
  | .hbm | .host | .remote _ _ =>
    let s := takeOwner pa owner (poisonWrite pa n x s)
    match owner, SMap.get none s.ms.l2 (blockOf pa) with
    | none, none => s
    | _, l => modMs (fun m =>
        { m with l2 := SMap.insert m.l2 (blockOf pa) (some { l.getD {} with dirty := true, owner := owner }) }) s
  | .spad k off => modCore k (fun c => { c with
      spDirty := (List.range ((off + n - 1) / 64 - off / 64 + 1)).foldl (fun m j => SMap.set false m (off / 64 + j) true) c.spDirty }) s
  | _ => s

/-- A line that enters the L2 stands in the slice that is its home (R214). -/
def withHome (pa home : Nat) (f : State → State) (s : State) : State :=
  if (SMap.get none s.ms.l2 (blockOf pa)).isSome then f s
  else modMs (fun m => { m with l2 := SMap.set none m.l2 (blockOf pa) ((SMap.get none m.l2 (blockOf pa)).map fun l => { l with home := home }) }) (f s)

/-- Two blocks lie under one region entry of a Prism. -/
def sameRegion (s : State) (p a b : Nat) : Bool := (regionOf s p a).map (·.1) == (regionOf s p b).map (·.1)
/-- A home of this device, a memory-side Prism and a region under PUSH, joins the homes written since a release (R248). -/
def addPushed (s : State) (pa : Nat) (l : List Nat) : List Nat :=
  let p := hbmPrism pa
  if !localHbm s pa || protoOf s p pa != 3 then l
  else if l.any fun b => hbmPrism b == p && sameRegion s p b pa then l else l ++ [pa / 64 * 64]
/-- A core's write under PUSH is noted for its next release (R248). -/
def notePushed (cid pa : Nat) (s : State) : State :=
  if 32768 ≤ cid || (prismOf s (hbmPrism pa)).regions.isEmpty then s
  else modCore (coreNo cid) (fun k => { k with pushed := addPushed s pa k.pushed }) s

/-- A program's store to a launch area changes what stream units see of it only after a fence: until then they see what
stood there before (R143). -/
def noteLaunch (cid pa n : Nat) (s : State) : State :=
  match spaceOf s pa with
  | .spad k off =>
    if 32768 ≤ cid || off + n ≤ 0x3F000 then s
    else modCore k (fun c => { c with launchOld := c.launchOld ++ (((List.range n).map (off + ·)).filter fun o =>
        0x3F000 ≤ o && !c.launchOld.any fun x => x.off == o).map fun o =>
      { off := o, byte := SMap.get 0 s.ms.mem (windowOf k + o), tag := tagAt s (windowOf k + o), cid := cid } }) s
  | _ => s
/-- A fence of a context at core scope or wider: its stores to launch areas count for the instructions that follow (R143). -/
def launchFence (cid : Nat) (s : State) : State :=
  let core := coreNo cid
  let mark (e : SbEntry) : SbEntry := if e.cid == cid then { e with fenced := true } else e
  let s := if isThread cid then s else modCore core (fun k => { k with sb := k.sb.map mark }) s
  if s.cores.any fun e => !e.2.launchOld.isEmpty then
    { s with cores := s.cores.map fun (k, c) => (k, { c with launchOld := c.launchOld.filter fun x => x.cid != cid }) }
  else s

/-- Perform a write that its gate lets through, at its home or bank. -/
def homeWrite (pa n x : Nat) (tag : Bool) (owner : Option Nat) (writer : Nat) (s : State) : State :=
  match spaceOf s pa with
  | .regs k off => winWrite k off n x tag writer s
  | .ctl k off => ctlWrite k (off % 0x1000) n x ((firOf s writer).fn, (firOf s writer).queue) s
  | .hole => s
  | .hbm => notePushed writer pa (memWrite pa n x tag owner s)
  | _ => memWrite pa n x tag owner s

/-! ### The L1 (R211 to R213) -/

def l1Of (s : State) (core blk : Nat) : Option L1Line := SMap.get none (coreOf s core).l1 blk
/-- The 4-byte words that bytes `o` to `o + n - 1` of a line touch. -/
def wordMask (o n : Nat) : Nat := (2 ^ ((o + n - 1) / 4 - o / 4 + 1) - 1) * 2 ^ (o / 4)
/-- The L1 answers a load: every word is valid and the copied tag allows it (R224). -/
def l1Hit (s : State) (core pa n : Nat) : Bool :=
  match l1Of s core (blockOf pa) with
  | some l => Nat.land l.valid.toNat (wordMask (pa % 64) n) == wordMask (pa % 64) n && tagAllows 0 l.atag.toNat
  | none => false
def l1Read (s : State) (core pa n : Nat) : Nat × Bool :=
  match l1Of s core (blockOf pa) with
  | some l => (l.data.toNat / 2 ^ (8 * (pa % 64)) % 2 ^ (8 * n), l.tags.getLsbD (pa % 64 / 16))
  | none => (0, false)
/-- The capability tags of the four granules of a block. -/
def blockTags (s : State) (pa : Nat) : BitVec 4 :=
  BitVec.ofNat 4 (((List.range 4).map fun k => if tagAt s (pa / 64 * 64 + 16 * k) then 2 ^ k else 0).sum)
/-- Room for one more line in a full cache: a line of those that may go is dropped, and which one is a free value
(R1, R211, log 24). -/
def makeRoom {α : Type} (cap ctr : Nat) (mayGo : α → Bool) (m : SMap α) : SMap α :=
  if m.length < cap then m
  else
    let keys := (m.filter fun l => mayGo l.2).map (·.1)
    SMap.erase m (keys.getD ((Config.freeWord ctr).toNat % keys.length) 0)
/-- Lines of the 64 KiB data cache and the 32 KiB instruction cache of a core. -/
def l1Lines : Nat := 1024
def l1iLines : Nat := 512
/-- Put a line in a core's L1, in place of another when it is full. -/
def l1Put (core blk : Nat) (l : L1Line) (s : State) : State :=
  let k := coreOf s core
  if (SMap.get none k.l1 blk).isSome || k.l1.length < l1Lines then
    modCore core (fun c => { c with l1 := SMap.insert c.l1 blk (some l) }) s
  else
    { modCore core (fun c => { c with l1 := SMap.insert (makeRoom l1Lines s.freeCtr (fun _ => true) c.l1) blk (some l) }) s with
      freeCtr := s.freeCtr + 1 }
/-- Put a line in a core's L1I, in place of one that is not pinned when it is full. -/
def l1iPut (core blk : Nat) (l : L1ILine) (s : State) : State :=
  let k := coreOf s core
  if (SMap.get none k.l1i blk).isSome || k.l1i.length < l1iLines then
    modCore core (fun c => { c with l1i := SMap.insert c.l1i blk (some l) }) s
  else
    { modCore core (fun c => { c with
        l1i := SMap.insert (makeRoom l1iLines s.freeCtr (fun l => l.all (!·.pinned)) c.l1i) blk (some l) }) s with
      freeCtr := s.freeCtr + 1 }

/-- Fill a line whole from its home, which holds every word that the core has written through; the owned bits stay. Words
that the read finds poisoned are not valid, and those it corrects are written back (R102, R211, R212, R221, R263). -/
def l1Fill (core pa : Nat) (s : State) : State :=
  let blk := blockOf pa
  let s := correct (blk * 64) 64 s
  let good (w : Nat) : Nat := if poisonable s pa && badWord s (2 * blk + w) then 0 else 0xFF * 2 ^ (8 * w)
  let l' : L1Line := {
    data := BitVec.ofNat 512 (peek s (blk * 64) 64)
    tags := blockTags s pa
    valid := BitVec.ofNat 16 (good 0 + good 1)
    owned := ((l1Of s core blk).getD {}).owned
    atag := BitVec.ofNat 2 (atagOf s pa) }
  l1Put core blk l' s
/-- A store that drains updates a present line and sets its owned bits; it allocates nothing (R211, R212). -/
def l1Store (core pa n x : Nat) (tag : Bool) (s : State) : State :=
  match l1Of s core (blockOf pa) with
  | none => s
  | some l =>
    let m := wordMask (pa % 64) n
    let g (k : Nat) : Bool :=
      if pa % 64 < 16 * k + 16 && 16 * k < pa % 64 + n then tag else l.tags.getLsbD k
    let l' : L1Line := { l with
      data := BitVec.ofNat 512 (mergeBytes l.data.toNat (pa % 64) n x)
      tags := BitVec.ofNat 4 (((List.range 4).map fun k => if g k then 2 ^ k else 0).sum)
      owned := l.owned ||| BitVec.ofNat 16 m }
    modCore core (fun c => { c with l1 := SMap.insert c.l1 (blockOf pa) (some l') }) s
/-- An acquire at strip scope or wider drops every word whose owned bit is clear (R213). -/
def l1Acquire (core : Nat) (s : State) : State :=
  modCore core (fun c => { c with l1 := (c.l1.map fun (b, l) =>
      (b, l.map fun l => { l with valid := l.valid &&& l.owned })).filter fun (_, l) =>
        match l with
        | some l => l.valid != 0
        | none => false }) s
/-- Buffered stores that a context has seen, which its next release publishes with its own (R266). -/
def markSeen (cid : Nat) (p : SbEntry → Bool) (s : State) : State :=
  let note (e : SbEntry) : SbEntry :=
    if e.cid == cid || !(p e) || e.seen.contains cid then e else { e with seen := e.seen ++ [cid] }
  modCore (coreNo cid) (fun k => { k with sb := k.sb.map note }) s
/-- An acquire of the issuing context at a scope: at core scope it makes the stores of the core's buffer visible (R266,
R267). -/
def acquire (scope : Nat) (s : State) : State :=
  if isThread s.cur then s else if scope == 0 then markSeen s.cur (fun _ => true) s else l1Acquire (coreNo s.cur) s

/-! ### The store buffer (R175) -/

/-- The stores a load of context `cid` may take bytes from, oldest first: the core's buffer, then the held
stores of its mirror pair (R175, R201). -/
def bufferOf (s : State) (cid : Nat) : List SbEntry :=
  (coreOf s (coreNo cid)).sb ++
    (if (firOf s cid).paired then ((s.grp.pairs.find? fun p => p.prim == cid).map (·.held)).getD [] else [])

def overlaps (a n b m : Nat) : Bool := a < b + m && b < a + n

/-- What the buffer gives a read: nothing, the bytes and tag of the youngest store that overlaps it and covers
it, or a wait. -/
inductive Fwd where
  | none
  | hit (x : Nat) (tag : Bool)
  | part
  deriving DecidableEq, Repr

def forward (s : State) (cid pa n : Nat) : Fwd :=
  match (bufferOf s cid).reverse.find? fun e => overlaps pa n e.pa e.n with
  | Option.none => .none
  | some e =>
    if e.pa ≤ pa && pa + n ≤ e.pa + e.n then .hit (e.data / 2 ^ (8 * (pa - e.pa)) % 2 ^ (8 * n)) e.tag
    else .part

/-- An atomic of the context at its strip's unit or at the fabric atomic unit has changed these bytes, and the change is not
yet at the home (R219, R264, R272). -/
def ownSau (s : State) (cid pa n : Nat) : Bool :=
  ((stripOf s (stripNo (coreNo cid))).sauWait.any fun w => w.1 == cid && overlaps pa n w.2.2.pa w.2.2.n) ||
    s.fab.fau.any fun o => o.cid == cid && overlaps pa n o.pa o.n

/-- Whether a context has an outstanding read of these bytes that is not yet performed. -/
def readPending (x : Ctx) (pa n : Nat) : Bool :=
  x.pend.any fun p => p.pieces.any fun q => q.known.isNone && overlaps pa n q.pa q.n

/-- A stream push of the context has stores that have not entered the buffer (R179). -/
def pushWaits (s : State) (cid : Nat) : Bool :=
  (coreOf s (coreNo cid)).units.any fun (_, u) =>
    match u with
    | some u => u.cid == cid && !u.out.isEmpty
    | none => false

/-! ### The fingerprint of checked execution (R201) -/

/-- One bit of the ECMA-182 CRC-64 (R201). -/
def crcStep (c : W64) (b : Bool) : W64 :=
  let t := c.getLsbD 63 != b
  if t then (c <<< 1) ^^^ 0x42F0E1EBA9EA3693 else c <<< 1
/-- `n` bits of a number folded in, high bit first. -/
def crcBits (c : W64) (x : Nat) : Nat → W64
  | 0 => c
  | n + 1 => crcBits (crcStep c (x / 2 ^ n % 2 == 1)) x n
/-- Fold stores: their addresses and data. -/
def foldStores (es : List SbEntry) (fp : W64) : W64 :=
  es.foldl (fun f e => crcBits (crcBits f e.va 64) e.data (8 * e.n)) fp
/-- Put stores in the buffer; in checked execution they are held by the pair, but those of a head that ended its interval (R201). A full
buffer stalls. -/
def pushStores (es : List SbEntry) : X Unit := do
  let s ← get
  let core := coreNo s.cur
  if (here s).fir.any (·.paired) && s.grp.pairs.any (fun p => p.prim == s.cur && p.started) then
    if (s.grp.pairs.find? fun p => p.prim == s.cur).any fun p => !p.held.isEmpty && 32 < p.held.length + es.length then
      throw (.wait .pair)
    upd (modGrp fun g => { g with pairs := g.pairs.map fun p => if p.prim == s.cur then { p with held := p.held ++ es, fp := foldStores es p.fp } else p })
  else if 32 < (coreOf s core).sb.length + es.length || pushWaits s s.cur then throw .stall
  else upd (modCore core fun c => { c with sb := c.sb ++ es })

/-! ### Checks (R347, R391) -/

/-- Check(c, n, p, align) with `ea` in place of c.address. A Prism thread names physical addresses, and only
the alignment is checked (R473). -/
def check (c : Cap) (ea n p align : Nat) : X Unit := do
  let s ← get
  unless isThread s.cur do
    ensure c.tag 0x06 ea
    ensure (CapF.inBounds c ea n) 0x07 ea
    ensure (CapF.holds c p) 0x08 ea
  ensure (ea % align == 0) 0x09 ea

/-- The base address a capability operand gives: its address, or in a Prism thread its integer value. -/
def baseAddr (s : State) (c : Cap) : Nat := if isThread s.cur then c.val.toNat % 2 ^ 57 else CapF.addr c

/-- A range lock of the core's die and the ASID that this access meets (R260). -/
def lockHit (s : State) (va n : Nat) (write : Bool) : Bool :=
  !isThread s.cur && s.cp.locks.any fun l =>
    l.die == dieOfCore (coreNo s.cur) && l.asid == (here s).asid.toNat && (l.dest || write) && va ≤ l.hi && l.lo < va + n

/-- The window rules after translation: register windows and control pages need SYS (R208). -/
def windowCheck (c : Cap) (ea pa : Nat) : X Unit := do
  let s ← get
  match spaceOf s pa with
  | .regs _ _ | .ctl _ _ => ensure (isThread s.cur || CapF.holds c CapF.SYS) 0x08 ea 2
  | _ => pure ()

/-- One translated piece of an access: virtual and physical address, bytes, leaf. -/
structure Span where
  va : Nat
  pa : Nat
  n : Nat
  attr : W64
  deriving DecidableEq, Repr

/-- The parts of `n` bytes at `a` that lie in one 64-byte line each. -/
def lineParts (a : Nat) : Nat → Nat → List (Nat × Nat)
  | 0, _ => []
  | fuel + 1, n =>
    if n == 0 then []
    else
      let k := Nat.min n (64 - a % 64)
      (a, k) :: lineParts (a + k) fuel (n - k)

/-- Translate the parts of an access, in order (R296). -/
def spansOf (kind : BitVec 8) : List (Nat × Nat) → X (List Span)
  | [] => pure []
  | (va, n) :: rest => do
    let (pa, attr) ← translate va kind
    let more ← spansOf kind rest
    pure ({ va := va, pa := pa, n := n, attr := attr } :: more)

/-- The checks of an access in the rank order of R299: capability, translation, window, range lock. -/
def access (c : Cap) (ea n p align : Nat) (kind : BitVec 8) (write : Bool) : X (List Span) := do
  check c ea n p align
  let spans ← spansOf kind (lineParts ea (n / 64 + 2) n)
  spans.forM fun sp => windowCheck c sp.va sp.pa
  let s ← get
  ensure (!lockHit s ea n write) 0x0C ea
  pure spans

/-- The replica an accessor on `die` reaches (R217). -/
def replicaPa (attr : W64) (die pa : Nat) : Nat := if hmode attr == 2 then pa + die * 0x3000000000 else pa

/-- Data of cached pages goes through the L1 (R210, R211). -/
def cacheable (s : State) (attr : W64) (pa : Nat) : Bool :=
  hmode attr != 3 && (match spaceOf s pa with
    | .hbm | .host | .remote _ _ => true
    | _ => false)

/-- A remote address that no slice caches: an uncached page, or a Prism thread's access (R54, R230). -/
def remoteDirect (s : State) (attr : W64) (pa : Nat) : Option (Nat × Nat) :=
  match spaceOf s pa with
  | .remote d off => if hmode attr == 3 || isThread s.cur then some (d, off) else none
  | _ => none

/-! ### Issuing loads and stores -/

/-- Clear the presence bit of a destination. -/
def clearDst (d : Dst) (x : Ctx) : Ctx :=
  match d with
  | .g r => clearG x r
  | .v r => clearV x r
  | .vs r n => (List.range n).foldl (fun x k => clearV x (r + k)) x
  | _ => x

/-- The issuing context with one more outstanding result, whose destination is absent (R174). -/
def withPend (dst : Dst) (pieces : List Piece) (fin : Fin_) (lat : Nat) (s : State) : State :=
  modHere (fun x => clearDst dst { x with
    pend := x.pend ++ [{ id := x.nextPend, dst := dst, pieces := pieces, fin := fin, readyAt := s.cyc + lat }]
    nextPend := x.nextPend + 1 }) s
/-- Add an outstanding result to the issuing context. -/
def addPend (dst : Dst) (pieces : List Piece) (fin : Fin_) (lat : Nat) : X Unit := upd (withPend dst pieces fin lat)

/-- RD OP of a read inside one block (R35). -/
def rdOp (off n : Nat) : Nat :=
  if off % n != 0 then 6 else if n == 1 then 0 else if n == 2 then 1 else if n == 4 then 2 else if n == 8 then 3 else 6
/-- The offset an RD names: of the bytes, or of their block. -/
def rdOff (off n : Nat) : Nat := if rdOp off n == 6 then off / 64 * 64 else off
/-- The read's bytes in the data of its RDATA. -/
def rdPart (off n : Nat) (data : BitVec 512) : Nat :=
  if rdOp off n == 6 then data.toNat / 2 ^ (8 * (off % 64)) % 2 ^ (8 * n) else data.toNat % 2 ^ (8 * n)
/-- The mark of a read that a head waits for, in place of a pending result's number. -/
def syncRead : Nat := 2 ^ 64

/-- Send the RD of a read, for a pending result of the issuing context (R35, R54). -/
def sendRead (d off n id : Nat) (s : State) : State :=
  sendSeq { ty := tRD, ddev := d, op := rdOp off n, o := true, off := rdOff off n } [] (some (s.cur, id)) true s

/-- The piece of a load at a span: bytes from the store buffer, a read that RDATA answers, or a read still to be
performed. A partial overlap with a buffered store waits in place (R175); with no route the data is poisoned with
UNREACHABLE (R39, R49). -/
def loadPiece (sp : Span) : X Piece := do
  let s ← get
  let pa := replicaPa sp.attr (dieOfCore (coreNo s.cur)) sp.pa
  if !isThread s.cur && ownSau s s.cur pa sp.n then throw .stall
  match (if isThread s.cur then .none else forward s s.cur pa sp.n), remoteDirect s sp.attr pa with
  | .part, _ => throw .stall
  | .hit x t, _ =>
    upd (markSeen s.cur fun e => overlaps pa sp.n e.pa e.n)
    pure { pa := pa, n := sp.n, known := some x, knownTag := t }
  | .none, some (d, _) =>
    if routable s d then pure { pa := pa, n := sp.n, remote := true }
    else pure { pa := pa, n := sp.n, known := some 0, bad := some 7, remote := true }
  | .none, none =>
    if !isThread s.cur then pure { pa := pa, n := sp.n, viaL1 := cacheable s sp.attr pa }
    else match homeGate s s.cur pa 0 with
      | .go =>
        if poisonAt s pa sp.n && localHbm s pa then raise 0x12 sp.va
        else
          upd (correct pa sp.n)
          let (x, t) := homeBytes s pa sp.n
          pure { pa := pa, n := sp.n, known := some x, knownTag := t }
      | .hold _ => throw .stall
      | .refuse st => raise 0x12 sp.va st

def loadPieces : List Span → X (List Piece)
  | [] => pure []
  | sp :: rest => do
    let p ← loadPiece sp
    let ps ← loadPieces rest
    pure (p :: ps)

/-- Send the RDs of the pieces that RDATA answers. -/
def sendReads (id : Nat) (ps : List Piece) (s : State) : State :=
  ps.foldl (fun s p =>
    match spaceOf s p.pa with
    | .remote d off => if p.remote && p.known.isNone then sendRead d off p.n id s else s
    | _ => s) s

/-- A load of pieces into a destination (R392, R393). -/
def issuePieces (dst : Dst) (ps : List Piece) (fin : Fin_) (lat : Nat) : X Unit := do
  let s ← get
  addPend dst ps fin lat
  upd (sendReads (here s).nextPend ps)

/-- A load of spans into a destination. -/
def issueLoad (dst : Dst) (spans : List Span) (fin : Fin_) : X Unit := do
  issuePieces dst (← loadPieces spans) fin 0

/-- The MCA field of a store-buffer entry: 1 and 2 for replicated pages with MCA 0 and 1, 3 for an uncached
page (R217, R218). -/
def storeMode (attr : W64) : Nat :=
  if hmode attr == 2 then (if attr.getLsbD 9 then 2 else 1) else if hmode attr == 3 then 3 else 0

/-- The buffer entries of data stored to spans, `x` little-endian from the first byte on. -/
def storeEntries (s : State) (cid : Nat) (tag : Bool) : List Span → Nat → List SbEntry
  | [], _ => []
  | sp :: rest, x =>
    { pa := replicaPa sp.attr (dieOfCore (coreNo cid)) sp.pa, n := sp.n, data := x % 2 ^ (8 * sp.n), tag := tag,
      cid := cid, mca := storeMode sp.attr, ep := (ctxOf s cid).ep, va := sp.va,
      home := homeOf s sp.attr (dieOfCore (coreNo cid)) sp.pa } :: storeEntries s cid tag rest (x / 2 ^ (8 * sp.n))

/-- Perform a Prism thread's store at once at its home, or send it to another device; a store that its bank cannot take
yet waits (R208, R217, R230). -/
def threadStore (e : SbEntry) : X Unit := do
  let s ← get
  match spaceOf s e.pa with
  | .remote d off =>
    if routable s d then
      upd (sendSeq { ty := tWRM, ddev := d, o := true, off := off / 64 * 64 }
        [BitVec.ofNat 512 ((2 ^ e.n - 1) * 2 ^ (off % 64)), BitVec.ofNat 512 (e.data * 2 ^ (8 * (off % 64)))] (some (s.cur, 0)) false)
    else upd (postedFail s.cur e.pa 7)
  | _ =>
    match homeGate s s.cur e.pa 1 with
    | .go => upd (homeWrite e.pa e.n e.data e.tag none s.cur)
    | .hold _ => throw .stall
    | .refuse st => upd (postedFail s.cur e.pa st)

/-- A store of data to spans: into the store buffer with physical addresses (R175, R296). -/
def issueStore (spans : List Span) (x : Nat) (tag : Bool) : X Unit := do
  let s ← get
  let es := storeEntries s s.cur tag spans x
  if isThread s.cur then
    if es.any fun e => homeGate s s.cur e.pa 1 == .hold false then throw .stall
    es.forM threadStore
  else pushStores es

/-! ### Release (R266) -/

/-- Open partial-buffer entries of the port Prisms go out as REDCs when a release at domain or system scope
begins (R243). -/
def redcOf (e : Partial) : List (BitVec 512) := [BitVec.ofNat 512 e.mask.toNat, e.data]
def flushPartials (s : State) : State :=
  (List.range 50).foldl (fun s p =>
    if p < 24 then s
    else (prismOf s p).part.foldl (fun s e =>
      match spaceOf s e.block with
      | .remote d off =>
        sendSeq { ty := tREDC, ddev := d, op := e.f + (if e.w8 then 16 else 0), o := true, off := off, scope := 4 }
          (redcOf e) (some (s.cur, 0)) false (modPrism p (fun x => { x with part := x.part.filter (· != e) }) s)
      | _ => s) s) s

/-- The address of a directory key (R238). -/
def keyBlock (k : Nat) : Nat := if k % 2 == 1 then k / 2 * 64 else k / 2 * 4096
/-- The blocks of this device under PUSH that a Prism holds marked as written (R485). -/
def pushMarks (s : State) (p : Nat) : List Nat :=
  (prismOf s p).dir.filterMap fun (k, e) =>
    if (e.any fun e => e.getLsbD 1) && protoOf s p (keyBlock k) == 3 then some (keyBlock k) else none
/-- What stands for the window of a packet in a PUSHREL that a release on this device posts: no device has it. -/
def relWin (cid : Nat) : Nat := localWin + cid
/-- A PUSHREL of a release is in the inbox of a Prism, in a run, or waits for its pushes (R248). -/
def relOut (s : State) (cid : Nat) : Bool :=
  let is (m : PMsg) : Bool := m.from_ == some (relWin cid, 0)
  (s.fab.prbWait.any fun e => e.1 == relWin cid) || s.prisms.any fun (_, x) =>
    x.req.any is || x.thr.any fun (_, r) => r.any fun r => is r.msg
/-- A release posts PUSHREL to the memory-side Prism of each home; those whose inbox is full stay to be posted (R248, R489). -/
def postPushrels (cid : Nat) (homes : List Nat) (s : State) : List Nat × State :=
  homes.foldl (fun (left, s) b =>
    let p := hbmPrism b
    if 64 ≤ (prismOf s p).req.length then (left ++ [b], s)
    else (left, postReq p { ty := 0x0D, block := b, from_ := some (relWin cid, 0),
                            requester := BitVec.ofNat 64 (2 ^ 63 + s.dev % 16384 * 2 ^ 23 + p) } s)) ([], s)
/-- Two blocks of other devices have one home: a region and a memory-side Prism (R248). -/
def sameHome (s : State) (p a b : Nat) : Bool :=
  match spaceOf s a, spaceOf s b with
  | .remote d o, .remote e q => d == e && hbmPrism o == hbmPrism q && sameRegion s p a b
  | _, _ => false
/-- The region protocol of an address of another device is PUSH: its home is noted for the next release (R248). -/
def notePush (pa : Nat) (s : State) : State :=
  let p := servingPrism s pa
  if protoOf s p pa != 3 then s
  else modPrism p (fun x => { x with marks := if x.marks.any (sameHome s p pa) then x.marks else x.marks ++ [pa / 64 * 64] }) s

/-- It sends PUSHREL to the homes of other devices that were written under PUSH since the last one (R248). -/
def sendPushrels (who : Nat) (s : State) : State :=
  (List.range 50).foldl (fun s p =>
    (prismOf s p).marks.foldl (fun s b =>
      match spaceOf s b with
      | .remote d off => sendSeq { ty := tPRB, ddev := d, op := 6, o := true, off := off / 64 * 64 } [] (some (who, 0)) false s
      | _ => s) (modPrism p (fun x => { x with marks := [] }) s)) s

/-- A held packet is a FWD of Prism `p`. -/
def fwdOf (p : Nat) (h : HeldPkt) : Bool := h.cid.any fun c => c.1 == 2 ^ 21 + p
/-- The update or push that a packet carries from its home is of a region with this protocol (R240). -/
def carries (s : State) (p proto : Nat) (k : Packet) : Bool :=
  let h := hdrOf k.hdr
  h.ty == tWR && h.op == 2 && protoOf s p (h.off / 64 * 64) == proto
/-- A FWD of a run is not acknowledged; the packet stands with `65536 * run + SEQ` (R42, R477). -/
def fwdLeft (s : State) (p run : Nat) : Bool :=
  ((outPkts s).any fun h => !h.acked && h.cid.any fun c => c.1 == 2 ^ 21 + p && c.2 / 65536 == run) ||
    (prismOf s p).spill.any fun k => k.1 / 65536 == run
/-- A Prism has updates or pushes of a protocol that are not acknowledged, or runs a handler of this message type for such
a region (R246, R248). -/
def spreads (s : State) (proto ty p : Nat) : Bool :=
  ((outPkts s).any fun h => !h.acked && fwdOf p h && carries s p proto h.pkt) ||
    (prismOf s p).spill.any (fun k => carries s p proto k.2) ||
    (prismOf s p).thr.any fun (_, r) => r.any fun r => r.msg.ty == ty && protoOf s p r.msg.block == proto

/-- A RED of the context that travels as a packet, or that the fabric atomic unit has under way, is not performed yet
(R266, R405). -/
def redsOut (s : State) (cid : Nat) : Bool :=
  (s.fab.fau.any fun o => o.cid == cid) ||
    (outPkts s).any fun h => h.cid == some (cid, syncRead) && (hdrOf h.pkt.hdr).ty == tAMO && !h.answered
/-- Stores of a firing that its mirror pair holds (R201). -/
def pairHeld (s : State) (cid : Nat) : List SbEntry :=
  if (firOf s cid).paired then ((s.grp.pairs.find? fun p => p.prim == cid).map (·.held)).getD [] else []
/-- A buffered store that a release of the context publishes: its own, or one it has seen (R266). -/
def published (cid : Nat) (e : SbEntry) : Bool := e.cid == cid || e.seen.contains cid
/-- The earlier results and stores of a context, and the stores that it has seen, are performed (R266). -/
def storesDone (s : State) (cid : Nat) : Bool :=
  isThread cid ||
    ((ctxOf s cid).pend.isEmpty && !pushWaits s cid && ((coreOf s (coreNo cid)).sb.all fun e => !published cid e) &&
      (pairHeld s cid).isEmpty && !redsOut s cid &&
      ((stripOf s (stripNo (coreNo cid))).sauWait.all fun w => w.1 != cid))
/-- What a release of the issuing context at domain or system scope starts: the open partial entries go out when it begins;
the PUSHRELs follow once the context's writes are performed, to the homes written since the last release, and those that found
no room are posted again (R243, R248). -/
def releaseBegin (scope : Nat) (s : State) : State :=
  if scope < 4 then s
  else
    let c := s.cur
    let s := if (here s).relBegun then s else modHere (fun x => { x with relBegun := true, relSent := false }) (flushPartials s)
    let s := if (here s).relSent || !storesDone s c then s
      else
        let homes := if isThread c then [] else (coreOf s (coreNo c)).pushed
        let s := if isThread c then s else modCore (coreNo c) (fun k => { k with pushed := [] }) s
        modHere (fun x => { x with relSent := true, relPush := x.relPush ++ homes }) (sendPushrels c s)
    let (left, s) := postPushrels c (here s).relPush s
    modHere (fun x => { x with relPush := left }) s

/-- The conditions of a release at a scope (R266). -/
def releaseReady (s : State) (cid scope : Nat) : Bool :=
  scope == 0 || isThread cid ||
    (storesDone s cid &&
      (scope < 3 || s.net.all fun m =>
        match m with
        | .replica _ _ _ _ _ => false
        | _ => true) &&
      ((List.range 24).all fun p => !spreads s 1 7 p) &&
      (scope < 4 || (packetsCovered s cid && (ctxOf s cid).relPush.isEmpty && !relOut s cid)))

/-- A head that performs a release: it waits as the release wait until the conditions hold (R163, R266). -/
def release (scope : Nat) : X Unit := do
  upd (releaseBegin scope)
  let s ← get
  if releaseReady s s.cur scope then pure () else throw (.wait .release)

/-- The core's store buffer holds no entry (R254). -/
def drained (s : State) : Bool := isThread s.cur || ((coreOf s (coreNo s.cur)).sb.isEmpty && !pushWaits s s.cur)

end Sys2Proof.Machine
end

