-- ==== Sys2Proof/Machine/Lanes.lean ====
section
/-! DEFINITION. What a receiving port keeps of a source and lane and what it answers: duplicate filters, performed
numbers, the result cache, ACK, NAK, ARES and RDATA (R42, R44, R45, R47 of 02_xitrum_fabric.md). Filters are numbered
`2 * source + lane`. -/

namespace Sys2Proof.Machine

def filtOf (s : State) (w : Nat) : Filter := SMap.get {} s.fab.filt w
def setFilt (w : Nat) (f : Filter) (s : State) : State := modFab (fun x => { x with filt := SMap.set {} x.filt w f }) s

/-- Raise `n` past the numbers that `ns` holds, as far as they go without a gap. -/
def runUp (ns : List Nat) : Nat → Nat → Nat
  | 0, n => n
  | k + 1, n => if ns.contains ((n + 1) % 65536) then runUp ns k ((n + 1) % 65536) else n
/-- A number lies above another, within 2,048 (R44). -/
def above (n k : Nat) : Bool := 1 ≤ (n + 65536 - k) % 65536 && (n + 65536 - k) % 65536 ≤ 2048

/-- Send the ACK of a filter: OP 0 names the lane, DONE is the number up to which all is performed (R42). -/
def sendAck (w : Nat) (s : State) : State :=
  let f := filtOf s w
  sendRaw { ty := tACK, ddev := w / 2, op := w % 2, off := f.done } [] (setFilt w { f with unacked := 0, since := none } s)

/-- A packet has been performed; an ACK goes after every 64 (R42). -/
def markPerformed (w seq : Nat) (s : State) : State :=
  let f := filtOf s w
  if localWin ≤ w || f.performed.contains seq || !above seq f.done then s
  else
    let ps := f.performed ++ [seq]
    let done := runUp ps 2048 f.done
    let s := setFilt w { f with
      performed := ps.filter fun n => above n done
      done := done
      unacked := f.unacked + 1
      since := if f.since.isNone then some s.cyc else f.since } s
    if 64 ≤ f.unacked + 1 then sendAck w s else s

/-- The key of a result-cache entry: 2,048 for each source, by number (R45). -/
def resKey (w seq : Nat) : Nat := w / 2 * 2048 + seq % 2048
def record (w seq : Nat) (val : W64) (nak pz : Bool) (s : State) : State :=
  if w % 2 == 1 then s
  else modFab (fun f => { f with rcache := SMap.insert f.rcache (resKey w seq) (some { seq := seq, val := val, nak := nak, pz := pz }) }) s

/-- The NAK of a packet (R47); OP 0 names its lane, as in an ACK. -/
def rawNak (w seq status : Nat) (s : State) : State :=
  sendRaw { ty := tNAK, ddev := w / 2, op := w % 2, off := seq + status * 2 ^ 16 } [] s
/-- Refuse a packet: the refusal is recorded, sent, and counts as its performance (R42, R45). -/
def refusePkt (w seq status : Nat) (s : State) : State :=
  if localWin ≤ w then s else markPerformed w seq (rawNak w seq status (record w seq (BitVec.ofNat 64 status) true false s))
/-- The result of an atomic (R54). -/
def rawAres (w seq : Nat) (val : W64) (pz : Bool) (s : State) : State :=
  sendRaw { ty := tARES, ddev := w / 2, off := seq, pz := pz } [BitVec.ofNat 512 val.toNat] s
def sendAres (w seq : Nat) (val : W64) (pz : Bool) (s : State) : State :=
  markPerformed w seq (rawAres w seq val pz (record w seq val false pz s))
/-- Read data: the bytes read in the low bits, or a block; PZ marks poisoned data (R35, R49). -/
def sendRdata (w seq : Nat) (data : BitVec 512) (pz : Bool) (s : State) : State :=
  markPerformed w seq (sendRaw { ty := tRDATA, ddev := w / 2, off := seq, pz := pz } [data] s)

/-! ### Packets that a Prism's run performs (R42, R246, R248) -/

/-- The marks of `prbWait`: a run, a run of PUSHREL, a write under UPD. -/
def runMark (run : Nat) (pushrel : Bool) : Nat := 4 * run + (if pushrel then 1 else 0)
def updMark : Nat := 2
/-- Everything that the performance of a packet waits for is acknowledged. -/
def prbDone (s : State) (p mark : Nat) : Bool :=
  if mark % 4 == 2 then !spreads s 1 7 p
  else !fwdLeft s p (mark / 4) && (mark % 4 == 0 || !spreads s 3 64 p)
/-- Packets whose runs and FWDs are done are performed. -/
def prbPump (s : State) : State :=
  let ready := s.fab.prbWait.filter fun e => prbDone s e.2.2.1 e.2.2.2
  if ready.isEmpty then s
  else ready.foldl (fun s e => markPerformed e.1 e.2.1 s)
    (modFab (fun f => { f with prbWait := f.prbWait.filter fun e => !ready.contains e }) s)
/-- A packet is performed once its run, which has ended, leaves nothing to be acknowledged. -/
def performedBy (p mark : Nat) (from_ : Option (Nat × Nat)) (s : State) : State :=
  match from_ with
  | none => s
  | some (w, seq) => prbPump (modFab (fun f => { f with prbWait := f.prbWait ++ [(w, seq, p, mark)] }) s)

end Sys2Proof.Machine
end

