-- ==== Sys2Proof/Machine/Flags.lean ====
section
/-! DEFINITION. Number formats, rounding and the floating-point flags (R309 to R328 of
11_number_formats.md). A finite value is exact: sign, magnitude and a power of two. -/

namespace Sys2Proof.Machine

/-- The bits of FPFLAGS (R327). -/
abbrev FFlags := BitVec 6
def fNX : FFlags := 1
def fUF : FFlags := 2
def fOF : FFlags := 4
def fDZ : FFlags := 8
def fNV : FFlags := 16
def fQR : FFlags := 32

/-- A value: NaN, an infinity, or `m * 2^e` with a sign that zero keeps. -/
inductive Val where
  | nan
  | inf (neg : Bool)
  | num (neg : Bool) (m : Nat) (e : Int)
  deriving DecidableEq, Repr

/-- An IEEE format: exponent bits, mantissa bits (R315). -/
structure Ieee where
  eb : Nat
  mb : Nat
  deriving DecidableEq, Repr

def fp32 : Ieee := ⟨8, 23⟩
def bf16 : Ieee := ⟨8, 7⟩
def fp16 : Ieee := ⟨5, 10⟩

namespace Ieee
def bias (f : Ieee) : Int := (2 ^ (f.eb - 1) : Nat) - 1
def emin (f : Ieee) : Int := 1 - f.bias
/-- The code of infinity without its sign. -/
def infCode (f : Ieee) : Nat := (2 ^ f.eb - 1) * 2 ^ f.mb
def signBit (f : Ieee) (neg : Bool) : Nat := if neg then 2 ^ (f.eb + f.mb) else 0
/-- The canonical NaN (R315). -/
def nanCode (f : Ieee) : Nat := f.infCode + 2 ^ (f.mb - 1)
end Ieee

/-- The value of a code (R315). -/
def decodeIeee (f : Ieee) (x : Nat) : Val :=
  let neg := bitsOf x (f.eb + f.mb) (f.eb + f.mb) == 1
  let ex := bitsOf x (f.eb + f.mb - 1) f.mb
  let m := x % 2 ^ f.mb
  if ex == 2 ^ f.eb - 1 then (if m == 0 then .inf neg else .nan)
  else if ex == 0 then .num neg m (f.emin - f.mb)
  else .num neg (2 ^ f.mb + m) ((ex : Int) - f.bias - f.mb)

/-- `m * 2^sh` rounded to nearest even, and whether anything was lost. -/
def halfEven (m : Nat) (sh : Int) : Nat × Bool :=
  if 0 ≤ sh then (m * 2 ^ sh.toNat, false)
  else
    let d := 2 ^ (-sh).toNat
    let q := m / d
    let r := m % d
    (if 2 * r < d then q else if 2 * r > d then q + 1 else if q % 2 == 0 then q else q + 1, r != 0)

/-- The exponent of the leading bit of `m * 2^e`. -/
def topExp (m : Nat) (e : Int) : Int := (Nat.log2 m : Int) + e

/-- The code of a positive value on a grid with least exponent `emin` and `mb` mantissa bits, exponents
unbounded above, and whether it is inexact. -/
def gridCode (emin : Int) (mb : Nat) (m : Nat) (e : Int) : Nat × Bool :=
  let p := topExp m e
  let q : Int := (if p < emin then emin else p) - mb
  let (r, ix) := halfEven m (e - q)
  ((q - (emin - mb)).toNat * 2 ^ mb + r, ix)

/-- Round(x, fmt) of R346: code and flags (R315, R319). -/
def roundIeee (f : Ieee) (v : Val) : Nat × FFlags :=
  match v with
  | .nan => (f.nanCode, 0)
  | .inf n => (f.signBit n + f.infCode, 0)
  | .num n 0 _ => (f.signBit n, 0)
  | .num n m e =>
    let (c, ix) := gridCode f.emin f.mb m e
    if f.infCode ≤ c then (f.signBit n + f.infCode, fOF ||| fNX)
    else (f.signBit n + c, (if ix then fNX else 0) ||| (if ix && c < 2 ^ f.mb then fUF else 0))

/-! ### Exact operations (R316) -/

def Val.neg : Val → Val
  | .nan => .nan
  | .inf n => .inf !n
  | .num n m e => .num (!n) m e
def Val.isNan : Val → Bool
  | .nan => true
  | _ => false
def Val.isInf : Val → Bool
  | .inf _ => true
  | _ => false
def Val.isZero : Val → Bool
  | .num _ 0 _ => true
  | _ => false
def Val.negative : Val → Bool
  | .nan => false
  | .inf n => n
  | .num n _ _ => n

/-- A signed integer at a common exponent. -/
def signedMag (n : Bool) (m : Nat) : Int := if n then -(m : Int) else m

/-- The exact sum, with NV for infinity minus infinity; an exact zero is +0 unless both terms are -0. -/
def addVal (a b : Val) : Val × FFlags :=
  match a, b with
  | .nan, _ => (.nan, 0)
  | _, .nan => (.nan, 0)
  | .inf n, .inf k => if n == k then (.inf n, 0) else (.nan, fNV)
  | .inf n, _ => (.inf n, 0)
  | _, .inf n => (.inf n, 0)
  | .num n m e, .num k l f =>
    let lo := if e < f then e else f
    let x := signedMag n (m * 2 ^ (e - lo).toNat) + signedMag k (l * 2 ^ (f - lo).toNat)
    if x == 0 then (.num (n && k && m == 0 && l == 0) 0 lo, 0) else (.num (decide (x < 0)) x.natAbs lo, 0)

/-- The exact product, with NV for 0 times infinity. -/
def mulVal (a b : Val) : Val × FFlags :=
  match a, b with
  | .nan, _ => (.nan, 0)
  | _, .nan => (.nan, 0)
  | .inf n, y => if y.isZero then (.nan, fNV) else (.inf (n != y.negative), 0)
  | x, .inf n => if x.isZero then (.nan, fNV) else (.inf (n != x.negative), 0)
  | .num n m e, .num k l f => (.num (n != k) (m * l) (e + f), 0)

/-- `a * b + c`, exact: rounded once by the caller. A NaN operand gives NaN without NV (R316). -/
def fmaVal (a b c : Val) : Val × FFlags :=
  if c.isNan then (.nan, 0)
  else
    let (p, f) := mulVal a b
    let (r, g) := addVal p c
    (r, f ||| g)

/-- a below b for values that are not NaN, with -0 below +0 (R316). -/
def ltVal (a b : Val) : Bool :=
  match a, b with
  | .nan, _ => false
  | _, .nan => false
  | .inf n, .inf k => n && !k
  | .inf n, _ => n
  | _, .inf k => !k
  | .num n m e, .num k l f =>
    let lo := if e < f then e else f
    let x := signedMag n (m * 2 ^ (e - lo).toNat)
    let y := signedMag k (l * 2 ^ (f - lo).toNat)
    decide (x < y) || (x == y && x == 0 && n && !k)
/-- Equality of values: -0 equals +0. -/
def eqVal (a b : Val) : Bool := !a.isNan && !b.isNan && !ltVal a b && !ltVal b a || (a.isZero && b.isZero)
/-- Numerical order for VCMP: -0 equals +0. -/
def ltNum (a b : Val) : Bool := ltVal a b && !(a.isZero && b.isZero)
/-- Minimum and maximum (R316). -/
def minVal (a b : Val) : Val := if a.isNan then b else if b.isNan then a else if ltVal b a then b else a
def maxVal (a b : Val) : Val := if a.isNan then b else if b.isNan then a else if ltVal a b then b else a

/-- FP32 add and maximum at a home, without flags (R402). -/
def fadd32 (x y : Nat) : Nat := (roundIeee fp32 (addVal (decodeIeee fp32 x) (decodeIeee fp32 y)).1).1
def fmax32 (x y : Nat) : Nat := (roundIeee fp32 (maxVal (decodeIeee fp32 x) (decodeIeee fp32 y))).1

/-- An integer as a value. -/
def ofInt (x : Int) : Val := .num (decide (x < 0)) x.natAbs 0

/-- A value rounded to nearest even to an integer of `n` bits, saturated (R320). -/
def toIntSat (n : Nat) (v : Val) : Int × FFlags :=
  let hi : Int := 2 ^ (n - 1) - 1
  let lo : Int := -(2 ^ (n - 1))
  match v with
  | .nan => (0, fNV)
  | .inf s => (if s then lo else hi, fNV)
  | .num s m e =>
    let (r, ix) := halfEven m e
    let x := signedMag s r
    if hi < x then (hi, fNV) else if x < lo then (lo, fNV) else (x, if ix then fNX else 0)

/-! ### Format registers and narrow formats (R309 to R314) -/

namespace Fmt
def cls (f : W64) : Nat := bitsOf f.toNat 22 20
def ovf (f : W64) : Bool := f.getLsbD 19
def spec (f : W64) : Nat := bitsOf f.toNat 18 17
def bias (f : W64) : Int := signedOf 8 (bitsOf f.toNat 16 9)
def s (f : W64) : Nat := bitsOf f.toNat 8 8
def e (f : W64) : Nat := bitsOf f.toNat 7 4
def m (f : W64) : Nat := bitsOf f.toNat 3 0
/-- Bits of a code. -/
def bits (f : W64) : Nat := s f + e f + m f
/-- A value MTC may write (R309). -/
def ok (f : W64) : Bool :=
  f.toNat < 2 ^ 23 && cls f ≤ 4 && spec f ≤ 2 && e f ≤ 8 && m f ≤ 8 &&
    (cls f != 1 || (2 ≤ bits f && bits f ≤ 8)) && (spec f == 0 || 2 ≤ e f) && ((spec f == 0 && !ovf f) || e f != 0) &&
    (cls f < 2 || f.toNat % 2 ^ 20 == 0)
/-- Bits of an element in memory: 4 or 8 for a narrow one, 32 or 16 (R311). -/
def elemBits (f : W64) : Nat :=
  match cls f with
  | 1 => if bits f ≤ 4 then 4 else 8
  | 2 => 32
  | _ => 16
/-- The largest code magnitude that is finite (R314). -/
def maxCode (f : W64) : Nat :=
  if e f == 0 then 2 ^ m f - 1
  else (if spec f == 0 then 2 ^ e f - 1 else 2 ^ e f - 2) * 2 ^ m f + (2 ^ m f - 1)
def signCode (f : W64) (neg : Bool) : Nat := if neg && s f == 1 then 2 ^ (e f + m f) else 0
/-- The NaN code: sign 0, x = X, f all ones (R319). -/
def nanCode (f : W64) : Nat := 2 ^ (e f + m f) - 1
end Fmt

/-- The value of a narrow code (R312, R313). -/
def decodeNarrow (f : W64) (code : Nat) : Val :=
  let c := code % 2 ^ Fmt.bits f
  if Fmt.e f == 0 then
    let x : Int := if Fmt.s f == 1 then signedOf (Fmt.bits f) c else c
    .num (decide (x < 0)) x.natAbs (-Fmt.bias f)
  else
    let neg := Fmt.s f == 1 && c / 2 ^ (Fmt.e f + Fmt.m f) == 1
    let x := c / 2 ^ Fmt.m f % 2 ^ Fmt.e f
    let fr := c % 2 ^ Fmt.m f
    if x == 2 ^ Fmt.e f - 1 && Fmt.spec f == 1 then .nan
    else if x == 2 ^ Fmt.e f - 1 && Fmt.spec f == 2 then (if fr == 0 then .inf neg else .nan)
    else if x == 0 then .num neg fr (1 - Fmt.bias f - Fmt.m f)
    else .num neg (2 ^ Fmt.m f + fr) ((x : Int) - Fmt.bias f - Fmt.m f)

/-- The code an overflow gives (R319 step 5). -/
def overCode (f : W64) (neg : Bool) : Nat :=
  if Fmt.e f == 0 then
    (if neg && Fmt.s f == 1 then 2 ^ Fmt.m f else if neg then 0 else 2 ^ Fmt.m f - 1)
  else if Fmt.ovf f && Fmt.spec f == 2 then Fmt.signCode f neg + (2 ^ Fmt.e f - 1) * 2 ^ Fmt.m f
  else if Fmt.ovf f && Fmt.spec f == 1 then Fmt.nanCode f
  else Fmt.signCode f neg + Fmt.maxCode f

/-- Encode of R319: code, flags, and whether it overflowed. -/
def encodeNarrow (f : W64) (v : Val) : Nat × FFlags × Bool :=
  let neg := v.negative
  match v with
  | .nan => if Fmt.spec f == 0 then (0, fNV, false) else (Fmt.nanCode f, 0, false)
  | .num _ 0 _ => (if Fmt.e f == 0 then 0 else Fmt.signCode f neg, 0, false)
  | v =>
    if Fmt.s f == 0 && neg then (0, fNV, false)
    else match v with
      | .num _ m e =>
        if Fmt.e f == 0 then
          let (r, ix) := halfEven m (e + Fmt.bias f)
          let top := if neg then 2 ^ Fmt.m f else 2 ^ Fmt.m f - 1
          if top < r then (overCode f neg, fOF ||| fNX, true)
          else
            ((if neg then 2 ^ Fmt.bits f - r else r) % 2 ^ Fmt.bits f,
              (if ix then fNX else 0) ||| (if ix && r == 0 then fUF else 0), false)
        else
          let (c, ix) := gridCode (1 - Fmt.bias f) (Fmt.m f) m e
          if Fmt.maxCode f < c then (overCode f neg, fOF ||| fNX, true)
          else (Fmt.signCode f neg + c, (if ix then fNX else 0) ||| (if ix && c < 2 ^ Fmt.m f then fUF else 0), false)
      | _ => (overCode f neg, fOF ||| fNX, true)

/-- A value times a block scale (R317). -/
def scaleVal (u : Nat) (v : Val) : Val :=
  if u == 0xFF then .nan
  else match v with
    | .num n m e => .num n m (e + ((u : Int) - 127))
    | v => v
/-- A value divided by a block scale. -/
def unscaleVal (u : Nat) (v : Val) : Val :=
  match v with
  | .num n m e => .num n m (e + (127 - (u : Int)))
  | v => v

/-- The value of an element of a format (R312, R315). -/
def decodeElem (f : W64) (code : Nat) : Val :=
  match Fmt.cls f with
  | 1 => decodeNarrow f code
  | 2 => decodeIeee fp32 (code % 2 ^ 32)
  | 3 => decodeIeee bf16 (code % 2 ^ 16)
  | _ => decodeIeee fp16 (code % 2 ^ 16)

/-- A matrix input: BF16 subnormals are zero with their sign (R321). -/
def matrixElem (f : W64) (code : Nat) : Val :=
  match decodeElem f code with
  | .num n m e => if Fmt.cls f == 3 && m < 2 ^ 7 then .num n 0 e else .num n m e
  | v => v

/-! ### The matrix path (R321, R322) -/

/-- One group of products and the element's value: FP32 code and flags (R322). -/
def groupSum (ps : List (Val × FFlags)) (c : Nat) : Nat × FFlags :=
  let fl := ps.foldl (fun a p => a ||| p.2) 0
  let terms := ps.map (·.1) ++ [decodeIeee fp32 c]
  if terms.any Val.isNan then (fp32.nanCode, fl)
  else if terms.any (fun t => t == .inf true) && terms.any (fun t => t == .inf false) then (fp32.nanCode, fl ||| fNV)
  else match terms.find? Val.isInf with
    | some (.inf n) => (fp32.signBit n + fp32.infCode, fl)
    | _ =>
      let nz := terms.filter fun t => !t.isZero
      match nz with
      | [] => (if terms.all Val.negative then fp32.signBit true else 0, fl)
      | _ =>
        let exps := nz.map fun t =>
          match t with
          | .num _ m e => topExp m e
          | _ => 0
        let emax := exps.foldl (fun a b => if a < b then b else a) (exps.headD 0)
        let q := emax - 40
        let s : Int := nz.foldl (fun a t =>
          match t with
          | .num n m e =>
            let k := e - q
            a + signedMag n (if 0 ≤ k then m * 2 ^ k.toNat else m / 2 ^ (-k).toNat)
          | _ => a) 0
        let (code, g) := roundIeee fp32 (.num (decide (s < 0)) s.natAbs q)
        (code, fl ||| (g &&& fOF))

/-- Products in groups of 16, in increasing K order (R322). -/
def groupsSum : Nat → List (Val × FFlags) → Nat → Nat × FFlags
  | 0, _, c => (c, 0)
  | n + 1, ps, c =>
    match ps with
    | [] => (c, 0)
    | _ =>
      let (c', f) := groupSum (ps.take 16) c
      let (c'', g) := groupsSum n (ps.drop 16) c'
      (c'', f ||| g)

/-! ### Vector functions (R326) -/

/-- The integer square root, by `fuel` bits. -/
def isqrtFrom (n : Nat) : Nat → Nat → Nat
  | 0, r => r
  | k + 1, r => if (r + 2 ^ k) * (r + 2 ^ k) ≤ n then isqrtFrom n k (r + 2 ^ k) else isqrtFrom n k r
def isqrt (n : Nat) : Nat := isqrtFrom n (Nat.log2 n / 2 + 1) 0

/-- The FP32 code at or just below a positive value, with its exactness. -/
def floorCode (m : Nat) (e : Int) : Nat × Bool :=
  let p := topExp m e
  let q : Int := (if p < fp32.emin then fp32.emin else p) - 23
  let k := e - q
  let (r, ex) := if 0 ≤ k then (m * 2 ^ k.toNat, true) else (m / 2 ^ (-k).toNat, m % 2 ^ (-k).toNat == 0)
  ((q - (fp32.emin - 23)).toNat * 2 ^ 23 + r, ex)

/-- The square root of `m * 2^e`, with a sticky bit below the kept ones. -/
def sqrtNum (m : Nat) (e : Int) : Nat × Int :=
  let sh : Nat := if (e - 120) % 2 == 0 then 120 else 121
  let n := m * 2 ^ sh
  let r := isqrt n
  (2 * r + (if r * r == n then 0 else 1), (e - sh) / 2 - 1)

/-- VSQRT (R326). -/
def vsqrt (v : Val) : Val × FFlags :=
  match v with
  | .nan => (.nan, 0)
  | .inf n => if n then (.nan, fNV) else (.inf false, 0)
  | .num n 0 e => (.num n 0 e, 0)
  | .num n m e => if n then (.nan, fNV) else (let (r, k) := sqrtNum m e; (.num false r k, 0))

/-- A power of two. -/
def isPow2 (m : Nat) : Bool := m == 2 ^ Nat.log2 m

/-- An FP32 code as a value, `d` codes above another, which a free value picks (log 8). -/
def codeVal (neg : Bool) (c : Nat) : Val := decodeIeee fp32 ((if neg then 2 ^ 31 else 0) + Nat.min c fp32.infCode)

/-- VRCP: within 1 ulp; powers of two exact (R326). -/
def vrcp (x : Nat) : Val × FFlags :=
  match decodeIeee fp32 x with
  | .nan => (.nan, 0)
  | .inf n => (.num n 0 0, 0)
  | .num n 0 _ => (.inf n, fDZ)
  | .num n m e =>
    if isPow2 m && fp32.emin ≤ -(topExp m e) then (.num n 1 (-(topExp m e)), 0)
    else
      let q := 2 ^ 100 / m
      let (c, _) := floorCode q (-e - 100)
      (codeVal n (c + Config.ulpPick 0 (BitVec.ofNat 32 x) % 2), 0)

/-- VRSQ: within 2 ulp; even powers of two exact (R326). -/
def vrsq (x : Nat) : Val × FFlags :=
  match decodeIeee fp32 x with
  | .nan => (.nan, 0)
  | .inf n => if n then (.nan, fNV) else (.num false 0 0, 0)
  | .num n 0 _ => (.inf n, fDZ)
  | .num n m e =>
    if n then (.nan, fNV)
    else if isPow2 m && topExp m e % 2 == 0 then (.num false 1 (-(topExp m e) / 2), 0)
    else
      let (r, k) := sqrtNum m e
      let (c, _) := floorCode (2 ^ 200 / r) (-k - 200)
      (codeVal false (c + 2 - Config.ulpPick 1 (BitVec.ofNat 32 x) % 4), 0)

/-- Fixed-point 2^(2^-i) with 100 fraction bits, by repeated square roots. -/
def rootTwo : Nat → Nat
  | 0 => 2 ^ 101
  | i + 1 => isqrt (rootTwo i * 2 ^ 100)

/-- 2^f for a fraction of `n` bits given from its top bit down, with 100 fraction bits. -/
def expBits (frac n : Nat) : Nat → Nat → Nat → Nat
  | 0, _, acc => acc
  | k + 1, root, acc =>
    let i := n - (k + 1)
    let root' := isqrt (root * 2 ^ 100)
    expBits frac n k root' (if frac / 2 ^ (n - 1 - i) % 2 == 1 then acc * root' / 2 ^ 100 else acc)

/-- 2^x for `x = m * 2^e` signed: exponent and 100-bit significand in [1, 2). -/
def exp2Parts (neg : Bool) (m : Nat) (e : Int) : Int × Nat :=
  let fx : Int := signedMag neg (if -64 ≤ e then m * 2 ^ (e + 64).toNat else m / 2 ^ (-64 - e).toNat)
  let ip := fx / 2 ^ 64
  (ip, expBits (fx % 2 ^ 64).toNat 64 64 (2 ^ 101) (2 ^ 100))

/-- VEXP2: within 2 ulp; integers exact (R326). -/
def vexp2 (x : Nat) : Val × FFlags :=
  match decodeIeee fp32 x with
  | .nan => (.nan, 0)
  | .inf n => if n then (.num false 0 0, fUF) else (.inf false, fOF)
  | .num n m e =>
    let v : Val := .num n m e
    if !ltNum v (ofInt 128) then (.inf false, fOF)
    else if ltNum v (ofInt (-200)) then (codeVal false (Config.ulpPick 2 (BitVec.ofNat 32 x) % 2), fUF)
    else
      let (ip, sig) := exp2Parts n m e
      let isInt := (halfEven m e).2 == false
      let uf := if ltNum v (ofInt (-126)) then fUF else 0
      if isInt && (-149 : Int) ≤ ip then (.num false 1 ip, uf)
      else
        let (c, _) := floorCode sig (ip - 100)
        let d := Config.ulpPick 2 (BitVec.ofNat 32 x) % 4
        (codeVal false (if c == 0 && d == 3 then 0 else c + 2 - d), uf)

/-- Fraction bits of log2 of a significand with 100 fraction bits, by repeated squaring. -/
def logBits : Nat → Nat → Nat → Nat
  | 0, _, acc => acc
  | k + 1, y, acc =>
    let y2 := y * y / 2 ^ 100
    if 2 ^ 101 ≤ y2 then logBits k (y2 / 2) (2 * acc + 1) else logBits k y2 (2 * acc)

/-- VLOG2: within 2 ulp, or 2^-22 absolute in [0.5, 2]; powers of two exact (R326). -/
def vlog2 (x : Nat) : Val × FFlags :=
  match decodeIeee fp32 x with
  | .nan => (.nan, 0)
  | .inf n => if n then (.nan, fNV) else (.inf false, 0)
  | .num _ 0 _ => (.inf true, fDZ)
  | .num n m e =>
    if n then (.nan, fNV)
    else if isPow2 m then (ofInt (topExp m e), 0)
    else
      let p := topExp m e
      let sig := m * 2 ^ (100 - Nat.log2 m)
      let fx : Int := p * 2 ^ 70 + logBits 70 sig 0
      let pick := Config.ulpPick 3 (BitVec.ofNat 32 x)
      if p == -1 || p == 0 then
        let off : Int := (pick % (2 ^ 48 - 2 ^ 46) : Nat) - (2 ^ 47 - 2 ^ 45 : Nat)
        let y := fx + off
        (.num (decide (y < 0)) y.natAbs (-70), 0)
      else
        let (c, _) := floorCode fx.natAbs (-70)
        (codeVal (decide (fx < 0)) (c + 2 - pick % 4), 0)

/-- log2(e) with 100 fraction bits. -/
def log2e : Nat := 1828833234529184422442202814989

/-- VTANH: within 2 ulp; ±1 from 9 on (R326). -/
def vtanh (x : Nat) : Val × FFlags :=
  match decodeIeee fp32 x with
  | .nan => (.nan, 0)
  | .inf n => (.num n 1 0, 0)
  | .num n 0 e => (.num n 0 e, 0)
  | .num n m e =>
    let pick := Config.ulpPick 4 (BitVec.ofNat 32 x)
    if !ltNum (.num false m e) (ofInt 9) then (.num n 1 0, 0)
    else if topExp m e < -13 then
      let (c, _) := floorCode m e
      (codeVal n (c - pick % 2), 0)
    else
      let (ip, sig) := exp2Parts false (2 * m * log2e) (e - 100)
      let y := sig * 2 ^ ip.toNat
      let (c, _) := floorCode ((y - 2 ^ 100) * 2 ^ 120 / (y + 2 ^ 100)) (-120)
      (codeVal n (Nat.min (c + 2 - pick % 4) 0x3F800000), 0)

/-! ### The quantiser (R323) -/

/-- EMAXF of a narrow format (R314). -/
def emaxf (f : W64) : Int :=
  match decodeNarrow f (Fmt.maxCode f) with
  | .num _ m e => topExp m e
  | _ => 0

/-- Whether the format represents a special value: NaN under SPEC 1 or 2, infinity under SPEC 2. -/
def fmtHolds (f : W64) (v : Val) : Bool :=
  match v with
  | .nan => Fmt.spec f != 0
  | .inf _ => Fmt.spec f == 2
  | _ => true

/-- The ladder: scale, raises so far; at most `fuel` further raises. -/
def quantLadder (f : W64) (xs : List Val) : Nat → Nat → FFlags → Nat × FFlags
  | 0, s, g => (s, g)
  | fuel + 1, s, g =>
    let tooBig := xs.any fun x => !x.isNan && !x.isInf && (encodeNarrow f (unscaleVal s x)).2.2
    if !tooBig || s == 254 then (s, g) else quantLadder f xs fuel (s + 1) (g ||| fQR)

/-- A block's scale byte, codes and flags (R323). -/
def quantBlock (f : W64) (xs : List Val) (given : Option Nat) : Nat × List Nat × FFlags :=
  let bad := xs.any fun x => !fmtHolds f x
  let nanBlock : Nat × List Nat × FFlags := (0xFF, xs.map fun _ => 0, fNV)
  match given with
  | some 0xFF => nanBlock
  | _ =>
    if given.isNone && bad then nanBlock
    else
      let exps := xs.filterMap fun x =>
        match x with
        | .num _ m e => if m == 0 then none else some (topExp m e)
        | _ => none
      let own : Nat :=
        match exps with
        | [] => 0
        | a :: r =>
          let t := r.foldl (fun a b => if a < b then b else a) a - emaxf f + 127
          if t < 0 then 0 else if 254 < t then 254 else t.toNat
      let (s, g) := quantLadder f xs 3 (given.getD own) 0
      let ys := xs.map fun x => encodeNarrow f (unscaleVal s x)
      (s, ys.map (·.1), ys.foldl (fun a y => a ||| y.2.1) g)

end Sys2Proof.Machine
end

