-- ==== Sys2Proof/Machine/Front.lean ====
section
/-! DEFINITION. What the command front end shares with the rest of the device: queue lookup, failures
(R110), its memory accesses (R487), completion signals (R116) and packet completion (R115) of
05_command_stream.md. -/

namespace Sys2Proof.Machine

/-- The queue of a slot. -/
def slotQ (s : State) (k : Nat) : Option Queue := SMap.get none s.fe.slots k
def setSlotQ (k : Nat) (q : Option Queue) (s : State) : State :=
  modFe (fun f => { f with slots := SMap.set none f.slots k q }) s
/-- Change every mapped or kept queue that satisfies `p`. -/
def modQ (p : Queue → Bool) (g : Queue → Queue) (s : State) : State :=
  modFe (fun f => { f with
    slots := f.slots.map fun (k, q) => (k, q.map fun x => if p x then g x else x)
    off := f.off.map fun x => if p x then g x else x }) s
/-- All queues, mapped and kept. -/
def allQs (s : State) : List Queue := s.fe.slots.filterMap (·.2) ++ s.fe.off
def isQ (fn qidx : Nat) (q : Queue) : Bool := q.fn == fn && q.qidx == qidx

/-- The I/O virtual address of a queue's descriptor (R107, R108). -/
def descAddr (s : State) (fn qidx : Nat) : Nat := (fnOf s fn).qdirbase.toNat / 4096 * 4096 + 64 * qidx

/-- Fail a queue: it issues nothing more; ERR and FAIL go to the descriptor and vector 1 is raised (R110). -/
def failQueue (fn qidx err : Nat) (s : State) : State :=
  let d := descAddr s fn qidx
  if (allQs s).any fun q => isQ fn qidx q && q.failed then s
  else
  let s := modQ (isQ fn qidx) (fun q => { q with failed := true, err := err }) s
  let s := hostPoke fn (d + 0x1F) 1 err s
  vecEvent fn 1 (hostPoke fn (d + 0x19) 1 (Nat.lor (hostPeek s fn (d + 0x19) 1) 0x40) s)

/-- How an access of the front end ends: a physical address, a translation fault, a refusal, or held. -/
inductive FeRes where
  | ok (pa : Nat) (attr : W64)
  | fault (cause level : Nat)
  | refused
  | held
  deriving DecidableEq, Repr

/-- The party that the front end is among the suspended accesses, and its requester word (R232). -/
def feCid : Nat := 2 ^ 27
def feReq (s : State) : Nat := 2 ^ 63 + s.dev % 16384 * 2 ^ 23 + 0x3F

/-- An uncached page of another device, which RD and WR reach (R54). -/
def feDirect (s : State) (attr : W64) (pa : Nat) : Option (Nat × Nat) :=
  match spaceOf s pa with
  | .remote d off => if hmode attr == 3 then some (d, off) else none
  | _ => none
/-- The blocks of an access. -/
def blocksOf (pa n : Nat) : List Nat := (List.range ((pa + n - 1) / 64 - pa / 64 + 1)).map fun k => 64 * (pa / 64 + k)
/-- The mark of a read of the front end: its ASID and block are in the number. -/
def feMark (asid blk : Nat) : Nat := 2 ^ 70 + asid * 2 ^ 57 + blk % 2 ^ 57
/-- Read bytes that no slice caches from another device: an RD for each block, and then the data (R54, R487). -/
def feRemote (asid d pa n : Nat) (attr : W64) (s : State) : FeRes × State :=
  let state (b : Nat) : Option (Option Nat) := (s.fe.got.find? fun g => g.1 == asid && g.2.1 == b).map (·.2.2)
  if !routable s d then (.refused, s)
  else match (blocksOf pa n).find? fun b => state b != some (some 0) with
    | none => (.ok pa attr, s)
    | some b =>
      match state b with
      | some (some _) => (.refused, modFe (fun f => { f with got := f.got.filter fun g => !(g.1 == asid && g.2.1 == b) }) s)
      | some none => (.held, s)
      | none =>
        let s := modFe (fun f => { f with got := f.got ++ [(asid, b, none)] }) s
        (.held, sendSeq { ty := tRD, ddev := d, op := 6, o := true, off := b % 2 ^ 41 } [] (some (feCid, feMark asid b)) true s)
/-- What the front end has read of such pages for an ASID is used: a later access reads again. -/
def feUsed (asid : Nat) (s : State) : State :=
  if s.fe.got.isEmpty then s else modFe (fun f => { f with got := f.got.filter fun g => !(g.1 == asid && g.2.2.isSome) }) s
/-- An RD of the front end is answered: the bytes stand at the block's address, or the refusal is kept. -/
def feAnswer (mark : Nat) (ans : Nat) (data : BitVec 512) (s : State) : State :=
  let asid := (mark - 2 ^ 70) / 2 ^ 57
  let b := mark % 2 ^ 57
  let s := if ans == 0 && (SMap.get none s.ms.l2 (blockOf b)).isNone then clearTags b 64 (poke b 64 data.toNat s) else s
  modFe (fun f => { f with got := f.got.map fun g => if g.1 == asid && g.2.1 == b then (asid, b, some ans) else g }) s

/-- Translate and check an access of the front end in a queue's ASID, at supervisor level (R487, log 14). -/
def feAccess (s : State) (asid va n : Nat) (write : Bool) : FeRes × State :=
  match engineWalk s asid va ((if write then kWrite else kRead) ||| kEngine) false with
  | (.error (c, l), s) => (.fault c l, s)
  | (.ok (pa, attr), s) =>
    let pa := replicaPa attr 0 pa
    let ty := if write then 1 else 0
    match feDirect s attr pa with
    | some (d, _) => if write then (if routable s d then (.ok pa attr, s) else (.refused, s)) else feRemote asid d pa n attr s
    | none =>
    match homeGate s feCid pa ty with
    | .refuse _ => (.refused, unsuspend pa ty feCid s)
    | .hold post => (.held, suspendAs pa ty feCid (feReq s) post s)
    | .go =>
      let s := unsuspend pa ty feCid s
      if write then (.ok pa attr, s)
      else if poisonable s pa && poisonAt s pa n then (.refused, s) else (.ok pa attr, correct pa n s)

/-- A store of the front end at its home, at every replica of a replicated page, or at another device; `id` is the packet that
completes with it (R54, R115, R217). -/
def feStoreAs (id : Nat) (attr : W64) (pa n x : Nat) (s : State) : State :=
  match feDirect s attr pa with
  | some (d, off) =>
    sendSeq { ty := tWRM, ddev := d, o := true, off := off / 64 * 64 }
      [BitVec.ofNat 512 ((2 ^ n - 1) * 2 ^ (off % 64)), BitVec.ofNat 512 (x * 2 ^ (8 * (off % 64)))] (some (feCid, id)) false (notePush pa s)
  | none =>
  let all := if hmode attr == 2 then (List.range 4).map fun d => pa % 0x3000000000 + d * 0x3000000000 else [pa]
  all.foldl (fun s a => homeWrite a n x false none feCid s) s
def feStore (attr : W64) (pa n x : Nat) (s : State) : State := feStoreAs 0 attr pa n x s

/-- Park a queue on a translation fault of the front end (R121, R487). A table with a reserved bit set is no fault that
a handler can answer (R299): the queue fails with ERR 8. -/
def feFault (q : Queue) (va cause level : Nat) (write : Bool) (s : State) : State :=
  if cause == 3 then failQueue q.fn q.qidx 8 s
  else
    let s := modQ (isQ q.fn q.qidx) (fun q => { q with parked := true }) s
    openFault (mkFault s q.asid va cause level 0 ((if write then kWrite else kRead) ||| kEngine) false) (.queue (1024 * q.fn + q.qidx)) s

/-- The completion-signal word: STATUS and CYC (R116). -/
def signalWord (s : State) (status : Nat) : Nat := status % 256 * 2 ^ 56 + s.cyc % 2 ^ 56

/-- Write the waiting signals of a queue in order, at most `n`; a fault parks the queue, a refusal or a
misaligned address fails it (R116, R487). -/
def drainSignals (fn qidx : Nat) : Nat → State → State
  | 0, s => s
  | n + 1, s =>
    match (allQs s).find? (isQ fn qidx) with
    | none => s
    | some q =>
      match q.sigs with
      | [] => s
      | (a, st) :: rest =>
        let drop (s : State) : State := modQ (isQ fn qidx) (fun q => { q with sigs := rest }) s
        if q.parked then s
        else if a % 8 != 0 then failQueue fn qidx 1 (drop s)
        else match feAccess s q.asid a 8 true with
          | (.fault c l, s) => feFault q a c l true (if c == 3 then drop s else s)
          | (.refused, s) => failQueue fn qidx 3 (drop s)
          | (.held, s) => s
          | (.ok pa attr, s) => drainSignals fn qidx n (drop (feStore attr pa 8 (signalWord s st) s))

/-- Write a completion signal of a queue; address 0 names none (R116). -/
def writeSignal (fn qidx addr status : Nat) (s : State) : State :=
  if addr == 0 then s
  else drainSignals fn qidx 8 (modQ (isQ fn qidx) (fun q => { q with sigs := q.sigs ++ [(addr, status)] }) s)

/-- Completion statuses of R116. -/
def stDone : Nat := 1
def stAborted : Nat := 2
def stRefused : Nat := 3
def stFailed : Nat := 4

/-- A packet completes (R115): its signal is written; a graph node keeps its status for the graph (R129). -/
def completePacket (serial status : Nat) (s : State) : State :=
  match (allQs s).findSome? fun q => (q.issued.find? (·.serial == serial)).map fun i => (q, i) with
  | none => s
  | some (q, i) =>
    let finish (js : List Issued) : List Issued :=
      if i.node.isSome then js.map (fun j => if j.serial == serial then { j with done := some status } else j)
      else js.filter (fun j => j.serial != serial)
    let s := modQ (isQ q.fn q.qidx) (fun q => { q with issued := finish q.issued }) s
    writeSignal q.fn q.qidx i.signal status s

end Sys2Proof.Machine
end

