-- ==== Sys2Proof/Machine/Ops.lean ====
section
/-! DEFINITION. The shared operations of a firing's life: waking and waiting, chunks (R158, R159 of
06_execution_model.md), retirement (R378 of 13_isa_scalar_control.md), taking a trap and returning from one
(R298 to R301 of 10_translation_traps.md, R388 of 13_isa_scalar_control.md). -/

namespace Sys2Proof.Machine

/-! ### Waking contexts -/

/-- Make every waiting context whose wait satisfies `p` ready (R172). -/
def wakeIf (p : Nat → Ctx → Bool) (s : State) : State :=
  { s with ctxs := s.ctxs.map fun (c, x) => if (x.st == .waiting || x.st == .stalled) && p c x then (c, { x with st := .ready }) else (c, x) }
/-- Contexts that wait to perform a release try again. -/
def wakeReleases (s : State) : State := wakeIf (fun _ x => x.wait == .release) s
/-- The event of a context's wait has occurred: it is ready, and its head completes (R163). -/
def grant (c : Nat) (s : State) : State := modCtx c (fun x => { x with st := .ready, granted := true }) s

/-- A context leaves the issue slot of its core (R162). -/
def leaveSlot (c : Nat) (s : State) : State :=
  if isThread c then s
  else modCore (coreNo c) (fun k => if k.slot == some (c % 8) then { k with slot := none } else k) s

/-! ### Chunks (R158, R159) -/

/-- A change of the chunk pool behind a context: its core's, and its mirror partner's (R199). -/
def modPools (c : Nat) (f : CoreSt → CoreSt) (s : State) : State :=
  let s' := modCore (coreNo c) f s
  match s.grp.pairs.find? (·.prim == c) with
  | some p => modCore (coreNo p.part) f s'
  | none => s'
/-- The pools behind a context hold `n` chunks of a kind; a lens holds the whole pool of its elements (R190). -/
def poolsHold (s : State) (c : Nat) (vec : Bool) (n : Nat) : Bool :=
  let has (k : Nat) : Bool := !((coreOf s k).lensLead.any (· != c)) && n ≤ (if vec then (coreOf s k).poolV else (coreOf s k).poolC)
  has (coreNo c) && (s.grp.pairs.filter (·.prim == c)).all fun p => has (coreNo p.part)

/-- A mirror partner's allotment follows its firing's; `k` registers from `lo` are zero (R199, R385). -/
def partnerChunks (c : Nat) (vec : Bool) (lo k : Nat) (s : State) : State :=
  match partnerOf s c with
  | none => s
  | some q =>
    let f := firOf s c
    modCtx q (fun x => { (List.range k).foldl (fun x i =>
      if vec then writeV x (lo + i) 0 else writeG x (lo + i) Cap.null) x with chunks := some (f.cch, f.vch) }) s

/-- Give a firing `n` more chunks of a kind: registers zero, present and dirty (R385). -/
def addChunks (c : Nat) (vec : Bool) (n : Nat) (s : State) : State :=
  let x := ctxOf s c
  if vec then
    let lo := 4 * vchOf c x
    let x := (List.range (4 * n)).foldl (fun x k => arriveV (writeV x (lo + k) 0) (lo + k)) x
    modPools c (fun k => { k with poolV := k.poolV - n })
      (setCtx s c { x with fir := x.fir.map fun f => { f with vch := f.vch + n } } |> partnerChunks c vec lo (4 * n))
  else
    let lo := 8 * cchOf c x
    let x := (List.range (8 * n)).foldl (fun x k => arriveG (writeG x (lo + k) Cap.null) (lo + k)) x
    modPools c (fun k => { k with poolC := k.poolC - n })
      (setCtx s c { x with fir := x.fir.map fun f => { f with cch := f.cch + n } } |> partnerChunks c vec lo (8 * n))

/-- The parked GROW that the scheduler serves next: highest priority, then oldest (R159). -/
def growNext (s : State) (core : Nat) : Option (Nat × Bool × Nat) :=
  let ws := (List.range 8).filterMap fun i =>
    let x := ctxOf s (core * 8 + i)
    match x.wait with
    | .grow vec n => if x.st == .waiting && !x.granted then some (core * 8 + i, vec, n) else none
    | _ => none
  let better (a b : Nat × Bool × Nat) : Bool :=
    let p := (firOf s a.1).prio
    let q := (firOf s b.1).prio
    q < p || (p == q && (ctxOf s a.1).since < (ctxOf s b.1).since)
  ws.foldl (fun best w =>
    match best with
    | none => some w
    | some b => if better w b then some w else some b) none

/-- A GROW stall holds on a core: every context from 0 to 6 is free or parked on GROW, and one is parked (R159). -/
def growStalled (s : State) (core : Nat) : Bool :=
  let parked (j : Nat) : Bool := (ctxOf s (core * 8 + j)).st == .waiting && (match (ctxOf s (core * 8 + j)).wait with
    | .grow _ _ => !(ctxOf s (core * 8 + j)).granted
    | _ => false)
  (List.range 7).all (fun j => ((ctxOf s (core * 8 + j)).fir.isNone && (ctxOf s (core * 8 + j)).st == .free) || parked j) &&
    (List.range 7).any parked
/-- A core notes in which cycle a GROW stall begins, and that it has ended (R159). -/
def noteStall (core : Nat) (s : State) : State :=
  let k := coreOf s core
  if growStalled s core then
    (if k.stallSince.isSome then s else setCore s core { k with stallSince := some s.cyc, stallPosted := false })
  else if k.stallSince.isSome then setCore s core { k with stallSince := none, stallPosted := false } else s

/-- Grant freed chunks to parked GROWs while the next one fits (R159). -/
def grantGrows (core : Nat) : Nat → State → State
  | 0, s => s
  | n + 1, s =>
    match growNext s core with
    | none => s
    | some (c, vec, k) =>
      if poolsHold s c vec k then grantGrows core n (noteStall core (grant c (addChunks c vec k s))) else s

/-- Return a firing's chunks to the pool, but the permanent ones: chunk 0, and in context 7 two capability
chunks and one vector chunk (R152, R158). -/
def returnChunks (c : Nat) (f : Firing) (s : State) : State :=
  let (pc, pv) := if c % 8 == 7 then (2, 1) else (1, 0)
  grantGrows (coreNo c) 8
    (modCore (coreNo c) (fun k => { k with poolC := k.poolC + (f.cch - pc), poolV := k.poolV + (f.vch - pv) }) s)

/-! ### The end of a firing -/

/-- Unbind every stream unit of a context (R177). -/
def unbindAll (c : Nat) (s : State) : State :=
  modCore (coreNo c) (fun k => { k with units := k.units.filter fun (_, u) =>
    match u with
    | some u => u.cid != c
    | none => false }) s

/-- A core whose share of a sweep is enumerated and has no firing left reports it (R146). -/
def shareReport (core : Nat) (s : State) : State :=
  match (coreOf s core).share with
  | none => s
  | some h =>
    if h.enumerated && h.alive == 0 then
      let st := if h.aborted then stAborted else if h.failed then stFailed else stDone
      modFe (fun f => { f with sweeps := f.sweeps.map fun w => if w.id == h.sweep then { w with reports := w.reports ++ [(core, st)] } else w })
        (modCore core (fun k => { k with share := none }) s)
    else s

/-- Inform the sweep, packet or binding that a firing ended: 1 done, 2 aborted, 4 failed (R146, R149, R378). -/
def informEnd (core : Nat) (f : Firing) (status : Nat) (s : State) : State :=
  match f.path with
  | .sweep id =>
    shareReport core (modCore core (fun k => { k with share := k.share.map fun h =>
      if h.sweep == id then { h with alive := h.alive - 1, failed := h.failed || status == stFailed, aborted := h.aborted || status == stAborted }
      else h }) s)
  | .fifo b => modCore core (fun k => { k with bindCount := SMap.set 0 k.bindCount b (SMap.get 0 k.bindCount b + 1) }) s
  | .fire => s
  | .message =>
    match f.packet with
    | some (_, serial) => completePacket serial status s
    | none => s

/-- What a FREE context keeps: its generation. The next firing finds none of the registers (R133, R156; log 47). -/
def idleCtx (x : Ctx) : Ctx := { gen := x.gen }

/-- The context becomes FREE: its registers, results and holds are gone (R133, R172). -/
def freeCtx (c : Nat) (s : State) : State :=
  let s := leaveSlot c (unbindAll c s)
  let s := modMs (fun m => { m with susp := m.susp.filter (·.cid != c), feq := m.feq.filter (·.cid != c) }) s
  let s := if isThread c then s else modStrip (stripNo (coreNo c)) (fun t => { t with
    gang := t.gang.filter fun a => a.2 != c
    barmax := t.barmax.filter fun a => a.2.1 != c
    mmaWait := t.mmaWait.filter fun a => a.cid != c }) s
  let s := modCtx c idleCtx s
  if isThread c then s else noteStall (coreNo c) s

/-- A mirror pair ends: the partner's context and chunks are free again (R467). -/
def freePair (c : Nat) (s : State) : State :=
  match s.grp.pairs.find? (·.prim == c) with
  | none => s
  | some p =>
    let f := firOf s c
    let s := returnChunks p.part { cch := f.cch, vch := f.vch } (freeCtx p.part s)
    modFir c (fun f => { f with paired := false }) (modGrp (fun g => { g with pairs := g.pairs.filter (·.prim != c) }) s)

/-- A lens ends: its elements are free for their own firings, and parked GROWs of their contexts 7 are served (R159, R198). -/
def freeLens (c : Nat) (s : State) : State :=
  match s.grp.lenses.find? (·.lead == c) with
  | none => s
  | some l =>
    let s := l.elems.foldl (fun s k => modCore k (fun x => { x with lensLead := none }) s) s
    let s := modFir c (fun f => { f with lens := none }) (modGrp (fun g => { g with lenses := g.lenses.filter (·.lead != c) }) s)
    l.elems.foldl (fun s k => grantGrows k 8 s) s

/-- The status of a CTX.SAVE that waits for its image (R468). -/
def answerSave (who : Option (Nat × Nat)) (status : Nat) (s : State) : State :=
  match who with
  | none => s
  | some (c, id) =>
    modCtx c (fun x => { x with pend := x.pend.map fun p =>
      if p.id == id && p.fin == .status then { p with fin := .cst (Cap.ofInt (BitVec.ofNat 64 status)) } else p }) s
/-- A firing that ends leaves no record of a save (R157). -/
def dropSaved (core handle status : Nat) (s : State) : State :=
  let gone := (coreOf s core).saved.filter (·.fir.handle == handle)
  let s := if gone.isEmpty then s else modCore core (fun k => { k with saved := k.saved.filter (·.fir.handle != handle) }) s
  gone.foldl (fun s v => answerSave v.requester status s) s

/-- The firing of a context ends with a status: chunks return, its starter is informed, the context is FREE
(R158, R171, R378). -/
def endFiring (c status : Nat) (s : State) : State :=
  match (ctxOf s c).fir with
  | none => s
  | some f =>
    let s := dropSaved (coreNo c) f.handle 2 (freeLens c (freePair c s))
    wakeReleases (informEnd (coreNo c) f status (returnChunks c f (freeCtx c s)))

/-- A firing that a trap stops retires as ENDE does, and a SUPTRAP record names it (R301, R304). -/
def stopFiring (c cause : Nat) (s : State) : State :=
  let f := firOf s c
  let s := supRecord { code := 0x40, source := 0, unit := coreNo c, handle := f.handle, info := cause,
                       addr := (ctxOf s c).trapaddr.toNat, asid := (ctxOf s c).asid.toNat } s
  endFiring c stFailed s

/-! ### Traps -/

/-- The causes that go to TRAPE when R301 allows (R299). -/
def toTrape (cause : Nat) : Bool :=
  cause ∈ [0x04, 0x06, 0x07, 0x08, 0x09, 0x0C, 0x0D, 0x0E, 0x0F, 0x10, 0x12, 0x13, 0x14, 0x16, 0x17]

/-- A context waits at GANG in this strip. -/
def gangWaiting (s : State) (strip : Nat) : Bool := !(stripOf s strip).gang.isEmpty
/-- The firing belongs to a sweep of gangs (R183). -/
def inGang (s : State) (f : Firing) : Bool :=
  match f.path with
  | .sweep id => (s.fe.sweeps.find? (·.id == id)).any fun w => (w.header.getD 0 0).getLsbD 51
  | _ => false
/-- A rank takes a trap or a translation fault while a peer waits at GANG: one record, cause 0x11 (R187). -/
def gangPeer (c : Nat) (s : State) : State :=
  if !isThread c && inGang s (firOf s c) && gangWaiting s (stripNo (coreNo c)) then
    supRecord { code := 0x11, source := 1, unit := stripNo (coreNo c), info := rankNo (coreNo c) } s
  else s

/-- Take a trap at the head the PC names (R301): TRAPPC, TRAPADDR and TRAPINFO are written; a trap at
supervisor level stops the firing; an allowed cause with FL clear goes to TRAPE at user level; every other goes
to the supervisor vector with FL and supervisor level set, NESTED and PRIOR written. The slot is released. -/
def takeTrap (c cause addr info : Nat) (s : State) : State :=
  let s := gangPeer c (leaveSlot c s)
  let x := ctxOf s c
  let f := firOf s c
  let frame := cause + (if x.sup then 0x100 else 0) + (if f.lens.isSome then 0x400 else 0) + (if f.paired then 0x800 else 0)
  let x1 : Ctx := { x with
    trappc := BitVec.ofNat 64 (x.pc.line + x.pc.head)
    trapaddr := BitVec.ofNat 64 addr
    trapinfo := BitVec.ofNat 64 info
    st := .ready
    wait := .none
    granted := false
    fetched := []
    storing := []
    relBegun := false }
  if x.sup then stopFiring c cause (setCtx s c x1)
  else if toTrape cause && !x.fl && f.actor.trape != 0 && c % 8 != 7 then
    setCtx s c { x1 with trapcause := BitVec.ofNat 64 frame, fl := true, pc := ⟨f.actor.trape, 1⟩ }
  else
    let x2 : Ctx := { x1 with
      trapcause := BitVec.ofNat 64 (frame + (if x.fl then 0x200 else 0) + x.trapcause.toNat % 256 * 2 ^ 16)
      fl := true
      sup := true }
    let vec := (coreOf s (coreNo c)).trapvec
    if vec.tag then setCtx s c { x2 with pc := ⟨CapF.addr vec / 64 * 64, 1⟩ }
    else stopFiring c cause (setCtx s c x2)

/-- The PC after head `h` of a line with `n` heads: the next head, or head 1 of the next line (R331). -/
def pcAfter (p : Pc) (n : Nat) : Pc := if p.head < n then ⟨p.line, p.head + 1⟩ else ⟨(p.line + 64) % 2 ^ 57, 1⟩

/-- Return from a trap (R388): the level of TRAPCAUSE, FL clear, and the PC given. -/
def returnFromTrap (c : Nat) (pc : Pc) (s : State) : State :=
  modCtx c (fun x => { x with sup := x.trapcause.getLsbD 8, fl := false, pc := pc }) s

/-! ### Recorded wakes (R379) -/

/-- The recorded-wake count of an image, which its WAKES field holds (R305). -/
def wakesOff : Nat := 0x30
/-- Raise the WAKES field of a written image through its SAVE capability (R157, R308); none when its page faults or a tag
holds it. -/
def wakeImage (v : Saved) (s : State) : Option State :=
  match engineWalk s v.asid.toNat (CapF.addr v.fir.actor.save + wakesOff) (kRead ||| kWrite) true with
  | (.error _, _) => none
  | (.ok (pa, attr), s) =>
    let pa := replicaPa attr (dieOfCore (coreNo v.cid)) pa
    match homeGate s v.cid pa 1 with
    | .go =>
      let x := Nat.min ((homeBytes s pa 8).1 + 1) (2 ^ 64 - 1)
      some (homeWrite pa 8 x false none v.cid s)
    | _ => none

/-- Raise the recorded-wake count of a live firing, saturating; a firing in WAITE message becomes ready. A saved firing
keeps the count in its image; a wake that cannot be written there now is added at its restore (R157). -/
def recordWake (h : Nat) (s : State) : State :=
  let up (f : Firing) : Firing := { f with wakes := Nat.min (f.wakes + 1) (2 ^ 64 - 1) }
  match (savedOf s h).filter (·.written) with
  | some v =>
    (wakeImage v s).getD (modCore (handleCore h) (fun k => { k with saved := k.saved.map fun v =>
      if v.fir.handle == h % 2 ^ 37 then { v with late := v.late + 1 } else v }) s)
  | none =>
    let c := handleCid h
    let s := modFir c up s
    if (ctxOf s c).wait == .waiteMsg && (ctxOf s c).st == .waiting then modCtx c (fun x => { x with st := .ready }) s else s

/-! ### Results that return (R162, R172) -/

/-- The park of a context ends when its last result returns; a stall, or the wait for a suspended access, tries again. -/
def resultWakes (c : Nat) (s : State) : State :=
  modCtx c (fun x =>
    let parked := x.st == .parked || x.st == .waiting || x.st == .stalled
    if x.pend.isEmpty && parked && x.wait == .marker then { x with st := .ready, wait := .none }
    else if x.pend.isEmpty && x.st == .parked && x.granted then { x with st := .ready }
    else if x.wait == .tag && x.st == .waiting then { x with st := .ready }
    else x) s

end Sys2Proof.Machine
end

