-- ==== Sys2Proof/Machine/Handler.lean ====
section
/-! DEFINITION. Handler runs of Prism threads as the heads share them (R231 to R236 of 08_memory_prisms.md,
R473, R479 of 16_isa_matrix_system.md): the run of a thread, its end, and the stop of a handler. -/

namespace Sys2Proof.Machine

/-- The run of a thread. -/
def runOf (s : State) (c : Nat) : Option ThrRun := SMap.get none (prismOf s (prismNo c)).thr (threadNo c)
def modRun (c : Nat) (f : ThrRun → ThrRun) (s : State) : State :=
  modPrism (prismNo c) (fun p => { p with thr := SMap.set none p.thr (threadNo c) ((SMap.get none p.thr (threadNo c)).map f) }) s

/-- Requester words of R232. -/
def prismReq (dev prism : Nat) : W64 := BitVec.ofNat 64 (2 ^ 63 + dev % 16384 * 2 ^ 23 + prism % 64)

/-- A transaction record of a block is open (R233). -/
def txnOpen (s : State) (p blk : Nat) : Bool := (SMap.get none (prismOf s p).txn (blockOf blk)).isSome

/-- The message's reply slot after a run: used, bound to the open record of the block, or back in the pool
(R233, R479). Threads 6 and 7 serve replies and hold none. -/
def settleSlot (c : Nat) (r : ThrRun) (s : State) : State :=
  if 6 ≤ threadNo c || r.replied then s
  else
    let p := prismNo c
    if txnOpen s p r.msg.block then
      let bind (t : Txn) : Txn := { t with bound := t.bound ++ [(r.msg.requester, r.msg.from_)] }
      modPrism p (fun x => { x with
        txn := SMap.set none x.txn (blockOf r.msg.block) ((SMap.get none x.txn (blockOf r.msg.block)).map bind) }) s
    else modPrism p (fun x => { x with slots := x.slots - 1 }) s

/-- Accesses still suspended on the block are announced again when a run for their type ends; those on a busy block are
parked, and later writes of a ONCE block, which the run has not let through, are refused (R225, R249, log 96). -/
def runAnswered (p : Nat) (r : ThrRun) (s : State) : State :=
  if !(6 ≤ r.msg.ty && r.msg.ty ≤ 8 && atagOf s r.msg.block != 3) then s
  else if r.msg.ty != 6 && protoOf s p r.msg.block == 4 && (dirEntry s p r.msg.block).getLsbD 0 then
    refuseSusp (fun b => b == blockOf r.msg.block) [r.msg.ty - 6] 5 s
  else postSusp (blockOf r.msg.block) (r.msg.ty - 6) s

/-- The run leaves its message's slot bound (R233). -/
def leavesBound (s : State) (c : Nat) (r : ThrRun) : Bool :=
  threadNo c < 6 && !r.replied && txnOpen s (prismNo c) r.msg.block

/-- A run ends and its thread is free; its message is consumed, and its packet performed unless a bound slot answers it
later (R42, R476). -/
def endRun (c : Nat) (s : State) : State :=
  match runOf s c with
  | none => s
  | some r =>
    let p := prismNo c
    let bound := leavesBound s c r
    let s := modPrism p (fun p => { p with thr := SMap.set none p.thr (threadNo c) none }) (settleSlot c r s)
    let s := if bound then s else performedBy p (runMark r.tag (r.msg.ty == 0x0D)) r.msg.from_ s
    wakeReleases (runAnswered p r (setCtx s c {}))

/-- Stop a handler (R236): the block stays busy, its transaction record is kept, the message is consumed, and
a supervisor record and a black-box entry are written. -/
def stopHandler (c code : Nat) (ende : Bool) (s : State) : State :=
  match runOf s c with
  | none => s
  | some r =>
    let p := prismNo c
    let info := threadNo c + r.msg.ty % 64 * 2 ^ 8 + r.count % 2 ^ 32 * 2 ^ 16 + (if ende then 2 ^ 48 else 0)
    let s := setAtag r.msg.block 3 s
    let s := supRecord { code := code, source := 2, unit := p, addr := r.msg.block, info := info } s
    endRun c (bbWrite (prismIo p) 2 p code [BitVec.ofNat 64 r.msg.block, BitVec.ofNat 64 info] s)

end Sys2Proof.Machine
end

