-- ==== Sys2Proof/Machine/Perform.lean ====
section
/-! DEFINITION. Performing a read for a context (R211, R221, R223 to R226 of 08_memory_prisms.md), and how a
capability's format names the elements of a tensor (R310, R311, R317, R318 of 11_number_formats.md). -/

namespace Sys2Proof.Machine

/-- What performing a read gives: bytes and tag, poisoned data with the TRAPINFO of its use, or a suspension. -/
inductive ReadRes where
  | val (x : Nat) (tag : Bool)
  | poison (info : Nat)
  | held
  deriving DecidableEq, Repr

/-- Perform a read of `n` bytes inside one line for context `cid`: from the L1 where it hits, else at the
home under its tag, filling the L1 for a cached page. -/
def performRead (cid pa n : Nat) (viaL1 : Bool) (s : State) : ReadRes × State :=
  let core := coreNo cid
  if viaL1 && l1Hit s core pa n then (.val (l1Read s core pa n).1 (l1Read s core pa n).2, s)
  else
    match homeGate s cid pa 0 with
    | .refuse info => (.poison info, unsuspend pa 0 cid s)
    | .hold post => (.held, suspend pa 0 cid post s)
    | .go =>
      let s := unsuspend pa 0 cid s
      if poisonable s pa && poisonAt s pa n then (.poison 0, s)
      else if viaL1 then
        let s := l1Fill core pa s
        (.val (l1Read s core pa n).1 (l1Read s core pa n).2, s)
      else (.val (homeBytes s pa n).1 (homeBytes s pa n).2, correct pa n s)

/-- A read of the head under way that RDATA answers: the answer, or the wait for it, whose RD is sent once (R54). -/
def remoteNow (d off pa n : Nat) : X ReadRes := do
  let s ← get
  match (here s).fetched.find? fun f => f.1 == pa && f.2.1 == n with
  | some (_, _, ok, x) => pure (if ok then .val x false else .poison x)
  | none =>
    if !routable s d then return .poison 7
    unless (here s).wait == .remote pa n && !(here s).granted do upd (sendRead d off n syncRead)
    throw (.wait (.remote pa n))

/-- Read now for the issuing context, taking buffered stores into account (R175, R179); `direct` names the place on
another device of a line that no slice caches (R54). -/
def readNow (pa n : Nat) (viaL1 : Bool) (direct : Option (Nat × Nat)) : X ReadRes := do
  let s ← get
  if !isThread s.cur && ownSau s s.cur pa n then throw .stall
  match (if isThread s.cur then .none else forward s s.cur pa n) with
  | .part => throw .stall
  | .hit x t =>
    upd (markSeen s.cur fun e => overlaps pa n e.pa e.n)
    pure (.val x t)
  | .none =>
    match direct with
    | some (d, off) => remoteNow d off pa n
    | none =>
      let (r, s') := performRead s.cur pa n viaL1 s
      set s'
      pure r

/-! ### Tensors -/

/-- The format register a capability names, in the issuing context (R310). -/
def fmtOf (s : State) (c : Cap) : W64 := readF (here s) (CapF.freg c)

/-- The checks of a consuming head on the format (R310): the register is set, the scale mode is 0 or 1, and
K agrees with it. -/
def fmtBad (f : W64) (c : Cap) : Bool :=
  Fmt.cls f == 0 || 2 ≤ CapF.smode c || (CapF.smode c == 1 && CapF.k c == 0) || (CapF.smode c == 0 && CapF.k c != 0)

/-- The tensor carries block scales (R317). -/
def scaled (c : Cap) : Bool := CapF.smode c == 1

/-- The element index of an address, counted from base (R317). -/
def elemIndex (f : W64) (c : Cap) (a : Nat) : Int :=
  let off : Int := a - CapF.base c
  match Fmt.elemBits f with
  | 4 => 2 * off
  | 8 => off
  | 16 => off / 2
  | _ => off / 4

/-- The address of an element: its first byte, and whether it is the upper nibble (R311). -/
def elemAddr (f : W64) (c : Cap) (i : Int) : Nat × Bool :=
  let a (off : Int) : Nat := ((CapF.base c + off) % (2 ^ 57 : Nat)).toNat
  match Fmt.elemBits f with
  | 4 => (a (i / 2), i % 2 == 1)
  | b => (a (i * (b / 8 : Nat)), false)

/-- Bytes that one element occupies. -/
def elemBytes (f : W64) : Nat := if Fmt.elemBits f == 4 then 1 else Fmt.elemBits f / 8

/-- The address of the scale byte of block `j` (R317). -/
def scaleAddr (c : Cap) (j : Int) : Nat := ((CapF.top c + j) % (2 ^ 57 : Nat)).toNat

/-- The code of an element in the bytes read at its address. -/
def elemCode (f : W64) (x : Nat) (upper : Bool) : Nat :=
  if Fmt.elemBits f == 4 then x / (if upper then 16 else 1) % 16 else x

/-- An element as FP32 with its scale, and its flags (R317, R320, R325). -/
def elemF32 (f : W64) (code : Nat) (scale : Option Nat) : Nat × FFlags :=
  let v := decodeElem f code
  roundIeee fp32 (match scale with
    | some u => scaleVal u v
    | none => v)

/-- Encode an FP32 value into an element's format: code and flags (R319, R320). -/
def elemEncode (f : W64) (x : Nat) : Nat × FFlags :=
  let v := decodeIeee fp32 x
  match Fmt.cls f with
  | 1 => let (c, g, _) := encodeNarrow f v; (c, g)
  | 2 => (if v.isNan then fp32.nanCode else x, 0)
  | 3 => roundIeee bf16 v
  | _ => roundIeee fp16 v

/-- Or flags into FPFLAGS of the issuing context (R327). -/
def withFlags (g : FFlags) (s : State) : State := if g == 0 then s else modHere (fun x => { x with fpflags := x.fpflags ||| g }) s
def flags (g : FFlags) : X Unit := upd (withFlags g)

end Sys2Proof.Machine
end

