-- ==== Sys2Proof/Machine/Streams.lean ====
section
/-! DEFINITION. Stream units (R177 to R181 of 07_cores_strips.md, R443, R444 of 15_isa_vector_stream.md): the
elements of a pattern, pops and pushes. -/

namespace Sys2Proof.Machine

/-- The unit bound to register `v` of context `c`, with its number. -/
def unitOf (s : State) (c v : Nat) : Option (Nat × SUnit) :=
  (coreOf s (coreNo c)).units.findSome? fun (k, u) =>
    match u with
    | some u => if u.cid == c && u.v == v then some (k, u) else none
    | none => none
def setUnit (core k : Nat) (u : Option SUnit) (s : State) : State :=
  modCore core (fun x => { x with units := SMap.set none x.units k u }) s

namespace SU

/-- Elements of the pattern (R178). -/
def total (u : SUnit) : Nat := u.lens.foldl (· * ·) 1
/-- Bytes of an element. -/
def esz (u : SUnit) : Nat := if u.cv then elemBytes u.fmt else u.esz
/-- Elements of one register. -/
def per (u : SUnit) : Nat := if u.cv then 32 else 128 / u.esz
/-- The index of element `n` in each dimension, dimension 0 innermost (R178). -/
def coords (n : Nat) : List Nat → List Nat
  | [] => []
  | l :: rest => n % (if l == 0 then 1 else l) :: coords (n / (if l == 0 then 1 else l)) rest
/-- The address of element `n` (R178). -/
def addr (u : SUnit) (n : Nat) : Nat :=
  let offs : List Int := ((coords n u.lens).zip (u.starts.zip u.strs)).map fun (i, (st, str)) => (st + i : Nat) * str
  (((CapF.addr u.tcap : Nat) + offs.sum : Int) % (2 ^ 57 : Nat)).toNat
/-- Elements not yet popped or pushed. -/
def remain (u : SUnit) : Nat := total u - u.pos

/-- The first failed check of an element against TCAP: its subcode (R180). -/
def bad (u : SUnit) (a : Nat) : Option Nat :=
  if !u.tcap.tag then some 1
  else if !CapF.inBounds u.tcap a (esz u) then some 2
  else if !CapF.holds u.tcap (if u.write then CapF.ST else CapF.LD) then some 3
  else if a % esz u != 0 then some 4
  else none

end SU

/-- The bytes of an element read, or the subcode of its failure (R180). -/
inductive ElemRes where
  | val (x : Nat)
  | fail (sub : Nat)
  deriving DecidableEq, Repr

/-- The offset of a slot-stream element in the core's share, when it lies there (R178). -/
def slotOffset (u : SUnit) (a : Nat) : Option Nat :=
  let off := (a + 2 ^ 57 - CapF.addr u.tcap) % 2 ^ 57
  if off + SU.esz u ≤ 1024 then some off else none
/-- Where a slot's bytes of a core's share lie in the strip's operand memory (R182). -/
def shareAt (slot rank off : Nat) : Nat := slot * 16384 + rank * 1024 + off

/-- Byte `i` of a strip's operand memory, or with `sc` of its scale store: as written since the claim, else zero or a
free value (R185). -/
def opByte (t : StripSt) (sc : Bool) (i : Nat) : Byte :=
  let per := if sc then 1024 else 16384
  match SMap.get none (if sc then t.scale else t.opmem) i with
  | some b => b
  | none =>
    match (SMap.get {} t.slots (i / per)).fill with
    | some c => Config.freeByte (c + (if sc then 16384 else 0) + i % per)
    | none => 0
/-- `n` bytes of operand memory from `i`. -/
def opPeek (t : StripSt) (i n : Nat) : Nat := leNat ((List.range n).map fun k => opByte t false (i + k))
/-- Write bytes from `i`. -/
def optBytes (m : SMap (Option Byte)) (i : Nat) : List Byte → SMap (Option Byte)
  | [] => m
  | b :: r => optBytes (SMap.set none m i (some b)) (i + 1) r
def opPoke (i n x : Nat) (t : StripSt) : StripSt := { t with opmem := optBytes t.opmem i (leBytes n x) }
def scPoke (i n x : Nat) (t : StripSt) : StripSt := { t with scale := optBytes t.scale i (leBytes n x) }

/-- An unretired MMA names the slot (R185, R444). -/
def slotNamed (s : State) (strip slot : Nat) : Bool :=
  let t := stripOf s strip
  t.ops.any (fun o => o.slotA == slot || o.slotB == slot) || t.mmaWait.any fun w => w.slotA == slot || w.slotB == slot

/-- Whether data of a span goes through the L1 of the issuing context's core. -/
def viaL1 (s : State) (sp : Span) : Bool := cacheable s sp.attr sp.pa

/-- The address of the scale byte of a converting stream's element (R318, R443). -/
def scaleOf (u : SUnit) (a : Nat) : Nat := scaleAddr u.tcap (elemIndex u.fmt u.tcap a / (2 ^ CapF.k u.tcap : Nat))
/-- A range lock covers the scale byte of an element (R260). -/
def scaleLocked (s : State) (u : SUnit) (a : Nat) : Bool := u.cv && scaled u.tcap && lockHit s (scaleOf u a) 1 false
/-- Read element bytes at `a` for a read stream (R179, R180). -/
def elemRead (u : SUnit) (a : Nat) : X ElemRes := do
  match SU.bad u a with
  | some sub => return .fail sub
  | none =>
    let s ← get
    match u.slot with
    | some k =>
      match slotOffset u a with
      | none => return .fail 2
      | some off =>
        return .val (opPeek (stripOf s (stripNo (coreNo s.cur))) (shareAt k (rankNo (coreNo s.cur)) off) (SU.esz u))
    | none =>
      let (pa, attr) ← translate a (kRead ||| kEngine)
      let s ← get
      match spaceOf s pa with
      | .regs _ _ | .ctl _ _ => if !CapF.holds u.tcap CapF.SYS then return .fail 3
      | _ => pure ()
      if lockHit s a (SU.esz u) false || scaleLocked s u a then return .fail 5
      let pa := replicaPa attr (dieOfCore (coreNo s.cur)) pa
      match ← readNow pa (SU.esz u) (cacheable s attr pa) (remoteDirect s attr pa) with
      | .val x _ => return .val x
      | .poison _ => return .fail 6
      | .held => throw .stall

/-- The scale byte of a converting stream's element (R318, R443). -/
def elemScale (u : SUnit) (a : Nat) : X (Option Nat) := do
  if !scaled u.tcap then return none
  let (pa, attr) ← translate (scaleOf u a) (kRead ||| kEngine)
  let s ← get
  match ← readNow pa 1 (cacheable s attr pa) (remoteDirect s attr pa) with
  | .val x _ => return some x
  | .poison _ => return some 0xFF
  | .held => throw .stall

/-- Elements `n`, `n + 1`, ... of a read stream as one register: the bytes, and the first failure with its
address. Elements past the end read as zero (R178). -/
def regRead (u : SUnit) (n : Nat) : Nat → Nat → X (Nat × Option (Nat × Nat))
  | 0, _ => pure (0, none)
  | k + 1, i => do
    if SU.total u ≤ n + i then return (0, none)
    let a := SU.addr u (n + i)
    match ← elemRead u a with
    | .fail sub => return (0, some (a, sub))
    | .val x =>
      let w := if u.cv then 4 else u.esz
      let x ← if u.cv then do
          let sc ← elemScale u a
          let (y, g) := elemF32 u.fmt (elemCode u.fmt x false) sc
          flags g
          pure y
        else pure x
      let (rest, f) ← regRead u n k (i + 1)
      pure (x * 2 ^ (8 * w * i) + rest, f)

/-- The register a pop delivers: one fetched ahead with the flags of its conversion, or one read now (R178, R179). A
register fetched ahead whose element met a range lock is read again (R181). -/
def popValue (u : SUnit) : X (VReg × Option (Nat × Nat)) := do
  match u.ahead with
  | (x, g, f) :: _ =>
    match f with
    | some (_, 5) =>
      let (y, g) ← regRead u u.pos (SU.per u) 0
      pure (BitVec.ofNat 1024 y, g)
    | _ =>
      if f.isNone then flags g
      pure (x, f)
  | [] =>
    let (y, g) ← regRead u u.pos (SU.per u) 0
    pure (BitVec.ofNat 1024 y, g)

/-- The unit after a pop (R178, R446). -/
def popped (u : SUnit) : SUnit :=
  let p := Nat.min (u.pos + SU.per u) (SU.total u)
  { u with pos := p, ahead := u.ahead.drop 1, endSeen := p == SU.total u }

/-- Bring the next register of a bound read stream into its register, before the head reads it. A register
bound to a write stream is not read (R444). -/
def popIn (v : Nat) : X Unit := do
  let s ← get
  match unitOf s s.cur v with
  | none => pure ()
  | some (_, u) =>
    if u.write then illegal 0x0A
    let (x, f) ← popValue u
    match f with
    | some (a, sub) => throw (.stream v a sub)
    | none => upd (modHere fun c => { c with v := SMap.set 0 c.v v x })
/-- The pop is performed when the head completes. -/
def popDone (v : Nat) : X Unit :=
  upd fun s =>
    match unitOf s s.cur v with
    | some (k, u) => setUnit (coreNo s.cur) k (some (popped u)) s
    | none => s

/-- A head that writes register `v`: a read-bound one is refused; a pending write-stream failure is raised
(R180, R444). -/
def pushCheck (v : Nat) : X Unit := do
  let s ← get
  match unitOf s s.cur v with
  | none => pure ()
  | some (_, u) =>
    if !u.write then illegal 0x0A
    match u.failed with
    | some (a, sub) => throw (.stream v a sub)
    | none => pure ()
    if !u.out.isEmpty then throw .stall
    match u.slot with
    | some k => if slotNamed s (stripNo (coreNo s.cur)) k then throw .stall
    | none => pure ()

/-- The bytes of element `i` of a pushed register. -/
def pushBytes (u : SUnit) (x : VReg) (i : Nat) : Nat × FFlags :=
  if u.cv then
    let (c, g) := elemEncode u.fmt (lane x i).toNat
    (c, g)
  else (x.toNat / 2 ^ (8 * u.esz * i) % 2 ^ (8 * u.esz), 0)

/-- Join a store to the last one when it goes on in the same line. -/
def joinStore (es : List SbEntry) (e : SbEntry) : List SbEntry :=
  match es.getLast? with
  | some l =>
    if l.pa + l.n == e.pa && blockOf l.pa == blockOf (e.pa + e.n - 1) && l.mca == e.mca then
      es.dropLast ++ [{ l with n := l.n + e.n, data := l.data + e.data * 2 ^ (8 * l.n) }]
    else es ++ [e]
  | none => es ++ [e]

/-- Store elements `u.pos + i`, ... of a pushed register: the stores made and the unit after them. The first
failure drops the rest; elements past the end are dropped with OVERRUN (R178, R180). -/
def regPush (x : VReg) : Nat → Nat → SUnit → List SbEntry → X (SUnit × List SbEntry)
  | 0, _, u, es => pure (u, es)
  | k + 1, i, u, es => do
    if SU.total u ≤ u.pos then return ({ u with overrun := true }, es)
    let a := SU.addr u u.pos
    let (b, g) := pushBytes u x i
    match SU.bad u a with
    | some sub => return ({ u with failed := some (a, sub) }, es)
    | none =>
      let s ← get
      match u.slot with
      | some sl =>
        match slotOffset u a with
        | none => return ({ u with failed := some (a, 2) }, es)
        | some off =>
          upd (modStrip (stripNo (coreNo s.cur)) (opPoke (shareAt sl (rankNo (coreNo s.cur)) off) (SU.esz u) b))
          regPush x k (i + 1) { u with pos := u.pos + 1 } es
      | none =>
        let (pa, attr) ← translate a (kWrite ||| kEngine)
        let s ← get
        match spaceOf s pa with
        | .regs _ _ | .ctl _ _ =>
          if !CapF.holds u.tcap CapF.SYS then return ({ u with failed := some (a, 3) }, es)
        | _ => pure ()
        if lockHit s a (SU.esz u) true then return ({ u with failed := some (a, 5) }, es)
        flags g
        let e : SbEntry := {
          pa := replicaPa attr (dieOfCore (coreNo s.cur)) pa
          n := SU.esz u
          data := b
          cid := s.cur
          mca := storeMode attr
          ep := (here s).ep
          va := a
          home := homeOf s attr (dieOfCore (coreNo s.cur)) pa }
        regPush x k (i + 1) { u with pos := u.pos + 1 } (joinStore es e)

/-- Move waiting push stores into the store buffer while there is room (R179). -/
def pumpUnit (core k : Nat) (s : State) : State :=
  match SMap.get none (coreOf s core).units k with
  | none => s
  | some u =>
    let room := 32 - (coreOf s core).sb.length
    modCore core (fun c => { c with sb := c.sb ++ u.out.take room })
      (setUnit core k (some { u with out := u.out.drop room }) s)

/-- A head that wrote a register bound to a write stream pushes its result, whose register is then read as
zero again; in checked execution no stream is bound (R444, R466). -/
def pushOut (v : Nat) : X Unit := do
  let s ← get
  match unitOf s s.cur v with
  | none => pure ()
  | some (k, u) =>
    let (u', es) ← regPush (readV (here s) v) (SU.per u) 0 u []
    upd (pumpUnit (coreNo s.cur) k ∘ setUnit (coreNo s.cur) k (some { u' with out := es }))

end Sys2Proof.Machine
end

