-- ==== Sys2Proof/Machine/Operands.lean ====
section
/-! DEFINITION. How a head issues and completes (R162, R163, R172 to R174 of 06_execution_model.md and
07_cores_strips.md, R298, R299 of 10_translation_traps.md, R335, R336, R354, R355): the registers it names, the
checks before it, its operands, its results, and what follows a trap, a wait or a stall. -/

namespace Sys2Proof.Machine

/-! ### What a head reads and writes -/

/-- The g and v registers a head reads and writes, those it only names, and the m register it writes. -/
structure Use where
  rg : List Nat := []
  rv : List Nat := []
  wg : List Nat := []
  wv : List Nat := []
  nv : List Nat := []
  ng : List Nat := []
  wm : List Nat := []
  deriving DecidableEq, Repr

/-- The registers a row's fields name: A and B are read, D is written (R333, R335). -/
def Use.ofRow (r : Row) (h : Head) : Use :=
  let pick (k : Kind) (q : Kind) (x : BitVec 6) : List Nat := if k == q then [x.toNat] else []
  { rg := pick r.a .g h.a ++ pick (r.bKind h) .g h.b
    rv := pick r.a .v h.a ++ pick (r.bKind h) .v h.b
    wg := pick r.d .g h.d
    wv := pick r.d .v h.d
    wm := pick r.d .m h.d }

/-- A head that also reads its D register (R173). -/
def Use.readD (u : Use) : Use := { u with rg := u.rg ++ u.wg, rv := u.rv ++ u.wv }
/-- A head whose D field names a source only: ST, VST, BAR and their like. -/
def Use.srcD (u : Use) : Use := { rg := u.rg ++ u.wg, rv := u.rv ++ u.wv, nv := u.nv }
/-- A head that names stream registers without reading them: SUNBIND, SSTAT, WAITE (R445, R446). -/
def Use.nameV (u : Use) : Use := { u with rv := [], nv := u.rv }
/-- A head that reads further g registers. -/
def Use.andG (u : Use) (rs : List Nat) : Use := { u with rg := u.rg ++ rs }

/-! ### Checks before a head -/

/-- Majors of a Prism thread (R230). -/
def threadMajor (m : Nat) : Bool := m ≤ 0x2D || (0x30 ≤ m && m ≤ 0x44) || m == 0x78 || m == 0x79 || m == 0x7E

/-- Heads refused under a lens (R194, R480). -/
def lensRefuses (r : Row) : Bool :=
  (0x70 ≤ r.major && r.major ≤ 0x75) || r.major == 0x47 || r.major == 0x48 || (r.major == 0x7B && r.f0 != 1)

/-- Heads refused in checked execution (R200, R419, R480). -/
def pairRefuses (r : Row) : Bool :=
  (0x70 ≤ r.major && r.major ≤ 0x75) || r.major == 0x47 || r.major == 0x48 || r.major == 0x66 ||
    (r.major == 0x7B && r.f0 == 0) || r.major == 0x7C || r.major == 0x7D

/-- Heads that end an interval of checked execution, themselves included, with those that wait (R201, R390). -/
def endsInterval (r : Row) : Bool :=
  r.major ∈ [0x25, 0x27, 0x28, 0x29, 0x2A, 0x2C, 0x40, 0x41, 0x42, 0x43, 0x44, 0x46, 0x49, 0x4A, 0x4B, 0x4C, 0x79, 0x7A] ||
    (r.major == 0x7B && r.f0 == 3)

/-- A destination names a register. -/
def Dst.names (d : Dst) (isV : Bool) (r : Nat) : Bool :=
  match d with
  | .g k => !isV && k == r
  | .v k => isV && k == r
  | .vs k n => isV && k ≤ r && r < k + n
  | _ => false
/-- The result of an absent register comes from an access suspended at a Prism: the slot is not kept (R225). -/
def absentStop (s : State) (isV : Bool) (r : Nat) : Stop :=
  let x := here s
  if x.pend.any fun p => p.dst.names isV r && p.pieces.any fun q =>
      q.known.isNone && s.ms.susp.any fun u => u.cid == s.cur && u.ty != 1 && u.block == blockOf q.pa
  then .wait .tag else .stall

/-- What stops a head before it is performed: the decode-time traps in rank order, then absence and poison of
its sources, and absence of its destinations (R174, R299, R336, R355). -/
def issueStop (s : State) (r : Row) (u : Use) : Option Stop :=
  let x := here s
  let c := s.cur
  let fir := x.fir.getD {}
  if isThread c && !threadMajor r.major then some (.trap 0x02 0 0)
  else if !isThread c && r.major == 0x7E then some (.trap 0x02 0 0x08)
  else if fir.lens.isSome && lensRefuses r then some (.trap 0x02 0 0x01)
  else if fir.paired && pairRefuses r then some (.trap 0x02 0 0x04)
  else if !x.sup && !isThread c && (r.major == 0x7C || r.major == 0x7D) then some (.trap 0x05 0 0)
  else if !((u.rg ++ u.wg ++ u.ng).all (allotG c x) && (u.rv ++ u.wv ++ u.nv).all (allotV c x)) then some (.trap 0x04 0 0)
  else match (u.rg ++ u.wg).find? fun r => !presentG x r with
    | some k => some (absentStop s false k)
    | none =>
      match (u.rv ++ u.wv).find? fun r => !presentV x r with
      | some k => some (absentStop s true k)
      | none =>
        match u.rg.find? fun r => SMap.get 0 x.poiG r != 0 with
        | some k => some (.trap 0x12 0 (SMap.get 0 x.poiG k - 1))
        | none =>
          match u.rv.find? fun r => SMap.get 0 x.poiV r != 0 with
          | some k => some (.trap 0x12 0 (SMap.get 0 x.poiV k - 1))
          | none => none

/-! ### Operands and results -/

/-- The immediate of the head's form, sign-extended to 64 bits (R334). -/
def Head.sext64 (h : Head) : W64 :=
  match h.form with
  | .T4 => h.imm.signExtend 64
  | _ => (BitVec.ofNat 16 h.imm.toNat).signExtend 64

/-- The g registers that A, B and D name. -/
def gA (s : State) (h : Head) : Cap := readG (here s) h.a.toNat
def gB (s : State) (h : Head) : Cap := readG (here s) h.b.toNat
def gD (s : State) (h : Head) : Cap := readG (here s) h.d.toNat
/-- Operand a: the integer gA gives (R338, R354). -/
def opA (s : State) (h : Head) : W64 := (gA s h).val
/-- Operand b: gB in T1, the immediate in T2 and T4 (R354). -/
def opB (s : State) (h : Head) : W64 :=
  match h.form with
  | .T2 | .T4 => Head.sext64 h
  | _ => (gB s h).val

/-- Write a g register. -/
def setG (r : BitVec 6) (c : Cap) : X Unit := upd (modHere fun x => writeG x r.toNat c)
/-- Write an integer result (R338). -/
def setInt (r : BitVec 6) (v : W64) : X Unit := setG r (Cap.ofInt v)
/-- Write a v register. -/
def setV (r : BitVec 6) (v : VReg) : X Unit := upd (modHere fun x => writeV x r.toNat v)

/-- The effective address of a memory head (R391). -/
def effAddr (s : State) (h : Head) : Nat :=
  let b := baseAddr s (gA s h)
  match h.form with
  | .T2 | .T4 => (b + (Head.sext64 h).toNat) % 2 ^ 57
  | _ => (b + (gB s h).val.toNat) % 2 ^ 57

/-! ### Completion -/

/-- Where execution goes on after a head: at the next head; at the next head once the results have returned, for
an acquire that a packet answers; at another line; at the same head, after one step of a restartable move (R397); or
nowhere, when the firing or the handler run has ended. -/
inductive Next where
  | seq
  | park
  | go (pc : Pc)
  | again
  | gone
  deriving DecidableEq, Repr

/-- The registers of R133 that a mirror partner has a copy of (R466). -/
def withRegs (x y : Ctx) : Ctx :=
  { x with g := y.g, v := y.v, m := y.m, f := y.f, fpflags := y.fpflags, poiG := y.poiG, poiV := y.poiV, asid := y.asid }

/-- Fold registers into a fingerprint: g registers with their tags, v and m registers (R201). -/
def foldG (x : Ctx) (rs : List Nat) (fp : W64) : W64 :=
  rs.foldl (fun f r =>
    let c := readG x r
    crcBits (crcBits (crcBits f c.w0.toNat 64) c.w1.toNat 64) (if c.tag then 1 else 0) 1) fp
def foldV (x : Ctx) (rs : List Nat) (fp : W64) : W64 := rs.foldl (fun f r => crcBits f (readV x r).toNat 1024) fp
/-- The values a retired head enters into the fingerprint: the destination registers it has written, those of an
outstanding result when that returns (R201). -/
def foldHead (x : Ctx) (u : Use) (fp : W64) : W64 :=
  (u.wm.foldl (fun f r => crcBits f (readM x r).toNat 32)) (foldV x (u.wv.filter (presentV x)) (foldG x (u.wg.filter (presentG x)) fp))
/-- The address and operands that a head of R201's list enters into the fingerprint. -/
def foldOperands (x : Ctx) (u : Use) (fp : W64) : W64 := foldV x u.rv (foldG x u.rg fp)

/-- A retired head counts in the interval; the 256th head or the 32nd held store closes it (R201). The head after which
checked execution starts takes the first checkpoint (R466). -/
def pairRetire (u : Use) (s : State) : State :=
  if !(firOf s s.cur).paired then s
  else
    let c := s.cur
    let close (p : Pair) : Bool := p.started && (255 ≤ p.count || 32 ≤ p.held.length)
    let shut := s.grp.pairs.any fun p => p.prim == c && close p
    let s := modGrp (fun g => { g with pairs := g.pairs.map fun p =>
      if p.prim == c && !p.started then { p with started := true, check := here s, checkP := ctxOf s p.part }
      else if p.prim == c then
        { p with count := p.count + 1, fp := foldHead (here s) u p.fp, closed := p.closed || close p, boundary := close p }
      else p }) s
    if shut then modCtx c (fun x => { x with st := .waiting, wait := .pair, since := s.cyc }) (leaveSlot c s) else s

/-- A switch marker (R162, R193): the slot is released, and the context parks until its results return. A lens
keeps the slot and only waits. -/
def markerPark (c : Nat) (s : State) : State :=
  let x := ctxOf s c
  if x.fir.any (·.lens.isSome) then
    (if x.pend.isEmpty then s else setCtx s c { x with st := .stalled, wait := .marker, since := s.cyc })
  else
  let s := leaveSlot c s
  if x.pend.isEmpty then setCtx s c { x with st := .ready }
  else setCtx s c { x with st := .parked, wait := .marker, since := s.cyc }

/-- A Prism thread performed one more instruction; at the limit its handler is stopped (R236). -/
def countRun (c : Nat) (s : State) : State :=
  let s := modRun c (fun r => { r with count := r.count + 1 }) s
  match runOf s c with
  | some r => if (prismOf s (prismNo c)).wd ≤ r.count then stopHandler c 0x15 false s else s
  | none => s

/-- The PC after a head (R331). -/
def nextPc (s : State) (n : Next) : Pc :=
  match n with
  | .go pc => pc
  | .again => (here s).pc
  | _ => pcAfter (here s).pc s.heads

/-- The PC moves, a thread's or an interval's head counts, and a switch marker takes effect (R162, R201, R236,
R331). -/
def advance (h : Head) (u : Use) (n : Next) (s : State) : State :=
  let pc := nextPc s n
  let s := modHere (fun x => { x with st := .issuing, pc := pc, wait := .none, granted := false, fetched := [], relBegun := false }) s
  if isThread s.cur then (if n == .again then s else countRun s.cur s)
  else
    let s := if n == .again then s else pairRetire u s
    if (n == .park || (h.s && n != .again)) && (here s).st != .waiting then markerPark s.cur s else s

/-- A head completes: pops and pushes of its stream registers are performed, and execution goes on (R444). -/
def retire (h : Head) (u : Use) (n : Next) : X Unit :=
  match n with
  | .gone => pure ()
  | _ => do
    u.rv.eraseDups.forM popDone
    u.wv.forM pushOut
    upd (advance h u n)

/-! ### Stops -/

/-- What an access that waits in place leaves behind: walks in flight and messages to Prisms (R225, R291). -/
def keepRequests (s t : State) : State :=
  { s with tr := t.tr, prisms := t.prisms, ms := { s.ms with susp := t.ms.susp } }

/-- The context waits: the wait is recorded and the slot released (R163). A wait begun again keeps its age. -/
def beginWait (c : Nat) (w : Wait) (s : State) : State :=
  let x := ctxOf s c
  let t := setCtx (leaveSlot c s) c { x with st := .waiting, wait := w, granted := false, since := if x.wait == w then x.since else s.cyc }
  match w with
  | .grow _ _ => noteStall (coreNo c) t
  | _ => t

/-- Close the open interval of a mirror pair before a head that ends it, or before a trap (R201). -/
def closeInterval (c : Nat) (s : State) : State :=
  modGrp (fun g => { g with pairs := g.pairs.map fun p => if p.prim == c then { p with closed := true, boundary := false } else p }) s

/-- A context runs in checked execution and its head has not been confirmed. -/
def unconfirmedOf (s : State) (c : Nat) : Bool :=
  (firOf s c).paired && s.grp.pairs.any fun p => p.prim == c && p.started &&
    ((ctxOf s c).wait == .none || ((ctxOf s c).wait != .pair && (p.count != 0 || !p.held.isEmpty)))
def unconfirmed (s : State) : Bool := unconfirmedOf s s.cur

/-- A stream failure is raised: the failed register of a read stream is passed over, the failure of a write
stream is taken (R180). -/
def streamTaken (v : Nat) (s : State) : State :=
  match unitOf s s.cur v with
  | some (k, u) => setUnit (coreNo s.cur) k (some (if u.write then { u with failed := none } else popped u)) s
  | none => s

/-- After a trap was taken between two intervals of checked execution the next one starts (R201). -/
def nextInterval (c : Nat) (s : State) : State :=
  if !(firOf s c).paired then s
  else modGrp (fun g => { g with pairs := g.pairs.map fun p =>
    if p.prim == c && !p.started then { p with started := true, check := ctxOf s c, checkP := ctxOf s p.part } else p }) s

/-- A trap strikes a head: it waits for the outstanding results of older heads, in checked execution for its
interval, and is then taken (R201, R298, R301); a missed promise is marked as taken (R382), and the mark of an MMA
mismatch goes (R184); a handler is stopped
(R236). -/
def trapAt (s : State) (cause addr info : Nat) : State :=
  if isThread s.cur then stopHandler s.cur cause false s
  else if !(here s).pend.isEmpty then
    modHere (fun x => { x with st := .waiting, wait := .marker, since := s.cyc }) (leaveSlot s.cur s)
  else if unconfirmed s then beginWait s.cur .pair (closeInterval s.cur s)
  else
    let taken (f : Firing) : Firing :=
      if cause == 0x0D then { f with missTaken := f.missTaken ++ [info] }
      else if cause == 0x02 && info == 3 then { f with mmaBad := false } else f
    nextInterval s.cur (takeTrap s.cur cause addr info (modFir s.cur taken s))

/-- A translation fault: the firing is FAULTED and parks on its fault record (R187, R296, R297). -/
def faultAt (s : State) (va cause level : Nat) (kind : BitVec 8) : State :=
  let f := firOf s s.cur
  let fr := mkFault s (here s).asid.toNat va cause level f.handle kind (inGang s f)
  let s := openFault fr (.ctx f.handle) (gangPeer s.cur s)
  let id := ((s.tr.faults.find? fun r => r.waiters.contains (.ctx f.handle)).map (·.id)).getD 0
  beginWait s.cur (.fault id cause va) s

/-- The state after a head that does not complete: `s` before it, `t` where it stopped. -/
def onStop (s t : State) : Stop → State
  | .trap cause addr info => trapAt s cause addr info
  | .stream v addr sub =>
    if (here s).pend.isEmpty && !unconfirmed s then trapAt (streamTaken v s) 0x13 addr sub else trapAt s 0x13 addr sub
  | .stall => if isThread s.cur then s else modHere (fun x => { x with st := .stalled }) (keepRequests s t)
  | .wait (.walk p) =>
    if isThread s.cur then s
    else modHere (fun x => { x with st := .stalled, wait := .walk p, since := s.cyc }) (keepRequests s t)
  | .fault va cause level kind =>
    if isThread s.cur then s else if unconfirmed s then beginWait s.cur .pair (closeInterval s.cur s)
    else faultAt (keepRequests s t) va cause level kind
  | .wait .tag => beginWait s.cur .tag (keepRequests s t)
  | .wait .pair => beginWait s.cur .pair (closeInterval s.cur { s with grp := t.grp })
  | .wait w =>
    if isThread s.cur then modHere (fun x => { x with wait := w, granted := false }) t
    else if unconfirmed s then beginWait s.cur .pair (closeInterval s.cur s)
    else beginWait s.cur w t

/-! ### The runner -/

/-- A head of checked execution that ends its interval enters its operands and waits for the confirmation first (R201). -/
def pairGate (r : Row) (u : Use) : X Unit := do
  let s ← get
  if unconfirmed s && endsInterval r then
    upd (modGrp fun g => { g with pairs := g.pairs.map fun p =>
      if p.prim == s.cur then
        { p with fp := foldOperands (here s) u p.fp, fpP := foldOperands (ctxOf s p.part) u p.fpP }
      else p })
    throw (.wait .pair)

/-- Perform a head: pops come in, its body runs, and it completes. -/
def perform (r : Row) (h : Head) (u : Use) (body : X Next) : X Unit := do
  pairGate r u
  u.rv.eraseDups.forM popIn
  u.wv.forM pushCheck
  let n ← body
  retire h u n

/-- Heads that each core of a pair computes for itself; the results of the others the primary forwards (R200). -/
def computesAlone (r : Row) : Bool :=
  r.major ≤ 0x24 || (0x50 ≤ r.major && r.major ≤ 0x5F) || r.major ∈ [0x62, 0x63, 0x65, 0x69, 0x6A]
/-- A forwarded result: the destination registers of the primary that are written (R200). -/
def forwarded (x y : Ctx) (u : Use) : Ctx :=
  let x := (u.wg.filter (presentG y)).foldl (fun x r => { writeG x r (readG y r) with poiG := SMap.set 0 x.poiG r (SMap.get 0 y.poiG r) }) x
  let x := (u.wv.filter (presentV y)).foldl (fun x r => { writeV x r (readV y r) with poiV := SMap.set 0 x.poiV r (SMap.get 0 y.poiV r) }) x
  { x with m := y.m, f := y.f, fpflags := y.fpflags }
/-- The partner's side of a head that the primary has performed, from `s` to `t`: it computes the head on its own
registers, or takes the value forwarded to it, and folds its registers and stores (R200, R201). -/
def partnerHead (r : Row) (u : Use) (body : X Next) (s t : State) : State :=
  match partnerOf s s.cur, partnerOf t s.cur with
  | some q, some _ =>
    let x := ctxOf s q
    let alone : State := { setCtx t q { x with
      pc := (here s).pc
      sup := (here s).sup
      chunks := none
      fir := (here s).fir.map fun f => { f with paired := false } } with cur := q, heads := s.heads }
    let n := (coreOf alone (coreNo q)).sb.length
    let (y, es) := match body alone with
      | .ok _ v => (if computesAlone r then withRegs x (ctxOf v q) else forwarded x (ctxOf t s.cur) u, (coreOf v (coreNo q)).sb.drop n)
      | .error _ _ => (forwarded x (ctxOf t s.cur) u, [])
    let y := { y with chunks := (ctxOf t q).chunks }
    modGrp (fun g => { g with pairs := g.pairs.map fun p =>
      if p.prim == s.cur && p.started then { p with fpP := foldStores es (foldHead y u p.fpP) } else p }) (setCtx t q y)
  | _, _ => t

/-- Run a head of the issuing context. Every outcome is a next state: its effect, a trap taken, a wait begun
or a stall. -/
def runHead (r : Row) (h : Head) (u : Use) (body : X Next) (s : State) : Host.Outcome State Fault Refusal :=
  match issueStop s r u with
  | some st => .next (onStop s s st)
  | none =>
    match perform r h u body s with
    | .ok _ t => .next (partnerHead r u body s t)
    | .error st t => .next (onStop s t st)

/-- A head that computes one integer from a and b (R354). -/
def intHead (r : Row) (h : Head) (f : W64 → W64 → W64) (s : State) : Host.Outcome State Fault Refusal :=
  runHead r h (Use.ofRow r h) (do
    let s ← get
    setInt h.d (f (opA s h) (opB s h))
    pure .seq) s

/-- A head that derives a capability from gA and operand b (R364). -/
def capHead (r : Row) (h : Head) (f : Cap → W64 → Cap) (s : State) : Host.Outcome State Fault Refusal :=
  runHead r h (Use.ofRow r h) (do
    let s ← get
    setG h.d (f (gA s h) (opB s h))
    pure .seq) s

/-- The context's wait has been answered: its event has occurred (R163). -/
def answered (w : Wait) : X Bool := do
  let s ← get
  pure ((here s).granted && (here s).wait == w)

end Sys2Proof.Machine
end

