-- ==== Sys2Proof/Machine/Fetch.lean ====
section
/-! DEFINITION. Whose turn it is and which instruction it runs: the selector (R162, R172 of
06_execution_model.md), the fetch of a line (R213, R331, R332 of 12_isa_encoding.md) by a core or a Prism thread,
and traps taken at an instruction boundary (R74, R300). -/

namespace Sys2Proof.Machine

/-- What a turn comes to: an instruction to run in a state, a state, or a stop of the machine. -/
inductive Turn where
  | run (i : Instr) (s : State)
  | done (s : State)
  | stop (f : Fault)

/-- The contexts of a core that the selector may give the slot to (R172). -/
def isReady (s : State) (c : Nat) : Bool := (ctxOf s c).st == .ready && (ctxOf s c).fir.isSome
/-- A context that holds the slot still wants it. -/
def holdsOn (s : State) (c : Nat) : Bool := (ctxOf s c).st ∈ [.issuing, .stalled, .ready] && (ctxOf s c).fir.isSome

/-- The selector: the holder, else round-robin among the ready contexts of the highest priority (R162). -/
def selectCtx (s : State) (core : Nat) : Option Nat :=
  let k := coreOf s core
  let holder := k.slot.filter fun j => holdsOn s (core * 8 + j)
  match holder with
  | some j => some j
  | none =>
    let order := (List.range 8).filter (fun j => !k.rr.contains j) ++ k.rr
    let ready := order.filter fun j => isReady s (core * 8 + j)
    let prio (j : Nat) : Nat := (firOf s (core * 8 + j)).prio
    let top := ready.foldl (fun m j => Nat.max m (prio j)) 0
    ready.find? fun j => prio j == top

/-- The chosen context takes or keeps the slot and issues (R172). -/
def takeSlot (core j : Nat) (s : State) : State :=
  let fresh := (coreOf s core).slot != some j
  let s := modCore core (fun k => { k with
    slot := some j
    slotSince := if fresh then s.cyc else k.slotSince
    rr := k.rr.filter (· != j) ++ [j] }) s
  { modCtx (core * 8 + j) (fun x => { x with st := .issuing }) s with cur := core * 8 + j }

/-- Memory that a home slice may cache (R210). -/
def isHome (s : State) (pa : Nat) : Bool :=
  match spaceOf s pa with
  | .hbm | .host | .remote _ _ => true
  | _ => false
/-- The line a core fetches: from its L1I, else read as a load and filled; a window's line is not cached (R210, R211,
R213). -/
def fetchLine (core pa : Nat) : X Line := do
  let s ← get
  match SMap.get none (coreOf s core).l1i (blockOf pa) with
  | some l => pure l.data
  | none =>
    match performRead s.cur pa 64 false s with
    | (.held, t) => set t; throw .stall
    | (.poison info, _) => raise 0x12 pa info
    | (.val x _, t) =>
      set (if isHome s pa then l1iPut core (blockOf pa) { data := BitVec.ofNat 512 x } t
        else t)
      pure (BitVec.ofNat 512 x)

/-- The instruction at the PC of the issuing context, from its line (R332, R336). -/
def decodeAt (l : Line) : X Instr := do
  let s ← get
  match lineBad l (here s).pc.head with
  | some info => raise 0x01 0 info
  | none =>
    upd fun s => { s with heads := headsOf l }
    match decodeLine l (here s).pc.head with
    | .error sub => illegal sub
    | .ok i => pure i

/-- Fetch and decode for a core's context. -/
def fetchCore : X Instr := do
  let s ← get
  let (pa, attr) ← translate (here s).pc.line kExec
  decodeAt (← fetchLine (coreNo s.cur) (replicaPa attr (dieOfCore (coreNo s.cur)) pa))

/-- Fetch and decode for a Prism thread: physical addresses, no tag check (R230). -/
def fetchThread : X Instr := do
  let s ← get
  let pa := (here s).pc.line
  if poisonAt s pa 64 then raise 0x12 pa
  upd (correct pa 64)
  decodeAt (BitVec.ofNat 512 (peek s pa 64))

/-- A turn of fetched code: the instruction, or what stopped the fetch. -/
def fetchTurn (f : X Instr) (s : State) : Turn :=
  match f s with
  | .ok i t => .run i t
  | .error st t => .done (onStop s t st)

end Sys2Proof.Machine
end

