-- ==== Sys2Proof/Machine/Integer.lean ====
section
/-! DEFINITION. The integer heads (R354 to R363 of 13_isa_scalar_control.md). -/

namespace Sys2Proof.Machine

/-! ### What they compute -/

/-- The low 32 bits, sign-extended from bit 31 (R356). -/
def sext32 (x : W64) : W64 := (x.setWidth 32).signExtend 64
/-- A truth value as an integer. -/
def bit (b : Bool) : W64 := if b then 1 else 0
/-- The 128-bit products of R357. -/
def mulHigh (a b : W64) : W64 := BitVec.ofInt 64 (a.toInt * b.toInt / 2 ^ 64)
def mulHighU (a b : W64) : W64 := BitVec.ofNat 64 (a.toNat * b.toNat / 2 ^ 64)

/-- The quotient and remainder of R358. -/
def divS (a b : W64) : W64 :=
  if b = 0 then BitVec.allOnes 64
  else if a = BitVec.intMin 64 ∧ b = BitVec.allOnes 64 then BitVec.intMin 64
  else BitVec.ofInt 64 (a.toInt.tdiv b.toInt)
def divU (a b : W64) : W64 := if b = 0 then BitVec.allOnes 64 else BitVec.ofNat 64 (a.toNat / b.toNat)
def remS (a b : W64) : W64 :=
  if b = 0 then a
  else if a = BitVec.intMin 64 ∧ b = BitVec.allOnes 64 then 0
  else BitVec.ofInt 64 (a.toInt - a.toInt.tdiv b.toInt * b.toInt)
def remU (a b : W64) : W64 := if b = 0 then a else BitVec.ofNat 64 (a.toNat % b.toNat)

/-- Significant bits of a number. -/
def sigBits (n : Nat) : Nat := if n = 0 then 0 else Nat.log2 n + 1
/-- The latency of a division, by the larger operand (R173). -/
def divLatency (signed : Bool) (a b : W64) : Nat :=
  let mag (x : W64) : Nat := if signed then x.toInt.natAbs else x.toNat
  10 + 2 * ((sigBits (Nat.max (mag a) (mag b)) + 4) / 5)

/-- The shift amount: b mod 64 (R359). -/
def shAmt (b : W64) : Nat := b.toNat % 64

/-- Bit counts and reversals (R360). -/
def clz64 (a : W64) : W64 := BitVec.ofNat 64 (64 - sigBits a.toNat)
def ctz64 (a : W64) : W64 := BitVec.ofNat 64 (((List.range 64).find? fun i => a.getLsbD i).getD 64)
def popc64 (a : W64) : W64 := BitVec.ofNat 64 ((List.range 64).filter fun i => a.getLsbD i).length
def brev64 (a : W64) : W64 :=
  BitVec.ofNat 64 ((List.range 64).map fun i => if a.getLsbD i then 2 ^ (63 - i) else 0).sum
def bswap64 (a : W64) : W64 :=
  BitVec.ofNat 64 ((List.range 8).map fun i => bitsOf a.toNat (8 * i + 7) (8 * i) * 2 ^ (8 * (7 - i))).sum

/-- Position and length of EXT, EXTU and INS (R361). -/
def extPos (h : Head) : Nat := h.im 5 0
def extLen (h : Head) : Nat := h.im 11 6 + 1
def extField (h : Head) (a : W64) : Nat := a.toNat / 2 ^ extPos h % 2 ^ extLen h
def extS (h : Head) (a : W64) : W64 := BitVec.ofInt 64 (signedOf (extLen h) (extField h a))
def extU (h : Head) (a : W64) : W64 := BitVec.ofNat 64 (extField h a)
def insF (h : Head) (d a : W64) : W64 :=
  BitVec.ofNat 64 (d.toNat - extField h d * 2 ^ extPos h + a.toNat % 2 ^ extLen h * 2 ^ extPos h)

/-! ### Shapes -/

/-- The state after a head of variable latency that computes one integer: its destination is absent until the result
arrives (R173, R174). A Prism thread has it at once. -/
def withLate (d : BitVec 6) (v : W64) (lat : Nat) (s : State) : State :=
  if isThread s.cur then modHere (fun x => writeG x d.toNat (Cap.ofInt v)) s
  else withPend (.g d.toNat) [] (.cst (Cap.ofInt v)) lat s
def lateInt (d : BitVec 6) (v : W64) (lat : Nat) : X Unit := upd (withLate d v lat)

/-- The division heads (R358). -/
def divHead (r : Row) (h : Head) (signed : Bool) (f : W64 → W64 → W64) (s : State) : Host.Outcome State Fault Refusal :=
  runHead r h (Use.ofRow r h) (do
    let s ← get
    lateInt h.d (f (opA s h) (opB s h)) (divLatency signed (opA s h) (opB s h))
    pure .seq) s

/-- CSEL and CSELZ: gA or gB whole, by the condition register that the immediate names (R362). -/
def selHead (r : Row) (h : Head) (onZero : Bool) (s : State) : Host.Outcome State Fault Refusal :=
  runHead r h ((Use.ofRow r h).andG [h.im 5 0]) (do
    let s ← get
    let c := (readG (here s) (h.im 5 0)).val
    setG h.d (if (c == 0) == onZero then gA s h else gB s h)
    pure .seq) s

/-! ### The heads -/

/-- NOP: nothing but the switch marker (R336). -/
def execNop (h : Head) (s : State) : Host.Outcome State Fault Refusal := runHead Rows.nop h {} (pure .seq) s
def execAdd (h : Head) (s : State) : Host.Outcome State Fault Refusal := intHead Rows.add h (· + ·) s
def execAddW (h : Head) (s : State) : Host.Outcome State Fault Refusal := intHead Rows.addW h (fun a b => sext32 (a + b)) s
def execSub (h : Head) (s : State) : Host.Outcome State Fault Refusal := intHead Rows.sub h (· - ·) s
def execSubW (h : Head) (s : State) : Host.Outcome State Fault Refusal := intHead Rows.subW h (fun a b => sext32 (a - b)) s
def execMul (h : Head) (s : State) : Host.Outcome State Fault Refusal := intHead Rows.mul h (· * ·) s
def execMulh (h : Head) (s : State) : Host.Outcome State Fault Refusal := intHead Rows.mulh h mulHigh s
def execMulhu (h : Head) (s : State) : Host.Outcome State Fault Refusal := intHead Rows.mulhu h mulHighU s
def execMulW (h : Head) (s : State) : Host.Outcome State Fault Refusal := intHead Rows.mulW h (fun a b => sext32 (a * b)) s
def execDiv (h : Head) (s : State) : Host.Outcome State Fault Refusal := divHead Rows.div h true divS s
def execDivu (h : Head) (s : State) : Host.Outcome State Fault Refusal := divHead Rows.divu h false divU s
def execRem (h : Head) (s : State) : Host.Outcome State Fault Refusal := divHead Rows.rem h true remS s
def execRemu (h : Head) (s : State) : Host.Outcome State Fault Refusal := divHead Rows.remu h false remU s
def execAnd (h : Head) (s : State) : Host.Outcome State Fault Refusal := intHead Rows.and h (· &&& ·) s
def execOr (h : Head) (s : State) : Host.Outcome State Fault Refusal := intHead Rows.or h (· ||| ·) s
def execXor (h : Head) (s : State) : Host.Outcome State Fault Refusal := intHead Rows.xor h (· ^^^ ·) s
def execAndn (h : Head) (s : State) : Host.Outcome State Fault Refusal := intHead Rows.andn h (fun a b => a &&& ~~~b) s
def execShl (h : Head) (s : State) : Host.Outcome State Fault Refusal := intHead Rows.shl h (fun a b => a <<< shAmt b) s
def execShr (h : Head) (s : State) : Host.Outcome State Fault Refusal := intHead Rows.shr h (fun a b => a >>> shAmt b) s
def execSra (h : Head) (s : State) : Host.Outcome State Fault Refusal := intHead Rows.sra h (fun a b => a.sshiftRight (shAmt b)) s
def execRor (h : Head) (s : State) : Host.Outcome State Fault Refusal := intHead Rows.ror h (fun a b => a.rotateRight (shAmt b)) s
def execSeq (h : Head) (s : State) : Host.Outcome State Fault Refusal := intHead Rows.seq h (fun a b => bit (a == b)) s
def execSne (h : Head) (s : State) : Host.Outcome State Fault Refusal := intHead Rows.sne h (fun a b => bit (a != b)) s
def execSlt (h : Head) (s : State) : Host.Outcome State Fault Refusal := intHead Rows.slt h (fun a b => bit (a.slt b)) s
def execSge (h : Head) (s : State) : Host.Outcome State Fault Refusal := intHead Rows.sge h (fun a b => bit (!a.slt b)) s
def execSltu (h : Head) (s : State) : Host.Outcome State Fault Refusal := intHead Rows.sltu h (fun a b => bit (a.ult b)) s
def execSgeu (h : Head) (s : State) : Host.Outcome State Fault Refusal := intHead Rows.sgeu h (fun a b => bit (!a.ult b)) s
def execMin (h : Head) (s : State) : Host.Outcome State Fault Refusal := intHead Rows.min h (fun a b => if a.slt b then a else b) s
def execMax (h : Head) (s : State) : Host.Outcome State Fault Refusal := intHead Rows.max h (fun a b => if a.slt b then b else a) s
def execMinu (h : Head) (s : State) : Host.Outcome State Fault Refusal := intHead Rows.minu h (fun a b => if a.ult b then a else b) s
def execMaxu (h : Head) (s : State) : Host.Outcome State Fault Refusal := intHead Rows.maxu h (fun a b => if a.ult b then b else a) s
def execClz (h : Head) (s : State) : Host.Outcome State Fault Refusal := intHead Rows.clz h (fun a _ => clz64 a) s
def execCtz (h : Head) (s : State) : Host.Outcome State Fault Refusal := intHead Rows.ctz h (fun a _ => ctz64 a) s
def execPopc (h : Head) (s : State) : Host.Outcome State Fault Refusal := intHead Rows.popc h (fun a _ => popc64 a) s
def execBrev (h : Head) (s : State) : Host.Outcome State Fault Refusal := intHead Rows.brev h (fun a _ => brev64 a) s
def execBswap (h : Head) (s : State) : Host.Outcome State Fault Refusal := intHead Rows.bswap h (fun a _ => bswap64 a) s
def execExt (h : Head) (s : State) : Host.Outcome State Fault Refusal := intHead Rows.ext h (fun a _ => extS h a) s
def execExtu (h : Head) (s : State) : Host.Outcome State Fault Refusal := intHead Rows.extu h (fun a _ => extU h a) s
/-- INS also reads gD (R361). -/
def execIns (h : Head) (s : State) : Host.Outcome State Fault Refusal :=
  runHead Rows.ins h (Use.ofRow Rows.ins h).readD (do
    let s ← get
    setInt h.d (insF h (gD s h).val (opA s h))
    pure .seq) s
def execCsel (h : Head) (s : State) : Host.Outcome State Fault Refusal := selHead Rows.csel h false s
def execCselz (h : Head) (s : State) : Host.Outcome State Fault Refusal := selHead Rows.cselz h true s
/-- MADD: value(gD) + a × b (R363). -/
def execMadd (h : Head) (s : State) : Host.Outcome State Fault Refusal :=
  runHead Rows.madd h (Use.ofRow Rows.madd h).readD (do
    let s ← get
    setInt h.d ((gD s h).val + opA s h * opB s h)
    pure .seq) s

end Sys2Proof.Machine
end

