-- ==== Sys2Proof/Machine/Control.lean ====
section
/-! DEFINITION. The control heads (R373 to R388 of 13_isa_scalar_control.md). -/

namespace Sys2Proof.Machine

/-! ### Transfers -/

/-- A relative target: the line of the head + 64 × the offset, modulo 2^57 (R373). -/
def relTarget (s : State) (h : Head) : Pc :=
  ⟨((((here s).pc.line : Int) + 64 * (Head.sext64 h).toInt) % (2 ^ 57 : Nat)).toNat, 1⟩

/-- A transfer through a capability: the check at the head, and the target (R373). -/
def capTarget (c : Cap) : X Pc := do
  let s ← get
  check c (baseAddr s c) 64 CapF.EXE 64
  pure ⟨baseAddr s c, 1⟩

/-- The link capability of CALL: the line after its own (R375). -/
def linkCap (s : State) : Cap := CapF.make (CapF.EXE + CapF.GLB) (((here s).pc.line + 64) % 2 ^ 57) 64

/-- A branch (R374): B is the second operand, the immediate the offset. -/
def branchHead (r : Row) (h : Head) (f : W64 → W64 → Bool) (s : State) : Host.Outcome State Fault Refusal :=
  runHead r h (Use.ofRow r h) (do
    let s ← get
    pure (if f (opA s h) (gB s h).val then .go (relTarget s h) else .seq)) s

def execBeq (h : Head) (s : State) : Host.Outcome State Fault Refusal := branchHead Rows.beq h (fun a b => a == b) s
def execBne (h : Head) (s : State) : Host.Outcome State Fault Refusal := branchHead Rows.bne h (fun a b => a != b) s
def execBlt (h : Head) (s : State) : Host.Outcome State Fault Refusal := branchHead Rows.blt h (fun a b => a.slt b) s
def execBge (h : Head) (s : State) : Host.Outcome State Fault Refusal := branchHead Rows.bge h (fun a b => !a.slt b) s
def execBltu (h : Head) (s : State) : Host.Outcome State Fault Refusal := branchHead Rows.bltu h (fun a b => a.ult b) s
def execBgeu (h : Head) (s : State) : Host.Outcome State Fault Refusal := branchHead Rows.bgeu h (fun a b => !a.ult b) s
def execBz (h : Head) (s : State) : Host.Outcome State Fault Refusal := branchHead Rows.bz h (fun a _ => a == 0) s
def execBnz (h : Head) (s : State) : Host.Outcome State Fault Refusal := branchHead Rows.bnz h (fun a _ => a != 0) s

/-- JMP (R375). -/
def execJmp (h : Head) (s : State) : Host.Outcome State Fault Refusal :=
  runHead Rows.jmp h {} (do
    let s ← get
    pure (.go (relTarget s h))) s
/-- JMP.C and RET (R376). -/
def viaHead (r : Row) (h : Head) (s : State) : Host.Outcome State Fault Refusal :=
  runHead r h (Use.ofRow r h) (do
    let s ← get
    pure (.go (← capTarget (gA s h)))) s
def execJmpC (h : Head) (s : State) : Host.Outcome State Fault Refusal := viaHead Rows.jmpC h s
def execRet (h : Head) (s : State) : Host.Outcome State Fault Refusal := viaHead Rows.ret h s
/-- CALL: the link, then the move (R375). -/
def execCall (h : Head) (s : State) : Host.Outcome State Fault Refusal :=
  runHead Rows.call h (Use.ofRow Rows.call h) (do
    let s ← get
    setG h.d (linkCap s)
    pure (.go (relTarget s h))) s
/-- CALL.C reads gA before it writes the link (R376). -/
def execCallC (h : Head) (s : State) : Host.Outcome State Fault Refusal :=
  runHead Rows.callC h (Use.ofRow Rows.callC h) (do
    let s ← get
    let pc ← capTarget (gA s h)
    setG h.d (linkCap s)
    pure (.go pc)) s
/-- LOOP (R377). -/
def execLoop (h : Head) (s : State) : Host.Outcome State Fault Refusal :=
  runHead Rows.loop h (Use.ofRow Rows.loop h).readD (do
    let s ← get
    let c := (gD s h).val
    if 1 < c.toNat then
      setInt h.d (c - 1)
      pure (.go (relTarget s h))
    else
      setInt h.d 0
      pure .seq) s

/-! ### The end of a firing -/

/-- Wait until every outstanding result of the context has returned (R378). -/
def awaitResults : X Unit := do
  let s ← get
  if (here s).pend.isEmpty then pure () else throw (.wait .marker)

/-- The failure of a bound write stream not yet raised (R180, R378). -/
def streamFailure (s : State) : Option (Nat × Nat × Nat) :=
  (coreOf s (coreNo s.cur)).units.findSome? fun (_, u) =>
    match u with
    | some u => if u.cid == s.cur && u.write then u.failed.map fun f => (u.v, f.1, f.2) else none
    | none => none

/-- Wake(h): a firing of the issuing core is woken; a wake that no live firing takes is dropped with a record
(R379). -/
def wakeHandle (h : Nat) (s : State) : State :=
  if liveHandle s h then recordWake h s
  else supRecord { code := 0x47, source := 0, unit := coreNo s.cur, handle := h, asid := (here s).asid.toNat } s

/-- END and ENDE (R378); in a Prism thread END ends the handler run and ENDE stops it (R479). -/
def endHead (r : Row) (h : Head) (status : Nat) (s : State) : Host.Outcome State Fault Refusal :=
  runHead r h (Use.ofRow r h).srcD (do
    let s ← get
    if isThread s.cur then
      if status == stDone then upd (endRun s.cur)
      else upd (stopHandler s.cur 0x15 true ∘ modRun s.cur fun r => { r with count := r.count + 1 })
      return .gone
    awaitResults
    match streamFailure s with
    | some (v, a, sub) => throw (.stream v a sub)
    | none => pure ()
    let w := (gD s h).val.toNat % 2 ^ 37
    if h.d != 0 && (handleDev w != s.dev || handleCore w != coreNo s.cur) then illegal 0x0A
    release 3
    if h.d != 0 then upd (wakeHandle w)
    upd (endFiring s.cur status)
    pure .gone) s
def execEndFiring (h : Head) (s : State) : Host.Outcome State Fault Refusal := endHead Rows.endFiring h stDone s
def execEnde (h : Head) (s : State) : Host.Outcome State Fault Refusal := endHead Rows.ende h stFailed s

/-- YIELD ends the hold on issue as a switch marker does (R380). -/
def execYield (h : Head) (s : State) : Host.Outcome State Fault Refusal := runHead Rows.yield { h with s := true } {} (pure .seq) s

/-! ### Waits -/

/-- The outstanding copy of the issuing core with a transfer identifier (R381). -/
def copyOf (s : State) (xid : Nat) : Option Copy := s.cp.copies.find? fun c => c.core == coreNo s.cur && c.xid == xid

/-- Raise the promise-missed trap at most once per copy and context (R258, R382). -/
def promiseCheck (c : Copy) : X Unit := do
  let s ← get
  if c.promise ≤ s.cyc && !((here s).fir.getD {}).missTaken.contains c.xid then raise 0x0D 0 c.xid

/-- WAITT (R381). A copy that completed during the wait has made its acquire when it ended the wait. -/
def execWaitt (h : Head) (s : State) : Host.Outcome State Fault Refusal :=
  runHead Rows.waitt h (Use.ofRow Rows.waitt h) (do
    let s ← get
    let a := (opA s h).toNat
    let b := (gB s h).val.toNat
    if ← answered (.waitt a b) then return .seq
    match copyOf s b with
    | some c =>
      promiseCheck c
      if a ≤ s.cyc then pure .seq else throw (.wait (.waitt a b))
    | none =>
      if b != 0 then
        upd (acquire 5)
        pure .seq
      else if a ≤ s.cyc then pure .seq else throw (.wait (.waitt a b))) s

/-- WAITE message: a recorded wake is taken (R383). -/
def execWaiteMsg (h : Head) (s : State) : Host.Outcome State Fault Refusal :=
  runHead Rows.waiteMsg h {} (do
    let s ← get
    if 0 < (firOf s s.cur).wakes then
      upd (modFir s.cur fun f => { f with wakes := f.wakes - 1 })
      upd (acquire 3)
      pure .seq
    else throw (.wait .waiteMsg)) s

/-- A stall of a body as a wait. -/
def stallAs {α : Type} (w : Wait) (x : X α) : X α :=
  tryCatch x fun e => throw (match e with
    | .stall => .wait w
    | e => e)

/-- WAITE stream: until a pop or push would not stall (R383); it names the register, and raises a write stream's failure (R180). -/
def execWaiteStr (h : Head) (s : State) : Host.Outcome State Fault Refusal :=
  runHead Rows.waiteStr h (Use.ofRow Rows.waiteStr h).nameV (do
    let s ← get
    match unitOf s s.cur h.a.toNat with
    | none => pure .seq
    | some (_, u) =>
      if u.write then
        match u.failed with
        | some (a, sub) => throw (.stream u.v a sub)
        | none => pure ()
        let named := u.slot.any (slotNamed s (stripNo (coreNo s.cur)))
        if u.out.isEmpty && !named then pure .seq else throw (.wait (.waiteStr h.a.toNat))
      else if !u.ahead.isEmpty then pure .seq
      else
        let _ ← stallAs (.waiteStr h.a.toNat) (popValue u)
        pure .seq) s

/-- WAITE ring record (R383). -/
def execWaiteRing (h : Head) (s : State) : Host.Outcome State Fault Refusal :=
  runHead Rows.waiteRing h (Use.ofRow Rows.waiteRing h) (do
    let s ← get
    let a := (opA s h).toNat
    if ← answered (.waiteRing a) then return .seq
    match copyOf s a with
    | some c =>
      promiseCheck c
      throw (.wait (.waiteRing a))
    | none =>
      upd (acquire 5)
      pure .seq) s

/-- The state of an operand slot of the issuing core's strip. -/
def slotOf_ (s : State) (k : Nat) : Slot := SMap.get {} (stripOf s (stripNo (coreNo s.cur))).slots k

/-- WAITE slot: until the slot is not RELEASING (R383). -/
def execWaiteSlot (h : Head) (s : State) : Host.Outcome State Fault Refusal :=
  runHead Rows.waiteSlot h (Use.ofRow Rows.waiteSlot h) (do
    let s ← get
    let k := (opA s h).toNat % 128
    if (slotOf_ s k).st == .releasing then throw (.wait (.waiteSlot k)) else pure .seq) s

/-! ### FIRE -/

/-- Read `n` granules of 16 bytes with their tags, as loads performed now (R384). -/
def readGranules (c : Cap) (va : Nat) : Nat → X (Nat × List Bool)
  | 0 => pure (0, [])
  | n + 1 => do
    let (pa, attr) ← translate va kRead
    windowCheck c va pa
    let s ← get
    ensure (!lockHit s va 16 false) 0x0C va
    let pa := replicaPa attr (dieOfCore (coreNo s.cur)) pa
    match ← readNow pa 16 (cacheable s attr pa) (remoteDirect s attr pa) with
    | .held => throw .stall
    | .poison info => raise 0x12 va info
    | .val x t =>
      let (rest, ts) ← readGranules c (va + 16) n
      pure (x + rest * 2 ^ 128, t :: ts)

/-- Entries of the firing queue outside the 8 reserved ones (R160). -/
def queuedPlain (s : State) (core : Nat) : Nat := ((coreOf s core).fq.filter fun q => q.restoreTo.isNone).length

/-- A firing of an actor started by a path, with its owner's queue and ASID (R137). -/
def newFiring (a : Actor) (path : Path) (asid : BitVec 12) (fn queue : Nat) (wid : W64) : Firing :=
  { path := path, actor := a, prio := a.prio, cch := a.cch, vch := a.vch, asid := asid, fn := fn, queue := queue, wid := wid }

/-- FIRE (R384). A Prism thread has no firing queue, and nothing is queued (log 16). -/
def execFire (h : Head) (s : State) : Host.Outcome State Fault Refusal :=
  runHead Rows.fire h (Use.ofRow Rows.fire h) (do
    let s ← get
    let c := gA s h
    let a := baseAddr s c
    check c a 128 CapF.LD 128
    if isThread s.cur then
      setInt h.d 0
      return .seq
    let (raw, ts) ← readGranules c a 8
    let f := firOf s s.cur
    match parseActor (actVer s f.fn) raw (ts.getD 0 false) (ts.getD 1 false) (ts.getD 2 false) with
    | none => raise 0x02 a 0x0A
    | some act =>
      let b := (gB s h).val
      let core := coreNo s.cur
      if queuedPlain s core < 56 then
        let q : QFiring := { fir := newFiring act .fire (here s).asid f.fn f.queue b, enq := s.cyc, starts := [(1, Cap.ofInt b)] }
        upd (modCore core fun k => { k with fq := k.fq ++ [q] })
        lateInt h.d 1 14
      else lateInt h.d 0 14
      pure .seq) s

/-! ### GROW and SHRINK -/

/-- GROW (R385): more than 8 chunks is refused; else the chunks are taken, or the context parks (R159). -/
def growHead (r : Row) (h : Head) (vec : Bool) (s : State) : Host.Outcome State Fault Refusal :=
  runHead r h {} (do
    let s ← get
    let n := h.im 3 0
    let c := s.cur
    let x := here s
    if ← answered (.grow vec n) then return .seq
    if n == 0 || isThread c || 8 < n + (if vec then vchOf c x else cchOf c x) then illegal 0x0A
    let free := poolsHold s c vec n && (growNext s (coreNo c)).isNone
    if free || (firOf s c).lens.isSome then
      upd (addChunks c vec n)
      pure .seq
    else throw (.wait (.grow vec n))) s
def execGrowC (h : Head) (s : State) : Host.Outcome State Fault Refusal := growHead Rows.growC h false s
def execGrowV (h : Head) (s : State) : Host.Outcome State Fault Refusal := growHead Rows.growV h true s

/-- Registers from `lo` up to `hi` are no longer the firing's: contents, marks and armed bits go (R386). -/
def dropRegs (vec : Bool) (lo hi : Nat) (x : Ctx) : Ctx :=
  let keep {α : Type} (m : SMap α) : SMap α := m.filter fun e => e.1 < lo || hi ≤ e.1
  let x := { x with hold := x.hold.filter fun e => e.isV != vec || e.reg < lo || hi ≤ e.reg }
  if vec then
    { x with v := keep x.v, absV := keep x.absV, poiV := keep x.poiV, dirtyV := keep x.dirtyV, armV := keep x.armV }
  else
    { x with g := keep x.g, absG := keep x.absG, poiG := keep x.poiG, dirtyG := keep x.dirtyG, armG := keep x.armG }

/-- An outstanding result goes to a register of a range. -/
def pendIn (vec : Bool) (lo hi : Nat) (p : Pend) : Bool :=
  match p.dst with
  | .g r => !vec && lo ≤ r && r < hi
  | .v r => vec && lo ≤ r && r < hi
  | .vs r n => vec && lo < r + n && r < hi
  | _ => false

/-- A firing gives back `n` chunks, the highest it holds, and parked GROWs are served (R159, R386). -/
def shrunk (c : Nat) (vec : Bool) (n : Nat) (s : State) : State :=
  let x := ctxOf s c
  let (lo, hi) := if vec then (4 * (vchOf c x - n), 4 * vchOf c x) else (8 * (cchOf c x - n), 8 * cchOf c x)
  let s := modCtx c (fun x => { dropRegs vec lo hi x with
    fir := x.fir.map fun f => if vec then { f with vch := f.vch - n } else { f with cch := f.cch - n } }) s
  let s := match partnerOf s c with
    | some q => modCtx q (fun x => { dropRegs vec lo hi x with chunks := some ((firOf s c).cch, (firOf s c).vch) }) s
    | none => s
  grantGrows (coreNo c) 8 (modPools c (fun k =>
    if vec then { k with poolV := k.poolV + n } else { k with poolC := k.poolC + n }) s)

/-- SHRINK (R386). -/
def shrinkHead (r : Row) (h : Head) (vec : Bool) (s : State) : Host.Outcome State Fault Refusal :=
  runHead r h {} (do
    let s ← get
    let n := h.im 3 0
    let c := s.cur
    let x := here s
    let have_ := if vec then vchOf c x else cchOf c x
    let least := if c % 8 == 7 then (if vec then 1 else 2) else (if vec then 0 else 1)
    let (lo, hi) := if vec then (4 * (have_ - n), 4 * have_) else (8 * (have_ - n), 8 * have_)
    let bound := vec && (List.range 32).any fun v => lo ≤ v && v < hi && (unitOf s c v).isSome
    if n == 0 || isThread c || have_ < n + least || bound then illegal 0x0A
    if x.pend.any (pendIn vec lo hi) then throw .stall
    upd (shrunk c vec n)
    pure .seq) s
def execShrinkC (h : Head) (s : State) : Host.Outcome State Fault Refusal := shrinkHead Rows.shrinkC h false s
def execShrinkV (h : Head) (s : State) : Host.Outcome State Fault Refusal := shrinkHead Rows.shrinkV h true s

/-! ### Software traps and return -/

/-- TRAP: the software trap with the immediate in TRAPINFO (R387). -/
def execTrap (h : Head) (s : State) : Host.Outcome State Fault Refusal :=
  runHead Rows.trap h {} (raise 0x14 0 (h.im 15 0)) s

/-- The head after TRAPPC, by the number of heads of its line (R388). -/
def afterTrap (s : State) : X Pc := do
  let pc : Pc := ⟨bitsOf (here s).trappc.toNat 56 6 * 64, bitsOf (here s).trappc.toNat 4 0⟩
  let (pa, attr) ← translate pc.line kExec
  let core := coreNo s.cur
  pure (pcAfter pc (headsOf (← fetchLine core (replicaPa attr (dieOfCore core) pa))))

/-- ERET (R388). -/
def execEret (h : Head) (s : State) : Host.Outcome State Fault Refusal :=
  runHead Rows.eret h (Use.ofRow Rows.eret h).srcD (do
    let s ← get
    let x := here s
    if !x.fl then illegal 0x0A
    let pc ← if h.d != 0 then capTarget (gD s h)
      else if bitsOf x.trapcause.toNat 7 0 == 0x14 then afterTrap s
      else pure ⟨bitsOf x.trappc.toNat 56 6 * 64, bitsOf x.trappc.toNat 4 0⟩
    upd (returnFromTrap s.cur pc)
    pure (.go pc)) s

end Sys2Proof.Machine
end

