-- ==== Sys2Proof/Machine/Memory.lean ====
section
/-! DEFINITION. Loads, stores, fences, restartable moves, pinning and cache control (R391 to R400 of
14_isa_memory_sync.md). -/

namespace Sys2Proof.Machine

/-! ### Loads and stores -/

/-- Bytes that F names (R393). -/
def ldBytes (f : BitVec 4) : Nat := 2 ^ (f.toNat % 4)
/-- The loads that sign-extend (R393). -/
def ldSigned (f : BitVec 4) : Bool := decide (f.toNat < 3)
/-- The destination of a load; D = 0 discards the value (R392). -/
def dstG (r : BitVec 6) : Dst := if r == 0 then .none else .g r.toNat

/-- LD (R393). -/
def execLd (h : Head) (s : State) : Host.Outcome State Fault Refusal :=
  runHead Rows.ld h (Use.ofRow Rows.ld h) (do
    let s ← get
    let n := ldBytes h.f
    let spans ← access (gA s h) (effAddr s h) n CapF.LD n kRead false
    issueLoad (dstG h.d) spans (.int n (ldSigned h.f))
    pure .seq) s

/-- ST (R393). -/
def execSt (h : Head) (s : State) : Host.Outcome State Fault Refusal :=
  runHead Rows.st h (Use.ofRow Rows.st h).srcD (do
    let s ← get
    let n := ldBytes h.f
    let spans ← access (gA s h) (effAddr s h) n CapF.ST n kWrite true
    issueStore spans ((gD s h).val.toNat % 2 ^ (8 * n)) false
    pure .seq) s

/-- Memory that carries no capability tags: another device's, or the CXL window's (R491). -/
def tagless (s : State) (pa : Nat) : Bool :=
  match spaceOf s pa with
  | .remote _ _ | .host => true
  | _ => false

/-- LDC: the tag is kept only under LDC permission, from memory that carries tags (R394, R491). -/
def execLdc (h : Head) (s : State) : Host.Outcome State Fault Refusal :=
  runHead Rows.ldc h (Use.ofRow Rows.ldc h) (do
    let s ← get
    let c := gA s h
    let spans ← access c (effAddr s h) 16 CapF.LD 16 kRead false
    let keep := CapF.holds c CapF.LDC && !isThread s.cur && spans.all fun sp => !tagless s sp.pa
    issueLoad (dstG h.d) spans (.cap keep)
    pure .seq) s

/-- The address lies in the scratchpad of a core. -/
def ownSpad (s : State) (core pa : Nat) : Bool :=
  match spaceOf s pa with
  | .spad k _ => k == core
  | _ => false

/-- The checks of an STC of a tagged value after translation, in the order SYS, GLB, memory without tags (R208,
R340, R394, R491). -/
def stcCheck (c x : Cap) (ea pa : Nat) : X Unit := do
  windowCheck c ea pa
  let s ← get
  if x.tag && !isThread s.cur then
    ensure (CapF.holds x CapF.GLB || ownSpad s (coreNo s.cur) pa) 0x08 ea 3
    ensure (!tagless s pa) 0x08 ea 1

/-- STC (R394). -/
def execStc (h : Head) (s : State) : Host.Outcome State Fault Refusal :=
  runHead Rows.stc h (Use.ofRow Rows.stc h).srcD (do
    let s ← get
    let c := gA s h
    let x := gD s h
    let ea := effAddr s h
    check c ea 16 CapF.ST 16
    ensure (!x.tag || isThread s.cur || CapF.holds c CapF.STC) 0x08 ea
    let (pa, attr) ← translate ea (if x.tag then kCapStore else kWrite)
    stcCheck c x ea pa
    let s ← get
    ensure (!lockHit s ea 16 true) 0x0C ea
    issueStore [{ va := ea, pa := pa, n := 16, attr := attr }] (x.w0.toNat + x.w1.toNat * 2 ^ 64) (x.tag && !isThread s.cur)
    pure .seq) s

/-! ### LDAQ, STRL and fences -/

/-- An outstanding read of some context of the issuing core meets these bytes. -/
def coreReads (s : State) (pa n : Nat) : Bool :=
  if isThread s.cur then readPending (here s) pa n
  else (List.range 8).any fun j => readPending (ctxOf s (coreNo s.cur * 8 + j)) pa n

/-- Read at the home slice now, after the core's own stores and reads of the bytes; at core scope the store buffer
and the L1 answer too (R267, R395). The piece holds what the read gave. -/
def readHome (sp : Span) (scope : Nat) : X Piece := do
  let s ← get
  let pa := replicaPa sp.attr (dieOfCore (coreNo s.cur)) sp.pa
  if coreReads s pa sp.n then throw .stall
  if scope != 0 && !isThread s.cur && forward s s.cur pa sp.n != .none then throw .stall
  match ← readNow pa sp.n (scope == 0 && !isThread s.cur && cacheable s sp.attr pa) (remoteDirect s sp.attr pa) with
  | .held => throw (.wait .tag)
  | .poison info =>
    if isThread s.cur then raise 0x12 sp.va info
    pure { pa := pa, n := sp.n, known := some 0, bad := some info }
  | .val x t => pure { pa := pa, n := sp.n, known := some x, knownTag := t }

/-- LDAQ: a load that is an acquire at Scope(B) (R267, R395). -/
def execLdaq (h : Head) (s : State) : Host.Outcome State Fault Refusal :=
  runHead Rows.ldaq h (Use.ofRow Rows.ldaq h) (do
    let s ← get
    let n := ldBytes h.f
    let spans ← access (gA s h) (effAddr s h) n CapF.LD n kRead false
    let ps ← spans.mapM fun sp => readHome sp h.b.toNat
    issuePieces (dstG h.d) ps (.int n (ldSigned h.f)) 0
    upd (acquire h.b.toNat)
    pure .seq) s

/-- STRL: a store that is a release at Scope(B) (R266, R395). -/
def execStrl (h : Head) (s : State) : Host.Outcome State Fault Refusal :=
  runHead Rows.strl h (Use.ofRow Rows.strl h).srcD (do
    let s ← get
    let n := ldBytes h.f
    let spans ← access (gA s h) (effAddr s h) n CapF.ST n kWrite true
    release h.b.toNat
    issueStore spans ((gD s h).val.toNat % 2 ^ (8 * n)) false
    pure .seq) s

/-- The stores of a context still buffered to replicated pages, or forwards under way (R217). -/
def replicaWork (s : State) (cid : Nat) : Bool :=
  ((coreOf s (coreNo cid)).sb.any fun e => e.cid == cid && e.mca == 1) || s.net.any fun m =>
    match m with
    | .replica _ _ _ _ _ => true
    | _ => false

/-- What the store buffer does not order for a context: atomics at its strip's unit, REDs that travel, stores that its
mirror pair holds, and stores of other contexts that it has seen (R266, R269). -/
def unordered (s : State) (c : Nat) : Bool :=
  ((stripOf s (stripNo (coreNo c))).sauWait.any fun w => w.1 == c) || redsOut s c || !(pairHeld s c).isEmpty ||
    (coreOf s (coreNo c)).sb.any fun e => e.seen.contains c
/-- A fence orders earlier stores before later ones: by the store buffer up to device scope, else as a release
(R266, R269). -/
def storeFence (scope : Nat) : X Unit := do
  awaitResults
  let s ← get
  let c := s.cur
  if isThread c then pure ()
  else if 4 ≤ scope || (scope == 3 && replicaWork s c) || unordered s c then
    release scope
  else if scope != 0 then upd (modHere fun x => { x with ep := x.ep + 1 })

/-- FENCE.acq and the acquire side of the others: earlier loads have returned, and the L1 drops (R269). -/
def execFenceAr (h : Head) (s : State) : Host.Outcome State Fault Refusal :=
  runHead Rows.fenceAr h {} (do
    storeFence h.d.toNat
    upd fun s => launchFence s.cur (acquire h.d.toNat s)
    pure .seq) s
def execFenceAcq (h : Head) (s : State) : Host.Outcome State Fault Refusal :=
  runHead Rows.fenceAcq h {} (do
    awaitResults
    upd fun s => launchFence s.cur (acquire h.d.toNat s)
    pure .seq) s
def execFenceRel (h : Head) (s : State) : Host.Outcome State Fault Refusal :=
  runHead Rows.fenceRel h {} (do
    storeFence h.d.toNat
    upd fun s => launchFence s.cur s
    pure .seq) s

/-- Copies of the issuing firing still under way (R269). -/
def ownCopies (s : State) : Bool := s.cp.copies.any fun c => c.cid == s.cur && c.handle == (firOf s s.cur).handle
/-- The L1I drops every line that is not pinned (R213). -/
def dropL1i (core : Nat) (s : State) : State :=
  modCore core (fun c => { c with l1i := c.l1i.filter fun (_, l) => l.any (·.pinned) }) s

/-- FENCE.full (R269, R396). -/
def execFenceFull (h : Head) (s : State) : Host.Outcome State Fault Refusal :=
  runHead Rows.fenceFull h {} (do
    awaitResults
    let s ← get
    if ownCopies s then throw (.wait .release)
    release h.d.toNat
    upd fun s => launchFence s.cur (acquire h.d.toNat s)
    let s ← get
    if 3 ≤ h.d.toNat && !isThread s.cur then upd (dropL1i (coreNo s.cur))
    pure .seq) s

/-! ### MOVB and FILL (R397, R398) -/

/-- A pointer register after a step of `k` bytes. -/
def stepPtr (s : State) (c : Cap) (k : Nat) : Cap :=
  if isThread s.cur then Cap.ofInt (c.val + BitVec.ofNat 64 k) else CapF.setAddr c ((CapF.addr c + k) % 2 ^ 57)

/-- Read the spans of a step's source now, least significant byte first. -/
def readSpans : List Span → X Nat
  | [] => pure 0
  | sp :: rest => do
    let s ← get
    let pa := replicaPa sp.attr (dieOfCore (coreNo s.cur)) sp.pa
    match ← readNow pa sp.n (!isThread s.cur && cacheable s sp.attr pa) (remoteDirect s sp.attr pa) with
    | .held => throw (.wait .tag)
    | .poison info => raise 0x12 sp.va info
    | .val x _ =>
      let more ← readSpans rest
      pure (x + more * 2 ^ (8 * sp.n))

/-- The bytes FILL writes from address `a` (R397). -/
def fillBytes (v : W64) (a : Nat) : Nat → Nat
  | 0 => 0
  | k + 1 => v.toNat / 2 ^ (8 * (a % 8)) % 256 + 256 * fillBytes v (a + 1) k

/-- The data of a step of MOVB, the bytes that fall in its source range undefined (R397). The context remembers where
the source of the move under way began, beside the ends of both ranges, which no step changes (log 23). -/
def moveOverlap (a da n k x : Nat) : X Nat := do
  let s ← get
  let lo : Nat := match (here s).moving with
    | some (lo, ea, ed) => if ea == a + n && ed == da + n && lo ≤ a then lo else a
    | none => a
  let (x, s) := freeOverlap lo ((a + n : Nat) - 1) da x k s
  set (modHere (fun c => { c with moving := if n == k then none else some (lo, a + n, da + n) }) s)
  pure x

/-- One step of MOVB or FILL: one destination line (R397). -/
def moveStep (h : Head) (copy : Bool) : X Next := do
  let s ← get
  let n := (gB s h).val.toNat
  if n == 0 then return .seq
  let d := gD s h
  let a := gA s h
  let da := baseAddr s d
  let k := Nat.min n (64 - da % 64)
  check d da k CapF.ST 1
  if copy then check a (baseAddr s a) k CapF.LD 1
  let src ← if copy then spansOf kRead (lineParts (baseAddr s a) 3 k) else pure []
  let dst ← spansOf kWrite (lineParts da 2 k)
  src.forM fun sp => windowCheck a sp.va sp.pa
  dst.forM fun sp => windowCheck d sp.va sp.pa
  let s ← get
  ensure (!lockHit s da k true) 0x0C da
  ensure (!(copy && lockHit s (baseAddr s a) k false)) 0x0C (baseAddr s a)
  let x ← if copy then readSpans src else pure (fillBytes a.val da k)
  let x ← if copy then moveOverlap (baseAddr s a) da n k x else pure x
  issueStore dst x false
  setG h.d (stepPtr s d k)
  if copy then setG h.a (stepPtr s a k)
  setInt h.b (BitVec.ofNat 64 (n - k))
  pure (if n == k then .seq else .again)

/-- The registers that a step of a move reads and writes. -/
def Use.moving (h : Head) : Use :=
  { rg := [h.a.toNat, h.b.toNat, h.d.toNat], wg := [h.d.toNat, h.a.toNat, h.b.toNat] }

def execMovb (h : Head) (s : State) : Host.Outcome State Fault Refusal :=
  runHead Rows.movb h (Use.moving h) (moveStep h true) s
def execFill (h : Head) (s : State) : Host.Outcome State Fault Refusal :=
  runHead Rows.fill h (Use.moving h) (moveStep h false) s

/-! ### Pinning and cache control (R399, R400) -/

/-- The first addresses of the lines that hold bytes `a` to `a + 64n - 1`. -/
def linesOf (a n : Nat) : List Nat :=
  (List.range ((a + 64 * n - 1) / 64 - a / 64 + 1)).map fun k => (a / 64 + k) * 64

/-- The translation of a line for a form that never traps: a TLB entry, or the table's leaf (R400). -/
def softTranslate (s : State) (va : Nat) (kind : BitVec 8) : Option (Nat × W64) :=
  if isThread s.cur then some (normPa s (va % 2 ^ 56), 3 * 2 ^ 62)
  else
    let x := here s
    match s.tr.tlb.find? fun e => tlbHit e (tlbUnit s.cur) x.asid.toNat va kind (!x.sup) with
    | some e => some (normPa s (e.pa + (va - e.va)), e.attr)
    | none =>
      match walkTable s x.asid.toNat va kind (!x.sup) with
      | .leaf v _ pa attr _ => some (normPa s (pa + (va - v)), attr)
      | .fault _ _ => none

/-- The address where the accessor's die finds a line (R217). -/
def lineHome (s : State) (attr : W64) (pa : Nat) : Nat := replicaPa attr (dieOfCore (coreNo s.cur)) pa / 64 * 64

/-- Apply an effect to every line of a form that never traps; a line that cannot be reached is dropped (R400). -/
def softLines (a n : Nat) (kind : BitVec 8) (f : Nat → W64 → State → State) (s : State) : State :=
  (linesOf a n).foldl (fun s va =>
    match softTranslate s va kind with
    | none => s
    | some (pa, attr) => f (lineHome s attr pa) attr s) s

/-- A line may be read now: its space and tag allow it (R400). -/
def mayRead (s : State) (pa : Nat) : Bool := homeGate s s.cur pa 0 == .go && poisonable s pa && !poisonAt s pa 64

/-- Put a line in the L1I, pinned when asked and fewer than 256 are (R400). -/
def fillL1i (core pa : Nat) (pin : Bool) (s : State) : State :=
  let c := coreOf s core
  let room := decide ((c.l1i.filter fun (_, l) => l.any (·.pinned)).length < 256)
  let l : L1ILine :=
    match SMap.get none c.l1i (blockOf pa) with
    | some l => { l with pinned := l.pinned || (pin && room) }
    | none => { data := BitVec.ofNat 512 (peek s pa 64), pinned := pin && room }
  l1iPut core (blockOf pa) l s

/-- Put a line in its home slice, pinned there when asked and the slice pins fewer than 1,024 (R400). -/
def fillL2 (attr : W64) (pa : Nat) (pin : Bool) (s : State) : State :=
  let slice := homeOf s attr (dieOfCore (coreNo s.cur)) pa
  let n := (s.ms.l2.filter fun (_, l) => l.any fun l => l.pinned == some slice).length
  let l := (SMap.get none s.ms.l2 (blockOf pa)).getD {}
  let l := if pin && n < 1024 && l.pinned.isNone then { l with pinned := some slice } else l
  if hmode attr == 3 then s else withHome pa slice (modMs fun m => { m with l2 := SMap.insert m.l2 (blockOf pa) (some l) }) s

/-- The lines of a form with a check, each gated like a load (R400). -/
def checkedLines (kind : BitVec 8) : List Nat → X (List (Nat × W64))
  | [] => pure []
  | va :: rest => do
    let (pa, attr) ← translate va kind
    let s ← get
    let pa := lineHome s attr pa
    match homeGate s s.cur pa 0 with
    | .hold post =>
      upd (suspend pa 0 s.cur post)
      throw (.wait .tag)
    | .refuse _ =>
      upd (unsuspend pa 0 s.cur)
      checkedLines kind rest
    | .go =>
      upd (unsuspend pa 0 s.cur)
      let more ← checkedLines kind rest
      pure (if poisonable s pa && !poisonAt s pa 64 then (pa, attr) :: more else more)

/-- IPIN.l1i (R399). -/
def execIpinL1i (h : Head) (s : State) : Host.Outcome State Fault Refusal :=
  runHead Rows.ipinL1i h (Use.ofRow Rows.ipinL1i h) (do
    let s ← get
    let a := baseAddr s (gA s h)
    check (gA s h) a (64 * h.im 15 0) CapF.EXE 1
    let ls ← checkedLines kExec (linesOf a (h.im 15 0))
    if !isThread s.cur then ls.forM fun l => upd (fillL1i (coreNo s.cur) l.1 true)
    pure .seq) s
/-- IPIN.l2 (R399). -/
def execIpinL2 (h : Head) (s : State) : Host.Outcome State Fault Refusal :=
  runHead Rows.ipinL2 h (Use.ofRow Rows.ipinL2 h) (do
    let s ← get
    let a := baseAddr s (gA s h)
    check (gA s h) a (64 * h.im 15 0) CapF.LD 1
    let ls ← checkedLines kRead (linesOf a (h.im 15 0))
    ls.forM fun l => upd (fillL2 l.2 l.1 true)
    pure .seq) s

/-- A form that never traps (R400). -/
def softHead (r : Row) (h : Head) (kind : BitVec 8) (f : Nat → W64 → State → State) (s : State) : Host.Outcome State Fault Refusal :=
  runHead r h (Use.ofRow r h) (do
    let s ← get
    upd (softLines (baseAddr s (gA s h)) (h.im 15 0) kind f)
    pure .seq) s

/-- IPIN.pf1 and IPIN.pf2 (R399). -/
def execIpinPf1 (h : Head) (s : State) : Host.Outcome State Fault Refusal :=
  softHead Rows.ipinPf1 h kExec (fun pa _ s =>
    if mayRead s pa && !isThread s.cur then fillL1i (coreNo s.cur) pa false s else s) s
def execIpinPf2 (h : Head) (s : State) : Host.Outcome State Fault Refusal :=
  softHead Rows.ipinPf2 h kRead (fun pa attr s => if mayRead s pa then fillL2 attr pa false s else s) s
/-- IPIN.un: pinned lines of the core's L1I go, and lines of the home slices are unpinned (R213, R400). -/
def execIpinUn (h : Head) (s : State) : Host.Outcome State Fault Refusal :=
  softHead Rows.ipinUn h 0 (fun pa _ s =>
    let s := if isThread s.cur then s else modCore (coreNo s.cur) (fun c => { c with l1i := c.l1i.filter fun (b, l) =>
      !(b == blockOf pa && l.any (·.pinned)) }) s
    modMs (fun m => { m with l2 := SMap.set none m.l2 (blockOf pa) ((SMap.get none m.l2 (blockOf pa)).map fun l => { l with pinned := none }) }) s) s

/-- Send the PUTM of a dirty line of another device (R220, R240, R242). -/
def sendPutm (pa : Nat) (seq : BitVec 16) (s : State) : State :=
  match spaceOf s pa with
  | .remote d off =>
    sendSeq { ty := tWR, ddev := d, op := 1, o := true, off := off / 64 * 64 + seq.toNat % 64 }
      [BitVec.ofNat 512 (peek s (pa / 64 * 64) 64)] (some (s.cur, syncRead)) false s
  | _ => s

/-- The PUTM of a line that a slice gives up on its own. -/
def slicePutm (pa : Nat) (seq : BitVec 16) (s : State) : State :=
  { sendPutm pa seq { s with cur := 2 ^ 22 } with cur := s.cur }

/-- The PUTS of a clean line of another device (R220, R240). -/
def sendPuts (pa : Nat) (seq : BitVec 16) (s : State) : State :=
  match spaceOf s pa with
  | .remote d off =>
    sendSeq { ty := tPRB, ddev := d, op := 4, o := true, off := off / 64 * 64 + seq.toNat % 64 } [] (some (2 ^ 22, syncRead)) false s
  | _ => s

/-- A slice gives up a line: PUTM or PUTS to the home device, DirtyEvict or CleanEvict to the host, whose memory then holds the
data (R78, R220). -/
def giveUpLine (pa : Nat) (l : L2Line) (s : State) : State :=
  if hostBase ≤ pa && pa < 2 * hostBase then
    let out := if l.dirty then [(pa, some (BitVec.ofNat 512 (peek s (pa / 64 * 64) 64)))] else []
    modMs (fun m => { m with atag := SMap.erase m.atag (blockOf pa) }) (modHost (fun h => { h with out := h.out ++ out }) s)
  else if l.dirty then slicePutm pa l.seq s else sendPuts pa l.seq s
/-- The data of a dirty line goes to its home: the home device, or the host (R78, R220). -/
def evictData (pa : Nat) (seq : BitVec 16) (s : State) : State :=
  if hostBase ≤ pa && pa < 2 * hostBase then
    modHost (fun h => { h with out := h.out ++ [(pa, some (BitVec.ofNat 512 (peek s (pa / 64 * 64) 64)))] }) s
  else sendPutm pa seq s
/-- Write a dirty line back and keep it clean (R220, R399). -/
def writeBack (pa : Nat) (s : State) : State :=
  match SMap.get none s.ms.l2 (blockOf pa) with
  | some l =>
    if l.dirty then evictData pa l.seq (modMs (fun m => { m with l2 := SMap.insert m.l2 (blockOf pa) (some { l with dirty := false }) }) s)
    else s
  | none => s

/-- CACHE.wb: after the firing's earlier stores to the range (R399, R400). -/
def execCacheWb (h : Head) (s : State) : Host.Outcome State Fault Refusal :=
  runHead Rows.cacheWb h (Use.ofRow Rows.cacheWb h) (do
    let s ← get
    let a := baseAddr s (gA s h)
    check (gA s h) a (64 * h.im 15 0) CapF.LD 1
    let ls ← checkedLines kRead (linesOf a (h.im 15 0))
    if !isThread s.cur && ls.any (fun l => (coreOf s (coreNo s.cur)).sb.any fun e => e.cid == s.cur && overlaps l.1 64 e.pa e.n) then
      throw .stall
    ls.forM fun l => upd (writeBack l.1)
    pure .seq) s
/-- CACHE.inv: the range's unowned words leave the core's L1 (R213, R399). -/
def execCacheInv (h : Head) (s : State) : Host.Outcome State Fault Refusal :=
  softHead Rows.cacheInv h 0 (fun pa _ s =>
    if isThread s.cur then s else modCore (coreNo s.cur) (fun c =>
      let l := (SMap.get none c.l1 (blockOf pa)).map fun l => { l with valid := l.valid &&& l.owned }
      { c with l1 := SMap.set none c.l1 (blockOf pa) (l.filter fun l => l.valid != 0) }) s) s
/-- CACHE.pf1 and CACHE.pf2 (R399). -/
def execCachePf1 (h : Head) (s : State) : Host.Outcome State Fault Refusal :=
  softHead Rows.cachePf1 h kRead (fun pa attr s =>
    if mayRead s pa && cacheable s attr pa && !isThread s.cur then l1Fill (coreNo s.cur) pa s else s) s
def execCachePf2 (h : Head) (s : State) : Host.Outcome State Fault Refusal :=
  softHead Rows.cachePf2 h kRead (fun pa attr s => if mayRead s pa then fillL2 attr pa false s else s) s

end Sys2Proof.Machine
end

