-- ==== Sys2Proof/Machine/Reduce.lean ====
section
/-! DEFINITION. The operations of atomics and reductions (R402 of 14_isa_memory_sync.md), and the reduction protocol's
partial buffers (R243 to R245 of 08_memory_prisms.md). -/

namespace Sys2Proof.Machine

/-! ### The operations of R402 -/

/-- The new value of a `w`-byte element under F: old `x`, operand `y`. -/
def amoNew (f w x y : Nat) : Nat :=
  let m := 2 ^ (8 * w)
  let lt (a b : Nat) : Bool := decide (signedOf (8 * w) a < signedOf (8 * w) b)
  match f with
  | 0 => (x + y) % m
  | 1 => Nat.land x y
  | 2 => Nat.lor x y
  | 3 => Nat.xor x y
  | 4 => if lt x y then x else y
  | 5 => if lt x y then y else x
  | 6 => Nat.min x y
  | 7 => Nat.max x y
  | 8 => y
  | 9 => fadd32 x y
  | _ => fmax32 x y

/-! ### Partial buffers -/

/-- The elements of a block: their byte width and number. -/
def elemW (w8 : Bool) : Nat := if w8 then 8 else 4
/-- Element `k` of a block. -/
def blockElem (w8 : Bool) (d : BitVec 512) (k : Nat) : Nat := d.toNat / 2 ^ (8 * elemW w8 * k) % 2 ^ (8 * elemW w8)
/-- A block with one element. -/
def oneElem (w8 : Bool) (k x : Nat) : BitVec 512 := BitVec.ofNat 512 (x * 2 ^ (8 * elemW w8 * k))

/-- Combine a contribution with the elements an entry holds; the masks are joined (R243). -/
def combineElems (f : Nat) (w8 : Bool) (m1 : BitVec 16) (d1 : BitVec 512) (m2 : BitVec 16) (d2 : BitVec 512) : BitVec 512 :=
  (List.range (64 / elemW w8)).foldl (fun d k =>
    let v :=
      if m1.getLsbD k && m2.getLsbD k then amoNew f (elemW w8) (blockElem w8 d1 k) (blockElem w8 d2 k)
      else if m1.getLsbD k then blockElem w8 d1 k
      else if m2.getLsbD k then blockElem w8 d2 k else 0
    d ||| oneElem w8 k v) 0

/-- Add the elements of an entry into the block in memory (R245). -/
def addToMem (e : Partial) (s : State) : State :=
  (List.range (64 / elemW e.w8)).foldl (fun s k =>
    if e.mask.getLsbD k then
      let a := e.block + elemW e.w8 * k
      memWrite a (elemW e.w8) (amoNew e.f (elemW e.w8) (peek s a (elemW e.w8)) (blockElem e.w8 e.data k)) false none s
    else s) s

/-- Send an entry of a port Prism's buffer as one REDC (R243). -/
def sendRedc (who : Nat) (e : Partial) (s : State) : State :=
  match spaceOf s e.block with
  | .remote d off =>
    sendSeq { ty := tREDC, ddev := d, op := e.f + (if e.w8 then 16 else 0), o := true, off := off, scope := 4 }
      (redcOf e) (some (who, syncRead)) false s
  | _ => s

/-- What a buffer does with an evicted entry: a remote block's goes out as REDC, a home block's is added into
memory at once (R243, R244). -/
def evictPartial (who : Nat) (e : Partial) (s : State) : State :=
  match spaceOf s e.block with
  | .remote _ _ => sendRedc who e s
  | _ => addToMem e s

/-- Put a contribution in a Prism's partial buffer (R243). -/
def intoPartial (who p : Nat) (e : Partial) (s : State) : State :=
  let b := prismOf s p
  let same (x : Partial) : Bool := x.block == e.block && x.f == e.f && x.w8 == e.w8
  let join (x : Partial) : Partial :=
    { x with
      mask := x.mask ||| e.mask
      data := combineElems e.f e.w8 x.mask x.data e.mask e.data }
  if b.part.any same then setPrism s p { b with part := b.part.map fun x => if same x then join x else x }
  else
    match b.part with
    | old :: rest =>
      if 256 ≤ b.part.length then evictPartial who old (setPrism s p { b with part := rest ++ [e] })
      else setPrism s p { b with part := b.part ++ [e] }
    | [] => setPrism s p { b with part := [e] }

/-- A contribution to a block of this device at Prism `p`, a port Prism or the block's memory-side Prism: false
when its region is not RED. Under BID 0 it is added at once; else it joins the buffer, and the block is busy (R244,
R245). -/
def redAtHome (who p : Nat) (e : Partial) (s : State) : Bool × State :=
  match regionOf s p e.block with
  | some (_, r) =>
    if regProto r != 5 then (false, s)
    else if regBid r == 0 then (true, addToMem e s)
    else (true, intoPartial who p e (setAtag e.block 3 s))
  | none => (false, s)

end Sys2Proof.Machine
end

