-- ==== Sys2Proof/Machine/Atomics.lean ====
section
/-! DEFINITION. AMO, ACAS and RED (R401 to R405 of 14_isa_memory_sync.md; R219 of 08_memory_prisms.md; R262,
R270 to R273 of 09_consistency.md). -/

namespace Sys2Proof.Machine

/-- The value written over `x`, or none for an ACAS that fails (R402 to R404). -/
def rmwNew (a : Rmw) (x : Nat) : Option Nat :=
  if a.cas then (if x == a.e then some a.y else none) else some (amoNew a.f a.w x a.y)

/-- The immediate's fields (R401). -/
def amoW (h : Head) : Nat := if h.im 5 5 == 1 then 4 else 8
def amoScope (h : Head) : Nat := h.im 2 0
def amoAcq (h : Head) : Bool := h.im 3 3 == 1
def amoRel (h : Head) : Bool := h.im 4 4 == 1

/-- The place of an atomic of the issuing context at a scope (R262, R271, R272): a window's bank at every scope, of this
device or of another. -/
def placeOf (s : State) (attr : W64) (pa scope : Nat) : Place :=
  let near := replicaPa attr (dieOfCore (coreNo s.cur)) pa
  let uncached := hmode attr == 3 || isThread s.cur
  match spaceOf s pa with
  | .remote d off =>
    if uncached || 4 ≤ scope || hbmTop ≤ off then .packet d off else if scope == 0 then .l1 pa else .home pa
  | .host => if 4 ≤ scope then .fau pa else if uncached || scope != 0 then .home pa else .l1 pa
  | .hbm =>
    if 4 ≤ scope then (if hmode attr == 2 then .home pa else .fau pa)
    else if uncached || 2 ≤ scope then .home pa else if scope == 0 then .l1 near else .sau near
  | _ => .home pa
/-- The address of a place of this device. -/
def rmwPa (p : Place) : Nat :=
  match p with
  | .l1 pa | .sau pa | .home pa | .fau pa => pa
  | .packet d off => remotePa d off

/-- How an atomic ends where it is performed: the old value, or the TRAPINFO of poisoned data (R392). -/
inductive Old where
  | val (x : Nat)
  | bad (info : Nat)
  deriving DecidableEq, Repr

/-- The gate of an atomic at its home: it goes, is refused, or is held (R223, R225). -/
def atomicGate (pa : Nat) : X (Option Nat) := do
  let s ← get
  match homeGate s s.cur pa 2 with
  | .refuse info =>
    upd (unsuspend pa 2 s.cur)
    pure (some info)
  | .hold post =>
    if isThread s.cur then throw .stall
    upd (suspend pa 2 s.cur post)
    throw (.wait .tag)
  | .go =>
    upd (unsuspend pa 2 s.cur)
    let s ← get
    if poisonable s pa && poisonAt s pa 4 then return some 0
    upd (correct pa 4)
    pure none

/-- Stores that a fence of the context has put before this atomic are still buffered (R269). -/
def fencedBefore (s : State) (cid : Nat) : Bool :=
  !isThread cid && (coreOf s (coreNo cid)).sb.any fun e => e.cid == cid && e.ep < (ctxOf s cid).ep
/-- The core's own buffered stores and outstanding reads of the bytes come first. -/
def atomicReady (pa n : Nat) : X Unit := do
  let s ← get
  if coreReads s pa n || (!isThread s.cur && forward s s.cur pa n != .none) || fencedBefore s s.cur then throw .stall

/-- The issuing core's L1 no longer holds the words that its atomic changed at the home, nor the tag of their
granule (R209). -/
def dropWords (core pa n : Nat) (s : State) : State :=
  match l1Of s core (blockOf pa) with
  | none => s
  | some l =>
    let keep := ~~~(BitVec.ofNat 16 (wordMask (pa % 64) n))
    let l' : L1Line := { l with valid := l.valid &&& keep, owned := l.owned &&& keep, tags := l.tags &&& ~~~(1#4 <<< (pa % 64 / 16)) }
    modCore core (fun c => { c with l1 := SMap.set none c.l1 (blockOf pa) (some l') }) s

/-- The homes that a write to a replicated page made on die 0 goes to: at once under MCA 1, by forwards under MCA 0
(R217, R271). -/
def replicate (attr : W64) (pa n x : Nat) (s : State) : State :=
  if hmode attr != 2 then s
  else
    let base := pa % 0x3000000000
    let others := ((List.range 4).map fun d => base + d * 0x3000000000).filter (· != pa)
    others.foldl (fun s a =>
      if attr.getLsbD 9 then memWrite a n x false none s
      else { s with net := s.net ++ [.replica a (leBytes n x) false false (coreNo s.cur)] }) s

/-- One step at the home or bank (R403). The value it gives is newer than what the issuing core's L1 may hold, whether it
writes or not (R264). -/
def rmwHome (a : Rmw) (attr : W64) (pa : Nat) : X Old := do
  match ← atomicGate pa with
  | some info => pure (.bad info)
  | none =>
    let s ← get
    let x := (homeBytes s pa a.w).1
    upd fun s =>
      let s := match rmwNew a x with
        | some y => replicate attr pa a.w y (homeWrite pa a.w y false none s.cur (noteLaunch s.cur pa a.w s))
        | none => s
      if isThread s.cur then s else dropWords (coreNo s.cur) pa a.w s
    pure (.val x)

/-- Put a store before the first one of the buffer that meets its bytes: it was issued before that one. -/
def insertStore (e : SbEntry) : List SbEntry → List SbEntry
  | [] => [e]
  | x :: rest => if overlaps x.pa x.n e.pa e.n then e :: x :: rest else x :: insertStore e rest
/-- One step on the L1's copy; the result is written through as a store (R271). `late` is an atomic that its home held: no
store that is buffered now came before it. -/
def rmwL1 (a : Rmw) (attr : W64) (pa : Nat) (late : Bool) : X Old := do
  let s ← get
  let core := coreNo s.cur
  if !late && (coreReads s pa a.w || ownSau s s.cur pa a.w) then throw .stall
  let own := (l1Of s core (blockOf pa)).any fun l => l.atag == 2
  if !(own && l1Hit s core pa a.w) then
    if !late && forward s s.cur pa a.w != .none then throw .stall
    match ← atomicGate pa with
    | some info => return .bad info
    | none => upd (l1Fill core pa)
  let s ← get
  let x ← match (if late then .none else forward s s.cur pa a.w) with
    | .part => throw .stall
    | .hit x _ =>
      upd (markSeen s.cur fun e => overlaps pa a.w e.pa e.n)
      pure x
    | .none => pure (l1Read s core pa a.w).1
  match rmwNew a x with
  | none => pure (.val x)
  | some y =>
    let e : SbEntry := { pa := pa, n := a.w, data := y, cid := s.cur, mca := storeMode attr, ep := (here s).ep, va := a.va,
                         home := homeOf s attr (dieOfCore core) pa }
    if !late then pushStores [e]
    else if 32 ≤ (coreOf s core).sb.length then throw .stall
    else upd (modCore core fun k => { k with sb := insertStore e k.sb })
    pure (.val x)

/-- The strip atomic unit's copy of a line: held, or read from its home, which registers the unit as the line's
owner; a full unit evicts a copy (R219). -/
def sauLine (strip pa home : Nat) (s : State) : BitVec 512 × State :=
  match SMap.get none (stripOf s strip).sau (blockOf pa) with
  | some d => (d, s)
  | none =>
    let d := BitVec.ofNat 512 (peek s (pa / 64 * 64) 64)
    let s := takeOwner pa (some (4096 + strip)) s
    let s := modMs (fun m =>
      let l := (SMap.get none m.l2 (blockOf pa)).getD { home := home }
      { m with l2 := SMap.insert m.l2 (blockOf pa) (some { l with owner := some (4096 + strip) }) }) s
    (d, modStrip strip (fun t => { t with sau := SMap.insert (if 32 ≤ t.sau.length then t.sau.drop 1 else t.sau) (blockOf pa) (some d) }) s)

/-- One step at the strip atomic unit; the changed bytes are written through, and the result returns when that is
acknowledged (R219). -/
def rmwSau (a : Rmw) (attr : W64) (pa : Nat) (id : Nat) : X Old := do
  match ← atomicGate pa with
  | some info => pure (.bad info)
  | none =>
    let s ← get
    let strip := stripNo (coreNo s.cur)
    let home := homeOf s attr (dieOfCore (coreNo s.cur)) pa
    let (d, s) := sauLine strip pa home s
    set s
    let x := d.toNat / 2 ^ (8 * (pa % 64)) % 2 ^ (8 * a.w)
    upd (dropWords (coreNo s.cur) pa a.w)
    match rmwNew a x with
    | none => pure (.val x)
    | some y =>
      let e : SbEntry := { pa := pa, n := a.w, data := y, cid := s.cur, mca := storeMode attr, ep := (here s).ep, va := a.va,
                           home := home }
      upd (modStrip strip fun t => { t with
        sau := SMap.insert t.sau (blockOf pa) (some (BitVec.ofNat 512 (mergeBytes d.toNat (pa % 64) a.w y)))
        sauWait := t.sauWait ++ [(s.cur, id, e)] })
      pure (.val x)

/-- The fabric atomic unit, or for a host line the CXL port Prism, reads the word; it writes it a turn later (R262, R271,
R272). Two atomics on a word follow one another there. -/
def rmwFau (a : Rmw) (pa : Nat) (id : Nat) : X (Option Old) := do
  let s ← get
  if s.fab.fau.any fun o => overlaps o.pa o.n pa a.w then throw .stall
  match ← atomicGate pa with
  | some info => pure (some (.bad info))
  | none =>
    let s ← get
    let x := (homeBytes s pa a.w).1
    upd (modFab fun f => { f with fau := f.fau ++ [{ pa := pa, n := a.w, old := x, new := rmwNew a x, cid := s.cur, id := id }] })
    upd (dropWords (coreNo s.cur) pa a.w)
    pure none

/-- OP and operand flit of an AMO packet (R35, log 13): the operand in bits 63:0, an ACAS's expected value in bits
127:64. -/
def amoOp (a : Rmw) : Nat := (if a.cas then 16 else a.f) + (if a.w == 4 then 32 else 0)
def amoFlit (a : Rmw) : BitVec 512 := BitVec.ofNat 512 (a.y + a.e * 2 ^ 64)

/-- Send an atomic to another device (R54). -/
def rmwPacket (a : Rmw) (d off scope id : Nat) (s : State) : State :=
  sendSeq { ty := tAMO, ddev := d, op := amoOp a, o := true, off := off, scope := Nat.max scope 4 } [amoFlit a] (some (s.cur, id)) true (notePush (remotePa d off) s)

/-- The address of an atomic: no on-chip window but a scratchpad (R403). -/
def atomicAddr (ea n : Nat) (kind : BitVec 8) : X (Nat × W64) := do
  let (pa, attr) ← translate ea kind
  let s ← get
  match spaceOf s pa with
  | .regs _ _ | .acc _ _ | .ctl _ _ => raise 0x09 ea 1
  | _ => pure ()
  ensure (!lockHit s ea n true) 0x0C ea
  pure (pa, attr)

/-- Give an atomic's old value to its destination; poisoned data stops a handler (R392, R236). -/
def giveOld (dst : Dst) (w : Nat) (o : Old) : X Unit := do
  let s ← get
  match o with
  | .val x => addPend dst [{ pa := 0, n := w, known := some x }] (.int w true) 0
  | .bad info =>
    if isThread s.cur then raise 0x12 0 info
    addPend dst [{ pa := 0, n := w, known := some 0, bad := some info }] (.int w true) 0

/-- Perform an atomic at its place on this device: the old value, or none when it comes later. -/
def performAt (a : Rmw) (attr : W64) (p : Place) (id : Nat) (late : Bool) : X (Option Old) := do
  match p with
  | .l1 pa => pure (some (← rmwL1 a attr pa late))
  | .home pa => do
    if !late then
      atomicReady pa a.w
      let s ← get
      if !isThread s.cur && ownSau s s.cur pa a.w then throw .stall
    pure (some (← rmwHome a attr pa))
  | .sau pa => do
    if !late then atomicReady pa a.w
    pure (some (← rmwSau a attr pa id))
  | .fau pa => do
    if !late then
      atomicReady pa a.w
      let s ← get
      if !isThread s.cur && ownSau s s.cur pa a.w then throw .stall
    rmwFau a pa id
  | .packet _ _ => pure none
/-- An atomic that its home holds stays outstanding, and its firing runs on (R225). -/
def heldOn (a : Rmw) (red : Bool) (attr : W64) (dst : Dst) (p : Place) (m : X (Option Old)) : X (Option (Option Old)) := fun s =>
  match m s with
  | .ok o t => .ok (some o) t
  | .error (.wait .tag) t => .ok none (withPend dst [{ pa := rmwPa p, n := a.w, remote := true }] (.rmw a red attr p) 0 t)
  | .error e t => .error e t

/-- AMO and ACAS (R403, R404). -/
def atomicBody (h : Head) (a : Rmw) : X Next := do
  let s ← get
  let scope := amoScope h
  let ea := baseAddr s (gA s h)
  check (gA s h) ea a.w (CapF.LD + CapF.ST) a.w
  let a : Rmw := { a with va := ea }
  let (pa, attr) ← atomicAddr ea a.w (kRead ||| kWrite)
  if amoRel h then release scope
  let s ← get
  let late ← match placeOf s attr pa scope with
    | .packet d off => do
      if fencedBefore s s.cur then throw .stall
      if routable s d then
        addPend (dstG h.d) [{ pa := pa, n := a.w, remote := true }] (.int a.w true) 0
        upd (rmwPacket a d off scope (here s).nextPend)
      else giveOld (dstG h.d) a.w (.bad 7)
      pure true
    | p => do
      match ← heldOn a false attr (dstG h.d) p (performAt a attr p (here s).nextPend false) with
      | none => pure true
      | some none => do
        addPend (dstG h.d) [{ pa := pa, n := a.w, remote := true }] (.int a.w true) 0
        pure true
      | some (some o) => do
        giveOld (dstG h.d) a.w o
        pure (p == .sau (rmwPa p))
  if amoAcq h then
    upd (acquire scope)
    pure (if late then .park else .seq)
  else pure .seq

/-- The AMO heads: an F value on gA's word with operand gB (R402). -/
def amoHead (r : Row) (h : Head) (s : State) : Host.Outcome State Fault Refusal :=
  runHead r h (Use.ofRow r h) (do
    let s ← get
    let w := amoW h
    atomicBody h { f := h.f.toNat, cas := false, w := w, y := (gB s h).val.toNat % 2 ^ (8 * w), e := 0 }) s

def execAadd (h : Head) (s : State) : Host.Outcome State Fault Refusal := amoHead Rows.aadd h s
def execAand (h : Head) (s : State) : Host.Outcome State Fault Refusal := amoHead Rows.aand h s
def execAor (h : Head) (s : State) : Host.Outcome State Fault Refusal := amoHead Rows.aor h s
def execAxor (h : Head) (s : State) : Host.Outcome State Fault Refusal := amoHead Rows.axor h s
def execAmin (h : Head) (s : State) : Host.Outcome State Fault Refusal := amoHead Rows.amin h s
def execAmax (h : Head) (s : State) : Host.Outcome State Fault Refusal := amoHead Rows.amax h s
def execAminu (h : Head) (s : State) : Host.Outcome State Fault Refusal := amoHead Rows.aminu h s
def execAmaxu (h : Head) (s : State) : Host.Outcome State Fault Refusal := amoHead Rows.amaxu h s
def execAswp (h : Head) (s : State) : Host.Outcome State Fault Refusal := amoHead Rows.aswp h s
def execAfadd (h : Head) (s : State) : Host.Outcome State Fault Refusal := amoHead Rows.afadd h s
def execAfmax (h : Head) (s : State) : Host.Outcome State Fault Refusal := amoHead Rows.afmax h s

/-- ACAS: gD holds the expected value and receives the old one (R404). -/
def execAcas (h : Head) (s : State) : Host.Outcome State Fault Refusal :=
  runHead Rows.acas h (Use.ofRow Rows.acas h).readD (do
    let s ← get
    let w := amoW h
    let low (c : Cap) : Nat := c.val.toNat % 2 ^ (8 * w)
    atomicBody h { f := 0, cas := true, w := w, y := low (gB s h), e := low (gD s h) }) s

/-! ### RED (R405) -/

/-- One element's contribution to a block. -/
def contribution (s : State) (a : Rmw) (pa : Nat) : Partial :=
  let k := pa % 64 / a.w
  { block := pa / 64 * 64, f := a.f, w8 := a.w == 8, mask := BitVec.ofNat 16 (2 ^ k), data := oneElem (a.w == 8) k a.y,
    opened := s.cyc, seqNo := 0 }

/-- A domain-scope contribution: to the partial buffer of the sequencing port's Prism, or of the block's own
memory-side Prism; one that is refused, or that meets a busy-poisoned block, is a posted failure (R39, R226, R243, R244,
R405). -/
def redDomain (a : Rmw) (pa : Nat) (s : State) : State :=
  match spaceOf s pa with
  | .remote d _ =>
    if routable s d then intoPartial s.cur (servingPrism s pa) (contribution s a pa) s else postedFail s.cur pa 7 s
  | _ =>
    let st := accessStatus s s.cur pa
    if st != 0 then postedFail s.cur pa st s
    else if busyPoisoned s pa then postedFail s.cur pa 0 s
    else
      let (ok, s) := redAtHome s.cur (hbmPrism pa) (contribution s a pa) s
      if ok then s else postedFail s.cur pa 5 s

/-- A RED that is performed as an atomic without a result; a refusal is a posted failure (R273, R405). -/
def redPlaced (a : Rmw) (attr : W64) (pa scope : Nat) : X Unit := do
  let s ← get
  let o ← match placeOf s attr pa scope with
    | .packet d off => do
      if fencedBefore s s.cur then throw .stall
      if routable s d then
        upd (rmwPacket a d off scope syncRead)
        pure none
      else pure (some (.bad 7))
    | p => do
      match ← heldOn a true attr .none p (performAt a attr p syncRead false) with
      | some o => pure o
      | none => pure none
  match o with
  | some (.bad info) => upd (postedFail s.cur pa info)
  | _ => pure ()

/-- RED (R405). -/
def redHead (r : Row) (h : Head) (s : State) : Host.Outcome State Fault Refusal :=
  runHead r h (Use.ofRow r h) (do
    let s ← get
    let w := amoW h
    let scope := amoScope h
    let ea := baseAddr s (gA s h)
    let a : Rmw := { f := h.f.toNat, cas := false, w := w, y := (gB s h).val.toNat % 2 ^ (8 * w), e := 0, va := ea }
    check (gA s h) ea w CapF.ST w
    let (pa, attr) ← atomicAddr ea w kWrite
    if amoRel h then release scope
    let s ← get
    let domain := 4 ≤ scope && (match spaceOf s pa with
      | .hbm => true
      | .remote _ off => decide (off < hbmTop)
      | _ => false)
    if domain && fencedBefore s s.cur then throw .stall
    if domain then upd (redDomain a pa) else redPlaced a attr pa scope
    pure .seq) s

def execRedadd (h : Head) (s : State) : Host.Outcome State Fault Refusal := redHead Rows.redadd h s
def execRedand (h : Head) (s : State) : Host.Outcome State Fault Refusal := redHead Rows.redand h s
def execRedor (h : Head) (s : State) : Host.Outcome State Fault Refusal := redHead Rows.redor h s
def execRedxor (h : Head) (s : State) : Host.Outcome State Fault Refusal := redHead Rows.redxor h s
def execRedmin (h : Head) (s : State) : Host.Outcome State Fault Refusal := redHead Rows.redmin h s
def execRedmax (h : Head) (s : State) : Host.Outcome State Fault Refusal := redHead Rows.redmax h s
def execRedminu (h : Head) (s : State) : Host.Outcome State Fault Refusal := redHead Rows.redminu h s
def execRedmaxu (h : Head) (s : State) : Host.Outcome State Fault Refusal := redHead Rows.redmaxu h s
def execRedfadd (h : Head) (s : State) : Host.Outcome State Fault Refusal := redHead Rows.redfadd h s
def execRedfmax (h : Head) (s : State) : Host.Outcome State Fault Refusal := redHead Rows.redfmax h s

end Sys2Proof.Machine
end

