-- ==== Sys2Proof/Machine/CapOps.lean ====
section
/-! DEFINITION. The capability heads (R364 to R372 of 13_isa_scalar_control.md). -/

namespace Sys2Proof.Machine

/-- CINC and CSETA (R365). -/
def cincOf (c : Cap) (b : W64) : Cap := CapF.setAddr c ((CapF.addr c + b.toNat) % 2 ^ 57)
def csetaOf (c : Cap) (b : W64) : Cap := CapF.setAddr c (b.toNat % 2 ^ 57)

/-- The bounds rounded out to granules of 2^e (R366). -/
def roundDown (x e : Nat) : Nat := x / 2 ^ e * 2 ^ e
def roundUp (x e : Nat) : Nat := (x + 2 ^ e - 1) / 2 ^ e * 2 ^ e
/-- The least exponent from `e` upward whose run fits UP (R366). -/
def fitExp (bb tt : Nat) : Nat → Nat → Option Nat
  | 0, _ => none
  | n + 1, e => if (roundUp tt e - roundDown bb e) / 2 ^ e ≤ 2 ^ 22 - 1 then some e else fitExp bb tt n (e + 1)

/-- gA with new bounds at exponent `e` (R366). -/
def withBounds (c : Cap) (e bl tl : Nat) : Cap :=
  let narrowed := CapF.smode c == 1 && ((bl : Int) != CapF.base c || (tl : Int) != CapF.top c)
  let low := if narrowed then CapF.freg c * 16 else bitsOf c.w1.toNat 11 0
  { c with w1 := BitVec.ofNat 64 ((tl - bl) / 2 ^ e * 2 ^ 41 + e * 2 ^ 12 + low) }

/-- CSETB and CSETB.O: the result, or the trap with its subcode (R366). -/
def csetbOf (c : Cap) (len : Nat) (outward : Bool) : Except (Nat × Nat) Cap :=
  let bb := CapF.addr c
  let tt := bb + len
  if !c.tag then .error (0x06, 0)
  else if (bb : Int) < CapF.base c || CapF.top c < (tt : Int) || 34 < CapF.e c then .error (0x07, 0)
  else match fitExp bb tt 35 0 with
    | none => .error (0x07, 1)
    | some e =>
      let bl := roundDown bb e
      let tl := roundUp tt e
      if !outward && (bl != bb || tl != tt) then .error (0x07, 1)
      else if outward && ((bl : Int) < CapF.base c || CapF.top c < (tl : Int)) then .error (0x07, 2)
      else .ok (withBounds c e bl tl)

/-- CPERM: permissions are only taken away (R367). -/
def cpermOf (c : Cap) (mask : Nat) : Cap :=
  { c with w0 := BitVec.ofNat 64 (Nat.land (CapF.perms c) mask * 2 ^ 57 + CapF.addr c) }

/-- CFMT: the format code and K, and when the tag stays (R368). -/
def cfmtOf (c : Cap) (code k : Nat) : Cap :=
  let sm := code % 16
  let keep := sm == 0 || (sm == CapF.smode c && k == CapF.k c) || (CapF.smode c == 1 && sm == 1 && CapF.k c ≤ k) ||
    CapF.holds c CapF.SYS
  { w0 := c.w0, w1 := BitVec.ofNat 64 (c.w1.toNat / 2 ^ 12 * 2 ^ 12 + k * 2 ^ 8 + code), tag := c.tag && keep }

/-- The bounds as CGET reads them: 0 for E above 34 (R369). -/
def cgetInt (c : Cap) (x : Int) : W64 := if CapF.e c ≤ 34 then BitVec.ofInt 64 x else 0

/-- A CGET head: one field of gA as an integer (R369). -/
def getHead (r : Row) (h : Head) (f : Cap → W64) (s : State) : Host.Outcome State Fault Refusal :=
  runHead r h (Use.ofRow r h) (do
    let s ← get
    setInt h.d (f (gA s h))
    pure .seq) s

/-- CSETB in both forms: the length is gB, or the immediate zero-extended (R366). -/
def setbHead (r : Row) (h : Head) (outward : Bool) (s : State) : Host.Outcome State Fault Refusal :=
  runHead r h (Use.ofRow r h) (do
    let s ← get
    let len := if h.form == .T2 then h.im 15 0 else (gB s h).val.toNat
    match csetbOf (gA s h) len outward with
    | .error (cause, sub) => raise cause (CapF.addr (gA s h)) sub
    | .ok c => setG h.d c
    pure .seq) s

def execCinc (h : Head) (s : State) : Host.Outcome State Fault Refusal := capHead Rows.cinc h cincOf s
def execCseta (h : Head) (s : State) : Host.Outcome State Fault Refusal := capHead Rows.cseta h csetaOf s
def execCsetb (h : Head) (s : State) : Host.Outcome State Fault Refusal := setbHead Rows.csetb h false s
def execCsetbO (h : Head) (s : State) : Host.Outcome State Fault Refusal := setbHead Rows.csetbO h true s
def execCperm (h : Head) (s : State) : Host.Outcome State Fault Refusal := capHead Rows.cperm h (fun c _ => cpermOf c (h.im 6 0)) s
def execCfmt (h : Head) (s : State) : Host.Outcome State Fault Refusal := capHead Rows.cfmt h (fun c _ => cfmtOf c (h.im 7 0) (h.im 11 8)) s
def execCgetAddr (h : Head) (s : State) : Host.Outcome State Fault Refusal := getHead Rows.cgetAddr h (fun c => BitVec.ofNat 64 (CapF.addr c)) s
def execCgetBase (h : Head) (s : State) : Host.Outcome State Fault Refusal := getHead Rows.cgetBase h (fun c => cgetInt c (CapF.base c)) s
def execCgetLen (h : Head) (s : State) : Host.Outcome State Fault Refusal := getHead Rows.cgetLen h (fun c => cgetInt c (CapF.top c - CapF.base c)) s
def execCgetPerm (h : Head) (s : State) : Host.Outcome State Fault Refusal := getHead Rows.cgetPerm h (fun c => BitVec.ofNat 64 (CapF.perms c)) s
def execCgetFmt (h : Head) (s : State) : Host.Outcome State Fault Refusal := getHead Rows.cgetFmt h (fun c => BitVec.ofNat 64 (bitsOf c.w1.toNat 7 0)) s
def execCgetK (h : Head) (s : State) : Host.Outcome State Fault Refusal := getHead Rows.cgetK h (fun c => BitVec.ofNat 64 (CapF.k c)) s
def execCgetTag (h : Head) (s : State) : Host.Outcome State Fault Refusal := getHead Rows.cgetTag h (fun c => if c.tag then 1 else 0) s
def execCgetTop (h : Head) (s : State) : Host.Outcome State Fault Refusal := getHead Rows.cgetTop h (fun c => cgetInt c (CapF.top c)) s
/-- MOV and MOVD (R370). -/
def execMov (h : Head) (s : State) : Host.Outcome State Fault Refusal := capHead Rows.mov h (fun c _ => c) s
def execMovd (h : Head) (s : State) : Host.Outcome State Fault Refusal := capHead Rows.movd h (fun c _ => { c with tag := false }) s
/-- CSUB: a − b (R371). -/
def execCsub (h : Head) (s : State) : Host.Outcome State Fault Refusal := intHead Rows.csub h (· - ·) s
/-- CCHK: the first three checks of R347 for value(gB) bytes; it writes nothing (R372). -/
def execCchk (h : Head) (s : State) : Host.Outcome State Fault Refusal :=
  runHead Rows.cchk h (Use.ofRow Rows.cchk h) (do
    let s ← get
    let c := gA s h
    let a := CapF.addr c
    ensure c.tag 0x06 a
    ensure (CapF.inBounds c a (gB s h).val.toNat) 0x07 a
    ensure (CapF.holds c (if h.form == .T2 then h.im 6 0 else 0)) 0x08 a
    pure .seq) s

end Sys2Proof.Machine
end

