-- ==== Sys2Proof/Machine/Sync.lean ====
section
/-! DEFINITION. Full/empty operations and barriers (R406 to R412 of 14_isa_memory_sync.md; R164, R165 of
06_execution_model.md; R183, R187 of 07_cores_strips.md; R55, R56 of 02_xitrum_fabric.md). -/

namespace Sys2Proof.Machine

/-! ### Full/empty words (R406, R407) -/

/-- The full/empty bit of a word. -/
def fullBit (s : State) (pa : Nat) : Bool := SMap.get false s.ms.full (pa / 4)
def setFull (pa : Nat) (b : Bool) (s : State) : State := modMs (fun m => { m with full := SMap.set false m.full (pa / 4) b }) s

/-- The waiters a bank has recorded for a word, oldest first. -/
def feWaiters (s : State) (pa : Nat) : List FeWait := s.ms.feq.filter (·.pa == pa)
/-- A recorded waiter's event has occurred: it has the word's value (R163, R407). -/
def feGrant (w : FeWait) (x : Nat) (s : State) : State :=
  modCtx w.cid (fun c => { c with st := .ready, granted := true, fetched := [(w.pa, 4, true, x)] })
    (modMs (fun m => { m with feq := m.feq.filter (· != w) }) s)

/-- Serve the recorded waiters of a word, at most `n`: a full word serves PEEKs up to and with the first TAKE, an
empty word the oldest PUT (R407). -/
def feServe (pa : Nat) : Nat → State → State
  | 0, s => s
  | n + 1, s =>
    if fullBit s pa then
      match (feWaiters s pa).find? fun w => w.op != 2 with
      | none => s
      | some w =>
        let s := feGrant w (Machine.peek s pa 4) s
        feServe pa n (if w.op == 0 then setFull pa false s else s)
    else
      match (feWaiters s pa).find? fun w => w.op == 2 with
      | none => s
      | some w => feServe pa n (setFull pa true (feGrant w 0 (memWrite pa 4 w.val false none s)))

/-- Record a waiter, unless eight are (R164, R407); the context waits. -/
def feWait (pa op val : Nat) : X Unit := do
  let s ← get
  let held := s.ms.feq.any fun w => w.cid == s.cur && w.pa == pa
  let room := held || (feWaiters s pa).length < 8
  if room && !held then upd (modMs fun m => { m with feq := m.feq ++ [{ pa := pa, cid := s.cur, op := op, val := val }] })
  throw (.wait (.fullEmpty pa room))

/-- The value a served waiter received. -/
def feServed (pa : Nat) : X (Option Nat) := do
  let s ← get
  let x := here s
  match x.granted, x.wait with
  | true, .fullEmpty p _ => pure (if p == pa then some ((x.fetched.head?.map fun f => f.2.2.2).getD 0) else none)
  | _, _ => pure none

/-- The word of a full/empty head, at a scratchpad bank (R406); only PEEK and FEGET, which need LD alone, are reads to a range
lock (R260). -/
def feWord (h : Head) (perm : Nat) (kind : BitVec 8) : X Nat := do
  let s ← get
  let c := gA s h
  let ea := baseAddr s c
  check c ea 4 perm 4
  let (pa, _) ← translate ea kind
  let s ← get
  match spaceOf s pa with
  | .spad _ _ => pure ()
  | _ => raise 0x09 ea 1
  ensure (!lockHit s ea 4 (perm != CapF.LD)) 0x0C ea
  pure pa

/-- A full/empty head that reads: what it returns for the word's value and bit, or none when it waits, and whether
it empties the word (R406). -/
def feRead (r : Row) (h : Head) (perm : Nat) (kind : BitVec 8) (op : Nat) (f : Nat → Bool → Option (Nat × Bool)) (acq : Bool → Bool)
    (s : State) : Host.Outcome State Fault Refusal :=
  runHead r h (Use.ofRow r h) (do
    let pa ← feWord h perm kind
    match ← feServed pa with
    | some x =>
      upd (acquire (h.im 2 0))
      lateInt h.d (BitVec.ofNat 64 x) 0
      return .seq
    | none => pure ()
    atomicReady pa 4
    let s ← get
    let st := accessStatus s s.cur pa
    if st != 0 then
      giveOld (dstG h.d) 4 (.bad st)
      return .seq
    match f (Machine.peek s pa 4) (fullBit s pa) with
    | none =>
      feWait pa op 0
      pure .seq
    | some (x, empties) =>
      if empties then upd (feServe pa 16 ∘ setFull pa false)
      if acq (fullBit s pa) then upd (acquire (h.im 2 0))
      lateInt h.d (BitVec.ofNat 64 x) 0
      pure .seq) s

def execTake (h : Head) (s : State) : Host.Outcome State Fault Refusal :=
  feRead Rows.take h (CapF.LD + CapF.ST) (kRead ||| kWrite) 0 (fun x full => if full then some (x, true) else none) (fun _ => true) s
def execPeek (h : Head) (s : State) : Host.Outcome State Fault Refusal :=
  feRead Rows.peek h CapF.LD kRead 1 (fun x full => if full then some (x, false) else none) (fun _ => true) s
def execTrytake (h : Head) (s : State) : Host.Outcome State Fault Refusal :=
  feRead Rows.trytake h (CapF.LD + CapF.ST) (kRead ||| kWrite) 0
    (fun x full => some (if full then (x + 2 ^ 32, true) else (0, false))) (fun full => full) s
def execFeget (h : Head) (s : State) : Host.Outcome State Fault Refusal :=
  feRead Rows.feget h CapF.LD kRead 1 (fun x full => some (if full then x + 2 ^ 32 else x, false)) (fun _ => true) s

/-- A full/empty head that writes, posted: a release, then its effect at the bank (R392, R406). -/
def feWrite (r : Row) (h : Head) (waits : Bool) (f : Nat → Nat → State → State) (s : State) : Host.Outcome State Fault Refusal :=
  runHead r h (Use.ofRow r h).srcD (do
    let pa ← feWord h CapF.ST kWrite
    if (← feServed pa).isSome then return .seq
    release (h.im 2 0)
    atomicReady pa 4
    let s ← get
    let v := (gD s h).val.toNat % 2 ^ 32
    let st := accessStatus s s.cur pa
    if st != 0 then
      upd (postedFail s.cur pa st)
      return .seq
    if waits && fullBit s pa then feWait pa 2 v
    upd (feServe pa 16 ∘ f pa v)
    pure .seq) s

/-- Write a word and set it full. -/
def feFill (pa v : Nat) (s : State) : State := setFull pa true (memWrite pa 4 v false none s)
def execPut (h : Head) (s : State) : Host.Outcome State Fault Refusal := feWrite Rows.put h true feFill s
def execFput (h : Head) (s : State) : Host.Outcome State Fault Refusal := feWrite Rows.fput h false feFill s
def execFclr (h : Head) (s : State) : Host.Outcome State Fault Refusal := feWrite Rows.fclr h false (fun pa _ s => setFull pa false s) s

/-! ### Launch headers (R138, R140) -/

/-- Word `k` of a launch header. -/
def hdrWord (hd : List W64) (k : Nat) : Nat := (hd.getD k 0).toNat
/-- Width of field `i` (R138). -/
def hdrWidth (hd : List W64) (i : Nat) : Nat := bitsOf (hdrWord hd 0) (7 * i + 6) (7 * i)
/-- s(L): the widths of the fields after L (R140). -/
def hdrShift (hd : List W64) (l : Nat) : Nat := ((List.range 6).map fun i => if l < i then hdrWidth hd i else 0).sum
def hdrN (hd : List W64) : Nat := hdrWord hd 1
def hdrFirst (hd : List W64) : Nat := bitsOf (hdrWord hd 2) 15 0
def hdrP (hd : List W64) : Nat := bitsOf (hdrWord hd 2) 31 16
def hdrNsh (hd : List W64) : Nat := bitsOf (hdrWord hd 0) 44 42
def hdrPlace (hd : List W64) : Nat := bitsOf (hdrWord hd 0) 47 45
def hdrGang (hd : List W64) : Nat := bitsOf (hdrWord hd 0) 50 48
def hdrGv (hd : List W64) : Bool := bitsOf (hdrWord hd 0) 51 51 == 1

/-- The sweep of a firing. -/
def sweepOf (s : State) (f : Firing) : Option Sweep :=
  match f.path with
  | .sweep id => s.fe.sweeps.find? (·.id == id)
  | _ => none
/-- The firing belongs to a sweep with GV set (R183). -/
def gangFiring (s : State) : Bool := (sweepOf s (firOf s s.cur)).any fun w => hdrGv w.header

/-- The narrowest scope whose instance holds every core of the sweep's range (R282). -/
def rangeScope (hd : List W64) : Nat :=
  let a := hdrFirst hd
  let b := a + hdrP hd - 1
  if a == b then 0 else if stripNo a == stripNo b then 1 else if dieOfCore a == dieOfCore b then 2 else 3

/-! ### Sweep barriers (R408, R409) -/

/-- The identifiers of group `g` at level L (R140, R165). -/
def groupSize (hd : List W64) (l g : Nat) : Nat :=
  let w := 2 ^ hdrShift hd l
  Nat.min ((g + 1) * w) (hdrN hd) - g * w
def groupOf (hd : List W64) (l : Nat) (f : Firing) : Nat := f.wid.toNat / 2 ^ hdrShift hd l

/-- The episode an arrival joins is this one. -/
def isEpisode (sweep level group k : Nat) (e : Episode) : Bool :=
  e.sweep == sweep && e.level == level && e.group == group && e.k == k

/-- Whether a context waits at this episode. -/
def waitsAt (s : State) (w : Sweep) (level group k : Nat) (c : Nat) (x : Ctx) : Bool :=
  x.wait == .barrier level k && x.st == .waiting && (firOf s c).path == .sweep w.id &&
    groupOf w.header level (firOf s c) == group

/-- An identifier arrives; the last arrival completes the episode and releases its waiters (R165). -/
def arriveBar (w : Sweep) (level k : Nat) (f : Firing) (s : State) : State :=
  let g := groupOf w.header level f
  let e := (s.grp.episodes.find? (isEpisode w.id level g k)).getD { sweep := w.id, level := level, group := g, k := k }
  let arrived := if e.arrived.contains f.wid.toNat then e.arrived else e.arrived ++ [f.wid.toNat]
  let done := groupSize w.header level g ≤ arrived.length
  let s := modGrp (fun q => { q with episodes :=
    { e with arrived := arrived, complete := e.complete || done } :: q.episodes.filter fun x => !isEpisode w.id level g k x }) s
  if done then
    { s with ctxs := s.ctxs.map fun (c, x) => if waitsAt s w level g k c x then (c, { x with st := .ready, granted := true }) else (c, x) }
  else s

def barDone (s : State) (w : Sweep) (level k : Nat) (f : Firing) : Bool :=
  (s.grp.episodes.find? (isEpisode w.id level (groupOf w.header level f) k)).any (·.complete)

/-- The number of an arrival of the issuing firing at a level: the next one, which is counted. -/
def nextArrival (level : Nat) : X Nat := do
  let s ← get
  let k := SMap.get 0 (firOf s s.cur).arrivals level + 1
  upd (modFir s.cur fun f => { f with arrivals := SMap.set 0 f.arrivals level k })
  pure k

/-- BAR at a level: arrive and wait. A firing of no sweep is a group of one (R165, R409). -/
def barLevel (level : Nat) : X Next := do
  let s ← get
  match sweepOf s (firOf s s.cur) with
  | none => pure .seq
  | some w =>
    let k := SMap.get 0 (firOf s s.cur).arrivals level
    if ← answered (.barrier level k) then
      upd (acquire (rangeScope w.header))
      return .seq
    release (rangeScope w.header)
    let k ← nextArrival level
    upd (arriveBar w level k (firOf s s.cur))
    if barDone (← get) w level k (firOf s s.cur) then
      upd (acquire (rangeScope w.header))
      pure .seq
    else throw (.wait (.barrier level k))

/-- BARIN at a level: arrive and continue. -/
def barinLevel (level : Nat) : X Next := do
  let s ← get
  let w := sweepOf s (firOf s s.cur)
  match w with
  | some w => release (rangeScope w.header)
  | none => pure ()
  let k ← nextArrival level
  match w with
  | some w => upd (arriveBar w level k (firOf s s.cur))
  | none => pure ()
  upd (modFir s.cur fun f => { f with openBarin := SMap.set 0 f.openBarin level k })
  pure .seq

/-- BARWT at a level: wait for the episode of the last BARIN. -/
def barwtLevel (level : Nat) : X Next := do
  let s ← get
  let f := firOf s s.cur
  let k := SMap.get 0 f.openBarin level
  if k == 0 then illegal 0x0A
  let shut : X Unit := upd (modFir s.cur fun f => { f with openBarin := SMap.set 0 f.openBarin level 0 })
  match sweepOf s f with
  | none =>
    shut
    pure .seq
  | some w =>
    if !barDone s w level k f then upd (arriveBar w level k f)
    let ok ← answered (.barrier level k)
    if ok || barDone (← get) w level k f then
      shut
      upd (acquire (rangeScope w.header))
      pure .seq
    else throw (.wait (.barrier level k))

/-- A pre-empted firing's arrivals at episodes that are not complete are withdrawn (R163, R409). -/
def withdrawBar (c : Nat) (s : State) : State :=
  let f := firOf s c
  match f.path with
  | .sweep id =>
    let s := modGrp (fun g => { g with episodes := g.episodes.map fun e =>
      if e.sweep == id && !e.complete then { e with arrived := e.arrived.filter (· != f.wid.toNat) } else e }) s
    match (ctxOf s c).wait, (ctxOf s c).granted with
    | .barrier l k, false =>
      if SMap.get 0 f.openBarin l == k then s
      else modFir c (fun f => { f with arrivals := SMap.set 0 f.arrivals l (SMap.get 0 f.arrivals l - 1) }) s
    | _, _ => s
  | _ => s

/-! ### Domain barriers (R55, R56, R410) -/

def domEntry (s : State) (e : Nat) : W64 := SMap.get 0 s.fab.dombar e
def domState (e : W64) : Nat := bitsOf e.toNat 62 61
def domBid (e : W64) : Nat := bitsOf e.toNat 60 49
def domEpoch (e : W64) : Nat := bitsOf e.toNat 48 41
def domExpect (e : W64) : Nat := bitsOf e.toNat 40 25
def domCount (e : W64) : Nat := bitsOf e.toNat 24 9
/-- The entry with other hardware fields. -/
def domWith (e : W64) (st epoch count : Nat) : W64 :=
  BitVec.ofNat 64 (bitsOf e.toNat 63 63 * 2 ^ 63 + st * 2 ^ 61 + domBid e * 2 ^ 49 + epoch % 256 * 2 ^ 41 + domExpect e * 2 ^ 25 +
    count % 65536 * 2 ^ 9)
def setDom (i : Nat) (e : W64) (s : State) : State := modFab (fun f => { f with dombar := SMap.set 0 f.dombar i e }) s

/-- The entry that gA names; an invalid one is a range error (R408). -/
def domIndex (h : Head) : X Nat := do
  let s ← get
  let e := (opA s h).toNat % 64
  if !(domEntry s e).getLsbD 63 then illegal 0x0A
  pure e

/-- An arrival at a domain barrier: COUNT rises; while STATE = 2 it waits for that epoch's BARB (R410). The epoch it
joined. -/
def arriveDom (i : Nat) : X Nat := do
  let e := domEntry (← get) i
  if domState e == 2 then throw (.wait (.domBarrier i (domEpoch e + 256)))
  upd (setDom i (domWith e 1 (domEpoch e) (domCount e + 1)))
  pure (domEpoch e)

/-- BAR at a domain barrier. A wait that a pre-emption could not withdraw goes on. -/
def barDom (h : Head) : X Next := do
  let i ← domIndex h
  let s ← get
  let x := here s
  match x.wait with
  | .domBarrier j ep =>
    if j == i && ep < 256 then
      if !x.granted && domEpoch (domEntry s i) == ep then throw (.wait (.domBarrier i ep))
      upd (acquire h.d.toNat)
      return .seq
  | _ => pure ()
  release h.d.toNat
  let ep ← arriveDom i
  throw (.wait (.domBarrier i ep))

/-- BARIN at a domain barrier; the epoch joined is kept for BARWT. -/
def barinDom (h : Head) : X Next := do
  let i ← domIndex h
  release h.d.toNat
  let ep ← arriveDom i
  let s ← get
  upd (modFir s.cur fun f => { f with openBarin := SMap.set 0 f.openBarin (64 + i) (ep + 1) })
  pure .seq

/-- BARWT at a domain barrier: until the BARB of the epoch its arrival joined. -/
def barwtDom (h : Head) : X Next := do
  let i ← domIndex h
  let s ← get
  let k := SMap.get 0 (firOf s s.cur).openBarin (64 + i)
  if k == 0 then illegal 0x0A
  if domEpoch (domEntry s i) == k - 1 then throw (.wait (.domBarrier i (k - 1)))
  upd (modFir s.cur fun f => { f with openBarin := SMap.set 0 f.openBarin (64 + i) 0 })
  upd (acquire h.d.toNat)
  pure .seq

/-- A pre-emption withdraws an arrival while the barrier still counts; true when the wait must go on (R163). -/
def withdrawDom (c : Nat) (s : State) : Bool × State :=
  match (ctxOf s c).wait with
  | .domBarrier i ep =>
    let e := domEntry s i
    let barwt := SMap.get 0 (firOf s c).openBarin (64 + i) == ep + 1
    if 256 ≤ ep || barwt || domEpoch e != ep then (false, s)
    else if domState e == 1 then (false, setDom i (domWith e (domState e) ep (domCount e - 1)) s)
    else (true, s)
  | _ => (false, s)

def execBar (h : Head) (s : State) : Host.Outcome State Fault Refusal :=
  runHead Rows.bar h (Use.ofRow Rows.bar h) (if h.b == 1 then barDom h else barLevel h.d.toNat) s
def execBarin (h : Head) (s : State) : Host.Outcome State Fault Refusal :=
  runHead Rows.barin h (Use.ofRow Rows.barin h) (if h.b == 1 then barinDom h else barinLevel h.d.toNat) s
def execBarwt (h : Head) (s : State) : Host.Outcome State Fault Refusal :=
  runHead Rows.barwt h (Use.ofRow Rows.barwt h) (if h.b == 1 then barwtDom h else barwtLevel h.d.toNat) s

/-! ### The wired barrier (R183, R187, R411, R412) -/

/-- The ranks of a strip that hold a FAULTED firing. -/
def faultedRanks (s : State) (strip : Nat) : List Nat :=
  (List.range 16).filter fun r => (List.range 7).any fun j =>
    match (ctxOf s ((strip * 16 + r) * 8 + j)).wait with
    | .fault _ _ _ => (sweepOf s (firOf s ((strip * 16 + r) * 8 + j))).any fun w => hdrGv w.header
    | _ => false
/-- The first arrival while a peer is FAULTED posts one record for each such rank (R187). -/
def gangRecords (strip : Nat) (s : State) : State :=
  (faultedRanks s strip).foldl (fun s r => supRecord { code := 0x11, source := 1, unit := strip, info := r } s) s

/-- A rank that has not arrived holds a FAULTED or SAVED firing of a gang: the watchdog pauses (R187). -/
def gangPausedNow (s : State) (strip : Nat) : Bool :=
  let t := stripOf s strip
  (List.range 16).any fun r =>
    !(t.gang.any (·.1 == r) || t.barmax.any (·.1 == r)) &&
      ((faultedRanks s strip).contains r || (coreOf s (strip * 16 + r)).saved.any fun v => inGang s v.fir)

/-- The gang's watchdog starts with the first arrival (R187). -/
def gangOpen (strip : Nat) (s : State) : State :=
  let t := stripOf s strip
  if t.gang.isEmpty && t.barmax.isEmpty then
    gangRecords strip (modStrip strip (fun t => { t with gangSince := some s.cyc, gangCount := 0 }) s)
  else s

/-- Release the contexts of a complete wired barrier with a value each receives. -/
def gangRelease (strip : Nat) (cs : List Nat) (v : Nat) (s : State) : State :=
  let s := modStrip strip (fun t => { t with gang := [], barmax := [], gangSince := none, gangCount := 0 }) s
  cs.foldl (fun s c => if c == s.cur then s else modCtx c (fun x => { x with st := .ready, granted := true, fetched := [(0, 8, true, v)] }) s) s

/-- GANG (R183, R412). -/
def execGang (h : Head) (s : State) : Host.Outcome State Fault Refusal :=
  runHead Rows.gang h {} (do
    let s ← get
    if !gangFiring s then illegal 0x02
    let core := coreNo s.cur
    let strip := stripNo core
    let pass : X Next := do
      upd (acquire 1)
      upd (modFir s.cur fun f => { f with gangPassed := true, mmaOrd := 0 })
      pure .seq
    if ← answered .gang then return (← pass)
    release 1
    upd (gangOpen strip)
    upd (modStrip strip fun t => { t with gang := t.gang.filter (·.1 != rankNo core) ++ [(rankNo core, s.cur)] })
    let t := stripOf (← get) strip
    if t.gang.length == 16 then
      upd (gangRelease strip (t.gang.map (·.2)) 0)
      pass
    else throw (.wait .gang)) s

/-- BARMAX (R411). -/
def execBarmax (h : Head) (s : State) : Host.Outcome State Fault Refusal :=
  runHead Rows.barmax h (Use.ofRow Rows.barmax h) (do
    let s ← get
    if !gangFiring s then illegal 0x02
    let core := coreNo s.cur
    let strip := stripNo core
    if ← answered .gang then
      upd (acquire 1)
      lateInt h.d (BitVec.ofNat 64 (((here s).fetched.head?.map fun f => f.2.2.2).getD 0)) 0
      return .seq
    release 1
    upd (gangOpen strip)
    upd (modStrip strip fun t => { t with barmax := t.barmax.filter (·.1 != rankNo core) ++ [(rankNo core, s.cur, opA s h)] })
    let t := stripOf (← get) strip
    if t.barmax.length == 16 then
      let m := t.barmax.foldl (fun m a => Nat.max m a.2.2.toNat) 0
      upd (gangRelease strip (t.barmax.map (·.2.1)) m)
      upd (acquire 1)
      lateInt h.d (BitVec.ofNat 64 m) 0
      pure .seq
    else throw (.wait .gang)) s

end Sys2Proof.Machine
end

