-- ==== Sys2Proof/Machine/Messages.lean ====
section
/-! DEFINITION. SEND, NPUT, PUSH and CONSUME (R413 to R417 of 14_isa_memory_sync.md; R150 to R157 of
06_execution_model.md; R176 of 07_cores_strips.md). -/

namespace Sys2Proof.Machine

/-- Put a message of the package on its way. -/
def postNet (m : NetMsg) (s : State) : State := { s with net := s.net ++ [m] }

/-! ### SEND (R413, R414) -/

/-- A check of a shadow register, which TRAPINFO bits 11:8 name (R463). -/
def checkNamed (reg : Nat) (c : Cap) (ea n p align : Nat) : X Unit := do
  ensure c.tag 0x06 ea (reg * 256)
  ensure (CapF.inBounds c ea n) 0x07 ea (reg * 256)
  ensure (CapF.holds c p) 0x08 ea (reg * 256)
  ensure (ea % align == 0) 0x09 ea (reg * 256)

/-- Entries of a completion ring, and its base (R257). -/
def ringEntries (c : Cap) : Nat := ((CapF.top c - CapF.base c) / 32).toNat
def ringBase (c : Cap) : Nat := (CapF.base c).toNat
/-- CPRING describes a ring that may be stored to (R414, R463). -/
def ringCheck (c : Cap) : X Unit := do
  if ringEntries c == 0 || ringBase c % 32 != 0 || CapF.base c < 0 then illegal 0x0A
  checkNamed 5 c (ringBase c) (32 * ringEntries c) CapF.ST 32

/-- Messages of a core that have left no entry of its outbound queue: on their way in the package, or waiting for
room in a window (R155). -/
def outboundHeld (s : State) (core : Nat) : Nat :=
  (s.net.filter fun m =>
    match m with
    | .msg _ x => !x.left && x.packet.isNone && x.from_.isNone && handleCore x.sender == core
    | _ => false).length +
    (s.fab.win.map fun (_, w) => (w.queued.filter fun h =>
      ((hdrOf h.pkt.hdr).ty == tMSG || (hdrOf h.pkt.hdr).ty == tMREP) && h.cid.any fun c => coreNo c.1 == core).length).sum

/-- Flits of MSG and MREP (R35, log 13): handler line in bits 63:0 of flit 1, target 127:64, handle 191:128, payload
tags 199:192, ASID 219:208; the payload registers in flits 2 and 3. -/
def msgFlits (m : Msg) : List (BitVec 512) :=
  let tags := ((m.payload.zipIdx.map fun (c, k) => if c.tag then 2 ^ k else 0).sum)
  let half (cs : List Cap) : BitVec 512 :=
    BitVec.ofNat 512 ((cs.zipIdx.map fun (c, k) => (c.w0.toNat + c.w1.toNat * 2 ^ 64) * 2 ^ (128 * k)).sum)
  [BitVec.ofNat 512 (m.line + m.target.toNat * 2 ^ 64 + m.sender * 2 ^ 128 + tags * 2 ^ 192 + m.asid.toNat * 2 ^ 208),
    half (m.payload.take 4), half (m.payload.drop 4)]

/-- The undeliverable return of a message to its sender, from a core or port, with its status (R47, R157). -/
def returnMsg (src st : Nat) (m : Msg) : NetMsg := .undeliverable src st m.sender m.target m.line m.quiet m.asid m.packet

/-- Where a SEND goes: a core of this device, or another device with OP (log 13) and the offset of an address. -/
inductive Target where
  | core (k : Nat)
  | device (d op off : Nat)
  deriving DecidableEq, Repr

/-- Post a message (R39, R414). -/
def postMsg (t : Target) (m : Msg) (s : State) : State :=
  match t with
  | .core k => postNet (.msg k m) s
  | .device d op off =>
    if routable s d then
      sendSeqQ { ty := if m.reply then tMREP else tMSG, ddev := d, op := op, o := true, off := off } (msgFlits m)
        (some (s.cur, syncRead)) false m.quiet s
    else postNet (returnMsg (portUnit s d) 7 m) s

/-- The destination of each SEND form, and the target word the handler receives (R151, R413). -/
def sendTarget (h : Head) (form : Nat) : X (Target × W64) := do
  let s ← get
  let b := gB s h
  match form with
  | 0 => do
    check b (CapF.addr b) 1 0 1
    let (pa, attr) ← translate (CapF.addr b) 0
    let s ← get
    let word := BitVec.ofNat 64 (CapF.addr b)
    match spaceOf s pa with
    | .remote d off => pure (.device d 0 off, word)
    | _ => pure (.core (homeOf s attr (dieOfCore (coreNo s.cur)) pa), word)
  | 1 =>
    let n := b.val.toNat
    let core := n % 4096
    pure (if n / 4096 % 16384 == s.dev then .core core else .device (n / 4096 % 16384) 1 core, BitVec.ofNat 64 core)
  | _ =>
    let n := b.val.toNat % 2 ^ 37
    pure (if handleDev n == s.dev then .core (handleCore n) else .device (handleDev n) 2 0, BitVec.ofNat 64 n)

/-- SEND (R413, R414). -/
def sendHead (r : Row) (h : Head) (form : Nat) (s : State) : Host.Outcome State Fault Refusal :=
  let n := h.im 3 0
  let regs := (List.range n).map fun k => h.d.toNat + k
  runHead r h { rg := [h.a.toNat, h.b.toNat] ++ regs } (do
    let s ← get
    let c := gA s h
    check c (CapF.addr c) 64 CapF.EXE 64
    let (t, word) ← sendTarget h form
    let quiet := h.im 4 4 == 1
    if quiet then ringCheck (here s).cpring
    let s ← get
    ensure (outboundHeld s (coreNo s.cur) < 16) 0x0E
    release (match t with
      | .core _ => 3
      | .device _ _ _ => 4)
    let f := firOf s s.cur
    let m : Msg := {
      line := CapF.addr c
      target := word
      sender := f.handle
      asid := (here s).asid
      payload := (regs.map fun k => readG (here s) k) ++ List.replicate (8 - n) Cap.null
      reply := form == 2
      quiet := if quiet then some (here s).cpring else none
      fn := f.fn
      queue := f.queue }
    upd (postMsg t m)
    pure .seq) s

def execSend (h : Head) (s : State) : Host.Outcome State Fault Refusal := sendHead Rows.send h 0 s
def execSendC (h : Head) (s : State) : Host.Outcome State Fault Refusal := sendHead Rows.sendC h 1 s
def execSendR (h : Head) (s : State) : Host.Outcome State Fault Refusal := sendHead Rows.sendR h 2 s

/-! ### NPUT (R415, R176) -/

/-- Row and column of a core in the 64 × 64 grid (R8, R12). -/
def gridRow (k : Nat) : Nat := k / 2048 * 32 + k % 32
def gridCol (k : Nat) : Nat := k / 1024 % 2 * 32 + k / 32 % 32
/-- The core at a row and column. -/
def coreAt (row col : Nat) : Nat := (row / 32 * 2 + col / 32) * 1024 + col % 32 * 32 + row % 32
/-- The logical neighbour on a side: 0 north, 1 east, 2 south, 3 west; none at the edge (R176). -/
def neighbour (k side : Nat) : Option Nat :=
  let r := gridRow k
  let c := gridCol k
  match side with
  | 0 => if r == 0 then none else some (coreAt (r - 1) c)
  | 1 => if c == 63 then none else some (coreAt r (c + 1))
  | 2 => if r == 63 then none else some (coreAt (r + 1) c)
  | _ => if c == 0 then none else some (coreAt r (c - 1))

/-- NPUT, write form: released at strip scope, a write to the neighbour's firing, or its undeliverable return. -/
def execNput (h : Head) (s : State) : Host.Outcome State Fault Refusal :=
  let isV := h.im 3 3 == 1
  runHead Rows.nput h { rg := h.b.toNat :: (if isV then [] else [h.a.toNat]), rv := if isV then [h.a.toNat] else [] } (do
    let s ← get
    let n := (gB s h).val.toNat % 2 ^ 37
    release 1
    let f := firOf s s.cur
    let s ← get
    let to_ := neighbour (coreNo s.cur) (h.im 1 0)
    if handleDev n == s.dev && to_ == some (handleCore n) then
      upd (postNet (.nwrite (handleCid n) n isV h.d.toNat (if isV then Cap.null else gA s h)
        (if isV then readV (here s) h.a.toNat else 0) f.handle))
    else upd (postNet (.undeliverable (coreNo s.cur) 4 f.handle (BitVec.ofNat 64 n) 0 none (here s).asid none))
    pure .seq) s

/-- A value lands in a register: it is written, present and no longer armed (R176). -/
def landReg (isV : Bool) (reg : Nat) (cap : Cap) (vec : VReg) (x : Ctx) : Ctx :=
  if isV then { arriveV (writeV x reg vec) reg with armV := SMap.set false x.armV reg false }
  else { arriveG (writeG x reg cap) reg with armG := SMap.set false x.armG reg false }

/-- Arm a register: absent until a neighbour write lands; the oldest held one for it lands at once (R176). -/
def armReg (isV : Bool) (reg : Nat) (x : Ctx) : Ctx :=
  match x.hold.find? fun e => e.isV == isV && e.reg == reg with
  | some e => { landReg isV reg e.cap e.vec x with hold := x.hold.erase e }
  | none =>
    if isV then { clearV x reg with armV := SMap.set false x.armV reg true }
    else { clearG x reg with armG := SMap.set false x.armG reg true }

/-- NPUT, arming form. -/
def execNputArm (h : Head) (s : State) : Host.Outcome State Fault Refusal :=
  let isV := h.im 3 3 == 1
  runHead Rows.nputArm h (if isV then { nv := [h.d.toNat] } else { ng := [h.d.toNat] }) (do
    let s ← get
    if (here s).pend.any (pendIn isV h.d.toNat (h.d.toNat + 1)) then throw .stall
    upd (modHere (armReg isV h.d.toNat))
    pure .seq) s

/-! ### FIFOs (R150, R416, R417) -/

/-- The binding of a FIFO firing. -/
def bindingOf (f : Firing) : Option Nat :=
  match f.path with
  | .fifo b => some b
  | _ => none

/-- PUSH (R416). -/
def execPush (h : Head) (s : State) : Host.Outcome State Fault Refusal :=
  runHead Rows.push h (Use.ofRow Rows.push h) (do
    let s ← get
    let core := coreNo s.cur
    let k := h.d.toNat
    let f := firOf s s.cur
    let n := (gB s h).val.toNat
    let out := f.actor.outs.getD k 0
    let b := (bindingOf f).getD 16
    if !(b < 16 && fifoUsed out && n ∈ [8, 16, 32, 64, 128, 256, 512] && 1 ≤ credOf s core b k) then illegal 0x0A
    let c := gA s h
    let spans ← access c (CapF.addr c) n CapF.LD 8 kRead false
    release 3
    let x ← readSpans spans
    upd (setCred core b k (credOf s core b k - 1))
    upd (postNet (.fifo core (fifoCore out) (fifoNum out) (leBytes n x) (f.fn, f.queue)))
    pure .seq) s

/-- CONSUME (R417). -/
def execConsume (h : Head) (s : State) : Host.Outcome State Fault Refusal :=
  runHead Rows.consume h (Use.ofRow Rows.consume h) (do
    let s ← get
    let core := coreNo s.cur
    let f := firOf s s.cur
    let inp := f.actor.ins.getD h.d.toNat 0
    let n := if h.form == .T2 then h.im 15 0 else (gB s h).val.toNat
    let e := fifoOf s core (fifoNum inp)
    if !((bindingOf f).isSome && fifoUsed inp && n ≤ fifoCnt e) then illegal 0x0A
    release 3
    upd (setFifo core (fifoNum inp) (fifoWith e (fifoCnt e - n) ((fifoHead e + n) % fifoCap e) (fifoTail e)))
    upd (postNet (.credit (fifoPcore e) core (fifoNum inp) n))
    pure .seq) s

end Sys2Proof.Machine
end

