-- ==== Sys2Proof/Machine/Copy.lean ====
section
/-! DEFINITION. Copies: CPGO (R463 of 16_isa_matrix_system.md) and the copy engines (R252 to R261 of
08_memory_prisms.md). A copy moves its data in the turns of COPY_COMPLETE, the last of which completes it. -/

namespace Sys2Proof.Machine

/-! ### Fields and patterns (R253, R254) -/

namespace CpF

def c0 (c : Copy) : Nat := bitsOf c.cnt.toNat 63 32
def c1 (c : Copy) : Nat := bitsOf c.cnt.toNat 31 16
def c2 (c : Copy) : Nat := bitsOf c.cnt.toNat 15 0
def total (c : Copy) : Nat := c0 c * c1 c * c2 c
def s1 (c : Copy) : Int := signedOf 32 (bitsOf c.str.toNat 63 32)
def s2 (c : Copy) : Int := signedOf 32 (bitsOf c.str.toNat 31 0)
def scope (c : Copy) : Nat := bitsOf c.ctl.toNat 63 61
def dstr (c : Copy) : Bool := c.ctl.getLsbD 60
def dkind (c : Copy) : Bool := c.ctl.getLsbD 59
def slot (c : Copy) : Nat := bitsOf c.ctl.toNat 58 52
def sigen (c : Copy) : Bool := c.ctl.getLsbD 51
def sigop (c : Copy) : Bool := c.ctl.getLsbD 50
def siga (c : Copy) : Nat := bitsOf c.ctl.toNat 46 9 * 8

/-- A byte of the pattern: its place from the first byte, strided. -/
def strided (c : Copy) (i : Nat) : Int :=
  let row := i / c0 c
  (row / c1 c : Nat) * s2 c + (row % c1 c : Nat) * s1 c + (i % c0 c : Nat)
/-- The source address of pattern byte `i`, and the place of the byte it is written to from a destination's
first. -/
def srcAt (c : Copy) (i : Nat) : Int := (CapF.addr c.src : Nat) + strided c i
def dstOff (c : Copy) (i : Nat) : Int := if dstr c then strided c i else (i : Nat)
/-- The lowest and highest byte of a strided pattern at `a`. -/
def range (c : Copy) (a : Int) (st : Bool) : Int × Int :=
  if st then
    let x : Int := (c1 c - 1 : Nat) * s1 c
    let y : Int := (c2 c - 1 : Nat) * s2 c
    (a + (if x < 0 then x else 0) + (if y < 0 then y else 0),
      a + (c0 c : Int) - 1 + (if x < 0 then 0 else x) + (if y < 0 then 0 else y))
  else (a, a + (total c : Nat) - 1)

/-- The numbers of the destinations: bit numbers of CPMCAST, or 0. -/
def dests (c : Copy) (window : Bool) : List Nat :=
  if c.mcast == 0 || window then [0] else (List.range 64).filter fun i => c.mcast.getLsbD i
/-- The first byte of destination `k` (R253). -/
def destAt (c : Copy) (k : Nat) : Int := (CapF.addr c.dst : Nat) + (k * 0x400000 : Nat)

end CpF

/-! ### CPGO (R463) -/

/-- The first byte of a row that a capability does not hold. -/
def rowFail (c : Cap) (a : Int) (n : Nat) : Option Int :=
  if 34 < CapF.e c || a < CapF.base c then some a
  else if CapF.top c < a + n then some (if a < CapF.top c then CapF.top c else a)
  else none

/-- The first failing byte of a pattern in its own order, `n` rows from row `k`. -/
def patternFail (c : Copy) (cap : Cap) (a : Int) (st : Bool) : Nat → Nat → Option Int
  | 0, _ => none
  | n + 1, k =>
    let off := if st then CpF.strided c (k * CpF.c0 c) else (k * CpF.c0 c : Nat)
    match rowFail cap (a + off) (CpF.c0 c) with
    | some b => some b
    | none => patternFail c cap a st n (k + 1)

/-- Check a capability over a pattern's range: TRAPADDR names the first failing byte (R463). -/
def patternCheck (reg : Nat) (c : Copy) (cap : Cap) (a : Int) (st : Bool) : X Unit := do
  let (lo, hi) := CpF.range c a st
  if !(CapF.e cap ≤ 34 && CapF.base cap ≤ lo && hi + 1 ≤ CapF.top cap) then
    let b := (patternFail c cap a st (CpF.c1 c * CpF.c2 c) 0).getD lo
    raise 0x07 (b % (2 ^ 57 : Nat)).toNat (reg * 256)

/-- The I/O die of a copy, whether its route entry is valid, and the destination device; none for an on-package
copy (R9, R252). -/
def copyDie (s : State) (src dst : Space) : Option (Nat × Bool) :=
  let die (d : Nat) : Option (Nat × Bool) :=
    if routable s d then some (prismIo (portPrism (seqPort s d)), true) else some (0, false)
  match src, dst with
  | _, .remote d _ => die d
  | .remote d _, _ => die d
  | .host, _ => some (1, true)
  | _, .host => some (1, true)
  | _, _ => none

/-- The copy that the shadow registers of the issuing context describe (R254). -/
def snapshot (s : State) : Copy :=
  let x := here s
  { id := s.cp.nextCopy, core := coreNo s.cur, xid := 0, cid := s.cur, handle := (firOf s s.cur).handle, asid := x.asid.toNat,
    src := x.cpsrc, dst := x.cpdst, ring := x.cpring, cnt := x.cpcnt, str := x.cpstr, mcast := x.cpmcast, ctl := x.cpctl,
    promise := 0, srcLo := 0, srcHi := 0, dstLo := 0, dstHi := 0, user := !x.sup, fn := (firOf s s.cur).fn,
    queue := (firOf s s.cur).queue, ddev := s.dev }

/-- Every field of the shadow registers lies in its range (R253). -/
def fieldsOk (c : Copy) : Bool :=
  1 ≤ CpF.c0 c && 1 ≤ CpF.c1 c && 1 ≤ CpF.c2 c && CpF.scope c ≤ 5 && (!CpF.dkind c || CpF.total c == 16384)

/-- The next transfer identifier of a core, never 0. -/
def nextXid (x : Nat) : Nat := if (x + 1) % 2 ^ 32 == 0 then 1 else (x + 1) % 2 ^ 32
/-- The address of a copy's ring record (R257). -/
def ringEntry (c : Cap) (xid : Nat) : Nat := ringBase c + 32 * (xid % ringEntries c)

/-- The address of a byte as a 57-bit number. -/
def va57 (x : Int) : Nat := (x % (2 ^ 57 : Nat)).toNat

/-- The checks and translations of CPGO: the copy with its ranges. -/
def cpgoCheck : X Copy := do
  let s ← get
  let c := snapshot s
  checkNamed 0 c.src (CapF.addr c.src) 1 CapF.LD 1
  checkNamed 1 c.dst (CapF.addr c.dst) 1 CapF.ST 1
  ringCheck c.ring
  if !fieldsOk c then illegal 0x0A
  patternCheck 0 c c.src (CapF.addr c.src : Nat) true
  let xid := nextXid (coreOf s c.core).xid
  let (spa, _) ← translate (CapF.addr c.src) kRead
  let src := spaceOf s spa
  let (srcLo, srcHi) := CpF.range c (CapF.addr c.src : Nat) true
  let c := { c with xid := xid, srcLo := va57 srcLo, srcHi := va57 srcHi }
  if CpF.dkind c then
    let _ ← translate (ringEntry c.ring xid) kWrite
    let die := copyDie s src .hole
    return { c with offPkg := die.map (·.1), noRoute := die.any fun d => !d.2 }
  let (dpa, _) ← translate (CapF.addr c.dst) kWrite
  let window := match spaceOf s dpa with
    | .regs _ _ => true
    | _ => false
  let ks := CpF.dests c window
  ks.forM fun k => patternCheck 1 c c.dst (CpF.destAt c k) (CpF.dstr c)
  let _ ← translate (ringEntry c.ring xid) kWrite
  let (lo, hi) := CpF.range c 0 (CpF.dstr c)
  let die := copyDie s src (spaceOf s dpa)
  pure { c with
    dstLo := va57 (CpF.destAt c (ks.headD 0) + lo)
    dstHi := va57 (CpF.destAt c (ks.getLastD 0) + hi)
    offPkg := die.map (·.1)
    noRoute := die.any fun d => !d.2
    ddev := match spaceOf s dpa with
      | .remote d _ => d
      | _ => s.dev }

/-- Room for one more copy: 32 of a core, two entries each of a die's 256 range locks (R252, R254). -/
def copyRoom (s : State) (core : Nat) : Bool :=
  (s.cp.copies.filter (·.core == core)).length < 32 &&
    2 * (s.cp.copies.filter fun c => dieOfCore c.core == dieOfCore core).length + 2 ≤ 256

/-- A locked range of virtual addresses, from its page at `va` on, maps a page of HBM. -/
def rangeCovers (s : State) (asid page : Nat) : Nat → Nat → Bool
  | 0, _ => false
  | n + 1, va =>
    (match walkTable s asid (4096 * va) 0 false with
      | .leaf v _ pa _ _ => normPa s (pa + (4096 * va - v)) / 4096 == page
      | .fault _ _ => false) || rangeCovers s asid page n (va + 1)
/-- A range covers a page. -/
def lockOn (s : State) (page : Nat) (l : Lock) : Bool := rangeCovers s l.asid page (l.hi / 4096 - l.lo / 4096 + 1) (l.lo / 4096)
/-- A range lock covers a page (R84). -/
def lockCovers (s : State) (page : Nat) : Bool := s.cp.locks.any (lockOn s page)
/-- A lock on a page whose bias is being flipped is registered only when the page leaves busy (R84). -/
def flipHolds (s : State) (l : Lock) : Bool := s.host.flip.any fun x => lockOn s x.page l

/-- Register a copy and its locks (R254, R260), but those that a bias flip holds back (R84). A slot destination has no address
to lock. -/
def startCopy (c : Copy) (s : State) : State :=
  let lock (lo hi : Nat) (dest : Bool) : Lock := { die := dieOfCore c.core, copy := c.id, asid := c.asid, lo := lo, hi := hi, dest := dest }
  let ls := lock c.srcLo c.srcHi false :: (if CpF.dkind c then [] else [lock c.dstLo c.dstHi true])
  modCore c.core (fun k => { k with xid := c.xid })
    (modCp (fun p => { p with
      copies := p.copies ++ [{ c with late := ls.filter (flipHolds s) }]
      locks := p.locks ++ ls.filter fun l => !flipHolds s l
      nextCopy := p.nextCopy + 1 }) s)

/-- CPGO (R254, R463). -/
def execCpgo (h : Head) (s : State) : Host.Outcome State Fault Refusal :=
  let d := h.d.toNat
  runHead Rows.cpgo h { wg := if 1 ≤ d && d ≤ 62 then [d, d + 1] else [] } (do
    if !(1 ≤ d && d ≤ 62) then illegal 0x0A
    let c ← cpgoCheck
    let s ← get
    if !drained s || !copyRoom s c.core then throw .stall
    let c := { c with promise := s.cyc + 64 + Config.promiseSlack c.id }
    upd (startCopy c)
    addPend (.g d) [] (.cst (Cap.ofInt (BitVec.ofNat 64 c.xid))) 1
    addPend (.g (d + 1)) [] (.cst (Cap.ofInt (BitVec.ofNat 64 c.promise))) 1
    pure .seq) s

/-! ### The engines -/

/-- Why an engine stops: the copy has ended with a status and fault code, an access faults, or it waits. -/
inductive CopyStop where
  | ended (status fcode : Nat)
  | fault (va cause level : Nat) (kind : BitVec 8)
  | held
  deriving DecidableEq, Repr

/-- What an engine does. -/
abbrev CX := EStateM CopyStop State

/-- The number a copy stands under among contexts. -/
def copyMark (id : Nat) : Nat := 2 ^ 44 + id
def copyById (s : State) (id : Nat) : Option Copy := s.cp.copies.find? (·.id == id)
def modCopy (id : Nat) (f : Copy → Copy) (s : State) : State :=
  modCp (fun p => { p with copies := p.copies.map fun c => if c.id == id then f c else c }) s

/-- Translate for the engine; a reserved bit ends the copy, another fault parks it (R297, R299). -/
def copyWalk (c : Copy) (va : Nat) (kind : BitVec 8) : CX (Nat × W64) := do
  match engineWalk (← get) c.asid va (kind ||| kEngine) c.user with
  | (.error (cause, l), _) => if cause == 3 then throw (.ended 3 3) else throw (.fault va cause l (kind ||| kEngine))
  | (.ok (pa, attr), s) =>
    set s
    pure (replicaPa attr (dieOfCore c.core) pa, attr)

/-- The gate of an access of the engine: a refusal ends the copy, a tag holds it (R226, R256, R261). -/
def copyGate (c : Copy) (pa ty : Nat) : CX Unit := do
  let s ← get
  match homeGate s (copyMark c.id) pa ty with
  | .refuse 0 => throw (.ended 3 0x12)
  | .refuse st => throw (.ended 5 st)
  | .hold post =>
    set (suspendAs pa ty (copyMark c.id) c.handle post s)
    throw .held
  | .go => set (unsuspend pa ty (copyMark c.id) s)

/-- A window that needs the system permission (R208). -/
def copySys (cap : Cap) (pa : Nat) : CX Unit := do
  match spaceOf (← get) pa with
  | .regs _ _ | .ctl _ _ => if !CapF.holds cap CapF.SYS then throw (.ended 3 0x08)
  | _ => pure ()

/-- Read `n` source bytes that lie in one 32-byte word, at their home or by an RD with O = 0 (R54, R256). -/
def copyRead (c : Copy) (va n : Nat) : CX Nat := do
  let (pa, _) ← copyWalk c va kRead
  copySys c.src pa
  let s ← get
  match spaceOf s pa with
  | .remote d off =>
    let blk := pa / 64 * 64
    match c.got.find? (·.1 == blk) with
    | some (_, true, x) => pure (x / 2 ^ (8 * (pa % 64)) % 2 ^ (8 * n))
    | some (_, false, st) => if st == 256 then throw (.ended 3 0x12) else throw (.ended 5 st)
    | none =>
      if !routable s d then throw (.ended 5 7)
      if c.asked != some blk then
        set (sendSeq { ty := tRD, ddev := d, op := 6, off := off / 64 * 64 } [] (some (copyMark c.id, blk)) true
          (modCopy c.id (fun c => { c with asked := some blk }) s))
      throw .held
  | _ =>
    copyGate c pa 0
    let s ← get
    if poisonable s pa && poisonAt s pa n then throw (.ended 3 0x12)
    set (correct pa n s)
    pure (homeBytes s pa n).1

/-- A masked write of at most one block to another device, with O = 0 for a copy's data (R35, R54). -/
def copyWrm (c : Copy) (d off n x : Nat) (s : State) : State :=
  sendSeq { ty := tWRM, ddev := d, off := off / 64 * 64 }
    [BitVec.ofNat 512 ((2 ^ n - 1) * 2 ^ (off % 64)), BitVec.ofNat 512 (x * 2 ^ (8 * (off % 64)))] (some (copyMark c.id, 0)) false (notePush (remotePa d off) s)

/-- A store of the engine at its home, at every replica of a replicated page (R217). -/
def copyStore (c : Copy) (attr : W64) (pa n x : Nat) (s : State) : State :=
  let all := if hmode attr == 2 then (List.range 4).map fun d => pa % 0x3000000000 + d * 0x3000000000 else [pa]
  all.foldl (fun s a =>
    modCopy c.id (fun c => { c with pushed := addPushed s a c.pushed }) (homeWrite a n x false none c.cid s)) s

/-- What a copy's register write names as its sender, so that a refusal finds the copy (R176). -/
def regSender (id : Nat) : Nat := 2 ^ 40 + id
/-- Register writes of a copy, or their returns, are on their way. -/
def regsOut (s : State) (id : Nat) : Bool :=
  s.net.any fun m =>
    match m with
    | .nwrite _ _ _ _ _ _ sender => sender == regSender id
    | .undeliverable _ _ sender _ _ _ _ _ => sender == regSender id
    | _ => false

/-- Bytes of a register window gather until a register is whole or the row ends, and then travel as a neighbour
write does (R176). `last` says that the row ends with these bytes. -/
def copyReg (c : Copy) (core off n x : Nat) (last : Bool) : CX Unit := do
  let s ← get
  let o := off % 0x2000
  let isV := 0x1000 ≤ o
  let size := if isV then 128 else 16
  let at_ := o % size
  let r := if isV then (o - 0x1000) / 128 else o / 16
  let now := (winReg s core (off - at_)).1
  let old := if c.reg == 0 then now else c.reg - 1
  let y := mergeBytes old at_ n x
  if at_ + n == size || last then
    let cap : Cap := ⟨BitVec.ofNat 64 y, BitVec.ofNat 64 (y / 2 ^ 64), false⟩
    set (postNet (.nwrite (core * 8 + off % 0x10000 / 0x2000) (c.mcast.toNat % 2 ^ 37) isV r (if isV then Cap.null else cap)
      (if isV then BitVec.ofNat 1024 y else 0) (regSender c.id)) (modCopy c.id (fun c => { c with reg := 0 }) s))
  else set (modCopy c.id (fun c => { c with reg := y + 1 }) s)

/-- Write `n` bytes of the pattern at `off` of destination `k`. -/
def copyWrite (c : Copy) (off : Int) (n x : Nat) (last : Bool) (k : Nat) : CX Unit := do
  if CpF.dkind c then
    modify (modStrip (stripNo c.core + k) (opPoke (CpF.slot c * 16384 + off.toNat) n x))
  else
    let (pa, attr) ← copyWalk c (va57 (CpF.destAt c k + off)) kWrite
    let src := CpF.range c (CapF.addr c.src : Nat) true
    let (x, s) := freeOverlap src.1 src.2 (CpF.destAt c k + off) x n (← get)
    set s
    match spaceOf s pa with
    | .remote d o => if routable s d then set (copyWrm c d o n x s) else throw (.ended 5 7)
    | .regs core o => copyReg c core o n x last
    | _ =>
      copySys c.dst pa
      copyGate c pa 1
      modify (copyStore c attr pa n x)

/-- The parts of a range of virtual addresses that its pages map: first and last physical byte. -/
def physParts (s : State) (asid lo hi : Nat) : List (Nat × Nat) :=
  (List.range (hi / 4096 - lo / 4096 + 1)).filterMap fun k =>
    let a := Nat.max lo (4096 * (lo / 4096 + k))
    let b := Nat.min hi (4096 * (lo / 4096 + k) + 4095)
    match walkTable s asid a 0 false with
    | .leaf v _ pa _ _ => some (normPa s (pa + (a - v)), normPa s (pa + (a - v)) + (b - a))
    | .fault _ _ => none
/-- Two ranges of virtual addresses share a physical byte. -/
def sharePhys (s : State) (asid lo hi asid' lo' hi' : Nat) : Bool :=
  (physParts s asid lo hi).any fun p => (physParts s asid' lo' hi').any fun q => p.1 ≤ q.2 && q.1 ≤ p.2

/-- A receiver of a copy refuses its tile (R259). -/
def copyRefused (c : Copy) (k : Nat) : CX Bool := do
  if CpF.dkind c then
    let s ← get
    let strip := stripNo c.core + k
    let sl : Slot := SMap.get {} (stripOf s strip).slots (CpF.slot c)
    pure (strip / 64 != stripNo c.core / 64 || !(sl.st == .claimed && sl.asid == c.asid) || slotNamed s strip (CpF.slot c))
  else
    let (lo, hi) := CpF.range c (CpF.destAt c k) (CpF.dstr c)
    let (pa, _) ← copyWalk c (va57 (CpF.destAt c k)) kWrite
    let s ← get
    match spaceOf s pa with
    | .spad _ _ =>
      pure (s.cp.copies.any fun x => x.id != c.id && !CpF.dkind x && sharePhys s c.asid (va57 lo) (va57 hi) x.asid x.dstLo x.dstHi)
    | _ => pure false

/-- The destinations of a copy, and whether it goes to a register window. -/
def copyDests (c : Copy) : CX (List Nat) := do
  if CpF.dkind c then return CpF.dests c false
  if c.mcast == 0 then return [0]
  let (pa, _) ← copyWalk c (CapF.addr c.dst) kWrite
  match spaceOf (← get) pa with
  | .regs _ _ => pure [0]
  | _ => pure (CpF.dests c false)

/-- Ask the receivers once, before the first write (R259). -/
def copyBegin (id : Nat) : CX Unit := do
  match copyById (← get) id with
  | none => pure ()
  | some c =>
    if c.noRoute then throw (.ended 5 7)
    if c.begun then return
    let ks ← copyDests c
    let ask (m k : Nat) : CX Nat := do
      if CpF.dkind c || c.mcast != 0 then
        if ← copyRefused c k then return Nat.lor m (2 ^ k)
      pure m
    let m ← ks.foldlM ask 0
    modify (modCopy id fun c => { c with begun := true, refmask := m })

/-- Move one part of the pattern: bytes of one row inside one source word and one destination granule. -/
def copyPart (c : Copy) : CX Unit := do
  let i := c.moved
  let left := CpF.c0 c - i % CpF.c0 c
  let src := va57 (CpF.srcAt c i)
  let off := CpF.dstOff c i
  let dlow := if CpF.dkind c then i % 16 else va57 (CpF.destAt c 0 + off) % 16
  let n := Nat.min left (Nat.min (32 - src % 32) (16 - dlow))
  let x ← copyRead c src n
  let ks := (← copyDests c).filter fun k => !(BitVec.ofNat 64 c.refmask).getLsbD k
  ks.forM fun k => copyWrite c off n x (n == left) k
  modify (modCopy c.id fun c => { c with moved := i + n, written := c.written + n * ks.length })

/-- Move what is left, at most `n` parts. -/
def copyMove (id : Nat) : Nat → CX Unit
  | 0 => pure ()
  | n + 1 => do
    match copyById (← get) id with
    | none => pure ()
    | some c =>
      if c.moved < CpF.total c then
        copyPart c
        copyMove id n
      else
        modify (modCopy id fun c => { c with ended := some (if c.refmask != 0 then 4 else 0, 0) })

/-- Send the signal behind the data (R46, R257): on another device as SIG, else at its word. -/
def copySignal (c : Copy) : CX Unit := do
  let s ← get
  let done (s : State) : State := modCopy c.id (fun c => { c with signed := true, relBegun := false }) s
  let a := CpF.siga c
  if c.ddev != s.dev then
    if routable s c.ddev then
      set (done (sendSeq { ty := tSIG, ddev := c.ddev, op := if CpF.sigop c then 1 else 0, o := true, off := a,
                           scope := Nat.max 4 (CpF.scope c) } [] (some (copyMark c.id, 0)) false s))
    else set (done (postedFail c.cid a 7 s))
  else match offsetPa s a with
    | none => set (done (postedFail c.cid a 1 s))
    | some pa =>
      match homeGate s (copyMark c.id) pa 2 with
      | .refuse st => set (done (postedFail c.cid pa st s))
      | .hold post =>
        set (suspendAs pa 2 (copyMark c.id) c.handle post s)
        throw .held
      | .go =>
        let v := if CpF.sigop c then (peek s pa 8 + 1) % 2 ^ 64 else 1
        set (done (homeWrite pa 8 v false none c.cid (unsuspend pa 2 (copyMark c.id) s)))

/-- The packets that a copy has sent are all covered (R43). -/
def copyCovered (s : State) (id : Nat) : Bool :=
  (outPkts s).all fun h => h.acked || !(h.cid.any fun c => c.1 == copyMark id)

/-- The 32 bytes of a ring record (R257). -/
def ringBytes (c : Copy) (status fcode cyc : Nat) : Nat :=
  c.xid % 2 ^ 32 + status * 2 ^ 32 + fcode % 256 * 2 ^ 40 + c.written % 2 ^ 64 * 2 ^ 64 + c.refmask % 2 ^ 64 * 2 ^ 128 +
    cyc % 2 ^ 64 * 2 ^ 192

/-- Write the completion record; one that is refused leaves an error record. -/
def copyRecord (c : Copy) (status fcode : Nat) : CX Unit := do
  let (pa, attr) ← copyWalk c (ringEntry c.ring c.xid) kWrite
  let s ← get
  let x := ringBytes c status fcode s.cyc
  match spaceOf s pa with
  | .remote d o => set (if routable s d then copyWrm c d o 32 x s else postedFail c.cid pa 7 s)
  | _ =>
    match homeGate s (copyMark c.id) pa 1 with
    | .refuse st => set (postedFail c.cid pa st s)
    | .hold post =>
      set (suspendAs pa 1 (copyMark c.id) c.handle post s)
      throw .held
    | .go => set (copyStore c attr pa 32 x (unsuspend pa 1 (copyMark c.id) s))

/-- The copy is gone: its locks are free, contexts that wait on it go on with an acquire at its scope (R257, R278,
R381, R383). -/
def copyGone (c : Copy) (s : State) : State :=
  let s := modCp (fun p => { p with copies := p.copies.filter (·.id != c.id), locks := p.locks.filter (·.copy != c.id) }) s
  let s := modMs (fun m => { m with susp := m.susp.filter (·.cid != copyMark c.id) }) s
  let waits (x : Ctx) : Bool := x.st == .waiting && (match x.wait with
    | .waitt _ b => b == c.xid
    | .waiteRing b => b == c.xid
    | _ => false)
  let woken := (List.range 8).filter fun j => waits (ctxOf s (c.core * 8 + j))
  let s := woken.foldl (fun s j => grant (c.core * 8 + j) s) s
  wakeReleases (if woken.isEmpty || CpF.scope c == 0 then s else l1Acquire c.core s)

/-- A release of a copy at its scope begins, once: what it has written under PUSH is released at the homes (R248, R257). -/
def copyPublish (c : Copy) (s : State) : State :=
  if CpF.scope c < 4 then s
  else
    let s := if c.relBegun then s
      else modCopy c.id (fun c => { c with relBegun := true, relPush := c.pushed, pushed := [] }) (sendPushrels (copyMark c.id) s)
    let (left, s) := postPushrels (copyMark c.id) ((copyById s c.id).map (·.relPush) |>.getD []) s
    modCopy c.id (fun c => { c with relPush := left }) s
/-- All that a copy has written is performed and visible at its scope (R246, R248, R278). -/
def copySettled (s : State) (c : Copy) : Bool :=
  !regsOut s c.id && copyCovered s c.id && ((List.range 24).all fun p => !spreads s 1 7 p) &&
    ((copyById s c.id).any fun c => c.relPush.isEmpty) && !relOut s (copyMark c.id)
/-- A step of a copy's end that waits until its writes are visible. -/
def copySettle (id : Nat) : CX Unit := do
  match copyById (← get) id with
  | none => pure ()
  | some c =>
    modify (copyPublish c)
    if !copySettled (← get) c then throw .held
/-- A copy frees its range locks (R257). -/
def freeLocks (id : Nat) (s : State) : State :=
  modCopy id (fun c => { c with late := [] }) (modCp (fun p => { p with locks := p.locks.filter (·.copy != id) }) s)

/-- What comes before the record of a copy that has ended: its writes, its signal, and its range locks (R257). -/
def copyBefore (c : Copy) (st : Nat) : CX Unit := do
  if st != 2 then
    copySettle c.id
    if CpF.sigen c && !c.signed && (st == 0 || st == 4) then copySignal c
    if !copyCovered (← get) c.id then throw .held
  modify (freeLocks c.id)
/-- The status that the record of a copy gives: 1 when it is written after the promise (R257, R258). -/
def recordStatus (c : Copy) (st cyc : Nat) : Nat := if st == 0 && c.promise < cyc then 1 else st
/-- The completion of a copy that has ended: signal, range locks, record and release, which a cancelled copy does not perform
(R257, R261, R278). -/
def copyEnd (id : Nat) : CX Unit := do
  match copyById (← get) id with
  | none => pure ()
  | some c =>
    match c.ended with
    | none => pure ()
    | some (st, fc) =>
      if !c.recorded then
        copyBefore c st
        copyRecord c (recordStatus c st (← get).cyc) fc
        modify (modCopy id fun c => { c with recorded := true, relBegun := false })
      if st != 2 then copySettle id
      modify (copyGone c)

/-- Park a copy on a fault record (R297). -/
def copyFault (c : Copy) (va cause level : Nat) (kind : BitVec 8) (s : State) : State :=
  openFault (mkFault s c.asid va cause level c.handle kind false) (.copy c.id) (modCopy c.id (fun c => { c with parked := true }) s)

/-- Run the end of a copy. -/
def copyClose (c : Copy) (s : State) : State :=
  match copyEnd c.id s with
  | .ok _ t => t
  | .error (.fault va cause l k) t => copyFault c va cause l k t
  | .error (.ended _ _) t => modCopy c.id (fun c => { c with recorded := true }) t
  | .error .held t => t

/-- Run a copy as far as it goes. -/
def copyRun (c : Copy) (s : State) : State :=
  if c.parked then s
  else if c.ended.isSome then copyClose c s
  else match (do
      copyBegin c.id
      copyMove c.id (CpF.total c + 1) : CX Unit) s with
    | .ok _ t => copyClose c t
    | .error (.ended st fc) t => copyClose c (modCopy c.id (fun c => { c with ended := some (st, fc) }) t)
    | .error (.fault va cause l k) t => copyFault c va cause l k t
    | .error .held t => t

/-- The queue of a copy: its compute die's, or 4 and the number of its I/O die (R252). -/
def copyQueue (c : Copy) : Nat := match c.offPkg with
  | some d => 4 + d
  | none => dieOfCore c.core
/-- One of the 16 engines of its queue has taken a copy: engines take copies in issue order, and each keeps its copy until its
end (R252). -/
def onEngine (s : State) (idx : Nat) (c : Copy) : Bool := ((s.cp.copies.take idx).filter fun x => copyQueue x == copyQueue c).length < 16
/-- Locks that a bias flip no longer holds back are registered (R84). -/
def lateLocks (c : Copy) (s : State) : State :=
  if c.late.isEmpty then s
  else modCopy c.id (fun c => { c with late := c.late.filter (flipHolds s) })
    (modCp (fun p => { p with locks := p.locks ++ c.late.filter fun l => !flipHolds s l }) s)
/-- COPY_COMPLETE: the copy at a place of the list of copies runs on its engine, and completes when its last write is
performed. -/
def execCopyComplete (idx : Nat) (s : State) : Host.Outcome State Fault Refusal :=
  .next (match s.cp.copies[idx]? with
    | some c => if onEngine s idx c then copyRun c (lateLocks c s) else s
    | none => s)

/-- Take a party from every fault record, and close the records that nothing waits on (R131). -/
def leaveFaults (p : Parked → Bool) (s : State) : State :=
  let s := modTr (fun q => { q with
    faults := (q.faults.map fun r => { r with waiters := r.waiters.filter fun w => !p w }).filter fun r => !r.waiters.isEmpty
    pending := q.pending.filter fun f => !p f.who }) s
  faultPending s

/-- Cancel a copy (R261): locks freed, record with STATUS 2, no release and no signal. A record that a tag or a fault holds is
written when it can be. -/
def copyCancel (c : Copy) (s : State) : State :=
  let s := modCopy c.id (fun c => { c with parked := false, ended := some (2, 0) }) (leaveFaults (· == .copy c.id) s)
  if c.recorded then copyGone c s else copyClose c s

/-- Cancel every copy that a firing started. -/
def cancelCopies (handle : Nat) (s : State) : State :=
  (s.cp.copies.filter (·.handle == handle)).foldl (fun s c => copyCancel c s) s

/-- PROMISE_MISSED (R258): CYC has reached the promise of a copy that a context waits on: its head issues again and
takes the trap. -/
def execPromiseMissed (cid : Nat) (s : State) : Host.Outcome State Fault Refusal :=
  let x := ctxOf s cid
  let due (xid : Nat) : Bool := s.cp.copies.any fun c => c.core == coreNo cid && c.xid == xid && c.promise ≤ s.cyc &&
    !((x.fir.getD {}).missTaken.contains xid)
  .next (match x.wait with
    | .waitt _ b => if x.st == .waiting && due b then modCtx cid (fun x => { x with st := .ready }) s else s
    | .waiteRing b => if x.st == .waiting && due b then modCtx cid (fun x => { x with st := .ready }) s else s
    | _ => s)

/-- WAITT_EXPIRY (R381): CYC has reached the operand of a WAITT. -/
def execWaittExpiry (cid : Nat) (s : State) : Host.Outcome State Fault Refusal :=
  let x := ctxOf s cid
  .next (match x.wait with
    | .waitt a _ => if x.st == .waiting && a ≤ s.cyc then modCtx cid (fun x => { x with st := .ready }) s else s
    | _ => s)

end Sys2Proof.Machine
end

