-- ==== Sys2Proof/Machine/Prism.lean ====
section
/-! DEFINITION. The PRISM group (R473 to R479 of 16_isa_matrix_system.md): heads that only Prism threads run. -/

namespace Sys2Proof.Machine

/-! ### Blocks and the run -/

/-- The block a register names: a physical address, in remote form for a block of another device (R473). -/
def blockArg (s : State) (c : Cap) : Nat := normPa s (c.val.toNat % 2 ^ 56) / 64 * 64
/-- The run of the issuing thread. -/
def hereRun (s : State) : ThrRun := (runOf s s.cur).getD { msg := { ty := 0, block := 0 } }
/-- The issuing thread's Prism serves a block (R473). -/
def serves (s : State) (blk : Nat) : Bool := servingPrism s blk == prismNo s.cur || (hereRun s).msg.block == blk
/-- The block of a head, which its Prism must serve. -/
def servedBlock (c : Cap) : X Nat := do
  let s ← get
  let blk := blockArg s c
  if serves s blk then pure blk else illegal 0x0A

/-! ### The directory and transaction records (R233, R237, R238, R475) -/

/-- The key of the entry that answers for a block: its line entry, else its region entry. -/
def dirKey (s : State) (p blk : Nat) : Option Nat :=
  let d := (prismOf s p).dir
  if (SMap.get none d (dirLine blk)).isSome then some (dirLine blk)
  else if (SMap.get none d (dirRegion blk)).isSome then some (dirRegion blk) else none
/-- An entry is used: it is the most recently used one. -/
def dirTouch (p : Nat) (k : Option Nat) (s : State) : State :=
  match k with
  | some k => modPrism p (fun x => { x with lru := x.lru.filter (· != k) ++ [k] }) s
  | none => s
/-- Messages left by HDONE RETRY go again now: a record or an entry is free (R479). -/
def freeUp (p : Nat) (s : State) : State :=
  let now (m : PMsg) : PMsg := { m with retryAt := m.retryAt.map fun _ => s.cyc }
  modPrism p (fun x => { x with req := x.req.map now, rep := x.rep.map now }) s
/-- Fields of an entry. -/
def dirDst (e : W64) : Nat := bitsOf e.toNat 63 62
def dirSeq (e : W64) : Nat := bitsOf e.toNat 59 44
/-- An entry without the ATAG field, which only the image in g7 carries. -/
def dirPlain (e : W64) : W64 := e &&& ~~~(0x600 : W64)
/-- The image of a block's entry with its tag (R232, R475). -/
def dirImage (s : State) (p blk : Nat) : W64 := dirPlain (dirEntry s p blk) ||| BitVec.ofNat 64 (atagOf s blk * 2 ^ 9)
/-- Put an entry in the directory, or take it out. -/
def dirPut (p k : Nat) (e : Option W64) (s : State) : State :=
  modPrism p (fun x => { x with
    dir := SMap.set none x.dir k e
    lru := x.lru.filter (· != k) ++ (if e.isSome then [k] else []) }) s
/-- A line entry is freed. -/
def dirFree (p k : Nat) (s : State) : State :=
  if (SMap.get none (prismOf s p).dir k).isSome then freeUp p (dirPut p k none s) else s
/-- There is room for an entry of this key: 32K entries (R237). -/
def dirRoom (s : State) (p k : Nat) : Bool :=
  (SMap.get none (prismOf s p).dir k).isSome || (prismOf s p).dir.length < 32768
/-- The block of the least recently used entry whose state is not transient. -/
def dirVictim (s : State) (p : Nat) : Nat :=
  let x := prismOf s p
  match x.lru.find? fun k => dirDst ((SMap.get none x.dir k).getD 0) != 3 with
  | some k => keyBlock k
  | none => 0

/-- Close the record of a block; the slots bound to it go back, and what they stood for is performed (R233, R479). -/
def txnClose (p blk : Nat) (s : State) : State :=
  match SMap.get none (prismOf s p).txn (blockOf blk) with
  | none => s
  | some t =>
    let s := modPrism p (fun x => { x with
      txn := SMap.set none x.txn (blockOf blk) none
      slots := x.slots - t.bound.length }) s
    freeUp p (t.bound.foldl (fun s b => performedBy p (runMark 0 false) b.2 s) s)

/-! ### TAGSET (R474) -/

/-- A block lies in this device's HBM or windows. -/
def isLocal (s : State) (blk : Nat) : Bool :=
  match spaceOf s blk with
  | .remote _ _ | .host => false
  | _ => true
/-- A slice holds the block dirty. -/
def sliceDirty (s : State) (blk : Nat) : Bool := ((SMap.get none s.ms.l2 (blockOf blk)).getD {}).dirty

/-- Mark both 32-byte words of a block poisoned. -/
def poisonBlock (blk : Nat) (s : State) : State :=
  modMs (fun m => { m with poison := SMap.set false (SMap.set false m.poison (blk / 32) true) (blk / 32 + 1) true }) s

/-- The slice that fills a proxied block: its home by the page through which the oldest access suspended on it came, as the
store buffer or a TLB holds it, else the hashed home under entry 0 (R214, log 92). -/
def suspHome (s : State) (blk : Nat) : Nat :=
  let u := s.ms.susp.find? fun u => u.block == blockOf blk && u.cid < 32768
  let stored := u.bind fun u => ((coreOf s (coreNo u.cid)).sb.find? fun e => e.cid == u.cid && blockOf e.pa == u.block).map (·.home)
  let read := (suspLeaf s (blockOf blk)).map fun l => homeOf s l.2 (dieOfCore (coreNo l.1)) blk
  (stored.or read).getD (hashedHome s 0 blk)
/-- The oldest access suspended on a block comes through an uncached page, so that no slice keeps a copy (R80). -/
def suspUncached (s : State) (blk : Nat) : Bool :=
  let u := s.ms.susp.find? fun u => u.block == blockOf blk && u.cid < 32768
  let stored := u.bind fun u => ((coreOf s (coreNo u.cid)).sb.find? fun e => e.cid == u.cid && blockOf e.pa == u.block).map (·.mca == 3)
  (stored.or ((suspLeaf s (blockOf blk)).map fun l => hmode l.2 == 3)).getD false
/-- FILL: the message buffer goes into the proxied line, with the grant SEQ of the message, or into the block at its
home. -/
def tagFill (blk : Nat) (r : ThrRun) (s : State) : State :=
  if isLocal s blk then
    let s := memWrite blk 64 r.buf.toNat false none s
    if r.bufBad then poisonBlock blk s else s
  else
    let old := SMap.get none s.ms.l2 (blockOf blk)
    let seq := if r.msg.from_.isSome then ((old.map (·.seq)).getD 0) else r.msg.seq.setWidth 16
    let home := (old.map (·.home)).getD (suspHome s blk)
    let s := modMs (fun m => { m with
      l2 := SMap.insert m.l2 (blockOf blk) (some { home := home, pinned := (old.getD {}).pinned, seq := seq })
      poison := SMap.erase (SMap.erase m.poison (blk / 32)) (blk / 32 + 1) }) (clearTags blk 64 (poke blk 64 r.buf.toNat s))
    if r.bufBad then poisonBlock blk s else s
/-- TAKE: a dirty line's data goes into the message buffer; with the invalid tag a proxied line is dropped. -/
def tagTake (blk : Nat) (t : Nat) (s : State) : State :=
  let s :=
    if sliceDirty s blk then
      modRun s.cur (fun r => { r with buf := BitVec.ofNat 512 (peek s blk 64), bufBad := poisonable s blk && poisonAt s blk 64 }) (correct blk 64 s)
    else s
  if t == 0 && !isLocal s blk then modMs (fun m => { m with l2 := SMap.set none m.l2 (blockOf blk) none }) s else s

/-- Accesses of a block that a tag has let through are still to be performed. -/
def throughLeft (s : State) (blk : Nat) : Bool :=
  s.ms.susp.any fun u => u.block == blockOf blk && u.allowed && u.refused.isNone

/-- TAGSET's effect: FILL, TAKE, then the tag, which lets suspended accesses through. The registered owner's bits go with
a line that is dropped. -/
def tagsetDo (h : Head) (blk : Nat) : X Unit := do
  let s ← get
  let dirty := sliceDirty s blk
  if h.im 3 3 == 1 then upd (tagFill blk (hereRun s))
  if h.im 4 4 == 1 then
    if h.im 1 0 == 0 && !isLocal s blk then upd (takeOwner blk none)
    upd (tagTake blk (h.im 1 0))
  upd fun s => modRun s.cur (fun r => { r with tagset := some (if dirty then 1 else 0) }) (setAtag blk (h.im 1 0) s)

/-- TAGSET completes when the accesses that it lets through have completed (R225). -/
def execTagset (h : Head) (s : State) : Host.Outcome State Fault Refusal :=
  runHead Rows.tagset h (Use.ofRow Rows.tagset h) (do
    let s ← get
    let blk ← servedBlock (gA s h)
    if (hereRun s).tagset.isNone then tagsetDo h blk
    let s ← get
    if throughLeft s blk then throw (.wait .marker)
    setInt h.d (BitVec.ofNat 64 ((hereRun s).tagset.getD 0))
    upd fun s => modRun s.cur (fun r => { r with tagset := none }) s
    pure .seq) s

/-! ### DIRRD and DIRWR (R475) -/

/-- The record's word with bit 63 set, or 0. -/
def txnWord (s : State) (p blk : Nat) : W64 :=
  match SMap.get none (prismOf s p).txn (blockOf blk) with
  | some t => t.word ||| BitVec.ofNat 64 (2 ^ 63)
  | none => 0

/-- DIRRD. -/
def execDirrd (h : Head) (s : State) : Host.Outcome State Fault Refusal :=
  runHead Rows.dirrd h (Use.ofRow Rows.dirrd h) (do
    let s ← get
    let p := prismNo s.cur
    let blk ← servedBlock (gA s h)
    if h.im 0 0 == 1 then setInt h.d (txnWord s p blk)
    else
      setInt h.d (dirImage s p blk)
      upd (dirTouch p (dirKey s p blk))
    pure .seq) s

/-- Write a directory entry: gD's value and the state. The mark of a busy-poisoned block, which only UNBUSY clears, stands in
what is written (R226). -/
def dirWrite (p blk : Nat) (v : W64) (s : State) : W64 × State :=
  let old := if v.getLsbD 61 then dirEntry s p blk else (SMap.get none (prismOf s p).dir (dirRegion blk)).getD 0
  let v := dirPlain v ||| (old &&& 0x100)
  let k := if v.getLsbD 61 then dirLine blk else dirRegion blk
  if v.getLsbD 61 && dirDst v == 0 && bitsOf v.toNat 8 0 == 0 then (0, dirFree p k s)
  else if dirRoom s p k then (0, dirPut p k (some v) s)
  else (BitVec.ofNat 64 (dirVictim s p / 64 % 2 ^ 50 * 64 + 1), s)

/-- Write a transaction record: gD's value and the state. -/
def txnWrite (p blk : Nat) (v : W64) (s : State) : W64 × State :=
  let old := SMap.get none (prismOf s p).txn (blockOf blk)
  if !v.getLsbD 63 then (0, txnClose p blk s)
  else if old.isNone && 256 ≤ (prismOf s p).txn.length then (1, s)
  else
    let t : Txn := { word := BitVec.ofNat 64 (v.toNat % 2 ^ 63), bound := (old.map (·.bound)).getD [] }
    let s := modPrism p (fun x => { x with txn := SMap.set none x.txn (blockOf blk) (some t) }) s
    (0, if old.isNone then setAtag blk 3 s else s)

/-- DIRWR. -/
def execDirwr (h : Head) (s : State) : Host.Outcome State Fault Refusal :=
  runHead Rows.dirwr h (Use.ofRow Rows.dirwr h) (do
    let s ← get
    let p := prismNo s.cur
    let blk ← servedBlock (gA s h)
    let v := (gB s h).val
    let (d, s) := if h.im 0 0 == 1 then txnWrite p blk v s else dirWrite p blk v s
    set s
    setInt h.d d
    pure .seq) s

/-! ### REPLY (R476) -/

/-- Send an answer to a packet: a grant with its SEQ, PDATA, or a NAK with its status (R240). A grant or a NAK performs
the packet. -/
def answerPkt (from_ : Option (Nat × Nat)) (kind : Nat) (w : W64) (data : BitVec 512) (pz : Bool) (s : State) : State :=
  match from_ with
  | none => s
  | some (win, seq) =>
    if localWin ≤ win then s else
    let rdata (op : Nat) (off : Nat) (s : State) : State := sendRaw { ty := tRDATA, ddev := win / 2, op := op, off := off, pz := pz } [data] s
    match kind with
    | 3 => refusePkt win seq (bitsOf w.toNat 23 16) s
    | 2 => rdata 2 seq s
    | k => markPerformed win seq (rdata k (seq + w.toNat % 65536 * 2 ^ 24) s)

/-- The data of an answer: PDATA is the message buffer, a grant the block at its home or the buffer. -/
def replyData (s : State) (r : ThrRun) (kind : Nat) (buf : Bool) : BitVec 512 × Bool :=
  if kind == 2 || buf then (r.buf, r.bufBad)
  else (BitVec.ofNat 512 (peek s r.msg.block 64), poisonable s r.msg.block && poisonAt s r.msg.block 64)

/-- The slot that an answer to a requester uses: its own message's, or the one bound to the block's record. -/
def replySlot (s : State) (r : ThrRun) (who : W64) : Option (Bool × Option (Nat × Nat)) :=
  if !who.getLsbD 63 then none
  else if threadNo s.cur < 6 && !r.replied && who == r.msg.requester then some (true, r.msg.from_)
  else
    match (SMap.get none (prismOf s (prismNo s.cur)).txn (blockOf r.msg.block)).bind fun t => t.bound.find? (·.1 == who) with
    | some (_, f) => some (false, f)
    | none => none

/-- The slot that an answer to a requester used goes back to the pool. -/
def slotUsed (own : Bool) (who : W64) (s : State) : State :=
  let r := hereRun s
  let free (t : Txn) : Txn := { t with bound := t.bound.eraseP (·.1 == who) }
  let s := modPrism (prismNo s.cur) (fun x => { x with slots := x.slots - 1 }) s
  if own then modRun s.cur (fun r => { r with replied := true }) s
  else modPrism (prismNo s.cur) (fun x => { x with
    txn := SMap.set none x.txn (blockOf r.msg.block) ((SMap.get none x.txn (blockOf r.msg.block)).map free) }) s

/-- REPLY. -/
def execReply (h : Head) (s : State) : Host.Outcome State Fault Refusal :=
  runHead Rows.reply h (Use.ofRow Rows.reply h) (do
    let s ← get
    let r := hereRun s
    let kind := h.im 1 0
    match replySlot s r (gA s h).val with
    | none => illegal 0x0A
    | some (own, from_) =>
      let (data, pz) := replyData s r kind (h.im 4 4 == 1)
      upd (slotUsed own (gA s h).val ∘ answerPkt from_ kind (gB s h).val data pz)
      pure .seq) s

/-! ### FWD (R234, R240, R477, R489) -/

/-- Packet type, OP, whether OFFSET 5:0 carries SEQ and whether the block goes with it, by KIND. -/
def fwdKind (k : Nat) : Nat × Nat × Bool × Bool :=
  match k with
  | 0 => (tRD, 8, false, false)
  | 1 => (tRD, 9, false, false)
  | 2 => (tPRB, 4, true, false)
  | 3 => (tWR, 1, true, true)
  | 4 => (tPRB, 1, true, false)
  | 5 => (tPRB, 2, true, false)
  | 6 => (tPRB, 3, true, false)
  | 7 => (tPRB, 5, true, false)
  | 8 => (tPRB, 6, true, false)
  | _ => (tWR, 2, false, true)
/-- A FWD expects an answer: GETS, GETM or a probe. -/
def fwdAsks (ty op : Nat) : Bool := (ty == tRD && 8 ≤ op) || (ty == tPRB && 1 ≤ op && op ≤ 3)

/-- A FWD's packet awaits its answer. -/
def fwdAwaits (h : HeldPkt) : Bool :=
  let x := hdrOf h.pkt.hdr
  fwdAsks x.ty x.op && !h.answered && (x.ty == tRD || !h.acked)
/-- Messages in a Prism's reply inbox and answers it has room reserved for (R489). -/
def repReserved (s : State) (p : Nat) : Nat :=
  (prismOf s p).rep.length +
    (s.fab.win.map fun (_, w) => ((w.held ++ w.queued).filter fun h => fwdOf p h && fwdAwaits h).length).sum +
    ((prismOf s p).spill.filter fun k => fwdAsks (hdrOf k.2.hdr).ty (hdrOf k.2.hdr).op).length
/-- Messages in a Prism's outbound request queue: those that wait for window room (R234). -/
def outQueued (s : State) (p : Nat) : Nat :=
  (s.fab.win.map fun (_, w) => (w.queued.filter (fwdOf p)).length).sum

/-- The offset of a block in its home device's remote map. -/
def blockOff (s : State) (blk : Nat) : Nat :=
  match spaceOf s blk with
  | .remote _ off => off
  | _ => remoteOff blk
/-- A NAK answers a FWD: suspended accesses of a GETS or GETM complete with the status, and the message of type 0x3F goes
into the reply inbox (R242, R477). -/
def fwdRefused (p blk ddev seq status : Nat) (gets : Bool) (s : State) : State :=
  let s := if gets then refuseSusp (fun b => b == blockOf blk) [0, 1, 2] status s else s
  modPrism p (fun x => { x with rep := x.rep ++ [{
    ty := 0x3F
    block := blk
    requester := BitVec.ofNat 64 (2 ^ 63 + ddev % 16384 * 2 ^ 23)
    seq := BitVec.ofNat 64 (seq % 65536 + status % 256 * 65536) }] }) s

/-- Send a FWD's packet; `mark` is `65536 * run + SEQ`. -/
def sendFwd (p mark : Nat) (k : Packet) (s : State) : State :=
  let hd := hdrOf k.hdr
  sendSeq hd k.data (some (2 ^ 21 + p, mark)) (hd.ty == tRD) s

/-- A FWD goes to the spill ring: its entry of 128 bytes is written, in a form that the spec does not give (R234, log 3,
log 65). -/
def spillFwd (p mark : Nat) (k : Packet) (s : State) : State :=
  let a := bitsOf s.regs.pspbase.toNat 55 18 * 2 ^ 18 + 0x40000 * p + 128 * ((prismOf s p).spilled % 2048)
  let s := modPrism p (fun x => { x with spill := x.spill ++ [(mark, k)], spilled := x.spilled + 1 }) s
  let (x, s) := freshBytes 128 s
  if localHbm s a then poke a 128 x s else s

/-- FWD. -/
def fwdBody (h : Head) : X Next := do
  let s ← get
  let p := prismNo s.cur
  let r := hereRun s
  if 6 ≤ threadNo s.cur then
    upd (stopHandler s.cur 0x15 false)
    return .gone
  let blk ← servedBlock (gA s h)
  let v := (gB s h).val.toNat
  let kind := h.im 3 0
  let dd := v % 16384
  if 11 ≤ kind || dd == s.dev then illegal 0x0A
  let (ty, op, sq, dat) := fwdKind kind
  let seq := bitsOf v 31 16
  if fwdAsks ty op && 32 ≤ repReserved s p then throw .stall
  let (data, pz) :=
    if h.im 4 4 == 1 then (r.buf, r.bufBad)
    else (BitVec.ofNat 512 (peek s blk 64), poisonable s blk && poisonAt s blk 64)
  let hd : Hdr := { ty := ty, ddev := dd, sdev := s.dev, op := op, o := true, pz := dat && pz, scope := 4, len := typeLen ty,
                    off := blockOff s blk + (if sq then seq % 64 else 0) }
  let k : Packet := { hdr := hdrBits hd, data := if dat then [data] else [] }
  let mark := 65536 * r.tag + seq
  if !routable s dd then upd (fwdRefused p blk dd seq 7 (kind < 2))
  else if (prismOf s p).spill.isEmpty && outQueued s p < 32 then upd (sendFwd p mark k)
  else if 2048 ≤ (prismOf s p).spill.length then throw .stall
  else upd (spillFwd p mark k)
  pure .seq
def execFwd (h : Head) (s : State) : Host.Outcome State Fault Refusal :=
  runHead Rows.fwd h (Use.ofRow Rows.fwd h) (fwdBody h) s

/-! ### BTX and HDONE (R478, R479) -/

/-- BTX. -/
def execBtx (h : Head) (s : State) : Host.Outcome State Fault Refusal :=
  runHead Rows.btx h (Use.ofRow Rows.btx h) (do
    let s ← get
    let p := prismNo s.cur
    let t := threadNo s.cur
    let code := h.im 7 0
    upd (bbWrite (prismIo p) 2 (p + 256 * t) code [(gA s h).val, (gB s h).val])
    if h.im 8 8 == 1 then
      upd (supRecord { code := 0x49, source := 2, unit := p, addr := (gA s h).val.toNat, info := code + t * 256 })
    pure .seq) s

/-- A run ends with RETRY: its message goes back to the head of its inbox for 256 cycles. -/
def retryRun (c : Nat) (s : State) : State :=
  match runOf s c with
  | none => s
  | some r =>
    let m : PMsg := { r.msg with retryAt := some (s.cyc + 256) }
    let back (x : PrismSt) : PrismSt :=
      if threadNo c < 6 then { x with req := m :: x.req, slots := if r.replied then x.slots else x.slots - 1 }
      else { x with rep := m :: x.rep }
    setCtx (modPrism (prismNo c) (fun x => back { x with thr := SMap.set none x.thr (threadNo c) none }) s) c {}

/-- HDONE. -/
def execHdone (h : Head) (s : State) : Host.Outcome State Fault Refusal :=
  runHead Rows.hdone h {} (do
    let s ← get
    if h.im 0 0 == 1 then upd (retryRun s.cur) else upd (endRun s.cur)
    pure .gone) s

end Sys2Proof.Machine
end

