-- ==== Sys2Proof/Machine/PrismEvents.lean ====
section
/-! DEFINITION. The Prisms' own steps (R228 to R251 of 08_memory_prisms.md, R477, R479 of 16_isa_matrix_system.md,
R489): dispatch to handlers, what hardware answers, and the supervisor's commands. -/

namespace Sys2Proof.Machine

/-! ### Inboxes -/

/-- A PUTM of a block that this device sent is not acknowledged (R242). -/
def putmOut (s : State) (p blk : Nat) : Bool :=
  let is (k : Packet) : Bool :=
    let h := hdrOf k.hdr
    h.ty == tWR && h.op == 1 && remotePa h.ddev (h.off / 64 * 64) == blk
  ((outPkts s).any fun h => !h.acked && is h.pkt) || (prismOf s p).spill.any fun k => is k.2
/-- A host line at the CXL port Prism, which that Prism serves in hardware (R80). -/
def hostMsg (s : State) (p : Nat) (m : PMsg) : Bool := p == 50 && spaceOf s m.block != .hole && m.ty != 0x3F
/-- A message that is not dispatched yet: parked on a busy or locked block, behind a PUTM, left by HDONE RETRY, a host
line's, or one that the CXL port Prism has no room for (R80, R81, R225, R241, R242, R250, R479). -/
def parkedMsg (s : State) (p : Nat) (m : PMsg) : Bool :=
  let busy := atagOf s m.block == 3
  (m.ty ≤ 1 && busy) || (m.ty == 6 && busy) || ((m.ty == 7 || m.ty == 8) && (busy || (dirEntry s p m.block).getLsbD 60)) ||
    (m.ty == 0x0A && putmOut s p m.block) || (m.retryAt.any fun t => s.cyc < t) || hostMsg s p m ||
    (6 ≤ m.ty && m.ty ≤ 8 && p < 24 && SMap.get false s.host.hostBias (m.block / 4096) && 64 ≤ (prismOf s 50).req.length)
/-- An inbox of a Prism. -/
def inbox (s : State) (p : Nat) (rep : Bool) : List PMsg := if rep then (prismOf s p).rep else (prismOf s p).req
/-- The oldest message of an inbox that may be dispatched (R231). -/
def firstMsg (s : State) (p : Nat) (rep : Bool) : Option Nat := (inbox s p rep).findIdx? fun m => !parkedMsg s p m
/-- Take a message out of an inbox. -/
def dropMsg (p : Nat) (rep : Bool) (idx : Nat) (s : State) : State :=
  modPrism p (fun x => if rep then { x with rep := x.rep.eraseIdx idx } else { x with req := x.req.eraseIdx idx }) s
/-- A free thread of an inbox: 0 to 5 serve requests, 6 and 7 replies (R231). -/
def freeThread (s : State) (p : Nat) (rep : Bool) : Option Nat :=
  (if rep then [6, 7] else List.range 6).find? fun t => (SMap.get none (prismOf s p).thr t).isNone

/-! ### Starting a handler (R231, R232, R484) -/

/-- The handler-table entry of a message. -/
def handlerEntry (s : State) (p : Nat) (m : PMsg) : Nat :=
  let htab := ((regionOf s p m.block).map fun r => regHtab r.2).getD 0
  peek s (bitsOf s.regs.htbase.toNat 55 16 * 65536 + 512 * htab + 8 * (m.ty % 64)) 8
/-- A start register. -/
def startReg (r : Nat) (v : W64) (x : Ctx) : Ctx := { x with g := SMap.set {} x.g r (Cap.ofInt v) }
/-- Start the handler of a message on a thread. -/
def startRun (p t : Nat) (m : PMsg) (entry : Nat) (s : State) : State :=
  let g8 := m.ty % 64 + (match regionOf s p m.block with
    | some (n, _) => n * 2 ^ 16
    | none => 2 ^ 28)
  let image := dirImage s p m.block
  let s := dirTouch p (dirKey s p m.block) s
  let run : ThrRun := { msg := { m with retryAt := none }, tag := (prismOf s p).runs, buf := m.data.getD 0, bufBad := m.pz }
  let s := modPrism p (fun x => { x with
    thr := SMap.set none x.thr t (some run)
    runs := x.runs + 1
    slots := if t < 6 then x.slots + 1 else x.slots }) s
  let x : Ctx := { pc := ⟨bitsOf entry 55 6 * 64, 1⟩ }
  setCtx s (32768 + 8 * p + t)
    (startReg 8 (BitVec.ofNat 64 g8) (startReg 7 image (startReg 6 m.seq (startReg 5 m.requester (startReg 4 (BitVec.ofNat 64 m.block) x)))))

/-- A message without a handler: a NAK REFUSED, or a refused local access, and a record (R231, R477). -/
def noHandler (p : Nat) (m : PMsg) (s : State) : State :=
  if m.ty == 0x3F then
    supRecord { code := 0x43, source := 2, unit := p, addr := m.block, info := bitsOf m.seq.toNat 23 16 } s
  else
    let s := if 6 ≤ m.ty && m.ty ≤ 8 then refuseOldest (blockOf m.block) (m.ty - 6) 5 s else s
    let s := match m.from_ with
      | some (w, n) => refusePkt w n 5 s
      | none => s
    supRecord { code := 0x45, source := 2, unit := p, addr := m.block, info := m.ty } s

/-! ### Directory entries in hardware (R237 to R239, R241) -/

def dirCv (e : W64) : Bool := e.getLsbD 43
def dirSh (e : W64) : Nat := bitsOf e.toNat 42 11
def dirPtr0 (e : W64) : Nat := bitsOf e.toNat 42 29
/-- An entry with other state, SEQ and sharers. -/
def dirWith (e : W64) (line : Bool) (dst seq : Nat) (cv : Bool) (sh : Nat) : W64 :=
  BitVec.ofNat 64 (dst % 4 * 2 ^ 62 + (if line then 2 ^ 61 else 0) + (if e.getLsbD 60 then 2 ^ 60 else 0) +
    seq % 65536 * 2 ^ 44 + (if cv then 2 ^ 43 else 0) + sh % 2 ^ 32 * 2 ^ 11 + bitsOf e.toNat 8 0)
/-- One sharer. -/
def oneSharer (d : Nat) : Nat := d % 16384 * 2 ^ 18 + 4
/-- The sharer field with a device added; a third turns it into a coarse vector (R237). -/
def addSharer (e : W64) (d : Nat) : Bool × Nat :=
  let sh := dirSh e
  let n := bitsOf sh 3 2
  let p0 := bitsOf sh 31 18
  let p1 := bitsOf sh 17 4
  if dirDst e == 0 then (false, oneSharer d)
  else if dirCv e then (true, Nat.lor sh (2 ^ (d / 512)))
  else if n == 0 then (false, oneSharer d)
  else if p0 == d || (n == 2 && p1 == d) then (false, sh)
  else if n == 1 then (false, p0 * 2 ^ 18 + d % 16384 * 2 ^ 4 + 8)
  else (true, Nat.lor (2 ^ (p0 / 512)) (Nat.lor (2 ^ (p1 / 512)) (2 ^ (d / 512))))

/-- The device a message comes from (R232). -/
def msgDev (m : PMsg) : Nat := bitsOf m.requester.toNat 36 23
/-- A grant in hardware: the entry, the tag and the answer. -/
def fastGrant (p : Nat) (m : PMsg) (k : Nat) (e : W64) (kind : Nat) (s : State) : State :=
  let pz := poisonAt s m.block 64
  let s := setAtag m.block (if kind == 0 then 1 else 0) (dirPut p k (some e) s)
  answerPkt m.from_ kind (BitVec.ofNat 64 (dirSeq e)) (BitVec.ofNat 512 (peek s m.block 64)) pz s

/-- A current PUTM of an owner: the block is written; at line grain the entry moves to I (R238, R241). -/
def fastPutm (p : Nat) (m : PMsg) (line : Bool) (e : W64) (s : State) : State :=
  let s := memWrite m.block 64 (m.data.getD 0).toNat false none s
  let s := if m.pz then poisonBlock m.block s else s
  let s :=
    if !line then s
    else setAtag m.block 2 (if bitsOf e.toNat 8 0 == 0 then dirFree p (dirLine m.block) s
      else dirPut p (dirLine m.block) (some (dirWith e true 0 (dirSeq e) false 0)) s)
  performedBy p (runMark 0 false) m.from_ s

/-- The four fast paths of INV (R231, R241), or none. -/
def fastPath (p : Nat) (m : PMsg) (s : State) : Option State :=
  let e := dirEntry s p m.block
  let d := msgDev m
  let line := (SMap.get none (prismOf s p).dir (dirLine m.block)).isSome
  if 24 ≤ p || protoOf s p m.block != 0 || e.getLsbD 60 || e.getLsbD 8 || txnOpen s p m.block || atagOf s m.block == 3 then none
  else if m.ty == 0 && dirDst e ≤ 1 then
    let k := if line then dirLine m.block else dirRegion m.block
    let (cv, sh) := addSharer e d
    if dirRoom s p k then some (fastGrant p m k (dirWith e line 1 (dirSeq e + 1) cv sh) 0 s) else none
  else if m.ty == 1 && dirDst e == 0 then
    if dirRoom s p (dirLine m.block) then
      some (fastGrant p m (dirLine m.block) (dirWith e true 2 (dirSeq e + 1) false (oneSharer d)) 1 s)
    else none
  else if m.ty == 3 && dirDst e == 2 && dirPtr0 e == d && m.seq.toNat % 64 == dirSeq e % 64 then some (fastPutm p m line e s)
  else none

/-- A probe that R239 lets the proxy discard: the line is held, and the probe is older than its grant. -/
def staleProbe (s : State) (m : PMsg) : Bool :=
  match SMap.get none s.ms.l2 (blockOf m.block) with
  | none => false
  | some l =>
    let d := (m.seq.toNat % 64 + 64 - l.seq.toNat % 64) % 64
    d == 0 || 32 ≤ d

/-- LOST: the block is poisoned and busy-poisoned, its entry moves to I, and a black-box entry is written (R251). A notice
of a device that owns no copy has no effect. -/
def lostDo (p : Nat) (m : PMsg) (s : State) : State :=
  let e := dirEntry s p m.block
  if !((dirDst e == 2 || dirDst e == 3) && dirPtr0 e == msgDev m) then s
  else
    let e' := dirWith e true 0 (dirSeq e) false 0 ||| 0x100
    let s := bbWrite (prismIo p) 2 p 0x0C [BitVec.ofNat 64 m.block, BitVec.ofNat 64 (msgDev m)] s
    setAtag m.block 3 (dirPut p (dirLine m.block) (some e') (poisonBlock m.block s))

/-- A message that hardware answers without a handler (R81, R239, R241, R489, log 100), or none. -/
def hardware (p : Nat) (m : PMsg) (s : State) : Option State :=
  if m.ty == 0x0A && staleProbe s m then some (performedBy p (runMark 0 false) m.from_ s)
  else if 6 ≤ m.ty && m.ty ≤ 8 && p < 24 && SMap.get false s.host.hostBias (m.block / 4096) then some (postReq 50 m s)
  else fastPath p m s

/-- Dispatch the message at a place of an inbox, on a thread if it needs one (R231): an older message that may be
dispatched goes first. -/
def dispatchAt (p : Nat) (rep : Bool) (idx : Nat) (thread : Option Nat) (s : State) : State :=
  match (inbox s p rep)[idx]? with
  | none => s
  | some m =>
    if firstMsg s p rep != some idx then s
    else match hardware p m (dropMsg p rep idx s) with
      | some s => s
      | none =>
        let entry := handlerEntry s p m
        if entry / 2 ^ 63 % 2 == 0 then
          let s := dropMsg p rep idx s
          noHandler p m (if m.ty == 0x0C then lostDo p m s else s)
        else match thread with
          | some t =>
            let s := dropMsg p rep idx s
            startRun p t m entry (if m.ty == 0x0C then lostDo p m s else s)
          | none => s
/-- After a dispatch there is room at a Prism: what waits to post a message there looks again (R225, R248, R489). -/
def roomAt (p : Nat) (s : State) : State := wakeReleases (announce p s)
/-- Dispatch a message of one type. -/
def dispatchTy (p : Nat) (rep : Bool) (idx ty : Nat) (s : State) : State :=
  if (inbox s p rep)[idx]?.any (·.ty == ty) then roomAt p (dispatchAt p rep idx (freeThread s p rep) s) else s

/-- PRISM_DISPATCH: a free thread takes the oldest message of its inbox. -/
def execPrismDispatch (prism thread : Nat) (s : State) : Host.Outcome State Fault Refusal :=
  let rep := 6 ≤ thread
  .next (match firstMsg s prism rep with
    | some idx =>
      if 51 ≤ prism || 8 ≤ thread || (SMap.get none (prismOf s prism).thr thread).isSome then s
      else roomAt prism (dispatchAt prism rep idx (some thread) s)
    | none => s)

def execGets (prism idx : Nat) (s : State) : Host.Outcome State Fault Refusal := .next (dispatchTy prism false idx 0x00 s)
def execGetm (prism idx : Nat) (s : State) : Host.Outcome State Fault Refusal := .next (dispatchTy prism false idx 0x01 s)
def execPuts (prism idx : Nat) (s : State) : Host.Outcome State Fault Refusal := .next (dispatchTy prism false idx 0x02 s)
def execPutm (prism idx : Nat) (s : State) : Host.Outcome State Fault Refusal := .next (dispatchTy prism false idx 0x03 s)
def execProbeAnswer (prism idx : Nat) (s : State) : Host.Outcome State Fault Refusal := .next (dispatchTy prism true idx 0x04 s)
def execPdata (prism idx : Nat) (s : State) : Host.Outcome State Fault Refusal := .next (dispatchTy prism true idx 0x05 s)
def execLread (prism idx : Nat) (s : State) : Host.Outcome State Fault Refusal := .next (dispatchTy prism false idx 0x06 s)
def execLwrite (prism idx : Nat) (s : State) : Host.Outcome State Fault Refusal := .next (dispatchTy prism false idx 0x07 s)
def execLatom (prism idx : Nat) (s : State) : Host.Outcome State Fault Refusal := .next (dispatchTy prism false idx 0x08 s)
def execGrant (prism idx : Nat) (s : State) : Host.Outcome State Fault Refusal := .next (dispatchTy prism true idx 0x0B s)
def execUpdate (prism idx : Nat) (s : State) : Host.Outcome State Fault Refusal := .next (dispatchTy prism false idx 0x0B s)
def execProxyProbe (prism idx : Nat) (s : State) : Host.Outcome State Fault Refusal := .next (dispatchTy prism false idx 0x0A s)
def execLost (prism idx : Nat) (s : State) : Host.Outcome State Fault Refusal := .next (dispatchTy prism false idx 0x0C s)
def execPushrel (prism idx : Nat) (s : State) : Host.Outcome State Fault Refusal := .next (dispatchTy prism false idx 0x0D s)
def execFwdNak (prism idx : Nat) (s : State) : Host.Outcome State Fault Refusal := .next (dispatchTy prism true idx 0x3F s)

/-- RETRY_REDISPATCH (R479): the place counts the request inbox, then the reply inbox. -/
def execRetryRedispatch (prism idx : Nat) (s : State) : Host.Outcome State Fault Refusal :=
  let n := (prismOf s prism).req.length
  let rep := n ≤ idx
  let k := if rep then idx - n else idx
  .next (if (inbox s prism rep)[k]?.any fun m => m.retryAt.any fun t => t ≤ s.cyc then roomAt prism (dispatchAt prism rep k (freeThread s prism rep) s)
    else s)

/-- HANDLER_WATCHDOG (R236): a run at its Prism's limit is stopped before its next instruction. -/
def execHandlerWatchdog (prism thread : Nat) (s : State) : Host.Outcome State Fault Refusal :=
  let c := 32768 + 8 * prism + thread % 8
  .next (match runOf s c with
    | some r => if prism < 51 && (prismOf s prism).wd ≤ r.count then stopHandler c 0x15 false s else s
    | none => s)

/-- PRISM_SPILL_DRAIN (R234): the oldest spilled FWD goes into the outbound queue when it has room. -/
def execPrismSpillDrain (prism : Nat) (s : State) : Host.Outcome State Fault Refusal :=
  .next (match (prismOf s prism).spill with
    | (mark, k) :: rest =>
      if outQueued s prism < 32 then sendFwd prism mark k (modPrism prism (fun x => { x with spill := rest }) s) else s
    | [] => s)

/-- PARTIAL_ENTRY_TIMEOUT (R243). -/
def execPartialEntryTimeout (prism idx : Nat) (s : State) : Host.Outcome State Fault Refusal :=
  .next (match (prismOf s prism).part[idx]? with
    | some e =>
      match spaceOf s e.block with
      | .remote _ _ =>
        if e.opened + 100 * Config.cyclesPerUs ≤ s.cyc then
          sendRedc (2 ^ 22) e (modPrism prism (fun x => { x with part := x.part.eraseIdx idx }) s)
        else s
      | _ => s
    | none => s)

/-! ### Closing reductions (R245) -/

/-- Put an entry into a list by the cycle it opened. -/
def byOpened (e : Partial) : List Partial → List Partial
  | [] => [e]
  | x :: rest => if e.opened < x.opened then e :: x :: rest else x :: byOpened e rest
/-- Gather the partial entries of home blocks from every Prism and add them into memory. -/
def closeParts (inside : Nat → Bool) (s : State) : State :=
  let mine (e : Partial) : Bool := isLocal s e.block && inside e.block
  let all := (List.range 50).flatMap fun p => (prismOf s p).part.filter mine
  let s := (List.range 50).foldl (fun s p => modPrism p (fun x => { x with part := x.part.filter fun e => !mine e }) s) s
  (all.foldl (fun l e => byOpened e l) []).foldl (fun s e => addToMem e s) s
/-- The open blocks of reductions that a barrier identifier closes: busy, under a region with this BID. -/
def redOpen (s : State) (bid : Nat) : List Nat :=
  s.ms.atag.filterMap fun (b, t) =>
    let p := hbmPrism (64 * b)
    if t == 3 && isLocal s (64 * b) && !txnOpen s p (64 * b) && !busyPoisoned s (64 * b) &&
        (regionOf s p (64 * b)).any fun r => regProto r.2 == 5 && regBid r.2 == bid then some b else none
/-- The barrier of a BID closes its reductions: sums are complete, the blocks writable. -/
def closeBid (bid : Nat) (s : State) : State :=
  if bid == 0 then s
  else
    let bs := redOpen s bid
    let s := closeParts (fun a => bs.contains (blockOf a)) s
    bs.foldl (fun s b => setAtag (64 * b) 2 s) s

/-! ### The supervisor's commands (R229, R235, R250) -/

def prCmd (s : State) : Nat := bitsOf s.regs.prcmd.toNat 63 60
def prPrism (s : State) : Nat := bitsOf s.regs.prcmd.toNat 59 54
def prAll (s : State) : Bool := s.regs.prcmd.getLsbD 53
def prArgOf (s : State) : Nat := bitsOf s.regs.prcmd.toNat 52 0
/-- A command of this number is under way. -/
def prUnder (s : State) (n : Nat) : Bool := s.regs.prbusy && prCmd s == n
/-- The command completes with a status. -/
def prDone (status : Nat) (s : State) : State :=
  modRegs (fun r => { r with prbusy := false, prstep := false, prstatus := BitVec.ofNat 3 status }) s

/-- A region entry in memory (R227). -/
def regionAddr (s : State) (i : Nat) : Nat := bitsOf s.regs.rtbase.toNat 55 16 * 65536 + 16 * i
def regionRead (s : State) (i : Nat) : BitVec 128 := BitVec.ofNat 128 (peek s (regionAddr s i) 16)
/-- Every Prism holds an entry as read. -/
def regionHeld (i : Nat) (e : BitVec 128) (s : State) : State :=
  (List.range 51).foldl (fun s p => modPrism p (fun x => { x with regions := SMap.set 0 x.regions i e }) s) s

/-- RTSYNC: every Prism reads the table; an invalid entry is ignored with a record (R228). -/
def execRtsync (s : State) : Host.Outcome State Fault Refusal :=
  .next (if !prUnder s 1 then s
    else
      let all := (List.range 4096).map fun i => (i, regionRead s i)
      let held := all.filter fun r => regV r.2 && regOk s r.2
      let bad := all.filter fun r => regV r.2 && !regOk s r.2
      let s := (List.range 51).foldl (fun s p => modPrism p (fun x => { x with regions := held }) s) s
      prDone 0 (bad.foldl (fun s r => supRecord { code := 0x44, source := 2, unit := 0, addr := regionAddr s r.1, info := r.1 } s) s))

/-- Set a table at `n` keys from `lo`. -/
def rangeSet {α : Type} [DecidableEq α] (d : α) (m : SMap α) (lo n : Nat) (x : α) : SMap α :=
  m.filter (fun e => e.1 < lo) ++ (if x = d then [] else (List.range n).map fun k => (lo + k, x)) ++ m.filter fun e => lo + n ≤ e.1
/-- The blocks of a region of this device. -/
def inRegion (e : BitVec 128) (a : Nat) : Bool := regBase e ≤ a && a < regBase e + 2 ^ regLog2 e
/-- Where a region begins: in the remote form when another device is its home. -/
def regionPa (s : State) (e : BitVec 128) : Nat := if regHome e == s.dev then regBase e else remotePa (regHome e) (regBase e)
/-- An address, in that form, lies in a region. -/
def regionHas (s : State) (e : BitVec 128) (a : Nat) : Bool := regionPa s e ≤ a && a < regionPa s e + 2 ^ regLog2 e
/-- Set the tags of a region; busy-poisoned blocks stay busy (R226). -/
def regionTags (e : BitVec 128) (t : Nat) (s : State) : State :=
  let lo := regionPa s e / 64
  let n := 2 ^ regLog2 e / 64
  let bad := (List.range 24).flatMap fun p => (prismOf s p).dir.filterMap fun (k, d) =>
    if (d.any fun d => d.getLsbD 8) && regHome e == s.dev && inRegion e (keyBlock k) then some (keyBlock k) else none
  let s := modMs (fun m => { m with atag := rangeSet 2 m.atag lo n (BitVec.ofNat 2 t) }) s
  letThrough (fun b => lo ≤ b && b < lo + n) (bad.foldl (fun s a => modMs (fun m => { m with atag := SMap.set 2 m.atag (blockOf a) 3 }) s) s)

/-- Directory entries of a region that name remote copies, by Prism and block. -/
def regionCopies (s : State) (e : BitVec 128) : List (Nat × Nat) :=
  (List.range 24).flatMap fun p => (prismOf s p).dir.filterMap fun (k, d) =>
    if (d.any fun d => dirDst d != 0) && inRegion e (keyBlock k) then some (p, keyBlock k) else none
/-- A step of the rebind for a block is in the inbox of its Prism or in a run, or its answers are awaited. -/
def rebindOut (s : State) (p blk : Nat) : Bool :=
  outstandingAt s p 0x0E blk || txnOpen s p blk
/-- No copy is left: tags, protocol, PEND and VERSION (R229, steps 5 to 7). -/
def rebindEnd (i : Nat) (e : BitVec 128) (s : State) : State :=
  let mine := regHome e == s.dev
  let e' := BitVec.ofNat 128 (e.toNat - regProto e * 2 ^ 123 + regNproto e * 2 ^ 123 - 2 ^ 126 - regVersion e * 2 ^ 92 +
    (regVersion e + 1) % 256 * 2 ^ 92)
  let keep (x : Nat × Option W64) : Bool := !(inRegion e (keyBlock x.1)) || (x.2.any fun d => d.getLsbD 8)
  let clear (s : State) (p : Nat) : State := modPrism p (fun x => { x with
    dir := x.dir.filter keep
    lru := x.lru.filter fun k => !(inRegion e (keyBlock k)) || (x.dir.any fun d => d.1 == k && keep d) }) s
  let s := if mine then (List.range 24).foldl clear s else s
  let s := regionHeld i e' (memWrite (regionAddr s i) 16 e'.toNat false none s)
  prDone 0 (regionTags e (if mine && regNproto e == 4 then 1 else 2) s)

/-- A device that is not the region's home gives up what it holds of it: open partial entries go out as REDCs, dirty copies as
PUTMs and clean ones as PUTSs (R229, R242, R243, log 93). -/
def giveUp (e : BitVec 128) (s : State) : State :=
  let held : List (Nat × L2Line) := s.ms.l2.filterMap fun (b, l) => if regionHas s e (64 * b) then l.map fun l => (b, l) else none
  let s := held.foldl (fun s (b, l) =>
    let s := takeOwner (64 * b) none s
    let s := if l.dirty then slicePutm (64 * b) l.seq s else sendPuts (64 * b) l.seq s
    modMs (fun m => { m with l2 := SMap.set none m.l2 b none }) s) s
  (List.range 50).foldl (fun s p =>
    let (out, rest) := (prismOf s p).part.partition fun x => regionHas s e x.block
    out.foldl (fun s x => sendRedc (2 ^ 22) x s) (modPrism p (fun x => { x with part := rest }) s)) s
/-- Nothing that such a device has sent about the region is unanswered, and no transaction record of it is open. -/
def gaveUp (e : BitVec 128) (s : State) : Bool :=
  let about (k : Packet) : Bool :=
    let h := hdrOf k.hdr
    regionHas s e (remotePa h.ddev (h.off / 64 * 64)) && (h.ty == tREDC || (h.ty == tWR && h.op == 1))
  ((outPkts s).all fun h => h.acked || !about h.pkt) && (List.range 50).all fun p =>
    ((prismOf s p).spill.all fun k => !about k.2) && (prismOf s p).txn.all fun (b, _) => !regionHas s e (64 * b)
/-- REBIND: the entry is read and its blocks are busy, reductions close, copies are recalled, and it ends when none is
left (R229). -/
def execRebind (s : State) : Host.Outcome State Fault Refusal :=
  .next (if !prUnder s 2 then s
    else
      let i := prArgOf s % 4096
      if !s.regs.prstep then
        let e := regionRead s i
        if !regV e || !regPend e || !regOk s e || regNproto e == 7 then prDone 2 s
        else
          let s := modRegs (fun r => { r with prstep := true }) (regionHeld i e s)
          if regHome e == s.dev then closeParts (inRegion e) (regionTags e 3 s) else giveUp e (regionTags e 3 s)
      else
        let e := SMap.get 0 (prismOf s 0).regions i
        if regHome e != s.dev then
          let s := giveUp e s
          if gaveUp e s then rebindEnd i e s else s
        else
          let cs := regionCopies s e
          if cs.isEmpty && !((List.range 24).any fun p =>
              ((prismOf s p).txn.any fun (b, _) => inRegion e (64 * b)) ||
              ((prismOf s p).req.any fun m => m.ty == 0x0E) || (prismOf s p).thr.any fun (_, r) => r.any fun r => r.msg.ty == 0x0E)
          then rebindEnd i e s
          else cs.foldl (fun s (p, b) =>
            if rebindOut s p b then s
            else postReq p { ty := 0x0E, block := b, requester := BitVec.ofNat 64 (2 ^ 63 + s.dev % 16384 * 2 ^ 23 + p) } s) s)

/-- The messages of a block that wait in a Prism's inbox are refused (R235). -/
def refuseMsgs (p blk : Nat) (s : State) : State :=
  let mine (m : PMsg) : Bool := m.block == blk && (m.ty ≤ 1 || (6 ≤ m.ty && m.ty ≤ 8))
  let gone := (prismOf s p).req.filter mine
  gone.foldl (fun s m => match m.from_ with
    | some (w, n) => refusePkt w n 5 s
    | none => s) (modPrism p (fun x => { x with req := x.req.filter fun m => !mine m }) s)
/-- UNBUSY. -/
def execUnbusy (s : State) : Host.Outcome State Fault Refusal :=
  let p := prPrism s
  let blk := normPa s (s.regs.prarg.toNat % 2 ^ 56) / 64 * 64
  let arg := prArgOf s
  .next (if !prUnder s 3 then s
    else if prAll s || 51 ≤ p || servingPrism s blk != p then prDone 2 s
    else if atagOf s blk != 3 then prDone 3 s
    else
      let s := txnClose p blk s
      let s :=
        if bitsOf arg 3 3 == 1 then
          let s := memWrite blk 64 0 false none s
          match dirKey s p blk with
          | some k => dirPut p k (some (dirEntry s p blk &&& ~~~(0x100 : W64))) s
          | none => s
        else s
      let s := if bitsOf arg 2 2 == 1 then refuseMsgs p blk (refuseSusp (fun b => b == blockOf blk) [0, 1, 2] 5 s) else s
      prDone 0 (announce p (setAtag blk (bitsOf arg 1 0) s)))

/-- SETWD. -/
def execSetwd (s : State) : Host.Outcome State Fault Refusal :=
  let lim := prArgOf s % 65536
  let set (s : State) (p : Nat) : State := modPrism p (fun x => { x with wd := lim }) s
  .next (if !prUnder s 4 then s
    else if lim == 0 || (!prAll s && 51 ≤ prPrism s) then prDone 2 s
    else prDone 0 (if prAll s then (List.range 51).foldl set s else set s (prPrism s)))

/-- The six memory-side Prisms of a page's compute die (R10). -/
def pagePrisms (page : Nat) : List Nat := (List.range 6).map fun j => page / 0x3000000000 * 6 + j
/-- An address lies in a page. -/
def inPage (page a : Nat) : Bool := a / 4096 == page / 4096
/-- The page holds an open reduction or a remote copy (R250). -/
def pageHeld (s : State) (page : Nat) : Bool :=
  ((List.range 50).any fun p => (prismOf s p).part.any fun e => inPage page e.block) ||
    (pagePrisms page).any fun p => (prismOf s p).dir.any fun (k, d) => (d.any fun d => dirDst d != 0) && inPage page (keyBlock k)
/-- Set or clear LOCK in the entries of a page; setting it makes a region entry, and an entry left with nothing goes. -/
def pageLock (page : Nat) (on : Bool) (s : State) : State :=
  let lock (d : W64) : W64 := if on then d ||| BitVec.ofNat 64 (2 ^ 60) else d &&& ~~~(BitVec.ofNat 64 (2 ^ 60))
  (pagePrisms page).foldl (fun s p =>
    let s := if on && dirRoom s p (dirRegion page) && (SMap.get none (prismOf s p).dir (dirRegion page)).isNone
      then dirPut p (dirRegion page) (some 0) s else s
    let ks := (prismOf s p).dir.filter fun (k, _) => inPage page (keyBlock k)
    ks.foldl (fun s (k, d) =>
      let d' := lock (d.getD 0)
      if d' == 0 then dirFree p k s else dirPut p k (some d') s) s) s
/-- Copy a page: its bytes, capability tags, poison and full/empty bits. -/
def pageCopy (old new : Nat) (s : State) : State :=
  let s := poke new 4096 (peek s old 4096) s
  let s := (List.range 256).foldl (fun s k => setTag (new + 16 * k) (tagAt s (old + 16 * k)) s) s
  let s := (List.range 128).foldl (fun s k => modMs (fun m => { m with
    poison := SMap.set false m.poison (new / 32 + k) (SMap.get false m.poison (old / 32 + k)) }) s) s
  (List.range 1024).foldl (fun s k => modMs (fun m => { m with
    full := SMap.set false m.full (new / 4 + k) (SMap.get false m.full (old / 4 + k)) }) s) s
/-- MIGRATE (R250): lock, read-only tags, copy. -/
def execMigrate (s : State) : Host.Outcome State Fault Refusal :=
  let old := bitsOf s.regs.prarg.toNat 55 12 * 4096
  let new := prArgOf s % 2 ^ 44 * 4096
  .next (if !prUnder s 5 then s
    else if !localHbm s old || !localHbm s new then prDone 2 s
    else if pageHeld s old then prDone 3 s
    else
      let s := pageLock old true s
      let s := (List.range 64).foldl (fun s k => if atagOf s (old + 64 * k) == 3 then s else setAtag (old + 64 * k) 1 s) s
      prDone 0 (pageCopy old new s))

/-- A store answered with RETRY names its new place (R250); none when its page is not mapped any more. -/
def retarget (s : State) (e : SbEntry) : Option SbEntry :=
  match walkTable s (ctxOf s e.cid).asid.toNat e.va kWrite false with
  | .leaf v _ pa attr _ => some { e with
      pa := replicaPa attr (dieOfCore (coreNo e.cid)) (normPa s (pa + (e.va - v)))
      home := homeOf s attr (dieOfCore (coreNo e.cid)) (normPa s (pa + (e.va - v))) }
  | .fault _ _ => none
/-- Whether a store is parked on the page. -/
def parkedStore (s : State) (page : Nat) (e : SbEntry) : Bool :=
  inPage page e.pa && s.ms.susp.any fun u => u.ty == 1 && u.cid == e.cid && u.block == blockOf e.pa
/-- The parked stores of the store buffers and atomic units are translated again; one that no page maps is a posted
failure. -/
def retryStores (page : Nat) (s : State) : State :=
  let lost := s.cores.flatMap fun (_, k) => k.sb.filter fun e => parkedStore s page e && (retarget s e).isNone
  let move (e : SbEntry) : Option SbEntry := if parkedStore s page e then retarget s e else some e
  let s' := { s with
    cores := s.cores.map fun (c, k) => (c, { k with sb := k.sb.filterMap move })
    strips := s.strips.map fun (c, t) => (c, { t with sauWait := t.sauWait.map fun (a, b, e) => (a, b, (move e).getD e) }) }
  lost.foldl (fun s e => postedFail e.cid e.pa 6 s) s'
/-- The party number of a packet that waits at its home: `2^33 + 65536 * filter + number`. -/
def pktCid (w seq : Nat) : Nat := 2 ^ 33 + w * 65536 + seq
/-- Parked writes of other devices are refused with RETRY. -/
def retryPackets (page : Nat) (s : State) : State :=
  let us := s.ms.susp.filter fun u => 1 ≤ u.ty && inPage page (64 * u.block) && 2 ^ 33 ≤ u.cid && u.cid < 2 ^ 34
  us.foldl (fun s u =>
    let w := (u.cid - 2 ^ 33) / 65536
    let seq := u.cid % 65536
    let f := filtOf s w
    refusePkt w seq 2 (setFilt w { f with waiting := f.waiting.filter fun x => x.1 != seq } s)) s
/-- MIGDONE (R250): parked writes are answered with RETRY and LOCK is cleared. -/
def execMigdone (s : State) : Host.Outcome State Fault Refusal :=
  let page := bitsOf s.regs.prarg.toNat 55 12 * 4096
  let locked := (pagePrisms page).any fun p => (prismOf s p).dir.any fun (k, d) => (d.any fun d => d.getLsbD 60) && inPage page (keyBlock k)
  .next (if !prUnder s 6 then s
    else if !localHbm s page then prDone 2 s
    else if !locked then prDone 3 s
    else
      let s := retryPackets page (retryStores page s)
      let s := wakeTags (fun b => inPage page (64 * b)) s
      let s := modMs (fun m => { m with susp := m.susp.filter fun u => !(1 ≤ u.ty && inPage page (64 * u.block)) }) s
      let s := (pagePrisms page).foldl (fun s p => modPrism p (fun x => { x with
        req := x.req.filter fun m => !((m.ty == 7 || m.ty == 8) && inPage page m.block) }) s) s
      prDone 0 (pageLock page false s))

end Sys2Proof.Machine
end

