-- ==== Sys2Proof/Machine/Fabric.lean ====
section
/-! DEFINITION. Packets that arrive on the request lane and the replies that carry messages: the checks of a receiving port
(R36 of 02_xitrum_fabric.md), duplicate filters and order (R44 to R46), and what each packet does at its destination (R48,
R54). -/

namespace Sys2Proof.Machine

/-! ### Ports -/

/-- Write a black-box entry about a port, on the I/O die of its port (log 12). -/
def portRecord (port event : Nat) (data : List W64) (s : State) : State := bbWrite (prismIo (portPrism port)) 6 port event data s

/-- A packet that R36 discards: its TYPE, LEN, LANE or a reserved bit. -/
def malformed (p : Packet) : Bool :=
  let h := hdrOf p.hdr
  h.ty == 0 || h.len != typeLen h.ty || p.data.length != h.len || h.lane != typeLane h.ty || h.rsv != 0
/-- The error record of a malformed packet, in the black-box record and to the port Prism (R36). -/
def malformedRecord (port : Nat) (p : Packet) (s : State) : State :=
  let data := [BitVec.ofNat 64 p.hdr.toNat, BitVec.ofNat 64 (p.hdr.toNat / 2 ^ 64)]
  portRecord port 0x36 data (modPrism (portPrism port) (fun x => { x with errs := x.errs ++ [(0x36, data)] }) s)

/-- A packet of a type comes in at a port that is up (R33, R36): `go` receives it with its header. A packet for another
device is dropped. -/
def comesIn (tys : List Nat) (port : Nat) (p : Packet) (go : Hdr → State → State) (s : State) : State :=
  if 26 ≤ port || !(portOf s port).up then s
  else
    let h := hdrOf p.hdr
    if malformed p then malformedRecord port p s
    else if !tys.contains h.ty then s
    else
      let s := modPort port (fun x => { x with resends := 0, lastValid := s.cyc }) s
      if h.ddev == s.dev then go h s else s

/-! ### Accesses of packets at their homes -/

/-- What becomes of a packet whose turn has come: it is performed, refused or handed on, or it waits. -/
inductive Del where
  | taken (s : State)
  | wait (s : State)

/-- The strip of an on-chip window is fenced while it is being moved (R19). -/
def remapping (s : State) (pa : Nat) : Bool :=
  match spaceOf s pa with
  | .spad k _ | .regs k _ | .acc k _ | .ctl k _ => (stripOf s (stripNo k)).fenced
  | _ => false

/-- Reach a byte of the remote map for a packet (R47, R48, R225): `bad` answers a busy-poisoned block, `go` performs the
access. -/
def pktAccess (w seq off ty : Nat) (bad : State → State) (go : Nat → State → Del) (s : State) : Del :=
  match offsetPa s off with
  | none => .taken (refusePkt w seq 1 s)
  | some pa =>
    if remapping s pa then .taken (refusePkt w seq 2 s)
    else
      let c := pktCid w seq
      match homeGate s c pa ty with
      | .refuse 0 => .taken (bad (unsuspend pa ty c s))
      | .refuse st => .taken (refusePkt w seq st (unsuspend pa ty c s))
      | .hold post =>
        let (v, s) := if (mySusp s pa ty c).isSome then (0, s) else freshWord s
        .wait (suspendAs pa ty c (2 ^ 63 + w / 2 % 16384 * 2 ^ 23 + v.toNat % 64) post s)
      | .go => go pa (unsuspend pa ty c s)

/-- A write or contribution to a busy-poisoned block leaves an error record and counts as performed (R226). -/
def lostWrite (w seq off : Nat) (s : State) : State :=
  markPerformed w seq (supRecord { code := 0x43, source := 2, unit := hbmPrism off, addr := off, info := 0 } s)
/-- A write is performed: at once, or under UPD when its updates are acknowledged (R42, R246). -/
def writeDone (w seq pa : Nat) (s : State) : State :=
  let p := hbmPrism pa
  if localHbm s pa && protoOf s p pa == 1 then performedBy p updMark (some (w, seq)) s else markPerformed w seq s

/-- A message to a Prism: it waits while the request inbox is full (R489). -/
def toPrism (p : Nat) (m : PMsg) (s : State) : Del :=
  if 64 ≤ (prismOf s p).req.length then .wait s else .taken (postReq p m s)
/-- The requester word of a packet of another device: its Prism number is not in the packet (R232, log 3). -/
def pktReq (dev : Nat) (s : State) : W64 × State :=
  let (v, s) := freshWord s
  (BitVec.ofNat 64 (2 ^ 63 + dev % 16384 * 2 ^ 23 + v.toNat % 64), s)
/-- A protocol message about a block of this device (R240). -/
def homeMsg (w seq ty : Nat) (h : Hdr) (data : Option (BitVec 512)) (s : State) : Del :=
  match offsetPa s (h.off / 64 * 64) with
  | none => .taken (refusePkt w seq 1 s)
  | some blk =>
    if !localHbm s blk then .taken (refusePkt w seq 1 s)
    else
      let (q, s) := pktReq h.sdev s
      toPrism (hbmPrism blk) { ty := ty, block := blk, requester := q, seq := BitVec.ofNat 64 (h.off % 64), data := data,
                               from_ := some (w, seq), pz := h.pz } s
/-- A protocol message about a block of the device that sends it, for the proxy (R240, R242). -/
def proxyMsg (w seq ty sq : Nat) (h : Hdr) (data : Option (BitVec 512)) (s : State) : Del :=
  let blk := remotePa h.sdev (h.off / 64 * 64)
  let (q, s) := pktReq h.sdev s
  toPrism (servingPrism s blk) { ty := ty, block := blk, requester := q, seq := BitVec.ofNat 64 sq, data := data,
                                 from_ := some (w, seq), pz := h.pz } s

/-! ### What each request does (R35, R54, R240) -/

/-- RD: a read of OP bytes, GETS or GETM. -/
def doRd (w seq : Nat) (h : Hdr) (s : State) : Del :=
  match h.op with
  | 8 => homeMsg w seq 0x00 { h with off := h.off / 64 * 64 } none s
  | 9 => homeMsg w seq 0x01 { h with off := h.off / 64 * 64 } none s
  | op =>
    if !(op ≤ 3 || op == 6) then .taken (refusePkt w seq 5 s)
    else
      let n := if op == 6 then 64 else 2 ^ op
      let off := if op == 6 then h.off / 64 * 64 else h.off
      pktAccess w seq off 0 (sendRdata w seq 0 true) (fun pa s =>
        if poisonable s pa && poisonAt s pa n then .taken (sendRdata w seq 0 true s)
        else .taken (sendRdata w seq (BitVec.ofNat 512 (homeBytes s pa n).1) false (correct pa n s))) s

/-- WR: a write of a block, PUTM, an update or a push. -/
def doWr (w seq : Nat) (h : Hdr) (data : BitVec 512) (s : State) : Del :=
  match h.op with
  | 0 =>
    let off := h.off / 64 * 64
    pktAccess w seq off 1 (lostWrite w seq off) (fun pa s =>
      let s := homeWrite pa 64 data.toNat false none (pktCid w seq) s
      .taken (writeDone w seq pa (if h.pz && poisonable s pa then poisonBlock pa s else s))) s
  | 1 => homeMsg w seq 0x03 h (some data) s
  | 2 => proxyMsg w seq 0x0B 0 h (some data) s
  | _ => .taken (refusePkt w seq 5 s)

/-- The runs of set bits of a byte mask: first byte and length. -/
def maskRuns (m : Nat) : List (Nat × Nat) :=
  ((List.range 64).foldl (fun acc k =>
    if m / 2 ^ k % 2 == 0 then acc
    else match acc with
      | (a, n) :: rest => if a + n == k then (a, n + 1) :: rest else (k, 1) :: acc
      | [] => [(k, 1)]) []).reverse
/-- WRM: the bytes of the mask are written. -/
def doWrm (w seq : Nat) (h : Hdr) (mask data : BitVec 512) (s : State) : Del :=
  let off := h.off / 64 * 64
  pktAccess w seq off 1 (lostWrite w seq off) (fun pa s =>
    let s := (maskRuns (mask.toNat % 2 ^ 64)).foldl (fun s (a, n) =>
      homeWrite (pa + a) n (data.toNat / 2 ^ (8 * a) % 2 ^ (8 * n)) false none (pktCid w seq) s) s
    .taken (writeDone w seq pa (if h.pz && poisonable s pa then poisonBlock pa s else s))) s

/-- The read-modify-write of an AMO packet; none for an F that R402 does not give (R35, log 13). -/
def pktRmw (op : Nat) (flit : BitVec 512) : Option Rmw :=
  let wd := if op / 32 % 2 == 1 then 4 else 8
  let f := op % 16
  let cas := op / 16 % 2 == 1
  if 11 ≤ f || (cas && f != 0) then none
  else some { f := f, cas := cas, w := wd, y := flit.toNat % 2 ^ (8 * wd), e := flit.toNat / 2 ^ 64 % 2 ^ (8 * wd) }
/-- AMO: the fabric atomic unit reads the word through its home slice and writes it a turn later (R262, R272, log 91); at a
scratchpad bank it is one step. -/
def doAmo (w seq : Nat) (h : Hdr) (flit : BitVec 512) (s : State) : Del :=
  match pktRmw h.op flit with
  | none => .taken (refusePkt w seq 5 s)
  | some a =>
    pktAccess w seq h.off 2 (sendAres w seq 0 true) (fun pa s =>
      match spaceOf s pa with
      | .hbm =>
        if s.fab.fau.any fun o => overlaps o.pa o.n pa a.w then .wait s
        else if poisonAt s pa a.w then .taken (sendAres w seq 0 true s)
        else
          let x := (homeBytes s pa a.w).1
          .taken (modFab (fun f => { f with fau := f.fau ++
            [{ pa := pa, n := a.w, old := x, new := rmwNew a x, cid := pktCid w seq, from_ := some (w, seq) }] }) (correct pa a.w s))
      | .spad _ _ =>
          let x := (homeBytes s pa a.w).1
          let s := match rmwNew a x with
            | some y => homeWrite pa a.w y false none (pktCid w seq) s
            | none => s
          .taken (sendAres w seq (BitVec.ofNat 64 x) false s)
      | _ => .taken (refusePkt w seq 1 s)) s

/-- REDC: the contribution joins the partial buffer of the receiving port's Prism (R244). -/
def doRedc (w seq port : Nat) (h : Hdr) (mask data : BitVec 512) (s : State) : Del :=
  match offsetPa s (h.off / 64 * 64) with
  | none => .taken (refusePkt w seq 1 s)
  | some blk =>
    let st := accessStatus s (pktCid w seq) blk
    if st != 0 then .taken (refusePkt w seq st s)
    else if busyPoisoned s blk then .taken (lostWrite w seq blk s)
    else
      let e : Partial := { block := blk, f := h.op % 16, w8 := h.op / 16 % 2 == 1, mask := mask.setWidth 16, data := data,
                           opened := s.cyc, seqNo := 0 }
      let (ok, s) := redAtHome (2 ^ 22) (portPrism port) e s
      .taken (if ok then markPerformed w seq s else refusePkt w seq 5 s)

/-- The message of an MSG or MREP packet (R35, log 13). -/
def pktMsg (w seq : Nat) (h : Hdr) (fl : List (BitVec 512)) (s : State) : Msg :=
  let x := (fl.getD 0 0).toNat
  let tags := bitsOf x 199 192
  let half (k : Nat) : Nat := (fl.getD (1 + k / 4) 0).toNat / 2 ^ (128 * (k % 4)) % 2 ^ 128
  let reg (k : Nat) : Cap := ⟨BitVec.ofNat 64 (half k), BitVec.ofNat 64 (half k / 2 ^ 64), tags / 2 ^ k % 2 == 1⟩
  { line := bitsOf x 63 0
    target := BitVec.ofNat 64 (bitsOf x 127 64)
    sender := bitsOf x 191 128
    asid := BitVec.ofNat 12 (bitsOf x 219 208)
    payload := (List.range 8).map reg
    reply := h.ty == tMREP
    fn := fnOfAsid s (bitsOf x 219 208)
    queue := 1024
    from_ := some (w, seq) }
/-- MSG and MREP: on to the target core (R151, R157). -/
def doMsg (w seq : Nat) (h : Hdr) (fl : List (BitVec 512)) (s : State) : Del :=
  let m := pktMsg w seq h fl s
  if m.reply then .taken (postNet (.msg (handleCore m.target.toNat) m) s)
  else match h.op with
    | 0 =>
      match offsetPa s h.off with
      | none => .taken (refusePkt w seq 1 s)
      | some pa => .taken (postNet (.msg (hashedHome s 0 pa) m) s)
    | _ => .taken (postNet (.msg (h.off % 4096) m) s)

/-- SIG: OP 0 writes 1, OP 1 adds 1 to the word at OFFSET; another OP is refused as every OP that R35 does not give
(log 68). -/
def doSig (w seq : Nat) (h : Hdr) (s : State) : Del :=
  let off := h.off / 8 * 8
  if 1 < h.op then .taken (refusePkt w seq 5 s)
  else pktAccess w seq off 2 (lostWrite w seq off) (fun pa s =>
    let v := if h.op == 1 then (peek s pa 8 + 1) % 2 ^ 64 else 1
    .taken (markPerformed w seq (homeWrite pa 8 v false none (pktCid w seq) s))) s

/-- PRB: probes to the proxy; PUTS, LOST and PUSHREL to the home (R240). -/
def doPrb (w seq : Nat) (h : Hdr) (s : State) : Del :=
  match h.op with
  | 1 | 2 | 3 => proxyMsg w seq 0x0A (h.off % 64) h none s
  | 4 => homeMsg w seq 0x02 h none s
  | 5 => homeMsg w seq 0x0C h none s
  | 6 => homeMsg w seq 0x0D h none s
  | _ => .taken (refusePkt w seq 5 s)

/-- What a delivered packet does. -/
def deliverPkt (w seq port : Nat) (p : Packet) (s : State) : Del :=
  let h := hdrOf p.hdr
  let d (k : Nat) : BitVec 512 := p.data.getD k 0
  match h.ty with
  | 1 => doRd w seq h s
  | 2 => doWr w seq h (d 0) s
  | 3 => doWrm w seq h (d 0) (d 1) s
  | 4 => doAmo w seq h (d 0) s
  | 5 => doRedc w seq port h (d 0) (d 1) s
  | 7 => doSig w seq h s
  | 8 => doPrb w seq h s
  | _ => doMsg w seq h p.data s

/-! ### Filters and order (R44 to R46) -/

/-- A number of a window lies beyond CUM + 1: its packet waits for a gap when it is ordered (R46). -/
def gapBefore (f : Filter) (seq : Nat) : Bool :=
  let d := (seq + 65536 - f.cum) % 65536
  2 ≤ d && d ≤ 2048
/-- Every earlier packet of the window is performed (R46). -/
def doneBefore (f : Filter) (seq : Nat) : Bool :=
  let d := (seq + 65536 - f.done) % 65536
  d ≤ 1 || 2048 < d
/-- A packet may be delivered now. -/
def mayDeliver (f : Filter) (seq : Nat) (p : Packet) : Bool :=
  let h := hdrOf p.hdr
  (!h.o || !gapBefore f seq) && (h.ty != tSIG || doneBefore f seq)

/-- Deliver a waiting packet of a filter, if it may be. -/
def tryDeliver (w : Nat) (s : State) (e : Nat × Nat × Packet) : State :=
  let f := filtOf s w
  if !f.waiting.contains e || !mayDeliver f e.1 e.2.2 then s
  else match deliverPkt w e.1 e.2.1 e.2.2 s with
    | .wait t => t
    | .taken t =>
      let g := filtOf t w
      setFilt w { g with waiting := g.waiting.erase e } t
/-- Deliver what may be delivered of a filter, in order of number. -/
def filterPump (w : Nat) (s : State) : State := (filtOf s w).waiting.foldl (tryDeliver w) s

/-- Deliver what may be delivered at every filter. -/
def pumpAll (s : State) : State := s.fab.filt.foldl (fun s e => filterPump e.1 s) s

/-! ### The fabric atomic unit and the CXL port Prism (R262, R272) -/

/-- The result of an atomic goes to the pending result or the packet that it answers. -/
def fauAnswer (o : FauOp) (bad : Option Nat) (s : State) : State :=
  match o.from_, bad with
  | some (w, seq), none => sendAres w seq (BitVec.ofNat 64 o.old) false s
  | some (w, seq), some 0 => sendAres w seq 0 true s
  | some (w, seq), some st => refusePkt w seq st s
  | none, _ =>
    if 2 ^ 33 ≤ o.cid then s
    else if o.id == syncRead then
      match bad with
      | some st => postedFail o.cid o.pa st s
      | none => s
    else
      let f (p : Piece) : Piece := { p with known := some o.old, bad := bad }
      let answer (q : Pend) : Pend := if q.id == o.id then { q with pieces := q.pieces.map f } else q
      let s := modCtx o.cid (fun x => { x with pend := x.pend.map answer }) s
      if isThread o.cid then s else l1Acquire (coreNo o.cid) s
/-- An atomic that was read before the last turn is written, unless its block's tag holds it (R225, R272). -/
def fauWrite (s : State) (o : FauOp) : State :=
  let gone (s : State) : State := modFab (fun f => { f with fau := f.fau.erase o }) s
  match homeGate s o.cid o.pa 2 with
  | .refuse st => wakeReleases (fauAnswer o (some st) (gone (unsuspend o.pa 2 o.cid s)))
  | .hold post => if isThread o.cid then s else suspend o.pa 2 o.cid post s
  | .go =>
    let s := gone (unsuspend o.pa 2 o.cid s)
    let s := match o.new with
      | some y => homeWrite o.pa o.n y false none o.cid s
      | none => s
    wakeReleases (fauAnswer o none s)
/-- A turn passes at the fabric atomic unit: what was read before the last turn is written (R272, log 91). -/
def fauTurn (s : State) : State :=
  if s.fab.fau.isEmpty then s
  else
    let s' := (s.fab.fau.filter fun o => 1 ≤ o.age).foldl fauWrite s
    let older (o : FauOp) : FauOp := { o with age := o.age + 1 }
    pumpAll (modFab (fun f => { f with fau := f.fau.map older }) s')

/-- Put a packet among the waiting ones, by number above `base`. -/
def bySeq (base : Nat) (e : Nat × Nat × Packet) : List (Nat × Nat × Packet) → List (Nat × Nat × Packet)
  | [] => [e]
  | x :: rest =>
    if (e.1 + 65536 - base) % 65536 < (x.1 + 65536 - base) % 65536 then e :: x :: rest else x :: bySeq base e rest

/-- Ordered packets that wait for a gap at the ports of an I/O die (R46). -/
def gapWaiting (s : State) (io : Nat) : Nat :=
  (s.fab.filt.map fun (_, f) => (f.waiting.filter fun e =>
    (hdrOf e.2.2.hdr).o && gapBefore f e.1 && prismIo (portPrism e.2.1) == io).length).sum

/-- A packet's BASE frees the entries below it (R45). -/
def freeResults (w base : Nat) (s : State) : State :=
  if w % 2 == 1 then s
  else modFab (fun f => { f with rcache := f.rcache.filter fun (k, e) =>
    !(k / 2048 == w / 2 && e.any fun e => 1 ≤ (base + 65536 - e.seq) % 65536 && (base + 65536 - e.seq) % 65536 < 32768) }) s

/-- The message of a packet is still at a Prism: in an inbox, in a run, or bound to a record. -/
def atPrism (s : State) (w seq : Nat) : Bool :=
  let is (f : Option (Nat × Nat)) : Bool := f == some (w, seq)
  s.prisms.any fun (_, x) =>
    x.req.any (fun m => is m.from_) || (x.thr.any fun (_, r) => r.any fun r => is r.msg.from_) ||
      x.txn.any fun (_, t) => t.any fun t => t.bound.any fun b => is b.2

/-- A window that sends again what has been accepted has unacknowledged packets, so an ACK is due within 1 µs (R42, R45). -/
def ackDue (w : Nat) (s : State) : State :=
  let f := filtOf s w
  if f.since.isSome then s else setFilt w { f with since := some s.cyc } s
/-- A duplicate is answered: from the result cache, for an RD by a read performed again, and any by the next ACK (R44,
R45). -/
def duplicate (w : Nat) (h : Hdr) (port : Nat) (p : Packet) (s : State) : State :=
  let s := ackDue w s
  let hit := (SMap.get none s.fab.rcache (resKey w h.seq)).filter fun e => w % 2 == 0 && e.seq == h.seq
  match hit with
  | some e => if e.nak then rawNak w h.seq e.val.toNat s else rawAres w h.seq e.val e.pz s
  | none =>
    let f := filtOf s w
    if h.ty == tRD && !(f.waiting.any fun e => e.1 == h.seq) && !atPrism s w h.seq then
      filterPump w (setFilt w { f with waiting := bySeq f.done (h.seq, port, p) f.waiting } s)
    else s

/-- A sequenced packet meets its duplicate filter (R44, R57). -/
def sequencedIn (port : Nat) (p : Packet) (h : Hdr) (s : State) : State :=
  let w := 2 * h.sdev + h.lane
  let f := filtOf s w
  if !f.known then rawNak w h.seq 3 s
  else
    let s := freeResults w h.base s
    let d := (h.seq + 65536 - f.cum) % 65536
    if 1 ≤ d && d ≤ 2048 && !f.accepted.contains h.seq then
      if h.o && 2 ≤ d && 512 ≤ gapWaiting s (prismIo (portPrism port)) then s
      else
        let acc := f.accepted ++ [h.seq]
        let cum := runUp acc 2048 f.cum
        filterPump w (setFilt w { f with
          cum := cum
          accepted := acc.filter fun n => above n cum
          waiting := bySeq f.done (h.seq, port, p) f.waiting } s)
    else if d == 0 || 63488 < d || d ≤ 2048 then filterPump w (duplicate w h port p s)
    else malformedRecord port p s

/-- A sequenced packet of one type comes in at a Xitrum port. -/
def pktIn (ty port : Nat) (p : Packet) (s : State) : State :=
  if 18 ≤ port then s else comesIn [ty] port p (sequencedIn port p) s

def execRd (port : Nat) (p : Packet) (s : State) : Host.Outcome State Fault Refusal := .next (pktIn tRD port p s)
def execWr (port : Nat) (p : Packet) (s : State) : Host.Outcome State Fault Refusal := .next (pktIn tWR port p s)
def execWrm (port : Nat) (p : Packet) (s : State) : Host.Outcome State Fault Refusal := .next (pktIn tWRM port p s)
def execAmo (port : Nat) (p : Packet) (s : State) : Host.Outcome State Fault Refusal := .next (pktIn tAMO port p s)
def execRedc (port : Nat) (p : Packet) (s : State) : Host.Outcome State Fault Refusal := .next (pktIn tREDC port p s)
def execMsg (port : Nat) (p : Packet) (s : State) : Host.Outcome State Fault Refusal := .next (pktIn tMSG port p s)
def execSig (port : Nat) (p : Packet) (s : State) : Host.Outcome State Fault Refusal := .next (pktIn tSIG port p s)
def execPrb (port : Nat) (p : Packet) (s : State) : Host.Outcome State Fault Refusal := .next (pktIn tPRB port p s)
def execMrep (port : Nat) (p : Packet) (s : State) : Host.Outcome State Fault Refusal := .next (pktIn tMREP port p s)

end Sys2Proof.Machine
end

