-- ==== Sys2Proof/Machine/Vector.lean ====
section
/-! DEFINITION. The vector, mask, conversion and stream-binding heads (R420 to R446 of
15_isa_vector_stream.md). -/

namespace Sys2Proof.Machine

/-! ### Elements (R339, R420) -/

/-- Bits of an element of type 0 .f32, 1 .bf16, 2 .f16, 3 .i32, 4 .i16. -/
def tyBits (t : Nat) : Nat := if t == 0 || t == 3 then 32 else 16
def tyFloat (t : Nat) : Bool := t ≤ 2
def tyIeee (t : Nat) : Ieee :=
  match t with
  | 0 => fp32
  | 1 => bf16
  | _ => fp16
/-- The elements of `w` bits, lowest first. -/
def elemsOf (w : Nat) (v : VReg) : List Nat := (List.range (1024 / w)).map fun e => v.toNat / 2 ^ (w * e) % 2 ^ w
/-- A register of elements of `w` bits. -/
def ofElems (w : Nat) (xs : List Nat) : VReg := BitVec.ofNat 1024 (xs.foldr (fun x acc => x % 2 ^ w + 2 ^ w * acc) 0)

/-- The merge form of masking: inactive elements keep vD (R420). -/
def merges (h : Head) : Bool := h.im 3 3 == 1 && h.im 4 4 == 0
/-- Lane `k` is active (R420). -/
def laneActive (s : State) (h : Head) (k : Nat) : Bool := h.im 3 3 == 0 || (readM (here s) (h.im 2 0)).getLsbD k
/-- The lane of element `e` of `w` bits. -/
def laneOf (w e : Nat) : Nat := w * e / 32

/-- Operand b: vB, or value(gB) in every element under BS (R420). -/
def vecB (s : State) (h : Head) (w : Nat) : List Nat :=
  if h.im 5 5 == 1 then (List.range (1024 / w)).map fun _ => (gB s h).val.toNat % 2 ^ w
  else elemsOf w (readV (here s) h.b.toNat)

/-- Operand B as the control word makes it: a g register under BS, else a v register. -/
def Use.vecB (u : Use) (h : Head) : Use :=
  if h.form != .T2 then u
  else if h.im 5 5 == 1 then { u with rg := u.rg ++ [h.b.toNat] }
  else { u with rv := u.rv ++ [h.b.toNat] }
/-- A head that merges reads vD. -/
def Use.merged (u : Use) (h : Head) : Use := if merges h then u.readD else u

/-- The elements of vD under the mask: active ones from `xs`, inactive ones 0 or as they were (R422). -/
def maskedElems (s : State) (h : Head) (w : Nat) (xs : List Nat) : List Nat :=
  (xs.zip (elemsOf w (readV (here s) h.d.toNat))).zipIdx.map fun ((x, d), e) =>
    if laneActive s h (laneOf w e) then x else if h.im 4 4 == 1 then 0 else d
/-- Write the elements of vD under the mask. -/
def putElems (h : Head) (w : Nat) (xs : List Nat) : X Unit := do
  let s ← get
  setV h.d (ofElems w (maskedElems s h w xs))

/-- The flags of the active elements of a result list. -/
def activeFlags (s : State) (h : Head) (w : Nat) (xs : List (Nat × FFlags)) : FFlags :=
  xs.zipIdx.foldl (fun f (x, e) => if laneActive s h (laneOf w e) then f ||| x.2 else f) 0

/-- A head that computes each element from a, b and d under the mask (R422). -/
def vecHead (r : Row) (h : Head) (t : Nat) (readsD : Bool) (f : Nat → Nat → Nat → Nat × FFlags) (s : State) :
    Host.Outcome State Fault Refusal :=
  let u := (Use.ofRow r h).vecB h
  runHead r h (if readsD then u.readD else u.merged h) (do
    let s ← get
    let w := tyBits t
    let a := elemsOf w (readV (here s) h.a.toNat)
    let b := vecB s h w
    let d := elemsOf w (readV (here s) h.d.toNat)
    let ys := (a.zip (b.zip d)).map fun (x, y, z) => f x y z
    putElems h w (ys.map (·.1))
    flags (activeFlags s h w ys)
    pure .seq) s

/-! ### Element arithmetic (R422) -/

/-- A float operation rounded once, or an integer one that wraps, of type `t`. -/
def arith (t : Nat) (fl : Val → Val → Val → Val × FFlags) (int : Int → Int → Int → Int) (x y z : Nat) : Nat × FFlags :=
  let w := tyBits t
  if tyFloat t then
    let dec := decodeIeee (tyIeee t)
    let (v, g) := fl (dec x) (dec y) (dec z)
    let (c, k) := roundIeee (tyIeee t) v
    (c, g ||| k)
  else ((int (signedOf w x) (signedOf w y) (signedOf w z) % (2 ^ w : Nat)).toNat, 0)

def execVadd (h : Head) (s : State) : Host.Outcome State Fault Refusal :=
  vecHead Rows.vadd h h.f.toNat false (arith h.f.toNat (fun a b _ => addVal a b) fun a b _ => a + b) s
def execVsub (h : Head) (s : State) : Host.Outcome State Fault Refusal :=
  vecHead Rows.vsub h h.f.toNat false (arith h.f.toNat (fun a b _ => addVal a b.neg) fun a b _ => a - b) s
def execVmul (h : Head) (s : State) : Host.Outcome State Fault Refusal :=
  vecHead Rows.vmul h h.f.toNat false (arith h.f.toNat (fun a b _ => mulVal a b) fun a b _ => a * b) s
def execVfma (h : Head) (s : State) : Host.Outcome State Fault Refusal :=
  vecHead Rows.vfma h h.f.toNat true (arith h.f.toNat fmaVal fun a b d => a * b + d) s
def execVfms (h : Head) (s : State) : Host.Outcome State Fault Refusal :=
  vecHead Rows.vfms h h.f.toNat true (arith h.f.toNat (fun a b d => fmaVal a.neg b d) fun a b d => d - a * b) s
def execVmin (h : Head) (s : State) : Host.Outcome State Fault Refusal :=
  vecHead Rows.vmin h h.f.toNat false (arith h.f.toNat (fun a b _ => (minVal a b, 0)) fun a b _ => if b < a then b else a) s
def execVmax (h : Head) (s : State) : Host.Outcome State Fault Refusal :=
  vecHead Rows.vmax h h.f.toNat false (arith h.f.toNat (fun a b _ => (maxVal a b, 0)) fun a b _ => if a < b then b else a) s

/-! ### Logic and shifts (R423, R424) -/

def execVand (h : Head) (s : State) : Host.Outcome State Fault Refusal :=
  vecHead Rows.vand h 3 false (fun a b _ => (Nat.land a b, 0)) s
def execVor (h : Head) (s : State) : Host.Outcome State Fault Refusal :=
  vecHead Rows.vor h 3 false (fun a b _ => (Nat.lor a b, 0)) s
def execVxor (h : Head) (s : State) : Host.Outcome State Fault Refusal :=
  vecHead Rows.vxor h 3 false (fun a b _ => (Nat.xor a b, 0)) s
def execVandn (h : Head) (s : State) : Host.Outcome State Fault Refusal :=
  vecHead Rows.vandn h 3 false (fun a b _ => (Nat.land a (2 ^ 32 - 1 - b), 0)) s

/-- A shift: the amount is the element of b modulo the width, or AUX under IA (R424). -/
def vshHead (r : Row) (h : Head) (f : Nat → Nat → Nat → Nat) (s : State) : Host.Outcome State Fault Refusal :=
  let w := tyBits h.f.toNat
  let ia := h.im 14 14 == 1
  let u := Use.ofRow r h
  let u := if ia then u else u.vecB h
  runHead r h (u.merged h) (do
    let s ← get
    let a := elemsOf w (readV (here s) h.a.toNat)
    let b := if ia then a.map fun _ => h.im 13 9 else vecB s h w
    putElems h w ((a.zip b).map fun (x, y) => f w x (y % w) % 2 ^ w)
    pure .seq) s
def execVshl (h : Head) (s : State) : Host.Outcome State Fault Refusal :=
  vshHead Rows.vshl h (fun _ x n => x * 2 ^ n) s
def execVshr (h : Head) (s : State) : Host.Outcome State Fault Refusal :=
  vshHead Rows.vshr h (fun _ x n => x / 2 ^ n) s
def execVsra (h : Head) (s : State) : Host.Outcome State Fault Refusal :=
  vshHead Rows.vsra h (fun w x n => (signedOf w x / (2 ^ n : Nat) % (2 ^ w : Nat)).toNat) s

/-! ### Compares, selection and masks (R425 to R427) -/

/-- The predicates of R425 on elements of type `t`. -/
def vcmpHolds (t p x y : Nat) : Bool :=
  if tyFloat t then
    let a := decodeIeee (tyIeee t) x
    let b := decodeIeee (tyIeee t) y
    let ord := !a.isNan && !b.isNan
    match p with
    | 0 => eqVal a b
    | 1 => !eqVal a b
    | 2 => ltNum a b
    | 3 => ord && !ltNum b a
    | 4 => ltNum b a
    | 5 => ord && !ltNum a b
    | _ => !ord
  else
    let a := signedOf (tyBits t) x
    let b := signedOf (tyBits t) y
    match p with
    | 0 => x == y
    | 1 => x != y
    | 2 => a < b
    | 3 => a ≤ b
    | 4 => b < a
    | 5 => b ≤ a
    | 7 => x < y
    | _ => y ≤ x

/-- A mask from its bits. -/
def maskOf (f : Nat → Bool) : BitVec 32 :=
  BitVec.ofNat 32 ((List.range 32).map fun k => if f k then 2 ^ k else 0).sum
def setM (r : Nat) (v : BitVec 32) : X Unit := upd (modHere fun x => writeM x r v)

/-- VCMP (R425). -/
def execVcmp (h : Head) (s : State) : Host.Outcome State Fault Refusal :=
  runHead Rows.vcmp h ((Use.ofRow Rows.vcmp h).vecB h) (do
    let s ← get
    let t := h.im 8 6
    let w := tyBits t
    let ok := ((elemsOf w (readV (here s) h.a.toNat)).zip (vecB s h w)).map fun (x, y) => vcmpHolds t (h.im 12 9) x y
    let per := 32 / w
    setM h.d.toNat (maskOf fun k => laneActive s h k && ((ok.drop (per * k)).take per).all id)
    pure .seq) s

/-- VSEL (R426). -/
def execVsel (h : Head) (s : State) : Host.Outcome State Fault Refusal :=
  runHead Rows.vsel h ((Use.ofRow Rows.vsel h).vecB h) (do
    let s ← get
    let m := readM (here s) (h.im 2 0)
    let xs := ((elemsOf 32 (readV (here s) h.a.toNat)).zip (vecB s h 32)).zipIdx.map fun ((x, y), k) =>
      if m.getLsbD k then x else y
    setV h.d (ofElems 32 xs)
    pure .seq) s

/-- A mask head that writes mD from mA and mB (R427). -/
def maskHead (r : Row) (h : Head) (f : BitVec 32 → BitVec 32 → BitVec 32) (s : State) : Host.Outcome State Fault Refusal :=
  runHead r h (Use.ofRow r h) (do
    let s ← get
    setM h.d.toNat (f (readM (here s) h.a.toNat) (readM (here s) h.b.toNat))
    pure .seq) s
def execMand (h : Head) (s : State) : Host.Outcome State Fault Refusal := maskHead Rows.mand h (fun a b => a &&& b) s
def execMor (h : Head) (s : State) : Host.Outcome State Fault Refusal := maskHead Rows.mor h (fun a b => a ||| b) s
def execMxor (h : Head) (s : State) : Host.Outcome State Fault Refusal := maskHead Rows.mxor h (fun a b => a ^^^ b) s
def execMnot (h : Head) (s : State) : Host.Outcome State Fault Refusal := maskHead Rows.mnot h (fun a _ => ~~~a) s

/-- A mask head that writes gD from mA (R427). -/
def maskInt (r : Row) (h : Head) (f : BitVec 32 → Nat) (s : State) : Host.Outcome State Fault Refusal :=
  runHead r h (Use.ofRow r h) (do
    let s ← get
    setInt h.d (BitVec.ofNat 64 (f (readM (here s) h.a.toNat)))
    pure .seq) s
def execMpop (h : Head) (s : State) : Host.Outcome State Fault Refusal :=
  maskInt Rows.mpop h (fun m => ((List.range 32).filter fun k => m.getLsbD k).length) s
def execMfirst (h : Head) (s : State) : Host.Outcome State Fault Refusal :=
  maskInt Rows.mfirst h (fun m => ((List.range 32).find? fun k => m.getLsbD k).getD 32) s

/-! ### Functions (R326, R428) -/

/-- A function of FP32 codes applied to elements of a float type: computed in FP32, rounded once to the type, with
only the flags that R326 names. -/
def fnElem (t : Nat) (f : Nat → Val × FFlags) (x : Nat) : Nat × FFlags :=
  let x32 := (roundIeee fp32 (decodeIeee (tyIeee t) x)).1
  let (v, g) := f x32
  let c := (roundIeee fp32 v).1
  (if t == 0 then c else (roundIeee (tyIeee t) (decodeIeee fp32 c)).1, g)

/-- A vector function (R428). -/
def vfnHead (r : Row) (h : Head) (f : Nat → Val × FFlags) (s : State) : Host.Outcome State Fault Refusal :=
  runHead r h ((Use.ofRow r h).merged h) (do
    let s ← get
    let t := h.im 8 6
    let w := tyBits t
    let ys := (elemsOf w (readV (here s) h.a.toNat)).map (fnElem t f)
    putElems h w (ys.map (·.1))
    flags (activeFlags s h w ys)
    pure .seq) s
def execVrcp (h : Head) (s : State) : Host.Outcome State Fault Refusal := vfnHead Rows.vrcp h vrcp s
def execVrsq (h : Head) (s : State) : Host.Outcome State Fault Refusal := vfnHead Rows.vrsq h vrsq s
def execVexp2 (h : Head) (s : State) : Host.Outcome State Fault Refusal := vfnHead Rows.vexp2 h vexp2 s
def execVlog2 (h : Head) (s : State) : Host.Outcome State Fault Refusal := vfnHead Rows.vlog2 h vlog2 s
def execVsqrt (h : Head) (s : State) : Host.Outcome State Fault Refusal :=
  vfnHead Rows.vsqrt h (fun x => vsqrt (decodeIeee fp32 x)) s
def execVtanh (h : Head) (s : State) : Host.Outcome State Fault Refusal := vfnHead Rows.vtanh h vtanh s

/-! ### Reductions and scans (R429, R430) -/

/-- One level of the tree: pairs combined, a single child passed up. -/
def treeLevel {α : Type} (f : α → α → α) : List (Option α) → List (Option α)
  | [] => []
  | [x] => [x]
  | x :: y :: r =>
    (match x, y with
      | some a, some b => some (f a b)
      | some a, none => some a
      | none, b => b) :: treeLevel f r
/-- The tree over at most 2^n elements (R429). -/
def treeFold {α : Type} (f : α → α → α) : Nat → List (Option α) → Option α
  | 0, xs => (xs.head?).join
  | n + 1, xs => treeFold f n (treeLevel f xs)

/-- Combination 0 sum, 1 maximum, 2 minimum, on FP32 codes with the flags so far. -/
def combineF (op : Nat) (a b : Nat × FFlags) : Nat × FFlags :=
  let x := decodeIeee fp32 a.1
  let y := decodeIeee fp32 b.1
  let (v, g) : Val × FFlags :=
    match op with
    | 0 => addVal x y
    | 1 => (maxVal x y, 0)
    | _ => (minVal x y, 0)
  let (c, k) := roundIeee fp32 v
  (c, a.2 ||| b.2 ||| g ||| k)
/-- The same on integers, exact. -/
def combineI (op : Nat) (a b : Int) : Int :=
  match op with
  | 0 => a + b
  | 1 => if a < b then b else a
  | _ => if b < a then b else a
/-- The results with no element: FP32 codes, and integers of `w` bits (R429). -/
def identF (op : Nat) : Nat :=
  match op with
  | 0 => 0
  | 1 => 0xFF800000
  | _ => 0x7F800000
def identI (op w : Nat) : Int :=
  match op with
  | 0 => 0
  | 1 => -(2 ^ (w - 1) : Nat)
  | _ => 2 ^ (w - 1) - 1

/-- An element of a float type as an FP32 code: 16-bit inputs are widened exactly. -/
def widenF (t x : Nat) : Nat := if t == 0 then x else (roundIeee fp32 (decodeIeee (tyIeee t) x)).1

/-- A reduction (R429). -/
def vredHead (r : Row) (h : Head) (op : Nat) (s : State) : Host.Outcome State Fault Refusal :=
  runHead r h (Use.ofRow r h) (do
    let s ← get
    let t := h.im 8 6
    let w := tyBits t
    let xs : List (Option Nat) := (elemsOf w (readV (here s) h.a.toNat)).zipIdx.map fun (x, e) =>
      if laneActive s h (laneOf w e) then some x else none
    if tyFloat t then
      let leaf (x : Nat) : Nat × FFlags := (widenF t x, 0)
      let (c, g) := (treeFold (combineF op) 6 (xs.map fun o => o.map leaf)).getD (identF op, 0)
      setInt h.d (BitVec.ofNat 64 c)
      flags (g &&& (fOF ||| fNX ||| fNV))
    else
      let v := (treeFold (combineI op) 6 (xs.map fun o => o.map (signedOf w))).getD (identI op w)
      setInt h.d (BitVec.ofInt 64 v)
    pure .seq) s
def execVredsum (h : Head) (s : State) : Host.Outcome State Fault Refusal := vredHead Rows.vredsum h 0 s
def execVredmax (h : Head) (s : State) : Host.Outcome State Fault Refusal := vredHead Rows.vredmax h 1 s
def execVredmin (h : Head) (s : State) : Host.Outcome State Fault Refusal := vredHead Rows.vredmin h 2 s

/-- The running scan over elements with their activity: what each position gives, and the flags (R430). -/
def scanF (t op : Nat) (ex : Bool) : List (Nat × Bool) → Nat × FFlags → List Nat × FFlags
  | [], acc => ([], acc.2)
  | (x, act) :: r, acc =>
    if act then
      let nxt := combineF op acc (widenF t x, 0)
      let (y, g) := roundIeee (tyIeee t) (decodeIeee fp32 (if ex then acc.1 else nxt.1))
      let (ys, fl) := scanF t op ex r (nxt.1, nxt.2 ||| g)
      (y :: ys, fl)
    else
      let (ys, fl) := scanF t op ex r acc
      (0 :: ys, fl)
def scanI (w op : Nat) (ex : Bool) : List (Nat × Bool) → Int → List Nat
  | [], _ => []
  | (x, act) :: r, acc =>
    if act then
      let nxt := signedOf w ((combineI op acc (signedOf w x)) % (2 ^ w : Nat)).toNat
      ((if ex then acc else nxt) % (2 ^ w : Nat)).toNat :: scanI w op ex r nxt
    else 0 :: scanI w op ex r acc

/-- VSCAN (R430). -/
def execVscan (h : Head) (s : State) : Host.Outcome State Fault Refusal :=
  let u := (Use.ofRow Rows.vscan h).merged h
  runHead Rows.vscan h (if h.im 12 12 == 1 then u.andG [h.b.toNat] else u) (do
    let s ← get
    let t := h.im 8 6
    let w := tyBits t
    let op := h.im 10 9
    let ex := h.im 11 11 == 1
    let ci := h.im 12 12 == 1
    let carry := (gB s h).val.toNat
    let xs := (elemsOf w (readV (here s) h.a.toNat)).zipIdx.map fun (x, e) => (x, laneActive s h (laneOf w e))
    if tyFloat t then
      let (ys, g) := scanF t op ex xs (if ci then carry % 2 ^ 32 else identF op, 0)
      putElems h w ys
      flags g
    else putElems h w (scanI w op ex xs (if ci then signedOf w carry else identI op w))
    pure .seq) s

/-! ### Moving lanes (R431 to R434) -/

/-- VPERM (R431). -/
def execVperm (h : Head) (s : State) : Host.Outcome State Fault Refusal :=
  runHead Rows.vperm h ((Use.ofRow Rows.vperm h).merged h) (do
    let s ← get
    let w := if h.im 8 6 == 1 then 16 else 32
    let a := elemsOf w (readV (here s) h.a.toNat)
    let b := elemsOf w (readV (here s) h.b.toNat)
    putElems h w (b.map fun i => if 2 ^ (w - 1) ≤ i then 0 else a.getD (i % (1024 / w)) 0)
    pure .seq) s

/-- VBCAST (R432). -/
def execVbcast (h : Head) (s : State) : Host.Outcome State Fault Refusal :=
  runHead Rows.vbcast h ((Use.ofRow Rows.vbcast h).merged h) (do
    let s ← get
    let w := if h.im 8 6 == 1 then 16 else 32
    putElems h w ((List.range (1024 / w)).map fun _ => (gA s h).val.toNat % 2 ^ w)
    pure .seq) s

/-- The element width and index of VEXTR and VINS (R433). -/
def exWidth (h : Head) : Nat := if h.im 6 6 == 1 then 16 else 32
def exIndex (s : State) (h : Head) : Nat := if h.b == 0 then h.im 5 0 else (gB s h).val.toNat % (1024 / exWidth h)

/-- VEXTR (R433). -/
def execVextr (h : Head) (s : State) : Host.Outcome State Fault Refusal :=
  runHead Rows.vextr h (Use.ofRow Rows.vextr h) (do
    let s ← get
    let w := exWidth h
    let x := (elemsOf w (readV (here s) h.a.toNat)).getD (exIndex s h) 0
    setInt h.d (if h.im 7 7 == 1 then BitVec.ofInt 64 (signedOf w x) else BitVec.ofNat 64 x)
    pure .seq) s

/-- VINS (R433). -/
def execVins (h : Head) (s : State) : Host.Outcome State Fault Refusal :=
  runHead Rows.vins h (Use.ofRow Rows.vins h).readD (do
    let s ← get
    let w := exWidth h
    let xs := elemsOf w (readV (here s) h.d.toNat)
    setV h.d (ofElems w (xs.set (exIndex s h) ((gA s h).val.toNat % 2 ^ w)))
    pure .seq) s

/-- VMOV (R434). -/
def execVmov (h : Head) (s : State) : Host.Outcome State Fault Refusal :=
  runHead Rows.vmov h (Use.ofRow Rows.vmov h) (do
    let s ← get
    setV h.d (readV (here s) h.a.toNat)
    pure .seq) s

/-! ### The accesses of a vector head (R436) -/

/-- One access: its lane, address and bytes, and whether it is data, whose bounds and alignment are checked; a
scale byte ignores the upper bound (R318). -/
structure LaneAcc where
  lane : Nat
  va : Nat
  n : Nat
  data : Bool := true
  deriving DecidableEq, Repr

/-- Raise a cause at the first lane that has it; TRAPINFO bits 12:8 hold the lane (R436). -/
def failAt (ls : List LaneAcc) (bad : LaneAcc → Bool) (cause sub : Nat) : X Unit :=
  match ls.find? bad with
  | some l => raise cause l.va (l.lane % 32 * 256 + sub)
  | none => pure ()

/-- Translate the lanes in order; a trap names the lane. -/
def laneSpans (kind : BitVec 8) : List LaneAcc → X (List Span)
  | [] => pure []
  | l :: rest => do
    let tr : X (Nat × W64) := fun s =>
      match translate l.va kind s with
      | .error (.trap c a i) t => .error (.trap c a (l.lane % 32 * 256 + i)) t
      | r => r
    let (pa, attr) ← tr
    let more ← laneSpans kind rest
    pure ({ va := l.va, pa := pa, n := l.n, attr := attr } :: more)

/-- A register window or a control page. -/
def sysSpace (s : State) (pa : Nat) : Bool :=
  match spaceOf s pa with
  | .regs _ _ | .ctl _ _ => true
  | _ => false

/-- The checks of R436 in the ranks of R299, before anything is performed. `mis` is the address of an element index
that is not a multiple of what the head asks (R438, R441, R442). -/
def laneAccess (c : Cap) (write : Bool) (mis : Option Nat) (ls : List LaneAcc) : X (List Span) := do
  failAt ls (fun _ => !c.tag) 0x06 0
  failAt ls (fun l => l.data && !CapF.inBounds c l.va l.n) 0x07 0
  failAt ls (fun _ => !CapF.holds c (if write then CapF.ST else CapF.LD)) 0x08 0
  match mis with
  | some a => raise 0x09 a
  | none => pure ()
  failAt ls (fun l => l.va % l.n != 0) 0x09 0
  let spans ← laneSpans (if write then kWrite else kRead) ls
  let s ← get
  unless CapF.holds c CapF.SYS do
    match (ls.zip spans).find? fun (_, sp) => sysSpace s sp.pa with
    | some (l, _) => raise 0x08 l.va (l.lane % 32 * 256 + 2)
    | none => pure ()
  failAt ls (fun l => lockHit s l.va l.n write) 0x0C 0
  pure spans

/-! ### What a vector load delivers -/

/-- The scale byte that applies to position `i` of `n` (R317, R438). -/
def scaleAt (sc : List Nat) (i n : Nat) : Option Nat := if sc.isEmpty then none else sc[i * sc.length / n]?

/-- The lanes that a load writes, with their values and flags: positions `ks`, the bytes read for them, then the
scale bytes. `total` is the number of positions the scale bytes cover. -/
def loadLanes (f : Fin_) (xs : List Nat) : List (Nat × Nat) × FFlags :=
  match f with
  | .lanes ks _ => (ks.zip xs, 0)
  | .narrow ks _ fmt nib sc =>
    let m := ks.length
    let data := xs.take m
    let scs := xs.drop m
    let total := Nat.max 32 (ks.foldl Nat.max 0 + 1)
    let ys := (ks.zip (data.zip (nib ++ data.map fun _ => false))).map fun (k, x, up) =>
      (k, elemF32 fmt (elemCode fmt x up) (if sc == 0 then none else scaleAt scs k total))
    (ys.map fun (k, y, _) => (k, y), ys.foldl (fun g y => g ||| y.2.2) 0)
  | _ => ([], 0)
/-- What the lanes a load does not write hold. -/
def loadOld (f : Fin_) : VReg :=
  match f with
  | .lanes _ old | .narrow _ old _ _ _ => old
  | _ => 0
/-- Register `i` of a load into several. -/
def loadReg (f : Fin_) (ys : List (Nat × Nat)) (i : Nat) : VReg :=
  ofElems 32 ((elemsOf 32 (loadOld f)).zipIdx.map fun (d, k) =>
    match ys.find? fun y => y.1 == 32 * i + k with
    | some (_, y) => y
    | none => d)

/-- A destination is bound to a stream. -/
def boundV (s : State) (v n : Nat) : Bool := (List.range n).any fun k => (unitOf s s.cur (v + k)).isSome

/-- Read a piece at once, for a load whose result a stream push takes (R444). -/
def pieceNow (p : Piece) (va : Nat) : X Nat := do
  match p.known with
  | some x => pure x
  | none =>
    let s ← get
    let direct := match spaceOf s p.pa with
      | .remote d off => if p.remote then some (d, off) else none
      | _ => none
    match ← readNow p.pa p.n p.viaL1 direct with
    | .val x _ => pure x
    | .poison info => raise 0x12 va info
    | .held => throw (.wait .tag)

/-- A vector load into `n` registers from `v`: an outstanding result, or for a register bound to a write stream a
result that the head pushes when it completes. -/
def vecLoad (v n : Nat) (ps : List Piece) (fin : Fin_) : X Unit := do
  let s ← get
  if boundV s v n then
    let xs ← ps.mapM fun p => pieceNow p p.pa
    let (ys, g) := loadLanes fin xs
    upd (modHere fun x => (List.range n).foldl (fun x i => writeV x (v + i) (loadReg fin ys i)) x)
    flags g
  else issuePieces (if n == 1 then .v v else .vs v n) ps fin 0

/-! ### VLD and VST (R435 to R438) -/

/-- The address of lane `k` (R436). -/
def laneAddr (s : State) (h : Head) (k : Nat) : Nat :=
  let a : Int := CapF.addr (gA s h)
  let off : Int :=
    match h.f.toNat with
    | 0 => (gB s h).val.toNat + 4 * k
    | 1 => k * (gB s h).val.toInt
    | _ => (lane (readV (here s) h.b.toNat) k).toInt * (2 ^ h.im 6 5 : Nat)
  ((a + off) % (2 ^ 57 : Nat)).toNat
/-- The active lanes of a head. -/
def activeLanes (s : State) (h : Head) : List Nat := (List.range 32).filter (laneActive s h)
/-- The vD that inactive lanes of a load keep. -/
def loadKeeps (s : State) (h : Head) : VReg := if merges h then readV (here s) h.d.toNat else 0

/-- A load of 32-bit lanes (R436). -/
def vldPlain (h : Head) : X Unit := do
  let s ← get
  let ks := activeLanes s h
  let spans ← laneAccess (gA s h) false none (ks.map fun k => { lane := k, va := laneAddr s h k, n := 4 })
  vecLoad h.d.toNat 1 (← loadPieces spans) (.lanes ks (loadKeeps s h))

/-- The checks of a consuming head on its tensor's format (R310). -/
def fmtCheck (c : Cap) : X W64 := do
  let s ← get
  let f := fmtOf s c
  if fmtBad f c then illegal 0x05
  pure f

/-- The scale bytes for `n` elements from `j0`: one for each block, or for each 32 elements of a longer one
(R317, R318). `used` says which positions need theirs. -/
def scaleAccs (c : Cap) (j0 : Int) (n : Nat) (used : Nat → Bool) : List (Bool × LaneAcc) :=
  if !scaled c then []
  else
    let b := 2 ^ Nat.min 5 (CapF.k c)
    (List.range (n / b)).map fun i =>
      let j : Int := (j0 + (i * b : Nat)) / (2 ^ CapF.k c : Nat)
      ((List.range b).any fun k => used (i * b + k), { lane := i * b, va := scaleAddr c j, n := 1, data := false })

/-- The pieces of scale bytes: a block with no active element reads none. -/
def scalePieces : List (Bool × LaneAcc) → List Piece → List Piece
  | [], _ => []
  | (true, _) :: r, p :: ps => p :: scalePieces r ps
  | (_, l) :: r, ps => { pa := l.va, n := 1, known := some 0 } :: scalePieces r ps

/-- A converting load of `n` elements of the tensor at `c` from element `j0` (R438, R442). -/
def tensorLoad (c : Cap) (f : W64) (j0 : Int) (v regs : Nat) (ks : List Nat) (old : VReg) : X Unit := do
  let n := 32 * regs
  let at_ (k : Nat) : Nat × Bool := elemAddr f c (j0 + (k : Nat))
  let mis := if j0 % 32 == 0 then none else some (at_ 0).1
  let acc (k : Nat) : LaneAcc := { lane := k, va := (at_ k).1, n := elemBytes f }
  let scs := scaleAccs c j0 n fun k => ks.contains k
  let need := (scs.filter (·.1)).map (·.2)
  let spans ← laneAccess c false mis (ks.map acc ++ need)
  let ps ← loadPieces spans
  let ps := ps.take ks.length ++ scalePieces scs (ps.drop ks.length)
  vecLoad v regs ps (.narrow ks old f (ks.map fun k => (at_ k).2) scs.length)

/-- The first element of a converting VLD or VST (R438). -/
def cvFirst (s : State) (h : Head) (f : W64) : Int := elemIndex f (gA s h) (CapF.addr (gA s h)) + (gB s h).val.toInt

/-- What a vector load reads and writes. -/
def vldUse (r : Row) (h : Head) : Use := (Use.ofRow r h).merged h

def execVld (h : Head) (s : State) : Host.Outcome State Fault Refusal :=
  runHead Rows.vld h (vldUse Rows.vld h) (do
    let s ← get
    if h.im 7 7 == 1 then
      let f ← fmtCheck (gA s h)
      tensorLoad (gA s h) f (cvFirst s h f) h.d.toNat 1 (activeLanes s h) (loadKeeps s h)
    else vldPlain h
    pure .seq) s
def execVldS (h : Head) (s : State) : Host.Outcome State Fault Refusal :=
  runHead Rows.vldS h (vldUse Rows.vldS h) (do
    vldPlain h
    pure .seq) s
def execVldG (h : Head) (s : State) : Host.Outcome State Fault Refusal :=
  runHead Rows.vldG h (vldUse Rows.vldG h) (do
    vldPlain h
    pure .seq) s

/-- The buffer entries of parts stored in order, adjacent parts of a line joined when `join` is set (R437). -/
def partEntries (s : State) (join : Bool) (ps : List (Span × Nat)) : List SbEntry :=
  ps.foldl (fun es (sp, x) =>
    let new := storeEntries s s.cur false [sp] x
    if join then new.foldl joinStore es else es ++ new) []

/-- A store of 32-bit lanes (R436, R437). -/
def vstPlain (h : Head) (join : Bool) : X Unit := do
  let s ← get
  let ks := activeLanes s h
  let spans ← laneAccess (gA s h) true none (ks.map fun k => { lane := k, va := laneAddr s h k, n := 4 })
  let v := readV (here s) h.d.toNat
  pushStores (partEntries s join (spans.zip (ks.map fun k => (lane v k).toNat)))

/-- The bytes of codes in memory: one element each, or two nibbles (R311). -/
def codeParts (f : W64) : List Nat → List Nat
  | [] => []
  | x :: r =>
    if Fmt.elemBits f != 4 then x :: codeParts f r
    else match r with
      | [] => [x]
      | y :: r => (x + 16 * y) :: codeParts f r

/-- VST.CV: encode the active lanes and store the codes (R438). -/
def vstCv (h : Head) : X Unit := do
  let s ← get
  let c := gA s h
  let f ← fmtCheck c
  if scaled c || (h.im 3 3 == 1 && Fmt.elemBits f == 4) then illegal 0x0A
  let j0 := cvFirst s h f
  let ks := activeLanes s h
  let v := readV (here s) h.d.toNat
  let ys := ks.map fun k => elemEncode f (lane v k).toNat
  let step := if Fmt.elemBits f == 4 then 2 else 1
  let firsts := ks.filter fun k => k % step == 0
  let mis := if j0 % 32 == 0 then none else some (elemAddr f c j0).1
  let acc (k : Nat) : LaneAcc := { lane := k, va := (elemAddr f c (j0 + (k : Nat))).1, n := elemBytes f }
  let spans ← laneAccess c true mis (firsts.map acc)
  pushStores (partEntries s true (spans.zip (codeParts f (ys.map (·.1)))))
  flags (ys.foldl (fun g y => g ||| y.2) 0)

def execVst (h : Head) (s : State) : Host.Outcome State Fault Refusal :=
  runHead Rows.vst h (Use.ofRow Rows.vst h).srcD (do
    if h.im 7 7 == 1 then vstCv h else vstPlain h true
    pure .seq) s
def execVstS (h : Head) (s : State) : Host.Outcome State Fault Refusal :=
  runHead Rows.vstS h (Use.ofRow Rows.vstS h).srcD (do
    vstPlain h false
    pure .seq) s
def execVstX (h : Head) (s : State) : Host.Outcome State Fault Refusal :=
  runHead Rows.vstX h (Use.ofRow Rows.vstX h).srcD (do
    vstPlain h false
    pure .seq) s

/-! ### VCVT (R439, R440) -/

/-- Bits of a position: types 0 to 4, 5 a narrow format. -/
def cvBits (t : Nat) (f : W64) : Nat := if t == 5 then (if Fmt.bits f ≤ 4 then 4 else 8) else tyBits t

/-- One conversion between types 0 to 5 (R319, R320). -/
def cvElem (dst fr : Nat) (f : W64) (x : Nat) : Nat × FFlags :=
  let v : Val :=
    if fr == 5 then decodeNarrow f x
    else if tyFloat fr then decodeIeee (tyIeee fr) x
    else ofInt (signedOf (tyBits fr) x)
  if dst == 5 then
    let (c, g, _) := encodeNarrow f v
    (c, g)
  else if tyFloat dst then roundIeee (tyIeee dst) v
  else
    let (i, g) := toIntSat (tyBits dst) v
    ((i % (2 ^ tyBits dst : Nat)).toNat, g)

/-- The source and destination positions of a conversion (R440). -/
def cvPairs (dst fr q : Nat) (dw sw : Nat) : List (Nat × Nat) :=
  if dst == 5 then (List.range (1024 / sw)).map fun e => (e, 1024 / sw * q + e)
  else if fr == 5 then (List.range (1024 / dw)).map fun e => (1024 / dw * q + e, e)
  else if sw == dw then (List.range (1024 / sw)).map fun e => (e, e)
  else if sw == 32 then (List.range 32).map fun k => (k, 2 * k + q % 2)
  else (List.range 32).map fun k => (2 * k + q % 2, k)

/-- VCVT (R439, R440). The lane of the side that is not narrow governs. -/
def execVcvt (h : Head) (s : State) : Host.Outcome State Fault Refusal :=
  runHead Rows.vcvt h (Use.ofRow Rows.vcvt h).readD (do
    let s ← get
    let dst := h.im 11 9
    let fr := h.im 8 6
    let q := h.im 5 4
    let f := readF (here s) (h.im 15 12)
    let nar := dst == 5 || fr == 5
    if nar && Fmt.cls f != 1 then illegal 0x05
    let sw := cvBits fr f
    let dw := cvBits dst f
    if nar && 1024 / (if dst == 5 then dw else sw) ≤ q * (1024 / (if dst == 5 then sw else dw)) then illegal 0x0A
    let src := elemsOf sw (readV (here s) h.a.toNat)
    let act (p : Nat × Nat) : Bool := laneActive s h (if fr == 5 then laneOf dw p.2 else laneOf sw p.1)
    let ys := ((cvPairs dst fr q dw sw).filter act).map fun (i, j) => (j, cvElem dst fr f (src.getD i 0))
    let new := ys.foldl (fun d (j, y, _) => d.set j y) (elemsOf dw (readV (here s) h.d.toNat))
    setV h.d (ofElems dw new)
    flags (ys.foldl (fun g y => g ||| y.2.2) 0)
    pure .seq) s

/-! ### VQNT and VDEQ (R441, R442) -/

/-- A part of a block under a given scale: no raise (R441). -/
def quantPart (f : W64) (xs : List Val) (s : Nat) : Nat × List Nat × FFlags :=
  if s == 0xFF then (0xFF, xs.map fun _ => 0, fNV)
  else
    let ys := xs.map fun x => encodeNarrow f (unscaleVal s x)
    (s, ys.map (·.1), ys.foldl (fun g y => g ||| y.2.1) 0)

/-- The parts of `n` elements each of a list. -/
def chunksOf {α : Type} (n : Nat) : Nat → List α → List (List α)
  | 0, _ => []
  | k + 1, xs => xs.take n :: chunksOf n k (xs.drop n)

/-- VQNT (R441). -/
def execVqnt (h : Head) (s : State) : Host.Outcome State Fault Refusal :=
  let regs := 2 ^ h.im 1 0
  let gs := h.im 2 2 == 1
  let u : Use := { rg := [h.b.toNat], rv := (List.range regs).map (h.a.toNat + ·), wg := [h.d.toNat] }
  runHead Rows.vqnt h (if gs then u.readD else u) (do
    let s ← get
    let own := h.im 3 3 == 1
    let c := gB s h
    let f ← fmtCheck c
    if Fmt.cls f != 1 || !scaled c then illegal 0x0A
    let e := 32 * regs
    let blk := 2 ^ CapF.k c
    if e < blk && !gs && !own then illegal 0x0A
    let per := Nat.min blk e
    let j0 := elemIndex f c (CapF.addr c)
    let mis := if j0 % (per : Nat) == 0 then none else some (CapF.addr c)
    let xs := ((List.range regs).map fun i => (elemsOf 32 (readV (here s) (h.a.toNat + i))).map (decodeIeee fp32)).flatten
    let parts := chunksOf per (e / per) xs
    if own then
      ensure c.tag 0x06 (CapF.addr c)
      match mis with
      | some a => raise 0x09 a
      | none => pure ()
      let best := (parts.map fun p => (quantBlock f p none).1).foldl Nat.max 0
      addPend (dstG h.d) [] (.cst (Cap.ofInt (BitVec.ofNat 64 best))) 6
    else
      let given := (gD s h).val.toNat % 256
      let rs := parts.map fun p =>
        if e < blk then quantPart f p given else quantBlock f p (if gs then some given else none)
      let bytes := codeParts f (rs.map (·.2.1)).flatten
      let data : List LaneAcc := bytes.zipIdx.map fun (_, i) =>
        { lane := 0, va := ((CapF.addr c : Int) + (i : Nat)) % (2 ^ 57 : Nat) |>.toNat, n := 1 }
      let scs : List LaneAcc := rs.zipIdx.map fun (_, i) =>
        { lane := 0, va := scaleAddr c (j0 / (blk : Nat) + (i : Nat)), n := 1, data := false }
      check c (CapF.addr c) bytes.length CapF.ST 1
      let spans ← laneAccess c true mis (data ++ scs)
      pushStores (partEntries s true (spans.zip (bytes ++ rs.map (·.1))))
      flags (rs.foldl (fun g r => g ||| r.2.2) 0)
      addPend (dstG h.d) [] (.cst (Cap.ofInt (BitVec.ofNat 64 ((rs.map (·.1)).foldl Nat.max 0)))) 6
    pure .seq) s

/-- VDEQ (R442). -/
def execVdeq (h : Head) (s : State) : Host.Outcome State Fault Refusal :=
  let regs := 2 ^ h.im 1 0
  runHead Rows.vdeq h { rg := [h.a.toNat], wv := (List.range regs).map (h.d.toNat + ·) } (do
    let s ← get
    let c := gA s h
    let f ← fmtCheck c
    tensorLoad c f (elemIndex f c (CapF.addr c)) h.d.toNat regs (List.range (32 * regs)) 0
    pure .seq) s

/-! ### Stream bindings (R443 to R446) -/

/-- A byte of a window as stream units see it: a launch area without the program stores that no fence follows (R143). -/
def launchByte (s : State) (pa : Nat) : Byte :=
  match spaceOf s pa with
  | .spad k off => (((coreOf s k).launchOld.find? fun x => x.off == off).map (·.byte)).getD (SMap.get 0 s.ms.mem pa)
  | _ => SMap.get 0 s.ms.mem pa
def launchTag (s : State) (pa : Nat) : Bool :=
  match spaceOf s pa with
  | .spad k off => (((coreOf s k).launchOld.find? fun x => x.off / 16 == off / 16).map (·.tag)).getD (tagAt s pa)
  | _ => tagAt s pa
def launchRead (s : State) (pa n : Nat) : Nat := leNat ((List.range n).map fun i => launchByte s (pa + i))
/-- An address of a launch area. -/
def inLaunch (s : State) (pa : Nat) : Bool :=
  match spaceOf s pa with
  | .spad _ off => 0x3F000 ≤ off
  | _ => false
/-- The 128 bytes of a shape record at a physical address, with TCAP's tag; a buffered store to it enters memory
first, but in the launch area one that no fence follows (R143, R178). -/
def shapeAt (pa : Nat) : X (Nat × Bool) := do
  let s ← get
  if (bufferOf s s.cur).any fun e => overlaps pa 128 e.pa e.n && (e.fenced || !inLaunch s pa) then throw .stall
  pure (launchRead s pa 128, launchTag s pa)

/-- Field `k` of the DIM, STR and PRT tables (R144). -/
def shapeDim (x k : Nat) : Nat := x / 2 ^ (8 * (0x10 + 4 * k)) % 2 ^ 32
def shapeStr (x k : Nat) : Int := signedOf 64 (x / 2 ^ (8 * (0x20 + 8 * k)))
def shapePrt (x k : Nat) : Nat := x / 2 ^ (8 * (0x40 + 2 * k)) % 2 ^ 16
/-- Every DIM and PRT is at least 1 and the reserved bytes are zero (R144, R443). -/
def shapeOk (x : Nat) : Bool :=
  (List.range 4).all (fun k => 1 ≤ shapeDim x k && 1 ≤ shapePrt x k) && x / 2 ^ (8 * 0x48) % 2 ^ (8 * 0x38) == 0
/-- The slice of rank `r` in dimension `k`: start and length (R144). -/
def shapeSlice (x r k : Nat) : Nat × Nat :=
  let below := ((List.range k).map (shapePrt x)).foldl (· * ·) 1
  let c := r / below % shapePrt x k
  let q := (shapeDim x k + shapePrt x k - 1) / shapePrt x k
  (c * q, Nat.min q (shapeDim x k - c * q))

/-- The rank a binding uses: the core's RANK for a sweep firing, else 0 (R178). -/
def streamRank (s : State) : Nat :=
  match (firOf s s.cur).path with
  | .sweep _ => launchRead s (windowOf (coreNo s.cur) + 0x3F040) 8
  | _ => 0

/-- The lowest-numbered free stream unit of the core (R177); context 7 has none. -/
def freeUnit (s : State) : Option Nat :=
  if s.cur % 8 == 7 then none
  else (List.range 8).find? fun k => (SMap.get none (coreOf s (coreNo s.cur)).units k).isNone

/-- SBIND (R443). -/
def execSbind (h : Head) (s : State) : Host.Outcome State Fault Refusal :=
  let rg := (if h.im 2 2 == 1 then [h.a.toNat] else []) ++ (if h.im 6 6 == 1 then [h.b.toNat] else [])
  runHead Rows.sbind h { rg := rg, nv := [h.d.toNat] } (do
    let s ← get
    if (unitOf s s.cur h.d.toNat).isSome then illegal 0x0A
    let core := coreNo s.cur
    let rec_ ←
      if h.im 2 2 == 1 then do
        let spans ← access (gA s h) (CapF.addr (gA s h)) 128 CapF.LD 16 kRead false
        let s ← get
        unless spans.all fun sp => ownSpad s core sp.pa do illegal 0x0A
        match spans with
        | sp :: _ => shapeAt sp.pa
        | [] => pure (0, false)
      else shapeAt (windowOf core + 0x3F080 + 128 * h.im 1 0)
    let (x, tag) := rec_
    unless shapeOk x do illegal 0x0A
    let word (o : Nat) : W64 := BitVec.ofNat 64 (x / 2 ^ (8 * o))
    let tcap : Cap := ⟨word 0, word 8, tag⟩
    let write := h.im 3 3 == 1
    let cv := h.im 7 7 == 1
    let f := fmtOf s tcap
    if cv then
      if fmtBad f tcap then illegal 0x05
      if Fmt.elemBits f == 4 || (write && scaled tcap) then illegal 0x0A
    let slot := (gB s h).val.toNat % 128
    if h.im 6 6 == 1 then
      let sl := SMap.get {} (stripOf s (stripNo core)).slots slot
      ensure (sl.st == .claimed && sl.asid == (here s).asid.toNat) 0x10
    let s ← get
    match freeUnit s with
    | none => throw (.trap 0x13 0 7)
    | some k =>
      let slices := (List.range 4).map (shapeSlice x (streamRank s))
      let u : SUnit := {
        cid := s.cur
        v := h.d.toNat
        tcap := tcap
        dims := (List.range 4).map (shapeDim x)
        strs := (List.range 4).map (shapeStr x)
        starts := slices.map (·.1)
        lens := slices.map (·.2)
        esz := 2 ^ h.im 5 4
        write := write
        cv := cv
        fmt := if cv then f else 0
        slot := if h.im 6 6 == 1 then some slot else none
        pattern := leBytes 128 x }
      upd (setUnit core k (some u))
    pure .seq) s

/-- A register read as zero, present. -/
def zeroV (v : Nat) (s : State) : State := modHere (fun x => arriveV (writeV x v 0) v) s

/-- SUNBIND (R445). -/
def execSunbind (h : Head) (s : State) : Host.Outcome State Fault Refusal :=
  runHead Rows.sunbind h (Use.ofRow Rows.sunbind h).nameV (do
    let s ← get
    let v := h.a.toNat
    match unitOf s s.cur v with
    | none => pure ()
    | some (k, u) =>
      if u.write then
        if !u.out.isEmpty then throw .stall
        match u.failed with
        | some (a, sub) => throw (.stream v a sub)
        | none => pure ()
      upd (zeroV v ∘ setUnit (coreNo s.cur) k none)
    pure .seq) s

/-- The status word of a stream (R446). -/
def sstatWord (k : Nat) (u : SUnit) : W64 :=
  let b (x : Bool) (n : Nat) : Nat := if x then 2 ^ n else 0
  BitVec.ofNat 64 (SU.remain u % 2 ^ 32 * 2 ^ 32 + Nat.min u.ahead.length 4 * 2 ^ 12 + k % 8 * 2 ^ 9 + b u.cv 8 +
    (u.esz / 2) * 2 ^ 6 + b u.failed.isSome 4 + b u.overrun 3 + b u.endSeen 2 + b u.write 1 + 1)

/-- SSTAT (R446). -/
def execSstat (h : Head) (s : State) : Host.Outcome State Fault Refusal :=
  runHead Rows.sstat h (Use.ofRow Rows.sstat h).nameV (do
    let s ← get
    let w : W64 := match unitOf s s.cur h.a.toNat with
      | some (k, u) => sstatWord k u
      | none => 0
    addPend (dstG h.d) [] (.cst (Cap.ofInt w)) 4
    pure .seq) s

end Sys2Proof.Machine
end

