-- ==== Sys2Proof/Machine/Matrix.lean ====
section
/-! DEFINITION. Operand slots, MMA and the accumulator heads (R182 to R186 of 07_cores_strips.md, R449 to R459 of
16_isa_matrix_system.md), with the start and the retirement of an array operation. -/

namespace Sys2Proof.Machine

/-! ### Slots -/

/-- The strip of the issuing context. -/
def myStrip (s : State) : Nat := stripNo (coreNo s.cur)
/-- Slot `k` of the issuing strip, and its change. -/
def slotNow (s : State) (k : Nat) : Slot := SMap.get {} (stripOf s (myStrip s)).slots k
def modSlot (strip k : Nat) (f : Slot → Slot) (s : State) : State :=
  modStrip strip (fun t => { t with slots := SMap.set {} t.slots k (f (SMap.get {} t.slots k)) }) s
/-- The slot is CLAIMED in the firing's ASID (R185). -/
def claimedHere (s : State) (k : Nat) : Bool :=
  (slotNow s k).st == .claimed && (slotNow s k).asid == (here s).asid.toNat

/-- Take the written bytes of a slot away. -/
def wipeSlot (k : Nat) (t : StripSt) : StripSt :=
  { t with opmem := t.opmem.filter (fun e => e.1 / 16384 != k), scale := t.scale.filter fun e => e.1 / 1024 != k }

/-- A claim of a FREE slot: zero-filled when the ASID differs from the last claimer's, else its contents are
undefined; the format is unset (R185, R450). -/
def claimSlot (strip k asid : Nat) (s : State) : State :=
  let same := (SMap.get {} (stripOf s strip).slots k).asid == asid
  let new : Slot := { st := .claimed, asid := asid, fill := if same then some s.freeCtr else none }
  let s := modSlot strip k (fun _ => new) (modStrip strip (wipeSlot k) s)
  if same then { s with freeCtr := s.freeCtr + 17408 } else s

/-- A slot becomes FREE, and the contexts that wait for it are ready (R185, R383). -/
def freeSlot (strip k : Nat) (s : State) : State :=
  wakeIf (fun c x => x.wait == .waiteSlot k && !isThread c && stripNo (coreNo c) == strip)
    (modSlot strip k (fun t => { t with st := .free }) s)

/-- SCLAIM (R450). -/
def execSclaim (h : Head) (s : State) : Host.Outcome State Fault Refusal :=
  runHead Rows.sclaim h (Use.ofRow Rows.sclaim h) (do
    let s ← get
    let k := (opA s h).toNat % 128
    match (slotNow s k).st with
    | .releasing => throw (.wait (.waiteSlot k))
    | .claimed => raise 0x0F
    | .free => upd (claimSlot (myStrip s) k (here s).asid.toNat)
    pure .seq) s

/-- SREL (R185, R450). -/
def execSrel (h : Head) (s : State) : Host.Outcome State Fault Refusal :=
  runHead Rows.srel h (Use.ofRow Rows.srel h) (do
    let s ← get
    let k := (opA s h).toNat % 128
    ensure (claimedHere s k) 0x10
    if slotNamed s (myStrip s) k then upd (modSlot (myStrip s) k fun t => { t with st := .releasing })
    else upd (freeSlot (myStrip s) k)
    pure .seq) s

/-- Kt of a format (R182). -/
def ktOf (f : W64) : Nat := if Fmt.cls f != 1 then 64 else if Fmt.bits f ≤ 4 then 256 else 128
/-- The checks of SFMT on the copy (R310, R451). -/
def slotFmtBad (f : W64) (c : Cap) : Bool :=
  fmtBad f c || !(Fmt.cls f == 1 || Fmt.cls f == 3 || Fmt.cls f == 4) ||
    (scaled c && (CapF.k c < 4 || 8 < ktOf f / 2 ^ CapF.k c))

/-- SFMT (R451). -/
def execSfmt (h : Head) (s : State) : Host.Outcome State Fault Refusal :=
  runHead Rows.sfmt h (Use.ofRow Rows.sfmt h) (do
    let s ← get
    let k := (opA s h).toNat % 128
    let c := gB s h
    let f := fmtOf s c
    if slotFmtBad f c then illegal 0x05
    ensure (claimedHere s k) 0x10
    ensure (!slotNamed s (myStrip s) k) 0x0F
    upd (modSlot (myStrip s) k fun t => { t with fmt := some (f, CapF.smode c, CapF.k c) })
    pure .seq) s

/-! ### Rows (R452, R459) -/

/-- The checks of eight rows in the ranks of R299, with the row in TRAPINFO bits 10:8; `mis` gives rows whose
element index is not as the head asks, `extra` the scale bytes. -/
def rowAccess (c : Cap) (rows : List Nat) (n align : Nat) (write : Bool) (mis : Nat → Bool) (extra : List LaneAcc) :
    X (List Span) := do
  let accs : List LaneAcc := rows.zipIdx.map fun (a, r) => { lane := r, va := a, n := n }
  failAt accs (fun _ => !c.tag) 0x06 0
  failAt accs (fun l => !CapF.inBounds c l.va n) 0x07 0
  failAt accs (fun _ => !CapF.holds c (if write then CapF.ST else CapF.LD)) 0x08 0
  failAt accs (fun l => l.va % align != 0 || mis l.va) 0x09 0
  let parts : List LaneAcc := (accs.map fun l => (lineParts l.va (n / 64 + 2) n).map fun (a, k) =>
    ({ lane := l.lane, va := a, n := k } : LaneAcc)).flatten ++ extra
  let spans ← laneSpans (if write then kWrite else kRead) parts
  let s ← get
  unless CapF.holds c CapF.SYS do
    match (parts.zip spans).find? fun (_, sp) => sysSpace s sp.pa with
    | some (l, _) => raise 0x08 l.va (l.lane * 256 + 2)
    | none => pure ()
  failAt (accs ++ extra) (fun l => lockHit s l.va l.n write) 0x0C 0
  pure spans

/-- The addresses of eight rows from `ea` with a signed stride. -/
def rowAddrs (ea : Nat) (stride : Int) : List Nat :=
  (List.range 8).map fun r => (((ea : Nat) + (r : Nat) * stride : Int) % (2 ^ 57 : Nat)).toNat
/-- The effective address of a row head: gA or gB with the T2 offset (R452, R458). -/
def rowBase (h : Head) (c : Cap) : Nat :=
  ((CapF.addr c : Int) + (if h.form == .T2 then (Head.sext64 h).toInt else 0)) % (2 ^ 57 : Nat) |>.toNat

/-- SLOAD (R452). -/
def execSload (h : Head) (s : State) : Host.Outcome State Fault Refusal :=
  runHead Rows.sload h (Use.ofRow Rows.sload h).srcD (do
    let s ← get
    let k := (opA s h).toNat % 128
    ensure (claimedHere s k) 0x10
    let c := gB s h
    match (slotNow s k).fmt with
    | none => illegal 0x0A
    | some fm =>
      if fm != (fmtOf s c, CapF.smode c, CapF.k c) then illegal 0x05
      let f := fm.1
      let rows := rowAddrs (rowBase h c) (gD s h).val.toInt
      let per := Nat.min (2 ^ CapF.k c) (ktOf f)
      let nsc := if scaled c then ktOf f / per else 0
      let scs : List LaneAcc := (rows.zipIdx.map fun (a, r) => (List.range nsc).map fun (i : Nat) =>
        ({ lane := r, va := scaleAddr c (elemIndex f c a / (2 ^ CapF.k c : Nat) + (i : Int)), n := 1, data := false } : LaneAcc)).flatten
      let spans ← rowAccess c rows 128 64 false (fun a => scaled c && elemIndex f c a % (per : Nat) != 0) scs
      let s ← get
      if slotNamed s (myStrip s) k then throw .stall
      issueLoad (.slotRow k (rankNo (coreNo s.cur)) (scaled c)) spans (.rows nsc)
    pure .seq) s

/-! ### Banks -/

/-- An unretired MMA of the rank, or a load of a context of the core, names the bank (R458). -/
def bankHeld (s : State) (b : Nat) : Bool :=
  let core := coreNo s.cur
  let t := stripOf s (stripNo core)
  bankBusy s core b || (t.mmaWait.any fun w => w.rank == rankNo core && w.bank == b) ||
    (List.range 8).any fun j => (ctxOf s (core * 8 + j)).pend.any fun p => p.dst == .bank (bankPa core b)

/-- A head of the accumulator group waits in place while its bank is in use. -/
def bankReady (b : Nat) : X Unit := do
  if bankHeld (← get) b then throw .stall

/-- AZERO (R458). -/
def execAzero (h : Head) (s : State) : Host.Outcome State Fault Refusal :=
  runHead Rows.azero h {} (do
    bankReady h.d.toNat
    let mask := if h.form == .T2 then h.im 7 0 else 0xFF
    upd fun s => (List.range 8).foldl (fun s r =>
      if mask / 2 ^ r % 2 == 1 then poke (bankPa (coreNo s.cur) h.d.toNat + 512 * r) 512 0 s else s) s
    pure .seq) s

/-- The stride of ASTORE and ALOAD. -/
def bankStride (s : State) (h : Head) : Int := (gB s h).val.toInt

/-- The lines that an ASTORE stores, once its rows pass their checks and its bank is not in use (R458, R459). -/
def astoreLines (h : Head) : X (List SbEntry) := do
  let s ← get
  let rows := rowAddrs (rowBase h (gA s h)) (bankStride s h)
  let spans ← rowAccess (gA s h) rows 512 4 true (fun _ => false) []
  bankReady h.d.toNat
  let s ← get
  pure (storeEntries s s.cur false spans (peek s (bankPa (coreNo s.cur) h.d.toNat) 4096))

/-- ASTORE: one line of it enters the store buffer at each step; the checks are made before the first (R459). -/
def execAstore (h : Head) (s : State) : Host.Outcome State Fault Refusal :=
  runHead Rows.astore h { rg := [h.a.toNat, h.b.toNat] } (do
    let s ← get
    let es ← if (here s).storing.isEmpty then astoreLines h else pure (here s).storing
    match es with
    | [] => pure .seq
    | e :: r =>
      pushStores [e]
      upd (modHere fun x => { x with storing := r })
      pure (if r.isEmpty then .seq else .again)) s

/-- ALOAD (R459). -/
def execAload (h : Head) (s : State) : Host.Outcome State Fault Refusal :=
  runHead Rows.aload h { rg := [h.a.toNat, h.b.toNat] } (do
    let s ← get
    let rows := rowAddrs (rowBase h (gA s h)) (bankStride s h)
    let spans ← rowAccess (gA s h) rows 512 4 false (fun _ => false) []
    bankReady h.d.toNat
    let s ← get
    issueLoad (.bank (bankPa (coreNo s.cur) h.d.toNat)) spans (.rows 0)
    pure .seq) s

/-- ASCALE (R458). -/
def execAscale (h : Head) (s : State) : Host.Outcome State Fault Refusal :=
  runHead Rows.ascale h { rg := if h.form == .T2 then [] else [h.a.toNat] } (do
    bankReady h.d.toNat
    let s ← get
    let pa := bankPa (coreNo s.cur) h.d.toNat
    let m : Val :=
      if h.form == .T2 then .num false 1 (signedOf 8 (h.im 7 0)) else decodeIeee fp32 ((gA s h).val.toNat % 2 ^ 32)
    let x := peek s pa 4096
    let ys := (List.range 1024).map fun i =>
      let (v, g) := mulVal (decodeIeee fp32 (x / 2 ^ (32 * i) % 2 ^ 32)) m
      let (c, k) := roundIeee fp32 v
      (c, g ||| k)
    upd (poke pa 4096 (ys.foldr (fun y acc => y.1 + 2 ^ 32 * acc) 0))
    flags (ys.foldl (fun g y => g ||| y.2) 0)
    pure .seq) s

/-- AMOVV (R458). -/
def execAmovv (h : Head) (s : State) : Host.Outcome State Fault Refusal :=
  let into := h.im 5 5 == 1
  runHead Rows.amovv h (if into then { rv := [h.d.toNat] } else { wv := [h.d.toNat] }) (do
    bankReady h.a.toNat
    let s ← get
    let pa := bankPa (coreNo s.cur) h.a.toNat + 512 * h.im 2 0 + 128 * h.im 4 3
    if into then upd (poke pa 128 (readV (here s) h.d.toNat).toNat)
    else setV h.d (BitVec.ofNat 1024 (peek s pa 128))
    pure .seq) s

/-! ### MMA (R184, R454 to R457) -/

/-- The format pair F names (R454). -/
def pairFmt (f : Nat) (x : Option (W64 × Nat × Nat)) : Bool :=
  match x with
  | none => false
  | some (r, _, _) =>
    match f with
    | 0 => Fmt.cls r == 1 && 5 ≤ Fmt.bits r
    | 1 => Fmt.cls r == 1 && Fmt.bits r ≤ 4
    | 2 => Fmt.cls r == 3
    | _ => Fmt.cls r == 4
/-- Cycles of an array operation (R454). -/
def arrayTime (f : Nat) : Nat := if f ≤ 1 then 128 else 256

/-- Every rank of a strip waits with the same slots and format pair (R184). -/
def mmaAgree (ws : List MmaWait) : Bool :=
  match ws with
  | [] => true
  | w :: r => r.all fun x => x.slotA == w.slotA && x.slotB == w.slotB && x.f == w.f

/-- Answer a rank's wait: its MMA completes issue, with an outstanding result, or it traps (R184). -/
def mmaAnswer (ok : Bool) (c : Nat) (s : State) : State :=
  modCtx c (fun x =>
    if ok then
      { x with
        st := if c == s.cur then x.st else .ready
        granted := c != s.cur
        pend := x.pend ++ [{ id := x.nextPend, dst := .none, fin := .mma }]
        nextPend := x.nextPend + 1
        fir := x.fir.map fun f => { f with mmaOrd := f.mmaOrd + 1 } }
    else
      { x with
        st := if c == s.cur then x.st else .ready
        granted := c != s.cur
        fir := x.fir.map fun f => { f with mmaBad := true } }) s

/-- The sixteenth rank has reached its MMA: an array operation forms, or every rank traps (R184). -/
def mmaForm (strip : Nat) (s : State) : State :=
  let ws := (stripOf s strip).mmaWait
  let ok := mmaAgree ws
  let w := ws.headD { cid := 0, rank := 0, ord := 0, slotA := 0, slotB := 0, f := 0, bank := 0, z := false }
  let op : ArrayOp := { slotA := w.slotA, slotB := w.slotB, f := w.f,
                        parts := ws.map fun x => { rank := x.rank, cid := x.cid, bank := x.bank, z := x.z } }
  let s := modStrip strip (fun t => { t with mmaWait := [], ops := if ok then t.ops ++ [op] else t.ops }) s
  ws.foldl (fun s x => mmaAnswer ok x.cid s) s

/-- A row of a slot's share is being loaded by the issuing context, or waits in a stream (R453). -/
def slotLoading (s : State) (k : Nat) : Bool :=
  (here s).pend.any fun p =>
    match p.dst with
    | .slotRow j _ _ => j == k
    | _ => false

/-- The rank's share of a slot holds a poisoned row (R452). -/
def slotPoisoned (s : State) (k : Nat) : Bool := (slotNow s k).bad.contains (rankNo (coreNo s.cur))

/-- The body of MMA. -/
def mmaBody (h : Head) : X Next := do
  let s ← get
  if (firOf s s.cur).mmaBad then illegal 0x03
  if ← answered .mma then return .seq
  if !gangFiring s then illegal 0x02
  if !(firOf s s.cur).gangPassed then illegal 0x0A
  let a := (opA s h).toNat % 128
  let b := (gB s h).val.toNat % 128
  ensure (claimedHere s a && claimedHere s b) 0x10
  if !(pairFmt h.f.toNat (slotNow s a).fmt && pairFmt h.f.toNat (slotNow s b).fmt) then illegal 0x05
  let core := coreNo s.cur
  let strip := stripNo core
  if slotLoading s a || slotLoading s b then throw .stall
  if slotPoisoned s a || slotPoisoned s b then raise 0x12
  if 2 ≤ ((stripOf s strip).ops.filter fun o => o.parts.any (·.rank == rankNo core)).length then throw .stall
  if (List.range 8).any (fun j => (ctxOf s (core * 8 + j)).pend.any fun p => p.dst == .bank (bankPa core h.d.toNat)) then throw .stall
  let w : MmaWait := { cid := s.cur, rank := rankNo core, ord := (firOf s s.cur).mmaOrd, slotA := a, slotB := b,
                       f := h.f.toNat, bank := h.d.toNat, z := h.im 0 0 == 1 }
  upd (modStrip strip fun t => { t with mmaWait := t.mmaWait.filter (·.rank != w.rank) ++ [w] })
  let t := stripOf (← get) strip
  if t.mmaWait.length == 16 then
    upd (mmaForm strip)
    if mmaAgree t.mmaWait then pure .seq else throw (.trap 0x02 0 3)
  else throw (.wait .mma)

/-- The trap for a poisoned share is taken once (R452). -/
def clearBad (h : Head) (s t : State) : State :=
  let a := (opA s h).toNat % 128
  let b := (gB s h).val.toNat % 128
  let clear (k : Nat) (t : State) : State :=
    modSlot (myStrip s) k (fun x => { x with bad := x.bad.filter (· != rankNo (coreNo s.cur)) }) t
  match (mmaBody h).run s with
  | .error (.trap 0x12 _ _) _ => if (here s).pend.isEmpty then clear a (clear b t) else t
  | _ => t

/-- MMA (R456). A mismatch traps every rank: the others find it when they go on. -/
def execMma (h : Head) (s : State) : Host.Outcome State Fault Refusal :=
  let u := Use.ofRow Rows.mma h
  match issueStop s Rows.mma u with
  | some st => .next (onStop s s st)
  | none =>
    match perform Rows.mma h u (mmaBody h) s with
    | .ok _ t => .next t
    | .error (.trap 0x02 a 3) t =>
      let x := here s
      let mine : Ctx := { x with fir := x.fir.map fun f => { f with mmaBad := true } }
      .next (trapAt { s with strips := t.strips, ctxs := SMap.set {} t.ctxs s.cur mine } 0x02 a 3)
    | .error st t => .next (clearBad h s (onStop s t st))

/-- The value of element `k` of a row of a slot (R312, R317, R321, R455). -/
def slotElem (t : StripSt) (slot row k : Nat) : Val :=
  match (SMap.get {} t.slots slot).fmt with
  | none => .nan
  | some (f, sm, kk) =>
    let at_ := slot * 16384 + row * 128
    let code : Nat :=
      if Fmt.elemBits f == 4 then (opByte t false (at_ + k / 2)).toNat / (if k % 2 == 1 then 16 else 1) % 16
      else opPeek t (at_ + k * (Fmt.elemBits f / 8)) (Fmt.elemBits f / 8)
    let v := matrixElem f code
    if sm == 1 then
      scaleVal (opByte t true (slot * 1024 + row * 8 + (if 2 ^ kk ≤ ktOf f then k / 2 ^ kk else 0))).toNat v
    else v

/-- One element of C: FP32 code and flags (R455). -/
def mmaElem (t : StripSt) (o : ArrayOp) (kt row c acc : Nat) : Nat × FFlags :=
  groupsSum 16 ((List.range kt).map fun k => mulVal (slotElem t o.slotA row k) (slotElem t o.slotB c k)) acc

/-- The result of one rank's part: its bank as a number, and its flags (R455). -/
def mmaPart (t : StripSt) (o : ArrayOp) (p : MmaPart) (old : Nat) : Nat × FFlags :=
  let kt := match o.f with
    | 0 => 128
    | 1 => 256
    | _ => 64
  let ys := (List.range 1024).map fun i =>
    mmaElem t o kt (8 * p.rank + i / 128) (i % 128) (if p.z then 0 else old / 2 ^ (32 * i) % 2 ^ 32)
  (ys.foldr (fun y acc => y.1 + 2 ^ 32 * acc) 0, ys.foldl (fun g y => g ||| y.2) 0)

/-- The last cycle of a started operation. -/
def opLast (o : ArrayOp) : Option Nat := o.started.map fun c => c + arrayTime o.f - 1

/-- The oldest operation that has not started starts when those before it have ended (R457). -/
def startOp (now : Nat) : List ArrayOp → List ArrayOp
  | [] => []
  | o :: r =>
    match opLast o with
    | none => { o with started := some now } :: r
    | some e => if e < now then o :: startOp now r else o :: r

/-- ARRAY_OPERATION_START. -/
def execArrayOperationStart (strip : Nat) (s : State) : Host.Outcome State Fault Refusal :=
  .next (modStrip strip (fun t => { t with ops := startOp s.cyc t.ops }) s)

/-- A rank's part retires: bank, flags, and the end of its outstanding result; the banks of an operation that was struck
are undefined (R457, log 3). -/
def retirePart (strip : Nat) (t : StripSt) (o : ArrayOp) (s : State) (p : MmaPart) : State :=
  let pa := bankPa (strip * 16 + p.rank) p.bank
  let (x, g) := mmaPart t o p (peek s pa 4096)
  let (x, s) := if o.struck then freshBytes 4096 s else (x, s)
  let drop (ps : List Pend) : List Pend := ps.eraseP fun q => q.fin == .mma
  let s := poke pa 4096 x s
  wakeReleases (resultWakes p.cid (modCtx p.cid (fun c => { c with pend := drop c.pend, fpflags := c.fpflags ||| g }) s))

/-- RELEASING slots that no MMA names any more are FREE (R185). -/
def settleSlots (strip : Nat) (s : State) : State :=
  (List.range 128).foldl (fun s k =>
    if (SMap.get {} (stripOf s strip).slots k).st == .releasing && !slotNamed s strip k then freeSlot strip k s else s) s

/-- MMA_RETIRE: 24 cycles after the operation's last cycle (R457). -/
def execMmaRetire (strip : Nat) (s : State) : Host.Outcome State Fault Refusal :=
  let t := stripOf s strip
  match t.ops with
  | [] => .next s
  | o :: r =>
    if (opLast o).any fun e => e + 24 ≤ s.cyc then
      let s := o.parts.foldl (retirePart strip t o) s
      .next (settleSlots strip (modStrip strip (fun t => { t with ops := r }) s))
    else .next s

end Sys2Proof.Machine
end

