-- ==== Sys2Proof/Machine/Life.lean ====
section
/-! DEFINITION. The life of a firing outside its heads: placement (R134, R158 to R161 of 06_execution_model.md), mirror
partners (R199 of 07_cores_strips.md), abort (R131 of 05_command_stream.md, R171), and pre-emption with the save image
(R166 to R169, R305 to R308 of 10_translation_traps.md). -/

namespace Sys2Proof.Machine

/-! ### The firing queue (R160, R161) -/

/-- A context in which a firing may be placed: free, and its core held by no lens (R190) and not being moved (R19). -/
def ctxFree (s : State) (core j : Nat) : Bool :=
  (coreOf s core).lensLead.isNone && (stripOf s (stripNo core)).remap.isNone && (ctxOf s (core * 8 + j)).st == .free && (ctxOf s (core * 8 + j)).fir.isNone
/-- The lowest free context from 0 to 6. -/
def freePlace (s : State) (core : Nat) : Option Nat := (List.range 7).find? fun j => ctxFree s core j
/-- The pool holds the chunks of an allotment (R158). -/
def chunksFree (s : State) (core cch vch : Nat) : Bool :=
  cch - 1 ≤ (coreOf s core).poolC && vch ≤ (coreOf s core).poolV

/-- Queue entries in the order of placement: priority, then age (R160). -/
def queueOrder (q : List QFiring) : List QFiring :=
  ([3, 2, 1, 0].map fun p => q.filter fun e => Nat.min 3 e.fir.prio == p).flatten
/-- Another firing of the same sweep of gangs is placed or saved on the core: one at a time (R183). -/
def gangHeld (s : State) (core : Nat) (f : Firing) : Bool :=
  (sweepOf s f).any fun w => hdrGv w.header &&
    (((List.range 7).any fun j => (ctxOf s (core * 8 + j)).fir.any fun g => g.path == f.path) ||
      (coreOf s core).saved.any fun v => v.fir.path == f.path)
/-- The entry that placement takes next; a restored firing whose own context is not free, and a firing whose gang's
predecessor is still on the core, let the next one pass. -/
def queueHead (s : State) (core : Nat) : Option QFiring :=
  (queueOrder (coreOf s core).fq).find? fun e =>
    match e.restoreTo with
    | some c => ctxFree s core (c % 8)
    | none => !gangHeld s core e.fir
/-- Placement finds the chunks of an allotment: parked GROWs are served before a firing that takes chunks of the pool
(R159, R170). -/
def placeable (s : State) (core cch vch : Nat) : Bool :=
  chunksFree s core cch vch && ((cch == 1 && vch == 0) || (growNext s core).isNone)

/-! ### Mirror partners (R199) -/

/-- The partner core of a primary: the east neighbour, or the west one in logical column 31 or when the east
neighbour's strip does not compute. -/
def partnerCore (s : State) (core : Nat) : Option Nat :=
  let east := if core / 32 % 32 == 31 then none else (neighbour core 1).filter (computeCore s)
  match east with
  | some k => some k
  | none => (neighbour core 3).filter (computeCore s)

/-- The context of a partner core that can take a firing's copy. -/
def partnerPlace (s : State) (core cch vch : Nat) : Option Nat :=
  match partnerCore s core with
  | none => none
  | some k => if chunksFree s k cch vch then (freePlace s k).map fun j => k * 8 + j else none

/-- Checked execution starts: the partner's context and chunks are taken with a copy of the firing's registers, and the
checkpoint of the first interval (R199, R201, R466). -/
def openPair (c part : Nat) (s : State) : State :=
  let f := firOf s c
  let s := modFir c (fun f => { f with paired := true }) s
  let s := modCore (coreNo part) (fun k => { k with poolC := k.poolC - (f.cch - 1), poolV := k.poolV - f.vch }) s
  let s := modCtx part (fun x => { withRegs x (ctxOf s c) with st := .parked, wait := .pair, chunks := some (f.cch, f.vch) }) s
  let p : Pair := { prim := c, part := part, started := true, checkP := ctxOf s part
                    check := { ctxOf s c with wait := .none, granted := false, fetched := [] } }
  modGrp (fun g => { g with pairs := g.pairs.filter (·.prim != c) ++ [p] }) s

/-- The PAIRLESS record (R199, R304). -/
def pairless (core handle : Nat) (s : State) : State :=
  supRecord { code := 0x42, source := 0, unit := core, handle := handle } s

/-! ### Placement (R134) -/

/-- The next generation of a context, past those of saved firings (R156). -/
def nextGen (s : State) (core j : Nat) : Nat → Nat → Nat
  | 0, g => g
  | n + 1, g =>
    let used := (coreOf s core).saved.any fun v => v.cid == core * 8 + j && v.fir.handle % 256 == g
    if used then nextGen s core j n ((g + 1) % 256) else g

/-- The scratchpad capability and the launch-area capability (R134). -/
def spadCap (core : Nat) : Cap := CapF.make (CapF.LD + CapF.ST + CapF.LDC + CapF.STC) (windowOf core) 0x3F000
def launchCap (core : Nat) : Cap := CapF.make CapF.LD (windowOf core + 0x3F000) 0x1000
/-- The capability at the head entry of an input FIFO. -/
def headCap (s : State) (core : Nat) (e : W64) : Cap :=
  if !fifoUsed e then Cap.null
  else
    let f := fifoOf s core (fifoNum e)
    let base := windowOf core + fifoBase f
    CapF.setAddr (CapF.make (CapF.LD + CapF.LDC) base (fifoEsz f * fifoCap f)) (base + fifoHead f * fifoEsz f)

/-- Mark every line of a firing's save range dirty (R306). -/
def dirtyRange (a : Actor) (core : Nat) (s : State) : State :=
  modCore core (fun k => { k with
    spDirty := (List.range (16 * a.splen)).foldl (fun m i => SMap.set false m (16 * a.spoff + i) true) k.spDirty }) s

/-- The start registers of a firing on its core (R134). -/
def startRegs (s : State) (core : Nat) (f : Firing) (given : List (Nat × Cap)) : List (Nat × Cap) :=
  match f.path with
  | .message => given
  | .fifo _ =>
    given ++ [(2, f.actor.data), (3, spadCap core)] ++
      (f.actor.ins.zipIdx.map fun (e, k) => (4 + k, headCap s core e))
  | _ => given ++ [(2, f.actor.data), (3, spadCap core)]

/-- Place a firing in a context that is free, with its chunks (R134, R158); the placement is an acquire at device scope
(R282). -/
def placeFir (core j : Nat) (f : Firing) (given : List (Nat × Cap)) (line : Nat) (s : State) : State :=
  let c := core * 8 + j
  let x := ctxOf s c
  let gen := nextGen s core j 255 ((x.gen.toNat + 1) % 256)
  let regs := startRegs s core f given
  let (pc, pv) := if j == 7 then (2, 1) else (1, 0)
  let s := modCore core (fun k => { k with poolC := k.poolC - (f.cch - pc), poolV := k.poolV - (f.vch - pv) }) s
  let x : Ctx := { idleCtx x with
    st := .ready
    gen := BitVec.ofNat 8 gen
    asid := f.asid
    pc := ⟨line, 1⟩
    m := [(0, 0xFFFFFFFF)]
    dirtyG := (List.range (8 * f.cch)).tail.map fun r => (r, true)
    dirtyV := (List.range (4 * f.vch)).map fun r => (r, true)
    fir := some { f with handle := mkHandle s.dev core j gen } }
  let put (x : Ctx) (r : Nat × Cap) : Ctx := if r.1 < 8 * f.cch then writeG x r.1 r.2 else x
  l1Acquire core (noteStall core (dirtyRange f.actor core (setCtx s c (regs.foldl put x))))

/-- FIRING_PLACE (R134, R152, R158 to R160, R199): the head of the firing queue, or a message in context 7. -/
def placeQueued (core : Nat) (q : QFiring) (s : State) : State :=
  let f := q.fir
  match freePlace s core with
  | none => s
  | some j =>
    if !placeable s core f.cch f.vch then s
    else
      let take (s : State) : State := modCore core (fun k => { k with fq := k.fq.erase q }) s
      if !f.actor.checked then take (placeFir core j f q.starts (CapF.addr f.actor.code) s)
      else if (partnerCore s core).isNone then
        if q.told then s
        else pairless core 0 (modCore core (fun k => { k with fq := k.fq.map fun e => if e == q then { e with told := true } else e }) s)
      else match partnerPlace s core f.cch f.vch with
        | none => s
        | some part => openPair (core * 8 + j) part (take (placeFir core j f q.starts (CapF.addr f.actor.code) s))

/-- The start registers of a message firing (R134). -/
def msgRegs (s : State) (core : Nat) (m : Msg) : List (Nat × Cap) :=
  [(1, Cap.ofInt m.target), (2, (coreOf s core).hdcap), (3, spadCap core)] ++
    (m.payload.zipIdx.map fun (c, k) => (4 + k, c)) ++
    [(12, Cap.ofInt (BitVec.ofNat 64 (m.sender + (if m.reply then 2 ^ 63 else 0))))]

/-- The firing of a message (R137, R152). -/
def msgFiring (m : Msg) : Firing :=
  { path := .message, prio := 3, cch := 2, vch := 1, asid := m.asid, fn := m.fn, queue := m.queue, packet := m.packet }

/-- The oldest entry of the inbound queue takes context 7 when it is free (R152). -/
def placeMsg (core : Nat) (s : State) : State :=
  let k := coreOf s core
  if !((stripOf s (stripNo core)).remap.isNone && (ctxOf s (core * 8 + 7)).st == .free && (ctxOf s (core * 8 + 7)).fir.isNone) then s
  else
    match k.inbound with
    | m :: rest => placeFir core 7 (msgFiring m) (msgRegs s core m) m.line (setCore s core { k with inbound := rest })
    | [] => s

/-! ### Abort (R131, R171) -/

/-- A firing parked on fault records or copied by engines leaves them (R131, R261). -/
def forget (handle : Nat) (s : State) : State :=
  cancelCopies handle (leaveFaults (fun p => p == .ctx handle || p == .save handle) s)

/-- A teardown or a containment strikes a firing that takes part in an array operation: the strip's banks are undefined, and
so is what the operations leave in them (R457, log 3). -/
def strikeBanks (c : Nat) (s : State) : State :=
  let strip := stripNo (coreNo c)
  if (stripOf s strip).ops.any fun o => o.parts.any (·.cid == c) then
    (List.range 64).foldl (fun s i =>
      let (x, s) := freshBytes 4096 s
      poke (bankPa (16 * strip + i / 4) (i % 4)) 4096 x s)
      (modStrip strip (fun t => { t with ops := t.ops.map fun o => { o with struck := true } }) s)
  else s

/-- Abort the firing placed in a context. -/
def abortPlaced (c : Nat) (s : State) : State :=
  match (ctxOf s c).fir with
  | none => s
  | some f => endFiring c stAborted (withdrawBar c (forget f.handle (strikeBanks c s)))

/-- Abort a saved firing: its entry and image are given up. -/
def abortSaved (v : Saved) (status : Nat) (s : State) : State :=
  let core := coreNo v.cid
  let s := forget v.fir.handle s
  let s := modCore core (fun k => { k with fq := k.fq.filter fun q => !(q.restoreTo.isSome && q.fir.handle == v.fir.handle) }) s
  informEnd core v.fir stAborted (dropSaved core v.fir.handle status s)

/-- Abort a queued firing. -/
def abortQueued (core : Nat) (q : QFiring) (s : State) : State :=
  informEnd core q.fir stAborted (modCore core (fun k => { k with fq := k.fq.erase q }) s)

/-- Abort every firing of a core that satisfies `p`, placed, saved or queued. -/
def abortCore (core : Nat) (p : Firing → Bool) (s : State) : State :=
  let s := (List.range 8).foldl (fun s j => if (ctxOf s (core * 8 + j)).fir.any p then abortPlaced (core * 8 + j) s else s) s
  let s := ((coreOf s core).saved.filter fun v => p v.fir).foldl (fun s v => abortSaved v 2 s) s
  ((coreOf s core).fq.filter fun q => q.restoreTo.isNone && p q.fir).foldl (fun s q => abortQueued core q s) s

/-! ### Stopping for a save (R166 to R168) -/

/-- The null SAVE of a firing (R166). -/
def noSave (f : Firing) : Bool := !f.actor.save.tag
/-- Requeue entries of a core in use: entries that wait, and saves whose firings will take one (R160, R166). -/
def requeueUsed (s : State) (core : Nat) : Nat :=
  ((coreOf s core).fq.filter fun q => q.restoreTo.isSome).length +
    ((coreOf s core).saved.filter fun v => !v.held && !v.complete).length
/-- The save of the firing in a context that has been asked for. -/
def saveOf (s : State) (c : Nat) : Option Saved :=
  (coreOf s (coreNo c)).saved.find? fun v => v.cid == c && (ctxOf s c).fir.any fun f => f.handle == v.fir.handle
def modSaved (core handle : Nat) (g : Saved → Saved) (s : State) : State :=
  modCore core (fun k => { k with saved := k.saved.map fun v => if v.fir.handle == handle then g v else v }) s

/-- Ask for the save of a context's firing. -/
def askSave (c : Nat) (held : Bool) (who : Option (Nat × Nat)) (s : State) : State :=
  let f := firOf s c
  modCore (coreNo c) (fun k => { k with saved := k.saved ++ [{ cid := c, fir := f, asid := (ctxOf s c).asid, held := held, requester := who }] }) s

/-- The context stands at an instruction boundary at which it can be stopped: no event of its wait has occurred, and
its wait is none that a pre-emption awaits (R163, R167). -/
def stoppable (s : State) (c : Nat) : Bool :=
  let x := ctxOf s c
  x.fir.isSome && x.st != .saving && !x.granted && x.storing.isEmpty && !unconfirmedOf s c &&
    (match x.wait with
      | .tag => !(s.ms.susp.any fun u => u.cid == c && u.ty == 2)
      | .remote _ _ => false
      | .compose _ => false
      | .pair => x.st != .waiting
      | _ => true)

/-- Stop a context for its save: barriers, gang, full/empty and MMA arrivals are withdrawn, a lens or a mirror pair
ends, and the context is SAVING (R163, R168, R172, R196, R203). -/
def stopNow (c : Nat) (s : State) : State :=
  let x := ctxOf s c
  let f := firOf s c
  let (keep, s) := withdrawDom c (withdrawBar c s)
  let s := modStrip (stripNo (coreNo c)) (fun t => { t with
    gang := t.gang.filter (·.2 != c), barmax := t.barmax.filter (·.2.1 != c), mmaWait := t.mmaWait.filter (·.cid != c) }) s
  let s := modMs (fun m => { m with feq := m.feq.filter (·.cid != c), susp := m.susp.filter fun u => !(u.cid == c && u.ty == 2) }) s
  let s := freeLens c (freePair c (leaveSlot c s))
  let s := modSaved (coreNo c) f.handle (fun v => { v with
    wait := x.wait
    keep := keep
    paired := f.paired
    fir := firOf s c
    units := (coreOf s (coreNo c)).units.filterMap fun (k, u) =>
      match u with
      | some u => if u.cid == c then some (k, u) else none
      | none => none }) s
  noteStall (coreNo c) (modCtx c (fun x => { x with st := .saving, wait := .none, granted := false, fetched := [] }) s)

/-- A context that is asked to save and stands at a boundary stops; a mirror pair first ends its interval (R203). -/
def tryStop (c : Nat) (s : State) : State :=
  if (saveOf s c).isNone || (ctxOf s c).st == .saving then s
  else if stoppable s c then stopNow c s
  else if unconfirmedOf s c && !(ctxOf s c).granted && (ctxOf s c).st != .waiting then beginWait c .pair (closeInterval c s)
  else s

/-! ### The image (R305, R306) -/

/-- Why a save or restore stops. -/
inductive SaveStop where
  | fault (va cause level : Nat) (kind : BitVec 8)
  | bad
  | held
  deriving DecidableEq, Repr
abbrev SX := EStateM SaveStop State

/-- A field of the image: offset, bytes (at most 16, inside one granule), value, capability tag. -/
structure Field where
  off : Nat
  n : Nat
  x : Nat
  tag : Bool := false
  deriving DecidableEq, Repr

/-- `16 * n` bytes of a number as fields from an offset. -/
def granules (off : Nat) : Nat → Nat → List Field
  | 0, _ => []
  | n + 1, x => { off := off, n := 16, x := x % 2 ^ 128 } :: granules (off + 16) n (x / 2 ^ 128)
def capNat (c : Cap) : Nat := c.w0.toNat + c.w1.toNat * 2 ^ 64
def capField (off : Nat) (c : Cap) : Field := { off := off, n := 16, x := capNat c, tag := c.tag }

/-- The row of a wait in the table of R163; none for a wait at whose boundary the firing is taken. -/
def waitRow (w : Wait) : Nat :=
  match w with
  | .waitt _ _ => 4
  | .waiteMsg | .waiteStr _ | .waiteRing _ | .waiteSlot _ => 5
  | .fullEmpty _ _ => 6
  | .barrier _ _ | .domBarrier _ _ => 7
  | .gang => 8
  | .grow _ _ | .pairPark => 9
  | .fault _ _ _ => 10
  | .mma => 13
  | _ => 0
/-- The operand of a wait (R305). -/
def waitOp (w : Wait) : Nat :=
  match w with
  | .waitt a b => a % 2 ^ 64 + b * 2 ^ 64
  | .waiteStr v => v
  | .waiteRing x => x
  | .waiteSlot k => k
  | .fullEmpty pa _ => pa
  | .barrier l _ => l
  | .domBarrier i _ => i
  | .grow _ n => n
  | .fault _ _ va => va
  | _ => 0

/-- The bits of a register set. -/
def bitSet (m : SMap Bool) : Nat := (m.map fun (k, b) => if b then 2 ^ k else 0).sum

/-- The header of an image (R305); `fault` is the number of the record that the firing is parked on. -/
def saveHeader (v : Saved) (x : Ctx) (fault : Nat) : Nat :=
  let f := x.fir.getD v.fir
  let state := if waitRow v.wait == 10 then 3 else if waitRow v.wait == 0 then 1 else 2
  let flags := (if x.sup then 1 else 0) + (if x.fl then 2 else 0) + (if f.gangPassed then 4 else 0) + (if v.paired then 8 else 0)
  let b (off x : Nat) : Nat := x * 2 ^ (8 * off)
  0x57534156 + b 0x04 1 + b 0x05 state + b 0x06 (waitRow v.wait) + b 0x07 flags + b 0x08 f.handle + b 0x10 v.asid.toNat +
    b 0x12 (f.prio % 256) + b 0x13 (f.cch % 16 + f.vch % 16 * 16) + b 0x14 (f.mmaOrd % 2 ^ 32) +
    b 0x18 ((x.pc.line + x.pc.head) % 2 ^ 64) + b 0x20 (waitOp v.wait % 2 ^ 128) + b 0x30 (f.wakes % 2 ^ 64) +
    b 0x38 (fault % 2 ^ 32) + b 0x3C ((f.saves + 1) % 2 ^ 32) + b 0x50 (f.actor.trape % 2 ^ 64) +
    b 0x58 (f.fn % 256 + f.queue % 1024 * 2 ^ 8) + b 0x5C ((v.units.map fun u => 2 ^ u.1).sum) + b 0x60 (bitSet x.armG) +
    b 0x68 (bitSet x.armV) + b 0x6C (Nat.min 4 x.hold.length)

/-- The control state of an image (R305). -/
def saveControl (x : Ctx) : Nat :=
  let b (off x : Nat) : Nat := x * 2 ^ (8 * off)
  x.trappc.toNat + b 0x08 x.trapcause.toNat + b 0x10 x.trapaddr.toNat + b 0x18 x.trapinfo.toNat + b 0x20 x.fpflags.toNat +
    ((List.range 8).map fun i => b (0x28 + 4 * i) (readM x i).toNat).sum +
    ((List.range 16).map fun i => b (0x48 + 8 * i) (readF x i).toNat).sum

/-- The 64 bytes of position and status of a stream: the position, then the word of SSTAT, its slot and its failure
(log 18). -/
def streamStatus (k : Nat) (u : SUnit) : Nat :=
  u.pos % 2 ^ 64 + (sstatWord k u).toNat * 2 ^ 64 + ((u.slot.map (· + 1)).getD 0) * 2 ^ 128 +
    ((u.failed.map (·.1)).getD 0) % 2 ^ 64 * 2 ^ 192 + ((u.failed.map (·.2)).getD 0) % 2 ^ 64 * 2 ^ 256

/-- A hold-area entry (R305). -/
def holdFields (base : Nat) (e : HoldEntry) : List Field :=
  [{ off := base, n := 16, x := e.reg % 64 + (if e.isV then 64 else 0) + e.sender * 2 ^ 64 }, capField (base + 0x10) e.cap] ++
    granules (base + 0x20) 6 0 ++ granules (base + 0x80) 8 e.vec.toNat
def holdBase (splen : Nat) : Nat := 0x5C00 + 1024 * splen

/-- A scratchpad line of the save range with its tags. -/
def spadFields (s : State) (core : Nat) (a : Actor) (i : Nat) : List Field :=
  let pa := windowOf core + 1024 * a.spoff + 64 * i
  (List.range 4).map fun k => { off := 0x5C00 + 64 * i + 16 * k, n := 16, x := peek s (pa + 16 * k) 16, tag := tagAt s (pa + 16 * k) }

/-- Everything a save writes (R167, R186, R306). -/
def imageFields (s : State) (v : Saved) : List Field :=
  let c := v.cid
  let x := ctxOf s c
  let core := coreNo c
  let f := v.fir
  let hd := saveHeader v x (((s.tr.faults.find? fun r => r.waiters.contains (.ctx f.handle)).map (·.id)).getD 0)
  let head := (granules 0 16 hd).map fun g => if g.off == 0x40 then capField 0x40 f.actor.code else g
  let streams := (v.units.map fun (k, u) =>
    (granules (0x200 + 192 * k) 8 (leNat u.pattern)).map (fun g => if g.off == 0x200 + 192 * k then { g with tag := u.tcap.tag } else g) ++
      granules (0x200 + 192 * k + 128) 4 (streamStatus k u)).flatten
  let gs := ((List.range (8 * f.cch)).filter fun r => r != 0 && SMap.get false x.dirtyG r).map fun r => capField (0x800 + 16 * r) (readG x r)
  let vs := (((List.range (4 * f.vch)).filter fun r => SMap.get false x.dirtyV r).map fun r => granules (0xC00 + 128 * r) 8 (readV x r).toNat).flatten
  let banks := if f.gangPassed then granules 0x1C00 1024 (peek s (windowOf core + 0x200000) 0x4000) else []
  let spad := (((List.range (16 * f.actor.splen)).filter fun i => SMap.get false (coreOf s core).spDirty (16 * f.actor.spoff + i)).map
    (spadFields s core f.actor)).flatten
  let hold := (x.hold.zipIdx.map fun (e, i) => holdFields (holdBase f.actor.splen + 256 * i) e).flatten
  head ++ granules 0x100 16 (saveControl x) ++ streams ++ gs ++ vs ++ banks ++ spad ++ hold

/-! ### Writing and reading an image (R307, R308) -/

/-- SAVE holds what the image needs (R308). -/
def saveOk (a : Actor) : Bool :=
  a.save.tag && CapF.holds a.save 3 && CapF.addr a.save % 64 == 0 && CapF.inBounds a.save (CapF.addr a.save) (imageLen a.splen)

/-- Reach a byte of the image in the firing's ASID: physical address and leaf, at its home under its tag. -/
def saveReach (v : Saved) (user : Bool) (off : Nat) (write : Bool) : SX (Nat × W64) := do
  let va := CapF.addr v.fir.actor.save + off
  let kind := if write then kWrite else kRead
  match engineWalk (← get) v.asid.toNat va kind user with
  | (.error (cause, l), _) => throw (.fault va cause l kind)
  | (.ok (pa, attr), s) =>
    let pa := replicaPa attr (dieOfCore (coreNo v.cid)) pa
    let ty := if write then 1 else 0
    match homeGate s v.cid pa ty with
    | .refuse _ => throw .bad
    | .hold post =>
      set (suspendAs pa ty v.cid v.fir.handle post s)
      throw .held
    | .go =>
      set (unsuspend pa ty v.cid s)
      pure (pa, attr)

/-- Write a field of the image. -/
def saveField (v : Saved) (user : Bool) (g : Field) : SX Unit := do
  let (pa, attr) ← saveReach v user g.off true
  let all := if hmode attr == 2 then (List.range 4).map fun d => pa % 0x3000000000 + d * 0x3000000000 else [pa]
  modify fun s => all.foldl (fun s a => homeWrite a g.n g.x g.tag none v.cid s) s

/-- Read 16 bytes of the image with their tag; poisoned data abandons the restore. -/
def restoreField (v : Saved) (user : Bool) (off : Nat) : SX (Nat × Bool) := do
  let (pa, _) ← saveReach v user off false
  let s ← get
  if poisonable s pa && poisonAt s pa 16 then throw .bad
  set (correct pa 16 s)
  pure (homeBytes s pa 16)

/-- Read `16 * n` bytes of the image. -/
def restoreBytes (v : Saved) (user : Bool) (off : Nat) : Nat → SX Nat
  | 0 => pure 0
  | n + 1 => do
    let (x, _) ← restoreField v user off
    pure (x + 2 ^ 128 * (← restoreBytes v user (off + 16) n))

/-- The SAVEFAIL record, and the firing is aborted (R308). -/
def saveFail (v : Saved) (s : State) : State :=
  let core := coreNo v.cid
  let s := supRecord { code := 0x48, source := 0, unit := core, handle := v.fir.handle, addr := CapF.addr v.fir.actor.save,
                       asid := v.asid.toNat } s
  let s := answerSave v.requester 4 (modSaved core v.fir.handle (fun v => { v with requester := none }) s)
  if (ctxOf s v.cid).fir.any fun f => f.handle == v.fir.handle then abortPlaced v.cid s else abortSaved v 4 s

/-- What a save or restore that stops leaves behind. -/
def saveStop (v : Saved) (st : SaveStop) (s : State) : State :=
  match st with
  | .held => s
  | .bad => saveFail v s
  | .fault va cause l kind =>
    openFault (mkFault s v.asid.toNat va cause l v.fir.handle kind false) (.save v.fir.handle)
      (modSaved (coreNo v.cid) v.fir.handle (fun v => { v with parked := true }) s)

/-- The results and stores of a context that a save awaits have returned or drained (R167). -/
def quiet (s : State) (c : Nat) : Bool :=
  (ctxOf s c).pend.isEmpty && !pushWaits s c && ((coreOf s (coreNo c)).sb.all fun e => e.cid != c) &&
    (stripOf s (stripNo (coreNo c))).sauWait.all fun w => w.1 != c

/-- The shadow copy registers and TBLSEL of a firing. -/
def shadowOf (x : Ctx) : Ctx :=
  { cpsrc := x.cpsrc, cpdst := x.cpdst, cpring := x.cpring, cpcnt := x.cpcnt, cpstr := x.cpstr, cpmcast := x.cpmcast,
    cpctl := x.cpctl, tblsel := x.tblsel }
/-- Write the image of a context that is SAVING and quiet; the dirty bits written are cleared (R306). -/
def writeImage (v : Saved) (s : State) : State :=
  let x := ctxOf s v.cid
  if !saveOk v.fir.actor then saveFail v s
  else
    let a := v.fir.actor
    match ((imageFields s v).forM (saveField v (!x.sup)) : SX Unit) s with
    | .error st t => saveStop v st t
    | .ok _ t =>
      let clean (m : SMap Bool) : SMap Bool := m.filter fun e => !(16 * a.spoff ≤ e.1 && e.1 < 16 * (a.spoff + a.splen))
      let t := modCore (coreNo v.cid) (fun k => { k with spDirty := clean k.spDirty }) t
      let t := modCtx v.cid (fun x => { x with dirtyG := [], dirtyV := [] }) t
      modSaved (coreNo v.cid) v.fir.handle (fun v => { v with written := true, poiG := x.poiG, poiV := x.poiV, shadow := shadowOf x }) t

/-- Bits of a set as a register map. -/
def setOfBits (n x : Nat) : SMap Bool := ((List.range n).filter fun k => x / 2 ^ k % 2 == 1).map fun k => (k, true)

/-- Read the hold area (R169). -/
def restoreHold (v : Saved) (user : Bool) (base : Nat) : Nat → SX (List HoldEntry)
  | 0 => pure []
  | n + 1 => do
    let (a, _) ← restoreField v user base
    let (c, t) ← restoreField v user (base + 0x10)
    let x ← restoreBytes v user (base + 0x80) 8
    let e : HoldEntry := { isV := a / 64 % 2 == 1, reg := a % 64, sender := a / 2 ^ 64 % 2 ^ 37,
                           cap := ⟨BitVec.ofNat 64 c, BitVec.ofNat 64 (c / 2 ^ 64), t⟩, vec := BitVec.ofNat 1024 x }
    pure (e :: (← restoreHold v user (base + 256) n))

/-- Read the scratchpad lines of the save range back. -/
def restoreSpad (v : Saved) (user : Bool) : List Nat → SX Unit
  | [] => pure ()
  | i :: rest => do
    let (x, t) ← restoreField v user (0x5C00 + 16 * i)
    let pa := windowOf (coreNo v.cid) + 1024 * v.fir.actor.spoff + 16 * i
    modify fun s => setTag pa t (poke pa 16 x s)
    restoreSpad v user rest

/-- A held value whose register is armed lands at once, oldest first (R169). -/
def landHeld : Nat → Ctx → Ctx
  | 0, x => x
  | n + 1, x =>
    match x.hold.find? fun e => SMap.get false (if e.isV then x.armV else x.armG) e.reg with
    | some e => landHeld n { landReg e.isV e.reg e.cap e.vec x with hold := x.hold.erase e }
    | none => x

/-- Stream units for a restored firing: its own numbers where they are free, else the lowest free ones (log 18). -/
def rebind (core : Nat) (us : List (Nat × SUnit)) (pos : List Nat) (s : State) : State :=
  (us.zip pos).foldl (fun s ((k, u), p) =>
    let isFree (k : Nat) : Bool := (SMap.get none (coreOf s core).units k).isNone
    match (if isFree k then some k else (List.range 8).find? isFree) with
    | some k => setUnit core k (some { u with pos := p }) s
    | none => s) s

/-- Read an image and put its firing back into its context (R157, R168, R306). The waits that go on are the fault wait and
an arrival at a domain barrier that could not be withdrawn; the head of any other wait is executed again. -/
def readImage (v : Saved) : SX Unit := do
  let f := v.fir
  let hd ← restoreBytes v true 0 16
  let fld (off n : Nat) : Nat := hd / 2 ^ (8 * off) % 2 ^ (8 * n)
  if fld 0 4 != 0x57534156 || fld 4 1 != 1 || fld 8 8 % 2 ^ 37 != f.handle then throw .bad
  let ct ← restoreBytes v true 0x100 16
  let cf (off n : Nat) : Nat := ct / 2 ^ (8 * off) % 2 ^ (8 * n)
  let pos ← v.units.mapM fun (k, _) => restoreBytes v true (0x200 + 192 * k + 128) 1
  let gs ← (List.range (8 * f.cch)).tail.mapM fun r => restoreField v true (0x800 + 16 * r)
  let vs ← (List.range (4 * f.vch)).mapM fun r => restoreBytes v true (0xC00 + 128 * r) 8
  let core := coreNo v.cid
  if fld 7 1 / 4 % 2 == 1 then
    let b ← restoreBytes v true 0x1C00 1024
    modify (poke (windowOf core + 0x200000) 0x4000 b)
  restoreSpad v true (List.range (64 * f.actor.splen))
  let hold ← restoreHold v true (holdBase f.actor.splen) (Nat.min 4 (fld 0x6C 1))
  let w (off : Nat) : W64 := BitVec.ofNat 64 (cf off 8)
  let fault := match v.wait with
    | .fault _ _ _ => true
    | _ => false
  let x0 := ctxOf (← get) v.cid
  let armG := setOfBits 64 (fld 0x60 8)
  let armV := setOfBits 32 (fld 0x68 4)
  let x : Ctx := { v.shadow with
    gen := x0.gen
    st := if fault && !v.deliver then .waiting else .ready
    wait := if fault || v.keep then v.wait else .none
    granted := v.deliver
    asid := v.asid
    pc := ⟨fld 0x18 8 / 64 * 64 % 2 ^ 57, fld 0x18 8 % 64⟩
    sup := fld 7 1 % 2 == 1
    fl := fld 7 1 / 2 % 2 == 1
    trappc := w 0x00
    trapcause := w 0x08
    trapaddr := w 0x10
    trapinfo := w 0x18
    fpflags := BitVec.ofNat 6 (cf 0x20 8)
    m := (List.range 8).foldl (fun m i => SMap.set 0 m i (BitVec.ofNat 32 (cf (0x28 + 4 * i) 4))) []
    f := (List.range 16).foldl (fun m i => SMap.set 0 m i (w (0x48 + 8 * i))) []
    g := gs.zipIdx.foldl (fun m (y, r) => SMap.set {} m (r + 1) ⟨BitVec.ofNat 64 y.1, BitVec.ofNat 64 (y.1 / 2 ^ 64), y.2⟩) []
    v := vs.zipIdx.foldl (fun m (y, r) => SMap.set 0 m r (BitVec.ofNat 1024 y)) []
    absG := armG
    absV := armV
    armG := armG
    armV := armV
    poiG := v.poiG
    poiV := v.poiV
    hold := hold
    fir := some { f with
      prio := fld 0x12 1
      mmaOrd := fld 0x14 4
      saves := fld 0x3C 4
      wakes := Nat.min (fld 0x30 8 + v.late) (2 ^ 64 - 1)
      paired := false } }
  let free (k : CoreSt) : CoreSt := { k with
    poolC := k.poolC - (f.cch - 1)
    poolV := k.poolV - f.vch
    fq := k.fq.filter fun q => !(q.restoreTo.isSome && q.fir.handle == f.handle)
    saved := k.saved.filter (·.fir.handle != f.handle) }
  modify fun s => noteStall core (l1Acquire core (rebind core v.units (pos.map (· % 2 ^ 64)) (modCore core free (setCtx s v.cid (landHeld 4 x)))))

end Sys2Proof.Machine
end

