-- ==== Sys2Proof/Machine/Firings.lean ====
section
/-! DEFINITION. The events of firings: sweeps reaching their cores, FIFOs, messages and undeliverable returns, the
firing queue, pre-emption and restore, neighbour writes (R137 to R169 of 06_execution_model.md, R176 of
07_cores_strips.md, R488 of 06_execution_model.md). -/

namespace Sys2Proof.Machine

/-! ### Sweeps on a core (R141, R143, R145, R488) -/

/-- Identifiers of the group a share stands at. -/
def shareHolds (w : Sweep) (sh : Share) : Bool :=
  sh.group * 2 ^ hdrShift w.header (hdrPlace w.header) < hdrN w.header
/-- The start registers that a sweep gives beside those of its actor (R134). -/
def sweepRegs (core : Nat) (w : Sweep) (id : Nat) : List (Nat × Cap) :=
  [(1, Cap.ofInt (BitVec.ofNat 64 id)), (4, Cap.ofInt w.arg), (5, launchCap core),
    (6, Cap.ofInt (BitVec.ofNat 64 (core - hdrFirst w.header)))]

/-- Put identifiers of the core's share in the firing queue while it has room, at most `n` (R141, R160). -/
def enumShare (core : Nat) : Nat → State → State
  | 0, s => s
  | n + 1, s =>
    match (coreOf s core).share with
    | none => s
    | some sh =>
      match s.fe.sweeps.find? (·.id == sh.sweep) with
      | none => s
      | some w =>
        if sh.enumerated then s
        else if !shareHolds w sh then
          shareReport core (modCore core (fun k => { k with share := some { sh with enumerated := true } }) s)
        else if 56 ≤ queuedPlain s core then s
        else
          let top := Nat.min ((sh.group + 1) * 2 ^ hdrShift w.header (hdrPlace w.header)) (hdrN w.header)
          let f := newFiring sh.actor (.sweep w.id) (BitVec.ofNat 12 w.asid) w.fn w.queue (BitVec.ofNat 64 sh.nextId)
          let q : QFiring := { fir := f, enq := s.cyc, starts := sweepRegs core w sh.nextId }
          let g := sh.group + hdrP w.header
          let sh' : Share :=
            if sh.nextId + 1 < top then { sh with nextId := sh.nextId + 1, alive := sh.alive + 1 }
            else { sh with group := g, nextId := g * 2 ^ hdrShift w.header (hdrPlace w.header), alive := sh.alive + 1 }
          enumShare core n (modCore core (fun k => { k with fq := k.fq ++ [q], share := some sh' }) s)

/-- Place groups that a core takes. -/
def shareGroups (w : Sweep) (rank : Nat) : Nat :=
  let p := hdrP w.header
  let groups := (hdrN w.header + 2 ^ hdrShift w.header (hdrPlace w.header) - 1) / 2 ^ hdrShift w.header (hdrPlace w.header)
  if rank < groups then (groups - rank + p - 1) / p else 0

/-- Write `16 * n` bytes with their tags from a scratchpad address. -/
def writeTagged (pa : Nat) : Nat → Nat → Nat → State → State
  | 0, _, _, s => s
  | n + 1, x, tags, s => writeTagged (pa + 16) n (x / 2 ^ 128) (tags / 2) (memWrite pa 16 (x % 2 ^ 128) (tags % 2 == 1) none s)

/-- The launch area of a core (R143). -/
def writeLaunch (core : Nat) (w : Sweep) (s : State) : State :=
  let base := windowOf core + 0x3F000
  let hd := (w.header.zipIdx.map fun (x, k) => x.toNat * 2 ^ (64 * k)).sum
  let rank := core - hdrFirst w.header
  let s := writeTagged base 4 hd w.htags s
  let s := writeTagged (base + 0x40) 4 (rank + shareGroups w rank * 2 ^ 64) 0 s
  let s := (List.range 4).foldl (fun s i =>
    let (x, t) := w.shapes.getD i (0, 0)
    writeTagged (base + 0x80 + 128 * i) 8 x t s) s
  modCore core (fun k => { k with launchOld := [] }) (writeTagged (base + 0x280) 216 0 0 s)

/-- A core whose acceptance of a wake waits for the answer of a fault (R488). -/
def wakeParked (s : State) (core : Nat) : Bool :=
  s.tr.faults.any (fun r => r.waiters.contains (.wake core)) || s.tr.pending.any fun p => p.who == .wake core

/-- The core fails its share of the sweep: an ACTORBAD record and its report (R488). -/
def failShare (core : Nat) (w : Sweep) (s : State) : State :=
  let s := supRecord { code := 0x4A, source := 0, unit := core, addr := hdrWord w.header 3, asid := w.asid } s
  modFe (fun f => { f with sweeps := f.sweeps.map fun x => if x.id == w.id then { x with reports := x.reports ++ [(core, stFailed)] } else x })
    (modCore core (fun k => { k with wakes := k.wakes.drop 1 }) s)

/-- The party that a core's acceptance of a wake is among the suspended accesses. -/
def wakeCid (core : Nat) : Nat := 2 ^ 28 + core
/-- The access tags of the two blocks of the record that a core reads at a wake, and the RDs that an uncached page of another
device needs: 0 free to be read, 1 held, 2 refused (R49, R54, R225, R488). A fault is the reading's own. -/
def wakeHeld (core : Nat) (w : Sweep) (va : Nat) (s : State) : Nat × State :=
  if va % 128 != 0 then (0, s)
  else match walkTable s w.asid va (kRead ||| kEngine) true with
    | .fault _ _ => (0, s)
    | .leaf v _ pa attr _ =>
      let pa := normPa s (pa + (va - v))
      match feDirect s attr pa with
      | some (d, _) =>
        match feRemote w.asid d pa 128 attr s with
        | (.held, s) => (1, s)
        | (.refused, s) => (2, s)
        | (_, s) => (0, feUsed w.asid s)
      | none =>
        [pa, pa + 64].foldl (fun (h, s) a =>
          match homeGate s (wakeCid core) a 0 with
          | .hold post => (Nat.max h 1, suspendAs a 0 (wakeCid core) (feReq s) post s)
          | .refuse _ => (2, unsuspend a 0 (wakeCid core) s)
          | .go => (h, unsuspend a 0 (wakeCid core) s)) (0, s)

/-- A core accepts its oldest wake once no other sweep is on it (R145, R488). -/
def acceptWake (core : Nat) (s : State) : State :=
  let k := coreOf s core
  match k.wakes with
  | [] => s
  | id :: rest =>
    if k.share.isSome || wakeParked s core then s
    else
      match s.fe.sweeps.find? (·.id == id) with
      | none => modCore core (fun k => { k with wakes := rest }) s
      | some w =>
        let va := hdrWord w.header 3
        let (held, s) := wakeHeld core w va s
        if held == 1 then s
        else if held == 2 then failShare core w s
        else match readActor s w.asid w.fn va with
        | (.error (3, _), s) => failShare core w s
        | (.error (c, l), s) => openFault (mkFault s w.asid va c l 0 (kRead ||| kEngine) false) (.wake core) s
        | (.ok none, s) => failShare core w s
        | (.ok (some a), s) =>
          let rank := core - hdrFirst w.header
          let sh : Share := { sweep := id, actor := a, group := rank, nextId := rank * 2 ^ hdrShift w.header (hdrPlace w.header) }
          enumShare core 57 (modCore core (fun k => { k with wakes := rest, share := some sh }) (writeLaunch core w s))

/-- SWEEP_WAKE_ACCEPT (R488). -/
def execSweepWakeAccept (core : Nat) (s : State) : Host.Outcome State Fault Refusal := .next (acceptWake core s)

/-- SWEEP_SIGNAL (R146): every core of the range has reported: the packet completes done or failed. -/
def execSweepSignal (sweep : Nat) (s : State) : Host.Outcome State Fault Refusal :=
  .next (match s.fe.sweeps.find? (·.id == sweep) with
    | none => s
    | some w =>
      if w.reports.length < hdrP w.header then s
      else
        let st := if w.reports.any fun r => r.2 == stFailed then stFailed
          else if w.reports.any fun r => r.2 == stAborted then stAborted else stDone
        completePacket w.serial st (modGrp (fun g => { g with episodes := g.episodes.filter (·.sweep != sweep) })
          (modFe (fun f => { f with sweeps := f.sweeps.filter (·.id != sweep) }) s)))

/-! ### The inbound queue and the spill ring (R152 to R154) -/

def spEn (c : W64) : Bool := c.getLsbD 63
def spSize (c : W64) : Nat := 2 ^ Nat.max 4 (bitsOf c.toNat 3 0)
def spHead (c : W64) : Nat := bitsOf c.toNat 47 32
def spTail (c : W64) : Nat := bitsOf c.toNat 31 16
/-- Messages in the ring: none while it is not in use (R154). -/
def spCount (c : W64) : Nat := if spEn c then (spTail c + 65536 - spHead c) % 65536 else 0
/-- SPCTL with other counters and FULL. -/
def spWith (c : W64) (full : Bool) (head tail : Nat) : W64 :=
  BitVec.ofNat 64 (bitsOf c.toNat 63 63 * 2 ^ 63 + (if full || c.getLsbD 62 then 2 ^ 62 else 0) + head % 65536 * 2 ^ 32 +
    tail % 65536 * 2 ^ 16 + bitsOf c.toNat 3 0)
/-- The address of an entry of the ring. -/
def spEntry (k : CoreSt) (i : Nat) : Nat := bitsOf k.spbase.toNat 55 8 * 256 + 256 * (i % spSize k.spctl)

/-- The 256 bytes of an entry (R154). -/
def spillBytes (m : Msg) : Nat :=
  let tags := ((m.payload.zipIdx.map fun (c, k) => if c.tag then 2 ^ k else 0).sum)
  m.line + m.target.toNat * 2 ^ 64 + m.sender * 2 ^ 128 + (m.asid.toNat + tags * 2 ^ 16) * 2 ^ 192 +
    ((m.payload.zipIdx.map fun (c, k) => capNat c * 2 ^ (256 + 128 * k)).sum)
/-- The message of an entry; what the ring's layout does not hold is the core's own record. -/
def spillMsg (x : Nat) (m : Msg) : Msg :=
  let w (k : Nat) : Nat := x / 2 ^ (64 * k) % 2 ^ 64
  { m with
    line := w 0
    target := BitVec.ofNat 64 (w 1)
    sender := w 2
    asid := BitVec.ofNat 12 (w 3)
    payload := (List.range 8).map fun k => ⟨BitVec.ofNat 64 (w (4 + 2 * k)), BitVec.ofNat 64 (w (5 + 2 * k)), w 3 / 2 ^ (16 + k) % 2 == 1⟩ }

/-- Requests or replies in the inbound queue leave room for one more (R153). -/
def inboundRoom (k : CoreSt) (reply : Bool) : Bool :=
  (k.inbound.filter (·.reply == reply)).length < (if reply then 16 else 48)

/-- Refill the inbound queue from the ring, oldest first, at most `n` (R153). -/
def refill (core : Nat) : Nat → State → State
  | 0, s => s
  | n + 1, s =>
    let k := coreOf s core
    if spCount k.spctl == 0 then s
    else
      let m := k.spillMeta.headD { line := 0, target := 0, sender := 0, asid := 0, payload := [] }
      if !inboundRoom k m.reply then s
      else
        let y := spillMsg (peek s (spEntry k (spHead k.spctl)) 256) m
        refill core n (setCore s core { k with
          inbound := if m.gone then k.inbound else k.inbound ++ [y]
          spillMeta := k.spillMeta.drop 1
          spctl := spWith k.spctl false (spHead k.spctl + 1) (spTail k.spctl) })

/-- A message reaches its core: queue, ring, or none when it must be held (R153). -/
def enqueueMsg (core : Nat) (m : Msg) (s : State) : Option State :=
  let k := coreOf s core
  if spCount k.spctl == 0 && inboundRoom k m.reply then some (setCore s core { k with inbound := k.inbound ++ [m] })
  else if !spEn k.spctl then none
  else if spSize k.spctl ≤ spCount k.spctl then
    none
  else
    let s := memWrite (spEntry k (spTail k.spctl)) 256 (spillBytes m) false none s
    let full := spSize k.spctl ≤ spCount k.spctl + 1
    some (setCore s core { k with
      spillMeta := k.spillMeta ++ [m]
      spctl := spWith k.spctl full (spHead k.spctl) (spTail k.spctl + 1) })

/-- Class, source and destination of a package message, for the order of R24: 0 requests, 1 snoops, 2 responses. -/
def netKey (s : State) (m : NetMsg) : Nat × Nat × Nat :=
  match m with
  | .msg core m => (if m.reply then 2 else 0, (match m.from_, m.packet with
      | some (w, _), _ => 2 ^ 30 + w
      | none, some _ => 2 ^ 29
      | none, none => handleCore m.sender), core)
  | .undeliverable src _ sender _ _ _ _ _ => (2, src, handleCore sender)
  | .nwrite cid _ _ _ _ _ sender => (0, if 2 ^ 37 ≤ sender then sender else handleCore sender, coreNo cid)
  | .fifo src core _ _ _ => (0, src, core)
  | .credit core consumer _ _ => (2, consumer, core)
  | .notice src unit _ => (1, src, unit)
  | .replica pa _ _ _ src => (0, src, hashedHome s 0 pa)
/-- The message at a place, when none of the same class, source and destination is before it (R24). -/
def netAt (s : State) (idx : Nat) : Option NetMsg :=
  match s.net[idx]? with
  | none => none
  | some m => if (s.net.take idx).any fun x => netKey s x == netKey s m then none else some m
/-- Take a message from the network. -/
def netTake (idx : Nat) (s : State) : State := { s with net := s.net.eraseIdx idx }

/-- A message that its target returns (R100, R157, R414): to the packet or window it came from, or to its sender. -/
def undeliverable (core : Nat) (m : Msg) (s : State) : State :=
  let st := if stripRole s (stripNo core) == 2 then 6 else 4
  match m.from_ with
  | some (w, seq) => refusePkt w seq st s
  | none => postNet (returnMsg core st m) s

/-- A message leaves its sender's outbound queue, the oldest first (R155). -/
def msgLeaves (idx : Nat) (s : State) : State :=
  match s.net[idx]? with
  | some (.msg core m) =>
    let sameQueue (x : NetMsg) : Bool :=
      match x with
      | .msg _ y => !y.left && y.packet.isNone && y.from_.isNone && handleCore y.sender == handleCore m.sender
      | _ => false
    if (s.net.take idx).any sameQueue then s else { s with net := s.net.set idx (.msg core { m with left := true }) }
  | _ => s

/-- MESSAGE_ARRIVAL (R151, R153, R157, R414). While its strip is being moved, a packet's message is answered RETRY, and the
device's own is tried again against the new placement (R19, R47). A reply names a firing handle, which must be live. -/
def execMessageArrival (idx : Nat) (s : State) : Host.Outcome State Fault Refusal :=
  .next (match netAt s idx with
    | some (.msg core m) =>
      if (stripOf s (stripNo core)).fenced then
        (match m.from_ with
          | some (w, seq) => refusePkt w seq 2 (netTake idx s)
          | none => s)
      else if !computeCore s core || (m.reply && !liveHandle s m.target.toNat) then undeliverable core m (netTake idx s)
      else
        match enqueueMsg core m s with
        | none => s
        | some s =>
          let s := netTake idx s
          match m.from_ with
          | some (w, seq) => markPerformed w seq s
          | none => s
    | _ => s)

/-! ### Undeliverable returns (R157, R300, R414) -/

/-- Write the 32-byte record of a QUIET SEND that came back (R414), with the status of its return as FCODE (R49); none when a tag holds the write. -/
def quietRecord (core asid fcode : Nat) (ring : Cap) (target : W64) (line : Nat) (s : State) : Option State :=
  let xid := nextXid (coreOf s core).xid
  let x := xid + 5 * 2 ^ 32 + fcode % 256 * 2 ^ 40 + target.toNat * 2 ^ 64 + line % 2 ^ 64 * 2 ^ 128 + s.cyc % 2 ^ 64 * 2 ^ 192
  let s' := modCore core (fun k => { k with xid := xid }) s
  let lost (st : Nat) (s : State) : State := supRecord { code := 0x43, source := 0, unit := core, addr := ringEntry ring xid, info := st, asid := asid } s
  match engineWalk s' asid (ringEntry ring xid) (kWrite ||| kEngine) true with
  | (.error (c, _), s') => some (lost c s')
  | (.ok (pa, attr), s') =>
    match spaceOf s' pa with
    | .remote d o =>
      some (if routable s' d then
        sendSeq { ty := tWRM, ddev := d, o := true, off := o / 64 * 64 }
          [BitVec.ofNat 512 ((2 ^ 32 - 1) * 2 ^ (o % 64)), BitVec.ofNat 512 (x * 2 ^ (8 * (o % 64)))] (some (core * 8, 0)) false s'
      else lost 7 s')
    | _ =>
      match homeGate s' (core * 8 + 7) pa 1 with
      | .refuse st => some (lost st s')
      | .hold _ => none
      | .go =>
        let all := if hmode attr == 2 then (List.range 4).map fun d => pa % 0x3000000000 + d * 0x3000000000 else [pa]
        some (all.foldl (fun s a => homeWrite a 32 x false none (core * 8) s) s')

/-- A wait in progress ends for a trap at the boundary before its head: arrivals are withdrawn (R163, R300). A domain
barrier that has sent its arrival keeps the wait. -/
def endWait (c : Nat) (s : State) : State :=
  let x := ctxOf s c
  let keeps := match x.wait with
    | .fault _ _ _ | .compose _ | .tag | .remote _ _ | .pair | .marker | .walk _ | .none => true
    | _ => false
  if x.st != .waiting || x.granted || keeps then s
  else
    let (held, t) := withdrawDom c (withdrawBar c s)
    if held then s
    else
      let t := modStrip (stripNo (coreNo c)) (fun t => { t with
        gang := t.gang.filter (·.2 != c), barmax := t.barmax.filter (·.2.1 != c), mmaWait := t.mmaWait.filter (·.cid != c) }) t
      let t := modMs (fun m => { m with feq := m.feq.filter (·.cid != c) }) t
      modCtx c (fun x => { x with st := .ready, wait := .none }) t

/-- An undeliverable return reaches a sender by its handle (R157, R300). -/
def returnTo (sender : Nat) (target : W64) (asid : Nat) (s : State) : State :=
  let add (f : Firing) : Firing := { f with undelivered := f.undelivered ++ [target] }
  if placedHandle s sender then endWait (handleCid sender) (modFir (handleCid sender) add s)
  else if liveHandle s sender then
    modCore (handleCore sender) (fun k => { k with saved := k.saved.map fun v =>
      if v.fir.handle == sender % 2 ^ 37 then { v with fir := add v.fir } else v }) s
  else supRecord { code := 0x47, source := 0, unit := handleCore sender, handle := sender, addr := target.toNat, info := 4, asid := asid } s

/-- UNDELIVERABLE_RETURN: an ACTMSG fails, a copy ends with STATUS 5, a QUIET record is written, or the sender traps. -/
def execUndeliverableReturn (idx : Nat) (s : State) : Host.Outcome State Fault Refusal :=
  .next (match netAt s idx with
    | some (.undeliverable _ st sender target line quiet asid packet) =>
      let t := netTake idx s
      match packet, quiet with
      | some (_, serial), _ => completePacket serial stFailed t
      | none, some ring => (quietRecord (handleCore sender) asid.toNat st ring target line t).getD s
      | none, none =>
        if 2 ^ 40 ≤ sender then modCopy (sender - 2 ^ 40) (fun c => { c with ended := some (5, st) }) t
        else returnTo sender target asid.toNat t
    | _ => s)

/-! ### FIFOs (R147 to R150, R416) -/

/-- A firing of a binding is alive on the core. -/
def bindingAlive (s : State) (core b : Nat) : Bool :=
  let p (f : Firing) : Bool := f.path == .fifo b
  ((coreOf s core).fq.any fun q => p q.fir) || ((coreOf s core).saved.any fun v => p v.fir) ||
    (List.range 8).any fun j => (ctxOf s (core * 8 + j)).fir.any p

/-- The FIFO firing rule (R149). -/
def fifoRule (s : State) (core b : Nat) : Bool :=
  let a := bindingActor s core b
  (bindOf s core b).getLsbD 127 && !bindingAlive s core b &&
    (a.ins.all fun e => !fifoUsed e || fifoCount e ≤ fifoCnt (fifoOf s core (fifoNum e))) &&
    (a.outs.zipIdx.all fun (e, k) => !fifoUsed e || fifoCount e ≤ credOf s core b k) && queuedPlain s core < 56

/-- FIFO_FIRE (R149): a firing of a binding is queued; its queue is that of the firing whose PUSH made its inputs ready, else that
of the binding's writer (R137, log 87). -/
def execFifoFire (core binding : Nat) (s : State) : Host.Outcome State Fault Refusal :=
  .next (if binding < 16 && computeCore s core && fifoRule s core binding then
      let a := bindingActor s core binding
      let k := coreOf s core
      let (fn, queue) := (SMap.get none k.bindPush binding).getD (SMap.get (0, 0) k.bindOwner binding)
      let n := BitVec.ofNat 64 (SMap.get 0 (coreOf s core).bindCount binding)
      let f := newFiring a (.fifo binding) (BitVec.ofNat 12 (bitsOf (bindOf s core binding).toNat 124 113)) fn queue n
      modCore core (fun k => { k with fq := k.fq ++ [{ fir := f, enq := s.cyc, starts := [(1, Cap.ofInt n)] }] }) s
    else s)

/-- Every used input of a binding holds the entries it asks for (R149). -/
def inputsReady (s : State) (core b : Nat) : Bool :=
  (bindOf s core b).getLsbD 127 &&
    (bindingActor s core b).ins.all fun e => !fifoUsed e || fifoCount e ≤ fifoCnt (fifoOf s core (fifoNum e))
/-- The bindings whose inputs an arriving entry makes ready note the queue of the firing that pushed it (R137). -/
def notePusher (core : Nat) (owner : Nat × Nat) (s t : State) : State :=
  (List.range 16).foldl (fun t b =>
    if inputsReady t core b && !inputsReady s core b then
      modCore core (fun k => { k with bindPush := SMap.set none k.bindPush b (some owner) }) t
    else t) t

/-- FIFO_ENTRY_ARRIVAL (R150, R416): appended, or refused with a credit and a record. -/
def execFifoEntryArrival (idx : Nat) (s : State) : Host.Outcome State Fault Refusal :=
  .next (match netAt s idx with
    | some (.fifo src core fifo bytes owner) =>
      let s := netTake idx s
      let e := fifoOf s core fifo
      if !(fifoV e && fifoPcore e == src && bytes.length == fifoEsz e && fifoCnt e < fifoCap e && computeCore s core) then
        supRecord { code := 0x43, source := 0, unit := core, info := fifo } (postNet (.credit src core fifo 1) s)
      else
        let pa := windowOf core + fifoBase e + fifoTail e * fifoEsz e
        let t := setFifo core fifo (fifoWith e (fifoCnt e + 1) (fifoHead e) ((fifoTail e + 1) % fifoCap e))
          (memWrite pa bytes.length (leNat bytes) false none s)
        notePusher core owner s t
    | _ => s)

/-- The binding and output of a producer that feed a FIFO. -/
def creditPlace (s : State) (core consumer fifo : Nat) : Option (Nat × Nat) :=
  (List.range 16).findSome? fun b =>
    if !(bindOf s core b).getLsbD 127 then none
    else (List.range 4).findSome? fun k =>
      let e := (bindingActor s core b).outs.getD k 0
      if fifoUsed e && fifoCore e == consumer && fifoNum e == fifo then some (b, k) else none

/-- CREDIT_RETURN (R150). -/
def execCreditReturn (idx : Nat) (s : State) : Host.Outcome State Fault Refusal :=
  .next (match netAt s idx with
    | some (.credit core consumer fifo n) =>
      let s := netTake idx s
      match creditPlace s core consumer fifo with
      | some (b, k) => setCred core b k (credOf s core b k + n) s
      | none => s
    | _ => s)

/-- FIFO_TABLE_WRITE (R147). -/
def execFifoTableWrite (core entry : Nat) (v : BitVec 128) (s : State) : Host.Outcome State Fault Refusal :=
  .next (if entry < 32 then setFifo core entry (fifoWritten (fifoOf s core entry) v) s else s)

/-- BINDING_WRITE (R148). -/
def execBindingWrite (core entry : Nat) (v : BitVec 128) (s : State) : Host.Outcome State Fault Refusal :=
  .next (if entry < 16 then bindWritten core entry v (fnOfAsid s (bitsOf v.toNat 124 113), 0) s else s)

/-! ### The firing queue (R134, R158 to R161) -/

/-- FIRING_PLACE: a message for context 7, or the head of the firing queue. -/
def execFiringPlace (core : Nat) (s : State) : Host.Outcome State Fault Refusal :=
  .next (if !computeCore s core then s
    else
      let s := refill core 64 (placeMsg core (refill core 64 s))
      match queueHead s core with
      | some q => if q.restoreTo.isSome then s else enumShare core 57 (placeQueued core q s)
      | none => enumShare core 57 s)

/-- PRIORITY_AGEING (R161). -/
def execPriorityAgeing (core idx : Nat) (s : State) : Host.Outcome State Fault Refusal :=
  .next (match (coreOf s core).fq[idx]? with
    | some q =>
      if q.enq + 2 ^ 20 ≤ s.cyc && q.fir.prio < 3 then
        modCore core (fun k => { k with fq := k.fq.set idx { q with enq := s.cyc, fir := { q.fir with prio := q.fir.prio + 1 } } }) s
      else s
    | none => s)

/-- GROWSTALL (R159): a stall that has lasted 2^20 cycles posts one record. -/
def execGrowstall (core : Nat) (s : State) : Host.Outcome State Fault Refusal :=
  let k := coreOf s core
  .next (if (k.stallSince.any fun t => t + 2 ^ 20 ≤ s.cyc) && !k.stallPosted then
      supRecord { code := 0x41, source := 0, unit := core } (modCore core (fun k => { k with stallPosted := true }) s)
    else s)

/-- SLOT_LIMIT_EXPIRY (R162): 4,096 cycles in the slot, a stall in place among them. -/
def execSlotLimitExpiry (core : Nat) (s : State) : Host.Outcome State Fault Refusal :=
  let k := coreOf s core
  .next (match k.slot with
    | some j =>
      let c := core * 8 + j
      let inPlace := match (ctxOf s c).wait with
        | .none | .walk _ => true
        | _ => false
      if k.slotSince + 4096 ≤ s.cyc && inPlace && (firOf s c).lens.isNone then markerPark c s else s
    | none => s)

/-! ### Pre-emption and restore (R166 to R168, R306 to R308) -/

/-- A firing that the pre-emption service may take (R166). -/
def mayPreempt (s : State) (c : Nat) : Bool :=
  let x := ctxOf s c
  c % 8 != 7 && (x.fir.any fun f => !noSave f) && (saveOf s c).isNone && requeueUsed s (coreNo c) < 8 &&
    (match x.wait with
      | .compose _ => false
      | _ => true)

/-- PREEMPT: the firing is asked to stop, stops at a boundary, and its image is written when its results have
returned. -/
def preempt (c : Nat) (s : State) : State :=
  match saveOf s c with
  | none => if mayPreempt s c then tryStop c (askSave c false none s) else s
  | some v =>
    if (ctxOf s c).st != .saving then tryStop c s
    else if quiet s c && !v.written && !v.parked then writeImage v s
    else s
def execPreempt (cid : Nat) (s : State) : Host.Outcome State Fault Refusal := .next (preempt cid s)

/-- The save of a context completes: chunks return, the context is FREE, and the firing is requeued or held (R168,
R307, R469). -/
def completeSave (v : Saved) (s : State) : State :=
  let c := v.cid
  let core := coreNo c
  let f := firOf s c
  let s := modSaved core v.fir.handle (fun v => { v with complete := true, requester := none, fir := { f with handle := v.fir.handle } }) s
  let s := returnChunks c f (freeCtx c s)
  let s := if v.held then s
    else modCore core (fun k => { k with fq := k.fq ++ [{ fir := f, enq := s.cyc, restoreTo := some c }] }) s
  wakeReleases (answerSave v.requester 0 s)

/-- SAVE_COMPLETE (R307): every write of the image is performed. -/
def execSaveComplete (cid : Nat) (s : State) : Host.Outcome State Fault Refusal :=
  .next (match saveOf s cid with
    | some v => if v.written && !v.complete then completeSave v s else s
    | none => s)

/-- Free stream units of a core. -/
def unitsFree (s : State) (core : Nat) : Nat :=
  ((List.range 8).filter fun k => (SMap.get none (coreOf s core).units k).isNone).length

/-- Restore the saved firing that the queue's head names (R168, R203). -/
def restoreHead (core : Nat) (q : QFiring) (s : State) : State :=
  match (coreOf s core).saved.find? fun v => v.fir.handle == q.fir.handle with
  | none => s
  | some v =>
    let f := v.fir
    if !(v.complete && !v.parked && placeable s core f.cch f.vch && v.units.length ≤ unitsFree s core) then s
    else
      let part := if v.paired then partnerPlace s core f.cch f.vch else none
      if v.paired && part.isNone then
        if q.told || (partnerCore s core).isSome then s
        else pairless core f.handle (modCore core (fun k => { k with fq := k.fq.map fun e => if e == q then { e with told := true } else e }) s)
      else
        match readImage v s with
        | .error st t => saveStop v st t
        | .ok _ t =>
          match part with
          | some p => openPair v.cid p t
          | none => t

/-- RESTORE. -/
def execRestore (core : Nat) (s : State) : Host.Outcome State Fault Refusal :=
  .next (match queueHead s core with
    | some q => if q.restoreTo.isSome && computeCore s core then restoreHead core q s else s
    | none => s)

/-! ### Neighbour writes (R169, R176) -/

/-- The refusal of a neighbour write. -/
def returnWrite (core handle sender : Nat) (s : State) : State :=
  postNet (.undeliverable core 4 sender (BitVec.ofNat 64 handle) 0 none 0 none) s

/-- Act on the image of a saved firing: an armed register's slot, else the hold area; true when the write was taken
(R169). -/
def writeToImage (v : Saved) (isV : Bool) (reg : Nat) (cap : Cap) (vec : VReg) (sender : Nat) : SX Bool := do
  let (x, _) ← restoreField v true 0x60
  let bit := if isV then 64 + reg else reg
  let n := x / 2 ^ 96 % 256
  if x / 2 ^ bit % 2 == 1 then
    let fs := if isV then granules (0xC00 + 128 * reg) 8 vec.toNat else [capField (0x800 + 16 * reg) cap]
    (fs ++ ([{ off := 0x60, n := 16, x := x - 2 ^ bit }] : List Field)).forM (saveField v true)
    pure true
  else if n < 4 then
    let e : HoldEntry := { isV := isV, reg := reg, sender := sender, cap := cap, vec := vec }
    (holdFields (holdBase v.fir.actor.splen + 256 * n) e ++ ([{ off := 0x60, n := 16, x := x + 2 ^ 96 }] : List Field)).forM (saveField v true)
    pure true
  else pure false

/-- A neighbour write reaches the firing it names in its context; in checked execution the value goes to both cores (R200). -/
def placedWrite (c : Nat) (isV : Bool) (reg : Nat) (cap : Cap) (vec : VReg) (handle sender : Nat) (s : State) : State :=
  let x := ctxOf s c
  let e : HoldEntry := { isV := isV, reg := reg, sender := sender, cap := cap, vec := vec }
  let note (s : State) : State :=
    modGrp (fun g => { g with pairs := g.pairs.map fun p => if p.prim == c then { p with landed := p.landed ++ [e] } else p }) s
  if !(if isV then allotV c x reg else allotG c x reg) then returnWrite (coreNo c) handle sender s
  else if SMap.get false (if isV then x.armV else x.armG) reg then
    modCtx c (fun x => { x with st := if x.st == .stalled then .ready else x.st }) (modBoth c (landReg isV reg cap vec) (note s))
  else if 4 ≤ x.hold.length then returnWrite (coreNo c) handle sender s
  else modCtx c (fun x => { x with hold := x.hold ++ [e] }) (note s)

/-- NEIGHBOUR_WRITE_ARRIVAL: to an armed register, the hold buffer, a saved image, or back; a core whose strip is retired
returns it (R17, R176). -/
def execNeighbourWriteArrival (idx : Nat) (s : State) : Host.Outcome State Fault Refusal :=
  .next (match netAt s idx with
    | some (.nwrite cid handle isV reg cap vec sender) =>
      let t := netTake idx s
      let core := coreNo cid
      if retiredCore s core then returnWrite core handle sender t
      else match savedOf s handle with
      | some v =>
        if !v.written then
          if (ctxOf s cid).st == .saving then s else placedWrite cid isV reg cap vec handle sender t
        else if !v.complete || v.parked then s
        else if !(if isV then reg < 4 * v.fir.vch else reg < 8 * v.fir.cch) then returnWrite core handle sender t
        else
          match writeToImage v isV reg cap vec sender t with
          | .ok true u => u
          | .ok false u => returnWrite core handle sender u
          | .error .bad u => saveFail v u
          | .error st u => saveStop v st { u with net := s.net }
      | none =>
        if placedHandle s handle && handleCid handle == cid then placedWrite cid isV reg cap vec handle sender t
        else returnWrite core handle sender t
    | _ => s)

end Sys2Proof.Machine
end

