-- ==== Sys2Proof/Machine/System.lean ====
section
/-! DEFINITION. MFC and MTC with every control register (R343 to R345 of 12_isa_encoding.md, R460 to R462 of
16_isa_matrix_system.md), composition and pairing (R188 to R203 of 07_cores_strips.md, R464 to R467), supervisor control of
firings (R468 to R471) and TLBINV (R472, R294 of 10_translation_traps.md). -/

namespace Sys2Proof.Machine

/-! ### Control registers (R343 to R345) -/

/-- The number of a head's control register. -/
def crNum (h : Head) : Nat := h.im 11 0

/-- The registers that R343 defines below 0x200. -/
def crDefined (n : Nat) : Bool :=
  (1 ≤ n && n ≤ 4) || (0x10 ≤ n && n ≤ 0x26) || n == 0x2F || (0x100 ≤ n && n ≤ 0x111) || n == 0x120 || n == 0x121
/-- The capability registers (R460). -/
def crCap (n : Nat) : Bool := n ∈ [0x20, 0x21, 0x25, 0x104, 0x107]
/-- The strip and device registers (R461, R462). -/
def crWide (n : Nat) : Bool := n ∈ [1, 0x106, 0x10A, 0x10B, 0x10C, 0x10D, 0x10E, 0x10F, 0x110, 0x111, 0x121]

/-- The checks of R460 and R344 for a core, in order: definedness, then level. The registers from 0x200 up belong to
Prisms and to the control column. -/
def crCheck (s : State) (n : Nat) (write : Bool) : X Unit := do
  let x := here s
  let column := controlCore s (coreNo s.cur)
  if 0x200 ≤ n then
    if n == 0x300 && write then illegal 0x09
    ensure (0x300 ≤ n && column) 0x05
  else
    if !crDefined n || n == 0x2F || (write && 1 ≤ n && n ≤ 3) then illegal 0x09
    let frame := 0x100 ≤ n && n ≤ 0x103 && !write && x.fl
    ensure (n < 0x100 || x.sup || frame) 0x05
    ensure (!(write && n == 0x121 && bitsOf x.tblsel.toNat 9 8 == 2)) 0x05

/-- The entry that TBLSEL selects (R345). -/
def tblEntry (s : State) (x : Ctx) : Nat :=
  let i := bitsOf x.tblsel.toNat 7 0
  match bitsOf x.tblsel.toNat 9 8 with
  | 0 => (SMap.get 0 s.regs.homemask i).toNat
  | 1 => (SMap.get 0 s.regs.named i).toNat
  | _ => (stripEntry s i).toNat

/-- The core that executes the current head: in a lens the element of its line, (line address >> 6) mod n, and the lead alone
in a trap handler (R191, R195, R480). -/
def lineCore (s : State) : Nat :=
  if (here s).fl then coreNo s.cur else
  match (firOf s s.cur).lens.bind fun c => s.grp.lenses.find? (·.lead == c) with
  | some l => l.elems.getD ((here s).pc.line / 64 % l.elems.length) (coreNo s.cur)
  | none => coreNo s.cur

/-- An integer control register as it stands. -/
def crRead (s : State) (n : Nat) : Nat :=
  let x := here s
  let core := lineCore s
  match n with
  | 0x001 => s.cyc
  | 0x002 => s.dev % 2 ^ 14 * 2 ^ 12 + core
  | 0x003 => (firOf s s.cur).handle
  | 0x004 => x.fpflags.toNat
  | 0x022 => x.cpcnt.toNat
  | 0x023 => x.cpstr.toNat
  | 0x024 => x.cpmcast.toNat
  | 0x026 => x.cpctl.toNat
  | 0x100 => x.trappc.toNat
  | 0x101 => x.trapcause.toNat
  | 0x102 => x.trapaddr.toNat
  | 0x103 => x.trapinfo.toNat
  | 0x105 => x.asid.toNat
  | 0x106 => s.regs.ptroot.toNat
  | 0x108 => (coreOf s core).spbase.toNat
  | 0x109 => (coreOf s core).spctl.toNat
  | 0x10A => (stripOf s (stripNo core)).gwlim.toNat
  | 0x10B => s.regs.rtbase.toNat
  | 0x10C => s.regs.htbase.toNat
  | 0x10D => s.regs.pspbase.toNat
  | 0x10E => (if s.regs.prbusy then 2 ^ 63 else 0) + s.regs.prstatus.toNat * 2 ^ 60
  | 0x10F => s.regs.prarg.toNat
  | 0x110 => s.regs.srbase.toNat
  | 0x111 => s.regs.srctl.toNat
  | 0x120 => x.tblsel.toNat
  | 0x121 => tblEntry s x
  | 0x300 => s.regs.fwctl.toNat
  | _ => if 0x10 ≤ n && n ≤ 0x1F then (readF x (n - 0x10)).toNat else 0

/-- A capability control register. -/
def crReadCap (s : State) (n : Nat) : Cap :=
  match n with
  | 0x020 => (here s).cpsrc
  | 0x021 => (here s).cpdst
  | 0x025 => (here s).cpring
  | 0x104 => (coreOf s (lineCore s)).trapvec
  | _ => (coreOf s (lineCore s)).hdcap

/-- A Prism thread's registers (R343): CYC, PRID, PRTHR, PRWD, PRCNT. -/
def crThread (s : State) (n : Nat) : Option Nat :=
  match n with
  | 0x001 => some s.cyc
  | 0x200 => some (prismNo s.cur)
  | 0x201 => some (threadNo s.cur)
  | 0x202 => some (prismOf s (prismNo s.cur)).wd
  | 0x203 => some (((runOf s s.cur).map (·.count)).getD 0)
  | _ => none

/-- An earlier head of the firing has not set its flags (R328). -/
def flagsOpen (s : State) : Bool :=
  (here s).pend.any fun p =>
    match p.fin with
    | .narrow _ _ _ _ _ => true
    | .mma => true
    | _ => false

/-- MFC (R460, R461). -/
def execMfc (h : Head) (s : State) : Host.Outcome State Fault Refusal :=
  let n := crNum h
  if 0x301 ≤ n && !isThread s.cur && controlCore s (coreNo s.cur) then .refused .firmwareRegister
  else runHead Rows.mfc h (Use.ofRow Rows.mfc h) (do
    let s ← get
    if isThread s.cur then
      match crThread s n with
      | some v => setInt h.d (BitVec.ofNat 64 v)
      | none => illegal 0x09
      return .seq
    crCheck s n false
    if n == 4 && flagsOpen s then throw .stall
    if crCap n then setG h.d (crReadCap s n)
    else if crWide n then lateInt h.d (BitVec.ofNat 64 (crRead s n)) 14
    else setInt h.d (BitVec.ofNat 64 (crRead s n))
    pure .seq) s

/-- The reserved bits of an integer control register, as hi:lo ranges. -/
def crReserved (s : State) (n : Nat) : List (Nat × Nat) :=
  match n with
  | 0x004 => [(63, 6)]
  | 0x026 => [(49, 47), (8, 0)]
  | 0x100 => [(63, 57), (5, 5)]
  | 0x101 => [(63, 24), (15, 12)]
  | 0x102 => [(63, 57)]
  | 0x105 => [(63, 12)]
  | 0x106 => [(63, 56), (14, 0)]
  | 0x108 => [(63, 56), (7, 0)]
  | 0x109 => [(61, 48), (15, 4)]
  | 0x10A => [(63, 16)]
  | 0x10B | 0x10C => [(63, 56), (15, 0)]
  | 0x10D => [(63, 56), (17, 0)]
  | 0x110 => [(63, 56), (11, 0)]
  | 0x111 => [(61, 48), (15, 4)]
  | 0x120 => [(63, 10)]
  | 0x121 => if bitsOf (here s).tblsel.toNat 9 8 == 0 then [(62, 52), (26, 0)] else [(63, 32), (30, 12)]
  | _ => []

/-- A value that MTC may write: no reserved bit, no invalid field (R309, R344, R345). -/
def crOk (s : State) (n : Nat) (v : W64) : Bool :=
  (crReserved s n).all (fun r => bitsOf v.toNat r.1 r.2 == 0) && (!(0x10 ≤ n && n ≤ 0x1F) || Fmt.ok v) &&
    (n != 0x120 || (bitsOf v.toNat 9 8 != 3 && (bitsOf v.toNat 9 8 == 2 || bitsOf v.toNat 7 0 < 64))) &&
    (n != 0x121 || bitsOf (here s).tblsel.toNat 9 8 != 0 || !v.getLsbD 63 || bitsOf v.toNat 39 27 != 0)

/-- A HOMEMASK entry as written: a range past 4,096 clears V (R215). -/
def maskWritten (v : W64) : W64 := if 4096 < bitsOf v.toNat 51 40 + bitsOf v.toNat 39 27 then BitVec.ofNat 64 (v.toNat % 2 ^ 63) else v

/-- SPCTL as written: FULL clears by a one, and HEAD and TAIL are taken while EN = 0 (R154). -/
def spctlWritten (old v : W64) : W64 :=
  let full := bitsOf old.toNat 62 62 == 1 && bitsOf v.toNat 62 62 == 0
  let ht := if bitsOf old.toNat 63 63 == 0 then bitsOf v.toNat 47 16 else bitsOf old.toNat 47 16
  BitVec.ofNat 64 (bitsOf v.toNat 63 63 * 2 ^ 63 + (if full then 2 ^ 62 else 0) + ht * 2 ^ 16 + bitsOf v.toNat 3 0)
/-- SRCTL as written: OVF clears by a one, and TAIL is the device's (R303). -/
def srctlWritten (old v : W64) : W64 :=
  let ovf := bitsOf old.toNat 62 62 == 1 && bitsOf v.toNat 62 62 == 0
  BitVec.ofNat 64 (bitsOf v.toNat 63 63 * 2 ^ 63 + (if ovf then 2 ^ 62 else 0) + bitsOf v.toNat 47 32 * 2 ^ 32 +
    bitsOf old.toNat 31 16 * 2 ^ 16 + bitsOf v.toNat 3 0)
/-- TRAPCAUSE as written: LEVEL and CODE (R302). -/
def causeWritten (old v : W64) : W64 :=
  BitVec.ofNat 64 (bitsOf old.toNat 63 9 * 2 ^ 9 + bitsOf v.toNat 8 0)
/-- PRCMD as written (R235): a busy unit refuses, and an undefined command is a bad argument. -/
def prcmdWritten (v : W64) (r : DevRegs) : DevRegs :=
  if r.prbusy then { r with prstatus := 1 }
  else if bitsOf v.toNat 63 60 == 0 || 6 < bitsOf v.toNat 63 60 then { r with prcmd := v, prstatus := 2 }
  else { r with prcmd := v, prbusy := true, prstatus := 0 }

/-- Write the entry that TBLSEL selects. -/
def tblWrite (v : W64) (s : State) : State :=
  let i := bitsOf (here s).tblsel.toNat 7 0
  if bitsOf (here s).tblsel.toNat 9 8 == 0 then modRegs (fun r => { r with homemask := SMap.set 0 r.homemask i (maskWritten v) }) s
  else modRegs (fun r => { r with named := SMap.set 0 r.named i (BitVec.ofNat 32 v.toNat) }) s

/-- Write an integer control register. -/
def crWrite (n : Nat) (v : W64) (s : State) : State :=
  let core := lineCore s
  match n with
  | 0x004 => modHere (fun x => { x with fpflags := BitVec.ofNat 6 v.toNat }) s
  | 0x022 => modHere (fun x => { x with cpcnt := v }) s
  | 0x023 => modHere (fun x => { x with cpstr := v }) s
  | 0x024 => modHere (fun x => { x with cpmcast := v }) s
  | 0x026 => modHere (fun x => { x with cpctl := v }) s
  | 0x100 => modHere (fun x => { x with trappc := v }) s
  | 0x101 => modHere (fun x => { x with trapcause := causeWritten x.trapcause v }) s
  | 0x102 => modHere (fun x => { x with trapaddr := v }) s
  | 0x103 => modHere (fun x => { x with trapinfo := v }) s
  | 0x105 => modHere (fun x => { x with asid := BitVec.ofNat 12 v.toNat }) s
  | 0x106 => modRegs (fun r => { r with ptroot := v }) s
  | 0x108 => modCore core (fun k => { k with spbase := v }) s
  | 0x109 => modCore core (fun k => { k with spctl := spctlWritten k.spctl v }) s
  | 0x10A => modStrip (stripNo core) (fun t => { t with gwlim := v }) s
  | 0x10B => modRegs (fun r => { r with rtbase := v }) s
  | 0x10C => modRegs (fun r => { r with htbase := v }) s
  | 0x10D => modRegs (fun r => { r with pspbase := v }) s
  | 0x10E => modRegs (prcmdWritten v) s
  | 0x10F => modRegs (fun r => { r with prarg := v }) s
  | 0x110 => modRegs (fun r => { r with srbase := v }) s
  | 0x111 => modRegs (fun r => { r with srctl := srctlWritten r.srctl v }) s
  | 0x120 => modHere (fun x => { x with tblsel := v }) s
  | 0x121 => tblWrite v s
  | _ => if 0x10 ≤ n && n ≤ 0x1F then modHere (fun x => writeF x (n - 0x10) v) s else s

/-- Write a capability control register. -/
def crWriteCap (n : Nat) (c : Cap) (s : State) : State :=
  match n with
  | 0x020 => modHere (fun x => { x with cpsrc := c }) s
  | 0x021 => modHere (fun x => { x with cpdst := c }) s
  | 0x025 => modHere (fun x => { x with cpring := c }) s
  | 0x104 => modCore (lineCore s) (fun k => { k with trapvec := c }) s
  | _ => modCore (lineCore s) (fun k => { k with hdcap := c }) s

/-- MTC (R460, R462). -/
def execMtc (h : Head) (s : State) : Host.Outcome State Fault Refusal :=
  let n := crNum h
  if 0x301 ≤ n && !isThread s.cur && controlCore s (coreNo s.cur) then .refused .firmwareRegister
  else runHead Rows.mtc h (Use.ofRow Rows.mtc h) (do
    let s ← get
    if isThread s.cur then illegal 0x09
    crCheck s n true
    if crCap n then
      upd (crWriteCap n (gA s h))
      return .seq
    let v := opA s h
    ensure (crOk s n v) 0x03
    if n == 4 && flagsOpen s then throw .stall
    if crWide n then release 3
    upd (crWrite n v)
    pure .seq) s

/-! ### Dealing lines in a lens (R191) -/

/-- A line as the lens would fetch it now: from the lead's L1I or memory under a translation that a TLB or the table gives. -/
def lineAt (s : State) (va : Nat) : Option Line :=
  match softTranslate s va kExec with
  | none => none
  | some (pa, attr) =>
    let pa := lineHome s attr pa
    match SMap.get none (coreOf s (coreNo s.cur)).l1i (blockOf pa) with
    | some l => some l.data
    | none => if mayRead s pa then some (BitVec.ofNat 512 (peek s pa 64)) else none

/-- The line dealt after a line before its last head is resolved, by the table of R191; none when dealing waits. -/
def nextDealt (s : State) (line : Nat) : Option Nat :=
  match lineAt s line with
  | none => none
  | some l =>
    let on := (line + 64) % 2 ^ 57
    let to_ (h : Head) : Nat := (((line : Int) + 64 * (Head.sext64 h).toInt) % (2 ^ 57 : Nat)).toNat
    let branch (h : Head) : Nat := if (Head.sext64 h).toInt < 0 then to_ h else on
    match decodeLine l (headsOf l) with
    | .error _ => none
    | .ok (.beq h) | .ok (.bne h) | .ok (.blt h) | .ok (.bge h) => some (branch h)
    | .ok (.bltu h) | .ok (.bgeu h) | .ok (.bz h) | .ok (.bnz h) => some (branch h)
    | .ok (.loop h) => some (if 1 < (gD s h).val.toNat then to_ h else on)
    | .ok (.jmp h) | .ok (.call h) => some (to_ h)
    | .ok (.jmpC _) | .ok (.callC _) | .ok (.ret _) | .ok (.endFiring _) | .ok (.ende _) | .ok (.eret _) => none
    | .ok _ => some on

/-- Deal lines on, up to four to each of `n` elements. -/
def dealFrom (s : State) (n : Nat) : Nat → Option Nat → List (Nat × Nat) → List (Nat × Nat)
  | 0, _, ds => ds
  | _ + 1, none, ds => ds
  | k + 1, some line, ds =>
    let e := line / 64 % n
    if 4 ≤ (ds.filter (·.2 == e)).length then ds else dealFrom s n k (nextDealt s line) (ds ++ [(line, e)])

/-- The lens whose turn it is drops the lines it has passed, and deals on from the line it executes: past it what the last
resolved transfer left dealt. A trap handler's lines are not dealt (R195). -/
def dealLens (cid : Nat) (s : State) : State :=
  if (ctxOf s cid).fl then s else
  match s.grp.lenses.find? fun l => l.lead == cid && l.started with
  | none => s
  | some l =>
    let line := (ctxOf s cid).pc.line
    let kept := l.dealt.dropWhile (·.1 != line)
    let t := { s with cur := cid }
    let ds := match kept.getLast? with
      | some d => dealFrom t l.elems.length (4 * l.elems.length) (nextDealt t d.1) kept
      | none => dealFrom t l.elems.length (4 * l.elems.length) (some line) []
    modGrp (fun g => { g with lenses := g.lenses.map fun x => if x.lead == cid then { x with dealt := ds } else x }) s

/-! ### The lens (R188 to R198, R464, R465) -/

/-- The elements of a lens of `n` led by a core. -/
def lensElems (core n : Nat) : List Nat := (List.range n).map fun e => stripNo core * 16 + (rankNo core + e) % 16
/-- A core holds a side of a mirror pair. -/
def pairSide (s : State) (core : Nat) : Bool := s.grp.pairs.any fun p => coreNo p.prim == core || coreNo p.part == core
/-- The contexts of a core that a composition pre-empts: those whose firings are not yet being saved. -/
def toPreempt (s : State) (lead core : Nat) : List Nat :=
  ((List.range 7).map fun j => core * 8 + j).filter fun c => c != lead && (ctxOf s c).fir.isSome && (saveOf s c).isNone
/-- A claim that has not started yields to one of the same cycle whose lead has the lower rank (R189). -/
def yields (s : State) (l : Lens) : Bool :=
  !l.started && !l.asked && l.claimed == s.cyc && rankNo (coreNo s.cur) < rankNo (coreNo l.lead)
/-- Why a COMPOSE is refused (R189, R464); a control-column core joins no lens (R87). -/
def composeBad (s : State) (n : Nat) : Option Nat :=
  let c := s.cur
  let es := lensElems (coreNo c) n
  let a := (firOf s c).actor
  let lensOf (k : Nat) : Option Lens := (coreOf s k).lensLead.bind fun l => s.grp.lenses.find? (·.lead == l)
  if c % 8 == 7 then some 6
  else if !a.composable || a.checked || controlCore s (coreNo c) then some 1
  else if es.any (pairSide s) then some 2
  else if es.any fun k => (lensOf k).any (·.started) then some 3
  else if es.any fun k => (lensOf k).any (!yields s ·) then some 5
  else if es.any fun k => (toPreempt s c k).any (fun d => noSave (firOf s d)) || 8 < requeueUsed s k + (toPreempt s c k).length then some 4
  else none

/-- A COMPOSE that lost its elements to a lower rank of the same cycle: nothing of it stays, and its firing takes the trap
(R189). -/
def loseLens (l : Lens) (s : State) : State :=
  let s := l.elems.foldl (fun s k => modCore k (fun x => { x with lensLead := none }) s) s
  let s := modGrp (fun g => { g with lenses := g.lenses.filter (·.lead != l.lead) }) s
  { trapAt (modCtx l.lead (fun x => { x with st := .ready, wait := .none }) { s with cur := l.lead }) 0x17 0 5 with cur := s.cur }
/-- Claim the elements (R188). The firings on them are asked to stop from the next cycle on. -/
def claimLens (n : Nat) (s : State) : State :=
  let c := s.cur
  let es := lensElems (coreNo c) n
  let losers := s.grp.lenses.filter fun l => yields s l && l.elems.any es.contains
  let s := losers.foldl (fun s l => loseLens l s) s
  let s := modGrp (fun g => { g with lenses := g.lenses ++ [{ lead := c, elems := es, claimed := s.cyc }] }) s
  es.foldl (fun s k => modCore k (fun x => { x with lensLead := some c }) s) s
/-- Ask for the saves of the firings on the elements (R167, R188). -/
def stopElems (l : Lens) (s : State) : State :=
  let s := modGrp (fun g => { g with lenses := g.lenses.map fun x => if x.lead == l.lead then { x with asked := true } else x }) s
  ((l.elems.map (toPreempt s l.lead)).flatten).foldl (fun s d => tryStop d (askSave d false none s)) s

/-- COMPOSE (R188, R464). -/
def execCompose (h : Head) (s : State) : Host.Outcome State Fault Refusal :=
  runHead Rows.compose h {} (do
    let n := h.im 4 0
    let s ← get
    if ← answered (.compose n) then
      upd (modFir s.cur fun f => { f with lens := some s.cur })
      return .seq
    match composeBad s n with
    | some sub => raise 0x17 0 sub
    | none =>
      upd (claimLens n)
      throw (.wait (.compose n))) s

/-- Every element of a lens is free of other firings (R188). -/
def lensFree (s : State) (l : Lens) : Bool :=
  l.elems.all fun k => (List.range 7).all fun j => k * 8 + j == l.lead || (ctxOf s (k * 8 + j)).fir.isNone

/-- LENS_START: the elements' firings are stopped, and once every element is free the registers are spread and the lead goes
on. -/
def execLensStart (cid : Nat) (s : State) : Host.Outcome State Fault Refusal :=
  .next (match s.grp.lenses.find? (·.lead == cid) with
    | some l =>
      if l.started || (ctxOf s cid).st != .waiting || s.cyc == l.claimed then s
      else if !l.asked then stopElems l s
      else if !lensFree s l then s
      else grant cid (modGrp (fun g => { g with lenses := g.lenses.map fun x => if x.lead == cid then { x with started := true } else x }) s)
    | none => s)

/-- LENS_BRANCH_RESOLVE (R191): the lines dealt past a branch are discarded; dealing restarts at the resolved line. -/
def execLensBranchResolve (cid : Nat) (s : State) : Host.Outcome State Fault Refusal :=
  .next (dealLens cid (modGrp (fun g => { g with lenses := g.lenses.map fun x =>
    if x.lead == cid then { x with dealt := [] } else x }) s))

/-- DECOMPOSE (R198, R465): the hand-back, once the lens's results and stores are done. -/
def execDecompose (h : Head) (s : State) : Host.Outcome State Fault Refusal :=
  runHead Rows.decompose h {} (do
    let s ← get
    if (firOf s s.cur).lens.isNone then return .seq
    awaitResults
    if !(pushWaits s s.cur == false && (coreOf s (coreNo s.cur)).sb.all fun e => e.cid != s.cur) then throw .stall
    upd (freeLens s.cur)
    pure .seq) s

/-! ### Mirror pairs (R199 to R203, R466, R467) -/

/-- Neither neighbour is usable, or the firing is a message's (R199, R466); a control-column core joins no pair (R87). -/
def pairUnusable (s : State) : Bool :=
  s.cur % 8 == 7 || controlCore s (coreNo s.cur) || (partnerCore s (coreNo s.cur)).isNone
/-- The PAIRLESS record of a PAIR that takes its trap (R466). -/
def pairRecord (s : State) : State :=
  let x := here s
  if (issueStop s Rows.pair {}).isNone && !(firOf s s.cur).paired && !(x.granted && x.wait == .pairPark) && pairUnusable s && x.pend.isEmpty then
    pairless (coreNo s.cur) (firOf s s.cur).handle s
  else s

/-- PAIR (R466). -/
def execPair (h : Head) (s : State) : Host.Outcome State Fault Refusal :=
  runHead Rows.pair h {} (do
    let s ← get
    let c := s.cur
    let f := firOf s c
    if f.paired then return .seq
    if ← answered .pairPark then
      upd (modFir c fun f => { f with paired := true })
      return .seq
    if pairUnusable s then illegal 0x0A
    let bound := (coreOf s (coreNo c)).units.any fun (_, u) =>
      match u with
      | some u => u.cid == c
      | none => false
    if bound || inGang s f then illegal 0x04
    throw (.wait .pairPark)) (pairRecord s)

/-- PAIR_START (R466): the partner context is free: the firing's state is copied. Checked execution starts when the PAIR
completes. -/
def execPairStart (cid : Nat) (s : State) : Host.Outcome State Fault Refusal :=
  let f := firOf s cid
  .next (if (ctxOf s cid).wait == .pairPark && (ctxOf s cid).st == .waiting && !(ctxOf s cid).granted then
      match partnerPlace s (coreNo cid) f.cch f.vch with
      | some part =>
        let s := openPair cid part s
        let s := modGrp (fun g => { g with pairs := g.pairs.map fun p => if p.prim == cid then { p with started := false } else p }) s
        grant cid (modFir cid (fun f => { f with paired := false }) s)
      | none => s
    else s)

/-- UNPAIR (R467): its interval is confirmed before it is performed. -/
def execUnpair (h : Head) (s : State) : Host.Outcome State Fault Refusal :=
  runHead Rows.unpair h {} (do
    let s ← get
    let f := firOf s s.cur
    if !f.paired then return .seq
    if f.actor.checked then illegal 0x04
    upd (freePair s.cur)
    pure .seq) s

/-! ### Supervisor control of firings (R468 to R471) -/

/-- The firing of a handle cannot be reached: status 2 (R468). -/
def handleGone (s : State) (n : Nat) : Bool := handleDev n != s.dev || controlCore s (handleCore n) || !liveHandle s n

/-- CTX.SAVE (R469). -/
def execCtxSave (h : Head) (s : State) : Host.Outcome State Fault Refusal :=
  runHead Rows.ctxSave h (Use.ofRow Rows.ctxSave h) (do
    let s ← get
    let n := (opA s h).toNat % 2 ^ 37
    let hold := h.b.toNat == 1
    let c := handleCid n
    let st :=
      if handleGone s n then 2
      else if (savedOf s n).isSome || c == s.cur || (match (ctxOf s c).wait with
          | .compose _ => true
          | _ => false) then 3
      else if noSave (firOf s c) || 8 ≤ requeueUsed s (coreNo c) then 1
      else 0
    if st != 0 then
      lateInt h.d (BitVec.ofNat 64 st) 14
      return .seq
    let id := (here s).nextPend
    addPend (if h.d == 0 then .none else .g h.d.toNat) [] .status 14
    upd (tryStop c ∘ askSave c hold (some (s.cur, id)))
    pure .seq) s

/-- CTX.LOAD (R470). -/
def execCtxLoad (h : Head) (s : State) : Host.Outcome State Fault Refusal :=
  runHead Rows.ctxLoad h (Use.ofRow Rows.ctxLoad h) (do
    let s ← get
    let n := (opA s h).toNat % 2 ^ 37
    let core := handleCore n
    match (if handleGone s n then none else savedOf s n) with
    | some v =>
      if !(v.held && v.complete) then lateInt h.d 3 14
      else if 8 ≤ requeueUsed s core then lateInt h.d 1 14
      else
        upd (modCore core fun k => { k with fq := k.fq ++ [{ fir := v.fir, enq := s.cyc, restoreTo := some v.cid }] })
        upd (modSaved core v.fir.handle fun v => { v with held := false })
        lateInt h.d 0 14
    | none => lateInt h.d (if handleGone s n then 2 else 3) 14
    pure .seq) s

/-- The record of a dropped firing (R471, R304). -/
def dropRecord (n asid : Nat) (s : State) : State := supRecord { code := 0x19, source := 0, unit := handleCore n, handle := n, asid := asid } s

/-- CTX.DROP (R471). -/
def execCtxDrop (h : Head) (s : State) : Host.Outcome State Fault Refusal :=
  runHead Rows.ctxDrop h (Use.ofRow Rows.ctxDrop h) (do
    let s ← get
    let n := (opA s h).toNat % 2 ^ 37
    if handleGone s n then
      lateInt h.d 2 14
      return .seq
    match savedOf s n with
    | some v =>
      if placedHandle s n then upd (abortPlaced v.cid) else upd (abortSaved v 2)
      upd (dropRecord n v.asid.toNat)
      lateInt h.d 0 14
      pure .seq
    | none =>
      let c := handleCid n
      upd (dropRecord n (ctxOf s c).asid.toNat ∘ abortPlaced c)
      if c == s.cur then return .gone
      lateInt h.d 0 14
      pure .seq) s

/-! ### TLBINV (R294, R472) -/

/-- Drop translations; walks in flight install nothing and their misses walk again. -/
def tlbDrop (p : TlbEntry → Bool) (s : State) : State :=
  modTr (fun t => { t with tlb := t.tlb.filter fun e => !p e, walks := [] }) s

/-- A TLBINV head: a release at device scope, the drop, and a completion that is an outstanding result. -/
def tlbinvHead (r : Row) (h : Head) (f : State → TlbEntry → Bool) (asid : State → Nat) (s : State) : Host.Outcome State Fault Refusal :=
  runHead r h (Use.ofRow r h) (do
    let s ← get
    if 4095 < asid s then illegal 0x0A
    release 3
    upd (tlbDrop (f s))
    addPend .none [] .inv 0
    pure .park) s

def execTlbinvVa (h : Head) (s : State) : Host.Outcome State Fault Refusal :=
  tlbinvHead Rows.tlbinvVa h (fun s e =>
    let va := (opA s h).toNat % 2 ^ 57
    e.asid == (gB s h).val.toNat && e.va ≤ va && va < e.va + e.size) (fun s => (gB s h).val.toNat) s
def execTlbinvAsid (h : Head) (s : State) : Host.Outcome State Fault Refusal :=
  tlbinvHead Rows.tlbinvAsid h (fun s e => e.asid == (gB s h).val.toNat) (fun s => (gB s h).val.toNat) s
def execTlbinvAll (h : Head) (s : State) : Host.Outcome State Fault Refusal :=
  tlbinvHead Rows.tlbinvAll h (fun _ _ => true) (fun _ => 0) s

end Sys2Proof.Machine
end

