-- ==== Sys2Proof/Machine/Results.lean ====
section
/-! DEFINITION. The events of the memory system: results, walks, store acknowledgements, ownership notices, replicas,
prefetches and evictions (R174 to R181 of 07_cores_strips.md, R211 to R225 of 08_memory_prisms.md, R291 to R296 of
10_translation_traps.md). -/

namespace Sys2Proof.Machine

/-! ### Outstanding results (R174, R392) -/

/-- Perform the reads of a pending result that are not yet performed and that no packet answers, in order, as far as
their tags let them; a read of bytes that an older result still reads waits for it. -/
def performPieces (cid : Nat) (older : List Pend) : List Piece → State → List Piece × State
  | [], s => ([], s)
  | p :: rest, s =>
    let blocked := older.any fun o => o.pieces.any fun q => q.known.isNone && overlaps p.pa p.n q.pa q.n
    let (p', s) :=
      if p.known.isSome || p.remote || blocked then (p, s)
      else
        match performRead cid p.pa p.n p.viaL1 s with
        | (.val x t, s) => ({ p with known := some x, knownTag := t }, s)
        | (.poison info, s) => ({ p with known := some 0, bad := some info }, s)
        | (.held, s) => (p, s)
    let (rest', s) := performPieces cid older rest s
    (p' :: rest', s)

/-- The little-endian number of the pieces' bytes. -/
def piecesNat : List Piece → Nat
  | [] => 0
  | p :: rest => p.known.getD 0 + 2 ^ (8 * p.n) * piecesNat rest

/-- Deliver a value to a g register: present, and poisoned when its data was (R392). -/
def deliverG (c r : Nat) (v : Cap) (bad : Option Nat) (s : State) : State :=
  modCtx c (fun x =>
    match bad with
    | some info => arriveG (poisonG x r info) r
    | none => arriveG (writeG x r v) r) s
/-- Deliver to `n` vector registers. -/
def deliverV (c r n : Nat) (f : Nat → VReg) (bad : Option Nat) (s : State) : State :=
  (List.range n).foldl (fun s i => modCtx c (fun x =>
    match bad with
    | some info => arriveV (poisonV x (r + i) info) (r + i)
    | none => arriveV (writeV x (r + i) (f i)) (r + i)) s) s

/-- Rows of a slot share: a poisoned row is zero and marks the rank (R452). -/
def deliverRows (c slot rank nsc : Nat) (ps : List Piece) (s : State) : State :=
  let strip := stripNo (coreNo c)
  let put (acc : Nat × State) (p : Piece) : Nat × State :=
    let (off, s) := acc
    let w : StripSt → StripSt :=
      if off < 1024 then opPoke (shareAt slot rank off) p.n (if p.bad.isSome then 0 else p.known.getD 0)
      else scPoke (slot * 1024 + (8 * rank + (off - 1024) / nsc) * 8 + (off - 1024) % nsc) p.n (if p.bad.isSome then 0 else p.known.getD 0)
    (off + p.n, modStrip strip w s)
  let s := (ps.foldl put (0, s)).2
  let rowOf (off : Nat) : Nat := if off < 1024 then off / 128 else (off - 1024) / nsc
  let bads := (ps.foldl (fun (acc : Nat × List Nat) p => (acc.1 + p.n, if p.bad.isSome then acc.2 ++ [rowOf acc.1] else acc.2)) (0, [])).2
  let s := bads.foldl (fun s r => modStrip strip (opPoke (shareAt slot rank (128 * r)) 128 0) s) s
  if bads.isEmpty then s
  else modStrip strip (fun t =>
    let sl := SMap.get {} t.slots slot
    { t with slots := SMap.set {} t.slots slot { sl with bad := if sl.bad.contains rank then sl.bad else sl.bad ++ [rank] } }) s

/-- Bytes of an accumulator bank; poisoned ones are free values (log 3). -/
def deliverBank (pa : Nat) (ps : List Piece) (s : State) : State :=
  (ps.foldl (fun (acc : Nat × State) p =>
    let (off, s) := acc
    if p.bad.isSome then
      (off + p.n, (List.range p.n).foldl (fun s i =>
        let (b, s) := freshByte s
        poke (pa + off + i) 1 b.toNat s) s)
    else (off + p.n, poke (pa + off) p.n (p.known.getD 0) s)) (0, s)).2

/-- Deliver a result whose reads are all performed (R392, R393, R394, R438, R452, R459). -/
def deliver (c : Nat) (p : Pend) (s : State) : State :=
  let bad := p.pieces.findSome? (·.bad)
  match p.dst with
  | .none => s
  | .g r =>
    let v : Cap :=
      match p.fin with
      | .int n sext =>
        let x := piecesNat p.pieces
        Cap.ofInt (if sext then BitVec.ofInt 64 (signedOf (8 * n) x) else BitVec.ofNat 64 x)
      | .cap keep =>
        let x := piecesNat p.pieces
        ⟨BitVec.ofNat 64 x, BitVec.ofNat 64 (x / 2 ^ 64), keep && p.pieces.all (·.knownTag)⟩
      | .cst v => v
      | _ => Cap.null
    deliverG c r v bad s
  | .v r =>
    let (ys, g) := loadLanes p.fin (p.pieces.map fun q => q.known.getD 0)
    let s := deliverV c r 1 (loadReg p.fin ys) bad s
    if bad.isSome then s else modCtx c (fun x => { x with fpflags := x.fpflags ||| g }) s
  | .vs r n =>
    let (ys, g) := loadLanes p.fin (p.pieces.map fun q => q.known.getD 0)
    let s := deliverV c r n (loadReg p.fin ys) bad s
    if bad.isSome then s else modCtx c (fun x => { x with fpflags := x.fpflags ||| g }) s
  | .bank pa => deliverBank pa p.pieces s
  | .slotRow slot rank _ =>
    let nsc := match p.fin with
      | .rows n => n
      | _ => 0
    deliverRows c slot rank (Nat.max 1 nsc) p.pieces s

/-- Deliver a result; in checked execution the primary forwards it, and both cores fold it (R200, R201). -/
def deliverBoth (c : Nat) (p : Pend) (s : State) : State :=
  match partnerOf s c with
  | none => deliver c p s
  | some q =>
    let s := deliver q p (deliver c p s)
    let fold (x : Ctx) (fp : W64) : W64 :=
      match p.dst with
      | .g r => foldG x [r] fp
      | .v r => foldV x [r] fp
      | .vs r n => foldV x ((List.range n).map (r + ·)) fp
      | _ => fp
    modGrp (fun g => { g with pairs := g.pairs.map fun e =>
      if e.prim == c && e.started then { e with fp := fold (ctxOf s c) e.fp, fpP := fold (ctxOf s q) e.fpP } else e }) s

/-- Accesses translated before a TLBINV have been performed (R294): no buffered store, unperformed read or stream
access is left. -/
def accessesDone (s : State) : Bool :=
  (s.cores.all fun (_, k) => k.sb.isEmpty && k.units.all fun (_, u) =>
    match u with
    | some u => u.out.isEmpty
    | none => true) &&
    (s.ctxs.all fun (_, x) => x.pend.all fun p => p.pieces.all fun q => q.known.isSome) && s.strips.all fun (_, t) => t.sauWait.isEmpty

/-- A result may arrive. -/
def arrives (s : State) (c : Nat) (p : Pend) : Bool :=
  p.readyAt ≤ s.cyc && (p.pieces.all fun q => q.known.isSome) &&
    (match p.fin with
      | .mma | .status => false
      | .inv => accessesDone s
      | .rmw _ _ _ _ => false
      | _ => true) &&
    (isThread c || (stripOf s (stripNo (coreNo c))).sauWait.all fun w => !(w.1 == c && w.2.1 == p.id))

/-- An atomic or RED that its home held is performed there once a tag allows it (R225); its own result stands aside while it
looks for older accesses. -/
def performRmw (cid : Nat) (p : Pend) (s : State) : Pend × State :=
  match p.fin with
  | .rmw a red attr pl =>
    let x := ctxOf s cid
    let now := s.cur
    let back (s : State) : State := { modCtx cid (fun y => { y with pend := x.pend, nextPend := x.nextPend }) s with cur := now }
    match performAt a attr pl p.id true { modCtx cid (fun y => { y with pend := y.pend.filter (·.id != p.id) }) s with cur := cid } with
    | .error _ t => (p, back t)
    | .ok o t =>
      let t := back t
      match o with
      | some (.val v) => ({ p with fin := .int a.w true, pieces := [{ pa := 0, n := a.w, known := some v }] }, t)
      | some (.bad i) =>
        if red then ({ p with fin := .int a.w true, pieces := [] }, postedFail cid (rmwPa pl) i t)
        else ({ p with fin := .int a.w true, pieces := [{ pa := 0, n := a.w, known := some 0, bad := some i }] }, t)
      | none => ({ p with fin := .int a.w true }, t)
  | _ => (p, s)

/-- RESULT_ARRIVAL: the pending result at a place of a context. -/
def execResultArrival (cid idx : Nat) (s : State) : Host.Outcome State Fault Refusal :=
  .next (match (ctxOf s cid).pend[idx]? with
    | none => s
    | some p =>
      let older := (ctxOf s cid).pend.take idx
      let (p, s) := performRmw cid p s
      let (ps, s) := performPieces cid older p.pieces s
      let p := { p with pieces := ps }
      let s := modCtx cid (fun x => { x with pend := x.pend.set idx p }) s
      if arrives s cid p then
        wakeReleases (resultWakes cid (modCtx cid (fun x => { x with pend := x.pend.eraseIdx idx }) (deliverBoth cid p s)))
      else s)

/-! ### Walks (R290 to R293) -/

/-- Misses of one ASID wait at the walker of one die (R291, R293). -/
def sameWalker (w x : Walk) : Bool := x.asid == w.asid && x.unit / 64 == w.unit / 64
/-- A walk that a leaf answers. -/
def walkCovered (w x : Walk) (va size : Nat) (attr : W64) : Bool :=
  sameWalker w x && va ≤ x.page * 4096 && x.page * 4096 < va + size && leafAllows attr.toNat x.kind x.user

/-- At most 4,096 entries of a strip stay, the newest (R291). The entries of a core's L1 TLB are among its strip's (log 24). -/
def tlbKeep (unit : Nat) : Nat → List TlbEntry → List TlbEntry
  | _, [] => []
  | n, e :: es =>
    if e.unit != unit then e :: tlbKeep unit n es
    else match n with
      | 0 => tlbKeep unit 0 es
      | n + 1 => e :: tlbKeep unit n es
/-- Put a translation in the TLBs of a unit, in place of what it held of the page. -/
def tlbInstall (unit asid va size pa : Nat) (attr : W64) (s : State) : State :=
  let e : TlbEntry := { unit := unit, asid := asid, va := va, size := size, pa := pa, attr := attr }
  modTr (fun t => { t with tlb := e :: tlbKeep unit 4095 (t.tlb.filter fun x =>
    !(x.unit == unit && x.asid == asid && x.va < va + size && va < x.va + x.size)) }) s

/-- A miss is one of the 128 walks in flight on its die; a later one waits in arrival order (R291, R293). -/
def walkInFlight (s : State) (idx : Nat) (w : Walk) : Bool :=
  let before := (s.tr.walks.take idx).filter fun x => x.unit / 64 == w.unit / 64 && !(x.asid == w.asid && x.page == w.page)
  decide ((before.map fun x => (x.asid, x.page)).eraseDups.length < 128)

/-- TLB_WALK_COMPLETE: a leaf answers every waiting miss that it covers; a fault those of its ASID and page. -/
def execTlbWalkComplete (idx : Nat) (s : State) : Host.Outcome State Fault Refusal :=
  .next (match s.tr.walks[idx]? with
    | none => s
    | some w =>
      if !walkInFlight s idx w then s
      else match walkTable s w.asid (w.page * 4096) w.kind w.user with
      | .leaf va size pa attr pte =>
        let hit := s.tr.walks.filter fun x => walkCovered w x va size attr
        let wr := hit.any fun x => x.kind.getLsbD 1
        let s := modTr (fun t => { t with walks := t.walks.filter fun x => !walkCovered w x va size attr }) (setAD pte wr s)
        hit.foldl (fun s x => tlbInstall x.unit w.asid va size pa (attrAD attr wr) s) s
      | .fault _ _ =>
        let s := modTr (fun t => { t with walks := t.walks.filter fun x => !(sameWalker w x && x.page == w.page) }) s
        let miss (c : Nat) (x : Ctx) : Bool :=
          x.wait == .walk w.page && x.asid.toNat == w.asid && x.st == .stalled && tlbUnit c / 64 == w.unit / 64
        { s with ctxs := s.ctxs.map fun (c, x) => if miss c x then (c, { x with granted := true, st := .ready }) else (c, x) })

/-! ### Stores (R175, R211, R212, R217, R218) -/

/-- What comes of a store at its home: it is performed and acknowledged, or it waits. -/
inductive StoreRes where
  | done (s : State)
  | wait (s : State)

/-- The slice that holds a line. -/
def sliceOf (s : State) (line : Nat) : Nat := ((SMap.get none s.ms.l2 line).map (·.home)).getD 0
/-- A notice from a line's slice to its registered owner, unless one is on its way (R212). -/
def postNotice (unit blk : Nat) (s : State) : State :=
  let m : NetMsg := .notice (sliceOf s blk) unit blk
  if s.net.contains m then s else postNet m s

/-- The mark of a remote store's packet, so that its acknowledgement frees the store. -/
def storeMark (n : Nat) : Nat := 2 ^ 66 + n
/-- The packet of a mark is still outstanding. -/
def markOut (s : State) (cid id : Nat) : Bool :=
  (outPkts s).any fun h => h.cid == some (cid, id) && !h.acked

/-- Send an uncached store to another device (R54). -/
def sendStore (d off : Nat) (e : SbEntry) (id : Nat) (s : State) : State :=
  let s := notePush e.pa s
  if e.n == 64 then
    sendSeq { ty := tWR, ddev := d, o := true, off := off } [BitVec.ofNat 512 e.data] (some (e.cid, id)) false s
  else
    sendSeq { ty := tWRM, ddev := d, o := true, off := off / 64 * 64 }
      [BitVec.ofNat 512 ((2 ^ e.n - 1) * 2 ^ (off % 64)), BitVec.ofNat 512 (e.data * 2 ^ (8 * (off % 64)))] (some (e.cid, id)) false s

/-- Perform a store of a unit (a core, or 4096 + strip) at its home. -/
def performStore (unit : Nat) (e : SbEntry) (s : State) : StoreRes :=
  match homeGate s e.cid e.pa 1 with
  | .refuse info => .done (postedFail e.cid e.pa info (unsuspend e.pa 1 e.cid s))
  | .hold post => .wait (suspend e.pa 1 e.cid post s)
  | .go =>
    let write (s : State) : State :=
      withHome e.pa e.home (homeWrite e.pa e.n e.data e.tag (if e.mca == 3 then none else some unit) e.cid)
        (unsuspend e.pa 1 e.cid (if e.fenced then s else noteLaunch e.cid e.pa e.n s))
    match ownerOf s (blockOf e.pa) with
    | some k => if k != unit then .wait (postNotice k (blockOf e.pa) s) else .done (write s)
    | none => .done (write s)

/-- The other replicas of a die's replica. -/
def otherReplicas (pa : Nat) : List Nat := ((List.range 4).map fun d => pa % 0x3000000000 + d * 0x3000000000).filter (· != pa)

/-- Perform a store under its page's mode: forwards for MCA 0, busy marks first for MCA 1 (R217). A store under MCA 1
waits for REPLICA_MARK_ACK. -/
def performMode (unit : Nat) (e : SbEntry) (s : State) : StoreRes :=
  if e.mca == 2 then
    let mine (m : NetMsg) : Bool := m == .replica e.pa (leBytes e.n e.data) e.tag true unit
    if s.net.any mine then .wait s
    else
      match homeGate s e.cid e.pa 1 with
      | .refuse info => .done (postedFail e.cid e.pa info (unsuspend e.pa 1 e.cid s))
      | .hold post => .wait (suspend e.pa 1 e.cid post s)
      | .go => .wait (postNet (.replica e.pa (leBytes e.n e.data) e.tag true unit) (unsuspend e.pa 1 e.cid s))
  else
    match performStore unit e s with
    | .wait s => .wait s
    | .done s =>
      if e.mca != 1 then .done s
      else .done ((otherReplicas e.pa).foldl (fun s a => postNet (.replica a (leBytes e.n e.data) e.tag false unit) s) s)

/-- A store of the buffer whose turn has come: fences of its context, older stores to the same bytes and outstanding
reads of them come first (R175, R269). -/
def storeReady (s : State) (core idx : Nat) (e : SbEntry) : Bool :=
  let before := (coreOf s core).sb.take idx
  (before.all fun x => !(x.cid == e.cid && x.ep < e.ep) && !overlaps x.pa x.n e.pa e.n) && !ownSau s e.cid e.pa e.n &&
    (List.range 8).all fun j => !readPending (ctxOf s (core * 8 + j)) e.pa e.n

/-- Contexts that wait for a stream look again (R163). -/
def wakeStreams (s : State) : State :=
  wakeIf (fun _ x => match x.wait with
    | .waiteStr _ => true
    | _ => false) s

/-- A buffered store is acknowledged: its entry is free, waiting pushes enter, and waits on it go on (R175, R179). -/
def freeStore (core idx : Nat) (s : State) : State :=
  let s := modCore core (fun k => { k with sb := k.sb.eraseIdx idx }) s
  let s := (List.range 8).foldl (fun s k => pumpUnit core k s) s
  wakeStreams (wakeReleases s)

/-- STORE_ACK (R175): the store at a place of the buffer is performed and acknowledged. -/
def execStoreAck (core idx : Nat) (s : State) : Host.Outcome State Fault Refusal :=
  .next (match (coreOf s core).sb[idx]? with
    | none => s
    | some e =>
      if !storeReady s core idx e then s
      else
        match spaceOf s e.pa with
        | .remote d off =>
          if e.mca < 3 then
            match performMode core e s with
            | .done t => freeStore core idx (l1Store core e.pa e.n e.data e.tag t)
            | .wait t => t
          else if 4 ≤ e.mca then (if markOut s e.cid (storeMark (e.mca - 4)) then s else freeStore core idx s)
          else if !routable s d then freeStore core idx (postedFail e.cid e.pa 7 s)
          else
            let n := (ctxOf s e.cid).nextPend
            let s := modCtx e.cid (fun x => { x with nextPend := n + 1 }) (sendStore d off e (storeMark n) s)
            modCore core (fun k => { k with sb := k.sb.set idx { e with mca := 4 + n } }) s
        | _ =>
          match performMode core e s with
          | .done t => freeStore core idx (if e.mca == 3 then t else l1Store core e.pa e.n e.data e.tag t)
          | .wait t => t)

/-- The write-through of a strip atomic unit is acknowledged: its atomic is performed (R219). -/
def freeSau (strip idx : Nat) (s : State) : State :=
  wakeReleases (modStrip strip (fun t => { t with sauWait := t.sauWait.eraseIdx idx }) s)

/-- STRIP_ATOMIC_ACK (R219): the unit's write-throughs reach a home in the order of its atomics. -/
def execStripAtomicAck (strip idx : Nat) (s : State) : Host.Outcome State Fault Refusal :=
  let ws := (stripOf s strip).sauWait
  .next (match ws[idx]? with
    | none => s
    | some (_, _, e) =>
      if (ws.take idx).any fun w => blockOf w.2.2.pa == blockOf e.pa then s
      else
        match performMode (4096 + strip) e s with
        | .done t => freeSau strip idx t
        | .wait t => t)

/-- OWNERSHIP_NOTICE (R212, R219): the unit's owned bits or copy go, and the notice is acknowledged. -/
def execOwnershipNotice (idx : Nat) (s : State) : Host.Outcome State Fault Refusal :=
  .next (match netAt s idx with
    | some (.notice _ unit blk) =>
      let s := dropOwned unit blk (netTake idx s)
      modMs (fun m => { m with l2 := SMap.set none m.l2 blk ((SMap.get none m.l2 blk).map fun l =>
        if l.owner == some unit then { l with owner := none } else l) }) s
    | _ => s)

/-- REPLICA_FORWARD (R217). -/
def execReplicaForward (idx : Nat) (s : State) : Host.Outcome State Fault Refusal :=
  .next (match netAt s idx with
    | some (.replica pa bytes tag false _) =>
      wakeReleases (memWrite pa bytes.length (leNat bytes) tag none (netTake idx s))
    | _ => s)

/-- REPLICA_MARK_ACK (R217): the four busy marks are acknowledged: all replicas are written, the marks go, and the writer
is acknowledged. -/
def execReplicaMarkAck (idx : Nat) (s : State) : Host.Outcome State Fault Refusal :=
  .next (match netAt s idx with
    | some (.replica pa bytes tag true unit) =>
      let n := bytes.length
      let all := pa :: otherReplicas pa
      let home (a : Nat) : Nat := dieHome s (a / 0x3000000000) a
      let write (s : State) (a : Nat) : State :=
        withHome a (home a) (memWrite a n (leNat bytes) tag (if a == pa then some unit else none)) s
      let s := wakeTags (fun b => (all.map blockOf).contains b) (all.foldl write (netTake idx s))
      let is (e : SbEntry) : Bool := e.mca == 2 && e.pa == pa && e.n == n
      if unit < 4096 then
        match (coreOf s unit).sb.findIdx? is with
        | some i => freeStore unit i (l1Store unit pa n (leNat bytes) tag s)
        | none => s
      else
        match (stripOf s (unit - 4096)).sauWait.findIdx? fun w => is w.2.2 with
        | some i => freeSau (unit - 4096) i s
        | none => s
    | _ => s)

/-! ### Streams, evictions and waiters -/

/-- STREAM_PREFETCH (R179, R181): one more register of a read stream, at most 4 ahead of the pops; a range lock leaves it
for the pop. The flags of a conversion stand with the register until it is popped. -/
def execStreamPrefetch (core unit : Nat) (s : State) : Host.Outcome State Fault Refusal :=
  .next (match SMap.get none (coreOf s core).units unit with
    | none => s
    | some u =>
      let at_ := u.pos + u.ahead.length * SU.per u
      let blocked := u.ahead.any fun a => a.2.2.isSome
      if u.write || 4 ≤ u.ahead.length || SU.total u ≤ at_ || blocked then s
      else
        let was := (ctxOf s u.cid).fpflags
        match regRead u at_ (SU.per u) 0 (modCtx u.cid (fun x => { x with fpflags := 0 }) { s with cur := u.cid }) with
        | .error _ t => { keepRequests s t with cur := s.cur }
        | .ok (y, f) t =>
          match f with
          | some (_, 5) => s
          | _ =>
            let g := (ctxOf t u.cid).fpflags
            wakeStreams <| setUnit core unit (some { u with ahead := u.ahead ++ [(BitVec.ofNat 1024 y, g, f)] })
              (modCtx u.cid (fun x => { x with fpflags := was }) { t with cur := s.cur }))

/-- L2_EVICTION (R212, R220, R242): a line leaves its home slice; its registered owner is told first. -/
def execL2Eviction (line : Nat) (s : State) : Host.Outcome State Fault Refusal :=
  .next (match SMap.get none s.ms.l2 line with
    | none => s
    | some l =>
      if l.pinned.isSome then s
      else
        match l.owner with
        | some k => postNotice k line s
        | none =>
          let s := giveUpLine (64 * line) l s
          modMs (fun m => { m with l2 := SMap.set none m.l2 line none }) s)

/-- GANG_WATCHDOG (R187): the count of the open barrier has reached the limit: one record goes, and the count clears. -/
def execGangWatchdog (strip : Nat) (s : State) : Host.Outcome State Fault Refusal :=
  let t := stripOf s strip
  let lim := bitsOf t.gwlim.toNat 15 0 * 1024
  .next (if t.gangSince.isSome && t.gang.isEmpty && t.barmax.isEmpty then
      modStrip strip (fun t => { t with gangSince := none, gangCount := 0 }) s
    else if t.gangSince.isSome && lim != 0 && lim ≤ t.gangCount then
      supRecord { code := 0x11, source := 1, unit := strip, info := 256 } (modStrip strip (fun t => { t with gangCount := 0 }) s)
    else s)

/-- FE_WAITER_RETRY (R164): an unrecorded waiter tries again after 256 cycles. -/
def execFeWaiterRetry (cid : Nat) (s : State) : Host.Outcome State Fault Refusal :=
  let x := ctxOf s cid
  .next (match x.wait with
    | .fullEmpty _ false => if x.st == .waiting && x.since + 256 ≤ s.cyc then modCtx cid (fun x => { x with st := .ready }) s else s
    | _ => s)

end Sys2Proof.Machine
end

