-- ==== Sys2Proof/Machine/FabricReply.lean ====
section
/-! DEFINITION. Replies, acknowledgements and refusals as the source takes them (R42, R45 to R49 of 02_xitrum_fabric.md), and
the resynchronisation of a window (R53, R57). -/

namespace Sys2Proof.Machine

/-! ### The request that a reply answers -/

/-- The copy of a number that a window holds and no reply has answered (R46). -/
def heldOf (s : State) (w seq : Nat) : Option HeldPkt := (winOf s w).held.find? fun h => h.seq == seq && !h.answered
/-- Change a held copy. -/
def modHeld (w seq : Nat) (f : HeldPkt → HeldPkt) (s : State) : State :=
  let x := winOf s w
  setWin s w { x with held := x.held.map fun h => if h.seq == seq then f h else h }
/-- The window of a destination goes on after copies have been freed: BASE rises, the timer of R50 runs for the oldest copy
(`moved` says that DONE has advanced), packets that wait enter, and waits for coverage look again. When a reply frees the oldest
copy, the timer of the next oldest starts at that moment: R50 does not say which moment, DESIGN CHOICE (log 86). -/
def windowFree (w : Nat) (moved : Bool) (s : State) : State :=
  let x := winOf s w
  let held := x.held.filter fun h => !(h.acked && (h.answered || !h.wantsReply))
  let timer := match held, x.held with
    | [], _ => none
    | a :: _, b :: _ => if a.seq != b.seq || (moved && !a.acked) then some s.cyc else x.timer
    | _ :: _, [] => x.timer
  let s := setWin s w { x with held := held, timer := timer }
  wakeReleases (prbPump (portPump (seqPort s (w / 2)) (windowPump (w / 2) w 2048 s)))
/-- A reply has answered a copy. -/
def answeredPkt (w seq : Nat) (s : State) : State := windowFree w false (modHeld w seq (fun h => { h with answered := true }) s)

/-- Change the first entry of a list that satisfies `p`. -/
def mapFirst {α : Type} (p : α → Bool) (f : α → α) : List α → List α
  | [] => []
  | x :: rest => if p x then f x :: rest else x :: mapFirst p f rest

/-- A piece of a load or atomic that a packet stands for. -/
def pieceOfPkt (s : State) (k : Hdr) (p : Piece) : Bool :=
  p.remote && p.known.isNone && (match spaceOf s p.pa with
    | .remote d off => d == k.ddev && (k.ty == tAMO || (rdOff off p.n == k.off && rdOp off p.n == k.op))
    | _ => false)
/-- Answer the piece of a pending result: its value, or what makes it poisoned (R49). -/
def answerPiece (c id : Nat) (k : Hdr) (val : Piece → Nat) (bad : Option Nat) (s : State) : State :=
  let f (p : Piece) : Piece := { p with known := some (val p), bad := bad }
  modCtx c (fun x => { x with pend := x.pend.map fun q =>
    if q.id == id then { q with pieces := mapFirst (pieceOfPkt s k) f q.pieces } else q }) s
/-- Answer the read that a head waits for. -/
def answerFetch (c : Nat) (k : Hdr) (val : Nat → Nat → Nat) (bad : Option Nat) (s : State) : State :=
  match (ctxOf s c).wait with
  | .remote pa n =>
    match spaceOf s pa with
    | .remote d off =>
      if d == k.ddev && rdOff off n == k.off then
        modCtx c (fun x => { x with
          fetched := x.fetched ++ [match bad with
            | some st => (pa, n, false, st)
            | none => (pa, n, true, val off n)]
          granted := true
          st := if x.st == .waiting then .ready else x.st }) s
      else s
    | _ => s
  | _ => s

/-- The copy that a party number names. -/
def copyOfMark (s : State) (c : Nat) : Option Copy := if 2 ^ 44 ≤ c then copyById s (c - 2 ^ 44) else none
/-- An RD of a copy engine is answered. -/
def answerCopy (c blk : Nat) (ok : Bool) (x : Nat) (s : State) : State :=
  modCopy (c - 2 ^ 44) (fun y => { y with got := y.got ++ [(blk, ok, x)], asked := none }) s

/-- A message to a Prism's reply inbox about a block of another device (R240). -/
def proxyReply (p ty dev off seq : Nat) (data : Option (BitVec 512)) (pz : Bool) (s : State) : State :=
  let (q, s) := pktReq dev s
  modPrism p (fun x => { x with rep := x.rep ++ [{
    ty := ty, block := off, requester := q, seq := BitVec.ofNat 64 seq, data := data, pz := pz }] }) s
/-- The block that a Prism's packet is about, as its own device names it: a block of the destination for GETS and GETM, of
this device for probes. -/
def fwdBlock (s : State) (k : Hdr) : Nat :=
  if k.ty == tRD || (k.ty == tWR && k.op == 1) || (k.ty == tPRB && 4 ≤ k.op) then remotePa k.ddev (k.off / 64 * 64)
  else (offsetPa s (k.off / 64 * 64)).getD (k.off / 64 * 64)

/-- Data that answers a request: `data` is RDATA's or ARES's flit, `off` its OFFSET field. -/
def answerWith (h : HeldPkt) (off : Nat) (data : BitVec 512) (pz : Bool) (s : State) : State :=
  let k := hdrOf h.pkt.hdr
  match h.cid with
  | none => s
  | some (c, id) =>
    if fwdAsks k.ty k.op then
      proxyReply (c - 2 ^ 21) (if k.ty == tRD then 0x0B else 0x05) k.ddev (fwdBlock s k)
        (if k.ty == tRD then bitsOf off 39 24 else id % 65536) (some data) pz s
    else if c == feCid then
      if k.ty == tRD then feAnswer id (if pz then 257 else 0) data s else completePacket id stDone s
    else if 2 ^ 44 ≤ c then answerCopy c id (!pz) (if pz then 256 else data.toNat) s
    else
      let bad := if pz then some 0 else none
      let s := if k.ty == tAMO then (if id == syncRead then s else answerPiece c id k (fun p => data.toNat % 2 ^ (8 * p.n)) bad s)
        else if id == syncRead then answerFetch c k (fun o n => rdPart o n data) bad s
        else answerPiece c id k (fun p => rdPart (p.pa % 2 ^ 41) p.n data) bad s
      if isThread c then s else l1Acquire (coreNo c) s

/-- RDATA and ARES: the first reply completes the request; later ones are dropped (R46). -/
def replyIn (tys : List Nat) (p : Packet) (k : Hdr) (s : State) : State :=
  let w := 2 * k.sdev
  let seq := k.off % 65536
  match heldOf s w seq with
  | none => s
  | some h =>
    if tys.contains (hdrOf h.pkt.hdr).ty then answeredPkt w seq (answerWith h k.off (p.data.getD 0 0) k.pz s) else s

/-! ### Requests that fail (R47, R49) -/

/-- The error record of a posted request that failed, by its party. -/
def failPosted (c pa st : Nat) (s : State) : State :=
  if isThread c || (2 ^ 21 ≤ c && c ≤ 2 ^ 22) then
    let p := if isThread c then prismNo c else servingPrism s pa
    supRecord { code := 0x43, source := 2, unit := p, addr := pa, info := st }
      (bbWrite (prismIo p) 2 p 0x43 [BitVec.ofNat 64 pa, BitVec.ofNat 64 st] s)
  else postedFail (((copyOfMark s c).map (·.cid)).getD c) pa st s
/-- A copy's request failed: the copy ends with STATUS 5; of its signal, its record or a PUSHREL an error record goes
(R49, R261). -/
def failCopy (c blk pa st : Nat) (isRead isData : Bool) (s : State) : State :=
  match copyOfMark s c with
  | none => s
  | some y =>
    if isRead then answerCopy c blk false st s
    else if isData && !y.recorded then
      modCopy y.id (fun y => { y with ended := match y.ended with
        | some (2, f) => some (2, f)
        | some (3, f) => some (3, f)
        | some (5, f) => some (5, f)
        | _ => some (5, st) }) s
    else failPosted c pa st s

/-- Report a request under its status (R49, R242, R414, R477). -/
def failPkt (h : HeldPkt) (st : Nat) (s : State) : State :=
  let k := hdrOf h.pkt.hdr
  let pa := remotePa k.ddev k.off
  match h.cid with
  | none => s
  | some (c, id) =>
    if 2 ^ 21 ≤ c && c < 2 ^ 22 then fwdRefused (c - 2 ^ 21) (fwdBlock s k) k.ddev (id % 65536) st (k.ty == tRD) s
    else if k.ty == tMSG || k.ty == tMREP then
      let m := pktMsg 0 0 k h.pkt.data s
      if c == feCid then completePacket id stFailed s
      else postNet (.undeliverable (portUnit s k.ddev) st m.sender m.target m.line h.quiet m.asid none) s
    else if 2 ^ 44 ≤ c then failCopy c id pa st (k.ty == tRD) (k.ty == tWRM) s
    else if c == feCid && k.ty == tRD then feAnswer id (st + 1) 0 s
    else if c == feCid then completePacket id stDone (failPosted c pa st s)
    else if k.ty == tRD then
      (if id == syncRead then answerFetch c k (fun _ _ => 0) (some st) s else answerPiece c id k (fun _ => 0) (some st) s)
    else if k.ty == tAMO && id != syncRead then answerPiece c id k (fun _ => 0) (some st) s
    else failPosted c pa st s

/-- Send SYNC on a lane: it carries the new BASE (R57). -/
def syncLane (s : State) (w : Nat) : State :=
  let x := winOf s w
  let s := sendRaw { ty := tACK, ddev := w / 2, op := 2 + w % 2, base := x.next } [] s
  setWin s w { x with base := x.next, synced := true, holdUntil := none, allDown := none, lastSent := s.cyc }
/-- Send SYNC on lanes of a destination; new packets follow only then (R53, R57). -/
def sendSync (ws : List Nat) (s : State) : State :=
  ws.foldl (fun s w => windowPump (w / 2) w 2048 s) (ws.foldl syncLane s)

/-- Every request that is outstanding in a window fails with a status (R53, R57); `all` takes those that wait too. -/
def failWindow (w st : Nat) (all : Bool) (s : State) : State :=
  let x := winOf s w
  let out := (x.held.filter fun h => !h.answered && (!h.acked || h.wantsReply)) ++ (if all then x.queued else [])
  let s := setWin s w { x with held := [], queued := if all then [] else x.queued, timer := none }
  wakeReleases (prbPump (out.foldl (fun s h => failPkt h st s) s))

/-- A NAK arrives (R47). -/
def nakIn (k : Hdr) (s : State) : State :=
  let w := 2 * k.sdev + k.op % 2
  let seq := k.off % 65536
  let st := bitsOf k.off 23 16
  match heldOf s w seq with
  | none => s
  | some h =>
    if st == 3 then
      let d := 2 * k.sdev
      sendSync [d, d + 1] (failWindow (d + 1) 3 false (failWindow d 3 false s))
    else if st == 2 && !(h.cid.any fun c => 2 ^ 21 ≤ c.1 && c.1 < 2 ^ 22) then
      let s := answeredPkt w seq s
      if 64 ≤ h.retries then failPkt h 6 s
      else modFab (fun f => { f with nakWait := f.nakWait ++
        [(w, { h with retries := h.retries + 1, acked := false, answered := false }, s.cyc + Config.cyclesPerUs)] }) s
    else answeredPkt w seq (failPkt h st s)

/-- NAK_RETRY_RESEND (R47): sent again as a new packet. -/
def execNakRetryResend (idx : Nat) (s : State) : Host.Outcome State Fault Refusal :=
  .next (match s.fab.nakWait[idx]? with
    | none => s
    | some (w, h, due) =>
      if s.cyc < due then s
      else
        let s := modFab (fun f => { f with nakWait := f.nakWait.eraseIdx idx }) s
        let x := winOf s w
        windowPump (w / 2) w 1 (setWin s w { x with queued := x.queued ++ [h] }))

/-! ### Acknowledgements (R42) -/

/-- DONE covers a number. -/
def covers (done seq : Nat) : Bool := (done + 65536 - seq) % 65536 < 32768
/-- An ACK without SYNC: copies up to DONE are acknowledged; probes answered without data are answered, and packets of a queue
whose write it covers complete (R42, R115, R240). -/
def ackIn (k : Hdr) (s : State) : State :=
  let w := 2 * k.sdev + k.op % 2
  let done := k.off % 65536
  let x := winOf s w
  let now := x.held.filter fun h => !h.acked && covers done h.seq
  let s := setWin s w { x with held := x.held.map fun h => if covers done h.seq then { h with acked := true } else h }
  let probe (s : State) (h : HeldPkt) : State :=
    let y := hdrOf h.pkt.hdr
    match h.cid with
    | some (c, id) => if y.ty == tPRB && fwdAsks y.ty y.op && !h.answered then
        proxyReply (c - 2 ^ 21) 0x04 k.sdev (fwdBlock s y) (id % 65536) none false s
      else if c == feCid && y.ty == tWRM then completePacket id stDone s
      else s
    | none => s
  windowFree w (!now.isEmpty) (now.foldl probe s)

/-- No message of a source's window is known any more as one of its packets. -/
def forgetPkts (w : Nat) (s : State) : State :=
  let keep (f : Option (Nat × Nat)) : Option (Nat × Nat) := f.filter fun x => x.1 != w
  let msg (m : PMsg) : PMsg := { m with from_ := keep m.from_ }
  let prism (x : PrismSt) : PrismSt := { x with
    req := x.req.map msg
    txn := x.txn.map fun (b, t) => (b, t.map fun t => { t with bound := t.bound.map fun b => (b.1, keep b.2) })
    thr := x.thr.map fun (t, r) => (t, r.map fun r => { r with msg := msg r.msg }) }
  let net (m : NetMsg) : Bool :=
    match m with
    | .msg _ m => m.from_.any fun x => x.1 == w
    | _ => false
  let s := { s with
    prisms := s.prisms.map fun (p, x) => (p, prism x)
    net := s.net.filter fun m => !net m }
  let fau (o : FauOp) : FauOp := { o with from_ := keep o.from_ }
  let s := modFab (fun f => { f with prbWait := f.prbWait.filter fun e => e.1 != w, fau := f.fau.map fau }) s
  modMs (fun m => { m with susp := m.susp.filter fun u => !(2 ^ 33 ≤ u.cid && u.cid < 2 ^ 34 && (u.cid - 2 ^ 33) / 65536 == w) }) s
/-- A SYNC arrives (R57): CUM is BASE - 1, and the map and result cache of the source are clear. -/
def syncIn (k : Hdr) (s : State) : State :=
  let w := 2 * k.sdev + k.op % 2
  let cum := (k.base + 65535) % 65536
  let s := forgetPkts w s
  let s := if w % 2 == 1 then s else modFab (fun f => { f with rcache := f.rcache.filter fun e => e.1 / 2048 != k.sdev }) s
  setFilt w { known := true, cum := cum, done := cum } s

/-- An unsequenced packet of one type comes in at a Xitrum port. -/
def rawIn (ty port : Nat) (p : Packet) (go : Hdr → State → State) (s : State) : State :=
  if 18 ≤ port then s else comesIn [ty] port p go s

def execRdata (port : Nat) (p : Packet) (s : State) : Host.Outcome State Fault Refusal :=
  .next (rawIn tRDATA port p (replyIn [tRD, tPRB] p) s)
def execAres (port : Nat) (p : Packet) (s : State) : Host.Outcome State Fault Refusal :=
  .next (rawIn tARES port p (replyIn [tAMO] p) s)
def execNak (port : Nat) (p : Packet) (s : State) : Host.Outcome State Fault Refusal := .next (rawIn tNAK port p nakIn s)
/-- ACK: a cumulative acknowledgement. -/
def execAck (port : Nat) (p : Packet) (s : State) : Host.Outcome State Fault Refusal :=
  .next (rawIn tACK port p (fun k s => if k.op / 2 % 2 == 0 then ackIn k s else s) s)
/-- SYNC: an ACK with OP bit 1. -/
def execSync (port : Nat) (p : Packet) (s : State) : Host.Outcome State Fault Refusal :=
  .next (rawIn tACK port p (fun k s => if k.op / 2 % 2 == 1 then syncIn k s else s) s)

end Sys2Proof.Machine
end

