-- ==== Sys2Proof/Machine/FabricLinks.lean ====
section
/-! DEFINITION. Links, timers, failover, domain barriers and scale-out frames (R33, R42, R50 to R60 of
02_xitrum_fabric.md). -/

namespace Sys2Proof.Machine

/-! ### Failover (R50, R51) -/

/-- The route entry with a DOWN bit set or cleared, and ACT the candidate that is now active (R37, R38). -/
def routeDown (r : BitVec 32) (i : Nat) (down : Bool) : BitVec 32 :=
  let bit : BitVec 32 := BitVec.ofNat 32 (2 ^ (25 + i))
  let r := if down then r ||| bit else r &&& ~~~bit
  let r := r &&& ~~~(BitVec.ofNat 32 (3 * 2 ^ 29))
  r ||| BitVec.ofNat 32 (((activeCand r).getD 0) * 2 ^ 29)
def setRoute (dest : Nat) (r : BitVec 32) (s : State) : State :=
  modFab (fun f => { f with routes := SMap.set 0x1FFFFE0#32 f.routes dest r }) s

/-- Send again every copy that a window holds, in order (R51). -/
def resendAll (dest w : Nat) (s : State) : State :=
  let x := winOf s w
  let s := x.held.foldl (fun s h => sendHeld dest w true h s) s
  setWin s w { x with timer := if x.held.isEmpty then none else some s.cyc, lastSent := if x.held.isEmpty || (activeCand (routeOf s dest)).isNone then x.lastSent else s.cyc }
/-- When every candidate is DOWN, the wait of R53 begins. -/
def noteDown (dest : Nat) (s : State) : State :=
  let mark (s : State) (w : Nat) : State :=
    let x := winOf s w
    setWin s w { x with allDown := if x.allDown.isNone then some s.cyc else x.allDown }
  if (activeCand (routeOf s dest)).isSome then s else mark (mark s (2 * dest)) (2 * dest + 1)
/-- Both windows of a destination fail over: DOWN for the active candidate, the next one is active, and what is held goes
again. -/
def failover (dest : Nat) (s : State) : State :=
  match activeCand (routeOf s dest) with
  | none => s
  | some c =>
    let s := setRoute dest (routeDown (routeOf s dest) c true) (modFab (fun f => { f with failedAt := some s.cyc }) s)
    noteDown dest (resendAll dest (2 * dest + 1) (resendAll dest (2 * dest) s))

/-- TACK_EXPIRY (R50). -/
def execTackExpiry (dest lane : Nat) (s : State) : Host.Outcome State Fault Refusal :=
  let x := winOf s (2 * dest + lane % 2)
  .next (if !x.held.isEmpty && (x.timer.any fun t => t + s.fab.tackUs * Config.cyclesPerUs ≤ s.cyc) then failover dest s else s)

/-- UNREACHABLE_TIMEOUT (R53): every request completes with UNREACHABLE and the sequence state is freed; the loss is recorded
and raises PF vector 1 (R106). -/
def execUnreachableTimeout (dest : Nat) (s : State) : Host.Outcome State Fault Refusal :=
  let w := 2 * dest
  .next (if (activeCand (routeOf s dest)).isSome then s
    else match (winOf s w).allDown with
      | none => s
      | some t =>
        if s.cyc < t + 100 * Config.cyclesPerUs then s
        else
          let again := s.fab.nakWait.filter fun e => e.1 / 2 == dest
          let s := modFab (fun f => { f with nakWait := f.nakWait.filter fun e => e.1 / 2 != dest }) s
          let s := again.foldl (fun s e => failPkt e.2.1 7 s) s
          let clear (s : State) (w : Nat) : State :=
            let x := winOf s w
            setWin s w { allDown := x.allDown, lastSent := x.lastSent }
          let first := (winOf s w).synced || (winOf s (w + 1)).synced
          let s := clear (clear (failWindow (w + 1) 7 true (failWindow w 7 true s)) w) (w + 1)
          if first then vecEvent 0 1 (portRecord (seqPort s dest) 0x53 [BitVec.ofNat 64 dest] s) else s)

/-- A destination has a valid candidate again: its windows go on, or, after UNREACHABLE, hold new requests until 1 ms has
passed since the last transmission to it on either lane (R53). -/
def routeBack (dest : Nat) (s : State) : State :=
  let last := Nat.max (winOf s (2 * dest)).lastSent (winOf s (2 * dest + 1)).lastSent
  let go (s : State) (w : Nat) : State :=
    let x := winOf s w
    if x.allDown.isNone then s
    else if x.synced then windowPump dest w 2048 (resendAll dest w (setWin s w { x with allDown := none }))
    else setWin s w { x with allDown := none, holdUntil := some (last + 1000 * Config.cyclesPerUs) }
  if (activeCand (routeOf s dest)).isSome then go (go s (2 * dest)) (2 * dest + 1) else s

/-- RESYNC_HOLD_EXPIRY (R53). -/
def execResyncHoldExpiry (dest : Nat) (s : State) : Host.Outcome State Fault Refusal :=
  .next (sendSync ([2 * dest, 2 * dest + 1].filter fun w => (winOf s w).holdUntil.any fun t => t ≤ s.cyc) s)

/-- PATH_CHECK (R51): a check over a candidate succeeds, and its DOWN bit is cleared. -/
def execPathCheck (dest cand : Nat) (ok : Bool) (s : State) : Host.Outcome State Fault Refusal :=
  let r := routeOf s dest
  .next (if ok && cand < 4 && candPort r cand < 26 && candDown r cand then routeBack dest (setRoute dest (routeDown r cand false) s) else s)

/-- POST_RESET_SYNC (R57). -/
def execPostResetSync (dest : Nat) (s : State) : Host.Outcome State Fault Refusal :=
  let due (w : Nat) : Bool :=
    let x := winOf s w
    !(x.synced || x.holdUntil.isSome || x.allDown.isSome)
  .next (if routable s dest && dest < 16384 && s.fab.resetAt + 1000 * Config.cyclesPerUs ≤ s.cyc then
      sendSync ([2 * dest, 2 * dest + 1].filter due) s
    else s)

/-- ACK_TIMER (R42): an ACK goes at least every 1 µs; packets that wait for their turn look again. -/
def execAckTimer (src lane : Nat) (s : State) : Host.Outcome State Fault Refusal :=
  let w := 2 * src + lane % 2
  let s := filterPump w s
  .next (if (filtOf s w).since.any fun t => t + Config.cyclesPerUs ≤ s.cyc then sendAck w s else s)

/-! ### Links (R33, R60) -/

/-- The candidates of a route entry on a port, the active one apart, are DOWN (R53). -/
def standbyDown (port : Nat) (r : BitVec 32) : BitVec 32 :=
  ((List.range 4).filter fun i => candPort r i == port && !candDown r i && activeCand r != some i).foldl
    (fun r i => routeDown r i true) r
/-- A route entry meets the loss of a port's link: its candidates on the port are DOWN, and when the active one is among them
it fails over at once (R50, R53). -/
def routeLost (port : Nat) (s : State) (dest : Nat) : State :=
  let r := routeOf s dest
  if !routeValid r then s
  else
    let s := setRoute dest (standbyDown port r) s
    if (activeCand r).any fun c => candPort r c == port then failover dest s else s
/-- A link goes down: it is recorded, what waits to leave by it is lost, and every route entry that names the port takes notice
(R33, R50, R53). -/
def linkDown (port : Nat) (s : State) : State :=
  if !(portOf s port).up then s
  else
    let s := portRecord port 0x33 [BitVec.ofNat 64 port] (modPort port (fun x => { x with up := false, credReq := 0, credRep := 0 }) s)
    let s := modFab (fun f => { f with outq := f.outq.filter (·.port != port) }) s
    (s.fab.routes.map (·.1)).foldl (routeLost port) s

/-- FLIT_CRC_RESEND (R33): one more resend in a row. -/
def execFlitCrcResend (port : Nat) (s : State) : Host.Outcome State Fault Refusal :=
  .next (if port < 26 && (portOf s port).up then modPort port (fun x => { x with resends := x.resends + 1 }) s else s)
/-- LINK_RESEND_FAILURE_LIMIT (R33): sixteen in a row have failed. -/
def execLinkResendFailureLimit (port : Nat) (s : State) : Host.Outcome State Fault Refusal :=
  .next (if 16 ≤ (portOf s port).resends then linkDown port s else s)
/-- BLOCK_LOCK_LOSS (R33). -/
def execBlockLockLoss (port : Nat) (s : State) : Host.Outcome State Fault Refusal := .next (linkDown port s)
/-- LINK_IDLE_TIMEOUT (R33): no valid flit for 2 µs. -/
def execLinkIdleTimeout (port : Nat) (s : State) : Host.Outcome State Fault Refusal :=
  .next (if (portOf s port).lastValid + 2 * Config.cyclesPerUs ≤ s.cyc then linkDown port s else s)
/-- IDLE_FLIT (R33): this end sends an idle flit. -/
def execIdleFlit (port : Nat) (s : State) : Host.Outcome State Fault Refusal :=
  .next (if port < 26 && (portOf s port).up then modPort port (fun x => { x with lastIdle := s.cyc }) s else s)
/-- The far end's idle flit arrives, a valid flit (R33), with the credit that it grants for the request lane and the reply
lane (R40, log 82). -/
def flitIn (port a b : Nat) (s : State) : State :=
  if port < 26 && (portOf s port).up then
    outPump (modPort port (fun x => { x with lastValid := s.cyc, credReq := x.credReq + a, credRep := x.credRep + b }) s)
  else s

/-- An event is reported to the control column (R60). -/
def toColumn (event : Nat) (data : List W64) (s : State) : State :=
  modFirm (fun f => { f with column := f.column ++ [(event, data)] }) s
/-- LINK_TRAINING (R60): the highest common version, rate and width; a link without a common version stays down, which is
recorded and reported to the control column, and so does one with fewer than two lanes. A link below the full setting is
recorded, and one that is up trains again only on a command of the control column. -/
def execLinkTraining (port : Nat) (peer : LinkOffer) (s : State) : Host.Outcome State Fault Refusal :=
  .next (if 26 ≤ port || !(bootTable s).fabric || ((portOf s port).up && !peer.commanded) then s
    else
      let v11 := peer.versions.getLsbD 1
      let lanes := if 4 ≤ peer.lanes then 4 else if 2 ≤ peer.lanes then 2 else 0
      let rate := v11 && peer.rate224
      if peer.versions == 0 || lanes == 0 then
        let data := [BitVec.ofNat 64 port, BitVec.ofNat 64 peer.versions.toNat, BitVec.ofNat 64 peer.lanes]
        toColumn 0x60 data (portRecord port 0x60 data (linkDown port s))
      else
        let s := modPort port (fun _ => { up := true, ver11 := v11, rate224 := rate, lanes := lanes, lastValid := s.cyc, lastIdle := s.cyc,
                                          credReq := peer.credReq, credRep := peer.credRep }) s
        if lanes == 4 && rate then s
        else portRecord port 0x61 [BitVec.ofNat 64 lanes, BitVec.ofNat 64 (if rate then 224 else 112)] s)

/-! ### Domain barriers (R55, R56) -/

/-- The path of an entry's BARA: DDEV and the ports of its four candidates are the fabric manager's configuration, which the
spec does not give: one free value for each entry (log 3). -/
def baraPort (v cand : Nat) : Nat := bitsOf v (18 + 5 * cand) (14 + 5 * cand) % 26
/-- Send the BARA of an entry's open epoch on a candidate. -/
def baraOn (i v cand : Nat) (s : State) : State :=
  let e := domEntry s i
  transmit (baraPort v cand)
    { hdr := hdrBits { ty := tBARA, sdev := s.dev, ddev := v % 2 ^ 14, off := domBid e + domEpoch e * 2 ^ 12, cand := cand } }
    (modFab (fun f => { f with bara := SMap.insert f.bara i (v, cand) }) s)
/-- Send the first BARA of an epoch, on the candidate in use. -/
def sendBara (i : Nat) (s : State) : State :=
  match s.fab.bara.find? (·.1 == i) with
  | some (_, v, cand) => baraOn i v cand s
  | none =>
    let (v, s) := freshWord s
    baraOn i v.toNat 0 s
/-- Send it again on the next candidate (R56): the next one whose link is up. -/
def resendBara (i : Nat) (s : State) : State :=
  match s.fab.bara.find? (·.1 == i) with
  | some (_, v, cand) =>
    let next := ([1, 2, 3].map fun k => (cand + k) % 4).find? fun c => (portOf s (baraPort v c)).up
    baraOn i v (next.getD ((cand + 1) % 4)) s
  | none => sendBara i s

/-- BARA_SEND (R56): the device's part of the epoch is complete. -/
def execBaraSend (entry : Nat) (s : State) : Host.Outcome State Fault Refusal :=
  let e := domEntry s entry
  .next (if entry < 64 && e.getLsbD 63 && domState e == 1 && domExpect e ≤ domCount e then
      sendBara entry (setDom entry (domWith e 2 (domEpoch e) (domCount e)) s)
    else s)
/-- TREE_NOTICE (R56): BARA goes again, on the next candidate. -/
def execTreeNotice (entry : Nat) (s : State) : Host.Outcome State Fault Refusal :=
  let e := domEntry s entry
  .next (if entry < 64 && e.getLsbD 63 && domState e == 2 then resendBara entry s else s)
/-- BARB_TIMEOUT (R56): 2 × TACK after a failover. -/
def execBarbTimeout (entry : Nat) (s : State) : Host.Outcome State Fault Refusal :=
  let e := domEntry s entry
  .next (if entry < 64 && e.getLsbD 63 && domState e == 2 &&
      (s.fab.failedAt.any fun t => t + 2 * s.fab.tackUs * Config.cyclesPerUs ≤ s.cyc) then resendBara entry s
    else s)

/-- The contexts that a released epoch lets go: those that wait for it, and arrivals that waited behind it (R56, R410). -/
def domRelease (i ep : Nat) (s : State) : State :=
  let go (x : Ctx) : Ctx :=
    if x.st != .waiting then x
    else if x.wait == .domBarrier i ep then { x with st := .ready, granted := true }
    else if x.wait == .domBarrier i (ep + 256) then { x with st := .ready }
    else x
  { s with ctxs := s.ctxs.map fun (c, x) => (c, go x) }
/-- A barrier release for an entry: the firings go on, COUNT is 0, EPOCH rises, and the reductions of the identifier close
(R56, R245). -/
def releaseDom (i : Nat) (s : State) : State :=
  let e := domEntry s i
  closeBid (domBid e) (domRelease i (domEpoch e) (setDom i (domWith e 1 (domEpoch e + 1) 0) s))
/-- A BARB arrives; one of another epoch, or while STATE is not 2, is ignored. -/
def barbIn (k : Hdr) (s : State) : State :=
  let mine (i : Nat) : Bool :=
    let e := domEntry s i
    e.getLsbD 63 && domState e == 2 && domBid e == k.off % 4096 && domEpoch e == bitsOf k.off 19 12
  ((List.range 64).filter mine).foldl (fun s i => releaseDom i s) s
/-- BARB (R56). -/
def execBarb (port : Nat) (p : Packet) (s : State) : Host.Outcome State Fault Refusal := .next (rawIn tBARB port p barbIn s)

/-! ### Scale-out frames (R59) -/

/-- A packet of any type is received. -/
def receive (port : Nat) (p : Packet) (s : State) : State :=
  comesIn [1, 2, 3, 4, 5, 6, 7, 8, 9, 10, 11, 12, 13, 15] port p (fun h s =>
    match h.ty with
    | 9 => replyIn [tRD, tPRB] p h s
    | 10 => replyIn [tAMO] p h s
    | 11 => if h.op / 2 % 2 == 1 then syncIn h s else ackIn h s
    | 12 => nakIn h s
    | 15 => barbIn h s
    | _ => sequencedIn port p h s) s
/-- A frame that R59 accepts. -/
def frameOk (fr : Frame) : Bool :=
  let n := fr.hdr.toNat
  fr.fcsOk && bitsOf n 31 28 == 1 && bitsOf n 23 0 == 0 && bitsOf n 27 24 + 1 == fr.packets.length &&
    decide ((fr.packets.map fun p => 16 + 64 * p.data.length).sum ≤ 4096)
/-- SCALE_OUT_FRAME (R59): a frame that is not accepted is discarded whole and counted. -/
def execScaleOutFrame (port : Nat) (fr : Frame) (s : State) : Host.Outcome State Fault Refusal :=
  .next (if port < 18 || 26 ≤ port || !(portOf s port).up then s
    else if frameOk fr then fr.packets.foldl (fun s p => receive port p s) s
    else modFab (fun f => { f with frameErrs := f.frameErrs + 1 }) s)

end Sys2Proof.Machine
end

