-- ==== Sys2Proof/Machine/Packets.lean ====
section
/-! DEFINITION. The packet stream of a mapped queue (R113 to R127 of 05_command_stream.md), graphs (R128 to R130) and the
front end's reads (R126, R487). A packet is the number that its bytes are. -/

namespace Sys2Proof.Machine

/-! ### Accesses of the front end (R487) -/

/-- Why the front end stops before a packet has any effect: a translation fault, one of a record read at SWEEP issue or
not, a failure of the queue with its ERR, an access that a tag holds, or nothing to do yet. -/
inductive FeStop where
  | fault (va cause level : Nat) (write rec : Bool)
  | err (n : Nat)
  | held
  | room
  deriving DecidableEq, Repr
abbrev FX := EStateM FeStop State

/-- Who of a queue the front end acts for: its packet stream, the poll of its write pointer, the test of a WAIT, or a graph. -/
def forPackets : Nat := 0
def forPoll : Nat := 1
def forWait : Nat := 2
def forGraph (g : Nat) : Nat := 16 + g
/-- What was read of other devices for a queue is used, and no access of `who` is held. -/
def feOver (who : Nat) (q : Queue) (s : State) : State :=
  let s := feUsed q.asid s
  if q.held.isNone then s else modQ (isQ q.fn q.qidx) (fun q => if q.held == some who then { q with held := none } else q) s
/-- What a stop of the front end leaves of a queue (R110, R121, R487). -/
def feStopped (who : Nat) (q : Queue) (st : FeStop) (s : State) : State :=
  match st with
  | .fault va c l write rec =>
    feFault q va c l write (feOver who q (if rec then modQ (isQ q.fn q.qidx) (fun q => { q with recFault := 1 }) s else s))
  | .err n => failQueue q.fn q.qidx n (feOver who q s)
  | .held => modQ (isQ q.fn q.qidx) (fun q => { q with held := some who }) s
  | .room => feOver who q s

/-- Carry out checks, and then the effect they give. -/
def feRun (who : Nat) (q : Queue) (x : FX (State → State)) (s : State) : State :=
  match x s with
  | .ok f t => f (feOver who q t)
  | .error st t => feStopped who q st t

/-- Reach an address of the queue's ASID that must be aligned. -/
def feGo (asid va n align : Nat) (write : Bool) : FX (Nat × W64) := do
  if va % align != 0 then throw (.err 1)
  match feAccess (← get) asid va n write with
  | (.ok pa attr, s) =>
    set s
    pure (pa, attr)
  | (.fault c l, s) =>
    set s
    throw (.fault va c l write false)
  | (.refused, s) =>
    set s
    throw (.err 3)
  | (.held, s) =>
    set s
    throw .held
/-- Read an aligned word or chunk through the queue's ASID. -/
def feLoad (asid va n : Nat) : FX Nat := do
  let (pa, _) ← feGo asid va n n false
  pure (homeBytes (← get) pa n).1
/-- Read 32-byte chunks from an aligned address. -/
def feChunks (asid va : Nat) : Nat → FX Nat
  | 0 => pure 0
  | n + 1 => do
    let x ← feLoad asid va 32
    pure (x + 2 ^ 256 * (← feChunks asid (va + 32) n))

/-- Bytes of a queue word: host memory when LOC is 0, else the queue's ASID (R71, R108). -/
def ptrRead (q : Queue) (a : Nat) : FX Nat := do
  if q.loc then feLoad q.asid a 8
  else if hostBad (← get) q.fn a 8 then throw (.err 3)
  else pure (hostPeek (← get) q.fn a 8)
/-- The write of the read-pointer word, after the check that it can be made (R70). -/
def rptrWrite (q : Queue) : FX (Nat → State → State) := do
  if q.loc then
    let (pa, attr) ← feGo q.asid q.rptrA 8 8 true
    pure fun x => feStore attr pa 8 x
  else pure fun x => hostPoke q.fn q.rptrA 8 x

/-! ### Levels (R123, R126) -/

/-- Levels without the innermost buffers that have ended. -/
def popLevels : List Level → List Level
  | [] => []
  | l :: rest => if rest.isEmpty || l.pos < l.len then l :: rest else popLevels rest

/-- Change a level of a queue; level 0 is the innermost. -/
def modLevelAt (fn qidx k : Nat) (g : Level → Level) (s : State) : State :=
  modQ (isQ fn qidx) (fun q => { q with levels := q.levels.modify k g }) s
def modLevel (fn qidx : Nat) (g : Level → Level) (s : State) : State := modLevelAt fn qidx 0 g s

/-- The 32 bytes held at an offset, if they are. -/
def heldChunk (l : Level) (off : Nat) : Option Nat :=
  if (SMap.get none l.held off).isSome then some (leNat ((List.range 32).map fun k => (SMap.get none l.held (off + k)).getD 0)) else none
def holdChunk (off x : Nat) (l : Level) : Level :=
  { l with held := (leBytes 32 x).zipIdx.foldl (fun m (b, k) => SMap.set none m (off + k) (some b)) l.held }

/-- The 32 bytes of a level at an offset: held, or read now and held (R126). A packet that runs past the end of its buffer
fails the queue as malformed: R123 does not say what becomes of it, DESIGN CHOICE (log 94). -/
def fetchAt (q : Queue) (k off : Nat) : FX Nat := do
  match q.levels[k]? with
  | none => throw .room
  | some l =>
    match heldChunk l off with
    | some x => pure x
    | none =>
      let ring := k + 1 == q.levels.length
      if ring && q.wptr < off + 32 then throw .room
      if !ring && l.len < off + 32 then throw (.err 1)
      let a := if ring then l.base + off % 2 ^ q.log2 else l.base + off
      let x ← if l.loc then feLoad q.asid a 32
        else if hostBad (← get) q.fn a 32 then throw (.err 3)
        else pure (hostPeek (← get) q.fn a 32)
      modify (modLevelAt q.fn q.qidx k (holdChunk off x))
      pure x
/-- The 32 bytes of the innermost level at an offset. -/
def fetchChunk (q : Queue) (off : Nat) : FX Nat := fetchAt q 0 off

/-! ### Packets (R113, R114) -/

def pkW (x k : Nat) : Nat := x / 2 ^ (64 * k) % 2 ^ 64
def pkTy (x : Nat) : Nat := x % 256
def pkVer (x : Nat) : Nat := bitsOf x 11 8
def pkB (x : Nat) : Bool := bitsOf x 12 12 == 1
def pkSize (x : Nat) : Nat := bitsOf x 15 14 + 1
def pkOp (x : Nat) : Nat := bitsOf x 16 16
def pkCmp (x : Nat) : Nat := bitsOf x 18 16
/-- GUARD, SKIP or LIMIT. -/
def pkNum (x : Nat) : Nat := bitsOf x 31 24
/-- HVSEL.PKT of a function (R64). -/
def pktVer (s : State) (f : Nat) : Nat := bitsOf (fnOf s f).hvsel.toNat 11 8

/-- The fields of a packet lie in their ranges and its reserved bits are zero (R114). The handler line of an ACTMSG is a line
address, so that one that is not 64-byte aligned is malformed: the packet's table names no alignment, DEDUCED (log 94). -/
def pktOk (fn : Nat) (node : Bool) (x : Nat) : Bool :=
  let w (k : Nat) : Nat := pkW x k
  let ts := bitsOf x 31 16
  bitsOf x 63 32 == 0 && bitsOf x 13 13 == 0 && pkSize x == (if pkTy x == 1 then 3 else 1) &&
    match pkTy x with
    | 0x01 => ts == 0 && w 1 % 64 == 0
    | 0x02 => ts == 0 && w 3 == 0
    | 0x03 | 0x05 => ts ≤ 1 && w 3 == 0
    | 0x04 => pkCmp x ≤ 4 && bitsOf x 23 19 == 0
    | 0x06 => pkCmp x ≤ 3 && bitsOf x 23 19 == 0 && 1 ≤ pkNum x
    | 0x07 => ts ≤ 1 && w 1 % 32 == 0 && w 2 % 32 == 0 && 32 ≤ w 2 && w 2 ≤ 2 ^ 20 && w 3 == 0
    | 0x08 => ts == 0 && w 1 % 32 == 0 && 32 ≤ w 1 % 2 ^ 32 && w 1 % 2 ^ 32 ≤ 2048 && 2 ^ 32 ≤ w 1 && w 2 == 0 && w 3 == 0
    | 0x09 => ts == 0 && w 1 == 0 && w 2 == 0 && w 3 == 0
    | 0x0A =>
      bitsOf x 31 24 == 0 && 2 ≤ bitsOf x 23 16 && bitsOf x 23 16 < nvec fn && w 1 < 2 ^ 32 && w 2 == 0 && w 3 == 0
    | 0x0B => ts == 0 && w 1 % 32 == 0 && w 2 == 0 && w 3 == 0
    | 0x0C => node && pkCmp x ≤ 3 && bitsOf x 23 19 == 0 && 1 ≤ pkNum x
    | _ => false

/-- Check version, then form (R114). -/
def pktCheck (fn : Nat) (node : Bool) (x : Nat) : FX Unit := do
  if pkVer x != pktVer (← get) fn then throw (.err 2)
  if !pktOk fn node x then throw (.err 1)

/-- Read the packet at an offset of the innermost level and check it. -/
def fetchPkt (q : Queue) (off : Nat) : FX Nat := do
  let x ← fetchChunk q off
  let y ← if pkTy x == 1 && pkSize x == 3 then do
      let a ← fetchChunk q (off + 32)
      let b ← fetchChunk q (off + 64)
      pure (x + a * 2 ^ 256 + b * 2 ^ 512)
    else pure x
  pktCheck q.fn false y
  pure y

/-! ### Completion -/

/-- A completion signal named by a field that always names one: address 0 is not "none" there. -/
def sigAddr (a : Nat) : Nat := if a == 0 then 2 ^ 57 else a

/-- Register a packet as issued and not complete; `k` continues with its number (R115). -/
def issueAs (q : Queue) (i : Issued) (k : Nat → State → State) (s : State) : State :=
  let n := s.fe.nextSerial
  k n (modQ (isQ q.fn q.qidx) (fun q => { q with issued := q.issued ++ [{ i with serial := n, level := q.levels.length - 1 }] })
    (modFe (fun f => { f with nextSerial := n + 1 }) s))

/-- A packet that completes at issue; a graph node is kept with its status for its graph (R129). -/
def doneNow (q : Queue) (ty status : Nat) (node : Option (Nat × Nat)) (s : State) : State :=
  if node.isSome then issueAs q { serial := 0, ty := ty, node := node, done := some status } (fun _ s => s) s else s

/-! ### The tests of WAIT, PRED and COND (R120) -/

def cmpHolds (cmp w value mask : Nat) : Bool :=
  let m := Nat.land w mask
  match cmp with
  | 0 => m == value
  | 1 => m != value
  | 2 => value ≤ m
  | 3 => m < value
  | _ => w / 2 ^ 56 % 256 != 0
/-- The GUARD packets that a WAIT which has ended makes aborted dependants. -/
def guardOf (cmp w guard : Nat) : Nat := if cmp == 4 && w / 2 ^ 56 % 256 != stDone then guard else 0

/-! ### What each packet does -/

/-- An ACTMSG (R117, R151): the message leaves for the home core of its data address. The sender's handle is a free
value (log 3). -/
def actActmsg (q : Queue) (x : Nat) (node : Option (Nat × Nat)) : FX (State → State) := do
  if pkW x 3 % 8 != 0 then throw (.err 1)
  let va := pkW x 2
  match engineWalk (← get) q.asid va (kRead ||| kEngine) false with
  | (.error (c, l), s) =>
    set s
    throw (.fault va c l false false)
  | (.ok (pa, attr), s) =>
    set s
    pure fun s =>
      let (free, s) := freshWord s
      issueAs q { serial := 0, ty := 1, signal := pkW x 3, node := node } (fun n s =>
        let m : Msg := {
          line := pkW x 1
          target := BitVec.ofNat 64 va
          sender := free.toNat % 2 ^ 37
          asid := BitVec.ofNat 12 q.asid
          payload := (List.range 8).map fun k => Cap.ofInt (BitVec.ofNat 64 (pkW x (4 + k)))
          packet := some (q.fn, n)
          fn := q.fn
          queue := q.qidx }
        match spaceOf s pa with
        | .remote d off =>
          if routable s d then
            sendSeqQ { ty := tMSG, ddev := d, op := 0, o := true, off := off } (msgFlits m) (some (feCid, n)) false none s
          else postNet (returnMsg (portUnit s d) 7 m) s
        | _ => postNet (.msg (homeOf s attr 0 pa) m) s) s

/-- Reach a record of 128 bytes that SWEEP issue reads: its two blocks, or none when it is not valid (R487). -/
def feRecord (q : Queue) (va : Nat) : FX (Option (Nat × Nat)) := do
  if va % 128 != 0 then return none
  let reach (a : Nat) : FX (Option Nat) := do
    match feAccess (← get) q.asid a 64 false with
    | (.ok pa _, s) =>
      set s
      pure (some pa)
    | (.refused, s) =>
      set s
      pure none
    | (.held, s) =>
      set s
      throw .held
    | (.fault c l, s) =>
      set s
      if c == 3 then pure none else throw (.fault a c l false true)
  match ← reach va with
  | none => pure none
  | some a =>
    match ← reach (va + 64) with
    | none => pure none
    | some b => pure (some (a, b))
/-- The tags of a block's four granules. -/
def tagBits (s : State) (pa : Nat) : Nat := ((List.range 4).map fun k => if tagAt s (pa + 16 * k) then 2 ^ k else 0).sum
/-- The bytes of a record and the tags of its granules. -/
def recordBytes (s : State) (r : Nat × Nat) : Nat × Nat :=
  (peek s r.1 64 + 2 ^ 512 * peek s r.2 64, tagBits s r.1 + 16 * tagBits s r.2)

/-- A shape record is valid for `p` cores (R144). -/
def shapeValid (p : Nat) (x tags : Nat) : Bool :=
  let dim (d : Nat) : Nat := bitsOf x (8 * 0x10 + 32 * d + 31) (8 * 0x10 + 32 * d)
  let prt (d : Nat) : Nat := bitsOf x (8 * 0x40 + 16 * d + 15) (8 * 0x40 + 16 * d)
  tags % 2 == 1 && (List.range 4).all (fun d => 1 ≤ dim d && 1 ≤ prt d) && prt 0 * prt 1 * prt 2 * prt 3 == p &&
    x / 2 ^ (8 * 0x48) == 0

/-- The rules of a launch header that need no other record (R138, R139, R142). -/
def headerOk (s : State) (fn : Nat) (hd : List W64) : Bool :=
  let ws := (List.range 6).map (hdrWidth hd)
  let l := hdrWord hd 0
  ws.sum ≤ 64 && ws.all (· ≤ 64) && 1 ≤ hdrN hd && hdrN hd ≤ 2 ^ ws.sum && hdrFirst hd ≤ 4095 && 1 ≤ hdrP hd &&
    hdrFirst hd + hdrP hd ≤ 4096 &&
    (List.range (hdrP hd)).all (fun k => !controlCore s (hdrFirst hd + k) && !retiredCore s (hdrFirst hd + k)) &&
    hdrPlace hd ≤ 5 && hdrNsh hd ≤ 4 && bitsOf l 55 52 == 0 && bitsOf l 63 56 == pktVer s fn && hdrWord hd 2 < 2 ^ 32 &&
    hdrWord hd 6 == 0 && hdrWord hd 7 == 0 && (if hdrNsh hd == 0 then hdrWord hd 4 == 0 else hdrWord hd 4 % 128 == 0) &&
    (!hdrGv hd || (hdrGang hd < hdrPlace hd && hdrShift hd (hdrGang hd) - hdrShift hd (hdrPlace hd) == 4 &&
      hdrFirst hd % 16 == 0 && hdrP hd % 16 == 0 && hdrN hd % 2 ^ hdrShift hd (hdrGang hd) == 0))

/-- The shape records of a sweep with their tags; none when one is not valid. -/
def feShapes (q : Queue) (p va : Nat) : Nat → FX (Option (List (Nat × Nat)))
  | 0 => pure (some [])
  | n + 1 => do
    match ← feRecord q va with
    | none => pure none
    | some r =>
      let (x, t) := recordBytes (← get) r
      if !shapeValid p x t then pure none
      else match ← feShapes q p (va + 128) n with
        | none => pure none
        | some rest => pure (some ((x, t) :: rest))

/-- The launch header of a SWEEP as read at issue, with the tags of its granules (R118, R487). -/
def feHeader (q : Queue) (va : Nat) : FX (List W64 × Nat) := do
  let (pa, _) ← feGo q.asid va 64 64 false
  let s ← get
  pure ((List.range 8).map (fun k => BitVec.ofNat 64 (peek s (pa + 8 * k) 8)), tagBits s pa)

/-- What the sweep of a launch header needs beside it: its shape records; none when it is refused, as after FRESUME ACT 1 of a
record's fault (R139, R487). -/
def sweepChecks (q : Queue) (hd : List W64) : FX (Option (List (Nat × Nat))) := do
  if !headerOk (← get) q.fn hd || q.recFault == 2 then return none
  match ← feRecord q (hdrWord hd 3) with
  | none => pure none
  | some r =>
    let s ← get
    let (x, t) := recordBytes s r
    match parseActor (actVer s q.fn) x (t.testBit 0) (t.testBit 1) (t.testBit 2) with
    | none => pure none
    | some a => if hdrGv hd && a.checked then pure none else feShapes q (hdrP hd) (hdrWord hd 4) (hdrNsh hd)

/-- A SWEEP (R118, R138 to R145): the cores of its range are woken, or it is refused. -/
def actSweep (q : Queue) (x : Nat) (node : Option (Nat × Nat)) : FX (State → State) := do
  let (hd, tags) ← feHeader q (pkW x 1)
  let sig := hdrWord hd 5
  if sig % 8 != 0 then throw (.err 1)
  let clear (s : State) : State := modQ (isQ q.fn q.qidx) (fun q => { q with recFault := 0 }) s
  match ← sweepChecks q hd with
  | none => pure fun s => writeSignal q.fn q.qidx (sigAddr sig) stRefused (doneNow q 2 stRefused node (clear s))
  | some shapes =>
    pure fun s =>
      issueAs q { serial := 0, ty := 2, signal := sigAddr sig, node := node } (fun n s =>
        let w : Sweep := {
          id := s.fe.nextSweep
          serial := n
          fn := q.fn
          queue := q.qidx
          asid := q.asid
          header := hd
          htags := tags
          arg := BitVec.ofNat 64 (pkW x 2)
          shapes := shapes
          node := node }
        let s := modFe (fun f => { f with sweeps := f.sweeps ++ [w], nextSweep := f.nextSweep + 1 }) s
        (List.range (hdrP hd)).foldl (fun s k => modCore (hdrFirst hd + k) (fun c => { c with wakes := c.wakes ++ [w.id] }) s) s) (clear s)

/-- The store of a SIGNAL or WRITE: its value, or the sum with what stands at the address (R119, R121). -/
def actStore (ty : Nat) (q : Queue) (x : Nat) (node : Option (Nat × Nat)) : FX (State → State) := do
  let (pa, attr) ← feGo q.asid (pkW x 1) 8 8 true
  let s ← get
  if let some (d, off) := feDirect s attr pa then
    return issueAs q { serial := 0, ty := ty, node := node } fun n s =>
      if pkOp x == 1 then
        sendSeq { ty := tAMO, ddev := d, o := true, off := off, scope := 5 } [BitVec.ofNat 512 (pkW x 2)] (some (feCid, n)) true s
      else feStoreAs n attr pa 8 (pkW x 2) s
  if pkOp x == 1 && poisonable s pa && poisonAt s pa 8 then throw (.err 3)
  let v := if pkOp x == 1 then ((homeBytes s pa 8).1 + pkW x 2) % 2 ^ 64 else pkW x 2
  pure fun s => doneNow q ty stDone node (feStore attr pa 8 v (if pkOp x == 1 then correct pa 8 s else s))

/-- A WAIT (R120): over at once, or open. As a graph node it stays issued until its test holds. -/
def actWait (q : Queue) (x : Nat) (node : Option (Nat × Nat)) : FX (State → State) := do
  let w ← feLoad q.asid (pkW x 1) 8
  let value := BitVec.ofNat 64 (pkW x 2)
  let mask := BitVec.ofNat 64 (pkW x 3)
  if cmpHolds (pkCmp x) w value.toNat mask.toNat then
    pure fun s => doneNow q 4 stDone node (if node.isSome then s else modLevel q.fn q.qidx (fun l => { l with guardN := guardOf (pkCmp x) w (pkNum x) }) s)
  else if node.isSome then
    pure (issueAs q { serial := 0, ty := 4, node := node, test := some (pkW x 1, value, mask, pkCmp x) } fun _ s => s)
  else
    pure (modQ (isQ q.fn q.qidx) fun q => { q with wait := some (pkW x 1, value, mask, pkCmp x, pkNum x) })

/-- A PRED (R122). -/
def actPred (q : Queue) (x : Nat) : FX (State → State) := do
  let w ← feLoad q.asid (pkW x 1) 8
  if cmpHolds (pkCmp x) w (pkW x 2) (pkW x 3) then pure id
  else pure (modLevel q.fn q.qidx fun l => { l with skip := pkNum x })

/-- An IND (R123). -/
def actInd (q : Queue) (x : Nat) : FX (State → State) := do
  if 3 ≤ q.levels.length then throw (.err 4)
  let l : Level := { base := pkW x 1, len := pkW x 2, loc := pkOp x == 1, pos := 0 }
  pure (modQ (isQ q.fn q.qidx) fun q => { q with levels := l :: q.levels })

/-- The packets from an offset up to another hold a LOOP. -/
def holdsLoop (q : Queue) (top : Nat) : Nat → Nat → FX Bool
  | 0, _ => pure false
  | n + 1, off => do
    if top ≤ off then return false
    let x ← fetchChunk q off
    if pkTy x == 8 then pure true else holdsLoop q top n (off + 32 * pkSize x)

/-- A LOOP (R124): the next offset of its level. -/
def actLoop (q : Queue) (l : Level) (x : Nat) : FX (Nat × (State → State)) := do
  let back := pkW x 1 % 2 ^ 32
  if l.pos < back then throw (.err 1)
  if ← holdsLoop q l.pos 64 (l.pos - back) then throw (.err 1)
  let n := l.loops + 1
  if n < pkW x 1 / 2 ^ 32 then pure (l.pos - back, modLevel q.fn q.qidx fun l => { l with loops := n })
  else pure (l.pos + 32, modLevel q.fn q.qidx fun l => { l with loops := 0 })

/-- An FFENCE (R125, R126): the bytes held at its own level go, those before it too, which a LOOP can execute after it. -/
def actFfence (q : Queue) : State → State := modLevel q.fn q.qidx fun k => { k with held := [] }

/-- An INTR (R127). -/
def actIntr (q : Queue) (x : Nat) (node : Option (Nat × Nat)) (s : State) : State :=
  let v := bitsOf x 23 16
  let old := (SMap.get 1 (fnOf s q.fn).icoal v).toNat
  let count := pkW x 1 % 2 ^ 16
  let timer := pkW x 1 / 2 ^ 16 % 2 ^ 16
  let ic := old / 2 ^ 32 * 2 ^ 32 + (if timer == 0 then bitsOf old 31 16 else timer) * 2 ^ 16 + (if count == 0 then old % 2 ^ 16 else count)
  doneNow q 0x0A stDone node (vecEvent q.fn v (modFn q.fn (fun f => { f with icoal := SMap.set 1 f.icoal v (BitVec.ofNat 64 ic) }) s))

/-! ### Graphs (R128 to R130) -/

/-- The nodes form no cycle: nodes without predecessors left are taken out, one a round. -/
def peelNodes (succs : List (List Nat)) : Nat → List Nat → List Nat → Bool
  | 0, _, live => live.isEmpty
  | n + 1, counts, live =>
    match live.find? fun i => counts.getD i 0 == 0 with
    | none => live.isEmpty
    | some i => peelNodes succs n ((succs.getD i []).foldl (fun c j => c.set j (c.getD j 0 - 1)) counts) (live.erase i)

/-- A node entry: packet address, NPRED and successors; none when a field is out of range (R128). -/
def nodeOf (nnode x : Nat) : Option (Nat × Nat × List Nat) :=
  let ns := bitsOf x 79 72
  let succ (k : Nat) : Nat := bitsOf x (96 + 16 * k + 15) (96 + 16 * k)
  let ss := (List.range ns).map succ
  if ns ≤ 10 && bitsOf x 95 80 == 0 && (List.range 10).all (fun k => k < ns || succ k == 0) && ss.all (· < nnode) then
    some (pkW x 0, bitsOf x 71 64, ss)
  else none

/-- The node entries of a descriptor. -/
def feNodes (asid nnode va : Nat) : Nat → FX (List (Nat × Nat × List Nat))
  | 0 => pure []
  | n + 1 => do
    match nodeOf nnode (← feLoad asid va 32) with
    | none => throw (.err 5)
    | some e => pure (e :: (← feNodes asid nnode (va + 32) n))

/-- A node's packet may stand in a graph (R129). -/
def nodeTypeOk (x : Nat) : Bool := !(pkTy x ∈ [6, 7, 8, 9, 0x0B]) && !(pkTy x == 4 && pkNum x != 0)
/-- Whether each node's packet is a COND, after the check of its type. -/
def feNodeConds (asid : Nat) : List Nat → FX (List Bool)
  | [] => pure []
  | a :: rest => do
    let x ← feLoad asid a 32
    if !nodeTypeOk x then throw (.err 5)
    pure ((pkTy x == 0x0C) :: (← feNodeConds asid rest))

/-- Check a graph descriptor (R128, R129); the graph, not yet numbered. -/
def feGraph (q : Queue) (desc : Nat) : FX Graph := do
  let h ← feLoad q.asid desc 32
  let n := bitsOf h 47 32
  if !(h % 2 ^ 32 == 0x47525048 && 1 ≤ n && n ≤ 1024 && bitsOf h 55 48 == pktVer (← get) q.fn && bitsOf h 63 56 == 0 &&
      bitsOf h 255 160 == 0) then throw (.err 5)
  if pkW h 1 % 8 != 0 then throw (.err 1)
  let es ← feNodes q.asid n (desc + 32) n
  let succs := es.map (·.2.2)
  let preds := es.map (·.2.1)
  if (List.range n).any fun i => preds.getD i 0 != (succs.map fun ss => (ss.filter (· == i)).length).sum then throw (.err 5)
  if !peelNodes succs (n + 1) preds (List.range n) then throw (.err 5)
  let conds ← feNodeConds q.asid (es.map (·.1))
  let cs := (List.range n).filter fun i => conds.getD i false
  if 2 ≤ cs.length || cs.any (fun i => !(succs.getD i []).isEmpty) then throw (.err 5)
  pure { id := 0, serial := 0, desc := desc, sig := sigAddr (pkW h 1), iter := 1, nodes := preds.map .waiting,
         pkts := es.map (·.1), succs := succs, preds := preds, cond := cs.head? }

def graphOf (s : State) (g : Nat) : Option Graph := s.fe.graphs.find? (·.id == g)
def modGraph (g : Nat) (f : Graph → Graph) (s : State) : State :=
  modFe (fun x => { x with graphs := x.graphs.map fun y => if y.id == g then f y else y }) s
/-- The queue whose GRAPH packet opened a graph. -/
def graphQueue (s : State) (g : Graph) : Option Queue := (allQs s).find? fun q => q.issued.any (·.serial == g.serial)

/-- A packet's effect as a graph node. -/
def actNode (q : Queue) (x : Nat) (node : Option (Nat × Nat)) : FX (State → State) :=
  match pkTy x with
  | 0x01 => actActmsg q x node
  | 0x02 => actSweep q x node
  | 0x03 => actStore 3 q x node
  | 0x04 => actWait q x node
  | 0x05 => actStore 5 q x node
  | 0x0A => pure (actIntr q x node)
  | _ => throw (.err 5)

/-- Read a node's packet, in every iteration, and launch it (R129). A SIGNAL and a packet with B set wait for every packet of the
queue before the GRAPH (R115, R119, log 20). -/
def launchNode (q : Queue) (g : Graph) (n : Nat) : FX (State → State) := do
  let a := g.pkts.getD n 0
  let x ← feLoad q.asid a 32
  let y ← if pkTy x == 1 && pkSize x == 3 then do
      let r ← feChunks q.asid (a + 32) 2
      pure (x + 2 ^ 256 * r)
    else pure x
  if !nodeTypeOk y then throw (.err 5)
  pktCheck q.fn true y
  if (pkB y || pkTy y == 3) && q.issued.any (fun j => j.node.isNone && j.serial < g.serial) then throw .room
  actNode q y (some (g.id, n))

/-- The queue may issue for `who`: it has not failed, is not parked or torn down, no signal of it waits, and no tag holds an
access of it for another (R487). -/
def mayIssue (who : Nat) (q : Queue) : Bool :=
  !q.failed && !q.parked && !q.torn && q.sigs.isEmpty && q.held.all (· == who)

/-- Launch the nodes of a list whose count is zero (R129). -/
def launchFrom (g : Nat) : List Nat → State → State
  | [], s => s
  | i :: rest, s =>
    match graphOf s g with
    | none => s
    | some gr =>
      match graphQueue s gr with
      | none => s
      | some q =>
        if !mayIssue (forGraph g) q then s
        else if gr.cond == some i || gr.nodes.getD i .done != .waiting 0 then launchFrom g rest s
        else match (launchNode q gr i) s with
          | .ok f t => launchFrom g rest (f (modGraph g (fun x => { x with nodes := x.nodes.set i .launched }) (feOver (forGraph g) q t)))
          | .error .room t => launchFrom g rest (feOver (forGraph g) q t)
          | .error st t => feStopped (forGraph g) q st t
def launchAll (g n : Nat) (s : State) : State := launchFrom g (List.range n) s

/-- A GRAPH (R129): the device holds at most 256. -/
def actGraph (q : Queue) (x : Nat) : FX (State → State) := do
  let gr ← feGraph q (pkW x 1)
  if 256 ≤ (← get).fe.graphs.length then throw .room
  let (pa, attr) ← feGo q.asid (gr.desc + 0x10) 4 4 true
  pure (issueAs q { serial := 0, ty := 0x0B, signal := gr.sig } fun n s =>
    let id := s.fe.nextGraph
    let s := modFe (fun f => { f with graphs := f.graphs ++ [{ gr with id := id, serial := n }], nextGraph := id + 1 }) s
    launchAll id gr.nodes.length (feStore attr pa 4 1 s))

/-- Mark the descendants of a node aborted, `n` levels deep (R129). -/
def abortBelow (succs : List (List Nat)) : Nat → List Nat → List NodeSt → List NodeSt
  | 0, _, ns => ns
  | n + 1, is, ns =>
    let next := (is.flatMap fun i => succs.getD i []).eraseDups
    if next.isEmpty then ns
    else abortBelow succs n next (next.foldl (fun ns j => ns.set j .aborted) ns)

/-- A node has completed with a status: its successors' counts fall, or its descendants are aborted (R129). -/
def nodeDone (i status : Nat) (g : Graph) : Graph :=
  if status == stDone then
    { g with nodes := (g.succs.getD i []).foldl (fun ns j => match ns.getD j .done with
        | .waiting k => ns.set j (.waiting (k - 1))
        | _ => ns) (g.nodes.set i .done) }
  else { g with nodes := abortBelow g.succs g.nodes.length [i] (g.nodes.set i .aborted) }

/-- Every node but the COND has completed or been skipped. -/
def graphOver (g : Graph) : Bool := g.nodes.zipIdx.all fun (x, i) => x == .done || x == .aborted || g.cond == some i

/-- The end of an iteration: the COND re-arms the graph, or the graph ends (R129, R130). -/
def graphEnd (q : Queue) (g : Graph) : FX (State → State) := do
  let finish (st : Nat) (s : State) : State := completePacket g.serial st (modFe (fun f => { f with graphs := f.graphs.filter (·.id != g.id) }) s)
  if g.nodes.contains .aborted then return finish stAborted
  match g.cond with
  | none => pure (finish stDone)
  | some c =>
    let x ← feLoad q.asid (g.pkts.getD c 0) 32
    if pkTy x != 0x0C then throw (.err 5)
    pktCheck q.fn true x
    let w ← feLoad q.asid (pkW x 1) 8
    if cmpHolds (pkCmp x) w (pkW x 2) (pkW x 3) && g.iter < pkNum x then
      let (pa, attr) ← feGo q.asid (g.desc + 0x10) 4 4 true
      pure fun s => launchAll g.id g.nodes.length (feStore attr pa 4 (g.iter + 1)
        (modGraph g.id (fun g => { g with iter := g.iter + 1, nodes := g.preds.map .waiting }) s))
    else pure (finish stDone)

/-- A node's completion is taken up, nodes that may launch do, and the iteration ends when it is over. -/
def graphAdvance (id node : Nat) (s : State) : State :=
  match graphOf s id with
  | none => s
  | some g =>
    match graphQueue s g with
    | none => s
    | some q =>
      let i := q.issued.find? fun i => i.node == some (id, node) && i.done.isSome
      let s := match i with
        | some i =>
          modGraph id (nodeDone node (i.done.getD stDone))
            (modQ (isQ q.fn q.qidx) (fun q => { q with issued := q.issued.filter (·.serial != i.serial) }) s)
        | none => s
      let s := launchAll id g.nodes.length s
      match graphOf s id with
      | none => s
      | some g =>
        match graphQueue s g with
        | some q => if mayIssue (forGraph id) q && graphOver g then feRun (forGraph id) q (graphEnd q g) s else s
        | none => s

/-- GRAPH_NODE_COMPLETE. -/
def execGraphNodeComplete (graph node : Nat) (s : State) : Host.Outcome State Fault Refusal := .next (graphAdvance graph node s)

/-! ### Issue (R115, R120, R122) -/

/-- Packets of a queue issued and not complete; nodes of graphs are not packets of the queue. -/
def openPackets (q : Queue) : Nat := (q.issued.filter (·.node.isNone)).length

/-- The signals of an aborted dependant (R120). -/
def abortDependant (q : Queue) (x : Nat) : FX (State → State) := do
  let give (a : Nat) : FX (State → State) := do
    if a % 8 != 0 then throw (.err 1)
    pure (writeSignal q.fn q.qidx a stAborted)
  match pkTy x with
  | 0x01 => give (pkW x 3)
  | 0x02 => do
    let (hd, _) ← feHeader q (pkW x 1)
    give (sigAddr (hdrWord hd 5))
  | 0x03 => give (sigAddr (pkW x 1))
  | 0x0B => do
    let h ← feLoad q.asid (pkW x 1) 32
    give (sigAddr (pkW h 1))
  | _ => pure id

/-- The packet's own rule: the next offset of its level and the effect (R115 to R127). -/
def actPacket (q : Queue) (l : Level) (x : Nat) : FX (Nat × (State → State)) := do
  let next := l.pos + 32 * pkSize x
  if (pkB x || pkTy x == 3 || pkTy x == 9) && !q.issued.isEmpty then throw .room
  if 64 ≤ openPackets q then throw .room
  match pkTy x with
  | 0x01 => pure (next, ← actActmsg q x none)
  | 0x02 => pure (next, ← actSweep q x none)
  | 0x03 => pure (next, ← actStore 3 q x none)
  | 0x04 => pure (next, ← actWait q x none)
  | 0x05 => pure (next, ← actStore 5 q x none)
  | 0x06 => pure (next, ← actPred q x)
  | 0x07 => pure (next, ← actInd q x)
  | 0x08 => actLoop q l x
  | 0x09 => pure (next, actFfence q)
  | 0x0A => pure (next, actIntr q x none)
  | _ => pure (next, ← actGraph q x)

/-- The level after its packet: the offset moves, and bytes that no LOOP can reach are given up (R126). -/
def stepLevel (next : Nat) (l : Level) : Level :=
  { l with pos := next, held := l.held.filter fun e => next ≤ e.1 + 2080 }

/-- The next packet of a queue, of the wanted type; with none wanted, one whose B bit is set. A skipped packet has no
effect, an aborted dependant gives its signals, another packet acts; then the level moves on, and past the read pointer
of the ring the packet retires (R70, R110). -/
def issueX (q : Queue) (want : Option Nat) : FX (State → State) := do
  match q.levels with
  | [] => throw .room
  | l :: rest =>
    let x ← fetchPkt q l.pos
    if !(want.elim (pkB x) fun t => pkTy x == t) then throw .room
    let put ← if rest.isEmpty then rptrWrite q else pure fun _ s => s
    let move (next : Nat) (g : Level → Level) (s : State) : State :=
      let s := modLevel q.fn q.qidx (fun l => g (stepLevel next l)) s
      if rest.isEmpty && q.rptr < next then
        put next (modQ (isQ q.fn q.qidx) (fun q => { q with rptr := next, retired := (q.retired + 1) % 2 ^ 32 }) s)
      else s
    let after := l.pos + 32 * pkSize x
    if l.skip != 0 then return move after fun l => { l with skip := l.skip - 1 }
    if l.guardN != 0 then
      let f ← abortDependant q x
      return fun s => f (move after (fun l => { l with guardN := l.guardN - 1 }) s)
    let (next, f) ← actPacket q l x
    pure fun s => f (move next id s)

/-- Issue the next packet of a slot's queue. -/
def issue (slot : Nat) (want : Option Nat) (s : State) : State :=
  match slotQ s slot with
  | none => s
  | some q =>
    if !mayIssue forPackets q || q.wait.isSome then s
    else
      let q := { q with levels := popLevels q.levels }
      feRun forPackets q (issueX q want) (setSlotQ slot (some q) s)

def execActmsg (slot : Nat) (s : State) : Host.Outcome State Fault Refusal := .next (issue slot (some 0x01) s)
def execSweep (slot : Nat) (s : State) : Host.Outcome State Fault Refusal := .next (issue slot (some 0x02) s)
def execSignal (slot : Nat) (s : State) : Host.Outcome State Fault Refusal := .next (issue slot (some 0x03) s)
def execWait (slot : Nat) (s : State) : Host.Outcome State Fault Refusal := .next (issue slot (some 0x04) s)
def execWrite (slot : Nat) (s : State) : Host.Outcome State Fault Refusal := .next (issue slot (some 0x05) s)
def execPred (slot : Nat) (s : State) : Host.Outcome State Fault Refusal := .next (issue slot (some 0x06) s)
def execInd (slot : Nat) (s : State) : Host.Outcome State Fault Refusal := .next (issue slot (some 0x07) s)
def execLoopPacket (slot : Nat) (s : State) : Host.Outcome State Fault Refusal := .next (issue slot (some 0x08) s)
def execFfence (slot : Nat) (s : State) : Host.Outcome State Fault Refusal := .next (issue slot (some 0x09) s)
def execIntr (slot : Nat) (s : State) : Host.Outcome State Fault Refusal := .next (issue slot (some 0x0A) s)
def execGraph (slot : Nat) (s : State) : Host.Outcome State Fault Refusal := .next (issue slot (some 0x0B) s)
/-- PACKET_BARRIER_ISSUE (R115): a packet with B set; the front end reads every word at its home, so that its acquire
drops nothing. -/
def execPacketBarrierIssue (slot : Nat) (s : State) : Host.Outcome State Fault Refusal := .next (issue slot none s)

/-! ### WAIT_REREAD (R120) -/

/-- Reread the word of a WAIT. -/
def rereadWait (q : Queue) (w : Nat × W64 × W64 × Nat × Nat) : FX (State → State) := do
  let (a, value, mask, cmp, guard) := w
  let x ← feLoad q.asid a 8
  if cmpHolds cmp x value.toNat mask.toNat then
    pure fun s => modLevel q.fn q.qidx (fun l => { l with guardN := guardOf cmp x guard })
      (modQ (isQ q.fn q.qidx) (fun q => { q with wait := none }) s)
  else pure id

/-- Reread the word of a WAIT node. -/
def rereadNode (q : Queue) (i : Issued) : FX (State → State) := do
  match i.test with
  | none => pure id
  | some (a, value, mask, cmp) =>
    let x ← feLoad q.asid a 8
    if cmpHolds cmp x value.toNat mask.toNat then
      pure (modQ (isQ q.fn q.qidx) fun q => { q with issued := q.issued.map fun j => if j.serial == i.serial then { j with done := some stDone, test := none } else j })
    else pure id

/-- The open WAIT of a slot's queue and the WAIT nodes of its graphs are evaluated again. -/
def reread (slot : Nat) (s : State) : State :=
  match slotQ s slot with
  | none => s
  | some q =>
    if !mayIssue forWait q then s
    else
      let s := match q.wait with
        | some w => feRun forWait q (rereadWait q w) s
        | none => s
      (q.issued.filter (·.test.isSome)).foldl (fun s i =>
        match slotQ s slot with
        | some q => if mayIssue forWait q then feRun forWait q (rereadNode q i) s else s
        | none => s) s
def execWaitReread (slot : Nat) (s : State) : Host.Outcome State Fault Refusal := .next (reread slot s)

/-! ### The turn of a slot -/

/-- The step of the table that issues a packet. -/
def packetStep (slot x : Nat) : Option Instr :=
  if pkB x then some (.packetBarrierIssue slot)
  else match pkTy x with
    | 0x01 => some (.actmsg slot)
    | 0x02 => some (.sweep slot)
    | 0x03 => some (.signal slot)
    | 0x04 => some (.wait slot)
    | 0x05 => some (.write slot)
    | 0x06 => some (.pred slot)
    | 0x07 => some (.ind slot)
    | 0x08 => some (.loopPacket slot)
    | 0x09 => some (.ffence slot)
    | 0x0A => some (.intr slot)
    | 0x0B => some (.graph slot)
    | _ => none

/-- A turn of a queue slot: signals that wait, an open WAIT, or the next packet. -/
def packetTurn (slot : Nat) (s : State) : Turn :=
  match slotQ s slot with
  | none => .done s
  | some q =>
    if !q.sigs.isEmpty && !q.torn then .done (drainSignals q.fn q.qidx 8 s)
    else if q.wait.isSome then (if mayIssue forWait q then .run (.waitReread slot) s else .done s)
    else if !mayIssue forPackets q then .done s
    else
      let q := { q with levels := popLevels q.levels }
      let s := setSlotQ slot (some q) s
      match (fetchPkt q ((q.levels.head?.map (·.pos)).getD 0)) s with
      | .ok x t =>
        match packetStep slot x with
        | some i => .run i t
        | none => .done t
      | .error st t => .done (feStopped forPackets q st t)

end Sys2Proof.Machine
end

