-- ==== Sys2Proof/Machine/Queues.lean ====
section
/-! DEFINITION. Queues and gangs: the directory (R107 to R109 of 05_command_stream.md), mapping and unmapping (R111,
R112), the poll of write pointers (R70 of 03_host_interface.md, R126) and teardown (R131). -/

namespace Sys2Proof.Machine

/-! ### Descriptors (R108, R109) -/

/-- A queue descriptor as read from the directory. -/
structure Desc where
  ring : Nat
  wptr : Nat
  rptr : Nat
  log2 : Nat
  flags : Nat
  lasid : Nat
  gang : Nat
  prio : Nat
  rest : Nat
  deriving DecidableEq, Repr

/-- The descriptor of a directory entry. -/
def descOf (s : State) (f i : Nat) : Desc :=
  let a := descAddr s f i
  let w (off n : Nat) : Nat := hostPeek s f (a + off) n
  { ring := w 0 8, wptr := w 8 8, rptr := w 0x10 8, log2 := w 0x18 1, flags := w 0x19 1, lasid := w 0x1A 2, gang := w 0x1C 2,
    prio := w 0x1E 1, rest := w 0x20 32 }
def descEn (d : Desc) : Bool := d.flags % 2 == 1
def descLoc (d : Desc) : Bool := d.flags / 2 % 2 == 1
/-- FAIL and TDONE are clear. -/
def descFresh (d : Desc) : Bool := d.flags / 64 == 0
/-- The descriptor may be mapped (R109). -/
def descOk (s : State) (f : Nat) (d : Desc) : Bool :=
  12 ≤ d.log2 && d.log2 ≤ 24 && d.ring % 2 ^ d.log2 == 0 && d.wptr % 8 == 0 && d.rptr % 8 == 0 && bitsOf d.flags 5 2 == 0 &&
    d.lasid < bitsOf (fnOf s f).vfctl.toNat 39 27 && d.gang ≤ 1023 && d.prio ≤ 3 && d.rest == 0
/-- Entries of a function's directory (R107). -/
def dirSize (s : State) (f : Nat) : Nat := bitsOf (fnOf s f).qdirbase.toNat 9 0 + 1
/-- The gang of a descriptor; a queue with GANG 0 is a gang of one, numbered past 1,023. -/
def gangKey (d : Desc) (i : Nat) : Nat := if d.gang == 0 then 1024 + i else d.gang
/-- The enabled queues of a gang. -/
def gangMembers (s : State) (f gang : Nat) : List Nat :=
  (List.range (dirSize s f)).filter fun i => descEn (descOf s f i) && gangKey (descOf s f i) i == gang

/-- HSTAT.READY (R65). -/
def fnReady (s : State) (f : Nat) : Bool :=
  let v := (fnOf s f).hvsel.toNat
  bitsOf v 15 12 != 0 && bitsOf v 11 8 != 0 && bitsOf v 7 4 != 0
/-- SLOTQ (R67). -/
def slotQuota (s : State) (f : Nat) : Nat := bitsOf (fnOf s f).vfctl.toNat 26 18

/-- The mapped queues with their slots. -/
def mappedQs (s : State) : List (Nat × Queue) := s.fe.slots.filterMap fun (k, q) => q.map fun q => (k, q)
def mappedOf (s : State) (f i : Nat) : Option (Nat × Queue) := (mappedQs s).find? fun e => isQ f i e.2
def keptOf (s : State) (f i : Nat) : Option Queue := s.fe.off.find? (isQ f i)
/-- The gang of a mapped queue. -/
def queueKey (q : Queue) : Nat := if q.gang == 0 then 1024 + q.qidx else q.gang

/-- A descriptor that may never be mapped: FAIL with ERR 7, and vector 1 (R109). -/
def refuseDesc (f i : Nat) (s : State) : State := failQueue f i 7 s

/-! ### Pending gangs (R111) -/

/-- A pointer word of a queue that is not mapped, when it can be read. -/
def offWord (s : State) (f : Nat) (d : Desc) (a : Nat) : Option Nat :=
  if descLoc d then
    match feAccess s (d.lasid + bitsOf (fnOf s f).vfctl.toNat 51 40) a 8 false with
    | (.ok pa _, t) => some (homeBytes t pa 8).1
    | _ => none
  else if hostBad s f a 8 then none
  else some (hostPeek s f a 8)

/-- A queue that is not mapped makes its gang pending: its write pointer is ahead, or a WAIT, graph, packet or buffer of it is
open. A write pointer that cannot be read counts as ahead, so that the queue is mapped and its fault served. -/
def queuePending (s : State) (f i : Nat) : Bool :=
  let d := descOf s f i
  let kept := keptOf s f i
  kept.any (fun q => q.wait.isSome || !q.issued.isEmpty || !q.sigs.isEmpty || 1 < (popLevels q.levels).length) ||
    (match offWord s f d d.wptr, (kept.map (·.rptr)).or (offWord s f d d.rptr) with
      | some w, some r => decide (r < w)
      | _, _ => true)

/-- The gang may be mapped as far as its descriptors go: every enabled member is mapped already, or fresh and valid. -/
def gangValid (s : State) (f gang : Nat) : Bool :=
  (gangMembers s f gang).all fun i => (mappedOf s f i).isSome || (descFresh (descOf s f i) && descOk s f (descOf s f i))
/-- Members that are not mapped. -/
def gangTodo (s : State) (f gang : Nat) : List Nat := (gangMembers s f gang).filter fun i => (mappedOf s f i).isNone
/-- A gang that the service would map now if slots were free. -/
def gangPending (s : State) (f gang : Nat) : Bool :=
  f < 64 && fnReady s f && gangValid s f gang && (gangMembers s f gang).length ≤ slotQuota s f && (gangTodo s f gang).any (queuePending s f)

/-- UNMAPPED_QUEUE_POLL (R111): a queue found pending starts its gang's wait; a bad descriptor fails; signals of a kept
queue that waited are written. -/
def pollUnmapped (f i : Nat) (s : State) : State :=
  let d := descOf s f i
  if !(f < 64 && i < dirSize s f && descEn d && (mappedOf s f i).isNone && fnReady s f) then s
  else if !descFresh d then s
  else if !descOk s f d then refuseDesc f i s
  else
    let s := drainSignals f i 8 s
    let g := gangKey d i
    if queuePending s f i && !(s.fe.gangAges.any fun a => a.fn == f && a.gang == g) then
      modFe (fun x => { x with gangAges := x.gangAges ++ [{ fn := f, gang := g, since := s.cyc }] }) s
    else s
def execUnmappedQueuePoll (f q : Nat) (s : State) : Host.Outcome State Fault Refusal := .next (pollUnmapped f q s)

/-! ### Mapping (R111, R112) -/

/-- The priority of a gang: the highest of its queues. -/
def gangPrio (s : State) (f gang : Nat) : Nat := ((gangMembers s f gang).map fun i => (descOf s f i).prio).foldl Nat.max 0
/-- When a gang began to wait. -/
def gangWait (s : State) (f gang : Nat) : Nat :=
  ((s.fe.gangAges.find? fun a => a.fn == f && a.gang == gang).map (·.since)).getD s.cyc
/-- Another pending gang goes first: of a higher priority, or of the same and waiting longer (R112). -/
def gangBehind (s : State) (f gang : Nat) : Bool :=
  let p := gangPrio s f gang
  let w := gangWait s f gang
  s.fe.gangAges.any fun a => !(a.fn == f && a.gang == gang) && gangPending s a.fn a.gang &&
    (p < gangPrio s a.fn a.gang || (p == gangPrio s a.fn a.gang && a.since < w))

/-- The gangs of a function that may be unmapped: their slots held for at least 2 ms, and no queue failed (R110, R112);
each with priority and time of mapping. -/
def unmappable (s : State) (f : Nat) : List (Nat × Nat × Nat) :=
  let qs := (mappedQs s).filterMap fun (_, q) => if q.fn == f then some q else none
  ((qs.map queueKey).eraseDups.filter fun g => (qs.filter (queueKey · == g)).all fun q =>
      !q.failed && q.since + 2000 * Config.cyclesPerUs ≤ s.cyc).map fun g =>
    let ms := qs.filter (queueKey · == g)
    (g, (ms.map (·.prio)).foldl Nat.max 0, (ms.map (·.since)).foldl Nat.min s.cyc)
/-- The gang that gives way: the lowest priority, and of these the one mapped earliest. -/
def victim (gs : List (Nat × Nat × Nat)) : Option Nat :=
  (gs.foldl (fun (b : Option (Nat × Nat × Nat)) g => match b with
    | none => some g
    | some x => if g.2.1 < x.2.1 || (g.2.1 == x.2.1 && g.2.2 < x.2.2) then some g else some x) none).map (·.1)

/-- Unmap a queue: its read pointer is written, its bytes held are given up and its slot is free (R112). -/
def unmapQueue (slot : Nat) (q : Queue) (s : State) : State :=
  let s := match (rptrWrite q) s with
    | .ok put t => put q.rptr t
    | .error _ _ => s
  let kept := { q with levels := q.levels.map fun l => { l with held := [] } }
  modFe (fun x => { x with slots := SMap.set none x.slots slot none, off := x.off ++ [kept] }) s
def unmapGang (f gang : Nat) (s : State) : State :=
  ((mappedQs s).filter fun e => e.2.fn == f && queueKey e.2 == gang).foldl (fun s e => unmapQueue e.1 e.2 s) s

/-- The lowest free slot. -/
def openSlot (s : State) : Option Nat := (List.range 256).find? fun k => (slotQ s k).isNone

/-- The queue of a descriptor as it is mapped first: it starts at its read-pointer word. -/
def newQueue (s : State) (f i : Nat) (d : Desc) (r : Nat) : Queue :=
  { fn := f, qidx := i, asid := d.lasid + bitsOf (fnOf s f).vfctl.toNat 51 40, gang := d.gang, prio := d.prio, since := s.cyc,
    ring := d.ring, wptrA := d.wptr, rptrA := d.rptr, log2 := d.log2, loc := descLoc d, wptr := r, rptr := r
    levels := [{ base := d.ring, len := 0, loc := descLoc d, pos := r }] }

/-- A queue waits for the answer of a fault. -/
def queueWaits (s : State) (f i : Nat) : Bool :=
  s.tr.faults.any (fun r => r.waiters.contains (.queue (1024 * f + i))) || s.tr.pending.any fun p => p.who == .queue (1024 * f + i)

/-- The queues that a gang's mapping needs, each as it will run; the first read that stops ends it. -/
def mapReads (f : Nat) : List Nat → FX (List Queue)
  | [] => pure []
  | i :: rest => do
    let s ← get
    let d := descOf s f i
    let q ← match keptOf s f i with
      | some q => pure { q with since := s.cyc, gang := d.gang, prio := d.prio, asid := d.lasid + bitsOf (fnOf s f).vfctl.toNat 51 40 }
      | none => do
        let q := newQueue s f i d 0
        let r ← ptrRead q d.rptr
        pure (newQueue s f i d r)
    pure (q :: (← mapReads f rest))

/-- Give a queue the lowest free slot, and the lowest of its function's quota (R110). -/
def mapQueue (q : Queue) (s : State) : State :=
  match openSlot s with
  | none => s
  | some k =>
    let taken := (mappedQs s).filterMap fun e => if e.2.fn == q.fn then some e.2.fslot else none
    let j := ((List.range 256).find? fun j => !taken.contains j).getD 0
    setSlotQ k (some { q with fslot := j }) (modFe (fun x => { x with off := x.off.filter fun y => !isQ q.fn q.qidx y }) s)

/-- Read what a gang's mapping needs, one queue at a time, and map it whole (R111). -/
def mapAll (f gang : Nat) (todo : List Nat) (s : State) : State :=
  match (mapReads f todo) s with
  | .ok qs t =>
    qs.foldl (fun s q => mapQueue q s) (modFe (fun x => { x with gangAges := x.gangAges.filter fun a => !(a.fn == f && a.gang == gang) }) t)
  | .error st t =>
    match todo.find? fun i => (match (mapReads f [i]) s with
        | .ok _ _ => false
        | .error _ _ => true) with
    | some i => feStopped forPoll (newQueue s f i (descOf s f i) 0) st t
    | none => t

/-- GANG_MAP (R111, R112). -/
def gangMap (f gang : Nat) (s : State) : State :=
  match (gangTodo s f gang).find? fun i => descFresh (descOf s f i) && !descOk s f (descOf s f i) with
  | some i => if f < 64 && fnReady s f then refuseDesc f i s else s
  | none =>
    let todo := gangTodo s f gang
    let n := ((mappedQs s).filter fun e => e.2.fn == f).length
    if !gangPending s f gang || gangBehind s f gang || todo.any (queueWaits s f) then s
    else if slotQuota s f < n + todo.length then
      match victim ((unmappable s f).filter fun g => g.1 != gang) with
      | some g => unmapGang f g s
      | none => s
    else mapAll f gang todo s
def execGangMap (f gang : Nat) (s : State) : Host.Outcome State Fault Refusal := .next (gangMap f gang s)

/-! ### The write pointer (R70, R109, R126) -/

/-- Fetch chunks of a level ahead of the packet to issue, at most `n`, as far as they can be read (R126). -/
def prefetch (slot k : Nat) : Nat → Nat → State → State
  | 0, _, s => s
  | n + 1, off, s =>
    match slotQ s slot with
    | none => s
    | some q =>
      match (fetchAt q k off) s with
      | .ok _ t => prefetch slot k n (off + 32) t
      | .error _ _ => s

/-- Read the write-pointer word and check it (R109). -/
def pollWptr (q : Queue) : FX (State → State) := do
  let w ← ptrRead q q.wptrA
  if w % 32 != 0 || w < q.wptr || q.rptr + 2 ^ q.log2 < w then throw (.err 6)
  pure (modQ (isQ q.fn q.qidx) fun q => { q with wptr := w })

/-- WPTR_POLL: the word is read, and up to 2 KiB of each level are fetched. An ended buffer stays while a WAIT that was its last
packet is open (R120). -/
def wptrPoll (slot : Nat) (s : State) : State :=
  match slotQ s slot with
  | none => s
  | some q =>
    if !mayIssue forPoll q then s
    else
      let q := if q.wait.isSome then q else { q with levels := popLevels q.levels }
      let s := feRun forPoll q (pollWptr q) (setSlotQ slot (some q) s)
      match slotQ s slot with
      | some q =>
        if mayIssue forPoll q then q.levels.zipIdx.foldl (fun s (l, k) => prefetch slot k 64 l.pos s) s else s
      | none => s
def execWptrPoll (slot : Nat) (s : State) : Host.Outcome State Fault Refusal := .next (wptrPoll slot s)

/-! ### Teardown (R131, R132) -/

/-- The completion signals that a queue still owes: of its ACTMSGs, SWEEPs and GRAPHs, and those whose write waits. -/
def owedSignals (q : Queue) : List Nat :=
  (q.issued.filter fun i => i.done.isNone && i.signal != 0 && i.ty ∈ [1, 2, 0x0B]).map (·.signal) ++ q.sigs.map (·.1)
/-- The signal of a graph node that was not launched, as its packet names it (R131 step 4). -/
def nodeSignal (asid a : Nat) : FX Nat := do
  let x ← feLoad asid a 32
  match pkTy x with
  | 0x01 => pure (pkW x 3)
  | 0x02 => do
    let (pa, _) ← feGo asid (pkW x 1) 64 64 false
    pure (sigAddr (peek (← get) (pa + 0x28) 8))
  | _ => pure 0
/-- The signals of the nodes of a graph that have not been launched. -/
def graphSignals (asid : Nat) (g : Graph) (s : State) : List Nat :=
  (g.nodes.zip g.pkts).filterMap fun (n, a) =>
    match n with
    | .waiting _ =>
      match (nodeSignal asid a) s with
      | .ok 0 _ => none
      | .ok x _ => some x
      | .error _ _ => none
    | _ => none
/-- Write the aborted signals of a queue that is torn down, at most `n`: a translation fault parks it, a tag holds it, and a
signal that no address holds is given up; so is one that faults while its function is reset (R131, R487, log 21). -/
def abortSignals (reset : Bool) (f i : Nat) : Nat → State → State
  | 0, s => s
  | n + 1, s =>
    match (allQs s).find? (isQ f i) with
    | none => s
    | some q =>
      match q.sigs with
      | [] => s
      | (a, st) :: rest =>
        let drop (s : State) : State := modQ (isQ f i) (fun q => { q with sigs := rest }) s
        if q.parked then s
        else if a % 8 != 0 then abortSignals reset f i n (drop s)
        else match feAccess s q.asid a 8 true with
          | (.ok pa attr, s) => abortSignals reset f i n (drop (feStore attr pa 8 (signalWord s st) s))
          | (.refused, s) => abortSignals reset f i n (drop s)
          | (.held, s) => s
          | (.fault c l, s) => if c == 3 || reset then abortSignals reset f i n (drop s) else feFault q a c l true s

/-- What a core holds of a queue's work goes: firings, messages, its share of a sweep and wakes, with the fault of a wake. -/
def dropWork (f i : Nat) (sweeps : List Nat) (core : Nat) (s : State) : State :=
  let s := abortCore core (fun x => x.fn == f && x.queue == i) s
  let s := if (coreOf s core).wakes.head?.any sweeps.contains then leaveFaults (· == .wake core) s else s
  modCore core (fun k => { k with
    inbound := k.inbound.filter fun m => !(m.fn == f && m.queue == i)
    spillMeta := k.spillMeta.map fun m => if m.fn == f && m.queue == i then { m with gone := true } else m
    share := if k.share.any fun h => sweeps.contains h.sweep then none else k.share
    wakes := k.wakes.filter fun w => !sweeps.contains w }) s
/-- The cores that have any state. -/
def usedCores (s : State) : List Nat :=
  (s.cores.map Prod.fst ++ ((s.ctxs.map Prod.fst).filter (fun k => k < 32768)).map (fun k => k / 8)).eraseDups

/-- The first steps of a teardown (R131): issue stops, work is discarded and copies are cancelled; the signals to be written
aborted wait. -/
def teardownBegin (q : Queue) (s : State) : State :=
  let f := q.fn
  let i := q.qidx
  let mine (g : Graph) : Bool := q.issued.any (·.serial == g.serial)
  let nodes := (s.fe.graphs.filter mine).flatMap fun g => graphSignals q.asid g s
  let s := modFe (fun x => { x with graphs := x.graphs.filter fun g => !mine g }) s
  let s := modQ (isQ f i) (fun q => { q with wait := none, levels := q.levels.map fun l => { l with held := [], pos := l.len } }) s
  let sweeps := (s.fe.sweeps.filter fun w => w.fn == f && w.queue == i).map (·.id)
  let s := (usedCores s).foldl (fun s core => dropWork f i sweeps core s) s
  let s := { s with net := s.net.filter fun m => match m with
    | .msg _ m => !(m.fn == f && m.queue == i && m.from_.isNone)
    | _ => true }
  let s := (s.cp.copies.filter fun c => c.fn == f && c.queue == i).foldl (fun s c => copyCancel c s) s
  let s := modGrp (fun g => { g with episodes := g.episodes.filter fun e => !sweeps.contains e.sweep })
    (modFe (fun x => { x with sweeps := x.sweeps.filter fun w => !sweeps.contains w.id }) s)
  let owed := ((allQs s).find? (isQ f i)).elim [] owedSignals
  let s := leaveFaults (· == .queue (1024 * f + i)) s
  modQ (isQ f i) (fun q => { q with
    torn := true
    parked := false
    held := none
    issued := []
    sigs := (owed ++ nodes).map fun a => (a, stAborted) }) s
/-- Its end: the slot is free, TDONE, and vector 1. -/
def teardownEnd (f i : Nat) (s : State) : State :=
  let s := leaveFaults (· == .queue (1024 * f + i)) s
  let s := modFe (fun x => { x with
    slots := x.slots.filter fun e => !(e.2.any (isQ f i))
    off := x.off.filter fun y => !isQ f i y }) s
  let a := descAddr s f i + 0x19
  vecEvent f 1 (hostPoke f a 1 (Nat.lor (hostPeek s f a 1) 0x80) s)

/-- A queue of the front end, mapped or kept. -/
def anyQ (s : State) (f i : Nat) : Option Queue := (allQs s).find? (isQ f i)
/-- Tear a queue down (R131): work discarded, copies cancelled, signals written aborted, records closed, TDONE. A signal that
waits for a tag or a fault holds the end back. -/
def teardown (reset : Bool) (q : Queue) (s : State) : State :=
  let s := if q.torn then s else teardownBegin q s
  let s := abortSignals reset q.fn q.qidx (((anyQ s q.fn q.qidx).map (·.sigs.length)).getD 0) s
  if (anyQ s q.fn q.qidx).any fun q => q.sigs.isEmpty then teardownEnd q.fn q.qidx s else s
/-- QUEUE_TEARDOWN: the host has cleared EN. -/
def execQueueTeardown (f q : Nat) (s : State) : Host.Outcome State Fault Refusal :=
  .next (match anyQ s f q with
    | some x => if descEn (descOf s f q) && !x.torn then s else teardown false x s
    | none => s)

end Sys2Proof.Machine
end

