-- ==== Sys2Proof/Machine/HostRegs.lean ====
section
/-! DEFINITION. The host interface (R61 to R86 of 03_host_interface.md): registers, fault answers, interrupts, CXL, bias
flips and function-level resets. -/

namespace Sys2Proof.Machine

/-- A function has a queue mapped to a slot. -/
def fnMapped (s : State) (f : Nat) : Bool := (mappedQs s).any (·.2.fn == f)
/-- Set sticky flags of HSTAT (R66). -/
def hstatSet (f : Nat) (m : W64) (s : State) : State := modFn f (fun x => { x with hstat := x.hstat ||| m }) s

/-- A function that the host reaches: the PF, and a VF while the PF driver has enabled the VFs (R61). -/
def fnHere (s : State) (f : Nat) : Bool := f == 0 || (f < 64 && s.host.sriov)

/-! ### Version selection and resources (R64 to R69) -/

/-- The version masks of HCAP: version 1 of each, or none after a double boot failure (R64, R91). -/
def versionOk (s : State) (n : Nat) : Bool := n == 0 || (n == 1 && s.firm.booted)
/-- HVSEL_WRITE (R65): a VF has no PRV field. -/
def execHvselWrite (f : Nat) (v : W64) (s : State) : Host.Outcome State Fault Refusal :=
  let n := if f == 0 then v.toNat else v.toNat / 16 * 16
  .next (if !fnHere s f then s
    else if n < 65536 && ([bitsOf n 15 12, bitsOf n 11 8, bitsOf n 7 4, bitsOf n 3 0].all (versionOk s)) && !fnMapped s f then
      modFn f (fun x => { x with hvsel := BitVec.ofNat 64 n }) s
    else hstatSet f 0x40 s)

/-- HSTAT_WRITE (R66): the flags of bits 6 to 3 are cleared by writing 1. -/
def execHstatWrite (f : Nat) (v : W64) (s : State) : Host.Outcome State Fault Refusal :=
  .next (if fnHere s f then modFn f (fun x => { x with hstat := x.hstat &&& ~~~(v &&& 0x78) }) s else s)

def vfBase (v : Nat) : Nat := bitsOf v 51 40
def vfCnt (v : Nat) : Nat := bitsOf v 39 27
def vfSlots (v : Nat) : Nat := bitsOf v 26 18
/-- The VFCTL entry of another function allows a range and leaves slots. -/
def vfctlOk (s : State) (f v : Nat) : Bool :=
  let others := (List.range 64).filter (· != f)
  let e (g : Nat) : Nat := (fnOf s g).vfctl.toNat
  vfBase v + vfCnt v ≤ 4096 && (others.map fun g => vfSlots (e g)).sum + vfSlots v ≤ 256 && !fnMapped s f &&
    others.all fun g => vfCnt (e g) == 0 || vfCnt v == 0 || vfBase v + vfCnt v ≤ vfBase (e g) || vfBase (e g) + vfCnt (e g) ≤ vfBase v
/-- VFCTL_WRITE (R67, R68). -/
def execVfctlWrite (f : Nat) (v : W64) (s : State) : Host.Outcome State Fault Refusal :=
  let n := bitsOf v.toNat 51 18 * 2 ^ 18
  .next (if 64 ≤ f then s else if vfctlOk s f n then modFn f (fun x => { x with vfctl := BitVec.ofNat 64 n }) s else hstatSet 0 0x08 s)

/-- QDIRBASE_WRITE (R107). -/
def execQdirbaseWrite (f : Nat) (v : W64) (s : State) : Host.Outcome State Fault Refusal :=
  let n := v.toNat / 4096 * 4096 + v.toNat % 1024
  .next (if !fnHere s f || (List.range (dirSize s f)).any (fun i => descEn (descOf s f i)) then s
    else modFn f (fun x => { x with qdirbase := BitVec.ofNat 64 n }) s)

/-! ### Plain registers (R63, R72, R77, R83, R93) -/

/-- The model's name of the service mailbox registers, which lie in configuration space (R93, log 22). -/
def svcBase : Nat := 0x80000000
/-- A write of SVCCTL (R93, R94): GO starts a command that no other is in the way of. A CMD outside the table gives STATUS 2 at
once: BUSY is never set, nothing completes, and no vector is raised; DESIGN CHOICE (log 94). -/
def svcCtlWrite (v : Nat) (s : State) : State :=
  let old := s.firm.svc.ctl.toNat
  let busy := bitsOf old 31 31 == 1
  let cmd := bitsOf v 11 8
  let fields := cmd * 2 ^ 8 + v % 256
  let put (s : State) (n : Nat) : State := modFirm (fun f => { f with svc := { f.svc with ctl := BitVec.ofNat 32 n } }) s
  if bitsOf v 31 31 == 0 then (if busy then s else put s (bitsOf old 23 16 * 2 ^ 16 + fields))
  else if busy then put s (old - bitsOf old 23 16 * 2 ^ 16 + 2 ^ 16)
  else if cmd == 0 || 7 < cmd then put s (2 * 2 ^ 16 + fields)
  else put s (2 ^ 31 + fields)

/-- Half of an MSI-X table entry: address, or data and the vector's mask bit. -/
def vtabWrite (f vec : Nat) (high : Bool) (v : Nat) (s : State) : State :=
  modFn f (fun x =>
    let old := (SMap.get 0 x.vtab vec).toNat
    let new := if high then old % 2 ^ 64 + v * 2 ^ 64 else old / 2 ^ 64 * 2 ^ 64 + v
    { x with
      vtab := SMap.set 0 x.vtab vec (BitVec.ofNat 128 new)
      vmask := if high then SMap.set false x.vmask vec (bitsOf v 32 32 == 1) else x.vmask }) s

/-- The write of a register without a behaviour of its own; an undefined or read-only one is discarded. FQCTL keeps a VEC at or
above NVEC, and that vector is the one raised: DESIGN CHOICE (log 94). -/
def registerWrite (f off : Nat) (v : W64) (s : State) : State :=
  let n := v.toNat
  if !fnHere s f then s
  else if off == 0x0100 then modFn f (fun x => { x with fqbase := v }) s
  else if off == 0x0108 then
    faultDrain f 65536 (modFn f (fun x => { x with fqctl := BitVec.ofNat 64 (bitsOf n 63 63 * 2 ^ 63 + bitsOf n 23 16 * 2 ^ 16 + n % 32) }) s)
  else if 0x8000 ≤ off && off < 0x8000 + 16 * nvec f && off % 16 == 0 then
    let vec := (off - 0x8000) / 16
    modFn f (fun x =>
      let pend := bitsOf (SMap.get 1 x.icoal vec).toNat 47 32
      { x with icoal := SMap.set 1 x.icoal vec (BitVec.ofNat 64 (pend * 2 ^ 32 + n % 2 ^ 32)) }) s
  else if 0x10000 ≤ off && off < 0x10000 + 16 * nvec f && off % 8 == 0 then vtabWrite f ((off - 0x10000) / 16) (off % 16 == 8) n s
  else if f != 0 then s
  else if off == 0x200000 then modHost (fun h => { h with biasAddr := BitVec.ofNat 64 (bitsOf n 39 12 * 2 ^ 12) }) s
  else if off == svcBase + 0x0C then svcCtlWrite n s
  else if off == svcBase + 0x10 then
    modFirm (fun g => { g with svc := { g.svc with addr := BitVec.ofNat 64 (g.svc.addr.toNat / 2 ^ 32 * 2 ^ 32 + n % 2 ^ 32) } }) s
  else if off == svcBase + 0x14 then
    modFirm (fun g => { g with svc := { g.svc with addr := BitVec.ofNat 64 (g.svc.addr.toNat % 2 ^ 32 + n % 2 ^ 32 * 2 ^ 32) } }) s
  else s
/-- REGISTER_WRITE. -/
def execRegisterWrite (f off : Nat) (v : W64) (s : State) : Host.Outcome State Fault Refusal := .next (registerWrite f off v s)

/-- BLACKBOX_SEL_WRITE (R104). -/
def execBlackboxSelWrite (sel : Bool) (s : State) : Host.Outcome State Fault Refusal := .next (modFirm (fun f => { f with bbsel := sel }) s)

/-! ### Fault answers (R74, R75) -/

/-- FQHEAD_WRITE. -/
def execFqheadWrite (f : Nat) (v : W64) (s : State) : Host.Outcome State Fault Refusal :=
  .next (if fnHere s f then faultDrain f 65536 (modFn f (fun x => { x with fqhead := v }) s) else s)

/-- A firing parked on a record retries its access, or takes the trap. -/
def resumeFiring (h : Nat) (deliver : Bool) (s : State) : State :=
  let c := handleCid h
  let faulted := match (ctxOf s c).wait with
    | .fault _ _ _ => true
    | _ => false
  if placedHandle s h && faulted then
    modCtx c (fun x => { x with st := .ready, wait := if deliver then x.wait else .none, granted := deliver }) s
  else modCore (handleCore h) (fun k => { k with saved := k.saved.map fun v =>
    if v.fir.handle == h % 2 ^ 37 then (if deliver then { v with deliver := true } else { v with wait := .none }) else v }) s
/-- A parked copy goes on, or ends with STATUS 3; one whose record could not be written goes on without it (R261). -/
def resumeCopy (id cause : Nat) (deliver : Bool) (s : State) : State :=
  match copyById s id with
  | none => s
  | some c =>
    if !deliver then modCopy id (fun c => { c with parked := false }) s
    else if c.ended.isSome then modCopy id (fun c => { c with parked := false, recorded := true }) s
    else modCopy id (fun c => { c with parked := false, ended := some (3, cause) }) s
/-- A parked queue goes on, or fails with ERR 8; a record that SWEEP issue reads is then not valid (R487). A signal on the
page of the fault is given up. -/
def resumeQueue (f i va : Nat) (deliver : Bool) (s : State) : State :=
  let go (g : Queue → Queue) : State := modQ (isQ f i) (fun q => g { q with parked := false }) s
  if !deliver then go fun q => { q with recFault := 0 }
  else if (anyQ s f i).any (·.recFault == 1) then go fun q => { q with recFault := 2 }
  else
    let keep (q : Queue) : Queue := match q.sigs with
      | (a, _) :: rest => if a % 2 ^ 57 / 4096 == va / 4096 then { q with sigs := rest } else q
      | [] => q
    if (anyQ s f i).any (·.torn) then go keep else failQueue f i 8 (go keep)
/-- A core that accepts a wake reads the actor record again, or fails its share (R488). -/
def resumeWake (core : Nat) (deliver : Bool) (s : State) : State :=
  if !deliver then s
  else match (coreOf s core).wakes with
    | id :: _ =>
      match s.fe.sweeps.find? (·.id == id) with
      | some w =>
        let s := supRecord { code := 0x4A, source := 0, unit := core, addr := hdrWord w.header 3, asid := w.asid } s
        modFe (fun f => { f with sweeps := f.sweeps.map fun x => if x.id == w.id then { x with reports := x.reports ++ [(core, stFailed)] } else x })
          (modCore core (fun k => { k with wakes := k.wakes.drop 1 }) s)
      | none => s
    | [] => s
/-- A parked save or restore goes on, or fails (R308). -/
def resumeSave (h : Nat) (deliver : Bool) (s : State) : State :=
  match savedOf s h with
  | none => s
  | some v => if deliver then saveFail v s else modSaved (handleCore h) v.fir.handle (fun v => { v with parked := false }) s

/-- What one accessor that waits on a record does. -/
def resumeOne (r : FaultRec) (deliver : Bool) (s : State) (p : Parked) : State :=
  match p with
  | .ctx h => resumeFiring h deliver s
  | .copy id => resumeCopy id r.cause deliver s
  | .queue id => resumeQueue (id / 1024) (id % 1024) r.va deliver s
  | .wake core => resumeWake core deliver s
  | .save h => resumeSave h deliver s

/-- A write of FRESUME: a reserved action or bit, or a record that is not open, sets FRERR. -/
def fresume (f : Nat) (v : W64) (s : State) : State :=
  let act := bitsOf v.toNat 63 62
  if !fnHere s f then s
  else match faultById s f (v.toNat % 2 ^ 32) with
    | none => hstatSet f 0x10 s
    | some r =>
      if 2 ≤ act || bitsOf v.toNat 61 32 != 0 then hstatSet f 0x10 s
      else r.waiters.foldl (resumeOne r (act == 1)) (faultClose f r.id s)
/-- FRESUME_RETRY and FRESUME_DELIVER: the action is the word's. -/
def execFresumeRetry (f : Nat) (v : W64) (s : State) : Host.Outcome State Fault Refusal := .next (fresume f v s)
def execFresumeDeliver (f : Nat) (v : W64) (s : State) : Host.Outcome State Fault Refusal := .next (fresume f v s)

/-! ### Interrupts (R77) -/

/-- COALESCE_TIMER. -/
def execCoalesceTimer (f vec : Nat) (s : State) : Host.Outcome State Fault Refusal :=
  let x := fnOf s f
  let ic := (SMap.get 1 x.icoal vec).toNat
  let due := (x.icoalSince.find? (·.1 == vec)).any fun e => e.2 + bitsOf ic 31 16 * Config.cyclesPerUs ≤ s.cyc
  .next (if bitsOf ic 31 16 != 0 && bitsOf ic 47 32 != 0 && due then vecSend f vec s else s)
/-- MSIX_UNMASK. -/
def execMsixUnmask (f vec : Nat) (s : State) : Host.Outcome State Fault Refusal :=
  let x := fnOf s f
  .next (if SMap.get false x.vpend vec && !SMap.get false x.vmask vec then
      modHost (fun h => { h with msix := h.msix ++ [(f, vec)] }) (setFn s f { x with vpend := SMap.set false x.vpend vec false })
    else s)

/-! ### CXL.mem and CXL.cache (R79 to R82) -/

/-- The HBM that firmware reports (R79). -/
def hbmSize (s : State) : Nat := if (bootTable s).fabric then fabricArea else hbmTop
/-- A block leaves the home slice that holds it; the mapped bytes are what the slice held. -/
def dropLine (pa : Nat) (s : State) : State :=
  let s := takeOwner pa none s
  modMs (fun m => { m with l2 := SMap.set none m.l2 (blockOf pa) none }) s
/-- Serve a host access at HBM. -/
def hostServe (pa : Nat) (data : Option (BitVec 512)) (s : State) : State :=
  match data with
  | some d => memWrite pa 64 d.toNat false none s
  | none => modHost (fun h => { h with
      out := h.out ++ [(pa, if poisonAt s pa 64 then none else some (BitVec.ofNat 512 (peek s pa 64)))] }) (correct pa 64 s)
/-- A host access to an HBM block: recalled first in device bias, poison beyond the reported size, held during a flip. -/
def hostAccess (addr : Nat) (data : Option (BitVec 512)) (s : State) : State :=
  let pa := addr / 64 * 64
  if hbmSize s ≤ pa then (if data.isSome then s else modHost (fun h => { h with out := h.out ++ [(pa, none)] }) s)
  else if s.host.flip.any fun x => x.page == pa / 4096 then modHost (fun h => { h with held := h.held ++ [{ addr := pa, data := data }] }) s
  else hostServe pa data (if SMap.get false s.host.hostBias (pa / 4096) then s else dropLine pa s)
/-- HOST_MEM_ACCESS (R79, R82): the HBM address is the host physical address minus the base of the HDM decoder; one below the
base is none of the device's. -/
def execHostMemAccess (addr : Nat) (data : Option (BitVec 512)) (s : State) : Host.Outcome State Fault Refusal :=
  .next (if addr < s.host.hdmBase then s else hostAccess (addr - s.host.hdmBase) data s)

/-- H2D_SNOOP (R80): the host line leaves the slices, dirty data goes to the host, and what the host then writes stands in
its memory. -/
def execH2dSnoop (addr : Nat) (data : Option (BitVec 512)) (s : State) : Host.Outcome State Fault Refusal :=
  let pa := hostBase + addr % hostBase / 64 * 64
  let held := SMap.get none s.ms.l2 (blockOf pa)
  let s1 := match held with
    | some l =>
      let s := if l.dirty then modHost (fun h => { h with out := h.out ++ [(pa, some (BitVec.ofNat 512 (peek s pa 64)))] }) s else s
      let s := dropLine pa s
      modMs (fun m => { m with atag := SMap.erase m.atag (blockOf pa) }) s
    | none => s
  .next (match data with
    | some d => poke pa 64 d.toNat s1
    | none => s1)

/-- The message of the CXL port Prism that a line answers: a load's for RdShared, a store's or an atomic's for RdOwn. -/
def lineWanted (s : State) (pa : Nat) (own : Bool) : Option PMsg :=
  (prismOf s 50).req.find? fun m => m.block == pa && (if own then m.ty == 7 || m.ty == 8 else m.ty == 6)
/-- The line of the host fills the home slice of the access that asked; under uncached homing, and for a block in host bias,
the suspended accesses go through, no slice keeps a copy, and the tag stays as it is (R80, R81). -/
def hostFill (pa : Nat) (data : BitVec 512) (own : Bool) (s : State) : State :=
  if (lineWanted s pa own).isNone then s
  else
    let answered (m : PMsg) : Bool := m.block == pa && (m.ty == 6 || (own && (m.ty == 7 || m.ty == 8)))
    let s := modPrism 50 (fun x => { x with req := x.req.filter fun m => !answered m }) s
    let through (s : State) : State :=
      let now (u : Susp) : Susp := if u.block == blockOf pa && (own || u.ty == 0) then { u with allowed := true } else u
      wakeTags (fun b => b == blockOf pa) (modMs (fun m => { m with susp := m.susp.map now }) s)
    match spaceOf s pa with
    | .host =>
      if suspUncached s pa then through (poke pa 64 data.toNat s)
      else
        let old := SMap.get none s.ms.l2 (blockOf pa)
        let l : L2Line := { (old.getD { home := suspHome s pa }) with dirty := false }
        setAtag pa (if own then 2 else 1)
          (modMs (fun m => { m with l2 := SMap.insert m.l2 (blockOf pa) (some l) }) (poke pa 64 data.toNat s))
    | _ => through (if BitVec.ofNat 512 (peek s pa 64) == data then s else memWrite pa 64 data.toNat false none s)
/-- HOST_LINE_FILL. -/
def execHostLineFill (addr : Nat) (data : BitVec 512) (own : Bool) (s : State) : Host.Outcome State Fault Refusal :=
  .next (hostFill (addr / 64 * 64) data own s)

/-! ### Bias flips (R83, R84) -/

/-- BIASCTL with a status, BUSY or not. -/
def biasStatus (busy : Bool) (st : Nat) (s : State) : State :=
  modHost (fun h => { h with biasCtl := BitVec.ofNat 64 (
    (if busy then 2 ^ 63 else 0) + bitsOf h.biasCtl.toNat 62 62 * 2 ^ 62 + st * 2 ^ 60 + bitsOf h.biasCtl.toNat 9 0) }) s
/-- The tags of a page's blocks, but those that are busy-poisoned (R226). -/
def pageTags (page t : Nat) (s : State) : State :=
  (List.range 64).foldl (fun s k =>
    let pa := 4096 * page + 64 * k
    if busyPoisoned s pa then s else setAtag pa t s) s
/-- The state of a block's region protocol (R84, R229, R237): busy in a transaction, in a transient state or with an open
partial entry; read-only with remote readers; invalid with a remote writer; else read-only under ONCE and writable under
the others. -/
def protoTag (s : State) (pa : Nat) : BitVec 2 :=
  let p := hbmPrism pa
  if busyPoisoned s pa || txnOpen s p pa || (prismOf s p).part.any fun x => x.block == pa then 3
  else match dirDst (dirEntry s p pa) with
    | 0 => if protoOf s p pa == 4 then 1 else 2
    | 1 => 1
    | 2 => 0
    | _ => 3
/-- The tags of a page are set to the state of its region protocol. -/
def protoTags (page : Nat) (s : State) : State :=
  (List.range 64).foldl (fun s k => setAtag (4096 * page + 64 * k) (protoTag s (4096 * page + 64 * k)).toNat s) s

/-- BIAS_FLIP_START. -/
def biasStart (v : W64) (s : State) : State :=
  let n := v.toNat
  let page := bitsOf s.host.biasAddr.toNat 39 12
  let fields (s : State) : State := modHost (fun h => { h with biasCtl := BitVec.ofNat 64 (
    bitsOf h.biasCtl.toNat 63 63 * 2 ^ 63 + bitsOf n 62 62 * 2 ^ 62 + bitsOf h.biasCtl.toNat 61 60 * 2 ^ 60 + n % 1024) }) s
  if bitsOf n 63 63 == 0 then fields s
  else if s.host.flip.isSome then biasStatus true 1 s
  else if hbmSize s < 4096 * (page + n % 1024 + 1) then biasStatus false 2 (fields s)
  else
    let fl : Flip := { page := page, left := n % 1024 + 1, toDevice := bitsOf n 62 62 == 1, since := s.cyc }
    pageTags page 3 (biasStatus true 0 (modHost (fun h => { h with flip := some fl }) (fields s)))
def execBiasFlipStart (v : W64) (s : State) : Host.Outcome State Fault Refusal := .next (biasStart v s)

/-- Held host accesses of the page are served, oldest first. -/
def serveHeld (page : Nat) (s : State) : State :=
  let mine := s.host.held.filter fun h => h.addr / 4096 == page
  mine.foldl (fun s h => hostAccess h.addr h.data s) (modHost (fun h => { h with held := h.held.filter fun x => x.addr / 4096 != page }) s)

/-- The page has its new bias: the next page becomes busy, or the flip ends (R84). -/
def flipNext (x : Flip) (s : State) : State :=
  if x.left ≤ 1 then
    vecEvent 0 1 (biasStatus false (if x.late then 3 else 0) (serveHeld x.page (modHost (fun h => { h with flip := none }) s)))
  else
    let y : Flip := { x with page := x.page + 1, left := x.left - 1, since := s.cyc, asked := false }
    pageTags y.page 3 (serveHeld x.page (modHost (fun h => { h with flip := some y }) s))

/-- BIAS_FLIP_PAGE: to host bias the page is written back and its tags are invalid; to device bias the host is asked for
its lines. -/
def flipPage (s : State) : State :=
  match s.host.flip with
  | none => s
  | some x =>
    if x.asked || lockCovers s x.page then s
    else if x.toDevice then modHost (fun h => { h with flip := some { x with asked := true } }) s
    else
      let s := (List.range 64).foldl (fun s k => dropLine (4096 * x.page + 64 * k) s) s
      let s := modHost (fun h => { h with hostBias := SMap.set false h.hostBias x.page true }) s
      flipNext x (pageTags x.page 0 s)
def execBiasFlipPage (s : State) : Host.Outcome State Fault Refusal := .next (flipPage s)

/-- RDOWNNODATA_COMPLETION: the host has dropped its copies; the tags follow the region protocol again. -/
def execRdownnodataCompletion (s : State) : Host.Outcome State Fault Refusal :=
  .next (match s.host.flip with
    | some x =>
      if x.asked then
        flipNext x (protoTags x.page (modHost (fun h => { h with hostBias := SMap.set false h.hostBias x.page false }) s))
      else s
    | none => s)

/-- BIAS_FLIP_WAIT_TIMEOUT: one record for a flip that waits on range locks over 1 ms. -/
def execBiasFlipWaitTimeout (s : State) : Host.Outcome State Fault Refusal :=
  .next (match s.host.flip with
    | some x =>
      if !x.late && x.since + 1000 * Config.cyclesPerUs < s.cyc && lockCovers s x.page then
        supRecord { code := 0x46, source := 2, unit := 50, addr := 4096 * x.page }
          (modHost (fun h => { h with flip := some { x with late := true } }) s)
      else s
    | none => s)

/-! ### What a read of BAR0 returns (R63) -/

/-- HCAP (R64): every version mask is 0 after a double boot failure (R91). -/
def hcapRead (s : State) (f : Nat) : Nat :=
  let mask := if s.firm.booted then 1 else 0
  (if f == 0 then mask * 2 ^ 40 else 0) + mask * 2 ^ 32 + mask * 2 ^ 24 + mask * 2 ^ 16 + nvec f * 2 ^ 8 + f
/-- A queue has nothing issued, open or to issue. -/
def queueIdle (q : Queue) : Bool :=
  q.issued.isEmpty && q.wait.isNone && q.sigs.isEmpty && q.rptr == q.wptr && (popLevels q.levels).length ≤ 1
/-- QSTAT of a slot of the quota (R110). -/
def qstatRead (s : State) (f k : Nat) : Nat :=
  match (mappedQs s).find? fun e => e.2.fn == f && e.2.fslot == k with
  | none => 0
  | some (_, q) =>
    let state := if q.failed then 2 else if q.torn || !descEn (descOf s f q.qidx) then 3 else if queueIdle q then 0 else 1
    2 ^ 63 + state * 2 ^ 61 + q.err % 256 * 2 ^ 48 + q.qidx % 1024 * 2 ^ 32 + q.retired % 2 ^ 32
/-- A word of the black-box record that SEL shows (R104): entry 0 is the header. -/
def bbRead (s : State) (k word : Nat) : Nat :=
  let die := if s.firm.bbsel then 1 else 0
  let b := SMap.get {} s.firm.bb die
  if k == 0 then
    match word with
    | 0 => 0x57424258 + b.widx * 2 ^ 32 + b.wraps * 2 ^ 48
    | 1 => (if b.frozen then 1 else 0) + die * 2 + (if b.lost then 4 else 0)
    | _ => 0
  else ((SMap.get [] b.entries k).getD word 0).toNat
/-- HSTAT with READY, which follows HVSEL (R65, R66). -/
def hstatRead (s : State) (f : Nat) : Nat := bitsOf (fnOf s f).hstat.toNat 6 3 * 8 + (if fnReady s f then 2 ^ 7 else 0)

/-- What the host reads at an offset of a function's BAR0; the mailbox registers stand at svcBase (R93, log 22). -/
def barRead (s : State) (f off : Nat) : W64 :=
  let x := fnOf s f
  let pf := f == 0
  BitVec.ofNat 64 (
    if off == 0x0000 then hcapRead s f
    else if off == 0x0008 then x.hvsel.toNat
    else if off == 0x0010 then hstatRead s f
    else if off == 0x0100 then x.fqbase.toNat
    else if off == 0x0108 then x.fqctl.toNat
    else if off == 0x0110 then x.fqtail.toNat
    else if off == 0x0118 then x.fqhead.toNat
    else if off == 0x0200 then x.qdirbase.toNat
    else if 0x1000 ≤ off && off < 0x1000 + 8 * slotQuota s f && off % 8 == 0 then qstatRead s f ((off - 0x1000) / 8)
    else if 0x8000 ≤ off && off < 0x8000 + 16 * nvec f && off % 16 == 0 then (SMap.get 1 x.icoal ((off - 0x8000) / 16)).toNat
    else if 0x10000 ≤ off && off < 0x10000 + 16 * nvec f && off % 8 == 0 then
      (SMap.get 0 x.vtab ((off - 0x10000) / 16)).toNat / 2 ^ (if off % 16 == 8 then 64 else 0) % 2 ^ 64
    else if off == 0x18000 then ((List.range (nvec f)).map fun v => if SMap.get false x.vpend v then 2 ^ v else 0).sum
    else if pf && 0x100000 ≤ off && off < 0x101000 && off % 64 == 0 then (fnOf s ((off - 0x100000) / 64)).vfctl.toNat
    else if pf && off == 0x200000 then s.host.biasAddr.toNat
    else if pf && off == 0x200008 then s.host.biasCtl.toNat
    else if pf && off == 0x201000 then s.host.mgmtPwr.toNat
    else if pf && off == 0x201008 then s.host.mgmtTemp.toNat
    else if pf && 0x202000 ≤ off && off < 0x242000 && off % 8 == 0 then bbRead s ((off - 0x202000) / 64) ((off - 0x202000) % 64 / 8)
    else if pf && off == svcBase + 0x0C then s.firm.svc.ctl.toNat
    else if pf && off == svcBase + 0x10 then s.firm.svc.addr.toNat % 2 ^ 32
    else if pf && off == svcBase + 0x14 then s.firm.svc.addr.toNat / 2 ^ 32
    else 0)

/-- A host read of BAR0 changes one thing: PMAX is cleared by a read of MGMTPWR (R86). -/
def barReadDone (f off : Nat) (s : State) : State :=
  if f == 0 && off == 0x201000 then modHost (fun h => { h with
    mgmtPwr := BitVec.ofNat 64 (h.mgmtPwr.toNat - bitsOf h.mgmtPwr.toNat 31 16 * 2 ^ 16) }) s
  else s

/-! ### Function-level resets (R85) -/

/-- A function-level reset: queues torn down, fault records closed, ring, versions and coalescers as after reset. -/
def resetFn (f : Nat) (s : State) : State :=
  let s := ((allQs s).filter fun q => q.fn == f).foldl (fun s q => teardown true q s) s
  let never := (List.range (dirSize s f)).filter fun i => descEn (descOf s f i) && descFresh (descOf s f i) && (anyQ s f i).isNone
  let s := never.foldl (fun s i => teardownEnd f i s) s
  let s := faultPending (modTr (fun t => { t with faults := t.faults.filter (·.fn != f), pending := t.pending.filter (·.fr.fn != f) }) s)
  let s := modFe (fun x => { x with gangAges := x.gangAges.filter (·.fn != f) }) s
  let s := modFn f (fun x => { x with
    hvsel := 0
    fqctl := BitVec.ofNat 64 (x.fqctl.toNat % 2 ^ 63)
    fqtail := 0
    fqhead := 0
    fqphase := true
    icoal := []
    icoalSince := [] }) s
  vecEvent f 1 s
/-- The PF driver enables or disables the VFs, all together (R61); VFs that go are reset (log 95). -/
def setSriov (on : Bool) (s : State) : State :=
  if on == s.host.sriov then s
  else if on then modHost (fun h => { h with sriov := true }) s
  else modHost (fun h => { h with sriov := false }) (((List.range 64).filter (1 ≤ ·)).foldl (fun s f => resetFn f s) s)
/-- FUNCTION_LEVEL_RESET of a VF. -/
def execFunctionLevelReset (f : Nat) (s : State) : Host.Outcome State Fault Refusal := .next (if 1 ≤ f && fnHere s f then resetFn f s else s)
/-- PF_FUNCTION_LEVEL_RESET: every function is reset, and SR-IOV is disabled. -/
def execPfFunctionLevelReset (s : State) : Host.Outcome State Fault Refusal :=
  .next (modHost (fun h => { h with sriov := false }) ((List.range 64).foldl (fun s f => resetFn f s) s))

end Sys2Proof.Machine
end

