-- ==== Sys2Proof/Machine/Service.lean ====
section
/-! DEFINITION. The service mailbox (R93 to R98 of 04_control_column.md): certificates, attestation, hot patches, COMMIT,
BBCTL and FABCFG. The addresses of the answers' fields and their secret bytes are log 9. -/

namespace Sys2Proof.Machine

def modSvc (f : Svc → Svc) (s : State) : State := modFirm (fun x => { x with svc := f x.svc }) s
/-- The mailbox runs this command (R94). -/
def svcRuns (s : State) (n : Nat) : Bool :=
  s.firm.powered && s.firm.booted && s.firm.svc.ctl.getLsbD 31 && bitsOf s.firm.svc.ctl.toNat 11 8 == n
/-- The command completes: BUSY clears, and PF vector 1 is raised (R94). -/
def svcDone (st : Nat) (s : State) : State :=
  vecEvent 0 1 (modSvc (fun v => { v with ctl := BitVec.ofNat 32 (st * 2 ^ 16 + v.ctl.toNat % 4096) }) s)
/-- The buffer: its address and its length (R93). -/
def svcBuf (s : State) : Nat := s.firm.svc.addr.toNat
def svcLen (s : State) : Nat := 4096 * (s.firm.svc.ctl.toNat % 256 + 1)
/-- Read and write the buffer with the PF's requester ID (R93). -/
def bufRead (s : State) (off n : Nat) : Nat := hostPeek s 0 (svcBuf s + off) n
def bufWrite (off n x : Nat) (s : State) : State := hostPoke 0 (svcBuf s + off) n x s
/-- Run a command: a buffer that is not aligned is malformed (R93). -/
def svcCmd (n : Nat) (body : State → State) (s : State) : State :=
  if !svcRuns s n then s else if svcBuf s % 4096 != 0 then svcDone 2 s else body s

/-! ### Identity (R96, R97) -/

/-- Bytes that keys fix (log 9). -/
def secretBytes (at_ n : Nat) : Nat := leNat ((List.range n).map fun i => Config.secretByte (at_ + i))
/-- GETCERT: the certificate chain; the spec gives no length, and it fills the buffer that PAGES describes (log 94). -/
def execGetcert (s : State) : Host.Outcome State Fault Refusal :=
  .next (svcCmd 1 (fun s => svcDone 0 (bufWrite 0 (svcLen s) (secretBytes 0 (svcLen s)) s)) s)

/-- The report of R97 before its signature: nonce, fused SVN, slot, three digests, the patches' digest, CYC. -/
def report (s : State) (nonce : Nat) : Nat :=
  let slot := if s.firm.svc.bootedA then 0 else 1
  nonce + s.firm.svc.fusedSvn % 2 ^ 32 * 2 ^ 256 + slot * 2 ^ 288 + secretBytes (2 ^ 24 + 192 * slot) 192 * 2 ^ 296 +
    (Config.sha512 s.firm.svc.patches).toNat * 2 ^ 1832 + s.cyc % 2 ^ 64 * 2 ^ 2344
/-- ATTEST. -/
def execAttest (s : State) : Host.Outcome State Fault Refusal :=
  .next (svcCmd 2 (fun s =>
    let r := report s (bufRead s 0 32)
    svcDone 0 (bufWrite 301 512 (secretBytes (2 ^ 32 + 512 * r) 512) (bufWrite 0 301 r s))) s)

/-! ### Hot patches (R98) -/

/-- A firmware function is entered: its count rises, or the call waits at its gate. -/
def fnCall (i : Nat) (s : State) : State :=
  modSvc (fun v => if v.gates.contains i then { v with waiting := v.waiting ++ [i] }
    else { v with activity := SMap.set 0 v.activity i (SMap.get 0 v.activity i + 1) }) s
/-- A firmware function returns. -/
def fnBack (i : Nat) (s : State) : State :=
  modSvc (fun v => { v with activity := SMap.set 0 v.activity i (SMap.get 0 v.activity i - 1) }) s
/-- The gates clear: a call that waited goes on. -/
def openGates (v : Svc) : Svc :=
  { v with gates := [], waiting := [], activity := v.waiting.foldl (fun m i => SMap.set 0 m i (SMap.get 0 m i + 1)) v.activity }

/-- The 64-byte blocks of `n` bytes. -/
def blocks64 (x n : Nat) : List (BitVec 512) := (List.range ((n + 63) / 64)).map fun k => BitVec.ofNat 512 (x / 2 ^ (512 * k))
/-- The patch image in the buffer, whose layout is log 9's: versions, counts and body length, replacement entries, inactive
list, body. -/
def patchImage (s : State) : PatchImage :=
  let size := bufRead s 12 4
  let r := Nat.min (bufRead s 8 2) 65
  let n := Nat.min (bufRead s 10 2) 65
  { base := BitVec.ofNat 32 (bufRead s 0 4)
    target := BitVec.ofNat 32 (bufRead s 4 4)
    repl := (List.range r).map fun k => (bufRead s (16 + 16 * k) 8, BitVec.ofNat 64 (bufRead s (24 + 16 * k) 8))
    inactive := (List.range n).map fun k => bufRead s (1040 + 2 * k) 2
    size := size
    body := bufRead s 1168 (Nat.min size (svcLen s))
    digest := Config.sha512 (blocks64 (bufRead s 0 (Nat.min (1168 + size) (svcLen s))) (Nat.min (1168 + size) (svcLen s))) }

/-- The patch fits the patch space that the bodies of the patches applied since boot leave, and the buffer holds it. -/
def patchFits (s : State) (p : PatchImage) : Bool :=
  1168 + p.size + 512 ≤ svcLen s && (s.firm.svc.bodies.map (·.1)).sum + p.size ≤ Config.patchSpace
/-- The status with which a patch is refused before any gate is set, or 0. A patch with more than 64 entries or functions, or
with an index of 4,096 or more, is malformed: DESIGN CHOICE (log 94), the spec gives no status. -/
def patchRefused (s : State) (sigOk : Bool) (p : PatchImage) : Nat :=
  if !sigOk then 3
  else if p.base != s.firm.svc.version then 4
  else if 64 < p.repl.length || 64 < p.inactive.length || (p.repl.any fun e => 4096 ≤ e.1 || !p.inactive.contains e.1) ||
    !patchFits s p then 2
  else 0
/-- The answer of PATCH: its status and the version. -/
def patchDone (st : Nat) (s : State) : State := svcDone st (bufWrite 0 8 (st + s.firm.svc.version.toNat * 2 ^ 32) s)
/-- PATCH: checked, and the gates of its functions are set; `sigOk` says whether its signature verifies (log 9). -/
def execPatch (sigOk : Bool) (s : State) : Host.Outcome State Fault Refusal :=
  .next (svcCmd 3 (fun s =>
    let img := patchImage s
    let st := patchRefused s sigOk img
    if s.firm.svc.patch.isSome then s
    else if st != 0 then patchDone st s
    else modSvc (fun v => { v with patch := some img, patchSince := s.cyc, gates := img.inactive }) s) s)
/-- Every listed activity count reads zero. -/
def patchQuiet (s : State) (p : PatchImage) : Bool := p.inactive.all fun i => SMap.get 0 s.firm.svc.activity i == 0
/-- PATCH_APPLY: entries, version, digest, black-box entry; the gates clear. -/
def execPatchApply (s : State) : Host.Outcome State Fault Refusal :=
  .next (match s.firm.svc.patch with
    | some p =>
      if !(svcRuns s 3 && patchQuiet s p) then s
      else
        let s := modSvc (fun v => { v with
          fnTable := p.repl.foldl (fun t e => SMap.set 0 t e.1 e.2) v.fnTable
          version := p.target
          patches := v.patches ++ [p.digest]
          bodies := v.bodies ++ [(p.size, p.body)]
          patch := none }) s
        patchDone 0 (modSvc openGates (bbWrite 0 5 0 0x65 [BitVec.ofNat 64 p.base.toNat, BitVec.ofNat 64 p.target.toNat] s))
    | none => s)
/-- PATCH_QUIESCE_TIMEOUT: a function stayed active for 1 ms. -/
def execPatchQuiesceTimeout (s : State) : Host.Outcome State Fault Refusal :=
  .next (match s.firm.svc.patch with
    | some p =>
      if svcRuns s 3 && !patchQuiet s p && s.firm.svc.patchSince + 1000 * Config.cyclesPerUs ≤ s.cyc then
        patchDone 5 (modSvc (fun v => openGates { v with patch := none }) s)
      else s
    | none => s)

/-! ### COMMIT and BBCTL (R92, R94, R105) -/

/-- COMMIT: the host has confirmed the booted image. -/
def execCommit (s : State) : Host.Outcome State Fault Refusal :=
  .next (svcCmd 5 (fun s =>
    let t := bootTable s
    let n := if t.svnc then Nat.max s.firm.svc.fusedSvn t.header.svn else s.firm.svc.fusedSvn
    svcDone 0 (bufWrite 0 4 n (modSvc (fun v => { v with fusedSvn := n }) s))) s)

/-- The header of the record that SEL shows (R104). -/
def bbHeader (s : State) : Nat :=
  let b := SMap.get {} s.firm.bb (if s.firm.bbsel then 1 else 0)
  0x57424258 + b.widx * 2 ^ 32 + b.wraps * 2 ^ 48 +
    ((if b.frozen then 1 else 0) + (if s.firm.bbsel then 2 else 0) + (if b.lost then 4 else 0)) * 2 ^ 64
/-- The request of BBCTL: 0 freeze, 1 unfreeze (log 9). -/
def bbRequest (s : State) : Nat := bufRead s 0 1
/-- BBCTL: freeze; a request of neither kind is malformed. -/
def execBbctlFreeze (s : State) : Host.Outcome State Fault Refusal :=
  .next (svcCmd 6 (fun s =>
    if bbRequest s == 1 then s
    else if bbRequest s != 0 then svcDone 2 s
    else
      let s := bbFreeze s
      svcDone 0 (bufWrite 0 64 (bbHeader s) s)) s)
/-- BBCTL: unfreeze both records. A freeze whose 256 entries are still being taken is cancelled: DESIGN CHOICE (log 94). -/
def execBbctlUnfreeze (s : State) : Host.Outcome State Fault Refusal :=
  .next (svcCmd 6 (fun s =>
    if bbRequest s != 1 then s else
    let clear (b : BlackBox) : BlackBox := { b with frozen := false, lost := false, left := none }
    let s := modFirm (fun f => { f with bb := SMap.set {} (SMap.set {} f.bb 0 (clear (SMap.get {} f.bb 0))) 1 (clear (SMap.get {} f.bb 1)) }) s
    svcDone 0 (bufWrite 0 64 (bbHeader s) s)) s)
/-- BLACKBOX_FROZEN: the 256 entries after a freeze have been taken. -/
def execBlackboxFrozen (die : Nat) (s : State) : Host.Outcome State Fault Refusal :=
  let b := SMap.get {} s.firm.bb die
  .next (if b.left == some 0 then modFirm (fun f => { f with bb := SMap.set {} f.bb die { b with frozen := true, left := none } }) s else s)

/-! ### FABCFG (R95) -/

/-- The candidates of a route entry that name a port. -/
def routeCands (r : BitVec 32) : List Nat := (List.range 4).filter fun i => decide (candPort r i < 26)
/-- An entry with V set needs candidate 0, and no candidate names a port from 26 to 30 (R38). -/
def routeOk (r : BitVec 32) : Bool :=
  !routeValid r || (candPort r 0 != 31 && (List.range 4).all fun i => candPort r i < 26 || candPort r i == 31)
/-- Check the path of every candidate: DOWN for one that fails; answers left for later entries. -/
def checkPaths (r : BitVec 32) : List Nat → List Bool → BitVec 32 × List Bool
  | [], oks => (r, oks)
  | i :: rest, oks => checkPaths (if oks.headD true then r else routeDown r i true) rest oks.tail
/-- Write a route entry. -/
def cfgRoute (dest : Nat) (v : Nat) (oks : List Bool) (s : State) : Option (List Bool × State) :=
  let r := BitVec.ofNat 32 (bitsOf v 31 31 * 2 ^ 31 + bitsOf v 24 5 * 2 ^ 5)
  if 16384 ≤ dest || v % 32 != 0 || 2 ^ 32 ≤ v || !routeOk r then none
  else
    let (r, oks) := checkPaths r (routeCands r) oks
    some (oks, noteDown dest (routeBack dest (setRoute dest r s)))
/-- Write a domain-barrier entry whose epoch is neither counting nor waiting. -/
def cfgDom (i : Nat) (v : Nat) (s : State) : Option State :=
  if 64 ≤ i || v % 512 != 0 || domState (domEntry s i) == 1 || domState (domEntry s i) == 2 then none
  else some (setDom i (BitVec.ofNat 64 (bitsOf v 63 63 * 2 ^ 63 + bitsOf v 60 49 * 2 ^ 49 + bitsOf v 40 25 * 2 ^ 25)) s)
/-- Apply one 16-byte entry; none refuses it. -/
def cfgEntry (x : Nat) (oks : List Bool) (s : State) : Option (List Bool × State) :=
  let table := x % 256
  let port := bitsOf x 15 8
  let index := bitsOf x 63 32
  let v := bitsOf x 127 64
  if bitsOf x 31 16 != 0 || (table != 2 && port != 0) then none
  else match table with
    | 0 => cfgRoute index v oks s
    | 1 => (cfgDom index v s).map fun s => (oks, s)
    | 2 =>
      if 8 ≤ port || 16384 ≤ index || 2 ^ 48 ≤ v then none
      else some (oks, modFab (fun f => { f with macs := SMap.set 0 f.macs (port * 16384 + index) (BitVec.ofNat 48 v) }) s)
    | _ => none
/-- Apply entries from `k` on, `n` of them: the number applied, and whether all were. -/
def cfgAll : Nat → Nat → List Bool → State → Nat × Bool × State
  | 0, k, _, s => (k, true, s)
  | n + 1, k, oks, s =>
    match cfgEntry (bufRead s (16 + 16 * k) 16) oks s with
    | none => (k, false, s)
    | some (oks, s) => cfgAll n (k + 1) oks s
/-- FABCFG. A COUNT of 0, outside R95's range, is malformed: DESIGN CHOICE (log 94). -/
def execFabcfg (pathOk : List Bool) (s : State) : Host.Outcome State Fault Refusal :=
  .next (svcCmd 7 (fun s =>
    let n := bufRead s 0 4
    if n == 0 || 65535 < n || svcLen s < 16 + 16 * n || bufRead s 4 12 != 0 then svcDone 2 s
    else
      let (k, all, s) := cfgAll n 0 pathOk s
      svcDone (if all then 0 else 6) (bufWrite 0 8 (k + (if all then 2 ^ 32 - 1 else k) * 2 ^ 32) s)) s)

end Sys2Proof.Machine
end

