-- ==== Sys2Proof/Machine/Firmware.lean ====
section
/-! DEFINITION. Containment, resets, boot, power, strip-map changes, scrubbing and mirror pairs (R17, R19, R26 to R30 of
01_package.md, R86 of 03_host_interface.md, R91, R99 to R105 of 04_control_column.md, R199 to R203 of 07_cores_strips.md,
R251 of 08_memory_prisms.md). -/

namespace Sys2Proof.Machine

/-- An entry of the control column in the record of an I/O die (log 12). -/
def bbControl (io event : Nat) (data : List Nat) (s : State) : State := bbWrite io 5 0 event (data.map fun x => BitVec.ofNat 64 x) s

/-! ### Fencing (R99, R100) -/

/-- The strips of a rectangle. -/
def rectStrips (r : Rect) : List Nat :=
  ((List.range 32).filter fun c => r.col0 ≤ c && c ≤ r.col1).flatMap fun c =>
    ((List.range 2).filter fun h => r.half0 ≤ h && h ≤ r.half1).map fun h => 64 * r.die + 2 * c + h
/-- Set the ROLE of a strip (R16). -/
def setRole (role : Nat) (s : State) (k : Nat) : State :=
  let e := stripEntry s k &&& ~~~(0x60000000 : BitVec 32) ||| BitVec.ofNat 32 (role * 2 ^ 29)
  modRegs (fun g => { g with stripMap := SMap.set 0 g.stripMap k e }) s

/-- A core's work stops: its firings abort, what is left of its sweeps is reported aborted, and messages it has not placed
go back. -/
def fenceCore (s : State) (core : Nat) : State :=
  let s := abortCore core (fun _ => true) s
  let s := shareReport core (modCore core (fun k => { k with
    share := k.share.map fun h => { h with enumerated := true, aborted := true } }) s)
  let k := coreOf s core
  let report (w : Sweep) : Sweep := if k.wakes.contains w.id then { w with reports := w.reports ++ [(core, stAborted)] } else w
  let s := modFe (fun f => { f with sweeps := f.sweeps.map report }) (leaveFaults (· == .wake core) s)
  let s := modCore core (fun k => { k with
    wakes := []
    inbound := []
    spillMeta := []
    spctl := spWith k.spctl false (spTail k.spctl) (spTail k.spctl) }) s
  (k.inbound ++ k.spillMeta).foldl (fun s m => undeliverable core m s) s

/-- The cores of a set of strips. -/
def stripCores (ks : List Nat) : List Nat := ks.flatMap fun k => (List.range 16).map fun r => 16 * k + r
/-- A physical address in the window of one of these strips. -/
def inWindows (ks : List Nat) (a : Nat) : Bool :=
  winBase ≤ a && a < winBase + 0x400000000 && ks.contains ((a - winBase) / 0x4000000)

/-- Fence strips: ROLE, which the routers' answers follow; then the firings, mirror partners, and full/empty operations that
wait inside. Every step writes an entry with its number (R100); the control column's own strips keep their ROLE. -/
def fenceStrips (ks : List Nat) (s : State) : State :=
  let entry (n : Nat) (s : State) : State := bbControl (ks.headD 0 / 128) 0x62 [ks.headD 0, ks.length, n] s
  let s := entry 2 (entry 1 ((ks.filter fun k => stripRole s k != 1).foldl (setRole 2) s))
  let out := (s.grp.pairs.filter fun p => ks.contains (stripNo (coreNo p.part))).map (·.prim)
  let s := (stripCores ks).foldl fenceCore (out.foldl (fun s c => abortPlaced c s) s)
  let ws := s.ms.feq.filter fun w => inWindows ks w.pa
  let s := ws.foldl (fun s w => modCtx w.cid (fun x => { x with st := .ready, wait := .none }) s)
    (modMs (fun m => { m with feq := m.feq.filter fun w => !inWindows ks w.pa }) s)
  entry 3 s

/-! ### Resetting strips (R28 to R30, R251) -/

/-- A line that a slice holds goes: written back, or lost when its write-back fails. -/
def resetLine (failed : List Nat) (s : State) (e : Nat × L2Line) : State :=
  let pa := 64 * e.1
  let bad := e.2.dirty && failed.contains e.1
  let s := match spaceOf s pa with
    | .remote d off =>
      if bad then
        let s := sendSeq { ty := tPRB, ddev := d, op := 5, o := true, off := off / 64 * 64 + e.2.seq.toNat % 64 } []
          (some (2 ^ 22, syncRead)) false s
        bbControl 0 0x0C [pa] s
      else if e.2.dirty then slicePutm pa e.2.seq s else sendPuts pa e.2.seq s
    | _ => if bad then bbControl (hbmPrism pa / 12) 0x80 [pa] (poisonBlock pa s) else s
  modMs (fun m => { m with l2 := SMap.set none m.l2 e.1 none }) s
/-- The slice that holds a line: the one that pins it, else the home of the access that filled it (R214, R400, log 92). -/
def lineSlice (e : Nat × L2Line) : Nat := e.2.pinned.getD e.2.home

/-- The state of strips after a reset: a context keeps its generation, one higher (R30). -/
def clearStrips (ks : List Nat) (s : State) : State :=
  let cores := stripCores ks
  let mine (c : Nat) : Bool := c < 32768 && ks.contains (c / 128)
  let keep {α : Type} (unit : Nat) (m : SMap α) : SMap α := m.filter fun e => !inWindows ks (unit * e.1)
  let s := { s with
    cores := s.cores.filter fun e => !cores.contains e.1
    strips := s.strips.filter fun e => !ks.contains e.1
    ctxs := cores.foldl (fun m k => (List.range 8).foldl (fun m j =>
      SMap.set {} m (8 * k + j) { gen := (SMap.get {} m (8 * k + j)).gen + 1 }) m) s.ctxs }
  let s := modMs (fun m => { m with
    mem := keep 1 m.mem
    ctag := keep 16 m.ctag
    poison := keep 32 m.poison
    full := keep 4 m.full
    atag := keep 64 m.atag
    feq := m.feq.filter fun w => !mine w.cid
    susp := m.susp.filter fun u => !mine u.cid
    l2 := m.l2.filterMap fun (b, l) => l.map fun l => (b, some (
      if l.owner.any fun u => if u < 4096 then cores.contains u else ks.contains (u - 4096) then { l with owner := none } else l)) }) s
  modTr (fun t => { t with tlb := t.tlb.filter fun e => !ks.contains e.unit, walks := t.walks.filter fun w => !ks.contains w.unit }) s

/-- Reset fenced strips; `failed` lists the blocks whose write-back fails. -/
def resetStrips (ks failed : List Nat) (s : State) : State :=
  let cores := stripCores ks
  let held : List (Nat × L2Line) := s.ms.l2.filterMap fun (b, l) => l.map fun l => (b, l)
  let s := (held.filter fun e => cores.contains (lineSlice e)).foldl (resetLine failed) s
  bbControl (ks.headD 0 / 128) 0x63 [ks.headD 0, ks.length] (clearStrips ks s)

/-! ### CONTAIN (R94, R99) -/

/-- The request of CONTAIN, in the layout of log 9: the rectangle, and the action. -/
def rectRequest (s : State) : Rect :=
  { die := bufRead s 0 1, die2 := bufRead s 1 1, col0 := bufRead s 2 1, col1 := bufRead s 3 1, half0 := bufRead s 4 1
    half1 := bufRead s 5 1 }
def rectAction (s : State) : Nat := bufRead s 6 1
/-- The status with which a rectangle is refused, or 0. One out of range, or whose last is below its first, is malformed: DESIGN
CHOICE (log 94), the spec gives no status. -/
def rectRefused (s : State) (r : Rect) : Nat :=
  if r.die != r.die2 then 6
  else if 4 ≤ r.die || 32 ≤ r.col1 || 2 ≤ r.half1 || r.col1 < r.col0 || r.half1 < r.half0 then 2
  else if (rectStrips r).any fun k => stripRole s k == 1 then 6 else 0
/-- The answer of CONTAIN: the ROLE of each strip, a byte each. -/
def containDone (ks : List Nat) (st : Nat) (s : State) : State :=
  svcDone st (bufWrite 0 ks.length (leNat (ks.map fun k => BitVec.ofNat 8 (stripRole s k))) s)
/-- Run the action of a CONTAIN request on its rectangle while no strip is being moved (R99). -/
def contain (r : Rect) (action : Nat) (refused : State → Rect → Nat) (go : List Nat → State → State) (s : State) : State :=
  if s.strips.any fun e => e.2.remap.isSome then s
  else svcCmd 4 (fun s =>
    if rectRequest s != r || rectAction s != action then s
    else
      let st := refused s r
      if st != 0 then svcDone st s else containDone (rectStrips r) 0 (go (rectStrips r) s)) s

/-- CONTAIN with action 0, 1 and 2; an action above 2 is malformed. -/
def execContainFence (r : Rect) (s : State) : Host.Outcome State Fault Refusal :=
  .next (if svcRuns s 4 && rectRequest s == r && 3 ≤ rectAction s then svcDone 2 s else contain r 0 rectRefused fenceStrips s)
def execContainReset (r : Rect) (failed : List Nat) (s : State) : Host.Outcome State Fault Refusal :=
  .next (contain r 1 rectRefused (fun ks s => resetStrips ks failed (fenceStrips ks s)) s)
/-- The status with which a release is refused, or 0: every strip must be fenced. -/
def releaseRefused (s : State) (r : Rect) : Nat :=
  if rectRefused s r != 0 then rectRefused s r else if (rectStrips r).any fun k => stripRole s k != 2 then 6 else 0
def execContainRelease (r : Rect) (s : State) : Host.Outcome State Fault Refusal :=
  .next (contain r 2 releaseRefused (fun ks s => bbControl (ks.headD 0 / 128) 0x64 [ks.headD 0, ks.length] (ks.foldl (setRole 0) s)) s)

/-- COMPUTE_DIE_RESET (R28, R105): like a rectangle of the die's 64 strips. On die 0 the control column's own are reset with
them and keep their ROLE (log 95). -/
def execComputeDieReset (die : Nat) (failed : List Nat) (s : State) : Host.Outcome State Fault Refusal :=
  let ks := (List.range 64).map (64 * die + ·)
  .next (if 4 ≤ die || !s.firm.powered then s
    else vecEvent 0 1 (bbFreeze (bbControl (die / 2) 0x6C [die] (resetStrips ks failed (fenceStrips ks s)))))

/-! ### Boot (R90 to R92) -/

/-- The fields of a configuration table stand in their ranges, and its reserved bytes are zero (R89, R90). -/
def tableOk (t : FlashSlot) : Bool :=
  tableAt t 0x00 4 == 0x57434647 && tableAt t 0x04 2 == 1 && 1 ≤ t.width && t.width ≤ 4 && tableAt t 0x07 1 < 8 &&
    2 ≤ t.tack && t.tack ≤ 16 && t.patrol ≤ 168 && t.priq < 8 && t.prip < 8 && tableAt t 0x12 14 == 0 &&
    t.roles.all (· < 8) && ((List.range 7).all fun k => t.roles.contains (k + 1)) && (t.roles.drop (32 * t.width)).all (· == 0) &&
    t.retire.all (2 * t.width ≤ ·) && tableAt t 0x80 0xD80 == 0
/-- Why the security block refuses a slot: key, image, table signature, version, fields; 0 when it boots. -/
def slotRefused (f : FirmSt) (t : FlashSlot) : Nat :=
  if t.keyHash.all (fun k => 2 ≤ k || (k == 0 && f.key0Revoked)) then 1
  else if !t.imageOk then 2
  else if !t.sigOk then 3
  else if t.svn < f.svc.fusedSvn || t.header.svn < f.svc.fusedSvn then 4
  else if !tableOk t then 5 else 0

/-- The map entry of a strip at boot: the fuse map's place, and the role that WIDTH and RETIRE give (R14, R16, R91). -/
def bootEntry (f : FirmSt) (t : FlashSlot) (k : Nat) : BitVec 32 :=
  let role := if k < 2 * t.width then 1 else if t.retire.contains k then 3 else 0
  SMap.get 0 f.fuseMap k &&& ~~~(0x60000000 : BitVec 32) ||| BitVec.ofNat 32 (role * 2 ^ 29)
/-- The strip map at boot. -/
def bootMap (f : FirmSt) (t : FlashSlot) : SMap (BitVec 32) :=
  ((List.range 256).map fun k => (k, bootEntry f t k)).filter fun e => e.2 != 0

/-- What a reset of the whole device leaves before it boots: fuses, flash, the black-box record, host memory, and the model's
own record of what went out (R28). -/
def bareDevice (s : State) : State :=
  let isHost (a : Nat) : Bool := hostBase ≤ a && a < 2 * hostBase
  { agenda := s.agenda
    cur := s.cur
    heads := s.heads
    focus := s.focus
    freeCtr := s.freeCtr
    cyc := s.cyc
    dev := s.dev
    ms := { mem := s.ms.mem.filter fun e => isHost e.1, hostio := s.ms.hostio }
    host := { msix := s.host.msix, out := s.host.out, iobad := s.host.iobad }
    firm := { s.firm with booted := false, svc := { fusedSvn := s.firm.svc.fusedSvn }, ecc := [], patrolAt := [], boots := s.firm.boots + 1 }
    fab := { tx := s.fab.tx, resetAt := s.cyc } }

/-- Boot from a slot (R91). -/
def bootFrom (isA : Bool) (t : FlashSlot) (s : State) : State :=
  { s with
    regs := { fwctl := BitVec.ofNat 64 (2 ^ 63 + (if t.enc then 4 else 0) + (t.width - 1))
              homemask := [(0, homemask0)]
              stripMap := bootMap s.firm t }
    host := { s.host with fns := [(0, { vfctl := vfctl0 })] }
    firm := { s.firm with
      booted := true
      svc := { s.firm.svc with bootedA := isA, version := t.header.fnVersion, fnTable := t.fnTable } }
    fab := { s.fab with tackUs := t.tack } }
/-- Boot: slot A, then slot B; when both fail, BOOTFAIL with the code of each. -/
def boot (s : State) : State :=
  let a := slotRefused s.firm s.firm.flashA
  let b := slotRefused s.firm s.firm.flashB
  if a == 0 then bootFrom true s.firm.flashA s
  else if b == 0 then bootFrom false s.firm.flashB s
  else bbControl 0 0x66 [a, b] { s with host := { s.host with fns := [(0, { vfctl := vfctl0 })] } }

/-- POWER_ON (R28, R91): nothing is kept, the cycle count too starts again. -/
def execPowerOn (s : State) : Host.Outcome State Fault Refusal :=
  .next (boot (modFirm (fun f => { f with powered := true }) (bareDevice { s with cyc := 0 })))
/-- A device reset: generations advance, and the black-box record freezes (R28, R30, R105). -/
def deviceReset (s : State) : State :=
  let gens : SMap Ctx := ((List.range 32768).map fun c => (c, ({ gen := (ctxOf s c).gen + 1 } : Ctx))).filter fun e => e.2 != {}
  boot (bbFreeze (bbControl 0 0x6B [] { bareDevice s with ctxs := gens }))
def execDeviceReset (s : State) : Host.Outcome State Fault Refusal := .next (if s.firm.powered then deviceReset s else s)
/-- STANDBY_POWER_LOSS (R28): the black-box record goes with all else. -/
def execStandbyPowerLoss (s : State) : Host.Outcome State Fault Refusal :=
  .next (modFirm (fun f => { f with powered := false, bb := [] }) (bareDevice s))

/-! ### Power and temperature (R27, R86) -/

/-- A die's throttle step; a change is recorded. -/
def setThrottle (die step : Nat) (s : State) : State :=
  if 4 ≤ die || 16 ≤ step || SMap.get 0 s.host.throttle die == step then s
  else bbControl (die / 2) 0x69 [die, step] (modHost (fun h => { h with throttle := SMap.set 0 h.throttle die step }) s)
/-- POWER_LIMIT_WINDOW. -/
def execPowerLimitWindow (die step : Nat) (s : State) : Host.Outcome State Fault Refusal := .next (setThrottle die step s)
/-- THERMAL_THROTTLE: the die is throttled whatever the power. -/
def execThermalThrottle (die step : Nat) (s : State) : Host.Outcome State Fault Refusal :=
  .next (if step == 0 then s else setThrottle die step s)
/-- THERMAL_TRIP: recorded, then a device reset. -/
def execThermalTrip (die : Nat) (s : State) : Host.Outcome State Fault Refusal :=
  .next (if 6 ≤ die || !s.firm.powered then s else deviceReset (bbControl (if die < 4 then die / 2 else die - 4) 0x6A [die] s))
/-- MGMT_UPDATE, every 1 ms: PAVG, the average over the last millisecond, which PMAX keeps while it is the highest since the
last read, and the temperatures (R86). -/
def execMgmtUpdate (pavg last : Nat) (temps : BitVec 48) (s : State) : Host.Outcome State Fault Refusal :=
  let steps := ((List.range 4).map fun d => SMap.get 0 s.host.throttle d * 2 ^ (4 * d)).sum
  .next (modHost (fun h => { h with
    mgmtPwr := BitVec.ofNat 64 (pavg % 65536 * 2 ^ 32 + Nat.max (bitsOf h.mgmtPwr.toNat 31 16) (last % 65536) * 2 ^ 16 + steps % 65536)
    mgmtTemp := BitVec.ofNat 64 temps.toNat }) s)

/-! ### Strip-map changes (R17, R19) -/

/-- A map entry that keeps the rule of R17: another valid entry of the die names no half-column of it. -/
def mapOk (s : State) (k : Nat) (e : BitVec 32) : Bool :=
  let place (x : BitVec 32) : Nat := x.toNat % 128
  bitsOf e.toNat 6 1 ≤ 32 && (!e.getLsbD 31 || (List.range 64).all fun j =>
    let other := 64 * (k / 64) + j
    other == k || !stripValid s other || place (stripEntry s other) != place e)
/-- The strip's cores hold no firing, and no store or array operation is under way. -/
def stripIdle (s : State) (k : Nat) : Bool :=
  ((stripCores [k]).all fun core => (coreOf s core).sb.isEmpty && (List.range 8).all fun j =>
    (ctxOf s (8 * core + j)).fir.isNone && (ctxOf s (8 * core + j)).st == .free) && (stripOf s k).ops.isEmpty
/-- Ask every firing of a strip to stop that can be saved, and every firing whose mirror partner stands on it; the others run to
their END (R19, R203, R204). -/
def preemptStrip (k : Nat) (s : State) : State :=
  let s := ((s.grp.pairs.filter fun p => stripNo (coreNo p.part) == k).map (·.prim)).foldl (fun s c => preempt c s) s
  (stripCores [k]).foldl (fun s core => (List.range 8).foldl (fun s j => preempt (8 * core + j) s) s) s
/-- The move is complete: L1 caches and TLB entries are dropped, the entry is written, and senders that were refused will
try again. -/
def moveStrip (k : Nat) (e : BitVec 32) (s : State) : State :=
  let s := (stripCores [k]).foldl (fun s core => modCore core (fun x => { x with l1 := [], l1i := [] }) s) s
  let s := modTr (fun t => { t with tlb := t.tlb.filter fun x => x.unit != k }) s
  let s := modRegs (fun g => { g with stripMap := SMap.set 0 g.stripMap k (e &&& 0xE000007F) }) s
  let s := modMs (fun m => { m with susp := m.susp.map fun u => if inWindows [k] (64 * u.block) then { u with refused := some 2 } else u }) s
  modStrip k (fun t => { t with remap := none, fenced := false }) s
/-- STRIP_MAP_CHANGE: the strip's firings are stopped; once none is left its old half-column is fenced, and then it is moved
(R19). One strip moves at a time (R99). -/
def stripMapChange (k : Nat) (e : BitVec 32) (s : State) : State :=
  match (stripOf s k).remap with
  | some e' =>
    if (stripOf s k).fenced then moveStrip k e' s
    else if stripIdle s k then modStrip k (fun t => { t with fenced := true }) s
    else preemptStrip k s
  | none =>
    if 256 ≤ k || !s.firm.booted || (s.strips.any fun x => x.2.remap.isSome) || !mapOk s k e then s
    else preemptStrip k (modStrip k (fun t => { t with remap := some e }) s)
def execStripMapChange (strip : Nat) (entry : BitVec 32) (s : State) : Host.Outcome State Fault Refusal := .next (stripMapChange strip entry s)
/-- FENCED_ACCESS_RETRY: the sender of a refused access tries it against the new placement. -/
def execFencedAccessRetry (idx : Nat) (s : State) : Host.Outcome State Fault Refusal :=
  .next (match s.ms.susp[idx]? with
    | some u =>
      if u.refused == some 2 && (stripOf s ((64 * u.block - winBase) / 0x4000000)).remap.isNone then
        wakeTags (fun b => b == u.block) (modMs (fun m => { m with susp := m.susp.set idx { u with refused := none, allowed := true } }) s)
      else s
    | none => s)

/-! ### Scrubbing (R102, R103) -/

/-- The integrity tag of a page of HBM: of a page not written since boot it is that of zeros (R28, R103). -/
def tagOfPage (s : State) (page : Nat) : W64 := (SMap.get none s.ms.itag page).getD (pageTag s.firm.boots s.ms.mem page)
/-- A page's turn has come: once per PATROL hours (R103). -/
def patrolDue (s : State) (page : Nat) : Bool :=
  let t := SMap.get 0 s.firm.patrolAt page
  t == 0 || t + (bootTable s).patrol * 3600000000 * Config.cyclesPerUs ≤ s.cyc + 1
/-- What has befallen a page before the patrol visits it: words with an error that ECC corrects, and a tag that no longer fits
(log 88). -/
def upsets (page : Nat) (ecc : List Nat) (bad : Bool) (s : State) : State :=
  let s := ecc.foldl (fun s w => strike s (w, 1)) s
  if bad then strike s (128 * page, 3) else s
/-- A page is visited once per PATROL hours; its ECC errors are corrected, and its tag is computed again. -/
def scrubPage (page : Nat) (s : State) : State :=
  let pa := 4096 * page
  if !(bootTable s).enc || hbmTop ≤ pa || !patrolDue s page then s
  else
    let s := correct pa 4096 (modFirm (fun f => { f with patrolAt := SMap.set 0 f.patrolAt page (s.cyc + 1) }) s)
    if tagOfPage s page != pageTag s.firm.boots s.ms.mem page then
      supRecord { code := 0x4B, source := 7, unit := hbmPrism pa, addr := pa }
        (bbWrite (hbmPrism pa / 12) 7 (hbmPrism pa) 0x68 [BitVec.ofNat 64 pa] s)
    else s
/-- PATROL_SCRUB. -/
def execPatrolScrub (page : Nat) (ecc : List Nat) (integBad : Bool) (s : State) : Host.Outcome State Fault Refusal :=
  .next (scrubPage page (upsets page ecc integBad s))

/-! ### Mirror pairs (R101, R201, R202) -/

/-- The pair of a firing whose interval has closed, once its outstanding results have returned. -/
def closedPair (s : State) (c : Nat) : Option Pair :=
  (s.grp.pairs.find? (·.prim == c)).filter fun p =>
    p.closed && (ctxOf s c).st == .waiting && (ctxOf s c).wait == .pair && (ctxOf s c).pend.isEmpty
def modPair (c : Nat) (f : Pair → Pair) (s : State) : State :=
  modGrp (fun g => { g with pairs := g.pairs.map fun p => if p.prim == c then f p else p }) s

/-- MIRROR_INTERVAL_CONFIRM: the fingerprints agree, the held stores enter the buffer; the next interval starts at once, or after the head that
ended this one. -/
def mirrorConfirm (c : Nat) (s : State) : State :=
  match closedPair s c with
  | none => s
  | some p =>
    let core := coreNo c
    if p.fp != p.fpP || 32 < (coreOf s core).sb.length + p.held.length then s
    else
      let s := modCore core (fun k => { k with sb := k.sb ++ p.held }) s
      let s := modCtx c (fun x => { x with st := .ready, wait := if p.boundary then .none else .pair, granted := false }) s
      let r : SupRec := { code := 0x18, source := 0, unit := core, handle := (firOf s c).handle, asid := (ctxOf s c).asid.toNat }
      let s := if p.again then supRecord r s else s
      modPair c (fun p => { p with
        started := p.boundary
        count := 0
        fp := 0
        fpP := 0
        held := []
        landed := []
        check := ctxOf s c
        checkP := ctxOf s p.part
        closed := false
        boundary := false
        again := false }) s
def execMirrorIntervalConfirm (cid : Nat) (s : State) : Host.Outcome State Fault Refusal := .next (mirrorConfirm cid s)

/-- A neighbour write that arrived in the interval arrives again at a core's checkpoint. -/
def arriveAgain (x : Ctx) (e : HoldEntry) : Ctx :=
  if SMap.get false (if e.isV then x.armV else x.armG) e.reg then landReg e.isV e.reg e.cap e.vec x else { x with hold := x.hold ++ [e] }
/-- Both cores return to the register checkpoint; what other agents gave the firing since, its neighbour writes too, stays
(R202). -/
def rollBack (c : Nat) (p : Pair) (s : State) : State :=
  let now := firOf s c
  let was := p.check.fir.getD {}
  let s := modPools c (fun k => { k with poolC := k.poolC + now.cch - was.cch, poolV := k.poolV + now.vch - was.vch }) s
  let fir : Firing := { was with undelivered := now.undelivered, wakes := now.wakes, prio := now.prio, paired := true }
  let mine : Ctx := { p.check with
    st := .ready
    wait := .none
    granted := false
    fir := some fir
    gen := (ctxOf s c).gen
    ep := (ctxOf s c).ep
    nextPend := (ctxOf s c).nextPend }
  let s := setCtx s c (p.landed.foldl arriveAgain mine)
  let s := modCtx p.part (fun x =>
    let y := p.landed.foldl arriveAgain { p.checkP with hold := [] }
    { y with st := x.st, wait := x.wait, chunks := x.chunks, gen := x.gen, hold := x.hold }) s
  modPair c (fun p => { p with
    count := 0
    fp := 0
    fpP := 0
    held := []
    landed := []
    closed := false
    boundary := false
    again := true }) s
/-- MIRROR_MISMATCH: rolled back once; a second disagreement is recorded and fences the pair's strips. -/
def mirrorMismatch (c : Nat) (s : State) : State :=
  match closedPair s c with
  | none => s
  | some p =>
    if !p.again then rollBack c p s
    else
      let core := coreNo c
      let other := coreNo p.part
      let s := supRecord { code := 0x18, source := 0, unit := core, handle := (firOf s c).handle, info := 1, asid := (ctxOf s c).asid.toNat } s
      let s := bbFreeze (bbControl (dieOfCore core / 2) 0x18 [physicalCore s core, physicalCore s other] s)
      vecEvent 0 1 (fenceStrips [stripNo core, stripNo other].eraseDups s)
def execMirrorMismatch (cid : Nat) (s : State) : Host.Outcome State Fault Refusal := .next (mirrorMismatch cid s)

end Sys2Proof.Machine
end

