-- ==== Sys2Proof/Machine/Dispatch.lean ====
section
/-! DEFINITION. The dispatch of every instruction to its meaning. -/

namespace Sys2Proof.Machine

def exec (i : Instr) (s : State) : Host.Outcome State Fault Refusal :=
  match i with
  | .nop h => Sys2Proof.Machine.execNop h s
  | .add h => Sys2Proof.Machine.execAdd h s
  | .addW h => Sys2Proof.Machine.execAddW h s
  | .sub h => Sys2Proof.Machine.execSub h s
  | .subW h => Sys2Proof.Machine.execSubW h s
  | .mul h => Sys2Proof.Machine.execMul h s
  | .mulh h => Sys2Proof.Machine.execMulh h s
  | .mulhu h => Sys2Proof.Machine.execMulhu h s
  | .mulW h => Sys2Proof.Machine.execMulW h s
  | .div h => Sys2Proof.Machine.execDiv h s
  | .divu h => Sys2Proof.Machine.execDivu h s
  | .rem h => Sys2Proof.Machine.execRem h s
  | .remu h => Sys2Proof.Machine.execRemu h s
  | .and h => Sys2Proof.Machine.execAnd h s
  | .or h => Sys2Proof.Machine.execOr h s
  | .xor h => Sys2Proof.Machine.execXor h s
  | .andn h => Sys2Proof.Machine.execAndn h s
  | .shl h => Sys2Proof.Machine.execShl h s
  | .shr h => Sys2Proof.Machine.execShr h s
  | .sra h => Sys2Proof.Machine.execSra h s
  | .ror h => Sys2Proof.Machine.execRor h s
  | .seq h => Sys2Proof.Machine.execSeq h s
  | .sne h => Sys2Proof.Machine.execSne h s
  | .slt h => Sys2Proof.Machine.execSlt h s
  | .sge h => Sys2Proof.Machine.execSge h s
  | .sltu h => Sys2Proof.Machine.execSltu h s
  | .sgeu h => Sys2Proof.Machine.execSgeu h s
  | .min h => Sys2Proof.Machine.execMin h s
  | .max h => Sys2Proof.Machine.execMax h s
  | .minu h => Sys2Proof.Machine.execMinu h s
  | .maxu h => Sys2Proof.Machine.execMaxu h s
  | .clz h => Sys2Proof.Machine.execClz h s
  | .ctz h => Sys2Proof.Machine.execCtz h s
  | .popc h => Sys2Proof.Machine.execPopc h s
  | .brev h => Sys2Proof.Machine.execBrev h s
  | .bswap h => Sys2Proof.Machine.execBswap h s
  | .ext h => Sys2Proof.Machine.execExt h s
  | .extu h => Sys2Proof.Machine.execExtu h s
  | .ins h => Sys2Proof.Machine.execIns h s
  | .csel h => Sys2Proof.Machine.execCsel h s
  | .cselz h => Sys2Proof.Machine.execCselz h s
  | .madd h => Sys2Proof.Machine.execMadd h s
  | .cinc h => Sys2Proof.Machine.execCinc h s
  | .cseta h => Sys2Proof.Machine.execCseta h s
  | .csetb h => Sys2Proof.Machine.execCsetb h s
  | .csetbO h => Sys2Proof.Machine.execCsetbO h s
  | .cperm h => Sys2Proof.Machine.execCperm h s
  | .cfmt h => Sys2Proof.Machine.execCfmt h s
  | .cgetAddr h => Sys2Proof.Machine.execCgetAddr h s
  | .cgetBase h => Sys2Proof.Machine.execCgetBase h s
  | .cgetLen h => Sys2Proof.Machine.execCgetLen h s
  | .cgetPerm h => Sys2Proof.Machine.execCgetPerm h s
  | .cgetFmt h => Sys2Proof.Machine.execCgetFmt h s
  | .cgetK h => Sys2Proof.Machine.execCgetK h s
  | .cgetTag h => Sys2Proof.Machine.execCgetTag h s
  | .cgetTop h => Sys2Proof.Machine.execCgetTop h s
  | .mov h => Sys2Proof.Machine.execMov h s
  | .movd h => Sys2Proof.Machine.execMovd h s
  | .csub h => Sys2Proof.Machine.execCsub h s
  | .cchk h => Sys2Proof.Machine.execCchk h s
  | .beq h => Sys2Proof.Machine.execBeq h s
  | .bne h => Sys2Proof.Machine.execBne h s
  | .blt h => Sys2Proof.Machine.execBlt h s
  | .bge h => Sys2Proof.Machine.execBge h s
  | .bltu h => Sys2Proof.Machine.execBltu h s
  | .bgeu h => Sys2Proof.Machine.execBgeu h s
  | .bz h => Sys2Proof.Machine.execBz h s
  | .bnz h => Sys2Proof.Machine.execBnz h s
  | .jmp h => Sys2Proof.Machine.execJmp h s
  | .jmpC h => Sys2Proof.Machine.execJmpC h s
  | .call h => Sys2Proof.Machine.execCall h s
  | .callC h => Sys2Proof.Machine.execCallC h s
  | .ret h => Sys2Proof.Machine.execRet h s
  | .loop h => Sys2Proof.Machine.execLoop h s
  | .endFiring h => Sys2Proof.Machine.execEndFiring h s
  | .ende h => Sys2Proof.Machine.execEnde h s
  | .yield h => Sys2Proof.Machine.execYield h s
  | .waitt h => Sys2Proof.Machine.execWaitt h s
  | .waiteMsg h => Sys2Proof.Machine.execWaiteMsg h s
  | .waiteStr h => Sys2Proof.Machine.execWaiteStr h s
  | .waiteRing h => Sys2Proof.Machine.execWaiteRing h s
  | .waiteSlot h => Sys2Proof.Machine.execWaiteSlot h s
  | .fire h => Sys2Proof.Machine.execFire h s
  | .trap h => Sys2Proof.Machine.execTrap h s
  | .eret h => Sys2Proof.Machine.execEret h s
  | .growC h => Sys2Proof.Machine.execGrowC h s
  | .growV h => Sys2Proof.Machine.execGrowV h s
  | .shrinkC h => Sys2Proof.Machine.execShrinkC h s
  | .shrinkV h => Sys2Proof.Machine.execShrinkV h s
  | .ld h => Sys2Proof.Machine.execLd h s
  | .st h => Sys2Proof.Machine.execSt h s
  | .ldc h => Sys2Proof.Machine.execLdc h s
  | .stc h => Sys2Proof.Machine.execStc h s
  | .ldaq h => Sys2Proof.Machine.execLdaq h s
  | .strl h => Sys2Proof.Machine.execStrl h s
  | .fenceAr h => Sys2Proof.Machine.execFenceAr h s
  | .fenceAcq h => Sys2Proof.Machine.execFenceAcq h s
  | .fenceRel h => Sys2Proof.Machine.execFenceRel h s
  | .fenceFull h => Sys2Proof.Machine.execFenceFull h s
  | .movb h => Sys2Proof.Machine.execMovb h s
  | .fill h => Sys2Proof.Machine.execFill h s
  | .ipinL1i h => Sys2Proof.Machine.execIpinL1i h s
  | .ipinL2 h => Sys2Proof.Machine.execIpinL2 h s
  | .ipinPf1 h => Sys2Proof.Machine.execIpinPf1 h s
  | .ipinPf2 h => Sys2Proof.Machine.execIpinPf2 h s
  | .ipinUn h => Sys2Proof.Machine.execIpinUn h s
  | .cacheWb h => Sys2Proof.Machine.execCacheWb h s
  | .cacheInv h => Sys2Proof.Machine.execCacheInv h s
  | .cachePf1 h => Sys2Proof.Machine.execCachePf1 h s
  | .cachePf2 h => Sys2Proof.Machine.execCachePf2 h s
  | .aadd h => Sys2Proof.Machine.execAadd h s
  | .aand h => Sys2Proof.Machine.execAand h s
  | .aor h => Sys2Proof.Machine.execAor h s
  | .axor h => Sys2Proof.Machine.execAxor h s
  | .amin h => Sys2Proof.Machine.execAmin h s
  | .amax h => Sys2Proof.Machine.execAmax h s
  | .aminu h => Sys2Proof.Machine.execAminu h s
  | .amaxu h => Sys2Proof.Machine.execAmaxu h s
  | .aswp h => Sys2Proof.Machine.execAswp h s
  | .afadd h => Sys2Proof.Machine.execAfadd h s
  | .afmax h => Sys2Proof.Machine.execAfmax h s
  | .acas h => Sys2Proof.Machine.execAcas h s
  | .redadd h => Sys2Proof.Machine.execRedadd h s
  | .redand h => Sys2Proof.Machine.execRedand h s
  | .redor h => Sys2Proof.Machine.execRedor h s
  | .redxor h => Sys2Proof.Machine.execRedxor h s
  | .redmin h => Sys2Proof.Machine.execRedmin h s
  | .redmax h => Sys2Proof.Machine.execRedmax h s
  | .redminu h => Sys2Proof.Machine.execRedminu h s
  | .redmaxu h => Sys2Proof.Machine.execRedmaxu h s
  | .redfadd h => Sys2Proof.Machine.execRedfadd h s
  | .redfmax h => Sys2Proof.Machine.execRedfmax h s
  | .take h => Sys2Proof.Machine.execTake h s
  | .peek h => Sys2Proof.Machine.execPeek h s
  | .trytake h => Sys2Proof.Machine.execTrytake h s
  | .feget h => Sys2Proof.Machine.execFeget h s
  | .put h => Sys2Proof.Machine.execPut h s
  | .fput h => Sys2Proof.Machine.execFput h s
  | .fclr h => Sys2Proof.Machine.execFclr h s
  | .bar h => Sys2Proof.Machine.execBar h s
  | .barin h => Sys2Proof.Machine.execBarin h s
  | .barwt h => Sys2Proof.Machine.execBarwt h s
  | .barmax h => Sys2Proof.Machine.execBarmax h s
  | .gang h => Sys2Proof.Machine.execGang h s
  | .send h => Sys2Proof.Machine.execSend h s
  | .sendC h => Sys2Proof.Machine.execSendC h s
  | .sendR h => Sys2Proof.Machine.execSendR h s
  | .nput h => Sys2Proof.Machine.execNput h s
  | .nputArm h => Sys2Proof.Machine.execNputArm h s
  | .push h => Sys2Proof.Machine.execPush h s
  | .consume h => Sys2Proof.Machine.execConsume h s
  | .vadd h => Sys2Proof.Machine.execVadd h s
  | .vsub h => Sys2Proof.Machine.execVsub h s
  | .vmul h => Sys2Proof.Machine.execVmul h s
  | .vfma h => Sys2Proof.Machine.execVfma h s
  | .vfms h => Sys2Proof.Machine.execVfms h s
  | .vmin h => Sys2Proof.Machine.execVmin h s
  | .vmax h => Sys2Proof.Machine.execVmax h s
  | .vand h => Sys2Proof.Machine.execVand h s
  | .vor h => Sys2Proof.Machine.execVor h s
  | .vxor h => Sys2Proof.Machine.execVxor h s
  | .vandn h => Sys2Proof.Machine.execVandn h s
  | .vshl h => Sys2Proof.Machine.execVshl h s
  | .vshr h => Sys2Proof.Machine.execVshr h s
  | .vsra h => Sys2Proof.Machine.execVsra h s
  | .vcmp h => Sys2Proof.Machine.execVcmp h s
  | .vsel h => Sys2Proof.Machine.execVsel h s
  | .mand h => Sys2Proof.Machine.execMand h s
  | .mor h => Sys2Proof.Machine.execMor h s
  | .mxor h => Sys2Proof.Machine.execMxor h s
  | .mnot h => Sys2Proof.Machine.execMnot h s
  | .mpop h => Sys2Proof.Machine.execMpop h s
  | .mfirst h => Sys2Proof.Machine.execMfirst h s
  | .vrcp h => Sys2Proof.Machine.execVrcp h s
  | .vrsq h => Sys2Proof.Machine.execVrsq h s
  | .vexp2 h => Sys2Proof.Machine.execVexp2 h s
  | .vlog2 h => Sys2Proof.Machine.execVlog2 h s
  | .vsqrt h => Sys2Proof.Machine.execVsqrt h s
  | .vtanh h => Sys2Proof.Machine.execVtanh h s
  | .vredsum h => Sys2Proof.Machine.execVredsum h s
  | .vredmax h => Sys2Proof.Machine.execVredmax h s
  | .vredmin h => Sys2Proof.Machine.execVredmin h s
  | .vscan h => Sys2Proof.Machine.execVscan h s
  | .vperm h => Sys2Proof.Machine.execVperm h s
  | .vbcast h => Sys2Proof.Machine.execVbcast h s
  | .vextr h => Sys2Proof.Machine.execVextr h s
  | .vins h => Sys2Proof.Machine.execVins h s
  | .vmov h => Sys2Proof.Machine.execVmov h s
  | .vld h => Sys2Proof.Machine.execVld h s
  | .vldS h => Sys2Proof.Machine.execVldS h s
  | .vldG h => Sys2Proof.Machine.execVldG h s
  | .vst h => Sys2Proof.Machine.execVst h s
  | .vstS h => Sys2Proof.Machine.execVstS h s
  | .vstX h => Sys2Proof.Machine.execVstX h s
  | .vcvt h => Sys2Proof.Machine.execVcvt h s
  | .vqnt h => Sys2Proof.Machine.execVqnt h s
  | .vdeq h => Sys2Proof.Machine.execVdeq h s
  | .sbind h => Sys2Proof.Machine.execSbind h s
  | .sunbind h => Sys2Proof.Machine.execSunbind h s
  | .sstat h => Sys2Proof.Machine.execSstat h s
  | .sclaim h => Sys2Proof.Machine.execSclaim h s
  | .srel h => Sys2Proof.Machine.execSrel h s
  | .sfmt h => Sys2Proof.Machine.execSfmt h s
  | .sload h => Sys2Proof.Machine.execSload h s
  | .mma h => Sys2Proof.Machine.execMma h s
  | .azero h => Sys2Proof.Machine.execAzero h s
  | .astore h => Sys2Proof.Machine.execAstore h s
  | .aload h => Sys2Proof.Machine.execAload h s
  | .ascale h => Sys2Proof.Machine.execAscale h s
  | .amovv h => Sys2Proof.Machine.execAmovv h s
  | .mfc h => Sys2Proof.Machine.execMfc h s
  | .mtc h => Sys2Proof.Machine.execMtc h s
  | .cpgo h => Sys2Proof.Machine.execCpgo h s
  | .compose h => Sys2Proof.Machine.execCompose h s
  | .decompose h => Sys2Proof.Machine.execDecompose h s
  | .pair h => Sys2Proof.Machine.execPair h s
  | .unpair h => Sys2Proof.Machine.execUnpair h s
  | .ctxSave h => Sys2Proof.Machine.execCtxSave h s
  | .ctxLoad h => Sys2Proof.Machine.execCtxLoad h s
  | .ctxDrop h => Sys2Proof.Machine.execCtxDrop h s
  | .tlbinvVa h => Sys2Proof.Machine.execTlbinvVa h s
  | .tlbinvAsid h => Sys2Proof.Machine.execTlbinvAsid h s
  | .tlbinvAll h => Sys2Proof.Machine.execTlbinvAll h s
  | .tagset h => Sys2Proof.Machine.execTagset h s
  | .dirrd h => Sys2Proof.Machine.execDirrd h s
  | .dirwr h => Sys2Proof.Machine.execDirwr h s
  | .reply h => Sys2Proof.Machine.execReply h s
  | .fwd h => Sys2Proof.Machine.execFwd h s
  | .btx h => Sys2Proof.Machine.execBtx h s
  | .hdone h => Sys2Proof.Machine.execHdone h s
  | .actmsg slot => Sys2Proof.Machine.execActmsg slot s
  | .sweep slot => Sys2Proof.Machine.execSweep slot s
  | .signal slot => Sys2Proof.Machine.execSignal slot s
  | .wait slot => Sys2Proof.Machine.execWait slot s
  | .waitReread slot => Sys2Proof.Machine.execWaitReread slot s
  | .write slot => Sys2Proof.Machine.execWrite slot s
  | .pred slot => Sys2Proof.Machine.execPred slot s
  | .ind slot => Sys2Proof.Machine.execInd slot s
  | .loopPacket slot => Sys2Proof.Machine.execLoopPacket slot s
  | .ffence slot => Sys2Proof.Machine.execFfence slot s
  | .intr slot => Sys2Proof.Machine.execIntr slot s
  | .graph slot => Sys2Proof.Machine.execGraph slot s
  | .packetBarrierIssue slot => Sys2Proof.Machine.execPacketBarrierIssue slot s
  | .powerOn => Sys2Proof.Machine.execPowerOn s
  | .deviceReset => Sys2Proof.Machine.execDeviceReset s
  | .functionLevelReset f => Sys2Proof.Machine.execFunctionLevelReset f s
  | .pfFunctionLevelReset => Sys2Proof.Machine.execPfFunctionLevelReset s
  | .computeDieReset die failed => Sys2Proof.Machine.execComputeDieReset die failed s
  | .standbyPowerLoss => Sys2Proof.Machine.execStandbyPowerLoss s
  | .powerLimitWindow die step => Sys2Proof.Machine.execPowerLimitWindow die step s
  | .thermalThrottle die step => Sys2Proof.Machine.execThermalThrottle die step s
  | .thermalTrip die => Sys2Proof.Machine.execThermalTrip die s
  | .mgmtUpdate pavg pmax temps => Sys2Proof.Machine.execMgmtUpdate pavg pmax temps s
  | .stripMapChange strip entry => Sys2Proof.Machine.execStripMapChange strip entry s
  | .fencedAccessRetry idx => Sys2Proof.Machine.execFencedAccessRetry idx s
  | .flitCrcResend port => Sys2Proof.Machine.execFlitCrcResend port s
  | .linkResendFailureLimit port => Sys2Proof.Machine.execLinkResendFailureLimit port s
  | .blockLockLoss port => Sys2Proof.Machine.execBlockLockLoss port s
  | .linkIdleTimeout port => Sys2Proof.Machine.execLinkIdleTimeout port s
  | .idleFlit port => Sys2Proof.Machine.execIdleFlit port s
  | .linkTraining port peer => Sys2Proof.Machine.execLinkTraining port peer s
  | .rd port p => Sys2Proof.Machine.execRd port p s
  | .wr port p => Sys2Proof.Machine.execWr port p s
  | .wrm port p => Sys2Proof.Machine.execWrm port p s
  | .amo port p => Sys2Proof.Machine.execAmo port p s
  | .redc port p => Sys2Proof.Machine.execRedc port p s
  | .msg port p => Sys2Proof.Machine.execMsg port p s
  | .sig port p => Sys2Proof.Machine.execSig port p s
  | .prb port p => Sys2Proof.Machine.execPrb port p s
  | .rdata port p => Sys2Proof.Machine.execRdata port p s
  | .ares port p => Sys2Proof.Machine.execAres port p s
  | .ack port p => Sys2Proof.Machine.execAck port p s
  | .nak port p => Sys2Proof.Machine.execNak port p s
  | .mrep port p => Sys2Proof.Machine.execMrep port p s
  | .sync port p => Sys2Proof.Machine.execSync port p s
  | .ackTimer src lane => Sys2Proof.Machine.execAckTimer src lane s
  | .tackExpiry dest lane => Sys2Proof.Machine.execTackExpiry dest lane s
  | .unreachableTimeout dest => Sys2Proof.Machine.execUnreachableTimeout dest s
  | .resyncHoldExpiry dest => Sys2Proof.Machine.execResyncHoldExpiry dest s
  | .nakRetryResend idx => Sys2Proof.Machine.execNakRetryResend idx s
  | .pathCheck dest cand ok => Sys2Proof.Machine.execPathCheck dest cand ok s
  | .baraSend entry => Sys2Proof.Machine.execBaraSend entry s
  | .barb port p => Sys2Proof.Machine.execBarb port p s
  | .treeNotice entry => Sys2Proof.Machine.execTreeNotice entry s
  | .barbTimeout entry => Sys2Proof.Machine.execBarbTimeout entry s
  | .postResetSync dest => Sys2Proof.Machine.execPostResetSync dest s
  | .scaleOutFrame port fr => Sys2Proof.Machine.execScaleOutFrame port fr s
  | .hvselWrite f v => Sys2Proof.Machine.execHvselWrite f v s
  | .hstatWrite f v => Sys2Proof.Machine.execHstatWrite f v s
  | .vfctlWrite f v => Sys2Proof.Machine.execVfctlWrite f v s
  | .qdirbaseWrite f v => Sys2Proof.Machine.execQdirbaseWrite f v s
  | .registerWrite f off v => Sys2Proof.Machine.execRegisterWrite f off v s
  | .blackboxSelWrite sel => Sys2Proof.Machine.execBlackboxSelWrite sel s
  | .fqheadWrite f v => Sys2Proof.Machine.execFqheadWrite f v s
  | .fresumeRetry f v => Sys2Proof.Machine.execFresumeRetry f v s
  | .fresumeDeliver f v => Sys2Proof.Machine.execFresumeDeliver f v s
  | .coalesceTimer f vec => Sys2Proof.Machine.execCoalesceTimer f vec s
  | .msixUnmask f vec => Sys2Proof.Machine.execMsixUnmask f vec s
  | .biasFlipStart v => Sys2Proof.Machine.execBiasFlipStart v s
  | .biasFlipPage => Sys2Proof.Machine.execBiasFlipPage s
  | .biasFlipWaitTimeout => Sys2Proof.Machine.execBiasFlipWaitTimeout s
  | .hostMemAccess addr data => Sys2Proof.Machine.execHostMemAccess addr data s
  | .h2dSnoop addr data => Sys2Proof.Machine.execH2dSnoop addr data s
  | .hostLineFill addr data own => Sys2Proof.Machine.execHostLineFill addr data own s
  | .wptrPoll slot => Sys2Proof.Machine.execWptrPoll slot s
  | .getcert => Sys2Proof.Machine.execGetcert s
  | .attest => Sys2Proof.Machine.execAttest s
  | .patch sigOk => Sys2Proof.Machine.execPatch sigOk s
  | .patchApply => Sys2Proof.Machine.execPatchApply s
  | .patchQuiesceTimeout => Sys2Proof.Machine.execPatchQuiesceTimeout s
  | .containFence r => Sys2Proof.Machine.execContainFence r s
  | .containReset r failed => Sys2Proof.Machine.execContainReset r failed s
  | .containRelease r => Sys2Proof.Machine.execContainRelease r s
  | .commit => Sys2Proof.Machine.execCommit s
  | .bbctlFreeze => Sys2Proof.Machine.execBbctlFreeze s
  | .bbctlUnfreeze => Sys2Proof.Machine.execBbctlUnfreeze s
  | .blackboxFrozen die => Sys2Proof.Machine.execBlackboxFrozen die s
  | .fabcfg pathOk => Sys2Proof.Machine.execFabcfg pathOk s
  | .patrolScrub page ecc integBad => Sys2Proof.Machine.execPatrolScrub page ecc integBad s
  | .graphNodeComplete graph node => Sys2Proof.Machine.execGraphNodeComplete graph node s
  | .gangMap f gang => Sys2Proof.Machine.execGangMap f gang s
  | .unmappedQueuePoll f q => Sys2Proof.Machine.execUnmappedQueuePoll f q s
  | .queueTeardown f q => Sys2Proof.Machine.execQueueTeardown f q s
  | .sweepSignal sweep => Sys2Proof.Machine.execSweepSignal sweep s
  | .sweepWakeAccept core => Sys2Proof.Machine.execSweepWakeAccept core s
  | .firingPlace core => Sys2Proof.Machine.execFiringPlace core s
  | .fifoFire core binding => Sys2Proof.Machine.execFifoFire core binding s
  | .fifoEntryArrival idx => Sys2Proof.Machine.execFifoEntryArrival idx s
  | .creditReturn idx => Sys2Proof.Machine.execCreditReturn idx s
  | .fifoTableWrite core entry v => Sys2Proof.Machine.execFifoTableWrite core entry v s
  | .bindingWrite core entry v => Sys2Proof.Machine.execBindingWrite core entry v s
  | .messageArrival idx => Sys2Proof.Machine.execMessageArrival idx s
  | .undeliverableReturn idx => Sys2Proof.Machine.execUndeliverableReturn idx s
  | .growstall core => Sys2Proof.Machine.execGrowstall core s
  | .priorityAgeing core idx => Sys2Proof.Machine.execPriorityAgeing core idx s
  | .slotLimitExpiry core => Sys2Proof.Machine.execSlotLimitExpiry core s
  | .resultArrival cid idx => Sys2Proof.Machine.execResultArrival cid idx s
  | .feWaiterRetry cid => Sys2Proof.Machine.execFeWaiterRetry cid s
  | .preempt cid => Sys2Proof.Machine.execPreempt cid s
  | .saveComplete cid => Sys2Proof.Machine.execSaveComplete cid s
  | .restore core => Sys2Proof.Machine.execRestore core s
  | .neighbourWriteArrival idx => Sys2Proof.Machine.execNeighbourWriteArrival idx s
  | .storeAck core idx => Sys2Proof.Machine.execStoreAck core idx s
  | .streamPrefetch core unit => Sys2Proof.Machine.execStreamPrefetch core unit s
  | .ownershipNotice idx => Sys2Proof.Machine.execOwnershipNotice idx s
  | .stripAtomicAck strip idx => Sys2Proof.Machine.execStripAtomicAck strip idx s
  | .replicaForward idx => Sys2Proof.Machine.execReplicaForward idx s
  | .replicaMarkAck idx => Sys2Proof.Machine.execReplicaMarkAck idx s
  | .l2Eviction line => Sys2Proof.Machine.execL2Eviction line s
  | .gangWatchdog strip => Sys2Proof.Machine.execGangWatchdog strip s
  | .arrayOperationStart strip => Sys2Proof.Machine.execArrayOperationStart strip s
  | .mmaRetire strip => Sys2Proof.Machine.execMmaRetire strip s
  | .lensStart cid => Sys2Proof.Machine.execLensStart cid s
  | .lensBranchResolve cid => Sys2Proof.Machine.execLensBranchResolve cid s
  | .mirrorIntervalConfirm cid => Sys2Proof.Machine.execMirrorIntervalConfirm cid s
  | .mirrorMismatch cid => Sys2Proof.Machine.execMirrorMismatch cid s
  | .pairStart cid => Sys2Proof.Machine.execPairStart cid s
  | .prismDispatch prism thread => Sys2Proof.Machine.execPrismDispatch prism thread s
  | .gets prism idx => Sys2Proof.Machine.execGets prism idx s
  | .getm prism idx => Sys2Proof.Machine.execGetm prism idx s
  | .puts prism idx => Sys2Proof.Machine.execPuts prism idx s
  | .putm prism idx => Sys2Proof.Machine.execPutm prism idx s
  | .pdata prism idx => Sys2Proof.Machine.execPdata prism idx s
  | .probeAnswer prism idx => Sys2Proof.Machine.execProbeAnswer prism idx s
  | .lread prism idx => Sys2Proof.Machine.execLread prism idx s
  | .lwrite prism idx => Sys2Proof.Machine.execLwrite prism idx s
  | .latom prism idx => Sys2Proof.Machine.execLatom prism idx s
  | .grant prism idx => Sys2Proof.Machine.execGrant prism idx s
  | .update prism idx => Sys2Proof.Machine.execUpdate prism idx s
  | .proxyProbe prism idx => Sys2Proof.Machine.execProxyProbe prism idx s
  | .lost prism idx => Sys2Proof.Machine.execLost prism idx s
  | .pushrel prism idx => Sys2Proof.Machine.execPushrel prism idx s
  | .fwdNak prism idx => Sys2Proof.Machine.execFwdNak prism idx s
  | .handlerWatchdog prism thread => Sys2Proof.Machine.execHandlerWatchdog prism thread s
  | .prismSpillDrain prism => Sys2Proof.Machine.execPrismSpillDrain prism s
  | .retryRedispatch prism idx => Sys2Proof.Machine.execRetryRedispatch prism idx s
  | .rtsync => Sys2Proof.Machine.execRtsync s
  | .rebind => Sys2Proof.Machine.execRebind s
  | .unbusy => Sys2Proof.Machine.execUnbusy s
  | .setwd => Sys2Proof.Machine.execSetwd s
  | .migrate => Sys2Proof.Machine.execMigrate s
  | .migdone => Sys2Proof.Machine.execMigdone s
  | .partialEntryTimeout prism idx => Sys2Proof.Machine.execPartialEntryTimeout prism idx s
  | .copyComplete idx => Sys2Proof.Machine.execCopyComplete idx s
  | .promiseMissed cid => Sys2Proof.Machine.execPromiseMissed cid s
  | .tlbWalkComplete idx => Sys2Proof.Machine.execTlbWalkComplete idx s
  | .waittExpiry cid => Sys2Proof.Machine.execWaittExpiry cid s
  | .rdownnodataCompletion => Sys2Proof.Machine.execRdownnodataCompletion s

end Sys2Proof.Machine
end

