-- ==== Sys2Proof/Machine/Next.lean ====
section
/-! DEFINITION. The turn that a step gives, and the placing of one instruction where a step fetches it. -/

namespace Sys2Proof.Machine

/-- A lens stands at a switch marker until its results return (R193). -/
def markerHeld (s : State) (c : Nat) : Bool :=
  (ctxOf s c).st == .stalled && (ctxOf s c).wait == .marker && !(ctxOf s c).pend.isEmpty

/-- The watchdogs of open wired barriers count the cycles that pass, but those in which a rank that has not arrived holds a
FAULTED or SAVED firing (R187). -/
def countGangs (dt : Nat) (s : State) : State :=
  let counts (k : Nat) (t : StripSt) : Bool := t.gangSince.isSome && !(t.gang.isEmpty && t.barmax.isEmpty) && !gangPausedNow s k
  if s.strips.any fun e => counts e.1 e.2 then
    { s with strips := s.strips.map fun (k, t) => if counts k t then (k, { t with gangCount := t.gangCount + dt }) else (k, t) }
  else s
/-- What happens to the device beside the steps of the table (R33, R61, R79, R86, R98, R155, log 88). -/
def worldActs (s : State) (e : Env) : State :=
  match e with
  | .strike w k => strike s (w, k)
  | .call i => fnCall i s
  | .back i => fnBack i s
  | .barRead f off => barReadDone f off s
  | .sriov on => setSriov on s
  | .hdm base => modHost (fun h => { h with hdmBase := base }) s
  | .grant port a b => flitIn port a b s
  | .leaves i => msgLeaves i s
/-- Cycles pass: the open barriers count, the fabric atomic unit writes what it has read, and the world acts. -/
def elapse (dt : Nat) (env : List Env) (s : State) : State :=
  env.foldl worldActs (fauTurn (countGangs dt { s with cyc := s.cyc + dt }))

/-- A turn of a core (R74, R75, R162, R167, R300): a fault answered with a trap, the head whose wait has been answered,
an undeliverable return, a stop for a save, or the next head. A control-column core runs heads as every other core does (R87);
one without a firing runs the firmware's own, which the spec does not give (log 6). -/
def coreTurn (core : Nat) (s : State) : Turn :=
  if !computeCore s core && !controlCore s core then .done s
  else match selectCtx s core with
    | none =>
      if controlCore s core && (List.range 8).all fun j => (ctxOf s (core * 8 + j)).st == .free then .stop .firmwareCore
      else .done s
    | some j =>
      if markerHeld s (core * 8 + j) then .done s
      else
      let s := takeSlot core j s
      let x := here s
      match x.granted, x.wait, (if x.storing.isEmpty then (x.fir.getD {}).undelivered else []) with
      | true, .fault _ cause va, _ =>
        if x.pend.isEmpty then .done (trapAt s cause va 0)
        else .done (modHere (fun x => { x with st := .parked }) (leaveSlot s.cur s))
      | true, _, _ => fetchTurn fetchCore s
      | _, _, t :: rest =>
        if x.pend.isEmpty && !unconfirmed s then
          .done (trapAt (modFir s.cur (fun f => { f with undelivered := rest }) s) 0x16 t.toNat 4)
        else .done (trapAt s 0x16 t.toNat 4)
      | _, _, [] =>
        if (saveOf s s.cur).isSome && (stoppable s s.cur || unconfirmed s) then .done (tryStop s.cur s)
        else fetchTurn fetchCore (dealLens s.cur s)

/-- A turn of a Prism thread that runs a handler. -/
def threadTurn (p t : Nat) (s : State) : Turn :=
  let c := 32768 + 8 * p + t % 8
  if p < 51 && (runOf s c).isSome then fetchTurn fetchThread { s with cur := c } else .done s

/-- The turn an input gives (log 1). -/
def turnOf (a : Act) (s : State) : Turn :=
  match a with
  | .event i => .run i s
  | .core k => if s.firm.powered then coreTurn k s else .done s
  | .thread p t => if s.firm.powered then threadTurn p t s else .done s
  | .packet slot => if s.firm.powered then packetTurn slot s else .done s

/-- The next input of the agenda, or a turn of the core in focus; its cycles pass first (log 1, log 2). -/
def nextTurn (s : State) : Turn :=
  match s.agenda with
  | [] => turnOf (.core s.focus) (elapse 1 [] s)
  | a :: rest => turnOf a.act (elapse a.dt a.env { s with agenda := rest })

/-- The translation under which the placed line is fetched: a 4 KiB page at 0 with every permission. -/
def placeTlb (core : Nat) (asid : Nat) : TlbEntry :=
  { unit := stripNo core, asid := asid, va := 0, size := 4096, pa := 0, attr := BitVec.ofNat 64 0x1FF }

/-- A firing with every register, placed in context 0 of a core at head 1 of line 0. -/
def placeFiring (s : State) (core : Nat) : Ctx :=
  { st := .ready, asid := 0, gen := 1, pc := ⟨0, 1⟩
    fir := some { handle := mkHandle s.dev core 0 1, cch := 8, vch := 8 } }

/-- Place one instruction so that the next step runs it: on the core in focus as the line of a placed firing,
or, for the PRISM group, as the handler line of Prism 0's thread 0 (log 15). -/
def placeWord (s : State) (nbits w : Nat) : State :=
  let ws := wordsOf (w % 2 ^ nbits)
  let head := ws.headD 0
  let line := lineOf (head :: (ws.drop 1).take (tailUnits head))
  if majorOf head == 0x7E then
    let s := poke 0 64 line.toNat { s with agenda := [{ act := .thread 0 0 }] }
    let s := modPrism 0 (fun p => { p with thr := SMap.set none p.thr 0 (some { msg := { ty := 6, block := 64 } }) }) s
    setCtx s 32768 { pc := ⟨0, 1⟩ }
  else
    let core := s.focus
    let s := { s with agenda := [] }
    let s := modCore core (fun k => { k with poolC := 16, poolV := 23, slot := some 0, l1i := SMap.set none k.l1i 0 (some { data := line }) }) s
    let s := modTr (fun t => { t with tlb := placeTlb core 0 :: t.tlb }) s
    setCtx s (core * 8) (placeFiring s core)

end Sys2Proof.Machine
end

