-- ==== Sys2Proof/Machine/Step.lean ====
section
/-! DEFINITION. One step of the device: the next turn of the agenda. -/

namespace Sys2Proof.Machine

/-- One step: an event, a head of a core or a Prism thread, or a packet (log 1, log 2). -/
def step (s : State) : Host.Outcome State Fault Refusal :=
  match nextTurn s with
  | .run i t => exec i t
  | .done t => .next t
  | .stop f => .fault f

/-- `s` with the instruction whose words are `w` where `step` fetches next (log 15). -/
def State.withFetchWord (s : State) (nbits w : Nat) : State := placeWord s nbits w

end Sys2Proof.Machine
end

