-- ==== Sys2Proof/Safety.lean ====
section
/-! DEFINITION. The words that statements about the machine are written in: when a head issues normally, how its effect
shows in the next state, and which states are well formed. -/

namespace Sys2Proof.Machine

/-! ### Well-formed states -/

/-- Both memories are in their canonical form. -/
def State.memOk (s : State) : Prop := Memory.wf s.ms.mem = true ∧ Memory.wf s.ms.hostio = true

/-! ### When a head issues normally -/

/-- A head of row `r` that uses the registers `u` issues normally in the context whose turn it is: no decode-time trap,
every register it names is allotted and present, no source is poisoned (R174, R299, R336, R355), it need not wait for
the confirmation of an interval of checked execution (R201), and no mirror partner has a side of its own of it (R200). -/
def Issues (s : State) (r : Row) (u : Use) : Prop :=
  issueStop s r u = none ∧ (unconfirmed s && endsInterval r) = false ∧ partnerOf s s.cur = none

/-- No register among those that a head reads or writes is bound to a stream unit (R177). -/
def Unbound (s : State) (u : Use) : Prop := ∀ v ∈ u.rv ++ u.wv, unitOf s s.cur v = none

/-- Check(c, n, p, align) of R347 passes at `ea`; a Prism thread's operands are physical addresses (R473). -/
def CheckPasses (s : State) (c : Cap) (ea n p align : Nat) : Prop :=
  (isThread s.cur = true ∨ (c.tag = true ∧ CapF.inBounds c ea n = true ∧ CapF.holds c p = true)) ∧ ea % align = 0

/-- An access passes every check of R299 and translates to these spans: the capability check, the translation of each
line's part, the window rule (R208) and the range locks (R260). -/
def Accessible (s : State) (c : Cap) (ea n p align : Nat) (kind : BitVec 8) (write : Bool) (spans : List Span) : Prop :=
  CheckPasses s c ea n p align ∧ spansOf kind (lineParts ea (n / 64 + 2) n) s = .ok spans s ∧
    (∀ sp ∈ spans, sysSpace s sp.pa = true → isThread s.cur = true ∨ CapF.holds c CapF.SYS = true) ∧ lockHit s ea n write = false

/-! ### Next states of a head -/

/-- gD written. -/
def withG (h : Head) (c : Cap) (s : State) : State := modHere (fun x => writeG x h.d.toNat c) s
/-- An integer in gD (R338). -/
def withInt (h : Head) (v : W64) (s : State) : State := withG h (Cap.ofInt v) s
/-- vD written. -/
def withV (h : Head) (v : VReg) (s : State) : State := modHere (fun x => writeV x h.d.toNat v) s
/-- mD written. -/
def withM (h : Head) (v : BitVec 32) (s : State) : State := modHere (fun x => writeM x h.d.toNat v) s

/-- Wherever the head issues, it completes: from `s` the next state is `t`, with execution advanced past it. -/
def Completes (mk : Head → Instr) (r : Row) (u : Head → Use) (n : Head → State → Next) (t : Head → State → State) : Prop :=
  ∀ h s, Issues s r (u h) → Unbound s (u h) → exec (mk h) s = .next (advance h (u h) (n h s) (t h s))

/-- The same in checked execution, between two heads that end an interval: the next state is the one without a partner, but for
the registers of the partner's context and the record of the pair (R200, R201). -/
def Mirrors (mk : Head → Instr) (r : Row) (u : Head → Use) (n : Head → State → Next) (t : Head → State → State) : Prop :=
  ∀ h s, issueStop s r (u h) = none → (unconfirmed s && endsInterval r) = false → Unbound s (u h) →
    exec (mk h) s = .next (advance h (u h) (n h s) (t h s)) ∨
    ∃ q y f, partnerOf s s.cur = some q ∧ exec (mk h) s = .next (modGrp f (setCtx (advance h (u h) (n h s) (t h s)) q y))

/-- A head that always completes in sequence, with an effect on the state. -/
def Effects (mk : Head → Instr) (r : Row) (t : Head → State → State) : Prop :=
  Completes mk r (Use.ofRow r) (fun _ _ => .seq) t

/-- A head that computes an integer from operands a and b (R354). -/
def Computes (mk : Head → Instr) (r : Row) (f : W64 → W64 → W64) : Prop :=
  Effects mk r fun h s => withInt h (f (opA s h) (opB s h)) s

/-- A branch goes to the line at its offset when the condition holds, else on in sequence (R373, R374). -/
def Branches (mk : Head → Instr) (r : Row) (p : W64 → W64 → Prop) : Prop :=
  ∀ h s, Issues s r (Use.ofRow r h) →
    (p (opA s h) (gB s h).val → exec (mk h) s = .next (advance h (Use.ofRow r h) (.go (relTarget s h)) s)) ∧
    (¬ p (opA s h) (gB s h).val → exec (mk h) s = .next (advance h (Use.ofRow r h) .seq s))

/-- The length that CSETB takes: gB, or the immediate zero-extended (R366). -/
def setbLen (s : State) (h : Head) : Nat := if h.form = .T2 then h.im 15 0 else (gB s h).val.toNat

/-! ### Packets of the command stream -/

/-- A turn of slot `slot` reads packet `x` at its queue's innermost level `l`: nothing keeps the queue `q` from issuing, the
read leaves `t`, and `put` writes the read-pointer word when the level is the ring (R70, R113, R126). -/
def NextPacket (s : State) (slot : Nat) (q : Queue) (l : Level) (x : Nat) (put : Nat → State → State) (t : State) : Prop :=
  ∃ q0 rest t0, slotQ s slot = some q0 ∧ mayIssue forPackets q0 = true ∧ q0.wait = none ∧ q = { q0 with levels := popLevels q0.levels } ∧
    q.levels = l :: rest ∧ (fetchPkt q l.pos) (setSlotQ slot (some q) s) = .ok x t0 ∧
    (if rest.isEmpty then rptrWrite q else pure fun _ s => s) t0 = .ok put t

/-- The packet acts: it is neither skipped by a PRED nor a dependant of an aborted WAIT, and it may issue beside the
packets that are open (R115, R119, R120, R122). -/
def PacketActs (q : Queue) (l : Level) (x : Nat) : Prop :=
  l.skip = 0 ∧ l.guardN = 0 ∧ ((pkB x = true ∨ pkTy x = 3 ∨ pkTy x = 9) → q.issued = []) ∧ openPackets q < 64

/-- The queue past a packet: its innermost level stands at `next` with the change `g`, and at depth 1 the read pointer and
RETIRED count it when it is new (R70, R110, R126). -/
def pastPacketWith (q : Queue) (put : Nat → State → State) (next : Nat) (g : Level → Level) (s : State) : State :=
  let s := modLevel q.fn q.qidx (fun l => g (stepLevel next l)) s
  if q.levels.tail.isEmpty && q.rptr < next then
    put next (modQ (isQ q.fn q.qidx) (fun q => { q with rptr := next, retired := (q.retired + 1) % 2 ^ 32 }) s)
  else s
/-- The queue past a packet that leaves its level as it is otherwise. -/
def pastPacket (q : Queue) (put : Nat → State → State) (next : Nat) (s : State) : State := pastPacketWith q put next id s

end Sys2Proof.Machine
end

