-- ==== Sys2Proof/Certificates/Slice0/Obligations.lean ====
section
/-! DEFINITION. The statements about the Urmetar X9 that the provers settle. -/

section

open Sys2Proof Sys2Proof.Machine

/-! ### Integer heads (R354 to R363) -/

/-- O1. The integer heads that complete at once write to gD what R356, R357, R359, R360 and R362 give, also in checked
execution, where the partner's side adds its own registers and the pair's record (R200); NOP and YIELD change no register. -/
def Obligations.IntegerHeadsWriteTheirResult : Prop :=
   (let both (mk : Head → Instr) (r : Row) (f : W64 → W64 → W64) : Prop := Computes mk r f ∧
      Mirrors mk r (Use.ofRow r) (fun _ _ => .seq) fun h s => withInt h (f (opA s h) (opB s h)) s
    both .add Rows.add (fun a b => a + b) ∧
    both .addW Rows.addW (fun a b => ((a + b).setWidth 32).signExtend 64) ∧
    both .sub Rows.sub (fun a b => a - b) ∧
    both .subW Rows.subW (fun a b => ((a - b).setWidth 32).signExtend 64) ∧
    both .mul Rows.mul (fun a b => a * b) ∧
    both .mulh Rows.mulh (fun a b => BitVec.ofInt 64 (a.toInt * b.toInt / 2 ^ 64)) ∧
    both .mulhu Rows.mulhu (fun a b => BitVec.ofNat 64 (a.toNat * b.toNat / 2 ^ 64)) ∧
    both .mulW Rows.mulW (fun a b => ((a * b).setWidth 32).signExtend 64) ∧
    both .and Rows.and (fun a b => a &&& b) ∧
    both .or Rows.or (fun a b => a ||| b) ∧
    both .xor Rows.xor (fun a b => a ^^^ b) ∧
    both .andn Rows.andn (fun a b => a &&& ~~~b) ∧
    both .shl Rows.shl (fun a b => a <<< (b.toNat % 64)) ∧
    both .shr Rows.shr (fun a b => a >>> (b.toNat % 64)) ∧
    both .sra Rows.sra (fun a b => a.sshiftRight (b.toNat % 64)) ∧
    both .ror Rows.ror (fun a b => a.rotateRight (b.toNat % 64)) ∧
    both .seq Rows.seq (fun a b => if a = b then 1 else 0) ∧
    both .sne Rows.sne (fun a b => if a = b then 0 else 1) ∧
    both .slt Rows.slt (fun a b => if a.toInt < b.toInt then 1 else 0) ∧
    both .sge Rows.sge (fun a b => if a.toInt < b.toInt then 0 else 1) ∧
    both .sltu Rows.sltu (fun a b => if a.toNat < b.toNat then 1 else 0) ∧
    both .sgeu Rows.sgeu (fun a b => if a.toNat < b.toNat then 0 else 1) ∧
    both .min Rows.min (fun a b => if a.toInt < b.toInt then a else b) ∧
    both .max Rows.max (fun a b => if a.toInt < b.toInt then b else a) ∧
    both .minu Rows.minu (fun a b => if a.toNat < b.toNat then a else b) ∧
    both .maxu Rows.maxu (fun a b => if a.toNat < b.toNat then b else a)) ∧
   ((∀ h s, Issues s Rows.nop {} → exec (.nop h) s = .next (advance h {} .seq s)) ∧
    (∀ h s, Issues s Rows.yield {} → exec (.yield h) s = .next (advance { h with s := true } {} .seq s)) ∧
    (∀ h s, let c := readG (here s) (h.im 5 0)
      Issues s Rows.csel ((Use.ofRow Rows.csel h).andG [h.im 5 0]) →
      exec (.csel h) s = .next (advance h ((Use.ofRow Rows.csel h).andG [h.im 5 0]) .seq
        (withG h (if c.val = 0 then gB s h else gA s h) s))) ∧
    (∀ h s, let c := readG (here s) (h.im 5 0)
      Issues s Rows.cselz ((Use.ofRow Rows.cselz h).andG [h.im 5 0]) →
      exec (.cselz h) s = .next (advance h ((Use.ofRow Rows.cselz h).andG [h.im 5 0]) .seq
        (withG h (if c.val = 0 then gA s h else gB s h) s))))

/-- O2. The bit-counting, reversing and field heads write the number that R360 and R361 describe. -/
def Obligations.BitAndFieldHeadsWriteTheirResult : Prop :=
  (∀ h s, Issues s Rows.clz (Use.ofRow Rows.clz h) → ∃ n, n ≤ 64 ∧
    exec (.clz h) s = .next (advance h (Use.ofRow Rows.clz h) .seq (withInt h (BitVec.ofNat 64 n) s)) ∧
    (opA s h).toNat < 2 ^ (64 - n) ∧ (n < 64 → 2 ^ (63 - n) ≤ (opA s h).toNat)) ∧
  (∀ h s, Issues s Rows.ctz (Use.ofRow Rows.ctz h) → ∃ n, n ≤ 64 ∧
    exec (.ctz h) s = .next (advance h (Use.ofRow Rows.ctz h) .seq (withInt h (BitVec.ofNat 64 n) s)) ∧
    (∀ i < n, (opA s h).getLsbD i = false) ∧ (n < 64 → (opA s h).getLsbD n = true)) ∧
  Computes .popc Rows.popc (fun a _ => BitVec.ofNat 64 ((List.range 64).countP fun i => a.getLsbD i)) ∧
  (∀ h s, Issues s Rows.brev (Use.ofRow Rows.brev h) → ∃ v : W64,
    exec (.brev h) s = .next (advance h (Use.ofRow Rows.brev h) .seq (withInt h v s)) ∧
    ∀ i < 64, v.getLsbD i = (opA s h).getLsbD (63 - i)) ∧
  (∀ h s, Issues s Rows.bswap (Use.ofRow Rows.bswap h) → ∃ v : W64,
    exec (.bswap h) s = .next (advance h (Use.ofRow Rows.bswap h) .seq (withInt h v s)) ∧
    ∀ i < 64, v.getLsbD i = (opA s h).getLsbD (8 * (7 - i / 8) + i % 8)) ∧
  Effects .extu Rows.extu (fun h s => withInt h (BitVec.ofNat 64 ((opA s h).toNat / 2 ^ h.im 5 0 % 2 ^ (h.im 11 6 + 1))) s) ∧
  Effects .ext Rows.ext (fun h s =>
    withInt h (BitVec.ofInt 64 (signedOf (h.im 11 6 + 1) ((opA s h).toNat / 2 ^ h.im 5 0))) s) ∧
  (∀ h s, Issues s Rows.ins (Use.ofRow Rows.ins h).readD → h.im 5 0 + (h.im 11 6 + 1) ≤ 64 → ∃ v : W64,
    exec (.ins h) s = .next (advance h (Use.ofRow Rows.ins h).readD .seq (withInt h v s)) ∧
    ∀ i < 64, v.getLsbD i = if h.im 5 0 ≤ i ∧ i < h.im 5 0 + (h.im 11 6 + 1) then (opA s h).getLsbD (i - h.im 5 0)
      else (gD s h).val.getLsbD i)

/-- O3. The heads of variable latency write nothing yet: gD is absent, and the quotient or remainder of R358 is outstanding
for it until the latency of R173 has passed. A Prism thread has it at once. -/
def Obligations.DivisionsLeaveTheirResultOutstanding : Prop :=
  let quot (a b : W64) : Int := if b = 0 then -1 else a.toInt.tdiv b.toInt
  let quotU (a b : W64) : Nat := if b = 0 then 2 ^ 64 - 1 else a.toNat / b.toNat
  let late (signed : Bool) (v : W64 → W64 → W64) (h : Head) (s : State) : State :=
    withLate h.d (v (opA s h) (opB s h)) (divLatency signed (opA s h) (opB s h)) s
  Effects .div Rows.div (late true fun a b => BitVec.ofInt 64 (quot a b)) ∧
  Effects .divu Rows.divu (late false fun a b => BitVec.ofNat 64 (quotU a b)) ∧
  Effects .rem Rows.rem (late true fun a b => if b = 0 then a else BitVec.ofInt 64 (a.toInt.tmod b.toInt)) ∧
  Effects .remu Rows.remu (late false fun a b => if b = 0 then a else BitVec.ofNat 64 (a.toNat % b.toNat)) ∧
  ∀ (d : BitVec 6) (v : W64) (lat : Nat) (s : State), isThread s.cur = false → d ≠ 0 →
    presentG (here (withLate d v lat s)) d.toNat = false ∧
    (here (withLate d v lat s)).pend =
      (here s).pend ++ [{ id := (here s).nextPend, dst := .g d.toNat, fin := .cst (Cap.ofInt v), readyAt := s.cyc + lat }]

/-! ### Capability heads (R364 to R372) -/

/-- O4. The heads that read a field of gA; CINC and CSETA move the address modulo 2^57, CPERM takes permissions away and
CFMT sets the format: none of them widens what a capability grants. -/
def Obligations.CapabilitiesAreReadAndOnlyNarrowed : Prop :=
   (let gives (mk : Head → Instr) (r : Row) (f : Cap → W64) : Prop := Effects mk r fun h s => withInt h (f (gA s h)) s
    gives .cgetAddr Rows.cgetAddr (fun c => BitVec.ofNat 64 (c.w0.toNat % 2 ^ 57)) ∧
    gives .cgetBase Rows.cgetBase (fun c => if CapF.e c ≤ 34 then BitVec.ofInt 64 (CapF.base c) else 0) ∧
    gives .cgetTop Rows.cgetTop (fun c => if CapF.e c ≤ 34 then BitVec.ofInt 64 (CapF.top c) else 0) ∧
    gives .cgetLen Rows.cgetLen (fun c => if CapF.e c ≤ 34 then BitVec.ofInt 64 (CapF.top c - CapF.base c) else 0) ∧
    gives .cgetPerm Rows.cgetPerm (fun c => BitVec.ofNat 64 (c.w0.toNat / 2 ^ 57)) ∧
    gives .cgetFmt Rows.cgetFmt (fun c => BitVec.ofNat 64 (c.w1.toNat % 2 ^ 8)) ∧
    gives .cgetK Rows.cgetK (fun c => BitVec.ofNat 64 (c.w1.toNat / 2 ^ 8 % 2 ^ 4)) ∧
    gives .cgetTag Rows.cgetTag (fun c => if c.tag then 1 else 0)) ∧
   (let moved (c d : Cap) (a : Nat) : Prop :=
      CapF.addr d = a % 2 ^ 57 ∧ CapF.perms d = CapF.perms c ∧ d.w1.toNat % 2 ^ 18 = c.w1.toNat % 2 ^ 18 ∧
        (d.tag = true → c.tag = true ∧ CapF.base d = CapF.base c ∧ CapF.top d = CapF.top c)
    let gives (mk : Head → Instr) (r : Row) (p : Head → State → Cap → Prop) : Prop :=
      ∀ h s, Issues s r (Use.ofRow r h) → ∃ d, exec (mk h) s = .next (advance h (Use.ofRow r h) .seq (withG h d s)) ∧ p h s d
    gives .cinc Rows.cinc (fun h s d => moved (gA s h) d (CapF.addr (gA s h) + (opB s h).toNat)) ∧
    gives .cseta Rows.cseta (fun h s d => moved (gA s h) d (opB s h).toNat) ∧
    gives .cperm Rows.cperm (fun h s d => CapF.addr d = CapF.addr (gA s h) ∧ d.w1 = (gA s h).w1 ∧ d.tag = (gA s h).tag ∧
      CapF.perms d = Nat.land (CapF.perms (gA s h)) (h.im 6 0)) ∧
    gives .cfmt Rows.cfmt (fun h s d => d.w0 = (gA s h).w0 ∧ d.w1.toNat / 2 ^ 12 = (gA s h).w1.toNat / 2 ^ 12 ∧
      d.w1.toNat % 2 ^ 8 = h.im 7 0 ∧ CapF.k d = h.im 11 8 ∧ (d.tag = true → (gA s h).tag = true)))

/-- O5. CSETB sets exact bounds from the address, CSETB.O bounds rounded out to a granule; both lie inside the old bounds. CCHK
traps where the first three checks of R347 fail, in their order, and changes no register where they pass. -/
def Obligations.BoundsAreSetAndChecked : Prop :=
   (let sets (mk : Head → Instr) (r : Row) (out : Bool) : Prop :=
      ∀ h s, Issues s r (Use.ofRow r h) →
        let c := gA s h
        let len := setbLen s h
        (∀ d, csetbOf c len out = .ok d →
          exec (mk h) s = .next (advance h (Use.ofRow r h) .seq (withG h d s)) ∧
          d.tag = true ∧ d.w0 = c.w0 ∧ CapF.base c ≤ CapF.base d ∧ CapF.top d ≤ CapF.top c ∧
          CapF.base d ≤ CapF.addr c ∧ ((CapF.addr c + len : Nat) : Int) ≤ CapF.top d ∧
          (out = false → CapF.base d = CapF.addr c ∧ CapF.top d = ((CapF.addr c + len : Nat) : Int))) ∧
        (c.tag = false → exec (mk h) s = .next (trapAt s 0x06 (CapF.addr c) 0)) ∧
        (c.tag = true → CapF.top c < ((CapF.addr c + len : Nat) : Int) → exec (mk h) s = .next (trapAt s 0x07 (CapF.addr c) 0))
    sets .csetb Rows.csetb false ∧ sets .csetbO Rows.csetbO true) ∧
  (∀ h s, Issues s Rows.cchk (Use.ofRow Rows.cchk h) →
      let c := gA s h
      let a := CapF.addr c
      let n := (gB s h).val.toNat
      let p := if h.form = .T2 then h.im 6 0 else 0
      (c.tag = true → CapF.inBounds c a n = true → CapF.holds c p = true →
        exec (.cchk h) s = .next (advance h (Use.ofRow Rows.cchk h) .seq s)) ∧
      (c.tag = false → exec (.cchk h) s = .next (trapAt s 0x06 a 0)) ∧
      (c.tag = true → CapF.inBounds c a n = false → exec (.cchk h) s = .next (trapAt s 0x07 a 0)) ∧
      (c.tag = true → CapF.inBounds c a n = true → CapF.holds c p = false → exec (.cchk h) s = .next (trapAt s 0x08 a 0)))

/-! ### Control heads (R373 to R388) -/

/-- O6. A branch goes to head 1 of the line at its own line + 64 × the offset when its condition holds, else on in
sequence; JMP always goes; LOOP counts down to 0. -/
def Obligations.BranchesGoToTheirLine : Prop :=
  (∀ h s, relTarget s h = ⟨((((here s).pc.line : Int) + 64 * (Head.sext64 h).toInt) % (2 ^ 57 : Nat)).toNat, 1⟩) ∧
  Branches .beq Rows.beq (fun a b => a = b) ∧ Branches .bne Rows.bne (fun a b => a ≠ b) ∧
  Branches .blt Rows.blt (fun a b => a.toInt < b.toInt) ∧ Branches .bge Rows.bge (fun a b => b.toInt ≤ a.toInt) ∧
  Branches .bltu Rows.bltu (fun a b => a.toNat < b.toNat) ∧ Branches .bgeu Rows.bgeu (fun a b => b.toNat ≤ a.toNat) ∧
  Branches .bz Rows.bz (fun a _ => a = 0) ∧ Branches .bnz Rows.bnz (fun a _ => a ≠ 0) ∧
  (∀ h s, Issues s Rows.jmp {} → exec (.jmp h) s = .next (advance h {} (.go (relTarget s h)) s)) ∧
  (∀ h s, let u := (Use.ofRow Rows.loop h).readD
    Issues s Rows.loop u →
      (1 < (gD s h).val.toNat →
        exec (.loop h) s = .next (advance h u (.go (relTarget s h)) (withInt h ((gD s h).val - 1) s))) ∧
      ((gD s h).val.toNat ≤ 1 → exec (.loop h) s = .next (advance h u .seq (withInt h 0 s))))

/-- O7. CALL and CALL.C link the next line with EXE and GLB over 64 bytes; the transfers through a capability go to its
address when Check(gA, 64, EXE, 64) passes, and trap at the head when it does not. -/
def Obligations.CallsLinkAndTransfersAreChecked : Prop :=
  (∀ h s, Issues s Rows.call (Use.ofRow Rows.call h) →
    exec (.call h) s = .next (advance h (Use.ofRow Rows.call h) (.go (relTarget s h)) (withG h (linkCap s) s))) ∧
  (∀ s, let c := linkCap s
    c.tag = true ∧ CapF.addr c = ((here s).pc.line + 64) % 2 ^ 57 ∧ CapF.base c = CapF.addr c ∧ CapF.top c = CapF.base c + 64 ∧
      CapF.perms c = CapF.EXE + CapF.GLB) ∧
  (∀ h s, let a := baseAddr s (gA s h)
    CheckPasses s (gA s h) a 64 CapF.EXE 64 →
      (Issues s Rows.jmpC (Use.ofRow Rows.jmpC h) →
        exec (.jmpC h) s = .next (advance h (Use.ofRow Rows.jmpC h) (.go ⟨a, 1⟩) s)) ∧
      (Issues s Rows.ret (Use.ofRow Rows.ret h) →
        exec (.ret h) s = .next (advance h (Use.ofRow Rows.ret h) (.go ⟨a, 1⟩) s)) ∧
      (Issues s Rows.callC (Use.ofRow Rows.callC h) →
        exec (.callC h) s = .next (advance h (Use.ofRow Rows.callC h) (.go ⟨a, 1⟩) (withG h (linkCap s) s)))) ∧
  (∀ h s, isThread s.cur = false → (gA s h).tag = false →
      (Issues s Rows.jmpC (Use.ofRow Rows.jmpC h) → exec (.jmpC h) s = .next (trapAt s 0x06 (CapF.addr (gA s h)) 0)) ∧
      (Issues s Rows.ret (Use.ofRow Rows.ret h) → exec (.ret h) s = .next (trapAt s 0x06 (CapF.addr (gA s h)) 0)) ∧
      (Issues s Rows.callC (Use.ofRow Rows.callC h) → exec (.callC h) s = .next (trapAt s 0x06 (CapF.addr (gA s h)) 0)))

/-- O8. What Check of R347 passes, and the cause it raises first otherwise. -/
def Obligations.CheckRaisesTheFirstFailure : Prop :=
  ∀ c ea n p align s,
    (CheckPasses s c ea n p align → check c ea n p align s = .ok () s) ∧
    (isThread s.cur = false →
      (c.tag = false → check c ea n p align s = .error (.trap 0x06 ea 0) s) ∧
      (c.tag = true → CapF.inBounds c ea n = false → check c ea n p align s = .error (.trap 0x07 ea 0) s) ∧
      (c.tag = true → CapF.inBounds c ea n = true → CapF.holds c p = false → check c ea n p align s = .error (.trap 0x08 ea 0) s) ∧
      (c.tag = true → CapF.inBounds c ea n = true → CapF.holds c p = true → ea % align ≠ 0 →
        check c ea n p align s = .error (.trap 0x09 ea 0) s))

/-! ### The end of a firing, waits and starts (R378 to R388) -/

/-- O9. END and ENDE retire the firing once its results have returned, no stream failure is open and its release at device
scope may be performed; END with gD wakes a firing of its own core. In a Prism thread END ends the run and ENDE stops it. -/
def Obligations.EndHeadsRetireTheFiring : Prop :=
  ∀ h s,
    (isThread s.cur = false → (here s).pend = [] → streamFailure s = none → releaseReady s s.cur 3 = true →
      (Issues s Rows.ende (Use.ofRow Rows.ende h).srcD → h.d = 0 → exec (.ende h) s = .next (endFiring s.cur stFailed s)) ∧
      (Issues s Rows.endFiring (Use.ofRow Rows.endFiring h).srcD →
        (h.d = 0 → exec (.endFiring h) s = .next (endFiring s.cur stDone s)) ∧
        let w := (gD s h).val.toNat % 2 ^ 37
        (h.d ≠ 0 → handleDev w = s.dev → handleCore w = coreNo s.cur →
          exec (.endFiring h) s = .next (endFiring s.cur stDone (wakeHandle w s))))) ∧
    (isThread s.cur = true →
      (Issues s Rows.endFiring (Use.ofRow Rows.endFiring h).srcD → exec (.endFiring h) s = .next (endRun s.cur s)) ∧
      (Issues s Rows.ende (Use.ofRow Rows.ende h).srcD →
        exec (.ende h) s = .next (stopHandler s.cur 0x15 true (modRun s.cur (fun r => { r with count := r.count + 1 }) s))))

/-- O10. A wait whose event has occurred, or occurs at once, completes: WAITT when the transfer is over or the cycle has
come, WAITE message with a recorded wake, WAITE stream, ring and slot when nothing is left to wait for. An acquire follows
a completed copy. -/
def Obligations.WaitsCompleteWhenTheirEventHasOccurred : Prop :=
  ∀ h s,
    (Issues s Rows.waitt (Use.ofRow Rows.waitt h) →
      let a := (opA s h).toNat
      let b := (gB s h).val.toNat
      ((here s).granted = true → (here s).wait = .waitt a b →
        exec (.waitt h) s = .next (advance h (Use.ofRow Rows.waitt h) .seq s)) ∧
      ((here s).granted = false → copyOf s b = none → b ≠ 0 →
        exec (.waitt h) s = .next (advance h (Use.ofRow Rows.waitt h) .seq (acquire 5 s))) ∧
      ((here s).granted = false → copyOf s b = none → b = 0 → a ≤ s.cyc →
        exec (.waitt h) s = .next (advance h (Use.ofRow Rows.waitt h) .seq s)) ∧
      (∀ c, (here s).granted = false → copyOf s b = some c → s.cyc < c.promise → a ≤ s.cyc →
        exec (.waitt h) s = .next (advance h (Use.ofRow Rows.waitt h) .seq s))) ∧
    (Issues s Rows.waiteMsg {} → 0 < (firOf s s.cur).wakes →
      exec (.waiteMsg h) s =
        .next (advance h {} .seq (acquire 3 (modFir s.cur (fun f => { f with wakes := f.wakes - 1 }) s)))) ∧
    (Issues s Rows.waiteStr (Use.ofRow Rows.waiteStr h).nameV →
      (unitOf s s.cur h.a.toNat = none ∨
        (∃ k u, unitOf s s.cur h.a.toNat = some (k, u) ∧ u.write = false ∧ u.ahead ≠ []) ∨
        (∃ k u, unitOf s s.cur h.a.toNat = some (k, u) ∧ u.write = true ∧ u.out = [] ∧ u.slot = none)) →
      exec (.waiteStr h) s = .next (advance h (Use.ofRow Rows.waiteStr h).nameV .seq s)) ∧
    (Issues s Rows.waiteRing (Use.ofRow Rows.waiteRing h) → (here s).granted = false → copyOf s (opA s h).toNat = none →
      exec (.waiteRing h) s = .next (advance h (Use.ofRow Rows.waiteRing h) .seq (acquire 5 s))) ∧
    (Issues s Rows.waiteSlot (Use.ofRow Rows.waiteSlot h) → (slotOf_ s ((opA s h).toNat % 128)).st ≠ .releasing →
      exec (.waiteSlot h) s = .next (advance h (Use.ofRow Rows.waiteSlot h) .seq s))

/-- O11. FIRE queues the firing of a valid actor record, with its argument in g1, when the queue has room, and its status 1
or 0 is outstanding for gD. -/
def Obligations.FireQueuesItsActor : Prop :=
  ∀ h s x raw ts act,
    Issues s Rows.fire (Use.ofRow Rows.fire h) → isThread s.cur = false →
    check (gA s h) (baseAddr s (gA s h)) 128 CapF.LD 128 s = .ok () s →
    readGranules (gA s h) (baseAddr s (gA s h)) 8 s = .ok (raw, ts) x →
    let f := firOf s s.cur
    parseActor (actVer s f.fn) raw (ts.getD 0 false) (ts.getD 1 false) (ts.getD 2 false) = some act →
    let b := (gB s h).val
    let q : QFiring := { fir := newFiring act .fire (here s).asid f.fn f.queue b, enq := s.cyc, starts := [(1, Cap.ofInt b)] }
    (queuedPlain s (coreNo s.cur) < 56 →
      exec (.fire h) s = .next (advance h (Use.ofRow Rows.fire h) .seq
        (withLate h.d 1 14 (modCore (coreNo s.cur) (fun k => { k with fq := k.fq ++ [q] }) x)))) ∧
    (56 ≤ queuedPlain s (coreNo s.cur) →
      exec (.fire h) s = .next (advance h (Use.ofRow Rows.fire h) .seq (withLate h.d 0 14 x)))

/-- O12. GROW takes chunks that the pools hold, no older GROW waiting; SHRINK gives chunks back and drops the registers they
held. -/
def Obligations.GrowAndShrinkMoveChunks : Prop :=
  let grows (mk : Head → Instr) (r : Row) (vec : Bool) : Prop := ∀ h s,
    let n := h.im 3 0
    let x := here s
    Issues s r {} → isThread s.cur = false → n ≠ 0 → n + (if vec then vchOf s.cur x else cchOf s.cur x) ≤ 8 →
    x.granted = false → poolsHold s s.cur vec n = true → growNext s (coreNo s.cur) = none →
    exec (mk h) s = .next (advance h {} .seq (addChunks s.cur vec n s))
  let shrinks (mk : Head → Instr) (r : Row) (vec : Bool) : Prop := ∀ h s,
    let n := h.im 3 0
    let have_ := if vec then vchOf s.cur (here s) else cchOf s.cur (here s)
    let least := if s.cur % 8 = 7 then (if vec then 1 else 2) else (if vec then 0 else 1)
    Issues s r {} → isThread s.cur = false → n ≠ 0 → n + least ≤ have_ → (here s).pend = [] →
    (∀ v, unitOf s s.cur v = none) →
    exec (mk h) s = .next (advance h {} .seq (shrunk s.cur vec n s))
  grows .growC Rows.growC false ∧ grows .growV Rows.growV true ∧
  shrinks .shrinkC Rows.shrinkC false ∧ shrinks .shrinkV Rows.shrinkV true

/-- O13. TRAP takes the software trap with its immediate in TRAPINFO. A trap of a cause that R301 allows, with FL clear, goes
to TRAPE at the same level; every other at user level goes to the supervisor vector. The head's PC, the cause, the address
and the information are saved. -/
def Obligations.TrapsSaveTheirFrameAndEnterTheHandler : Prop :=
  (∀ h s, Issues s Rows.trap {} → exec (.trap h) s = .next (trapAt s 0x14 0 (h.im 15 0))) ∧
  (∀ s c cause addr info, let x := ctxOf s c
    let y := ctxOf (takeTrap c cause addr info s) c
    let f := firOf s c
    x.sup = false →
    (toTrape cause = true → x.fl = false → f.actor.trape ≠ 0 → c % 8 ≠ 7 →
      y.pc = ⟨f.actor.trape, 1⟩ ∧ y.sup = false ∧ y.fl = true ∧ y.trapcause.toNat % 512 = cause % 512 ∧
      y.trappc = BitVec.ofNat 64 (x.pc.line + x.pc.head) ∧ y.trapaddr = BitVec.ofNat 64 addr ∧
      y.trapinfo = BitVec.ofNat 64 info ∧ y.g = x.g ∧ y.v = x.v) ∧
    ((toTrape cause = false ∨ x.fl = true ∨ f.actor.trape = 0 ∨ c % 8 = 7) → (coreOf s (coreNo c)).trapvec.tag = true →
      y.pc = ⟨CapF.addr (coreOf s (coreNo c)).trapvec / 64 * 64, 1⟩ ∧ y.sup = true ∧ y.fl = true ∧
      y.trapcause.toNat % 512 = cause % 512 ∧ (y.trapcause.getLsbD 9 = x.fl ∨ 512 ≤ cause) ∧
      y.trappc = BitVec.ofNat 64 (x.pc.line + x.pc.head) ∧ y.trapaddr = BitVec.ofNat 64 addr ∧
      y.trapinfo = BitVec.ofNat 64 info ∧ y.g = x.g ∧ y.v = x.v))

/-- O14. ERET returns to TRAPPC, or after it for a software trap, or to the capability in gD; the level comes from
TRAPCAUSE and FL is cleared. Without a frame it raises the illegal-instruction trap. -/
def Obligations.EretRestoresTheFrame : Prop :=
  ∀ h s, let u := (Use.ofRow Rows.eret h).srcD
    let x := here s
    Issues s Rows.eret u →
    (x.fl = true → h.d = 0 → bitsOf x.trapcause.toNat 7 0 ≠ 0x14 →
      let pc : Pc := ⟨bitsOf x.trappc.toNat 56 6 * 64, bitsOf x.trappc.toNat 4 0⟩
      exec (.eret h) s = .next (advance h u (.go pc) (returnFromTrap s.cur pc s))) ∧
    (∀ pc t, x.fl = true → h.d = 0 → bitsOf x.trapcause.toNat 7 0 = 0x14 → afterTrap s s = .ok pc t →
      exec (.eret h) s = .next (advance h u (.go pc) (returnFromTrap s.cur pc t))) ∧
    (x.fl = true → h.d ≠ 0 → CheckPasses s (gD s h) (baseAddr s (gD s h)) 64 CapF.EXE 64 →
      let pc : Pc := ⟨baseAddr s (gD s h), 1⟩
      exec (.eret h) s = .next (advance h u (.go pc) (returnFromTrap s.cur pc s))) ∧
    (x.fl = false → exec (.eret h) s = .next (trapAt s 0x02 0 0x0A)) ∧
    (∀ pc, (here (returnFromTrap s.cur pc s)).sup = x.trapcause.getLsbD 8 ∧ (here (returnFromTrap s.cur pc s)).fl = false ∧
      (here (returnFromTrap s.cur pc s)).pc = pc ∧ (here (returnFromTrap s.cur pc s)).g = x.g)

/-! ### Memory heads (R391 to R400) -/

/-- O15. An access whose checks pass gives its spans and changes nothing; a store of data joins the store buffer in program
order when there is room (R175), and a context of a core whose buffer holds no overlapping store reads each span later. -/
def Obligations.AccessesPassTheirChecksInOrder : Prop :=
  (∀ s c ea n p align kind write spans, Accessible s c ea n p align kind write spans →
    access c ea n p align kind write s = .ok spans s) ∧
  (∀ s spans x tag, isThread s.cur = false → (here s).fir.any (·.paired) = false → pushWaits s s.cur = false →
    (coreOf s (coreNo s.cur)).sb.length + spans.length ≤ 32 →
    issueStore spans x tag s =
      .ok () (modCore (coreNo s.cur) (fun c => { c with sb := c.sb ++ storeEntries s s.cur tag spans x }) s)) ∧
  (∀ s sp, let pa := replicaPa sp.attr (dieOfCore (coreNo s.cur)) sp.pa
    isThread s.cur = false → ownSau s s.cur pa sp.n = false → (∀ e ∈ bufferOf s s.cur, overlaps pa sp.n e.pa e.n = false) →
    remoteDirect s sp.attr pa = none →
    loadPiece sp s = .ok { pa := pa, n := sp.n, viaL1 := cacheable s sp.attr pa } s) ∧
  (∀ s sp e, let pa := replicaPa sp.attr (dieOfCore (coreNo s.cur)) sp.pa
    isThread s.cur = false → ownSau s s.cur pa sp.n = false → (bufferOf s s.cur).getLast? = some e → e.pa ≤ pa →
    pa + sp.n ≤ e.pa + e.n → 0 < sp.n →
    loadPiece sp s =
      .ok { pa := pa, n := sp.n, known := some (e.data / 2 ^ (8 * (pa - e.pa)) % 2 ^ (8 * sp.n)), knownTag := e.tag }
        (markSeen s.cur (fun e => overlaps pa sp.n e.pa e.n) s))

/-- O16. A translation that the TLB holds is used; without one a walk starts, and the access waits for it (R291, R293). A
Prism thread's addresses are physical (R230). -/
def Obligations.TranslationsComeFromTheTlbOrAWalk : Prop :=
  (∀ s va kind e, isThread s.cur = false →
    (s.tr.tlb.find? fun e => tlbHit e (tlbUnit s.cur) (here s).asid.toNat va kind (!(here s).sup)) = some e →
    translate va kind s = .ok (normPa s (e.pa + (va - e.va)), e.attr) s) ∧
  (∀ s va kind, isThread s.cur = true → translate va kind s = .ok (normPa s (va % 2 ^ 56), 3 * 2 ^ 62) s) ∧
  (∀ s va kind, isThread s.cur = false → (here s).granted = false →
    (∀ e ∈ s.tr.tlb, tlbHit e (tlbUnit s.cur) (here s).asid.toNat va kind (!(here s).sup) = false) →
    ∃ t, translate va kind s = .error (.wait (.walk (va / 4096))) t ∧ t.ms = s.ms ∧ t.ctxs = s.ctxs ∧
      (t.tr.walks.any fun w => w.asid == (here s).asid.toNat && w.page == va / 4096 && w.kind == kind) = true) ∧
  (∀ e unit asid va kind user, tlbHit e unit asid va kind user = true →
    e.va ≤ va ∧ va < e.va + e.size ∧ e.asid = asid ∧ leafAllows e.attr.toNat kind user = true)

/-- O17. LD, LDC and LDAQ: the reads of the spans are outstanding for gD, or are performed now by LDAQ, which is an acquire
at its scope; LDC keeps the tag only under LDC permission and from memory that carries tags. -/
def Obligations.LoadsIssueTheirReads : Prop :=
  ∀ h s spans,
    (∀ ps t, Issues s Rows.ld (Use.ofRow Rows.ld h) →
      Accessible s (gA s h) (effAddr s h) (ldBytes h.f) CapF.LD (ldBytes h.f) kRead false spans →
      loadPieces spans s = .ok ps t →
      exec (.ld h) s = .next (advance h (Use.ofRow Rows.ld h) .seq
        (sendReads (here t).nextPend ps (withPend (dstG h.d) ps (.int (ldBytes h.f) (decide (h.f.toNat < 3))) 0 t)))) ∧
    (∀ ps t, Issues s Rows.ldc (Use.ofRow Rows.ldc h) → Accessible s (gA s h) (effAddr s h) 16 CapF.LD 16 kRead false spans →
      loadPieces spans s = .ok ps t →
      let keep := CapF.holds (gA s h) CapF.LDC && !isThread s.cur && spans.all fun sp => !tagless s sp.pa
      exec (.ldc h) s = .next (advance h (Use.ofRow Rows.ldc h) .seq
        (sendReads (here t).nextPend ps (withPend (dstG h.d) ps (.cap keep) 0 t)))) ∧
    (∀ ps t, Issues s Rows.ldaq (Use.ofRow Rows.ldaq h) →
      Accessible s (gA s h) (effAddr s h) (ldBytes h.f) CapF.LD (ldBytes h.f) kRead false spans →
      (spans.mapM fun sp => readHome sp h.b.toNat) s = .ok ps t →
      exec (.ldaq h) s = .next (advance h (Use.ofRow Rows.ldaq h) .seq
        (acquire h.b.toNat (sendReads (here t).nextPend ps (withPend (dstG h.d) ps (.int (ldBytes h.f) (decide (h.f.toNat < 3))) 0 t)))))

/-- O18. ST, STC and STRL put the low bytes of gD, or all of it with its tag, in the store buffer; STRL after a release at
its scope; STC of a tagged value needs STC permission. -/
def Obligations.StoresEnterTheStoreBuffer : Prop :=
  ∀ h s,
    (∀ spans t, Issues s Rows.st (Use.ofRow Rows.st h).srcD →
      Accessible s (gA s h) (effAddr s h) (ldBytes h.f) CapF.ST (ldBytes h.f) kWrite true spans →
      issueStore spans ((gD s h).val.toNat % 2 ^ (8 * ldBytes h.f)) false s = .ok () t →
      exec (.st h) s = .next (advance h (Use.ofRow Rows.st h).srcD .seq t)) ∧
    (∀ pa attr t, Issues s Rows.stc (Use.ofRow Rows.stc h).srcD →
      let c := gA s h
      let x := gD s h
      let ea := effAddr s h
      CheckPasses s c ea 16 CapF.ST 16 → (x.tag = false ∨ isThread s.cur = true ∨ CapF.holds c CapF.STC = true) →
      translate ea (if x.tag then kCapStore else kWrite) s = .ok (pa, attr) s → stcCheck c x ea pa s = .ok () s →
      lockHit s ea 16 true = false →
      issueStore [{ va := ea, pa := pa, n := 16, attr := attr }] (x.w0.toNat + x.w1.toNat * 2 ^ 64) (x.tag && !isThread s.cur) s
        = .ok () t →
      exec (.stc h) s = .next (advance h (Use.ofRow Rows.stc h).srcD .seq t)) ∧
    (∀ spans t, Issues s Rows.strl (Use.ofRow Rows.strl h).srcD →
      Accessible s (gA s h) (effAddr s h) (ldBytes h.f) CapF.ST (ldBytes h.f) kWrite true spans →
      releaseReady (releaseBegin h.b.toNat s) (releaseBegin h.b.toNat s).cur h.b.toNat = true →
      issueStore spans ((gD s h).val.toNat % 2 ^ (8 * ldBytes h.f)) false (releaseBegin h.b.toNat s) = .ok () t →
      exec (.strl h) s = .next (advance h (Use.ofRow Rows.strl h).srcD .seq t))

/-- O19. A fence completes once the context's results have returned: FENCE.rel and the release side of the others mark the
stores before them, or perform a release where the store buffer cannot order them; the acquire side drops what the L1 does
not own; stream units see the stores to the launch area before them (R143); FENCE.full is a release and an acquire, waits for the firing's own copies and from device scope on drops the
unpinned lines of the L1I. -/
def Obligations.FencesOrderAccesses : Prop :=
  ∀ h s, (here s).pend = [] →
    let scope := h.d.toNat
    let strong := isThread s.cur = false ∧ (4 ≤ scope ∨ (scope = 3 ∧ replicaWork s s.cur = true) ∨ unordered s s.cur = true)
    let seen (t : State) : State := launchFence t.cur t
    let mark : State := if isThread s.cur ∨ scope = 0 then s else modHere (fun x => { x with ep := x.ep + 1 }) s
    let begun := releaseBegin scope s
    let full := acquire scope begun
    (Issues s Rows.fenceAcq {} → exec (.fenceAcq h) s = .next (advance h {} .seq (seen (acquire scope s)))) ∧
    (Issues s Rows.fenceRel {} → ¬ strong → exec (.fenceRel h) s = .next (advance h {} .seq (seen mark))) ∧
    (Issues s Rows.fenceAr {} → ¬ strong → exec (.fenceAr h) s = .next (advance h {} .seq (seen (acquire scope mark)))) ∧
    (releaseReady begun begun.cur scope = true →
      (Issues s Rows.fenceRel {} → strong → exec (.fenceRel h) s = .next (advance h {} .seq (seen begun))) ∧
      (Issues s Rows.fenceAr {} → strong → exec (.fenceAr h) s = .next (advance h {} .seq (seen full))) ∧
      (Issues s Rows.fenceFull {} → ownCopies s = false →
        exec (.fenceFull h) s =
          .next (advance h {} .seq (if 3 ≤ scope ∧ isThread full.cur = false then dropL1i (coreNo full.cur) (seen full) else seen full))))

/-- O20. MOVB and FILL of no bytes change nothing. A step of one stores the bytes up to the end of a destination line, moves
the pointers and counts down; it ends the head only when no byte is left. -/
def Obligations.MovesStoreOneLineAtATime : Prop :=
  ∀ h s, let n := (gB s h).val.toNat
    let d := gD s h
    let a := gA s h
    let da := baseAddr s d
    let k := Nat.min n (64 - da % 64)
    let next : Next := if n = k then .seq else .again
    let count (t : State) : State := modHere (fun x => writeG x h.b.toNat (Cap.ofInt (BitVec.ofNat 64 (n - k)))) t
    (n = 0 →
      (Issues s Rows.movb (Use.moving h) → exec (.movb h) s = .next (advance h (Use.moving h) .seq s)) ∧
      (Issues s Rows.fill (Use.moving h) → exec (.fill h) s = .next (advance h (Use.moving h) .seq s))) ∧
    (∀ dst t, n ≠ 0 → CheckPasses s d da k CapF.ST 1 → spansOf kWrite (lineParts da 2 k) s = .ok dst s →
      (∀ sp ∈ dst, sysSpace s sp.pa = true → isThread s.cur = true ∨ CapF.holds d CapF.SYS = true) → lockHit s da k true = false →
      issueStore dst (fillBytes a.val da k) false s = .ok () t → Issues s Rows.fill (Use.moving h) →
      exec (.fill h) s = .next (advance h (Use.moving h) next (count (withG h (stepPtr s d k) t)))) ∧
    (∀ src dst x y t u w, n ≠ 0 → CheckPasses s d da k CapF.ST 1 → CheckPasses s a (baseAddr s a) k CapF.LD 1 →
      spansOf kRead (lineParts (baseAddr s a) 3 k) s = .ok src s → spansOf kWrite (lineParts da 2 k) s = .ok dst s →
      (∀ sp ∈ src, sysSpace s sp.pa = true → isThread s.cur = true ∨ CapF.holds a CapF.SYS = true) →
      (∀ sp ∈ dst, sysSpace s sp.pa = true → isThread s.cur = true ∨ CapF.holds d CapF.SYS = true) →
      lockHit s da k true = false → lockHit s (baseAddr s a) k false = false → readSpans src s = .ok x t →
      moveOverlap (baseAddr s a) da n k x t = .ok y u → issueStore dst y false u = .ok () w →
      Issues s Rows.movb (Use.moving h) →
      exec (.movb h) s = .next (advance h (Use.moving h) next
        (count (modHere (fun x => writeG x h.a.toNat (stepPtr s a k)) (withG h (stepPtr s d k) w)))))

/-- O21. IPIN and CACHE: the pinning forms and the write-back act on the lines that pass their check, the other forms never
trap and pass over what they cannot reach. -/
def Obligations.PinAndCacheHeadsActOnTheirLines : Prop :=
  ∀ h s, let a := baseAddr s (gA s h)
    let n := h.im 15 0
    let soft (mk : Head → Instr) (r : Row) (kind : BitVec 8) (f : Nat → W64 → State → State) : Prop :=
      Issues s r (Use.ofRow r h) → exec (mk h) s = .next (advance h (Use.ofRow r h) .seq (softLines a n kind f s))
    (∀ ls t, Issues s Rows.ipinL1i (Use.ofRow Rows.ipinL1i h) → CheckPasses s (gA s h) a (64 * n) CapF.EXE 1 →
      checkedLines kExec (linesOf a n) s = .ok ls t →
      exec (.ipinL1i h) s = .next (advance h (Use.ofRow Rows.ipinL1i h) .seq
        (if isThread s.cur then t else ls.foldl (fun t l => fillL1i (coreNo s.cur) l.1 true t) t))) ∧
    (∀ ls t, Issues s Rows.ipinL2 (Use.ofRow Rows.ipinL2 h) → CheckPasses s (gA s h) a (64 * n) CapF.LD 1 →
      checkedLines kRead (linesOf a n) s = .ok ls t →
      exec (.ipinL2 h) s = .next (advance h (Use.ofRow Rows.ipinL2 h) .seq (ls.foldl (fun t l => fillL2 l.2 l.1 true t) t))) ∧
    (∀ ls t, Issues s Rows.cacheWb (Use.ofRow Rows.cacheWb h) → CheckPasses s (gA s h) a (64 * n) CapF.LD 1 →
      checkedLines kRead (linesOf a n) s = .ok ls t →
      (isThread s.cur = true ∨ ∀ l ∈ ls, ∀ e ∈ (coreOf s (coreNo s.cur)).sb, e.cid = s.cur → overlaps l.1 64 e.pa e.n = false) →
      exec (.cacheWb h) s = .next (advance h (Use.ofRow Rows.cacheWb h) .seq (ls.foldl (fun t l => writeBack l.1 t) t))) ∧
    soft .ipinPf1 Rows.ipinPf1 kExec (fun pa _ s => if mayRead s pa && !isThread s.cur then fillL1i (coreNo s.cur) pa false s else s) ∧
    soft .ipinPf2 Rows.ipinPf2 kRead (fun pa attr s => if mayRead s pa then fillL2 attr pa false s else s) ∧
    soft .ipinUn Rows.ipinUn 0 (fun pa _ s =>
      let s := if isThread s.cur then s else modCore (coreNo s.cur) (fun c => { c with l1i := c.l1i.filter fun (b, l) =>
        !(b == blockOf pa && l.any (·.pinned)) }) s
      modMs (fun m => { m with l2 := SMap.set none m.l2 (blockOf pa) ((SMap.get none m.l2 (blockOf pa)).map fun l => { l with pinned := none }) }) s) ∧
    soft .cacheInv Rows.cacheInv 0 (fun pa _ s =>
      if isThread s.cur then s else modCore (coreNo s.cur) (fun c =>
        let l := (SMap.get none c.l1 (blockOf pa)).map fun l => { l with valid := l.valid &&& l.owned }
        { c with l1 := SMap.set none c.l1 (blockOf pa) (l.filter fun l => l.valid != 0) }) s) ∧
    soft .cachePf1 Rows.cachePf1 kRead (fun pa attr s =>
      if mayRead s pa && cacheable s attr pa && !isThread s.cur then l1Fill (coreNo s.cur) pa s else s) ∧
    soft .cachePf2 Rows.cachePf2 kRead (fun pa attr s => if mayRead s pa then fillL2 attr pa false s else s)

/-! ### Atomics, full/empty words and barriers (R401 to R412) -/

/-- O22. AMO and ACAS return the old value, ordered as ORD says; an atomic that its home holds stays outstanding (R225). The step
at the home gives what memory held and writes what R402 gives for F, or for ACAS the new value when the old one is the
expected one. -/
def Obligations.AtomicsReadAndWriteTheirHome : Prop :=
  (∀ h s pa attr,
      let w := amoW h
      let scope := amoScope h
      let ea := baseAddr s (gA s h)
      let y := (gB s h).val.toNat % 2 ^ (8 * w)
      let s1 := if amoRel h then releaseBegin scope s else s
      let acq (t : State) : State := if amoAcq h then acquire scope t else t
      let give (x : Nat) (t : State) : State := withPend (dstG h.d) [{ pa := 0, n := w, known := some x }] (.int w true) 0 t
      let end_ : Next := if amoAcq h then .park else .seq
      let later (fin : Fin_) (p : Nat) (t : State) : State := withPend (dstG h.d) [{ pa := p, n := w, remote := true }] fin 0 t
      let free (p : Nat) : Prop := atomicReady p w s1 = .ok () s1 ∧ (isThread s1.cur = true ∨ ownSau s1 s1.cur p w = false)
      let amo (mk : Head → Instr) (r : Row) (u : Use) (a : Rmw) : Prop :=
        Issues s r u → CheckPasses s (gA s h) ea w (CapF.LD + CapF.ST) w →
        atomicAddr ea w (kRead ||| kWrite) s = .ok (pa, attr) s → (amoRel h = true → releaseReady s1 s1.cur scope = true) →
        (∀ p x t, placeOf s1 attr pa scope = .l1 p → rmwL1 a attr p false s1 = .ok (.val x) t →
          exec (mk h) s = .next (advance h u .seq (acq (give x t)))) ∧
        (∀ p x t, placeOf s1 attr pa scope = .home p → free p → rmwHome a attr p s1 = .ok (.val x) t →
          exec (mk h) s = .next (advance h u .seq (acq (give x t)))) ∧
        (∀ p t, placeOf s1 attr pa scope = .home p → free p → rmwHome a attr p s1 = .error (.wait .tag) t →
          exec (mk h) s = .next (advance h u end_ (acq (later (.rmw a false attr (.home p)) p t)))) ∧
        (∀ p x t, placeOf s1 attr pa scope = .sau p → atomicReady p w s1 = .ok () s1 →
          rmwSau a attr p (here s1).nextPend s1 = .ok (.val x) t → exec (mk h) s = .next (advance h u end_ (acq (give x t)))) ∧
        (∀ p t, placeOf s1 attr pa scope = .fau p → free p → rmwFau a p (here s1).nextPend s1 = .ok none t →
          exec (mk h) s = .next (advance h u end_ (acq (later (.int w true) pa t)))) ∧
        (∀ d off, placeOf s1 attr pa scope = .packet d off → routable s1 d = true → fencedBefore s1 s1.cur = false →
          exec (mk h) s = .next (advance h u end_ (acq (rmwPacket a d off scope (here s1).nextPend (later (.int w true) pa s1)))))
      let row (mk : Head → Instr) (r : Row) : Prop := amo mk r (Use.ofRow r h) ⟨h.f.toNat, false, w, y, 0, ea⟩
      row .aadd Rows.aadd ∧ row .aand Rows.aand ∧ row .aor Rows.aor ∧ row .axor Rows.axor ∧ row .amin Rows.amin ∧
      row .amax Rows.amax ∧ row .aminu Rows.aminu ∧ row .amaxu Rows.amaxu ∧ row .aswp Rows.aswp ∧ row .afadd Rows.afadd ∧
      row .afmax Rows.afmax ∧
      amo .acas Rows.acas (Use.ofRow Rows.acas h).readD ⟨0, true, w, y, (gD s h).val.toNat % 2 ^ (8 * w), ea⟩) ∧
   ((∀ a attr pa s, isThread s.cur = true → homeGate s s.cur pa 2 = .go → poisonAt s pa 4 = false → hmode attr ≠ 2 →
      s.ms.susp = [] → s.ms.flaw = [] →
      rmwHome a attr pa s = .ok (.val (homeBytes s pa a.w).1)
        (match rmwNew a (homeBytes s pa a.w).1 with
        | some y => homeWrite pa a.w y false none s.cur s
        | none => s)) ∧
    (∀ a x, a.cas = true → rmwNew a x = if x = a.e then some a.y else none) ∧
    (∀ a x, a.cas = false → rmwNew a x = some (amoNew a.f a.w x a.y)) ∧
    (∀ w x y, let X := BitVec.ofNat (8 * w) x
      let Y := BitVec.ofNat (8 * w) y
      let is (f : Nat) (v : BitVec (8 * w)) : Prop := BitVec.ofNat (8 * w) (amoNew f w x y) = v
      0 < w → x < 2 ^ (8 * w) → y < 2 ^ (8 * w) →
      is 0 (X + Y) ∧ is 1 (X &&& Y) ∧ is 2 (X ||| Y) ∧ is 3 (X ^^^ Y) ∧ is 8 Y ∧
      is 4 (if X.toInt < Y.toInt then X else Y) ∧ is 5 (if X.toInt < Y.toInt then Y else X) ∧
      is 6 (if X.toNat < Y.toNat then X else Y) ∧ is 7 (if X.toNat < Y.toNat then Y else X)))

/-- O23. RED completes without a result: on HBM at domain or system scope it enters a partial buffer, elsewhere it is the
atomic of its scope with no result. -/
def Obligations.ReductionsHaveNoResult : Prop :=
  ∀ h s pa attr,
    let w := amoW h
    let scope := amoScope h
    let ea := baseAddr s (gA s h)
    let a : Rmw := ⟨h.f.toNat, false, w, (gB s h).val.toNat % 2 ^ (8 * w), 0, ea⟩
    let s1 := if amoRel h then releaseBegin scope s else s
    let domain : Prop := 4 ≤ scope ∧ (spaceOf s1 pa = .hbm ∨ ∃ d off, off < hbmTop ∧ spaceOf s1 pa = .remote d off)
    let free (p : Nat) : Prop := atomicReady p w s1 = .ok () s1 ∧ (isThread s1.cur = true ∨ ownSau s1 s1.cur p w = false)
    let red (mk : Head → Instr) (r : Row) : Prop :=
      let u := Use.ofRow r h
      Issues s r u → CheckPasses s (gA s h) ea w CapF.ST w → atomicAddr ea w kWrite s = .ok (pa, attr) s →
      (amoRel h = true → releaseReady s1 s1.cur scope = true) →
      (domain → fencedBefore s1 s1.cur = false → exec (mk h) s = .next (advance h u .seq (redDomain a pa s1))) ∧
      (∀ p x t, ¬ domain → placeOf s1 attr pa scope = .home p → free p → rmwHome a attr p s1 = .ok (.val x) t →
        exec (mk h) s = .next (advance h u .seq t)) ∧
      (∀ p t, ¬ domain → placeOf s1 attr pa scope = .home p → free p → rmwHome a attr p s1 = .error (.wait .tag) t →
        exec (mk h) s = .next (advance h u .seq (withPend .none [{ pa := p, n := w, remote := true }] (.rmw a true attr (.home p)) 0 t))) ∧
      (∀ p x t, ¬ domain → placeOf s1 attr pa scope = .l1 p → rmwL1 a attr p false s1 = .ok (.val x) t →
        exec (mk h) s = .next (advance h u .seq t)) ∧
      (∀ p x t, ¬ domain → placeOf s1 attr pa scope = .sau p → atomicReady p w s1 = .ok () s1 →
        rmwSau a attr p syncRead s1 = .ok (.val x) t → exec (mk h) s = .next (advance h u .seq t)) ∧
      (∀ p t, ¬ domain → placeOf s1 attr pa scope = .fau p → free p → rmwFau a p syncRead s1 = .ok none t →
        exec (mk h) s = .next (advance h u .seq t)) ∧
      (∀ d off, ¬ domain → placeOf s1 attr pa scope = .packet d off → routable s1 d = true → fencedBefore s1 s1.cur = false →
        exec (mk h) s = .next (advance h u .seq (rmwPacket a d off scope syncRead s1)))
    red .redadd Rows.redadd ∧ red .redand Rows.redand ∧ red .redor Rows.redor ∧ red .redxor Rows.redxor ∧ red .redmin Rows.redmin ∧
    red .redmax Rows.redmax ∧ red .redminu Rows.redminu ∧ red .redmaxu Rows.redmaxu ∧ red .redfadd Rows.redfadd ∧
    red .redfmax Rows.redfmax

/-- O24. The full/empty heads on a scratchpad word that need not wait: TAKE empties a full word, PEEK leaves it full,
TRYTAKE and FEGET never wait, PUT fills an empty word, FPUT any, FCLR empties; the bank then serves its recorded waiters.
The reading heads have their result outstanding, and are acquires; the writing ones are releases first. -/
def Obligations.FullEmptyHeadsActOnTheBit : Prop :=
  ∀ h s pa, let scope := h.im 2 0
    let s1 := releaseBegin scope s
    let x := Machine.peek s pa 4
    let full := fullBit s pa
    let emptied := feServe pa 16 (setFull pa false s)
    let late (v : Nat) (t : State) : State := withLate h.d (BitVec.ofNat 64 v) 0 t
    let ready (t : State) : Prop := atomicReady pa 4 t = .ok () t ∧ accessStatus t t.cur pa = 0
    let reads (mk : Head → Instr) (r : Row) (p : Nat) (kind : BitVec 8) (t : State) : Prop :=
      Issues s r (Use.ofRow r h) → feWord h p kind s = .ok pa s → exec (mk h) s = .next (advance h (Use.ofRow r h) .seq t)
    let writes (mk : Head → Instr) (r : Row) (t : State) : Prop :=
      Issues s r (Use.ofRow r h).srcD → feWord h CapF.ST kWrite s = .ok pa s →
      exec (mk h) s = .next (advance h (Use.ofRow r h).srcD .seq t)
    let fill (v : Nat) (t : State) : State := feServe pa 16 (setFull pa true (memWrite pa 4 v false none t))
    (here s).granted = false →
    (ready s →
      (full = true → reads .take Rows.take (CapF.LD + CapF.ST) (kRead ||| kWrite) (late x (acquire scope emptied))) ∧
      (full = true → reads .peek Rows.peek CapF.LD kRead (late x (acquire scope s))) ∧
      (full = true → reads .trytake Rows.trytake (CapF.LD + CapF.ST) (kRead ||| kWrite) (late (x + 2 ^ 32) (acquire scope emptied))) ∧
      (full = false → reads .trytake Rows.trytake (CapF.LD + CapF.ST) (kRead ||| kWrite) (late 0 s)) ∧
      reads .feget Rows.feget CapF.LD kRead (late (if full then x + 2 ^ 32 else x) (acquire scope s))) ∧
    (ready s1 → releaseReady s1 s1.cur scope = true →
      let v := (gD s1 h).val.toNat % 2 ^ 32
      (fullBit s1 pa = false → writes .put Rows.put (fill v s1)) ∧
      writes .fput Rows.fput (fill v s1) ∧
      writes .fclr Rows.fclr (feServe pa 16 (setFull pa false s1)))

/-- O25. Sweep barriers complete with the episode of the arrival, a domain barrier with the BARB of its epoch; GANG and BARMAX
are illegal outside a sweep of gangs, and the sixteenth arrival releases the strip. -/
def Obligations.BarriersCountTheirArrivals : Prop :=
   ((∀ h s, h.b ≠ 1 →
      let lv := h.d.toNat
      let f := firOf s s.cur
      let u (r : Row) : Use := Use.ofRow r h
      let count (t : State) : State := modFir t.cur (fun f => { f with arrivals := SMap.set 0 f.arrivals lv (SMap.get 0 f.arrivals lv + 1) }) t
      let close (t : State) : State := modFir t.cur (fun f => { f with openBarin := SMap.set 0 f.openBarin lv 0 }) t
      (sweepOf s f = none →
        (Issues s Rows.bar (u Rows.bar) → exec (.bar h) s = .next (advance h (u Rows.bar) .seq s)) ∧
        (SMap.get 0 f.openBarin lv ≠ 0 → Issues s Rows.barwt (u Rows.barwt) →
          exec (.barwt h) s = .next (advance h (u Rows.barwt) .seq (close s))) ∧
        (Issues s Rows.barin (u Rows.barin) → exec (.barin h) s = .next (advance h (u Rows.barin) .seq
          (modFir (count s).cur (fun g => { g with openBarin := SMap.set 0 g.openBarin lv (SMap.get 0 f.arrivals lv + 1) }) (count s))))) ∧
      (∀ w, sweepOf s f = some w → let scope := rangeScope w.header
        let s1 := releaseBegin scope s
        let k := SMap.get 0 (firOf s1 s1.cur).arrivals lv + 1
        let arrived := arriveBar w lv k (firOf (count s1) s1.cur) (count s1)
        (here s).granted = false → releaseReady s1 s1.cur scope = true →
        (barDone arrived w lv k (firOf arrived arrived.cur) = true → Issues s Rows.bar (u Rows.bar) →
          exec (.bar h) s = .next (advance h (u Rows.bar) .seq (acquire scope arrived))) ∧
        (barDone arrived w lv k (firOf arrived arrived.cur) = false → Issues s Rows.bar (u Rows.bar) →
          exec (.bar h) s = .next (beginWait s.cur (.barrier lv k) arrived)) ∧
        (Issues s Rows.barin (u Rows.barin) → exec (.barin h) s = .next (advance h (u Rows.barin) .seq
          (modFir arrived.cur (fun f => { f with openBarin := SMap.set 0 f.openBarin lv k }) arrived)))) ∧
      (∀ w, sweepOf s f = some w → SMap.get 0 f.openBarin lv ≠ 0 → barDone s w lv (SMap.get 0 f.openBarin lv) f = true →
        Issues s Rows.barwt (u Rows.barwt) →
        exec (.barwt h) s = .next (advance h (u Rows.barwt) .seq (acquire (rangeScope w.header) (close s)))) ∧
      (SMap.get 0 f.openBarin lv = 0 → Issues s Rows.barwt (u Rows.barwt) → exec (.barwt h) s = .next (trapAt s 0x02 0 0x0A))) ∧
    (∀ h s, h.b = 1 →
      let scope := h.d.toNat
      let i := (opA s h).toNat % 64
      let s1 := releaseBegin scope s
      let e := domEntry s1 i
      let arrived := setDom i (domWith e 1 (domEpoch e) (domCount e + 1)) s1
      let k := SMap.get 0 (firOf s s.cur).openBarin (64 + i)
      let u (r : Row) : Use := Use.ofRow r h
      ((domEntry s i).getLsbD 63 = true → releaseReady s1 s1.cur scope = true → domState e ≠ 2 →
        ((here s).wait = .none → Issues s Rows.bar (u Rows.bar) →
          exec (.bar h) s = .next (beginWait s.cur (.domBarrier i (domEpoch e)) arrived)) ∧
        (Issues s Rows.barin (u Rows.barin) → exec (.barin h) s = .next (advance h (u Rows.barin) .seq
          (modFir arrived.cur (fun f => { f with openBarin := SMap.set 0 f.openBarin (64 + i) (domEpoch e + 1) }) arrived)))) ∧
      (∀ ep, (domEntry s i).getLsbD 63 = true → (here s).wait = .domBarrier i ep → ep < 256 → domEpoch (domEntry s i) ≠ ep →
        Issues s Rows.bar (u Rows.bar) → exec (.bar h) s = .next (advance h (u Rows.bar) .seq (acquire scope s))) ∧
      ((domEntry s i).getLsbD 63 = true → k ≠ 0 → domEpoch (domEntry s i) ≠ k - 1 → Issues s Rows.barwt (u Rows.barwt) →
        exec (.barwt h) s = .next (advance h (u Rows.barwt) .seq
          (acquire scope (modFir s.cur (fun f => { f with openBarin := SMap.set 0 f.openBarin (64 + i) 0 }) s)))) ∧
      ((domEntry s i).getLsbD 63 = false →
        (Issues s Rows.bar (u Rows.bar) → exec (.bar h) s = .next (trapAt s 0x02 0 0x0A)) ∧
        (Issues s Rows.barin (u Rows.barin) → exec (.barin h) s = .next (trapAt s 0x02 0 0x0A)) ∧
        (Issues s Rows.barwt (u Rows.barwt) → exec (.barwt h) s = .next (trapAt s 0x02 0 0x0A))))) ∧
  (∀ h s, let core := coreNo s.cur
      let strip := stripNo core
      let s1 := releaseBegin 1 s
      let uB := Use.ofRow Rows.barmax h
      let a1 := modStrip strip (fun t => { t with gang := t.gang.filter (·.1 != rankNo core) ++ [(rankNo core, s1.cur)] }) (gangOpen strip s1)
      let a2 := modStrip strip (fun t => { t with barmax := t.barmax.filter (·.1 != rankNo core) ++ [(rankNo core, s1.cur, opA s1 h)] })
        (gangOpen strip s1)
      let max : Nat := (stripOf a2 strip).barmax.foldl (fun m a => Nat.max m a.2.2.toNat) 0
      (gangFiring s = false → (Issues s Rows.gang {} → exec (.gang h) s = .next (trapAt s 0x02 0 0x02)) ∧
        (Issues s Rows.barmax uB → exec (.barmax h) s = .next (trapAt s 0x02 0 0x02))) ∧
      (gangFiring s = true → (here s).granted = false → releaseReady s1 s1.cur 1 = true →
        (Issues s Rows.gang {} → (stripOf a1 strip).gang.length = 16 →
          exec (.gang h) s = .next (advance h {} .seq (modFir s1.cur (fun f => { f with gangPassed := true, mmaOrd := 0 })
            (acquire 1 (gangRelease strip ((stripOf a1 strip).gang.map (·.2)) 0 a1))))) ∧
        (Issues s Rows.gang {} → (stripOf a1 strip).gang.length ≠ 16 → exec (.gang h) s = .next (beginWait s.cur .gang a1)) ∧
        (Issues s Rows.barmax uB → (stripOf a2 strip).barmax.length = 16 →
          exec (.barmax h) s = .next (advance h uB .seq (withLate h.d (BitVec.ofNat 64 max) 0
            (acquire 1 (gangRelease strip ((stripOf a2 strip).barmax.map (·.2.1)) max a2)))))) ∧
      (gangFiring s = true → (here s).granted = true → (here s).wait = .gang →
        (Issues s Rows.gang {} → exec (.gang h) s = .next (advance h {} .seq
          (modFir s.cur (fun f => { f with gangPassed := true, mmaOrd := 0 }) (acquire 1 s))))))

/-! ### Messages (R413 to R417) -/

/-- O26. SEND, NPUT, PUSH and CONSUME post what they send after their release; NPUT.ARM arms a register once no result for
it is outstanding. -/
def Obligations.MessageHeadsPostTheirMessage : Prop :=
  ∀ h s, let f := firOf s s.cur
    let core := coreNo s.cur
    let n := h.im 3 0
    let regs := (List.range n).map fun k => h.d.toNat + k
    let uS : Use := { rg := [h.a.toNat, h.b.toNat] ++ regs }
    let sends (mk : Head → Instr) (r : Row) (form : Nat) : Prop := ∀ t word, h.im 4 4 = 0 →
      Issues s r uS → CheckPasses s (gA s h) (CapF.addr (gA s h)) 64 CapF.EXE 64 → sendTarget h form s = .ok (t, word) s →
      outboundHeld s core < 16 →
      let scope : Nat := match t with
        | .core _ => 3
        | .device _ _ _ => 4
      let s1 := releaseBegin scope s
      let f := firOf s1 s1.cur
      releaseReady s1 s1.cur scope = true →
      exec (mk h) s = .next (advance h uS .seq (postMsg t
        { line := CapF.addr (gA s h), target := word, sender := f.handle, asid := (here s).asid,
          payload := (regs.map fun k => readG (here s) k) ++ List.replicate (8 - n) Cap.null,
          reply := decide (form = 2), quiet := none, fn := f.fn, queue := f.queue } s1))
    sends .send Rows.send 0 ∧ sends .sendC Rows.sendC 1 ∧ sends .sendR Rows.sendR 2 ∧
    (∀ word, let s1 := releaseBegin 1 s
      let uN : Use := { rg := [h.b.toNat, h.a.toNat] }
      h.im 3 3 = 0 → (gB s h).val.toNat % 2 ^ 37 = word → Issues s Rows.nput uN → releaseReady s1 s1.cur 1 = true →
      handleDev word = s1.dev → neighbour (coreNo s1.cur) (h.im 1 0) = some (handleCore word) →
      exec (.nput h) s = .next (advance h uN .seq
        (postNet (.nwrite (handleCid word) word false h.d.toNat (gA s1 h) 0 (firOf s1 s1.cur).handle) s1))) ∧
    (let isV := h.im 3 3 == 1
      let u : Use := if isV then { nv := [h.d.toNat] } else { ng := [h.d.toNat] }
      Issues s Rows.nputArm u → (here s).pend.any (pendIn isV h.d.toNat (h.d.toNat + 1)) = false →
      exec (.nputArm h) s = .next (advance h u .seq (modHere (armReg isV h.d.toNat) s))) ∧
    (∀ b spans x t, let k := h.d.toNat
      let c := gA s h
      let out := f.actor.outs.getD k 0
      let bytes := (gB s h).val.toNat
      let s1 := releaseBegin 3 s
      let u := Use.ofRow Rows.push h
      Issues s Rows.push u → bindingOf f = some b → b < 16 → fifoUsed out = true → bytes ∈ [8, 16, 32, 64, 128, 256, 512] →
      1 ≤ credOf s core b k → Accessible s c (CapF.addr c) bytes CapF.LD 8 kRead false spans →
      releaseReady s1 s1.cur 3 = true → readSpans spans s1 = .ok x t →
      exec (.push h) s = .next (advance h u .seq
        (postNet (.fifo core (fifoCore out) (fifoNum out) (leBytes bytes x) (f.fn, f.queue)) (setCred core b k (credOf s core b k - 1) t)))) ∧
    (let inp := f.actor.ins.getD h.d.toNat 0
      let bytes := if h.form == .T2 then h.im 15 0 else (gB s h).val.toNat
      let e := fifoOf s core (fifoNum inp)
      let s1 := releaseBegin 3 s
      let u := Use.ofRow Rows.consume h
      Issues s Rows.consume u → (bindingOf f).isSome = true → fifoUsed inp = true → bytes ≤ fifoCnt e → releaseReady s1 s1.cur 3 = true →
      exec (.consume h) s = .next (advance h u .seq (postNet (.credit (fifoPcore e) core (fifoNum inp) bytes)
        (setFifo core (fifoNum inp) (fifoWith e (fifoCnt e - bytes) ((fifoHead e + bytes) % fifoCap e) (fifoTail e)) s1))))

/-! ### Vector heads (R420 to R446) -/

/-- O27. The heads that work element by element: active elements hold the operation's result, inactive ones 0 under MZ and
else what they held; the flags of the active elements join FPFLAGS. Float types are computed exactly and rounded once,
integers wrap. -/
def Obligations.VectorHeadsComputeEachElement : Prop :=
  let lanes (mk : Head → Instr) (r : Row) (t : Head → Nat) (readsD : Bool) (f : Head → Nat → Nat → Nat → Nat × FFlags) : Prop :=
    ∀ h s, let u0 := (Use.ofRow r h).vecB h
      let u := if readsD then u0.readD else u0.merged h
      let w := tyBits (t h)
      let ys := ((elemsOf w (readV (here s) h.a.toNat)).zip ((vecB s h w).zip (elemsOf w (readV (here s) h.d.toNat)))).map
        fun (x, y, z) => f h x y z
      Issues s r u → Unbound s u → exec (mk h) s = .next (advance h u .seq
        (withFlags (activeFlags s h w ys) (withV h (ofElems w (maskedElems s h w (ys.map (·.1)))) s)))
  let elem (fl : Val → Val → Val → Val × FFlags) (int : Int → Int → Int → Int) (h : Head) (x y z : Nat) : Nat × FFlags :=
    let t := h.f.toNat
    let w := tyBits t
    if t ≤ 2 then
      let v := fl (decodeIeee (tyIeee t) x) (decodeIeee (tyIeee t) y) (decodeIeee (tyIeee t) z)
      ((roundIeee (tyIeee t) v.1).1, v.2 ||| (roundIeee (tyIeee t) v.1).2)
    else ((BitVec.ofInt w (int (signedOf w x) (signedOf w y) (signedOf w z))).toNat, 0)
  let arithm (mk : Head → Instr) (r : Row) (readsD : Bool) (fl : Val → Val → Val → Val × FFlags) (int : Int → Int → Int → Int) : Prop :=
    lanes mk r (fun h => h.f.toNat) readsD (elem fl int)
  let logic (mk : Head → Instr) (r : Row) (f : BitVec 32 → BitVec 32 → BitVec 32) : Prop :=
    lanes mk r (fun _ => 3) false fun _ x y _ => ((f (BitVec.ofNat 32 x) (BitVec.ofNat 32 y)).toNat, 0)
  let shift (mk : Head → Instr) (r : Row) (f : (w : Nat) → BitVec w → Nat → BitVec w) : Prop :=
    ∀ h s, let w := tyBits h.f.toNat
      let ia := h.im 14 14 == 1
      let u0 := if ia then Use.ofRow r h else (Use.ofRow r h).vecB h
      let a := elemsOf w (readV (here s) h.a.toNat)
      let b := if ia then a.map fun _ => h.im 13 9 else vecB s h w
      Issues s r (u0.merged h) → Unbound s (u0.merged h) →
      exec (mk h) s = .next (advance h (u0.merged h) .seq (withV h (ofElems w (maskedElems s h w
        ((a.zip b).map fun (x, n) => (f w (BitVec.ofNat w x) (n % w)).toNat))) s))
  (∀ s h w xs e, w = 16 ∨ w = 32 → xs.length = 1024 / w → e < 1024 / w →
    (elemsOf w (ofElems w (maskedElems s h w xs))).getD e 0 =
      if laneActive s h (w * e / 32) then xs.getD e 0 % 2 ^ w
      else if h.im 4 4 = 1 then 0 else (elemsOf w (readV (here s) h.d.toNat)).getD e 0) ∧
  arithm .vadd Rows.vadd false (fun a b _ => addVal a b) (fun a b _ => a + b) ∧
  arithm .vsub Rows.vsub false (fun a b _ => addVal a b.neg) (fun a b _ => a - b) ∧
  arithm .vmul Rows.vmul false (fun a b _ => mulVal a b) (fun a b _ => a * b) ∧
  arithm .vfma Rows.vfma true fmaVal (fun a b d => a * b + d) ∧
  arithm .vfms Rows.vfms true (fun a b d => fmaVal a.neg b d) (fun a b d => d - a * b) ∧
  arithm .vmin Rows.vmin false (fun a b _ => (minVal a b, 0)) (fun a b _ => if b < a then b else a) ∧
  arithm .vmax Rows.vmax false (fun a b _ => (maxVal a b, 0)) (fun a b _ => if a < b then b else a) ∧
  logic .vand Rows.vand (fun a b => a &&& b) ∧ logic .vor Rows.vor (fun a b => a ||| b) ∧
  logic .vxor Rows.vxor (fun a b => a ^^^ b) ∧ logic .vandn Rows.vandn (fun a b => a &&& ~~~b) ∧
  shift .vshl Rows.vshl (fun _ x n => x <<< n) ∧ shift .vshr Rows.vshr (fun _ x n => x >>> n) ∧
  shift .vsra Rows.vsra (fun _ x n => x.sshiftRight n)

/-- O28. The heads on masks, and those that select and move lanes (R425 to R427, R431 to R434). -/
def Obligations.MaskAndLaneHeadsWriteTheirResult : Prop :=
  let masks (mk : Head → Instr) (r : Row) (f : BitVec 32 → BitVec 32 → BitVec 32) : Prop :=
    Effects mk r fun h s => withM h (f (readM (here s) h.a.toNat) (readM (here s) h.b.toNat)) s
  let moves (mk : Head → Instr) (r : Row) (f : Head → State → Nat → Nat → Nat) : Prop :=
    ∀ h s, let u := (Use.ofRow r h).merged h
      let w := if h.im 8 6 = 1 then 16 else 32
      Issues s r u → Unbound s u → exec (mk h) s = .next (advance h u .seq
        (withV h (ofElems w (maskedElems s h w ((List.range (1024 / w)).map (f h s w)))) s))
  (∀ h s, let u := (Use.ofRow Rows.vcmp h).vecB h
    let t := h.im 8 6
    let w := tyBits t
    Issues s Rows.vcmp u → Unbound s u → ∃ m : BitVec 32,
      exec (.vcmp h) s = .next (advance h u .seq (withM h m s)) ∧
      ∀ k < 32, m.getLsbD k = (laneActive s h k && decide (∀ e < 1024 / w, w * e / 32 = k →
        vcmpHolds t (h.im 12 9) ((elemsOf w (readV (here s) h.a.toNat)).getD e 0) ((vecB s h w).getD e 0) = true))) ∧
  (∀ h s, let u := (Use.ofRow Rows.vsel h).vecB h
    Issues s Rows.vsel u → Unbound s u → ∃ v : VReg,
      exec (.vsel h) s = .next (advance h u .seq (withV h v s)) ∧
      ∀ k < 32, (lane v k).toNat =
        if (readM (here s) (h.im 2 0)).getLsbD k then (lane (readV (here s) h.a.toNat) k).toNat else (vecB s h 32).getD k 0) ∧
  masks .mand Rows.mand (fun a b => a &&& b) ∧ masks .mor Rows.mor (fun a b => a ||| b) ∧
  masks .mxor Rows.mxor (fun a b => a ^^^ b) ∧ masks .mnot Rows.mnot (fun a _ => ~~~a) ∧
  Effects .mpop Rows.mpop (fun h s =>
    withInt h (BitVec.ofNat 64 ((List.range 32).countP fun k => (readM (here s) h.a.toNat).getLsbD k)) s) ∧
  (∀ h s, Issues s Rows.mfirst (Use.ofRow Rows.mfirst h) → ∃ n, n ≤ 32 ∧
    exec (.mfirst h) s = .next (advance h (Use.ofRow Rows.mfirst h) .seq (withInt h (BitVec.ofNat 64 n) s)) ∧
    (∀ k < n, (readM (here s) h.a.toNat).getLsbD k = false) ∧ (n < 32 → (readM (here s) h.a.toNat).getLsbD n = true)) ∧
  moves .vperm Rows.vperm (fun h s w e => let i := (elemsOf w (readV (here s) h.b.toNat)).getD e 0
    if 2 ^ (w - 1) ≤ i then 0 else (elemsOf w (readV (here s) h.a.toNat)).getD (i % (1024 / w)) 0) ∧
  moves .vbcast Rows.vbcast (fun h s w _ => (gA s h).val.toNat % 2 ^ w) ∧
  (∀ h s, let u := Use.ofRow Rows.vextr h
    let w := if h.im 6 6 = 1 then 16 else 32
    let i := if h.b = 0 then h.im 5 0 else (gB s h).val.toNat % (1024 / w)
    let x := (elemsOf w (readV (here s) h.a.toNat)).getD i 0
    Issues s Rows.vextr u → Unbound s u → exec (.vextr h) s = .next (advance h u .seq
      (withInt h (if h.im 7 7 = 1 then BitVec.ofInt 64 (signedOf w x) else BitVec.ofNat 64 x) s))) ∧
  (∀ h s, let u := (Use.ofRow Rows.vins h).readD
    let w := if h.im 6 6 = 1 then 16 else 32
    let i := if h.b = 0 then h.im 5 0 else (gB s h).val.toNat % (1024 / w)
    Issues s Rows.vins u → Unbound s u → exec (.vins h) s = .next (advance h u .seq
      (withV h (ofElems w ((elemsOf w (readV (here s) h.d.toNat)).set i ((gA s h).val.toNat % 2 ^ w))) s)))

/-- O29. Functions, reductions and scans. The integer reductions are exact over the active elements; a scan gives at each
active element the combination of the active elements up to it. -/
def Obligations.FunctionsReductionsAndScans : Prop :=
  let act (h : Head) (s : State) (w : Nat) : List (Nat × Bool) :=
    (elemsOf w (readV (here s) h.a.toNat)).zipIdx.map fun (x, e) => (x, laneActive s h (laneOf w e))
  let fn (mk : Head → Instr) (r : Row) (f : Nat → Val × FFlags) : Prop :=
    ∀ h s, let u := (Use.ofRow r h).merged h
      let w := tyBits (h.im 8 6)
      let ys := (elemsOf w (readV (here s) h.a.toNat)).map (fnElem (h.im 8 6) f)
      Issues s r u → Unbound s u → exec (mk h) s = .next (advance h u .seq
        (withFlags (activeFlags s h w ys) (withV h (ofElems w (maskedElems s h w (ys.map (·.1)))) s)))
  let red (mk : Head → Instr) (r : Row) (op : Nat) (ident : Nat → Int) (f : List Int → Int → Prop) : Prop :=
    ∀ h s, let u := Use.ofRow r h
      let t := h.im 8 6
      let w := tyBits t
      let xs := act h s w
      Issues s r u → Unbound s u →
      (2 < t → ∃ v, exec (mk h) s = .next (advance h u .seq (withInt h (BitVec.ofInt 64 v) s)) ∧
        let ns := (xs.filter (·.2)).map fun x => signedOf w x.1
        if ns = [] then v = ident w else f ns v) ∧
      (t ≤ 2 →
        let o := (treeFold (combineF op) 6 (xs.map fun x => if x.2 then some (widenF t x.1, (0 : FFlags)) else none)).getD (identF op, 0)
        exec (mk h) s = .next (advance h u .seq (withFlags (o.2 &&& (fOF ||| fNX ||| fNV)) (withInt h (BitVec.ofNat 64 o.1) s))))
  fn .vrcp Rows.vrcp vrcp ∧ fn .vrsq Rows.vrsq vrsq ∧ fn .vexp2 Rows.vexp2 vexp2 ∧ fn .vlog2 Rows.vlog2 vlog2 ∧
  fn .vsqrt Rows.vsqrt (fun x => vsqrt (decodeIeee fp32 x)) ∧ fn .vtanh Rows.vtanh vtanh ∧
  red .vredsum Rows.vredsum 0 (fun _ => 0) (fun ns v => v = ns.sum) ∧
  red .vredmax Rows.vredmax 1 (fun w => -(2 ^ (w - 1) : Nat)) (fun ns v => v ∈ ns ∧ ∀ x ∈ ns, x ≤ v) ∧
  red .vredmin Rows.vredmin 2 (fun w => 2 ^ (w - 1) - 1) (fun ns v => v ∈ ns ∧ ∀ x ∈ ns, v ≤ x) ∧
  (∀ h s, let u0 := (Use.ofRow Rows.vscan h).merged h
    let u := if h.im 12 12 == 1 then u0.andG [h.b.toNat] else u0
    let t := h.im 8 6
    let w := tyBits t
    let op := h.im 10 9
    let ex := h.im 11 11 == 1
    let carry := (gB s h).val.toNat
    Issues s Rows.vscan u → Unbound s u →
    (2 < t → exec (.vscan h) s = .next (advance h u .seq (withV h (ofElems w (maskedElems s h w
      (scanI w op ex (act h s w) (if h.im 12 12 == 1 then signedOf w carry else identI op w)))) s))) ∧
    (t ≤ 2 → let o := scanF t op ex (act h s w) (if h.im 12 12 == 1 then carry % 2 ^ 32 else identF op, 0)
      exec (.vscan h) s = .next (advance h u .seq (withFlags o.2 (withV h (ofElems w (maskedElems s h w o.1)) s))))) ∧
  (∀ w ex xs acc e, e < xs.length → (scanI w 0 ex xs acc).getD e 0 =
    if (xs.getD e (0, false)).2 then
      ((acc + (((xs.take (if ex then e else e + 1)).filter (·.2)).map fun x => signedOf w x.1).sum) % (2 ^ w : Nat)).toNat
    else 0)

/-- O30. VLD and VST in their three forms: the active lanes' accesses are checked in the order of R436, then the loads are
outstanding for vD, whose other lanes hold 0 or what they held, or the stores enter the buffer. The converting forms work
on tensor elements (R438). -/
def Obligations.VectorLoadsAndStoresAccessTheirLanes : Prop :=
  ∀ h s, let ks := activeLanes s h
    let accs : List LaneAcc := ks.map fun k => { lane := k, va := laneAddr s h k, n := 4 }
    let plainLd (mk : Head → Instr) (r : Row) : Prop := ∀ spans ps t, Issues s r (vldUse r h) → Unbound s (vldUse r h) →
      laneAccess (gA s h) false none accs s = .ok spans s → loadPieces spans s = .ok ps t → Unbound t (vldUse r h) →
      exec (mk h) s = .next (advance h (vldUse r h) .seq
        (sendReads (here t).nextPend ps (withPend (.v h.d.toNat) ps (.lanes ks (loadKeeps s h)) 0 t)))
    let plainSt (mk : Head → Instr) (r : Row) (join : Bool) : Prop := ∀ spans t, let u := (Use.ofRow r h).srcD
      Issues s r u → Unbound s u → laneAccess (gA s h) true none accs s = .ok spans s →
      pushStores (partEntries s join (spans.zip (ks.map fun k => (lane (readV (here s) h.d.toNat) k).toNat))) s = .ok () t →
      Unbound t u → exec (mk h) s = .next (advance h u .seq t)
    (∀ k, laneAddr s h k = (((CapF.addr (gA s h) : Int) + (if h.f = 0 then ((gB s h).val.toNat + 4 * (k : Nat) : Int)
      else if h.f = 1 then k * (gB s h).val.toInt else (lane (readV (here s) h.b.toNat) k).toInt * (2 ^ h.im 6 5 : Nat))) %
        (2 ^ 57 : Nat)).toNat) ∧
    (h.im 7 7 = 0 → plainLd .vld Rows.vld) ∧ plainLd .vldS Rows.vldS ∧ plainLd .vldG Rows.vldG ∧
    (h.im 7 7 = 0 → plainSt .vst Rows.vst true) ∧ plainSt .vstS Rows.vstS false ∧ plainSt .vstX Rows.vstX false ∧
    (∀ f t, h.im 7 7 = 1 → Issues s Rows.vld (vldUse Rows.vld h) → Unbound s (vldUse Rows.vld h) → fmtCheck (gA s h) s = .ok f s →
      tensorLoad (gA s h) f (cvFirst s h f) h.d.toNat 1 ks (loadKeeps s h) s = .ok () t → Unbound t (vldUse Rows.vld h) →
      exec (.vld h) s = .next (advance h (vldUse Rows.vld h) .seq t)) ∧
    (∀ t, let u := (Use.ofRow Rows.vst h).srcD
      h.im 7 7 = 1 → Issues s Rows.vst u → Unbound s u → vstCv h s = .ok () t → Unbound t u →
      exec (.vst h) s = .next (advance h u .seq t))

/-- O31. VCVT converts the active positions and leaves the others, VQNT writes codes and scale bytes, VDEQ loads a tensor's
elements; rounding to an IEEE format is to nearest within half a unit of the last place. -/
def Obligations.ConversionsRoundToNearest : Prop :=
   ((∀ h s, let u := (Use.ofRow Rows.vcvt h).readD
      let dst := h.im 11 9
      let fr := h.im 8 6
      let q := h.im 5 4
      let f := readF (here s) (h.im 15 12)
      let sw := cvBits fr f
      let dw := cvBits dst f
      let nar := dst = 5 ∨ fr = 5
      let src := elemsOf sw (readV (here s) h.a.toNat)
      let act (p : Nat × Nat) : Bool := laneActive s h (if fr == 5 then laneOf dw p.2 else laneOf sw p.1)
      let ys := ((cvPairs dst fr q dw sw).filter act).map fun (i, j) => (j, cvElem dst fr f (src.getD i 0))
      Issues s Rows.vcvt u → Unbound s u →
      ((nar → Fmt.cls f = 1 ∧ q * (1024 / (if dst == 5 then sw else dw)) < 1024 / (if dst == 5 then dw else sw)) →
        exec (.vcvt h) s = .next (advance h u .seq (withFlags (ys.foldl (fun g y => g ||| y.2.2) 0)
          (withV h (ofElems dw (ys.foldl (fun d (j, y, _) => d.set j y) (elemsOf dw (readV (here s) h.d.toNat)))) s)))) ∧
      (nar → Fmt.cls f ≠ 1 → exec (.vcvt h) s = .next (trapAt s 0x02 0 5))) ∧
    (∀ h s f, let regs := 2 ^ h.im 1 0
      let gs := h.im 2 2 == 1
      let u0 : Use := { rg := [h.b.toNat], rv := (List.range regs).map (h.a.toNat + ·), wg := [h.d.toNat] }
      let u := if gs then u0.readD else u0
      let c := gB s h
      let e := 32 * regs
      let blk := 2 ^ CapF.k c
      let per := Nat.min blk e
      let j0 := elemIndex f c (CapF.addr c)
      let xs := ((List.range regs).map fun i => (elemsOf 32 (readV (here s) (h.a.toNat + i))).map (decodeIeee fp32)).flatten
      let parts := chunksOf per (e / per) xs
      let largest (ns : List Nat) (t : State) : State :=
        withPend (dstG h.d) [] (.cst (Cap.ofInt (BitVec.ofNat 64 (ns.foldl Nat.max 0)))) 6 t
      Issues s Rows.vqnt u → Unbound s u → fmtCheck c s = .ok f s → Fmt.cls f = 1 → scaled c = true →
      (blk ≤ e ∨ gs = true ∨ h.im 3 3 = 1) → j0 % (per : Nat) = 0 →
      (h.im 3 3 = 1 → c.tag = true → exec (.vqnt h) s = .next (advance h u .seq
        (largest (parts.map fun p => (quantBlock f p none).1) s))) ∧
      (∀ spans t, let given := (gD s h).val.toNat % 256
        let rs := parts.map fun p => if e < blk then quantPart f p given else quantBlock f p (if gs then some given else none)
        let bytes := codeParts f (rs.map (·.2.1)).flatten
        let data : List LaneAcc := bytes.zipIdx.map fun (_, i) => { lane := 0, va := (((CapF.addr c : Int) + (i : Nat)) % (2 ^ 57 : Nat)).toNat, n := 1 }
        let scs : List LaneAcc := rs.zipIdx.map fun (_, i) => { lane := 0, va := scaleAddr c (j0 / (blk : Nat) + (i : Nat)), n := 1, data := false }
        h.im 3 3 = 0 → check c (CapF.addr c) bytes.length CapF.ST 1 s = .ok () s → laneAccess c true none (data ++ scs) s = .ok spans s →
        pushStores (partEntries s true (spans.zip (bytes ++ rs.map (·.1)))) s = .ok () t → Unbound t u →
        exec (.vqnt h) s = .next (advance h u .seq (largest (rs.map (·.1)) (withFlags (rs.foldl (fun g r => g ||| r.2.2) 0) t))))) ∧
    (∀ h s f t, let regs := 2 ^ h.im 1 0
      let u : Use := { rg := [h.a.toNat], wv := (List.range regs).map (h.d.toNat + ·) }
      let c := gA s h
      Issues s Rows.vdeq u → Unbound s u → fmtCheck c s = .ok f s →
      tensorLoad c f (elemIndex f c (CapF.addr c)) h.d.toNat regs (List.range (32 * regs)) 0 s = .ok () t → Unbound t u →
      exec (.vdeq h) s = .next (advance h u .seq t))) ∧
   (let rat (n : Bool) (m : Nat) (e : Int) : ℚ := (if n then -(m : ℚ) else m) * (2 : ℚ) ^ e
    (∀ f n m e, f = fp32 ∨ f = bf16 ∨ f = fp16 → m ≠ 0 →
      let r := roundIeee f (.num n m e)
      let p := topExp m e
      let q : Int := (if p < f.emin then f.emin else p) - f.mb
      r.2.getLsbD 2 = false → ∃ k d, decodeIeee f r.1 = .num n k d ∧
        2 * |rat n m e - rat n k d| ≤ (2 : ℚ) ^ q ∧ (r.2.getLsbD 0 = true ↔ rat n m e ≠ rat n k d)) ∧
    (∀ f c, f = fp32 ∨ f = bf16 ∨ f = fp16 → c < 2 ^ (1 + f.eb + f.mb) → (decodeIeee f c).isNan = false →
      roundIeee f (decodeIeee f c) = (c, 0)) ∧
    (∀ n m e k l d, ∃ b x y, addVal (.num n m e) (.num k l d) = (.num b x y, 0) ∧ rat b x y = rat n m e + rat k l d) ∧
    (∀ n m e k l d, ∃ b x y, mulVal (.num n m e) (.num k l d) = (.num b x y, 0) ∧ rat b x y = rat n m e * rat k l d))

/-- O32. SBIND binds a free unit to its pattern, SUNBIND frees it and zeroes the register, SSTAT reports it; a head that
reads a register bound to a read stream takes the next register of the pattern and moves the stream on by it. -/
def Obligations.StreamsAreBoundReadAndFreed : Prop :=
  (∀ h s x tag k, let core := coreNo s.cur
    let u : Use := { rg := if h.im 6 6 == 1 then [h.b.toNat] else [], nv := [h.d.toNat] }
    let word (o : Nat) : W64 := BitVec.ofNat 64 (x / 2 ^ (8 * o))
    let tcap : Cap := ⟨word 0, word 8, tag⟩
    let slot := (gB s h).val.toNat % 128
    let slices := (List.range 4).map (shapeSlice x (streamRank s))
    h.im 2 2 = 0 → h.im 7 7 = 0 → Issues s Rows.sbind u → unitOf s s.cur h.d.toNat = none →
    shapeAt (windowOf core + 0x3F080 + 128 * h.im 1 0) s = .ok (x, tag) s → shapeOk x = true →
    (h.im 6 6 = 1 → (SMap.get {} (stripOf s (stripNo core)).slots slot).st = .claimed ∧
      (SMap.get {} (stripOf s (stripNo core)).slots slot).asid = (here s).asid.toNat) →
    freeUnit s = some k →
    exec (.sbind h) s = .next (advance h u .seq (setUnit core k (some {
      cid := s.cur, v := h.d.toNat, tcap := tcap, dims := (List.range 4).map (shapeDim x), strs := (List.range 4).map (shapeStr x),
      starts := slices.map (·.1), lens := slices.map (·.2), esz := 2 ^ h.im 5 4, write := h.im 3 3 == 1, cv := false,
      fmt := 0, slot := if h.im 6 6 == 1 then some slot else none, pattern := leBytes 128 x }) s))) ∧
  (∀ h s, let u := (Use.ofRow Rows.sunbind h).nameV
    Issues s Rows.sunbind u →
    (unitOf s s.cur h.a.toNat = none → exec (.sunbind h) s = .next (advance h u .seq s)) ∧
    (∀ k su, unitOf s s.cur h.a.toNat = some (k, su) → (su.write = true → su.out = [] ∧ su.failed = none) →
      exec (.sunbind h) s = .next (advance h u .seq (zeroV h.a.toNat (setUnit (coreNo s.cur) k none s))))) ∧
  (∀ h s, let u := (Use.ofRow Rows.sstat h).nameV
    let w : W64 := match unitOf s s.cur h.a.toNat with
      | some (k, su) => sstatWord k su
      | none => 0
    Issues s Rows.sstat u →
    exec (.sstat h) s = .next (advance h u .seq (withPend (dstG h.d) [] (.cst (Cap.ofInt w)) 4 s))) ∧
  (∀ s v k su x t, unitOf s s.cur v = some (k, su) → su.write = false → popValue su s = .ok (x, none) t →
    popIn v s = .ok () (modHere (fun c => { c with v := SMap.set 0 c.v v x }) t) ∧
    popDone v s = .ok () (setUnit (coreNo s.cur) k (some (popped su)) s) ∧
    (popped su).pos = Nat.min (su.pos + SU.per su) (SU.total su))

/-! ### Operand slots, accumulators and MMA (R449 to R459) -/

/-- O33. Operand slots: SCLAIM takes a free slot for the firing's ASID, zero-filled unless that ASID held it last; SREL
frees it, once no MMA names it; SFMT sets its format; SLOAD loads eight rows. A slot not claimed in the ASID traps. -/
def Obligations.SlotHeadsActOnTheirSlot : Prop :=
  ∀ h s, let k := (opA s h).toNat % 128
    let u (r : Row) : Use := Use.ofRow r h
    let c := gB s h
    let f := fmtOf s c
    (Issues s Rows.sclaim (u Rows.sclaim) →
      ((slotNow s k).st = .free → exec (.sclaim h) s = .next (advance h (u Rows.sclaim) .seq
        (claimSlot (myStrip s) k (here s).asid.toNat s))) ∧
      ((slotNow s k).st = .claimed → exec (.sclaim h) s = .next (trapAt s 0x0F 0 0))) ∧
    (∀ t, t = claimSlot (myStrip s) k (here s).asid.toNat s →
      claimedHere t k = true ∧ (slotNow t k).fmt = none ∧ ((slotNow s k).asid ≠ (here s).asid.toNat →
        ∀ i < 16384, opByte (stripOf t (myStrip s)) false (k * 16384 + i) = 0)) ∧
    (Issues s Rows.srel (u Rows.srel) →
      (claimedHere s k = true → slotNamed s (myStrip s) k = false →
        exec (.srel h) s = .next (advance h (u Rows.srel) .seq (freeSlot (myStrip s) k s))) ∧
      (claimedHere s k = true → slotNamed s (myStrip s) k = true → exec (.srel h) s = .next (advance h (u Rows.srel) .seq
        (modSlot (myStrip s) k (fun t => { t with st := .releasing }) s))) ∧
      (claimedHere s k = false → exec (.srel h) s = .next (trapAt s 0x10 0 0))) ∧
    (Issues s Rows.sfmt (u Rows.sfmt) → slotFmtBad f c = false → claimedHere s k = true → slotNamed s (myStrip s) k = false →
      exec (.sfmt h) s = .next (advance h (u Rows.sfmt) .seq
        (modSlot (myStrip s) k (fun t => { t with fmt := some (f, CapF.smode c, CapF.k c) }) s))) ∧
    (∀ spans ps t, let v := (Use.ofRow Rows.sload h).srcD
      let rows := rowAddrs (rowBase h c) (gD s h).val.toInt
      let per := Nat.min (2 ^ CapF.k c) (ktOf f)
      let nsc := if scaled c then ktOf f / per else 0
      let scs : List LaneAcc := (rows.zipIdx.map fun (a, r) => (List.range nsc).map fun (i : Nat) =>
        ({ lane := r, va := scaleAddr c (elemIndex f c a / (2 ^ CapF.k c : Nat) + (i : Int)), n := 1, data := false } : LaneAcc)).flatten
      Issues s Rows.sload v → claimedHere s k = true → (slotNow s k).fmt = some (f, CapF.smode c, CapF.k c) →
      rowAccess c rows 128 64 false (fun a => scaled c && elemIndex f c a % (per : Nat) != 0) scs s = .ok spans s →
      slotNamed s (myStrip s) k = false → loadPieces spans s = .ok ps t →
      exec (.sload h) s = .next (advance h v .seq (sendReads (here t).nextPend ps
        (withPend (.slotRow k (rankNo (coreNo s.cur)) (scaled c)) ps (.rows nsc) 0 t))))

/-- O34. The accumulator heads on a bank that nothing outstanding names: AZERO clears the rows of its mask, ASCALE
multiplies each element with one rounding, AMOVV moves 128 bytes to or from a v register, ASTORE puts the bank's lines in the
store buffer one at each step, ALOAD reads it from memory. -/
def Obligations.AccumulatorHeadsActOnTheirBank : Prop :=
  ∀ h s, let core := coreNo s.cur
    let rows := rowAddrs (rowBase h (gA s h)) (bankStride s h)
    let pa := bankPa core h.d.toNat
    (bankHeld s h.d.toNat = false →
      (Issues s Rows.azero {} → ∃ t, exec (.azero h) s = .next (advance h {} .seq t) ∧ t.ctxs = s.ctxs ∧
        let mask := if h.form = .T2 then h.im 7 0 else 0xFF
        (∀ r j, r < 8 → j < 512 → Machine.peek t (pa + 512 * r + j) 1 = if mask.testBit r then 0 else Machine.peek s (pa + 512 * r + j) 1) ∧
        (∀ a, (a < pa ∨ pa + 4096 ≤ a) → Machine.peek t a 1 = Machine.peek s a 1)) ∧
      (let u : Use := { rg := if h.form == .T2 then [] else [h.a.toNat] }
        let m : Val := if h.form == .T2 then .num false 1 (signedOf 8 (h.im 7 0)) else decodeIeee fp32 ((gA s h).val.toNat % 2 ^ 32)
        let old (i : Nat) : Nat := Machine.peek s pa 4096 / 2 ^ (32 * i) % 2 ^ 32
        let y (i : Nat) : Val × FFlags := mulVal (decodeIeee fp32 (old i)) m
        Issues s Rows.ascale u → ∃ x fl, exec (.ascale h) s = .next (advance h u .seq (withFlags fl (poke pa 4096 x s))) ∧
          (∀ i < 1024, x / 2 ^ (32 * i) % 2 ^ 32 = (roundIeee fp32 (y i).1).1) ∧
          (∀ b < 6, fl.getLsbD b = true ↔ ∃ i < 1024, ((y i).2 ||| (roundIeee fp32 (y i).1).2).getLsbD b = true)) ∧
      (∀ spans e r t, let u : Use := { rg := [h.a.toNat, h.b.toNat] }
        Issues s Rows.astore u → (here s).storing = [] →
        rowAccess (gA s h) rows 512 4 true (fun _ => false) [] s = .ok spans s →
        storeEntries s s.cur false spans (Machine.peek s pa 4096) = e :: r → pushStores [e] s = .ok () t →
        exec (.astore h) s = .next (advance h u (if r = [] then .seq else .again) (modHere (fun x => { x with storing := r }) t))) ∧
      (∀ spans ps t, let u : Use := { rg := [h.a.toNat, h.b.toNat] }
        Issues s Rows.aload u → rowAccess (gA s h) rows 512 4 false (fun _ => false) [] s = .ok spans s → loadPieces spans s = .ok ps t →
        exec (.aload h) s = .next (advance h u .seq (sendReads (here t).nextPend ps
          (withPend (.bank pa) ps (.rows 0) 0 t))))) ∧
    (∀ e r t, let u : Use := { rg := [h.a.toNat, h.b.toNat] }
      Issues s Rows.astore u → (here s).storing = e :: r → pushStores [e] s = .ok () t →
      exec (.astore h) s = .next (advance h u (if r = [] then .seq else .again) (modHere (fun x => { x with storing := r }) t))) ∧
    (bankHeld s h.a.toNat = false →
      let at_ := bankPa core h.a.toNat + 512 * h.im 2 0 + 128 * h.im 4 3
      (h.im 5 5 = 1 → Issues s Rows.amovv { rv := [h.d.toNat] } → Unbound s { rv := [h.d.toNat] } →
        exec (.amovv h) s = .next (advance h { rv := [h.d.toNat] } .seq (poke at_ 128 (readV (here s) h.d.toNat).toNat s))) ∧
      (h.im 5 5 = 0 → Issues s Rows.amovv { wv := [h.d.toNat] } → Unbound s { wv := [h.d.toNat] } →
        exec (.amovv h) s = .next (advance h { wv := [h.d.toNat] } .seq (withV h (BitVec.ofNat 1024 (Machine.peek s at_ 128)) s))))

/-- O35. MMA arrives for its rank when its slots are claimed and of the head's formats; the sixteenth rank forms the array
operation when all agree, and traps every rank when they do not; the others wait. -/
def Obligations.MmaFormsWhenEveryRankArrives : Prop :=
  ∀ h s, let u := Use.ofRow Rows.mma h
    let core := coreNo s.cur
    let strip := stripNo core
    let a := (opA s h).toNat % 128
    let b := (gB s h).val.toNat % 128
    let w : MmaWait := { cid := s.cur, rank := rankNo core, ord := (firOf s s.cur).mmaOrd, slotA := a, slotB := b,
                         f := h.f.toNat, bank := h.d.toNat, z := h.im 0 0 == 1 }
    let ws := (stripOf s strip).mmaWait.filter (·.rank != w.rank) ++ [w]
    let t := modStrip strip (fun t => { t with mmaWait := t.mmaWait.filter (·.rank != w.rank) ++ [w] }) s
    Issues s Rows.mma u → (firOf s s.cur).mmaBad = false → (here s).granted = false →
    (gangFiring s = false → exec (.mma h) s = .next (trapAt s 0x02 0 2)) ∧
    (gangFiring s = true → (firOf s s.cur).gangPassed = true → claimedHere s a = true → claimedHere s b = true →
      pairFmt h.f.toNat (slotNow s a).fmt = true → pairFmt h.f.toNat (slotNow s b).fmt = true →
      slotLoading s a = false → slotLoading s b = false → slotPoisoned s a = false → slotPoisoned s b = false →
      ((stripOf s strip).ops.filter fun o => o.parts.any (·.rank == rankNo core)).length < 2 →
      ((List.range 8).any fun j => (ctxOf s (core * 8 + j)).pend.any fun p => p.dst == .bank (bankPa core h.d.toNat)) = false →
      (ws.length = 16 → mmaAgree ws = true → exec (.mma h) s = .next (advance h u .seq (mmaForm strip t))) ∧
      (ws.length ≠ 16 → exec (.mma h) s = .next (beginWait s.cur .mma t))) ∧
    (mmaAgree ws = true ↔ ∀ x ∈ ws, ∀ y ∈ ws, x.slotA = y.slotA ∧ x.slotB = y.slotB ∧ x.f = y.f)

/-! ### Control registers, composition and supervision (R460 to R472) -/

/-- O36. MFC reads and MTC writes a control register where its number and the level allow it; a write is read back, and
changes no other register. The registers from 0x301 up are the firmware's own, which the spec does not describe. -/
def Obligations.ControlRegistersAreReadAndWritten : Prop :=
  (∀ h s, let n := crNum h
    let u (r : Row) : Use := Use.ofRow r h
    let firmware : Prop := 0x301 ≤ n ∧ isThread s.cur = false ∧ controlCore s (coreNo s.cur) = true
    (firmware → exec (.mfc h) s = .refused .firmwareRegister ∧ exec (.mtc h) s = .refused .firmwareRegister) ∧
    (¬ firmware → isThread s.cur = false → crCheck s n false s = .ok () s → (n = 4 → flagsOpen s = false) → Issues s Rows.mfc (u Rows.mfc) →
      exec (.mfc h) s = .next (advance h (u Rows.mfc) .seq
        (if crCap n then withG h (crReadCap s n) s
        else if crWide n then withLate h.d (BitVec.ofNat 64 (crRead s n)) 14 s
        else withInt h (BitVec.ofNat 64 (crRead s n)) s))) ∧
    (∀ v, ¬ firmware → isThread s.cur = true → crThread s n = some v → Issues s Rows.mfc (u Rows.mfc) →
      exec (.mfc h) s = .next (advance h (u Rows.mfc) .seq (withInt h (BitVec.ofNat 64 v) s))) ∧
    (¬ firmware → isThread s.cur = false → crCheck s n true s = .ok () s → (n = 4 → flagsOpen s = false) → Issues s Rows.mtc (u Rows.mtc) →
      (crCap n = true → exec (.mtc h) s = .next (advance h (u Rows.mtc) .seq (crWriteCap n (gA s h) s))) ∧
      (crCap n = false → crOk s n (opA s h) = false → exec (.mtc h) s = .next (trapAt s 0x03 0 0)) ∧
      (crCap n = false → crOk s n (opA s h) = true → (crWide n = true → releaseReady s s.cur 3 = true) →
        exec (.mtc h) s = .next (advance h (u Rows.mtc) .seq (crWrite n (opA s h) s))))) ∧
  (∀ s n write, n < 0x200 → crDefined n = true → n ≠ 0x2F → (write = true → 3 < n ∧ n ≠ 0x121) →
    (n < 0x100 ∨ (here s).sup = true ∨ (n ≤ 0x103 ∧ write = false ∧ (here s).fl = true)) → crCheck s n write s = .ok () s) ∧
  (∀ s n write, 0x100 ≤ n → n < 0x200 → crDefined n = true → (here s).sup = false → (0x103 < n ∨ write = true ∨ (here s).fl = false) →
    crCheck s n write s = .error (.trap 0x05 0 0) s) ∧
  (∀ s n m v, n ∈ ([4, 0x22, 0x23, 0x24, 0x26, 0x100, 0x102, 0x103, 0x105, 0x106, 0x108, 0x10A, 0x10B, 0x10C, 0x10D, 0x10F, 0x110, 0x120]
      ++ List.range' 0x10 16) → crOk s n v = true →
    crRead (crWrite n v s) n = v.toNat ∧ (m ≠ n → m ≠ 0x121 → crRead (crWrite n v s) m = crRead s m) ∧ (crWrite n v s).ms = s.ms)

/-- O37. CPGO registers the copy that its checks give, and each of its range locks that no bias flip holds back, and returns
its number and promise. COMPOSE claims the elements of its lens and waits for them; DECOMPOSE, PAIR and UNPAIR do nothing
without a lens, in a pair and outside one; UNPAIR of a pair without an open interval frees the partner. -/
def Obligations.CopiesLensesAndPairsStart : Prop :=
  (∀ h s c, let d := h.d.toNat
    let u : Use := { wg := [d, d + 1] }
    let c' := { c with promise := s.cyc + 64 + Config.promiseSlack c.id }
    1 ≤ d → d ≤ 62 → Issues s Rows.cpgo u → cpgoCheck s = .ok c s → drained s = true → copyRoom s c.core = true →
    exec (.cpgo h) s = .next (advance h u .seq
      (withPend (.g (d + 1)) [] (.cst (Cap.ofInt (BitVec.ofNat 64 c'.promise))) 1
        (withPend (.g d) [] (.cst (Cap.ofInt (BitVec.ofNat 64 c.xid))) 1 (startCopy c' s))))) ∧
  (∀ c s, (coreOf (startCopy c s) c.core).xid = c.xid ∧ ∃ late, { c with late := late } ∈ (startCopy c s).cp.copies ∧
    (s.host.flip = none → late = []) ∧
    let locked (lo hi : Nat) (dest : Bool) : Prop := ∃ l : Lock, l.copy = c.id ∧ l.asid = c.asid ∧ l.lo = lo ∧ l.hi = hi ∧ l.dest = dest ∧
      (flipHolds s l = true → l ∈ late) ∧ (flipHolds s l = false → l ∈ (startCopy c s).cp.locks)
    locked c.srcLo c.srcHi false ∧ (CpF.dkind c = false → locked c.dstLo c.dstHi true)) ∧
  (∀ h s, let n := h.im 4 0
    Issues s Rows.compose {} →
    ((here s).granted = false → composeBad s n = none →
      exec (.compose h) s = .next (beginWait s.cur (.compose n) (claimLens n s))) ∧
    (∀ sub, (here s).granted = false → composeBad s n = some sub → exec (.compose h) s = .next (trapAt s 0x17 0 sub)) ∧
    ((here s).granted = true → (here s).wait = .compose n → exec (.compose h) s = .next (advance h {} .seq
      (modFir s.cur (fun f => { f with lens := some s.cur }) s)))) ∧
  (∀ h s, Issues s Rows.decompose {} →
    ((firOf s s.cur).lens = none → exec (.decompose h) s = .next (advance h {} .seq s)) ∧
    ((firOf s s.cur).lens.isSome = true → (here s).pend = [] → pushWaits s s.cur = false →
      (∀ e ∈ (coreOf s (coreNo s.cur)).sb, e.cid ≠ s.cur) →
      exec (.decompose h) s = .next (advance h {} .seq (freeLens s.cur s)))) ∧
  (∀ h s, issueStop s Rows.pair {} = none → unconfirmed s = false →
    ((firOf s s.cur).paired = true → exec (.pair h) s = .next (advance h {} .seq s) ∨
      ∃ q y f, partnerOf s s.cur = some q ∧ exec (.pair h) s = .next (modGrp f (setCtx (advance h {} .seq s) q y))) ∧
    ((firOf s s.cur).paired = false → (here s).granted = true → (here s).wait = .pairPark →
      exec (.pair h) s = .next (advance h {} .seq (modFir s.cur (fun f => { f with paired := true }) s)))) ∧
  (∀ h s, issueStop s Rows.unpair {} = none → unconfirmed s = false →
    ((firOf s s.cur).paired = false → exec (.unpair h) s = .next (advance h {} .seq s)) ∧
    ((firOf s s.cur).paired = true → (firOf s s.cur).actor.checked = false →
      exec (.unpair h) s = .next (advance h {} .seq (freePair s.cur s))))

/-- O38. CTX.SAVE, CTX.LOAD and CTX.DROP answer with their status, at once or when the image is complete; TLBINV drops the
translations that it names, and no others, with every walk in flight. -/
def Obligations.SupervisorHeadsControlFirings : Prop :=
  (∀ h s, let n := (opA s h).toNat % 2 ^ 37
    let c := handleCid n
    let u (r : Row) : Use := Use.ofRow r h
    (handleGone s n = true →
      (Issues s Rows.ctxSave (u Rows.ctxSave) → exec (.ctxSave h) s = .next (advance h (u Rows.ctxSave) .seq (withLate h.d 2 14 s))) ∧
      (Issues s Rows.ctxLoad (u Rows.ctxLoad) → exec (.ctxLoad h) s = .next (advance h (u Rows.ctxLoad) .seq (withLate h.d 2 14 s))) ∧
      (Issues s Rows.ctxDrop (u Rows.ctxDrop) → exec (.ctxDrop h) s = .next (advance h (u Rows.ctxDrop) .seq (withLate h.d 2 14 s)))) ∧
    (handleGone s n = false → savedOf s n = none → c ≠ s.cur →
      (noSave (firOf s c) = false → requeueUsed s (coreNo c) < 8 → (∀ k, (ctxOf s c).wait ≠ .compose k) →
        Issues s Rows.ctxSave (u Rows.ctxSave) → exec (.ctxSave h) s = .next (advance h (u Rows.ctxSave) .seq
          (tryStop c (askSave c (h.b.toNat == 1) (some (s.cur, (here s).nextPend))
            (withPend (if h.d == 0 then .none else .g h.d.toNat) [] .status 14 s))))) ∧
      (Issues s Rows.ctxLoad (u Rows.ctxLoad) → exec (.ctxLoad h) s = .next (advance h (u Rows.ctxLoad) .seq (withLate h.d 3 14 s))) ∧
      (Issues s Rows.ctxDrop (u Rows.ctxDrop) → exec (.ctxDrop h) s = .next (advance h (u Rows.ctxDrop) .seq
        (withLate h.d 0 14 (dropRecord n (ctxOf s c).asid.toNat (abortPlaced c s)))))) ∧
    (∀ v, handleGone s n = false → savedOf s n = some v → v.held = true → v.complete = true → requeueUsed s (handleCore n) < 8 →
      Issues s Rows.ctxLoad (u Rows.ctxLoad) → exec (.ctxLoad h) s = .next (advance h (u Rows.ctxLoad) .seq
        (withLate h.d 0 14 (modSaved (handleCore n) v.fir.handle (fun v => { v with held := false })
          (modCore (handleCore n) (fun k => { k with fq := k.fq ++ [{ fir := v.fir, enq := s.cyc, restoreTo := some v.cid }] }) s)))))) ∧
  (∀ h s, let asid := (gB s h).val.toNat
    let va := (opA s h).toNat % 2 ^ 57
    let inv (mk : Head → Instr) (r : Row) (p : TlbEntry → Prop) : Prop :=
      Issues s r (Use.ofRow r h) → releaseReady s s.cur 3 = true → ∃ t,
        exec (mk h) s = .next (advance h (Use.ofRow r h) .park (withPend .none [] .inv 0 t)) ∧
        t.tr.walks = [] ∧ t.ctxs = s.ctxs ∧ t.ms = s.ms ∧ (∀ e, e ∈ t.tr.tlb ↔ e ∈ s.tr.tlb ∧ ¬ p e)
    (asid ≤ 4095 → inv .tlbinvVa Rows.tlbinvVa (fun e => e.asid = asid ∧ e.va ≤ va ∧ va < e.va + e.size) ∧
      inv .tlbinvAsid Rows.tlbinvAsid (fun e => e.asid = asid)) ∧
    inv .tlbinvAll Rows.tlbinvAll (fun _ => True))

/-! ### Prism heads (R473 to R479) -/

/-- O39. The heads of Prism threads on a block that the thread's Prism serves: TAGSET sets the access tag once the accesses
it lets through are done; DIRRD and DIRWR read and write the entry or the transaction record; REPLY answers the requester
that holds a slot; FWD sends a packet; BTX writes the black box; HDONE ends the run. -/
def Obligations.PrismHeadsActOnTheirBlock : Prop :=
  ∀ h s, let p := prismNo s.cur
    let blk := blockArg s (gA s h)
    let u (r : Row) : Use := Use.ofRow r h
    let rec_ := h.im 0 0 == 1
    (serves s blk = true →
      (∀ t, Issues s Rows.tagset (u Rows.tagset) → (hereRun s).tagset = none → tagsetDo h blk s = .ok () t → throughLeft t blk = false →
        exec (.tagset h) s = .next (advance h (u Rows.tagset) .seq
          (modRun t.cur (fun r => { r with tagset := none }) (withInt h (BitVec.ofNat 64 ((hereRun t).tagset.getD 0)) t)))) ∧
      (Issues s Rows.dirrd (u Rows.dirrd) → exec (.dirrd h) s = .next (advance h (u Rows.dirrd) .seq
        (if rec_ then withInt h (txnWord s p blk) s else dirTouch p (dirKey s p blk) (withInt h (dirImage s p blk) s)))) ∧
      (Issues s Rows.dirwr (u Rows.dirwr) →
        let w := if rec_ then txnWrite p blk (gB s h).val s else dirWrite p blk (gB s h).val s
        exec (.dirwr h) s = .next (advance h (u Rows.dirwr) .seq (withInt h w.1 w.2))) ∧
      (let v := (gB s h).val.toNat
        let dd := v % 16384
        let x := fwdKind (h.im 3 0)
        let buf := h.im 4 4 == 1
        let bad := if buf then (hereRun s).bufBad else poisonable s blk && poisonAt s blk 64
        let data : BitVec 512 := if buf then (hereRun s).buf else BitVec.ofNat 512 (Machine.peek s blk 64)
        Issues s Rows.fwd (u Rows.fwd) → threadNo s.cur < 6 → h.im 3 0 < 11 → dd ≠ s.dev → routable s dd = true →
        (fwdAsks x.1 x.2.1 = true → repReserved s p < 32) → (prismOf s p).spill = [] → outQueued s p < 32 →
        exec (.fwd h) s = .next (advance h (u Rows.fwd) .seq (sendFwd p (65536 * (hereRun s).tag + bitsOf v 31 16)
          { hdr := hdrBits { ty := x.1, ddev := dd, sdev := s.dev, op := x.2.1, o := true, pz := x.2.2.2 && bad, scope := 4,
                             len := typeLen x.1, off := blockOff s blk + (if x.2.2.1 then bitsOf v 31 16 % 64 else 0) },
            data := if x.2.2.2 then [data] else [] } s)))) ∧
    (serves s blk = false → (Issues s Rows.dirrd (u Rows.dirrd) → exec (.dirrd h) s = .next (trapAt s 0x02 0 0x0A)) ∧
      (Issues s Rows.dirwr (u Rows.dirwr) → exec (.dirwr h) s = .next (trapAt s 0x02 0 0x0A))) ∧
    (∀ own from_, let d := replyData s (hereRun s) (h.im 1 0) (h.im 4 4 == 1)
      Issues s Rows.reply (u Rows.reply) → replySlot s (hereRun s) (gA s h).val = some (own, from_) →
      exec (.reply h) s = .next (advance h (u Rows.reply) .seq
        (slotUsed own (gA s h).val (answerPkt from_ (h.im 1 0) (gB s h).val d.1 d.2 s)))) ∧
    (Issues s Rows.reply (u Rows.reply) → replySlot s (hereRun s) (gA s h).val = none →
      exec (.reply h) s = .next (trapAt s 0x02 0 0x0A)) ∧
    (∀ t, t = bbWrite (prismIo p) 2 (p + 256 * threadNo s.cur) (h.im 7 0) [(gA s h).val, (gB s h).val] s →
      Issues s Rows.btx (u Rows.btx) → exec (.btx h) s = .next (advance h (u Rows.btx) .seq
        (if h.im 8 8 = 1 then
          supRecord { code := 0x49, source := 2, unit := p, addr := (gA s h).val.toNat, info := h.im 7 0 + threadNo s.cur * 256 } t
        else t))) ∧
    (Issues s Rows.hdone {} → exec (.hdone h) s = .next (if h.im 0 0 = 1 then retryRun s.cur s else endRun s.cur s))

/-! ### Resets, power and containment (R17, R19, R26 to R30, R85, R86, R91, R99 to R105) -/

/-- O40. POWER_ON and a device reset leave every context FREE, and nothing but host memory holds a byte; slot A boots when
the security block takes it. A reset advances every context's generation; a power loss clears the black box too. The
function-level reset of an enabled VF puts its registers back, and that of the PF disables the VFs; the resets of dies and
strips go through the fence. -/
def Obligations.ResetsClearTheMachine : Prop :=
  let clear (t : State) : Prop := t.cores = [] ∧ t.strips = [] ∧ t.prisms = [] ∧ t.net = [] ∧ ∀ a < hostBase, Machine.peek t a 1 = 0
  (∀ s, ∃ t, exec .powerOn s = .next t ∧ t.firm.powered = true ∧ clear t ∧ t.ctxs = [] ∧
    (slotRefused s.firm s.firm.flashA = 0 → t.firm.booted = true ∧ t.firm.svc.bootedA = true) ∧
    (slotRefused s.firm s.firm.flashA ≠ 0 → slotRefused s.firm s.firm.flashB = 0 → t.firm.booted = true ∧ t.firm.svc.bootedA = false) ∧
    (slotRefused s.firm s.firm.flashA ≠ 0 → slotRefused s.firm s.firm.flashB ≠ 0 → t.firm.booted = false)) ∧
  (∀ s, s.firm.powered = true → ∃ t, exec .deviceReset s = .next t ∧ clear t ∧
    ∀ c < 32768, (ctxOf t c).fir = none ∧ (ctxOf t c).gen = (ctxOf s c).gen + 1) ∧
  (∀ s, ∃ t, exec .standbyPowerLoss s = .next t ∧ t.firm.powered = false ∧ t.firm.bb = [] ∧ clear t) ∧
  (∀ f s, s.host.sriov = false → exec (.functionLevelReset f) s = .next s) ∧
  (∀ f s, 1 ≤ f → f < 64 → s.host.sriov = true → ∃ t, exec (.functionLevelReset f) s = .next t ∧ (fnOf t f).hvsel = 0 ∧ (fnOf t f).fqhead = 0 ∧
    (fnOf t f).fqtail = 0 ∧ (fnOf t f).fqctl.getLsbD 63 = false ∧ ∀ r ∈ t.tr.faults, r.fn ≠ f) ∧
  (∀ s, ∃ t, exec .pfFunctionLevelReset s = .next (modHost (fun h => { h with sriov := false }) t) ∧
    t = (List.range 64).foldl (fun s f => resetFn f s) s) ∧
  (∀ die failed s, die < 4 → s.firm.powered = true →
    let ks := (List.range 64).map (64 * die + ·)
    exec (.computeDieReset die failed) s =
      .next (vecEvent 0 1 (bbFreeze (bbControl (die / 2) 0x6C [die] (resetStrips ks failed (fenceStrips ks s)))))) ∧
  (∀ die s, die < 6 → s.firm.powered = true → exec (.thermalTrip die) s =
    .next (deviceReset (bbControl (if die < 4 then die / 2 else die - 4) 0x6A [die] s))) ∧
  (∀ die step s, die < 4 → step < 16 →
    (∃ t, exec (.powerLimitWindow die step) s = .next t ∧ SMap.get 0 t.host.throttle die = step ∧ t.ctxs = s.ctxs ∧ t.ms = s.ms) ∧
    (0 < step → ∃ t, exec (.thermalThrottle die step) s = .next t ∧ SMap.get 0 t.host.throttle die = step ∧ t.ctxs = s.ctxs ∧ t.ms = s.ms)) ∧
  (∀ pavg pmax temps s, pavg < 65536 → pmax < 65536 → ∃ t, exec (.mgmtUpdate pavg pmax temps) s = .next t ∧
    bitsOf t.host.mgmtPwr.toNat 47 32 = pavg ∧
    bitsOf t.host.mgmtPwr.toNat 31 16 = Nat.max (bitsOf s.host.mgmtPwr.toNat 31 16) pmax ∧
    t.host.mgmtTemp.toNat = temps.toNat)

/-- O41. CONTAIN acts on the rectangle of its request when the mailbox runs it, no strip is being moved and the rectangle may
be fenced, and answers a refusal otherwise; a strip-map change first stops the strip's firings, then fences it and then writes
the entry; the patrol scrub of a page whose turn has come records a tag that disagrees; an event of CONTAIN
with another rectangle than the request's does nothing; a mirror pair's interval is confirmed,
or goes back to its checkpoint. The layout of CONTAIN's request is the model's choice (log 9). -/
def Obligations.ContainmentAndChecksAct : Prop :=
  (∀ failed s, svcRuns s 4 = true →
    let r := rectRequest s
    let ks := rectStrips r
    let moving := s.strips.any fun e => e.2.remap.isSome
    (3 ≤ rectAction s → exec (.containFence r) s = .next (svcDone 2 s)) ∧
    (rectAction s < 3 → moving = true → exec (.containFence r) s = .next s ∧ exec (.containReset r failed) s = .next s ∧
      exec (.containRelease r) s = .next s) ∧
    (svcBuf s % 4096 = 0 → moving = false →
      (rectAction s = 0 →
        (rectRefused s r = 0 → exec (.containFence r) s = .next (containDone ks 0 (fenceStrips ks s))) ∧
        (rectRefused s r ≠ 0 → exec (.containFence r) s = .next (svcDone (rectRefused s r) s))) ∧
      (rectAction s = 1 →
        (rectRefused s r = 0 → exec (.containReset r failed) s = .next (containDone ks 0 (resetStrips ks failed (fenceStrips ks s)))) ∧
        (rectRefused s r ≠ 0 → exec (.containReset r failed) s = .next (svcDone (rectRefused s r) s))) ∧
      (rectAction s = 2 →
        (releaseRefused s r = 0 → exec (.containRelease r) s =
          .next (containDone ks 0 (bbControl (ks.headD 0 / 128) 0x64 [ks.headD 0, ks.length] (ks.foldl (setRole 0) s)))) ∧
        (releaseRefused s r ≠ 0 → exec (.containRelease r) s = .next (svcDone (releaseRefused s r) s))))) ∧
  (∀ r failed s, r ≠ rectRequest s → svcBuf s % 4096 = 0 → exec (.containFence r) s = .next s ∧
    exec (.containReset r failed) s = .next s ∧ exec (.containRelease r) s = .next s) ∧
  (∀ s r, releaseRefused s r = 0 ↔ rectRefused s r = 0 ∧ ∀ k ∈ rectStrips r, stripRole s k = 2) ∧
  (∀ s k role, role < 4 → stripRole (setRole role s k) k = role ∧ ∀ j, j ≠ k → stripEntry (setRole role s k) j = stripEntry s j) ∧
  (∀ st s, st < 256 → (svcDone st s).firm.svc.ctl.getLsbD 31 = false ∧ bitsOf (svcDone st s).firm.svc.ctl.toNat 23 16 = st) ∧
  (∀ k e s, k < 256 → (stripOf s k).remap = none → s.firm.booted = true → (s.strips.any fun x => x.2.remap.isSome) = false →
    mapOk s k e = true →
    exec (.stripMapChange k e) s = .next (preemptStrip k (modStrip k (fun t => { t with remap := some e }) s))) ∧
  (∀ k e e' s, (stripOf s k).remap = some e' →
    ((stripOf s k).fenced = false → stripIdle s k = false → exec (.stripMapChange k e) s = .next (preemptStrip k s)) ∧
    ((stripOf s k).fenced = false → stripIdle s k = true →
      exec (.stripMapChange k e) s = .next (modStrip k (fun t => { t with fenced := true }) s)) ∧
    ((stripOf s k).fenced = true → ∃ t, exec (.stripMapChange k e) s = .next t ∧ stripEntry t k = e' &&& 0xE000007F ∧
      (stripOf t k).remap = none ∧ (stripOf t k).fenced = false ∧ ∀ x ∈ t.tr.tlb, x.unit ≠ k)) ∧
  (∀ i u s, s.ms.susp[i]? = some u → u.refused = some 2 → (stripOf s ((64 * u.block - winBase) / 0x4000000)).remap = none →
    exec (.fencedAccessRetry i) s = .next (wakeTags (fun b => b == u.block)
      (modMs (fun m => { m with susp := m.susp.set i { u with refused := none, allowed := true } }) s))) ∧
  (∀ page ecc bad u, let pa := 4096 * page
    let s := upsets page ecc bad u
    let t := correct pa 4096 (modFirm (fun f => { f with patrolAt := SMap.set 0 f.patrolAt page (s.cyc + 1) }) s)
    (patrolDue s page = false → exec (.patrolScrub page ecc bad) u = .next s) ∧
    ((bootTable s).enc = true → pa < hbmTop → patrolDue s page = true →
      (tagOfPage t page ≠ pageTag t.firm.boots t.ms.mem page →
        exec (.patrolScrub page ecc bad) u = .next (supRecord { code := 0x4B, source := 7, unit := hbmPrism pa, addr := pa }
          (bbWrite (hbmPrism pa / 12) 7 (hbmPrism pa) 0x68 [BitVec.ofNat 64 pa] t))) ∧
      (tagOfPage t page = pageTag t.firm.boots t.ms.mem page → exec (.patrolScrub page ecc bad) u = .next t))) ∧
  (∀ c p s, closedPair s c = some p →
    (p.again = false → p.fp = p.fpP → (coreOf s (coreNo c)).sb.length + p.held.length ≤ 32 → ∃ t, exec (.mirrorIntervalConfirm c) s = .next t ∧
      (coreOf t (coreNo c)).sb = (coreOf s (coreNo c)).sb ++ p.held ∧ (ctxOf t c).st = .ready ∧ (ctxOf t c).g = (ctxOf s c).g) ∧
    (p.fp ≠ p.fpP → exec (.mirrorIntervalConfirm c) s = .next s) ∧
    (p.again = false → p.part ≠ c → ∃ t x, exec (.mirrorMismatch c) s = .next t ∧ ctxOf t c = p.landed.foldl arriveAgain x ∧
      x.g = p.check.g ∧ x.v = p.check.v ∧ x.pc = p.check.pc ∧ x.st = .ready ∧ t.ms = s.ms))

/-! ### The service mailbox (R93 to R98, R104, R105) -/

/-- O42. The mailbox commands write their answer into the buffer and complete: certificate, report, patch, COMMIT, BBCTL
and FABCFG. A patch is applied when its functions are quiet, and given up after 1 ms. The places of the requests' and answers'
fields in the buffer are the model's choice (log 9). -/
def Obligations.MailboxCommandsAnswer : Prop :=
  (∀ s n, svcRuns s n = true → svcBuf s % 4096 = 0 →
    (n = 1 → exec .getcert s = .next (svcDone 0 (bufWrite 0 (svcLen s) (secretBytes 0 (svcLen s)) s))) ∧
    (n = 2 → let r := report s (bufRead s 0 32)
      exec .attest s = .next (svcDone 0 (bufWrite 301 512 (secretBytes (2 ^ 32 + 512 * r) 512) (bufWrite 0 301 r s)))) ∧
    (∀ ok, n = 3 → s.firm.svc.patch = none →
      let img := patchImage s
      (patchRefused s ok img = 0 → exec (.patch ok) s =
        .next (modSvc (fun v => { v with patch := some img, patchSince := s.cyc, gates := img.inactive }) s)) ∧
      (patchRefused s ok img ≠ 0 → exec (.patch ok) s = .next (patchDone (patchRefused s ok img) s)) ∧
      (ok = false → patchRefused s ok img = 3)) ∧
    (n = 5 → let t := bootTable s
      let m := if t.svnc then Nat.max s.firm.svc.fusedSvn t.header.svn else s.firm.svc.fusedSvn
      exec .commit s = .next (svcDone 0 (bufWrite 0 4 m (modSvc (fun v => { v with fusedSvn := m }) s)))) ∧
    (n = 6 →
      (bbRequest s = 0 → exec .bbctlFreeze s = .next (svcDone 0 (bufWrite 0 64 (bbHeader (bbFreeze s)) (bbFreeze s)))) ∧
      (bbRequest s = 1 → ∃ t, exec .bbctlUnfreeze s = .next t ∧
        ∀ d < 2, (SMap.get {} t.firm.bb d).frozen = false ∧ (SMap.get {} t.firm.bb d).left = none) ∧
      (1 < bbRequest s → exec .bbctlFreeze s = .next (svcDone 2 s))) ∧
    (∀ oks, n = 7 → let k := bufRead s 0 4
      k ≠ 0 → k ≤ 65535 → 16 + 16 * k ≤ svcLen s → bufRead s 4 12 = 0 →
      let x := cfgAll k 0 oks s
      exec (.fabcfg oks) s = .next (svcDone (if x.2.1 then 0 else 6)
        (bufWrite 0 8 (x.1 + (if x.2.1 then 2 ^ 32 - 1 else x.1) * 2 ^ 32) x.2.2)))) ∧
  (∀ s p, s.firm.svc.patch = some p → svcRuns s 3 = true →
    (patchQuiet s p = true → ∃ t, exec .patchApply s = .next t ∧ t.firm.svc.version = p.target ∧ t.firm.svc.patch = none ∧
      t.firm.svc.gates = [] ∧ t.firm.svc.waiting = [] ∧ t.firm.svc.patches = s.firm.svc.patches ++ [p.digest] ∧
      t.firm.svc.bodies = s.firm.svc.bodies ++ [(p.size, p.body)]) ∧
    (patchQuiet s p = false → s.firm.svc.patchSince + 1000 * Config.cyclesPerUs ≤ s.cyc →
      ∃ t, exec .patchQuiesceTimeout s = .next t ∧ t.firm.svc.version = s.firm.svc.version ∧ t.firm.svc.patch = none ∧ t.firm.svc.gates = [])) ∧
  (∀ s d, (SMap.get {} s.firm.bb d).left = some 0 → ∃ t, exec (.blackboxFrozen d) s = .next t ∧
    (SMap.get {} t.firm.bb d).frozen = true ∧ (SMap.get {} t.firm.bb d).entries = (SMap.get {} s.firm.bb d).entries)

/-! ### The host interface (R61 to R86) -/

/-- O43. The host's register writes, its answers to faults, interrupts, host accesses and bias flips. A VF that is not enabled
takes no write. -/
def Obligations.HostEventsAct : Prop :=
  (∀ f v off s, fnHere s f = false → exec (.hvselWrite f v) s = .next s ∧ exec (.hstatWrite f v) s = .next s ∧
    exec (.qdirbaseWrite f v) s = .next s ∧ exec (.registerWrite f off v) s = .next s ∧ exec (.fqheadWrite f v) s = .next s ∧
    exec (.fresumeRetry f v) s = .next s ∧ exec (.fresumeDeliver f v) s = .next s) ∧
  (∀ f v s, f < 64 → fnHere s f = true → let n := if f = 0 then v.toNat else v.toNat / 16 * 16
    let ok : Prop := n < 65536 ∧ (∀ x ∈ [bitsOf n 15 12, bitsOf n 11 8, bitsOf n 7 4, bitsOf n 3 0], versionOk s x = true) ∧ fnMapped s f = false
    (ok → ∃ t, exec (.hvselWrite f v) s = .next t ∧ (fnOf t f).hvsel.toNat = n) ∧
    (¬ ok → ∃ t, exec (.hvselWrite f v) s = .next t ∧ (fnOf t f).hvsel = (fnOf s f).hvsel ∧ (fnOf t f).hstat.getLsbD 6 = true) ∧
    (∃ t, exec (.hstatWrite f v) s = .next t ∧ (fnOf t f).hstat = (fnOf s f).hstat &&& ~~~(v &&& 0x78)) ∧
    (vfctlOk s f (bitsOf v.toNat 51 18 * 2 ^ 18) = true → ∃ t, exec (.vfctlWrite f v) s = .next t ∧
      (fnOf t f).vfctl.toNat = bitsOf v.toNat 51 18 * 2 ^ 18) ∧
    (vfctlOk s f (bitsOf v.toNat 51 18 * 2 ^ 18) = false → ∃ t, exec (.vfctlWrite f v) s = .next t ∧
      (fnOf t 0).hstat.getLsbD 3 = true ∧ (fnOf t f).vfctl = (fnOf s f).vfctl) ∧
    ((∀ i < dirSize s f, descEn (descOf s f i) = false) → ∃ t, exec (.qdirbaseWrite f v) s = .next t ∧
      (fnOf t f).qdirbase.toNat = v.toNat / 4096 * 4096 + v.toNat % 1024) ∧
    (∃ t, exec (.registerWrite f 0x0100 v) s = .next t ∧ (fnOf t f).fqbase = v) ∧
    (exec (.fqheadWrite f v) s = .next (faultDrain f 65536 (modFn f (fun x => { x with fqhead := v }) s)))) ∧
  (∀ sel s, ∃ t, exec (.blackboxSelWrite sel) s = .next t ∧ t.firm.bbsel = sel ∧ t.firm.bb = s.firm.bb) ∧
  (∀ f id r s, fnHere s f = true → id < 2 ^ 32 → faultById s f id = some r →
    exec (.fresumeRetry f (BitVec.ofNat 64 id)) s = .next (r.waiters.foldl (resumeOne r false) (faultClose f r.id s)) ∧
    exec (.fresumeDeliver f (BitVec.ofNat 64 (id + 2 ^ 62))) s = .next (r.waiters.foldl (resumeOne r true) (faultClose f r.id s))) ∧
  (∀ f vec e s, let ic := (SMap.get 1 (fnOf s f).icoal vec).toNat
    bitsOf ic 31 16 ≠ 0 → bitsOf ic 47 32 ≠ 0 → (fnOf s f).icoalSince.find? (·.1 == vec) = some e →
    e.2 + bitsOf ic 31 16 * Config.cyclesPerUs ≤ s.cyc → exec (.coalesceTimer f vec) s = .next (vecSend f vec s)) ∧
  (∀ f vec s, SMap.get false (fnOf s f).vpend vec = true → SMap.get false (fnOf s f).vmask vec = false →
    ∃ t, exec (.msixUnmask f vec) s = .next t ∧ t.host.msix = s.host.msix ++ [(f, vec)] ∧ SMap.get false (fnOf t f).vpend vec = false) ∧
  (∀ addr d s, addr < s.host.hdmBase → exec (.hostMemAccess addr d) s = .next s) ∧
  (∀ addr s, let pa := (addr - s.host.hdmBase) / 64 * 64
    s.host.hdmBase ≤ addr → pa < hbmSize s → (s.host.flip.any fun x => x.page == pa / 4096) = false →
    let s1 := if SMap.get false s.host.hostBias (pa / 4096) then s else dropLine pa s
    (∃ t, exec (.hostMemAccess addr none) s = .next t ∧ t.ms.mem = s1.ms.mem ∧
      t.host.out = s1.host.out ++ [(pa, if poisonAt s1 pa 64 then none else some (BitVec.ofNat 512 (Machine.peek s1 pa 64)))]) ∧
    (∀ d, exec (.hostMemAccess addr (some d)) s = .next (memWrite pa 64 d.toNat false none s1))) ∧
  (∀ addr d s, let pa := hostBase + addr % hostBase / 64 * 64
    SMap.get none s.ms.l2 (blockOf pa) = none →
    exec (.h2dSnoop addr none) s = .next s ∧ exec (.h2dSnoop addr (some d)) s = .next (poke pa 64 d.toNat s)) ∧
  (∀ addr d own m s, lineWanted s (addr / 64 * 64) own = some m → spaceOf s (addr / 64 * 64) = .host →
    let asked := modPrism 50 (fun x => { x with
      req := x.req.filter fun m => !(m.block == addr / 64 * 64 && (m.ty == 6 || (own && (m.ty == 7 || m.ty == 8)))) }) s
    (suspUncached asked (addr / 64 * 64) = false → ∃ t u, exec (.hostLineFill addr d own) s = .next t ∧
      t = setAtag (addr / 64 * 64) (if own then 2 else 1) u ∧ Machine.peek u (addr / 64 * 64) 64 = d.toNat) ∧
    (suspUncached asked (addr / 64 * 64) = true → ∃ t, exec (.hostLineFill addr d own) s = .next t ∧
      t.ms.l2 = s.ms.l2 ∧ t.ms.atag = s.ms.atag)) ∧
  (∀ v s, let n := v.toNat
    let page := bitsOf s.host.biasAddr.toNat 39 12
    n / 2 ^ 63 = 1 → s.host.flip = none → 4096 * (page + n % 1024 + 1) ≤ hbmSize s → ∃ t u, exec (.biasFlipStart v) s = .next t ∧
      t = pageTags page 3 u ∧ u.host.flip = some { page := page, left := n % 1024 + 1, toDevice := bitsOf n 62 62 == 1, since := s.cyc }) ∧
  (∀ x s, s.host.flip = some x →
    (x.asked = false → lockCovers s x.page = false → x.toDevice = true → ∃ t, exec .biasFlipPage s = .next t ∧
      t.host.flip = some { x with asked := true }) ∧
    (x.asked = true → exec .rdownnodataCompletion s = .next (flipNext x (protoTags x.page
      (modHost (fun h => { h with hostBias := SMap.set false h.hostBias x.page false }) s)))) ∧
    (x.late = false → x.since + 1000 * Config.cyclesPerUs < s.cyc → lockCovers s x.page = true →
      ∃ t, exec .biasFlipWaitTimeout s = .next t ∧ t.host.flip = some { x with late := true }))

/-! ### The fabric (R33 to R60) -/

/-- O44. Packets that come in. A malformed one is recorded; a sequenced one meets its filter: the next number of a known
source is delivered at once, and a number accepted before is performed no second time. Reads, writes, atomics and signals
act on HBM at their offset; replies, acknowledgements and refusals go to the request that they name. -/
def Obligations.PacketsMeetTheirFilterAndAct : Prop :=
  let seq (mk : Nat → Packet → Instr) (ty : Nat) : Prop := ∀ port p s, let h := hdrOf p.hdr
    port < 18 → (portOf s port).up = true →
    (malformed p = true → exec (mk port p) s = .next (malformedRecord port p s)) ∧
    (malformed p = false → h.ty = ty → h.ddev = s.dev →
      exec (mk port p) s = .next (sequencedIn port p h (modPort port (fun x => { x with resends := 0, lastValid := s.cyc }) s))) ∧
    (malformed p = false → h.ty = ty → h.ddev ≠ s.dev → ∃ t, exec (mk port p) s = .next t ∧ t.ms = s.ms ∧ t.ctxs = s.ctxs)
  let raw (mk : Nat → Packet → Instr) (ty : Nat) (go : Packet → Hdr → State → State) : Prop := ∀ port p s, let h := hdrOf p.hdr
    port < 18 → (portOf s port).up = true → malformed p = false → h.ty = ty → h.ddev = s.dev →
      exec (mk port p) s = .next (go p h (modPort port (fun x => { x with resends := 0, lastValid := s.cyc }) s))
  seq .rd 1 ∧ seq .wr 2 ∧ seq .wrm 3 ∧ seq .amo 4 ∧ seq .redc 5 ∧ seq .msg 6 ∧ seq .sig 7 ∧ seq .prb 8 ∧ seq .mrep 13 ∧
  raw .rdata 9 (fun p => replyIn [tRD, tPRB] p) ∧ raw .ares 10 (fun p => replyIn [tAMO] p) ∧
  raw .ack 11 (fun _ k s => if k.op / 2 % 2 = 0 then ackIn k s else s) ∧
  raw .sync 11 (fun _ k s => if k.op / 2 % 2 = 1 then syncIn k s else s) ∧
  raw .nak 12 (fun _ => nakIn) ∧ raw .barb 15 (fun _ => barbIn) ∧
  (∀ port p h s, let w := 2 * h.sdev + h.lane
    let f := filtOf s w
    let d := (h.seq + 65536 - f.cum) % 65536
    (f.known = false → sequencedIn port p h s = rawNak w h.seq 3 s) ∧
    (f.known = true → h.ty ≠ 1 → f.waiting = [] → (d = 0 ∨ 63488 < d ∨ (d ≤ 2048 ∧ f.accepted.contains h.seq = true)) →
      (sequencedIn port p h s).ms = s.ms ∧ (sequencedIn port p h s).net = s.net)) ∧
  (∀ w seq h pa s, offsetPa s (h.off / 64 * 64) = some pa → h.op = 0 → remapping s pa = false →
    homeGate s (pktCid w seq) pa 1 = .go → spaceOf s pa = .hbm → s.ms.susp = [] → h.pz = false → protoOf s (hbmPrism pa) pa ≠ 1 →
    ∀ d, doWr w seq h d s = .taken (markPerformed w seq (memWrite pa 64 d.toNat false none s))) ∧
  (∀ w seq h pa s, offsetPa s (h.off / 64 * 64) = some pa → h.op = 6 → remapping s pa = false →
    homeGate s (pktCid w seq) pa 0 = .go → spaceOf s pa = .hbm → s.ms.susp = [] → poisonAt s pa 64 = false →
    doRd w seq h s = .taken (sendRdata w seq (BitVec.ofNat 512 (Machine.peek s pa 64)) false (correct pa 64 s))) ∧
  (∀ w seq h pa a fl s, offsetPa s h.off = some pa → pktRmw h.op fl = some a → remapping s pa = false →
    homeGate s (pktCid w seq) pa 2 = .go → spaceOf s pa = .hbm → s.ms.susp = [] → poisonAt s pa a.w = false →
    (s.fab.fau.any fun o => overlaps o.pa o.n pa a.w) = false →
    let x := Machine.peek s pa a.w
    doAmo w seq h fl s = .taken (modFab (fun f => { f with fau := f.fau ++
      [{ pa := pa, n := a.w, old := x, new := rmwNew a x, cid := pktCid w seq, from_ := some (w, seq) }] }) (correct pa a.w s))) ∧
  (∀ o w seq s, o.from_ = some (w, seq) → homeGate s o.cid o.pa 2 = .go → s.ms.susp = [] →
    let gone := modFab (fun f => { f with fau := f.fau.erase o }) s
    (o.new = none → fauWrite s o = wakeReleases (sendAres w seq (BitVec.ofNat 64 o.old) false gone)) ∧
    (∀ y, o.new = some y → fauWrite s o =
      wakeReleases (sendAres w seq (BitVec.ofNat 64 o.old) false (homeWrite o.pa o.n y false none o.cid gone)))) ∧
  (∀ w seq h pa s, 1 < h.op → doSig w seq h s = .taken (refusePkt w seq 5 s) ∧
    (3 < h.op → h.op ≠ 6 → h.op ≠ 8 → h.op ≠ 9 → doRd w seq h s = .taken (refusePkt w seq 5 s)) ∧
    (offsetPa s (h.off / 64 * 64) = some pa → remapping s pa = true → ∀ d, doWr w seq { h with op := 0 } d s = .taken (refusePkt w seq 2 s))) ∧
  (∀ w seq h pa s, h.op ≤ 1 → offsetPa s (h.off / 8 * 8) = some pa → remapping s pa = false →
    homeGate s (pktCid w seq) pa 2 = .go → spaceOf s pa = .hbm → s.ms.susp = [] →
    doSig w seq h s = .taken (markPerformed w seq (memWrite pa 8
      (if h.op = 1 then (Machine.peek s pa 8 + 1) % 2 ^ 64 else 1) false none s)))

/-- O45. Links, routes, windows and domain barriers: what each timer and link event does when its time has come. -/
def Obligations.LinksAndTimersAct : Prop :=
  (∀ port s, port < 26 → (portOf s port).up = true →
    (∃ t, exec (.flitCrcResend port) s = .next t ∧ (portOf t port).resends = (portOf s port).resends + 1) ∧
    (∃ t, exec (.idleFlit port) s = .next t ∧ (portOf t port).lastIdle = s.cyc) ∧
    (∀ a b, worldActs s (.grant port a b) = outPump (modPort port (fun x => { x with
      lastValid := s.cyc, credReq := x.credReq + a, credRep := x.credRep + b }) s)) ∧
    (16 ≤ (portOf s port).resends → exec (.linkResendFailureLimit port) s = .next (linkDown port s)) ∧
    (exec (.blockLockLoss port) s = .next (linkDown port s)) ∧
    ((portOf s port).lastValid + 2 * Config.cyclesPerUs ≤ s.cyc → exec (.linkIdleTimeout port) s = .next (linkDown port s))) ∧
  (∀ port o s, port < 26 → (bootTable s).fabric = true →
    ((portOf s port).up = true → o.commanded = false → exec (.linkTraining port o) s = .next s) ∧
    (((portOf s port).up = false ∨ o.commanded = true) → o.versions ≠ 0 → 2 ≤ o.lanes →
      ∃ t, exec (.linkTraining port o) s = .next t ∧ (portOf t port).up = true ∧
      (portOf t port).lanes = (if 4 ≤ o.lanes then 4 else 2) ∧ (portOf t port).ver11 = o.versions.getLsbD 1 ∧
      (portOf t port).rate224 = (o.versions.getLsbD 1 && o.rate224)) ∧
    (o.versions = 0 ∨ o.lanes < 2 → (portOf s port).up = false → ∃ t, exec (.linkTraining port o) s = .next t ∧
      (portOf t port).up = false)) ∧
  (∀ src lane s, let w := 2 * src + lane % 2
    (filtOf s w).waiting = [] →
    ((∃ c, (filtOf s w).since = some c ∧ c + Config.cyclesPerUs ≤ s.cyc) → exec (.ackTimer src lane) s = .next (sendAck w s)) ∧
    ((filtOf s w).since = none → exec (.ackTimer src lane) s = .next s)) ∧
  (∀ dest lane c s, let x := winOf s (2 * dest + lane % 2)
    x.held ≠ [] → x.timer = some c → c + s.fab.tackUs * Config.cyclesPerUs ≤ s.cyc →
    exec (.tackExpiry dest lane) s = .next (failover dest s)) ∧
  (∀ dest c s, activeCand (routeOf s dest) = some c →
    exec (.unreachableTimeout dest) s = .next s) ∧
  (∀ dest since s, activeCand (routeOf s dest) = none → (winOf s (2 * dest)).allDown = some since →
    since + 100 * Config.cyclesPerUs ≤ s.cyc → ∃ t, exec (.unreachableTimeout dest) s = .next t ∧
      (winOf t (2 * dest)).held = [] ∧ (winOf t (2 * dest + 1)).held = [] ∧ (winOf t (2 * dest)).synced = false) ∧
  (∀ dest s, (winOf s (2 * dest)).holdUntil = none → (∃ c, (winOf s (2 * dest + 1)).holdUntil = some c ∧ c ≤ s.cyc) →
    exec (.resyncHoldExpiry dest) s = .next (sendSync [2 * dest + 1] s)) ∧
  (∀ dest s, (∀ w ∈ [2 * dest, 2 * dest + 1], ∃ c, (winOf s w).holdUntil = some c ∧ c ≤ s.cyc) →
    exec (.resyncHoldExpiry dest) s = .next (sendSync [2 * dest, 2 * dest + 1] s)) ∧
  (∀ i w h due s, s.fab.nakWait[i]? = some (w, h, due) → due ≤ s.cyc →
    let t := modFab (fun f => { f with nakWait := f.nakWait.eraseIdx i }) s
    let x := winOf t w
    exec (.nakRetryResend i) s = .next (windowPump (w / 2) w 1 (setWin t w { x with queued := x.queued ++ [h] }))) ∧
  (∀ dest cand s, let r := routeOf s dest
    cand < 4 → candPort r cand < 26 → candDown r cand = true →
    exec (.pathCheck dest cand true) s = .next (routeBack dest (setRoute dest (routeDown r cand false) s))) ∧
  (∀ i s, i < 64 → let e := domEntry s i
    e.getLsbD 63 = true →
    (domState e = 1 → domExpect e ≤ domCount e →
      exec (.baraSend i) s = .next (sendBara i (setDom i (domWith e 2 (domEpoch e) (domCount e)) s))) ∧
    (domState e = 2 → exec (.treeNotice i) s = .next (resendBara i s)) ∧
    (∀ c, domState e = 2 → s.fab.failedAt = some c → c + 2 * s.fab.tackUs * Config.cyclesPerUs ≤ s.cyc →
      exec (.barbTimeout i) s = .next (resendBara i s)) ∧
    (∀ st ep n, st < 4 → ep < 256 → n < 65536 → domState (domWith e st ep n) = st ∧ domEpoch (domWith e st ep n) = ep ∧
      domCount (domWith e st ep n) = n ∧ domBid (domWith e st ep n) = domBid e ∧ domExpect (domWith e st ep n) = domExpect e ∧
      (domWith e st ep n).getLsbD 63 = e.getLsbD 63)) ∧
  (∀ dest s, routable s dest = true → dest < 16384 → s.fab.resetAt + 1000 * Config.cyclesPerUs ≤ s.cyc →
    (winOf s (2 * dest)).synced = false → (winOf s (2 * dest)).holdUntil = none → (winOf s (2 * dest)).allDown = none →
    (winOf s (2 * dest + 1)).synced = true → exec (.postResetSync dest) s = .next (sendSync [2 * dest] s)) ∧
  (∀ port fr s, 18 ≤ port → port < 26 → (portOf s port).up = true →
    (frameOk fr = true → exec (.scaleOutFrame port fr) s = .next (fr.packets.foldl (fun s p => receive port p s) s)) ∧
    (frameOk fr = false → ∃ t, exec (.scaleOutFrame port fr) s = .next t ∧ t.fab.frameErrs = s.fab.frameErrs + 1 ∧
      t.ms = s.ms ∧ t.ctxs = s.ctxs))

/-! ### The command stream (R113 to R132) -/

/-- O46. A turn of a queue takes its next packet: it acts and the level moves past it; one that a PRED skips or that hangs on
an aborted WAIT does not act; a packet that cannot be read or is not well formed stops the queue. -/
def Obligations.PacketsIssueInOrder : Prop :=
  (∀ s slot q l x put t, NextPacket s slot q l x put t →
    let past := feOver forPackets q
    (∀ mk, (mk, pkTy x) ∈ [(Instr.actmsg, 1), (Instr.sweep, 2), (Instr.signal, 3), (Instr.wait, 4), (Instr.write, 5),
        (Instr.pred, 6), (Instr.ind, 7), (Instr.loopPacket, 8), (Instr.ffence, 9), (Instr.intr, 10), (Instr.graph, 11)] →
      (l.skip ≠ 0 → exec (mk slot) s = .next
        (pastPacketWith q put (l.pos + 32 * pkSize x) (fun l => { l with skip := l.skip - 1 }) (past t))) ∧
      (∀ f u, l.skip = 0 → l.guardN ≠ 0 → (abortDependant q x) t = .ok f u → exec (mk slot) s = .next
        (f (pastPacketWith q put (l.pos + 32 * pkSize x) (fun l => { l with guardN := l.guardN - 1 }) (past u)))) ∧
      (∀ next f u, PacketActs q l x → (actPacket q l x) t = .ok (next, f) u →
        exec (mk slot) s = .next (f (pastPacket q put next (past u))))) ∧
    (∀ next f u, pkB x = true → PacketActs q l x → (actPacket q l x) t = .ok (next, f) u →
      exec (.packetBarrierIssue slot) s = .next (f (pastPacket q put next (past u)))) ∧
    (pkB x = true → l.skip = 0 → l.guardN = 0 → q.issued ≠ [] → exec (.packetBarrierIssue slot) s = .next (past t))) ∧
  (∀ s slot, (slotQ s slot).all (fun q => !mayIssue forPackets q || q.wait.isSome) = true → ∀ mk ∈ [Instr.actmsg, Instr.sweep, Instr.signal,
      Instr.wait, Instr.write, Instr.pred, Instr.ind, Instr.loopPacket, Instr.ffence, Instr.intr, Instr.graph,
      Instr.packetBarrierIssue],
    exec (mk slot) s = .next s) ∧
  (∀ s slot q0, slotQ s slot = some q0 → mayIssue forPackets q0 = true → q0.wait = none → ∀ q, q = { q0 with levels := popLevels q0.levels } →
    ∀ l rest st t, q.levels = l :: rest → (fetchPkt q l.pos) (setSlotQ slot (some q) s) = .error st t →
    exec (.packetBarrierIssue slot) s = .next (feStopped forPackets q st t) ∧ exec (.ffence slot) s = .next (feStopped forPackets q st t)) ∧
  (∀ q off x s, (fetchChunk q off) s = .ok x s → (pkTy x ≠ 1 ∨ pkSize x ≠ 3) →
    (fetchPkt q off) s = (if pkVer x ≠ pktVer s q.fn then .error (.err 2) s
      else if pktOk q.fn false x = false then .error (.err 1) s else .ok x s))

/-- O47. What each packet does when it issues (R117 to R127). -/
def Obligations.PacketsHaveTheirEffect : Prop :=
  (∀ s slot q l x put t, NextPacket s slot q l x put t → PacketActs q l x →
    let next := l.pos + 32 * pkSize x
    let modQ := modQ (isQ q.fn q.qidx)
    let modL := modLevel q.fn q.qidx
    let past (u : State) : State := pastPacket q put next (feOver forPackets q u)
    (pkTy x = 9 → exec (.ffence slot) s = .next (modL (fun k => { k with held := [] }) (past t))) ∧
    (pkTy x = 10 → exec (.intr slot) s = .next (actIntr q x none (past t))) ∧
    (pkTy x = 7 → q.levels.length < 3 → exec (.ind slot) s = .next (modQ (fun q => { q with
      levels := { base := pkW x 1, len := pkW x 2, loc := pkOp x == 1, pos := 0 } :: q.levels }) (past t))) ∧
    (∀ u, pkTy x = 8 → pkW x 1 % 2 ^ 32 ≤ l.pos → (holdsLoop q l.pos 64 (l.pos - pkW x 1 % 2 ^ 32)) t = .ok false u →
      (l.loops + 1 < pkW x 1 / 2 ^ 32 → exec (.loopPacket slot) s = .next
        (modL (fun k => { k with loops := l.loops + 1 }) (pastPacket q put (l.pos - pkW x 1 % 2 ^ 32) (feOver forPackets q u)))) ∧
      (pkW x 1 / 2 ^ 32 ≤ l.loops + 1 → exec (.loopPacket slot) s = .next
        (modL (fun k => { k with loops := 0 }) (pastPacket q put (l.pos + 32) (feOver forPackets q u))))) ∧
    (∀ pa attr u, pkW x 1 % 8 = 0 → feAccess t q.asid (pkW x 1) 8 true = (.ok pa attr, u) →
      (feDirect u attr pa = none → pkOp x = 0 →
        (pkTy x = 3 → exec (.signal slot) s = .next (feStore attr pa 8 (pkW x 2) (past u))) ∧
        (pkTy x = 5 → exec (.write slot) s = .next (feStore attr pa 8 (pkW x 2) (past u)))) ∧
      (feDirect u attr pa = none → pkOp x = 1 → (poisonable u pa && poisonAt u pa 8) = false →
        let sum := ((homeBytes u pa 8).1 + pkW x 2) % 2 ^ 64
        (pkTy x = 3 → exec (.signal slot) s = .next (feStore attr pa 8 sum (correct pa 8 (past u)))) ∧
        (pkTy x = 5 → exec (.write slot) s = .next (feStore attr pa 8 sum (correct pa 8 (past u))))) ∧
      (∀ d off, feDirect u attr pa = some (d, off) →
        let sent (ty : Nat) : State := issueAs q { serial := 0, ty := ty } (fun n s =>
          if pkOp x = 1 then
            sendSeq { ty := tAMO, ddev := d, o := true, off := off, scope := 5 } [BitVec.ofNat 512 (pkW x 2)] (some (feCid, n)) true s
          else feStoreAs n attr pa 8 (pkW x 2) s) (past u)
        (pkTy x = 3 → exec (.signal slot) s = .next (sent 3)) ∧ (pkTy x = 5 → exec (.write slot) s = .next (sent 5)))) ∧
    (∀ pa attr u, pkW x 1 % 8 = 0 → feAccess t q.asid (pkW x 1) 8 false = (.ok pa attr, u) → let w := (homeBytes u pa 8).1
      (pkTy x = 4 → cmpHolds (pkCmp x) w (pkW x 2) (pkW x 3) = true → exec (.wait slot) s = .next
        (modL (fun k => { k with guardN := guardOf (pkCmp x) w (pkNum x) }) (past u))) ∧
      (pkTy x = 4 → cmpHolds (pkCmp x) w (pkW x 2) (pkW x 3) = false → exec (.wait slot) s = .next (modQ (fun q => { q with
        wait := some (pkW x 1, BitVec.ofNat 64 (pkW x 2), BitVec.ofNat 64 (pkW x 3), pkCmp x, pkNum x) }) (past u))) ∧
      (pkTy x = 6 → cmpHolds (pkCmp x) w (pkW x 2) (pkW x 3) = true → exec (.pred slot) s = .next (past u)) ∧
      (pkTy x = 6 → cmpHolds (pkCmp x) w (pkW x 2) (pkW x 3) = false → exec (.pred slot) s = .next
        (modL (fun k => { k with skip := pkNum x }) (past u)))) ∧
    (∀ pa attr u, pkTy x = 1 → pkW x 3 % 8 = 0 → engineWalk t q.asid (pkW x 2) (kRead ||| kEngine) false = (.ok (pa, attr), u) →
      (∀ d off, spaceOf (past u) pa ≠ .remote d off) →
      ∃ v m k, exec (.actmsg slot) s = .next v ∧ v.net = (past u).net ++ [.msg k m] ∧ m.line = pkW x 1 ∧
        m.target.toNat = pkW x 2 ∧ m.packet = some (q.fn, (past u).fe.nextSerial) ∧
        m.payload = (List.range 8).map fun k => Cap.ofInt (BitVec.ofNat 64 (pkW x (4 + k)))) ∧
    (∀ hd tags u v, pkTy x = 2 → (feHeader q (pkW x 1)) t = .ok (hd, tags) u → hdrWord hd 5 % 8 = 0 →
      ((sweepChecks q hd) u = .ok none v → exec (.sweep slot) s = .next
        (writeSignal q.fn q.qidx (sigAddr (hdrWord hd 5)) stRefused (modQ (fun q => { q with recFault := 0 }) (past v)))) ∧
      (∀ shapes, (sweepChecks q hd) u = .ok (some shapes) v → ∃ z w, exec (.sweep slot) s = .next z ∧
        z.fe.sweeps = (past v).fe.sweeps ++ [w] ∧ w.header = hd ∧ w.htags = tags ∧ w.shapes = shapes ∧
        w.fn = q.fn ∧ w.queue = q.qidx ∧ w.asid = q.asid ∧ w.arg = BitVec.ofNat 64 (pkW x 2) ∧
        ∀ k, k < hdrP hd → w.id ∈ (coreOf z (hdrFirst hd + k)).wakes)) ∧
    (∀ f u, pkTy x = 11 → (actGraph q x) t = .ok f u → exec (.graph slot) s = .next (f (past u)))) ∧
  (∀ cmp w value mask : Nat, let m := Nat.land w mask
    (cmpHolds 0 w value mask = true ↔ m = value) ∧ (cmpHolds 1 w value mask = true ↔ m ≠ value) ∧
    (cmpHolds 2 w value mask = true ↔ value ≤ m) ∧ (cmpHolds 3 w value mask = true ↔ m < value) ∧
    (cmp = 4 → (cmpHolds cmp w value mask = true ↔ w / 2 ^ 56 % 256 ≠ 0)))

/-- O48. A WAIT is read again until its test holds, a graph ends with its last node, write pointers are followed, gangs are
mapped whole, descriptors are checked, and a queue that the host disables is torn down (R70, R109 to R112, R120, R129, R131). -/
def Obligations.QueuesAreMappedPolledAndTornDown : Prop :=
  (∀ s slot q a value mask cmp guard pa attr t, slotQ s slot = some q → mayIssue forWait q = true →
    q.wait = some (a, value, mask, cmp, guard) → (∀ i ∈ q.issued, i.test = none) → a % 8 = 0 →
    feAccess s q.asid a 8 false = (.ok pa attr, t) → let w := (homeBytes t pa 8).1
    (cmpHolds cmp w value.toNat mask.toNat = true → exec (.waitReread slot) s = .next
      (modLevel q.fn q.qidx (fun l => { l with guardN := guardOf cmp w guard })
        (modQ (isQ q.fn q.qidx) (fun q => { q with wait := none }) (feOver forWait q t)))) ∧
    (cmpHolds cmp w value.toNat mask.toNat = false → exec (.waitReread slot) s = .next (feOver forWait q t))) ∧
  (∀ s id node g q i, graphOf s id = some g → graphQueue s g = some q → mayIssue (forGraph id) q = true →
    q.issued.find? (fun i => i.node == some (id, node) && i.done.isSome) = some i → i.serial ≠ g.serial → i.done = some stDone → g.cond = none →
    node < g.nodes.length → g.succs.getD node [] = [] → (∀ k, k < g.nodes.length → k ≠ node → g.nodes[k]? = some .done) →
    exec (.graphNodeComplete id node) s = .next (completePacket g.serial stDone
      (modFe (fun f => { f with graphs := f.graphs.filter fun x => x.id != id }) (feOver (forGraph id) q (modGraph id (nodeDone node stDone)
        (modQ (isQ q.fn q.qidx) (fun q => { q with issued := q.issued.filter fun j => j.serial != i.serial }) s)))))) ∧
  (∀ g i j, i < g.nodes.length → j ∈ g.succs.getD i [] → (g.succs.getD i []).Nodup → ∀ k, i ≠ j → g.nodes[j]? = some (.waiting k) →
    (nodeDone i stDone g).nodes[j]? = some (.waiting (k - 1)) ∧
    (∀ st, st ≠ stDone → (nodeDone i st g).nodes[j]? = some .aborted)) ∧
  (∀ s slot q, slotQ s slot = some q → mayIssue forPoll q = true → q.loc = false → let w := hostPeek s q.fn q.wptrA 8
    let bad := hostBad s q.fn q.wptrA 8
    let failed (n : Nat) : State := failQueue q.fn q.qidx n
      (feOver forPoll q (setSlotQ slot (some (if q.wait.isSome then q else { q with levels := popLevels q.levels })) s))
    (bad = false → w % 32 = 0 → q.wptr ≤ w → w ≤ q.rptr + 2 ^ q.log2 → ∃ t p, exec (.wptrPoll slot) s = .next t ∧ slotQ t slot = some p ∧
      p.wptr = w ∧ p.rptr = q.rptr) ∧
    (bad = false → w % 32 ≠ 0 ∨ w < q.wptr ∨ q.rptr + 2 ^ q.log2 < w →
      (∀ p ∈ allQs s, isQ q.fn q.qidx p = true → p.failed = false) → exec (.wptrPoll slot) s = .next (failed 6)) ∧
    (bad = true → (∀ p ∈ allQs s, isQ q.fn q.qidx p = true → p.failed = false) → exec (.wptrPoll slot) s = .next (failed 3))) ∧
  (∀ s f i, f < 64 → i < dirSize s f → fnReady s f = true → mappedOf s f i = none → keptOf s f i = none → let d := descOf s f i
    (descEn d = false → exec (.unmappedQueuePoll f i) s = .next s) ∧
    (descEn d = true → descFresh d = true → descOk s f d = false → exec (.unmappedQueuePoll f i) s = .next (failQueue f i 7 s)) ∧
    (descEn d = true → descOk s f d = true → descFresh d = true → queuePending s f i = true → ∃ t,
      exec (.unmappedQueuePoll f i) s = .next t ∧ t.fe.gangAges.any (fun a => a.fn == f && a.gang == gangKey d i) = true)) ∧
  (∀ s f gang i k, gangTodo s f gang = [i] → gangPending s f gang = true → gangBehind s f gang = false → queueWaits s f i = false →
    ((mappedQs s).filter fun e => e.2.fn == f).length + 1 ≤ slotQuota s f → keptOf s f i = none → descLoc (descOf s f i) = false →
    hostBad s f (descOf s f i).rptr 8 = false → openSlot s = some k →
    ∃ t j, exec (.gangMap f gang) s = .next t ∧
      slotQ t k = some { newQueue s f i (descOf s f i) (hostPeek s f (descOf s f i).rptr 8) with fslot := j } ∧
      ∀ j, j ≠ k → slotQ t j = slotQ s j) ∧
  (∀ s f i q, anyQ s f i = some q →
    (descEn (descOf s f i) = true → q.torn = false → exec (.queueTeardown f i) s = .next s) ∧
    (∀ u p, descEn (descOf s f i) = false ∨ q.torn = true → u = (if q.torn then s else teardownBegin q s) →
      anyQ u f i = some p → p.sigs = [] → exec (.queueTeardown f i) s = .next (teardownEnd f i u))) ∧
  (∀ s q p, anyQ (teardownBegin q s) q.fn q.qidx = some p → p.torn = true ∧ p.issued = [] ∧
    ∀ e ∈ p.sigs, e.2 = stAborted) ∧
  (∀ s f i, anyQ (teardownEnd f i s) f i = none ∧
    hostPeek (teardownEnd f i s) f (descAddr (teardownEnd f i s) f i + 0x19) 1 / 128 % 2 = 1)

/-! ### Events of firings and of the memory system -/

/-- O49. Sweeps reach their cores and end, FIFOs fire, messages arrive, the firing queue places, and firings are saved and
restored (R134, R141 to R169, R176, R488). -/
def Obligations.FiringsBeginAndAreMoved : Prop :=
  (∀ id s w, s.fe.sweeps.find? (·.id == id) = some w →
    (w.reports.length < hdrP w.header → exec (.sweepSignal id) s = .next s) ∧
    (hdrP w.header ≤ w.reports.length → ∀ st, (st = if ∃ r ∈ w.reports, r.2 = stFailed then stFailed
        else if ∃ r ∈ w.reports, r.2 = stAborted then stAborted else stDone) →
      exec (.sweepSignal id) s = .next (completePacket w.serial st (modGrp (fun g => { g with
        episodes := g.episodes.filter fun e => e.sweep != id }) (modFe (fun f => { f with
        sweeps := f.sweeps.filter fun x => x.id != id }) s))))) ∧
  (∀ core id rest s w n t, (coreOf s core).wakes = id :: rest → wakeParked s core = false → s.fe.sweeps.find? (·.id == id) = some w →
    wakeHeld core w (hdrWord w.header 3) s = (n, t) →
    ((coreOf s core).share.isSome = true → exec (.sweepWakeAccept core) s = .next s) ∧
    ((coreOf s core).share = none →
      (n = 1 → exec (.sweepWakeAccept core) s = .next t) ∧
      (n = 2 → exec (.sweepWakeAccept core) s = .next (failShare core w t)) ∧
      (∀ u, n = 0 → readActor t w.asid w.fn (hdrWord w.header 3) = (.ok none, u) →
        exec (.sweepWakeAccept core) s = .next (failShare core w u)) ∧
      (∀ a u, n = 0 → readActor t w.asid w.fn (hdrWord w.header 3) = (.ok (some a), u) →
        let rank := core - hdrFirst w.header
        exec (.sweepWakeAccept core) s = .next (enumShare core 57 (modCore core (fun k => { k with
          wakes := rest
          share := some { sweep := id, actor := a, group := rank, nextId := rank * 2 ^ hdrShift w.header (hdrPlace w.header) } })
          (writeLaunch core w u)))))) ∧
  (∀ core s m rest, let k := coreOf s core
    computeCore s core = true → spCount k.spctl = 0 → k.inbound = m :: rest → k.fq = [] → k.share = none →
    (stripOf s (stripNo core)).remap = none → (ctxOf s (core * 8 + 7)).st = .free → (ctxOf s (core * 8 + 7)).fir = none →
    m.payload.length = 8 →
    ∃ t, exec (.firingPlace core) s = .next t ∧ let x := ctxOf t (core * 8 + 7)
      x.st = .ready ∧ x.pc = ⟨m.line, 1⟩ ∧ x.asid = m.asid ∧ readM x 0 = 0xFFFFFFFF ∧ readG x 1 = Cap.ofInt m.target ∧
      readG x 2 = k.hdcap ∧ readG x 3 = spadCap core ∧ (∀ i c, m.payload[i]? = some c → readG x (4 + i) = c) ∧
      readG x 12 = Cap.ofInt (BitVec.ofNat 64 (m.sender + (if m.reply then 2 ^ 63 else 0)))) ∧
  (∀ core j q s, let k := coreOf s core
    computeCore s core = true → spCount k.spctl = 0 → k.inbound = [] → k.share = none → queueHead s core = some q →
    q.restoreTo = none → q.fir.actor.checked = false → freePlace s core = some j → placeable s core q.fir.cch q.fir.vch = true →
    exec (.firingPlace core) s = .next (modCore core (fun k => { k with fq := k.fq.erase q })
      (placeFir core j q.fir q.starts (CapF.addr q.fir.actor.code) s))) ∧
  (∀ core j f given line s, let x := ctxOf (placeFir core j f given line s) (core * 8 + j)
    x.st = .ready ∧ x.pc = ⟨line, 1⟩ ∧ x.asid = f.asid ∧ readM x 0 = 0xFFFFFFFF ∧
      x.fir.any (fun y => y.path == f.path && y.actor == f.actor && y.wid == f.wid) = true) ∧
  (∀ core b s, b < 16 → computeCore s core = true →
    (fifoRule s core b = false → exec (.fifoFire core b) s = .next s) ∧
    (fifoRule s core b = true → ∃ t q, exec (.fifoFire core b) s = .next t ∧ (coreOf t core).fq = (coreOf s core).fq ++ [q] ∧
      q.fir.path = .fifo b ∧ q.fir.actor = bindingActor s core b ∧
      q.starts = [(1, Cap.ofInt (BitVec.ofNat 64 (SMap.get 0 (coreOf s core).bindCount b)))])) ∧
  (∀ idx src core fifo bytes owner s, netAt s idx = some (.fifo src core fifo bytes owner) → let e := fifoOf s core fifo
    let fits := fifoV e && fifoPcore e == src && bytes.length == fifoEsz e && fifoCnt e < fifoCap e && computeCore s core
    (fits = true → exec (.fifoEntryArrival idx) s = .next (notePusher core owner (netTake idx s) (setFifo core fifo
      (fifoWith e (fifoCnt e + 1) (fifoHead e) ((fifoTail e + 1) % fifoCap e))
      (memWrite (windowOf core + fifoBase e + fifoTail e * fifoEsz e) bytes.length (leNat bytes) false none (netTake idx s))))) ∧
    (fits = false → exec (.fifoEntryArrival idx) s = .next (supRecord { code := 0x43, source := 0, unit := core, info := fifo }
      (postNet (.credit src core fifo 1) (netTake idx s))))) ∧
  (∀ idx core consumer fifo n b k s, netAt s idx = some (.credit core consumer fifo n) →
    creditPlace (netTake idx s) core consumer fifo = some (b, k) →
    exec (.creditReturn idx) s = .next (setCred core b k (credOf s core b k + n) (netTake idx s))) ∧
  (∀ core e v s, (e < 32 → exec (.fifoTableWrite core e v) s = .next (setFifo core e (fifoWritten (fifoOf s core e) v) s)) ∧
    (e < 16 → exec (.bindingWrite core e v) s = .next (bindWritten core e v (fnOfAsid s (bitsOf v.toNat 124 113), 0) s))) ∧
  (∀ idx core m s, netAt s idx = some (.msg core m) → let k := coreOf s core
    let moving := (stripOf s (stripNo core)).fenced
    (moving = true → m.from_ = none → exec (.messageArrival idx) s = .next s) ∧
    (∀ w seq, moving = true → m.from_ = some (w, seq) → exec (.messageArrival idx) s = .next (refusePkt w seq 2 (netTake idx s))) ∧
    (moving = false → computeCore s core = false ∨ (m.reply = true ∧ liveHandle s m.target.toNat = false) →
      exec (.messageArrival idx) s = .next (undeliverable core m (netTake idx s))) ∧
    (moving = false → computeCore s core = true → (m.reply = true → liveHandle s m.target.toNat = true) → spCount k.spctl = 0 →
      inboundRoom k m.reply = true → m.from_ = none → exec (.messageArrival idx) s = .next (netTake idx
        (setCore s core { k with inbound := k.inbound ++ [m] })))) ∧
  (∀ idx core m s, s.net[idx]? = some (.msg core m) → (s.net.take idx).all (fun x => match x with
      | .msg _ y => handleCore y.sender != handleCore m.sender
      | _ => true) = true →
    worldActs s (.leaves idx) = { s with net := s.net.set idx (.msg core { m with left := true }) }) ∧
  (∀ idx src st sender target line quiet asid packet s, netAt s idx = some (.undeliverable src st sender target line quiet asid packet) →
    (∀ p, packet = some p → exec (.undeliverableReturn idx) s = .next (completePacket p.2 stFailed (netTake idx s))) ∧
    (packet = none → quiet = none → sender < 2 ^ 40 → placedHandle s sender = true →
      exec (.undeliverableReturn idx) s = .next (endWait (handleCid sender) (modFir (handleCid sender)
        (fun f => { f with undelivered := f.undelivered ++ [target] }) (netTake idx s)))) ∧
    (packet = none → quiet = none → 2 ^ 40 ≤ sender → exec (.undeliverableReturn idx) s = .next
      (modCopy (sender - 2 ^ 40) (fun c => { c with ended := some (5, st) }) (netTake idx s)))) ∧
  (∀ core i q s, (coreOf s core).fq[i]? = some q →
    (q.enq + 2 ^ 20 ≤ s.cyc → q.fir.prio < 3 → exec (.priorityAgeing core i) s = .next (modCore core (fun k => { k with
      fq := k.fq.set i { q with enq := s.cyc, fir := { q.fir with prio := q.fir.prio + 1 } } }) s)) ∧
    (s.cyc < q.enq + 2 ^ 20 → exec (.priorityAgeing core i) s = .next s)) ∧
  (∀ core s, ((coreOf s core).stallSince = none → exec (.growstall core) s = .next s) ∧
    (∀ c, (coreOf s core).stallSince = some c → c + 2 ^ 20 ≤ s.cyc → (coreOf s core).stallPosted = false →
      exec (.growstall core) s = .next (supRecord { code := 0x41, source := 0, unit := core }
        (modCore core (fun k => { k with stallPosted := true }) s))) ∧
    (growStalled s core = true → (coreOf s core).stallSince = none → (coreOf (noteStall core s) core).stallSince = some s.cyc) ∧
    (growStalled s core = false → (coreOf (noteStall core s) core).stallSince = none)) ∧
  (∀ core j s, (coreOf s core).slot = some j → ((ctxOf s (core * 8 + j)).wait = .none ∨ ∃ p, (ctxOf s (core * 8 + j)).wait = .walk p) →
    (firOf s (core * 8 + j)).lens = none →
    ((coreOf s core).slotSince + 4096 ≤ s.cyc → exec (.slotLimitExpiry core) s = .next (markerPark (core * 8 + j) s)) ∧
    (s.cyc < (coreOf s core).slotSince + 4096 → exec (.slotLimitExpiry core) s = .next s)) ∧
  (∀ cid s, (saveOf s cid = none → mayPreempt s cid = false → exec (.preempt cid) s = .next s) ∧
    (mayPreempt s cid = true → stoppable s cid = true → ∃ t, exec (.preempt cid) s = .next t ∧ (ctxOf t cid).st = .saving)) ∧
  (∀ cid v s, saveOf s cid = some v →
    (v.written = false ∨ v.complete = true → exec (.saveComplete cid) s = .next s) ∧
    (v.written = true → v.complete = false → exec (.saveComplete cid) s = .next (completeSave v s))) ∧
  (∀ core q v s t, queueHead s core = some q → q.restoreTo.isSome = true → computeCore s core = true →
    (coreOf s core).saved.find? (fun v => v.fir.handle == q.fir.handle) = some v → v.complete = true → v.parked = false →
    placeable s core v.fir.cch v.fir.vch = true → v.units.length ≤ unitsFree s core → v.paired = false →
    (readImage v) s = .ok () t → exec (.restore core) s = .next t) ∧
  (∀ idx cid handle isV reg cap vec sender s, netAt s idx = some (.nwrite cid handle isV reg cap vec sender) →
    (retiredCore s (coreNo cid) = true → exec (.neighbourWriteArrival idx) s = .next
      (returnWrite (coreNo cid) handle sender (netTake idx s))) ∧
    (retiredCore s (coreNo cid) = false → savedOf s handle = none →
      (placedHandle s handle = true → handleCid handle = cid → exec (.neighbourWriteArrival idx) s = .next
        (placedWrite cid isV reg cap vec handle sender (netTake idx s))) ∧
      (placedHandle s handle = false → exec (.neighbourWriteArrival idx) s = .next
        (returnWrite (coreNo cid) handle sender (netTake idx s))))) ∧
  (∀ c isV reg cap vec handle sender s, let x := ctxOf s c
    (if isV then allotV c x reg else allotG c x reg) = true → SMap.get false (if isV then x.armV else x.armG) reg = false →
    (x.hold.length < 4 → (ctxOf (placedWrite c isV reg cap vec handle sender s) c).hold =
      x.hold ++ [{ isV := isV, reg := reg, sender := sender, cap := cap, vec := vec }]) ∧
    (4 ≤ x.hold.length → placedWrite c isV reg cap vec handle sender s = returnWrite (coreNo c) handle sender s))

/-- O50. Results, walks and stores complete, waiters go on, and the engines of arrays, lenses, pairs and copies act (R164,
R174, R175, R187, R190, R191, R211 to R220, R257, R290, R381, R457, R466). -/
def Obligations.MemoryEventsComplete : Prop :=
  (∀ cid idx p s, (ctxOf s cid).pend[idx]? = some p → (∀ q ∈ p.pieces, q.known.isSome = true) →
    (∀ a red attr pl, p.fin ≠ .rmw a red attr pl) →
    let t := modCtx cid (fun x => { x with pend := x.pend.set idx p }) s
    (arrives t cid p = true → exec (.resultArrival cid idx) s = .next (wakeReleases (resultWakes cid
      (modCtx cid (fun x => { x with pend := x.pend.eraseIdx idx }) (deliverBoth cid p t))))) ∧
    (arrives t cid p = false → exec (.resultArrival cid idx) s = .next t)) ∧
  (∀ c p r n s, p.dst = .g r → p.fin = .int n false → (∀ q ∈ p.pieces, q.bad = none) → partnerOf s c = none →
    deliverBoth c p s = modCtx c (fun x => arriveG (writeG x r (Cap.ofInt (BitVec.ofNat 64 (piecesNat p.pieces)))) r) s) ∧
  (∀ idx w s, s.tr.walks[idx]? = some w → walkInFlight s idx w = false → exec (.tlbWalkComplete idx) s = .next s) ∧
  (∀ idx w s, s.tr.walks[idx]? = some w → walkInFlight s idx w = true →
    (∀ va size pa attr pte, walkTable s w.asid (w.page * 4096) w.kind w.user = .leaf va size pa attr pte →
      va ≤ w.page * 4096 → w.page * 4096 < va + size → leafAllows attr.toNat w.kind w.user = true →
      ∃ t, exec (.tlbWalkComplete idx) s = .next t ∧ w ∉ t.tr.walks ∧
        ∃ e ∈ t.tr.tlb, e.unit = w.unit ∧ e.asid = w.asid ∧ e.va = va ∧ e.size = size ∧ e.pa = pa) ∧
    (∀ c l, walkTable s w.asid (w.page * 4096) w.kind w.user = .fault c l →
      ∃ t, exec (.tlbWalkComplete idx) s = .next t ∧ w ∉ t.tr.walks ∧ t.tr.tlb = s.tr.tlb ∧ t.ms = s.ms)) ∧
  (∀ core idx e s, (coreOf s core).sb[idx]? = some e →
    (storeReady s core idx e = false → exec (.storeAck core idx) s = .next s) ∧
    (storeReady s core idx e = true → (∀ d off, spaceOf s e.pa ≠ .remote d off) → e.mca = 0 → homeGate s e.cid e.pa 1 = .go →
      (ownerOf s (blockOf e.pa) = none ∨ ownerOf s (blockOf e.pa) = some core → exec (.storeAck core idx) s = .next (freeStore core idx
        (l1Store core e.pa e.n e.data e.tag (withHome e.pa e.home (homeWrite e.pa e.n e.data e.tag (some core) e.cid)
          (unsuspend e.pa 1 e.cid (if e.fenced then s else noteLaunch e.cid e.pa e.n s)))))) ∧
      (∀ k, ownerOf s (blockOf e.pa) = some k → k ≠ core → exec (.storeAck core idx) s = .next (postNotice k (blockOf e.pa) s)))) ∧
  (∀ strip idx a b e s, (stripOf s strip).sauWait[idx]? = some (a, b, e) →
    (∀ w ∈ (stripOf s strip).sauWait.take idx, blockOf w.2.2.pa ≠ blockOf e.pa) → e.mca = 0 → homeGate s e.cid e.pa 1 = .go →
    ownerOf s (blockOf e.pa) = none → exec (.stripAtomicAck strip idx) s = .next (freeSau strip idx
      (withHome e.pa e.home (homeWrite e.pa e.n e.data e.tag (some (4096 + strip)) e.cid)
        (unsuspend e.pa 1 e.cid (if e.fenced then s else noteLaunch e.cid e.pa e.n s))))) ∧
  (∀ idx src unit blk s, netAt s idx = some (.notice src unit blk) → ∃ t, exec (.ownershipNotice idx) s = .next t ∧ ownerOf t blk ≠ some unit) ∧
  (∀ idx pa bytes tag src s, netAt s idx = some (.replica pa bytes tag false src) →
    exec (.replicaForward idx) s = .next (wakeReleases (memWrite pa bytes.length (leNat bytes) tag none (netTake idx s)))) ∧
  (∀ idx pa bytes tag unit i s, netAt s idx = some (.replica pa bytes tag true unit) → unit < 4096 →
    ∀ t, t = wakeTags (fun b => ((pa :: otherReplicas pa).map blockOf).contains b)
      ((pa :: otherReplicas pa).foldl (fun t a => withHome a (dieHome s (a / 0x3000000000) a)
        (memWrite a bytes.length (leNat bytes) tag (if a == pa then some unit else none)) t) (netTake idx s)) →
    (coreOf t unit).sb.findIdx? (fun e => e.mca == 2 && e.pa == pa && e.n == bytes.length) = some i →
    exec (.replicaMarkAck idx) s = .next (freeStore unit i (l1Store unit pa bytes.length (leNat bytes) tag t))) ∧
  (∀ core unit u s, SMap.get none (coreOf s core).units unit = some u →
    (u.write = true ∨ 4 ≤ u.ahead.length ∨ SU.total u ≤ u.pos + u.ahead.length * SU.per u →
      exec (.streamPrefetch core unit) s = .next s) ∧
    (∀ y f t, u.write = false → u.ahead.length < 4 → u.pos + u.ahead.length * SU.per u < SU.total u →
      (∀ a ∈ u.ahead, a.2.2 = none) → (regRead u (u.pos + u.ahead.length * SU.per u) (SU.per u) 0)
        (modCtx u.cid (fun x => { x with fpflags := 0 }) { s with cur := u.cid }) = .ok (y, f) t →
      (∀ a, f = some (a, 5) → exec (.streamPrefetch core unit) s = .next s) ∧
      ((∀ a, f ≠ some (a, 5)) → exec (.streamPrefetch core unit) s = .next (wakeStreams (setUnit core unit
        (some { u with ahead := u.ahead ++ [(BitVec.ofNat 1024 y, (ctxOf t u.cid).fpflags, f)] })
        (modCtx u.cid (fun x => { x with fpflags := (ctxOf s u.cid).fpflags }) { t with cur := s.cur })))))) ∧
  (∀ line l s, SMap.get none s.ms.l2 line = some l →
    (l.pinned.isSome = true → exec (.l2Eviction line) s = .next s) ∧
    (∀ k, l.pinned = none → l.owner = some k → exec (.l2Eviction line) s = .next (postNotice k line s)) ∧
    (l.pinned = none → l.owner = none → ∃ t, exec (.l2Eviction line) s = .next t ∧ SMap.get none t.ms.l2 line = none)) ∧
  (∀ strip dt s, let t := stripOf s strip
    t.gangSince.isSome = true → (t.gang ≠ [] ∨ t.barmax ≠ []) →
    let lim := bitsOf t.gwlim.toNat 15 0 * 1024
    (stripOf (countGangs dt s) strip).gangCount = (if gangPausedNow s strip then t.gangCount else t.gangCount + dt) ∧
    (lim ≠ 0 → lim ≤ t.gangCount → exec (.gangWatchdog strip) s = .next (supRecord { code := 0x11, source := 1, unit := strip, info := 256 }
      (modStrip strip (fun t => { t with gangCount := 0 }) s))) ∧
    (lim = 0 ∨ t.gangCount < lim → exec (.gangWatchdog strip) s = .next s)) ∧
  (∀ strip o r s, (stripOf s strip).ops = o :: r →
    (o.started = none → exec (.arrayOperationStart strip) s = .next
      (modStrip strip (fun t => { t with ops := { o with started := some s.cyc } :: r }) s)) ∧
    (∀ b, o.started = some b → s.cyc < b + arrayTime o.f - 1 + 24 → exec (.mmaRetire strip) s = .next s) ∧
    (∀ b, o.started = some b → b + arrayTime o.f - 1 + 24 ≤ s.cyc → exec (.mmaRetire strip) s = .next (settleSlots strip
      (modStrip strip (fun t => { t with ops := r }) (o.parts.foldl (retirePart strip (stripOf s strip) o) s))))) ∧
  (∀ cid l s, s.grp.lenses.find? (·.lead == cid) = some l →
    (l.started = false → (ctxOf s cid).st = .waiting → s.cyc ≠ l.claimed →
      (l.asked = false → exec (.lensStart cid) s = .next (stopElems l s)) ∧
      (l.asked = true → lensFree s l = true → exec (.lensStart cid) s = .next (grant cid
        (modGrp (fun g => { g with lenses := g.lenses.map fun x => if x.lead == cid then { x with started := true } else x }) s))) ∧
      (l.asked = true → lensFree s l = false → exec (.lensStart cid) s = .next s)) ∧
    (s.cyc = l.claimed → exec (.lensStart cid) s = .next s) ∧
    (∃ t, exec (.lensBranchResolve cid) s = .next t ∧ t.ctxs = s.ctxs ∧
      (l.started = true → (ctxOf s cid).fl = false → l.elems ≠ [] → ∃ k ∈ t.grp.lenses, k.lead = cid ∧
        k.dealt.head? = some ((ctxOf s cid).pc.line, (ctxOf s cid).pc.line / 64 % l.elems.length)))) ∧
  (∀ cid s, (ctxOf s cid).wait = .pairPark → (ctxOf s cid).st = .waiting → (ctxOf s cid).granted = false →
    (partnerPlace s (coreNo cid) (firOf s cid).cch (firOf s cid).vch = none → exec (.pairStart cid) s = .next s) ∧
    (∀ p, partnerPlace s (coreNo cid) (firOf s cid).cch (firOf s cid).vch = some p → p ≠ cid → ∃ t, exec (.pairStart cid) s = .next t ∧
      (ctxOf t cid).granted = true ∧ (ctxOf t cid).st = .ready ∧ (ctxOf t p).st = .parked ∧
      ∃ k ∈ t.grp.pairs, k.prim = cid ∧ k.part = p)) ∧
  (∀ idx c s, s.cp.copies[idx]? = some c → onEngine s idx c = false → exec (.copyComplete idx) s = .next s) ∧
  (∀ idx c st fc pa attr t s, s.cp.copies[idx]? = some c → copyById s c.id = some c → onEngine s idx c = true →
    c.parked = false → c.late = [] → c.ended = some (st, fc) → st ≠ 2 → c.recorded = false →
    CpF.sigen c = false → CpF.scope c < 4 → copySettled s c = true →
    engineWalk (freeLocks c.id s) c.asid (ringEntry c.ring c.xid) (kWrite ||| kEngine) c.user = (.ok (pa, attr), t) →
    ∀ q, q = replicaPa attr (dieOfCore c.core) pa → (∀ d off, spaceOf t q ≠ .remote d off) → homeGate t (copyMark c.id) q 1 = .go →
    ∀ w, w = modCopy c.id (fun c => { c with recorded := true, relBegun := false })
      (copyStore c attr q 32 (ringBytes c (recordStatus c st s.cyc) fc t.cyc) (unsuspend q 1 (copyMark c.id) t)) →
    (∀ k, copyById w c.id = some k → CpF.scope k < 4 ∧ copySettled w k = true) →
    exec (.copyComplete idx) s = .next (copyGone c w)) ∧
  (∀ cid a b s, (ctxOf s cid).wait = .waitt a b → (ctxOf s cid).st = .waiting →
    (a ≤ s.cyc → exec (.waittExpiry cid) s = .next (modCtx cid (fun x => { x with st := .ready }) s)) ∧
    (s.cyc < a → exec (.waittExpiry cid) s = .next s) ∧
    ((∃ c ∈ s.cp.copies, c.core = coreNo cid ∧ c.xid = b ∧ c.promise ≤ s.cyc) → ((ctxOf s cid).fir.getD {}).missTaken.contains b = false →
      exec (.promiseMissed cid) s = .next (modCtx cid (fun x => { x with st := .ready }) s))) ∧
  (∀ cid pa s, (ctxOf s cid).wait = .fullEmpty pa false → (ctxOf s cid).st = .waiting →
    ((ctxOf s cid).since + 256 ≤ s.cyc → exec (.feWaiterRetry cid) s = .next (modCtx cid (fun x => { x with st := .ready }) s)) ∧
    (s.cyc < (ctxOf s cid).since + 256 → exec (.feWaiterRetry cid) s = .next s))

/-! ### Prisms (R228 to R251) -/

/-- O51. A Prism serves its messages: hardware answers what it can, a handler starts for the rest, and a message without a
handler is refused; runs are limited, spilled requests and partial sums go on, and the supervisor's commands end with their
status. -/
def Obligations.PrismsServeTheirMessages : Prop :=
  (∀ mk rep ty, (mk, rep, ty) ∈ [(Instr.gets, false, 0x00), (Instr.getm, false, 0x01), (Instr.puts, false, 0x02),
      (Instr.putm, false, 0x03), (Instr.probeAnswer, true, 0x04), (Instr.pdata, true, 0x05), (Instr.lread, false, 0x06),
      (Instr.lwrite, false, 0x07), (Instr.latom, false, 0x08), (Instr.grant, true, 0x0B), (Instr.update, false, 0x0B),
      (Instr.proxyProbe, false, 0x0A), (Instr.lost, false, 0x0C), (Instr.pushrel, false, 0x0D), (Instr.fwdNak, true, 0x3F)] →
    ∀ p idx m s, (inbox s p rep)[idx]? = some m → m.ty = ty → ∀ t, t = dropMsg p rep idx s →
      (firstMsg s p rep ≠ some idx → exec (mk p idx) s = .next (roomAt p s)) ∧
      (firstMsg s p rep = some idx →
        (∀ u, hardware p m t = some u → exec (mk p idx) s = .next (roomAt p u)) ∧
        (∀ th, hardware p m t = none → (handlerEntry s p m).testBit 63 = true → freeThread s p rep = some th →
          exec (mk p idx) s = .next (roomAt p (startRun p th m (handlerEntry s p m) (if ty = 0x0C then lostDo p m t else t)))) ∧
        (hardware p m t = none → (handlerEntry s p m).testBit 63 = true → freeThread s p rep = none →
          exec (mk p idx) s = .next (roomAt p s)) ∧
        (hardware p m t = none → (handlerEntry s p m).testBit 63 = false → exec (mk p idx) s = .next
          (roomAt p (noHandler p m (if ty = 0x0C then lostDo p m t else t)))))) ∧
  (∀ p m s, let e := dirEntry s p m.block
    let line := (SMap.get none (prismOf s p).dir (dirLine m.block)).isSome
    let k := if line then dirLine m.block else dirRegion m.block
    let sh := addSharer e (msgDev m)
    p < 24 → protoOf s p m.block = 0 → e.getLsbD 60 = false → e.getLsbD 8 = false → txnOpen s p m.block = false →
    atagOf s m.block ≠ 3 →
    (m.ty = 0 → dirDst e ≤ 1 → dirRoom s p k = true → hardware p m s = some
      (fastGrant p m k (dirWith e line 1 (dirSeq e + 1) sh.1 sh.2) 0 s)) ∧
    (m.ty = 1 → dirDst e = 0 → dirRoom s p (dirLine m.block) = true → hardware p m s = some
      (fastGrant p m (dirLine m.block) (dirWith e true 2 (dirSeq e + 1) false (oneSharer (msgDev m))) 1 s)) ∧
    (m.ty = 3 → dirDst e = 2 → dirPtr0 e = msgDev m → m.seq.toNat % 64 = dirSeq e % 64 →
      hardware p m s = some (fastPutm p m line e s)) ∧
    (m.ty = 0 → 2 ≤ dirDst e → hardware p m s = none) ∧ (m.ty = 1 → 1 ≤ dirDst e → hardware p m s = none)) ∧
  (∀ p t m entry s, let x := ctxOf (startRun p t m entry s) (32768 + 8 * p + t)
    x.pc = ⟨bitsOf entry 55 6 * 64, 1⟩ ∧ readG x 4 = Cap.ofInt (BitVec.ofNat 64 m.block) ∧ readG x 5 = Cap.ofInt m.requester ∧
      readG x 6 = Cap.ofInt m.seq ∧ readG x 7 = Cap.ofInt (dirImage s p m.block) ∧
      (SMap.get none (prismOf (startRun p t m entry s) p).thr t).isSome = true) ∧
  (∀ p t idx m s, let rep := decide (6 ≤ t)
    p < 51 → t < 8 → SMap.get none (prismOf s p).thr t = none → firstMsg s p rep = some idx → (inbox s p rep)[idx]? = some m →
    m.ty ≠ 0x0C → hardware p m (dropMsg p rep idx s) = none → (handlerEntry s p m).testBit 63 = true →
    exec (.prismDispatch p t) s = .next (roomAt p (startRun p t m (handlerEntry s p m) (dropMsg p rep idx s)))) ∧
  (∀ p idx m c s, (prismOf s p).req[idx]? = some m → m.retryAt = some c →
    (s.cyc < c → exec (.retryRedispatch p idx) s = .next s) ∧
    (∀ th, c ≤ s.cyc → firstMsg s p false = some idx → m.ty ≠ 0x0C → hardware p m (dropMsg p false idx s) = none →
      (handlerEntry s p m).testBit 63 = true → freeThread s p false = some th →
      exec (.retryRedispatch p idx) s = .next (roomAt p (startRun p th m (handlerEntry s p m) (dropMsg p false idx s))))) ∧
  (∀ p t r s, p < 51 → t < 8 → runOf s (32768 + 8 * p + t) = some r →
    ((prismOf s p).wd ≤ r.count → exec (.handlerWatchdog p t) s = .next (stopHandler (32768 + 8 * p + t) 0x15 false s)) ∧
    (r.count < (prismOf s p).wd → exec (.handlerWatchdog p t) s = .next s)) ∧
  (∀ p mark k rest s, (prismOf s p).spill = (mark, k) :: rest →
    (outQueued s p < 32 → exec (.prismSpillDrain p) s = .next (sendFwd p mark k (modPrism p (fun x => { x with spill := rest }) s))) ∧
    (32 ≤ outQueued s p → exec (.prismSpillDrain p) s = .next s)) ∧
  (∀ p idx e d off s, (prismOf s p).part[idx]? = some e → spaceOf s e.block = .remote d off →
    (e.opened + 100 * Config.cyclesPerUs ≤ s.cyc → exec (.partialEntryTimeout p idx) s = .next
      (sendRedc (2 ^ 22) e (modPrism p (fun x => { x with part := x.part.eraseIdx idx }) s))) ∧
    (s.cyc < e.opened + 100 * Config.cyclesPerUs → exec (.partialEntryTimeout p idx) s = .next s)) ∧
  (∀ s, prUnder s 1 = true → ∃ t, exec .rtsync s = .next t ∧ t.regs.prbusy = false ∧ t.regs.prstatus = 0 ∧
    ∀ p i, p < 51 → i < 4096 → let e := regionRead s i
      SMap.get 0 (prismOf t p).regions i = (if regV e && regOk s e then e else 0)) ∧
  (∀ s, prUnder s 2 = true → let i := prArgOf s % 4096
    let e := regionRead s i
    let held := SMap.get 0 (prismOf s 0).regions i
    (s.regs.prstep = false → regV e = false ∨ regPend e = false ∨ regOk s e = false ∨ regNproto e = 7 →
      exec .rebind s = .next (prDone 2 s)) ∧
    (s.regs.prstep = false → regV e = true → regPend e = true → regOk s e = true → regNproto e ≠ 7 →
      ∀ t, t = modRegs (fun r => { r with prstep := true }) (regionHeld i e s) →
      exec .rebind s = .next (if regHome e = s.dev then closeParts (inRegion e) (regionTags e 3 t) else giveUp e (regionTags e 3 t))) ∧
    (s.regs.prstep = true → regHome held ≠ s.dev → exec .rebind s = .next
      (if gaveUp held (giveUp held s) then rebindEnd i held (giveUp held s) else giveUp held s)) ∧
    (s.regs.prstep = true → regHome held = s.dev → regionCopies s held = [] →
      (∀ p < 24, (∀ x ∈ (prismOf s p).txn, inRegion held (64 * x.1) = false) ∧ (∀ m ∈ (prismOf s p).req, m.ty ≠ 0x0E) ∧
        ∀ x ∈ (prismOf s p).thr, ∀ r, x.2 = some r → r.msg.ty ≠ 0x0E) →
      exec .rebind s = .next (rebindEnd i held s))) ∧
  (∀ s, prUnder s 3 = true → let p := prPrism s
    let blk := normPa s (s.regs.prarg.toNat % 2 ^ 56) / 64 * 64
    (prAll s = true ∨ 51 ≤ p ∨ servingPrism s blk ≠ p → exec .unbusy s = .next (prDone 2 s)) ∧
    (prAll s = false → p < 51 → servingPrism s blk = p → atagOf s blk ≠ 3 → exec .unbusy s = .next (prDone 3 s)) ∧
    (prAll s = false → p < 51 → servingPrism s blk = p → atagOf s blk = 3 → bitsOf (prArgOf s) 3 2 = 0 →
      exec .unbusy s = .next (prDone 0 (announce p (setAtag blk (bitsOf (prArgOf s) 1 0) (txnClose p blk s)))))) ∧
  (∀ s, prUnder s 4 = true →
    (prArgOf s % 65536 = 0 ∨ (prAll s = false ∧ 51 ≤ prPrism s) → exec .setwd s = .next (prDone 2 s)) ∧
    (prArgOf s % 65536 ≠ 0 → prAll s = true ∨ prPrism s < 51 → ∃ t, exec .setwd s = .next t ∧ t.regs.prbusy = false ∧
      t.regs.prstatus = 0 ∧ ∀ p, (prAll s = true ∧ p < 51) ∨ (prAll s = false ∧ p = prPrism s) → (prismOf t p).wd = prArgOf s % 65536)) ∧
  (∀ s, prUnder s 5 = true → let old := bitsOf s.regs.prarg.toNat 55 12 * 4096
    let new := prArgOf s % 2 ^ 44 * 4096
    (localHbm s old = false ∨ localHbm s new = false → exec .migrate s = .next (prDone 2 s)) ∧
    (localHbm s old = true → localHbm s new = true → pageHeld s old = true → exec .migrate s = .next (prDone 3 s)) ∧
    (localHbm s old = true → localHbm s new = true → pageHeld s old = false → ∃ t, exec .migrate s = .next t ∧
      t.regs.prbusy = false ∧ t.regs.prstatus = 0 ∧ Machine.peek t new 4096 = Machine.peek s old 4096)) ∧
  (∀ s, prUnder s 6 = true → let page := bitsOf s.regs.prarg.toNat 55 12 * 4096
    let locked := (pagePrisms page).any fun p => (prismOf s p).dir.any fun e => (e.2.any fun d => d.getLsbD 60) && inPage page (keyBlock e.1)
    (localHbm s page = false → exec .migdone s = .next (prDone 2 s)) ∧
    (localHbm s page = true → locked = false → exec .migdone s = .next (prDone 3 s)) ∧
    (localHbm s page = true → locked = true → ∃ t, exec .migdone s = .next t ∧ t.regs.prbusy = false ∧ t.regs.prstatus = 0)) ∧
  (∀ s, s.regs.prbusy = false → ∀ i ∈ [Instr.rtsync, .rebind, .unbusy, .setwd, .migrate, .migdone], exec i s = .next s)

/-! ### Encodings and lines (R329 to R336) -/

/-- O52. MOV copies gA whole with its tag and MOVD clears the tag (R370); CSUB and MADD compute modulo 2^64 (R371, R363), and
MADD needs gD allotted and present; VMOV copies all 1,024 bits (R434); each at its place of the encoding. -/
def Obligations.MovesCopyAndMaddReadsItsDestination : Prop :=
  let stands (mk : Head → Instr) (major f : Nat) : Prop :=
    ∀ h, Instr.wf (mk h) = true → h.form = .T1 ∧ h.f.toNat = f ∧ ∃ w us, encode (mk h) = some (w :: us) ∧ majorOf w = major
  stands .mov 0x16 0 ∧ stands .movd 0x16 1 ∧ stands .csub 0x17 0 ∧ stands .madd 0x0F 0 ∧ stands .vmov 0x69 0 ∧
  (∀ h, Instr.wf (.mov h) = true ∨ Instr.wf (.movd h) = true ∨ Instr.wf (.vmov h) = true → h.b = 0) ∧
  Effects .mov Rows.mov (fun h s => withG h (gA s h) s) ∧
  Effects .movd Rows.movd (fun h s => withG h { gA s h with tag := false } s) ∧
  Computes .csub Rows.csub (fun a b => a - b) ∧
  (∀ h s, Issues s Rows.madd (Use.ofRow Rows.madd h).readD →
    exec (.madd h) s = .next (advance h (Use.ofRow Rows.madd h).readD .seq (withInt h ((gD s h).val + opA s h * opB s h) s)) ∧
    allotG s.cur (here s) h.d.toNat = true ∧ presentG (here s) h.d.toNat = true) ∧
  Effects .vmov Rows.vmov (fun h s => withV h (readV (here s) h.a.toNat) s)

/-- O53. A line read from memory holds 32 slots of 16 bits, least significant byte first; slot 0 is the header with N and
reserved bits, and heads 1 to N run in program order (R329). -/
def Obligations.LinesHoldThirtyTwoSlots : Prop :=
  (∀ s pa k, k < 32 → (slotOf (BitVec.ofNat 512 (Machine.peek s pa 64)) k).toNat =
    Machine.peek s (pa + 2 * k) 1 + 256 * Machine.peek s (pa + 2 * k + 1) 1) ∧
  (∀ l : Line, headsOf l = (slotOf l 0).toNat / 2 ^ 11) ∧
  (∀ l e, headsOf l ≠ 0 → (slotOf l 0).toNat % 2 ^ 11 ≠ 0 → lineBad l e = some 2) ∧
  (∀ l i, decodeLine l i = decodeHead (slotOf l i) (unitsOf l i)) ∧
  (∀ l e, lineBad l e = none → 1 ≤ e ∧ e ≤ headsOf l) ∧
  (∀ line i n, i < n → pcAfter ⟨line, i⟩ n = ⟨line, i + 1⟩)

/-- O54. Decoding inverts encoding: every well-formed head, with every operand at every value its encoding admits, decodes
from its words to itself, and whatever decodes is well formed and encodes to the words it came from (R329 to R336). -/
def Obligations.DecodingInvertsEncoding : Prop :=
  (∀ i, Instr.wf i = true → ∃ ws, encode i = some ws ∧ decodeWords ws = some i) ∧
  (∀ w units i, tailUnits w ≤ units.length → decodeWords (w :: units) = some i →
    Instr.wf i = true ∧ encode i = some (w :: units.take (tailUnits w)))

/-- O55. Words that the spec writes out decode to the heads it names (R341, R359, R377, R381, R448, R464, R465, R474). -/
def Obligations.WordsOfTheSpecDecode : Prop :=
  decodeWords [0x4D09, 0x0833, 0x0040] = some (.ldaq { form := .T2, d := 9, a := 2, b := 3, f := 3, imm := 0x40 }) ∧
  decodeWords [0x6054, 0x0000, 0x9ABC, 0x5678, 0x1234] = some (.add { form := .T4, d := 20, imm := 0x123456789ABC }) ∧
  decodeWords [0x54C3, 0x0420, 0x000A] = some (.vfma { form := .T2, d := 3, a := 1, b := 2, imm := 0x000A }) ∧
  decodeWords [0x5CC0, 0x28B0, 0x0000] = some (.mma { form := .T2, a := 10, b := 11 }) ∧
  decodeWords [0x5E09, 0x0000, 0x0001] = some (.mfc { form := .T2, d := 9, imm := 1 }) ∧
  decodeWords [0x5EC0, 0x0000, 0x0004] = some (.compose { form := .T2, imm := 4 }) ∧
  decodeWords [0x3EC0, 0x0001] = some (.decompose { form := .T1, f := 1 }) ∧
  decodeWords [0x1E8C] = some (.cpgo { form := .H, d := 12 }) ∧
  decodeWords [0x29C0, 0x2500] = some (.waitt { form := .T1, a := 9, b := 16 }) ∧
  decodeWords [0x4446, 0x1800, 0x0BB8] = some (.csetb { form := .T2, d := 6, a := 6, imm := 0x0BB8 }) ∧
  decodeWords [0x5F89, 0x1000, 0x0002] = some (.tagset { form := .T2, d := 9, a := 4, imm := 2 })

/-! ### The machine as a whole -/

/-- O56. A step runs what stands next: an event of the agenda as it is, the packet of a slot, or the head that the line at
the program counter of the context in the slot decodes to; a line or a head that breaks a rule of its encoding traps. -/
def Obligations.StepRunsTheDecodedHead : Prop :=
  (∀ s dt i env rest, s.agenda = ⟨dt, .event i, env⟩ :: rest → step s = exec i (elapse dt env { s with agenda := rest })) ∧
  (∀ s dt, s.fab.fau = [] → (∀ e ∈ s.strips, e.2.gangSince = none) → elapse dt [] s = { s with cyc := s.cyc + dt }) ∧
  (∀ s s0 j u w pa attr v l, s.agenda = [] → s0 = elapse 1 [] s → s0.firm.powered = true →
    computeCore s0 s.focus = true ∨ controlCore s0 s.focus = true → selectCtx s0 s.focus = some j →
    markerHeld s0 (s.focus * 8 + j) = false → u = takeSlot s.focus j s0 →
    ((here u).granted = false ∧ ((here u).fir.getD {}).undelivered = [] ∧ saveOf u u.cur = none ∧ w = dealLens u.cur u) ∨
      ((here u).granted = true ∧ (∀ a b c, (here u).wait ≠ .fault a b c) ∧ w = u) →
    translate (here w).pc.line kExec w = .ok (pa, attr) v →
    SMap.get none (coreOf v (coreNo w.cur)).l1i (blockOf (replicaPa attr (dieOfCore (coreNo w.cur)) pa)) = some l →
    (∀ info, lineBad l.data (here v).pc.head = some info → step s = .next (trapAt w 0x01 0 info)) ∧
    (∀ sub, lineBad l.data (here v).pc.head = none → decodeLine l.data (here v).pc.head = .error sub →
      step s = .next (trapAt w 0x02 0 sub)) ∧
    (∀ i, lineBad l.data (here v).pc.head = none → decodeLine l.data (here v).pc.head = .ok i →
      step s = exec i { v with heads := headsOf l.data })) ∧
  (∀ s dt env p t rest i u, s.agenda = ⟨dt, .thread p t, env⟩ :: rest → p < 51 → t < 8 →
    u = { elapse dt env { s with agenda := rest } with cur := 32768 + 8 * p + t } → u.firm.powered = true →
    let v := correct (here u).pc.line 64 u
    let line := BitVec.ofNat 512 (Machine.peek u (here u).pc.line 64)
    (runOf u u.cur).isSome = true → poisonAt u (here u).pc.line 64 = false → lineBad line (here v).pc.head = none →
    decodeLine line (here v).pc.head = .ok i → step s = exec i { v with heads := headsOf line }) ∧
  (∀ s dt env slot rest q0 q x t i u, s.agenda = ⟨dt, .packet slot, env⟩ :: rest →
    u = elapse dt env { s with agenda := rest } → u.firm.powered = true →
    slotQ u slot = some q0 → mayIssue forPackets q0 = true → q0.wait = none → q = { q0 with levels := popLevels q0.levels } →
    (fetchPkt q ((q.levels.head?.map (·.pos)).getD 0)) (setSlotQ slot (some q) u) = .ok x t → packetStep slot x = some i →
    step s = exec i t) ∧
  (∀ s s0, s.agenda = [] → s0 = elapse 1 [] s → s0.firm.powered = true → controlCore s0 s.focus = true →
    selectCtx s0 s.focus = none → (∀ j < 8, (ctxOf s0 (s.focus * 8 + j)).st = .free) → step s = .fault .firmwareCore)

/-- O57. Every step keeps both memories in their canonical form. -/
def Obligations.StepKeepsMemoryCanonical : Prop :=
  ∀ s t, s.memOk → step s = .next t → t.memOk

/-- O58. The machine right after reset (the values the spec gives): memory zero with tags clear and access tags writable, no
context in use, TRAPVEC null, GWLIM 0x4000, no version selected, all ASIDs and slots with function 0, the watchdog at
2,048; and both memories canonical. -/
def Obligations.ResetLeavesTheStatedValues : Prop :=
  let s := State.reset
  s.memOk ∧ (∀ a, Machine.peek s a 1 = 0 ∧ tagAt s a = false) ∧ (∀ a, spaceOf s a = .hbm → atagOf s a = 2) ∧
  (∀ c, (ctxOf s c).st = .free ∧ (ctxOf s c).fir = none) ∧ (∀ k, (coreOf s k).trapvec = Cap.null) ∧
  (∀ k, (stripOf s k).gwlim = 0x4000) ∧ (∀ f, (fnOf s f).hvsel = 0 ∧ (fnOf s f).qdirbase = 0 ∧ (fnOf s f).fqctl.getLsbD 63 = false) ∧
  bitsOf (fnOf s 0).vfctl.toNat 39 27 = 4096 ∧ bitsOf (fnOf s 0).vfctl.toNat 26 18 = 256 ∧
  (∀ f, f ≠ 0 → (fnOf s f).vfctl = 0) ∧ (∀ p, (prismOf s p).wd = 2048) ∧ allQs s = [] ∧ s.agenda = []

/-- O59. Memory gives back what was written, byte for byte, and a write leaves every other byte; a store that its home
acknowledges changes no byte outside its own (R175, R212). -/
def Obligations.MemoryGivesBackWhatWasWritten : Prop :=
  (∀ pa n x tag owner s, Machine.peek (memWrite pa n x tag owner s) pa n = x % 2 ^ (8 * n)) ∧
  (∀ pa n x tag owner s b k, b + k ≤ pa ∨ pa + n ≤ b → Machine.peek (memWrite pa n x tag owner s) b k = Machine.peek s b k) ∧
  (∀ f a n x s, a + n ≤ 2 ^ 64 → hostPeek (hostPoke f a n x s) f a n = x % 2 ^ (8 * n)) ∧
  (∀ f a n x s g b k, f ≠ g → a + n ≤ 2 ^ 64 → b + k ≤ 2 ^ 64 → hostPeek (hostPoke f a n x s) g b k = hostPeek s g b k) ∧
  (∀ core idx e s t, (coreOf s core).sb[idx]? = some e → e.mca = 0 → spaceOf s e.pa = .hbm → homeGate s e.cid e.pa 1 = .go →
    exec (.storeAck core idx) s = .next t → ∀ b, b < e.pa ∨ e.pa + e.n ≤ b → Machine.peek t b 1 = Machine.peek s b 1) ∧
  (∀ core idx e s, (coreOf s core).sb[idx]? = some e → storeReady s core idx e = true → e.mca = 0 → spaceOf s e.pa = .hbm →
    homeGate s e.cid e.pa 1 = .go → ownerOf s (blockOf e.pa) = none → ∃ t, exec (.storeAck core idx) s = .next t ∧
      Machine.peek t e.pa e.n = e.data % 2 ^ (8 * e.n))

/-- O60. The frame of the heads that compute into gD: on a core, wherever such a head issues it completes, in checked
execution too, and it changes no byte of memory, no context but its own and its mirror partner's, and of its own context no register but gD, no flag, no mask or format register and no
trap register; a write of g0 is discarded. -/
def Obligations.RegisterHeadsChangeOnlyTheirDestination : Prop :=
  ∀ mk r, (mk, r) ∈ [(Instr.add, Rows.add), (Instr.addW, Rows.addW), (Instr.sub, Rows.sub), (Instr.subW, Rows.subW),
      (Instr.mul, Rows.mul), (Instr.mulh, Rows.mulh), (Instr.mulhu, Rows.mulhu), (Instr.mulW, Rows.mulW), (Instr.and, Rows.and),
      (Instr.or, Rows.or), (Instr.xor, Rows.xor), (Instr.andn, Rows.andn), (Instr.shl, Rows.shl), (Instr.shr, Rows.shr),
      (Instr.sra, Rows.sra), (Instr.ror, Rows.ror), (Instr.seq, Rows.seq), (Instr.sne, Rows.sne), (Instr.slt, Rows.slt),
      (Instr.sge, Rows.sge), (Instr.sltu, Rows.sltu), (Instr.sgeu, Rows.sgeu), (Instr.min, Rows.min), (Instr.max, Rows.max),
      (Instr.minu, Rows.minu), (Instr.maxu, Rows.maxu), (Instr.clz, Rows.clz), (Instr.ctz, Rows.ctz), (Instr.popc, Rows.popc),
      (Instr.brev, Rows.brev), (Instr.bswap, Rows.bswap), (Instr.extu, Rows.extu), (Instr.ext, Rows.ext),
      (Instr.csub, Rows.csub), (Instr.mov, Rows.mov), (Instr.movd, Rows.movd), (Instr.cgetAddr, Rows.cgetAddr),
      (Instr.cgetBase, Rows.cgetBase), (Instr.cgetTop, Rows.cgetTop), (Instr.cgetLen, Rows.cgetLen),
      (Instr.cgetPerm, Rows.cgetPerm), (Instr.cgetFmt, Rows.cgetFmt), (Instr.cgetK, Rows.cgetK), (Instr.cgetTag, Rows.cgetTag)] →
    ∀ h s, isThread s.cur = false → issueStop s r (Use.ofRow r h) = none → (unconfirmed s && endsInterval r) = false →
      ∃ t, exec (mk h) s = .next t ∧
      (∀ a, Machine.peek t a 1 = Machine.peek s a 1) ∧ (∀ c, c ≠ s.cur → partnerOf s s.cur ≠ some c → ctxOf t c = ctxOf s c) ∧
      let x := ctxOf s s.cur
      let y := ctxOf t s.cur
      (∀ k, k ≠ h.d.toNat → readG y k = readG x k) ∧ readG y 0 = Cap.null ∧ y.v = x.v ∧ y.m = x.m ∧ y.f = x.f ∧
        y.fpflags = x.fpflags ∧ y.sup = x.sup ∧ y.fl = x.fl ∧ y.trappc = x.trappc ∧ y.trapcause = x.trapcause ∧
        y.trapaddr = x.trapaddr ∧ y.trapinfo = x.trapinfo ∧ y.pc = pcAfter x.pc s.heads

end
end

