-- ==== Sys2Proof/Laws/Dispatch.lean ====
section
/-! SUPPORT. What `exec` runs for each constructor. -/

namespace Sys2Proof.Machine

theorem exec_nop : ∀ h s, exec (.nop h) s = execNop h s := fun _ _ => rfl
theorem exec_add : ∀ h s, exec (.add h) s = execAdd h s := fun _ _ => rfl
theorem exec_addW : ∀ h s, exec (.addW h) s = execAddW h s := fun _ _ => rfl
theorem exec_sub : ∀ h s, exec (.sub h) s = execSub h s := fun _ _ => rfl
theorem exec_subW : ∀ h s, exec (.subW h) s = execSubW h s := fun _ _ => rfl
theorem exec_mul : ∀ h s, exec (.mul h) s = execMul h s := fun _ _ => rfl
theorem exec_mulh : ∀ h s, exec (.mulh h) s = execMulh h s := fun _ _ => rfl
theorem exec_mulhu : ∀ h s, exec (.mulhu h) s = execMulhu h s := fun _ _ => rfl
theorem exec_mulW : ∀ h s, exec (.mulW h) s = execMulW h s := fun _ _ => rfl
theorem exec_div : ∀ h s, exec (.div h) s = execDiv h s := fun _ _ => rfl
theorem exec_divu : ∀ h s, exec (.divu h) s = execDivu h s := fun _ _ => rfl
theorem exec_rem : ∀ h s, exec (.rem h) s = execRem h s := fun _ _ => rfl
theorem exec_remu : ∀ h s, exec (.remu h) s = execRemu h s := fun _ _ => rfl
theorem exec_and : ∀ h s, exec (.and h) s = execAnd h s := fun _ _ => rfl
theorem exec_or : ∀ h s, exec (.or h) s = execOr h s := fun _ _ => rfl
theorem exec_xor : ∀ h s, exec (.xor h) s = execXor h s := fun _ _ => rfl
theorem exec_andn : ∀ h s, exec (.andn h) s = execAndn h s := fun _ _ => rfl
theorem exec_shl : ∀ h s, exec (.shl h) s = execShl h s := fun _ _ => rfl
theorem exec_shr : ∀ h s, exec (.shr h) s = execShr h s := fun _ _ => rfl
theorem exec_sra : ∀ h s, exec (.sra h) s = execSra h s := fun _ _ => rfl
theorem exec_ror : ∀ h s, exec (.ror h) s = execRor h s := fun _ _ => rfl
theorem exec_seq : ∀ h s, exec (.seq h) s = execSeq h s := fun _ _ => rfl
theorem exec_sne : ∀ h s, exec (.sne h) s = execSne h s := fun _ _ => rfl
theorem exec_slt : ∀ h s, exec (.slt h) s = execSlt h s := fun _ _ => rfl
theorem exec_sge : ∀ h s, exec (.sge h) s = execSge h s := fun _ _ => rfl
theorem exec_sltu : ∀ h s, exec (.sltu h) s = execSltu h s := fun _ _ => rfl
theorem exec_sgeu : ∀ h s, exec (.sgeu h) s = execSgeu h s := fun _ _ => rfl
theorem exec_min : ∀ h s, exec (.min h) s = execMin h s := fun _ _ => rfl
theorem exec_max : ∀ h s, exec (.max h) s = execMax h s := fun _ _ => rfl
theorem exec_minu : ∀ h s, exec (.minu h) s = execMinu h s := fun _ _ => rfl
theorem exec_maxu : ∀ h s, exec (.maxu h) s = execMaxu h s := fun _ _ => rfl
theorem exec_clz : ∀ h s, exec (.clz h) s = execClz h s := fun _ _ => rfl
theorem exec_ctz : ∀ h s, exec (.ctz h) s = execCtz h s := fun _ _ => rfl
theorem exec_popc : ∀ h s, exec (.popc h) s = execPopc h s := fun _ _ => rfl
theorem exec_brev : ∀ h s, exec (.brev h) s = execBrev h s := fun _ _ => rfl
theorem exec_bswap : ∀ h s, exec (.bswap h) s = execBswap h s := fun _ _ => rfl
theorem exec_ext : ∀ h s, exec (.ext h) s = execExt h s := fun _ _ => rfl
theorem exec_extu : ∀ h s, exec (.extu h) s = execExtu h s := fun _ _ => rfl
theorem exec_ins : ∀ h s, exec (.ins h) s = execIns h s := fun _ _ => rfl
theorem exec_csel : ∀ h s, exec (.csel h) s = execCsel h s := fun _ _ => rfl
theorem exec_cselz : ∀ h s, exec (.cselz h) s = execCselz h s := fun _ _ => rfl
theorem exec_madd : ∀ h s, exec (.madd h) s = execMadd h s := fun _ _ => rfl
theorem exec_cinc : ∀ h s, exec (.cinc h) s = execCinc h s := fun _ _ => rfl
theorem exec_cseta : ∀ h s, exec (.cseta h) s = execCseta h s := fun _ _ => rfl
theorem exec_csetb : ∀ h s, exec (.csetb h) s = execCsetb h s := fun _ _ => rfl
theorem exec_csetbO : ∀ h s, exec (.csetbO h) s = execCsetbO h s := fun _ _ => rfl
theorem exec_cperm : ∀ h s, exec (.cperm h) s = execCperm h s := fun _ _ => rfl
theorem exec_cfmt : ∀ h s, exec (.cfmt h) s = execCfmt h s := fun _ _ => rfl
theorem exec_cgetAddr : ∀ h s, exec (.cgetAddr h) s = execCgetAddr h s := fun _ _ => rfl
theorem exec_cgetBase : ∀ h s, exec (.cgetBase h) s = execCgetBase h s := fun _ _ => rfl
theorem exec_cgetLen : ∀ h s, exec (.cgetLen h) s = execCgetLen h s := fun _ _ => rfl
theorem exec_cgetPerm : ∀ h s, exec (.cgetPerm h) s = execCgetPerm h s := fun _ _ => rfl
theorem exec_cgetFmt : ∀ h s, exec (.cgetFmt h) s = execCgetFmt h s := fun _ _ => rfl
theorem exec_cgetK : ∀ h s, exec (.cgetK h) s = execCgetK h s := fun _ _ => rfl
theorem exec_cgetTag : ∀ h s, exec (.cgetTag h) s = execCgetTag h s := fun _ _ => rfl
theorem exec_cgetTop : ∀ h s, exec (.cgetTop h) s = execCgetTop h s := fun _ _ => rfl
theorem exec_mov : ∀ h s, exec (.mov h) s = execMov h s := fun _ _ => rfl
theorem exec_movd : ∀ h s, exec (.movd h) s = execMovd h s := fun _ _ => rfl
theorem exec_csub : ∀ h s, exec (.csub h) s = execCsub h s := fun _ _ => rfl
theorem exec_cchk : ∀ h s, exec (.cchk h) s = execCchk h s := fun _ _ => rfl
theorem exec_beq : ∀ h s, exec (.beq h) s = execBeq h s := fun _ _ => rfl
theorem exec_bne : ∀ h s, exec (.bne h) s = execBne h s := fun _ _ => rfl
theorem exec_blt : ∀ h s, exec (.blt h) s = execBlt h s := fun _ _ => rfl
theorem exec_bge : ∀ h s, exec (.bge h) s = execBge h s := fun _ _ => rfl
theorem exec_bltu : ∀ h s, exec (.bltu h) s = execBltu h s := fun _ _ => rfl
theorem exec_bgeu : ∀ h s, exec (.bgeu h) s = execBgeu h s := fun _ _ => rfl
theorem exec_bz : ∀ h s, exec (.bz h) s = execBz h s := fun _ _ => rfl
theorem exec_bnz : ∀ h s, exec (.bnz h) s = execBnz h s := fun _ _ => rfl
theorem exec_jmp : ∀ h s, exec (.jmp h) s = execJmp h s := fun _ _ => rfl
theorem exec_jmpC : ∀ h s, exec (.jmpC h) s = execJmpC h s := fun _ _ => rfl
theorem exec_call : ∀ h s, exec (.call h) s = execCall h s := fun _ _ => rfl
theorem exec_callC : ∀ h s, exec (.callC h) s = execCallC h s := fun _ _ => rfl
theorem exec_ret : ∀ h s, exec (.ret h) s = execRet h s := fun _ _ => rfl
theorem exec_loop : ∀ h s, exec (.loop h) s = execLoop h s := fun _ _ => rfl
theorem exec_endFiring : ∀ h s, exec (.endFiring h) s = execEndFiring h s := fun _ _ => rfl
theorem exec_ende : ∀ h s, exec (.ende h) s = execEnde h s := fun _ _ => rfl
theorem exec_yield : ∀ h s, exec (.yield h) s = execYield h s := fun _ _ => rfl
theorem exec_waitt : ∀ h s, exec (.waitt h) s = execWaitt h s := fun _ _ => rfl
theorem exec_waiteMsg : ∀ h s, exec (.waiteMsg h) s = execWaiteMsg h s := fun _ _ => rfl
theorem exec_waiteStr : ∀ h s, exec (.waiteStr h) s = execWaiteStr h s := fun _ _ => rfl
theorem exec_waiteRing : ∀ h s, exec (.waiteRing h) s = execWaiteRing h s := fun _ _ => rfl
theorem exec_waiteSlot : ∀ h s, exec (.waiteSlot h) s = execWaiteSlot h s := fun _ _ => rfl
theorem exec_fire : ∀ h s, exec (.fire h) s = execFire h s := fun _ _ => rfl
theorem exec_trap : ∀ h s, exec (.trap h) s = execTrap h s := fun _ _ => rfl
theorem exec_eret : ∀ h s, exec (.eret h) s = execEret h s := fun _ _ => rfl
theorem exec_growC : ∀ h s, exec (.growC h) s = execGrowC h s := fun _ _ => rfl
theorem exec_growV : ∀ h s, exec (.growV h) s = execGrowV h s := fun _ _ => rfl
theorem exec_shrinkC : ∀ h s, exec (.shrinkC h) s = execShrinkC h s := fun _ _ => rfl
theorem exec_shrinkV : ∀ h s, exec (.shrinkV h) s = execShrinkV h s := fun _ _ => rfl
theorem exec_ld : ∀ h s, exec (.ld h) s = execLd h s := fun _ _ => rfl
theorem exec_st : ∀ h s, exec (.st h) s = execSt h s := fun _ _ => rfl
theorem exec_ldc : ∀ h s, exec (.ldc h) s = execLdc h s := fun _ _ => rfl
theorem exec_stc : ∀ h s, exec (.stc h) s = execStc h s := fun _ _ => rfl
theorem exec_ldaq : ∀ h s, exec (.ldaq h) s = execLdaq h s := fun _ _ => rfl
theorem exec_strl : ∀ h s, exec (.strl h) s = execStrl h s := fun _ _ => rfl
theorem exec_fenceAr : ∀ h s, exec (.fenceAr h) s = execFenceAr h s := fun _ _ => rfl
theorem exec_fenceAcq : ∀ h s, exec (.fenceAcq h) s = execFenceAcq h s := fun _ _ => rfl
theorem exec_fenceRel : ∀ h s, exec (.fenceRel h) s = execFenceRel h s := fun _ _ => rfl
theorem exec_fenceFull : ∀ h s, exec (.fenceFull h) s = execFenceFull h s := fun _ _ => rfl
theorem exec_movb : ∀ h s, exec (.movb h) s = execMovb h s := fun _ _ => rfl
theorem exec_fill : ∀ h s, exec (.fill h) s = execFill h s := fun _ _ => rfl
theorem exec_ipinL1i : ∀ h s, exec (.ipinL1i h) s = execIpinL1i h s := fun _ _ => rfl
theorem exec_ipinL2 : ∀ h s, exec (.ipinL2 h) s = execIpinL2 h s := fun _ _ => rfl
theorem exec_ipinPf1 : ∀ h s, exec (.ipinPf1 h) s = execIpinPf1 h s := fun _ _ => rfl
theorem exec_ipinPf2 : ∀ h s, exec (.ipinPf2 h) s = execIpinPf2 h s := fun _ _ => rfl
theorem exec_ipinUn : ∀ h s, exec (.ipinUn h) s = execIpinUn h s := fun _ _ => rfl
theorem exec_cacheWb : ∀ h s, exec (.cacheWb h) s = execCacheWb h s := fun _ _ => rfl
theorem exec_cacheInv : ∀ h s, exec (.cacheInv h) s = execCacheInv h s := fun _ _ => rfl
theorem exec_cachePf1 : ∀ h s, exec (.cachePf1 h) s = execCachePf1 h s := fun _ _ => rfl
theorem exec_cachePf2 : ∀ h s, exec (.cachePf2 h) s = execCachePf2 h s := fun _ _ => rfl
theorem exec_aadd : ∀ h s, exec (.aadd h) s = execAadd h s := fun _ _ => rfl
theorem exec_aand : ∀ h s, exec (.aand h) s = execAand h s := fun _ _ => rfl
theorem exec_aor : ∀ h s, exec (.aor h) s = execAor h s := fun _ _ => rfl
theorem exec_axor : ∀ h s, exec (.axor h) s = execAxor h s := fun _ _ => rfl
theorem exec_amin : ∀ h s, exec (.amin h) s = execAmin h s := fun _ _ => rfl
theorem exec_amax : ∀ h s, exec (.amax h) s = execAmax h s := fun _ _ => rfl
theorem exec_aminu : ∀ h s, exec (.aminu h) s = execAminu h s := fun _ _ => rfl
theorem exec_amaxu : ∀ h s, exec (.amaxu h) s = execAmaxu h s := fun _ _ => rfl
theorem exec_aswp : ∀ h s, exec (.aswp h) s = execAswp h s := fun _ _ => rfl
theorem exec_afadd : ∀ h s, exec (.afadd h) s = execAfadd h s := fun _ _ => rfl
theorem exec_afmax : ∀ h s, exec (.afmax h) s = execAfmax h s := fun _ _ => rfl
theorem exec_acas : ∀ h s, exec (.acas h) s = execAcas h s := fun _ _ => rfl
theorem exec_redadd : ∀ h s, exec (.redadd h) s = execRedadd h s := fun _ _ => rfl
theorem exec_redand : ∀ h s, exec (.redand h) s = execRedand h s := fun _ _ => rfl
theorem exec_redor : ∀ h s, exec (.redor h) s = execRedor h s := fun _ _ => rfl
theorem exec_redxor : ∀ h s, exec (.redxor h) s = execRedxor h s := fun _ _ => rfl
theorem exec_redmin : ∀ h s, exec (.redmin h) s = execRedmin h s := fun _ _ => rfl
theorem exec_redmax : ∀ h s, exec (.redmax h) s = execRedmax h s := fun _ _ => rfl
theorem exec_redminu : ∀ h s, exec (.redminu h) s = execRedminu h s := fun _ _ => rfl
theorem exec_redmaxu : ∀ h s, exec (.redmaxu h) s = execRedmaxu h s := fun _ _ => rfl
theorem exec_redfadd : ∀ h s, exec (.redfadd h) s = execRedfadd h s := fun _ _ => rfl
theorem exec_redfmax : ∀ h s, exec (.redfmax h) s = execRedfmax h s := fun _ _ => rfl
theorem exec_take : ∀ h s, exec (.take h) s = execTake h s := fun _ _ => rfl
theorem exec_peek : ∀ h s, exec (.peek h) s = execPeek h s := fun _ _ => rfl
theorem exec_trytake : ∀ h s, exec (.trytake h) s = execTrytake h s := fun _ _ => rfl
theorem exec_feget : ∀ h s, exec (.feget h) s = execFeget h s := fun _ _ => rfl
theorem exec_put : ∀ h s, exec (.put h) s = execPut h s := fun _ _ => rfl
theorem exec_fput : ∀ h s, exec (.fput h) s = execFput h s := fun _ _ => rfl
theorem exec_fclr : ∀ h s, exec (.fclr h) s = execFclr h s := fun _ _ => rfl
theorem exec_bar : ∀ h s, exec (.bar h) s = execBar h s := fun _ _ => rfl
theorem exec_barin : ∀ h s, exec (.barin h) s = execBarin h s := fun _ _ => rfl
theorem exec_barwt : ∀ h s, exec (.barwt h) s = execBarwt h s := fun _ _ => rfl
theorem exec_barmax : ∀ h s, exec (.barmax h) s = execBarmax h s := fun _ _ => rfl
theorem exec_gang : ∀ h s, exec (.gang h) s = execGang h s := fun _ _ => rfl
theorem exec_send : ∀ h s, exec (.send h) s = execSend h s := fun _ _ => rfl
theorem exec_sendC : ∀ h s, exec (.sendC h) s = execSendC h s := fun _ _ => rfl
theorem exec_sendR : ∀ h s, exec (.sendR h) s = execSendR h s := fun _ _ => rfl
theorem exec_nput : ∀ h s, exec (.nput h) s = execNput h s := fun _ _ => rfl
theorem exec_nputArm : ∀ h s, exec (.nputArm h) s = execNputArm h s := fun _ _ => rfl
theorem exec_push : ∀ h s, exec (.push h) s = execPush h s := fun _ _ => rfl
theorem exec_consume : ∀ h s, exec (.consume h) s = execConsume h s := fun _ _ => rfl
theorem exec_vadd : ∀ h s, exec (.vadd h) s = execVadd h s := fun _ _ => rfl
theorem exec_vsub : ∀ h s, exec (.vsub h) s = execVsub h s := fun _ _ => rfl
theorem exec_vmul : ∀ h s, exec (.vmul h) s = execVmul h s := fun _ _ => rfl
theorem exec_vfma : ∀ h s, exec (.vfma h) s = execVfma h s := fun _ _ => rfl
theorem exec_vfms : ∀ h s, exec (.vfms h) s = execVfms h s := fun _ _ => rfl
theorem exec_vmin : ∀ h s, exec (.vmin h) s = execVmin h s := fun _ _ => rfl
theorem exec_vmax : ∀ h s, exec (.vmax h) s = execVmax h s := fun _ _ => rfl
theorem exec_vand : ∀ h s, exec (.vand h) s = execVand h s := fun _ _ => rfl
theorem exec_vor : ∀ h s, exec (.vor h) s = execVor h s := fun _ _ => rfl
theorem exec_vxor : ∀ h s, exec (.vxor h) s = execVxor h s := fun _ _ => rfl
theorem exec_vandn : ∀ h s, exec (.vandn h) s = execVandn h s := fun _ _ => rfl
theorem exec_vshl : ∀ h s, exec (.vshl h) s = execVshl h s := fun _ _ => rfl
theorem exec_vshr : ∀ h s, exec (.vshr h) s = execVshr h s := fun _ _ => rfl
theorem exec_vsra : ∀ h s, exec (.vsra h) s = execVsra h s := fun _ _ => rfl
theorem exec_vcmp : ∀ h s, exec (.vcmp h) s = execVcmp h s := fun _ _ => rfl
theorem exec_vsel : ∀ h s, exec (.vsel h) s = execVsel h s := fun _ _ => rfl
theorem exec_mand : ∀ h s, exec (.mand h) s = execMand h s := fun _ _ => rfl
theorem exec_mor : ∀ h s, exec (.mor h) s = execMor h s := fun _ _ => rfl
theorem exec_mxor : ∀ h s, exec (.mxor h) s = execMxor h s := fun _ _ => rfl
theorem exec_mnot : ∀ h s, exec (.mnot h) s = execMnot h s := fun _ _ => rfl
theorem exec_mpop : ∀ h s, exec (.mpop h) s = execMpop h s := fun _ _ => rfl
theorem exec_mfirst : ∀ h s, exec (.mfirst h) s = execMfirst h s := fun _ _ => rfl
theorem exec_vrcp : ∀ h s, exec (.vrcp h) s = execVrcp h s := fun _ _ => rfl
theorem exec_vrsq : ∀ h s, exec (.vrsq h) s = execVrsq h s := fun _ _ => rfl
theorem exec_vexp2 : ∀ h s, exec (.vexp2 h) s = execVexp2 h s := fun _ _ => rfl
theorem exec_vlog2 : ∀ h s, exec (.vlog2 h) s = execVlog2 h s := fun _ _ => rfl
theorem exec_vsqrt : ∀ h s, exec (.vsqrt h) s = execVsqrt h s := fun _ _ => rfl
theorem exec_vtanh : ∀ h s, exec (.vtanh h) s = execVtanh h s := fun _ _ => rfl
theorem exec_vredsum : ∀ h s, exec (.vredsum h) s = execVredsum h s := fun _ _ => rfl
theorem exec_vredmax : ∀ h s, exec (.vredmax h) s = execVredmax h s := fun _ _ => rfl
theorem exec_vredmin : ∀ h s, exec (.vredmin h) s = execVredmin h s := fun _ _ => rfl
theorem exec_vscan : ∀ h s, exec (.vscan h) s = execVscan h s := fun _ _ => rfl
theorem exec_vperm : ∀ h s, exec (.vperm h) s = execVperm h s := fun _ _ => rfl
theorem exec_vbcast : ∀ h s, exec (.vbcast h) s = execVbcast h s := fun _ _ => rfl
theorem exec_vextr : ∀ h s, exec (.vextr h) s = execVextr h s := fun _ _ => rfl
theorem exec_vins : ∀ h s, exec (.vins h) s = execVins h s := fun _ _ => rfl
theorem exec_vmov : ∀ h s, exec (.vmov h) s = execVmov h s := fun _ _ => rfl
theorem exec_vld : ∀ h s, exec (.vld h) s = execVld h s := fun _ _ => rfl
theorem exec_vldS : ∀ h s, exec (.vldS h) s = execVldS h s := fun _ _ => rfl
theorem exec_vldG : ∀ h s, exec (.vldG h) s = execVldG h s := fun _ _ => rfl
theorem exec_vst : ∀ h s, exec (.vst h) s = execVst h s := fun _ _ => rfl
theorem exec_vstS : ∀ h s, exec (.vstS h) s = execVstS h s := fun _ _ => rfl
theorem exec_vstX : ∀ h s, exec (.vstX h) s = execVstX h s := fun _ _ => rfl
theorem exec_vcvt : ∀ h s, exec (.vcvt h) s = execVcvt h s := fun _ _ => rfl
theorem exec_vqnt : ∀ h s, exec (.vqnt h) s = execVqnt h s := fun _ _ => rfl
theorem exec_vdeq : ∀ h s, exec (.vdeq h) s = execVdeq h s := fun _ _ => rfl
theorem exec_sbind : ∀ h s, exec (.sbind h) s = execSbind h s := fun _ _ => rfl
theorem exec_sunbind : ∀ h s, exec (.sunbind h) s = execSunbind h s := fun _ _ => rfl
theorem exec_sstat : ∀ h s, exec (.sstat h) s = execSstat h s := fun _ _ => rfl
theorem exec_sclaim : ∀ h s, exec (.sclaim h) s = execSclaim h s := fun _ _ => rfl
theorem exec_srel : ∀ h s, exec (.srel h) s = execSrel h s := fun _ _ => rfl
theorem exec_sfmt : ∀ h s, exec (.sfmt h) s = execSfmt h s := fun _ _ => rfl
theorem exec_sload : ∀ h s, exec (.sload h) s = execSload h s := fun _ _ => rfl
theorem exec_mma : ∀ h s, exec (.mma h) s = execMma h s := fun _ _ => rfl
theorem exec_azero : ∀ h s, exec (.azero h) s = execAzero h s := fun _ _ => rfl
theorem exec_astore : ∀ h s, exec (.astore h) s = execAstore h s := fun _ _ => rfl
theorem exec_aload : ∀ h s, exec (.aload h) s = execAload h s := fun _ _ => rfl
theorem exec_ascale : ∀ h s, exec (.ascale h) s = execAscale h s := fun _ _ => rfl
theorem exec_amovv : ∀ h s, exec (.amovv h) s = execAmovv h s := fun _ _ => rfl
theorem exec_mfc : ∀ h s, exec (.mfc h) s = execMfc h s := fun _ _ => rfl
theorem exec_mtc : ∀ h s, exec (.mtc h) s = execMtc h s := fun _ _ => rfl
theorem exec_cpgo : ∀ h s, exec (.cpgo h) s = execCpgo h s := fun _ _ => rfl
theorem exec_compose : ∀ h s, exec (.compose h) s = execCompose h s := fun _ _ => rfl
theorem exec_decompose : ∀ h s, exec (.decompose h) s = execDecompose h s := fun _ _ => rfl
theorem exec_pair : ∀ h s, exec (.pair h) s = execPair h s := fun _ _ => rfl
theorem exec_unpair : ∀ h s, exec (.unpair h) s = execUnpair h s := fun _ _ => rfl
theorem exec_ctxSave : ∀ h s, exec (.ctxSave h) s = execCtxSave h s := fun _ _ => rfl
theorem exec_ctxLoad : ∀ h s, exec (.ctxLoad h) s = execCtxLoad h s := fun _ _ => rfl
theorem exec_ctxDrop : ∀ h s, exec (.ctxDrop h) s = execCtxDrop h s := fun _ _ => rfl
theorem exec_tlbinvVa : ∀ h s, exec (.tlbinvVa h) s = execTlbinvVa h s := fun _ _ => rfl
theorem exec_tlbinvAsid : ∀ h s, exec (.tlbinvAsid h) s = execTlbinvAsid h s := fun _ _ => rfl
theorem exec_tlbinvAll : ∀ h s, exec (.tlbinvAll h) s = execTlbinvAll h s := fun _ _ => rfl
theorem exec_tagset : ∀ h s, exec (.tagset h) s = execTagset h s := fun _ _ => rfl
theorem exec_dirrd : ∀ h s, exec (.dirrd h) s = execDirrd h s := fun _ _ => rfl
theorem exec_dirwr : ∀ h s, exec (.dirwr h) s = execDirwr h s := fun _ _ => rfl
theorem exec_reply : ∀ h s, exec (.reply h) s = execReply h s := fun _ _ => rfl
theorem exec_fwd : ∀ h s, exec (.fwd h) s = execFwd h s := fun _ _ => rfl
theorem exec_btx : ∀ h s, exec (.btx h) s = execBtx h s := fun _ _ => rfl
theorem exec_hdone : ∀ h s, exec (.hdone h) s = execHdone h s := fun _ _ => rfl
theorem exec_actmsg : ∀ slot s, exec (.actmsg slot) s = execActmsg slot s := fun _ _ => rfl
theorem exec_sweep : ∀ slot s, exec (.sweep slot) s = execSweep slot s := fun _ _ => rfl
theorem exec_signal : ∀ slot s, exec (.signal slot) s = execSignal slot s := fun _ _ => rfl
theorem exec_wait : ∀ slot s, exec (.wait slot) s = execWait slot s := fun _ _ => rfl
theorem exec_waitReread : ∀ slot s, exec (.waitReread slot) s = execWaitReread slot s := fun _ _ => rfl
theorem exec_write : ∀ slot s, exec (.write slot) s = execWrite slot s := fun _ _ => rfl
theorem exec_pred : ∀ slot s, exec (.pred slot) s = execPred slot s := fun _ _ => rfl
theorem exec_ind : ∀ slot s, exec (.ind slot) s = execInd slot s := fun _ _ => rfl
theorem exec_loopPacket : ∀ slot s, exec (.loopPacket slot) s = execLoopPacket slot s := fun _ _ => rfl
theorem exec_ffence : ∀ slot s, exec (.ffence slot) s = execFfence slot s := fun _ _ => rfl
theorem exec_intr : ∀ slot s, exec (.intr slot) s = execIntr slot s := fun _ _ => rfl
theorem exec_graph : ∀ slot s, exec (.graph slot) s = execGraph slot s := fun _ _ => rfl
theorem exec_packetBarrierIssue : ∀ slot s, exec (.packetBarrierIssue slot) s = execPacketBarrierIssue slot s := fun _ _ => rfl
theorem exec_powerOn : ∀ s, exec (.powerOn) s = execPowerOn s := fun _ => rfl
theorem exec_deviceReset : ∀ s, exec (.deviceReset) s = execDeviceReset s := fun _ => rfl
theorem exec_functionLevelReset : ∀ f s, exec (.functionLevelReset f) s = execFunctionLevelReset f s := fun _ _ => rfl
theorem exec_pfFunctionLevelReset : ∀ s, exec (.pfFunctionLevelReset) s = execPfFunctionLevelReset s := fun _ => rfl
theorem exec_computeDieReset : ∀ die failed s, exec (.computeDieReset die failed) s = execComputeDieReset die failed s := fun _ _ _ => rfl
theorem exec_standbyPowerLoss : ∀ s, exec (.standbyPowerLoss) s = execStandbyPowerLoss s := fun _ => rfl
theorem exec_powerLimitWindow : ∀ die step s, exec (.powerLimitWindow die step) s = execPowerLimitWindow die step s := fun _ _ _ => rfl
theorem exec_thermalThrottle : ∀ die step s, exec (.thermalThrottle die step) s = execThermalThrottle die step s := fun _ _ _ => rfl
theorem exec_thermalTrip : ∀ die s, exec (.thermalTrip die) s = execThermalTrip die s := fun _ _ => rfl
theorem exec_mgmtUpdate : ∀ pavg pmax temps s, exec (.mgmtUpdate pavg pmax temps) s = execMgmtUpdate pavg pmax temps s := fun _ _ _ _ => rfl
theorem exec_stripMapChange : ∀ strip entry s, exec (.stripMapChange strip entry) s = execStripMapChange strip entry s := fun _ _ _ => rfl
theorem exec_fencedAccessRetry : ∀ idx s, exec (.fencedAccessRetry idx) s = execFencedAccessRetry idx s := fun _ _ => rfl
theorem exec_flitCrcResend : ∀ port s, exec (.flitCrcResend port) s = execFlitCrcResend port s := fun _ _ => rfl
theorem exec_linkResendFailureLimit : ∀ port s, exec (.linkResendFailureLimit port) s = execLinkResendFailureLimit port s := fun _ _ => rfl
theorem exec_blockLockLoss : ∀ port s, exec (.blockLockLoss port) s = execBlockLockLoss port s := fun _ _ => rfl
theorem exec_linkIdleTimeout : ∀ port s, exec (.linkIdleTimeout port) s = execLinkIdleTimeout port s := fun _ _ => rfl
theorem exec_idleFlit : ∀ port s, exec (.idleFlit port) s = execIdleFlit port s := fun _ _ => rfl
theorem exec_linkTraining : ∀ port peer s, exec (.linkTraining port peer) s = execLinkTraining port peer s := fun _ _ _ => rfl
theorem exec_rd : ∀ port p s, exec (.rd port p) s = execRd port p s := fun _ _ _ => rfl
theorem exec_wr : ∀ port p s, exec (.wr port p) s = execWr port p s := fun _ _ _ => rfl
theorem exec_wrm : ∀ port p s, exec (.wrm port p) s = execWrm port p s := fun _ _ _ => rfl
theorem exec_amo : ∀ port p s, exec (.amo port p) s = execAmo port p s := fun _ _ _ => rfl
theorem exec_redc : ∀ port p s, exec (.redc port p) s = execRedc port p s := fun _ _ _ => rfl
theorem exec_msg : ∀ port p s, exec (.msg port p) s = execMsg port p s := fun _ _ _ => rfl
theorem exec_sig : ∀ port p s, exec (.sig port p) s = execSig port p s := fun _ _ _ => rfl
theorem exec_prb : ∀ port p s, exec (.prb port p) s = execPrb port p s := fun _ _ _ => rfl
theorem exec_rdata : ∀ port p s, exec (.rdata port p) s = execRdata port p s := fun _ _ _ => rfl
theorem exec_ares : ∀ port p s, exec (.ares port p) s = execAres port p s := fun _ _ _ => rfl
theorem exec_ack : ∀ port p s, exec (.ack port p) s = execAck port p s := fun _ _ _ => rfl
theorem exec_nak : ∀ port p s, exec (.nak port p) s = execNak port p s := fun _ _ _ => rfl
theorem exec_mrep : ∀ port p s, exec (.mrep port p) s = execMrep port p s := fun _ _ _ => rfl
theorem exec_sync : ∀ port p s, exec (.sync port p) s = execSync port p s := fun _ _ _ => rfl
theorem exec_ackTimer : ∀ src lane s, exec (.ackTimer src lane) s = execAckTimer src lane s := fun _ _ _ => rfl
theorem exec_tackExpiry : ∀ dest lane s, exec (.tackExpiry dest lane) s = execTackExpiry dest lane s := fun _ _ _ => rfl
theorem exec_unreachableTimeout : ∀ dest s, exec (.unreachableTimeout dest) s = execUnreachableTimeout dest s := fun _ _ => rfl
theorem exec_resyncHoldExpiry : ∀ dest s, exec (.resyncHoldExpiry dest) s = execResyncHoldExpiry dest s := fun _ _ => rfl
theorem exec_nakRetryResend : ∀ idx s, exec (.nakRetryResend idx) s = execNakRetryResend idx s := fun _ _ => rfl
theorem exec_pathCheck : ∀ dest cand ok s, exec (.pathCheck dest cand ok) s = execPathCheck dest cand ok s := fun _ _ _ _ => rfl
theorem exec_baraSend : ∀ entry s, exec (.baraSend entry) s = execBaraSend entry s := fun _ _ => rfl
theorem exec_barb : ∀ port p s, exec (.barb port p) s = execBarb port p s := fun _ _ _ => rfl
theorem exec_treeNotice : ∀ entry s, exec (.treeNotice entry) s = execTreeNotice entry s := fun _ _ => rfl
theorem exec_barbTimeout : ∀ entry s, exec (.barbTimeout entry) s = execBarbTimeout entry s := fun _ _ => rfl
theorem exec_postResetSync : ∀ dest s, exec (.postResetSync dest) s = execPostResetSync dest s := fun _ _ => rfl
theorem exec_scaleOutFrame : ∀ port fr s, exec (.scaleOutFrame port fr) s = execScaleOutFrame port fr s := fun _ _ _ => rfl
theorem exec_hvselWrite : ∀ f v s, exec (.hvselWrite f v) s = execHvselWrite f v s := fun _ _ _ => rfl
theorem exec_hstatWrite : ∀ f v s, exec (.hstatWrite f v) s = execHstatWrite f v s := fun _ _ _ => rfl
theorem exec_vfctlWrite : ∀ f v s, exec (.vfctlWrite f v) s = execVfctlWrite f v s := fun _ _ _ => rfl
theorem exec_qdirbaseWrite : ∀ f v s, exec (.qdirbaseWrite f v) s = execQdirbaseWrite f v s := fun _ _ _ => rfl
theorem exec_registerWrite : ∀ f off v s, exec (.registerWrite f off v) s = execRegisterWrite f off v s := fun _ _ _ _ => rfl
theorem exec_blackboxSelWrite : ∀ sel s, exec (.blackboxSelWrite sel) s = execBlackboxSelWrite sel s := fun _ _ => rfl
theorem exec_fqheadWrite : ∀ f v s, exec (.fqheadWrite f v) s = execFqheadWrite f v s := fun _ _ _ => rfl
theorem exec_fresumeRetry : ∀ f v s, exec (.fresumeRetry f v) s = execFresumeRetry f v s := fun _ _ _ => rfl
theorem exec_fresumeDeliver : ∀ f v s, exec (.fresumeDeliver f v) s = execFresumeDeliver f v s := fun _ _ _ => rfl
theorem exec_coalesceTimer : ∀ f vec s, exec (.coalesceTimer f vec) s = execCoalesceTimer f vec s := fun _ _ _ => rfl
theorem exec_msixUnmask : ∀ f vec s, exec (.msixUnmask f vec) s = execMsixUnmask f vec s := fun _ _ _ => rfl
theorem exec_biasFlipStart : ∀ v s, exec (.biasFlipStart v) s = execBiasFlipStart v s := fun _ _ => rfl
theorem exec_biasFlipPage : ∀ s, exec (.biasFlipPage) s = execBiasFlipPage s := fun _ => rfl
theorem exec_biasFlipWaitTimeout : ∀ s, exec (.biasFlipWaitTimeout) s = execBiasFlipWaitTimeout s := fun _ => rfl
theorem exec_hostMemAccess : ∀ addr data s, exec (.hostMemAccess addr data) s = execHostMemAccess addr data s := fun _ _ _ => rfl
theorem exec_h2dSnoop : ∀ addr data s, exec (.h2dSnoop addr data) s = execH2dSnoop addr data s := fun _ _ _ => rfl
theorem exec_hostLineFill : ∀ addr data own s, exec (.hostLineFill addr data own) s = execHostLineFill addr data own s := fun _ _ _ _ => rfl
theorem exec_wptrPoll : ∀ slot s, exec (.wptrPoll slot) s = execWptrPoll slot s := fun _ _ => rfl
theorem exec_getcert : ∀ s, exec (.getcert) s = execGetcert s := fun _ => rfl
theorem exec_attest : ∀ s, exec (.attest) s = execAttest s := fun _ => rfl
theorem exec_patch : ∀ sigOk s, exec (.patch sigOk) s = execPatch sigOk s := fun _ _ => rfl
theorem exec_patchApply : ∀ s, exec (.patchApply) s = execPatchApply s := fun _ => rfl
theorem exec_patchQuiesceTimeout : ∀ s, exec (.patchQuiesceTimeout) s = execPatchQuiesceTimeout s := fun _ => rfl
theorem exec_containFence : ∀ r s, exec (.containFence r) s = execContainFence r s := fun _ _ => rfl
theorem exec_containReset : ∀ r failed s, exec (.containReset r failed) s = execContainReset r failed s := fun _ _ _ => rfl
theorem exec_containRelease : ∀ r s, exec (.containRelease r) s = execContainRelease r s := fun _ _ => rfl
theorem exec_commit : ∀ s, exec (.commit) s = execCommit s := fun _ => rfl
theorem exec_bbctlFreeze : ∀ s, exec (.bbctlFreeze) s = execBbctlFreeze s := fun _ => rfl
theorem exec_bbctlUnfreeze : ∀ s, exec (.bbctlUnfreeze) s = execBbctlUnfreeze s := fun _ => rfl
theorem exec_blackboxFrozen : ∀ die s, exec (.blackboxFrozen die) s = execBlackboxFrozen die s := fun _ _ => rfl
theorem exec_fabcfg : ∀ pathOk s, exec (.fabcfg pathOk) s = execFabcfg pathOk s := fun _ _ => rfl
theorem exec_patrolScrub : ∀ page ecc integBad s, exec (.patrolScrub page ecc integBad) s = execPatrolScrub page ecc integBad s := fun _ _ _ _ => rfl
theorem exec_graphNodeComplete : ∀ graph node s, exec (.graphNodeComplete graph node) s = execGraphNodeComplete graph node s := fun _ _ _ => rfl
theorem exec_gangMap : ∀ f gang s, exec (.gangMap f gang) s = execGangMap f gang s := fun _ _ _ => rfl
theorem exec_unmappedQueuePoll : ∀ f q s, exec (.unmappedQueuePoll f q) s = execUnmappedQueuePoll f q s := fun _ _ _ => rfl
theorem exec_queueTeardown : ∀ f q s, exec (.queueTeardown f q) s = execQueueTeardown f q s := fun _ _ _ => rfl
theorem exec_sweepSignal : ∀ sweep s, exec (.sweepSignal sweep) s = execSweepSignal sweep s := fun _ _ => rfl
theorem exec_sweepWakeAccept : ∀ core s, exec (.sweepWakeAccept core) s = execSweepWakeAccept core s := fun _ _ => rfl
theorem exec_firingPlace : ∀ core s, exec (.firingPlace core) s = execFiringPlace core s := fun _ _ => rfl
theorem exec_fifoFire : ∀ core binding s, exec (.fifoFire core binding) s = execFifoFire core binding s := fun _ _ _ => rfl
theorem exec_fifoEntryArrival : ∀ idx s, exec (.fifoEntryArrival idx) s = execFifoEntryArrival idx s := fun _ _ => rfl
theorem exec_creditReturn : ∀ idx s, exec (.creditReturn idx) s = execCreditReturn idx s := fun _ _ => rfl
theorem exec_fifoTableWrite : ∀ core entry v s, exec (.fifoTableWrite core entry v) s = execFifoTableWrite core entry v s := fun _ _ _ _ => rfl
theorem exec_bindingWrite : ∀ core entry v s, exec (.bindingWrite core entry v) s = execBindingWrite core entry v s := fun _ _ _ _ => rfl
theorem exec_messageArrival : ∀ idx s, exec (.messageArrival idx) s = execMessageArrival idx s := fun _ _ => rfl
theorem exec_undeliverableReturn : ∀ idx s, exec (.undeliverableReturn idx) s = execUndeliverableReturn idx s := fun _ _ => rfl
theorem exec_growstall : ∀ core s, exec (.growstall core) s = execGrowstall core s := fun _ _ => rfl
theorem exec_priorityAgeing : ∀ core idx s, exec (.priorityAgeing core idx) s = execPriorityAgeing core idx s := fun _ _ _ => rfl
theorem exec_slotLimitExpiry : ∀ core s, exec (.slotLimitExpiry core) s = execSlotLimitExpiry core s := fun _ _ => rfl
theorem exec_resultArrival : ∀ cid idx s, exec (.resultArrival cid idx) s = execResultArrival cid idx s := fun _ _ _ => rfl
theorem exec_feWaiterRetry : ∀ cid s, exec (.feWaiterRetry cid) s = execFeWaiterRetry cid s := fun _ _ => rfl
theorem exec_preempt : ∀ cid s, exec (.preempt cid) s = execPreempt cid s := fun _ _ => rfl
theorem exec_saveComplete : ∀ cid s, exec (.saveComplete cid) s = execSaveComplete cid s := fun _ _ => rfl
theorem exec_restore : ∀ core s, exec (.restore core) s = execRestore core s := fun _ _ => rfl
theorem exec_neighbourWriteArrival : ∀ idx s, exec (.neighbourWriteArrival idx) s = execNeighbourWriteArrival idx s := fun _ _ => rfl
theorem exec_storeAck : ∀ core idx s, exec (.storeAck core idx) s = execStoreAck core idx s := fun _ _ _ => rfl
theorem exec_streamPrefetch : ∀ core unit s, exec (.streamPrefetch core unit) s = execStreamPrefetch core unit s := fun _ _ _ => rfl
theorem exec_ownershipNotice : ∀ idx s, exec (.ownershipNotice idx) s = execOwnershipNotice idx s := fun _ _ => rfl
theorem exec_stripAtomicAck : ∀ strip idx s, exec (.stripAtomicAck strip idx) s = execStripAtomicAck strip idx s := fun _ _ _ => rfl
theorem exec_replicaForward : ∀ idx s, exec (.replicaForward idx) s = execReplicaForward idx s := fun _ _ => rfl
theorem exec_replicaMarkAck : ∀ idx s, exec (.replicaMarkAck idx) s = execReplicaMarkAck idx s := fun _ _ => rfl
theorem exec_l2Eviction : ∀ line s, exec (.l2Eviction line) s = execL2Eviction line s := fun _ _ => rfl
theorem exec_gangWatchdog : ∀ strip s, exec (.gangWatchdog strip) s = execGangWatchdog strip s := fun _ _ => rfl
theorem exec_arrayOperationStart : ∀ strip s, exec (.arrayOperationStart strip) s = execArrayOperationStart strip s := fun _ _ => rfl
theorem exec_mmaRetire : ∀ strip s, exec (.mmaRetire strip) s = execMmaRetire strip s := fun _ _ => rfl
theorem exec_lensStart : ∀ cid s, exec (.lensStart cid) s = execLensStart cid s := fun _ _ => rfl
theorem exec_lensBranchResolve : ∀ cid s, exec (.lensBranchResolve cid) s = execLensBranchResolve cid s := fun _ _ => rfl
theorem exec_mirrorIntervalConfirm : ∀ cid s, exec (.mirrorIntervalConfirm cid) s = execMirrorIntervalConfirm cid s := fun _ _ => rfl
theorem exec_mirrorMismatch : ∀ cid s, exec (.mirrorMismatch cid) s = execMirrorMismatch cid s := fun _ _ => rfl
theorem exec_pairStart : ∀ cid s, exec (.pairStart cid) s = execPairStart cid s := fun _ _ => rfl
theorem exec_prismDispatch : ∀ prism thread s, exec (.prismDispatch prism thread) s = execPrismDispatch prism thread s := fun _ _ _ => rfl
theorem exec_gets : ∀ prism idx s, exec (.gets prism idx) s = execGets prism idx s := fun _ _ _ => rfl
theorem exec_getm : ∀ prism idx s, exec (.getm prism idx) s = execGetm prism idx s := fun _ _ _ => rfl
theorem exec_puts : ∀ prism idx s, exec (.puts prism idx) s = execPuts prism idx s := fun _ _ _ => rfl
theorem exec_putm : ∀ prism idx s, exec (.putm prism idx) s = execPutm prism idx s := fun _ _ _ => rfl
theorem exec_pdata : ∀ prism idx s, exec (.pdata prism idx) s = execPdata prism idx s := fun _ _ _ => rfl
theorem exec_probeAnswer : ∀ prism idx s, exec (.probeAnswer prism idx) s = execProbeAnswer prism idx s := fun _ _ _ => rfl
theorem exec_lread : ∀ prism idx s, exec (.lread prism idx) s = execLread prism idx s := fun _ _ _ => rfl
theorem exec_lwrite : ∀ prism idx s, exec (.lwrite prism idx) s = execLwrite prism idx s := fun _ _ _ => rfl
theorem exec_latom : ∀ prism idx s, exec (.latom prism idx) s = execLatom prism idx s := fun _ _ _ => rfl
theorem exec_grant : ∀ prism idx s, exec (.grant prism idx) s = execGrant prism idx s := fun _ _ _ => rfl
theorem exec_update : ∀ prism idx s, exec (.update prism idx) s = execUpdate prism idx s := fun _ _ _ => rfl
theorem exec_proxyProbe : ∀ prism idx s, exec (.proxyProbe prism idx) s = execProxyProbe prism idx s := fun _ _ _ => rfl
theorem exec_lost : ∀ prism idx s, exec (.lost prism idx) s = execLost prism idx s := fun _ _ _ => rfl
theorem exec_pushrel : ∀ prism idx s, exec (.pushrel prism idx) s = execPushrel prism idx s := fun _ _ _ => rfl
theorem exec_fwdNak : ∀ prism idx s, exec (.fwdNak prism idx) s = execFwdNak prism idx s := fun _ _ _ => rfl
theorem exec_handlerWatchdog : ∀ prism thread s, exec (.handlerWatchdog prism thread) s = execHandlerWatchdog prism thread s := fun _ _ _ => rfl
theorem exec_prismSpillDrain : ∀ prism s, exec (.prismSpillDrain prism) s = execPrismSpillDrain prism s := fun _ _ => rfl
theorem exec_retryRedispatch : ∀ prism idx s, exec (.retryRedispatch prism idx) s = execRetryRedispatch prism idx s := fun _ _ _ => rfl
theorem exec_rtsync : ∀ s, exec (.rtsync) s = execRtsync s := fun _ => rfl
theorem exec_rebind : ∀ s, exec (.rebind) s = execRebind s := fun _ => rfl
theorem exec_unbusy : ∀ s, exec (.unbusy) s = execUnbusy s := fun _ => rfl
theorem exec_setwd : ∀ s, exec (.setwd) s = execSetwd s := fun _ => rfl
theorem exec_migrate : ∀ s, exec (.migrate) s = execMigrate s := fun _ => rfl
theorem exec_migdone : ∀ s, exec (.migdone) s = execMigdone s := fun _ => rfl
theorem exec_partialEntryTimeout : ∀ prism idx s, exec (.partialEntryTimeout prism idx) s = execPartialEntryTimeout prism idx s := fun _ _ _ => rfl
theorem exec_copyComplete : ∀ idx s, exec (.copyComplete idx) s = execCopyComplete idx s := fun _ _ => rfl
theorem exec_promiseMissed : ∀ cid s, exec (.promiseMissed cid) s = execPromiseMissed cid s := fun _ _ => rfl
theorem exec_tlbWalkComplete : ∀ idx s, exec (.tlbWalkComplete idx) s = execTlbWalkComplete idx s := fun _ _ => rfl
theorem exec_waittExpiry : ∀ cid s, exec (.waittExpiry cid) s = execWaittExpiry cid s := fun _ _ => rfl
theorem exec_rdownnodataCompletion : ∀ s, exec (.rdownnodataCompletion) s = execRdownnodataCompletion s := fun _ => rfl

end Sys2Proof.Machine
end

