-- ==== Sys2Proof/Laws/Sparse.lean ====
section
/-! SUPPORT. What reading a sparse table gives after a change, and that every change keeps the canonical form. -/

namespace Sys2Proof.Machine.SMap

variable {α : Type}

@[simp] theorem get_nil (d : α) (k : Nat) : get d [] k = d := rfl

theorem get_erase_self (d : α) (m : SMap α) (k : Nat) : get d (erase m k) k = d := by
  induction m with
  | nil => rfl
  | cons e rest ih =>
    obtain ⟨j, x⟩ := e
    by_cases h : k = j <;> simp [erase, get, h] at * <;> assumption

theorem get_erase_ne (d : α) (m : SMap α) {k j : Nat} (h : j ≠ k) : get d (erase m k) j = get d m j := by
  induction m with
  | nil => rfl
  | cons e rest ih =>
    obtain ⟨i, x⟩ := e
    by_cases hk : k = i
    · subst hk; simpa [erase, get, h] using ih
    · by_cases hj : j = i <;> simp [erase, get, hk, hj] at * <;> assumption

theorem get_insert_self (d : α) (m : SMap α) (k : Nat) (x : α) : get d (insert m k x) k = x := by
  induction m with
  | nil => simp [insert, get]
  | cons e rest ih =>
    obtain ⟨j, y⟩ := e
    by_cases h : k = j
    · simp [insert, get, h]
    · by_cases h2 : k < j <;> simp [insert, get, h, h2, ih]

theorem get_insert_ne (d : α) (m : SMap α) {k j : Nat} (x : α) (h : j ≠ k) : get d (insert m k x) j = get d m j := by
  induction m with
  | nil => simp [insert, get, h]
  | cons e rest ih =>
    obtain ⟨i, y⟩ := e
    by_cases hk : k = i
    · subst hk; simp [insert, get, h]
    · by_cases h2 : k < i
      · simp [insert, get, hk, h2, h]
      · by_cases hj : j = i
        · subst hj; simp [insert, get, hk, h2]
        · simp [insert, get, hk, h2, hj, ih]

variable [DecidableEq α]

/-- A read of the key just written gives the value. -/
@[simp] theorem get_set_self (d : α) (m : SMap α) (k : Nat) (x : α) : get d (set d m k x) k = x := by
  by_cases h : x = d
  · simp [set, h, get_erase_self]
  · simp [set, h, get_insert_self]

/-- A write leaves every other key alone. -/
theorem get_set_ne (d : α) (m : SMap α) {k j : Nat} (x : α) (h : j ≠ k) : get d (set d m k x) j = get d m j := by
  by_cases hx : x = d
  · simp [set, hx, get_erase_ne d m h]
  · simp [set, hx, get_insert_ne d m x h]

/-- What a key reads after a write. -/
theorem get_set (d : α) (m : SMap α) (k j : Nat) (x : α) : get d (set d m k x) j = if j = k then x else get d m j := by
  by_cases h : j = k
  · subst h; simp
  · simp [h, get_set_ne d m x h]

theorem wfFrom_mono {d : α} {lo lo' : Nat} {m : SMap α} (h : lo' ≤ lo) (hw : wfFrom d lo m = true) : wfFrom d lo' m = true := by
  cases m with
  | nil => rfl
  | cons e rest =>
    obtain ⟨k, x⟩ := e
    simp only [wfFrom, Bool.and_eq_true, decide_eq_true_eq] at hw ⊢
    exact ⟨⟨by omega, hw.1.2⟩, hw.2⟩

theorem wfFrom_erase {d : α} {lo : Nat} {m : SMap α} (k : Nat) (hw : wfFrom d lo m = true) : wfFrom d lo (erase m k) = true := by
  induction m generalizing lo with
  | nil => rfl
  | cons e rest ih =>
    obtain ⟨j, x⟩ := e
    simp only [wfFrom, Bool.and_eq_true, decide_eq_true_eq] at hw
    by_cases h : k = j
    · simp only [erase, h, beq_self_eq_true, if_true]
      exact wfFrom_mono (by omega) (h ▸ ih hw.2)
    · simp only [erase, beq_iff_eq, h, if_false, wfFrom, Bool.and_eq_true, decide_eq_true_eq]
      exact ⟨hw.1, ih hw.2⟩

theorem wfFrom_insert {d : α} {lo : Nat} {m : SMap α} {k : Nat} {x : α} (hx : x ≠ d) (hk : lo ≤ k)
    (hw : wfFrom d lo m = true) : wfFrom d lo (insert m k x) = true := by
  induction m generalizing lo with
  | nil => simp [insert, wfFrom, hx, hk]
  | cons e rest ih =>
    obtain ⟨j, y⟩ := e
    simp only [wfFrom, Bool.and_eq_true, decide_eq_true_eq] at hw
    by_cases h : k = j
    · subst h
      simp [insert, wfFrom, hx, hk, hw.2]
    · by_cases h2 : k < j
      · simp only [insert, beq_iff_eq, h, if_false, h2, if_true, wfFrom, Bool.and_eq_true, decide_eq_true_eq]
        exact ⟨⟨hk, hx⟩, ⟨by omega, hw.1.2⟩, hw.2⟩
      · simp only [insert, beq_iff_eq, h, if_false, h2, wfFrom, Bool.and_eq_true, decide_eq_true_eq]
        exact ⟨hw.1, ih (by omega) hw.2⟩

/-- A write keeps the canonical form. -/
theorem wf_set {d : α} {m : SMap α} (k : Nat) (x : α) (hw : wf d m = true) : wf d (set d m k x) = true := by
  unfold set wf at *
  split
  · exact wfFrom_erase k hw
  · exact wfFrom_insert (by assumption) (Nat.zero_le _) hw

/-- Removing a key keeps the canonical form. -/
theorem wf_erase {d : α} {m : SMap α} (k : Nat) (hw : wf d m = true) : wf d (erase m k) = true := wfFrom_erase k hw

theorem wfFrom_filter {d : α} {lo : Nat} {m : SMap α} (p : Nat × α → Bool) (hw : wfFrom d lo m = true) :
    wfFrom d lo (m.filter p) = true := by
  induction m generalizing lo with
  | nil => rfl
  | cons e rest ih =>
    obtain ⟨j, x⟩ := e
    simp only [wfFrom, Bool.and_eq_true, decide_eq_true_eq] at hw
    by_cases h : p (j, x) = true
    · simp only [List.filter_cons, h, if_true, wfFrom, Bool.and_eq_true, decide_eq_true_eq]
      exact ⟨hw.1, ih hw.2⟩
    · simp only [List.filter_cons, h, if_false]
      exact wfFrom_mono (by omega) (ih hw.2)

/-- Dropping entries keeps the canonical form. -/
theorem wf_filter {d : α} {m : SMap α} (p : Nat × α → Bool) (hw : wf d m = true) : wf d (m.filter p) = true := wfFrom_filter p hw

theorem wfFrom_get_lt {d : α} {lo : Nat} {m : SMap α} (hw : wfFrom d lo m = true) {k : Nat} (h : k < lo) : get d m k = d := by
  induction m generalizing lo with
  | nil => rfl
  | cons e rest ih =>
    obtain ⟨j, x⟩ := e
    simp only [wfFrom, Bool.and_eq_true, decide_eq_true_eq] at hw
    have : k ≠ j := by omega
    simp only [get, beq_iff_eq, this, if_false]
    exact ih hw.2 (by omega)

/-- Two canonical tables that read the same at every key are equal. -/
theorem eq_of_get {d : α} {m m' : SMap α} (hw : wf d m = true) (hw' : wf d m' = true)
    (h : ∀ k, get d m k = get d m' k) : m = m' := by
  suffices ∀ lo, wfFrom d lo m = true → ∀ lo', wfFrom d lo' m' = true → m = m' from this 0 hw 0 hw'
  intro lo h1 lo' h2
  induction m generalizing m' lo lo' with
  | nil =>
    cases m' with
    | nil => rfl
    | cons e rest =>
      obtain ⟨j, x⟩ := e
      simp only [wfFrom, Bool.and_eq_true, decide_eq_true_eq] at h2
      have := h j
      simp [get] at this
      exact absurd this.symm h2.1.2
  | cons e rest ih =>
    obtain ⟨j, x⟩ := e
    simp only [wfFrom, Bool.and_eq_true, decide_eq_true_eq] at h1
    cases m' with
    | nil =>
      have := h j
      simp [get] at this
      exact absurd this h1.1.2
    | cons e' rest' =>
      obtain ⟨j', x'⟩ := e'
      simp only [wfFrom, Bool.and_eq_true, decide_eq_true_eq] at h2
      have hj : j = j' := by
        by_contra hne
        rcases Nat.lt_or_ge j j' with hl | hg
        · have := h j
          simp only [get, beq_self_eq_true, if_true, beq_iff_eq, hne, if_false] at this
          exact h1.1.2 (this.trans (wfFrom_get_lt h2.2 (by omega)))
        · have := h j'
          simp only [get, beq_self_eq_true, if_true, beq_iff_eq, Ne.symm hne, if_false] at this
          exact h2.1.2 (this.symm.trans (wfFrom_get_lt h1.2 (by omega)))
      subst hj
      have hx : x = x' := by simpa [get] using h j
      subst hx
      congr 1
      have hrest : ∀ k, get d rest k = get d rest' k := by
        intro k
        by_cases hk : k = j
        · subst hk
          rw [wfFrom_get_lt h1.2 (by omega), wfFrom_get_lt h2.2 (by omega)]
        · simpa [get, hk] using h k
      exact ih (wfFrom_mono (Nat.zero_le _) h1.2) (wfFrom_mono (Nat.zero_le _) h2.2) hrest _ h1.2 _ h2.2

end Sys2Proof.Machine.SMap
end

