-- ==== Sys2Proof/Laws/State.lean ====
section
/-! SUPPORT. What each update of the state leaves alone and what it changes, one lemma per field per update, so that no
proof unfolds a record update. -/

namespace Sys2Proof.Machine

/-! ### Fields that an update of the state leaves alone -/

@[simp] theorem setCtx_agenda (s : State) (c : Nat) (x : Ctx) : (setCtx s c x).agenda = s.agenda := rfl
@[simp] theorem setCtx_cur (s : State) (c : Nat) (x : Ctx) : (setCtx s c x).cur = s.cur := rfl
@[simp] theorem setCtx_heads (s : State) (c : Nat) (x : Ctx) : (setCtx s c x).heads = s.heads := rfl
@[simp] theorem setCtx_focus (s : State) (c : Nat) (x : Ctx) : (setCtx s c x).focus = s.focus := rfl
@[simp] theorem setCtx_freeCtr (s : State) (c : Nat) (x : Ctx) : (setCtx s c x).freeCtr = s.freeCtr := rfl
@[simp] theorem setCtx_cyc (s : State) (c : Nat) (x : Ctx) : (setCtx s c x).cyc = s.cyc := rfl
@[simp] theorem setCtx_dev (s : State) (c : Nat) (x : Ctx) : (setCtx s c x).dev = s.dev := rfl
@[simp] theorem setCtx_ms (s : State) (c : Nat) (x : Ctx) : (setCtx s c x).ms = s.ms := rfl
@[simp] theorem setCtx_cores (s : State) (c : Nat) (x : Ctx) : (setCtx s c x).cores = s.cores := rfl
@[simp] theorem setCtx_strips (s : State) (c : Nat) (x : Ctx) : (setCtx s c x).strips = s.strips := rfl
@[simp] theorem setCtx_regs (s : State) (c : Nat) (x : Ctx) : (setCtx s c x).regs = s.regs := rfl
@[simp] theorem setCtx_tr (s : State) (c : Nat) (x : Ctx) : (setCtx s c x).tr = s.tr := rfl
@[simp] theorem setCtx_cp (s : State) (c : Nat) (x : Ctx) : (setCtx s c x).cp = s.cp := rfl
@[simp] theorem setCtx_net (s : State) (c : Nat) (x : Ctx) : (setCtx s c x).net = s.net := rfl
@[simp] theorem setCtx_grp (s : State) (c : Nat) (x : Ctx) : (setCtx s c x).grp = s.grp := rfl
@[simp] theorem setCtx_host (s : State) (c : Nat) (x : Ctx) : (setCtx s c x).host = s.host := rfl
@[simp] theorem setCtx_firm (s : State) (c : Nat) (x : Ctx) : (setCtx s c x).firm = s.firm := rfl
@[simp] theorem setCtx_fe (s : State) (c : Nat) (x : Ctx) : (setCtx s c x).fe = s.fe := rfl
@[simp] theorem setCtx_fab (s : State) (c : Nat) (x : Ctx) : (setCtx s c x).fab = s.fab := rfl
@[simp] theorem setCtx_prisms (s : State) (c : Nat) (x : Ctx) : (setCtx s c x).prisms = s.prisms := rfl

@[simp] theorem modCtx_agenda (c : Nat) (f : Ctx → Ctx) (s : State) : (modCtx c f s).agenda = s.agenda := rfl
@[simp] theorem modCtx_cur (c : Nat) (f : Ctx → Ctx) (s : State) : (modCtx c f s).cur = s.cur := rfl
@[simp] theorem modCtx_heads (c : Nat) (f : Ctx → Ctx) (s : State) : (modCtx c f s).heads = s.heads := rfl
@[simp] theorem modCtx_focus (c : Nat) (f : Ctx → Ctx) (s : State) : (modCtx c f s).focus = s.focus := rfl
@[simp] theorem modCtx_freeCtr (c : Nat) (f : Ctx → Ctx) (s : State) : (modCtx c f s).freeCtr = s.freeCtr := rfl
@[simp] theorem modCtx_cyc (c : Nat) (f : Ctx → Ctx) (s : State) : (modCtx c f s).cyc = s.cyc := rfl
@[simp] theorem modCtx_dev (c : Nat) (f : Ctx → Ctx) (s : State) : (modCtx c f s).dev = s.dev := rfl
@[simp] theorem modCtx_ms (c : Nat) (f : Ctx → Ctx) (s : State) : (modCtx c f s).ms = s.ms := rfl
@[simp] theorem modCtx_cores (c : Nat) (f : Ctx → Ctx) (s : State) : (modCtx c f s).cores = s.cores := rfl
@[simp] theorem modCtx_strips (c : Nat) (f : Ctx → Ctx) (s : State) : (modCtx c f s).strips = s.strips := rfl
@[simp] theorem modCtx_regs (c : Nat) (f : Ctx → Ctx) (s : State) : (modCtx c f s).regs = s.regs := rfl
@[simp] theorem modCtx_tr (c : Nat) (f : Ctx → Ctx) (s : State) : (modCtx c f s).tr = s.tr := rfl
@[simp] theorem modCtx_cp (c : Nat) (f : Ctx → Ctx) (s : State) : (modCtx c f s).cp = s.cp := rfl
@[simp] theorem modCtx_net (c : Nat) (f : Ctx → Ctx) (s : State) : (modCtx c f s).net = s.net := rfl
@[simp] theorem modCtx_grp (c : Nat) (f : Ctx → Ctx) (s : State) : (modCtx c f s).grp = s.grp := rfl
@[simp] theorem modCtx_host (c : Nat) (f : Ctx → Ctx) (s : State) : (modCtx c f s).host = s.host := rfl
@[simp] theorem modCtx_firm (c : Nat) (f : Ctx → Ctx) (s : State) : (modCtx c f s).firm = s.firm := rfl
@[simp] theorem modCtx_fe (c : Nat) (f : Ctx → Ctx) (s : State) : (modCtx c f s).fe = s.fe := rfl
@[simp] theorem modCtx_fab (c : Nat) (f : Ctx → Ctx) (s : State) : (modCtx c f s).fab = s.fab := rfl
@[simp] theorem modCtx_prisms (c : Nat) (f : Ctx → Ctx) (s : State) : (modCtx c f s).prisms = s.prisms := rfl

@[simp] theorem modHere_agenda (f : Ctx → Ctx) (s : State) : (modHere f s).agenda = s.agenda := rfl
@[simp] theorem modHere_cur (f : Ctx → Ctx) (s : State) : (modHere f s).cur = s.cur := rfl
@[simp] theorem modHere_heads (f : Ctx → Ctx) (s : State) : (modHere f s).heads = s.heads := rfl
@[simp] theorem modHere_focus (f : Ctx → Ctx) (s : State) : (modHere f s).focus = s.focus := rfl
@[simp] theorem modHere_freeCtr (f : Ctx → Ctx) (s : State) : (modHere f s).freeCtr = s.freeCtr := rfl
@[simp] theorem modHere_cyc (f : Ctx → Ctx) (s : State) : (modHere f s).cyc = s.cyc := rfl
@[simp] theorem modHere_dev (f : Ctx → Ctx) (s : State) : (modHere f s).dev = s.dev := rfl
@[simp] theorem modHere_ms (f : Ctx → Ctx) (s : State) : (modHere f s).ms = s.ms := rfl
@[simp] theorem modHere_cores (f : Ctx → Ctx) (s : State) : (modHere f s).cores = s.cores := rfl
@[simp] theorem modHere_strips (f : Ctx → Ctx) (s : State) : (modHere f s).strips = s.strips := rfl
@[simp] theorem modHere_regs (f : Ctx → Ctx) (s : State) : (modHere f s).regs = s.regs := rfl
@[simp] theorem modHere_tr (f : Ctx → Ctx) (s : State) : (modHere f s).tr = s.tr := rfl
@[simp] theorem modHere_cp (f : Ctx → Ctx) (s : State) : (modHere f s).cp = s.cp := rfl
@[simp] theorem modHere_net (f : Ctx → Ctx) (s : State) : (modHere f s).net = s.net := rfl
@[simp] theorem modHere_grp (f : Ctx → Ctx) (s : State) : (modHere f s).grp = s.grp := rfl
@[simp] theorem modHere_host (f : Ctx → Ctx) (s : State) : (modHere f s).host = s.host := rfl
@[simp] theorem modHere_firm (f : Ctx → Ctx) (s : State) : (modHere f s).firm = s.firm := rfl
@[simp] theorem modHere_fe (f : Ctx → Ctx) (s : State) : (modHere f s).fe = s.fe := rfl
@[simp] theorem modHere_fab (f : Ctx → Ctx) (s : State) : (modHere f s).fab = s.fab := rfl
@[simp] theorem modHere_prisms (f : Ctx → Ctx) (s : State) : (modHere f s).prisms = s.prisms := rfl

@[simp] theorem modFir_agenda (c : Nat) (f : Firing → Firing) (s : State) : (modFir c f s).agenda = s.agenda := rfl
@[simp] theorem modFir_cur (c : Nat) (f : Firing → Firing) (s : State) : (modFir c f s).cur = s.cur := rfl
@[simp] theorem modFir_heads (c : Nat) (f : Firing → Firing) (s : State) : (modFir c f s).heads = s.heads := rfl
@[simp] theorem modFir_focus (c : Nat) (f : Firing → Firing) (s : State) : (modFir c f s).focus = s.focus := rfl
@[simp] theorem modFir_freeCtr (c : Nat) (f : Firing → Firing) (s : State) : (modFir c f s).freeCtr = s.freeCtr := rfl
@[simp] theorem modFir_cyc (c : Nat) (f : Firing → Firing) (s : State) : (modFir c f s).cyc = s.cyc := rfl
@[simp] theorem modFir_dev (c : Nat) (f : Firing → Firing) (s : State) : (modFir c f s).dev = s.dev := rfl
@[simp] theorem modFir_ms (c : Nat) (f : Firing → Firing) (s : State) : (modFir c f s).ms = s.ms := rfl
@[simp] theorem modFir_cores (c : Nat) (f : Firing → Firing) (s : State) : (modFir c f s).cores = s.cores := rfl
@[simp] theorem modFir_strips (c : Nat) (f : Firing → Firing) (s : State) : (modFir c f s).strips = s.strips := rfl
@[simp] theorem modFir_regs (c : Nat) (f : Firing → Firing) (s : State) : (modFir c f s).regs = s.regs := rfl
@[simp] theorem modFir_tr (c : Nat) (f : Firing → Firing) (s : State) : (modFir c f s).tr = s.tr := rfl
@[simp] theorem modFir_cp (c : Nat) (f : Firing → Firing) (s : State) : (modFir c f s).cp = s.cp := rfl
@[simp] theorem modFir_net (c : Nat) (f : Firing → Firing) (s : State) : (modFir c f s).net = s.net := rfl
@[simp] theorem modFir_grp (c : Nat) (f : Firing → Firing) (s : State) : (modFir c f s).grp = s.grp := rfl
@[simp] theorem modFir_host (c : Nat) (f : Firing → Firing) (s : State) : (modFir c f s).host = s.host := rfl
@[simp] theorem modFir_firm (c : Nat) (f : Firing → Firing) (s : State) : (modFir c f s).firm = s.firm := rfl
@[simp] theorem modFir_fe (c : Nat) (f : Firing → Firing) (s : State) : (modFir c f s).fe = s.fe := rfl
@[simp] theorem modFir_fab (c : Nat) (f : Firing → Firing) (s : State) : (modFir c f s).fab = s.fab := rfl
@[simp] theorem modFir_prisms (c : Nat) (f : Firing → Firing) (s : State) : (modFir c f s).prisms = s.prisms := rfl

@[simp] theorem setCore_agenda (s : State) (k : Nat) (x : CoreSt) : (setCore s k x).agenda = s.agenda := rfl
@[simp] theorem setCore_cur (s : State) (k : Nat) (x : CoreSt) : (setCore s k x).cur = s.cur := rfl
@[simp] theorem setCore_heads (s : State) (k : Nat) (x : CoreSt) : (setCore s k x).heads = s.heads := rfl
@[simp] theorem setCore_focus (s : State) (k : Nat) (x : CoreSt) : (setCore s k x).focus = s.focus := rfl
@[simp] theorem setCore_freeCtr (s : State) (k : Nat) (x : CoreSt) : (setCore s k x).freeCtr = s.freeCtr := rfl
@[simp] theorem setCore_cyc (s : State) (k : Nat) (x : CoreSt) : (setCore s k x).cyc = s.cyc := rfl
@[simp] theorem setCore_dev (s : State) (k : Nat) (x : CoreSt) : (setCore s k x).dev = s.dev := rfl
@[simp] theorem setCore_ms (s : State) (k : Nat) (x : CoreSt) : (setCore s k x).ms = s.ms := rfl
@[simp] theorem setCore_ctxs (s : State) (k : Nat) (x : CoreSt) : (setCore s k x).ctxs = s.ctxs := rfl
@[simp] theorem setCore_strips (s : State) (k : Nat) (x : CoreSt) : (setCore s k x).strips = s.strips := rfl
@[simp] theorem setCore_regs (s : State) (k : Nat) (x : CoreSt) : (setCore s k x).regs = s.regs := rfl
@[simp] theorem setCore_tr (s : State) (k : Nat) (x : CoreSt) : (setCore s k x).tr = s.tr := rfl
@[simp] theorem setCore_cp (s : State) (k : Nat) (x : CoreSt) : (setCore s k x).cp = s.cp := rfl
@[simp] theorem setCore_net (s : State) (k : Nat) (x : CoreSt) : (setCore s k x).net = s.net := rfl
@[simp] theorem setCore_grp (s : State) (k : Nat) (x : CoreSt) : (setCore s k x).grp = s.grp := rfl
@[simp] theorem setCore_host (s : State) (k : Nat) (x : CoreSt) : (setCore s k x).host = s.host := rfl
@[simp] theorem setCore_firm (s : State) (k : Nat) (x : CoreSt) : (setCore s k x).firm = s.firm := rfl
@[simp] theorem setCore_fe (s : State) (k : Nat) (x : CoreSt) : (setCore s k x).fe = s.fe := rfl
@[simp] theorem setCore_fab (s : State) (k : Nat) (x : CoreSt) : (setCore s k x).fab = s.fab := rfl
@[simp] theorem setCore_prisms (s : State) (k : Nat) (x : CoreSt) : (setCore s k x).prisms = s.prisms := rfl

@[simp] theorem modCore_agenda (k : Nat) (f : CoreSt → CoreSt) (s : State) : (modCore k f s).agenda = s.agenda := rfl
@[simp] theorem modCore_cur (k : Nat) (f : CoreSt → CoreSt) (s : State) : (modCore k f s).cur = s.cur := rfl
@[simp] theorem modCore_heads (k : Nat) (f : CoreSt → CoreSt) (s : State) : (modCore k f s).heads = s.heads := rfl
@[simp] theorem modCore_focus (k : Nat) (f : CoreSt → CoreSt) (s : State) : (modCore k f s).focus = s.focus := rfl
@[simp] theorem modCore_freeCtr (k : Nat) (f : CoreSt → CoreSt) (s : State) : (modCore k f s).freeCtr = s.freeCtr := rfl
@[simp] theorem modCore_cyc (k : Nat) (f : CoreSt → CoreSt) (s : State) : (modCore k f s).cyc = s.cyc := rfl
@[simp] theorem modCore_dev (k : Nat) (f : CoreSt → CoreSt) (s : State) : (modCore k f s).dev = s.dev := rfl
@[simp] theorem modCore_ms (k : Nat) (f : CoreSt → CoreSt) (s : State) : (modCore k f s).ms = s.ms := rfl
@[simp] theorem modCore_ctxs (k : Nat) (f : CoreSt → CoreSt) (s : State) : (modCore k f s).ctxs = s.ctxs := rfl
@[simp] theorem modCore_strips (k : Nat) (f : CoreSt → CoreSt) (s : State) : (modCore k f s).strips = s.strips := rfl
@[simp] theorem modCore_regs (k : Nat) (f : CoreSt → CoreSt) (s : State) : (modCore k f s).regs = s.regs := rfl
@[simp] theorem modCore_tr (k : Nat) (f : CoreSt → CoreSt) (s : State) : (modCore k f s).tr = s.tr := rfl
@[simp] theorem modCore_cp (k : Nat) (f : CoreSt → CoreSt) (s : State) : (modCore k f s).cp = s.cp := rfl
@[simp] theorem modCore_net (k : Nat) (f : CoreSt → CoreSt) (s : State) : (modCore k f s).net = s.net := rfl
@[simp] theorem modCore_grp (k : Nat) (f : CoreSt → CoreSt) (s : State) : (modCore k f s).grp = s.grp := rfl
@[simp] theorem modCore_host (k : Nat) (f : CoreSt → CoreSt) (s : State) : (modCore k f s).host = s.host := rfl
@[simp] theorem modCore_firm (k : Nat) (f : CoreSt → CoreSt) (s : State) : (modCore k f s).firm = s.firm := rfl
@[simp] theorem modCore_fe (k : Nat) (f : CoreSt → CoreSt) (s : State) : (modCore k f s).fe = s.fe := rfl
@[simp] theorem modCore_fab (k : Nat) (f : CoreSt → CoreSt) (s : State) : (modCore k f s).fab = s.fab := rfl
@[simp] theorem modCore_prisms (k : Nat) (f : CoreSt → CoreSt) (s : State) : (modCore k f s).prisms = s.prisms := rfl

@[simp] theorem setStrip_agenda (s : State) (k : Nat) (x : StripSt) : (setStrip s k x).agenda = s.agenda := rfl
@[simp] theorem setStrip_cur (s : State) (k : Nat) (x : StripSt) : (setStrip s k x).cur = s.cur := rfl
@[simp] theorem setStrip_heads (s : State) (k : Nat) (x : StripSt) : (setStrip s k x).heads = s.heads := rfl
@[simp] theorem setStrip_focus (s : State) (k : Nat) (x : StripSt) : (setStrip s k x).focus = s.focus := rfl
@[simp] theorem setStrip_freeCtr (s : State) (k : Nat) (x : StripSt) : (setStrip s k x).freeCtr = s.freeCtr := rfl
@[simp] theorem setStrip_cyc (s : State) (k : Nat) (x : StripSt) : (setStrip s k x).cyc = s.cyc := rfl
@[simp] theorem setStrip_dev (s : State) (k : Nat) (x : StripSt) : (setStrip s k x).dev = s.dev := rfl
@[simp] theorem setStrip_ms (s : State) (k : Nat) (x : StripSt) : (setStrip s k x).ms = s.ms := rfl
@[simp] theorem setStrip_ctxs (s : State) (k : Nat) (x : StripSt) : (setStrip s k x).ctxs = s.ctxs := rfl
@[simp] theorem setStrip_cores (s : State) (k : Nat) (x : StripSt) : (setStrip s k x).cores = s.cores := rfl
@[simp] theorem setStrip_regs (s : State) (k : Nat) (x : StripSt) : (setStrip s k x).regs = s.regs := rfl
@[simp] theorem setStrip_tr (s : State) (k : Nat) (x : StripSt) : (setStrip s k x).tr = s.tr := rfl
@[simp] theorem setStrip_cp (s : State) (k : Nat) (x : StripSt) : (setStrip s k x).cp = s.cp := rfl
@[simp] theorem setStrip_net (s : State) (k : Nat) (x : StripSt) : (setStrip s k x).net = s.net := rfl
@[simp] theorem setStrip_grp (s : State) (k : Nat) (x : StripSt) : (setStrip s k x).grp = s.grp := rfl
@[simp] theorem setStrip_host (s : State) (k : Nat) (x : StripSt) : (setStrip s k x).host = s.host := rfl
@[simp] theorem setStrip_firm (s : State) (k : Nat) (x : StripSt) : (setStrip s k x).firm = s.firm := rfl
@[simp] theorem setStrip_fe (s : State) (k : Nat) (x : StripSt) : (setStrip s k x).fe = s.fe := rfl
@[simp] theorem setStrip_fab (s : State) (k : Nat) (x : StripSt) : (setStrip s k x).fab = s.fab := rfl
@[simp] theorem setStrip_prisms (s : State) (k : Nat) (x : StripSt) : (setStrip s k x).prisms = s.prisms := rfl

@[simp] theorem modStrip_agenda (k : Nat) (f : StripSt → StripSt) (s : State) : (modStrip k f s).agenda = s.agenda := rfl
@[simp] theorem modStrip_cur (k : Nat) (f : StripSt → StripSt) (s : State) : (modStrip k f s).cur = s.cur := rfl
@[simp] theorem modStrip_heads (k : Nat) (f : StripSt → StripSt) (s : State) : (modStrip k f s).heads = s.heads := rfl
@[simp] theorem modStrip_focus (k : Nat) (f : StripSt → StripSt) (s : State) : (modStrip k f s).focus = s.focus := rfl
@[simp] theorem modStrip_freeCtr (k : Nat) (f : StripSt → StripSt) (s : State) : (modStrip k f s).freeCtr = s.freeCtr := rfl
@[simp] theorem modStrip_cyc (k : Nat) (f : StripSt → StripSt) (s : State) : (modStrip k f s).cyc = s.cyc := rfl
@[simp] theorem modStrip_dev (k : Nat) (f : StripSt → StripSt) (s : State) : (modStrip k f s).dev = s.dev := rfl
@[simp] theorem modStrip_ms (k : Nat) (f : StripSt → StripSt) (s : State) : (modStrip k f s).ms = s.ms := rfl
@[simp] theorem modStrip_ctxs (k : Nat) (f : StripSt → StripSt) (s : State) : (modStrip k f s).ctxs = s.ctxs := rfl
@[simp] theorem modStrip_cores (k : Nat) (f : StripSt → StripSt) (s : State) : (modStrip k f s).cores = s.cores := rfl
@[simp] theorem modStrip_regs (k : Nat) (f : StripSt → StripSt) (s : State) : (modStrip k f s).regs = s.regs := rfl
@[simp] theorem modStrip_tr (k : Nat) (f : StripSt → StripSt) (s : State) : (modStrip k f s).tr = s.tr := rfl
@[simp] theorem modStrip_cp (k : Nat) (f : StripSt → StripSt) (s : State) : (modStrip k f s).cp = s.cp := rfl
@[simp] theorem modStrip_net (k : Nat) (f : StripSt → StripSt) (s : State) : (modStrip k f s).net = s.net := rfl
@[simp] theorem modStrip_grp (k : Nat) (f : StripSt → StripSt) (s : State) : (modStrip k f s).grp = s.grp := rfl
@[simp] theorem modStrip_host (k : Nat) (f : StripSt → StripSt) (s : State) : (modStrip k f s).host = s.host := rfl
@[simp] theorem modStrip_firm (k : Nat) (f : StripSt → StripSt) (s : State) : (modStrip k f s).firm = s.firm := rfl
@[simp] theorem modStrip_fe (k : Nat) (f : StripSt → StripSt) (s : State) : (modStrip k f s).fe = s.fe := rfl
@[simp] theorem modStrip_fab (k : Nat) (f : StripSt → StripSt) (s : State) : (modStrip k f s).fab = s.fab := rfl
@[simp] theorem modStrip_prisms (k : Nat) (f : StripSt → StripSt) (s : State) : (modStrip k f s).prisms = s.prisms := rfl

@[simp] theorem setPrism_agenda (s : State) (p : Nat) (x : PrismSt) : (setPrism s p x).agenda = s.agenda := rfl
@[simp] theorem setPrism_cur (s : State) (p : Nat) (x : PrismSt) : (setPrism s p x).cur = s.cur := rfl
@[simp] theorem setPrism_heads (s : State) (p : Nat) (x : PrismSt) : (setPrism s p x).heads = s.heads := rfl
@[simp] theorem setPrism_focus (s : State) (p : Nat) (x : PrismSt) : (setPrism s p x).focus = s.focus := rfl
@[simp] theorem setPrism_freeCtr (s : State) (p : Nat) (x : PrismSt) : (setPrism s p x).freeCtr = s.freeCtr := rfl
@[simp] theorem setPrism_cyc (s : State) (p : Nat) (x : PrismSt) : (setPrism s p x).cyc = s.cyc := rfl
@[simp] theorem setPrism_dev (s : State) (p : Nat) (x : PrismSt) : (setPrism s p x).dev = s.dev := rfl
@[simp] theorem setPrism_ms (s : State) (p : Nat) (x : PrismSt) : (setPrism s p x).ms = s.ms := rfl
@[simp] theorem setPrism_ctxs (s : State) (p : Nat) (x : PrismSt) : (setPrism s p x).ctxs = s.ctxs := rfl
@[simp] theorem setPrism_cores (s : State) (p : Nat) (x : PrismSt) : (setPrism s p x).cores = s.cores := rfl
@[simp] theorem setPrism_strips (s : State) (p : Nat) (x : PrismSt) : (setPrism s p x).strips = s.strips := rfl
@[simp] theorem setPrism_regs (s : State) (p : Nat) (x : PrismSt) : (setPrism s p x).regs = s.regs := rfl
@[simp] theorem setPrism_tr (s : State) (p : Nat) (x : PrismSt) : (setPrism s p x).tr = s.tr := rfl
@[simp] theorem setPrism_cp (s : State) (p : Nat) (x : PrismSt) : (setPrism s p x).cp = s.cp := rfl
@[simp] theorem setPrism_net (s : State) (p : Nat) (x : PrismSt) : (setPrism s p x).net = s.net := rfl
@[simp] theorem setPrism_grp (s : State) (p : Nat) (x : PrismSt) : (setPrism s p x).grp = s.grp := rfl
@[simp] theorem setPrism_host (s : State) (p : Nat) (x : PrismSt) : (setPrism s p x).host = s.host := rfl
@[simp] theorem setPrism_firm (s : State) (p : Nat) (x : PrismSt) : (setPrism s p x).firm = s.firm := rfl
@[simp] theorem setPrism_fe (s : State) (p : Nat) (x : PrismSt) : (setPrism s p x).fe = s.fe := rfl
@[simp] theorem setPrism_fab (s : State) (p : Nat) (x : PrismSt) : (setPrism s p x).fab = s.fab := rfl

@[simp] theorem modPrism_agenda (p : Nat) (f : PrismSt → PrismSt) (s : State) : (modPrism p f s).agenda = s.agenda := rfl
@[simp] theorem modPrism_cur (p : Nat) (f : PrismSt → PrismSt) (s : State) : (modPrism p f s).cur = s.cur := rfl
@[simp] theorem modPrism_heads (p : Nat) (f : PrismSt → PrismSt) (s : State) : (modPrism p f s).heads = s.heads := rfl
@[simp] theorem modPrism_focus (p : Nat) (f : PrismSt → PrismSt) (s : State) : (modPrism p f s).focus = s.focus := rfl
@[simp] theorem modPrism_freeCtr (p : Nat) (f : PrismSt → PrismSt) (s : State) : (modPrism p f s).freeCtr = s.freeCtr := rfl
@[simp] theorem modPrism_cyc (p : Nat) (f : PrismSt → PrismSt) (s : State) : (modPrism p f s).cyc = s.cyc := rfl
@[simp] theorem modPrism_dev (p : Nat) (f : PrismSt → PrismSt) (s : State) : (modPrism p f s).dev = s.dev := rfl
@[simp] theorem modPrism_ms (p : Nat) (f : PrismSt → PrismSt) (s : State) : (modPrism p f s).ms = s.ms := rfl
@[simp] theorem modPrism_ctxs (p : Nat) (f : PrismSt → PrismSt) (s : State) : (modPrism p f s).ctxs = s.ctxs := rfl
@[simp] theorem modPrism_cores (p : Nat) (f : PrismSt → PrismSt) (s : State) : (modPrism p f s).cores = s.cores := rfl
@[simp] theorem modPrism_strips (p : Nat) (f : PrismSt → PrismSt) (s : State) : (modPrism p f s).strips = s.strips := rfl
@[simp] theorem modPrism_regs (p : Nat) (f : PrismSt → PrismSt) (s : State) : (modPrism p f s).regs = s.regs := rfl
@[simp] theorem modPrism_tr (p : Nat) (f : PrismSt → PrismSt) (s : State) : (modPrism p f s).tr = s.tr := rfl
@[simp] theorem modPrism_cp (p : Nat) (f : PrismSt → PrismSt) (s : State) : (modPrism p f s).cp = s.cp := rfl
@[simp] theorem modPrism_net (p : Nat) (f : PrismSt → PrismSt) (s : State) : (modPrism p f s).net = s.net := rfl
@[simp] theorem modPrism_grp (p : Nat) (f : PrismSt → PrismSt) (s : State) : (modPrism p f s).grp = s.grp := rfl
@[simp] theorem modPrism_host (p : Nat) (f : PrismSt → PrismSt) (s : State) : (modPrism p f s).host = s.host := rfl
@[simp] theorem modPrism_firm (p : Nat) (f : PrismSt → PrismSt) (s : State) : (modPrism p f s).firm = s.firm := rfl
@[simp] theorem modPrism_fe (p : Nat) (f : PrismSt → PrismSt) (s : State) : (modPrism p f s).fe = s.fe := rfl
@[simp] theorem modPrism_fab (p : Nat) (f : PrismSt → PrismSt) (s : State) : (modPrism p f s).fab = s.fab := rfl

@[simp] theorem setFn_agenda (s : State) (f : Nat) (x : Fn) : (setFn s f x).agenda = s.agenda := rfl
@[simp] theorem setFn_cur (s : State) (f : Nat) (x : Fn) : (setFn s f x).cur = s.cur := rfl
@[simp] theorem setFn_heads (s : State) (f : Nat) (x : Fn) : (setFn s f x).heads = s.heads := rfl
@[simp] theorem setFn_focus (s : State) (f : Nat) (x : Fn) : (setFn s f x).focus = s.focus := rfl
@[simp] theorem setFn_freeCtr (s : State) (f : Nat) (x : Fn) : (setFn s f x).freeCtr = s.freeCtr := rfl
@[simp] theorem setFn_cyc (s : State) (f : Nat) (x : Fn) : (setFn s f x).cyc = s.cyc := rfl
@[simp] theorem setFn_dev (s : State) (f : Nat) (x : Fn) : (setFn s f x).dev = s.dev := rfl
@[simp] theorem setFn_ms (s : State) (f : Nat) (x : Fn) : (setFn s f x).ms = s.ms := rfl
@[simp] theorem setFn_ctxs (s : State) (f : Nat) (x : Fn) : (setFn s f x).ctxs = s.ctxs := rfl
@[simp] theorem setFn_cores (s : State) (f : Nat) (x : Fn) : (setFn s f x).cores = s.cores := rfl
@[simp] theorem setFn_strips (s : State) (f : Nat) (x : Fn) : (setFn s f x).strips = s.strips := rfl
@[simp] theorem setFn_regs (s : State) (f : Nat) (x : Fn) : (setFn s f x).regs = s.regs := rfl
@[simp] theorem setFn_tr (s : State) (f : Nat) (x : Fn) : (setFn s f x).tr = s.tr := rfl
@[simp] theorem setFn_cp (s : State) (f : Nat) (x : Fn) : (setFn s f x).cp = s.cp := rfl
@[simp] theorem setFn_net (s : State) (f : Nat) (x : Fn) : (setFn s f x).net = s.net := rfl
@[simp] theorem setFn_grp (s : State) (f : Nat) (x : Fn) : (setFn s f x).grp = s.grp := rfl
@[simp] theorem setFn_firm (s : State) (f : Nat) (x : Fn) : (setFn s f x).firm = s.firm := rfl
@[simp] theorem setFn_fe (s : State) (f : Nat) (x : Fn) : (setFn s f x).fe = s.fe := rfl
@[simp] theorem setFn_fab (s : State) (f : Nat) (x : Fn) : (setFn s f x).fab = s.fab := rfl
@[simp] theorem setFn_prisms (s : State) (f : Nat) (x : Fn) : (setFn s f x).prisms = s.prisms := rfl

@[simp] theorem modFn_agenda (f : Nat) (g : Fn → Fn) (s : State) : (modFn f g s).agenda = s.agenda := rfl
@[simp] theorem modFn_cur (f : Nat) (g : Fn → Fn) (s : State) : (modFn f g s).cur = s.cur := rfl
@[simp] theorem modFn_heads (f : Nat) (g : Fn → Fn) (s : State) : (modFn f g s).heads = s.heads := rfl
@[simp] theorem modFn_focus (f : Nat) (g : Fn → Fn) (s : State) : (modFn f g s).focus = s.focus := rfl
@[simp] theorem modFn_freeCtr (f : Nat) (g : Fn → Fn) (s : State) : (modFn f g s).freeCtr = s.freeCtr := rfl
@[simp] theorem modFn_cyc (f : Nat) (g : Fn → Fn) (s : State) : (modFn f g s).cyc = s.cyc := rfl
@[simp] theorem modFn_dev (f : Nat) (g : Fn → Fn) (s : State) : (modFn f g s).dev = s.dev := rfl
@[simp] theorem modFn_ms (f : Nat) (g : Fn → Fn) (s : State) : (modFn f g s).ms = s.ms := rfl
@[simp] theorem modFn_ctxs (f : Nat) (g : Fn → Fn) (s : State) : (modFn f g s).ctxs = s.ctxs := rfl
@[simp] theorem modFn_cores (f : Nat) (g : Fn → Fn) (s : State) : (modFn f g s).cores = s.cores := rfl
@[simp] theorem modFn_strips (f : Nat) (g : Fn → Fn) (s : State) : (modFn f g s).strips = s.strips := rfl
@[simp] theorem modFn_regs (f : Nat) (g : Fn → Fn) (s : State) : (modFn f g s).regs = s.regs := rfl
@[simp] theorem modFn_tr (f : Nat) (g : Fn → Fn) (s : State) : (modFn f g s).tr = s.tr := rfl
@[simp] theorem modFn_cp (f : Nat) (g : Fn → Fn) (s : State) : (modFn f g s).cp = s.cp := rfl
@[simp] theorem modFn_net (f : Nat) (g : Fn → Fn) (s : State) : (modFn f g s).net = s.net := rfl
@[simp] theorem modFn_grp (f : Nat) (g : Fn → Fn) (s : State) : (modFn f g s).grp = s.grp := rfl
@[simp] theorem modFn_firm (f : Nat) (g : Fn → Fn) (s : State) : (modFn f g s).firm = s.firm := rfl
@[simp] theorem modFn_fe (f : Nat) (g : Fn → Fn) (s : State) : (modFn f g s).fe = s.fe := rfl
@[simp] theorem modFn_fab (f : Nat) (g : Fn → Fn) (s : State) : (modFn f g s).fab = s.fab := rfl
@[simp] theorem modFn_prisms (f : Nat) (g : Fn → Fn) (s : State) : (modFn f g s).prisms = s.prisms := rfl

@[simp] theorem modMs_agenda (f : MemSt → MemSt) (s : State) : (modMs f s).agenda = s.agenda := rfl
@[simp] theorem modMs_cur (f : MemSt → MemSt) (s : State) : (modMs f s).cur = s.cur := rfl
@[simp] theorem modMs_heads (f : MemSt → MemSt) (s : State) : (modMs f s).heads = s.heads := rfl
@[simp] theorem modMs_focus (f : MemSt → MemSt) (s : State) : (modMs f s).focus = s.focus := rfl
@[simp] theorem modMs_freeCtr (f : MemSt → MemSt) (s : State) : (modMs f s).freeCtr = s.freeCtr := rfl
@[simp] theorem modMs_cyc (f : MemSt → MemSt) (s : State) : (modMs f s).cyc = s.cyc := rfl
@[simp] theorem modMs_dev (f : MemSt → MemSt) (s : State) : (modMs f s).dev = s.dev := rfl
@[simp] theorem modMs_ctxs (f : MemSt → MemSt) (s : State) : (modMs f s).ctxs = s.ctxs := rfl
@[simp] theorem modMs_cores (f : MemSt → MemSt) (s : State) : (modMs f s).cores = s.cores := rfl
@[simp] theorem modMs_strips (f : MemSt → MemSt) (s : State) : (modMs f s).strips = s.strips := rfl
@[simp] theorem modMs_regs (f : MemSt → MemSt) (s : State) : (modMs f s).regs = s.regs := rfl
@[simp] theorem modMs_tr (f : MemSt → MemSt) (s : State) : (modMs f s).tr = s.tr := rfl
@[simp] theorem modMs_cp (f : MemSt → MemSt) (s : State) : (modMs f s).cp = s.cp := rfl
@[simp] theorem modMs_net (f : MemSt → MemSt) (s : State) : (modMs f s).net = s.net := rfl
@[simp] theorem modMs_grp (f : MemSt → MemSt) (s : State) : (modMs f s).grp = s.grp := rfl
@[simp] theorem modMs_host (f : MemSt → MemSt) (s : State) : (modMs f s).host = s.host := rfl
@[simp] theorem modMs_firm (f : MemSt → MemSt) (s : State) : (modMs f s).firm = s.firm := rfl
@[simp] theorem modMs_fe (f : MemSt → MemSt) (s : State) : (modMs f s).fe = s.fe := rfl
@[simp] theorem modMs_fab (f : MemSt → MemSt) (s : State) : (modMs f s).fab = s.fab := rfl
@[simp] theorem modMs_prisms (f : MemSt → MemSt) (s : State) : (modMs f s).prisms = s.prisms := rfl

@[simp] theorem modTr_agenda (f : TransSt → TransSt) (s : State) : (modTr f s).agenda = s.agenda := rfl
@[simp] theorem modTr_cur (f : TransSt → TransSt) (s : State) : (modTr f s).cur = s.cur := rfl
@[simp] theorem modTr_heads (f : TransSt → TransSt) (s : State) : (modTr f s).heads = s.heads := rfl
@[simp] theorem modTr_focus (f : TransSt → TransSt) (s : State) : (modTr f s).focus = s.focus := rfl
@[simp] theorem modTr_freeCtr (f : TransSt → TransSt) (s : State) : (modTr f s).freeCtr = s.freeCtr := rfl
@[simp] theorem modTr_cyc (f : TransSt → TransSt) (s : State) : (modTr f s).cyc = s.cyc := rfl
@[simp] theorem modTr_dev (f : TransSt → TransSt) (s : State) : (modTr f s).dev = s.dev := rfl
@[simp] theorem modTr_ms (f : TransSt → TransSt) (s : State) : (modTr f s).ms = s.ms := rfl
@[simp] theorem modTr_ctxs (f : TransSt → TransSt) (s : State) : (modTr f s).ctxs = s.ctxs := rfl
@[simp] theorem modTr_cores (f : TransSt → TransSt) (s : State) : (modTr f s).cores = s.cores := rfl
@[simp] theorem modTr_strips (f : TransSt → TransSt) (s : State) : (modTr f s).strips = s.strips := rfl
@[simp] theorem modTr_regs (f : TransSt → TransSt) (s : State) : (modTr f s).regs = s.regs := rfl
@[simp] theorem modTr_cp (f : TransSt → TransSt) (s : State) : (modTr f s).cp = s.cp := rfl
@[simp] theorem modTr_net (f : TransSt → TransSt) (s : State) : (modTr f s).net = s.net := rfl
@[simp] theorem modTr_grp (f : TransSt → TransSt) (s : State) : (modTr f s).grp = s.grp := rfl
@[simp] theorem modTr_host (f : TransSt → TransSt) (s : State) : (modTr f s).host = s.host := rfl
@[simp] theorem modTr_firm (f : TransSt → TransSt) (s : State) : (modTr f s).firm = s.firm := rfl
@[simp] theorem modTr_fe (f : TransSt → TransSt) (s : State) : (modTr f s).fe = s.fe := rfl
@[simp] theorem modTr_fab (f : TransSt → TransSt) (s : State) : (modTr f s).fab = s.fab := rfl
@[simp] theorem modTr_prisms (f : TransSt → TransSt) (s : State) : (modTr f s).prisms = s.prisms := rfl

@[simp] theorem modCp_agenda (f : CopySt → CopySt) (s : State) : (modCp f s).agenda = s.agenda := rfl
@[simp] theorem modCp_cur (f : CopySt → CopySt) (s : State) : (modCp f s).cur = s.cur := rfl
@[simp] theorem modCp_heads (f : CopySt → CopySt) (s : State) : (modCp f s).heads = s.heads := rfl
@[simp] theorem modCp_focus (f : CopySt → CopySt) (s : State) : (modCp f s).focus = s.focus := rfl
@[simp] theorem modCp_freeCtr (f : CopySt → CopySt) (s : State) : (modCp f s).freeCtr = s.freeCtr := rfl
@[simp] theorem modCp_cyc (f : CopySt → CopySt) (s : State) : (modCp f s).cyc = s.cyc := rfl
@[simp] theorem modCp_dev (f : CopySt → CopySt) (s : State) : (modCp f s).dev = s.dev := rfl
@[simp] theorem modCp_ms (f : CopySt → CopySt) (s : State) : (modCp f s).ms = s.ms := rfl
@[simp] theorem modCp_ctxs (f : CopySt → CopySt) (s : State) : (modCp f s).ctxs = s.ctxs := rfl
@[simp] theorem modCp_cores (f : CopySt → CopySt) (s : State) : (modCp f s).cores = s.cores := rfl
@[simp] theorem modCp_strips (f : CopySt → CopySt) (s : State) : (modCp f s).strips = s.strips := rfl
@[simp] theorem modCp_regs (f : CopySt → CopySt) (s : State) : (modCp f s).regs = s.regs := rfl
@[simp] theorem modCp_tr (f : CopySt → CopySt) (s : State) : (modCp f s).tr = s.tr := rfl
@[simp] theorem modCp_net (f : CopySt → CopySt) (s : State) : (modCp f s).net = s.net := rfl
@[simp] theorem modCp_grp (f : CopySt → CopySt) (s : State) : (modCp f s).grp = s.grp := rfl
@[simp] theorem modCp_host (f : CopySt → CopySt) (s : State) : (modCp f s).host = s.host := rfl
@[simp] theorem modCp_firm (f : CopySt → CopySt) (s : State) : (modCp f s).firm = s.firm := rfl
@[simp] theorem modCp_fe (f : CopySt → CopySt) (s : State) : (modCp f s).fe = s.fe := rfl
@[simp] theorem modCp_fab (f : CopySt → CopySt) (s : State) : (modCp f s).fab = s.fab := rfl
@[simp] theorem modCp_prisms (f : CopySt → CopySt) (s : State) : (modCp f s).prisms = s.prisms := rfl

@[simp] theorem modGrp_agenda (f : GroupSt → GroupSt) (s : State) : (modGrp f s).agenda = s.agenda := rfl
@[simp] theorem modGrp_cur (f : GroupSt → GroupSt) (s : State) : (modGrp f s).cur = s.cur := rfl
@[simp] theorem modGrp_heads (f : GroupSt → GroupSt) (s : State) : (modGrp f s).heads = s.heads := rfl
@[simp] theorem modGrp_focus (f : GroupSt → GroupSt) (s : State) : (modGrp f s).focus = s.focus := rfl
@[simp] theorem modGrp_freeCtr (f : GroupSt → GroupSt) (s : State) : (modGrp f s).freeCtr = s.freeCtr := rfl
@[simp] theorem modGrp_cyc (f : GroupSt → GroupSt) (s : State) : (modGrp f s).cyc = s.cyc := rfl
@[simp] theorem modGrp_dev (f : GroupSt → GroupSt) (s : State) : (modGrp f s).dev = s.dev := rfl
@[simp] theorem modGrp_ms (f : GroupSt → GroupSt) (s : State) : (modGrp f s).ms = s.ms := rfl
@[simp] theorem modGrp_ctxs (f : GroupSt → GroupSt) (s : State) : (modGrp f s).ctxs = s.ctxs := rfl
@[simp] theorem modGrp_cores (f : GroupSt → GroupSt) (s : State) : (modGrp f s).cores = s.cores := rfl
@[simp] theorem modGrp_strips (f : GroupSt → GroupSt) (s : State) : (modGrp f s).strips = s.strips := rfl
@[simp] theorem modGrp_regs (f : GroupSt → GroupSt) (s : State) : (modGrp f s).regs = s.regs := rfl
@[simp] theorem modGrp_tr (f : GroupSt → GroupSt) (s : State) : (modGrp f s).tr = s.tr := rfl
@[simp] theorem modGrp_cp (f : GroupSt → GroupSt) (s : State) : (modGrp f s).cp = s.cp := rfl
@[simp] theorem modGrp_net (f : GroupSt → GroupSt) (s : State) : (modGrp f s).net = s.net := rfl
@[simp] theorem modGrp_host (f : GroupSt → GroupSt) (s : State) : (modGrp f s).host = s.host := rfl
@[simp] theorem modGrp_firm (f : GroupSt → GroupSt) (s : State) : (modGrp f s).firm = s.firm := rfl
@[simp] theorem modGrp_fe (f : GroupSt → GroupSt) (s : State) : (modGrp f s).fe = s.fe := rfl
@[simp] theorem modGrp_fab (f : GroupSt → GroupSt) (s : State) : (modGrp f s).fab = s.fab := rfl
@[simp] theorem modGrp_prisms (f : GroupSt → GroupSt) (s : State) : (modGrp f s).prisms = s.prisms := rfl

@[simp] theorem modFe_agenda (f : FrontSt → FrontSt) (s : State) : (modFe f s).agenda = s.agenda := rfl
@[simp] theorem modFe_cur (f : FrontSt → FrontSt) (s : State) : (modFe f s).cur = s.cur := rfl
@[simp] theorem modFe_heads (f : FrontSt → FrontSt) (s : State) : (modFe f s).heads = s.heads := rfl
@[simp] theorem modFe_focus (f : FrontSt → FrontSt) (s : State) : (modFe f s).focus = s.focus := rfl
@[simp] theorem modFe_freeCtr (f : FrontSt → FrontSt) (s : State) : (modFe f s).freeCtr = s.freeCtr := rfl
@[simp] theorem modFe_cyc (f : FrontSt → FrontSt) (s : State) : (modFe f s).cyc = s.cyc := rfl
@[simp] theorem modFe_dev (f : FrontSt → FrontSt) (s : State) : (modFe f s).dev = s.dev := rfl
@[simp] theorem modFe_ms (f : FrontSt → FrontSt) (s : State) : (modFe f s).ms = s.ms := rfl
@[simp] theorem modFe_ctxs (f : FrontSt → FrontSt) (s : State) : (modFe f s).ctxs = s.ctxs := rfl
@[simp] theorem modFe_cores (f : FrontSt → FrontSt) (s : State) : (modFe f s).cores = s.cores := rfl
@[simp] theorem modFe_strips (f : FrontSt → FrontSt) (s : State) : (modFe f s).strips = s.strips := rfl
@[simp] theorem modFe_regs (f : FrontSt → FrontSt) (s : State) : (modFe f s).regs = s.regs := rfl
@[simp] theorem modFe_tr (f : FrontSt → FrontSt) (s : State) : (modFe f s).tr = s.tr := rfl
@[simp] theorem modFe_cp (f : FrontSt → FrontSt) (s : State) : (modFe f s).cp = s.cp := rfl
@[simp] theorem modFe_net (f : FrontSt → FrontSt) (s : State) : (modFe f s).net = s.net := rfl
@[simp] theorem modFe_grp (f : FrontSt → FrontSt) (s : State) : (modFe f s).grp = s.grp := rfl
@[simp] theorem modFe_host (f : FrontSt → FrontSt) (s : State) : (modFe f s).host = s.host := rfl
@[simp] theorem modFe_firm (f : FrontSt → FrontSt) (s : State) : (modFe f s).firm = s.firm := rfl
@[simp] theorem modFe_fab (f : FrontSt → FrontSt) (s : State) : (modFe f s).fab = s.fab := rfl
@[simp] theorem modFe_prisms (f : FrontSt → FrontSt) (s : State) : (modFe f s).prisms = s.prisms := rfl

@[simp] theorem modFab_agenda (f : FabSt → FabSt) (s : State) : (modFab f s).agenda = s.agenda := rfl
@[simp] theorem modFab_cur (f : FabSt → FabSt) (s : State) : (modFab f s).cur = s.cur := rfl
@[simp] theorem modFab_heads (f : FabSt → FabSt) (s : State) : (modFab f s).heads = s.heads := rfl
@[simp] theorem modFab_focus (f : FabSt → FabSt) (s : State) : (modFab f s).focus = s.focus := rfl
@[simp] theorem modFab_freeCtr (f : FabSt → FabSt) (s : State) : (modFab f s).freeCtr = s.freeCtr := rfl
@[simp] theorem modFab_cyc (f : FabSt → FabSt) (s : State) : (modFab f s).cyc = s.cyc := rfl
@[simp] theorem modFab_dev (f : FabSt → FabSt) (s : State) : (modFab f s).dev = s.dev := rfl
@[simp] theorem modFab_ms (f : FabSt → FabSt) (s : State) : (modFab f s).ms = s.ms := rfl
@[simp] theorem modFab_ctxs (f : FabSt → FabSt) (s : State) : (modFab f s).ctxs = s.ctxs := rfl
@[simp] theorem modFab_cores (f : FabSt → FabSt) (s : State) : (modFab f s).cores = s.cores := rfl
@[simp] theorem modFab_strips (f : FabSt → FabSt) (s : State) : (modFab f s).strips = s.strips := rfl
@[simp] theorem modFab_regs (f : FabSt → FabSt) (s : State) : (modFab f s).regs = s.regs := rfl
@[simp] theorem modFab_tr (f : FabSt → FabSt) (s : State) : (modFab f s).tr = s.tr := rfl
@[simp] theorem modFab_cp (f : FabSt → FabSt) (s : State) : (modFab f s).cp = s.cp := rfl
@[simp] theorem modFab_net (f : FabSt → FabSt) (s : State) : (modFab f s).net = s.net := rfl
@[simp] theorem modFab_grp (f : FabSt → FabSt) (s : State) : (modFab f s).grp = s.grp := rfl
@[simp] theorem modFab_host (f : FabSt → FabSt) (s : State) : (modFab f s).host = s.host := rfl
@[simp] theorem modFab_firm (f : FabSt → FabSt) (s : State) : (modFab f s).firm = s.firm := rfl
@[simp] theorem modFab_fe (f : FabSt → FabSt) (s : State) : (modFab f s).fe = s.fe := rfl
@[simp] theorem modFab_prisms (f : FabSt → FabSt) (s : State) : (modFab f s).prisms = s.prisms := rfl

@[simp] theorem modHost_agenda (f : HostSt → HostSt) (s : State) : (modHost f s).agenda = s.agenda := rfl
@[simp] theorem modHost_cur (f : HostSt → HostSt) (s : State) : (modHost f s).cur = s.cur := rfl
@[simp] theorem modHost_heads (f : HostSt → HostSt) (s : State) : (modHost f s).heads = s.heads := rfl
@[simp] theorem modHost_focus (f : HostSt → HostSt) (s : State) : (modHost f s).focus = s.focus := rfl
@[simp] theorem modHost_freeCtr (f : HostSt → HostSt) (s : State) : (modHost f s).freeCtr = s.freeCtr := rfl
@[simp] theorem modHost_cyc (f : HostSt → HostSt) (s : State) : (modHost f s).cyc = s.cyc := rfl
@[simp] theorem modHost_dev (f : HostSt → HostSt) (s : State) : (modHost f s).dev = s.dev := rfl
@[simp] theorem modHost_ms (f : HostSt → HostSt) (s : State) : (modHost f s).ms = s.ms := rfl
@[simp] theorem modHost_ctxs (f : HostSt → HostSt) (s : State) : (modHost f s).ctxs = s.ctxs := rfl
@[simp] theorem modHost_cores (f : HostSt → HostSt) (s : State) : (modHost f s).cores = s.cores := rfl
@[simp] theorem modHost_strips (f : HostSt → HostSt) (s : State) : (modHost f s).strips = s.strips := rfl
@[simp] theorem modHost_regs (f : HostSt → HostSt) (s : State) : (modHost f s).regs = s.regs := rfl
@[simp] theorem modHost_tr (f : HostSt → HostSt) (s : State) : (modHost f s).tr = s.tr := rfl
@[simp] theorem modHost_cp (f : HostSt → HostSt) (s : State) : (modHost f s).cp = s.cp := rfl
@[simp] theorem modHost_net (f : HostSt → HostSt) (s : State) : (modHost f s).net = s.net := rfl
@[simp] theorem modHost_grp (f : HostSt → HostSt) (s : State) : (modHost f s).grp = s.grp := rfl
@[simp] theorem modHost_firm (f : HostSt → HostSt) (s : State) : (modHost f s).firm = s.firm := rfl
@[simp] theorem modHost_fe (f : HostSt → HostSt) (s : State) : (modHost f s).fe = s.fe := rfl
@[simp] theorem modHost_fab (f : HostSt → HostSt) (s : State) : (modHost f s).fab = s.fab := rfl
@[simp] theorem modHost_prisms (f : HostSt → HostSt) (s : State) : (modHost f s).prisms = s.prisms := rfl

@[simp] theorem modFirm_agenda (f : FirmSt → FirmSt) (s : State) : (modFirm f s).agenda = s.agenda := rfl
@[simp] theorem modFirm_cur (f : FirmSt → FirmSt) (s : State) : (modFirm f s).cur = s.cur := rfl
@[simp] theorem modFirm_heads (f : FirmSt → FirmSt) (s : State) : (modFirm f s).heads = s.heads := rfl
@[simp] theorem modFirm_focus (f : FirmSt → FirmSt) (s : State) : (modFirm f s).focus = s.focus := rfl
@[simp] theorem modFirm_freeCtr (f : FirmSt → FirmSt) (s : State) : (modFirm f s).freeCtr = s.freeCtr := rfl
@[simp] theorem modFirm_cyc (f : FirmSt → FirmSt) (s : State) : (modFirm f s).cyc = s.cyc := rfl
@[simp] theorem modFirm_dev (f : FirmSt → FirmSt) (s : State) : (modFirm f s).dev = s.dev := rfl
@[simp] theorem modFirm_ms (f : FirmSt → FirmSt) (s : State) : (modFirm f s).ms = s.ms := rfl
@[simp] theorem modFirm_ctxs (f : FirmSt → FirmSt) (s : State) : (modFirm f s).ctxs = s.ctxs := rfl
@[simp] theorem modFirm_cores (f : FirmSt → FirmSt) (s : State) : (modFirm f s).cores = s.cores := rfl
@[simp] theorem modFirm_strips (f : FirmSt → FirmSt) (s : State) : (modFirm f s).strips = s.strips := rfl
@[simp] theorem modFirm_regs (f : FirmSt → FirmSt) (s : State) : (modFirm f s).regs = s.regs := rfl
@[simp] theorem modFirm_tr (f : FirmSt → FirmSt) (s : State) : (modFirm f s).tr = s.tr := rfl
@[simp] theorem modFirm_cp (f : FirmSt → FirmSt) (s : State) : (modFirm f s).cp = s.cp := rfl
@[simp] theorem modFirm_net (f : FirmSt → FirmSt) (s : State) : (modFirm f s).net = s.net := rfl
@[simp] theorem modFirm_grp (f : FirmSt → FirmSt) (s : State) : (modFirm f s).grp = s.grp := rfl
@[simp] theorem modFirm_host (f : FirmSt → FirmSt) (s : State) : (modFirm f s).host = s.host := rfl
@[simp] theorem modFirm_fe (f : FirmSt → FirmSt) (s : State) : (modFirm f s).fe = s.fe := rfl
@[simp] theorem modFirm_fab (f : FirmSt → FirmSt) (s : State) : (modFirm f s).fab = s.fab := rfl
@[simp] theorem modFirm_prisms (f : FirmSt → FirmSt) (s : State) : (modFirm f s).prisms = s.prisms := rfl

@[simp] theorem modRegs_agenda (f : DevRegs → DevRegs) (s : State) : (modRegs f s).agenda = s.agenda := rfl
@[simp] theorem modRegs_cur (f : DevRegs → DevRegs) (s : State) : (modRegs f s).cur = s.cur := rfl
@[simp] theorem modRegs_heads (f : DevRegs → DevRegs) (s : State) : (modRegs f s).heads = s.heads := rfl
@[simp] theorem modRegs_focus (f : DevRegs → DevRegs) (s : State) : (modRegs f s).focus = s.focus := rfl
@[simp] theorem modRegs_freeCtr (f : DevRegs → DevRegs) (s : State) : (modRegs f s).freeCtr = s.freeCtr := rfl
@[simp] theorem modRegs_cyc (f : DevRegs → DevRegs) (s : State) : (modRegs f s).cyc = s.cyc := rfl
@[simp] theorem modRegs_dev (f : DevRegs → DevRegs) (s : State) : (modRegs f s).dev = s.dev := rfl
@[simp] theorem modRegs_ms (f : DevRegs → DevRegs) (s : State) : (modRegs f s).ms = s.ms := rfl
@[simp] theorem modRegs_ctxs (f : DevRegs → DevRegs) (s : State) : (modRegs f s).ctxs = s.ctxs := rfl
@[simp] theorem modRegs_cores (f : DevRegs → DevRegs) (s : State) : (modRegs f s).cores = s.cores := rfl
@[simp] theorem modRegs_strips (f : DevRegs → DevRegs) (s : State) : (modRegs f s).strips = s.strips := rfl
@[simp] theorem modRegs_tr (f : DevRegs → DevRegs) (s : State) : (modRegs f s).tr = s.tr := rfl
@[simp] theorem modRegs_cp (f : DevRegs → DevRegs) (s : State) : (modRegs f s).cp = s.cp := rfl
@[simp] theorem modRegs_net (f : DevRegs → DevRegs) (s : State) : (modRegs f s).net = s.net := rfl
@[simp] theorem modRegs_grp (f : DevRegs → DevRegs) (s : State) : (modRegs f s).grp = s.grp := rfl
@[simp] theorem modRegs_host (f : DevRegs → DevRegs) (s : State) : (modRegs f s).host = s.host := rfl
@[simp] theorem modRegs_firm (f : DevRegs → DevRegs) (s : State) : (modRegs f s).firm = s.firm := rfl
@[simp] theorem modRegs_fe (f : DevRegs → DevRegs) (s : State) : (modRegs f s).fe = s.fe := rfl
@[simp] theorem modRegs_fab (f : DevRegs → DevRegs) (s : State) : (modRegs f s).fab = s.fab := rfl
@[simp] theorem modRegs_prisms (f : DevRegs → DevRegs) (s : State) : (modRegs f s).prisms = s.prisms := rfl

@[simp] theorem poke_agenda (a n x : Nat) (s : State) : (poke a n x s).agenda = s.agenda := rfl
@[simp] theorem poke_cur (a n x : Nat) (s : State) : (poke a n x s).cur = s.cur := rfl
@[simp] theorem poke_heads (a n x : Nat) (s : State) : (poke a n x s).heads = s.heads := rfl
@[simp] theorem poke_focus (a n x : Nat) (s : State) : (poke a n x s).focus = s.focus := rfl
@[simp] theorem poke_freeCtr (a n x : Nat) (s : State) : (poke a n x s).freeCtr = s.freeCtr := rfl
@[simp] theorem poke_cyc (a n x : Nat) (s : State) : (poke a n x s).cyc = s.cyc := rfl
@[simp] theorem poke_dev (a n x : Nat) (s : State) : (poke a n x s).dev = s.dev := rfl
@[simp] theorem poke_ctxs (a n x : Nat) (s : State) : (poke a n x s).ctxs = s.ctxs := rfl
@[simp] theorem poke_cores (a n x : Nat) (s : State) : (poke a n x s).cores = s.cores := rfl
@[simp] theorem poke_strips (a n x : Nat) (s : State) : (poke a n x s).strips = s.strips := rfl
@[simp] theorem poke_regs (a n x : Nat) (s : State) : (poke a n x s).regs = s.regs := rfl
@[simp] theorem poke_tr (a n x : Nat) (s : State) : (poke a n x s).tr = s.tr := rfl
@[simp] theorem poke_cp (a n x : Nat) (s : State) : (poke a n x s).cp = s.cp := rfl
@[simp] theorem poke_net (a n x : Nat) (s : State) : (poke a n x s).net = s.net := rfl
@[simp] theorem poke_grp (a n x : Nat) (s : State) : (poke a n x s).grp = s.grp := rfl
@[simp] theorem poke_host (a n x : Nat) (s : State) : (poke a n x s).host = s.host := rfl
@[simp] theorem poke_firm (a n x : Nat) (s : State) : (poke a n x s).firm = s.firm := rfl
@[simp] theorem poke_fe (a n x : Nat) (s : State) : (poke a n x s).fe = s.fe := rfl
@[simp] theorem poke_fab (a n x : Nat) (s : State) : (poke a n x s).fab = s.fab := rfl
@[simp] theorem poke_prisms (a n x : Nat) (s : State) : (poke a n x s).prisms = s.prisms := rfl

@[simp] theorem hostPoke_agenda (f a n x : Nat) (s : State) : (hostPoke f a n x s).agenda = s.agenda := rfl
@[simp] theorem hostPoke_cur (f a n x : Nat) (s : State) : (hostPoke f a n x s).cur = s.cur := rfl
@[simp] theorem hostPoke_heads (f a n x : Nat) (s : State) : (hostPoke f a n x s).heads = s.heads := rfl
@[simp] theorem hostPoke_focus (f a n x : Nat) (s : State) : (hostPoke f a n x s).focus = s.focus := rfl
@[simp] theorem hostPoke_freeCtr (f a n x : Nat) (s : State) : (hostPoke f a n x s).freeCtr = s.freeCtr := rfl
@[simp] theorem hostPoke_cyc (f a n x : Nat) (s : State) : (hostPoke f a n x s).cyc = s.cyc := rfl
@[simp] theorem hostPoke_dev (f a n x : Nat) (s : State) : (hostPoke f a n x s).dev = s.dev := rfl
@[simp] theorem hostPoke_ctxs (f a n x : Nat) (s : State) : (hostPoke f a n x s).ctxs = s.ctxs := rfl
@[simp] theorem hostPoke_cores (f a n x : Nat) (s : State) : (hostPoke f a n x s).cores = s.cores := rfl
@[simp] theorem hostPoke_strips (f a n x : Nat) (s : State) : (hostPoke f a n x s).strips = s.strips := rfl
@[simp] theorem hostPoke_regs (f a n x : Nat) (s : State) : (hostPoke f a n x s).regs = s.regs := rfl
@[simp] theorem hostPoke_tr (f a n x : Nat) (s : State) : (hostPoke f a n x s).tr = s.tr := rfl
@[simp] theorem hostPoke_cp (f a n x : Nat) (s : State) : (hostPoke f a n x s).cp = s.cp := rfl
@[simp] theorem hostPoke_net (f a n x : Nat) (s : State) : (hostPoke f a n x s).net = s.net := rfl
@[simp] theorem hostPoke_grp (f a n x : Nat) (s : State) : (hostPoke f a n x s).grp = s.grp := rfl
@[simp] theorem hostPoke_host (f a n x : Nat) (s : State) : (hostPoke f a n x s).host = s.host := rfl
@[simp] theorem hostPoke_firm (f a n x : Nat) (s : State) : (hostPoke f a n x s).firm = s.firm := rfl
@[simp] theorem hostPoke_fe (f a n x : Nat) (s : State) : (hostPoke f a n x s).fe = s.fe := rfl
@[simp] theorem hostPoke_fab (f a n x : Nat) (s : State) : (hostPoke f a n x s).fab = s.fab := rfl
@[simp] theorem hostPoke_prisms (f a n x : Nat) (s : State) : (hostPoke f a n x s).prisms = s.prisms := rfl

/-! ### The field an update changes -/

@[simp] theorem modMs_ms (f : MemSt → MemSt) (s : State) : (modMs f s).ms = f s.ms := rfl
@[simp] theorem modTr_tr (f : TransSt → TransSt) (s : State) : (modTr f s).tr = f s.tr := rfl
@[simp] theorem modCp_cp (f : CopySt → CopySt) (s : State) : (modCp f s).cp = f s.cp := rfl
@[simp] theorem modGrp_grp (f : GroupSt → GroupSt) (s : State) : (modGrp f s).grp = f s.grp := rfl
@[simp] theorem modFe_fe (f : FrontSt → FrontSt) (s : State) : (modFe f s).fe = f s.fe := rfl
@[simp] theorem modFab_fab (f : FabSt → FabSt) (s : State) : (modFab f s).fab = f s.fab := rfl
@[simp] theorem modHost_host (f : HostSt → HostSt) (s : State) : (modHost f s).host = f s.host := rfl
@[simp] theorem modFirm_firm (f : FirmSt → FirmSt) (s : State) : (modFirm f s).firm = f s.firm := rfl
@[simp] theorem modRegs_regs (f : DevRegs → DevRegs) (s : State) : (modRegs f s).regs = f s.regs := rfl

/-! ### Units read after an update -/

@[simp] theorem ctxOf_setCtx (s : State) (k : Nat) (x : Ctx) : ctxOf (setCtx s k x) k = x := SMap.get_set_self ..
theorem ctxOf_setCtx_ne (s : State) {k j : Nat} (x : Ctx) (h : j ≠ k) : ctxOf (setCtx s k x) j = ctxOf s j := SMap.get_set_ne _ _ _ h
@[simp] theorem ctxOf_modCtx (k : Nat) (f : Ctx → Ctx) (s : State) : ctxOf (modCtx k f s) k = f (ctxOf s k) := SMap.get_set_self ..
theorem ctxOf_modCtx_ne {k j : Nat} (f : Ctx → Ctx) (s : State) (h : j ≠ k) : ctxOf (modCtx k f s) j = ctxOf s j := SMap.get_set_ne _ _ _ h
@[simp] theorem ctxOf_setCore (s : State) (k : Nat) (x : CoreSt) (j : Nat) : ctxOf (setCore s k x) j = ctxOf s j := rfl
@[simp] theorem ctxOf_modCore (k : Nat) (f : CoreSt → CoreSt) (s : State) (j : Nat) : ctxOf (modCore k f s) j = ctxOf s j := rfl
@[simp] theorem ctxOf_setStrip (s : State) (k : Nat) (x : StripSt) (j : Nat) : ctxOf (setStrip s k x) j = ctxOf s j := rfl
@[simp] theorem ctxOf_modStrip (k : Nat) (f : StripSt → StripSt) (s : State) (j : Nat) : ctxOf (modStrip k f s) j = ctxOf s j := rfl
@[simp] theorem ctxOf_setPrism (s : State) (p : Nat) (x : PrismSt) (j : Nat) : ctxOf (setPrism s p x) j = ctxOf s j := rfl
@[simp] theorem ctxOf_modPrism (p : Nat) (f : PrismSt → PrismSt) (s : State) (j : Nat) : ctxOf (modPrism p f s) j = ctxOf s j := rfl
@[simp] theorem ctxOf_setFn (s : State) (f : Nat) (x : Fn) (j : Nat) : ctxOf (setFn s f x) j = ctxOf s j := rfl
@[simp] theorem ctxOf_modFn (f : Nat) (g : Fn → Fn) (s : State) (j : Nat) : ctxOf (modFn f g s) j = ctxOf s j := rfl
@[simp] theorem ctxOf_modMs (f : MemSt → MemSt) (s : State) (j : Nat) : ctxOf (modMs f s) j = ctxOf s j := rfl
@[simp] theorem ctxOf_modTr (f : TransSt → TransSt) (s : State) (j : Nat) : ctxOf (modTr f s) j = ctxOf s j := rfl
@[simp] theorem ctxOf_modCp (f : CopySt → CopySt) (s : State) (j : Nat) : ctxOf (modCp f s) j = ctxOf s j := rfl
@[simp] theorem ctxOf_modGrp (f : GroupSt → GroupSt) (s : State) (j : Nat) : ctxOf (modGrp f s) j = ctxOf s j := rfl
@[simp] theorem ctxOf_modFe (f : FrontSt → FrontSt) (s : State) (j : Nat) : ctxOf (modFe f s) j = ctxOf s j := rfl
@[simp] theorem ctxOf_modFab (f : FabSt → FabSt) (s : State) (j : Nat) : ctxOf (modFab f s) j = ctxOf s j := rfl
@[simp] theorem ctxOf_modHost (f : HostSt → HostSt) (s : State) (j : Nat) : ctxOf (modHost f s) j = ctxOf s j := rfl
@[simp] theorem ctxOf_modFirm (f : FirmSt → FirmSt) (s : State) (j : Nat) : ctxOf (modFirm f s) j = ctxOf s j := rfl
@[simp] theorem ctxOf_modRegs (f : DevRegs → DevRegs) (s : State) (j : Nat) : ctxOf (modRegs f s) j = ctxOf s j := rfl
@[simp] theorem ctxOf_poke (a n x : Nat) (s : State) (j : Nat) : ctxOf (poke a n x s) j = ctxOf s j := rfl
@[simp] theorem ctxOf_hostPoke (f a n x : Nat) (s : State) (j : Nat) : ctxOf (hostPoke f a n x s) j = ctxOf s j := rfl

@[simp] theorem coreOf_setCore (s : State) (k : Nat) (x : CoreSt) : coreOf (setCore s k x) k = x := SMap.get_set_self ..
theorem coreOf_setCore_ne (s : State) {k j : Nat} (x : CoreSt) (h : j ≠ k) : coreOf (setCore s k x) j = coreOf s j := SMap.get_set_ne _ _ _ h
@[simp] theorem coreOf_modCore (k : Nat) (f : CoreSt → CoreSt) (s : State) : coreOf (modCore k f s) k = f (coreOf s k) := SMap.get_set_self ..
theorem coreOf_modCore_ne {k j : Nat} (f : CoreSt → CoreSt) (s : State) (h : j ≠ k) : coreOf (modCore k f s) j = coreOf s j := SMap.get_set_ne _ _ _ h
@[simp] theorem coreOf_setCtx (s : State) (c : Nat) (x : Ctx) (j : Nat) : coreOf (setCtx s c x) j = coreOf s j := rfl
@[simp] theorem coreOf_modCtx (c : Nat) (f : Ctx → Ctx) (s : State) (j : Nat) : coreOf (modCtx c f s) j = coreOf s j := rfl
@[simp] theorem coreOf_modHere (f : Ctx → Ctx) (s : State) (j : Nat) : coreOf (modHere f s) j = coreOf s j := rfl
@[simp] theorem coreOf_modFir (c : Nat) (f : Firing → Firing) (s : State) (j : Nat) : coreOf (modFir c f s) j = coreOf s j := rfl
@[simp] theorem coreOf_setStrip (s : State) (k : Nat) (x : StripSt) (j : Nat) : coreOf (setStrip s k x) j = coreOf s j := rfl
@[simp] theorem coreOf_modStrip (k : Nat) (f : StripSt → StripSt) (s : State) (j : Nat) : coreOf (modStrip k f s) j = coreOf s j := rfl
@[simp] theorem coreOf_setPrism (s : State) (p : Nat) (x : PrismSt) (j : Nat) : coreOf (setPrism s p x) j = coreOf s j := rfl
@[simp] theorem coreOf_modPrism (p : Nat) (f : PrismSt → PrismSt) (s : State) (j : Nat) : coreOf (modPrism p f s) j = coreOf s j := rfl
@[simp] theorem coreOf_setFn (s : State) (f : Nat) (x : Fn) (j : Nat) : coreOf (setFn s f x) j = coreOf s j := rfl
@[simp] theorem coreOf_modFn (f : Nat) (g : Fn → Fn) (s : State) (j : Nat) : coreOf (modFn f g s) j = coreOf s j := rfl
@[simp] theorem coreOf_modMs (f : MemSt → MemSt) (s : State) (j : Nat) : coreOf (modMs f s) j = coreOf s j := rfl
@[simp] theorem coreOf_modTr (f : TransSt → TransSt) (s : State) (j : Nat) : coreOf (modTr f s) j = coreOf s j := rfl
@[simp] theorem coreOf_modCp (f : CopySt → CopySt) (s : State) (j : Nat) : coreOf (modCp f s) j = coreOf s j := rfl
@[simp] theorem coreOf_modGrp (f : GroupSt → GroupSt) (s : State) (j : Nat) : coreOf (modGrp f s) j = coreOf s j := rfl
@[simp] theorem coreOf_modFe (f : FrontSt → FrontSt) (s : State) (j : Nat) : coreOf (modFe f s) j = coreOf s j := rfl
@[simp] theorem coreOf_modFab (f : FabSt → FabSt) (s : State) (j : Nat) : coreOf (modFab f s) j = coreOf s j := rfl
@[simp] theorem coreOf_modHost (f : HostSt → HostSt) (s : State) (j : Nat) : coreOf (modHost f s) j = coreOf s j := rfl
@[simp] theorem coreOf_modFirm (f : FirmSt → FirmSt) (s : State) (j : Nat) : coreOf (modFirm f s) j = coreOf s j := rfl
@[simp] theorem coreOf_modRegs (f : DevRegs → DevRegs) (s : State) (j : Nat) : coreOf (modRegs f s) j = coreOf s j := rfl
@[simp] theorem coreOf_poke (a n x : Nat) (s : State) (j : Nat) : coreOf (poke a n x s) j = coreOf s j := rfl
@[simp] theorem coreOf_hostPoke (f a n x : Nat) (s : State) (j : Nat) : coreOf (hostPoke f a n x s) j = coreOf s j := rfl

@[simp] theorem stripOf_setStrip (s : State) (k : Nat) (x : StripSt) : stripOf (setStrip s k x) k = x := SMap.get_set_self ..
theorem stripOf_setStrip_ne (s : State) {k j : Nat} (x : StripSt) (h : j ≠ k) : stripOf (setStrip s k x) j = stripOf s j := SMap.get_set_ne _ _ _ h
@[simp] theorem stripOf_modStrip (k : Nat) (f : StripSt → StripSt) (s : State) : stripOf (modStrip k f s) k = f (stripOf s k) := SMap.get_set_self ..
theorem stripOf_modStrip_ne {k j : Nat} (f : StripSt → StripSt) (s : State) (h : j ≠ k) : stripOf (modStrip k f s) j = stripOf s j := SMap.get_set_ne _ _ _ h
@[simp] theorem stripOf_setCtx (s : State) (c : Nat) (x : Ctx) (j : Nat) : stripOf (setCtx s c x) j = stripOf s j := rfl
@[simp] theorem stripOf_modCtx (c : Nat) (f : Ctx → Ctx) (s : State) (j : Nat) : stripOf (modCtx c f s) j = stripOf s j := rfl
@[simp] theorem stripOf_modHere (f : Ctx → Ctx) (s : State) (j : Nat) : stripOf (modHere f s) j = stripOf s j := rfl
@[simp] theorem stripOf_modFir (c : Nat) (f : Firing → Firing) (s : State) (j : Nat) : stripOf (modFir c f s) j = stripOf s j := rfl
@[simp] theorem stripOf_setCore (s : State) (k : Nat) (x : CoreSt) (j : Nat) : stripOf (setCore s k x) j = stripOf s j := rfl
@[simp] theorem stripOf_modCore (k : Nat) (f : CoreSt → CoreSt) (s : State) (j : Nat) : stripOf (modCore k f s) j = stripOf s j := rfl
@[simp] theorem stripOf_setPrism (s : State) (p : Nat) (x : PrismSt) (j : Nat) : stripOf (setPrism s p x) j = stripOf s j := rfl
@[simp] theorem stripOf_modPrism (p : Nat) (f : PrismSt → PrismSt) (s : State) (j : Nat) : stripOf (modPrism p f s) j = stripOf s j := rfl
@[simp] theorem stripOf_setFn (s : State) (f : Nat) (x : Fn) (j : Nat) : stripOf (setFn s f x) j = stripOf s j := rfl
@[simp] theorem stripOf_modFn (f : Nat) (g : Fn → Fn) (s : State) (j : Nat) : stripOf (modFn f g s) j = stripOf s j := rfl
@[simp] theorem stripOf_modMs (f : MemSt → MemSt) (s : State) (j : Nat) : stripOf (modMs f s) j = stripOf s j := rfl
@[simp] theorem stripOf_modTr (f : TransSt → TransSt) (s : State) (j : Nat) : stripOf (modTr f s) j = stripOf s j := rfl
@[simp] theorem stripOf_modCp (f : CopySt → CopySt) (s : State) (j : Nat) : stripOf (modCp f s) j = stripOf s j := rfl
@[simp] theorem stripOf_modGrp (f : GroupSt → GroupSt) (s : State) (j : Nat) : stripOf (modGrp f s) j = stripOf s j := rfl
@[simp] theorem stripOf_modFe (f : FrontSt → FrontSt) (s : State) (j : Nat) : stripOf (modFe f s) j = stripOf s j := rfl
@[simp] theorem stripOf_modFab (f : FabSt → FabSt) (s : State) (j : Nat) : stripOf (modFab f s) j = stripOf s j := rfl
@[simp] theorem stripOf_modHost (f : HostSt → HostSt) (s : State) (j : Nat) : stripOf (modHost f s) j = stripOf s j := rfl
@[simp] theorem stripOf_modFirm (f : FirmSt → FirmSt) (s : State) (j : Nat) : stripOf (modFirm f s) j = stripOf s j := rfl
@[simp] theorem stripOf_modRegs (f : DevRegs → DevRegs) (s : State) (j : Nat) : stripOf (modRegs f s) j = stripOf s j := rfl
@[simp] theorem stripOf_poke (a n x : Nat) (s : State) (j : Nat) : stripOf (poke a n x s) j = stripOf s j := rfl
@[simp] theorem stripOf_hostPoke (f a n x : Nat) (s : State) (j : Nat) : stripOf (hostPoke f a n x s) j = stripOf s j := rfl

@[simp] theorem prismOf_setPrism (s : State) (k : Nat) (x : PrismSt) : prismOf (setPrism s k x) k = x := SMap.get_set_self ..
theorem prismOf_setPrism_ne (s : State) {k j : Nat} (x : PrismSt) (h : j ≠ k) : prismOf (setPrism s k x) j = prismOf s j := SMap.get_set_ne _ _ _ h
@[simp] theorem prismOf_modPrism (k : Nat) (f : PrismSt → PrismSt) (s : State) : prismOf (modPrism k f s) k = f (prismOf s k) := SMap.get_set_self ..
theorem prismOf_modPrism_ne {k j : Nat} (f : PrismSt → PrismSt) (s : State) (h : j ≠ k) : prismOf (modPrism k f s) j = prismOf s j := SMap.get_set_ne _ _ _ h
@[simp] theorem prismOf_setCtx (s : State) (c : Nat) (x : Ctx) (j : Nat) : prismOf (setCtx s c x) j = prismOf s j := rfl
@[simp] theorem prismOf_modCtx (c : Nat) (f : Ctx → Ctx) (s : State) (j : Nat) : prismOf (modCtx c f s) j = prismOf s j := rfl
@[simp] theorem prismOf_modHere (f : Ctx → Ctx) (s : State) (j : Nat) : prismOf (modHere f s) j = prismOf s j := rfl
@[simp] theorem prismOf_modFir (c : Nat) (f : Firing → Firing) (s : State) (j : Nat) : prismOf (modFir c f s) j = prismOf s j := rfl
@[simp] theorem prismOf_setCore (s : State) (k : Nat) (x : CoreSt) (j : Nat) : prismOf (setCore s k x) j = prismOf s j := rfl
@[simp] theorem prismOf_modCore (k : Nat) (f : CoreSt → CoreSt) (s : State) (j : Nat) : prismOf (modCore k f s) j = prismOf s j := rfl
@[simp] theorem prismOf_setStrip (s : State) (k : Nat) (x : StripSt) (j : Nat) : prismOf (setStrip s k x) j = prismOf s j := rfl
@[simp] theorem prismOf_modStrip (k : Nat) (f : StripSt → StripSt) (s : State) (j : Nat) : prismOf (modStrip k f s) j = prismOf s j := rfl
@[simp] theorem prismOf_setFn (s : State) (f : Nat) (x : Fn) (j : Nat) : prismOf (setFn s f x) j = prismOf s j := rfl
@[simp] theorem prismOf_modFn (f : Nat) (g : Fn → Fn) (s : State) (j : Nat) : prismOf (modFn f g s) j = prismOf s j := rfl
@[simp] theorem prismOf_modMs (f : MemSt → MemSt) (s : State) (j : Nat) : prismOf (modMs f s) j = prismOf s j := rfl
@[simp] theorem prismOf_modTr (f : TransSt → TransSt) (s : State) (j : Nat) : prismOf (modTr f s) j = prismOf s j := rfl
@[simp] theorem prismOf_modCp (f : CopySt → CopySt) (s : State) (j : Nat) : prismOf (modCp f s) j = prismOf s j := rfl
@[simp] theorem prismOf_modGrp (f : GroupSt → GroupSt) (s : State) (j : Nat) : prismOf (modGrp f s) j = prismOf s j := rfl
@[simp] theorem prismOf_modFe (f : FrontSt → FrontSt) (s : State) (j : Nat) : prismOf (modFe f s) j = prismOf s j := rfl
@[simp] theorem prismOf_modFab (f : FabSt → FabSt) (s : State) (j : Nat) : prismOf (modFab f s) j = prismOf s j := rfl
@[simp] theorem prismOf_modHost (f : HostSt → HostSt) (s : State) (j : Nat) : prismOf (modHost f s) j = prismOf s j := rfl
@[simp] theorem prismOf_modFirm (f : FirmSt → FirmSt) (s : State) (j : Nat) : prismOf (modFirm f s) j = prismOf s j := rfl
@[simp] theorem prismOf_modRegs (f : DevRegs → DevRegs) (s : State) (j : Nat) : prismOf (modRegs f s) j = prismOf s j := rfl
@[simp] theorem prismOf_poke (a n x : Nat) (s : State) (j : Nat) : prismOf (poke a n x s) j = prismOf s j := rfl
@[simp] theorem prismOf_hostPoke (f a n x : Nat) (s : State) (j : Nat) : prismOf (hostPoke f a n x s) j = prismOf s j := rfl

@[simp] theorem fnOf_setFn (s : State) (k : Nat) (x : Fn) : fnOf (setFn s k x) k = x := SMap.get_set_self ..
theorem fnOf_setFn_ne (s : State) {k j : Nat} (x : Fn) (h : j ≠ k) : fnOf (setFn s k x) j = fnOf s j := SMap.get_set_ne _ _ _ h
@[simp] theorem fnOf_modFn (k : Nat) (f : Fn → Fn) (s : State) : fnOf (modFn k f s) k = f (fnOf s k) := SMap.get_set_self ..
theorem fnOf_modFn_ne {k j : Nat} (f : Fn → Fn) (s : State) (h : j ≠ k) : fnOf (modFn k f s) j = fnOf s j := SMap.get_set_ne _ _ _ h
@[simp] theorem fnOf_setCtx (s : State) (c : Nat) (x : Ctx) (j : Nat) : fnOf (setCtx s c x) j = fnOf s j := rfl
@[simp] theorem fnOf_modCtx (c : Nat) (f : Ctx → Ctx) (s : State) (j : Nat) : fnOf (modCtx c f s) j = fnOf s j := rfl
@[simp] theorem fnOf_modHere (f : Ctx → Ctx) (s : State) (j : Nat) : fnOf (modHere f s) j = fnOf s j := rfl
@[simp] theorem fnOf_modFir (c : Nat) (f : Firing → Firing) (s : State) (j : Nat) : fnOf (modFir c f s) j = fnOf s j := rfl
@[simp] theorem fnOf_setCore (s : State) (k : Nat) (x : CoreSt) (j : Nat) : fnOf (setCore s k x) j = fnOf s j := rfl
@[simp] theorem fnOf_modCore (k : Nat) (f : CoreSt → CoreSt) (s : State) (j : Nat) : fnOf (modCore k f s) j = fnOf s j := rfl
@[simp] theorem fnOf_setStrip (s : State) (k : Nat) (x : StripSt) (j : Nat) : fnOf (setStrip s k x) j = fnOf s j := rfl
@[simp] theorem fnOf_modStrip (k : Nat) (f : StripSt → StripSt) (s : State) (j : Nat) : fnOf (modStrip k f s) j = fnOf s j := rfl
@[simp] theorem fnOf_setPrism (s : State) (p : Nat) (x : PrismSt) (j : Nat) : fnOf (setPrism s p x) j = fnOf s j := rfl
@[simp] theorem fnOf_modPrism (p : Nat) (f : PrismSt → PrismSt) (s : State) (j : Nat) : fnOf (modPrism p f s) j = fnOf s j := rfl
@[simp] theorem fnOf_modMs (f : MemSt → MemSt) (s : State) (j : Nat) : fnOf (modMs f s) j = fnOf s j := rfl
@[simp] theorem fnOf_modTr (f : TransSt → TransSt) (s : State) (j : Nat) : fnOf (modTr f s) j = fnOf s j := rfl
@[simp] theorem fnOf_modCp (f : CopySt → CopySt) (s : State) (j : Nat) : fnOf (modCp f s) j = fnOf s j := rfl
@[simp] theorem fnOf_modGrp (f : GroupSt → GroupSt) (s : State) (j : Nat) : fnOf (modGrp f s) j = fnOf s j := rfl
@[simp] theorem fnOf_modFe (f : FrontSt → FrontSt) (s : State) (j : Nat) : fnOf (modFe f s) j = fnOf s j := rfl
@[simp] theorem fnOf_modFab (f : FabSt → FabSt) (s : State) (j : Nat) : fnOf (modFab f s) j = fnOf s j := rfl
@[simp] theorem fnOf_modFirm (f : FirmSt → FirmSt) (s : State) (j : Nat) : fnOf (modFirm f s) j = fnOf s j := rfl
@[simp] theorem fnOf_modRegs (f : DevRegs → DevRegs) (s : State) (j : Nat) : fnOf (modRegs f s) j = fnOf s j := rfl
@[simp] theorem fnOf_poke (a n x : Nat) (s : State) (j : Nat) : fnOf (poke a n x s) j = fnOf s j := rfl
@[simp] theorem fnOf_hostPoke (f a n x : Nat) (s : State) (j : Nat) : fnOf (hostPoke f a n x s) j = fnOf s j := rfl

@[simp] theorem here_modHere (f : Ctx → Ctx) (s : State) : here (modHere f s) = f (here s) := ctxOf_modCtx ..
@[simp] theorem here_setCore (s : State) (k : Nat) (x : CoreSt) : here (setCore s k x) = here s := rfl
@[simp] theorem here_modCore (k : Nat) (f : CoreSt → CoreSt) (s : State) : here (modCore k f s) = here s := rfl
@[simp] theorem here_setStrip (s : State) (k : Nat) (x : StripSt) : here (setStrip s k x) = here s := rfl
@[simp] theorem here_modStrip (k : Nat) (f : StripSt → StripSt) (s : State) : here (modStrip k f s) = here s := rfl
@[simp] theorem here_setPrism (s : State) (p : Nat) (x : PrismSt) : here (setPrism s p x) = here s := rfl
@[simp] theorem here_modPrism (p : Nat) (f : PrismSt → PrismSt) (s : State) : here (modPrism p f s) = here s := rfl
@[simp] theorem here_setFn (s : State) (f : Nat) (x : Fn) : here (setFn s f x) = here s := rfl
@[simp] theorem here_modFn (f : Nat) (g : Fn → Fn) (s : State) : here (modFn f g s) = here s := rfl
@[simp] theorem here_modMs (f : MemSt → MemSt) (s : State) : here (modMs f s) = here s := rfl
@[simp] theorem here_modTr (f : TransSt → TransSt) (s : State) : here (modTr f s) = here s := rfl
@[simp] theorem here_modCp (f : CopySt → CopySt) (s : State) : here (modCp f s) = here s := rfl
@[simp] theorem here_modGrp (f : GroupSt → GroupSt) (s : State) : here (modGrp f s) = here s := rfl
@[simp] theorem here_modFe (f : FrontSt → FrontSt) (s : State) : here (modFe f s) = here s := rfl
@[simp] theorem here_modFab (f : FabSt → FabSt) (s : State) : here (modFab f s) = here s := rfl
@[simp] theorem here_modHost (f : HostSt → HostSt) (s : State) : here (modHost f s) = here s := rfl
@[simp] theorem here_modFirm (f : FirmSt → FirmSt) (s : State) : here (modFirm f s) = here s := rfl
@[simp] theorem here_modRegs (f : DevRegs → DevRegs) (s : State) : here (modRegs f s) = here s := rfl
@[simp] theorem here_poke (a n x : Nat) (s : State) : here (poke a n x s) = here s := rfl
@[simp] theorem here_hostPoke (f a n x : Nat) (s : State) : here (hostPoke f a n x s) = here s := rfl

/-! ### Fields of a context that a register write leaves alone -/

@[simp] theorem writeG_st (x : Ctx) (r : Nat) (y : Cap) : (writeG x r y).st = x.st := by
  unfold writeG; split <;> rfl
@[simp] theorem writeG_wait (x : Ctx) (r : Nat) (y : Cap) : (writeG x r y).wait = x.wait := by
  unfold writeG; split <;> rfl
@[simp] theorem writeG_granted (x : Ctx) (r : Nat) (y : Cap) : (writeG x r y).granted = x.granted := by
  unfold writeG; split <;> rfl
@[simp] theorem writeG_since (x : Ctx) (r : Nat) (y : Cap) : (writeG x r y).since = x.since := by
  unfold writeG; split <;> rfl
@[simp] theorem writeG_v (x : Ctx) (r : Nat) (y : Cap) : (writeG x r y).v = x.v := by
  unfold writeG; split <;> rfl
@[simp] theorem writeG_m (x : Ctx) (r : Nat) (y : Cap) : (writeG x r y).m = x.m := by
  unfold writeG; split <;> rfl
@[simp] theorem writeG_f (x : Ctx) (r : Nat) (y : Cap) : (writeG x r y).f = x.f := by
  unfold writeG; split <;> rfl
@[simp] theorem writeG_fpflags (x : Ctx) (r : Nat) (y : Cap) : (writeG x r y).fpflags = x.fpflags := by
  unfold writeG; split <;> rfl
@[simp] theorem writeG_absG (x : Ctx) (r : Nat) (y : Cap) : (writeG x r y).absG = x.absG := by
  unfold writeG; split <;> rfl
@[simp] theorem writeG_absV (x : Ctx) (r : Nat) (y : Cap) : (writeG x r y).absV = x.absV := by
  unfold writeG; split <;> rfl
@[simp] theorem writeG_poiV (x : Ctx) (r : Nat) (y : Cap) : (writeG x r y).poiV = x.poiV := by
  unfold writeG; split <;> rfl
@[simp] theorem writeG_dirtyV (x : Ctx) (r : Nat) (y : Cap) : (writeG x r y).dirtyV = x.dirtyV := by
  unfold writeG; split <;> rfl
@[simp] theorem writeG_armG (x : Ctx) (r : Nat) (y : Cap) : (writeG x r y).armG = x.armG := by
  unfold writeG; split <;> rfl
@[simp] theorem writeG_armV (x : Ctx) (r : Nat) (y : Cap) : (writeG x r y).armV = x.armV := by
  unfold writeG; split <;> rfl
@[simp] theorem writeG_hold (x : Ctx) (r : Nat) (y : Cap) : (writeG x r y).hold = x.hold := by
  unfold writeG; split <;> rfl
@[simp] theorem writeG_pc (x : Ctx) (r : Nat) (y : Cap) : (writeG x r y).pc = x.pc := by
  unfold writeG; split <;> rfl
@[simp] theorem writeG_sup (x : Ctx) (r : Nat) (y : Cap) : (writeG x r y).sup = x.sup := by
  unfold writeG; split <;> rfl
@[simp] theorem writeG_fl (x : Ctx) (r : Nat) (y : Cap) : (writeG x r y).fl = x.fl := by
  unfold writeG; split <;> rfl
@[simp] theorem writeG_trappc (x : Ctx) (r : Nat) (y : Cap) : (writeG x r y).trappc = x.trappc := by
  unfold writeG; split <;> rfl
@[simp] theorem writeG_trapcause (x : Ctx) (r : Nat) (y : Cap) : (writeG x r y).trapcause = x.trapcause := by
  unfold writeG; split <;> rfl
@[simp] theorem writeG_trapaddr (x : Ctx) (r : Nat) (y : Cap) : (writeG x r y).trapaddr = x.trapaddr := by
  unfold writeG; split <;> rfl
@[simp] theorem writeG_trapinfo (x : Ctx) (r : Nat) (y : Cap) : (writeG x r y).trapinfo = x.trapinfo := by
  unfold writeG; split <;> rfl
@[simp] theorem writeG_asid (x : Ctx) (r : Nat) (y : Cap) : (writeG x r y).asid = x.asid := by
  unfold writeG; split <;> rfl
@[simp] theorem writeG_tblsel (x : Ctx) (r : Nat) (y : Cap) : (writeG x r y).tblsel = x.tblsel := by
  unfold writeG; split <;> rfl
@[simp] theorem writeG_cpsrc (x : Ctx) (r : Nat) (y : Cap) : (writeG x r y).cpsrc = x.cpsrc := by
  unfold writeG; split <;> rfl
@[simp] theorem writeG_cpdst (x : Ctx) (r : Nat) (y : Cap) : (writeG x r y).cpdst = x.cpdst := by
  unfold writeG; split <;> rfl
@[simp] theorem writeG_cpring (x : Ctx) (r : Nat) (y : Cap) : (writeG x r y).cpring = x.cpring := by
  unfold writeG; split <;> rfl
@[simp] theorem writeG_cpcnt (x : Ctx) (r : Nat) (y : Cap) : (writeG x r y).cpcnt = x.cpcnt := by
  unfold writeG; split <;> rfl
@[simp] theorem writeG_cpstr (x : Ctx) (r : Nat) (y : Cap) : (writeG x r y).cpstr = x.cpstr := by
  unfold writeG; split <;> rfl
@[simp] theorem writeG_cpmcast (x : Ctx) (r : Nat) (y : Cap) : (writeG x r y).cpmcast = x.cpmcast := by
  unfold writeG; split <;> rfl
@[simp] theorem writeG_cpctl (x : Ctx) (r : Nat) (y : Cap) : (writeG x r y).cpctl = x.cpctl := by
  unfold writeG; split <;> rfl
@[simp] theorem writeG_gen (x : Ctx) (r : Nat) (y : Cap) : (writeG x r y).gen = x.gen := by
  unfold writeG; split <;> rfl
@[simp] theorem writeG_fir (x : Ctx) (r : Nat) (y : Cap) : (writeG x r y).fir = x.fir := by
  unfold writeG; split <;> rfl
@[simp] theorem writeG_pend (x : Ctx) (r : Nat) (y : Cap) : (writeG x r y).pend = x.pend := by
  unfold writeG; split <;> rfl
@[simp] theorem writeG_nextPend (x : Ctx) (r : Nat) (y : Cap) : (writeG x r y).nextPend = x.nextPend := by
  unfold writeG; split <;> rfl
@[simp] theorem writeG_fetched (x : Ctx) (r : Nat) (y : Cap) : (writeG x r y).fetched = x.fetched := by
  unfold writeG; split <;> rfl
@[simp] theorem writeG_ep (x : Ctx) (r : Nat) (y : Cap) : (writeG x r y).ep = x.ep := by
  unfold writeG; split <;> rfl
@[simp] theorem writeG_moving (x : Ctx) (r : Nat) (y : Cap) : (writeG x r y).moving = x.moving := by
  unfold writeG; split <;> rfl
@[simp] theorem writeG_storing (x : Ctx) (r : Nat) (y : Cap) : (writeG x r y).storing = x.storing := by
  unfold writeG; split <;> rfl

@[simp] theorem writeV_st (x : Ctx) (r : Nat) (y : VReg) : (writeV x r y).st = x.st := rfl
@[simp] theorem writeV_wait (x : Ctx) (r : Nat) (y : VReg) : (writeV x r y).wait = x.wait := rfl
@[simp] theorem writeV_granted (x : Ctx) (r : Nat) (y : VReg) : (writeV x r y).granted = x.granted := rfl
@[simp] theorem writeV_since (x : Ctx) (r : Nat) (y : VReg) : (writeV x r y).since = x.since := rfl
@[simp] theorem writeV_g (x : Ctx) (r : Nat) (y : VReg) : (writeV x r y).g = x.g := rfl
@[simp] theorem writeV_m (x : Ctx) (r : Nat) (y : VReg) : (writeV x r y).m = x.m := rfl
@[simp] theorem writeV_f (x : Ctx) (r : Nat) (y : VReg) : (writeV x r y).f = x.f := rfl
@[simp] theorem writeV_fpflags (x : Ctx) (r : Nat) (y : VReg) : (writeV x r y).fpflags = x.fpflags := rfl
@[simp] theorem writeV_absG (x : Ctx) (r : Nat) (y : VReg) : (writeV x r y).absG = x.absG := rfl
@[simp] theorem writeV_absV (x : Ctx) (r : Nat) (y : VReg) : (writeV x r y).absV = x.absV := rfl
@[simp] theorem writeV_poiG (x : Ctx) (r : Nat) (y : VReg) : (writeV x r y).poiG = x.poiG := rfl
@[simp] theorem writeV_dirtyG (x : Ctx) (r : Nat) (y : VReg) : (writeV x r y).dirtyG = x.dirtyG := rfl
@[simp] theorem writeV_armG (x : Ctx) (r : Nat) (y : VReg) : (writeV x r y).armG = x.armG := rfl
@[simp] theorem writeV_armV (x : Ctx) (r : Nat) (y : VReg) : (writeV x r y).armV = x.armV := rfl
@[simp] theorem writeV_hold (x : Ctx) (r : Nat) (y : VReg) : (writeV x r y).hold = x.hold := rfl
@[simp] theorem writeV_pc (x : Ctx) (r : Nat) (y : VReg) : (writeV x r y).pc = x.pc := rfl
@[simp] theorem writeV_sup (x : Ctx) (r : Nat) (y : VReg) : (writeV x r y).sup = x.sup := rfl
@[simp] theorem writeV_fl (x : Ctx) (r : Nat) (y : VReg) : (writeV x r y).fl = x.fl := rfl
@[simp] theorem writeV_trappc (x : Ctx) (r : Nat) (y : VReg) : (writeV x r y).trappc = x.trappc := rfl
@[simp] theorem writeV_trapcause (x : Ctx) (r : Nat) (y : VReg) : (writeV x r y).trapcause = x.trapcause := rfl
@[simp] theorem writeV_trapaddr (x : Ctx) (r : Nat) (y : VReg) : (writeV x r y).trapaddr = x.trapaddr := rfl
@[simp] theorem writeV_trapinfo (x : Ctx) (r : Nat) (y : VReg) : (writeV x r y).trapinfo = x.trapinfo := rfl
@[simp] theorem writeV_asid (x : Ctx) (r : Nat) (y : VReg) : (writeV x r y).asid = x.asid := rfl
@[simp] theorem writeV_tblsel (x : Ctx) (r : Nat) (y : VReg) : (writeV x r y).tblsel = x.tblsel := rfl
@[simp] theorem writeV_cpsrc (x : Ctx) (r : Nat) (y : VReg) : (writeV x r y).cpsrc = x.cpsrc := rfl
@[simp] theorem writeV_cpdst (x : Ctx) (r : Nat) (y : VReg) : (writeV x r y).cpdst = x.cpdst := rfl
@[simp] theorem writeV_cpring (x : Ctx) (r : Nat) (y : VReg) : (writeV x r y).cpring = x.cpring := rfl
@[simp] theorem writeV_cpcnt (x : Ctx) (r : Nat) (y : VReg) : (writeV x r y).cpcnt = x.cpcnt := rfl
@[simp] theorem writeV_cpstr (x : Ctx) (r : Nat) (y : VReg) : (writeV x r y).cpstr = x.cpstr := rfl
@[simp] theorem writeV_cpmcast (x : Ctx) (r : Nat) (y : VReg) : (writeV x r y).cpmcast = x.cpmcast := rfl
@[simp] theorem writeV_cpctl (x : Ctx) (r : Nat) (y : VReg) : (writeV x r y).cpctl = x.cpctl := rfl
@[simp] theorem writeV_gen (x : Ctx) (r : Nat) (y : VReg) : (writeV x r y).gen = x.gen := rfl
@[simp] theorem writeV_fir (x : Ctx) (r : Nat) (y : VReg) : (writeV x r y).fir = x.fir := rfl
@[simp] theorem writeV_pend (x : Ctx) (r : Nat) (y : VReg) : (writeV x r y).pend = x.pend := rfl
@[simp] theorem writeV_nextPend (x : Ctx) (r : Nat) (y : VReg) : (writeV x r y).nextPend = x.nextPend := rfl
@[simp] theorem writeV_fetched (x : Ctx) (r : Nat) (y : VReg) : (writeV x r y).fetched = x.fetched := rfl
@[simp] theorem writeV_ep (x : Ctx) (r : Nat) (y : VReg) : (writeV x r y).ep = x.ep := rfl
@[simp] theorem writeV_moving (x : Ctx) (r : Nat) (y : VReg) : (writeV x r y).moving = x.moving := rfl
@[simp] theorem writeV_storing (x : Ctx) (r : Nat) (y : VReg) : (writeV x r y).storing = x.storing := rfl

@[simp] theorem writeM_st (x : Ctx) (r : Nat) (y : BitVec 32) : (writeM x r y).st = x.st := rfl
@[simp] theorem writeM_wait (x : Ctx) (r : Nat) (y : BitVec 32) : (writeM x r y).wait = x.wait := rfl
@[simp] theorem writeM_granted (x : Ctx) (r : Nat) (y : BitVec 32) : (writeM x r y).granted = x.granted := rfl
@[simp] theorem writeM_since (x : Ctx) (r : Nat) (y : BitVec 32) : (writeM x r y).since = x.since := rfl
@[simp] theorem writeM_g (x : Ctx) (r : Nat) (y : BitVec 32) : (writeM x r y).g = x.g := rfl
@[simp] theorem writeM_v (x : Ctx) (r : Nat) (y : BitVec 32) : (writeM x r y).v = x.v := rfl
@[simp] theorem writeM_f (x : Ctx) (r : Nat) (y : BitVec 32) : (writeM x r y).f = x.f := rfl
@[simp] theorem writeM_fpflags (x : Ctx) (r : Nat) (y : BitVec 32) : (writeM x r y).fpflags = x.fpflags := rfl
@[simp] theorem writeM_absG (x : Ctx) (r : Nat) (y : BitVec 32) : (writeM x r y).absG = x.absG := rfl
@[simp] theorem writeM_absV (x : Ctx) (r : Nat) (y : BitVec 32) : (writeM x r y).absV = x.absV := rfl
@[simp] theorem writeM_poiG (x : Ctx) (r : Nat) (y : BitVec 32) : (writeM x r y).poiG = x.poiG := rfl
@[simp] theorem writeM_poiV (x : Ctx) (r : Nat) (y : BitVec 32) : (writeM x r y).poiV = x.poiV := rfl
@[simp] theorem writeM_dirtyG (x : Ctx) (r : Nat) (y : BitVec 32) : (writeM x r y).dirtyG = x.dirtyG := rfl
@[simp] theorem writeM_dirtyV (x : Ctx) (r : Nat) (y : BitVec 32) : (writeM x r y).dirtyV = x.dirtyV := rfl
@[simp] theorem writeM_armG (x : Ctx) (r : Nat) (y : BitVec 32) : (writeM x r y).armG = x.armG := rfl
@[simp] theorem writeM_armV (x : Ctx) (r : Nat) (y : BitVec 32) : (writeM x r y).armV = x.armV := rfl
@[simp] theorem writeM_hold (x : Ctx) (r : Nat) (y : BitVec 32) : (writeM x r y).hold = x.hold := rfl
@[simp] theorem writeM_pc (x : Ctx) (r : Nat) (y : BitVec 32) : (writeM x r y).pc = x.pc := rfl
@[simp] theorem writeM_sup (x : Ctx) (r : Nat) (y : BitVec 32) : (writeM x r y).sup = x.sup := rfl
@[simp] theorem writeM_fl (x : Ctx) (r : Nat) (y : BitVec 32) : (writeM x r y).fl = x.fl := rfl
@[simp] theorem writeM_trappc (x : Ctx) (r : Nat) (y : BitVec 32) : (writeM x r y).trappc = x.trappc := rfl
@[simp] theorem writeM_trapcause (x : Ctx) (r : Nat) (y : BitVec 32) : (writeM x r y).trapcause = x.trapcause := rfl
@[simp] theorem writeM_trapaddr (x : Ctx) (r : Nat) (y : BitVec 32) : (writeM x r y).trapaddr = x.trapaddr := rfl
@[simp] theorem writeM_trapinfo (x : Ctx) (r : Nat) (y : BitVec 32) : (writeM x r y).trapinfo = x.trapinfo := rfl
@[simp] theorem writeM_asid (x : Ctx) (r : Nat) (y : BitVec 32) : (writeM x r y).asid = x.asid := rfl
@[simp] theorem writeM_tblsel (x : Ctx) (r : Nat) (y : BitVec 32) : (writeM x r y).tblsel = x.tblsel := rfl
@[simp] theorem writeM_cpsrc (x : Ctx) (r : Nat) (y : BitVec 32) : (writeM x r y).cpsrc = x.cpsrc := rfl
@[simp] theorem writeM_cpdst (x : Ctx) (r : Nat) (y : BitVec 32) : (writeM x r y).cpdst = x.cpdst := rfl
@[simp] theorem writeM_cpring (x : Ctx) (r : Nat) (y : BitVec 32) : (writeM x r y).cpring = x.cpring := rfl
@[simp] theorem writeM_cpcnt (x : Ctx) (r : Nat) (y : BitVec 32) : (writeM x r y).cpcnt = x.cpcnt := rfl
@[simp] theorem writeM_cpstr (x : Ctx) (r : Nat) (y : BitVec 32) : (writeM x r y).cpstr = x.cpstr := rfl
@[simp] theorem writeM_cpmcast (x : Ctx) (r : Nat) (y : BitVec 32) : (writeM x r y).cpmcast = x.cpmcast := rfl
@[simp] theorem writeM_cpctl (x : Ctx) (r : Nat) (y : BitVec 32) : (writeM x r y).cpctl = x.cpctl := rfl
@[simp] theorem writeM_gen (x : Ctx) (r : Nat) (y : BitVec 32) : (writeM x r y).gen = x.gen := rfl
@[simp] theorem writeM_fir (x : Ctx) (r : Nat) (y : BitVec 32) : (writeM x r y).fir = x.fir := rfl
@[simp] theorem writeM_pend (x : Ctx) (r : Nat) (y : BitVec 32) : (writeM x r y).pend = x.pend := rfl
@[simp] theorem writeM_nextPend (x : Ctx) (r : Nat) (y : BitVec 32) : (writeM x r y).nextPend = x.nextPend := rfl
@[simp] theorem writeM_fetched (x : Ctx) (r : Nat) (y : BitVec 32) : (writeM x r y).fetched = x.fetched := rfl
@[simp] theorem writeM_ep (x : Ctx) (r : Nat) (y : BitVec 32) : (writeM x r y).ep = x.ep := rfl
@[simp] theorem writeM_moving (x : Ctx) (r : Nat) (y : BitVec 32) : (writeM x r y).moving = x.moving := rfl
@[simp] theorem writeM_storing (x : Ctx) (r : Nat) (y : BitVec 32) : (writeM x r y).storing = x.storing := rfl

@[simp] theorem writeF_st (x : Ctx) (r : Nat) (y : W64) : (writeF x r y).st = x.st := rfl
@[simp] theorem writeF_wait (x : Ctx) (r : Nat) (y : W64) : (writeF x r y).wait = x.wait := rfl
@[simp] theorem writeF_granted (x : Ctx) (r : Nat) (y : W64) : (writeF x r y).granted = x.granted := rfl
@[simp] theorem writeF_since (x : Ctx) (r : Nat) (y : W64) : (writeF x r y).since = x.since := rfl
@[simp] theorem writeF_g (x : Ctx) (r : Nat) (y : W64) : (writeF x r y).g = x.g := rfl
@[simp] theorem writeF_v (x : Ctx) (r : Nat) (y : W64) : (writeF x r y).v = x.v := rfl
@[simp] theorem writeF_m (x : Ctx) (r : Nat) (y : W64) : (writeF x r y).m = x.m := rfl
@[simp] theorem writeF_fpflags (x : Ctx) (r : Nat) (y : W64) : (writeF x r y).fpflags = x.fpflags := rfl
@[simp] theorem writeF_absG (x : Ctx) (r : Nat) (y : W64) : (writeF x r y).absG = x.absG := rfl
@[simp] theorem writeF_absV (x : Ctx) (r : Nat) (y : W64) : (writeF x r y).absV = x.absV := rfl
@[simp] theorem writeF_poiG (x : Ctx) (r : Nat) (y : W64) : (writeF x r y).poiG = x.poiG := rfl
@[simp] theorem writeF_poiV (x : Ctx) (r : Nat) (y : W64) : (writeF x r y).poiV = x.poiV := rfl
@[simp] theorem writeF_dirtyG (x : Ctx) (r : Nat) (y : W64) : (writeF x r y).dirtyG = x.dirtyG := rfl
@[simp] theorem writeF_dirtyV (x : Ctx) (r : Nat) (y : W64) : (writeF x r y).dirtyV = x.dirtyV := rfl
@[simp] theorem writeF_armG (x : Ctx) (r : Nat) (y : W64) : (writeF x r y).armG = x.armG := rfl
@[simp] theorem writeF_armV (x : Ctx) (r : Nat) (y : W64) : (writeF x r y).armV = x.armV := rfl
@[simp] theorem writeF_hold (x : Ctx) (r : Nat) (y : W64) : (writeF x r y).hold = x.hold := rfl
@[simp] theorem writeF_pc (x : Ctx) (r : Nat) (y : W64) : (writeF x r y).pc = x.pc := rfl
@[simp] theorem writeF_sup (x : Ctx) (r : Nat) (y : W64) : (writeF x r y).sup = x.sup := rfl
@[simp] theorem writeF_fl (x : Ctx) (r : Nat) (y : W64) : (writeF x r y).fl = x.fl := rfl
@[simp] theorem writeF_trappc (x : Ctx) (r : Nat) (y : W64) : (writeF x r y).trappc = x.trappc := rfl
@[simp] theorem writeF_trapcause (x : Ctx) (r : Nat) (y : W64) : (writeF x r y).trapcause = x.trapcause := rfl
@[simp] theorem writeF_trapaddr (x : Ctx) (r : Nat) (y : W64) : (writeF x r y).trapaddr = x.trapaddr := rfl
@[simp] theorem writeF_trapinfo (x : Ctx) (r : Nat) (y : W64) : (writeF x r y).trapinfo = x.trapinfo := rfl
@[simp] theorem writeF_asid (x : Ctx) (r : Nat) (y : W64) : (writeF x r y).asid = x.asid := rfl
@[simp] theorem writeF_tblsel (x : Ctx) (r : Nat) (y : W64) : (writeF x r y).tblsel = x.tblsel := rfl
@[simp] theorem writeF_cpsrc (x : Ctx) (r : Nat) (y : W64) : (writeF x r y).cpsrc = x.cpsrc := rfl
@[simp] theorem writeF_cpdst (x : Ctx) (r : Nat) (y : W64) : (writeF x r y).cpdst = x.cpdst := rfl
@[simp] theorem writeF_cpring (x : Ctx) (r : Nat) (y : W64) : (writeF x r y).cpring = x.cpring := rfl
@[simp] theorem writeF_cpcnt (x : Ctx) (r : Nat) (y : W64) : (writeF x r y).cpcnt = x.cpcnt := rfl
@[simp] theorem writeF_cpstr (x : Ctx) (r : Nat) (y : W64) : (writeF x r y).cpstr = x.cpstr := rfl
@[simp] theorem writeF_cpmcast (x : Ctx) (r : Nat) (y : W64) : (writeF x r y).cpmcast = x.cpmcast := rfl
@[simp] theorem writeF_cpctl (x : Ctx) (r : Nat) (y : W64) : (writeF x r y).cpctl = x.cpctl := rfl
@[simp] theorem writeF_gen (x : Ctx) (r : Nat) (y : W64) : (writeF x r y).gen = x.gen := rfl
@[simp] theorem writeF_fir (x : Ctx) (r : Nat) (y : W64) : (writeF x r y).fir = x.fir := rfl
@[simp] theorem writeF_pend (x : Ctx) (r : Nat) (y : W64) : (writeF x r y).pend = x.pend := rfl
@[simp] theorem writeF_nextPend (x : Ctx) (r : Nat) (y : W64) : (writeF x r y).nextPend = x.nextPend := rfl
@[simp] theorem writeF_fetched (x : Ctx) (r : Nat) (y : W64) : (writeF x r y).fetched = x.fetched := rfl
@[simp] theorem writeF_ep (x : Ctx) (r : Nat) (y : W64) : (writeF x r y).ep = x.ep := rfl
@[simp] theorem writeF_moving (x : Ctx) (r : Nat) (y : W64) : (writeF x r y).moving = x.moving := rfl
@[simp] theorem writeF_storing (x : Ctx) (r : Nat) (y : W64) : (writeF x r y).storing = x.storing := rfl

@[simp] theorem clearG_st (x : Ctx) (r : Nat) : (clearG x r).st = x.st := by
  unfold clearG; split <;> rfl
@[simp] theorem clearG_wait (x : Ctx) (r : Nat) : (clearG x r).wait = x.wait := by
  unfold clearG; split <;> rfl
@[simp] theorem clearG_granted (x : Ctx) (r : Nat) : (clearG x r).granted = x.granted := by
  unfold clearG; split <;> rfl
@[simp] theorem clearG_since (x : Ctx) (r : Nat) : (clearG x r).since = x.since := by
  unfold clearG; split <;> rfl
@[simp] theorem clearG_g (x : Ctx) (r : Nat) : (clearG x r).g = x.g := by
  unfold clearG; split <;> rfl
@[simp] theorem clearG_v (x : Ctx) (r : Nat) : (clearG x r).v = x.v := by
  unfold clearG; split <;> rfl
@[simp] theorem clearG_m (x : Ctx) (r : Nat) : (clearG x r).m = x.m := by
  unfold clearG; split <;> rfl
@[simp] theorem clearG_f (x : Ctx) (r : Nat) : (clearG x r).f = x.f := by
  unfold clearG; split <;> rfl
@[simp] theorem clearG_fpflags (x : Ctx) (r : Nat) : (clearG x r).fpflags = x.fpflags := by
  unfold clearG; split <;> rfl
@[simp] theorem clearG_absV (x : Ctx) (r : Nat) : (clearG x r).absV = x.absV := by
  unfold clearG; split <;> rfl
@[simp] theorem clearG_poiG (x : Ctx) (r : Nat) : (clearG x r).poiG = x.poiG := by
  unfold clearG; split <;> rfl
@[simp] theorem clearG_poiV (x : Ctx) (r : Nat) : (clearG x r).poiV = x.poiV := by
  unfold clearG; split <;> rfl
@[simp] theorem clearG_dirtyG (x : Ctx) (r : Nat) : (clearG x r).dirtyG = x.dirtyG := by
  unfold clearG; split <;> rfl
@[simp] theorem clearG_dirtyV (x : Ctx) (r : Nat) : (clearG x r).dirtyV = x.dirtyV := by
  unfold clearG; split <;> rfl
@[simp] theorem clearG_armG (x : Ctx) (r : Nat) : (clearG x r).armG = x.armG := by
  unfold clearG; split <;> rfl
@[simp] theorem clearG_armV (x : Ctx) (r : Nat) : (clearG x r).armV = x.armV := by
  unfold clearG; split <;> rfl
@[simp] theorem clearG_hold (x : Ctx) (r : Nat) : (clearG x r).hold = x.hold := by
  unfold clearG; split <;> rfl
@[simp] theorem clearG_pc (x : Ctx) (r : Nat) : (clearG x r).pc = x.pc := by
  unfold clearG; split <;> rfl
@[simp] theorem clearG_sup (x : Ctx) (r : Nat) : (clearG x r).sup = x.sup := by
  unfold clearG; split <;> rfl
@[simp] theorem clearG_fl (x : Ctx) (r : Nat) : (clearG x r).fl = x.fl := by
  unfold clearG; split <;> rfl
@[simp] theorem clearG_trappc (x : Ctx) (r : Nat) : (clearG x r).trappc = x.trappc := by
  unfold clearG; split <;> rfl
@[simp] theorem clearG_trapcause (x : Ctx) (r : Nat) : (clearG x r).trapcause = x.trapcause := by
  unfold clearG; split <;> rfl
@[simp] theorem clearG_trapaddr (x : Ctx) (r : Nat) : (clearG x r).trapaddr = x.trapaddr := by
  unfold clearG; split <;> rfl
@[simp] theorem clearG_trapinfo (x : Ctx) (r : Nat) : (clearG x r).trapinfo = x.trapinfo := by
  unfold clearG; split <;> rfl
@[simp] theorem clearG_asid (x : Ctx) (r : Nat) : (clearG x r).asid = x.asid := by
  unfold clearG; split <;> rfl
@[simp] theorem clearG_tblsel (x : Ctx) (r : Nat) : (clearG x r).tblsel = x.tblsel := by
  unfold clearG; split <;> rfl
@[simp] theorem clearG_cpsrc (x : Ctx) (r : Nat) : (clearG x r).cpsrc = x.cpsrc := by
  unfold clearG; split <;> rfl
@[simp] theorem clearG_cpdst (x : Ctx) (r : Nat) : (clearG x r).cpdst = x.cpdst := by
  unfold clearG; split <;> rfl
@[simp] theorem clearG_cpring (x : Ctx) (r : Nat) : (clearG x r).cpring = x.cpring := by
  unfold clearG; split <;> rfl
@[simp] theorem clearG_cpcnt (x : Ctx) (r : Nat) : (clearG x r).cpcnt = x.cpcnt := by
  unfold clearG; split <;> rfl
@[simp] theorem clearG_cpstr (x : Ctx) (r : Nat) : (clearG x r).cpstr = x.cpstr := by
  unfold clearG; split <;> rfl
@[simp] theorem clearG_cpmcast (x : Ctx) (r : Nat) : (clearG x r).cpmcast = x.cpmcast := by
  unfold clearG; split <;> rfl
@[simp] theorem clearG_cpctl (x : Ctx) (r : Nat) : (clearG x r).cpctl = x.cpctl := by
  unfold clearG; split <;> rfl
@[simp] theorem clearG_gen (x : Ctx) (r : Nat) : (clearG x r).gen = x.gen := by
  unfold clearG; split <;> rfl
@[simp] theorem clearG_fir (x : Ctx) (r : Nat) : (clearG x r).fir = x.fir := by
  unfold clearG; split <;> rfl
@[simp] theorem clearG_pend (x : Ctx) (r : Nat) : (clearG x r).pend = x.pend := by
  unfold clearG; split <;> rfl
@[simp] theorem clearG_nextPend (x : Ctx) (r : Nat) : (clearG x r).nextPend = x.nextPend := by
  unfold clearG; split <;> rfl
@[simp] theorem clearG_fetched (x : Ctx) (r : Nat) : (clearG x r).fetched = x.fetched := by
  unfold clearG; split <;> rfl
@[simp] theorem clearG_ep (x : Ctx) (r : Nat) : (clearG x r).ep = x.ep := by
  unfold clearG; split <;> rfl
@[simp] theorem clearG_moving (x : Ctx) (r : Nat) : (clearG x r).moving = x.moving := by
  unfold clearG; split <;> rfl
@[simp] theorem clearG_storing (x : Ctx) (r : Nat) : (clearG x r).storing = x.storing := by
  unfold clearG; split <;> rfl

@[simp] theorem clearV_st (x : Ctx) (r : Nat) : (clearV x r).st = x.st := rfl
@[simp] theorem clearV_wait (x : Ctx) (r : Nat) : (clearV x r).wait = x.wait := rfl
@[simp] theorem clearV_granted (x : Ctx) (r : Nat) : (clearV x r).granted = x.granted := rfl
@[simp] theorem clearV_since (x : Ctx) (r : Nat) : (clearV x r).since = x.since := rfl
@[simp] theorem clearV_g (x : Ctx) (r : Nat) : (clearV x r).g = x.g := rfl
@[simp] theorem clearV_v (x : Ctx) (r : Nat) : (clearV x r).v = x.v := rfl
@[simp] theorem clearV_m (x : Ctx) (r : Nat) : (clearV x r).m = x.m := rfl
@[simp] theorem clearV_f (x : Ctx) (r : Nat) : (clearV x r).f = x.f := rfl
@[simp] theorem clearV_fpflags (x : Ctx) (r : Nat) : (clearV x r).fpflags = x.fpflags := rfl
@[simp] theorem clearV_absG (x : Ctx) (r : Nat) : (clearV x r).absG = x.absG := rfl
@[simp] theorem clearV_poiG (x : Ctx) (r : Nat) : (clearV x r).poiG = x.poiG := rfl
@[simp] theorem clearV_poiV (x : Ctx) (r : Nat) : (clearV x r).poiV = x.poiV := rfl
@[simp] theorem clearV_dirtyG (x : Ctx) (r : Nat) : (clearV x r).dirtyG = x.dirtyG := rfl
@[simp] theorem clearV_dirtyV (x : Ctx) (r : Nat) : (clearV x r).dirtyV = x.dirtyV := rfl
@[simp] theorem clearV_armG (x : Ctx) (r : Nat) : (clearV x r).armG = x.armG := rfl
@[simp] theorem clearV_armV (x : Ctx) (r : Nat) : (clearV x r).armV = x.armV := rfl
@[simp] theorem clearV_hold (x : Ctx) (r : Nat) : (clearV x r).hold = x.hold := rfl
@[simp] theorem clearV_pc (x : Ctx) (r : Nat) : (clearV x r).pc = x.pc := rfl
@[simp] theorem clearV_sup (x : Ctx) (r : Nat) : (clearV x r).sup = x.sup := rfl
@[simp] theorem clearV_fl (x : Ctx) (r : Nat) : (clearV x r).fl = x.fl := rfl
@[simp] theorem clearV_trappc (x : Ctx) (r : Nat) : (clearV x r).trappc = x.trappc := rfl
@[simp] theorem clearV_trapcause (x : Ctx) (r : Nat) : (clearV x r).trapcause = x.trapcause := rfl
@[simp] theorem clearV_trapaddr (x : Ctx) (r : Nat) : (clearV x r).trapaddr = x.trapaddr := rfl
@[simp] theorem clearV_trapinfo (x : Ctx) (r : Nat) : (clearV x r).trapinfo = x.trapinfo := rfl
@[simp] theorem clearV_asid (x : Ctx) (r : Nat) : (clearV x r).asid = x.asid := rfl
@[simp] theorem clearV_tblsel (x : Ctx) (r : Nat) : (clearV x r).tblsel = x.tblsel := rfl
@[simp] theorem clearV_cpsrc (x : Ctx) (r : Nat) : (clearV x r).cpsrc = x.cpsrc := rfl
@[simp] theorem clearV_cpdst (x : Ctx) (r : Nat) : (clearV x r).cpdst = x.cpdst := rfl
@[simp] theorem clearV_cpring (x : Ctx) (r : Nat) : (clearV x r).cpring = x.cpring := rfl
@[simp] theorem clearV_cpcnt (x : Ctx) (r : Nat) : (clearV x r).cpcnt = x.cpcnt := rfl
@[simp] theorem clearV_cpstr (x : Ctx) (r : Nat) : (clearV x r).cpstr = x.cpstr := rfl
@[simp] theorem clearV_cpmcast (x : Ctx) (r : Nat) : (clearV x r).cpmcast = x.cpmcast := rfl
@[simp] theorem clearV_cpctl (x : Ctx) (r : Nat) : (clearV x r).cpctl = x.cpctl := rfl
@[simp] theorem clearV_gen (x : Ctx) (r : Nat) : (clearV x r).gen = x.gen := rfl
@[simp] theorem clearV_fir (x : Ctx) (r : Nat) : (clearV x r).fir = x.fir := rfl
@[simp] theorem clearV_pend (x : Ctx) (r : Nat) : (clearV x r).pend = x.pend := rfl
@[simp] theorem clearV_nextPend (x : Ctx) (r : Nat) : (clearV x r).nextPend = x.nextPend := rfl
@[simp] theorem clearV_fetched (x : Ctx) (r : Nat) : (clearV x r).fetched = x.fetched := rfl
@[simp] theorem clearV_ep (x : Ctx) (r : Nat) : (clearV x r).ep = x.ep := rfl
@[simp] theorem clearV_moving (x : Ctx) (r : Nat) : (clearV x r).moving = x.moving := rfl
@[simp] theorem clearV_storing (x : Ctx) (r : Nat) : (clearV x r).storing = x.storing := rfl

@[simp] theorem arriveG_st (x : Ctx) (r : Nat) : (arriveG x r).st = x.st := rfl
@[simp] theorem arriveG_wait (x : Ctx) (r : Nat) : (arriveG x r).wait = x.wait := rfl
@[simp] theorem arriveG_granted (x : Ctx) (r : Nat) : (arriveG x r).granted = x.granted := rfl
@[simp] theorem arriveG_since (x : Ctx) (r : Nat) : (arriveG x r).since = x.since := rfl
@[simp] theorem arriveG_g (x : Ctx) (r : Nat) : (arriveG x r).g = x.g := rfl
@[simp] theorem arriveG_v (x : Ctx) (r : Nat) : (arriveG x r).v = x.v := rfl
@[simp] theorem arriveG_m (x : Ctx) (r : Nat) : (arriveG x r).m = x.m := rfl
@[simp] theorem arriveG_f (x : Ctx) (r : Nat) : (arriveG x r).f = x.f := rfl
@[simp] theorem arriveG_fpflags (x : Ctx) (r : Nat) : (arriveG x r).fpflags = x.fpflags := rfl
@[simp] theorem arriveG_absV (x : Ctx) (r : Nat) : (arriveG x r).absV = x.absV := rfl
@[simp] theorem arriveG_poiG (x : Ctx) (r : Nat) : (arriveG x r).poiG = x.poiG := rfl
@[simp] theorem arriveG_poiV (x : Ctx) (r : Nat) : (arriveG x r).poiV = x.poiV := rfl
@[simp] theorem arriveG_dirtyG (x : Ctx) (r : Nat) : (arriveG x r).dirtyG = x.dirtyG := rfl
@[simp] theorem arriveG_dirtyV (x : Ctx) (r : Nat) : (arriveG x r).dirtyV = x.dirtyV := rfl
@[simp] theorem arriveG_armG (x : Ctx) (r : Nat) : (arriveG x r).armG = x.armG := rfl
@[simp] theorem arriveG_armV (x : Ctx) (r : Nat) : (arriveG x r).armV = x.armV := rfl
@[simp] theorem arriveG_hold (x : Ctx) (r : Nat) : (arriveG x r).hold = x.hold := rfl
@[simp] theorem arriveG_pc (x : Ctx) (r : Nat) : (arriveG x r).pc = x.pc := rfl
@[simp] theorem arriveG_sup (x : Ctx) (r : Nat) : (arriveG x r).sup = x.sup := rfl
@[simp] theorem arriveG_fl (x : Ctx) (r : Nat) : (arriveG x r).fl = x.fl := rfl
@[simp] theorem arriveG_trappc (x : Ctx) (r : Nat) : (arriveG x r).trappc = x.trappc := rfl
@[simp] theorem arriveG_trapcause (x : Ctx) (r : Nat) : (arriveG x r).trapcause = x.trapcause := rfl
@[simp] theorem arriveG_trapaddr (x : Ctx) (r : Nat) : (arriveG x r).trapaddr = x.trapaddr := rfl
@[simp] theorem arriveG_trapinfo (x : Ctx) (r : Nat) : (arriveG x r).trapinfo = x.trapinfo := rfl
@[simp] theorem arriveG_asid (x : Ctx) (r : Nat) : (arriveG x r).asid = x.asid := rfl
@[simp] theorem arriveG_tblsel (x : Ctx) (r : Nat) : (arriveG x r).tblsel = x.tblsel := rfl
@[simp] theorem arriveG_cpsrc (x : Ctx) (r : Nat) : (arriveG x r).cpsrc = x.cpsrc := rfl
@[simp] theorem arriveG_cpdst (x : Ctx) (r : Nat) : (arriveG x r).cpdst = x.cpdst := rfl
@[simp] theorem arriveG_cpring (x : Ctx) (r : Nat) : (arriveG x r).cpring = x.cpring := rfl
@[simp] theorem arriveG_cpcnt (x : Ctx) (r : Nat) : (arriveG x r).cpcnt = x.cpcnt := rfl
@[simp] theorem arriveG_cpstr (x : Ctx) (r : Nat) : (arriveG x r).cpstr = x.cpstr := rfl
@[simp] theorem arriveG_cpmcast (x : Ctx) (r : Nat) : (arriveG x r).cpmcast = x.cpmcast := rfl
@[simp] theorem arriveG_cpctl (x : Ctx) (r : Nat) : (arriveG x r).cpctl = x.cpctl := rfl
@[simp] theorem arriveG_gen (x : Ctx) (r : Nat) : (arriveG x r).gen = x.gen := rfl
@[simp] theorem arriveG_fir (x : Ctx) (r : Nat) : (arriveG x r).fir = x.fir := rfl
@[simp] theorem arriveG_pend (x : Ctx) (r : Nat) : (arriveG x r).pend = x.pend := rfl
@[simp] theorem arriveG_nextPend (x : Ctx) (r : Nat) : (arriveG x r).nextPend = x.nextPend := rfl
@[simp] theorem arriveG_fetched (x : Ctx) (r : Nat) : (arriveG x r).fetched = x.fetched := rfl
@[simp] theorem arriveG_ep (x : Ctx) (r : Nat) : (arriveG x r).ep = x.ep := rfl
@[simp] theorem arriveG_moving (x : Ctx) (r : Nat) : (arriveG x r).moving = x.moving := rfl
@[simp] theorem arriveG_storing (x : Ctx) (r : Nat) : (arriveG x r).storing = x.storing := rfl

@[simp] theorem arriveV_st (x : Ctx) (r : Nat) : (arriveV x r).st = x.st := rfl
@[simp] theorem arriveV_wait (x : Ctx) (r : Nat) : (arriveV x r).wait = x.wait := rfl
@[simp] theorem arriveV_granted (x : Ctx) (r : Nat) : (arriveV x r).granted = x.granted := rfl
@[simp] theorem arriveV_since (x : Ctx) (r : Nat) : (arriveV x r).since = x.since := rfl
@[simp] theorem arriveV_g (x : Ctx) (r : Nat) : (arriveV x r).g = x.g := rfl
@[simp] theorem arriveV_v (x : Ctx) (r : Nat) : (arriveV x r).v = x.v := rfl
@[simp] theorem arriveV_m (x : Ctx) (r : Nat) : (arriveV x r).m = x.m := rfl
@[simp] theorem arriveV_f (x : Ctx) (r : Nat) : (arriveV x r).f = x.f := rfl
@[simp] theorem arriveV_fpflags (x : Ctx) (r : Nat) : (arriveV x r).fpflags = x.fpflags := rfl
@[simp] theorem arriveV_absG (x : Ctx) (r : Nat) : (arriveV x r).absG = x.absG := rfl
@[simp] theorem arriveV_poiG (x : Ctx) (r : Nat) : (arriveV x r).poiG = x.poiG := rfl
@[simp] theorem arriveV_poiV (x : Ctx) (r : Nat) : (arriveV x r).poiV = x.poiV := rfl
@[simp] theorem arriveV_dirtyG (x : Ctx) (r : Nat) : (arriveV x r).dirtyG = x.dirtyG := rfl
@[simp] theorem arriveV_dirtyV (x : Ctx) (r : Nat) : (arriveV x r).dirtyV = x.dirtyV := rfl
@[simp] theorem arriveV_armG (x : Ctx) (r : Nat) : (arriveV x r).armG = x.armG := rfl
@[simp] theorem arriveV_armV (x : Ctx) (r : Nat) : (arriveV x r).armV = x.armV := rfl
@[simp] theorem arriveV_hold (x : Ctx) (r : Nat) : (arriveV x r).hold = x.hold := rfl
@[simp] theorem arriveV_pc (x : Ctx) (r : Nat) : (arriveV x r).pc = x.pc := rfl
@[simp] theorem arriveV_sup (x : Ctx) (r : Nat) : (arriveV x r).sup = x.sup := rfl
@[simp] theorem arriveV_fl (x : Ctx) (r : Nat) : (arriveV x r).fl = x.fl := rfl
@[simp] theorem arriveV_trappc (x : Ctx) (r : Nat) : (arriveV x r).trappc = x.trappc := rfl
@[simp] theorem arriveV_trapcause (x : Ctx) (r : Nat) : (arriveV x r).trapcause = x.trapcause := rfl
@[simp] theorem arriveV_trapaddr (x : Ctx) (r : Nat) : (arriveV x r).trapaddr = x.trapaddr := rfl
@[simp] theorem arriveV_trapinfo (x : Ctx) (r : Nat) : (arriveV x r).trapinfo = x.trapinfo := rfl
@[simp] theorem arriveV_asid (x : Ctx) (r : Nat) : (arriveV x r).asid = x.asid := rfl
@[simp] theorem arriveV_tblsel (x : Ctx) (r : Nat) : (arriveV x r).tblsel = x.tblsel := rfl
@[simp] theorem arriveV_cpsrc (x : Ctx) (r : Nat) : (arriveV x r).cpsrc = x.cpsrc := rfl
@[simp] theorem arriveV_cpdst (x : Ctx) (r : Nat) : (arriveV x r).cpdst = x.cpdst := rfl
@[simp] theorem arriveV_cpring (x : Ctx) (r : Nat) : (arriveV x r).cpring = x.cpring := rfl
@[simp] theorem arriveV_cpcnt (x : Ctx) (r : Nat) : (arriveV x r).cpcnt = x.cpcnt := rfl
@[simp] theorem arriveV_cpstr (x : Ctx) (r : Nat) : (arriveV x r).cpstr = x.cpstr := rfl
@[simp] theorem arriveV_cpmcast (x : Ctx) (r : Nat) : (arriveV x r).cpmcast = x.cpmcast := rfl
@[simp] theorem arriveV_cpctl (x : Ctx) (r : Nat) : (arriveV x r).cpctl = x.cpctl := rfl
@[simp] theorem arriveV_gen (x : Ctx) (r : Nat) : (arriveV x r).gen = x.gen := rfl
@[simp] theorem arriveV_fir (x : Ctx) (r : Nat) : (arriveV x r).fir = x.fir := rfl
@[simp] theorem arriveV_pend (x : Ctx) (r : Nat) : (arriveV x r).pend = x.pend := rfl
@[simp] theorem arriveV_nextPend (x : Ctx) (r : Nat) : (arriveV x r).nextPend = x.nextPend := rfl
@[simp] theorem arriveV_fetched (x : Ctx) (r : Nat) : (arriveV x r).fetched = x.fetched := rfl
@[simp] theorem arriveV_ep (x : Ctx) (r : Nat) : (arriveV x r).ep = x.ep := rfl
@[simp] theorem arriveV_moving (x : Ctx) (r : Nat) : (arriveV x r).moving = x.moving := rfl
@[simp] theorem arriveV_storing (x : Ctx) (r : Nat) : (arriveV x r).storing = x.storing := rfl

@[simp] theorem poisonG_st (x : Ctx) (r i : Nat) : (poisonG x r i).st = x.st := by
  unfold poisonG; split <;> rfl
@[simp] theorem poisonG_wait (x : Ctx) (r i : Nat) : (poisonG x r i).wait = x.wait := by
  unfold poisonG; split <;> rfl
@[simp] theorem poisonG_granted (x : Ctx) (r i : Nat) : (poisonG x r i).granted = x.granted := by
  unfold poisonG; split <;> rfl
@[simp] theorem poisonG_since (x : Ctx) (r i : Nat) : (poisonG x r i).since = x.since := by
  unfold poisonG; split <;> rfl
@[simp] theorem poisonG_g (x : Ctx) (r i : Nat) : (poisonG x r i).g = x.g := by
  unfold poisonG; split <;> rfl
@[simp] theorem poisonG_v (x : Ctx) (r i : Nat) : (poisonG x r i).v = x.v := by
  unfold poisonG; split <;> rfl
@[simp] theorem poisonG_m (x : Ctx) (r i : Nat) : (poisonG x r i).m = x.m := by
  unfold poisonG; split <;> rfl
@[simp] theorem poisonG_f (x : Ctx) (r i : Nat) : (poisonG x r i).f = x.f := by
  unfold poisonG; split <;> rfl
@[simp] theorem poisonG_fpflags (x : Ctx) (r i : Nat) : (poisonG x r i).fpflags = x.fpflags := by
  unfold poisonG; split <;> rfl
@[simp] theorem poisonG_absG (x : Ctx) (r i : Nat) : (poisonG x r i).absG = x.absG := by
  unfold poisonG; split <;> rfl
@[simp] theorem poisonG_absV (x : Ctx) (r i : Nat) : (poisonG x r i).absV = x.absV := by
  unfold poisonG; split <;> rfl
@[simp] theorem poisonG_poiV (x : Ctx) (r i : Nat) : (poisonG x r i).poiV = x.poiV := by
  unfold poisonG; split <;> rfl
@[simp] theorem poisonG_dirtyV (x : Ctx) (r i : Nat) : (poisonG x r i).dirtyV = x.dirtyV := by
  unfold poisonG; split <;> rfl
@[simp] theorem poisonG_armG (x : Ctx) (r i : Nat) : (poisonG x r i).armG = x.armG := by
  unfold poisonG; split <;> rfl
@[simp] theorem poisonG_armV (x : Ctx) (r i : Nat) : (poisonG x r i).armV = x.armV := by
  unfold poisonG; split <;> rfl
@[simp] theorem poisonG_hold (x : Ctx) (r i : Nat) : (poisonG x r i).hold = x.hold := by
  unfold poisonG; split <;> rfl
@[simp] theorem poisonG_pc (x : Ctx) (r i : Nat) : (poisonG x r i).pc = x.pc := by
  unfold poisonG; split <;> rfl
@[simp] theorem poisonG_sup (x : Ctx) (r i : Nat) : (poisonG x r i).sup = x.sup := by
  unfold poisonG; split <;> rfl
@[simp] theorem poisonG_fl (x : Ctx) (r i : Nat) : (poisonG x r i).fl = x.fl := by
  unfold poisonG; split <;> rfl
@[simp] theorem poisonG_trappc (x : Ctx) (r i : Nat) : (poisonG x r i).trappc = x.trappc := by
  unfold poisonG; split <;> rfl
@[simp] theorem poisonG_trapcause (x : Ctx) (r i : Nat) : (poisonG x r i).trapcause = x.trapcause := by
  unfold poisonG; split <;> rfl
@[simp] theorem poisonG_trapaddr (x : Ctx) (r i : Nat) : (poisonG x r i).trapaddr = x.trapaddr := by
  unfold poisonG; split <;> rfl
@[simp] theorem poisonG_trapinfo (x : Ctx) (r i : Nat) : (poisonG x r i).trapinfo = x.trapinfo := by
  unfold poisonG; split <;> rfl
@[simp] theorem poisonG_asid (x : Ctx) (r i : Nat) : (poisonG x r i).asid = x.asid := by
  unfold poisonG; split <;> rfl
@[simp] theorem poisonG_tblsel (x : Ctx) (r i : Nat) : (poisonG x r i).tblsel = x.tblsel := by
  unfold poisonG; split <;> rfl
@[simp] theorem poisonG_cpsrc (x : Ctx) (r i : Nat) : (poisonG x r i).cpsrc = x.cpsrc := by
  unfold poisonG; split <;> rfl
@[simp] theorem poisonG_cpdst (x : Ctx) (r i : Nat) : (poisonG x r i).cpdst = x.cpdst := by
  unfold poisonG; split <;> rfl
@[simp] theorem poisonG_cpring (x : Ctx) (r i : Nat) : (poisonG x r i).cpring = x.cpring := by
  unfold poisonG; split <;> rfl
@[simp] theorem poisonG_cpcnt (x : Ctx) (r i : Nat) : (poisonG x r i).cpcnt = x.cpcnt := by
  unfold poisonG; split <;> rfl
@[simp] theorem poisonG_cpstr (x : Ctx) (r i : Nat) : (poisonG x r i).cpstr = x.cpstr := by
  unfold poisonG; split <;> rfl
@[simp] theorem poisonG_cpmcast (x : Ctx) (r i : Nat) : (poisonG x r i).cpmcast = x.cpmcast := by
  unfold poisonG; split <;> rfl
@[simp] theorem poisonG_cpctl (x : Ctx) (r i : Nat) : (poisonG x r i).cpctl = x.cpctl := by
  unfold poisonG; split <;> rfl
@[simp] theorem poisonG_gen (x : Ctx) (r i : Nat) : (poisonG x r i).gen = x.gen := by
  unfold poisonG; split <;> rfl
@[simp] theorem poisonG_fir (x : Ctx) (r i : Nat) : (poisonG x r i).fir = x.fir := by
  unfold poisonG; split <;> rfl
@[simp] theorem poisonG_pend (x : Ctx) (r i : Nat) : (poisonG x r i).pend = x.pend := by
  unfold poisonG; split <;> rfl
@[simp] theorem poisonG_nextPend (x : Ctx) (r i : Nat) : (poisonG x r i).nextPend = x.nextPend := by
  unfold poisonG; split <;> rfl
@[simp] theorem poisonG_fetched (x : Ctx) (r i : Nat) : (poisonG x r i).fetched = x.fetched := by
  unfold poisonG; split <;> rfl
@[simp] theorem poisonG_ep (x : Ctx) (r i : Nat) : (poisonG x r i).ep = x.ep := by
  unfold poisonG; split <;> rfl
@[simp] theorem poisonG_moving (x : Ctx) (r i : Nat) : (poisonG x r i).moving = x.moving := by
  unfold poisonG; split <;> rfl
@[simp] theorem poisonG_storing (x : Ctx) (r i : Nat) : (poisonG x r i).storing = x.storing := by
  unfold poisonG; split <;> rfl

@[simp] theorem poisonV_st (x : Ctx) (r i : Nat) : (poisonV x r i).st = x.st := rfl
@[simp] theorem poisonV_wait (x : Ctx) (r i : Nat) : (poisonV x r i).wait = x.wait := rfl
@[simp] theorem poisonV_granted (x : Ctx) (r i : Nat) : (poisonV x r i).granted = x.granted := rfl
@[simp] theorem poisonV_since (x : Ctx) (r i : Nat) : (poisonV x r i).since = x.since := rfl
@[simp] theorem poisonV_g (x : Ctx) (r i : Nat) : (poisonV x r i).g = x.g := rfl
@[simp] theorem poisonV_v (x : Ctx) (r i : Nat) : (poisonV x r i).v = x.v := rfl
@[simp] theorem poisonV_m (x : Ctx) (r i : Nat) : (poisonV x r i).m = x.m := rfl
@[simp] theorem poisonV_f (x : Ctx) (r i : Nat) : (poisonV x r i).f = x.f := rfl
@[simp] theorem poisonV_fpflags (x : Ctx) (r i : Nat) : (poisonV x r i).fpflags = x.fpflags := rfl
@[simp] theorem poisonV_absG (x : Ctx) (r i : Nat) : (poisonV x r i).absG = x.absG := rfl
@[simp] theorem poisonV_absV (x : Ctx) (r i : Nat) : (poisonV x r i).absV = x.absV := rfl
@[simp] theorem poisonV_poiG (x : Ctx) (r i : Nat) : (poisonV x r i).poiG = x.poiG := rfl
@[simp] theorem poisonV_dirtyG (x : Ctx) (r i : Nat) : (poisonV x r i).dirtyG = x.dirtyG := rfl
@[simp] theorem poisonV_armG (x : Ctx) (r i : Nat) : (poisonV x r i).armG = x.armG := rfl
@[simp] theorem poisonV_armV (x : Ctx) (r i : Nat) : (poisonV x r i).armV = x.armV := rfl
@[simp] theorem poisonV_hold (x : Ctx) (r i : Nat) : (poisonV x r i).hold = x.hold := rfl
@[simp] theorem poisonV_pc (x : Ctx) (r i : Nat) : (poisonV x r i).pc = x.pc := rfl
@[simp] theorem poisonV_sup (x : Ctx) (r i : Nat) : (poisonV x r i).sup = x.sup := rfl
@[simp] theorem poisonV_fl (x : Ctx) (r i : Nat) : (poisonV x r i).fl = x.fl := rfl
@[simp] theorem poisonV_trappc (x : Ctx) (r i : Nat) : (poisonV x r i).trappc = x.trappc := rfl
@[simp] theorem poisonV_trapcause (x : Ctx) (r i : Nat) : (poisonV x r i).trapcause = x.trapcause := rfl
@[simp] theorem poisonV_trapaddr (x : Ctx) (r i : Nat) : (poisonV x r i).trapaddr = x.trapaddr := rfl
@[simp] theorem poisonV_trapinfo (x : Ctx) (r i : Nat) : (poisonV x r i).trapinfo = x.trapinfo := rfl
@[simp] theorem poisonV_asid (x : Ctx) (r i : Nat) : (poisonV x r i).asid = x.asid := rfl
@[simp] theorem poisonV_tblsel (x : Ctx) (r i : Nat) : (poisonV x r i).tblsel = x.tblsel := rfl
@[simp] theorem poisonV_cpsrc (x : Ctx) (r i : Nat) : (poisonV x r i).cpsrc = x.cpsrc := rfl
@[simp] theorem poisonV_cpdst (x : Ctx) (r i : Nat) : (poisonV x r i).cpdst = x.cpdst := rfl
@[simp] theorem poisonV_cpring (x : Ctx) (r i : Nat) : (poisonV x r i).cpring = x.cpring := rfl
@[simp] theorem poisonV_cpcnt (x : Ctx) (r i : Nat) : (poisonV x r i).cpcnt = x.cpcnt := rfl
@[simp] theorem poisonV_cpstr (x : Ctx) (r i : Nat) : (poisonV x r i).cpstr = x.cpstr := rfl
@[simp] theorem poisonV_cpmcast (x : Ctx) (r i : Nat) : (poisonV x r i).cpmcast = x.cpmcast := rfl
@[simp] theorem poisonV_cpctl (x : Ctx) (r i : Nat) : (poisonV x r i).cpctl = x.cpctl := rfl
@[simp] theorem poisonV_gen (x : Ctx) (r i : Nat) : (poisonV x r i).gen = x.gen := rfl
@[simp] theorem poisonV_fir (x : Ctx) (r i : Nat) : (poisonV x r i).fir = x.fir := rfl
@[simp] theorem poisonV_pend (x : Ctx) (r i : Nat) : (poisonV x r i).pend = x.pend := rfl
@[simp] theorem poisonV_nextPend (x : Ctx) (r i : Nat) : (poisonV x r i).nextPend = x.nextPend := rfl
@[simp] theorem poisonV_fetched (x : Ctx) (r i : Nat) : (poisonV x r i).fetched = x.fetched := rfl
@[simp] theorem poisonV_ep (x : Ctx) (r i : Nat) : (poisonV x r i).ep = x.ep := rfl
@[simp] theorem poisonV_moving (x : Ctx) (r i : Nat) : (poisonV x r i).moving = x.moving := rfl
@[simp] theorem poisonV_storing (x : Ctx) (r i : Nat) : (poisonV x r i).storing = x.storing := rfl

/-! ### Registers read after a write -/

/-- g0 reads as the null untagged zero (R338). -/
@[simp] theorem readG_zero (x : Ctx) : readG x 0 = Cap.null := rfl
/-- A written register reads as written (R338). -/
theorem readG_writeG (x : Ctx) {r : Nat} (y : Cap) (h : r ≠ 0) : readG (writeG x r y) r = y := by
  simp [readG, writeG, h]
/-- A write of g0 changes nothing (R338). -/
@[simp] theorem writeG_zero (x : Ctx) (y : Cap) : writeG x 0 y = x := rfl
/-- A write leaves the other registers alone. -/
theorem readG_writeG_ne (x : Ctx) {r j : Nat} (y : Cap) (h : j ≠ r) : readG (writeG x r y) j = readG x j := by
  unfold readG writeG
  by_cases hj : j = 0 <;> by_cases hr : r = 0 <;> simp_all [SMap.get_set_ne]
@[simp] theorem readV_writeV (x : Ctx) (r : Nat) (y : VReg) : readV (writeV x r y) r = y := SMap.get_set_self ..
theorem readV_writeV_ne (x : Ctx) {r j : Nat} (y : VReg) (h : j ≠ r) : readV (writeV x r y) j = readV x j := SMap.get_set_ne _ _ _ h
@[simp] theorem readM_writeM (x : Ctx) (r : Nat) (y : BitVec 32) : readM (writeM x r y) r = y := SMap.get_set_self ..
theorem readM_writeM_ne (x : Ctx) {r j : Nat} (y : BitVec 32) (h : j ≠ r) : readM (writeM x r y) j = readM x j := SMap.get_set_ne _ _ _ h
@[simp] theorem readF_writeF (x : Ctx) (r : Nat) (y : W64) : readF (writeF x r y) r = y := SMap.get_set_self ..
theorem readF_writeF_ne (x : Ctx) {r j : Nat} (y : W64) (h : j ≠ r) : readF (writeF x r y) j = readF x j := SMap.get_set_ne _ _ _ h
@[simp] theorem readG_writeV (x : Ctx) (r : Nat) (y : VReg) (j : Nat) : readG (writeV x r y) j = readG x j := rfl
@[simp] theorem readG_writeM (x : Ctx) (r : Nat) (y : BitVec 32) (j : Nat) : readG (writeM x r y) j = readG x j := rfl
@[simp] theorem readV_writeG (x : Ctx) (r : Nat) (y : Cap) (j : Nat) : readV (writeG x r y) j = readV x j := by simp [readV]
@[simp] theorem readM_writeG (x : Ctx) (r : Nat) (y : Cap) (j : Nat) : readM (writeG x r y) j = readM x j := by simp [readM]
@[simp] theorem readF_writeG (x : Ctx) (r : Nat) (y : Cap) (j : Nat) : readF (writeG x r y) j = readF x j := by simp [readF]

end Sys2Proof.Machine
end

