-- ==== Sys2Proof/Laws/Memory.lean ====
section
/-! SUPPORT. Bytes of memory: a read after a write, what a write leaves alone, and the canonical form. -/

namespace Sys2Proof.Machine

theorem length_leBytes (n x : Nat) : (leBytes n x).length = n := by
  induction n generalizing x with
  | zero => rfl
  | succ n ih => simp [leBytes, ih]

theorem leNat_leBytes (n x : Nat) : leNat (leBytes n x) = x % 2 ^ (8 * n) := by
  induction n generalizing x with
  | zero => simp [leBytes, leNat, Nat.mod_one]
  | succ n ih =>
    have h : (2 : Nat) ^ (8 * (n + 1)) = 256 * 2 ^ (8 * n) := by rw [Nat.mul_succ, Nat.pow_add]; omega
    simp only [leBytes, leNat, ih, BitVec.toNat_ofNat, h]
    rw [Nat.mod_mul]

/-- What a byte reads as after a write of bytes. -/
theorem get_pokeBytes (m : SMap Byte) (a : Nat) (bs : List Byte) (j : Nat) :
    SMap.get 0 (pokeBytes m a bs) j = if a ≤ j ∧ j < a + bs.length then bs.getD (j - a) 0 else SMap.get 0 m j := by
  induction bs generalizing m a with
  | nil => simp [pokeBytes]
  | cons b r ih =>
    simp only [pokeBytes, ih, SMap.get_set, List.length_cons]
    by_cases h : j = a
    · subst h; simp
    · by_cases h2 : a ≤ j
      · obtain ⟨k, hk⟩ := Nat.exists_eq_add_of_lt (Nat.lt_of_le_of_ne h2 (Ne.symm h))
        have e : j - a = k + 1 := by omega
        have e' : j - (a + 1) = k := by omega
        simp only [e, e', List.getD_cons_succ, h, if_false]
        by_cases h3 : k < r.length
        · rw [if_pos (by omega), if_pos (by omega)]
        · rw [if_neg (by omega), if_neg (by omega)]
      · rw [if_neg (by omega), if_neg h, if_neg (by omega)]

/-- A write of bytes keeps the canonical form. -/
theorem wf_pokeBytes {m : SMap Byte} (a : Nat) (bs : List Byte) (h : Memory.wf m = true) : Memory.wf (pokeBytes m a bs) = true := by
  induction bs generalizing m a with
  | nil => exact h
  | cons b r ih => exact ih _ (SMap.wf_set a b h)

theorem peekBytes_congr {m m' : SMap Byte} {a n : Nat} (h : ∀ j, a ≤ j → j < a + n → SMap.get 0 m j = SMap.get 0 m' j) :
    peekBytes m a n = peekBytes m' a n := by
  induction n generalizing a with
  | zero => rfl
  | succ n ih =>
    simp only [peekBytes]
    rw [h a (by omega) (by omega), ih fun j h1 h2 => h j (by omega) (by omega)]

theorem peekBytes_pokeBytes (m : SMap Byte) (a : Nat) (bs : List Byte) : peekBytes (pokeBytes m a bs) a bs.length = bs := by
  induction bs generalizing m a with
  | nil => rfl
  | cons b r ih =>
    simp only [List.length_cons, peekBytes, pokeBytes, ih]
    rw [get_pokeBytes, if_neg (by omega), SMap.get_set_self]

/-- A read of the bytes just written gives them. -/
theorem peek_poke (s : State) (a n x : Nat) : peek (poke a n x s) a n = x % 2 ^ (8 * n) := by
  have := peekBytes_pokeBytes s.ms.mem a (leBytes n x)
  rw [length_leBytes] at this
  simp only [peek, poke, modMs, this, leNat_leBytes]

/-- A write leaves disjoint bytes alone. -/
theorem peek_poke_disjoint (s : State) (a n x b k : Nat) (h : b + k ≤ a ∨ a + n ≤ b) : peek (poke a n x s) b k = peek s b k := by
  simp only [peek, poke, modMs]
  rw [peekBytes_congr fun j h1 h2 => ?_]
  rw [get_pokeBytes, length_leBytes, if_neg (by omega)]

/-- Writing keeps the physical map canonical. -/
theorem wf_poke (s : State) (a n x : Nat) (h : Memory.wf s.ms.mem = true) : Memory.wf (poke a n x s).ms.mem = true :=
  wf_pokeBytes a _ h

/-- Writing host memory keeps it canonical, and leaves the physical map alone. -/
theorem wf_hostPoke (s : State) (f a n x : Nat) (h : Memory.wf s.ms.hostio = true) : Memory.wf (hostPoke f a n x s).ms.hostio = true :=
  wf_pokeBytes _ _ h
@[simp] theorem hostPoke_mem (f a n x : Nat) (s : State) : (hostPoke f a n x s).ms.mem = s.ms.mem := rfl
@[simp] theorem poke_hostio (a n x : Nat) (s : State) : (poke a n x s).ms.hostio = s.ms.hostio := rfl

end Sys2Proof.Machine
end

