-- ==== Sys2Proof/Laws/Exec.lean ====
section
/-! SUPPORT. How the bodies of heads evaluate, and when a head completes. -/

namespace Sys2Proof.Machine

/-! ### The parts of a body -/

theorem X.bind_eq {α β : Type} (x : X α) (f : α → X β) (s : State) :
    (x >>= f) s = match x s with
      | .ok a t => f a t
      | .error e t => .error e t := by
  show EStateM.bind x f s = _
  unfold EStateM.bind
  cases x s <;> rfl
@[simp] theorem X.bind_ok {α β : Type} {x : X α} {f : α → X β} {s t : State} {a : α} (h : x s = .ok a t) : (x >>= f) s = f a t := by
  rw [X.bind_eq, h]
@[simp] theorem X.bind_error {α β : Type} {x : X α} {f : α → X β} {s t : State} {e : Stop} (h : x s = .error e t) :
    (x >>= f) s = .error e t := by
  rw [X.bind_eq, h]
@[simp] theorem X.pure_apply {α : Type} (a : α) (s : State) : (pure a : X α) s = .ok a s := rfl
@[simp] theorem X.get_apply (s : State) : (get : X State) s = .ok s s := rfl
@[simp] theorem X.set_apply (t s : State) : (set t : X PUnit) s = .ok () t := rfl
@[simp] theorem X.upd_apply (f : State → State) (s : State) : upd f s = .ok () (f s) := rfl
@[simp] theorem X.throw_apply {α : Type} (e : Stop) (s : State) : (throw e : X α) s = .error e s := rfl
@[simp] theorem X.raise_apply {α : Type} (c a i : Nat) (s : State) : (raise c a i : X α) s = .error (.trap c a i) s := rfl
@[simp] theorem X.illegal_apply {α : Type} (sub : Nat) (s : State) : (illegal sub : X α) s = .error (.trap 0x02 0 sub) s := rfl
@[simp] theorem X.ensure_true (c a i : Nat) (s : State) : ensure true c a i s = .ok () s := rfl
theorem X.ensure_apply (b : Bool) (c a i : Nat) (s : State) :
    ensure b c a i s = if b then .ok () s else .error (.trap c a i) s := by
  cases b <;> rfl
@[simp] theorem X.setG_apply (r : BitVec 6) (c : Cap) (s : State) : setG r c s = .ok () (modHere (fun x => writeG x r.toNat c) s) := rfl
@[simp] theorem X.setInt_apply (r : BitVec 6) (v : W64) (s : State) :
    setInt r v s = .ok () (modHere (fun x => writeG x r.toNat (Cap.ofInt v)) s) := rfl
@[simp] theorem X.setV_apply (r : BitVec 6) (v : VReg) (s : State) : setV r v s = .ok () (modHere (fun x => writeV x r.toNat v) s) := rfl

/-- A loop over registers none of which does anything leaves the state. -/
theorem X.forM_idle {f : Nat → X PUnit} {s : State} (vs : List Nat) (h : ∀ v ∈ vs, f v s = .ok () s) : (vs.forM f : X PUnit) s = .ok () s := by
  induction vs with
  | nil => rfl
  | cons v r ih =>
    show ((f v >>= fun _ => r.forM f) : X PUnit) s = _
    rw [X.bind_ok (h v (by simp))]
    exact ih fun w hw => h w (by simp [hw])

/-! ### Streams that are not bound -/

theorem popIn_idle {s : State} {v : Nat} (h : unitOf s s.cur v = none) : popIn v s = .ok () s := by
  unfold popIn; rw [X.bind_ok (X.get_apply s), h]; rfl
theorem popDone_idle {s : State} {v : Nat} (h : unitOf s s.cur v = none) : popDone v s = .ok () s := by
  simp [popDone, h]
theorem pushCheck_idle {s : State} {v : Nat} (h : unitOf s s.cur v = none) : pushCheck v s = .ok () s := by
  unfold pushCheck; rw [X.bind_ok (X.get_apply s), h]; rfl
theorem pushOut_idle {s : State} {v : Nat} (h : unitOf s s.cur v = none) : pushOut v s = .ok () s := by
  unfold pushOut; rw [X.bind_ok (X.get_apply s), h]; rfl

/-! ### Completion -/

theorem pairGate_open {r : Row} {u : Use} {s : State} (h : (unconfirmed s && endsInterval r) = false) : pairGate r u s = .ok () s := by
  unfold pairGate; rw [X.bind_ok (X.get_apply s), h]; rfl
/-- A head of a context without a mirror partner leaves what its body leaves (R200). -/
theorem partnerHead_alone {r : Row} {u : Use} {body : X Next} {s t : State} (h : partnerOf s s.cur = none) :
    partnerHead r u body s t = t := by
  simp [partnerHead, h]
/-- The partner's side of a head is its context's registers and the record of the pair (R200, R201). -/
theorem partnerHead_frame (r : Row) (u : Use) (body : X Next) (s t : State) :
    partnerHead r u body s t = t ∨ ∃ q y f, partnerOf s s.cur = some q ∧ partnerHead r u body s t = modGrp f (setCtx t q y) := by
  cases hq : partnerOf s s.cur with
  | none => exact .inl (partnerHead_alone hq)
  | some q =>
    cases ht : partnerOf t s.cur with
    | none => left; simp [partnerHead, hq, ht]
    | some p => right; simp only [partnerHead, hq, ht]; exact ⟨q, _, _, rfl, rfl⟩

/-- A head whose body succeeds performs and advances. -/
theorem perform_ok {r : Row} {h : Head} {u : Use} {body : X Next} {s t : State} {n : Next}
    (hg : (unconfirmed s && endsInterval r) = false) (hs : Unbound s u) (hb : body s = .ok n t) (hn : n ≠ .gone) (ht : Unbound t u) :
    perform r h u body s = .ok () (advance h u n t) := by
  have mem : ∀ v ∈ u.rv.eraseDups, v ∈ u.rv ++ u.wv := fun v hv => by
    simp at hv ⊢; exact Or.inl hv
  have hr : retire h u n t = .ok () (advance h u n t) := by
    have h1 := X.forM_idle (f := popDone) u.rv.eraseDups fun v hv => popDone_idle (ht v (mem v hv))
    have h2 := X.forM_idle (f := pushOut) u.wv fun v hv => pushOut_idle (ht v (by simp [hv]))
    cases n <;> first | exact absurd rfl hn | (simp only [retire]; rw [X.bind_ok h1, X.bind_ok h2, X.upd_apply])
  have h1 := X.forM_idle (f := popIn) u.rv.eraseDups fun v hv => popIn_idle (hs v (mem v hv))
  have h2 := X.forM_idle (f := pushCheck) u.wv fun v hv => pushCheck_idle (hs v (by simp [hv]))
  unfold perform
  rw [X.bind_ok (pairGate_open hg), X.bind_ok h1, X.bind_ok h2, X.bind_ok hb, hr]

/-- A head that issues normally and whose body succeeds completes: its next state is the body's, advanced. -/
theorem runHead_completes {r : Row} {h : Head} {u : Use} {body : X Next} {s t : State} {n : Next}
    (hi : Issues s r u) (hs : Unbound s u) (hb : body s = .ok n t) (hn : n ≠ .gone) (ht : Unbound t u) :
    runHead r h u body s = .next (advance h u n t) := by
  simp only [runHead, hi.1, perform_ok hi.2.1 hs hb hn ht, partnerHead_alone hi.2.2]
/-- The same whether or not the context has a mirror partner. -/
theorem runHead_mirrors {r : Row} {h : Head} {u : Use} {body : X Next} {s t : State} {n : Next}
    (hi : issueStop s r u = none) (hg : (unconfirmed s && endsInterval r) = false) (hs : Unbound s u) (hb : body s = .ok n t)
    (hn : n ≠ .gone) (ht : Unbound t u) :
    runHead r h u body s = .next (advance h u n t) ∨
    ∃ q y f, partnerOf s s.cur = some q ∧ runHead r h u body s = .next (modGrp f (setCtx (advance h u n t) q y)) := by
  simp only [runHead, hi, perform_ok hg hs hb hn ht]
  rcases partnerHead_frame r u body s (advance h u n t) with e | ⟨q, y, f, hq, e⟩
  · left; rw [e]
  · right; exact ⟨q, y, f, hq, by rw [e]⟩

/-- A head whose firing or handler run ends leaves its body's state. -/
theorem runHead_gone {r : Row} {h : Head} {u : Use} {body : X Next} {s t : State}
    (hi : Issues s r u) (hs : Unbound s u) (hb : body s = .ok .gone t) : runHead r h u body s = .next t := by
  have gate := pairGate_open hi.2.1 (u := u)
  have mem : ∀ v ∈ u.rv.eraseDups, v ∈ u.rv ++ u.wv := fun v hv => by
    simp at hv ⊢; exact Or.inl hv
  have h1 := X.forM_idle (f := popIn) u.rv.eraseDups fun v hv => popIn_idle (hs v (mem v hv))
  have h2 := X.forM_idle (f := pushCheck) u.wv fun v hv => pushCheck_idle (hs v (by simp [hv]))
  have hp : perform r h u body s = .ok () t := by
    unfold perform
    rw [X.bind_ok gate, X.bind_ok h1, X.bind_ok h2, X.bind_ok hb]; rfl
  simp only [runHead, hi.1, hp, partnerHead_alone hi.2.2]

/-- A head that does not issue leaves what its stop leaves. -/
theorem runHead_stops {r : Row} {h : Head} {u : Use} {body : X Next} {s : State} {st : Stop}
    (hi : issueStop s r u = some st) : runHead r h u body s = .next (onStop s s st) := by
  simp only [runHead, hi]

/-- A head whose body stops leaves what its stop leaves. -/
theorem runHead_error {r : Row} {h : Head} {u : Use} {body : X Next} {s t : State} {st : Stop}
    (hi : Issues s r u) (hs : Unbound s u) (hb : body s = .error st t) : runHead r h u body s = .next (onStop s t st) := by
  have gate := pairGate_open hi.2.1 (u := u)
  have mem : ∀ v ∈ u.rv.eraseDups, v ∈ u.rv ++ u.wv := fun v hv => by
    simp at hv ⊢; exact Or.inl hv
  have h1 := X.forM_idle (f := popIn) u.rv.eraseDups fun v hv => popIn_idle (hs v (mem v hv))
  have h2 := X.forM_idle (f := pushCheck) u.wv fun v hv => pushCheck_idle (hs v (by simp [hv]))
  have hp : perform r h u body s = .error st t := by
    unfold perform
    rw [X.bind_ok gate, X.bind_ok h1, X.bind_ok h2, X.bind_error hb]
  simp only [runHead, hi.1, hp]

/-! ### Heads that name no vector register -/

theorem unbound_nil {s : State} {u : Use} (h : u.rv ++ u.wv = []) : Unbound s u := by simp [Unbound, h]
/-- A row without v registers names none. -/
theorem ofRow_nil {r : Row} (h : Head) (hr : r.d ≠ .v ∧ r.a ≠ .v ∧ r.b1 ≠ .v ∧ r.b2 ≠ .v) :
    (Use.ofRow r h).rv ++ (Use.ofRow r h).wv = [] := by
  have : r.bKind h ≠ .v := by
    cases hf : h.form <;> simp [Row.bKind, hf, hr]
  simp [Use.ofRow, hr, this]

/-- A family of heads completes when its body succeeds. -/
theorem completes_of {mk : Head → Instr} {r : Row} {u : Head → Use} {n : Head → State → Next} {t : Head → State → State}
    (body : Head → X Next) (he : ∀ h s, exec (mk h) s = runHead r h (u h) (body h) s)
    (hb : ∀ h s, body h s = .ok (n h s) (t h s)) (hn : ∀ h s, n h s ≠ .gone)
    (hu : ∀ h s, Unbound s (u h) → Unbound (t h s) (u h)) : Completes mk r u n t := by
  intro h s hi hs
  rw [he]
  exact runHead_completes hi hs (hb h s) (hn h s) (hu h s hs)
/-- The same in sequence, with the registers of its row, none of them a v register. -/
theorem effects_of {mk : Head → Instr} {r : Row} {t : Head → State → State} (body : Head → X Next)
    (he : ∀ h s, exec (mk h) s = runHead r h (Use.ofRow r h) (body h) s)
    (hr : r.d ≠ .v ∧ r.a ≠ .v ∧ r.b1 ≠ .v ∧ r.b2 ≠ .v) (hb : ∀ h s, body h s = .ok .seq (t h s)) : Effects mk r t :=
  completes_of body he hb (by simp) fun h s _ => unbound_nil (ofRow_nil h hr)
/-- A head that computes one integer. -/
theorem computes_of {mk : Head → Instr} {r : Row} {f : W64 → W64 → W64} (g : W64 → W64 → W64)
    (he : ∀ h s, exec (mk h) s = intHead r h g s) (hr : r.d ≠ .v ∧ r.a ≠ .v ∧ r.b1 ≠ .v ∧ r.b2 ≠ .v)
    (hf : ∀ a b, g a b = f a b) : Computes mk r f := by
  obtain rfl : g = f := by funext a b; exact hf a b
  exact effects_of (fun h => do
    let s ← get
    setInt h.d (g (opA s h) (opB s h))
    pure .seq) he hr fun _ _ => rfl

end Sys2Proof.Machine
end

