-- ==== Sys2Proof/Tests/Slice0.lean ====
section
/-! SUPPORT. The model's own tests: words written out from the spec's encodings, ill-formed terms that every check of
well-formedness refuses, a state and operands that meet the hypotheses of every statement, and one-step results worked
out from the rules. -/

namespace Sys2Proof.Tests

open Machine

set_option maxRecDepth 100000
set_option exponentiation.threshold 4096
set_option Elab.async false

/-! ### States -/

/-- A capability over `a` to `a + n` with every permission. -/
def capAt (a n : Nat) : Cap := CapF.make 127 a n
/-- An integer in a register. -/
def int (v : W64) : Cap := Cap.ofInt v
/-- A firing of context 0 of core 32 with every register allotted. -/
def fir0 : Firing := { handle := mkHandle 0 32 0 1, cch := 8, vch := 8, asid := 1 }
/-- A context of the supervisor with registers `g`. -/
def ctx0 (g : SMap Cap) : Ctx :=
  { st := .issuing
    g := g
    pc := ⟨0x1000, 1⟩
    sup := true
    asid := 1
    gen := 1
    fir := some fir0 }
/-- Translations of the first gigabyte to itself, and of the scratchpad of core 32, for ASID 1 in strip 2. -/
def tlb0 : List TlbEntry :=
  [{ unit := 2, asid := 1, va := 0, size := 2 ^ 30, pa := 0, attr := 0x13F },
    { unit := 2, asid := 1, va := 2 ^ 30, size := 2 ^ 22, pa := windowOf 32, attr := 0x13F }]
/-- Context 0 of core 32 has the turn, and is `x`. -/
def run (x : Ctx) : State := { State.reset with cur := 256, heads := 3, ctxs := [(256, x)], tr := { tlb := tlb0 } }
/-- It has registers `g`. -/
def core (g : SMap Cap) : State := run (ctx0 g)
/-- Registers that the tests of memory use. -/
def regs0 : SMap Cap :=
  [(1, int 5), (2, int 3), (3, capAt 0x2000 0x1000), (5, capAt (2 ^ 30 + 0x100) 0x100), (6, int 8)]
def core0 : State := core regs0
/-- Thread 0 of Prism 0 runs a handler on block 0x40000. -/
def thread (m : PMsg) (g : SMap Cap) : State :=
  { State.reset with
    cur := 32768
    heads := 3
    ctxs := [(32768, { st := .issuing, g := g, pc := ⟨0x1000, 1⟩ })]
    prisms := [(0, { thr := [(0, some { msg := m, tag := 1 })], runs := 1 })] }
def thread0 : State := thread { ty := 0, block := 0x48000 } [(1, int 5), (3, int 0x48000), (4, int 0x48000)]
/-- Page tables in memory that map the first gigabyte to itself for ASIDs 0 and 1 (R285 to R288). -/
def paged (s : State) : State :=
  poke 0 8 (2 ^ 63 + 0x10000) (poke 8 8 (2 ^ 63 + 0x10000)
    (poke 0x10000 8 0x11001 (poke 0x11000 8 0x12001 (poke 0x12000 8 0x13F s))))
/-- A head with D 4, A 1 and B 2. -/
def hd : Head := { d := 4, a := 1, b := 2 }

/-- A computation that ends normally with a result and a state for which `p` holds. -/
def endsOk {ε α : Type} (r : EStateM.Result ε State α) (p : α → State → Bool) : Bool :=
  match r with
  | .ok a t => p a t
  | .error _ _ => false
theorem ok_of {ε α : Type} {r : EStateM.Result ε State α} {p : α → State → Bool} (h : endsOk r p = true) :
    ∃ a t, r = .ok a t ∧ p a t = true := by
  cases r with
  | ok a t => exact ⟨a, t, rfl, h⟩
  | error e t => simp [endsOk] at h

theorem ok_eq {ε α : Type} [DecidableEq α] {r : EStateM.Result ε State α} {x : α} {s : State}
    (h : endsOk r (fun a t => decide (a = x) && decide (t = s)) = true) : r = .ok x s := by
  cases r with
  | ok a t => simp [endsOk] at h; simp [h]
  | error e t => simp [endsOk] at h
/-- A step answers this next state. -/
def goesTo (r : Host.Outcome State Fault Refusal) (t : State) : Bool :=
  match r with
  | .next u => decide (u = t)
  | _ => false
theorem next_eq {r : Host.Outcome State Fault Refusal} {t : State} (h : goesTo r t = true) : r = .next t := by
  cases r with
  | next u => simp [goesTo] at h; simp [h]
  | fault f => simp [goesTo] at h
  | refused f => simp [goesTo] at h

/-! ### Heads issue -/

theorem issues_of {s : State} {r : Row} {u : Use}
    (h : ((issueStop s r u).isNone && !(unconfirmed s && endsInterval r) && (partnerOf s s.cur).isNone) = true) : Issues s r u := by
  unfold Issues
  cases hu : issueStop s r u <;> cases hc : (unconfirmed s && endsInterval r) <;> simp_all

/-- Every head of a core issues normally in a state, with its registers read, written or only named. -/
theorem witness_core_heads_issue :
    (partnerOf core0 core0.cur).isNone ∧ (opRows.all fun r => r.major == 0x7E ||
      [Use.ofRow r hd, (Use.ofRow r hd).readD, (Use.ofRow r hd).srcD, (Use.ofRow r hd).nameV, {}].all fun u =>
        (issueStop core0 r u).isNone && !(unconfirmed core0 && endsInterval r)) = true := ⟨rfl, rfl⟩
/-- Every head of a Prism thread does too. -/
theorem witness_thread_heads_issue :
    (partnerOf thread0 thread0.cur).isNone ∧ (opRows.all fun r => !threadMajor r.major ||
      [Use.ofRow r hd, (Use.ofRow r hd).readD, (Use.ofRow r hd).srcD, {}].all fun u => !u.rv.isEmpty || !u.wv.isEmpty ||
        (issueStop thread0 r u).isNone && !(unconfirmed thread0 && endsInterval r)) = true := ⟨rfl, rfl⟩

/-! ### Premises that recur -/

theorem passes_of {s : State} {c : Cap} {ea n p align : Nat}
    (h : ((isThread s.cur || (c.tag && CapF.inBounds c ea n && CapF.holds c p)) && ea % align == 0) = true) :
    CheckPasses s c ea n p align := by
  unfold CheckPasses
  simpa [Bool.and_assoc, and_assoc] using h

/-- A copy of core 32 with transfer identifier 7 and promise 100. -/
def copy0 : Copy :=
  { id := 0
    core := 32
    xid := 7
    cid := 256
    handle := fir0.handle
    asid := 1
    src := capAt 0x2000 64
    dst := capAt 0x3000 64
    ring := capAt 0x4000 0x1000
    cnt := BitVec.ofNat 64 (64 * 2 ^ 32 + 2 ^ 16 + 1)
    str := 0
    mcast := 0
    ctl := 0
    promise := 100
    srcLo := 0x2000
    srcHi := 0x203F
    dstLo := 0x3000
    dstHi := 0x303F }
/-- A read stream of register v4 over eight registers at 0x2000. -/
def unit0 : SUnit :=
  { cid := 256
    v := 4
    tcap := capAt 0x2000 0x1000
    dims := [256, 1, 1, 1]
    strs := [4, 0, 0, 0]
    starts := [0, 0, 0, 0]
    lens := [256, 1, 1, 1]
    esz := 4
    write := false
    cv := false }
/-- Core 32 holds `k`. -/
def withCore (k : CoreSt) (s : State) : State := { s with cores := [(32, k)] }

/-- The span of `n` bytes at `a`, translated to itself. -/
def spanAt (a n : Nat) : Span := { va := a, pa := a, n := n, attr := 0x13F }

theorem accessible_of {s : State} {c : Cap} {ea n p align : Nat} {kind : BitVec 8} {write : Bool} {spans : List Span}
    (h : CheckPasses s c ea n p align) (hs : spansOf kind (lineParts ea (n / 64 + 2) n) s = .ok spans s)
    (hw : (spans.all fun sp => !sysSpace s sp.pa || isThread s.cur || CapF.holds c CapF.SYS) = true)
    (hl : lockHit s ea n write = false) : Accessible s c ea n p align kind write spans := by
  refine ⟨h, hs, ?_, hl⟩
  simp only [List.all_eq_true] at hw
  intro sp hsp hy
  have := hw sp hsp
  simp_all

theorem unbound_of {s : State} {u : Use} (h : ((u.rv ++ u.wv).all fun v => (unitOf s s.cur v).isNone) = true) : Unbound s u := by
  unfold Unbound
  simp only [List.all_eq_true, Option.isNone_iff_eq_none] at h
  exact h

/-- Context 0 of core 32 in checked execution; its partner on core 33 holds another g1. -/
def checked0 : State :=
  { core0 with
    ctxs := [(256, { ctx0 regs0 with fir := some { fir0 with paired := true } }),
      (264, { st := .parked, wait := .pair, g := [(1, int 6), (2, int 3)], chunks := some (8, 8) })]
    grp := { pairs := [{ prim := 256, part := 264, started := true }] } }

/-! ### A witness for each statement -/

theorem witness_IntegerHeadsWriteTheirResult :
    Issues core0 Rows.add (Use.ofRow Rows.add hd) ∧ Unbound core0 (Use.ofRow Rows.add hd) ∧
    (issueStop checked0 Rows.add (Use.ofRow Rows.add hd) = none ∧ (unconfirmed checked0 && endsInterval Rows.add) = false ∧
      Unbound checked0 (Use.ofRow Rows.add hd) ∧ partnerOf checked0 checked0.cur = some 264) ∧
    (opB (core [(2, int 0)]) hd = 0 ∧ exec (.seq hd) (core [(2, int 0)]) = .next (advance hd (Use.ofRow Rows.seq hd) .seq (withInt hd 1 (core [(2, int 0)])))) ∧
    exec (.nop {}) core0 = .next (advance {} {} .seq core0) ∧
    exec (.csel { hd with form := .T2, imm := 6 }) core0 =
      .next (advance { hd with form := .T2, imm := 6 } ((Use.ofRow Rows.csel { hd with form := .T2, imm := 6 }).andG [6]) .seq
        (withG hd (int 5) core0)) := by
  refine ⟨issues_of rfl, by unfold Unbound; decide, ⟨rfl, rfl, by unfold Unbound; decide, rfl⟩, ⟨rfl, rfl⟩, rfl, rfl⟩

/-- INS at p = 0 with all 64 bits: gD becomes gA. -/
theorem witness_BitAndFieldHeadsWriteTheirResult :
    let h : Head := { hd with form := .T2, b := 0, imm := 0xFC0 }
    Issues core0 Rows.ins (Use.ofRow Rows.ins h).readD ∧ h.im 5 0 + (h.im 11 6 + 1) ≤ 64 ∧
    exec (.ins h) core0 = .next (advance h (Use.ofRow Rows.ins h).readD .seq (withInt h 5 core0)) ∧
    exec (.clz hd) core0 = .next (advance hd (Use.ofRow Rows.clz hd) .seq (withInt hd 61 core0)) ∧
    exec (.ctz hd) core0 = .next (advance hd (Use.ofRow Rows.ctz hd) .seq (withInt hd 0 core0)) ∧
    exec (.brev hd) core0 = .next (advance hd (Use.ofRow Rows.brev hd) .seq (withInt hd 0xA000000000000000 core0)) ∧
    exec (.bswap hd) core0 = .next (advance hd (Use.ofRow Rows.bswap hd) .seq (withInt hd 0x0500000000000000 core0)) := by
  refine ⟨issues_of rfl, by decide +kernel, rfl, rfl, rfl, rfl, rfl⟩

/-- Division by zero gives all ones later. -/
theorem witness_DivisionsLeaveTheirResultOutstanding :
    isThread core0.cur = false ∧ hd.d ≠ 0 ∧
    exec (.div { hd with b := 9 }) core0 = .next (advance { hd with b := 9 } (Use.ofRow Rows.div { hd with b := 9 }) .seq
      (withLate 4 (-1) (divLatency true 5 0) core0)) ∧
    exec (.remu hd) core0 = .next (advance hd (Use.ofRow Rows.remu hd) .seq (withLate 4 2 (divLatency false 5 3) core0)) := by
  refine ⟨rfl, by decide +kernel, rfl, rfl⟩

theorem witness_CapabilitiesAreReadAndOnlyNarrowed :
    let h : Head := { d := 4, a := 3, b := 2 }
    Issues core0 Rows.cinc (Use.ofRow Rows.cinc h) ∧ (cincOf (gA core0 h) 3).tag = true ∧
    CapF.base (cincOf (gA core0 h) 3) = 0x2000 ∧ CapF.top (cincOf (gA core0 h) 3) = 0x3000 ∧
    exec (.cgetLen h) core0 = .next (advance h (Use.ofRow Rows.cgetLen h) .seq (withInt h 0x1000 core0)) ∧
    exec (.cgetPerm h) core0 = .next (advance h (Use.ofRow Rows.cgetPerm h) .seq (withInt h 127 core0)) := by
  refine ⟨issues_of rfl, by decide +kernel, by decide +kernel, by decide +kernel, rfl, rfl⟩

/-- CSETB to the whole length succeeds, one byte more traps, and so does an untagged operand. -/
theorem witness_BoundsAreSetAndChecked :
    let h : Head := { d := 4, a := 3, b := 2 }
    let full := core [(2, int 0x1000), (3, capAt 0x2000 0x1000)]
    let more := core [(2, int 0x1001), (3, capAt 0x2000 0x1000)]
    let none_ := core [(2, int 1), (3, int 0x2000)]
    let noPerm := core [(2, int 1), (3, CapF.make 0 0x2000 0x1000)]
    Issues full Rows.csetb (Use.ofRow Rows.csetb h) ∧
    (∃ d, csetbOf (gA full h) (setbLen full h) false = .ok d ∧
      exec (.csetb h) full = .next (advance h (Use.ofRow Rows.csetb h) .seq (withG h d full))) ∧
    ((gA more h).tag = true ∧ CapF.top (gA more h) < ((CapF.addr (gA more h) + setbLen more h : Nat) : Int) ∧
      exec (.csetb h) more = .next (trapAt more 0x07 0x2000 0)) ∧
    ((gA none_ h).tag = false ∧ exec (.csetb h) none_ = .next (trapAt none_ 0x06 0x2000 0)) ∧
    (CapF.inBounds (gA full h) 0x2000 0x1000 = true ∧ CapF.holds (gA full h) 0 = true ∧
      exec (.cchk h) full = .next (advance h (Use.ofRow Rows.cchk h) .seq full)) ∧
    (CapF.inBounds (gA more h) 0x2000 0x1001 = false ∧ exec (.cchk h) more = .next (trapAt more 0x07 0x2000 0)) ∧
    (CapF.holds (gA noPerm { h with form := .T2, imm := 1 }) 1 = false ∧
      exec (.cchk { h with form := .T2, imm := 1 }) noPerm = .next (trapAt noPerm 0x08 0x2000 0)) := by
  refine ⟨issues_of rfl, ⟨_, rfl, rfl⟩, ⟨rfl, by decide +kernel, rfl⟩, ⟨rfl, rfl⟩, ⟨by decide +kernel, by decide +kernel, rfl⟩, ⟨by decide +kernel, rfl⟩,
    ⟨by decide +kernel, rfl⟩⟩

/-- LOOP at 2, 1 and 0; a branch taken and not taken. -/
theorem witness_BranchesGoToTheirLine :
    let h : Head := { form := .T2, d := 1, imm := 0xFFFF }
    let at_ (v : W64) : State := core [(1, int v)]
    let u := (Use.ofRow Rows.loop h).readD
    Issues (at_ 2) Rows.loop u ∧
    (1 < (gD (at_ 2) h).val.toNat ∧ exec (.loop h) (at_ 2) = .next (advance h u (.go ⟨0xFC0, 1⟩) (withInt h 1 (at_ 2)))) ∧
    ((gD (at_ 1) h).val.toNat ≤ 1 ∧ exec (.loop h) (at_ 1) = .next (advance h u .seq (withInt h 0 (at_ 1)))) ∧
    exec (.loop h) (at_ 0) = .next (advance h u .seq (withInt h 0 (at_ 0))) ∧
    exec (.bz { form := .T2, a := 2, imm := 1 }) (at_ 1) =
      .next (advance { form := .T2, a := 2, imm := 1 } { rg := [2] } (.go ⟨0x1040, 1⟩) (at_ 1)) ∧
    exec (.bnz { form := .T2, a := 2, imm := 1 }) (at_ 1) =
      .next (advance { form := .T2, a := 2, imm := 1 } { rg := [2] } .seq (at_ 1)) := by
  refine ⟨issues_of rfl, ⟨by decide +kernel, rfl⟩, ⟨by decide +kernel, rfl⟩, rfl, rfl, rfl⟩

theorem witness_CallsLinkAndTransfersAreChecked :
    let h : Head := { d := 4, a := 3 }
    let good := core [(3, capAt 0x2000 64)]
    let bad := core [(3, int 0x2000)]
    CheckPasses good (gA good h) (baseAddr good (gA good h)) 64 CapF.EXE 64 ∧ Issues good Rows.callC (Use.ofRow Rows.callC h) ∧
    exec (.callC h) good = .next (advance h (Use.ofRow Rows.callC h) (.go ⟨0x2000, 1⟩) (withG h (linkCap good) good)) ∧
    exec (.ret { a := 3 }) good = .next (advance { a := 3 } (Use.ofRow Rows.ret { a := 3 }) (.go ⟨0x2000, 1⟩) good) ∧
    isThread bad.cur = false ∧ (gA bad h).tag = false ∧ Issues bad Rows.jmpC (Use.ofRow Rows.jmpC { a := 3 }) ∧
    exec (.jmpC { a := 3 }) bad = .next (trapAt bad 0x06 0x2000 0) ∧ CapF.addr (linkCap good) = 0x1040 ∧
    CapF.top (linkCap good) = 0x1080 := by
  refine ⟨passes_of rfl, issues_of rfl, rfl, rfl, rfl, rfl, issues_of rfl, rfl, rfl, rfl⟩

/-- The last eight bytes of the bounds pass; the next eight, a clear tag, a missing permission and a misaligned address do
not. -/
theorem witness_CheckRaisesTheFirstFailure :
    let c := capAt 0x2000 0x1000
    CheckPasses core0 c 0x2FF8 8 CapF.LD 8 ∧ check c 0x2FF8 8 CapF.LD 8 core0 = .ok () core0 ∧
    isThread core0.cur = false ∧
    check (int 0x2000) 0x2000 8 CapF.LD 8 core0 = .error (.trap 0x06 0x2000 0) core0 ∧
    CapF.inBounds c 0x3000 8 = false ∧ check c 0x3000 8 CapF.LD 8 core0 = .error (.trap 0x07 0x3000 0) core0 ∧
    CapF.holds (CapF.make 0 0x2000 0x1000) CapF.LD = false ∧
    check (CapF.make 0 0x2000 0x1000) 0x2000 8 CapF.LD 8 core0 = .error (.trap 0x08 0x2000 0) core0 ∧
    0x2FF4 % 8 ≠ 0 ∧ check c 0x2FF4 8 CapF.LD 8 core0 = .error (.trap 0x09 0x2FF4 0) core0 := by
  refine ⟨passes_of rfl, rfl, rfl, rfl, rfl, rfl, rfl, rfl, by decide +kernel, rfl⟩

theorem witness_EndHeadsRetireTheFiring :
    let h : Head := {}
    let w : Head := { d := 1 }
    let s := core [(1, int (BitVec.ofNat 64 (mkHandle 0 32 0 1)))]
    isThread s.cur = false ∧ (here s).pend = [] ∧ streamFailure s = none ∧ releaseReady s s.cur 3 = true ∧
    Issues s Rows.ende (Use.ofRow Rows.ende h).srcD ∧ exec (.ende h) s = .next (endFiring s.cur stFailed s) ∧
    Issues s Rows.endFiring (Use.ofRow Rows.endFiring w).srcD ∧ exec (.endFiring h) s = .next (endFiring s.cur stDone s) ∧
    w.d ≠ 0 ∧ handleDev ((gD s w).val.toNat % 2 ^ 37) = s.dev ∧ handleCore ((gD s w).val.toNat % 2 ^ 37) = coreNo s.cur ∧
    exec (.endFiring w) s = .next (endFiring s.cur stDone (wakeHandle (mkHandle 0 32 0 1) s)) ∧
    isThread thread0.cur = true ∧ Issues thread0 Rows.endFiring (Use.ofRow Rows.endFiring h).srcD ∧
    exec (.endFiring h) thread0 = .next (endRun thread0.cur thread0) ∧
    exec (.ende h) thread0 =
      .next (stopHandler thread0.cur 0x15 true (modRun thread0.cur (fun r => { r with count := r.count + 1 }) thread0)) := by
  refine ⟨rfl, rfl, rfl, rfl, issues_of rfl, rfl, issues_of rfl, rfl, by decide +kernel, rfl, rfl, rfl, rfl, issues_of rfl, rfl, rfl⟩

/-- The waits complete: granted, over, on time; at the boundary a = CYC = 0. -/
theorem witness_WaitsCompleteWhenTheirEventHasOccurred :
    let h : Head := { a := 1, b := 2 }
    let granted := run { ctx0 [(1, int 9), (2, int 7)] with granted := true, wait := .waitt 9 7 }
    let over_ := core [(1, int 9), (2, int 7)]
    let time := core []
    let open_ : State := { core [(2, int 7)] with cp := { copies := [copy0] } }
    let woken := run { ctx0 [] with fir := some { fir0 with wakes := 1 } }
    let ahead := withCore { units := [(0, some { unit0 with ahead := [(1, 0, none)] })] } core0
    let pushed := withCore { units := [(0, some { unit0 with write := true })] } core0
    (Issues granted Rows.waitt (Use.ofRow Rows.waitt h) ∧
      exec (.waitt h) granted = .next (advance h (Use.ofRow Rows.waitt h) .seq granted)) ∧
    (copyOf over_ (gB over_ h).val.toNat = none ∧ (gB over_ h).val.toNat ≠ 0 ∧
      exec (.waitt h) over_ = .next (advance h (Use.ofRow Rows.waitt h) .seq (acquire 5 over_))) ∧
    (copyOf time (gB time h).val.toNat = none ∧ (gB time h).val.toNat = 0 ∧ (opA time h).toNat ≤ time.cyc ∧
      exec (.waitt h) time = .next (advance h (Use.ofRow Rows.waitt h) .seq time)) ∧
    (copyOf open_ (gB open_ h).val.toNat = some copy0 ∧ open_.cyc < copy0.promise ∧ (opA open_ h).toNat ≤ open_.cyc ∧
      exec (.waitt h) open_ = .next (advance h (Use.ofRow Rows.waitt h) .seq open_)) ∧
    (Issues woken Rows.waiteMsg {} ∧ 0 < (firOf woken woken.cur).wakes ∧ exec (.waiteMsg {}) woken =
      .next (advance {} {} .seq (acquire 3 (modFir woken.cur (fun f => { f with wakes := f.wakes - 1 }) woken)))) ∧
    (Issues core0 Rows.waiteStr (Use.ofRow Rows.waiteStr { a := 4 }).nameV ∧ unitOf core0 256 4 = none ∧
      exec (.waiteStr { a := 4 }) core0 = .next (advance { a := 4 } (Use.ofRow Rows.waiteStr { a := 4 }).nameV .seq core0)) ∧
    ((∃ k u, unitOf ahead 256 4 = some (k, u) ∧ u.write = false ∧ u.ahead ≠ []) ∧
      exec (.waiteStr { a := 4 }) ahead = .next (advance { a := 4 } (Use.ofRow Rows.waiteStr { a := 4 }).nameV .seq ahead)) ∧
    ((∃ k u, unitOf pushed 256 4 = some (k, u) ∧ u.write = true ∧ u.out = [] ∧ u.slot = none) ∧
      exec (.waiteStr { a := 4 }) pushed = .next (advance { a := 4 } (Use.ofRow Rows.waiteStr { a := 4 }).nameV .seq pushed)) ∧
    (Issues over_ Rows.waiteRing (Use.ofRow Rows.waiteRing h) ∧ copyOf over_ (opA over_ h).toNat = none ∧
      exec (.waiteRing h) over_ = .next (advance h (Use.ofRow Rows.waiteRing h) .seq (acquire 5 over_))) ∧
    (Issues over_ Rows.waiteSlot (Use.ofRow Rows.waiteSlot h) ∧ (slotOf_ over_ ((opA over_ h).toNat % 128)).st ≠ .releasing ∧
      exec (.waiteSlot h) over_ = .next (advance h (Use.ofRow Rows.waiteSlot h) .seq over_)) := by
  refine ⟨⟨issues_of rfl, rfl⟩, ⟨rfl, by decide +kernel, rfl⟩, ⟨rfl, by decide +kernel, by decide +kernel, rfl⟩, ⟨rfl, by decide +kernel, by decide +kernel, rfl⟩,
    ⟨issues_of rfl, by decide +kernel, rfl⟩, ⟨issues_of rfl, rfl, rfl⟩, ⟨⟨_, _, rfl, rfl, by decide +kernel⟩, rfl⟩,
    ⟨⟨_, _, rfl, rfl, rfl, rfl⟩, rfl⟩, ⟨issues_of rfl, rfl, rfl⟩, ⟨issues_of rfl, by decide +kernel, rfl⟩⟩

/-- Memory bytes, low first, as a table. -/
def bytesAt (a n x : Nat) (s : State) : State := poke a n x s
/-- A valid actor record in memory at 0x2000: CODE over a line at 0x1000, one chunk. -/
def actorMem (s : State) : State :=
  let c := capAt 0x1000 64
  { bytesAt 0x2000 16 (c.w0.toNat + c.w1.toNat * 2 ^ 64) (bytesAt 0x203A 1 1 s) with
    ms := { (bytesAt 0x2000 16 (c.w0.toNat + c.w1.toNat * 2 ^ 64) (bytesAt 0x203A 1 1 s)).ms with ctag := [(0x200, true)] } }
/-- `n` firings queued. -/
def queued (n : Nat) (s : State) : State := withCore { fq := List.replicate n { fir := fir0, enq := 0 } } s

/-- FIRE with 55 firings queued finds room, with 56 none. -/
theorem witness_FireQueuesItsActor :
    let h : Head := { d := 4, a := 3, b := 2 }
    let room := queued 55 (actorMem core0)
    let full := queued 56 (actorMem core0)
    Issues room Rows.fire (Use.ofRow Rows.fire h) ∧ isThread room.cur = false ∧
    check (gA room h) (baseAddr room (gA room h)) 128 CapF.LD 128 room = .ok () room ∧
    (∃ r x, readGranules (gA room h) (baseAddr room (gA room h)) 8 room = .ok r x ∧
      (parseActor (actVer room 0) r.1 (r.2.getD 0 false) (r.2.getD 1 false) (r.2.getD 2 false)).isSome = true) ∧
    queuedPlain room (coreNo room.cur) < 56 ∧
    (∃ r x, readGranules (gA full h) (baseAddr full (gA full h)) 8 full = .ok r x ∧
      (parseActor (actVer full 0) r.1 (r.2.getD 0 false) (r.2.getD 1 false) (r.2.getD 2 false)).isSome = true) ∧
    56 ≤ queuedPlain full (coreNo full.cur) := by
  refine ⟨issues_of rfl, rfl, rfl, ok_of ?_, by decide +kernel, ok_of ?_, by decide +kernel⟩ <;> decide +kernel

/-- GROW to the eighth chunk, SHRINK to the least. -/
theorem witness_GrowAndShrinkMoveChunks :
    let h : Head := { imm := 1 }
    let s := run { ctx0 [] with fir := some { fir0 with cch := 7, vch := 7 } }
    let t := run { ctx0 [] with fir := some { fir0 with cch := 2, vch := 1 } }
    Issues s Rows.growC {} ∧ isThread s.cur = false ∧ h.im 3 0 ≠ 0 ∧ h.im 3 0 + cchOf s.cur (here s) ≤ 8 ∧
    h.im 3 0 + vchOf s.cur (here s) ≤ 8 ∧ (here s).granted = false ∧ poolsHold s s.cur false 1 = true ∧
    poolsHold s s.cur true 1 = true ∧ growNext s (coreNo s.cur) = none ∧
    exec (.growC h) s = .next (advance h {} .seq (addChunks s.cur false 1 s)) ∧
    exec (.growV h) s = .next (advance h {} .seq (addChunks s.cur true 1 s)) ∧
    Issues t Rows.shrinkC {} ∧ h.im 3 0 + 1 ≤ cchOf t.cur (here t) ∧ h.im 3 0 + 0 ≤ vchOf t.cur (here t) ∧ (here t).pend = [] ∧
    (∀ v, unitOf t t.cur v = none) ∧ exec (.shrinkC h) t = .next (advance h {} .seq (shrunk t.cur false 1 t)) ∧
    exec (.shrinkV h) t = .next (advance h {} .seq (shrunk t.cur true 1 t)) := by
  refine ⟨issues_of rfl, rfl, by decide +kernel, by decide +kernel, by decide +kernel, rfl, rfl, rfl, rfl, rfl, rfl, issues_of rfl, by decide +kernel, by decide +kernel,
    rfl, fun _ => rfl, rfl, rfl⟩

/-- A user's context whose actor has a TRAPE line. -/
def user0 : Ctx := { ctx0 [] with sup := false, fir := some { fir0 with actor := { trape := 0x3000 } } }

/-- A trap that TRAPE takes, and three that go to the supervisor: another cause, FL set, a message context. -/
theorem witness_TrapsSaveTheirFrameAndEnterTheHandler :
    let s := withCore { trapvec := capAt 0x8000 64 } (run user0)
    let fl := withCore { trapvec := capAt 0x8000 64 } (run { user0 with fl := true })
    (ctxOf s 256).sup = false ∧
    (toTrape 0x14 = true ∧ (ctxOf s 256).fl = false ∧ (firOf s 256).actor.trape ≠ 0 ∧
      exec (.trap { imm := 9 }) s = .next (trapAt s 0x14 0 9) ∧ (ctxOf (takeTrap 256 0x14 0 9 s) 256).pc = ⟨0x3000, 1⟩ ∧
      (ctxOf (takeTrap 256 0x14 0 9 s) 256).sup = false) ∧
    (toTrape 0x02 = false ∧ (coreOf s (coreNo 256)).trapvec.tag = true ∧ (ctxOf (takeTrap 256 0x02 0 9 s) 256).pc = ⟨0x8000, 1⟩ ∧
      (ctxOf (takeTrap 256 0x02 0 9 s) 256).sup = true ∧ (ctxOf (takeTrap 256 0x02 0 9 s) 256).trappc = 0x1001) ∧
    ((ctxOf fl 256).fl = true ∧ (ctxOf (takeTrap 256 0x14 0 9 fl) 256).pc = ⟨0x8000, 1⟩ ∧
      (ctxOf (takeTrap 256 0x14 0 9 fl) 256).trapcause.getLsbD 9 = true) := by
  refine ⟨rfl, ⟨rfl, rfl, by decide +kernel, rfl, rfl, rfl⟩, ⟨rfl, rfl, rfl, rfl, rfl⟩, rfl, rfl, rfl⟩

/-- A handler's frame for cause 0x13 and for a software trap at head 2 of a line of three heads. -/
def trapped (cause : W64) : State :=
  withCore { l1i := [(0x40, some { data := BitVec.ofNat 512 0x1800 })] }
    (run { ctx0 [(1, capAt 0x2000 64)] with fl := true, trappc := 0x1002, trapcause := cause })

theorem witness_EretRestoresTheFrame :
    let u (h : Head) : Use := (Use.ofRow Rows.eret h).srcD
    let s := trapped 0x13
    let t := trapped 0x14
    Issues s Rows.eret (u {}) ∧ (here s).fl = true ∧ bitsOf (here s).trapcause.toNat 7 0 ≠ 0x14 ∧
    exec (.eret {}) s = .next (advance {} (u {}) (.go ⟨0x1000, 2⟩) (returnFromTrap s.cur ⟨0x1000, 2⟩ s)) ∧
    bitsOf (here t).trapcause.toNat 7 0 = 0x14 ∧ (∃ v, afterTrap t t = .ok ⟨0x1000, 3⟩ v ∧
      exec (.eret {}) t = .next (advance {} (u {}) (.go ⟨0x1000, 3⟩) (returnFromTrap t.cur ⟨0x1000, 3⟩ v))) ∧
    Issues s Rows.eret (u { d := 1 }) ∧ CheckPasses s (gD s { d := 1 }) (baseAddr s (gD s { d := 1 })) 64 CapF.EXE 64 ∧
    exec (.eret { d := 1 }) s = .next (advance { d := 1 } (u { d := 1 }) (.go ⟨0x2000, 1⟩) (returnFromTrap s.cur ⟨0x2000, 1⟩ s)) ∧
    (here core0).fl = false ∧ exec (.eret {}) core0 = .next (trapAt core0 0x02 0 0x0A) := by
  refine ⟨issues_of rfl, rfl, by decide +kernel, rfl, rfl, ⟨_, rfl, rfl⟩, issues_of rfl, passes_of rfl, rfl, rfl, rfl⟩

/-- A store of core 32 to 0x2000. -/
def sb0 : SbEntry := { pa := 0x2000, n := 8, data := 0x1122334455667788, cid := 256, va := 0x2000 }

/-- An access across a line; a store that fills the buffer's last place; a load beside and inside a buffered store. -/
theorem witness_AccessesPassTheirChecksInOrder :
    let full := withCore { sb := List.replicate 31 sb0 } core0
    let one := withCore { sb := [sb0] } core0
    Accessible core0 (capAt 0x2000 0x1000) 0x203C 8 CapF.LD 4 kRead false [spanAt 0x203C 4, spanAt 0x2040 4] ∧
    access (capAt 0x2000 0x1000) 0x203C 8 CapF.LD 4 kRead false core0 = .ok [spanAt 0x203C 4, spanAt 0x2040 4] core0 ∧
    (isThread full.cur = false ∧ (here full).fir.any (·.paired) = false ∧ pushWaits full full.cur = false ∧
      (coreOf full (coreNo full.cur)).sb.length + [spanAt 0x2000 8].length ≤ 32) ∧
    ((∀ e ∈ bufferOf one one.cur, overlaps 0x2008 8 e.pa e.n = false) ∧ remoteDirect one 0x13F 0x2008 = none ∧
      loadPiece (spanAt 0x2008 8) one = .ok { pa := 0x2008, n := 8, viaL1 := true } one) ∧
    ((bufferOf one one.cur).getLast? = some sb0 ∧ sb0.pa ≤ 0x2004 ∧ 0x2004 + 4 ≤ sb0.pa + sb0.n ∧
      loadPiece (spanAt 0x2004 4) one = .ok { pa := 0x2004, n := 4, known := some 0x11223344 } one) := by
  refine ⟨accessible_of (passes_of rfl) rfl rfl rfl, rfl, ⟨rfl, rfl, rfl, by decide +kernel⟩,
    ⟨by decide +kernel, by decide +kernel, rfl⟩, ⟨rfl, by decide +kernel, by decide +kernel, rfl⟩⟩

theorem witness_TranslationsComeFromTheTlbOrAWalk :
    isThread core0.cur = false ∧
    (core0.tr.tlb.find? fun e => tlbHit e (tlbUnit core0.cur) (here core0).asid.toNat (2 ^ 30 - 1) kRead (!(here core0).sup)) =
      some { unit := 2, asid := 1, va := 0, size := 2 ^ 30, pa := 0, attr := 0x13F } ∧
    translate (2 ^ 30 - 1) kRead core0 = .ok (2 ^ 30 - 1, 0x13F) core0 ∧
    isThread thread0.cur = true ∧ translate 0x2000 kRead thread0 = .ok (0x2000, 3 * 2 ^ 62) thread0 ∧
    (here core0).granted = false ∧
    (∀ e ∈ core0.tr.tlb, tlbHit e (tlbUnit core0.cur) (here core0).asid.toNat (2 ^ 30 + 2 ^ 22) kRead (!(here core0).sup) = false) ∧
    (∃ t, translate (2 ^ 30 + 2 ^ 22) kRead core0 = .error (.wait (.walk ((2 ^ 30 + 2 ^ 22) / 4096))) t ∧ t.tr.walks.length = 1) ∧
    tlbHit { unit := 2, asid := 1, va := 0, size := 2 ^ 30, pa := 0, attr := 0x13F } 2 1 0 kWrite true = true := by
  refine ⟨rfl, by decide +kernel, rfl, rfl, rfl, rfl, by decide +kernel, ⟨_, rfl, rfl⟩, by decide +kernel⟩

/-- The last eight bytes of a capability, sixteen bytes with a tag, and an acquiring load. -/
theorem witness_LoadsIssueTheirReads :
    let h : Head := { form := .T2, d := 4, a := 3, f := 3, imm := 0xFF8 }
    let c : Head := { form := .T2, d := 4, a := 3, imm := 0xFF0 }
    let q : Head := { form := .T2, d := 4, a := 3, b := 3, f := 3, imm := 0xFF8 }
    let p : Piece := { pa := 0x2FF8, n := 8, viaL1 := true }
    Issues core0 Rows.ld (Use.ofRow Rows.ld h) ∧
    Accessible core0 (gA core0 h) (effAddr core0 h) (ldBytes h.f) CapF.LD (ldBytes h.f) kRead false [spanAt 0x2FF8 8] ∧
    loadPieces [spanAt 0x2FF8 8] core0 = .ok [p] core0 ∧
    exec (.ld h) core0 = .next (advance h (Use.ofRow Rows.ld h) .seq
      (sendReads 0 [p] (withPend (.g 4) [p] (.int 8 false) 0 core0))) ∧
    Issues core0 Rows.ldc (Use.ofRow Rows.ldc c) ∧
    Accessible core0 (gA core0 c) (effAddr core0 c) 16 CapF.LD 16 kRead false [spanAt 0x2FF0 16] ∧
    exec (.ldc c) core0 = .next (advance c (Use.ofRow Rows.ldc c) .seq
      (sendReads 0 [{ pa := 0x2FF0, n := 16, viaL1 := true }]
        (withPend (.g 4) [{ pa := 0x2FF0, n := 16, viaL1 := true }] (.cap true) 0 core0))) ∧
    Issues core0 Rows.ldaq (Use.ofRow Rows.ldaq q) ∧
    Accessible core0 (gA core0 q) (effAddr core0 q) (ldBytes q.f) CapF.LD (ldBytes q.f) kRead false [spanAt 0x2FF8 8] ∧
    (∃ ps t, ([spanAt 0x2FF8 8].mapM fun sp => readHome sp q.b.toNat) core0 = .ok ps t ∧ (ps.length == 1) = true) := by
  refine ⟨issues_of rfl, accessible_of (passes_of rfl) rfl rfl rfl, rfl, rfl, issues_of rfl,
    accessible_of (passes_of rfl) rfl rfl rfl, rfl, issues_of rfl, accessible_of (passes_of rfl) rfl rfl rfl, ok_of ?_⟩
  decide +kernel

theorem witness_StoresEnterTheStoreBuffer :
    let h : Head := { form := .T2, d := 1, a := 3, f := 3, imm := 0xFF8 }
    let c : Head := { form := .T2, d := 3, a := 3, imm := 0xFF0 }
    let r : Head := { form := .T2, d := 1, a := 3, b := 3, f := 3, imm := 0xFF8 }
    let e : SbEntry := { pa := 0x2FF8, n := 8, data := 5, cid := 256, va := 0x2FF8, home := homeOf core0 0x13F (dieOfCore 32) 0x2FF8 }
    Issues core0 Rows.st (Use.ofRow Rows.st h).srcD ∧
    Accessible core0 (gA core0 h) (effAddr core0 h) (ldBytes h.f) CapF.ST (ldBytes h.f) kWrite true [spanAt 0x2FF8 8] ∧
    issueStore [spanAt 0x2FF8 8] ((gD core0 h).val.toNat % 2 ^ (8 * ldBytes h.f)) false core0 = .ok () (withCore { sb := [e] } core0) ∧
    exec (.st h) core0 = .next (advance h (Use.ofRow Rows.st h).srcD .seq (withCore { sb := [e] } core0)) ∧
    Issues core0 Rows.stc (Use.ofRow Rows.stc c).srcD ∧ CheckPasses core0 (gA core0 c) (effAddr core0 c) 16 CapF.ST 16 ∧
    (gD core0 c).tag = true ∧ CapF.holds (gA core0 c) CapF.STC = true ∧
    translate (effAddr core0 c) kCapStore core0 = .ok (0x2FF0, 0x13F) core0 ∧
    stcCheck (gA core0 c) (gD core0 c) (effAddr core0 c) 0x2FF0 core0 = .ok () core0 ∧
    lockHit core0 (effAddr core0 c) 16 true = false ∧
    (∃ u t, issueStore [spanAt 0x2FF0 16] ((gD core0 c).w0.toNat + (gD core0 c).w1.toNat * 2 ^ 64) true core0 = .ok u t ∧
      (coreOf t 32).sb.length == 1) ∧
    Issues core0 Rows.strl (Use.ofRow Rows.strl r).srcD ∧
    Accessible core0 (gA core0 r) (effAddr core0 r) (ldBytes r.f) CapF.ST (ldBytes r.f) kWrite true [spanAt 0x2FF8 8] ∧
    releaseReady (releaseBegin 3 core0) (releaseBegin 3 core0).cur 3 = true ∧
    (∃ u t, issueStore [spanAt 0x2FF8 8] 5 false (releaseBegin 3 core0) = .ok u t ∧ (coreOf t 32).sb.length == 1) := by
  refine ⟨issues_of rfl, accessible_of (passes_of rfl) rfl rfl rfl, rfl, rfl, issues_of rfl, passes_of rfl, rfl, rfl, rfl, rfl, rfl,
    ok_of ?_, issues_of rfl, accessible_of (passes_of rfl) rfl rfl rfl, rfl, ok_of ?_⟩ <;> decide +kernel

/-- Fences at core scope, at device scope and at domain scope. -/
theorem witness_FencesOrderAccesses :
    let f (k : BitVec 6) : Head := { d := k }
    (here core0).pend = [] ∧
    (Issues core0 Rows.fenceAcq {} ∧ exec (.fenceAcq (f 3)) core0 = .next (advance (f 3) {} .seq (acquire 3 core0))) ∧
    ((f 0).d.toNat = 0 ∧ (f 3).d.toNat = 3 ∧ replicaWork core0 core0.cur = false ∧
      (stripOf core0 (stripNo (coreNo core0.cur))).sauWait = [] ∧
      exec (.fenceRel (f 0)) core0 = .next (advance (f 0) {} .seq core0) ∧
      exec (.fenceRel (f 3)) core0 = .next (advance (f 3) {} .seq (modHere (fun x => { x with ep := x.ep + 1 }) core0)) ∧
      exec (.fenceAr (f 3)) core0 =
        .next (advance (f 3) {} .seq (acquire 3 (modHere (fun x => { x with ep := x.ep + 1 }) core0)))) ∧
    (4 ≤ (f 4).d.toNat ∧ releaseReady (releaseBegin 4 core0) (releaseBegin 4 core0).cur 4 = true ∧
      exec (.fenceRel (f 4)) core0 = .next (advance (f 4) {} .seq (releaseBegin 4 core0)) ∧
      exec (.fenceAr (f 4)) core0 = .next (advance (f 4) {} .seq (acquire 4 (releaseBegin 4 core0)))) ∧
    (ownCopies core0 = false ∧ exec (.fenceFull (f 3)) core0 =
      .next (advance (f 3) {} .seq (dropL1i 32 (acquire 3 (releaseBegin 3 core0))))) := by
  refine ⟨rfl, ⟨issues_of rfl, rfl⟩, ⟨rfl, rfl, rfl, rfl, rfl, rfl, rfl⟩, ⟨by decide +kernel, rfl, rfl, rfl⟩, rfl, rfl⟩

/-- A move of no bytes, a FILL to the end of a line and beyond, and a MOVB of eight bytes. -/
theorem witness_MovesStoreOneLineAtATime :
    let h : Head := { d := 7, a := 3, b := 6 }
    let g := regs0 ++ [(7, capAt 0x2838 0x100)]
    let none_ := core (SMap.erase g 6)
    let s := core g
    let more := core [(3, int 0xAB), (6, int 9), (7, capAt 0x2838 0x100)]
    ((gB none_ h).val.toNat = 0 ∧ Issues none_ Rows.movb (Use.moving h) ∧
      exec (.movb h) none_ = .next (advance h (Use.moving h) .seq none_)) ∧
    ((gB more h).val.toNat = 9 ∧ Nat.min 9 (64 - baseAddr more (gD more h) % 64) = 8 ∧
      CheckPasses more (gD more h) 0x2838 8 CapF.ST 1 ∧ spansOf kWrite (lineParts 0x2838 2 8) more = .ok [spanAt 0x2838 8] more ∧
      sysSpace more 0x2838 = false ∧ lockHit more 0x2838 8 true = false ∧ Issues more Rows.fill (Use.moving h) ∧
      (∃ u t, issueStore [spanAt 0x2838 8] (fillBytes (gA more h).val 0x2838 8) false more = .ok u t ∧
        ((coreOf t 32).sb.map (·.data) == [0xAB]) = true)) ∧
    ((gB s h).val.toNat = 8 ∧ CheckPasses s (gD s h) 0x2838 8 CapF.ST 1 ∧ CheckPasses s (gA s h) 0x2000 8 CapF.LD 1 ∧
      spansOf kRead (lineParts 0x2000 3 8) s = .ok [spanAt 0x2000 8] s ∧
      spansOf kWrite (lineParts 0x2838 2 8) s = .ok [spanAt 0x2838 8] s ∧ sysSpace s 0x2000 = false ∧
      lockHit s 0x2838 8 true = false ∧ lockHit s 0x2000 8 false = false ∧ Issues s Rows.movb (Use.moving h) ∧
      (∃ x t, readSpans [spanAt 0x2000 8] s = .ok x t ∧ endsOk (moveOverlap 0x2000 0x2838 8 8 x t) (fun y u =>
        endsOk (issueStore [spanAt 0x2838 8] y false u) fun _ _ => true) = true)) := by
  refine ⟨⟨rfl, issues_of rfl, rfl⟩, ⟨rfl, rfl, passes_of rfl, rfl, rfl, rfl, issues_of rfl, ok_of ?_⟩,
    ⟨rfl, passes_of rfl, passes_of rfl, rfl, rfl, rfl, rfl, rfl, issues_of rfl, ok_of ?_⟩⟩ <;> decide +kernel

theorem witness_PinAndCacheHeadsActOnTheirLines :
    let h : Head := { form := .T2, a := 3, imm := 64 }
    let b : Head := { form := .T2, a := 3, imm := 2 }
    Issues core0 Rows.ipinL1i (Use.ofRow Rows.ipinL1i h) ∧
    CheckPasses core0 (gA core0 h) (baseAddr core0 (gA core0 h)) (64 * h.im 15 0) CapF.EXE 1 ∧
    Issues core0 Rows.ipinL2 (Use.ofRow Rows.ipinL2 b) ∧ Issues core0 Rows.cacheWb (Use.ofRow Rows.cacheWb b) ∧
    CheckPasses core0 (gA core0 b) (baseAddr core0 (gA core0 b)) (64 * b.im 15 0) CapF.LD 1 ∧
    (∃ ls t, checkedLines kExec (linesOf 0x2000 2) core0 = .ok ls t ∧ (ls == [(0x2000, 0x13F), (0x2040, 0x13F)]) = true) ∧
    (∃ ls t, checkedLines kRead (linesOf 0x2000 2) core0 = .ok ls t ∧ (ls == [(0x2000, 0x13F), (0x2040, 0x13F)] &&
      ls.all fun l => (coreOf t 32).sb.all fun e => !overlaps l.1 64 e.pa e.n) = true) := by
  refine ⟨issues_of rfl, passes_of rfl, issues_of rfl, issues_of rfl, passes_of rfl, ok_of ?_, ok_of ?_⟩ <;> decide +kernel

/-- A physical address of device 1 (R48), its route, and a translation of it at 2^31. -/
def far0 : Nat := 2 ^ 55 + 2 ^ 41 + 0x2000
def withFar (s : State) : State :=
  { s with
    fab := { s.fab with routes := [(1, 0x81FFFC00)] }
    tr := { s.tr with tlb := s.tr.tlb ++ [{ unit := 2, asid := 1, va := 2 ^ 31, size := 0x10000, pa := 2 ^ 55 + 2 ^ 41, attr := 0x13F }] } }
def isVal (o : Old) : Bool :=
  match o with
  | .val _ => true
  | .bad _ => false

/-- AADD at core, strip and device scope and on another device; ACAS; an atomic of a Prism thread; the signed extremes of
AMAX. -/
theorem witness_AtomicsReadAndWriteTheirHome :
    let h (scope : Nat) : Head := { form := .T2, d := 4, a := 3, b := 2, imm := BitVec.ofNat 48 scope }
    let a : Rmw := ⟨0, false, 8, 3, 0, 0x2000⟩
    let far := withFar (core [(2, int 3), (3, capAt (2 ^ 31 + 0x2000) 8)])
    (∀ k ∈ [0, 1, 3], Issues core0 Rows.aadd (Use.ofRow Rows.aadd (h k)) ∧
      CheckPasses core0 (gA core0 (h k)) (baseAddr core0 (gA core0 (h k))) 8 (CapF.LD + CapF.ST) 8 ∧
      atomicAddr 0x2000 8 (kRead ||| kWrite) core0 = .ok (0x2000, 0x13F) core0) ∧
    (placeOf core0 0x13F 0x2000 0 = .l1 0x2000 ∧ ∃ o t, rmwL1 a 0x13F 0x2000 false core0 = .ok o t ∧ isVal o = true) ∧
    (placeOf core0 0x13F 0x2000 3 = .home 0x2000 ∧ ∃ o t, rmwHome a 0x13F 0x2000 core0 = .ok o t ∧ isVal o = true) ∧
    (placeOf core0 0x13F 0x2000 1 = .sau 0x2000 ∧ ∃ o t, rmwSau a 0x13F 0x2000 (here core0).nextPend core0 = .ok o t ∧ isVal o = true) ∧
    (CheckPasses far (gA far (h 4)) (2 ^ 31 + 0x2000) 8 (CapF.LD + CapF.ST) 8 ∧
      atomicAddr (2 ^ 31 + 0x2000) 8 (kRead ||| kWrite) far = .ok (far0, 0x13F) far ∧
      placeOf far 0x13F far0 4 = .packet 1 0x2000 ∧ routable far 1 = true) ∧
    Issues core0 Rows.acas (Use.ofRow Rows.acas (h 3)).readD ∧
    (isThread thread0.cur = true ∧ readPending (here thread0) 0x48000 8 = false ∧ homeGate thread0 thread0.cur 0x48000 2 = .go ∧
      poisonAt thread0 0x48000 4 = false ∧ hmode (3 * 2 ^ 62) ≠ 2 ∧ thread0.ms.susp = []) ∧
    amoNew 5 4 0x80000000 0x7FFFFFFF = 0x7FFFFFFF ∧ amoNew 4 4 0x80000000 0x7FFFFFFF = 0x80000000 ∧
    amoNew 0 4 0xFFFFFFFF 1 % 2 ^ 32 = 0 := by
  refine ⟨?_, ⟨rfl, ok_of ?_⟩, ⟨rfl, ok_of ?_⟩, ⟨rfl, ok_of ?_⟩, ⟨passes_of rfl, rfl, rfl, rfl⟩, issues_of rfl, ?_, ?_⟩
  · simp only [List.mem_cons, List.not_mem_nil, or_false, forall_eq_or_imp, forall_eq]
    exact ⟨⟨issues_of rfl, passes_of rfl, rfl⟩, ⟨issues_of rfl, passes_of rfl, rfl⟩, ⟨issues_of rfl, passes_of rfl, rfl⟩⟩
  all_goals decide +kernel

/-- A reduction at domain scope on HBM, and at core, strip and device scope. -/
theorem witness_ReductionsHaveNoResult :
    let h (scope : Nat) : Head := { form := .T2, a := 3, b := 2, imm := BitVec.ofNat 48 scope }
    let a : Rmw := ⟨0, false, 8, 3, 0, 0x2000⟩
    (∀ k ∈ [0, 1, 3, 4], Issues core0 Rows.redadd (Use.ofRow Rows.redadd (h k)) ∧
      CheckPasses core0 (gA core0 (h k)) (baseAddr core0 (gA core0 (h k))) 8 CapF.ST 8 ∧
      atomicAddr 0x2000 8 kWrite core0 = .ok (0x2000, 0x13F) core0) ∧
    spaceOf core0 0x2000 = .hbm ∧
    exec (.redadd (h 4)) core0 = .next (advance (h 4) (Use.ofRow Rows.redadd (h 4)) .seq (redDomain a 0x2000 core0)) ∧
    (∃ o t, rmwL1 a 0x13F 0x2000 false core0 = .ok o t ∧ isVal o = true) ∧
    (∃ o t, rmwHome a 0x13F 0x2000 core0 = .ok o t ∧ isVal o = true) ∧
    (∃ o t, rmwSau a 0x13F 0x2000 syncRead core0 = .ok o t ∧ isVal o = true) := by
  refine ⟨?_, rfl, rfl, ok_of ?_, ok_of ?_, ok_of ?_⟩
  · simp only [List.mem_cons, List.not_mem_nil, or_false, forall_eq_or_imp, forall_eq]
    exact ⟨⟨issues_of rfl, passes_of rfl, rfl⟩, ⟨issues_of rfl, passes_of rfl, rfl⟩, ⟨issues_of rfl, passes_of rfl, rfl⟩,
      ⟨issues_of rfl, passes_of rfl, rfl⟩⟩
  all_goals decide +kernel

/-- A full and an empty word of the scratchpad of core 32. -/
def spad0 : Nat := windowOf 32 + 0x100
def fullWord : State := setFull spad0 true (poke spad0 4 77 core0)

theorem witness_FullEmptyHeadsActOnTheBit :
    let h : Head := { form := .T2, d := 4, a := 5, imm := 1 }
    let ready (s : State) : Prop := atomicReady spad0 4 s = .ok () s ∧ accessStatus s s.cur spad0 = 0
    (here fullWord).granted = false ∧ ready fullWord ∧ ready (releaseBegin 1 core0) ∧ fullBit fullWord spad0 = true ∧ fullBit core0 spad0 = false ∧
    releaseReady (releaseBegin 1 core0) (releaseBegin 1 core0).cur 1 = true ∧
    Issues fullWord Rows.take (Use.ofRow Rows.take h) ∧
    feWord h (CapF.LD + CapF.ST) (kRead ||| kWrite) fullWord = .ok spad0 fullWord ∧
    feWord h CapF.LD kRead fullWord = .ok spad0 fullWord ∧
    exec (.take h) fullWord = .next (advance h (Use.ofRow Rows.take h) .seq
      (withLate 4 77 0 (acquire 1 (feServe spad0 16 (setFull spad0 false fullWord))))) ∧
    exec (.peek h) fullWord = .next (advance h (Use.ofRow Rows.peek h) .seq (withLate 4 77 0 (acquire 1 fullWord))) ∧
    exec (.trytake h) core0 = .next (advance h (Use.ofRow Rows.trytake h) .seq (withLate 4 0 0 core0)) ∧
    Issues core0 Rows.put (Use.ofRow Rows.put { h with d := 1 }).srcD ∧
    feWord { h with d := 1 } CapF.ST kWrite core0 = .ok spad0 core0 ∧
    exec (.put { h with d := 1 }) core0 = .next (advance { h with d := 1 } (Use.ofRow Rows.put { h with d := 1 }).srcD .seq
      (feServe spad0 16 (setFull spad0 true (memWrite spad0 4 5 false none (releaseBegin 1 core0))))) := by
  refine ⟨rfl, ⟨rfl, rfl⟩, ⟨rfl, rfl⟩, rfl, rfl, rfl, issues_of rfl, ok_eq ?_, ok_eq ?_, next_eq ?_, next_eq ?_, next_eq ?_,
    issues_of rfl, ok_eq ?_, next_eq ?_⟩ <;> decide +kernel

/-- A sweep of `n` identifiers over core 32, with a gang flag. -/
def sweep0 (n : Nat) (gv : Bool) : Sweep :=
  { id := 0
    serial := 1
    fn := 0
    queue := 0
    asid := 1
    header := [BitVec.ofNat 64 (7 * 2 ^ 7 + 6 * 2 ^ 45 + (if gv then 2 ^ 51 else 0)), BitVec.ofNat 64 n, BitVec.ofNat 64 (32 + 2 ^ 16), 0, 0, 0, 0, 0]
    arg := 0
    shapes := [] }
/-- The firing belongs to it, has arrived at level 0 as `open_` says, and waits as `wait` says. -/
def swept (n : Nat) (gv : Bool) (x : Ctx) : State :=
  { run { x with fir := some { (x.fir.getD {}) with path := .sweep 0 } } with fe := { sweeps := [sweep0 n gv] } }
/-- A firing whose BARIN of a level is open at an episode. -/
def barin (lv k : Nat) : Ctx := { ctx0 [] with fir := some { fir0 with openBarin := [(lv, k)] } }
/-- Entry 3 of the domain barriers: enabled, state 0, epoch 5, one of two arrivals. -/
def dom0 (epoch : Nat) : W64 := BitVec.ofNat 64 (2 ^ 63 + epoch * 2 ^ 41 + 2 * 2 ^ 25 + 2 ^ 9)
def withDom (e : W64) (s : State) : State := { s with fab := { s.fab with dombar := [(3, e)] } }

/-- Outside a sweep; the only identifier of a sweep, and one of two; an open BARIN; a domain barrier of an enabled entry, of
a passed epoch and of a disabled one; gangs. -/
theorem witness_BarriersCountTheirArrivals :
    let b : Head := {}
    let d : Head := { a := 1, b := 1, d := 4 }
    let one := swept 1 false (ctx0 [])
    let two := swept 2 false (ctx0 [])
    let entry := withDom (dom0 5) (core [(1, int 3)])
    let passed := withDom (dom0 6) (run { ctx0 [(1, int 3)] with wait := .domBarrier 3 5, granted := true })
    let split := withDom (dom0 6) (run { barin 67 6 with g := [(1, int 3)] })
    let gang := swept 1 true (ctx0 [])
    let others := { gang with strips := [(2, { gang := (List.range 15).map fun i => (i + 1, 8 * (33 + i)) })] }
    let maxes := { gang with strips := [(2, { barmax := (List.range 15).map fun i => (i + 1, 8 * (33 + i), BitVec.ofNat 64 i) })] }
    b.b ≠ 1 ∧
    (sweepOf core0 (firOf core0 core0.cur) = none ∧ Issues core0 Rows.bar (Use.ofRow Rows.bar b) ∧
      exec (.bar b) core0 = .next (advance b (Use.ofRow Rows.bar b) .seq core0)) ∧
    (let s := run (barin 0 1);
      SMap.get 0 (firOf s s.cur).openBarin 0 ≠ 0 ∧ Issues s Rows.barwt (Use.ofRow Rows.barwt b) ∧
      exec (.barwt b) s = .next (advance b (Use.ofRow Rows.barwt b) .seq
        (modFir s.cur (fun f => { f with openBarin := SMap.set 0 f.openBarin 0 0 }) s))) ∧
    (sweepOf one (firOf one one.cur) = some (sweep0 1 false) ∧ (here one).granted = false ∧
      releaseReady (releaseBegin 0 one) (releaseBegin 0 one).cur 0 = true ∧
      let s1 := modFir one.cur (fun f => { f with arrivals := [(0, 1)] }) (releaseBegin 0 one);
      let arrived := arriveBar (sweep0 1 false) 0 1 (firOf s1 s1.cur) s1;
      barDone arrived (sweep0 1 false) 0 1 (firOf arrived arrived.cur) = true ∧
      exec (.bar b) one = .next (advance b (Use.ofRow Rows.bar b) .seq (acquire 0 arrived))) ∧
    (let s1 := modFir two.cur (fun f => { f with arrivals := [(0, 1)] }) (releaseBegin 0 two);
      let arrived := arriveBar (sweep0 2 false) 0 1 (firOf s1 s1.cur) s1;
      barDone arrived (sweep0 2 false) 0 1 (firOf arrived arrived.cur) = false ∧
      exec (.bar b) two = .next (beginWait two.cur (.barrier 0 1) arrived)) ∧
    (let s := { swept 1 false (barin 0 1) with grp := { episodes := [{ sweep := 0, level := 0, group := 0, k := 1, complete := true }] } };
      sweepOf s (firOf s s.cur) = some (sweep0 1 false) ∧ barDone s (sweep0 1 false) 0 1 (firOf s s.cur) = true ∧
      Issues s Rows.barwt (Use.ofRow Rows.barwt b)) ∧
    (SMap.get 0 (firOf one one.cur).openBarin 0 = 0 ∧ exec (.barwt b) one = .next (trapAt one 0x02 0 0x0A)) ∧
    (d.b = 1 ∧ (domEntry entry ((opA entry d).toNat % 64)).getLsbD 63 = true ∧
      releaseReady (releaseBegin 4 entry) (releaseBegin 4 entry).cur 4 = true ∧ domState (domEntry (releaseBegin 4 entry) 3) ≠ 2 ∧
      (here entry).wait = .none ∧ Issues entry Rows.bar (Use.ofRow Rows.bar d) ∧
      exec (.bar d) entry = .next (beginWait entry.cur (.domBarrier 3 5)
        (setDom 3 (domWith (dom0 5) 1 5 2) (releaseBegin 4 entry)))) ∧
    ((here passed).wait = .domBarrier 3 5 ∧ domEpoch (domEntry passed 3) ≠ 5 ∧ Issues passed Rows.bar (Use.ofRow Rows.bar d) ∧
      exec (.bar d) passed = .next (advance d (Use.ofRow Rows.bar d) .seq (acquire 4 passed))) ∧
    (SMap.get 0 (firOf split split.cur).openBarin 67 = 6 ∧ domEpoch (domEntry split 3) ≠ 6 - 1 ∧
      Issues split Rows.barwt (Use.ofRow Rows.barwt d)) ∧
    ((domEntry (core [(1, int 3)]) 3).getLsbD 63 = false ∧
      exec (.bar d) (core [(1, int 3)]) = .next (trapAt (core [(1, int 3)]) 0x02 0 0x0A)) ∧
    (gangFiring one = false ∧ exec (.gang b) one = .next (trapAt one 0x02 0 0x02)) ∧
    (gangFiring gang = true ∧ (here gang).granted = false ∧ releaseReady (releaseBegin 1 gang) (releaseBegin 1 gang).cur 1 = true ∧
      Issues gang Rows.gang {} ∧ exec (.gang b) gang =
        .next (beginWait gang.cur .gang (modStrip 2 (fun t => { t with gang := [(0, 256)] }) (gangOpen 2 (releaseBegin 1 gang))))) ∧
    ((stripOf (modStrip 2 (fun t => { t with gang := t.gang ++ [(0, 256)] }) others) 2).gang.length = 16 ∧
      gangFiring others = true ∧ Issues others Rows.gang {} ∧ Issues maxes Rows.barmax (Use.ofRow Rows.barmax d) ∧
      (stripOf maxes 2).barmax.length + 1 = 16) ∧
    (let s := swept 1 true { ctx0 [] with granted := true, wait := .gang };
      gangFiring s = true ∧ (here s).granted = true ∧ (here s).wait = .gang ∧ Issues s Rows.gang {} ∧
      exec (.gang b) s = .next (advance b {} .seq
        (modFir s.cur (fun f => { f with gangPassed := true, mmaOrd := 0 }) (acquire 1 s)))) := by
  refine ⟨by decide, ⟨rfl, issues_of rfl, rfl⟩, ⟨by decide +kernel, issues_of rfl, rfl⟩, ⟨rfl, rfl, rfl, rfl, rfl⟩, ⟨rfl, rfl⟩,
    ⟨rfl, rfl, issues_of rfl⟩, ⟨rfl, rfl⟩, ⟨rfl, rfl, rfl, by decide +kernel, rfl, issues_of rfl, rfl⟩,
    ⟨rfl, by decide +kernel, issues_of rfl, rfl⟩, ⟨rfl, by decide +kernel, issues_of rfl⟩, ⟨rfl, rfl⟩, ⟨rfl, rfl⟩,
    ⟨rfl, rfl, rfl, issues_of rfl, rfl⟩, ⟨rfl, rfl, issues_of rfl, issues_of rfl, rfl⟩, rfl, rfl, rfl, issues_of rfl, rfl⟩

/-- A firing of FIFO binding 0 whose output 0 names FIFO 1 of core 33 and input 0 FIFO 2. -/
def fifoFir : Firing :=
  { fir0 with
    path := .fifo 0
    actor := { ins := [BitVec.ofNat 64 (2 ^ 63 + 2 * 2 ^ 58 + 2 ^ 30)], outs := [BitVec.ofNat 64 (2 ^ 63 + 2 ^ 58 + 33 * 2 ^ 46)] } }

/-- A message to the firing itself; a neighbour write to the east; PUSH of one entry with one credit; CONSUME of the one
entry that stands in FIFO 2. -/
theorem witness_MessageHeadsPostTheirMessage :
    let me : W64 := BitVec.ofNat 64 (mkHandle 0 32 0 1)
    let east : W64 := BitVec.ofNat 64 (mkHandle 0 64 0 1)
    let h : Head := { form := .T2, d := 1, a := 3, b := 6, imm := 8 }
    let s := core [(1, int 5), (3, capAt 0x2000 64), (6, int me)]
    let n : Head := { form := .T2, d := 1, a := 2, b := 6, imm := 1 }
    let p : Head := { d := 0, a := 3, b := 6 }
    let c : Head := { form := .T2, d := 0, imm := 1 }
    let fifo := withCore { cred := [(0, 1)], fifo := [(2, fifoWith 0 1 0 1)] } (run { ctx0 regs0 with fir := some fifoFir })
    let uS : Use := { rg := [3, 6] ++ (List.range 8).map fun k => 1 + k }
    (h.im 4 4 = 0 ∧ Issues s Rows.sendR uS ∧ CheckPasses s (gA s h) (CapF.addr (gA s h)) 64 CapF.EXE 64 ∧
      sendTarget h 2 s = .ok (.core 32, me) s ∧ outboundHeld s 32 < 16 ∧
      releaseReady (releaseBegin 3 s) (releaseBegin 3 s).cur 3 = true) ∧
    (let t := core [(2, int 3), (6, int east)];
      n.im 3 3 = 0 ∧ (gB t n).val.toNat % 2 ^ 37 = mkHandle 0 64 0 1 ∧ Issues t Rows.nput { rg := [6, 2] } ∧
      releaseReady (releaseBegin 1 t) (releaseBegin 1 t).cur 1 = true ∧ handleDev (mkHandle 0 64 0 1) = t.dev ∧
      neighbour 32 (n.im 1 0) = some (handleCore (mkHandle 0 64 0 1)) ∧ exec (.nput n) t = .next (advance n { rg := [6, 2] } .seq
        (postNet (.nwrite 512 (mkHandle 0 64 0 1) false 1 (int 3) 0 (mkHandle 0 32 0 1)) (releaseBegin 1 t)))) ∧
    (Issues s Rows.nputArm { ng := [1] } ∧ (here s).pend.any (pendIn false 1 2) = false ∧
      exec (.nputArm { d := 1, form := .T2 }) s =
        .next (advance { d := 1, form := .T2 } { ng := [1] } .seq (modHere (armReg false 1) s))) ∧
    (Issues fifo Rows.push (Use.ofRow Rows.push p) ∧ bindingOf (firOf fifo 256) = some 0 ∧
      fifoUsed ((firOf fifo 256).actor.outs.getD 0 0) = true ∧ (gB fifo p).val.toNat ∈ [8, 16, 32, 64, 128, 256, 512] ∧
      1 ≤ credOf fifo 32 0 0 ∧ Accessible fifo (gA fifo p) 0x2000 8 CapF.LD 8 kRead false [spanAt 0x2000 8] ∧
      releaseReady (releaseBegin 3 fifo) (releaseBegin 3 fifo).cur 3 = true ∧
      (∃ x t, readSpans [spanAt 0x2000 8] (releaseBegin 3 fifo) = .ok x t ∧ (x == 0) = true)) ∧
    (Issues fifo Rows.consume (Use.ofRow Rows.consume c) ∧ (bindingOf (firOf fifo 256)).isSome = true ∧
      fifoUsed ((firOf fifo 256).actor.ins.getD 0 0) = true ∧ c.im 15 0 ≤ fifoCnt (fifoOf fifo 32 2)) := by
  refine ⟨⟨rfl, issues_of rfl, passes_of rfl, rfl, by decide +kernel, rfl⟩,
    ⟨rfl, rfl, issues_of rfl, rfl, rfl, rfl, rfl⟩, ⟨issues_of rfl, rfl, rfl⟩,
    ⟨issues_of rfl, rfl, rfl, by decide +kernel, by decide +kernel, accessible_of (passes_of rfl) rfl rfl rfl, rfl, ok_of ?_⟩,
    ⟨issues_of rfl, rfl, rfl, by decide +kernel⟩⟩
  decide +kernel

/-- Vector registers: v1 holds 1.0, 2.0 and 3.0 in lanes 0 to 2, v2 the integers 5 and -1. -/
def vregs : SMap VReg := [(1, 0x40400000400000003F800000), (2, 0xFFFFFFFF00000005)]
/-- A context with them, with a mask m1 of the low three lanes and with a narrow format in f2. -/
def vec0 : State :=
  run { ctx0 (regs0 ++ [(8, { capAt 0x2000 0x400 with w1 := BitVec.ofNat 64 (0x400 * 2 ^ 41 + 5 * 256 + 2 * 16 + 1) })]) with
    v := vregs
    m := [(0, 0xFFFFFFFF), (1, 7)]
    f := [(2, BitVec.ofNat 64 (2 ^ 20 + 2 * 2 ^ 17 + 7 * 2 ^ 9 + 2 ^ 8 + 4 * 16 + 3))] }
/-- The last element of both widths, active and inactive; an integer sum that wraps. -/
theorem witness_VectorHeadsComputeEachElement :
    let h : Head := { d := 4, a := 1, b := 2 }
    let i : Head := { d := 4, a := 2, b := 2, f := 3 }
    Issues vec0 Rows.vadd (((Use.ofRow Rows.vadd h).vecB h).merged h) ∧ Unbound vec0 (((Use.ofRow Rows.vadd h).vecB h).merged h) ∧
    (List.replicate 32 0).length = 1024 / 32 ∧ 31 < 1024 / 32 ∧ (List.replicate 64 0).length = 1024 / 16 ∧ 63 < 1024 / 16 ∧
    Issues vec0 Rows.vfma ((Use.ofRow Rows.vfma h).vecB h).readD ∧
    (∃ t, exec (.vadd i) vec0 = .next t ∧ (lane (readV (here t) 4) 1).toNat = 0xFFFFFFFE) := by
  refine ⟨issues_of rfl, unbound_of rfl, rfl, by decide, rfl, by decide, issues_of rfl, ⟨_, rfl, ?_⟩⟩
  decide +kernel

/-- VCMP of the two registers for signed words, and the masks' heads. -/
theorem witness_MaskAndLaneHeadsWriteTheirResult :
    let h : Head := { form := .T2, d := 4, a := 1, b := 2, imm := 3 * 64 }
    let m : Head := { d := 2, a := 1 }
    let u := (Use.ofRow Rows.vcmp h).vecB h
    Issues vec0 Rows.vcmp u ∧ Unbound vec0 u ∧ Issues vec0 Rows.vsel ((Use.ofRow Rows.vsel h).vecB h) ∧
    Issues vec0 Rows.vperm ((Use.ofRow Rows.vperm h).merged h) ∧ Unbound vec0 ((Use.ofRow Rows.vperm h).merged h) ∧
    exec (.mnot m) vec0 = .next (advance m (Use.ofRow Rows.mnot m) .seq (withM m 0xFFFFFFF8 vec0)) ∧
    exec (.mpop m) vec0 = .next (advance m (Use.ofRow Rows.mpop m) .seq (withInt m 3 vec0)) ∧
    exec (.mfirst { m with a := 2 }) vec0 =
      .next (advance { m with a := 2 } (Use.ofRow Rows.mfirst { m with a := 2 }) .seq (withInt m 32 vec0)) := by
  refine ⟨issues_of rfl, unbound_of rfl, issues_of rfl, issues_of rfl, unbound_of rfl, rfl, rfl, rfl⟩

/-- A sum of signed words, one over no active element, and an inclusive scan. -/
theorem witness_FunctionsReductionsAndScans :
    let h : Head := { form := .T2, d := 4, a := 2, imm := 3 * 64 }
    let none_ : Head := { form := .T2, d := 4, a := 2, imm := 3 * 64 + 4 }
    let f : Head := { form := .T2, d := 4, a := 1, imm := 0 }
    Issues vec0 Rows.vredsum (Use.ofRow Rows.vredsum h) ∧ Unbound vec0 (Use.ofRow Rows.vredsum h) ∧ 2 < h.im 8 6 ∧ f.im 8 6 ≤ 2 ∧
    exec (.vredsum h) vec0 = .next (advance h (Use.ofRow Rows.vredsum h) .seq (withInt h 4 vec0)) ∧
    Issues vec0 Rows.vscan ((Use.ofRow Rows.vscan h).merged h) ∧
    (scanI 32 0 false [(5, true), (0xFFFFFFFF, true)] 0).getD 1 0 = 4 ∧
    (scanI 32 0 true [(5, true), (0xFFFFFFFF, true)] 0).getD 1 0 = 5 ∧ 1 < [(5, true), (0xFFFFFFFF, true)].length ∧
    none_.im 2 0 = 4 := by
  refine ⟨issues_of rfl, unbound_of rfl, by decide, by decide, next_eq ?_, issues_of rfl, ?_, ?_, ?_, ?_⟩ <;> decide +kernel

/-- Lane 31's four bytes at the end of the bounds, the converting forms, and a store of all lanes. -/
theorem witness_VectorLoadsAndStoresAccessTheirLanes :
    let h : Head := { form := .T1, d := 4, a := 3, b := 10 }
    let s := run { ctx0 [(3, capAt 0x2000 128)] with m := [(0, 0xFFFFFFFF)], v := vregs }
    let cv : Head := { form := .T2, d := 4, a := 8, imm := 128 }
    let accs : List LaneAcc := (activeLanes s h).map fun k => { lane := k, va := laneAddr s h k, n := 4 }
    h.im 7 7 = 0 ∧ Issues s Rows.vld (vldUse Rows.vld h) ∧ Unbound s (vldUse Rows.vld h) ∧
    (∃ spans t, laneAccess (gA s h) false none accs s = .ok spans t ∧ (spans.length == 32 && t == s &&
      endsOk (loadPieces spans s) fun ps u => ps.length == 32 && u == s) = true) ∧
    Issues s Rows.vst (Use.ofRow Rows.vst h).srcD ∧
    (∃ spans t, laneAccess (gA s h) true none accs s = .ok spans t ∧ (t == s &&
      endsOk (pushStores (partEntries s true (spans.zip ((activeLanes s h).map fun k => (lane (readV (here s) 4) k).toNat))) s)
        fun _ u => (coreOf u 32).sb.length == 2) = true) ∧
    cv.im 7 7 = 1 ∧ Issues vec0 Rows.vld (vldUse Rows.vld cv) ∧
    (∃ f t, fmtCheck (gA vec0 cv) vec0 = .ok f t ∧ (t == vec0 &&
      endsOk (tensorLoad (gA vec0 cv) f (cvFirst vec0 cv f) 4 1 (activeLanes vec0 cv) (loadKeeps vec0 cv) vec0) fun _ u =>
        (unitOf u u.cur 4).isNone) = true) ∧
    Issues vec0 Rows.vst (Use.ofRow Rows.vst { cv with a := 9 }).srcD := by
  refine ⟨rfl, issues_of rfl, unbound_of rfl, ok_of ?_, issues_of rfl, ok_of ?_, rfl, issues_of rfl, ok_of ?_, issues_of rfl⟩ <;>
    decide +kernel

/-- VQNT of one register to two blocks of 16, in the form that gives only the largest scale and in the one that stores; VDEQ;
VCVT from FP32 to BF16; rounding 1.5 units in the last place of BF16. -/
theorem witness_ConversionsRoundToNearest :
    let h : Head := { form := .T2, d := 4, a := 1, b := 8 }
    let q : Head := { form := .T2, d := 4, a := 1, b := 8, imm := 8 }
    let u : Use := { rg := [8], rv := [1], wg := [4] }
    let c := gB vec0 h
    let v : Head := { form := .T2, d := 4, a := 1, imm := 512 }
    Issues vec0 Rows.vqnt u ∧ Unbound vec0 u ∧
    (∃ f t, fmtCheck c vec0 = .ok f t ∧ (t == vec0 && Fmt.cls f == 1 && scaled c && 2 ^ CapF.k c == 32 &&
      decide (elemIndex f c (CapF.addr c) % 32 = 0)) = true) ∧
    q.im 3 3 = 1 ∧ c.tag = true ∧ h.im 3 3 = 0 ∧ check c (CapF.addr c) 32 CapF.ST 1 vec0 = .ok () vec0 ∧
    (∃ t, exec (.vqnt q) vec0 = .next t ∧ ((here t).pend.length == 1) = true) ∧
    (∃ t, exec (.vqnt h) vec0 = .next t ∧ (!(coreOf t 32).sb.isEmpty) = true) ∧
    (∃ t, exec (.vdeq { form := .T2, d := 4, a := 8 }) vec0 = .next t ∧ ((here t).pend.length == 1) = true) ∧
    Issues vec0 Rows.vcvt (Use.ofRow Rows.vcvt v).readD ∧ (v.im 11 9 ≠ 5 ∧ v.im 8 6 ≠ 5) ∧
    (roundIeee bf16 (.num false 0x1818 (-12))).2.getLsbD 2 = false ∧ (0x3F80 < 2 ^ (1 + bf16.eb + bf16.mb)) ∧
    (decodeIeee bf16 0x3F80).isNan = false := by
  refine ⟨issues_of rfl, unbound_of rfl, ok_of ?_, rfl, rfl, rfl, rfl, ?_, ?_, ?_, issues_of rfl, ?_, ?_, ?_, ?_⟩
  all_goals first
    | decide +kernel
    | exact ⟨_, rfl, by decide +kernel⟩

/-- A shape record at shape place 0 of core 32: one dimension of 64 elements of 4 bytes from 0x2000. -/
def shapeMem (s : State) : State :=
  let c := capAt 0x2000 0x1000
  let p := windowOf 32 + 0x3F080
  let s := poke p 16 (c.w0.toNat + c.w1.toNat * 2 ^ 64) s
  let s := poke (p + 0x10) 16 (64 + 2 ^ 32 + 2 ^ 64 + 2 ^ 96) s
  poke (p + 0x20) 8 1 (poke (p + 0x40) 8 (1 + 2 ^ 16 + 2 ^ 32 + 2 ^ 48) s)

/-- SBIND to a free unit; SUNBIND and SSTAT without and with a unit; the pop of a prefetched register. -/
theorem witness_StreamsAreBoundReadAndFreed :
    let h : Head := { form := .T2, d := 4, imm := 2 * 16 }
    let s := shapeMem core0
    let u0 : SUnit := { unit0 with ahead := [(7, 0, none)] }
    let t := withCore { units := [(0, some u0)] } core0
    let n : Head := { d := 4, a := 4 }
    h.im 2 2 = 0 ∧ h.im 7 7 = 0 ∧ h.im 6 6 = 0 ∧ Issues s Rows.sbind { nv := [4] } ∧ unitOf s s.cur 4 = none ∧
    (∃ r t, shapeAt (windowOf 32 + 0x3F080 + 128 * h.im 1 0) s = .ok r t ∧ (shapeOk r.1 && t == s) = true) ∧
    freeUnit s = some 0 ∧ (∃ t, exec (.sbind h) s = .next t ∧ (unitOf t 256 4).isSome = true) ∧
    (Issues core0 Rows.sunbind (Use.ofRow Rows.sunbind n).nameV ∧
      exec (.sunbind n) core0 = .next (advance n (Use.ofRow Rows.sunbind n).nameV .seq core0)) ∧
    (unitOf t t.cur 4 = some (0, u0) ∧ exec (.sunbind n) t =
      .next (advance n (Use.ofRow Rows.sunbind n).nameV .seq (zeroV 4 (setUnit 32 0 none t)))) ∧
    (Issues t Rows.sstat (Use.ofRow Rows.sstat n).nameV ∧ exec (.sstat n) t = .next (advance n (Use.ofRow Rows.sstat n).nameV .seq
      (withPend (.g 4) [] (.cst (Cap.ofInt (sstatWord 0 u0))) 4 t))) ∧
    (u0.write = false ∧ popValue u0 t = .ok (7, none) t) := by
  refine ⟨rfl, rfl, rfl, issues_of rfl, rfl, ok_of ?_, rfl, ⟨_, rfl, ?_⟩, ⟨issues_of rfl, rfl⟩, ⟨rfl, rfl⟩, ⟨issues_of rfl, rfl⟩,
    rfl, rfl⟩ <;> decide +kernel

/-- Slot `k` of strip 2 is `t`. -/
def withSlot (k : Nat) (t : Slot) (s : State) : State := { s with strips := [(2, { slots := [(k, t)] })] }

/-- Slots 0 and 127: free, claimed here and elsewhere, named by an MMA, with a format that an SLOAD needs. -/
theorem witness_SlotHeadsActOnTheirSlot :
    let h : Head := { a := 1, b := 8 }
    let g : SMap Cap := [(1, int 127), (8, { capAt 0x2000 0x1000 with w1 := BitVec.ofNat 64 (0x1000 * 2 ^ 41 + 5 * 256 + 2 * 16 + 1) })]
    let f : W64 := BitVec.ofNat 64 (2 ^ 20 + 2 * 2 ^ 17 + 7 * 2 ^ 9 + 2 ^ 8 + 4 * 16 + 3)
    let s := run { ctx0 g with f := [(2, f)] }
    let mine := withSlot 127 { st := .claimed, asid := 1, fmt := some (f, 1, 5) } s
    let theirs := withSlot 127 { st := .claimed, asid := 2 } s
    let named := { mine with strips := [(2, { slots := [(127, { st := .claimed, asid := 1 })], ops := [{ slotA := 127, slotB := 0, f := 0, parts := [] }] })] }
    let l : Head := { form := .T1, d := 6, a := 1, b := 8 }
    (Issues s Rows.sclaim (Use.ofRow Rows.sclaim h) ∧ (slotNow s 127).st = .free ∧
      exec (.sclaim h) s = .next (advance h (Use.ofRow Rows.sclaim h) .seq (claimSlot 2 127 1 s)) ∧
      (slotNow theirs 127).st = .claimed ∧ exec (.sclaim h) theirs = .next (trapAt theirs 0x0F 0 0) ∧ (slotNow s 127).asid ≠ 1) ∧
    (Issues mine Rows.srel (Use.ofRow Rows.srel h) ∧ claimedHere mine 127 = true ∧ slotNamed mine 2 127 = false ∧
      exec (.srel h) mine = .next (advance h (Use.ofRow Rows.srel h) .seq (freeSlot 2 127 mine)) ∧
      claimedHere named 127 = true ∧ slotNamed named 2 127 = true ∧ exec (.srel h) named =
        .next (advance h (Use.ofRow Rows.srel h) .seq (modSlot 2 127 (fun t => { t with st := .releasing }) named)) ∧
      claimedHere theirs 127 = false ∧ exec (.srel h) theirs = .next (trapAt theirs 0x10 0 0)) ∧
    (Issues mine Rows.sfmt (Use.ofRow Rows.sfmt h) ∧ slotFmtBad (fmtOf mine (gB mine h)) (gB mine h) = false) ∧
    (Issues mine Rows.sload (Use.ofRow Rows.sload l).srcD ∧
      (slotNow mine 127).fmt = some (fmtOf mine (gB mine l), CapF.smode (gB mine l), CapF.k (gB mine l)) ∧
      (∃ t, exec (.sload l) mine = .next t ∧ ((here t).pend.length == 1) = true)) := by
  refine ⟨⟨issues_of rfl, rfl, rfl, rfl, rfl, by decide +kernel⟩, ⟨issues_of rfl, rfl, rfl, rfl, rfl, rfl, rfl, rfl, rfl⟩,
    ⟨issues_of rfl, by decide +kernel⟩, ⟨issues_of rfl, by decide +kernel, ⟨_, rfl, by decide +kernel⟩⟩⟩

/-- Bank 3 with nothing outstanding: AZERO of rows 0 and 7, ASCALE by 2, ASTORE's first line and its last, ALOAD, and AMOVV
both ways. -/
theorem witness_AccumulatorHeadsActOnTheirBank :
    let s := core (regs0 ++ [(10, int 512)])
    let pa := bankPa 32 3
    let z : Head := { form := .T2, d := 3, imm := 0x81 }
    let h : Head := { form := .T1, d := 3, a := 3, b := 10 }
    let m : Head := { form := .T2, d := 4, a := 3, imm := 63 }
    let u : Use := { rg := [3, 10] }
    bankHeld s 3 = false ∧ Issues s Rows.azero {} ∧ Issues s Rows.ascale { rg := [3] } ∧ Issues s Rows.astore u ∧
    (here s).storing = [] ∧ Issues s Rows.aload u ∧
    (∃ spans t, rowAccess (gA s h) (rowAddrs (rowBase h (gA s h)) (bankStride s h)) 512 4 true (fun _ => false) [] s = .ok spans t ∧
      (t == s && (match storeEntries s s.cur false spans (Machine.peek s pa 4096) with
        | e :: r => r.length == 63 && endsOk (pushStores [e] s) fun _ _ => true
        | [] => false)) = true) ∧
    (∃ spans t, rowAccess (gA s h) (rowAddrs (rowBase h (gA s h)) (bankStride s h)) 512 4 false (fun _ => false) [] s = .ok spans t ∧
      (t == s && endsOk (loadPieces spans s) fun ps u => ps.length == 64 && u == s) = true) ∧
    (let t := run { ctx0 [(3, capAt 0x2000 0x1000), (10, int 512)] with storing := [sb0] };
      (here t).storing = [sb0] ∧ pushStores [sb0] t = .ok () (withCore { sb := [sb0] } t) ∧
      exec (.astore h) t = .next (advance h u .seq (modHere (fun x => { x with storing := [] }) (withCore { sb := [sb0] } t)))) ∧
    (m.im 5 5 = 1 ∧ Issues s Rows.amovv { rv := [4] } ∧ Unbound s { rv := [4] } ∧
      exec (.amovv m) s = .next (advance m { rv := [4] } .seq (poke (pa + 3584 + 128 * 1) 128 0 s))) ∧
    Issues s Rows.amovv { wv := [4] } ∧ ({ m with imm := 0 } : Head).im 5 5 = 0 ∧ z.im 7 0 = 0x81 := by
  refine ⟨rfl, issues_of rfl, issues_of rfl, issues_of rfl, rfl, issues_of rfl, ok_of ?_, ok_of ?_, ⟨rfl, ok_eq ?_, next_eq ?_⟩,
    ⟨?_, issues_of rfl, unbound_of rfl, next_eq ?_⟩, issues_of rfl, ?_, ?_⟩ <;> decide +kernel

/-- The first rank of a gang waits, the sixteenth forms the operation, a firing of no gang traps. -/
theorem witness_MmaFormsWhenEveryRankArrives :
    let f : W64 := BitVec.ofNat 64 (2 ^ 20 + 2 * 2 ^ 17 + 7 * 2 ^ 9 + 2 ^ 8 + 4 * 16 + 3)
    let h : Head := { form := .T2, d := 3, a := 1, b := 2 }
    let g := swept 1 true { ctx0 [(1, int 0), (2, int 127)] with fir := some { fir0 with gangPassed := true } }
    let slots : SMap Slot := [(0, { st := .claimed, asid := 1, fmt := some (f, 0, 0) }), (127, { st := .claimed, asid := 1, fmt := some (f, 0, 0) })]
    let others : List MmaWait := (List.range 15).map fun i =>
      { cid := 8 * (33 + i), rank := i + 1, ord := 0, slotA := 0, slotB := 127, f := 0, bank := 3, z := false }
    let first := { g with strips := [(2, { slots := slots })] }
    let last := { g with strips := [(2, { slots := slots, mmaWait := others })] }
    let ws (s : State) : List MmaWait := (stripOf s 2).mmaWait.filter (·.rank != 0) ++
      [{ cid := 256, rank := 0, ord := 0, slotA := 0, slotB := 127, f := 0, bank := 3, z := false }]
    Issues first Rows.mma (Use.ofRow Rows.mma h) ∧ (firOf first 256).mmaBad = false ∧ (here first).granted = false ∧
    gangFiring first = true ∧ (firOf first 256).gangPassed = true ∧ claimedHere first 0 = true ∧ claimedHere first 127 = true ∧
    pairFmt 0 (slotNow first 0).fmt = true ∧ pairFmt 0 (slotNow first 127).fmt = true ∧ slotLoading first 0 = false ∧
    slotPoisoned first 127 = false ∧ (ws first).length ≠ 16 ∧
    exec (.mma h) first = .next (beginWait 256 .mma (modStrip 2 (fun t => { t with mmaWait := ws first }) first)) ∧
    (ws last).length = 16 ∧ mmaAgree (ws last) = true ∧
    exec (.mma h) last = .next (advance h (Use.ofRow Rows.mma h) .seq (mmaForm 2 (modStrip 2 (fun t => { t with mmaWait := ws last }) last))) ∧
    gangFiring core0 = false ∧ exec (.mma h) core0 = .next (trapAt core0 0x02 0 2) := by
  refine ⟨issues_of rfl, rfl, rfl, rfl, rfl, rfl, rfl, rfl, rfl, rfl, rfl, ?_, next_eq ?_, ?_, ?_, next_eq ?_, ?_, ?_⟩
  all_goals first
    | rfl
    | decide +kernel

/-- FPFLAGS read and written, a trap register at its boundary, a supervisor's register from user level, CYC read by a
thread, TRAPVEC written, a reserved bit, the first firmware register in the control column. -/
theorem witness_ControlRegistersAreReadAndWritten :
    let r (n : Nat) : Head := { form := .T2, d := 4, a := 1, imm := BitVec.ofNat 48 n }
    let user := run user0
    let frame := run { user0 with fl := true }
    let column : State := { core0 with cur := 0, ctxs := [(0, ctx0 [])] }
    (crNum (r 4) = 4 ∧ crCheck core0 4 false core0 = .ok () core0 ∧ flagsOpen core0 = false ∧ Issues core0 Rows.mfc (Use.ofRow Rows.mfc (r 4)) ∧
      exec (.mfc (r 4)) core0 = .next (advance (r 4) (Use.ofRow Rows.mfc (r 4)) .seq (withInt (r 4) 0 core0))) ∧
    (isThread thread0.cur = true ∧ crThread thread0 1 = some 0 ∧ Issues thread0 Rows.mfc (Use.ofRow Rows.mfc (r 1))) ∧
    (crCheck core0 4 true core0 = .ok () core0 ∧ crCap 4 = false ∧ crOk core0 4 5 = true ∧ Issues core0 Rows.mtc (Use.ofRow Rows.mtc (r 4)) ∧
      exec (.mtc (r 4)) core0 = .next (advance (r 4) (Use.ofRow Rows.mtc (r 4)) .seq (crWrite 4 5 core0))) ∧
    (crOk (core [(1, int 64)]) 4 64 = false ∧ exec (.mtc (r 4)) (core [(1, int 64)]) = .next (trapAt (core [(1, int 64)]) 0x03 0 0)) ∧
    (crCap 0x104 = true ∧ crCheck core0 0x104 true core0 = .ok () core0 ∧
      exec (.mtc { r 0x104 with a := 3 }) core0 = .next (advance { r 0x104 with a := 3 } (Use.ofRow Rows.mtc { r 0x104 with a := 3 }) .seq
        (crWriteCap 0x104 (capAt 0x2000 0x1000) core0))) ∧
    (crDefined 0x103 = true ∧ (here frame).fl = true ∧ crCheck frame 0x103 false frame = .ok () frame) ∧
    (crDefined 0x105 = true ∧ (here user).sup = false ∧ crCheck user 0x105 false user = .error (.trap 0x05 0 0) user) ∧
    (controlCore column (coreNo column.cur) = true ∧ exec (.mfc (r 0x301)) column = .refused .firmwareRegister ∧
      exec (.mtc (r 0xFFF)) column = .refused .firmwareRegister) ∧
    crOk core0 0x105 4095 = true ∧ crRead (crWrite 0x105 4095 core0) 0x105 = 4095 := by
  refine ⟨⟨rfl, rfl, rfl, issues_of rfl, rfl⟩, ⟨rfl, rfl, issues_of rfl⟩, ⟨rfl, rfl, rfl, issues_of rfl, rfl⟩, ⟨rfl, rfl⟩,
    ⟨rfl, rfl, rfl⟩, ⟨rfl, rfl, rfl⟩, ⟨rfl, rfl, rfl⟩, ⟨rfl, rfl, rfl⟩, rfl, rfl⟩

/-- A context whose copy registers name 64 bytes at 0x2000 and 0x3000 and a ring at 0x4000. -/
def copying : State :=
  run { ctx0 [] with
    cpsrc := capAt 0x2000 64
    cpdst := capAt 0x3000 64
    cpring := capAt 0x4000 0x2000
    cpcnt := BitVec.ofNat 64 (64 * 2 ^ 32 + 2 ^ 16 + 1) }
/-- A composable actor's context, and one under a lens of core 33. -/
def lensCtx : Ctx := { ctx0 [] with fir := some { fir0 with actor := { composable := true } } }

theorem witness_CopiesLensesAndPairsStart :
    let h : Head := { form := .H, d := 62 }
    let n : Head := { form := .T2, imm := 1 }
    let s := run lensCtx
    let granted := run { lensCtx with granted := true, wait := .compose 1 }
    let led := run { ctx0 [] with fir := some { fir0 with lens := some 256 } }
    let parked := run { ctx0 [] with granted := true, wait := .pairPark }
    let paired := run { ctx0 [] with fir := some { fir0 with paired := true } }
    (1 ≤ h.d.toNat ∧ h.d.toNat ≤ 62 ∧ Issues copying Rows.cpgo { wg := [62, 63] } ∧
      (∃ c t, cpgoCheck copying = .ok c t ∧ (t == copying && CpF.dkind c == false) = true) ∧ drained copying = true ∧ copyRoom copying 32 = true) ∧
    (Issues s Rows.compose {} ∧ composeBad s 1 = none ∧
      exec (.compose n) s = .next (beginWait 256 (.compose 1) (claimLens 1 s))) ∧
    (composeBad core0 1 = some 1 ∧ exec (.compose n) core0 = .next (trapAt core0 0x17 0 1)) ∧
    ((here granted).granted = true ∧ (here granted).wait = .compose 1 ∧
      exec (.compose n) granted = .next (advance n {} .seq (modFir 256 (fun f => { f with lens := some 256 }) granted))) ∧
    (Issues core0 Rows.decompose {} ∧ (firOf core0 256).lens = none ∧ exec (.decompose {}) core0 = .next (advance {} {} .seq core0)) ∧
    ((firOf led 256).lens.isSome = true ∧ (here led).pend = [] ∧ pushWaits led 256 = false ∧ (coreOf led 32).sb = [] ∧
      Issues led Rows.decompose {} ∧ exec (.decompose {}) led = .next (advance {} {} .seq (freeLens 256 led))) ∧
    (Issues paired Rows.pair {} ∧ exec (.pair {}) paired = .next (advance {} {} .seq paired)) ∧
    (Issues parked Rows.pair {} ∧ exec (.pair {}) parked =
      .next (advance {} {} .seq (modFir 256 (fun f => { f with paired := true }) parked))) ∧
    (Issues core0 Rows.unpair {} ∧ exec (.unpair {}) core0 = .next (advance {} {} .seq core0)) ∧
    ((firOf paired 256).paired = true ∧ (firOf paired 256).actor.checked = false ∧ Issues paired Rows.unpair {}) := by
  refine ⟨⟨by decide, by decide, issues_of rfl, ok_of ?_, rfl, rfl⟩, ⟨issues_of rfl, rfl, rfl⟩, ⟨rfl, rfl⟩, ⟨rfl, rfl, rfl⟩,
    ⟨issues_of rfl, rfl, rfl⟩, ⟨rfl, rfl, rfl, rfl, issues_of rfl, rfl⟩, ⟨issues_of rfl, rfl⟩, ⟨issues_of rfl, rfl⟩,
    ⟨issues_of rfl, rfl⟩, rfl, rfl, issues_of rfl⟩
  decide +kernel

/-- A handle of no firing, a placed firing of context 1, a saved one that is held; TLBINV at the largest ASID. -/
theorem witness_SupervisorHeadsControlFirings :
    let h : Head := { form := .T1, d := 4, a := 1, b := 0 }
    let other : Firing := { fir0 with handle := mkHandle 0 32 1 1, actor := { save := capAt 0x8000 0x8000 } }
    let me (n : Nat) : Ctx := ctx0 [(1, int (BitVec.ofNat 64 n)), (2, int 4095)]
    let none_ := run (me (mkHandle 0 32 5 9))
    let two := { run (me (mkHandle 0 32 1 1)) with ctxs := [(256, me (mkHandle 0 32 1 1)), (257, { st := .ready, gen := 1, fir := some other })] }
    let v : Saved := { cid := 257, fir := other, asid := 1, held := true, complete := true, written := true }
    let saved := withCore { saved := [v] } (run (me (mkHandle 0 32 1 1)))
    (handleGone none_ (mkHandle 0 32 5 9) = true ∧ Issues none_ Rows.ctxSave (Use.ofRow Rows.ctxSave h) ∧
      exec (.ctxSave h) none_ = .next (advance h (Use.ofRow Rows.ctxSave h) .seq (withLate 4 2 14 none_))) ∧
    (handleGone two (mkHandle 0 32 1 1) = false ∧ savedOf two (mkHandle 0 32 1 1) = none ∧ handleCid (mkHandle 0 32 1 1) ≠ two.cur ∧
      noSave (firOf two 257) = false ∧ requeueUsed two 32 < 8 ∧ (∀ k, (ctxOf two 257).wait ≠ .compose k) ∧
      Issues two Rows.ctxSave (Use.ofRow Rows.ctxSave h) ∧
      exec (.ctxLoad h) two = .next (advance h (Use.ofRow Rows.ctxLoad h) .seq (withLate 4 3 14 two)) ∧
      exec (.ctxDrop h) two = .next (advance h (Use.ofRow Rows.ctxDrop h) .seq (withLate 4 0 14 (dropRecord (mkHandle 0 32 1 1) 0 (abortPlaced 257 two))))) ∧
    (handleGone saved (mkHandle 0 32 1 1) = false ∧ savedOf saved (mkHandle 0 32 1 1) = some v ∧ v.held = true ∧ v.complete = true ∧
      requeueUsed saved 32 < 8 ∧ Issues saved Rows.ctxLoad (Use.ofRow Rows.ctxLoad h)) ∧
    ((gB none_ { h with b := 2 }).val.toNat ≤ 4095 ∧ Issues none_ Rows.tlbinvVa (Use.ofRow Rows.tlbinvVa { h with b := 2 }) ∧
      releaseReady none_ none_.cur 3 = true) := by
  refine ⟨⟨rfl, issues_of rfl, rfl⟩, ⟨rfl, rfl, by decide +kernel, rfl, by decide +kernel, (fun k hk => by cases hk),
    issues_of rfl, rfl, rfl⟩, ⟨rfl, rfl, rfl, rfl, by decide +kernel, issues_of rfl⟩, ⟨by decide +kernel, issues_of rfl, rfl⟩⟩

/-- A handler of Prism 0 with a request of device 1. -/
def handled : State :=
  withFar (thread { ty := 0, block := 0x48000, requester := BitVec.ofNat 64 (2 ^ 63 + 1), seq := 3 }
    [(1, int (BitVec.ofNat 64 (2 ^ 63 + 1))), (2, int 1), (3, int 0x48000), (4, int 0x48000), (5, int 0x48100)])

/-- The block of the message and one that another Prism serves; the requester's slot and a word that holds none. -/
theorem witness_PrismHeadsActOnTheirBlock :
    let h : Head := { form := .T2, d := 6, a := 4, b := 2, imm := 2 }
    let o : Head := { form := .T2, d := 6, a := 5, b := 2, imm := 0 }
    let r : Head := { form := .T2, a := 1, b := 2 }
    let s := handled
    let u (r : Row) (h : Head) : Use := Use.ofRow r h
    (serves s (blockArg s (gA s h)) = true ∧ Issues s Rows.tagset (u Rows.tagset h) ∧ (hereRun s).tagset = none ∧
      (∃ x t, tagsetDo h 0x48000 s = .ok x t ∧ (!throughLeft t 0x48000) = true)) ∧
    (Issues s Rows.dirrd (u Rows.dirrd h) ∧ Issues s Rows.dirwr (u Rows.dirwr h) ∧ (∃ t, exec (.dirwr { h with imm := 0 }) s = .next t)) ∧
    (Issues s Rows.fwd (u Rows.fwd h) ∧ threadNo s.cur < 6 ∧ h.im 3 0 < 11 ∧ (gB s h).val.toNat % 16384 ≠ s.dev ∧ routable s 1 = true ∧
      repReserved s 0 < 32 ∧ (prismOf s 0).spill = [] ∧ outQueued s 0 < 32 ∧ (∃ t, exec (.fwd h) s = .next t)) ∧
    (serves s (blockArg s (gA s o)) = false ∧ Issues s Rows.dirrd (u Rows.dirrd o) ∧ exec (.dirrd o) s = .next (trapAt s 0x02 0 0x0A) ∧
      exec (.dirwr o) s = .next (trapAt s 0x02 0 0x0A)) ∧
    (Issues s Rows.reply (u Rows.reply r) ∧ replySlot s (hereRun s) (gA s r).val = some (true, none) ∧
      replySlot s (hereRun s) 5 = none ∧ exec (.reply { r with a := 2 }) s = .next (trapAt s 0x02 0 0x0A)) ∧
    (Issues s Rows.btx (u Rows.btx h) ∧ Issues s Rows.hdone {} ∧ exec (.hdone {}) s = .next (endRun s.cur s) ∧
      exec (.hdone { imm := 1 }) s = .next (retryRun s.cur s)) := by
  refine ⟨⟨rfl, issues_of rfl, rfl, ok_of ?_⟩, ⟨issues_of rfl, issues_of rfl, ⟨_, rfl⟩⟩,
    ⟨issues_of rfl, ?_, ?_, ?_, rfl, ?_, rfl, ?_, ⟨_, rfl⟩⟩, ⟨?_, issues_of rfl, ?_, ?_⟩, ⟨issues_of rfl, ?_, ?_, ?_⟩,
    ⟨issues_of rfl, issues_of rfl, ?_, ?_⟩⟩
  all_goals first
    | rfl
    | decide +kernel

/-! ### The device's events -/

/-- Both slots of the flash refused, slot A refused, and powered devices; strips, dies and functions at the ends of their
ranges; a power step. -/
theorem witness_ResetsClearTheMachine :
    let bad : FlashSlot := { keyHash := none }
    let vfs : State := setSriov true State.reset
    let s := State.reset
    let a : State := { s with firm := { s.firm with flashA := bad } }
    let none_ : State := { s with firm := { s.firm with flashA := bad, flashB := bad } }
    slotRefused s.firm s.firm.flashA = 0 ∧ (∃ t, exec .powerOn s = .next t ∧ (t.firm.booted && t.firm.svc.bootedA) = true) ∧
    (slotRefused a.firm a.firm.flashA ≠ 0 ∧ slotRefused a.firm a.firm.flashB = 0 ∧
      ∃ t, exec .powerOn a = .next t ∧ (t.firm.booted && !t.firm.svc.bootedA) = true) ∧
    (slotRefused none_.firm none_.firm.flashA ≠ 0 ∧ slotRefused none_.firm none_.firm.flashB ≠ 0 ∧
      ∃ t, exec .powerOn none_ = .next t ∧ t.firm.booted = false) ∧
    s.firm.powered = true ∧ (∃ t, exec .deviceReset core0 = .next t ∧ (ctxOf t 256).fir = none) ∧ (1 ≤ 1 ∧ 63 < 64) ∧
    s.host.sriov = false ∧ vfs.host.sriov = true ∧
    (∃ t, exec (.functionLevelReset 63) vfs = .next t ∧ (fnOf t 63).hvsel = 0) ∧ (3 < 4 ∧ 15 < 16 ∧ 5 < 6) ∧
    (∃ t, exec (.powerLimitWindow 3 15) s = .next t ∧ SMap.get 0 t.host.throttle 3 = 15) ∧
    (∃ t, exec (.mgmtUpdate 65535 0 0) s = .next t ∧ bitsOf t.host.mgmtPwr.toNat 47 32 = 65535) := by
  refine ⟨?_, ⟨_, rfl, ?_⟩, ⟨?_, ?_, _, rfl, ?_⟩, ⟨?_, ?_, _, rfl, ?_⟩, rfl, ⟨_, rfl, ?_⟩, ?_, rfl, rfl, ⟨_, rfl, ?_⟩, ?_, ⟨_, rfl, ?_⟩,
    ⟨_, rfl, ?_⟩⟩ <;> decide +kernel

/-- The mailbox runs command `n`, with its buffer at I/O virtual address 0x20000. -/
def mail (n : Nat) : State :=
  { State.reset with firm := { State.reset.firm with svc := { ctl := BitVec.ofNat 32 (2 ^ 31 + n * 256), addr := 0x20000 } } }
/-- A rectangle of one half-column, one over two dies, and one of the control column. -/
def rect0 : Rect := { die := 0, die2 := 0, col0 := 2, col1 := 2, half0 := 1, half1 := 1 }
/-- A mirror pair whose interval has closed; its checkpoint stands at the line before. -/
def pair0 : Pair := { prim := 256, part := 264, closed := true, held := [sb0], check := { ctx0 [] with pc := ⟨0xFC0, 1⟩ } }
/-- A request of CONTAIN for strip 5 with action `a` (log 9). -/
def contain0 (a : Nat) : State := bufWrite 0 8 (2 * 2 ^ 16 + 2 * 2 ^ 24 + 2 ^ 32 + 2 ^ 40 + a * 2 ^ 48) (mail 4)
theorem not_self (x : W64) : ~~~x ≠ x := fun h => by
  have := congrArg (fun y : W64 => y.getLsbD 0) h
  simp at this
def mirrored (p : Pair) : State :=
  { run { ctx0 [] with st := .waiting, wait := .pair, fir := some { fir0 with paired := true } } with grp := { pairs := [p] } }

theorem witness_ContainmentAndChecksAct :
    let s := contain0 0
    let fenced := setRole 2 (contain0 2) 5
    let moving := modStrip 7 (fun t => { t with remap := some (stripEntry State.reset 7) }) State.reset
    let stopped := modStrip 7 (fun t => { t with remap := some (stripEntry State.reset 7), fenced := true }) State.reset
    let page := hbmTop / 4096 - 1
    let refused : State := { State.reset with ms := { State.reset.ms with susp := [{ block := (windowOf 32) / 64, ty := 0, cid := 8, handle := 1, refused := some 2 }] } }
    let enc : State := { State.reset with firm := { State.reset.firm with flashA := { table := tableDefault 1 2 8 + 2 ^ 56 } } }
    let struck : State := { enc with ms := { enc.ms with itag := [(page, some (~~~(pageTag enc.firm.boots [] page)))] } }
    (rectRequest s = rect0 ∧ rectAction s = 0 ∧ rectAction (contain0 1) = 1 ∧ rectAction (contain0 3) = 3 ∧
      svcRuns s 4 = true ∧ svcBuf s % 4096 = 0 ∧ (s.strips.any fun e => e.2.remap.isSome) = false ∧ rectRefused s rect0 = 0 ∧
      rectRefused s { rect0 with die2 := 1 } = 6 ∧ rectRefused s { rect0 with col0 := 0 } = 6 ∧ rectRefused s { rect0 with col1 := 32 } = 2 ∧
      exec (.containFence rect0) s = .next (containDone [5] 0 (fenceStrips [5] s)) ∧
      exec (.containFence rect0) (contain0 3) = .next (svcDone 2 (contain0 3)) ∧
      { rect0 with die2 := 1 } ≠ rectRequest s) ∧
    (svcRuns fenced 4 = true ∧ rectRefused fenced rect0 = 0 ∧ (∀ k ∈ rectStrips rect0, stripRole fenced k = 2) ∧
      ∃ t, exec (.containRelease rect0) fenced = .next t ∧ stripRole t 5 = 0) ∧
    (255 < 256 ∧ (stripOf State.reset 255).remap = none ∧ State.reset.firm.booted = true ∧
      (State.reset.strips.any fun x => x.2.remap.isSome) = false ∧ mapOk State.reset 255 (stripEntry State.reset 255) = true) ∧
    ((stripOf moving 7).remap = some (stripEntry State.reset 7) ∧ (stripOf moving 7).fenced = false ∧ stripIdle moving 7 = true ∧
      (stripOf stopped 7).fenced = true ∧ ∃ t, exec (.stripMapChange 7 0) stopped = .next t ∧ (stripOf t 7).remap = none) ∧
    (∃ u, refused.ms.susp[0]? = some u ∧ u.refused = some 2 ∧ (stripOf refused ((64 * u.block - winBase) / 0x4000000)).remap = none) ∧
    ((bootTable enc).enc = true ∧ 4096 * page < hbmTop ∧ patrolDue enc page = true ∧
      patrolDue { enc with firm := { enc.firm with patrolAt := [(page, 1)] } } page = false ∧
      upsets page [] false enc = enc ∧ tagOfPage enc page = pageTag enc.firm.boots enc.ms.mem page ∧
      tagOfPage struck page ≠ pageTag struck.firm.boots struck.ms.mem page) ∧
    (closedPair (mirrored pair0) 256 = some pair0 ∧ pair0.again = false ∧
      (coreOf (mirrored pair0) (coreNo 256)).sb.length + pair0.held.length ≤ 32 ∧
      (∃ t, exec (.mirrorIntervalConfirm 256) (mirrored pair0) = .next t ∧ ((coreOf t 32).sb == [sb0]) = true) ∧
      (∃ t, exec (.mirrorMismatch 256) (mirrored pair0) = .next t ∧ (ctxOf t 256).pc = ⟨0xFC0, 1⟩)) := by
  refine ⟨⟨?_, ?_, ?_, ?_, rfl, rfl, rfl, ?_, ?_, ?_, ?_, next_eq ?_, next_eq ?_, ?_⟩, ⟨rfl, ?_, ?_, ⟨_, rfl, ?_⟩⟩, ⟨?_, rfl, rfl, rfl, ?_⟩,
    ⟨rfl, rfl, ?_, rfl, ⟨_, rfl, ?_⟩⟩, ⟨_, rfl, rfl, ?_⟩, ⟨?_, ?_, ?_, ?_, rfl, rfl, not_self _⟩, ⟨?_, rfl, ?_, ⟨_, rfl, ?_⟩, ⟨_, rfl, ?_⟩⟩⟩ <;> decide +kernel

/-- A patch of no pointer, and its request: version 1 in place of 0, no entry and no code. -/
def patch0 : PatchImage := { target := 1 }
def patchReq : State := bufWrite 4 4 1 (mail 3)
theorem patch_fits {s : State} {p : PatchImage} (hb : p.base = s.firm.svc.version) (hr : p.repl = []) (hi : p.inactive = [])
    (hs : p.size = 0) (hl : 1680 ≤ svcLen s) (hd : s.firm.svc.bodies = []) : patchRefused s true p = 0 := by
  simp [patchRefused, patchFits, hb, hr, hi, hs, hl, hd]

theorem witness_MailboxCommandsAnswer :
    let waits (p : PatchImage) : State := { mail 3 with firm := { (mail 3).firm with svc := { (mail 3).firm.svc with patch := some p } } }
    let busy : State :=
      { mail 3 with
        cyc := 1900000
        firm := { (mail 3).firm with svc := { (mail 3).firm.svc with patch := some { patch0 with inactive := [5] }, activity := [(5, 1)] } } }
    let cfg := bufWrite 0 4 1 (mail 7)
    let frozen : State := { State.reset with firm := { State.reset.firm with bb := [(0, { left := some 0 })] } }
    (svcRuns (mail 1) 1 = true ∧ svcBuf (mail 1) % 4096 = 0 ∧ svcRuns (mail 2) 2 = true ∧ svcRuns (mail 5) 5 = true ∧ svcRuns (mail 6) 6 = true) ∧
    (svcRuns patchReq 3 = true ∧ patchReq.firm.svc.patch = none ∧ (patchImage patchReq).target = 1 ∧
      patchRefused patchReq true (patchImage patchReq) = 0 ∧ patchRefused patchReq true { patch0 with base := 1 } = 4 ∧
      patchRefused patchReq false patch0 = 3) ∧
    (bbRequest (mail 6) = 0 ∧ bbRequest (bufWrite 0 1 1 (mail 6)) = 1 ∧ bbRequest (bufWrite 0 1 2 (mail 6)) = 2) ∧
    (svcRuns cfg 7 = true ∧ bufRead cfg 0 4 ≠ 0 ∧ bufRead cfg 0 4 ≤ 65535 ∧ 16 + 16 * bufRead cfg 0 4 ≤ svcLen cfg ∧ bufRead cfg 4 12 = 0) ∧
    ((waits patch0).firm.svc.patch = some patch0 ∧ svcRuns (waits patch0) 3 = true ∧ patchQuiet (waits patch0) patch0 = true ∧
      ∃ t, exec .patchApply (waits patch0) = .next t ∧ t.firm.svc.version = 1) ∧
    (svcRuns busy 3 = true ∧ patchQuiet busy { patch0 with inactive := [5] } = false ∧
      busy.firm.svc.patchSince + 1000 * Config.cyclesPerUs ≤ busy.cyc) ∧
    ((SMap.get {} frozen.firm.bb 0).left = some 0) := by
  refine ⟨⟨rfl, rfl, rfl, rfl, rfl⟩, ⟨rfl, rfl, ?_, patch_fits ?_ ?_ ?_ ?_ ?_ rfl, rfl, rfl⟩, ⟨?_, ?_, ?_⟩, ⟨?_, ?_, ?_, ?_, ?_⟩, ⟨rfl, rfl, rfl, _, rfl, ?_⟩, ⟨rfl, rfl, ?_⟩, rfl⟩ <;>
    decide +kernel

/-- A record of function 63 with the largest identifier. -/
def fault0 : FaultRec :=
  { id := 2 ^ 32 - 1, fn := 63, asid := 1, va := 0x5000, cause := 0x0A, kind := 1, handle := 0, level := 1, gang := false, time := 0, waiters := [] }

theorem witness_HostEventsAct :
    let s := State.reset
    let vf := setSriov true s
    let faulted : State := { vf with tr := { faults := [fault0] } }
    let far : State := { s with host := { s.host with hdmBase := 0x100000 } }
    let timed : State := { s with cyc := 1900, host := { s.host with fns := [(0, { icoal := [(3, BitVec.ofNat 64 (2 ^ 32 + 2 ^ 16 + 1))], icoalSince := [(3, 0)] })] } }
    let masked : State := { s with host := { s.host with fns := [(0, { vpend := [(3, true)] })] } }
    let flip (x : Flip) : State := { s with cyc := 1900001, host := { s.host with flip := some x } }
    let f0 : Flip := { page := 5, left := 1, toDevice := true, since := 0 }
    let locked : State := { paged (flip f0) with cp := { locks := [{ die := 0, copy := 0, asid := 1, lo := 0x5000, hi := 0x5FFF, dest := true }] } }
    let wanted : State := { s with prisms := [(50, { req := [{ ty := 6, block := hostBase }] })] }
    (fnHere s 63 = false ∧ fnHere vf 63 = true ∧ fnHere vf 64 = false ∧ fnHere s 0 = true) ∧
    (63 < 64 ∧ versionOk s 1 = true ∧ fnMapped s 63 = false ∧ (∃ t, exec (.hvselWrite 63 0x1110) vf = .next t ∧ (fnOf t 63).hvsel = 0x1110) ∧
      versionOk s 2 = false ∧ (∃ t, exec (.hvselWrite 63 0x2110) vf = .next t ∧ (fnOf t 63).hstat.getLsbD 6 = true)) ∧
    (vfctlOk s 63 0 = true ∧ vfctlOk s 63 (2 ^ 27) = false ∧ (∀ i < dirSize s 63, descEn (descOf s 63 i) = false)) ∧
    (2 ^ 32 - 1 < 2 ^ 32 ∧ faultById faulted 63 (2 ^ 32 - 1) = some fault0 ∧
      exec (.fresumeRetry 63 0xFFFFFFFF) faulted = .next (faultClose 63 (2 ^ 32 - 1) faulted)) ∧
    (0 < far.host.hdmBase ∧ far.host.hdmBase ≤ 0x100000 ∧ exec (.hostMemAccess 0 none) far = .next far) ∧
    (bitsOf (SMap.get 1 (fnOf timed 0).icoal 3).toNat 31 16 ≠ 0 ∧ bitsOf (SMap.get 1 (fnOf timed 0).icoal 3).toNat 47 32 ≠ 0 ∧
      (fnOf timed 0).icoalSince.find? (·.1 == 3) = some (3, 0) ∧ 0 + 1 * Config.cyclesPerUs ≤ timed.cyc) ∧
    (SMap.get false (fnOf masked 0).vpend 3 = true ∧ SMap.get false (fnOf masked 0).vmask 3 = false) ∧
    (hbmSize s - 64 < hbmSize s ∧ (s.host.flip.any fun x => x.page == (hbmSize s - 64) / 4096) = false ∧
      ∃ t, exec (.hostMemAccess (hbmSize s - 1) none) s = .next t ∧ t.host.out = [(hbmSize s - 64, some 0)]) ∧
    (SMap.get none s.ms.l2 (blockOf hostBase) = none ∧ exec (.h2dSnoop 0 none) s = .next s) ∧
    (lineWanted wanted (hostBase / 64 * 64) false = some { ty := 6, block := hostBase } ∧ spaceOf wanted (hostBase / 64 * 64) = .host ∧
      ∃ t, exec (.hostLineFill hostBase 9 false) wanted = .next t ∧ Machine.peek t hostBase 64 = 9) ∧
    ((2 ^ 63 : Nat) / 2 ^ 63 = 1 ∧ s.host.flip = none ∧ 4096 * (0 + 0 + 1) ≤ hbmSize s ∧
      ∃ t, exec (.biasFlipStart (BitVec.ofNat 64 (2 ^ 63))) s = .next t ∧ t.host.flip = some { page := 0, left := 1, toDevice := false, since := 0 }) ∧
    ((flip f0).host.flip = some f0 ∧ lockCovers (flip f0) 5 = false ∧ (∃ t, exec .biasFlipPage (flip f0) = .next t ∧ t.host.flip = some { f0 with asked := true })) ∧
    (lockCovers locked 5 = true ∧ f0.since + 1000 * Config.cyclesPerUs < locked.cyc ∧
      ∃ t, exec .biasFlipWaitTimeout locked = .next t ∧ t.host.flip = some { f0 with late := true }) := by
  refine ⟨⟨rfl, ?_, ?_, rfl⟩, ⟨?_, rfl, ?_, ⟨_, rfl, ?_⟩, ?_, ⟨_, rfl, ?_⟩⟩, ⟨?_, ?_, ?_⟩, ⟨?_, ?_, next_eq ?_⟩, ⟨?_, ?_, next_eq ?_⟩, ⟨?_, ?_, rfl, ?_⟩, ⟨rfl, rfl⟩,
    ⟨?_, rfl, ⟨_, rfl, ?_⟩⟩, ⟨rfl, next_eq ?_⟩, ⟨?_, ?_, ⟨_, rfl, ?_⟩⟩, ⟨?_, rfl, ?_, ⟨_, rfl, ?_⟩⟩, ⟨rfl, ?_, ⟨_, rfl, ?_⟩⟩,
    ⟨?_, ?_, ⟨_, rfl, ?_⟩⟩⟩ <;> decide +kernel

/-- A packet of device 1 to this device with sequence number `seq`. -/
def pkt (ty op seq off : Nat) (data : List (BitVec 512)) : Packet :=
  { hdr := hdrBits { ty := ty, ddev := 0, sdev := 1, seq := seq, op := op, off := off, lane := typeLane ty, len := typeLen ty, scope := 4 }, data := data }
/-- A device whose links are up and that knows device 1. -/
def linked : State :=
  { State.reset with
    fab :=
      { State.reset.fab with
        routes := [(1, 0x81FFFC00)]
        ports := (List.range 26).map fun k => (k, { up := true, lanes := 4, credReq := 256, credRep := 256 })
        filt := [(2, { known := true }), (3, { known := true })] } }

/-- Ports at the ends; a known source's next number, an old one and one far ahead; an unknown source; accesses of HBM. -/
theorem witness_PacketsMeetTheirFilterAndAct :
    let rd := pkt 1 6 1 0x2000 []
    let w := 2 * 1 + typeLane 2
    let s := { linked with net := [] }
    (17 < 18 ∧ (portOf linked 17).up = true ∧ malformed rd = false ∧ (hdrOf rd.hdr).ty = 1 ∧ (hdrOf rd.hdr).ddev = linked.dev ∧
      malformed { rd with data := [0] } = true) ∧
    ((filtOf linked w).known = true ∧ (filtOf linked w).waiting = [] ∧ (0 + 65536 - (filtOf linked w).cum) % 65536 = 0 ∧
      63488 < (65535 + 65536 - (filtOf linked w).cum) % 65536 ∧ (filtOf linked 4).known = false) ∧
    (offsetPa s 0x2000 = some 0x2000 ∧ remapping s 0x2000 = false ∧ homeGate s (pktCid w 1) 0x2000 1 = .go ∧
      homeGate s (pktCid w 1) 0x2000 0 = .go ∧ homeGate s (pktCid w 1) 0x2000 2 = .go ∧ spaceOf s 0x2000 = .hbm ∧ s.ms.susp = [] ∧
      poisonAt s 0x2000 64 = false ∧ protoOf s (hbmPrism 0x2000) 0x2000 ≠ 1) ∧
    (∃ t, exec (.rd 17 rd) linked = .next t ∧ (t.fab.tx.length == 1) = true) ∧
    (∃ t, exec (.wr 0 (pkt 2 0 1 0x2000 [7])) linked = .next t ∧ Machine.peek t 0x2000 1 = 7) ∧
    (∃ a, pktRmw 0 (BitVec.ofNat 512 5) = some a) := by
  refine ⟨⟨?_, rfl, rfl, rfl, rfl, rfl⟩, ⟨rfl, rfl, ?_, ?_, rfl⟩, ⟨rfl, rfl, ?_, ?_, ?_, rfl, rfl, rfl, ?_⟩, ⟨_, rfl, ?_⟩, ⟨_, rfl, ?_⟩, ⟨_, rfl⟩⟩ <;>
    decide +kernel

/-- A domain barrier of the last entry in state `st`. -/
def domAt (st : Nat) : W64 := BitVec.ofNat 64 (2 ^ 63 + st * 2 ^ 61 + 2 ^ 25 + 2 ^ 9)

theorem witness_LinksAndTimersAct :
    let late (s : State) : State := { s with cyc := 10000000 }
    let held : HeldPkt := { seq := 0, pkt := pkt 1 6 0 0 [] }
    let win (x : Window) : State := late { linked with fab := { linked.fab with win := [(2, x)] } }
    let down : State := late { State.reset with fab := { State.reset.fab with routes := [(1, 0x83FFFC00)], win := [(2, { allDown := some 0 })] } }
    let bar (st : Nat) : State := late { linked with fab := { linked.fab with dombar := [(63, domAt st)], failedAt := some 0 } }
    let fr : Frame := { hdr := BitVec.ofNat 32 (2 ^ 28), fcsOk := true, packets := [pkt 1 6 1 0x2000 []] }
    (25 < 26 ∧ (portOf linked 25).up = true ∧ 16 ≤ (portOf { linked with fab := { linked.fab with ports := [(25, { up := true, resends := 16 })] } } 25).resends ∧
      (portOf (late linked) 25).lastValid + 2 * Config.cyclesPerUs ≤ (late linked).cyc) ∧
    ((bootTable State.reset).fabric = true ∧ (portOf State.reset 25).up = false ∧
      ∃ t, exec (.linkTraining 25 { versions := 1, rate224 := false, lanes := 2 }) State.reset = .next t ∧ (portOf t 25).lanes = 2) ∧
    (let s := late { linked with fab := { linked.fab with filt := [(2, { known := true, since := some 0 })] } };
      (filtOf s 2).waiting = [] ∧ (∃ c, (filtOf s 2).since = some c ∧ c + Config.cyclesPerUs ≤ s.cyc) ∧ (filtOf linked 2).since = none) ∧
    (let s := win { held := [held], timer := some 0 };
      (winOf s 2).held ≠ [] ∧ (winOf s 2).timer = some 0 ∧ 0 + s.fab.tackUs * Config.cyclesPerUs ≤ s.cyc) ∧
    (activeCand (routeOf linked 1) = some 0 ∧ activeCand (routeOf down 1) = none ∧ (winOf down 2).allDown = some 0 ∧
      0 + 100 * Config.cyclesPerUs ≤ down.cyc) ∧
    (let s := late { linked with fab := { linked.fab with win := [(3, { holdUntil := some 0 })] } };
      (winOf s 2).holdUntil = none ∧ ∃ c, (winOf s 3).holdUntil = some c ∧ c ≤ s.cyc) ∧
    (let s := late { linked with fab := { linked.fab with win := [(2, { holdUntil := some 0 }), (3, { holdUntil := some 0 })] } };
      (∃ c, (winOf s 2).holdUntil = some c ∧ c ≤ s.cyc) ∧ ∃ c, (winOf s 3).holdUntil = some c ∧ c ≤ s.cyc) ∧
    (let s := late { linked with fab := { linked.fab with nakWait := [(2, held, 0)] } }; s.fab.nakWait[0]? = some (2, held, 0) ∧ 0 ≤ s.cyc) ∧
    (0 < 4 ∧ candPort (routeOf down 1) 0 < 26 ∧ candDown (routeOf down 1) 0 = true) ∧
    (63 < 64 ∧ (domEntry (bar 1) 63).getLsbD 63 = true ∧ domState (domEntry (bar 1) 63) = 1 ∧
      domExpect (domEntry (bar 1) 63) ≤ domCount (domEntry (bar 1) 63) ∧ domState (domEntry (bar 2) 63) = 2 ∧
      0 + 2 * (bar 2).fab.tackUs * Config.cyclesPerUs ≤ (bar 2).cyc ∧ 3 < 4 ∧ 255 < 256 ∧ 65535 < 65536) ∧
    (let s := win { }; let s := { s with fab := { s.fab with win := [(3, { synced := true })] } };
      routable s 1 = true ∧ 1 < 16384 ∧ s.fab.resetAt + 1000 * Config.cyclesPerUs ≤ s.cyc ∧ (winOf s 2).synced = false ∧
      (winOf s 3).synced = true) ∧
    (18 ≤ 18 ∧ (portOf linked 18).up = true ∧ frameOk fr = true ∧ frameOk { fr with fcsOk := false } = false ∧
      ∃ t, exec (.scaleOutFrame 18 fr) linked = .next t ∧ (t.fab.tx.length == 1) = true) := by
  refine ⟨⟨?_, rfl, ?_, ?_⟩, ⟨rfl, rfl, ⟨_, rfl, ?_⟩⟩, ⟨rfl, ⟨_, rfl, ?_⟩, rfl⟩, ⟨?_, rfl, ?_⟩, ⟨?_, ?_, rfl, ?_⟩, ⟨rfl, ⟨_, rfl, ?_⟩⟩,
    ⟨⟨_, rfl, ?_⟩, ⟨_, rfl, ?_⟩⟩, ⟨rfl, ?_⟩, ⟨?_, ?_, ?_⟩, ⟨?_, ?_, ?_, ?_, ?_, ?_, ?_, ?_, ?_⟩, ⟨?_, ?_, ?_, ?_, ?_⟩, ⟨?_, rfl, ?_, ?_, ⟨_, rfl, ?_⟩⟩⟩ <;> decide +kernel

/-! ### The command stream -/

/-- A packet from its first word's fields and its words 1 to 3. -/
def packet (ty ts w1 w2 w3 : Nat) : Nat := ty + (if ty = 1 then 2 * 2 ^ 14 else 0) + ts * 2 ^ 16 + w1 * 2 ^ 64 + w2 * 2 ^ 128 + w3 * 2 ^ 192
/-- A queue of function 0 whose ring stands in host memory at 0x10000, with `n` bytes written. -/
def queue0 (n : Nat) : Queue :=
  { fn := 0
    qidx := 0
    asid := 1
    gang := 0
    prio := 0
    since := 0
    ring := 0x10000
    wptrA := 0x8000
    rptrA := 0x8008
    log2 := 12
    loc := false
    wptr := n
    levels := [{ base := 0x10000, len := 0, loc := false, pos := 0 }] }
/-- It is mapped to slot 0, with the packet `x` of `n` bytes in its ring. -/
def queued1 (q : Queue) (n x : Nat) (s : State) : State :=
  hostPoke 0 0x10000 n x { paged s with fe := { s.fe with slots := [(0, some q)] } }

theorem nextPacket_of {s : State} {slot : Nat} {q0 : Queue} {l : Level} {p : Nat → State → Bool}
    (h1 : slotQ s slot = some q0) (h2 : mayIssue forPackets q0 = true) (h3 : q0.wait = none) (h4 : q0.loc = false)
    (h5 : popLevels q0.levels = [l])
    (h : endsOk ((fetchPkt { q0 with levels := [l] } l.pos) (setSlotQ slot (some { q0 with levels := [l] }) s)) p = true) :
    ∃ x put t, NextPacket s slot { q0 with levels := [l] } l x put t ∧ p x t = true := by
  obtain ⟨x, t, hx, hp⟩ := ok_of h
  refine ⟨x, fun x => hostPoke q0.fn q0.rptrA 8 x, t, ⟨q0, [], t, h1, h2, h3, by rw [h5], rfl, hx, ?_⟩, hp⟩
  simp [rptrWrite, h4]
  rfl
/-- The front end reaches an address. -/
def reached (r : FeRes × State) : Bool :=
  match r.1 with
  | .ok _ _ => true
  | _ => false
/-- What the packets of these tests are, once read. -/
def next0 (n x : Nat) (p : Nat → State → Bool) : Prop :=
  let s := queued1 (queue0 (32 * n)) (32 * n) x State.reset
  ∃ y put t, NextPacket s 0 { queue0 (32 * n) with levels := [{ base := 0x10000, len := 0, loc := false, pos := 0 }] }
    { base := 0x10000, len := 0, loc := false, pos := 0 } y put t ∧ p y t = true
theorem next0_of {n x : Nat} {p : Nat → State → Bool}
    (h : endsOk ((fetchPkt { queue0 (32 * n) with levels := [{ base := 0x10000, len := 0, loc := false, pos := 0 }] } 0)
      (setSlotQ 0 (some { queue0 (32 * n) with levels := [{ base := 0x10000, len := 0, loc := false, pos := 0 }] })
        (queued1 (queue0 (32 * n)) (32 * n) x State.reset))) p = true) : next0 n x p :=
  nextPacket_of rfl rfl rfl rfl rfl h

/-- Packets that act, one that a PRED skips, one behind an aborted WAIT, a barrier behind an open packet, a queue that may
not issue, an empty ring and a bad packet. -/
theorem witness_PacketsIssueInOrder :
    let l : Level := { base := 0x10000, len := 0, loc := false, pos := 0 }
    let open_ : Queue := { queue0 32 with issued := [{ serial := 1, ty := 1 }] }
    let empty := queued1 (queue0 0) 0 0 State.reset
    let bad := queued1 (queue0 32) 32 (packet 9 0 1 0 0) State.reset
    next0 1 (packet 9 0 0 0 0) (fun x t => pkTy x == 9 && (slotQ t 0).isSome) ∧
    PacketActs (queue0 32) l (packet 9 0 0 0 0) ∧
    ((queue0 32).issued = [] ∧ open_.issued ≠ [] ∧ pkB (packet 9 0 0 0 0 + 2 ^ 12) = true ∧
      next0 1 (packet 9 0 0 0 0 + 2 ^ 12) (fun x _ => pkB x)) ∧
    (let q : Queue := { queue0 32 with levels := [{ l with skip := 1 }] };
      ∃ x put t, NextPacket (queued1 q 32 (packet 9 0 0 0 0) State.reset) 0 { q with levels := [{ l with skip := 1 }] } { l with skip := 1 } x put t ∧
        (pkTy x == 9) = true) ∧
    (let q : Queue := { queue0 32 with levels := [{ l with guardN := 1 }] };
      ∃ x put t, NextPacket (queued1 q 32 (packet 3 0 0x100 7 0) State.reset) 0 { q with levels := [{ l with guardN := 1 }] } { l with guardN := 1 } x put t ∧
        endsOk ((abortDependant q x) t) (fun _ _ => true) = true) ∧
    (mayIssue forPackets { queue0 32 with parked := true } = false ∧ mayIssue forPackets { queue0 32 with held := some forWait } = false ∧ slotQ State.reset 255 = none) ∧
    (popLevels (queue0 0).levels = [l] ∧ (∃ t, (fetchPkt (queue0 0) 0) (setSlotQ 0 (some (queue0 0)) empty) = .error .room t)) ∧
    (∃ t, (fetchPkt (queue0 32) 0) (setSlotQ 0 (some (queue0 32)) bad) = .error (.err 1) t) ∧
    (∃ x t, (fetchChunk (queue0 32) 0) bad = .ok x t ∧ (pkTy x != 1) = true) := by
  refine ⟨next0_of ?_, ⟨rfl, rfl, ?_, ?_⟩, ⟨rfl, ?_, ?_, next0_of ?_⟩, nextPacket_of rfl rfl rfl rfl rfl ?_,
    nextPacket_of rfl rfl rfl rfl rfl ?_, ⟨rfl, rfl, rfl⟩, ⟨rfl, _, rfl⟩, ⟨_, rfl⟩, ok_of ?_⟩
  all_goals first
    | exact fun _ => rfl
    | decide +kernel

/-- A packet of each type that acts; a LOOP that goes back and one that ends; stores of both kinds; tests that hold and
fail; a header of no identifier, and one of one identifier with a valid actor. -/
theorem witness_PacketsHaveTheirEffect :
    let q := queue0 32
    let at_ (f : Bool) (t : State) : Bool := reached (feAccess t 1 0x4000 8 f)
    let hd (n : Nat) (s : State) : State := poke 0x4000 64 (6 * 2 ^ 7 + 1 * 2 ^ 45 + n * 2 ^ 64 + (32 + 2 ^ 16) * 2 ^ 128 + 0x2000 * 2 ^ 192) s
    let l : Level := { base := 0x10000, len := 0, loc := false, pos := 0 }
    let l32 : Level := { l with pos := 32 }
    let loopQ : Queue := { queue0 64 with levels := [l32] }
    let swept (n : Nat) : State := actorMem (hd n (queued1 q 32 (packet 2 0 0x4000 0 0) State.reset))
    next0 1 (packet 9 0 0 0 0) (fun x _ => pkTy x == 9) ∧
    next0 1 (packet 10 2 0 0 0) (fun x _ => pkTy x == 10) ∧
    (next0 1 (packet 7 0 0x6000 32 0) (fun x _ => pkTy x == 7) ∧ q.levels.length < 3) ∧
    (∃ x put t, NextPacket (queued1 loopQ 64 (packet 9 0 0 0 0 + packet 8 0 (32 + 2 * 2 ^ 32) 0 0 * 2 ^ 256) State.reset) 0 { loopQ with levels := [l32] } l32 x put t ∧
      (pkTy x == 8 && decide (pkW x 1 % 2 ^ 32 ≤ l32.pos) && endsOk ((holdsLoop loopQ 32 64 0) t) (fun b _ => !b) &&
        decide (l32.loops + 1 < pkW x 1 / 2 ^ 32) && decide (pkW x 1 / 2 ^ 32 ≤ 1 + 1)) = true) ∧
    next0 1 (packet 3 0 0x4000 7 0) (fun x t => pkTy x == 3 && pkOp x == 0 && pkW x 1 % 8 == 0 && at_ true t) ∧
    next0 1 (packet 5 1 0x4000 7 0) (fun x t => pkTy x == 5 && pkOp x == 1 && at_ true t) ∧
    next0 1 (packet 4 0 0x4000 0 0) (fun x t => pkTy x == 4 && at_ false t && cmpHolds (pkCmp x) 0 (pkW x 2) (pkW x 3) &&
      !cmpHolds (pkCmp x) 1 0 1) ∧
    next0 1 (packet 6 2 0x4000 0 0 + 2 ^ 24) (fun x t => pkTy x == 6 && at_ false t && cmpHolds (pkCmp x) 0 (pkW x 2) (pkW x 3)) ∧
    next0 3 (packet 1 0 0x4000 0x5000 0) (fun x t => pkTy x == 1 && pkW x 3 % 8 == 0 &&
      (match engineWalk t 1 (pkW x 2) (kRead ||| kEngine) false with
        | (.ok _, _) => true
        | _ => false)) ∧
    (∃ x put t, NextPacket (swept 1) 0 { q with levels := [l] } l x put t ∧ endsOk ((feHeader q (pkW x 1)) t) (fun hd u =>
      hdrWord hd.1 5 % 8 == 0 && endsOk ((sweepChecks q hd.1) u) fun r _ => r.isSome) = true) ∧
    (∃ x put t, NextPacket (swept 0) 0 { q with levels := [l] } l x put t ∧ endsOk ((feHeader q (pkW x 1)) t) (fun hd u =>
      endsOk ((sweepChecks q hd.1) u) fun r _ => r.isNone) = true) ∧
    (cmpHolds 0 0xFF 0xF 0xF = true ∧ cmpHolds 1 0xFF 0xF 0xF = false ∧ cmpHolds 2 4 4 0xF = true ∧ cmpHolds 3 4 4 0xF = false ∧
      cmpHolds 4 (2 ^ 56) 0 0 = true) := by
  refine ⟨next0_of ?_, next0_of ?_, ⟨next0_of ?_, ?_⟩, nextPacket_of rfl rfl rfl rfl rfl ?_, next0_of ?_, next0_of ?_, next0_of ?_,
    next0_of ?_, next0_of ?_, nextPacket_of rfl rfl rfl rfl rfl ?_, nextPacket_of rfl rfl rfl rfl rfl ?_, ?_, ?_, ?_, ?_, ?_⟩ <;>
    decide +kernel

/-- A queue that waits on a word; a graph of one node whose packet has ended; write pointers at and past a full ring; an
enabled descriptor of the last directory entry. -/
theorem witness_QueuesAreMappedPolledAndTornDown :
    let w : Queue := { queue0 32 with wait := some (0x4000, 0, 0, 0, 0) }
    let s := queued1 w 0 0 State.reset
    let i : Issued := { serial := 2, ty := 3, node := some (0, 0), done := some stDone }
    let gq : Queue := { queue0 32 with issued := [{ serial := 1, ty := 11 }, i] }
    let g : Graph := { id := 0, serial := 1, desc := 0x100, sig := 0, iter := 1, nodes := [.launched], pkts := [0], succs := [[]], preds := [0] }
    let gs : State := { queued1 gq 0 0 State.reset with fe := { slots := [(0, some gq)], graphs := [g] } }
    let wp (n : Nat) : State := hostPoke 0 0x8000 8 n (queued1 (queue0 0) 0 0 State.reset)
    let desc (en : Nat) : State := hostPoke 0 0x1000 8 0x10000 (hostPoke 0 0x1018 1 12 (hostPoke 0 0x1019 1 en (hostPoke 0 0x1008 8 0x8000
      (hostPoke 0 0x1010 8 0x8008 (hostPoke 0 0x8000 8 32
        { State.reset with host := { State.reset.host with fns := [(0, { vfctl := vfctl0, qdirbase := 0x1000, hvsel := 0x1111 })] } })))))
    let torn : State := { desc 0 with fe := { slots := [(0, some (queue0 0))] } }
    (slotQ s 0 = some w ∧ mayIssue forWait w = true ∧ (∀ i ∈ w.issued, i.test = none) ∧ reached (feAccess s 1 0x4000 8 false) = true ∧
      cmpHolds 0 0 0 0 = true ∧ cmpHolds 0 1 0 1 = false) ∧
    (graphOf gs 0 = some g ∧ graphQueue gs g = some gq ∧ mayIssue (forGraph 0) gq = true ∧
      gq.issued.find? (fun i => i.node == some (0, 0) && i.done.isSome) = some i ∧ i.done = some stDone ∧ g.cond = none ∧
      0 < g.nodes.length ∧ g.succs.getD 0 [] = [] ∧ (∀ k, k < g.nodes.length → k ≠ 0 → g.nodes[k]? = some .done)) ∧
    (0 < ({ g with nodes := [.launched, .waiting 1], succs := [[1], []] } : Graph).nodes.length ∧
      (nodeDone 0 stDone { g with nodes := [.launched, .waiting 1], succs := [[1], []] }).nodes[1]? = some (.waiting 0)) ∧
    (hostBad (wp 4096) 0 0x8000 8 = false ∧ hostPeek (wp 4096) 0 0x8000 8 % 32 = 0 ∧ hostPeek (wp 4096) 0 0x8000 8 ≤ 0 + 2 ^ 12 ∧
      (∃ t, exec (.wptrPoll 0) (wp 32) = .next t ∧ ((slotQ t 0).any fun q => q.wptr == 32) = true)) ∧
    (hostBad { wp 4128 with host := { (wp 4128).host with iobad := [(8, true)] } } 0 0x8000 8 = true ∧
      0 + 2 ^ 12 < hostPeek (wp 4128) 0 0x8000 8 ∧ (∀ p ∈ allQs (wp 4128), isQ 0 0 p = true → p.failed = false)) ∧
    (0 < 64 ∧ 0 < dirSize (desc 1) 0 ∧ fnReady (desc 1) 0 = true ∧ mappedOf (desc 1) 0 0 = none ∧ keptOf (desc 1) 0 0 = none ∧
      descEn (descOf (desc 1) 0 0) = true ∧ descOk (desc 1) 0 (descOf (desc 1) 0 0) = true ∧ descFresh (descOf (desc 1) 0 0) = true ∧
      queuePending (desc 1) 0 0 = true ∧ descOk (desc 5) 0 (descOf (desc 5) 0 0) = false ∧ descFresh (descOf (desc 5) 0 0) = true) ∧
    (gangTodo (desc 1) 0 1024 = [0] ∧ gangPending (desc 1) 0 1024 = true ∧ gangBehind (desc 1) 0 1024 = false ∧
      queueWaits (desc 1) 0 0 = false ∧ ((mappedQs (desc 1)).filter fun e => e.2.fn == 0).length + 1 ≤ slotQuota (desc 1) 0 ∧
      descLoc (descOf (desc 1) 0 0) = false ∧ hostBad (desc 1) 0 (descOf (desc 1) 0 0).rptr 8 = false ∧ openSlot (desc 1) = some 0 ∧
      ∃ t, exec (.gangMap 0 1024) (desc 1) = .next t ∧ (slotQ t 0).isSome = true) ∧
    (anyQ torn 0 0 = some (queue0 0) ∧ descEn (descOf torn 0 0) = false ∧
      ∃ t, exec (.queueTeardown 0 0) torn = .next t ∧ (anyQ t 0 0).isNone = true) := by
  refine ⟨⟨rfl, rfl, ?_, ?_, ?_, ?_⟩, ⟨rfl, ?_, rfl, ?_, rfl, rfl, ?_, rfl, ?_⟩, ⟨?_, ?_⟩, ⟨?_, ?_, ?_, _, rfl, ?_⟩, ⟨?_, ?_, ?_⟩,
    ⟨?_, ?_, ?_, ?_, ?_, ?_, ?_, ?_, ?_, ?_, ?_⟩, ⟨?_, ?_, ?_, ?_, ?_, ?_, ?_, ?_, _, rfl, ?_⟩, ⟨?_, ?_, _, rfl, ?_⟩⟩ <;> decide +kernel

/-! ### Events of firings, of memory and of Prisms -/

/-- An actor over a line at 0x1000 with a SAVE area at 0x8000. -/
def actor0 : Actor := { code := capAt 0x1000 64, save := capAt 0x8000 0x8000 }
/-- Core 32 has accepted, or is to accept, sweep `w`. -/
def wakeFor (w : Sweep) (k : CoreSt) (s : State) : State := withCore k { s with fe := { sweeps := [w] } }

/-- A sweep whose core has reported, and one whose core has not; wakes with room, with a bad actor and with a good one; a
message and a queued firing to place; a FIFO firing; messages of the package at their targets; ageing at 2^20 cycles; a
stalled GROW; a slot at its limit; saves and a restore; a neighbour write held, and the fifth. -/
theorem witness_FiringsBeginAndAreMoved :
    let w (rec : Nat) : Sweep := { sweep0 1 false with header := (sweep0 1 false).header.set 3 (BitVec.ofNat 64 rec) }
    let base := paged State.reset
    let wake := wakeFor (w 0x2000) { wakes := [0] } (actorMem base)
    let badWake := wakeFor (w 0x3000) { wakes := [0] } base
    let m : Msg := { line := 0x1000, target := 9, sender := 5, asid := 1, payload := List.replicate 8 (int 4) }
    let place := withCore { inbound := [m] } base
    let q : QFiring := { fir := { fir0 with actor := actor0 }, enq := 0 }
    let old := withCore { fq := [q] } { base with cyc := 2 ^ 20 }
    let bound := withCore { bind := [(3, 2 ^ 127)], bindActor := [(3, some { actor0 with outs := [BitVec.ofNat 64 (2 ^ 63 + 2 ^ 58 + 33 * 2 ^ 46)] })], cred := [(12, 4)] } base
    let net (k : NetMsg) (s : State) : State := { s with net := [k] }
    let fifo := net (.fifo 32 33 0 [1, 0, 0, 0, 0, 0, 0, 0] (0, 1))
      { base with cores := [(33, { fifo := [(0, fifoWritten 0 (BitVec.ofNat 128 (2 ^ 127 + 2 * 2 ^ 120 + 32 * 2 ^ 53)))] })] }
    let credit := net (.credit 32 33 1 2) bound
    let und (p : Option (Nat × Nat)) (sender : Nat) : State := net (.undeliverable 40 5 sender 9 0 none 1 p) (core [])
    let grower (c : Nat) : State := { run { ctx0 [] with st := .waiting, wait := .grow false 1 } with cyc := c, cores := [(32, { poolC := 0, stallSince := some 0 })] }
    let slotted (c : Nat) : State := withCore { slot := some 0 } { core [] with cyc := c }
    let saver := run { ctx0 [] with fir := some { fir0 with actor := actor0 } }
    let v : Saved := { cid := 256, fir := { fir0 with cch := 1, vch := 0, actor := actor0 }, asid := 1, complete := true, written := true }
    let back := poke 0x8000 16 (0x57534156 + 2 ^ 32 + mkHandle 0 32 0 1 * 2 ^ 64)
      (withCore { fq := [{ q with restoreTo := some 256, fir := v.fir }], saved := [v] } base)
    let nw := net (.nwrite 256 (mkHandle 0 32 0 1) false 1 (int 3) 0 7) (core [])
    let held : HoldEntry := { isV := false, reg := 1, sender := 7, cap := int 3, vec := 0 }
    ((sweep0 1 false).reports.length < hdrP (sweep0 1 false).header ∧
      hdrP (sweep0 1 false).header ≤ ({ sweep0 1 false with reports := [(32, stDone)] } : Sweep).reports.length) ∧
    ((coreOf wake 32).wakes = [0] ∧ wakeParked wake 32 = false ∧ wake.fe.sweeps.find? (·.id == 0) = some (w 0x2000) ∧
      (coreOf wake 32).share = none ∧ (match (readActor wake 1 0 0x2000).1 with
        | .ok (some _) => true
        | _ => false) = true ∧
      (match (readActor badWake 1 0 0x3000).1 with
        | .ok none => true
        | _ => false) = true) ∧
    (computeCore place 32 = true ∧ spCount (coreOf place 32).spctl = 0 ∧ (coreOf place 32).inbound = [m] ∧ (coreOf place 32).fq = [] ∧
      (stripOf place 2).remap = none ∧ (ctxOf place (32 * 8 + 7)).st = .free ∧ (ctxOf place (32 * 8 + 7)).fir = none ∧ m.payload.length = 8 ∧
      (∃ t, exec (.firingPlace 32) place = .next t ∧ (ctxOf t 263).pc = ⟨0x1000, 1⟩)) ∧
    (queueHead old 32 = some q ∧ q.restoreTo = none ∧ q.fir.actor.checked = false ∧ freePlace old 32 = some 0 ∧
      placeable old 32 q.fir.cch q.fir.vch = true ∧ (ctxOf old 256).hold = [] ∧ q.enq + 2 ^ 20 ≤ old.cyc ∧ q.fir.prio < 3) ∧
    (fifoRule bound 32 3 = true ∧ fifoRule base 32 3 = false ∧ computeCore bound 32 = true) ∧
    (netAt fifo 0 = some (.fifo 32 33 0 [1, 0, 0, 0, 0, 0, 0, 0] (0, 1)) ∧
      (fifoV (fifoOf fifo 33 0) && fifoPcore (fifoOf fifo 33 0) == 32 && fifoCnt (fifoOf fifo 33 0) < fifoCap (fifoOf fifo 33 0)) = true) ∧
    (netAt credit 0 = some (.credit 32 33 1 2) ∧ creditPlace (netTake 0 credit) 32 33 1 = some (3, 0)) ∧
    (netAt (net (.msg 32 m) base) 0 = some (.msg 32 m) ∧ m.reply = false ∧ inboundRoom (coreOf base 32) false = true ∧ m.from_ = none ∧
      computeCore base 4096 = false) ∧
    (netAt (und none (mkHandle 0 32 0 1)) 0 = some (.undeliverable 40 5 (mkHandle 0 32 0 1) 9 0 none 1 none) ∧ mkHandle 0 32 0 1 < 2 ^ 40 ∧
      placedHandle (und none (mkHandle 0 32 0 1)) (mkHandle 0 32 0 1) = true ∧ 2 ^ 40 ≤ 2 ^ 40 ∧
      netAt (und (some (0, 1)) 5) 0 = some (.undeliverable 40 5 5 9 0 none 1 (some (0, 1)))) ∧
    (growStalled (grower (2 ^ 20)) 32 = true ∧ (coreOf (grower (2 ^ 20)) 32).stallSince = some 0 ∧ 0 + 2 ^ 20 ≤ (grower (2 ^ 20)).cyc ∧
      (coreOf base 32).stallSince = none ∧ growStalled base 32 = false) ∧
    ((coreOf (slotted 4096) 32).slot = some 0 ∧ (ctxOf (slotted 4096) 256).wait = .none ∧ (firOf (slotted 4096) 256).lens = none ∧
      (coreOf (slotted 4096) 32).slotSince + 4096 ≤ (slotted 4096).cyc ∧ (slotted 4095).cyc < (coreOf (slotted 4095) 32).slotSince + 4096) ∧
    (mayPreempt saver 256 = true ∧ stoppable saver 256 = true ∧ saveOf base 256 = none ∧ mayPreempt base 256 = false) ∧
    (queueHead back 32 = some { q with restoreTo := some 256, fir := v.fir } ∧ computeCore back 32 = true ∧
      (coreOf back 32).saved.find? (fun x => x.fir.handle == fir0.handle) = some v ∧ v.parked = false ∧ v.paired = false ∧ placeable back 32 1 0 = true ∧
      v.units.length ≤ unitsFree back 32 ∧ endsOk ((readImage v) back) (fun _ _ => true) = true) ∧
    (netAt nw 0 = some (.nwrite 256 (mkHandle 0 32 0 1) false 1 (int 3) 0 7) ∧ savedOf nw (mkHandle 0 32 0 1) = none ∧
      retiredCore nw (coreNo 256) = false ∧ retiredCore nw 4096 = true ∧ placedHandle nw (mkHandle 0 32 0 1) = true ∧ placedHandle base (mkHandle 0 32 0 1) = false ∧ allotG 256 (ctxOf nw 256) 63 = true ∧
      ([] : List HoldEntry).length < 4 ∧ 4 ≤ [held, held, held, held].length) := by
  refine ⟨⟨?_, ?_⟩, ⟨rfl, ?_, ?_, rfl, ?_, ?_⟩, ⟨?_, ?_, rfl, rfl, rfl, ?_, ?_, rfl, ⟨_, rfl, ?_⟩⟩, ⟨?_, rfl, rfl, ?_, ?_, ?_, ?_, ?_⟩,
    ⟨?_, ?_, ?_⟩, ⟨?_, ?_⟩, ⟨?_, ?_⟩, ⟨?_, rfl, ?_, rfl, ?_⟩, ⟨?_, ?_, ?_, ?_, ?_⟩, ⟨?_, ?_, ?_, ?_, ?_⟩, ⟨rfl, ?_, ?_, ?_, ?_⟩, ⟨?_, ?_, ?_, ?_⟩,
    ⟨?_, ?_, ?_, ?_, ?_, ?_, ?_, ?_⟩, ⟨?_, ?_, ?_, ?_, ?_, ?_, ?_, ?_, ?_⟩⟩ <;> decide +kernel

/-- A result that arrives; walks that end in a leaf and in a fault; a store acknowledged, one that waits for an owner, and
one that is not ready; the strip's atomic unit; notices; replicas; a stream; lines of the L2; the watchdog at its limit; an
array operation at its latency; a lens and a pair that start; a copy that ends; waits at their cycle. -/
theorem witness_MemoryEventsComplete :
    let p (k : Option Nat) : Pend := { id := 0, dst := .g 4, pieces := [{ pa := 0x2000, n := 8, known := k }], fin := .int 8 false }
    let pending := run { ctx0 [] with pend := [p (some 9)] }
    let walk (va : Nat) : Walk := { unit := 2, asid := 1, page := va / 4096, kind := kRead, user := true }
    let walking (va : Nat) : State := { paged State.reset with tr := { walks := [walk va] } }
    let crowded : State := { paged State.reset with tr := { walks := (List.range 128).map (fun k => walk (4096 * (100 + k))) ++ [walk 0x3000] } }
    let stored := withCore { sb := [sb0, sb0] } core0
    let owned : State := { stored with ms := { stored.ms with l2 := [(0x80, some { owner := some 5 })] } }
    let sau : State := { core0 with strips := [(2, { sauWait := [(256, 0, sb0)] })] }
    let net (k : NetMsg) (s : State) : State := { s with net := [k] }
    let mca := net (.replica 0x2000 [1, 0, 0, 0, 0, 0, 0, 0] false true 32) (withCore { sb := [{ sb0 with mca := 2 }] } core0)
    let stream := withCore { units := [(0, some unit0)] } core0
    let line (o : Option Nat) (pin : Option Nat) : State := { core0 with ms := { core0.ms with l2 := [(0x80, some { owner := o, pinned := pin })] } }
    let dog (c : Nat) : State := { core0 with cyc := c, strips := [(2, { gang := [(0, 256)], gangSince := some 0, gangCount := c, gwlim := 1 })] }
    let op (b : Option Nat) : ArrayOp := { slotA := 0, slotB := 1, f := 0, parts := [], started := b }
    let arr (b : Option Nat) (c : Nat) : State := { core0 with cyc := c, strips := [(2, { ops := [op b] })] }
    let lens : State := { run { ctx0 [] with st := .waiting } with grp := { lenses := [{ lead := 256, elems := [32] }] } }
    let pairing := run { ctx0 [] with st := .waiting, wait := .pairPark }
    let ended : Copy := { copy0 with ended := some (0, 0) }
    let done : State := { paged core0 with cp := { copies := [ended] } }
    let waits (c : Nat) : State := { run { ctx0 [] with st := .waiting, wait := .waitt 100 7 } with cyc := c, cp := { copies := [copy0] } }
    let fe (c : Nat) : State := { run { ctx0 [] with st := .waiting, wait := .fullEmpty spad0 false } with cyc := c }
    ((ctxOf pending 256).pend[0]? = some (p (some 9)) ∧ (∀ q ∈ (p (some 9)).pieces, q.known.isSome = true) ∧ arrives pending 256 (p (some 9)) = true ∧
      arrives pending 256 { p (some 9) with readyAt := 1 } = false ∧ (∀ q ∈ (p (some 9)).pieces, q.bad = none)) ∧
    ((walking 0x3000).tr.walks[0]? = some (walk 0x3000) ∧ walkInFlight (walking 0x3000) 0 (walk 0x3000) = true ∧
      walkInFlight crowded 128 (walk 0x3000) = false ∧
      walkTable (walking 0x3000) 1 (0x3000 / 4096 * 4096) kRead true = .leaf 0 (2 ^ 30) 0 0x13F 0x12000 ∧
      leafAllows (0x13F : W64).toNat kRead true = true ∧ walkTable (walking (2 ^ 30)) 1 (2 ^ 30) kRead true = .fault 0x0A 3) ∧
    ((coreOf stored 32).sb[0]? = some sb0 ∧ storeReady stored 32 0 sb0 = true ∧ storeReady stored 32 1 sb0 = false ∧
      (∀ d off, spaceOf stored sb0.pa ≠ .remote d off) ∧ sb0.mca = 0 ∧ homeGate stored sb0.cid sb0.pa 1 = .go ∧
      ownerOf stored (blockOf sb0.pa) = none ∧ ownerOf owned (blockOf sb0.pa) = some 5 ∧ storeReady owned 32 0 sb0 = true ∧
      exec (.storeAck 32 0) owned = .next (postNotice 5 (blockOf sb0.pa) owned)) ∧
    ((stripOf sau 2).sauWait[0]? = some (256, 0, sb0) ∧ homeGate sau 256 0x2000 1 = .go ∧ ownerOf sau 0x80 = none) ∧
    (netAt (net (.notice 7 5 0x80) owned) 0 = some (.notice 7 5 0x80) ∧
      (∃ t, exec (.ownershipNotice 0) (net (.notice 7 5 0x80) owned) = .next t ∧ (ownerOf t 0x80).isNone = true)) ∧
    (netAt (net (.replica 0x2000 [1] false false 32) core0) 0 = some (.replica 0x2000 [1] false false 32)) ∧
    (netAt mca 0 = some (.replica 0x2000 [1, 0, 0, 0, 0, 0, 0, 0] false true 32) ∧ 32 < 4096 ∧
      (coreOf mca 32).sb.findIdx? (fun e => e.mca == 2 && e.pa == 0x2000 && e.n == 8) = some 0) ∧
    (SMap.get none (coreOf stream 32).units 0 = some unit0 ∧ unit0.ahead.length < 4 ∧ unit0.pos + 0 * SU.per unit0 < SU.total unit0 ∧
      endsOk ((regRead unit0 0 (SU.per unit0) 0) { stream with cur := 256 }) (fun y _ => y.2.isNone) = true ∧
      SU.total unit0 ≤ 256) ∧
    (SMap.get none (line none (some 0)).ms.l2 0x80 = some { pinned := some 0 } ∧
      exec (.l2Eviction 0x80) (line (some 5) none) = .next (postNotice 5 0x80 (line (some 5) none)) ∧
      (∃ t, exec (.l2Eviction 0x80) (line none none) = .next t ∧ SMap.get none t.ms.l2 0x80 = none)) ∧
    ((stripOf (dog 1024) 2).gangSince = some 0 ∧ (stripOf (dog 1024) 2).gang ≠ [] ∧ gangPausedNow (dog 1024) 2 = false ∧
      bitsOf (stripOf (dog 1024) 2).gwlim.toNat 15 0 * 1024 ≤ (stripOf (dog 1024) 2).gangCount ∧ (stripOf (dog 1023) 2).gangCount < 1024) ∧
    ((stripOf (arr none 0) 2).ops = [op none] ∧ 0 + arrayTime 0 - 1 + 24 = 151 ∧ exec (.mmaRetire 2) (arr (some 0) 150) = .next (arr (some 0) 150) ∧
      (∃ t, exec (.mmaRetire 2) (arr (some 0) 151) = .next t ∧ (stripOf t 2).ops = [])) ∧
    (lens.grp.lenses.find? (·.lead == 256) = some { lead := 256, elems := [32] } ∧ lensFree lens { lead := 256, elems := [32] } = true ∧
      (ctxOf lens 256).st = .waiting ∧ { lens with cyc := 1 }.cyc ≠ 0 ∧ lens.cyc = 0 ∧
      lensFree lens { lead := 256, elems := [32], started := true } = true ∧ (ctxOf lens 256).fl = false) ∧
    ((ctxOf pairing 256).wait = .pairPark ∧ (ctxOf pairing 256).granted = false ∧ partnerPlace pairing 32 8 8 = some 512) ∧
    (done.cp.copies[0]? = some ended ∧ copyById done 0 = some ended ∧ onEngine done 0 ended = true ∧ CpF.sigen ended = false ∧
      CpF.scope ended < 4 ∧ copySettled done ended = true ∧
      onEngine { done with cp := { copies := List.replicate 16 ended ++ [ended] } } 16 ended = false ∧
      (match engineWalk (freeLocks 0 done) 1 (ringEntry ended.ring 7) (kWrite ||| kEngine) true with
        | (.ok (pa, _), t) => pa == 0x40E0 && homeGate t (copyMark 0) pa 1 == .go
        | _ => false) = true) ∧
    ((ctxOf (waits 100) 256).wait = .waitt 100 7 ∧ 100 ≤ (waits 100).cyc ∧ (waits 99).cyc < 100 ∧
      (∃ c ∈ (waits 100).cp.copies, c.core = coreNo 256 ∧ c.xid = 7 ∧ c.promise ≤ (waits 100).cyc) ∧
      ((ctxOf (waits 100) 256).fir.getD {}).missTaken.contains 7 = false) ∧
    ((ctxOf (fe 256) 256).since + 256 ≤ (fe 256).cyc ∧ (fe 255).cyc < (ctxOf (fe 255) 256).since + 256) := by
  refine ⟨⟨rfl, ?_, ?_, ?_, ?_⟩, ⟨rfl, ?_, ?_, ?_, ?_, ?_⟩, ⟨rfl, ?_, ?_, ?_, rfl, ?_, ?_, ?_, ?_, next_eq ?_⟩, ⟨rfl, ?_, ?_⟩, ⟨rfl, _, rfl, ?_⟩, rfl,
    ⟨rfl, ?_, ?_⟩, ⟨rfl, ?_, ?_, ?_, ?_⟩, ⟨rfl, next_eq ?_, _, rfl, ?_⟩, ⟨rfl, ?_, ?_, ?_, ?_⟩, ⟨rfl, ?_, next_eq ?_, _, rfl, ?_⟩,
    ⟨rfl, ?_, rfl, ?_, rfl, ?_, rfl⟩, ⟨rfl, rfl, ?_⟩, ⟨rfl, ?_, ?_, ?_, ?_, ?_, ?_, ?_⟩, ⟨rfl, ?_, ?_, ⟨_, List.mem_cons_self, rfl, rfl, ?_⟩, ?_⟩, ?_, ?_⟩
  all_goals first
    | decide +kernel
    | (intro d off h; cases h)

/-- Prism 0 with request `m`, a handler table at 0x80000 whose entries of type 6 stand, and command `cmd`. -/
def prism0 (m : PMsg) : State :=
  { poke 0x80030 8 (2 ^ 63 + 0x1000) State.reset with regs := { State.reset.regs with htbase := 0x80000 }, prisms := [(0, { req := [m] })] }
def command (n arg : Nat) : State :=
  { State.reset with regs := { State.reset.regs with prbusy := true, prcmd := BitVec.ofNat 64 (n * 2 ^ 60 + arg), rtbase := 0x90000, prarg := 0x48000 } }
/-- A region entry of 64 KiB at 0x40000 of this device, valid, with PEND and new protocol 2. -/
def region0 : Nat := 2 ^ 127 + 2 ^ 126 + 2 * 2 ^ 120 + 16 * 2 ^ 114 + 4 * 2 ^ 16

/-- A request with and without a handler, one that hardware answers, threads free and busy, the INV fast path, a retry, the
watchdog, spilled messages, a partial entry, and the supervisor's commands. -/
theorem witness_PrismsServeTheirMessages :
    let m : PMsg := { ty := 6, block := 0x48000 }
    let g : PMsg := { ty := 0, block := 0x48000, requester := BitVec.ofNat 64 (2 ^ 63 + 2 ^ 23) }
    let s := prism0 m
    let run_ : ThrRun := { msg := m }
    let full : State := { s with prisms := [(0, { req := [m], thr := (List.range 6).map fun t => (t, some run_) })] }
    let retry : State := { prism0 { m with retryAt := some 7 } with cyc := 7 }
    let dog (n : Nat) : State := { s with prisms := [(0, { wd := 5, thr := [(7, some { run_ with count := n })] })] }
    let part : Partial := { block := remotePa 1 0x2000, f := 0, w8 := false, mask := 1, data := 0, opened := 0, seqNo := 0 }
    let late : State := { State.reset with cyc := 190000, prisms := [(24, { part := [part] })] }
    let bind (e : Nat) : State := poke 0x90000 16 e (command 2 0)
    let busy := setAtag 0x48000 3 (command 3 (2 ^ 53 * 0 + 1))
    let p3 (n : Nat) (c : State) : State := { c with regs := { c.regs with prcmd := BitVec.ofNat 64 (3 * 2 ^ 60 + n * 2 ^ 54 + 1) } }
    ((inbox s 0 false)[0]? = some m ∧ firstMsg s 0 false = some 0 ∧ hardware 0 m (dropMsg 0 false 0 s) = none ∧
      (handlerEntry s 0 m).testBit 63 = true ∧ freeThread s 0 false = some 0 ∧ freeThread full 0 false = none ∧
      (handlerEntry State.reset 0 m).testBit 63 = false ∧ (hardware 0 g (prism0 g)).isSome = true ∧
      (∃ t, exec (.lread 0 0) s = .next t ∧ (ctxOf t 32768).pc = ⟨0x1000, 1⟩)) ∧
    (0 < 24 ∧ protoOf s 0 g.block = 0 ∧ (dirEntry s 0 g.block).getLsbD 60 = false ∧ (dirEntry s 0 g.block).getLsbD 8 = false ∧
      txnOpen s 0 g.block = false ∧ atagOf s g.block ≠ 3 ∧ dirDst (dirEntry s 0 g.block) ≤ 1 ∧ dirRoom s 0 (dirRegion g.block) = true) ∧
    (0 < 51 ∧ 7 < 8 ∧ SMap.get none (prismOf s 0).thr 5 = none ∧ (∃ t, exec (.prismDispatch 0 5) s = .next t ∧ (SMap.get none (prismOf t 0).thr 5).isSome = true)) ∧
    ((prismOf retry 0).req[0]? = some { m with retryAt := some 7 } ∧ 7 ≤ retry.cyc ∧ firstMsg retry 0 false = some 0) ∧
    (runOf (dog 5) 32775 = some { run_ with count := 5 } ∧ (prismOf (dog 5) 0).wd ≤ 5 ∧ 4 < (prismOf (dog 4) 0).wd) ∧
    ((prismOf late 24).part[0]? = some part ∧ spaceOf late part.block = .remote 1 0x2000 ∧ part.opened + 100 * Config.cyclesPerUs ≤ late.cyc) ∧
    (prUnder (command 1 0) 1 = true ∧ prUnder (command 2 0) 2 = true ∧ prUnder (command 4 (2 ^ 53 + 65535)) 4 = true ∧
      prUnder (command 5 0x100) 5 = true ∧ prUnder (command 6 0) 6 = true ∧ State.reset.regs.prbusy = false) ∧
    (regV (regionRead (bind region0) 0) = true ∧ regPend (regionRead (bind region0) 0) = true ∧ regOk (bind region0) (regionRead (bind region0) 0) = true ∧
      regNproto (regionRead (bind region0) 0) ≠ 7 ∧ regHome (regionRead (bind region0) 0) = (bind region0).dev ∧ regV (regionRead (bind 0) 0) = false) ∧
    (prAll busy = false ∧ servingPrism busy 0x48000 = 0 ∧ atagOf busy 0x48000 = 3 ∧ prPrism (p3 51 busy) = 51 ∧ bitsOf (prArgOf busy) 3 2 = 0) ∧
    (prArgOf (command 4 (2 ^ 53 + 65535)) % 65536 ≠ 0 ∧ prAll (command 4 (2 ^ 53 + 65535)) = true ∧ prArgOf (command 4 0) % 65536 = 0) ∧
    (localHbm (command 5 0x100) 0x48000 = true ∧ localHbm (command 5 0x100) 0x100000 = true ∧ pageHeld (command 5 0x100) 0x48000 = false) := by
  refine ⟨⟨rfl, ?_, ?_, ?_, ?_, ?_, ?_, ?_, _, rfl, ?_⟩, ⟨?_, ?_, ?_, ?_, ?_, ?_, ?_, ?_⟩, ⟨?_, ?_, rfl, _, rfl, ?_⟩, ⟨rfl, ?_, ?_⟩, ⟨rfl, ?_, ?_⟩,
    ⟨rfl, ?_, ?_⟩, ⟨?_, ?_, ?_, ?_, ?_, ?_⟩, ⟨?_, ?_, ?_, ?_, ?_, ?_⟩, ⟨?_, ?_, ?_, ?_, ?_⟩, ⟨?_, ?_, ?_⟩, ?_, ?_, ?_⟩ <;> decide +kernel

/-- R155: a message leaves its sender's outbound queue. -/
theorem test_message_leaves :
    let m : Msg := { line := 0, target := 0, sender := mkHandle 0 32 0 1, asid := 0, payload := [] }
    let s : State := { State.reset with net := [.msg 40 m] }
    s.net[0]? = some (.msg 40 m) ∧ (s.net.take 0).all (fun x => match x with
      | .msg _ y => handleCore y.sender != handleCore m.sender
      | _ => true) = true ∧ (worldActs s (.leaves 0)).net = [.msg 40 { m with left := true }] := ⟨rfl, rfl, rfl⟩

/-! ### Encodings, lines and the machine as a whole -/

/-- Heads of each mnemonic of O52 that a line can hold. -/
theorem witness_MovesCopyAndMaddReadsItsDestination :
    let h : Head := { form := .T1, d := 4, a := 1 }
    Instr.wf (.mov h) = true ∧ Instr.wf (.movd { h with f := 1 }) = true ∧ Instr.wf (.csub { h with b := 2 }) = true ∧
      Instr.wf (.madd { h with b := 2 }) = true ∧ Instr.wf (.vmov h) = true ∧ Issues core0 Rows.madd (Use.ofRow Rows.madd hd).readD :=
  ⟨rfl, rfl, rfl, rfl, rfl, issues_of (by decide +kernel)⟩

/-- The line of R377 at `step`: three heads, five tail units. -/
def lineOf377 : Line :=
  BitVec.ofNat 512 (0x1800 + 0x2049 * 2 ^ 16 + 0x404B * 2 ^ 32 + 0x490A * 2 ^ 48 + 0x0001 * 2 ^ (16 * 29) + 0x2C00 * 2 ^ (16 * 30) +
    0x24B0 * 2 ^ (16 * 31))
/-- A line with a reserved header bit, and the lines of R377 entered at its first and last head and past them. -/
theorem witness_LinesHoldThirtyTwoSlots :
    headsOf (lineOf377 + 1) = 3 ∧ lineBad (lineOf377 + 1) 1 = some 2 ∧ headsOf lineOf377 = 3 ∧ lineBad lineOf377 1 = none ∧
      lineBad lineOf377 3 = none ∧ lineBad lineOf377 4 = some 6 ∧ lineBad lineOf377 0 = some 6 ∧
      pcAfter ⟨0x1000, 1⟩ 3 = ⟨0x1000, 2⟩ ∧ pcAfter ⟨0x1000, 3⟩ 3 = ⟨0x1040, 1⟩ := by decide +kernel
/-- A head at the top of its fields' ranges, and words with a word too many. -/
theorem witness_DecodingInvertsEncoding :
    Instr.wf (.add { s := true, form := .T4, d := 63, a := 63, imm := BitVec.ofNat 48 (2 ^ 48 - 1) }) = true ∧
      encode (.add { s := true, form := .T4, d := 63, a := 63, imm := BitVec.ofNat 48 (2 ^ 48 - 1) }) =
        some [0xE07F, 0xFC00, 0xFFFF, 0xFFFF, 0xFFFF] ∧
      tailUnits 0x2049 ≤ [(0x24B0 : BitVec 16), 0xFFFF].length ∧
      decodeWords [0x2049, 0x24B0, 0xFFFF] = some (.add { form := .T1, d := 9, a := 9, b := 11 }) := by decide +kernel

/-- The first line of a program is `l`, and it stands in the instruction cache. -/
def placed (l : Line) (granted : Bool) : State :=
  let s := State.reset.withFetchWord 16 0
  modCtx 256 (fun x => { x with granted := granted })
    (modCore 32 (fun k => { k with l1i := [(0, some { data := l })] }) s)
/-- An event, a core's head, an undefined head and a bad line, a thread's head, a packet, and a core of the firmware. -/
theorem witness_StepRunsTheDecodedHead :
    let ready (l : Line) (granted : Bool) : Bool :=
      let s := placed l granted
      let s0 := elapse 1 [] s
      let u := takeSlot s.focus 0 s0
      s.agenda.isEmpty && s0.firm.powered && !markerHeld s0 (s.focus * 8) && dealLens u.cur u == u && computeCore s0 s.focus && selectCtx s0 s.focus == some 0 &&
        (here u).granted == granted && ((here u).fir.getD {}).undelivered.isEmpty && (saveOf u u.cur).isNone && (here u).wait == .none &&
        endsOk ((translate (here u).pc.line kExec) u) fun y v =>
          (here v).pc == ⟨0, 1⟩ && (SMap.get none (coreOf v (coreNo u.cur)).l1i (blockOf (replicaPa y.2 (dieOfCore (coreNo u.cur)) y.1))).any fun e => e.data == l
    let handler : State := { (State.reset.withFetchWord 48 0x000210005F89) with agenda := [{ dt := 3, act := .thread 0 0 }] }
    let fetched : State :=
      { queued1 (queue0 32) 32 (packet 9 0 0 0 0) State.reset with agenda := [{ dt := 3, act := .packet 0 }] }
    ({ State.reset with agenda := [{ dt := 3, act := .event .rtsync }] } : State).agenda = ⟨3, .event .rtsync, []⟩ :: [] ∧ State.reset.fab.fau = [] ∧ (∀ e ∈ State.reset.strips, e.2.gangSince = none) ∧
    (ready lineOf377 false = true ∧ ready lineOf377 true = true ∧ decodeLine lineOf377 1 = .ok (.add { form := .T1, d := 9, a := 9, b := 11 })) ∧
    (ready 0 false = true ∧ lineBad 0 1 = some 1) ∧
    (ready (lineOf [0x1FC0]) false = true ∧ lineBad (lineOf [0x1FC0]) 1 = none ∧ decodeLine (lineOf [0x1FC0]) 1 = .error 0) ∧
    (let u : State := { elapse 3 [] { handler with agenda := [] } with cur := 32768 };
      let line := BitVec.ofNat 512 (Machine.peek u (here u).pc.line 64);
      handler.agenda = ⟨3, .thread 0 0, []⟩ :: [] ∧ u.firm.powered = true ∧ (runOf u u.cur).isSome = true ∧
        poisonAt u (here u).pc.line 64 = false ∧ lineBad line (here u).pc.head = none ∧
        decodeLine line (here u).pc.head = .ok (.tagset { form := .T2, d := 9, a := 4, imm := 2 })) ∧
    (let u := elapse 3 [] { fetched with agenda := [] };
      fetched.agenda = ⟨3, .packet 0, []⟩ :: [] ∧ u.firm.powered = true ∧ slotQ u 0 = some (queue0 32) ∧
        mayIssue forPackets (queue0 32) = true ∧ (queue0 32).wait = none ∧
        let q : Queue := { queue0 32 with levels := popLevels (queue0 32).levels };
        endsOk ((fetchPkt q ((q.levels.head?.map (·.pos)).getD 0)) (setSlotQ 0 (some q) u))
          (fun x _ => packetStep 0 x == some (.ffence 0)) = true) ∧
    (let s : State := { State.reset with focus := 0 };
      s.agenda = [] ∧ s.firm.powered = true ∧ controlCore (elapse 1 [] s) s.focus = true ∧ selectCtx (elapse 1 [] s) s.focus = none ∧
        ((List.range 8).all fun j => (ctxOf (elapse 1 [] s) (s.focus * 8 + j)).st == .free) = true) := by
  refine ⟨rfl, rfl, ?_, ⟨?_, ?_, ?_⟩, ⟨?_, ?_⟩, ⟨?_, ?_, ?_⟩, ⟨rfl, ?_, ?_, ?_, ?_, ?_⟩, ⟨rfl, ?_, ?_, rfl, rfl, ?_⟩, rfl, ?_, ?_, ?_, ?_⟩ <;> decide +kernel

/-- A state whose memories are canonical and whose step answers a next state. -/
theorem witness_StepKeepsMemoryCanonical :
    let s := State.reset.withFetchWord 32 0x24B02049
    (Memory.wf s.ms.mem = true ∧ Memory.wf s.ms.hostio = true) ∧ (∃ t, step s = .next t) ∧
      Memory.wf (poke 0x2000 8 0x1100 s).ms.mem = true := by
  refine ⟨⟨?_, ?_⟩, ⟨_, rfl⟩, ?_⟩ <;> decide +kernel

/-- A store of 8 bytes at 0x2000 that its home is ready to acknowledge, and addresses around host and device memory. -/
theorem witness_MemoryGivesBackWhatWasWritten :
    let s := withCore { sb := [sb0, sb0] } core0
    (coreOf s 32).sb[0]? = some sb0 ∧ storeReady s 32 0 sb0 = true ∧ sb0.mca = 0 ∧ spaceOf s sb0.pa = .hbm ∧
      homeGate s sb0.cid sb0.pa 1 = .go ∧ ownerOf s (blockOf sb0.pa) = none ∧
      (∃ t, exec (.storeAck 32 0) s = .next t ∧ Machine.peek t 0x2000 8 = 0x1122334455667788 ∧ Machine.peek t 0x2008 8 = 0) ∧
      ((0x1FF8 : Nat) + 8 ≤ 0x2000) ∧ (0x10000 : Nat) + 8 ≤ 2 ^ 64 ∧ (0 : Nat) ≠ 1 ∧ (0x1FFF < sb0.pa ∧ sb0.pa + sb0.n ≤ 0x2008) := by
  refine ⟨rfl, ?_, rfl, ?_, ?_, ?_, ⟨_, rfl, ?_, ?_⟩, ?_, ?_, ?_, ?_, ?_⟩ <;> decide +kernel

/-- A core on which each of the heads of O60 issues. -/
theorem witness_RegisterHeadsChangeOnlyTheirDestination :
    isThread core0.cur = false ∧ Issues core0 Rows.add (Use.ofRow Rows.add hd) ∧ Issues core0 Rows.cgetTag (Use.ofRow Rows.cgetTag hd) ∧
    isThread checked0.cur = false ∧ issueStop checked0 Rows.add (Use.ofRow Rows.add hd) = none ∧
    (unconfirmed checked0 && endsInterval Rows.add) = false ∧ partnerOf checked0 checked0.cur = some 264 :=
  ⟨rfl, issues_of (by decide +kernel), issues_of (by decide +kernel), rfl, rfl, rfl, rfl⟩

/-! ### Words written out from the encodings of the spec, one family after another -/

/-- The line of R377 decodes to its three heads. -/
theorem test_decode_line_of_R377 :
    decodeLine lineOf377 1 = .ok (.add { form := .T1, d := 9, a := 9, b := 11 }) ∧
      decodeLine lineOf377 2 = .ok (.add { form := .T2, d := 11, a := 11, imm := 1 }) ∧
      decodeLine lineOf377 3 = .ok (.loop { form := .T2, d := 10 }) := by decide +kernel
/-- The heads 0x0000 and 0x8000 are NOP, without and with the switch marker (R336). -/
theorem test_decode_nop : decodeWords [0x0000] = some (.nop { form := .H }) ∧ decodeWords [0x8000] = some (.nop { form := .H, s := true }) := by decide +kernel
/-- Integers and capabilities: head 0x2000 + 0x040, D 9, A 2, B 3; CSETB with major 0x11 (R348, R366). -/
theorem test_decode_scalar :
    decodeWords [0x2049, 0x0830] = some (.add { form := .T1, d := 9, a := 2, b := 3 }) ∧
      decodeWords [0x4446, 0x1800, 0x0BB8] = some (.csetb { form := .T2, d := 6, a := 6, imm := 0x0BB8 }) := by decide +kernel
/-- Memory and atomics: LDAQ, and AADD.W of D 9, A 2, B 5 with MO.ACQ_REL (R395, R401). -/
theorem test_decode_memory :
    decodeWords [0x4D09, 0x0833, 0x0040] = some (.ldaq { form := .T2, d := 9, a := 2, b := 3, f := 3, imm := 0x40 }) ∧
      decodeWords [0x5009, 0x0850, 0x001C] = some (.aadd { form := .T2, d := 9, a := 2, b := 5, imm := 0x1C }) := by decide +kernel
/-- Messages: PUSH is major 0x4B in T1, SEND 0x49 in T2, F 0, with n 2 (R413, R416). -/
theorem test_decode_messages :
    decodeWords [0x32C1, 0x1400] = some (.push { form := .T1, d := 1, a := 5 }) ∧
      decodeWords [0x5248, 0x1400, 0x0002] = some (.send { form := .T2, d := 8, a := 5, imm := 2 }) := by decide +kernel
/-- Vectors and streams: VFMA and VQNT with GS (R420, R441), SSTAT is major 0x68 in T1. -/
theorem test_decode_vectors :
    decodeWords [0x54C3, 0x0420, 0x000A] = some (.vfma { form := .T2, d := 3, a := 1, b := 2, imm := 0x000A }) ∧
      decodeWords [0x58C9, 0x1140, 0x0004] = some (.vqnt { form := .T2, d := 9, a := 4, b := 20, imm := 4 }) ∧
      decodeWords [0x3A09, 0x0400] = some (.sstat { form := .T1, d := 9, a := 1 }) := by decide +kernel
/-- Matrices: SCLAIM and MMA (R444, R448). -/
theorem test_decode_matrix :
    decodeWords [0x3C00, 0x2800] = some (.sclaim { form := .T1, a := 10 }) ∧
      decodeWords [0x5CC0, 0x28B0, 0x0000] = some (.mma { form := .T2, a := 10, b := 11 }) := by decide +kernel
/-- System heads and the Prism group: MFC, CPGO, WAITT, TAGSET (R463, R465, R474). -/
theorem test_decode_system :
    decodeWords [0x5E09, 0x0000, 0x0001] = some (.mfc { form := .T2, d := 9, imm := 1 }) ∧
      decodeWords [0x1E8C] = some (.cpgo { form := .H, d := 12 }) ∧
      decodeWords [0x29C0, 0x2500] = some (.waitt { form := .T1, a := 9, b := 16 }) ∧
      decodeWords [0x5F89, 0x1000, 0x0002] = some (.tagset { form := .T2, d := 9, a := 4, imm := 2 }) := by decide +kernel
/-- Words that no entry defines: a reserved major, an F value beyond the list, a form the major does not allow, and the
words of the opcode table's numbering (R336). -/
theorem test_decode_refuses :
    decodeWords [0x1FC0] = none ∧ decodeWords [0x2640, 0] = none ∧ decodeWords [0x2049, 0x0832] = none ∧ decodeWords [0x0040] = none ∧
      decodeTableWord 32 0x08302049 = some (.add { form := .T1, d := 9, a := 2, b := 3 }) := by decide +kernel

/-! ### Ill-formed heads: each check refuses one -/

/-- F outside the mnemonic's values, and an immediate that picks another mnemonic (R348). -/
theorem test_wf_refuses_variant :
    Instr.wf (.add { form := .T1, f := 1 }) = false ∧ Instr.wf (.nput { form := .T2, imm := 0x10 }) = false ∧
      Instr.wf (.vshr { form := .T1, f := 3 }) = false := by decide +kernel
/-- A form the major does not allow, a tail of an H head, a step of the device (R334, R336). -/
theorem test_wf_refuses_form :
    Instr.wf (.add { form := .H }) = false ∧ Instr.wf (.div { form := .T2 }) = false ∧ Instr.wf (.yield { form := .H, a := 1 }) = false ∧ Instr.wf .rtsync = false := by
  decide +kernel
/-- A field and an immediate bit that the entry does not use (R335, subcode 0x06). -/
theorem test_wf_refuses_unused :
    Instr.wf (.mov { form := .T1, b := 1 }) = false ∧ Instr.wf (.extu { form := .T2, imm := 0x1000 }) = false := by decide +kernel
/-- A v field of 32, an m field of 8 and an accumulator field of 4 (subcode 0x07). -/
theorem test_wf_refuses_range :
    Instr.wf (.vmov { form := .T1, d := 32 }) = false ∧ Instr.wf (.mand { form := .T1, d := 8 }) = false ∧
      Instr.wf (.mma { form := .T2, d := 4 }) = false := by decide +kernel
/-- A value outside the range an entry states (subcode 0x0A): p + len of 65, MOVB of one register twice, a scope of 6. -/
theorem test_wf_refuses_value :
    Instr.wf (.extu { form := .T2, f := 1, imm := 0xFC1 }) = false ∧ Instr.wf (.movb { form := .T1, d := 3, a := 3, b := 4 }) = false ∧
      Instr.wf (.fenceRel { form := .T1, d := 6, f := 2 }) = false := by decide +kernel

/-! ### One step, with results worked out from the rules -/

/-- Register `k` of context 0 of core 32 after a head, if it answers a next state. -/
def after (r : Host.Outcome State Fault Refusal) (k : Nat) : Option Cap :=
  match r with
  | .next t => some (readG (ctxOf t 256) k)
  | _ => none
/-- The first head of the line of R377 runs from a fetch: 0 + 0, and the pc moves to head 2. -/
theorem test_step_runs_R377 :
    (match step (placed lineOf377 false) with
      | .next t => (ctxOf t 256).pc
      | _ => ⟨0, 0⟩) = ⟨0, 2⟩ := by decide +kernel
/-- Addition wraps at 2^64, and a head that reads its own destination reads it first (R356). -/
theorem test_add_wraps :
    after (exec (.add { form := .T1, d := 1, a := 1, b := 2 }) (core [(1, int (BitVec.ofNat 64 (2 ^ 64 - 1))), (2, int 3)])) 1 = some (int 2) := by
  decide +kernel
/-- ADD.W sign-extends bit 31 (R356). -/
theorem test_addW_extends :
    after (exec (.addW { form := .T1, d := 4, a := 1, b := 2, f := 1 }) (core [(1, int 0x7FFFFFFF), (2, int 1)])) 4 =
      some (int 0xFFFFFFFF80000000) := by decide +kernel
/-- In checked execution the partner computes on its own registers (R200): 6 + 3 beside 5 + 3. -/
theorem test_partner_computes :
    (match exec (.add { form := .T1, d := 4, a := 1, b := 2 }) checked0 with
      | .next t => (readG (ctxOf t 256) 4 == int 8, readG (ctxOf t 264) 4 == int 9, (ctxOf t 264).st == .parked)
      | _ => (false, false, false)) = (true, true, true) := by decide +kernel
/-- A lens of two elements deals line 0x1040 to element 1 first (R191). -/
theorem test_lens_deals :
    (match exec (.lensBranchResolve 256) { modCtx 256 (fun x => { x with pc := ⟨0x1040, 1⟩ }) core0 with
        grp := { lenses := [{ lead := 256, elems := [32, 33], started := true }] } } with
      | .next t => t.grp.lenses.head?.bind (·.dealt.head?)
      | _ => none) = some (0x1040, 1) := by decide +kernel
/-- A write of g0 is discarded (R338). -/
theorem test_g0_discards : after (exec (.add { form := .T1, d := 0, a := 1, b := 2 }) core0) 0 = some Cap.null := by decide +kernel
/-- A pass of LOOP counts down, and a count of 1 ends it with 0 (R377). -/
theorem test_loop_counts : after (exec (.loop { form := .T2, d := 1 }) core0) 1 = some (int 4) ∧
    after (exec (.loop { form := .T2, d := 1 }) (core [(1, int 1)])) 1 = some (int 0) := by decide +kernel
/-- A capability of 4,096 bytes at 0x2000 reads back its base and length (R341, R369). -/
theorem test_capability_bounds :
    after (exec (.cgetLen { form := .T1, d := 4, a := 3, f := 2 }) core0) 4 = some (int 0x1000) ∧
      after (exec (.cgetBase { form := .T1, d := 4, a := 3, f := 1 }) core0) 4 = some (int 0x2000) := by decide +kernel
end Sys2Proof.Tests
end

section
/-! Reads of adjoining bytes, and the check of a fetched line: what a line read from memory holds (R329, R332). -/

namespace Sys2Proof.Machine

theorem peek_succ (s : State) (a n : Nat) : peek s a (n + 1) = peek s a 1 + 256 * peek s (a + 1) n := by
  simp [peek, peekBytes, leNat]

theorem two_pow_bits_succ (n : Nat) : (2 : Nat) ^ (8 * (n + 1)) = 256 * 2 ^ (8 * n) := by
  rw [Nat.mul_succ, Nat.pow_add, Nat.mul_comm]

/-- Bytes read in one go are the first ones, with the later ones above them. -/
theorem peek_add (s : State) (a m n : Nat) : peek s a (m + n) = peek s a m + 2 ^ (8 * m) * peek s (a + m) n := by
  induction m generalizing a with
  | zero => simp [peek, peekBytes, leNat]
  | succ m ih =>
    have hat : a + 1 + m = a + (m + 1) := by omega
    calc peek s a (m + 1 + n)
        = peek s a 1 + 256 * peek s (a + 1) (m + n) := by rw [Nat.add_right_comm, peek_succ]
      _ = peek s a 1 + 256 * peek s (a + 1) m + 256 * 2 ^ (8 * m) * peek s (a + (m + 1)) n := by rw [ih, hat]; ring
      _ = peek s a (m + 1) + 2 ^ (8 * (m + 1)) * peek s (a + (m + 1)) n := by rw [peek_succ s a m, two_pow_bits_succ]

theorem peek_lt (s : State) (a n : Nat) : peek s a n < 2 ^ (8 * n) := by
  induction n generalizing a with
  | zero => simp [peek, peekBytes, leNat]
  | succ n ih =>
    have hbyte : peek s a 1 < 256 := by simpa [peek, peekBytes, leNat] using (SMap.get 0 s.ms.mem a).isLt
    have hrest := ih (a + 1)
    rw [peek_succ, two_pow_bits_succ]
    omega

/-- A word as wide as the bytes read holds them all. -/
theorem toNat_ofNat_peek (s : State) (a n : Nat) : (BitVec.ofNat (8 * n) (peek s a n)).toNat = peek s a n :=
  Nat.mod_eq_of_lt (peek_lt s a n)

/-- Bytes `k` to `k + m - 1` of a longer read are a read of their own. -/
theorem peek_field (s : State) (a : Nat) {k m n : Nat} (h : k + m ≤ n) :
    peek s a n / 2 ^ (8 * k) % 2 ^ (8 * m) = peek s (a + k) m := by
  obtain ⟨r, rfl⟩ := Nat.exists_eq_add_of_le h
  have hskip : peek s a (k + m + r) / 2 ^ (8 * k) = peek s (a + k) (m + r) := by
    rw [Nat.add_assoc, peek_add, Nat.add_mul_div_left _ _ (Nat.two_pow_pos _), Nat.div_eq_of_lt (peek_lt s a k), Nat.zero_add]
  rw [hskip, peek_add, Nat.add_mul_mod_self_left, Nat.mod_eq_of_lt (peek_lt s _ m)]

theorem pcAfter_of_lt {line i n : Nat} (h : i < n) : pcAfter ⟨line, i⟩ n = ⟨line, i + 1⟩ := if_pos h

end Sys2Proof.Machine

namespace Sys2Proof

open Machine

/-- Slot `k` of a line read from memory is bytes `2k` and `2k + 1`, the lower one least significant (R329). -/
theorem slotOf_peek (s : State) (pa : Nat) {k : Nat} (h : k < 32) :
    (slotOf (BitVec.ofNat 512 (peek s pa 64)) k).toNat = peek s (pa + 2 * k) 1 + 256 * peek s (pa + 2 * k + 1) 1 := by
  have hline : (BitVec.ofNat 512 (peek s pa 64)).toNat = peek s pa 64 := toNat_ofNat_peek s pa 64
  have hslot : peek s pa 64 / 2 ^ (8 * (2 * k)) % 2 ^ (8 * 2) = peek s (pa + 2 * k) 2 := peek_field s pa (by omega)
  rw [slotOf, hline, BitVec.toNat_ofNat, ← peek_succ, ← hslot, ← Nat.mul_assoc]

/-- N takes the header's five highest bits (R329). -/
theorem headsOf_eq_div (l : Line) : headsOf l = (slotOf l 0).toNat / 2 ^ 11 := by
  have hslot := (slotOf l 0).isLt
  exact Nat.mod_eq_of_lt (by omega)

/-- A header with a reserved bit set, and N not 0, has subcode 2 (R332). -/
theorem lineBad_reserved {l : Line} (e : Nat) (hn : headsOf l ≠ 0) (hr : (slotOf l 0).toNat % 2 ^ 11 ≠ 0) :
    lineBad l e = some 2 := by
  have hbits : bitsOf (slotOf l 0).toNat 10 0 ≠ 0 := by simpa [bitsOf] using hr
  simp [lineBad, hn, hbits]

/-- Only an entry at one of the line's heads passes the check (R332, subcode 6). -/
theorem entry_of_lineBad_none {l : Line} {e : Nat} (h : lineBad l e = none) : 1 ≤ e ∧ e ≤ headsOf l := by
  simp only [lineBad, ite_eq_iff, reduceCtorEq, and_false, false_or] at h
  obtain ⟨-, -, -, -, hlast⟩ := h
  split at hlast
  case h_1 => cases hlast
  case h_2 =>
    have hentry : ¬(e = 0 ∨ headsOf l < e) := by simpa using hlast
    omega

/-- Settles O53: a line's 64 bytes split into 32 slots (`slotOf_peek`), and the check of the line reads the header's
fields and the entry. -/
theorem linesHoldThirtyTwoSlots : Obligations.LinesHoldThirtyTwoSlots :=
  ⟨fun s pa _ hk => slotOf_peek s pa hk, headsOf_eq_div, fun _ e hn hr => lineBad_reserved e hn hr, fun _ _ => rfl,
    fun _ _ => entry_of_lineBad_none, fun _ _ _ => pcAfter_of_lt⟩

end Sys2Proof
end

section
/-! Heads that T1 alone holds: what stands in their fields (R333 to R336, R348), and the registers that an issuing head
finds (R299, R355). -/

namespace Sys2Proof.Machine

/-! ### The place of a head in the encoding -/

@[simp] theorem need_eq_none {c : Bool} {sub : Nat} : need c sub = none ↔ c = true := by
  cases c <;> simp [need]

@[simp] theorem firstBad_cons_eq_none {x : Option Nat} {xs : List (Option Nat)} :
    firstBad (x :: xs) = none ↔ x = none ∧ firstBad xs = none := by
  cases x <;> simp [firstBad]

/-- Seven bits hold a major, above D and below the form's bits (R333). -/
theorem majorOf_headWord {m : Nat} (hm : m < 128) (h : Head) : majorOf (headWord m h) = m := by
  have hd : h.d.toNat < 64 := h.d.isLt
  have hl : formBits h.form < 4 := by cases h.form <;> decide
  simp only [majorOf, bitsOf, headWord, BitVec.toNat_ofNat]
  split <;> omega

/-- The row of a mnemonic that only T1 holds, under one F value. -/
structure Row.OnlyT1 (r : Row) (mk : Head → Instr) : Prop where
  row : ∀ h, rowOf (mk h) = some (r, h)
  forms : r.forms = [.T1]
  variant : r.f1 = r.f0
  major : r.major < 128

theorem Row.OnlyT1.covers_and_bad {r : Row} {mk : Head → Instr} (hr : r.OnlyT1 mk) {h : Head} (hw : Instr.wf (mk h) = true) :
    r.covers h = true ∧ r.bad h = none := by
  have hall : (r.covers h = true ∧ r.bad h = none) ∧ h.bare = true := by simpa [Instr.wf, hr.row] using hw
  exact hall.1

theorem Row.OnlyT1.form_eq {r : Row} {mk : Head → Instr} (hr : r.OnlyT1 mk) {h : Head} (hw : Instr.wf (mk h) = true) :
    h.form = .T1 := by
  obtain ⟨-, hbad⟩ := hr.covers_and_bad hw
  simp only [Row.bad, firstBad_cons_eq_none, need_eq_none] at hbad
  obtain ⟨hform, -⟩ := hbad
  simpa [hr.forms] using hform

/-- A well-formed head of such a row stands in T1, under the row's F value and major (R333, R348). -/
theorem Row.OnlyT1.stands {r : Row} {mk : Head → Instr} (hr : r.OnlyT1 mk) (h : Head) (hw : Instr.wf (mk h) = true) :
    h.form = .T1 ∧ h.f.toNat = r.f0 ∧ ∃ w us, encode (mk h) = some (w :: us) ∧ majorOf w = r.major := by
  obtain ⟨hcovers, -⟩ := hr.covers_and_bad hw
  have hrange : (r.f0 ≤ h.f.toNat ∧ h.f.toNat ≤ r.f0) ∧ r.pick h = true := by
    simpa [Row.covers, hr.variant] using hcovers
  obtain ⟨⟨hlow, hhigh⟩, -⟩ := hrange
  have henc : encode (mk h) = some (headWord r.major h :: unitWords h) := by simp [encode, hr.row]
  exact ⟨hr.form_eq hw, Nat.le_antisymm hhigh hlow, _, _, henc, majorOf_headWord hr.major h⟩

/-- B is zero where the row does not use it (R335). -/
theorem Row.OnlyT1.b_eq_zero {r : Row} {mk : Head → Instr} (hr : r.OnlyT1 mk) (hb : r.b1 = .none) {h : Head}
    (hw : Instr.wf (mk h) = true) : h.b = 0 := by
  have hkind : r.bKind h = .none := by simp only [Row.bKind, hr.form_eq hw, hb]
  obtain ⟨-, hbad⟩ := hr.covers_and_bad hw
  simp only [Row.bad, firstBad_cons_eq_none, need_eq_none] at hbad
  obtain ⟨-, hunused, -⟩ := hbad
  simp only [Bool.and_eq_true, hkind] at hunused
  obtain ⟨⟨-, hzero⟩, -⟩ := hunused
  simpa [Kind.unusedOk] using hzero

theorem onlyT1_mov : Rows.mov.OnlyT1 .mov := ⟨fun _ => rfl, rfl, rfl, by decide⟩
theorem onlyT1_movd : Rows.movd.OnlyT1 .movd := ⟨fun _ => rfl, rfl, rfl, by decide⟩
theorem onlyT1_csub : Rows.csub.OnlyT1 .csub := ⟨fun _ => rfl, rfl, rfl, by decide⟩
theorem onlyT1_madd : Rows.madd.OnlyT1 .madd := ⟨fun _ => rfl, rfl, rfl, by decide⟩
theorem onlyT1_vmov : Rows.vmov.OnlyT1 .vmov := ⟨fun _ => rfl, rfl, rfl, by decide⟩

/-! ### The registers of a head that issues -/

/-- The g registers that an issuing head reads or writes are allotted and present (R299, R355). -/
theorem Issues.allotG_presentG {s : State} {r : Row} {u : Use} (hi : Issues s r u) {k : Nat} (hk : k ∈ u.rg ++ u.wg) :
    allotG s.cur (here s) k = true ∧ presentG (here s) k = true := by
  obtain ⟨hstop, -, -⟩ := hi
  simp only [issueStop, ite_eq_iff, reduceCtorEq, and_false, false_or] at hstop
  obtain ⟨-, -, -, -, -, hallot, hsources⟩ := hstop
  constructor
  · have hall : ((u.rg ++ u.wg ++ u.ng).all (allotG s.cur (here s)) &&
        (u.rv ++ u.wv ++ u.nv).all (allotV s.cur (here s))) = true := by simpa using hallot
    obtain ⟨hg, -⟩ := Bool.and_eq_true_iff.mp hall
    exact List.all_eq_true.mp hg k (List.mem_append_left _ hk)
  · split at hsources
    case h_1 => cases hsources
    case h_2 hfind => simpa using List.find?_eq_none.mp hfind k hk

/-- A head that also reads gD names no v register where its row has none. -/
theorem readD_ofRow_nil {r : Row} (h : Head) (hr : r.d ≠ .v ∧ r.a ≠ .v ∧ r.b1 ≠ .v ∧ r.b2 ≠ .v) :
    (Use.ofRow r h).readD.rv ++ (Use.ofRow r h).readD.wv = [] := by
  obtain ⟨hread, hwritten⟩ := List.append_eq_nil_iff.mp (ofRow_nil h hr)
  simp [Use.readD, hread, hwritten]

/-! ### What the heads do -/

/-- A head that derives a capability from gA and operand b (R364). -/
theorem effects_of_capHead {mk : Head → Instr} {r : Row} (f : Cap → W64 → Cap) (he : ∀ h s, exec (mk h) s = capHead r h f s)
    (hr : r.d ≠ .v ∧ r.a ≠ .v ∧ r.b1 ≠ .v ∧ r.b2 ≠ .v) : Effects mk r fun h s => withG h (f (gA s h) (opB s h)) s :=
  effects_of _ he hr fun _ _ => rfl

theorem effects_mov : Effects .mov Rows.mov fun h s => withG h (gA s h) s :=
  effects_of_capHead (fun c _ => c) exec_mov (by decide)

theorem effects_movd : Effects .movd Rows.movd fun h s => withG h { gA s h with tag := false } s :=
  effects_of_capHead (fun c _ => { c with tag := false }) exec_movd (by decide)

theorem computes_csub : Computes .csub Rows.csub fun a b => a - b :=
  computes_of (· - ·) exec_csub (by decide) fun _ _ => rfl

/-- A write of vD binds no stream unit and frees none. -/
theorem unbound_withV {s : State} {u : Use} (h : Head) (v : VReg) (hu : Unbound s u) : Unbound (withV h v s) u := hu

theorem effects_vmov : Effects .vmov Rows.vmov fun h s => withV h (readV (here s) h.a.toNat) s :=
  completes_of _ exec_vmov (fun _ _ => rfl) (fun _ _ => Next.noConfusion) fun h _ hu => unbound_withV h _ hu

theorem exec_madd_of_issues {h : Head} {s : State} (hi : Issues s Rows.madd (Use.ofRow Rows.madd h).readD) :
    exec (.madd h) s =
      .next (advance h (Use.ofRow Rows.madd h).readD .seq (withInt h ((gD s h).val + opA s h * opB s h) s)) := by
  have hnil := readD_ofRow_nil (r := Rows.madd) h (by decide)
  exact (exec_madd h s).trans (runHead_completes hi (unbound_nil hnil) rfl Next.noConfusion (unbound_nil hnil))

/-- MADD reads gD (R363), so gD is allotted and present where it issues. -/
theorem allotG_presentG_of_issues_madd {h : Head} {s : State} (hi : Issues s Rows.madd (Use.ofRow Rows.madd h).readD) :
    allotG s.cur (here s) h.d.toNat = true ∧ presentG (here s) h.d.toNat = true :=
  hi.allotG_presentG (by simp [Use.readD, Use.ofRow, Rows.madd])

end Sys2Proof.Machine

namespace Sys2Proof

open Machine

/-- Settles O52: the static checks of each row fix the place of its head (`Row.OnlyT1.stands`), the body of each head
gives its effect, and MADD names gD among the registers it reads. -/
theorem movesCopyAndMaddReadsItsDestination : Obligations.MovesCopyAndMaddReadsItsDestination := by
  unfold Obligations.MovesCopyAndMaddReadsItsDestination
  have hb (h : Head) : Instr.wf (.mov h) = true ∨ Instr.wf (.movd h) = true ∨ Instr.wf (.vmov h) = true → h.b = 0
    | .inl hw => onlyT1_mov.b_eq_zero rfl hw
    | .inr (.inl hw) => onlyT1_movd.b_eq_zero rfl hw
    | .inr (.inr hw) => onlyT1_vmov.b_eq_zero rfl hw
  exact ⟨onlyT1_mov.stands, onlyT1_movd.stands, onlyT1_csub.stands, onlyT1_madd.stands, onlyT1_vmov.stands, hb,
    effects_mov, effects_movd, computes_csub,
    fun _ _ hi => ⟨exec_madd_of_issues hi, allotG_presentG_of_issues_madd hi⟩, effects_vmov⟩

end Sys2Proof
end

section
-- Bodies one after another, as in the tests: each further thread would take a stack of its own from the memory of the check.
set_option Elab.async false
/-! The opcode map as a partial inverse: which row a head finds, and that words and fields determine each other
(R329 to R336, R348). -/

namespace Sys2Proof.Machine

/-! ### The opcode map -/

/-- Two rows whose major and F values have a head in common. -/
def Row.sharesF (r q : Row) : Bool := r.major == q.major && decide (r.f0 ≤ q.f1) && decide (q.f0 ≤ r.f1)

/-- No head belongs to both rows. -/
def Row.Apart (r q : Row) : Prop := ∀ h, ¬((r.major = q.major ∧ r.covers h = true) ∧ q.covers h = true)

theorem Row.apart_of_not_sharesF {r q : Row} (h : r.sharesF q = false) : r.Apart q := by
  rintro x ⟨⟨hm, hr⟩, hq⟩
  simp only [Row.covers, Bool.and_eq_true, decide_eq_true_eq] at hr hq
  have hshare : r.sharesF q = true := by simp [Row.sharesF, hm]; omega
  simp [hshare] at h

theorem Row.apart_of_pick {r q : Row} (h : ∀ x, r.pick x = true → q.pick x = false) : r.Apart q := by
  rintro x ⟨⟨-, hr⟩, hq⟩
  simp only [Row.covers, Bool.and_eq_true] at hr hq
  simp [h x hr.2] at hq

/-- Only NPUT and the vector shifts have rows that share a major and an F value; their immediate tells them apart
(R415, R424). -/
theorem pairwise_sharesF :
    opRows.Pairwise fun r q => r.sharesF q = false ∨ (r.major = 0x4A ∧ q.major = 0x4A) ∨ (r.major = 0x58 ∧ q.major = 0x58) := by
  decide +kernel

set_option maxRecDepth 4000 in
theorem rows_nput : opRows.filter (·.major = 0x4A) = [Rows.nputArm, Rows.nput] := rfl
set_option maxRecDepth 4000 in
theorem rows_vsh : opRows.filter (·.major = 0x58) = [Rows.vshl, Rows.vshr, Rows.vsra] := rfl

theorem pairwise_apart_nput : [Rows.nputArm, Rows.nput].Pairwise Row.Apart := by
  have h : Rows.nputArm.Apart Rows.nput := Row.apart_of_pick fun x => by
    simp +contextual [Rows.nputArm, Rows.nput, nputArmPick, nputPick]
  simp [h]

theorem pairwise_apart_vsh : [Rows.vshl, Rows.vshr, Rows.vsra].Pairwise Row.Apart := by
  have hlr : Rows.vshl.Apart Rows.vshr := Row.apart_of_pick fun x => by
    simp +contextual [Rows.vshl, Rows.vshr, vshPick]
  have hla : Rows.vshl.Apart Rows.vsra := Row.apart_of_pick fun x => by
    simp +contextual [Rows.vshl, Rows.vsra, vshPick, vshLast]
  have hra : Rows.vshr.Apart Rows.vsra := Row.apart_of_pick fun x => by
    simp +contextual [Rows.vshr, Rows.vsra, vshPick, vshLast]
  simp [hlr, hla, hra]

/-- The rows of the opcode map that share no F value are apart already; those of the two majors that do are apart by
their choice. -/
theorem pairwise_apart : opRows.Pairwise Row.Apart := by
  have hn := List.pairwise_filter.mp (rows_nput ▸ pairwise_apart_nput)
  have hv := List.pairwise_filter.mp (rows_vsh ▸ pairwise_apart_vsh)
  refine (pairwise_sharesF.and (hn.and hv)).imp ?_
  rintro r q ⟨hshare | ⟨hr, hq⟩ | ⟨hr, hq⟩, hnput, hvsh⟩
  · exact Row.apart_of_not_sharesF hshare
  · exact hnput (by simpa using hr) (by simpa using hq)
  · exact hvsh (by simpa using hr) (by simpa using hq)

theorem find?_of_pairwise {α : Type} {p : α → Bool} {l : List α} (hl : l.Pairwise fun x y => ¬(p x = true ∧ p y = true))
    {x : α} (hx : x ∈ l) (hp : p x = true) : l.find? p = some x := by
  induction l with
  | nil => cases hx
  | cons y l ih =>
    obtain ⟨hy, hl⟩ := List.pairwise_cons.mp hl
    rcases List.mem_cons.mp hx with rfl | hx
    · exact List.find?_cons_of_pos hp
    · rw [List.find?_cons_of_neg fun hpy => hy x hx ⟨hpy, hp⟩]
      exact ih hl hx

/-- A head that a row of the opcode map covers finds that row (R348). -/
theorem findRow_of_covers {r : Row} (hr : r ∈ opRows) {h : Head} (hc : r.covers h = true) : findRow r.major h = some r := by
  refine find?_of_pairwise (pairwise_apart.imp fun {x y} hxy => ?_) hr (by simp [hc])
  simp only [Bool.and_eq_true, beq_iff_eq, not_and]
  intro hx hy
  exact fun hcy => hxy h ⟨⟨hx.1.trans hy.symm, hx.2⟩, hcy⟩

set_option maxRecDepth 4000 in
/-- What a row builds has that row. -/
theorem rowOf_build : ∀ r ∈ opRows, ∀ h, rowOf (r.build h) = some (r, h) := by
  rw [← List.forall_iff_forall_mem]
  repeat' constructor
  all_goals exact fun _ => rfl

/-- An instruction that has a row is what that row builds. -/
theorem build_of_rowOf {i : Instr} {r : Row} {h : Head} (hi : rowOf i = some (r, h)) :
    r.build h = i ∧ ∀ x, rowOf (r.build x) = some (r, x) := by
  cases i <;> cases hi <;> exact ⟨rfl, fun _ => rfl⟩

/-- Some row of the opcode map builds the same. -/
theorem any_build_eq {i : Instr} {r : Row} {h : Head} (hi : rowOf i = some (r, h)) :
    opRows.any (fun q => decide (q.build {} = r.build {})) = true := by
  cases i <;> cases hi <;> decide +kernel

/-- The row of an instruction stands in the opcode map: two rows that build the same are one. -/
theorem mem_opRows_of_rowOf {i : Instr} {r : Row} {h : Head} (hi : rowOf i = some (r, h)) : r ∈ opRows := by
  obtain ⟨q, hq, heq⟩ := List.any_eq_true.mp (any_build_eq hi)
  have hrow := rowOf_build q hq {}
  rw [of_decide_eq_true heq, (build_of_rowOf hi).2] at hrow
  cases hrow
  exact hq

theorem major_lt : ∀ r ∈ opRows, r.major < 128 := by decide +kernel

end Sys2Proof.Machine
end

section
set_option Elab.async false
namespace Sys2Proof.Machine

/-! ### Words and fields -/

/-- The number of tail units of a form (R334). -/
def unitCount : Form → Nat
  | .H => 0
  | .T1 => 1
  | .T2 => 2
  | .T4 => 4

theorem tailUnits_eq (w : BitVec 16) : tailUnits w = unitCount (formOf w) := by
  unfold tailUnits formOf
  split <;> rfl

theorem formBits_lt (f : Form) : formBits f < 4 := by cases f <;> decide

theorem toNat_headWord {m : Nat} (hm : m < 128) (h : Head) :
    (headWord m h).toNat = (if h.s then 1 else 0) * 2 ^ 15 + formBits h.form * 2 ^ 13 + m * 2 ^ 6 + h.d.toNat := by
  have hd := h.d.isLt
  have hf := formBits_lt h.form
  rw [headWord, BitVec.toNat_ofNat]
  split <;> omega

theorem bitsOf_formBits {m : Nat} (hm : m < 128) (h : Head) : bitsOf (headWord m h).toNat 14 13 = formBits h.form := by
  have hd := h.d.isLt
  have hf := formBits_lt h.form
  rw [toNat_headWord hm, bitsOf]
  split <;> omega

theorem formOf_headWord {m : Nat} (hm : m < 128) (h : Head) : formOf (headWord m h) = h.form := by
  rw [formOf, bitsOf_formBits hm]
  cases h.form <;> rfl

theorem length_unitWords (h : Head) : (unitWords h).length = unitCount h.form := by
  unfold unitWords
  split <;> simp_all [unitCount]

theorem toNat_unit0 (h : Head) : (unit0 h).toNat = h.a.toNat * 2 ^ 10 + h.b.toNat * 2 ^ 4 + h.f.toNat := by
  have ha := h.a.isLt
  have hb := h.b.isLt
  have hf := h.f.isLt
  rw [unit0, BitVec.toNat_ofNat]
  omega

/-- A field that a form lacks is zero (R334). -/
def FieldsFit (h : Head) : Prop :=
  match h.form with
  | .H => h.a = 0 ∧ h.b = 0 ∧ h.f = 0 ∧ h.imm = 0
  | .T1 => h.imm = 0
  | .T2 => h.imm.toNat < 2 ^ 16
  | .T4 => True

/-- Unit 0 gives back A, B and F; a form without it has none of them. -/
theorem fields_of_unit0 {h : Head} (hfit : FieldsFit h) : BitVec.ofNat 6 (((unitWords h).getD 0 0).toNat / 2 ^ 10) = h.a ∧
    BitVec.ofNat 6 (((unitWords h).getD 0 0).toNat / 2 ^ 4) = h.b ∧ BitVec.ofNat 4 ((unitWords h).getD 0 0).toNat = h.f := by
  by_cases hform : h.form = .H
  · unfold FieldsFit at hfit
    rw [hform] at hfit
    obtain ⟨ha, hb, hf, -⟩ := hfit
    simp [unitWords, hform, ha, hb, hf]
  · have hunit : (unitWords h).getD 0 0 = unit0 h := by
      cases hf : h.form <;> simp_all [unitWords]
    have ha := h.a.isLt
    have hb := h.b.isLt
    have hf := h.f.isLt
    refine ⟨BitVec.eq_of_toNat_eq ?_, BitVec.eq_of_toNat_eq ?_, BitVec.eq_of_toNat_eq ?_⟩ <;>
      rw [hunit, toNat_unit0, BitVec.toNat_ofNat] <;> omega

/-- The head word gives back S and D. -/
theorem fields_of_headWord {m : Nat} (hm : m < 128) (h : Head) :
    (bitsOf (headWord m h).toNat 15 15 == 1) = h.s ∧ BitVec.ofNat 6 (headWord m h).toNat = h.d := by
  have hd := h.d.isLt
  have hf := formBits_lt h.form
  constructor
  · rw [toNat_headWord hm, bitsOf]
    cases h.s <;> simp <;> omega
  · apply BitVec.eq_of_toNat_eq
    rw [toNat_headWord hm, BitVec.toNat_ofNat]
    split <;> omega

/-- The units after unit 0 give back the immediate. -/
theorem imm_of_units {h : Head} (hfit : FieldsFit h) : BitVec.ofNat 48 (((unitWords h).getD 1 0).toNat +
    ((unitWords h).getD 2 0).toNat * 2 ^ 16 + ((unitWords h).getD 3 0).toNat * 2 ^ 32) = h.imm := by
  have hi := h.imm.isLt
  apply BitVec.eq_of_toNat_eq
  unfold FieldsFit at hfit
  unfold unitWords
  split at hfit <;> simp_all <;> omega

/-- The fields of the words of a head are the head's (R333, R334). -/
theorem fieldsOf_headWord {m : Nat} (hm : m < 128) {h : Head} (hfit : FieldsFit h) :
    fieldsOf (headWord m h) (unitWords h) = h := by
  obtain ⟨hs, hd⟩ := fields_of_headWord hm h
  obtain ⟨ha, hb, hf⟩ := fields_of_unit0 hfit
  simp only [fieldsOf, formOf_headWord hm, hs, hd, ha, hb, hf, imm_of_units hfit]

/-- Fields read from words fit their form. -/
theorem fieldsFit_fieldsOf {w : BitVec 16} {us : List (BitVec 16)} (hl : us.length = tailUnits w) : FieldsFit (fieldsOf w us) := by
  rw [tailUnits_eq] at hl
  unfold FieldsFit
  have hform : (fieldsOf w us).form = formOf w := rfl
  rw [hform]
  cases hw : formOf w <;> rw [hw] at hl <;> simp only [unitCount] at hl <;> dsimp only
  case H => simp [List.length_eq_zero_iff.mp hl, fieldsOf]
  case T1 =>
    obtain ⟨u, rfl⟩ := List.length_eq_one_iff.mp hl
    simp [fieldsOf]
  case T2 =>
    obtain ⟨u, v, rfl⟩ := List.length_eq_two.mp hl
    have hv := v.isLt
    simp [fieldsOf]
    omega

theorem headWord_fieldsOf (w : BitVec 16) (us : List (BitVec 16)) : headWord (majorOf w) (fieldsOf w us) = w := by
  have hw := w.isLt
  have hm : majorOf w < 128 := Nat.mod_lt _ (by decide)
  have hform : formBits (fieldsOf w us).form = bitsOf w.toNat 14 13 := by
    have : bitsOf w.toNat 14 13 < 4 := Nat.mod_lt _ (by decide)
    show formBits (formOf w) = _
    unfold formOf
    split <;> simp_all [formBits]
    omega
  apply BitVec.eq_of_toNat_eq
  rw [toNat_headWord hm, hform]
  simp only [fieldsOf, majorOf, bitsOf, BitVec.toNat_ofNat, beq_iff_eq]
  split <;> omega

theorem unit0_fieldsOf (w u : BitVec 16) (us : List (BitVec 16)) : unit0 (fieldsOf w (u :: us)) = u := by
  have hu := u.isLt
  apply BitVec.eq_of_toNat_eq
  rw [toNat_unit0]
  simp [fieldsOf]
  omega

theorem unitWords_fieldsOf {w : BitVec 16} {us : List (BitVec 16)} (hl : us.length = tailUnits w) :
    unitWords (fieldsOf w us) = us := by
  rw [tailUnits_eq] at hl
  unfold unitWords
  have hform : (fieldsOf w us).form = formOf w := rfl
  rw [hform]
  cases hw : formOf w <;> rw [hw] at hl <;> dsimp only [unitCount] at hl ⊢
  case H => exact (List.length_eq_zero_iff.mp hl).symm
  case T1 =>
    obtain ⟨u, rfl⟩ := List.length_eq_one_iff.mp hl
    rw [unit0_fieldsOf]
  case T2 =>
    obtain ⟨u, v, rfl⟩ := List.length_eq_two.mp hl
    have hv : BitVec.ofNat 16 (fieldsOf w [u, v]).imm.toNat = v := by
      apply BitVec.eq_of_toNat_eq
      simp only [fieldsOf, BitVec.toNat_ofNat]
      simp
      omega
    rw [unit0_fieldsOf, hv]
  case T4 =>
    obtain ⟨u, v, x, y, rfl⟩ : ∃ u v x y, us = [u, v, x, y] := by
      match us, hl with
      | [u, v, x, y], _ => exact ⟨u, v, x, y, rfl⟩
    have himm : (fieldsOf w [u, v, x, y]).imm.toNat = v.toNat + x.toNat * 2 ^ 16 + y.toNat * 2 ^ 32 := by
      simp [fieldsOf]
      omega
    rw [unit0_fieldsOf, himm]
    congr 2
    · apply BitVec.eq_of_toNat_eq
      simp
      omega
    · congr 1
      · apply BitVec.eq_of_toNat_eq
        simp
        omega
      · congr 1
        apply BitVec.eq_of_toNat_eq
        simp
        omega

end Sys2Proof.Machine
namespace Sys2Proof

open Machine

/-- The fields of a head that a line can hold fit their form. -/
theorem fieldsFit_of_wf {r : Row} {h : Head} (hbad : r.bad h = none) (hbare : h.bare = true) : FieldsFit h := by
  simp only [Row.bad, firstBad_cons_eq_none, need_eq_none, Bool.and_eq_true] at hbad
  obtain ⟨-, ⟨-, himm⟩, -⟩ := hbad
  unfold FieldsFit
  unfold Row.immOk at himm
  unfold Head.bare at hbare
  cases hf : h.form <;> simp_all

/-- A well-formed head decodes from its words: they give back its fields, and these find its row. -/
theorem decodeWords_encode {i : Instr} (hw : Instr.wf i = true) : ∃ ws, encode i = some ws ∧ decodeWords ws = some i := by
  unfold Instr.wf at hw
  split at hw
  case h_2 => cases hw
  case h_1 r h hrow =>
    simp only [Bool.and_eq_true, Option.isNone_iff_eq_none] at hw
    obtain ⟨⟨hcov, hbad⟩, hbare⟩ := hw
    have hr := mem_opRows_of_rowOf hrow
    have hm := major_lt r hr
    have htake : (unitWords h).take (tailUnits (headWord r.major h)) = unitWords h :=
      List.take_of_length_le (by rw [length_unitWords, tailUnits_eq, formOf_headWord hm])
    refine ⟨headWord r.major h :: unitWords h, by simp [encode, hrow], ?_⟩
    simp only [decodeWords, htake, decodeHead, fieldsOf_headWord hm (fieldsFit_of_wf hbad hbare), majorOf_headWord hm,
      findRow_of_covers hr hcov, hbad, (build_of_rowOf hrow).1, Except.toOption]

/-- What decodes is well formed, and encodes to the words it came from. -/
theorem encode_decodeWords {w : BitVec 16} {units : List (BitVec 16)} {i : Instr} (hl : tailUnits w ≤ units.length)
    (hi : decodeWords (w :: units) = some i) : Instr.wf i = true ∧ encode i = some (w :: units.take (tailUnits w)) := by
  have hlen : (units.take (tailUnits w)).length = tailUnits w := by simpa using hl
  have hfit := fieldsFit_fieldsOf hlen
  simp only [decodeWords, decodeHead] at hi
  generalize units.take (tailUnits w) = us at *
  split at hi
  case h_1 => cases hi
  case h_2 r hfind =>
    split at hi
    case h_1 => cases hi
    case h_2 hbad =>
      obtain rfl : r.build (fieldsOf w us) = i := by simpa [Except.toOption] using hi
      have hmem := List.mem_of_find?_eq_some hfind
      have hp := List.find?_some hfind
      simp only [Bool.and_eq_true, beq_iff_eq] at hp
      obtain ⟨hmajor, hcov⟩ := hp
      have hrow := rowOf_build r hmem (fieldsOf w us)
      have hbare : (fieldsOf w us).bare = true := by
        unfold FieldsFit at hfit
        unfold Head.bare
        cases hf : (fieldsOf w us).form <;> simp_all
      constructor
      · simp [Instr.wf, hrow, hcov, hbad, hbare]
      · simp [encode, hrow, hmajor, headWord_fieldsOf, unitWords_fieldsOf hlen]

/-- Settles O54: the rows of the opcode map are apart, so a head finds its own row, and words and fields determine each
other. -/
theorem decodingInvertsEncoding : Obligations.DecodingInvertsEncoding :=
  ⟨fun _ => decodeWords_encode, fun _ _ _ => encode_decodeWords⟩

end Sys2Proof
end

section
set_option Elab.async false
/-! The integer heads that complete at once (R354 to R362), without a mirror partner and with one (R200). -/

namespace Sys2Proof.Machine

/-- A head whose body succeeds in every state completes in checked execution too, where its partner has a side of its own. -/
theorem mirrors_of {mk : Head → Instr} {r : Row} {u : Head → Use} {n : Head → State → Next} {t : Head → State → State}
    (body : Head → X Next) (he : ∀ h s, exec (mk h) s = runHead r h (u h) (body h) s)
    (hb : ∀ h s, body h s = .ok (n h s) (t h s)) (hn : ∀ h s, n h s ≠ .gone)
    (hu : ∀ h s, Unbound s (u h) → Unbound (t h s) (u h)) : Mirrors mk r u n t := by
  intro h s hi hg hs
  rw [he]
  exact runHead_mirrors hi hg hs (hb h s) (hn h s) (hu h s hs)

/-- A head that computes one integer completes and is mirrored. -/
theorem computes_and_mirrors {mk : Head → Instr} {r : Row} {f : W64 → W64 → W64} (g : W64 → W64 → W64)
    (he : ∀ h s, exec (mk h) s = intHead r h g s) (hr : r.d ≠ .v ∧ r.a ≠ .v ∧ r.b1 ≠ .v ∧ r.b2 ≠ .v)
    (hf : ∀ a b, g a b = f a b) :
    Computes mk r f ∧ Mirrors mk r (Use.ofRow r) (fun _ _ => .seq) fun h s => withInt h (f (opA s h) (opB s h)) s := by
  refine ⟨computes_of g he hr hf, ?_⟩
  obtain rfl : g = f := by funext a b; exact hf a b
  exact mirrors_of _ he (fun _ _ => rfl) (fun _ _ => Next.noConfusion) fun h s _ => unbound_nil (ofRow_nil h hr)

theorem bit_beq (a b : W64) : bit (a == b) = if a = b then 1 else 0 := by simp [bit]
theorem bit_bne (a b : W64) : bit (a != b) = if a = b then 0 else 1 := by
  by_cases h : a = b <;> simp [bit, h]
theorem slt_eq (a b : W64) : a.slt b = decide (a.toInt < b.toInt) := rfl
theorem ult_eq (a b : W64) : a.ult b = decide (a.toNat < b.toNat) := rfl
theorem bit_slt (a b : W64) : bit (a.slt b) = if a.toInt < b.toInt then 1 else 0 := by simp [bit, slt_eq]
theorem bit_not_slt (a b : W64) : bit (!a.slt b) = if a.toInt < b.toInt then 0 else 1 := by
  by_cases h : a.toInt < b.toInt <;> simp [bit, slt_eq, h]
theorem bit_ult (a b : W64) : bit (a.ult b) = if a.toNat < b.toNat then 1 else 0 := by simp [bit, ult_eq]
theorem bit_not_ult (a b : W64) : bit (!a.ult b) = if a.toNat < b.toNat then 0 else 1 := by
  by_cases h : a.toNat < b.toNat <;> simp [bit, ult_eq, h]
theorem if_slt {α : Type} (a b : W64) (x y : α) : (if a.slt b = true then x else y) = if a.toInt < b.toInt then x else y := by
  simp [slt_eq]
theorem if_ult {α : Type} (a b : W64) (x y : α) : (if a.ult b = true then x else y) = if a.toNat < b.toNat then x else y := by
  simp [ult_eq]

/-- CSEL and CSELZ write gA or gB whole, by their condition register (R362). -/
theorem selHead_of_issues {r : Row} {h : Head} {z : Bool} {s : State}
    (hr : r.d ≠ .v ∧ r.a ≠ .v ∧ r.b1 ≠ .v ∧ r.b2 ≠ .v) (hi : Issues s r ((Use.ofRow r h).andG [h.im 5 0])) :
    selHead r h z s = .next (advance h ((Use.ofRow r h).andG [h.im 5 0]) .seq
      (withG h (if ((readG (here s) (h.im 5 0)).val == 0) = z then gA s h else gB s h) s)) := by
  have hnil : ((Use.ofRow r h).andG [h.im 5 0]).rv ++ ((Use.ofRow r h).andG [h.im 5 0]).wv = [] := ofRow_nil h hr
  refine runHead_completes hi (unbound_nil hnil) ?_ Next.noConfusion (unbound_nil hnil)
  simp only [beq_iff_eq]
  rfl

end Sys2Proof.Machine

namespace Sys2Proof

open Machine

/-- Settles O1: each integer head runs one body that succeeds in every state (`computes_and_mirrors`), and computes the
function that its rule gives. -/
theorem integerHeadsWriteTheirResult : Obligations.IntegerHeadsWriteTheirResult := by
  unfold Obligations.IntegerHeadsWriteTheirResult
  refine ⟨⟨?add, ?addW, ?sub, ?subW, ?mul, ?mulh, ?mulhu, ?mulW, ?and, ?or, ?xor, ?andn, ?shl, ?shr, ?sra, ?ror, ?seq, ?sne,
    ?slt, ?sge, ?sltu, ?sgeu, ?min, ?max, ?minu, ?maxu⟩, ?nop, ?yield, ?csel, ?cselz⟩
  case add => exact computes_and_mirrors _ exec_add (by decide) fun _ _ => rfl
  case addW => exact computes_and_mirrors _ exec_addW (by decide) fun _ _ => rfl
  case sub => exact computes_and_mirrors _ exec_sub (by decide) fun _ _ => rfl
  case subW => exact computes_and_mirrors _ exec_subW (by decide) fun _ _ => rfl
  case mul => exact computes_and_mirrors _ exec_mul (by decide) fun _ _ => rfl
  case mulh => exact computes_and_mirrors _ exec_mulh (by decide) fun _ _ => rfl
  case mulhu => exact computes_and_mirrors _ exec_mulhu (by decide) fun _ _ => rfl
  case mulW => exact computes_and_mirrors _ exec_mulW (by decide) fun _ _ => rfl
  case and => exact computes_and_mirrors _ exec_and (by decide) fun _ _ => rfl
  case or => exact computes_and_mirrors _ exec_or (by decide) fun _ _ => rfl
  case xor => exact computes_and_mirrors _ exec_xor (by decide) fun _ _ => rfl
  case andn => exact computes_and_mirrors _ exec_andn (by decide) fun _ _ => rfl
  case shl => exact computes_and_mirrors _ exec_shl (by decide) fun _ _ => rfl
  case shr => exact computes_and_mirrors _ exec_shr (by decide) fun _ _ => rfl
  case sra => exact computes_and_mirrors _ exec_sra (by decide) fun _ _ => rfl
  case ror => exact computes_and_mirrors _ exec_ror (by decide) fun _ _ => rfl
  case seq => exact computes_and_mirrors _ exec_seq (by decide) bit_beq
  case sne => exact computes_and_mirrors _ exec_sne (by decide) bit_bne
  case slt => exact computes_and_mirrors _ exec_slt (by decide) bit_slt
  case sge => exact computes_and_mirrors _ exec_sge (by decide) bit_not_slt
  case sltu => exact computes_and_mirrors _ exec_sltu (by decide) bit_ult
  case sgeu => exact computes_and_mirrors _ exec_sgeu (by decide) bit_not_ult
  case min => exact computes_and_mirrors _ exec_min (by decide) fun a b => if_slt a b a b
  case max => exact computes_and_mirrors _ exec_max (by decide) fun a b => if_slt a b b a
  case minu => exact computes_and_mirrors _ exec_minu (by decide) fun a b => if_ult a b a b
  case maxu => exact computes_and_mirrors _ exec_maxu (by decide) fun a b => if_ult a b b a
  case nop =>
    intro h s hi
    exact (exec_nop h s).trans (runHead_completes hi (unbound_nil rfl) rfl Next.noConfusion (unbound_nil rfl))
  case yield =>
    intro h s hi
    exact (exec_yield h s).trans (runHead_completes hi (unbound_nil rfl) rfl Next.noConfusion (unbound_nil rfl))
  case csel =>
    intro h s c hi
    rw [exec_csel, execCsel, selHead_of_issues (by decide) hi]
    by_cases hc : c.val = 0 <;> simp [c, hc] at *
  case cselz =>
    intro h s c hi
    rw [exec_cselz, execCselz, selHead_of_issues (by decide) hi]
    by_cases hc : c.val = 0 <;> simp [c, hc] at *

end Sys2Proof
end

section
set_option Elab.async false
/-! Bit counts, reversals and fields (R360, R361), and division with its latency (R173, R358). -/

namespace Sys2Proof.Machine

/-! ### Counting -/

/-- The significant bits of a number bound it on both sides. -/
theorem lt_two_pow_sigBits (x : Nat) : x < 2 ^ sigBits x := by
  unfold sigBits
  split
  · simp [*]
  · exact Nat.lt_log2_self
theorem two_pow_le_of_sigBits {x : Nat} (h : sigBits x ≠ 0) : 2 ^ (sigBits x - 1) ≤ x := by
  unfold sigBits at h ⊢
  split
  · simp_all
  · exact Nat.log2_self_le (by assumption)
theorem sigBits_le (a : W64) : sigBits a.toNat ≤ 64 := by
  unfold sigBits
  split
  · omega
  · have := (Nat.log2_lt (by assumption)).mpr a.isLt
    omega

/-- CTZ finds the lowest set bit, or none (R360). -/
theorem ctz_spec (a : W64) : ∃ n, n ≤ 64 ∧ ctz64 a = BitVec.ofNat 64 n ∧ (∀ i < n, a.getLsbD i = false) ∧
    (n < 64 → a.getLsbD n = true) := by
  cases hf : (List.range 64).find? fun i => a.getLsbD i with
  | none =>
    refine ⟨64, le_rfl, by simp [ctz64, hf], fun i hi => ?_, fun h => absurd h (by decide)⟩
    simpa using List.find?_eq_none.mp hf i (List.mem_range.mpr hi)
  | some n =>
    obtain ⟨hn, hlt⟩ : a.getLsbD n = true ∧ n < 64 := by
      simpa using And.intro (List.find?_some hf) (List.mem_range.mp (List.mem_of_find?_eq_some hf))
    refine ⟨n, hlt.le, by simp [ctz64, hf], fun i hi => ?_, fun _ => hn⟩
    have hbelow := (List.find?_range_eq_some.mp hf).2.2 i hi
    simpa using hbelow

/-! ### Reversing -/

/-- `n` digits of `w` bits in reverse order: digit `i` stands at place `n - 1 - i`. -/
theorem testBit_reversed_digits {w : Nat} (hw : 0 < w) {d : Nat → Nat} (hd : ∀ i, d i < 2 ^ w) (n j : Nat) (hj : j < w * n) :
    ((List.range n).map fun i => d i * 2 ^ (w * (n - 1 - i))).sum.testBit j = (d (n - 1 - j / w)).testBit (j % w) := by
  induction n generalizing j with
  | zero => simp at hj
  | succ n ih =>
    have hsum : ((List.range (n + 1)).map fun i => d i * 2 ^ (w * (n + 1 - 1 - i))).sum =
        2 ^ w * ((List.range n).map fun i => d i * 2 ^ (w * (n - 1 - i))).sum + d n := by
      rw [List.range_succ, List.map_append, List.sum_append, ← List.sum_map_mul_left]
      congr 1
      · congr 1
        refine List.map_congr_left fun i hi => ?_
        have hi := List.mem_range.mp hi
        have hexp : w * (n + 1 - 1 - i) = w + w * (n - 1 - i) := by
          rw [show n + 1 - 1 - i = 1 + (n - 1 - i) by omega, Nat.mul_add, Nat.mul_one]
        rw [hexp, Nat.pow_add]
        ring
      · simp
    rw [hsum, Nat.testBit_two_pow_mul_add _ (hd n)]
    split
    case isTrue hlt =>
      rw [Nat.div_eq_of_lt hlt, Nat.mod_eq_of_lt hlt]
      rfl
    case isFalse hge =>
      have hge : w ≤ j := Nat.le_of_not_lt hge
      have hjn : j - w < w * n := by rw [Nat.mul_succ] at hj; omega
      rw [ih (j - w) hjn]
      have hdiv : j / w = (j - w) / w + 1 := by rw [Nat.div_eq_sub_div hw hge]
      rw [← Nat.mod_eq_sub_mod hge, hdiv]
      congr 2
      omega

theorem getLsbD_brev64 (a : W64) {i : Nat} (hi : i < 64) : (brev64 a).getLsbD i = a.getLsbD (63 - i) := by
  have hsum := testBit_reversed_digits (w := 1) (by decide) (d := fun i => if a.getLsbD i then 1 else 0)
    (fun i => by split <;> decide) 64 i (by omega)
  simp only [Nat.one_mul, Nat.div_one, Nat.mod_one, ite_mul, Nat.zero_mul] at hsum
  rw [brev64, BitVec.getLsbD_ofNat, decide_eq_true hi, Bool.true_and, hsum]
  cases a.getLsbD (63 - i) <;> rfl

theorem getLsbD_bswap64 (a : W64) {i : Nat} (hi : i < 64) : (bswap64 a).getLsbD i = a.getLsbD (8 * (7 - i / 8) + i % 8) := by
  have hsum := testBit_reversed_digits (w := 8) (by decide) (d := fun i => bitsOf a.toNat (8 * i + 7) (8 * i))
    (fun i => by
      have : 8 * i + 7 + 1 - 8 * i = 8 := by omega
      rw [bitsOf, this]
      exact Nat.mod_lt _ (by decide)) 8 i (by omega)
  rw [bswap64, BitVec.getLsbD_ofNat, decide_eq_true hi, Bool.true_and, hsum, bitsOf, Nat.testBit_mod_two_pow,
    Nat.testBit_div_two_pow, BitVec.getLsbD, Nat.add_comm (i % 8)]
  have hbyte : i % 8 < 8 * (8 - 1 - i / 8) + 7 + 1 - 8 * (8 - 1 - i / 8) := by omega
  rw [decide_eq_true hbyte, Bool.true_and]

/-! ### Fields -/

theorem extField_eq (h : Head) (a : W64) : extField h a = a.toNat / 2 ^ h.im 5 0 % 2 ^ (h.im 11 6 + 1) := rfl

theorem signedOf_mod (n x : Nat) : signedOf n (x % 2 ^ n) = signedOf n x := by simp [signedOf]

/-- A field of `l` bits from bit `p` replaced by `n`. -/
theorem replace_field (x n p l : Nat) :
    x - x / 2 ^ p % 2 ^ l * 2 ^ p + n * 2 ^ p = 2 ^ p * (2 ^ l * (x / 2 ^ p / 2 ^ l) + n) + x % 2 ^ p := by
  have hlow := Nat.div_add_mod x (2 ^ p)
  have hhigh := Nat.div_add_mod (x / 2 ^ p) (2 ^ l)
  generalize x / 2 ^ p / 2 ^ l = q at *
  generalize x / 2 ^ p % 2 ^ l = m at *
  generalize x % 2 ^ p = r at *
  rw [← hlow, ← hhigh, Nat.mul_add, Nat.mul_add, Nat.mul_comm m, Nat.mul_comm n]
  omega

/-- INS replaces `len` bits from `p` by the low bits of a, and leaves the others (R361). -/
theorem getLsbD_insF {h : Head} (d a : W64) {i : Nat} (hi : i < 64) :
    (insF h d a).getLsbD i = if h.im 5 0 ≤ i ∧ i < h.im 5 0 + (h.im 11 6 + 1) then a.getLsbD (i - h.im 5 0) else d.getLsbD i := by
  simp only [insF, extField_eq, extPos, extLen]
  generalize h.im 5 0 = p at *
  generalize h.im 11 6 + 1 = l at *
  have hlow : d.toNat % 2 ^ p < 2 ^ p := Nat.mod_lt _ (Nat.two_pow_pos p)
  have hmid : a.toNat % 2 ^ l < 2 ^ l := Nat.mod_lt _ (Nat.two_pow_pos l)
  rw [BitVec.getLsbD_ofNat, decide_eq_true hi, Bool.true_and, replace_field, Nat.testBit_two_pow_mul_add _ hlow,
    Nat.testBit_two_pow_mul_add _ hmid]
  simp only [Nat.testBit_mod_two_pow, Nat.testBit_div_two_pow, BitVec.getLsbD]
  split
  case isTrue hbelow =>
    rw [if_neg (by omega), decide_eq_true hbelow, Bool.true_and]
  case isFalse hge =>
    split
    case isTrue hin => rw [if_pos (by omega), decide_eq_true hin, Bool.true_and]
    case isFalse hout =>
      rw [if_neg (by omega)]
      congr 1
      omega

theorem exec_ins_of_issues {h : Head} {s : State} (hi : Issues s Rows.ins (Use.ofRow Rows.ins h).readD) :
    exec (.ins h) s = .next (advance h (Use.ofRow Rows.ins h).readD .seq (withInt h (insF h (gD s h).val (opA s h)) s)) := by
  have hnil := readD_ofRow_nil (r := Rows.ins) h (by decide)
  exact (exec_ins h s).trans (runHead_completes hi (unbound_nil hnil) rfl Next.noConfusion (unbound_nil hnil))

/-! ### Division -/

theorem divS_eq (a b : W64) : divS a b = BitVec.ofInt 64 (if b = 0 then -1 else a.toInt.tdiv b.toInt) := by
  unfold divS
  split
  · rfl
  · split
    case isTrue h =>
      obtain ⟨rfl, rfl⟩ := h
      decide
    case isFalse => rfl

theorem divU_eq (a b : W64) : divU a b = BitVec.ofNat 64 (if b = 0 then 2 ^ 64 - 1 else a.toNat / b.toNat) := by
  unfold divU
  split <;> rfl

theorem remS_eq (a b : W64) : remS a b = if b = 0 then a else BitVec.ofInt 64 (a.toInt.tmod b.toInt) := by
  unfold remS
  split
  · rfl
  · split
    case isTrue h =>
      obtain ⟨rfl, rfl⟩ := h
      decide
    case isFalse => rw [Int.tmod_def, Int.mul_comm]

/-- A head of variable latency leaves its result outstanding. -/
theorem effects_of_divHead {mk : Head → Instr} {r : Row} {f : W64 → W64 → W64} (signed : Bool) (g : W64 → W64 → W64)
    (he : ∀ h s, exec (mk h) s = divHead r h signed g s) (hr : r.d ≠ .v ∧ r.a ≠ .v ∧ r.b1 ≠ .v ∧ r.b2 ≠ .v)
    (hf : ∀ a b, g a b = f a b) :
    Effects mk r fun h s => withLate h.d (f (opA s h) (opB s h)) (divLatency signed (opA s h) (opB s h)) s := by
  obtain rfl : g = f := by funext a b; exact hf a b
  exact effects_of _ he hr fun _ _ => rfl

/-- On a core the destination of a late result is absent, and the result is the youngest outstanding one (R174). -/
theorem withLate_outstanding {d : BitVec 6} (v : W64) (lat : Nat) {s : State} (hs : isThread s.cur = false) (hd : d ≠ 0) :
    presentG (here (withLate d v lat s)) d.toNat = false ∧
    (here (withLate d v lat s)).pend =
      (here s).pend ++ [{ id := (here s).nextPend, dst := .g d.toNat, fin := .cst (Cap.ofInt v), readyAt := s.cyc + lat }] := by
  have hd' : d.toNat ≠ 0 := fun h => hd (BitVec.eq_of_toNat_eq h)
  simp [withLate, hs, withPend, clearDst, presentG, clearG, hd']

end Sys2Proof.Machine

namespace Sys2Proof

open Machine

/-- Settles O2: each head writes the number its helper computes, and that number has the bits of its rule. -/
theorem bitAndFieldHeadsWriteTheirResult : Obligations.BitAndFieldHeadsWriteTheirResult := by
  unfold Obligations.BitAndFieldHeadsWriteTheirResult
  have writes {mk : Head → Instr} {r : Row} {f : Head → W64 → W64} (he : ∀ h s, exec (mk h) s = intHead r h (fun a _ => f h a) s)
      (hr : r.d ≠ .v ∧ r.a ≠ .v ∧ r.b1 ≠ .v ∧ r.b2 ≠ .v) : Effects mk r fun h s => withInt h (f h (opA s h)) s :=
    effects_of _ he hr fun _ _ => rfl
  refine ⟨?clz, ?ctz, ?popc, ?brev, ?bswap, ?extu, ?ext, ?ins⟩
  case clz =>
    intro h s hi
    have hle := sigBits_le (opA s h)
    have hsub : 64 - (64 - sigBits (opA s h).toNat) = sigBits (opA s h).toNat := by omega
    refine ⟨64 - sigBits (opA s h).toNat, by omega, ?_, ?_, fun hlt => ?_⟩
    · exact writes (f := fun _ => clz64) exec_clz (by decide) h s hi (unbound_nil (ofRow_nil h (by decide)))
    · rw [hsub]
      exact lt_two_pow_sigBits _
    · have hexp : 63 - (64 - sigBits (opA s h).toNat) = sigBits (opA s h).toNat - 1 := by omega
      rw [hexp]
      exact two_pow_le_of_sigBits (by omega)
  case ctz =>
    intro h s hi
    obtain ⟨n, hle, hn, hbelow, hat⟩ := ctz_spec (opA s h)
    have hw := writes (f := fun _ => ctz64) exec_ctz (by decide) h s hi (unbound_nil (ofRow_nil h (by decide)))
    exact ⟨n, hle, hn ▸ hw, hbelow, hat⟩
  case popc =>
    refine computes_of (fun a _ => popc64 a) exec_popc (by decide) fun a _ => ?_
    rw [popc64, List.countP_eq_length_filter]
  case brev =>
    intro h s hi
    exact ⟨_, writes (f := fun _ => brev64) exec_brev (by decide) h s hi (unbound_nil (ofRow_nil h (by decide))),
      fun _ => getLsbD_brev64 _⟩
  case bswap =>
    intro h s hi
    exact ⟨_, writes (f := fun _ => bswap64) exec_bswap (by decide) h s hi (unbound_nil (ofRow_nil h (by decide))),
      fun _ => getLsbD_bswap64 _⟩
  case extu => exact writes (f := extU) exec_extu (by decide)
  case ext =>
    have hext (h : Head) (a : W64) : extS h a = BitVec.ofInt 64 (signedOf (h.im 11 6 + 1) (a.toNat / 2 ^ h.im 5 0)) := by
      rw [extS, extField_eq, extLen, signedOf_mod]
    simp only [← hext]
    exact writes (f := extS) exec_ext (by decide)
  case ins => exact fun h s hi _ => ⟨_, exec_ins_of_issues hi, fun _ => getLsbD_insF _ _⟩

/-- Settles O3: a division head leaves `withLate` (`effects_of_divHead`), and the model's quotient and remainder are
those of truncated division. -/
theorem divisionsLeaveTheirResultOutstanding : Obligations.DivisionsLeaveTheirResultOutstanding := by
  unfold Obligations.DivisionsLeaveTheirResultOutstanding
  have hdiv := effects_of_divHead true divS exec_div (by decide) divS_eq
  have hdivu := effects_of_divHead false divU exec_divu (by decide) divU_eq
  have hrem := effects_of_divHead true remS exec_rem (by decide) remS_eq
  have hremu := effects_of_divHead false remU exec_remu (by decide) fun _ _ => rfl
  exact ⟨hdiv, hdivu, hrem, hremu, fun _ v lat _ hs hd => withLate_outstanding v lat hs hd⟩

end Sys2Proof
end

section
set_option Elab.async false
/-! Heads whose row names no v register, the checks of an access in their order (R347), and transfers of control
(R373 to R377). -/

namespace Sys2Proof.Machine

/-! ### Heads of a row without v registers -/

/-- No field of the row names a v register. -/
abbrev Row.Scalar (r : Row) : Prop := r.d ≠ .v ∧ r.a ≠ .v ∧ r.b1 ≠ .v ∧ r.b2 ≠ .v

theorem Row.Scalar.unbound {r : Row} (hr : r.Scalar) (h : Head) (s : State) : Unbound s (Use.ofRow r h) :=
  unbound_nil (ofRow_nil h hr)
theorem Row.Scalar.unbound_readD {r : Row} (hr : r.Scalar) (h : Head) (s : State) : Unbound s (Use.ofRow r h).readD :=
  unbound_nil (readD_ofRow_nil h hr)
theorem Row.Scalar.unbound_srcD {r : Row} (hr : r.Scalar) (h : Head) (s : State) : Unbound s (Use.ofRow r h).srcD := by
  obtain ⟨hread, hwritten⟩ := List.append_eq_nil_iff.mp (ofRow_nil h hr)
  exact unbound_nil (by simp [Use.srcD, hread, hwritten])

/-- A head that names no v register completes when its body succeeds. -/
theorem runHead_ok {r : Row} {h : Head} {u : Use} {body : X Next} {s t : State} {n : Next} (hi : Issues s r u)
    (hu : ∀ x, Unbound x u) (hb : body s = .ok n t) (hn : n ≠ .gone := by exact Next.noConfusion) :
    runHead r h u body s = .next (advance h u n t) := runHead_completes hi (hu s) hb hn (hu t)

/-- A trap that its body raises is taken at the head. -/
theorem runHead_trap {r : Row} {h : Head} {u : Use} {body : X Next} {s t : State} {cause addr info : Nat} (hi : Issues s r u)
    (hu : ∀ x, Unbound x u) (hb : body s = .error (.trap cause addr info) t) :
    runHead r h u body s = .next (trapAt s cause addr info) := runHead_error hi (hu s) hb

/-! ### Running a body -/

theorem X.map_eq {α β : Type} (f : α → β) (x : X α) (s : State) :
    (f <$> x) s = match x s with
      | .ok a t => .ok (f a) t
      | .error e t => .error e t := by
  show EStateM.map f x s = _
  unfold EStateM.map
  cases x s <;> rfl
theorem X.ite_apply {α : Type} (c : Prop) [Decidable c] (x y : X α) (s : State) :
    (if c then x else y) s = if c then x s else y s := by
  split <;> rfl

/-! ### Check (R347) -/

@[simp] theorem X.ensure_of {b : Bool} (hb : b = true) (c a i : Nat) (s : State) : ensure b c a i s = .ok () s := by
  rw [hb]; rfl
@[simp] theorem X.ensure_of_not {b : Bool} (hb : b = false) (c a i : Nat) (s : State) :
    ensure b c a i s = .error (.trap c a i) s := by
  rw [hb]; rfl

theorem check_thread {s : State} (ht : isThread s.cur = true) (c : Cap) (ea n p align : Nat) :
    check c ea n p align s = ensure (ea % align == 0) 0x09 ea 0 s := by
  unfold check
  rw [X.bind_ok (X.get_apply s), ht]
  rfl

/-- On a core the four conditions are tried in order. -/
theorem check_core {s : State} (ht : isThread s.cur = false) (c : Cap) (ea n p align : Nat) :
    check c ea n p align s =
      (do ensure c.tag 0x06 ea; ensure (CapF.inBounds c ea n) 0x07 ea; ensure (CapF.holds c p) 0x08 ea
          ensure (ea % align == 0) 0x09 ea : X Unit) s := by
  unfold check
  rw [X.bind_ok (X.get_apply s), ht]
  simp only [Bool.false_eq_true, ↓reduceIte]

section
variable {s : State} {c : Cap} {ea n p align : Nat}

theorem check_ok (h : CheckPasses s c ea n p align) : check c ea n p align s = .ok () s := by
  obtain ⟨hcap, halign⟩ := h
  have ha : (ea % align == 0) = true := by simpa using halign
  cases ht : isThread s.cur with
  | true => rw [check_thread ht, X.ensure_of ha]
  | false =>
    obtain ⟨htag, hbounds, hperm⟩ := hcap.resolve_left (by simp [ht])
    rw [check_core ht, X.bind_ok (X.ensure_of htag ..), X.bind_ok (X.ensure_of hbounds ..),
      X.bind_ok (X.ensure_of hperm ..), X.ensure_of ha]

theorem check_untagged (ht : isThread s.cur = false) (htag : c.tag = false) :
    check c ea n p align s = .error (.trap 0x06 ea 0) s := by
  rw [check_core ht, X.bind_error (X.ensure_of_not htag ..)]

theorem check_outside (ht : isThread s.cur = false) (htag : c.tag = true) (hb : CapF.inBounds c ea n = false) :
    check c ea n p align s = .error (.trap 0x07 ea 0) s := by
  rw [check_core ht, X.bind_ok (X.ensure_of htag ..), X.bind_error (X.ensure_of_not hb ..)]

theorem check_forbidden (ht : isThread s.cur = false) (htag : c.tag = true) (hb : CapF.inBounds c ea n = true)
    (hp : CapF.holds c p = false) : check c ea n p align s = .error (.trap 0x08 ea 0) s := by
  rw [check_core ht, X.bind_ok (X.ensure_of htag ..), X.bind_ok (X.ensure_of hb ..), X.bind_error (X.ensure_of_not hp ..)]

theorem check_misaligned (ht : isThread s.cur = false) (htag : c.tag = true) (hb : CapF.inBounds c ea n = true)
    (hp : CapF.holds c p = true) (ha : ea % align ≠ 0) : check c ea n p align s = .error (.trap 0x09 ea 0) s := by
  rw [check_core ht, X.bind_ok (X.ensure_of htag ..), X.bind_ok (X.ensure_of hb ..), X.bind_ok (X.ensure_of hp ..),
    X.ensure_of_not (by simpa using ha)]

end

theorem baseAddr_core {s : State} (ht : isThread s.cur = false) (c : Cap) : baseAddr s c = CapF.addr c := by
  simp [baseAddr, ht]

/-! ### Transfers (R373 to R377) -/

/-- A branch decides by its condition alone. -/
theorem branches_of {mk : Head → Instr} {r : Row} {p : W64 → W64 → Prop} (f : W64 → W64 → Bool)
    (he : ∀ h s, exec (mk h) s = branchHead r h f s) (hr : r.Scalar) (hp : ∀ a b, f a b = true ↔ p a b) : Branches mk r p := by
  intro h s hi
  have hrun {n : Next} (hn : n ≠ .gone) (hb : (if f (opA s h) (gB s h).val then Next.go (relTarget s h) else .seq) = n) :
      exec (mk h) s = .next (advance h (Use.ofRow r h) n s) :=
    (he h s).trans (runHead_ok hi (hr.unbound h) (by simp [X.bind_eq, hb]) hn)
  constructor
  · intro hc
    exact hrun Next.noConfusion (if_pos ((hp _ _).mpr hc))
  · intro hc
    exact hrun Next.noConfusion (if_neg fun hf => hc ((hp _ _).mp hf))

theorem capTarget_ok {s : State} {c : Cap} (h : CheckPasses s c (baseAddr s c) 64 CapF.EXE 64) :
    capTarget c s = .ok ⟨baseAddr s c, 1⟩ s := by
  unfold capTarget
  rw [X.bind_ok (X.get_apply s), X.bind_ok (check_ok h), X.pure_apply]

theorem capTarget_untagged {s : State} {c : Cap} (ht : isThread s.cur = false) (htag : c.tag = false) :
    capTarget c s = .error (.trap 0x06 (CapF.addr c) 0) s := by
  unfold capTarget
  rw [X.bind_ok (X.get_apply s), X.bind_error (check_untagged ht htag), baseAddr_core ht]

/-- The fields of a capability that `CapF.make` gives (R340, R375). -/
theorem linkCap_fields (s : State) : (linkCap s).tag = true ∧ CapF.addr (linkCap s) = ((here s).pc.line + 64) % 2 ^ 57 ∧
    CapF.base (linkCap s) = CapF.addr (linkCap s) ∧ CapF.top (linkCap s) = CapF.base (linkCap s) + 64 ∧
    CapF.perms (linkCap s) = CapF.EXE + CapF.GLB := by
  have haddr : ((here s).pc.line + 64) % 2 ^ 57 < 2 ^ 57 := Nat.mod_lt _ (by decide)
  generalize hl : ((here s).pc.line + 64) % 2 ^ 57 = l at *
  have hw0 : (linkCap s).w0.toNat = 48 * 2 ^ 57 + l := by
    simp only [linkCap, CapF.make, CapF.EXE, CapF.GLB, hl, BitVec.toNat_ofNat]
    omega
  have hw1 : (linkCap s).w1 = BitVec.ofNat 64 (64 * 2 ^ 41) := rfl
  have ha : CapF.addr (linkCap s) = l := by
    rw [CapF.addr, hw0]
    omega
  have hdn : CapF.dn (linkCap s) = 0 := by rw [CapF.dn, hw1]; decide
  have hup : CapF.up (linkCap s) = 64 := by rw [CapF.up, hw1]; decide
  have hexp : CapF.e (linkCap s) = 0 := by rw [CapF.e, hw1]; decide
  refine ⟨rfl, ha, ?_, ?_, ?_⟩
  · simp [CapF.base, hdn, hexp]
  · simp [CapF.base, CapF.top, hdn, hup, hexp]
  · rw [CapF.perms, hw0, CapF.EXE, CapF.GLB]
    omega

end Sys2Proof.Machine

namespace Sys2Proof

open Machine

/-- Settles O6: a branch reads its condition and changes nothing else (`branches_of`). -/
theorem branchesGoToTheirLine : Obligations.BranchesGoToTheirLine := by
  unfold Obligations.BranchesGoToTheirLine
  refine ⟨fun _ _ => rfl, ?beq, ?bne, ?blt, ?bge, ?bltu, ?bgeu, ?bz, ?bnz, ?jmp, ?loop⟩
  case beq => exact branches_of _ exec_beq (by decide) fun a b => by simp
  case bne => exact branches_of _ exec_bne (by decide) fun a b => by simp
  case blt => exact branches_of _ exec_blt (by decide) fun a b => by simp [slt_eq]
  case bge => exact branches_of _ exec_bge (by decide) fun a b => by simp [slt_eq]
  case bltu => exact branches_of _ exec_bltu (by decide) fun a b => by simp [ult_eq]
  case bgeu => exact branches_of _ exec_bgeu (by decide) fun a b => by simp [ult_eq]
  case bz => exact branches_of _ exec_bz (by decide) fun a b => by simp
  case bnz => exact branches_of _ exec_bnz (by decide) fun a b => by simp
  case jmp => exact fun h s hi => (exec_jmp h s).trans (runHead_ok hi (fun _ => unbound_nil rfl) rfl)
  case loop =>
    intro h s u hi
    have hr : Rows.loop.Scalar := by decide
    constructor
    · intro hc
      rw [exec_loop, execLoop]
      refine runHead_ok hi (hr.unbound_readD h) ?_
      simp only [X.bind_ok (X.get_apply s), if_pos hc]
      rfl
    · intro hc
      rw [exec_loop, execLoop]
      refine runHead_ok hi (hr.unbound_readD h) ?_
      simp only [X.bind_ok (X.get_apply s), if_neg (Nat.not_lt.mpr hc)]
      rfl

/-- Settles O7: the target of a transfer is checked at the head (`capTarget_ok`, `capTarget_untagged`). -/
theorem callsLinkAndTransfersAreChecked : Obligations.CallsLinkAndTransfersAreChecked := by
  unfold Obligations.CallsLinkAndTransfersAreChecked
  have hjmpC : Rows.jmpC.Scalar := by decide
  have hret : Rows.ret.Scalar := by decide
  have hcallC : Rows.callC.Scalar := by decide
  have hcall : Rows.call.Scalar := by decide
  refine ⟨fun h s hi => (exec_call h s).trans (runHead_ok hi (hcall.unbound h) rfl), linkCap_fields, ?passes, ?untagged⟩
  case passes =>
    intro h s a hp
    have ht := capTarget_ok hp
    refine ⟨fun hi => ?_, fun hi => ?_, fun hi => ?_⟩
    · exact (exec_jmpC h s).trans (runHead_ok hi (hjmpC.unbound h) (by simp [X.bind_eq, X.map_eq, ht, a]))
    · exact (exec_ret h s).trans (runHead_ok hi (hret.unbound h) (by simp [X.bind_eq, X.map_eq, ht, a]))
    · exact (exec_callC h s).trans (runHead_ok hi (hcallC.unbound h) (by simp [X.bind_eq, X.map_eq, ht, a, withG]))
  case untagged =>
    intro h s hs htag
    have ht := capTarget_untagged hs htag
    refine ⟨fun hi => ?_, fun hi => ?_, fun hi => ?_⟩
    · exact (exec_jmpC h s).trans (runHead_trap hi (hjmpC.unbound h) (t := s) (by simp [X.bind_eq, X.map_eq, ht]))
    · exact (exec_ret h s).trans (runHead_trap hi (hret.unbound h) (t := s) (by simp [X.bind_eq, X.map_eq, ht]))
    · exact (exec_callC h s).trans (runHead_trap hi (hcallC.unbound h) (t := s) (by simp [X.bind_eq, ht]))

/-- Settles O8: `check` tries its four conditions in order. -/
theorem checkRaisesTheFirstFailure : Obligations.CheckRaisesTheFirstFailure :=
  fun _ _ _ _ _ _ => ⟨check_ok, fun ht => ⟨check_untagged ht, check_outside ht, check_forbidden ht, check_misaligned ht⟩⟩

end Sys2Proof
end

section
set_option Elab.async false
/-! Capabilities: the fields of a derived capability, and the bounds that CSETB sets (R340 to R342, R364 to R372). -/

namespace Sys2Proof.Machine

namespace CapF

/-! ### Fields of the two words -/

theorem addr_lt (c : Cap) : addr c < 2 ^ 57 := Nat.mod_lt _ (by decide)
theorem perms_lt (c : Cap) : perms c < 2 ^ 7 := by
  have := c.w0.isLt
  unfold perms
  omega

theorem fields_of_w0 {c : Cap} {p a : Nat} (hp : p < 2 ^ 7) (ha : a < 2 ^ 57) (h : c.w0 = BitVec.ofNat 64 (p * 2 ^ 57 + a)) :
    addr c = a ∧ perms c = p := by
  have hw : c.w0.toNat = p * 2 ^ 57 + a := by
    rw [h, BitVec.toNat_ofNat]
    omega
  rw [addr, perms, hw]
  omega

/-- The 23-bit fields and the low 18 bits of word 1. -/
theorem fields_of_w1 {c : Cap} {u d low : Nat} (hu : u < 2 ^ 23) (hd : d < 2 ^ 23) (hlow : low < 2 ^ 18)
    (h : c.w1 = BitVec.ofNat 64 (u * 2 ^ 41 + d * 2 ^ 18 + low)) :
    up c = signedOf 23 u ∧ dn c = signedOf 23 d ∧ c.w1.toNat % 2 ^ 18 = low := by
  have hw : c.w1.toNat = u * 2 ^ 41 + d * 2 ^ 18 + low := by
    rw [h, BitVec.toNat_ofNat]
    omega
  have hup : bitsOf c.w1.toNat 63 41 = u := by
    rw [hw, bitsOf]
    omega
  have hdn : bitsOf c.w1.toNat 40 18 = d := by
    rw [hw, bitsOf]
    omega
  rw [up, dn, hup, hdn, hw]
  exact ⟨rfl, rfl, by omega⟩

theorem e_eq_of_low {c d : Cap} (h : d.w1.toNat % 2 ^ 18 = c.w1.toNat % 2 ^ 18) : e d = e c := by
  simp only [e, bitsOf]
  omega

theorem field23_lt (x : Int) : field23 x < 2 ^ 23 := by
  unfold field23
  omega

/-- A number that fits a 23-bit field is read back from it. -/
theorem signedOf_field23 {x : Int} (h : fits23 x = true) : signedOf 23 (field23 x) = x := by
  simp only [fits23, Bool.and_eq_true, decide_eq_true_eq] at h
  obtain ⟨hlow, hhigh⟩ := h
  have hmod : field23 x % 2 ^ 23 = field23 x := Nat.mod_eq_of_lt (field23_lt x)
  by_cases hneg : field23 x < 2 ^ 22
  · rw [signedOf, hmod, if_pos hneg]
    simp only [field23] at *
    omega
  · rw [signedOf, hmod, if_neg hneg]
    simp only [field23] at *
    omega

theorem signedOf_small {x : Nat} (h : x < 2 ^ 22) : signedOf 23 x = x := by
  rw [signedOf, if_pos (by omega)]
  congr 1
  omega

/-! ### A new address (R342, R365) -/

/-- The address moves, the permissions and the low bits of word 1 stay, and a capability that keeps its tag keeps its
bounds. -/
theorem setAddr_spec (c : Cap) (a : Nat) : addr (setAddr c a) = a % 2 ^ 57 ∧ perms (setAddr c a) = perms c ∧
    (setAddr c a).w1.toNat % 2 ^ 18 = c.w1.toNat % 2 ^ 18 ∧
    ((setAddr c a).tag = true → c.tag = true ∧ base (setAddr c a) = base c ∧ top (setAddr c a) = top c) := by
  obtain ⟨haddr, hperms⟩ := fields_of_w0 (c := setAddr c a) (perms_lt c) (Nat.mod_lt a (by decide)) rfl
  have hlow : bitsOf c.w1.toNat 17 0 = c.w1.toNat % 2 ^ 18 := by simp [bitsOf]
  obtain ⟨hup, hdn, hrest⟩ := fields_of_w1 (c := setAddr c a) (field23_lt _) (field23_lt _)
    (hlow ▸ Nat.mod_lt _ (by decide)) rfl
  rw [hlow] at hrest
  refine ⟨haddr, hperms, hrest, fun htag => ?_⟩
  simp only [setAddr, Bool.and_eq_true] at htag
  obtain ⟨⟨htag, hd⟩, hu⟩ := htag
  rw [signedOf_field23 hu] at hup
  rw [signedOf_field23 hd] at hdn
  refine ⟨htag, ?_, ?_⟩
  · rw [base, base, haddr, hdn, e_eq_of_low hrest]
    congr 1
    omega
  · rw [top, top, haddr, hup, e_eq_of_low hrest]
    congr 1
    omega

end CapF

theorem setAddr_mod (c : Cap) (a : Nat) : CapF.setAddr c (a % 2 ^ 57) = CapF.setAddr c a := by
  simp only [CapF.setAddr, CapF.w0With, Nat.mod_mod]

/-- Taking permissions away leaves the address (R367). -/
theorem cpermOf_spec (c : Cap) (mask : Nat) : CapF.addr (cpermOf c mask) = CapF.addr c ∧
    CapF.perms (cpermOf c mask) = Nat.land (CapF.perms c) mask :=
  CapF.fields_of_w0 (Nat.lt_of_le_of_lt Nat.and_le_left (CapF.perms_lt c)) (CapF.addr_lt c) rfl

theorem cpermOf_eq (c : Cap) (mask : Nat) : ∃ w, cpermOf c mask = { c with w0 := w } := ⟨_, rfl⟩
theorem cfmtOf_eq (c : Cap) (code k : Nat) : ∃ w keep, cfmtOf c code k = ⟨c.w0, w, c.tag && keep⟩ := ⟨_, _, rfl⟩

/-- A new format changes the low twelve bits of word 1 (R368). -/
theorem cfmtOf_spec (c : Cap) {code k : Nat} (hcode : code < 2 ^ 8) (hk : k < 2 ^ 4) :
    (cfmtOf c code k).w1.toNat / 2 ^ 12 = c.w1.toNat / 2 ^ 12 ∧ (cfmtOf c code k).w1.toNat % 2 ^ 8 = code ∧
    CapF.k (cfmtOf c code k) = k := by
  have hw1 := c.w1.isLt
  have hw : (cfmtOf c code k).w1.toNat = c.w1.toNat / 2 ^ 12 * 2 ^ 12 + k * 2 ^ 8 + code := by
    simp only [cfmtOf, BitVec.toNat_ofNat]
    omega
  rw [CapF.k, bitsOf, hw]
  omega

/-! ### New bounds (R366) -/

theorem roundDown_le (x e : Nat) : roundDown x e ≤ x := Nat.div_mul_le_self x _
theorem le_roundUp (x e : Nat) : x ≤ roundUp x e := by
  have hpos : 0 < 2 ^ e := Nat.two_pow_pos e
  have hmod := Nat.mod_lt (x + 2 ^ e - 1) hpos
  have hdiv := Nat.div_add_mod (x + 2 ^ e - 1) (2 ^ e)
  rw [roundUp, Nat.mul_comm]
  omega
/-- The rounded top lies a whole number of granules above the rounded base. -/
theorem roundDown_add_granules {b t : Nat} (e : Nat) (h : b ≤ t) :
    (b / 2 ^ e + (roundUp t e - roundDown b e) / 2 ^ e) * 2 ^ e = roundUp t e := by
  have hle : roundDown b e ≤ roundUp t e := (roundDown_le b e).trans (h.trans (le_roundUp t e))
  have hpos : 0 < 2 ^ e := Nat.two_pow_pos e
  unfold roundUp roundDown at *
  rw [← Nat.sub_mul, Nat.mul_div_cancel _ hpos]
  have := Nat.le_of_mul_le_mul_right hle hpos
  rw [Nat.add_sub_cancel' this]

/-- The exponent that is found lies in the range searched, and the run fits UP. -/
theorem fitExp_spec {b t n e0 e : Nat} (h : fitExp b t n e0 = some e) :
    e < e0 + n ∧ (roundUp t e - roundDown b e) / 2 ^ e < 2 ^ 22 := by
  induction n generalizing e0 with
  | zero => cases h
  | succ n ih =>
    unfold fitExp at h
    split at h
    case isTrue hfit =>
      cases h
      exact ⟨by omega, Nat.lt_of_le_pred (by decide) hfit⟩
    case isFalse =>
      obtain ⟨hlt, hfit⟩ := ih h
      exact ⟨by omega, hfit⟩

theorem withBounds_eq (c : Cap) (e b t : Nat) : ∃ w, withBounds c e b t = { c with w1 := w } := ⟨_, rfl⟩
theorem withBounds_w0 (c : Cap) (e b t : Nat) : (withBounds c e b t).w0 = c.w0 := by
  obtain ⟨w, hw⟩ := withBounds_eq c e b t
  rw [hw]
theorem withBounds_tag (c : Cap) (e b t : Nat) : (withBounds c e b t).tag = c.tag := by
  obtain ⟨w, hw⟩ := withBounds_eq c e b t
  rw [hw]

/-- The bounds of a capability with bounds set from `b` to `t` at exponent `e`. -/
theorem withBounds_bounds {c : Cap} {t e : Nat} (he : e < 35) (hle : CapF.addr c ≤ t)
    (hfit : (roundUp t e - roundDown (CapF.addr c) e) / 2 ^ e < 2 ^ 22) :
    let d := withBounds c e (roundDown (CapF.addr c) e) (roundUp t e)
    CapF.base d = roundDown (CapF.addr c) e ∧ CapF.top d = roundUp t e := by
  intro d
  obtain ⟨low, hlow, hw1⟩ : ∃ low < 2 ^ 12, d.w1 = BitVec.ofNat 64
      ((roundUp t e - roundDown (CapF.addr c) e) / 2 ^ e * 2 ^ 41 + 0 * 2 ^ 18 + (e * 2 ^ 12 + low)) := by
    simp only [d, withBounds]
    split
    · have hk : CapF.freg c < 2 ^ 4 := Nat.mod_lt _ (by decide)
      exact ⟨CapF.freg c * 16, by omega, by simp [Nat.add_assoc]⟩
    · exact ⟨bitsOf c.w1.toNat 11 0, Nat.mod_lt _ (by decide), by simp [Nat.add_assoc]⟩
  obtain ⟨hup, hdn, hrest⟩ := CapF.fields_of_w1 (hfit.trans (by decide)) (by decide) (by omega) hw1
  have hexp : CapF.e d = e := by
    simp only [CapF.e, bitsOf]
    omega
  have haddr : CapF.addr d = CapF.addr c := by rw [CapF.addr, CapF.addr, withBounds_w0]
  rw [CapF.signedOf_small hfit] at hup
  rw [show signedOf 23 0 = 0 from rfl] at hdn
  constructor
  · simp [CapF.base, haddr, hdn, hexp, roundDown]
  · have hrun := roundDown_add_granules e hle
    rw [CapF.top, haddr, hup, hexp]
    exact_mod_cast hrun

/-- What CSETB gives when it does not trap (R366). -/
theorem csetbOf_ok {c d : Cap} {len : Nat} {out : Bool} (h : csetbOf c len out = .ok d) :
    d.tag = true ∧ d.w0 = c.w0 ∧ CapF.base c ≤ CapF.base d ∧ CapF.top d ≤ CapF.top c ∧
      CapF.base d ≤ CapF.addr c ∧ ((CapF.addr c + len : Nat) : Int) ≤ CapF.top d ∧
      (out = false → CapF.base d = CapF.addr c ∧ CapF.top d = ((CapF.addr c + len : Nat) : Int)) := by
  have hdown := roundDown_le (CapF.addr c)
  have hup := le_roundUp (CapF.addr c + len)
  simp only [csetbOf] at h
  split at h
  case isTrue => cases h
  case isFalse htag =>
    split at h
    case isTrue => cases h
    case isFalse hin =>
      simp only [Bool.or_eq_true, decide_eq_true_eq, not_or, not_lt] at hin
      obtain ⟨⟨hbase, htop⟩, -⟩ := hin
      split at h
      case h_1 => cases h
      case h_2 e hfit =>
        obtain ⟨he, hrun⟩ := fitExp_spec hfit
        obtain ⟨hb, ht⟩ := withBounds_bounds (c := c) (by omega) (Nat.le_add_right _ len) hrun
        have hdown := hdown e
        have hup := hup e
        split at h
        case isTrue => cases h
        case isFalse hexact =>
          split at h
          case isTrue => cases h
          case isFalse hinside =>
            cases h
            rw [hb, ht, withBounds_tag, withBounds_w0]
            simp only [Bool.and_eq_true, Bool.not_eq_true', Bool.or_eq_true, bne_iff_ne, decide_eq_true_eq, not_and, not_or,
              not_not, not_lt, Bool.not_eq_false] at htag hexact hinside
            refine ⟨htag, rfl, ?_, ?_, by omega, by omega, fun hout => ?_⟩
            · cases hout : out
              case false => rw [(hexact hout).1]; exact hbase
              case true => exact (hinside hout).1
            · cases hout : out
              case false => rw [(hexact hout).2]; exact htop
              case true => exact (hinside hout).2
            · rw [(hexact hout).1, (hexact hout).2]
              exact ⟨rfl, rfl⟩

theorem csetbOf_untagged {c : Cap} (h : c.tag = false) (len : Nat) (out : Bool) : csetbOf c len out = .error (0x06, 0) := by
  simp [csetbOf, h]
theorem csetbOf_outside {c : Cap} (h : c.tag = true) {len : Nat} (htop : CapF.top c < ((CapF.addr c + len : Nat) : Int))
    (out : Bool) : csetbOf c len out = .error (0x07, 0) := by
  simp only [csetbOf, h, htop]
  simp

theorem setbHead_ok {r : Row} {h : Head} {s : State} {out : Bool} {d : Cap} (hr : r.Scalar) (hi : Issues s r (Use.ofRow r h))
    (hd : csetbOf (gA s h) (setbLen s h) out = .ok d) :
    setbHead r h out s = .next (advance h (Use.ofRow r h) .seq (withG h d s)) := by
  refine runHead_ok hi (hr.unbound h) ?_
  simp only [setbLen] at hd
  simp [X.bind_eq, X.map_eq, hd, withG]

theorem setbHead_trap {r : Row} {h : Head} {s : State} {out : Bool} {cause sub : Nat} (hr : r.Scalar)
    (hi : Issues s r (Use.ofRow r h)) (hd : csetbOf (gA s h) (setbLen s h) out = .error (cause, sub)) :
    setbHead r h out s = .next (trapAt s cause (CapF.addr (gA s h)) sub) := by
  refine runHead_trap (t := s) hi (hr.unbound h) ?_
  simp only [setbLen] at hd
  simp [X.bind_eq, X.map_eq, hd]

/-- A CGET head writes the field it reads. -/
theorem effects_of_getHead {mk : Head → Instr} {r : Row} (f : Cap → W64) (he : ∀ h s, exec (mk h) s = getHead r h f s)
    (hr : r.Scalar) : Effects mk r fun h s => withInt h (f (gA s h)) s :=
  effects_of _ he hr fun _ _ => rfl

/-- The body of CCHK on a core: three of the four conditions, in order (R372). -/
theorem exec_cchk_eq (h : Head) (s : State) : exec (.cchk h) s = runHead Rows.cchk h (Use.ofRow Rows.cchk h) (do
    let s ← get
    ensure (gA s h).tag 0x06 (CapF.addr (gA s h))
    ensure (CapF.inBounds (gA s h) (CapF.addr (gA s h)) (gB s h).val.toNat) 0x07 (CapF.addr (gA s h))
    ensure (CapF.holds (gA s h) (if h.form = .T2 then h.im 6 0 else 0)) 0x08 (CapF.addr (gA s h))
    pure .seq) s := by
  simp only [exec_cchk, execCchk, beq_iff_eq]

end Sys2Proof.Machine

namespace Sys2Proof

open Machine

/-- Settles O4: a derived capability has the fields of its head's rule (`setAddr_spec`, `cpermOf_spec`, `cfmtOf_spec`). -/
theorem capabilitiesAreReadAndOnlyNarrowed : Obligations.CapabilitiesAreReadAndOnlyNarrowed := by
  unfold Obligations.CapabilitiesAreReadAndOnlyNarrowed
  have fmt (c : Cap) : bitsOf c.w1.toNat 7 0 = c.w1.toNat % 2 ^ 8 := by simp [bitsOf]
  have derives {mk : Head → Instr} {r : Row} (f : Head → Cap → W64 → Cap) (he : ∀ h s, exec (mk h) s = capHead r h (f h) s)
      (hr : r.Scalar) (h : Head) (s : State) (hi : Issues s r (Use.ofRow r h)) :
      exec (mk h) s = .next (advance h (Use.ofRow r h) .seq (withG h (f h (gA s h) (opB s h)) s)) :=
    (he h s).trans (runHead_ok hi (hr.unbound h) rfl)
  refine ⟨⟨?addr, ?base, ?top, ?len, ?perm, ?fmt, ?k, ?tag⟩, ?cinc, ?cseta, ?cperm, ?cfmt⟩
  case addr => exact effects_of_getHead (fun c => BitVec.ofNat 64 (c.w0.toNat % 2 ^ 57)) exec_cgetAddr (by decide)
  case base => exact effects_of_getHead (fun c => cgetInt c (CapF.base c)) exec_cgetBase (by decide)
  case top => exact effects_of_getHead (fun c => cgetInt c (CapF.top c)) exec_cgetTop (by decide)
  case len => exact effects_of_getHead (fun c => cgetInt c (CapF.top c - CapF.base c)) exec_cgetLen (by decide)
  case perm => exact effects_of_getHead (fun c => BitVec.ofNat 64 (c.w0.toNat / 2 ^ 57)) exec_cgetPerm (by decide)
  case fmt =>
    simp only [← fmt]
    exact effects_of_getHead (fun c => BitVec.ofNat 64 (bitsOf c.w1.toNat 7 0)) exec_cgetFmt (by decide)
  case k => exact effects_of_getHead (fun c => BitVec.ofNat 64 (c.w1.toNat / 2 ^ 8 % 2 ^ 4)) exec_cgetK (by decide)
  case tag => exact effects_of_getHead (fun c => if c.tag then 1 else 0) exec_cgetTag (by decide)
  case cinc =>
    intro h s hi
    refine ⟨_, derives (fun _ => cincOf) exec_cinc (by decide) h s hi, ?_⟩
    rw [cincOf, setAddr_mod]
    exact CapF.setAddr_spec _ _
  case cseta =>
    intro h s hi
    refine ⟨_, derives (fun _ => csetaOf) exec_cseta (by decide) h s hi, ?_⟩
    rw [csetaOf, setAddr_mod]
    exact CapF.setAddr_spec _ _
  case cperm =>
    intro h s hi
    obtain ⟨haddr, hperms⟩ := cpermOf_spec (gA s h) (h.im 6 0)
    obtain ⟨w, hw⟩ := cpermOf_eq (gA s h) (h.im 6 0)
    exact ⟨_, derives (fun h c _ => cpermOf c (h.im 6 0)) exec_cperm (by decide) h s hi, haddr, by rw [hw], by rw [hw], hperms⟩
  case cfmt =>
    intro h s hi
    have hcode : h.im 7 0 < 2 ^ 8 := Nat.mod_lt _ (by decide)
    have hk : h.im 11 8 < 2 ^ 4 := Nat.mod_lt _ (by decide)
    obtain ⟨hhigh, hlow, hkey⟩ := cfmtOf_spec (gA s h) hcode hk
    obtain ⟨w, keep, hw⟩ := cfmtOf_eq (gA s h) (h.im 7 0) (h.im 11 8)
    refine ⟨_, derives (fun h c _ => cfmtOf c (h.im 7 0) (h.im 11 8)) exec_cfmt (by decide) h s hi, by rw [hw], hhigh, hlow,
      hkey, fun htag => ?_⟩
    rw [hw] at htag
    exact (Bool.and_eq_true_iff.mp htag).1

/-- Settles O5: new bounds contain the request and lie inside the old ones (`csetbOf_ok`); CCHK tries its conditions in
order. -/
theorem boundsAreSetAndChecked : Obligations.BoundsAreSetAndChecked := by
  unfold Obligations.BoundsAreSetAndChecked
  have sets {mk : Head → Instr} {r : Row} {out : Bool} (he : ∀ h s, exec (mk h) s = setbHead r h out s) (hr : r.Scalar)
      (h : Head) (s : State) (hi : Issues s r (Use.ofRow r h)) :=
    And.intro (fun d (hd : csetbOf (gA s h) (setbLen s h) out = .ok d) =>
        And.intro ((he h s).trans (setbHead_ok hr hi hd)) (csetbOf_ok hd))
      (And.intro (fun htag => (he h s).trans (setbHead_trap hr hi (csetbOf_untagged htag _ _)))
        fun htag htop => (he h s).trans (setbHead_trap hr hi (csetbOf_outside htag htop _)))
  refine ⟨⟨sets exec_csetb (by decide), sets exec_csetbO (by decide)⟩, fun h s hi => ?_⟩
  have hu := Row.Scalar.unbound (r := Rows.cchk) (by decide) h
  rw [exec_cchk_eq]
  refine ⟨fun htag hbounds hperm => runHead_ok hi hu ?_, fun htag => runHead_trap (t := s) hi hu ?_,
    fun htag hbounds => runHead_trap (t := s) hi hu ?_, fun htag hbounds hperm => runHead_trap (t := s) hi hu ?_⟩
  · simp [X.bind_eq, X.map_eq, htag, hbounds, hperm]
  · simp [X.bind_eq, htag]
  · simp [X.bind_eq, htag, hbounds]
  · simp [X.bind_eq, X.map_eq, htag, hbounds, hperm]

end Sys2Proof
end

section
set_option Elab.async false
/-! The end of a firing, waits, FIRE, chunks, software traps and the return from a trap (R378 to R388). -/

namespace Sys2Proof.Machine

/-! ### Releases (R266) -/

/-- A release whose conditions hold once it has begun is performed. -/
theorem release_ok {s : State} {scope : Nat} (h : releaseReady (releaseBegin scope s) (releaseBegin scope s).cur scope = true) :
    release scope s = .ok () (releaseBegin scope s) := by
  simp [release, X.bind_eq, h]
/-- Below domain scope a release starts nothing (R243). -/
theorem releaseBegin_of_lt {scope : Nat} (h : scope < 4) (s : State) : releaseBegin scope s = s := if_pos h
theorem release_ok_of_lt {s : State} {scope : Nat} (hs : scope < 4) (h : releaseReady s s.cur scope = true) :
    release scope s = .ok () s := by
  have hb := releaseBegin_of_lt hs s
  have := release_ok (s := s) (scope := scope) (by rwa [hb])
  rwa [hb] at this

/-! ### END and ENDE (R378) -/

theorem awaitResults_ok {s : State} (h : (here s).pend = []) : awaitResults s = .ok () s := by
  simp [awaitResults, X.bind_eq, h]

theorem endHead_thread {r : Row} (hr : r.Scalar) {h : Head} {status : Nat} {s : State}
    (hi : Issues s r (Use.ofRow r h).srcD) (ht : isThread s.cur = true) :
    endHead r h status s = .next (if status == stDone then endRun s.cur s
      else stopHandler s.cur 0x15 true (modRun s.cur (fun r => { r with count := r.count + 1 }) s)) := by
  refine runHead_gone hi (hr.unbound_srcD h s) ?_
  cases hs : status == stDone <;> simp [X.bind_eq, X.map_eq, ht]

theorem endHead_core {r : Row} (hr : r.Scalar) {h : Head} {status : Nat} {s : State}
    (hi : Issues s r (Use.ofRow r h).srcD) (ht : isThread s.cur = false) (hpend : (here s).pend = [])
    (hstream : streamFailure s = none) (hrel : releaseReady s s.cur 3 = true)
    (hd : h.d = 0 ∨ handleDev ((gD s h).val.toNat % 2 ^ 37) = s.dev ∧ handleCore ((gD s h).val.toNat % 2 ^ 37) = coreNo s.cur) :
    endHead r h status s = .next (endFiring s.cur status (if h.d = 0 then s else wakeHandle ((gD s h).val.toNat % 2 ^ 37) s)) := by
  refine runHead_gone hi (hr.unbound_srcD h s) ?_
  by_cases h0 : h.d = 0#6
  · simp [X.bind_eq, X.map_eq, ht, awaitResults_ok hpend, hstream, release_ok_of_lt (by omega) hrel, h0]
  · obtain ⟨hdev, hcore⟩ := hd.resolve_left h0
    simp [X.bind_eq, X.map_eq, X.ite_apply, ht, awaitResults_ok hpend, hstream, release_ok_of_lt (by omega) hrel, h0]
    exact ⟨hdev, hcore⟩

/-! ### Waits (R381 to R383) -/

theorem answered_of_not {s : State} (h : (here s).granted = false) (w : Wait) : answered w s = .ok false s := by
  simp [answered, X.bind_eq, h]
theorem answered_of {s : State} {w : Wait} (h : (here s).granted = true) (hw : (here s).wait = w) : answered w s = .ok true s := by
  simp [answered, X.bind_eq, h, hw]

/-! ### GROW and SHRINK (R385, R386) -/

theorem growHead_ok {r : Row} {h : Head} {vec : Bool} {s : State} (hi : Issues s r {}) (ht : isThread s.cur = false)
    (hn : h.im 3 0 ≠ 0) (h8 : h.im 3 0 + (if vec then vchOf s.cur (here s) else cchOf s.cur (here s)) ≤ 8)
    (hg : (here s).granted = false) (hp : poolsHold s s.cur vec (h.im 3 0) = true) (hnext : growNext s (coreNo s.cur) = none) :
    growHead r h vec s = .next (advance h {} .seq (addChunks s.cur vec (h.im 3 0) s)) := by
  refine runHead_ok hi (fun x => unbound_nil rfl) ?_
  have h8' := Nat.not_lt.mpr h8
  simp [X.bind_eq, X.map_eq, answered_of_not hg, hn, ht, h8', hp, hnext]

theorem shrinkHead_ok {r : Row} {h : Head} {vec : Bool} {s : State} (hi : Issues s r {}) (ht : isThread s.cur = false)
    (hn : h.im 3 0 ≠ 0)
    (hleast : h.im 3 0 + (if s.cur % 8 = 7 then (if vec then 1 else 2) else (if vec then 0 else 1)) ≤
      if vec then vchOf s.cur (here s) else cchOf s.cur (here s))
    (hp : (here s).pend = []) (hu : ∀ v, unitOf s s.cur v = none) :
    shrinkHead r h vec s = .next (advance h {} .seq (shrunk s.cur vec (h.im 3 0) s)) := by
  refine runHead_ok hi (fun x => unbound_nil rfl) ?_
  have hleast' := Nat.not_lt.mpr hleast
  simp [X.bind_eq, X.map_eq, hn, ht, hleast', hp, hu]

/-! ### FIRE (R384) -/

theorem lateInt_apply (d : BitVec 6) (v : W64) (lat : Nat) (s : State) : lateInt d v lat s = .ok () (withLate d v lat s) := rfl

/-! ### ERET (R388) -/

theorem eret_runs {h : Head} {s t : State} {pc : Pc} (hi : Issues s Rows.eret (Use.ofRow Rows.eret h).srcD)
    (hfl : (here s).fl = true)
    (hpc : (if h.d != 0 then capTarget (gD s h)
      else if bitsOf (here s).trapcause.toNat 7 0 == 0x14 then afterTrap s
      else pure ⟨bitsOf (here s).trappc.toNat 56 6 * 64, bitsOf (here s).trappc.toNat 4 0⟩ : X Pc) s = .ok pc t) :
    exec (.eret h) s = .next (advance h (Use.ofRow Rows.eret h).srcD (.go pc) (returnFromTrap s.cur pc t)) := by
  rw [exec_eret]
  refine runHead_ok hi (Row.Scalar.unbound_srcD (by decide) h) ?_
  split_ifs at hpc with h1 h2
  · simp [X.bind_eq, X.map_eq, X.ite_apply, hfl, show ¬h.d = 0#6 by simpa using h1, hpc]
  · simp [X.bind_eq, X.map_eq, X.ite_apply, hfl, show h.d = 0#6 by simpa using h1, beq_iff_eq.mp h2, hpc]
  · cases hpc
    simp [X.bind_eq, X.map_eq, X.ite_apply, hfl, show h.d = 0#6 by simpa using h1, mt beq_iff_eq.mpr h2]

/-! ### A WAITE stream on a failed write stream (R180, R383) -/

/-- A write stream of context 0 that has failed, with nothing more to write. -/
def failedUnit : SUnit :=
  { cid := 0, v := 0, tcap := {}, dims := [], strs := [], starts := [], lens := [], esz := 4, write := true, cv := false
    failed := some (0, 0) }
/-- A context whose register v0 is bound to that stream. -/
def failedStream : State :=
  { ctxs := [(0, { st := .issuing, fir := some { vch := 1, actor := { trape := 64 } } })]
    cores := [(0, { units := [(0, some failedUnit)] })] }
/-- Where the context in the slot stands after an instruction. -/
def pcAfterHead (o : Host.Outcome State Fault Refusal) : Option Pc :=
  match o with
  | .next t => some (here t).pc
  | _ => none

end Sys2Proof.Machine

namespace Sys2Proof
open Machine

/-- Settles O9. -/
theorem endHeadsRetireTheFiring : Obligations.EndHeadsRetireTheFiring := by
  intro h s
  refine ⟨fun ht hp hs hr => ⟨fun hi h0 => ?_, fun hi => ⟨fun h0 => ?_, fun h0 hdev hcore => ?_⟩⟩,
    fun ht => ⟨fun hi => ?_, fun hi => ?_⟩⟩
  · rw [exec_ende]
    have := endHead_core (status := stFailed) (by decide) hi ht hp hs hr (.inl h0)
    simpa [execEnde, h0] using this
  · have := endHead_core (status := stDone) (by decide) hi ht hp hs hr (.inl h0)
    simpa [exec_endFiring, execEndFiring, h0] using this
  · have := endHead_core (status := stDone) (by decide) hi ht hp hs hr (.inr ⟨hdev, hcore⟩)
    rwa [if_neg h0] at this
  · exact endHead_thread (by decide) hi ht
  · exact endHead_thread (by decide) hi ht

/-- Refutes O10: a write stream that has failed has nothing left to write, and WAITE stream raises its failure
instead of completing (R180). -/
theorem not_waitsCompleteWhenTheirEventHasOccurred : ¬ Obligations.WaitsCompleteWhenTheirEventHasOccurred := by
  intro holds
  obtain ⟨-, -, hstream, -⟩ := holds { a := 0 } failedStream
  have issues : Issues failedStream Rows.waiteStr (Use.ofRow Rows.waiteStr { a := 0 }).nameV :=
    ⟨by decide +kernel, by decide +kernel, by decide +kernel⟩
  have completes := hstream issues (.inr (.inr ⟨0, failedUnit, rfl, rfl, rfl, rfl⟩))
  exact absurd (congrArg pcAfterHead completes) (by decide +kernel)

/-- Settles O11. -/
theorem fireQueuesItsActor : Obligations.FireQueuesItsActor := by
  intro h s x raw ts act hi ht hc hr f hact b q
  have hu := Row.Scalar.unbound (r := Rows.fire) (by decide) h
  have hact : parseActor (actVer s (firOf s s.cur).fn) raw (ts.getD 0 false) (ts.getD 1 false) (ts.getD 2 false) = some act :=
    hact
  refine ⟨fun hroom => ?_, fun hfull => ?_⟩
  · rw [exec_fire]
    refine runHead_ok hi hu ?_
    simp [-List.getD_eq_getElem?_getD, X.bind_eq, X.map_eq, X.ite_apply, hc, ht, hr, hact, hroom, lateInt_apply, f, b, q]
  · rw [exec_fire]
    refine runHead_ok hi hu ?_
    simp [-List.getD_eq_getElem?_getD, X.bind_eq, X.map_eq, X.ite_apply, hc, ht, hr, hact, hfull, lateInt_apply, f, b, q]

/-- Settles O12. -/
theorem growAndShrinkMoveChunks : Obligations.GrowAndShrinkMoveChunks := by
  refine ⟨?_, ?_, ?_, ?_⟩
  · exact fun h s hi ht hn h8 hg hp hnext => growHead_ok hi ht hn h8 hg hp hnext
  · exact fun h s hi ht hn h8 hg hp hnext => growHead_ok hi ht hn h8 hg hp hnext
  · exact fun h s hi ht hn hl hp hu => shrinkHead_ok hi ht hn hl hp hu
  · exact fun h s hi ht hn hl hp hu => shrinkHead_ok hi ht hn hl hp hu

/-- Settles O14. -/
theorem eretRestoresTheFrame : Obligations.EretRestoresTheFrame := by
  intro h s u x hi
  refine ⟨fun hfl hd hc => ?_, fun pc t hfl hd hc ha => ?_, fun hfl hd hc => ?_, fun hfl => ?_, fun pc => ?_⟩
  · exact eret_runs hi hfl (by simp [x, hd, hc])
  · exact eret_runs hi hfl (by simpa [x, hd, hc] using ha)
  · exact eret_runs hi hfl (by rw [if_pos (by simpa using hd)]; exact capTarget_ok hc)
  · rw [exec_eret]
    refine runHead_trap hi (Row.Scalar.unbound_srcD (by decide) h) (t := s) ?_
    simp [X.bind_eq, x, hfl]
  · simp [returnFromTrap, x, here]

end Sys2Proof
end

section
set_option Elab.async false
/-! Traps (R301, R387): what a supervisor record leaves alone, and the frame that a trap saves. -/

namespace Sys2Proof.Machine

/-! ### A supervisor record leaves contexts and cores alone -/

@[simp] theorem bbWrite_ctxs (d unit num event : Nat) (data : List W64) (s : State) : (bbWrite d unit num event data s).ctxs = s.ctxs := rfl
@[simp] theorem bbWrite_cores (d unit num event : Nat) (data : List W64) (s : State) : (bbWrite d unit num event data s).cores = s.cores := rfl
@[simp] theorem vecSend_ctxs (f v : Nat) (s : State) : (vecSend f v s).ctxs = s.ctxs := by unfold vecSend; dsimp only; split <;> rfl
@[simp] theorem vecSend_cores (f v : Nat) (s : State) : (vecSend f v s).cores = s.cores := by unfold vecSend; dsimp only; split <;> rfl
@[simp] theorem vecEvent_ctxs (f v : Nat) (s : State) : (vecEvent f v s).ctxs = s.ctxs := by
  unfold vecEvent; dsimp only; split
  · rw [vecSend_ctxs]; rfl
  · rfl
@[simp] theorem vecEvent_cores (f v : Nat) (s : State) : (vecEvent f v s).cores = s.cores := by
  unfold vecEvent; dsimp only; split
  · rw [vecSend_cores]; rfl
  · rfl
@[simp] theorem supRecord_ctxs (r : SupRec) (s : State) : (supRecord r s).ctxs = s.ctxs := by
  unfold supRecord; rw [vecEvent_ctxs]; split
  · rw [modRegs_ctxs, poke_ctxs]
  · rw [modRegs_ctxs, bbWrite_ctxs]
@[simp] theorem supRecord_cores (r : SupRec) (s : State) : (supRecord r s).cores = s.cores := by
  unfold supRecord; rw [vecEvent_cores]; split
  · rw [modRegs_cores, poke_cores]
  · rw [modRegs_cores, bbWrite_cores]

/-! ### Before the trap is taken -/

@[simp] theorem gangPeer_ctxs (c : Nat) (s : State) : (gangPeer c s).ctxs = s.ctxs := by
  unfold gangPeer; split
  · exact supRecord_ctxs _ s
  · rfl
@[simp] theorem gangPeer_cores (c : Nat) (s : State) : (gangPeer c s).cores = s.cores := by
  unfold gangPeer; split
  · exact supRecord_cores _ s
  · rfl
@[simp] theorem leaveSlot_ctxs (c : Nat) (s : State) : (leaveSlot c s).ctxs = s.ctxs := by
  unfold leaveSlot; split <;> rfl
@[simp] theorem trapvec_leaveSlot (c : Nat) (s : State) :
    (coreOf (leaveSlot c s) (coreNo c)).trapvec = (coreOf s (coreNo c)).trapvec := by
  unfold leaveSlot; split
  · rfl
  · rw [coreOf_modCore]; split <;> rfl

theorem ctxOf_congr {s t : State} (h : t.ctxs = s.ctxs) (c : Nat) : ctxOf t c = ctxOf s c := by simp [ctxOf, h]
theorem coreOf_congr {s t : State} (h : t.cores = s.cores) (k : Nat) : coreOf t k = coreOf s k := by simp [coreOf, h]
theorem firOf_congr {s t : State} (h : t.ctxs = s.ctxs) (c : Nat) : firOf t c = firOf s c := by simp [firOf, ctxOf_congr h]

/-! ### TRAPCAUSE -/

/-- A frame without the level bit keeps the cause, and NESTED where the cause leaves bit 9 free. -/
theorem trapcause_fields (cause prior : Nat) (lens paired nested : Bool) :
    let w := BitVec.ofNat 64 (cause + 0 + (if lens then 0x400 else 0) + (if paired then 0x800 else 0) +
      (if nested then 0x200 else 0) + prior * 2 ^ 16)
    w.toNat % 512 = cause % 512 ∧ (w.getLsbD 9 = nested ∨ 512 ≤ cause) := by
  intro w
  have hw : w.toNat = _ := BitVec.toNat_ofNat ..
  have h9 : w.getLsbD 9 = decide (w.toNat / 2 ^ 9 % 2 = 1) := by
    rw [← BitVec.testBit_toNat, Nat.testBit_eq_decide_div_mod_eq]
  rw [h9]
  cases lens <;> cases paired <;> cases nested <;> simp at hw ⊢ <;> omega

/-! ### Taking a trap -/

/-- The context of a trap with its frame saved, before the handler is chosen. -/
def framed (addr info : Nat) (x : Ctx) : Ctx :=
  { x with
    trappc := BitVec.ofNat 64 (x.pc.line + x.pc.head)
    trapaddr := BitVec.ofNat 64 addr
    trapinfo := BitVec.ofNat 64 info
    st := .ready
    wait := .none
    granted := false
    fetched := []
    storing := []
    relBegun := false }

theorem ctxOf_before_trap (c : Nat) (s : State) : ctxOf (gangPeer c (leaveSlot c s)) c = ctxOf s c := ctxOf_congr (by simp) c
theorem firOf_before_trap (c : Nat) (s : State) : firOf (gangPeer c (leaveSlot c s)) c = firOf s c := firOf_congr (by simp) c
theorem trapvec_before_trap (c : Nat) (s : State) :
    (coreOf (gangPeer c (leaveSlot c s)) (coreNo c)).trapvec = (coreOf s (coreNo c)).trapvec := by
  rw [coreOf_congr (gangPeer_cores ..), trapvec_leaveSlot]

section
variable {s : State} {c cause : Nat} (addr info : Nat) (hsup : (ctxOf s c).sup = false)
include hsup

/-- A trap that R301 sends to TRAPE stays at user level. -/
theorem ctxOf_takeTrap_trape
    (h : (toTrape cause && !(ctxOf s c).fl && (firOf s c).actor.trape != 0 && c % 8 != 7) = true) :
    ∃ w : W64, w.toNat % 512 = cause % 512 ∧ ctxOf (takeTrap c cause addr info s) c =
      { framed addr info (ctxOf s c) with trapcause := w, fl := true, pc := ⟨(firOf s c).actor.trape, 1⟩ } := by
  refine ⟨_, (trapcause_fields cause 0 (firOf s c).lens.isSome (firOf s c).paired false).1, ?_⟩
  simp only [takeTrap, ctxOf_before_trap, firOf_before_trap, hsup, h, Bool.false_eq_true, ↓reduceIte, ctxOf_setCtx, framed,
    Nat.zero_mul, Nat.add_zero]

/-- Every other trap at user level goes to the supervisor vector of its core. -/
theorem ctxOf_takeTrap_vector
    (h : (toTrape cause && !(ctxOf s c).fl && (firOf s c).actor.trape != 0 && c % 8 != 7) = false)
    (htag : (coreOf s (coreNo c)).trapvec.tag = true) :
    ∃ w : W64, w.toNat % 512 = cause % 512 ∧ (w.getLsbD 9 = (ctxOf s c).fl ∨ 512 ≤ cause) ∧
      ctxOf (takeTrap c cause addr info s) c =
        { framed addr info (ctxOf s c) with
          trapcause := w, fl := true, sup := true, pc := ⟨CapF.addr (coreOf s (coreNo c)).trapvec / 64 * 64, 1⟩ } := by
  obtain ⟨hcause, hnested⟩ := trapcause_fields cause ((ctxOf s c).trapcause.toNat % 256) (firOf s c).lens.isSome
    (firOf s c).paired (ctxOf s c).fl
  refine ⟨_, hcause, hnested, ?_⟩
  simp only [takeTrap, ctxOf_before_trap, firOf_before_trap, trapvec_before_trap, hsup, h, htag, Bool.false_eq_true,
    ↓reduceIte, ctxOf_setCtx, framed]

end

end Sys2Proof.Machine

namespace Sys2Proof
open Machine

/-- Settles O13. -/
theorem trapsSaveTheirFrameAndEnterTheHandler : Obligations.TrapsSaveTheirFrameAndEnterTheHandler := by
  refine ⟨fun h s hi => ?_, fun s c cause addr info => ?_⟩
  · rw [exec_trap]
    exact runHead_trap hi (fun x => unbound_nil rfl) rfl
  intro x y f hsup
  refine ⟨fun hc hfl hte h7 => ?_, fun hside htag => ?_⟩
  · obtain ⟨w, hw, hy⟩ := ctxOf_takeTrap_trape (s := s) (c := c) (cause := cause) addr info hsup (by
      simp only [hc, show (ctxOf s c).fl = false from hfl]
      simpa using ⟨hte, h7⟩)
    have hy : y = _ := hy
    rw [hy]
    exact ⟨rfl, hsup, rfl, hw, rfl, rfl, rfl, rfl, rfl⟩
  · obtain ⟨w, hw, hnested, hy⟩ := ctxOf_takeTrap_vector (s := s) (c := c) (cause := cause) addr info hsup (by
      rcases hside with h | h | h | h
      · simp [h]
      · simp [show (ctxOf s c).fl = true from h]
      · simp [show (firOf s c).actor.trape = 0 from h]
      · simp [h]) htag
    have hy : y = _ := hy
    rw [hy]
    exact ⟨rfl, rfl, rfl, hw, hnested, rfl, rfl, rfl, rfl, rfl⟩

end Sys2Proof
end

section
set_option Elab.async false
/-! Translations, and the checks and the issue of loads and stores (R175, R291, R293, R299, R391 to R395). -/

namespace Sys2Proof.Machine

/-! ### Loops -/

/-- A loop of updates is one update. -/
theorem X.forM_upd {α : Type} (f : α → State → State) (ls : List α) (s : State) :
    (ls.forM fun l => upd (f l)) s = .ok () (ls.foldl (fun t l => f l t) s) := by
  induction ls generalizing s with
  | nil => rfl
  | cons l rest ih =>
    show ((upd (f l) >>= fun _ => rest.forM fun l => upd (f l)) : X PUnit) s = _
    rw [X.bind_ok (X.upd_apply (f l) s)]
    exact ih (f l s)
/-- A loop of checks that all pass leaves the state. -/
theorem X.forM_pass {α : Type} {f : α → X PUnit} {s : State} (ls : List α) (h : ∀ l ∈ ls, f l s = .ok () s) :
    ls.forM f s = .ok () s := by
  induction ls with
  | nil => rfl
  | cons l rest ih =>
    show ((f l >>= fun _ => rest.forM f) : X PUnit) s = _
    rw [X.bind_ok (h l (by simp))]
    exact ih fun k hk => h k (by simp [hk])

/-! ### Translation (R291, R293) -/

/-- The TLB entry that answers an access of the issuing context. -/
def tlbAnswer (s : State) (va : Nat) (kind : BitVec 8) : Option TlbEntry :=
  s.tr.tlb.find? fun e => tlbHit e (tlbUnit s.cur) (here s).asid.toNat va kind (!(here s).sup)

theorem translate_thread {s : State} (ht : isThread s.cur = true) (va : Nat) (kind : BitVec 8) :
    translate va kind s = .ok (normPa s (va % 2 ^ 56), 3 * 2 ^ 62) s := by
  simp [translate, X.bind_eq, ht]
theorem translate_hit {s : State} (ht : isThread s.cur = false) {va : Nat} {kind : BitVec 8} {e : TlbEntry}
    (he : tlbAnswer s va kind = some e) : translate va kind s = .ok (normPa s (e.pa + (va - e.va)), e.attr) s := by
  unfold tlbAnswer at he
  simp [translate, X.bind_eq, ht, he]
theorem translate_miss {s : State} (ht : isThread s.cur = false) (hg : (here s).granted = false) {va : Nat} {kind : BitVec 8}
    (he : tlbAnswer s va kind = none) :
    translate va kind s = .error (.wait (.walk (va / 4096)))
      (startWalk { unit := tlbUnit s.cur, asid := (here s).asid.toNat, page := va / 4096, kind := kind, user := !(here s).sup } s) := by
  unfold tlbAnswer at he
  simp [translate, X.bind_eq, ht, hg, he]

@[simp] theorem startWalk_ms (w : Walk) (s : State) : (startWalk w s).ms = s.ms := by unfold startWalk; split <;> rfl
@[simp] theorem startWalk_ctxs (w : Walk) (s : State) : (startWalk w s).ctxs = s.ctxs := by unfold startWalk; split <;> rfl
/-- Once a walk is asked for, one for its ASID, page and kind is in flight. -/
theorem startWalk_in_flight (w : Walk) (s : State) :
    ((startWalk w s).tr.walks.any fun x => x.asid == w.asid && x.page == w.page && x.kind == w.kind) = true := by
  unfold startWalk
  split
  · next h =>
    obtain ⟨x, hx, hw⟩ := List.any_eq_true.mp h
    simp only [Bool.and_eq_true] at hw
    exact List.any_eq_true.mpr ⟨x, hx, by simp [hw]⟩
  · simp

theorem tlbHit_facts {e : TlbEntry} {unit asid va : Nat} {kind : BitVec 8} {user : Bool} (h : tlbHit e unit asid va kind user = true) :
    e.va ≤ va ∧ va < e.va + e.size ∧ e.asid = asid ∧ leafAllows e.attr.toNat kind user = true := by
  simp only [tlbHit, Bool.and_eq_true, beq_iff_eq, decide_eq_true_eq] at h
  obtain ⟨⟨⟨⟨⟨-, hasid⟩, hlow⟩, hhigh⟩, hleaf⟩, -⟩ := h
  exact ⟨hlow, hhigh, hasid, hleaf⟩

/-! ### An access (R299) -/

/-- A span outside the register windows and control pages, or under SYS, passes the window rule (R208). -/
theorem windowCheck_ok {s : State} {c : Cap} {ea pa : Nat}
    (h : sysSpace s pa = true → isThread s.cur = true ∨ CapF.holds c CapF.SYS = true) : windowCheck c ea pa s = .ok () s := by
  have holds (hs : sysSpace s pa = true) : (isThread s.cur || CapF.holds c CapF.SYS) = true := by simpa using h hs
  unfold windowCheck
  rw [X.bind_ok (X.get_apply s)]
  cases hp : spaceOf s pa <;> first | rfl | exact X.ensure_of (holds (by simp [sysSpace, hp])) ..

theorem access_ok {s : State} {c : Cap} {ea n p align : Nat} {kind : BitVec 8} {write : Bool} {spans : List Span}
    (h : Accessible s c ea n p align kind write spans) : access c ea n p align kind write s = .ok spans s := by
  obtain ⟨hcheck, hspans, hwindow, hlock⟩ := h
  have hw := X.forM_pass (f := fun sp : Span => windowCheck c sp.va sp.pa) spans fun sp hsp => windowCheck_ok (hwindow sp hsp)
  unfold access
  rw [X.bind_ok (check_ok hcheck), X.bind_ok hspans, X.bind_ok hw, X.bind_ok (X.get_apply s),
    X.bind_ok (X.ensure_of (by simp [hlock]) ..)]
  rfl

/-! ### The store buffer (R175) -/

theorem storeEntries_length (s : State) (c : Nat) (tag : Bool) (spans : List Span) (x : Nat) :
    (storeEntries s c tag spans x).length = spans.length := by
  induction spans generalizing x with
  | nil => rfl
  | cons sp rest ih => simp [storeEntries, ih]

/-- Outside checked execution stores join the buffer at its end when there is room. -/
theorem pushStores_ok {s : State} {es : List SbEntry} (hp : (here s).fir.any (·.paired) = false) (hw : pushWaits s s.cur = false)
    (hroom : (coreOf s (coreNo s.cur)).sb.length + es.length ≤ 32) :
    pushStores es s = .ok () (modCore (coreNo s.cur) (fun c => { c with sb := c.sb ++ es }) s) := by
  simp [pushStores, X.bind_eq, hp, hw, Nat.not_lt.mpr hroom]

theorem issueStore_ok {s : State} {spans : List Span} {x : Nat} {tag : Bool} (ht : isThread s.cur = false)
    (hp : (here s).fir.any (·.paired) = false) (hw : pushWaits s s.cur = false)
    (hroom : (coreOf s (coreNo s.cur)).sb.length + spans.length ≤ 32) :
    issueStore spans x tag s =
      .ok () (modCore (coreNo s.cur) (fun c => { c with sb := c.sb ++ storeEntries s s.cur tag spans x }) s) := by
  unfold issueStore
  rw [X.bind_ok (X.get_apply s), ht]
  exact pushStores_ok hp hw (by rw [storeEntries_length]; exact hroom)

theorem forward_none {s : State} {c pa n : Nat} (h : ∀ e ∈ bufferOf s c, overlaps pa n e.pa e.n = false) :
    forward s c pa n = .none := by
  have : (bufferOf s c).reverse.find? (fun e => overlaps pa n e.pa e.n) = none := by
    rw [List.find?_eq_none]
    intro e he
    simp [h e (List.mem_reverse.mp he)]
  simp [forward, this]
/-- The youngest store that covers a read gives it its bytes and its tag. -/
theorem forward_hit {s : State} {c pa n : Nat} {e : SbEntry} (hlast : (bufferOf s c).getLast? = some e) (hlow : e.pa ≤ pa)
    (hhigh : pa + n ≤ e.pa + e.n) (hn : 0 < n) :
    forward s c pa n = .hit (e.data / 2 ^ (8 * (pa - e.pa)) % 2 ^ (8 * n)) e.tag := by
  have hover : overlaps pa n e.pa e.n = true := by
    simp only [overlaps, Bool.and_eq_true, decide_eq_true_eq]; omega
  have hrev : (bufferOf s c).reverse.find? (fun e => overlaps pa n e.pa e.n) = some e := by
    rw [← List.head?_reverse] at hlast
    obtain ⟨rest, hrest⟩ := List.head?_eq_some_iff.mp hlast
    rw [hrest, List.find?_cons, hover]
  simp [forward, hrev, hlow, hhigh]

section
variable {s : State} {sp : Span} (ht : isThread s.cur = false)
  (hsau : ownSau s s.cur (replicaPa sp.attr (dieOfCore (coreNo s.cur)) sp.pa) sp.n = false)
include ht hsau

theorem loadPiece_later
    (hf : forward s s.cur (replicaPa sp.attr (dieOfCore (coreNo s.cur)) sp.pa) sp.n = .none)
    (hr : remoteDirect s sp.attr (replicaPa sp.attr (dieOfCore (coreNo s.cur)) sp.pa) = none) :
    loadPiece sp s = .ok
      { pa := replicaPa sp.attr (dieOfCore (coreNo s.cur)) sp.pa
        n := sp.n
        viaL1 := cacheable s sp.attr (replicaPa sp.attr (dieOfCore (coreNo s.cur)) sp.pa) } s := by
  simp [loadPiece, X.bind_eq, ht, hsau, hf, hr]

theorem loadPiece_forwarded {x : Nat} {tag : Bool}
    (hf : forward s s.cur (replicaPa sp.attr (dieOfCore (coreNo s.cur)) sp.pa) sp.n = .hit x tag) :
    loadPiece sp s = .ok { pa := replicaPa sp.attr (dieOfCore (coreNo s.cur)) sp.pa, n := sp.n, known := some x, knownTag := tag }
      (markSeen s.cur (fun e => overlaps (replicaPa sp.attr (dieOfCore (coreNo s.cur)) sp.pa) sp.n e.pa e.n) s) := by
  simp [loadPiece, X.bind_eq, X.map_eq, ht, hsau, hf]

end

/-- A load of pieces: one more outstanding result, and the reads that other devices answer. -/
theorem issuePieces_ok (dst : Dst) (ps : List Piece) (fin : Fin_) (lat : Nat) (s : State) :
    issuePieces dst ps fin lat s = .ok () (sendReads (here s).nextPend ps (withPend dst ps fin lat s)) := rfl
theorem issueLoad_ok {s t : State} {spans : List Span} {ps : List Piece} (h : loadPieces spans s = .ok ps t) (dst : Dst) (fin : Fin_) :
    issueLoad dst spans fin s = .ok () (sendReads (here t).nextPend ps (withPend dst ps fin 0 t)) := by
  unfold issueLoad
  rw [X.bind_ok h, issuePieces_ok]

end Sys2Proof.Machine

namespace Sys2Proof
open Machine

/-- Settles O15. -/
theorem accessesPassTheirChecksInOrder : Obligations.AccessesPassTheirChecksInOrder :=
  ⟨fun _ _ _ _ _ _ _ _ _ h => access_ok h, fun _ _ _ _ ht hp hw hroom => issueStore_ok ht hp hw hroom,
    fun _ _ ht hsau hbuf hr => loadPiece_later ht hsau (forward_none hbuf) hr,
    fun _ _ _ ht hsau hlast hlow hhigh hn => loadPiece_forwarded ht hsau (forward_hit hlast hlow hhigh hn)⟩

/-- Settles O16. -/
theorem translationsComeFromTheTlbOrAWalk : Obligations.TranslationsComeFromTheTlbOrAWalk := by
  refine ⟨fun s va kind e ht he => translate_hit ht he, fun s va kind ht => translate_thread ht va kind,
    fun s va kind ht hg hnone => ?_, fun e unit asid va kind user h => tlbHit_facts h⟩
  have miss : tlbAnswer s va kind = none := List.find?_eq_none.mpr fun e he => by simp [hnone e he]
  exact ⟨_, translate_miss ht hg miss, startWalk_ms .., startWalk_ctxs .., startWalk_in_flight ..⟩

/-- Settles O17. -/
theorem loadsIssueTheirReads : Obligations.LoadsIssueTheirReads := by
  intro h s spans
  refine ⟨fun ps t hi ha hp => ?_, fun ps t hi ha hp => ?_, fun ps t hi ha hp => ?_⟩
  · rw [exec_ld]
    refine runHead_ok hi (Row.Scalar.unbound (by decide) h) ?_
    rw [X.bind_ok (X.get_apply s), X.bind_ok (access_ok ha), X.bind_ok (issueLoad_ok hp ..)]
    rfl
  · rw [exec_ldc]
    refine runHead_ok hi (Row.Scalar.unbound (by decide) h) ?_
    rw [X.bind_ok (X.get_apply s), X.bind_ok (access_ok ha), X.bind_ok (issueLoad_ok hp ..)]
    rfl
  · rw [exec_ldaq]
    refine runHead_ok hi (Row.Scalar.unbound (by decide) h) ?_
    rw [X.bind_ok (X.get_apply s), X.bind_ok (access_ok ha), X.bind_ok hp, X.bind_ok (issuePieces_ok ..), X.bind_ok (X.upd_apply ..)]
    rfl

/-- Settles O18. -/
theorem storesEnterTheStoreBuffer : Obligations.StoresEnterTheStoreBuffer := by
  intro h s
  refine ⟨fun spans t hi ha hs => ?_, fun pa attr t hi => ?_, fun spans t hi ha hr hs => ?_⟩
  · rw [exec_st]
    refine runHead_ok hi (Row.Scalar.unbound_srcD (by decide) h) ?_
    rw [X.bind_ok (X.get_apply s), X.bind_ok (access_ok ha), X.bind_ok hs]
    rfl
  · intro c x ea hc hstc htr hck hlock hs
    rw [exec_stc]
    refine runHead_ok hi (Row.Scalar.unbound_srcD (by decide) h) ?_
    have hperm : (!x.tag || isThread s.cur || CapF.holds c CapF.STC) = true := by
      rcases hstc with h | h | h <;> simp [h]
    rw [X.bind_ok (X.get_apply s), X.bind_ok (check_ok hc), X.bind_ok (X.ensure_of hperm ..), X.bind_ok htr]
    dsimp only
    have hfree : (!lockHit s ea 16 true) = true := by simp [hlock]
    rw [X.bind_ok hck, X.bind_ok (X.get_apply s), X.bind_ok (X.ensure_of hfree ..), X.bind_ok hs]
    rfl
  · rw [exec_strl]
    refine runHead_ok hi (Row.Scalar.unbound_srcD (by decide) h) ?_
    rw [X.bind_ok (X.get_apply s), X.bind_ok (access_ok ha), X.bind_ok (release_ok hr), X.bind_ok hs]
    rfl

end Sys2Proof
end

section
set_option Elab.async false
/-! Fences, restartable moves, pinning and cache control (R266 to R269, R396 to R400). -/

namespace Sys2Proof.Machine

/-! ### Fences (R269, R396) -/

@[simp] theorem markSeen_cur (c : Nat) (p : SbEntry → Bool) (s : State) : (markSeen c p s).cur = s.cur := rfl
@[simp] theorem l1Acquire_cur (k : Nat) (s : State) : (l1Acquire k s).cur = s.cur := rfl
@[simp] theorem acquire_cur (scope : Nat) (s : State) : (acquire scope s).cur = s.cur := by
  unfold acquire
  split
  · rfl
  · split
    · rfl
    · exact l1Acquire_cur ..
@[simp] theorem launchFence_cur (c : Nat) (s : State) : (launchFence c s).cur = s.cur := by
  unfold launchFence
  dsimp only
  split <;> split <;> rfl

/-- The store buffer does not order the context's earlier stores before its later ones at this scope (R266, R269). -/
def StrongFence (s : State) (scope : Nat) : Prop :=
  isThread s.cur = false ∧ (4 ≤ scope ∨ (scope = 3 ∧ replicaWork s s.cur = true) ∨ unordered s s.cur = true)
/-- The mark that a fence leaves in the store buffer's order. -/
def fenceMark (scope : Nat) (s : State) : State :=
  if isThread s.cur ∨ scope = 0 then s else modHere (fun x => { x with ep := x.ep + 1 }) s

theorem storeFence_mark {s : State} {scope : Nat} (hp : (here s).pend = []) (hs : ¬ StrongFence s scope) :
    storeFence scope s = .ok () (fenceMark scope s) := by
  unfold storeFence fenceMark
  rw [X.bind_ok (awaitResults_ok hp), X.bind_ok (X.get_apply s)]
  cases ht : isThread s.cur with
  | true => rfl
  | false =>
    have weak : (4 ≤ scope || (scope == 3 && replicaWork s s.cur) || unordered s s.cur) = false := by
      rw [Bool.eq_false_iff]
      exact fun h => hs ⟨ht, by simpa [or_assoc] using h⟩
    simp only [weak, Bool.false_eq_true, ↓reduceIte, false_or]
    by_cases h0 : scope = 0
    · subst h0; rfl
    · simp [h0]
theorem storeFence_release {s : State} {scope : Nat} (hp : (here s).pend = []) (hs : StrongFence s scope)
    (hr : releaseReady (releaseBegin scope s) (releaseBegin scope s).cur scope = true) :
    storeFence scope s = .ok () (releaseBegin scope s) := by
  obtain ⟨ht, hwhy⟩ := hs
  have strong : (4 ≤ scope || (scope == 3 && replicaWork s s.cur) || unordered s s.cur) = true := by
    simpa [or_assoc] using hwhy
  unfold storeFence
  rw [X.bind_ok (awaitResults_ok hp), X.bind_ok (X.get_apply s)]
  simp only [ht, strong, Bool.false_eq_true, ↓reduceIte]
  exact release_ok hr

theorem fenceRel_of {h : Head} {s t : State} (hi : Issues s Rows.fenceRel {}) (hf : storeFence h.d.toNat s = .ok () t) :
    exec (.fenceRel h) s = .next (advance h {} .seq (launchFence t.cur t)) := by
  rw [exec_fenceRel]
  refine runHead_ok hi (fun x => unbound_nil rfl) ?_
  rw [X.bind_ok hf]
  rfl
theorem fenceAr_of {h : Head} {s t : State} (hi : Issues s Rows.fenceAr {}) (hf : storeFence h.d.toNat s = .ok () t) :
    exec (.fenceAr h) s =
      .next (advance h {} .seq (launchFence (acquire h.d.toNat t).cur (acquire h.d.toNat t))) := by
  rw [exec_fenceAr, acquire_cur]
  refine runHead_ok hi (fun x => unbound_nil rfl) ?_
  rw [X.bind_ok hf]
  rfl
theorem fenceFull_of {h : Head} {s : State} (hi : Issues s Rows.fenceFull {}) (hp : (here s).pend = []) (hc : ownCopies s = false)
    (hr : releaseReady (releaseBegin h.d.toNat s) (releaseBegin h.d.toNat s).cur h.d.toNat = true) :
    let full := acquire h.d.toNat (releaseBegin h.d.toNat s)
    let seen := launchFence full.cur full
    exec (.fenceFull h) s =
      .next (advance h {} .seq (if 3 ≤ h.d.toNat ∧ isThread full.cur = false then dropL1i (coreNo full.cur) seen else seen)) := by
  intro full seen
  rw [exec_fenceFull]
  refine runHead_ok hi (fun x => unbound_nil rfl) ?_
  rw [X.bind_ok (awaitResults_ok hp), X.bind_ok (X.get_apply s), hc]
  simp only [Bool.false_eq_true, ↓reduceIte]
  rw [X.bind_ok (release_ok hr), X.bind_ok (X.upd_apply ..), X.bind_ok (X.get_apply _)]
  have hcur : (launchFence (releaseBegin h.d.toNat s).cur (acquire h.d.toNat (releaseBegin h.d.toNat s))).cur = full.cur := by
    simp [full]
  rw [hcur]
  by_cases h3 : 3 ≤ h.d.toNat ∧ isThread full.cur = false
  · rw [if_pos h3, if_pos (by simpa using h3)]
    simp only [acquire_cur, seen, full]
    rfl
  · rw [if_neg h3, if_neg (by simpa using h3)]
    simp only [acquire_cur, seen, full]
    rfl

/-! ### MOVB and FILL (R397) -/

/-- The bytes that one step of a move stores: up to the end of the destination's line. -/
def moveBytes (s : State) (h : Head) : Nat := Nat.min (gB s h).val.toNat (64 - baseAddr s (gD s h) % 64)
/-- The registers after a step of FILL; MOVB also moves gA. -/
def moveCount (s : State) (h : Head) (t : State) : State :=
  modHere (fun x => writeG x h.b.toNat (Cap.ofInt (BitVec.ofNat 64 ((gB s h).val.toNat - moveBytes s h)))) t
/-- A move with bytes left goes on at the same head. -/
def moveNext (s : State) (h : Head) : Next := if (gB s h).val.toNat = moveBytes s h then .seq else .again

theorem moveNext_ne_gone (s : State) (h : Head) : moveNext s h ≠ .gone := by unfold moveNext; split <;> exact Next.noConfusion

theorem moveStep_none {h : Head} {s : State} (hn : (gB s h).val.toNat = 0) (copy : Bool) : moveStep h copy s = .ok .seq s := by
  unfold moveStep
  rw [X.bind_ok (X.get_apply s)]
  simp only [hn, beq_self_eq_true, ↓reduceIte, X.pure_apply]

section
variable {h : Head} {s : State} {dst : List Span} (hn : (gB s h).val.toNat ≠ 0)
  (hcd : CheckPasses s (gD s h) (baseAddr s (gD s h)) (moveBytes s h) CapF.ST 1)
  (hdst : spansOf kWrite (lineParts (baseAddr s (gD s h)) 2 (moveBytes s h)) s = .ok dst s)
  (hwd : ∀ sp ∈ dst, sysSpace s sp.pa = true → isThread s.cur = true ∨ CapF.holds (gD s h) CapF.SYS = true)
  (hld : lockHit s (baseAddr s (gD s h)) (moveBytes s h) true = false)
include hn hcd hdst hwd hld

theorem moveStep_fill {t : State} (hs : issueStore dst (fillBytes (gA s h).val (baseAddr s (gD s h)) (moveBytes s h)) false s = .ok () t) :
    moveStep h false s = .ok (moveNext s h) (moveCount s h (withG h (stepPtr s (gD s h) (moveBytes s h)) t)) := by
  have hw := X.forM_pass (f := fun sp : Span => windowCheck (gD s h) sp.va sp.pa) dst fun sp hsp => windowCheck_ok (hwd sp hsp)
  have hk : Nat.min (gB s h).val.toNat (64 - baseAddr s (gD s h) % 64) = moveBytes s h := rfl
  unfold moveStep
  rw [X.bind_ok (X.get_apply s)]
  simp only [beq_iff_eq, hn, Bool.false_eq_true, ↓reduceIte, hk]
  rw [X.bind_ok (check_ok hcd), X.bind_ok (X.pure_apply [] s), X.bind_ok hdst, X.bind_ok (X.forM_pass [] (by simp)), X.bind_ok hw,
    X.bind_ok (X.get_apply s), X.bind_ok (X.ensure_of (by simp [hld]) ..), X.bind_ok (X.ensure_of (by simp) ..),
    X.bind_ok (X.pure_apply _ s), X.bind_ok (X.pure_apply _ s), X.bind_ok hs, X.bind_ok (X.setG_apply ..), X.bind_ok (X.setInt_apply ..)]
  rfl

theorem moveStep_copy {src : List Span} {x y : Nat} {t u w : State}
    (hca : CheckPasses s (gA s h) (baseAddr s (gA s h)) (moveBytes s h) CapF.LD 1)
    (hsrc : spansOf kRead (lineParts (baseAddr s (gA s h)) 3 (moveBytes s h)) s = .ok src s)
    (hws : ∀ sp ∈ src, sysSpace s sp.pa = true → isThread s.cur = true ∨ CapF.holds (gA s h) CapF.SYS = true)
    (hla : lockHit s (baseAddr s (gA s h)) (moveBytes s h) false = false) (hread : readSpans src s = .ok x t)
    (hover : moveOverlap (baseAddr s (gA s h)) (baseAddr s (gD s h)) (gB s h).val.toNat (moveBytes s h) x t = .ok y u)
    (hs : issueStore dst y false u = .ok () w) :
    moveStep h true s = .ok (moveNext s h) (moveCount s h
      (modHere (fun x => writeG x h.a.toNat (stepPtr s (gA s h) (moveBytes s h))) (withG h (stepPtr s (gD s h) (moveBytes s h)) w))) := by
  have hwa := X.forM_pass (f := fun sp : Span => windowCheck (gA s h) sp.va sp.pa) src fun sp hsp => windowCheck_ok (hws sp hsp)
  have hw := X.forM_pass (f := fun sp : Span => windowCheck (gD s h) sp.va sp.pa) dst fun sp hsp => windowCheck_ok (hwd sp hsp)
  have hk : Nat.min (gB s h).val.toNat (64 - baseAddr s (gD s h) % 64) = moveBytes s h := rfl
  unfold moveStep
  rw [X.bind_ok (X.get_apply s)]
  simp only [beq_iff_eq, hn, ↓reduceIte, hk]
  rw [X.bind_ok (check_ok hcd), X.bind_ok (check_ok hca), X.bind_ok hsrc, X.bind_ok hdst, X.bind_ok hwa, X.bind_ok hw,
    X.bind_ok (X.get_apply s), X.bind_ok (X.ensure_of (by simp [hld]) ..), X.bind_ok (X.ensure_of (by simp [hla]) ..),
    X.bind_ok hread, X.bind_ok hover, X.bind_ok hs, X.bind_ok (X.setG_apply ..), X.bind_ok (X.setG_apply ..),
    X.bind_ok (X.setInt_apply ..)]
  rfl

end

/-! ### IPIN and CACHE (R399, R400) -/

theorem softHead_ok {r : Row} (hr : r.Scalar) {h : Head} {s : State} (hi : Issues s r (Use.ofRow r h)) (kind : BitVec 8)
    (f : Nat → W64 → State → State) :
    softHead r h kind f s =
      .next (advance h (Use.ofRow r h) .seq (softLines (baseAddr s (gA s h)) (h.im 15 0) kind f s)) :=
  runHead_ok hi (hr.unbound h) rfl

end Sys2Proof.Machine

namespace Sys2Proof
open Machine

/-- Settles O19. -/
theorem fencesOrderAccesses : Obligations.FencesOrderAccesses := by
  intro h s hp scope strong seen mark begun full
  refine ⟨fun hi => ?_, fun hi hs => ?_, fun hi hs => ?_, fun hr => ⟨fun hi hs => ?_, fun hi hs => ?_, fun hi hc => ?_⟩⟩
  · rw [exec_fenceAcq]
    refine runHead_ok hi (fun x => unbound_nil rfl) ?_
    rw [X.bind_ok (awaitResults_ok hp)]
    simp only [seen, acquire_cur]
    rfl
  · exact fenceRel_of hi (storeFence_mark hp hs)
  · exact fenceAr_of hi (storeFence_mark hp hs)
  · exact fenceRel_of hi (storeFence_release hp hs hr)
  · exact fenceAr_of hi (storeFence_release hp hs hr)
  · exact fenceFull_of hi hp hc hr

/-- Settles O20. -/
theorem movesStoreOneLineAtATime : Obligations.MovesStoreOneLineAtATime := by
  intro h s n d a da k next count
  have free : ∀ x, Unbound x (Use.moving h) := fun x => unbound_nil rfl
  refine ⟨fun hn => ⟨fun hi => ?_, fun hi => ?_⟩, fun dst t hn hcd hdst hwd hld hs hi => ?_,
    fun src dst x y t u w hn hcd hca hsrc hdst hws hwd hld hla hread hover hs hi => ?_⟩
  · exact runHead_ok hi free (moveStep_none hn true)
  · exact runHead_ok hi free (moveStep_none hn false)
  · exact runHead_ok hi free (moveStep_fill hn hcd hdst hwd hld hs) (moveNext_ne_gone s h)
  · exact runHead_ok hi free (moveStep_copy hn hcd hdst hwd hld hca hsrc hws hla hread hover hs) (moveNext_ne_gone s h)

/-- Settles O21. -/
theorem pinAndCacheHeadsActOnTheirLines : Obligations.PinAndCacheHeadsActOnTheirLines := by
  intro h s a n soft
  refine ⟨fun ls t hi hc hl => ?_, fun ls t hi hc hl => ?_, fun ls t hi hc hl hsb => ?_, fun hi => ?_, fun hi => ?_, fun hi => ?_,
    fun hi => ?_, fun hi => ?_, fun hi => ?_⟩
  · rw [exec_ipinL1i]
    refine runHead_ok hi (Row.Scalar.unbound (by decide) h) ?_
    rw [X.bind_ok (X.get_apply s), X.bind_ok (check_ok hc), X.bind_ok hl]
    cases ht : isThread s.cur with
    | true => rfl
    | false => 
      simp only [Bool.not_false, ↓reduceIte]
      rw [X.bind_ok (X.forM_upd ..)]
      rfl
  · rw [exec_ipinL2]
    refine runHead_ok hi (Row.Scalar.unbound (by decide) h) ?_
    rw [X.bind_ok (X.get_apply s), X.bind_ok (check_ok hc), X.bind_ok hl, X.bind_ok (X.forM_upd ..)]
    rfl
  · rw [exec_cacheWb]
    refine runHead_ok hi (Row.Scalar.unbound (by decide) h) ?_
    rw [X.bind_ok (X.get_apply s), X.bind_ok (check_ok hc), X.bind_ok hl]
    have hfree : (!isThread s.cur &&  ls.any fun l => (coreOf s (coreNo s.cur)).sb.any fun e =>
        e.cid == s.cur && overlaps l.1 64 e.pa e.n) = false := by
      rcases hsb with ht | hno
      · simp [ht]
      · simpa using fun _ p l hl e he hcid => hno (p, l) hl e he hcid
    rw [hfree]
    simp only [Bool.false_eq_true, ↓reduceIte]
    rw [X.bind_ok (X.forM_upd ..)]
    rfl
  all_goals exact softHead_ok (by decide) hi _ _

end Sys2Proof
end

section
set_option Elab.async false
/-! What writes and records leave alone: the context whose turn it is. -/

namespace Sys2Proof.Machine

/-- A fold keeps what each of its steps keeps. -/
theorem foldl_keeps {α β : Type} {g : State → β} {f : State → α → State} (h : ∀ s x, g (f s x) = g s) (l : List α) (s : State) :
    g (l.foldl f s) = g s := by
  induction l generalizing s with
  | nil => rfl
  | cons x l ih => rw [List.foldl_cons, ih, h]

@[simp] theorem bbWrite_cur (d unit num event : Nat) (data : List W64) (s : State) : (bbWrite d unit num event data s).cur = s.cur := rfl
@[simp] theorem vecSend_cur (f v : Nat) (s : State) : (vecSend f v s).cur = s.cur := by
  unfold vecSend; dsimp only; split <;> rfl
@[simp] theorem vecEvent_cur (f v : Nat) (s : State) : (vecEvent f v s).cur = s.cur := by
  unfold vecEvent; dsimp only; split
  · rw [vecSend_cur]; rfl
  · rfl
@[simp] theorem supRecord_cur (r : SupRec) (s : State) : (supRecord r s).cur = s.cur := by
  unfold supRecord; rw [vecEvent_cur]; split
  · rw [modRegs_cur, poke_cur]
  · rw [modRegs_cur, bbWrite_cur]
@[simp] theorem postedFail_cur (c pa status : Nat) (s : State) : (postedFail c pa status s).cur = s.cur := by
  simp [postedFail]
@[simp] theorem modBoth_cur (c : Nat) (f : Ctx → Ctx) (s : State) : (modBoth c f s).cur = s.cur := by
  unfold modBoth; split <;> rfl
@[simp] theorem winPut_cur (core off n x : Nat) (tag : Bool) (writer : Nat) (s : State) :
    (winPut core off n x tag writer s).cur = s.cur := by
  unfold winPut; dsimp only; split <;> split <;> simp
@[simp] theorem winWrite_cur (core off n x : Nat) (tag : Bool) (writer : Nat) (s : State) :
    (winWrite core off n x tag writer s).cur = s.cur :=
  foldl_keeps (g := State.cur) (fun _ _ => winPut_cur ..) ..
@[simp] theorem engineWalk_cur (s : State) (asid va : Nat) (kind : BitVec 8) (user : Bool) :
    (engineWalk s asid va kind user).2.cur = s.cur := by
  unfold engineWalk; split <;> rfl
@[simp] theorem readActor_cur (s : State) (asid f va : Nat) : (readActor s asid f va).2.cur = s.cur := by
  have hw := engineWalk_cur s asid va (kRead ||| kEngine) true
  unfold readActor
  split
  · rfl
  · split
    · next e => rw [e] at hw; exact hw
    · next e => rw [e] at hw; split <;> exact hw
@[simp] theorem bindWritten_cur (core e : Nat) (v : BitVec 128) (owner : Nat × Nat) (s : State) :
    (bindWritten core e v owner s).cur = s.cur := by
  unfold bindWritten; dsimp only; rw [modCore_cur]; split
  · exact readActor_cur ..
  · rfl
@[simp] theorem ctlWrite_cur (core off n x : Nat) (owner : Nat × Nat) (s : State) : (ctlWrite core off n x owner s).cur = s.cur := by
  unfold ctlWrite; dsimp only; split
  · rfl
  · split
    · exact bindWritten_cur ..
    · split
      · exact foldl_keeps (g := State.cur) (by intros; rfl) ..
      · rfl
@[simp] theorem countEcc_cur (s : State) (w : Nat) : (countEcc s w).cur = s.cur := by
  unfold countEcc; dsimp only; split <;> rfl
@[simp] theorem correct_cur (pa n : Nat) (s : State) : (correct pa n s).cur = s.cur := by
  unfold correct; split
  · rfl
  · exact foldl_keeps (g := State.cur) countEcc_cur ..
@[simp] theorem poisonWord_cur (pa n x : Nat) (s : State) (w : Nat) : (poisonWord pa n x s w).cur = s.cur := by
  unfold poisonWord; split
  · rfl
  · split
    · exact correct_cur ..
    · split <;> rfl
@[simp] theorem poisonWrite_cur (pa n x : Nat) (s : State) : (poisonWrite pa n x s).cur = s.cur := by
  unfold poisonWrite; split
  · rfl
  · exact foldl_keeps (g := State.cur) (poisonWord_cur pa n x) ..
@[simp] theorem clearTags_cur (pa n : Nat) (s : State) : (clearTags pa n s).cur = s.cur := by
  unfold clearTags; exact foldl_keeps (g := State.cur) (by intros; rfl) ..
@[simp] theorem setTag_cur (pa : Nat) (t : Bool) (s : State) : (setTag pa t s).cur = s.cur := rfl
@[simp] theorem dropOwned_cur (unit blk : Nat) (s : State) : (dropOwned unit blk s).cur = s.cur := by
  unfold dropOwned; split <;> rfl
@[simp] theorem takeOwner_cur (pa : Nat) (unit : Option Nat) (s : State) : (takeOwner pa unit s).cur = s.cur := by
  unfold takeOwner; split
  · split <;> simp
  · rfl
@[simp] theorem memWrite_cur (pa n x : Nat) (tag : Bool) (owner : Option Nat) (s : State) :
    (memWrite pa n x tag owner s).cur = s.cur := by
  cases tag <;> unfold memWrite <;> dsimp only <;> split <;> (try split) <;> simp
@[simp] theorem notePushed_cur (c pa : Nat) (s : State) : (notePushed c pa s).cur = s.cur := by
  unfold notePushed; split <;> rfl
@[simp] theorem homeWrite_cur (pa n x : Nat) (tag : Bool) (owner : Option Nat) (writer : Nat) (s : State) :
    (homeWrite pa n x tag owner writer s).cur = s.cur := by
  unfold homeWrite; split <;> simp

end Sys2Proof.Machine
end

section
set_option Elab.async false
/-! Atomics and reductions (R401 to R405). -/

namespace Sys2Proof.Machine

theorem X.bind_congr {α β : Type} {x : X α} {f g : α → X β} {s : State} (h : ∀ a, f a = g a) : (x >>= f) s = (x >>= g) s := by
  rw [show f = g from funext h]

/-! ### Where the order of an atomic begins -/

/-- The release side of an atomic's order: begun when ORD asks for it. -/
def amoBegun (h : Head) (s : State) : State := if amoRel h then releaseBegin (amoScope h) s else s
/-- The acquire side. -/
def amoAcquired (h : Head) (t : State) : State := if amoAcq h then acquire (amoScope h) t else t

/-- The conditions under which the release side of an atomic is performed. -/
def AmoReleases (h : Head) (s : State) : Prop :=
  amoRel h = true → releaseReady (amoBegun h s) (amoBegun h s).cur (amoScope h) = true

theorem amoRelease_then {α : Type} {h : Head} {s : State} (hr : AmoReleases h s) (x : X α) :
    (if amoRel h then release (amoScope h) >>= fun _ => x else x : X α) s = x (amoBegun h s) := by
  unfold AmoReleases at hr
  cases hrel : amoRel h with
  | false => simp [amoBegun, hrel]
  | true =>
    have hb : amoBegun h s = releaseBegin (amoScope h) s := by simp [amoBegun, hrel]
    simp only [hrel, hb, ↓reduceIte, forall_const] at hr ⊢
    exact X.bind_ok (release_ok hr)

/-! ### An atomic at its place -/

/-- No earlier access of the context stands before an atomic at these bytes. -/
def AtomicFree (s : State) (pa n : Nat) : Prop :=
  atomicReady pa n s = .ok () s ∧ (isThread s.cur = true ∨ ownSau s s.cur pa n = false)

theorem AtomicFree.sau {s : State} {pa n : Nat} (h : AtomicFree s pa n) : (!isThread s.cur && ownSau s s.cur pa n) = false := by
  rcases h.2 with h | h <;> simp [h]

section
variable {a : Rmw} {attr : W64} {pa id : Nat} {s t : State}

theorem performAt_l1 (late : Bool) : performAt a attr (.l1 pa) id late s = (some <$> rmwL1 a attr pa late) s := rfl
theorem performAt_home (hf : AtomicFree s pa a.w) : performAt a attr (.home pa) id false s = (some <$> rmwHome a attr pa) s := by
  simp only [performAt, X.bind_eq, hf.1, hf.sau, X.get_apply, Bool.not_false, Bool.false_eq_true, ↓reduceIte, X.map_eq]
  rfl
theorem performAt_sau (hf : atomicReady pa a.w s = .ok () s) :
    performAt a attr (.sau pa) id false s = (some <$> rmwSau a attr pa id) s := by
  simp [performAt, X.bind_eq, hf]
theorem performAt_fau (hf : AtomicFree s pa a.w) : performAt a attr (.fau pa) id false s = rmwFau a pa id s := by
  simp only [performAt, X.bind_eq, hf.1, hf.sau, X.get_apply, Bool.not_false, Bool.false_eq_true, ↓reduceIte]

theorem map_some_ok {x : X Old} {o : Old} (h : x s = .ok o t) : (some <$> x) s = .ok (some o) t := by rw [X.map_eq, h]
theorem map_some_error {x : X Old} {e : Stop} (h : x s = .error e t) : (some <$> x) s = .error e t := by rw [X.map_eq, h]

variable {red : Bool} {dst : Dst} {p : Place} {m : X (Option Old)}

theorem heldOn_ok {o : Option Old} (h : m s = .ok o t) : heldOn a red attr dst p m s = .ok (some o) t := by
  simp [heldOn, h]
theorem heldOn_held (h : m s = .error (.wait .tag) t) :
    heldOn a red attr dst p m s =
      .ok none (withPend dst [{ pa := rmwPa p, n := a.w, remote := true }] (.rmw a red attr p) 0 t) := by
  simp [heldOn, h]

end

/-! ### AMO and ACAS (R403, R404) -/

/-- The body takes its operation's address from gA. -/
theorem atomicBody_va (h : Head) (a : Rmw) (va : Nat) (s : State) : atomicBody h { a with va := va } s = atomicBody h a s := rfl
/-- The end of an atomic: its acquire, after which it parks when the result comes later. -/
def amoEnd (h : Head) (late : Bool) : X Next := do
  if amoAcq h then
    upd (acquire (amoScope h))
    pure (if late then .park else .seq)
  else pure .seq
/-- What an atomic leaves outstanding for gD at a place of this device. -/
def amoGive (h : Head) (a : Rmw) (pa : Nat) (p : Place) : Option (Option Old) → X Next
  | none => amoEnd h true
  | some none => do
    addPend (dstG h.d) [{ pa := pa, n := a.w, remote := true }] (.int a.w true) 0
    amoEnd h true
  | some (some o) => do
    giveOld (dstG h.d) a.w o
    amoEnd h (p == .sau (rmwPa p))

theorem amoEnd_ok (h : Head) (late : Bool) (s : State) :
    amoEnd h late s = .ok (if amoAcq h && late then .park else .seq) (amoAcquired h s) := by
  cases ha : amoAcq h <;> simp [amoEnd, amoAcquired, X.map_eq, ha]

section
variable {h : Head} {a : Rmw} {s : State} {pa : Nat} {attr : W64}
  (hva : a.va = baseAddr s (gA s h)) (hc : CheckPasses s (gA s h) (baseAddr s (gA s h)) a.w (CapF.LD + CapF.ST) a.w)
  (ha : atomicAddr (baseAddr s (gA s h)) a.w (kRead ||| kWrite) s = .ok (pa, attr) s) (hr : AmoReleases h s)
include hva hc ha hr

theorem atomicBody_placed {p : Place} (hp : placeOf (amoBegun h s) attr pa (amoScope h) = p) (hn : ∀ d off, p ≠ .packet d off) :
    atomicBody h a s = (heldOn a false attr (dstG h.d) p
      (performAt a attr p (here (amoBegun h s)).nextPend false) >>=
        amoGive h a pa p) (amoBegun h s) := by
  have hself : { a with va := baseAddr s (gA s h) } = a := by rw [← hva]
  unfold atomicBody
  rw [X.bind_ok (X.get_apply s), X.bind_ok (check_ok hc), X.bind_ok ha]
  dsimp only
  rw [hself]
  rw [amoRelease_then hr, X.bind_ok (X.get_apply _), hp]
  cases p with
  | packet d off => exact absurd rfl (hn d off)
  | l1 p => exact X.bind_congr fun o => by rcases o with _ | _ | o <;> rfl
  | sau p => exact X.bind_congr fun o => by rcases o with _ | _ | o <;> rfl
  | home p => exact X.bind_congr fun o => by rcases o with _ | _ | o <;> rfl
  | fau p => exact X.bind_congr fun o => by rcases o with _ | _ | o <;> rfl


theorem atomicBody_packet {d off : Nat} (hp : placeOf (amoBegun h s) attr pa (amoScope h) = .packet d off)
    (hroute : routable (amoBegun h s) d = true) (hfence : fencedBefore (amoBegun h s) (amoBegun h s).cur = false) :
    atomicBody h a s = .ok (if amoAcq h then .park else .seq) (amoAcquired h
      (rmwPacket a d off (amoScope h) (here (amoBegun h s)).nextPend
        (withPend (dstG h.d) [{ pa := pa, n := a.w, remote := true }] (.int a.w true) 0 (amoBegun h s)))) := by
  have hself : { a with va := baseAddr s (gA s h) } = a := by rw [← hva]
  unfold atomicBody
  rw [X.bind_ok (X.get_apply s), X.bind_ok (check_ok hc), X.bind_ok ha]
  dsimp only
  rw [hself]
  rw [amoRelease_then hr, X.bind_ok (X.get_apply _), hp]
  simp only [hfence, hroute, Bool.false_eq_true, ↓reduceIte]
  have := amoEnd_ok h true
  simp only [Bool.and_true] at this
  rw [← this]
  rfl

/-- The old value is given at once. -/
theorem atomicBody_given {p : Place} (hp : placeOf (amoBegun h s) attr pa (amoScope h) = p) (hn : ∀ d off, p ≠ .packet d off)
    {x : Nat} {t : State}
    (hx : performAt a attr p (here (amoBegun h s)).nextPend false (amoBegun h s) =
      .ok (some (.val x)) t) :
    atomicBody h a s = .ok (if amoAcq h && p == .sau (rmwPa p) then .park else .seq)
      (amoAcquired h (withPend (dstG h.d) [{ pa := 0, n := a.w, known := some x }] (.int a.w true) 0 t)) := by
  rw [atomicBody_placed hva hc ha hr hp hn, X.bind_ok (heldOn_ok hx), ← amoEnd_ok]
  rfl

variable {p x : Nat} {t : State}

theorem atomicBody_l1 (hp : placeOf (amoBegun h s) attr pa (amoScope h) = .l1 p)
    (hx : rmwL1 a attr p false (amoBegun h s) = .ok (.val x) t) :
    atomicBody h a s =
      .ok .seq (amoAcquired h (withPend (dstG h.d) [{ pa := 0, n := a.w, known := some x }] (.int a.w true) 0 t)) := by
  rw [atomicBody_given hva hc ha hr hp (by simp) (map_some_ok hx), if_neg (by simp)]
theorem atomicBody_home (hp : placeOf (amoBegun h s) attr pa (amoScope h) = .home p) (hf : AtomicFree (amoBegun h s) p a.w)
    (hx : rmwHome a attr p (amoBegun h s) = .ok (.val x) t) :
    atomicBody h a s =
      .ok .seq (amoAcquired h (withPend (dstG h.d) [{ pa := 0, n := a.w, known := some x }] (.int a.w true) 0 t)) := by
  rw [atomicBody_given hva hc ha hr hp (by simp) ((performAt_home hf).trans (map_some_ok hx)), if_neg (by simp)]
theorem atomicBody_sau (hp : placeOf (amoBegun h s) attr pa (amoScope h) = .sau p)
    (hf : atomicReady p a.w (amoBegun h s) = .ok () (amoBegun h s))
    (hx : rmwSau a attr p (here (amoBegun h s)).nextPend (amoBegun h s) = .ok (.val x) t) :
    atomicBody h a s = .ok (if amoAcq h then .park else .seq)
      (amoAcquired h (withPend (dstG h.d) [{ pa := 0, n := a.w, known := some x }] (.int a.w true) 0 t)) := by
  rw [atomicBody_given hva hc ha hr hp (by simp) ((performAt_sau hf).trans (map_some_ok hx))]
  simp [rmwPa]
/-- The old value comes from the fabric atomic unit a turn later. -/
theorem atomicBody_fau (hp : placeOf (amoBegun h s) attr pa (amoScope h) = .fau p) (hf : AtomicFree (amoBegun h s) p a.w)
    (hx : rmwFau a p (here (amoBegun h s)).nextPend (amoBegun h s) = .ok none t) :
    atomicBody h a s = .ok (if amoAcq h then .park else .seq)
      (amoAcquired h (withPend (dstG h.d) [{ pa := pa, n := a.w, remote := true }] (.int a.w true) 0 t)) := by
  rw [atomicBody_placed hva hc ha hr hp (by simp), X.bind_ok (heldOn_ok ((performAt_fau hf).trans hx)),
    show (if amoAcq h then Next.park else .seq) = if amoAcq h && true then .park else .seq by simp, ← amoEnd_ok]
  rfl
/-- The home holds the atomic, which stays outstanding (R225). -/
theorem atomicBody_held (hp : placeOf (amoBegun h s) attr pa (amoScope h) = .home p) (hf : AtomicFree (amoBegun h s) p a.w)
    (hx : rmwHome a attr p (amoBegun h s) = .error (.wait .tag) t) :
    atomicBody h a s = .ok (if amoAcq h then .park else .seq)
      (amoAcquired h (withPend (dstG h.d) [{ pa := p, n := a.w, remote := true }]
        (.rmw a false attr (.home p)) 0 t)) := by
  rw [atomicBody_placed hva hc ha hr hp (by simp), X.bind_ok (heldOn_held ((performAt_home hf).trans (map_some_error hx))),
    show (if amoAcq h then Next.park else .seq) = if amoAcq h && true then .park else .seq by simp, ← amoEnd_ok]
  rfl

end

theorem amoNext_ne_gone (h : Head) : (if amoAcq h then Next.park else .seq) ≠ .gone := by split <;> exact Next.noConfusion

/-! ### The step of an atomic at its home (R402, R403) -/

theorem atomicGate_go {s : State} {pa : Nat} (hg : homeGate s s.cur pa 2 = .go) (hp : poisonAt s pa 4 = false)
    (hsusp : s.ms.susp = []) (hflaw : s.ms.flaw = []) : atomicGate pa s = .ok none s := by
  have hu : unsuspend pa 2 s.cur s = s := if_pos (by simp [hsusp])
  have hc : correct pa 4 s = s := if_pos (by simp [hflaw])
  simp [atomicGate, X.bind_eq, X.map_eq, hg, hu, hc, hp]

theorem noteLaunch_thread {c : Nat} (hc : isThread c = true) (pa n : Nat) (s : State) : noteLaunch c pa n s = s := by
  have : 32768 ≤ c := by simp only [isThread, Bool.and_eq_true, decide_eq_true_eq] at hc; omega
  unfold noteLaunch
  split
  · rw [if_pos (by simp [this])]
  · rfl

/-- A Prism thread's atomic on a word that its home lets through. -/
theorem rmwHome_thread {a : Rmw} {attr : W64} {pa : Nat} {s : State} (ht : isThread s.cur = true)
    (hg : atomicGate pa s = .ok none s) (hm : hmode attr ≠ 2) :
    rmwHome a attr pa s = .ok (.val (homeBytes s pa a.w).1)
      (match rmwNew a (homeBytes s pa a.w).1 with
      | some y => homeWrite pa a.w y false none s.cur s
      | none => s) := by
  have hrep (x : Nat) (t : State) : replicate attr pa a.w x t = t := if_pos (by simpa using hm)
  simp only [rmwHome, X.bind_eq, hg, X.get_apply, X.upd_apply, X.pure_apply, hrep, noteLaunch_thread ht]
  cases rmwNew a (homeBytes s pa a.w).1 with
  | none => simp [ht]
  | some y => simp [ht]

theorem signedOf_eq_toInt {n : Nat} (hn : 0 < n) (x : Nat) : signedOf n x = (BitVec.ofNat n x).toInt := by
  unfold signedOf
  rw [BitVec.toInt_eq_toNat_cond, BitVec.toNat_ofNat]
  have hpow : 2 ^ n = 2 * 2 ^ (n - 1) := by rw [← pow_succ']; congr; omega
  by_cases h : x % 2 ^ n < 2 ^ (n - 1)
  · rw [if_pos h, if_pos (by omega)]
  · rw [if_neg h, if_neg (by omega)]

/-- The elements of an atomic as words of their width: what R402 gives for F 0 to 8. -/
theorem amoNew_words {w x y : Nat} (hw : 0 < w) (hx : x < 2 ^ (8 * w)) (hy : y < 2 ^ (8 * w)) :
    let X := BitVec.ofNat (8 * w) x
    let Y := BitVec.ofNat (8 * w) y
    let is (f : Nat) (v : BitVec (8 * w)) : Prop := BitVec.ofNat (8 * w) (amoNew f w x y) = v
    is 0 (X + Y) ∧ is 1 (X &&& Y) ∧ is 2 (X ||| Y) ∧ is 3 (X ^^^ Y) ∧ is 8 Y ∧
      is 4 (if X.toInt < Y.toInt then X else Y) ∧ is 5 (if X.toInt < Y.toInt then Y else X) ∧
      is 6 (if X.toNat < Y.toNat then X else Y) ∧ is 7 (if X.toNat < Y.toNat then Y else X) := by
  intro X Y is
  have hX : X.toNat = x := by simp [X, Nat.mod_eq_of_lt hx]
  have hY : Y.toNat = y := by simp [Y, Nat.mod_eq_of_lt hy]
  have hs : ∀ z, signedOf (8 * w) z = (BitVec.ofNat (8 * w) z).toInt := signedOf_eq_toInt (by omega)
  refine ⟨?_, ?_, ?_, ?_, rfl, ?_, ?_, ?_, ?_⟩
  · apply BitVec.eq_of_toNat_eq; simp [amoNew, hX, hY]
  · apply BitVec.eq_of_toNat_eq; simp [amoNew, X, Y, Nat.mod_eq_of_lt hx, Nat.mod_eq_of_lt hy]
  · apply BitVec.eq_of_toNat_eq; simp [amoNew, X, Y, Nat.mod_eq_of_lt hx, Nat.mod_eq_of_lt hy]
  · apply BitVec.eq_of_toNat_eq; simp [amoNew, X, Y, Nat.mod_eq_of_lt hx, Nat.mod_eq_of_lt hy]
  · simp only [is, amoNew, hs, decide_eq_true_eq]
    exact apply_ite (BitVec.ofNat (8 * w)) ..
  · simp only [is, amoNew, hs, decide_eq_true_eq]
    exact apply_ite (BitVec.ofNat (8 * w)) ..
  · show BitVec.ofNat (8 * w) (min x y) = _
    rw [hX, hY]
    split
    · rw [Nat.min_eq_left (by omega)]
    · rw [Nat.min_eq_right (by omega)]
  · show BitVec.ofNat (8 * w) (max x y) = _
    rw [hX, hY]
    split
    · rw [Nat.max_eq_right (by omega)]
    · rw [Nat.max_eq_left (by omega)]

end Sys2Proof.Machine

namespace Sys2Proof
open Machine

/-- Settles O22. -/
theorem atomicsReadAndWriteTheirHome : Obligations.AtomicsReadAndWriteTheirHome := by
  refine ⟨fun h s pa attr => ?_, ?_, ?_, ?_, ?_⟩
  · intro w scope ea y s1 acq give end_ later free amo row
    have key (mk : Head → Instr) (r : Row) (u : Use) (f : Nat) (cas : Bool) (y e : Nat) (hu : ∀ x, Unbound x u)
        (body : X Next) (he : exec (mk h) s = runHead r h u body s)
        (hbody : body s = atomicBody h ⟨f, cas, w, y, e, ea⟩ s) :
        amo mk r u ⟨f, cas, w, y, e, ea⟩ := by
      intro hi hc ha hr
      have run {n : Next} {t : State} (hb : atomicBody h ⟨f, cas, w, y, e, ea⟩ s = .ok n t) (hn : n ≠ .gone) :
          exec (mk h) s = .next (advance h u n t) := by
        rw [he]
        exact runHead_ok hi hu (hbody.trans hb) hn
      refine ⟨fun p x t hp hx => ?_, fun p x t hp hf hx => ?_, fun p t hp hf hx => ?_, fun p x t hp hf hx => ?_,
        fun p t hp hf hx => ?_, fun d off hp hroute hfence => ?_⟩
      · exact run (atomicBody_l1 (a := ⟨f, cas, w, y, e, ea⟩) rfl hc ha hr hp hx) (by simp)
      · exact run (atomicBody_home (a := ⟨f, cas, w, y, e, ea⟩) rfl hc ha hr hp hf hx) (by simp)
      · exact run (atomicBody_held (a := ⟨f, cas, w, y, e, ea⟩) rfl hc ha hr hp hf hx) (amoNext_ne_gone h)
      · exact run (atomicBody_sau (a := ⟨f, cas, w, y, e, ea⟩) rfl hc ha hr hp hf hx) (amoNext_ne_gone h)
      · exact run (atomicBody_fau (a := ⟨f, cas, w, y, e, ea⟩) rfl hc ha hr hp hf hx) (amoNext_ne_gone h)
      · exact run (atomicBody_packet (a := ⟨f, cas, w, y, e, ea⟩) rfl hc ha hr hp hroute hfence) (amoNext_ne_gone h)
    have row_ (mk : Head → Instr) (r : Row) (hr : r.Scalar) (he : exec (mk h) s = amoHead r h s) : row mk r :=
      key mk r _ h.f.toNat false y 0 (hr.unbound h) _ he (by rw [X.bind_ok (X.get_apply s)]; exact (atomicBody_va ..).symm)
    refine ⟨row_ .aadd _ (by decide) (exec_aadd h s), row_ .aand _ (by decide) (exec_aand h s), row_ .aor _ (by decide) (exec_aor h s), row_ .axor _ (by decide) (exec_axor h s),
      row_ .amin _ (by decide) (exec_amin h s), row_ .amax _ (by decide) (exec_amax h s), row_ .aminu _ (by decide) (exec_aminu h s), row_ .amaxu _ (by decide) (exec_amaxu h s),
      row_ .aswp _ (by decide) (exec_aswp h s), row_ .afadd _ (by decide) (exec_afadd h s), row_ .afmax _ (by decide) (exec_afmax h s), ?_⟩
    exact key .acas _ _ 0 true y _ (Row.Scalar.unbound_readD (by decide) h) _
      (exec_acas h s) (by rw [X.bind_ok (X.get_apply s)]; exact (atomicBody_va ..).symm)
  · exact fun a attr pa s ht hg hp hm hsusp hflaw => rmwHome_thread ht (atomicGate_go hg hp hsusp hflaw) hm
  · intro a x hcas
    simp [rmwNew, hcas]
  · intro a x hcas
    simp [rmwNew, hcas]
  · exact fun w x y hw hx hy => amoNew_words hw hx hy

end Sys2Proof
end

section
set_option Elab.async false
/-! Reductions (R405). -/

namespace Sys2Proof.Machine

/-- A reduction at domain or system scope on HBM, of this device or another, goes to a partial buffer (R243, R405). -/
def redInDomain (s : State) (pa scope : Nat) : Bool :=
  4 ≤ scope && (match spaceOf s pa with
    | .hbm => true
    | .remote _ off => decide (off < hbmTop)
    | _ => false)

theorem redInDomain_iff (s : State) (pa scope : Nat) : redInDomain s pa scope = true ↔
    4 ≤ scope ∧ (spaceOf s pa = .hbm ∨ ∃ d off, off < hbmTop ∧ spaceOf s pa = .remote d off) := by
  cases hp : spaceOf s pa <;> simp [redInDomain, hp]

section
variable {a : Rmw} {attr : W64} {pa scope p x : Nat} {s t : State}

/-- A reduction that is performed at its place of this device. -/
theorem redPlaced_done {q : Place} (hp : placeOf s attr pa scope = q) (hn : ∀ d off, q ≠ .packet d off) {o : Option Old}
    (ho : ∀ i, o ≠ some (.bad i)) (hx : performAt a attr q syncRead false s = .ok o t) : redPlaced a attr pa scope s = .ok () t := by
  have hh := heldOn_ok (red := true) (attr := attr) (a := a) (dst := .none) (p := q) hx
  unfold redPlaced
  rw [X.bind_ok (X.get_apply s), hp]
  cases q with
  | packet d off => exact absurd rfl (hn d off)
  | _ =>
    rcases o with _ | _ | i
    · exact X.bind_ok hh
    · exact X.bind_ok hh
    · exact absurd rfl (ho i)
/-- A reduction that its home holds. -/
theorem redPlaced_held {q : Place} (hp : placeOf s attr pa scope = q) (hn : ∀ d off, q ≠ .packet d off)
    (hx : performAt a attr q syncRead false s = .error (.wait .tag) t) :
    redPlaced a attr pa scope s =
      .ok () (withPend .none [{ pa := rmwPa q, n := a.w, remote := true }] (.rmw a true attr q) 0 t) := by
  have hh := heldOn_held (red := true) (attr := attr) (a := a) (dst := .none) (p := q) hx
  unfold redPlaced
  rw [X.bind_ok (X.get_apply s), hp]
  cases q with
  | packet d off => exact absurd rfl (hn d off)
  | _ => exact X.bind_ok hh
theorem redPlaced_packet {d off : Nat} (hp : placeOf s attr pa scope = .packet d off) (hroute : routable s d = true)
    (hfence : fencedBefore s s.cur = false) : redPlaced a attr pa scope s = .ok () (rmwPacket a d off scope syncRead s) := by
  unfold redPlaced
  rw [X.bind_ok (X.get_apply s), hp]
  simp only [hfence, hroute, Bool.false_eq_true, ↓reduceIte]
  rfl

end

section
variable {r : Row} {h : Head} {s : State} {pa : Nat} {attr : W64} (hrow : r.Scalar) (hi : Issues s r (Use.ofRow r h))
  (hc : CheckPasses s (gA s h) (baseAddr s (gA s h)) (amoW h) CapF.ST (amoW h))
  (ha : atomicAddr (baseAddr s (gA s h)) (amoW h) kWrite s = .ok (pa, attr) s) (hr : AmoReleases h s)
include hrow hi hc ha hr

/-- The reduction that a head asks for. -/
def redOf (s : State) (h : Head) : Rmw := ⟨h.f.toNat, false, amoW h, (gB s h).val.toNat % 2 ^ (8 * amoW h), 0, baseAddr s (gA s h)⟩

theorem redHead_domain (hd : redInDomain (amoBegun h s) pa (amoScope h) = true)
    (hfence : fencedBefore (amoBegun h s) (amoBegun h s).cur = false) :
    redHead r h s = .next (advance h (Use.ofRow r h) .seq (redDomain (redOf s h) pa (amoBegun h s))) := by
  refine runHead_ok hi (hrow.unbound h) ?_
  rw [X.bind_ok (X.get_apply s), X.bind_ok (check_ok hc), X.bind_ok ha]
  dsimp only
  rw [amoRelease_then hr, X.bind_ok (X.get_apply _)]
  change (ite ((redInDomain (amoBegun h s) pa (amoScope h) && fencedBefore (amoBegun h s) (amoBegun h s).cur) = true) _ _ : X Next) _ = _
  rw [hfence, Bool.and_false, if_neg Bool.false_ne_true]
  change (ite (redInDomain (amoBegun h s) pa (amoScope h) = true) _ _ : X Next) _ = _
  rw [if_pos hd]
  rfl
theorem redHead_placed (hd : redInDomain (amoBegun h s) pa (amoScope h) = false) {t : State}
    (hp : redPlaced (redOf s h) attr pa (amoScope h) (amoBegun h s) = .ok () t) :
    redHead r h s = .next (advance h (Use.ofRow r h) .seq t) := by
  refine runHead_ok hi (hrow.unbound h) ?_
  rw [X.bind_ok (X.get_apply s), X.bind_ok (check_ok hc), X.bind_ok ha]
  dsimp only
  rw [amoRelease_then hr, X.bind_ok (X.get_apply _)]
  change (ite ((redInDomain (amoBegun h s) pa (amoScope h) && fencedBefore (amoBegun h s) (amoBegun h s).cur) = true) _ _ : X Next) _ = _
  rw [hd, Bool.false_and, if_neg Bool.false_ne_true]
  change (ite (redInDomain (amoBegun h s) pa (amoScope h) = true) _ _ : X Next) _ = _
  rw [hd, if_neg Bool.false_ne_true]
  exact X.bind_ok hp

end

end Sys2Proof.Machine

namespace Sys2Proof
open Machine

/-- Settles O23. -/
theorem reductionsHaveNoResult : Obligations.ReductionsHaveNoResult := by
  intro h s pa attr w scope ea a s1 domain free red
  have key (mk : Head → Instr) (r : Row) (hrow : r.Scalar) (he : exec (mk h) s = redHead r h s) : red mk r := by
    intro hi hc ha hr
    have placed (hd : ¬ domain) {t : State} (hp : redPlaced a attr pa scope s1 = .ok () t) :
        exec (mk h) s = .next (advance h (Use.ofRow r h) .seq t) := by
      rw [he]
      exact redHead_placed hrow hi hc ha hr (by rw [Bool.eq_false_iff]; exact fun h => hd ((redInDomain_iff ..).mp h)) hp
    refine ⟨fun hd hf => ?_, fun p x t hd hp hf hx => ?_, fun p t hd hp hf hx => ?_, fun p x t hd hp hx => ?_,
      fun p x t hd hp hf hx => ?_, fun p t hd hp hf hx => ?_, fun d off hd hp hroute hfence => ?_⟩
    · rw [he]
      exact redHead_domain hrow hi hc ha hr ((redInDomain_iff ..).mpr hd) hf
    · exact placed hd (redPlaced_done hp (by simp) (by simp) ((performAt_home (a := a) hf).trans (map_some_ok hx)))
    · exact placed hd (redPlaced_held hp (by simp) ((performAt_home (a := a) hf).trans (map_some_error hx)))
    · exact placed hd (redPlaced_done hp (by simp) (by simp) (map_some_ok hx))
    · exact placed hd (redPlaced_done hp (by simp) (by simp) ((performAt_sau (a := a) hf).trans (map_some_ok hx)))
    · exact placed hd (redPlaced_done hp (by simp) (by simp) ((performAt_fau (a := a) hf).trans hx))
    · exact placed hd (redPlaced_packet hp hroute hfence)
  exact ⟨key .redadd _ (by decide) (exec_redadd h s), key .redand _ (by decide) (exec_redand h s),
    key .redor _ (by decide) (exec_redor h s), key .redxor _ (by decide) (exec_redxor h s),
    key .redmin _ (by decide) (exec_redmin h s), key .redmax _ (by decide) (exec_redmax h s),
    key .redminu _ (by decide) (exec_redminu h s), key .redmaxu _ (by decide) (exec_redmaxu h s),
    key .redfadd _ (by decide) (exec_redfadd h s), key .redfmax _ (by decide) (exec_redfmax h s)⟩

end Sys2Proof
end

section
set_option Elab.async false
/-! Full/empty words (R406, R407). -/

namespace Sys2Proof.Machine

theorem feServed_none {s : State} (h : (here s).granted = false) (pa : Nat) : feServed pa s = .ok none s := by
  simp [feServed, X.bind_eq, h]

section
variable {r : Row} {h : Head} {s : State} {pa : Nat} (hrow : r.Scalar) (hgrant : (here s).granted = false)
include hrow hgrant

/-- A reading full/empty head on a word that it may read at once. -/
theorem feRead_ok {perm : Nat} {kind : BitVec 8} {op : Nat} {f : Nat → Bool → Option (Nat × Bool)} {acq : Bool → Bool} {x : Nat}
    {empties : Bool} {t u : State} (hi : Issues s r (Use.ofRow r h)) (hw : feWord h perm kind s = .ok pa s)
    (hready : atomicReady pa 4 s = .ok () s) (hstatus : accessStatus s s.cur pa = 0)
    (hf : f (Machine.peek s pa 4) (fullBit s pa) = some (x, empties))
    (ht : (if empties then feServe pa 16 (setFull pa false s) else s) = t)
    (hu : (if acq (fullBit s pa) then acquire (h.im 2 0) t else t) = u) :
    feRead r h perm kind op f acq s = .next (advance h (Use.ofRow r h) .seq (withLate h.d (BitVec.ofNat 64 x) 0 u)) := by
  refine runHead_ok hi (hrow.unbound h) ?_
  rw [X.bind_ok hw, X.bind_ok (feServed_none hgrant pa)]
  dsimp only
  rw [X.bind_ok hready, X.bind_ok (X.get_apply s), hstatus]
  simp only [bne_self_eq_false, Bool.false_eq_true, ↓reduceIte, hf]
  subst ht hu
  generalize acq (fullBit s pa) = a
  cases empties <;> cases a <;> rfl

/-- A writing full/empty head after its release, on a word that it may write at once. -/
theorem feWrite_ok {waits : Bool} {f : Nat → Nat → State → State} (hi : Issues s r (Use.ofRow r h).srcD)
    (hw : feWord h CapF.ST kWrite s = .ok pa s)
    (hr : releaseReady (releaseBegin (h.im 2 0) s) (releaseBegin (h.im 2 0) s).cur (h.im 2 0) = true)
    (hready : atomicReady pa 4 (releaseBegin (h.im 2 0) s) = .ok () (releaseBegin (h.im 2 0) s))
    (hstatus : accessStatus (releaseBegin (h.im 2 0) s) (releaseBegin (h.im 2 0) s).cur pa = 0)
    (hempty : (waits && fullBit (releaseBegin (h.im 2 0) s) pa) = false) :
    feWrite r h waits f s = .next (advance h (Use.ofRow r h).srcD .seq (feServe pa 16 (f pa
      ((gD (releaseBegin (h.im 2 0) s) h).val.toNat % 2 ^ 32) (releaseBegin (h.im 2 0) s)))) := by
  refine runHead_ok hi (hrow.unbound_srcD h) ?_
  rw [X.bind_ok hw, X.bind_ok (feServed_none hgrant pa)]
  simp only [Option.isSome_none, Bool.false_eq_true, ↓reduceIte]
  rw [X.bind_ok (release_ok hr), X.bind_ok hready, X.bind_ok (X.get_apply _), hstatus]
  simp only [bne_self_eq_false, Bool.false_eq_true, ↓reduceIte, hempty]
  rfl

end

end Sys2Proof.Machine

namespace Sys2Proof
open Machine

/-- Settles O24. -/
theorem fullEmptyHeadsActOnTheBit : Obligations.FullEmptyHeadsActOnTheBit := by
  intro h s pa scope s1 x full emptied late ready reads writes fill hgrant
  refine ⟨fun ⟨hready, hstatus⟩ => ⟨fun hfull hi hw => ?_, fun hfull hi hw => ?_, fun hfull hi hw => ?_, fun hfull hi hw => ?_,
    fun hi hw => ?_⟩, fun ⟨hready, hstatus⟩ hr => ⟨fun hfull hi hw => ?_, fun hi hw => ?_, fun hi hw => ?_⟩⟩
  · have hfull : fullBit s pa = true := hfull
    rw [exec_take]
    exact feRead_ok (empties := true) (by decide) hgrant hi hw hready hstatus (by simp [hfull, x]) rfl rfl
  · have hfull : fullBit s pa = true := hfull
    rw [exec_peek]
    exact feRead_ok (empties := false) (by decide) hgrant hi hw hready hstatus (by simp [hfull, x]) rfl rfl
  · have hfull : fullBit s pa = true := hfull
    rw [exec_trytake]
    exact feRead_ok (empties := true) (by decide) hgrant hi hw hready hstatus (by simp [hfull, x]) rfl (by simp [hfull, scope, emptied])
  · have hfull : fullBit s pa = false := hfull
    rw [exec_trytake]
    exact feRead_ok (empties := false) (by decide) hgrant hi hw hready hstatus (by simp [hfull]) rfl (by simp [hfull])
  · rw [exec_feget]
    exact feRead_ok (empties := false) (by decide) hgrant hi hw hready hstatus rfl rfl rfl
  · rw [exec_put]
    exact feWrite_ok (by decide) hgrant hi hw hr hready hstatus (by simpa using hfull)
  · rw [exec_fput]
    exact feWrite_ok (by decide) hgrant hi hw hr hready hstatus rfl
  · rw [exec_fclr]
    exact feWrite_ok (by decide) hgrant hi hw hr hready hstatus rfl

end Sys2Proof
end

section
set_option Elab.async false
/-! Barriers (R408 to R412). -/

namespace Sys2Proof.Machine

/-! ### Heads that wait -/

/-- A head that a Prism thread may not issue is issued by a core. -/
theorem Issues.not_thread {s : State} {r : Row} {u : Use} (hi : Issues s r u) (hm : threadMajor r.major = false) :
    isThread s.cur = false := by
  cases ht : isThread s.cur with
  | false => rfl
  | true =>
    have h1 := hi.1
    simp [issueStop, ht, hm] at h1

/-- A head that waits for an event of its own leaves the state its body reached. -/
theorem runHead_waits {r : Row} {h : Head} {u : Use} {body : X Next} {s t : State} {w : Wait} (hi : Issues s r u)
    (hm : threadMajor r.major = false) (hc : unconfirmed s = false) (hu : ∀ x, Unbound x u) (hb : body s = .error (.wait w) t)
    (hw : onStop s t (.wait w) = if isThread s.cur then modHere (fun x => { x with wait := w, granted := false }) t
      else if unconfirmed s then beginWait s.cur .pair (closeInterval s.cur s) else beginWait s.cur w t := by rfl) :
    runHead r h u body s = .next (beginWait s.cur w t) := by
  rw [runHead_error hi (hu s) hb, hw, hi.not_thread hm, hc]
  rfl

theorem confirmed_of_ends {s : State} {r : Row} {u : Use} (hi : Issues s r u) (he : endsInterval r = true) :
    unconfirmed s = false := by simpa [he] using hi.2.1
theorem confirmed_of_refused {s : State} {r : Row} {u : Use} (hi : Issues s r u) (hm : threadMajor r.major = false)
    (hr : pairRefuses r = true) : unconfirmed s = false := by
  have ht := hi.not_thread hm
  have h1 := hi.1
  cases hp : ((here s).fir.getD {}).paired with
  | true =>
    simp only [issueStop, ht, hp, hr, Bool.false_and, Bool.and_self, Bool.false_eq_true, ↓reduceIte] at h1
    split_ifs at h1
  | false =>
    have : (firOf s s.cur).paired = false := hp
    simp [unconfirmed, unconfirmedOf, this]

/-! ### Sweep barriers (R165, R409) -/

/-- The next arrival of the issuing firing at a level is counted. -/
def countArrival (level : Nat) (t : State) : State :=
  modFir t.cur (fun f => { f with arrivals := SMap.set 0 f.arrivals level (SMap.get 0 f.arrivals level + 1) }) t

theorem modFir_congr {c : Nat} {f g : Firing → Firing} {s : State} (h : f (firOf s c) = g (firOf s c)) :
    modFir c f s = modFir c g s := by
  unfold modFir modCtx
  cases hf : (ctxOf s c).fir with
  | none => simp [hf]
  | some x => simp [firOf, hf] at h; simp [hf, h]

theorem nextArrival_ok (level : Nat) (s : State) :
    nextArrival level s = .ok (SMap.get 0 (firOf s s.cur).arrivals level + 1) (countArrival level s) := by
  show EStateM.Result.ok _ (modFir s.cur (fun f => { f with
    arrivals := SMap.set 0 f.arrivals level (SMap.get 0 (firOf s s.cur).arrivals level + 1) }) s) = _
  rw [countArrival]
  congr 1
  exact modFir_congr rfl

/-- A barrier knows a firing by its work identifier only. -/
theorem arriveBar_congr {f g : Firing} (h : f.wid = g.wid) (w : Sweep) (level k : Nat) : arriveBar w level k f = arriveBar w level k g := by
  have hg : groupOf w.header level f = groupOf w.header level g := by simp only [groupOf, h]
  funext s
  unfold arriveBar
  rw [hg, h]
theorem barDone_congr {f g : Firing} (h : f.wid = g.wid) (s : State) (w : Sweep) (level k : Nat) :
    barDone s w level k f = barDone s w level k g := by
  simp only [barDone, groupOf, h]

theorem wid_modFir (c : Nat) (f : Firing → Firing) (s : State) (hf : ∀ x, (f x).wid = x.wid) :
    (firOf (modFir c f s) c).wid = (firOf s c).wid := by
  unfold modFir firOf
  rw [ctxOf_modCtx]
  cases (ctxOf s c).fir with
  | none => rfl
  | some x => exact hf x

theorem get_map_snd {α : Type} {d : α} {m : SMap α} {f : Nat → α → α} (hd : ∀ k, f k d = d) (k : Nat) :
    SMap.get d (m.map fun e => (e.1, f e.1 e.2)) k = f k (SMap.get d m k) := by
  induction m with
  | nil => exact (hd k).symm
  | cons e m ih =>
    by_cases h : k = e.1
    · subst h; simp [SMap.get]
    · simp [SMap.get, h, ih]

/-- The waiters of an episode that completes go on. -/
def wakeBar (w : Sweep) (level g k : Nat) (s : State) : State :=
  { s with ctxs := s.ctxs.map fun (c, x) => if waitsAt s w level g k c x then (c, { x with st := .ready, granted := true }) else (c, x) }

/-- An arrival changes the episodes, and its waiters when it is the last. -/
theorem arriveBar_cases (w : Sweep) (level k : Nat) (f : Firing) (s : State) : ∃ q,
    arriveBar w level k f s = modGrp q s ∨ arriveBar w level k f s = wakeBar w level (groupOf w.header level f) k (modGrp q s) :=
  ⟨_, (ite_eq_or_eq _ _ _).symm⟩

theorem fir_wakeBar (w : Sweep) (level g k : Nat) (s : State) (c : Nat) : firOf (wakeBar w level g k s) c = firOf s c := by
  have hmap : (wakeBar w level g k s).ctxs = s.ctxs.map fun e =>
      (e.1, if waitsAt s w level g k e.1 e.2 then { e.2 with st := .ready, granted := true } else e.2) := by
    refine List.map_congr_left fun e _ => ?_
    obtain ⟨c, x⟩ := e
    dsimp only
    split <;> rfl
  have hget : ctxOf (wakeBar w level g k s) c =
      if waitsAt s w level g k c (ctxOf s c) then { ctxOf s c with st := .ready, granted := true } else ctxOf s c := by
    unfold ctxOf
    rw [hmap]
    exact get_map_snd (f := fun c x => if waitsAt s w level g k c x then { x with st := .ready, granted := true } else x)
      (fun c => if_neg (by simp [waitsAt])) c
  unfold firOf
  rw [hget]
  split <;> rfl

@[simp] theorem arriveBar_cur (w : Sweep) (level k : Nat) (f : Firing) (s : State) : (arriveBar w level k f s).cur = s.cur := by
  obtain ⟨q, h | h⟩ := arriveBar_cases w level k f s <;> rw [h] <;> rfl
theorem fir_arriveBar (w : Sweep) (level k : Nat) (f : Firing) (s : State) (c : Nat) :
    firOf (arriveBar w level k f s) c = firOf s c := by
  obtain ⟨q, h | h⟩ := arriveBar_cases w level k f s <;> rw [h]
  · rfl
  · exact fir_wakeBar ..

theorem wid_countArrival (level : Nat) (s : State) : (firOf (countArrival level s) s.cur).wid = (firOf s s.cur).wid :=
  wid_modFir _ _ _ fun _ => rfl

/-- The scope of a sweep's range is at most the device's (R282): its release starts nothing. -/
theorem rangeScope_lt (hd : List W64) : rangeScope hd < 4 := by
  unfold rangeScope; dsimp only; split
  · decide
  · split
    · decide
    · split <;> decide

section
variable {s : State} {level : Nat}

/-- The arrival of the issuing firing at the next episode of a level. -/
def barArrived (s : State) (w : Sweep) (level : Nat) : State :=
  arriveBar w level (SMap.get 0 (firOf s s.cur).arrivals level + 1) (firOf s s.cur) (countArrival level s)

theorem barArrived_cur (w : Sweep) : (barArrived s w level).cur = s.cur := by simp [barArrived, countArrival]
theorem wid_barArrived (w : Sweep) : (firOf (barArrived s w level) s.cur).wid = (firOf s s.cur).wid := by
  rw [barArrived, fir_arriveBar, wid_countArrival]
/-- The arrival in the words of the firing as the count leaves it. -/
theorem barArrived_eq (w : Sweep) : barArrived s w level =
    arriveBar w level (SMap.get 0 (firOf s s.cur).arrivals level + 1) (firOf (countArrival level s) s.cur) (countArrival level s) := by
  rw [barArrived, arriveBar_congr (wid_countArrival level s)]

theorem barLevel_alone (hw : sweepOf s (firOf s s.cur) = none) : barLevel level s = .ok .seq s := by
  unfold barLevel
  rw [X.bind_ok (X.get_apply s), hw]
  rfl

section
variable {w : Sweep} (hw : sweepOf s (firOf s s.cur) = some w)
include hw

section
variable (hg : (here s).granted = false) (hr : releaseReady s s.cur (rangeScope w.header) = true)
include hg hr

theorem barLevel_done
    (hd : barDone (barArrived s w level) w level (SMap.get 0 (firOf s s.cur).arrivals level + 1) (firOf s s.cur) = true) :
    barLevel level s = .ok .seq (acquire (rangeScope w.header) (barArrived s w level)) := by
  unfold barArrived at hd
  unfold barLevel
  rw [X.bind_ok (X.get_apply s), hw]
  dsimp only
  rw [X.bind_ok (answered_of_not hg _)]
  simp only [Bool.false_eq_true, ↓reduceIte]
  rw [X.bind_ok (release_ok_of_lt (rangeScope_lt _) hr), X.bind_ok (nextArrival_ok level s), X.bind_ok (X.upd_apply ..),
    X.bind_ok (X.get_apply _), if_pos hd]
  rfl
theorem barLevel_waits
    (hd : barDone (barArrived s w level) w level (SMap.get 0 (firOf s s.cur).arrivals level + 1) (firOf s s.cur) = false) :
    barLevel level s =
      .error (.wait (.barrier level (SMap.get 0 (firOf s s.cur).arrivals level + 1))) (barArrived s w level) := by
  unfold barArrived at hd
  unfold barLevel
  rw [X.bind_ok (X.get_apply s), hw]
  dsimp only
  rw [X.bind_ok (answered_of_not hg _)]
  simp only [Bool.false_eq_true, ↓reduceIte]
  rw [X.bind_ok (release_ok_of_lt (rangeScope_lt _) hr), X.bind_ok (nextArrival_ok level s), X.bind_ok (X.upd_apply ..),
    X.bind_ok (X.get_apply _), hd, if_neg Bool.false_ne_true]
  rfl

end

/-- BARIN arrives and notes the episode for its BARWT. -/
theorem barinLevel_sweep (hr : releaseReady s s.cur (rangeScope w.header) = true) :
    barinLevel level s = .ok .seq (modFir s.cur (fun f => { f with
      openBarin := SMap.set 0 f.openBarin level (SMap.get 0 (firOf s s.cur).arrivals level + 1) }) (barArrived s w level)) := by
  unfold barinLevel
  rw [X.bind_ok (X.get_apply s), hw]
  dsimp only
  rw [X.bind_ok (release_ok_of_lt (rangeScope_lt _) hr), X.bind_ok (nextArrival_ok level s), X.bind_ok (X.upd_apply ..)]
  rfl
theorem barwtLevel_sweep (hk : SMap.get 0 (firOf s s.cur).openBarin level ≠ 0)
    (hd : barDone s w level (SMap.get 0 (firOf s s.cur).openBarin level) (firOf s s.cur) = true) :
    barwtLevel level s = .ok .seq (acquire (rangeScope w.header)
      (modFir s.cur (fun f => { f with openBarin := SMap.set 0 f.openBarin level 0 }) s)) := by
  unfold barwtLevel
  rw [X.bind_ok (X.get_apply s), hw]
  simp only [beq_iff_eq, hk, ↓reduceIte, hd, Bool.not_true, Bool.false_eq_true]
  cases hans : (here s).granted && (here s).wait == .barrier level (SMap.get 0 (firOf s s.cur).openBarin level) <;>
    simp [answered, X.bind_eq, X.map_eq, hans, hd]

end

theorem barinLevel_alone (hw : sweepOf s (firOf s s.cur) = none) :
    barinLevel level s = .ok .seq (modFir s.cur (fun f => { f with
      openBarin := SMap.set 0 f.openBarin level (SMap.get 0 (firOf s s.cur).arrivals level + 1) }) (countArrival level s)) := by
  unfold barinLevel
  rw [X.bind_ok (X.get_apply s), hw]
  dsimp only
  rw [X.bind_ok (nextArrival_ok level s)]
  rfl
theorem barwtLevel_alone (hw : sweepOf s (firOf s s.cur) = none) (hk : SMap.get 0 (firOf s s.cur).openBarin level ≠ 0) :
    barwtLevel level s = .ok .seq (modFir s.cur (fun f => { f with openBarin := SMap.set 0 f.openBarin level 0 }) s) := by
  unfold barwtLevel
  rw [X.bind_ok (X.get_apply s), hw]
  simp only [beq_iff_eq, hk, ↓reduceIte]
  rfl
theorem barwtLevel_unopened (hk : SMap.get 0 (firOf s s.cur).openBarin level = 0) :
    barwtLevel level s = .error (.trap 0x02 0 0x0A) s := by
  unfold barwtLevel
  rw [X.bind_ok (X.get_apply s), hk]
  rfl

end

/-! ### Domain barriers (R410) -/

section
variable {h : Head} {s : State}

/-- The domain barrier that gA names. -/
def domOf (h : Head) (s : State) : Nat := (opA s h).toNat % 64

theorem domIndex_ok (hv : (domEntry s (domOf h s)).getLsbD 63 = true) : domIndex h s = .ok (domOf h s) s := by
  unfold domOf at *
  simp only [domIndex, X.bind_eq, X.get_apply, hv, Bool.not_true, Bool.false_eq_true, ↓reduceIte, X.pure_apply]
theorem domIndex_invalid (hv : (domEntry s (domOf h s)).getLsbD 63 = false) : domIndex h s = .error (.trap 0x02 0 0x0A) s := by
  unfold domOf at *
  simp only [domIndex, X.bind_eq, X.get_apply, hv, Bool.not_false, ↓reduceIte, X.illegal_apply]

/-- An arrival that the entry counts. -/
def domArrived (i : Nat) (s : State) : State :=
  setDom i (domWith (domEntry s i) 1 (domEpoch (domEntry s i)) (domCount (domEntry s i) + 1)) s

theorem arriveDom_ok {i : Nat} (hst : domState (domEntry s i) ≠ 2) :
    arriveDom i s = .ok (domEpoch (domEntry s i)) (domArrived i s) := by
  simp [arriveDom, X.bind_eq, X.map_eq, hst, domArrived]

variable (hv : (domEntry s (domOf h s)).getLsbD 63 = true)
include hv

section
variable (hr : releaseReady (releaseBegin h.d.toNat s) (releaseBegin h.d.toNat s).cur h.d.toNat = true)
  (hst : domState (domEntry (releaseBegin h.d.toNat s) (domOf h s)) ≠ 2)
include hr hst

theorem barDom_waits (hw : (here s).wait = .none) :
    barDom h s = .error (.wait (.domBarrier (domOf h s) (domEpoch (domEntry (releaseBegin h.d.toNat s) (domOf h s)))))
      (domArrived (domOf h s) (releaseBegin h.d.toNat s)) := by
  unfold barDom
  rw [X.bind_ok (domIndex_ok hv), X.bind_ok (X.get_apply s), hw]
  dsimp only
  rw [X.bind_ok (release_ok hr), X.bind_ok (arriveDom_ok hst)]
  rfl
theorem barinDom_ok :
    barinDom h s = .ok .seq (modFir (domArrived (domOf h s) (releaseBegin h.d.toNat s)).cur (fun f => { f with
      openBarin := SMap.set 0 f.openBarin (64 + domOf h s) (domEpoch (domEntry (releaseBegin h.d.toNat s) (domOf h s)) + 1) })
        (domArrived (domOf h s) (releaseBegin h.d.toNat s))) := by
  unfold barinDom
  rw [X.bind_ok (domIndex_ok hv), X.bind_ok (release_ok hr), X.bind_ok (arriveDom_ok hst)]
  rfl

end

/-- A BAR whose epoch is over, its wait granted or not, is an acquire. -/
theorem barDom_over {ep : Nat} (hw : (here s).wait = .domBarrier (domOf h s) ep) (hlt : ep < 256)
    (hover : domEpoch (domEntry s (domOf h s)) ≠ ep) : barDom h s = .ok .seq (acquire h.d.toNat s) := by
  unfold barDom
  rw [X.bind_ok (domIndex_ok hv), X.bind_ok (X.get_apply s), hw]
  simp [X.map_eq, hlt, hover]
theorem barwtDom_over (hk : SMap.get 0 (firOf s s.cur).openBarin (64 + domOf h s) ≠ 0)
    (hover : domEpoch (domEntry s (domOf h s)) ≠ SMap.get 0 (firOf s s.cur).openBarin (64 + domOf h s) - 1) :
    barwtDom h s = .ok .seq (acquire h.d.toNat
      (modFir s.cur (fun f => { f with openBarin := SMap.set 0 f.openBarin (64 + domOf h s) 0 }) s)) := by
  unfold barwtDom
  rw [X.bind_ok (domIndex_ok hv), X.bind_ok (X.get_apply s)]
  simp [X.bind_eq, X.map_eq, hk, hover]

end

/-! ### The heads -/

theorem execBar_level {h : Head} (hb : h.b ≠ 1) (s : State) :
    exec (.bar h) s = runHead Rows.bar h (Use.ofRow Rows.bar h) (barLevel h.d.toNat) s := by
  rw [exec_bar, execBar, if_neg (by simpa using hb)]
theorem execBarin_level {h : Head} (hb : h.b ≠ 1) (s : State) :
    exec (.barin h) s = runHead Rows.barin h (Use.ofRow Rows.barin h) (barinLevel h.d.toNat) s := by
  rw [exec_barin, execBarin, if_neg (by simpa using hb)]
theorem execBarwt_level {h : Head} (hb : h.b ≠ 1) (s : State) :
    exec (.barwt h) s = runHead Rows.barwt h (Use.ofRow Rows.barwt h) (barwtLevel h.d.toNat) s := by
  rw [exec_barwt, execBarwt, if_neg (by simpa using hb)]
theorem execBar_dom {h : Head} (hb : h.b = 1) (s : State) :
    exec (.bar h) s = runHead Rows.bar h (Use.ofRow Rows.bar h) (barDom h) s := by
  rw [exec_bar, execBar, if_pos (by simpa using hb)]
theorem execBarin_dom {h : Head} (hb : h.b = 1) (s : State) :
    exec (.barin h) s = runHead Rows.barin h (Use.ofRow Rows.barin h) (barinDom h) s := by
  rw [exec_barin, execBarin, if_pos (by simpa using hb)]
theorem execBarwt_dom {h : Head} (hb : h.b = 1) (s : State) :
    exec (.barwt h) s = runHead Rows.barwt h (Use.ofRow Rows.barwt h) (barwtDom h) s := by
  rw [exec_barwt, execBarwt, if_pos (by simpa using hb)]

/-! ### The wired barrier (R183, R411, R412) -/

section
variable {h : Head} {s : State}

/-- The rank's arrival at GANG, and at BARMAX. -/
def gangArrived (s : State) : State :=
  modStrip (stripNo (coreNo s.cur)) (fun t => { t with
    gang := t.gang.filter (·.1 != rankNo (coreNo s.cur)) ++ [(rankNo (coreNo s.cur), s.cur)] }) (gangOpen (stripNo (coreNo s.cur)) s)
def barmaxArrived (s : State) (h : Head) : State :=
  modStrip (stripNo (coreNo s.cur)) (fun t => { t with
    barmax := t.barmax.filter (·.1 != rankNo (coreNo s.cur)) ++ [(rankNo (coreNo s.cur), s.cur, opA s h)] })
      (gangOpen (stripNo (coreNo s.cur)) s)
/-- The maximum that BARMAX gives once the last rank has arrived. -/
def barmaxOf (s : State) (h : Head) : Nat :=
  (stripOf (barmaxArrived s h) (stripNo (coreNo s.cur))).barmax.foldl (fun m a => Nat.max m a.2.2.toNat) 0
/-- A rank goes on past GANG. -/
def gangPassed (c : Nat) (s : State) : State := modFir c (fun f => { f with gangPassed := true, mmaOrd := 0 }) (acquire 1 s)

theorem execGang_alone (hg : gangFiring s = false) (hi : Issues s Rows.gang {}) :
    exec (.gang h) s = .next (trapAt s 0x02 0 0x02) := by
  rw [exec_gang]
  refine runHead_trap hi (fun x => unbound_nil rfl) (t := s) ?_
  rw [X.bind_ok (X.get_apply s), hg]
  rfl
theorem execBarmax_alone (hg : gangFiring s = false) (hi : Issues s Rows.barmax (Use.ofRow Rows.barmax h)) :
    exec (.barmax h) s = .next (trapAt s 0x02 0 0x02) := by
  rw [exec_barmax]
  refine runHead_trap hi (Row.Scalar.unbound (by decide) h) (t := s) ?_
  rw [X.bind_ok (X.get_apply s), hg]
  rfl

variable (hg : gangFiring s = true)
include hg

theorem execGang_granted (hi : Issues s Rows.gang {}) (hgr : (here s).granted = true) (hw : (here s).wait = .gang) :
    exec (.gang h) s = .next (advance h {} .seq (gangPassed s.cur s)) := by
  rw [exec_gang]
  refine runHead_ok hi (fun x => unbound_nil rfl) ?_
  rw [X.bind_ok (X.get_apply s), hg]
  simp only [Bool.not_true, Bool.false_eq_true, ↓reduceIte]
  rw [X.bind_ok (answered_of hgr hw)]
  rfl

variable (hgr : (here s).granted = false) (hr : releaseReady s s.cur 1 = true)
include hgr hr

theorem execGang_last (hi : Issues s Rows.gang {}) (hl : (stripOf (gangArrived s) (stripNo (coreNo s.cur))).gang.length = 16) :
    exec (.gang h) s = .next (advance h {} .seq (gangPassed s.cur (gangRelease (stripNo (coreNo s.cur))
      ((stripOf (gangArrived s) (stripNo (coreNo s.cur))).gang.map (·.2)) 0 (gangArrived s)))) := by
  rw [exec_gang]
  refine runHead_ok hi (fun x => unbound_nil rfl) ?_
  rw [X.bind_ok (X.get_apply s), hg]
  simp only [Bool.not_true, Bool.false_eq_true, ↓reduceIte]
  rw [X.bind_ok (answered_of_not hgr _)]
  simp only [Bool.false_eq_true, ↓reduceIte]
  rw [X.bind_ok (release_ok_of_lt (by omega) hr), X.bind_ok (X.upd_apply ..), X.bind_ok (X.upd_apply ..), X.bind_ok (X.get_apply _)]
  unfold gangArrived at hl ⊢
  simp only [beq_iff_eq, hl, ↓reduceIte]
  rfl
theorem execGang_waits (hi : Issues s Rows.gang {}) (hl : (stripOf (gangArrived s) (stripNo (coreNo s.cur))).gang.length ≠ 16) :
    exec (.gang h) s = .next (beginWait s.cur .gang (gangArrived s)) := by
  rw [exec_gang]
  refine runHead_waits hi (by decide) (confirmed_of_refused hi (by decide) (by decide)) (fun x => unbound_nil rfl) ?_
  rw [X.bind_ok (X.get_apply s), hg]
  simp only [Bool.not_true, Bool.false_eq_true, ↓reduceIte]
  rw [X.bind_ok (answered_of_not hgr _)]
  simp only [Bool.false_eq_true, ↓reduceIte]
  rw [X.bind_ok (release_ok_of_lt (by omega) hr), X.bind_ok (X.upd_apply ..), X.bind_ok (X.upd_apply ..), X.bind_ok (X.get_apply _)]
  unfold gangArrived at hl ⊢
  simp only [beq_iff_eq, hl, ↓reduceIte]
  rfl
theorem execBarmax_last (hi : Issues s Rows.barmax (Use.ofRow Rows.barmax h))
    (hl : (stripOf (barmaxArrived s h) (stripNo (coreNo s.cur))).barmax.length = 16) :
    exec (.barmax h) s =
      .next (advance h (Use.ofRow Rows.barmax h) .seq (withLate h.d (BitVec.ofNat 64 (barmaxOf s h)) 0
        (acquire 1 (gangRelease (stripNo (coreNo s.cur))
          ((stripOf (barmaxArrived s h) (stripNo (coreNo s.cur))).barmax.map (·.2.1)) (barmaxOf s h) (barmaxArrived s h))))) := by
  rw [exec_barmax]
  refine runHead_ok hi (Row.Scalar.unbound (by decide) h) ?_
  rw [X.bind_ok (X.get_apply s), hg]
  simp only [Bool.not_true, Bool.false_eq_true, ↓reduceIte]
  rw [X.bind_ok (answered_of_not hgr _)]
  simp only [Bool.false_eq_true, ↓reduceIte]
  rw [X.bind_ok (release_ok_of_lt (by omega) hr), X.bind_ok (X.upd_apply ..), X.bind_ok (X.upd_apply ..), X.bind_ok (X.get_apply _)]
  unfold barmaxOf
  unfold barmaxArrived at hl ⊢
  simp only [beq_iff_eq, hl, ↓reduceIte]
  rfl

end

end Sys2Proof.Machine

namespace Sys2Proof
open Machine

/-- Settles O25. -/
theorem barriersCountTheirArrivals : Obligations.BarriersCountTheirArrivals := by
  have scalar {r : Row} (hr : r.Scalar) (h : Head) := hr.unbound h
  refine ⟨⟨fun h s hb => ?_, fun h s hb => ?_⟩, fun h s => ?_⟩
  · intro lv f u count close
    refine ⟨fun hw => ⟨fun hi => ?_, fun hk hi => ?_, fun hi => ?_⟩, fun w hw => ?_, fun w hw hk hd hi => ?_, fun hk hi => ?_⟩
    · rw [execBar_level hb]
      exact runHead_ok hi (scalar (by decide) h) (barLevel_alone hw)
    · rw [execBarwt_level hb]
      exact runHead_ok hi (scalar (by decide) h) (barwtLevel_alone hw hk)
    · rw [execBarin_level hb]
      exact runHead_ok hi (scalar (by decide) h) (barinLevel_alone hw)
    · intro scope s1 k arrived hgrant hr
      have hs1 : s1 = s := releaseBegin_of_lt (rangeScope_lt _) s
      have hk : k = SMap.get 0 (firOf s s.cur).arrivals lv + 1 := by simp only [k, hs1]
      have harr : arrived = barArrived s w lv := by
        rw [barArrived_eq]
        simp only [arrived, k, hs1]
        rfl
      have hdone : barDone arrived w lv k (firOf arrived arrived.cur) =
          barDone (barArrived s w lv) w lv (SMap.get 0 (firOf s s.cur).arrivals lv + 1) (firOf s s.cur) := by
        rw [harr, hk, barArrived_cur, barDone_congr (wid_barArrived w)]
      rw [hs1] at hr
      refine ⟨fun hd hi => ?_, fun hd hi => ?_, fun hi => ?_⟩
      · rw [execBar_level hb, harr]
        exact runHead_ok hi (scalar (by decide) h) (barLevel_done hw hgrant hr (hdone ▸ hd))
      · rw [execBar_level hb, harr, hk]
        exact runHead_waits hi (by decide) (confirmed_of_ends hi (by decide)) (scalar (by decide) h)
          (barLevel_waits hw hgrant hr (hdone ▸ hd))
      · rw [execBarin_level hb, harr, hk, barArrived_cur]
        exact runHead_ok hi (scalar (by decide) h) (barinLevel_sweep hw hr)
    · rw [execBarwt_level hb]
      exact runHead_ok hi (scalar (by decide) h) (barwtLevel_sweep hw hk hd)
    · rw [execBarwt_level hb]
      exact runHead_trap hi (scalar (by decide) h) (barwtLevel_unopened hk)
  · intro scope i s1 e arrived k u
    refine ⟨fun hv hr hst => ⟨fun hw hi => ?_, fun hi => ?_⟩, fun ep hv hw hlt hover hi => ?_, fun hv hk hover hi => ?_,
      fun hv => ⟨fun hi => ?_, fun hi => ?_, fun hi => ?_⟩⟩
    · rw [execBar_dom hb]
      exact runHead_waits hi (by decide) (confirmed_of_ends hi (by decide)) (scalar (by decide) h) (barDom_waits hv hr hst hw)
    · rw [execBarin_dom hb]
      exact runHead_ok hi (scalar (by decide) h) (barinDom_ok hv hr hst)
    · rw [execBar_dom hb]
      exact runHead_ok hi (scalar (by decide) h) (barDom_over hv hw hlt hover)
    · rw [execBarwt_dom hb]
      exact runHead_ok hi (scalar (by decide) h) (barwtDom_over hv hk hover)
    · rw [execBar_dom hb]
      exact runHead_trap hi (scalar (by decide) h) (X.bind_error (domIndex_invalid hv))
    · rw [execBarin_dom hb]
      exact runHead_trap hi (scalar (by decide) h) (X.bind_error (domIndex_invalid hv))
    · rw [execBarwt_dom hb]
      exact runHead_trap hi (scalar (by decide) h) (X.bind_error (domIndex_invalid hv))
  · intro core strip s1 uB a1 a2 max
    refine ⟨fun hg => ⟨execGang_alone hg, execBarmax_alone hg⟩, fun hg hgr hr => ⟨fun hi hl => ?_, fun hi hl => ?_, fun hi hl => ?_⟩,
      fun hg hgr hw hi => execGang_granted hg hi hgr hw⟩
    · exact execGang_last hg hgr hr hi hl
    · exact execGang_waits hg hgr hr hi hl
    · exact execBarmax_last hg hgr hr hi hl

end Sys2Proof
end

section
set_option Elab.async false
/-! What sending packets leaves alone: everything but the fabric and the Prisms (R41, R248, R266). -/

namespace Sys2Proof.Machine

/-- Nothing but the fabric and the Prisms differs. -/
def SendsOnly (s t : State) : Prop := t = { s with fab := t.fab, prisms := t.prisms }

theorem SendsOnly.refl (s : State) : SendsOnly s s := rfl
theorem SendsOnly.trans {s t u : State} (h : SendsOnly s t) (k : SendsOnly t u) : SendsOnly s u := by
  unfold SendsOnly at *
  rw [k, h]
theorem SendsOnly.foldl {α : Type} {f : State → α → State} (h : ∀ s x, SendsOnly s (f s x)) (l : List α) (s : State) :
    SendsOnly s (l.foldl f s) := by
  induction l generalizing s with
  | nil => exact .refl s
  | cons x l ih => exact (h s x).trans (ih _)
theorem SendsOnly.modFab (f : FabSt → FabSt) (s : State) : SendsOnly s (modFab f s) := rfl
theorem SendsOnly.modPrism (p : Nat) (f : PrismSt → PrismSt) (s : State) : SendsOnly s (modPrism p f s) := rfl

section
variable {s t : State} (h : SendsOnly s t)
include h

theorem SendsOnly.cur : t.cur = s.cur := by rw [h]
theorem SendsOnly.ctxs : t.ctxs = s.ctxs := by rw [h]
theorem SendsOnly.cores : t.cores = s.cores := by rw [h]
theorem SendsOnly.ms : t.ms = s.ms := by rw [h]
theorem SendsOnly.host : t.host = s.host := by rw [h]

end

/-! ### Packets -/

theorem wire_sends (port : Nat) (p : Packet) (s : State) : SendsOnly s (wire port p s) := by
  unfold wire; dsimp only; split <;> rfl
theorem sendOut_sends (s : State) (e : OutPkt) : SendsOnly s (sendOut s e) := by
  unfold sendOut; dsimp only; split
  · rfl
  · split
    · exact .trans (.modFab _ _) (wire_sends ..)
    · rfl
theorem outPump_sends (s : State) : SendsOnly s (outPump s) := .trans (.modFab _ s) (.foldl sendOut_sends ..)
theorem transmit_sends (port : Nat) (p : Packet) (s : State) : SendsOnly s (transmit port p s) := by
  unfold transmit; split
  · rfl
  · exact .trans (.modFab _ s) (outPump_sends _)
theorem sendHeld_sends (dest w : Nat) (rp : Bool) (h : HeldPkt) (s : State) : SendsOnly s (sendHeld dest w rp h s) := by
  unfold sendHeld; dsimp only; split
  · rfl
  · exact transmit_sends ..
theorem windowPump_sends (dest w n : Nat) (s : State) : SendsOnly s (windowPump dest w n s) := by
  induction n generalizing s with
  | zero => rfl
  | succ n ih =>
    unfold windowPump; dsimp only; split
    · rfl
    · split
      · rfl
      · exact .trans (.trans (.modFab _ _) (sendHeld_sends ..)) (ih _)
theorem sendSeqQ_sends (hd : Hdr) (data : List (BitVec 512)) (cid : Option (Nat × Nat)) (wants : Bool) (quiet : Option Cap)
    (s : State) : SendsOnly s (sendSeqQ hd data cid wants quiet s) := .trans (.modFab _ _) (windowPump_sends ..)
theorem sendSeq_sends (hd : Hdr) (data : List (BitVec 512)) (cid : Option (Nat × Nat)) (wants : Bool) (s : State) :
    SendsOnly s (sendSeq hd data cid wants s) := sendSeqQ_sends ..

/-! ### The start of a release -/

theorem postReq_sends (p : Nat) (m : PMsg) (s : State) : SendsOnly s (postReq p m s) := by
  unfold postReq; split <;> rfl
theorem flushPartials_sends (s : State) : SendsOnly s (flushPartials s) := by
  refine .foldl (fun s p => ?_) ..
  split
  · rfl
  · refine .foldl (fun s e => ?_) ..
    split
    · exact .trans (.modPrism ..) (sendSeq_sends ..)
    · rfl
theorem sendPushrels_sends (who : Nat) (s : State) : SendsOnly s (sendPushrels who s) := by
  refine .foldl (fun s p => ?_) ..
  refine .trans (.modPrism ..) (.foldl (fun s b => ?_) ..)
  split
  · exact sendSeq_sends ..
  · rfl
theorem SendsOnly.foldl_snd {α β : Type} {f : β × State → α → β × State} (h : ∀ a x, SendsOnly a.2 (f a x).2) (l : List α)
    (a : β × State) : SendsOnly a.2 (l.foldl f a).2 := by
  induction l generalizing a with
  | nil => rfl
  | cons x l ih => exact (h a x).trans (ih _)
theorem postPushrels_sends (cid : Nat) (homes : List Nat) (s : State) : SendsOnly s (postPushrels cid homes s).2 := by
  refine SendsOnly.foldl_snd (fun a b => ?_) homes ([], s)
  obtain ⟨left, t⟩ := a
  dsimp only
  split
  · rfl
  · exact postReq_sends ..

/-! ### The firings of the contexts -/

/-- The turn and every context's firing are the same. -/
def SameFirings (s t : State) : Prop := t.cur = s.cur ∧ ∀ c, firOf t c = firOf s c

theorem SameFirings.refl (s : State) : SameFirings s s := ⟨rfl, fun _ => rfl⟩
theorem SameFirings.trans {s t u : State} (h : SameFirings s t) (k : SameFirings t u) : SameFirings s u :=
  ⟨k.1.trans h.1, fun c => (k.2 c).trans (h.2 c)⟩
theorem SendsOnly.sameFirings {s t : State} (h : SendsOnly s t) : SameFirings s t := ⟨h.cur, firOf_congr h.ctxs⟩
theorem sameFirings_modHere {f : Ctx → Ctx} (hf : ∀ x, (f x).fir = x.fir) (s : State) : SameFirings s (modHere f s) := by
  refine ⟨rfl, fun c => ?_⟩
  unfold firOf
  by_cases hc : c = s.cur
  · subst hc
    rw [show ctxOf (modHere f s) s.cur = f (ctxOf s s.cur) from ctxOf_modCtx .., hf]
  · rw [show ctxOf (modHere f s) c = ctxOf s c from ctxOf_modCtx_ne _ _ hc]
theorem sameFirings_modCore (k : Nat) (f : CoreSt → CoreSt) (s : State) : SameFirings s (modCore k f s) := ⟨rfl, fun _ => rfl⟩

/-- The parts of the start of a release: the open partial entries go out, then the PUSHRELs once the stores are done. -/
def relOpened (s : State) : State :=
  if (here s).relBegun then s else modHere (fun x => { x with relBegun := true, relSent := false }) (flushPartials s)
def relPushed (c : Nat) (s : State) : State :=
  modHere (fun x => { x with relSent := true, relPush := x.relPush ++ if isThread c then [] else (coreOf s (coreNo c)).pushed })
    (sendPushrels c (if isThread c then s else modCore (coreNo c) (fun k => { k with pushed := [] }) s))
def relPublished (c : Nat) (s : State) : State := if (here s).relSent || !storesDone s c then s else relPushed c s

theorem releaseBegin_eq {scope : Nat} (h : ¬ scope < 4) (s : State) :
    releaseBegin scope s = modHere (fun x => { x with
      relPush := (postPushrels s.cur (here (relPublished s.cur (relOpened s))).relPush (relPublished s.cur (relOpened s))).1 })
        (postPushrels s.cur (here (relPublished s.cur (relOpened s))).relPush (relPublished s.cur (relOpened s))).2 := if_neg h

theorem relOpened_sameFirings (s : State) : SameFirings s (relOpened s) := by
  unfold relOpened
  split
  · exact .refl s
  · exact (flushPartials_sends s).sameFirings.trans (sameFirings_modHere (fun _ => by rfl) _)
theorem relPublished_sameFirings (c : Nat) (s : State) : SameFirings s (relPublished c s) := by
  unfold relPublished
  split
  · exact .refl s
  · unfold relPushed
    refine .trans ?_ ((sendPushrels_sends ..).sameFirings.trans (sameFirings_modHere (fun _ => by rfl) _))
    split
    · exact .refl s
    · exact sameFirings_modCore ..

/-- A release changes only its own marks in the context that performs it. -/
theorem releaseBegin_sameFirings (scope : Nat) (s : State) : SameFirings s (releaseBegin scope s) := by
  by_cases h : scope < 4
  · rw [releaseBegin_of_lt h]
    exact .refl s
  · rw [releaseBegin_eq h]
    exact (relOpened_sameFirings s).trans ((relPublished_sameFirings ..).trans
      ((postPushrels_sends ..).sameFirings.trans (sameFirings_modHere (fun _ => by rfl) _)))

end Sys2Proof.Machine
end

section
set_option Elab.async false
/-! Messages (R413 to R417). -/

namespace Sys2Proof.Machine

/-- The scope of a message's release (R414). -/
def targetScope : Target → Nat
  | .core _ => 3
  | .device _ _ _ => 4
/-- The registers that a SEND reads. -/
def sendRegs (h : Head) : List Nat := (List.range (h.im 3 0)).map fun k => h.d.toNat + k
/-- The message of a SEND without a quiet return. -/
def sentMsg (h : Head) (form : Nat) (word : W64) (f : Firing) (s : State) : Msg :=
  { line := CapF.addr (gA s h), target := word, sender := f.handle, asid := (here s).asid,
    payload := ((sendRegs h).map fun k => readG (here s) k) ++ List.replicate (8 - h.im 3 0) Cap.null,
    reply := decide (form = 2), quiet := none, fn := f.fn, queue := f.queue }

theorem sendHead_ok {r : Row} {h : Head} {form : Nat} {s : State} {t : Target} {word : W64} (hq : h.im 4 4 = 0)
    (hi : Issues s r { rg := [h.a.toNat, h.b.toNat] ++ sendRegs h })
    (hc : CheckPasses s (gA s h) (CapF.addr (gA s h)) 64 CapF.EXE 64) (ht : sendTarget h form s = .ok (t, word) s)
    (hroom : outboundHeld s (coreNo s.cur) < 16)
    (hr : releaseReady (releaseBegin (targetScope t) s) (releaseBegin (targetScope t) s).cur (targetScope t) = true) :
    sendHead r h form s = .next (advance h { rg := [h.a.toNat, h.b.toNat] ++ sendRegs h } .seq
      (postMsg t (sentMsg h form word (firOf s s.cur) s) (releaseBegin (targetScope t) s))) := by
  refine runHead_ok hi (fun x => unbound_nil rfl) ?_
  rw [X.bind_ok (X.get_apply s), X.bind_ok (check_ok hc), X.bind_ok ht]
  simp only [hq, show ((0 : Nat) == 1) = false from rfl, Bool.false_eq_true, ↓reduceIte]
  rw [X.bind_ok (X.get_apply s), X.bind_ok (X.ensure_of (by simpa using hroom) ..)]
  cases t with
  | core k => exact X.bind_ok (release_ok hr)
  | device d op off => exact X.bind_ok (release_ok hr)

theorem nput_ok {h : Head} {s : State} (h3 : h.im 3 3 = 0) (hi : Issues s Rows.nput { rg := [h.b.toNat, h.a.toNat] })
    (hr : releaseReady s s.cur 1 = true) (hdev : handleDev ((gB s h).val.toNat % 2 ^ 37) = s.dev)
    (hnb : neighbour (coreNo s.cur) (h.im 1 0) = some (handleCore ((gB s h).val.toNat % 2 ^ 37))) :
    exec (.nput h) s = .next (advance h { rg := [h.b.toNat, h.a.toNat] } .seq
      (postNet (.nwrite (handleCid ((gB s h).val.toNat % 2 ^ 37)) ((gB s h).val.toNat % 2 ^ 37) false h.d.toNat (gA s h) 0
        (firOf s s.cur).handle) s)) := by
  have hv : (h.im 3 3 == 1) = false := by simp [h3]
  rw [exec_nput, execNput, hv]
  refine runHead_ok hi (fun x => unbound_nil rfl) ?_
  rw [X.bind_ok (X.get_apply s), X.bind_ok (release_ok_of_lt (by omega) hr), X.bind_ok (X.get_apply s)]
  simp only [hdev, hnb, beq_self_eq_true, Bool.and_self, ↓reduceIte]
  rfl

theorem nputArm_ok {h : Head} {s : State} (hi : Issues s Rows.nputArm (if h.im 3 3 == 1 then { nv := [h.d.toNat] } else { ng := [h.d.toNat] }))
    (hp : (here s).pend.any (pendIn (h.im 3 3 == 1) h.d.toNat (h.d.toNat + 1)) = false) :
    exec (.nputArm h) s = .next (advance h (if h.im 3 3 == 1 then { nv := [h.d.toNat] } else { ng := [h.d.toNat] }) .seq
      (modHere (armReg (h.im 3 3 == 1) h.d.toNat) s)) := by
  rw [exec_nputArm]
  refine runHead_ok hi (fun x => unbound_nil (by split <;> rfl)) ?_
  rw [X.bind_ok (X.get_apply s), hp]
  rfl

theorem push_ok {h : Head} {s t : State} {b x : Nat} {spans : List Span} (hi : Issues s Rows.push (Use.ofRow Rows.push h))
    (hb : bindingOf (firOf s s.cur) = some b) (hb16 : b < 16)
    (hfifo : fifoUsed ((firOf s s.cur).actor.outs.getD h.d.toNat 0) = true)
    (hbytes : (gB s h).val.toNat ∈ [8, 16, 32, 64, 128, 256, 512]) (hcred : 1 ≤ credOf s (coreNo s.cur) b h.d.toNat)
    (ha : Accessible s (gA s h) (CapF.addr (gA s h)) (gB s h).val.toNat CapF.LD 8 kRead false spans)
    (hr : releaseReady s s.cur 3 = true) (hread : readSpans spans s = .ok x t) :
    exec (.push h) s = .next (advance h (Use.ofRow Rows.push h) .seq
      (postNet (.fifo (coreNo s.cur) (fifoCore ((firOf s s.cur).actor.outs.getD h.d.toNat 0))
        (fifoNum ((firOf s s.cur).actor.outs.getD h.d.toNat 0)) (leBytes (gB s h).val.toNat x)
        ((firOf s s.cur).fn, (firOf s s.cur).queue))
        (setCred (coreNo s.cur) b h.d.toNat (credOf s (coreNo s.cur) b h.d.toNat - 1) t))) := by
  rw [exec_push]
  refine runHead_ok hi (Row.Scalar.unbound (by decide) h) ?_
  rw [X.bind_ok (X.get_apply s), hb]
  simp only [Option.getD_some, hb16, hfifo, hbytes, hcred, decide_true, Bool.and_self, Bool.not_true, Bool.false_eq_true, ↓reduceIte]
  rw [X.bind_ok (access_ok ha), X.bind_ok (release_ok_of_lt (by omega) hr), X.bind_ok hread]
  rfl

/-- The bytes that CONSUME takes. -/
def consumed (s : State) (h : Head) : Nat := if h.form == .T2 then h.im 15 0 else (gB s h).val.toNat

theorem consume_ok {h : Head} {s : State} (hi : Issues s Rows.consume (Use.ofRow Rows.consume h))
    (hb : (bindingOf (firOf s s.cur)).isSome = true) (hfifo : fifoUsed ((firOf s s.cur).actor.ins.getD h.d.toNat 0) = true)
    (hle : consumed s h ≤ fifoCnt (fifoOf s (coreNo s.cur) (fifoNum ((firOf s s.cur).actor.ins.getD h.d.toNat 0))))
    (hr : releaseReady s s.cur 3 = true) :
    let i := fifoNum ((firOf s s.cur).actor.ins.getD h.d.toNat 0)
    let e := fifoOf s (coreNo s.cur) i
    exec (.consume h) s = .next (advance h (Use.ofRow Rows.consume h) .seq (postNet (.credit (fifoPcore e) (coreNo s.cur) i (consumed s h))
      (setFifo (coreNo s.cur) i (fifoWith e (fifoCnt e - consumed s h) ((fifoHead e + consumed s h) % fifoCap e) (fifoTail e)) s))) := by
  unfold consumed at *
  intro i e
  rw [exec_consume]
  refine runHead_ok hi (Row.Scalar.unbound (by decide) h) ?_
  rw [X.bind_ok (X.get_apply s)]
  simp only [hb, hfifo, hle, decide_true, Bool.and_self, Bool.not_true, Bool.false_eq_true, ↓reduceIte]
  rw [X.bind_ok (release_ok_of_lt (by omega) hr)]
  rfl

end Sys2Proof.Machine

namespace Sys2Proof
open Machine

/-- Settles O26. -/
theorem messageHeadsPostTheirMessage : Obligations.MessageHeadsPostTheirMessage := by
  intro h s f core n regs uS sends
  have key (mk : Head → Instr) (r : Row) (form : Nat) (he : exec (mk h) s = sendHead r h form s) : sends mk r form := by
    intro t word hq hi hc ht hroom scope s1 g hr
    have hfir : g = firOf s s.cur := by
      have := releaseBegin_sameFirings scope s
      exact (congrArg (firOf s1) this.1).trans (this.2 s.cur)
    have hscope : scope = targetScope t := by cases t <;> rfl
    rw [he, hfir]
    simp only [s1, hscope] at hr ⊢
    exact sendHead_ok hq hi hc ht hroom hr
  refine ⟨key .send _ 0 (exec_send h s), key .sendC _ 1 (exec_sendC h s), key .sendR _ 2 (exec_sendR h s), fun word => ?_, ?_,
    fun b spans x t => ?_, ?_⟩
  · intro s1 uN h3 hword hi hr hdev hnb
    have hs1 : s1 = s := releaseBegin_of_lt (by omega) s
    rw [hs1] at hr hdev hnb ⊢
    subst hword
    exact nput_ok h3 hi hr hdev hnb
  · exact fun hi hp => nputArm_ok hi hp
  · intro k c out bytes s1 u hi hb hb16 hfifo hbytes hcred ha hr hread
    have hs1 : s1 = s := releaseBegin_of_lt (by omega) s
    rw [hs1] at hr hread
    exact push_ok hi hb hb16 hfifo hbytes hcred ha hr hread
  · intro inp bytes e s1 u hi hb hfifo hle hr
    have hs1 : s1 = s := releaseBegin_of_lt (by omega) s
    rw [hs1] at hr ⊢
    exact consume_ok hi hb hfifo hle hr

end Sys2Proof
end

section
set_option Elab.async false
/-! Elements of a vector register, and the heads that work element by element (R420 to R424). -/

namespace Sys2Proof.Machine

/-! ### Elements of a register (R339) -/

theorem elemsOf_length (w : Nat) (v : VReg) : (elemsOf w v).length = 1024 / w := by simp [elemsOf]
theorem elemsOf_lt {w : Nat} {v : VReg} {x : Nat} (h : x ∈ elemsOf w v) : x < 2 ^ w := by
  obtain ⟨e, -, rfl⟩ := List.mem_map.mp h
  exact Nat.mod_lt _ (Nat.two_pow_pos w)
theorem elemsOf_getD {w e : Nat} (v : VReg) (he : e < 1024 / w) : (elemsOf w v).getD e 0 = v.toNat / 2 ^ (w * e) % 2 ^ w := by
  simp [elemsOf, he]

theorem vecB_length (s : State) (h : Head) (w : Nat) : (vecB s h w).length = 1024 / w := by
  unfold vecB; split <;> simp [elemsOf_length]
theorem vecB_lt {s : State} {h : Head} {w x : Nat} (hx : x ∈ vecB s h w) : x < 2 ^ w := by
  unfold vecB at hx
  split at hx
  · obtain ⟨e, -, rfl⟩ := List.mem_map.mp hx
    exact Nat.mod_lt _ (Nat.two_pow_pos w)
  · exact elemsOf_lt hx

/-- A field of a number does not see what is cut off above it. -/
theorem field_mod_two_pow {n a c : Nat} (N : Nat) (h : a + c ≤ n) : N % 2 ^ n / 2 ^ a % 2 ^ c = N / 2 ^ a % 2 ^ c := by
  apply Nat.eq_of_testBit_eq
  intro i
  simp only [Nat.testBit_mod_two_pow, Nat.testBit_div_two_pow]
  by_cases hi : i < c
  · simp [hi, show i + a < n by omega]
  · simp [hi]

/-- Element `e` of a list put together lowest first. -/
theorem foldr_digit (w : Nat) (xs : List Nat) (e : Nat) :
    xs.foldr (fun x acc => x % 2 ^ w + 2 ^ w * acc) 0 / 2 ^ (w * e) % 2 ^ w = xs.getD e 0 % 2 ^ w := by
  induction xs generalizing e with
  | nil => simp
  | cons x xs ih =>
    cases e with
    | zero => simp
    | succ e =>
      rw [List.foldr_cons, List.getD_cons_succ, ← ih e, show w * (e + 1) = w + w * e by ring, pow_add, ← Nat.div_div_eq_div_mul,
        Nat.add_mul_div_left _ _ (Nat.two_pow_pos w), Nat.div_eq_of_lt (Nat.mod_lt _ (Nat.two_pow_pos w)), Nat.zero_add]

theorem elemsOf_ofElems {w e : Nat} (hw : w ∣ 1024) (xs : List Nat) (he : e < 1024 / w) :
    (elemsOf w (ofElems w xs)).getD e 0 = xs.getD e 0 % 2 ^ w := by
  have hfit : w * e + w ≤ 1024 := by
    obtain ⟨k, hk⟩ := hw
    rcases Nat.eq_zero_or_pos w with rfl | hpos
    · simp at hk
    · rw [hk, Nat.mul_div_cancel_left k hpos] at he
      calc w * e + w = w * (e + 1) := by ring
        _ ≤ w * k := Nat.mul_le_mul_left w he
        _ = 1024 := hk.symm
  rw [elemsOf_getD _ he, ofElems, BitVec.toNat_ofNat, field_mod_two_pow _ hfit, foldr_digit]

theorem maskedElems_getD {s : State} {h : Head} {w : Nat} {xs : List Nat} {e : Nat} (hx : xs.length = 1024 / w) (he : e < 1024 / w) :
    (maskedElems s h w xs).getD e 0 = if laneActive s h (laneOf w e) then xs.getD e 0
      else if h.im 4 4 == 1 then 0 else (elemsOf w (readV (here s) h.d.toNat)).getD e 0 := by
  have hd := elemsOf_length w (readV (here s) h.d.toNat)
  simp [maskedElems, hx, hd, he, List.getD_eq_getElem?_getD]

/-- What a masked write leaves in an element (R420). -/
theorem elemsOf_masked {s : State} {h : Head} {w : Nat} {xs : List Nat} {e : Nat} (hw : w ∣ 1024) (hx : xs.length = 1024 / w)
    (he : e < 1024 / w) : (elemsOf w (ofElems w (maskedElems s h w xs))).getD e 0 =
      if laneActive s h (w * e / 32) then xs.getD e 0 % 2 ^ w
      else if h.im 4 4 = 1 then 0 else (elemsOf w (readV (here s) h.d.toNat)).getD e 0 := by
  rw [elemsOf_ofElems hw _ he, maskedElems_getD hx he]
  have hlt : (elemsOf w (readV (here s) h.d.toNat)).getD e 0 < 2 ^ w := by
    rw [elemsOf_getD _ he]
    exact Nat.mod_lt _ (Nat.two_pow_pos w)
  simp only [laneOf, beq_iff_eq]
  split
  · rfl
  · split
    · exact Nat.zero_mod _
    · exact Nat.mod_eq_of_lt hlt

/-! ### Heads that write a vector register -/

/-- A stream binding lies in the cores. -/
theorem Unbound.congr {s t : State} {u : Use} (h : Unbound s u) (hcur : t.cur = s.cur) (hcores : t.cores = s.cores) :
    Unbound t u := by
  intro v hv
  have := h v hv
  unfold unitOf coreOf at *
  rw [hcur, hcores]
  exact this

@[simp] theorem withFlags_cur (g : FFlags) (s : State) : (withFlags g s).cur = s.cur := by unfold withFlags; split <;> rfl
@[simp] theorem withFlags_cores (g : FFlags) (s : State) : (withFlags g s).cores = s.cores := by unfold withFlags; split <;> rfl

theorem putElems_apply (h : Head) (w : Nat) (xs : List Nat) (s : State) :
    putElems h w xs s = .ok () (withV h (ofElems w (maskedElems s h w xs)) s) := rfl
theorem flags_apply (g : FFlags) (s : State) : flags g s = .ok () (withFlags g s) := rfl

/-- A head that writes vD and raises flags completes. -/
theorem runHead_vector {r : Row} {h : Head} {u : Use} {body : X Next} {s : State} {v : VReg} {g : FFlags} (hi : Issues s r u)
    (hu : Unbound s u) (hb : body s = .ok .seq (withFlags g (withV h v s))) :
    runHead r h u body s = .next (advance h u .seq (withFlags g (withV h v s))) :=
  runHead_completes hi hu hb (by simp) (hu.congr (by simp [withV]) (by simp [withV]))
theorem runHead_vector_quiet {r : Row} {h : Head} {u : Use} {body : X Next} {s : State} {v : VReg} (hi : Issues s r u)
    (hu : Unbound s u) (hb : body s = .ok .seq (withV h v s)) :
    runHead r h u body s = .next (advance h u .seq (withV h v s)) :=
  runHead_completes hi hu hb (by simp) (hu.congr rfl rfl)

/-- The registers of an element-wise head. -/
def vecUse (r : Row) (h : Head) (readsD : Bool) : Use :=
  if readsD then ((Use.ofRow r h).vecB h).readD else ((Use.ofRow r h).vecB h).merged h
/-- The results of an element-wise head. -/
def vecResults (s : State) (h : Head) (w : Nat) (f : Nat → Nat → Nat → Nat × FFlags) : List (Nat × FFlags) :=
  ((elemsOf w (readV (here s) h.a.toNat)).zip ((vecB s h w).zip (elemsOf w (readV (here s) h.d.toNat)))).map fun (x, y, z) => f x y z

/-- Only the operation's results on elements of the width matter. -/
theorem vecResults_congr {s : State} {h : Head} {w : Nat} {f g : Nat → Nat → Nat → Nat × FFlags}
    (hfg : ∀ x y z, x < 2 ^ w → y < 2 ^ w → f x y z = g x y z) : vecResults s h w f = vecResults s h w g := by
  refine List.map_congr_left fun p hp => ?_
  obtain ⟨x, y, z⟩ := p
  obtain ⟨hx, hyz⟩ := List.of_mem_zip hp
  exact hfg x y z (elemsOf_lt hx) (vecB_lt (List.of_mem_zip hyz).1)

theorem vecHead_ok {r : Row} {h : Head} {t : Nat} {readsD : Bool} {f g : Nat → Nat → Nat → Nat × FFlags} {s : State}
    (hfg : ∀ x y z, x < 2 ^ tyBits t → y < 2 ^ tyBits t → f x y z = g x y z)
    (hi : Issues s r (vecUse r h readsD)) (hu : Unbound s (vecUse r h readsD)) :
    vecHead r h t readsD f s = .next (advance h (vecUse r h readsD) .seq
      (withFlags (activeFlags s h (tyBits t) (vecResults s h (tyBits t) g))
        (withV h (ofElems (tyBits t) (maskedElems s h (tyBits t) ((vecResults s h (tyBits t) g).map (·.1)))) s))) := by
  rw [← vecResults_congr hfg]
  exact runHead_vector hi hu rfl

/-! ### The operations (R422 to R424) -/

theorem tyFloat_iff (t : Nat) : tyFloat t = true ↔ t ≤ 2 := by simp [tyFloat]

theorem tyBits_cases (t : Nat) : tyBits t = 16 ∨ tyBits t = 32 := by
  unfold tyBits; split <;> simp
theorem tyBits_pos (t : Nat) : 0 < tyBits t := by rcases tyBits_cases t with h | h <;> omega

theorem vecLogic_and {x y : Nat} (hx : x < 2 ^ 32) (hy : y < 2 ^ 32) :
    Nat.land x y = (BitVec.ofNat 32 x &&& BitVec.ofNat 32 y).toNat := by
  rw [BitVec.toNat_and, BitVec.toNat_ofNat, BitVec.toNat_ofNat, Nat.mod_eq_of_lt hx, Nat.mod_eq_of_lt hy]; rfl
theorem vecLogic_or {x y : Nat} (hx : x < 2 ^ 32) (hy : y < 2 ^ 32) :
    Nat.lor x y = (BitVec.ofNat 32 x ||| BitVec.ofNat 32 y).toNat := by
  rw [BitVec.toNat_or, BitVec.toNat_ofNat, BitVec.toNat_ofNat, Nat.mod_eq_of_lt hx, Nat.mod_eq_of_lt hy]; rfl
theorem vecLogic_xor {x y : Nat} (hx : x < 2 ^ 32) (hy : y < 2 ^ 32) :
    Nat.xor x y = (BitVec.ofNat 32 x ^^^ BitVec.ofNat 32 y).toNat := by
  rw [BitVec.toNat_xor, BitVec.toNat_ofNat, BitVec.toNat_ofNat, Nat.mod_eq_of_lt hx, Nat.mod_eq_of_lt hy]; rfl
theorem vecLogic_andn {x y : Nat} (hx : x < 2 ^ 32) (hy : y < 2 ^ 32) :
    Nat.land x (2 ^ 32 - 1 - y) = (BitVec.ofNat 32 x &&& ~~~(BitVec.ofNat 32 y)).toNat := by
  rw [BitVec.toNat_and, BitVec.toNat_not, BitVec.toNat_ofNat, BitVec.toNat_ofNat, Nat.mod_eq_of_lt hx, Nat.mod_eq_of_lt hy]; rfl

section
variable {w x : Nat} (n : Nat)

theorem vecShift_left : x * 2 ^ n % 2 ^ w = (BitVec.ofNat w x <<< n).toNat := by
  rw [BitVec.toNat_shiftLeft, BitVec.toNat_ofNat, Nat.shiftLeft_eq, Nat.mod_mul_mod]
theorem vecShift_right (hx : x < 2 ^ w) : x / 2 ^ n % 2 ^ w = (BitVec.ofNat w x >>> n).toNat := by
  rw [BitVec.toNat_ushiftRight, BitVec.toNat_ofNat, Nat.mod_eq_of_lt hx, Nat.shiftRight_eq_div_pow,
    Nat.mod_eq_of_lt (Nat.lt_of_le_of_lt (Nat.div_le_self ..) hx)]
theorem vecShift_arith (hw : 0 < w) :
    (signedOf w x / (2 ^ n : Nat) % (2 ^ w : Nat)).toNat % 2 ^ w = ((BitVec.ofNat w x).sshiftRight n).toNat := by
  rw [BitVec.sshiftRight, BitVec.toNat_ofInt, ← signedOf_eq_toInt hw, Int.shiftRight_eq_div_pow]
  have hpos : (0 : Int) < (2 ^ w : Nat) := by exact_mod_cast Nat.two_pow_pos w
  generalize signedOf w x / (2 ^ n : Nat) = a
  have hlt := Int.emod_lt_of_pos a hpos
  have hnn := Int.emod_nonneg a hpos.ne'
  exact Nat.mod_eq_of_lt (by omega)

end

/-- A float operation rounded once, or an integer one that wraps, as words of the element's width. -/
theorem arith_eq (t : Nat) (fl : Val → Val → Val → Val × FFlags) (int : Int → Int → Int → Int) (x y z : Nat) :
    arith t fl int x y z =
      if t ≤ 2 then
        let v := fl (decodeIeee (tyIeee t) x) (decodeIeee (tyIeee t) y) (decodeIeee (tyIeee t) z)
        ((roundIeee (tyIeee t) v.1).1, v.2 ||| (roundIeee (tyIeee t) v.1).2)
      else ((BitVec.ofInt (tyBits t) (int (signedOf (tyBits t) x) (signedOf (tyBits t) y) (signedOf (tyBits t) z))).toNat, 0) := by
  simp only [arith, tyFloat, decide_eq_true_eq, BitVec.toNat_ofInt]

/-- Operand b of a shift, and the registers that it reads. -/
def shiftAmounts (s : State) (h : Head) (w : Nat) : List Nat :=
  if h.im 14 14 == 1 then (elemsOf w (readV (here s) h.a.toNat)).map fun _ => h.im 13 9 else vecB s h w
def shiftUse (r : Row) (h : Head) : Use := if h.im 14 14 == 1 then Use.ofRow r h else (Use.ofRow r h).vecB h

theorem vshHead_ok {r : Row} {h : Head} {f : Nat → Nat → Nat → Nat} {g : (w : Nat) → BitVec w → Nat → BitVec w} {s : State}
    (hfg : ∀ w x n, 0 < w → x < 2 ^ w → f w x n % 2 ^ w = (g w (BitVec.ofNat w x) n).toNat)
    (hi : Issues s r ((shiftUse r h).merged h)) (hu : Unbound s ((shiftUse r h).merged h)) :
    let w := tyBits h.f.toNat
    vshHead r h f s = .next (advance h ((shiftUse r h).merged h) .seq (withV h (ofElems w (maskedElems s h w
      (((elemsOf w (readV (here s) h.a.toNat)).zip (shiftAmounts s h w)).map
        fun (x, n) => (g w (BitVec.ofNat w x) (n % w)).toNat))) s)) := by
  intro w
  have hmap : ((elemsOf w (readV (here s) h.a.toNat)).zip (shiftAmounts s h w)).map (fun (x, n) => f w x (n % w) % 2 ^ w) =
      ((elemsOf w (readV (here s) h.a.toNat)).zip (shiftAmounts s h w)).map fun (x, n) => (g w (BitVec.ofNat w x) (n % w)).toNat := by
    refine List.map_congr_left fun p hp => ?_
    obtain ⟨x, n⟩ := p
    exact hfg w x (n % w) (tyBits_pos _) (elemsOf_lt (List.of_mem_zip hp).1)
  rw [← hmap]
  exact runHead_vector_quiet hi hu rfl

end Sys2Proof.Machine

namespace Sys2Proof
open Machine

/-- Settles O27. -/
theorem vectorHeadsComputeEachElement : Obligations.VectorHeadsComputeEachElement := by
  unfold Obligations.VectorHeadsComputeEachElement
  intro lanes elem arithm logic shift
  have arithm_ (mk : Head → Instr) (r : Row) (readsD : Bool) (fl : Val → Val → Val → Val × FFlags) (int : Int → Int → Int → Int)
      (he : ∀ h s, exec (mk h) s = vecHead r h h.f.toNat readsD (arith h.f.toNat fl int) s) : arithm mk r readsD fl int := by
    intro h s u0 u w ys hi hu
    rw [he]
    exact vecHead_ok (readsD := readsD) (g := elem fl int h) (fun x y z _ _ => arith_eq h.f.toNat fl int x y z) hi hu
  have logic_ (mk : Head → Instr) (r : Row) (f : BitVec 32 → BitVec 32 → BitVec 32) (g : Nat → Nat → Nat)
      (hg : ∀ x y, x < 2 ^ 32 → y < 2 ^ 32 → g x y = (f (BitVec.ofNat 32 x) (BitVec.ofNat 32 y)).toNat)
      (he : ∀ h s, exec (mk h) s = vecHead r h 3 false (fun a b _ => (g a b, 0)) s) : logic mk r f := by
    intro h s u0 u w ys hi hu
    rw [he]
    exact vecHead_ok (readsD := false) (g := fun x y _ => ((f (BitVec.ofNat 32 x) (BitVec.ofNat 32 y)).toNat, 0))
      (fun x y z hx hy => by rw [hg x y hx hy]) hi hu
  have shift_ (mk : Head → Instr) (r : Row) (g : (w : Nat) → BitVec w → Nat → BitVec w) (f : Nat → Nat → Nat → Nat)
      (hfg : ∀ w x n, 0 < w → x < 2 ^ w → f w x n % 2 ^ w = (g w (BitVec.ofNat w x) n).toNat)
      (he : ∀ h s, exec (mk h) s = vshHead r h f s) : shift mk r g := by
    intro h s w ia u0 a b hi hu
    rw [he]
    exact vshHead_ok hfg hi hu
  refine ⟨fun s h w xs e hw hx he => elemsOf_masked (by rcases hw with rfl | rfl <;> decide) hx he,
    ?_, ?_, ?_, ?_, ?_, ?_, ?_, ?_, ?_, ?_, ?_, ?_, ?_, ?_⟩
  · exact arithm_ .vadd Rows.vadd false (fun a b _ => addVal a b) (fun a b _ => a + b) exec_vadd
  · exact arithm_ .vsub Rows.vsub false (fun a b _ => addVal a b.neg) (fun a b _ => a - b) exec_vsub
  · exact arithm_ .vmul Rows.vmul false (fun a b _ => mulVal a b) (fun a b _ => a * b) exec_vmul
  · exact arithm_ .vfma Rows.vfma true fmaVal (fun a b d => a * b + d) exec_vfma
  · exact arithm_ .vfms Rows.vfms true (fun a b d => fmaVal a.neg b d) (fun a b d => d - a * b) exec_vfms
  · exact arithm_ .vmin Rows.vmin false (fun a b _ => (minVal a b, 0)) (fun a b _ => if b < a then b else a) exec_vmin
  · exact arithm_ .vmax Rows.vmax false (fun a b _ => (maxVal a b, 0)) (fun a b _ => if a < b then b else a) exec_vmax
  · exact logic_ .vand Rows.vand (fun a b => a &&& b) Nat.land
      (fun _ _ hx hy => vecLogic_and hx hy) exec_vand
  · exact logic_ .vor Rows.vor (fun a b => a ||| b) Nat.lor
      (fun _ _ hx hy => vecLogic_or hx hy) exec_vor
  · exact logic_ .vxor Rows.vxor (fun a b => a ^^^ b) Nat.xor
      (fun _ _ hx hy => vecLogic_xor hx hy) exec_vxor
  · exact logic_ .vandn Rows.vandn (fun a b => a &&& ~~~b) (fun a b => Nat.land a (2 ^ 32 - 1 - b))
      (fun _ _ hx hy => vecLogic_andn hx hy) exec_vandn
  · exact shift_ .vshl Rows.vshl (fun _ x n => x <<< n) (fun _ x n => x * 2 ^ n)
      (fun _ _ n _ _ => vecShift_left n) exec_vshl
  · exact shift_ .vshr Rows.vshr (fun _ x n => x >>> n) (fun _ x n => x / 2 ^ n)
      (fun _ _ n _ hx => vecShift_right n hx) exec_vshr
  · exact shift_ .vsra Rows.vsra (fun _ x n => x.sshiftRight n) (fun w x n => (signedOf w x / (2 ^ n : Nat) % (2 ^ w : Nat)).toNat)
      (fun _ _ n hw _ => vecShift_arith n hw) exec_vsra

end Sys2Proof
end

section
set_option Elab.async false
/-! Compares, masks, selections and lane moves (R425 to R427, R431 to R434). -/

namespace Sys2Proof.Machine

/-! ### Masks -/

/-- A sum of decided powers of two below `2 ^ n` is below `2 ^ n`. -/
theorem sum_powers_lt (f : Nat → Bool) (n : Nat) : ((List.range n).map fun k => if f k then 2 ^ k else 0).sum < 2 ^ n := by
  induction n with
  | zero => simp
  | succ n ih =>
    rw [List.range_succ, List.map_append, List.sum_append, pow_succ]
    simp only [List.map_cons, List.map_nil, List.sum_cons, List.sum_nil]
    split <;> omega

/-- The bits of a number put together from decided powers of two. -/
theorem testBit_sum_powers (f : Nat → Bool) (n k : Nat) :
    (((List.range n).map fun k => if f k then 2 ^ k else 0).sum).testBit k = (decide (k < n) && f k) := by
  induction n with
  | zero => simp
  | succ n ih =>
    have hlt := sum_powers_lt f n
    rw [List.range_succ, List.map_append, List.sum_append]
    simp only [List.map_cons, List.map_nil, List.sum_cons, List.sum_nil, Nat.add_zero]
    rcases Nat.lt_trichotomy k n with hk | rfl | hk
    · split
      · rw [Nat.add_comm, Nat.testBit_two_pow_add_gt hk, ih]; simp [hk, Nat.lt_succ_of_lt hk]
      · rw [Nat.add_zero, ih]; simp [hk, Nat.lt_succ_of_lt hk]
    · split
      · rename_i hf
        rw [Nat.add_comm, Nat.testBit_two_pow_add_eq, Nat.testBit_lt_two_pow hlt]; simp [hf]
      · rename_i hf
        rw [Nat.add_zero, Nat.testBit_lt_two_pow hlt]; simp [hf]
    · have hbig : ((List.range n).map fun k => if f k then 2 ^ k else 0).sum + (if f n then 2 ^ n else 0) < 2 ^ k := by
        have hpow : 2 ^ (n + 1) ≤ 2 ^ k := Nat.pow_le_pow_right (by omega) hk
        rw [pow_succ] at hpow
        split <;> omega
      rw [Nat.testBit_lt_two_pow hbig]
      simp [show ¬k < n + 1 by omega]

theorem getLsbD_maskOf (f : Nat → Bool) {k : Nat} (hk : k < 32) : (maskOf f).getLsbD k = f k := by
  rw [maskOf, BitVec.getLsbD_ofNat, testBit_sum_powers]
  simp [hk]

theorem lane_toNat (v : VReg) {k : Nat} (hk : k < 32) : (lane v k).toNat = (elemsOf 32 v).getD k 0 := by
  rw [elemsOf_getD _ (by omega)]
  simp [lane, BitVec.extractLsb'_toNat, Nat.shiftRight_eq_div_pow]

theorem setM_apply (r : Nat) (v : BitVec 32) (s : State) : setM r v s = .ok () (modHere (fun x => writeM x r v) s) := rfl

/-- All of a run of a list hold, in terms of the list's places. -/
theorem all_run {p k : Nat} {ok : List Bool} (hp : 0 < p) :
    ((ok.drop (p * k)).take p).all id = true ↔ ∀ e < ok.length, e / p = k → ok.getD e false = true := by
  simp only [List.all_eq_true, List.mem_iff_getElem, List.getElem_take, List.getElem_drop, List.length_take, List.length_drop, id_eq,
    forall_exists_index, List.getD_eq_getElem?_getD]
  constructor
  · rintro h e he rfl
    have hdiv := Nat.div_add_mod e p
    have hmod := Nat.mod_lt e hp
    rw [List.getElem?_eq_getElem he, Option.getD_some]
    exact h _ (e % p) (by omega) (by simp only [hdiv])
  · rintro h x i hi rfl
    have hlt : p * k + i < ok.length := by omega
    have := h (p * k + i) hlt (by rw [Nat.mul_add_div hp, Nat.div_eq_of_lt (by omega), Nat.add_zero])
    rwa [List.getElem?_eq_getElem hlt, Option.getD_some] at this

/-- What each element of a compare gives. -/
def vcmpOk (s : State) (h : Head) : List Bool :=
  ((elemsOf (tyBits (h.im 8 6)) (readV (here s) h.a.toNat)).zip (vecB s h (tyBits (h.im 8 6)))).map
    fun (x, y) => vcmpHolds (h.im 8 6) (h.im 12 9) x y

theorem vcmpOk_length (s : State) (h : Head) : (vcmpOk s h).length = 1024 / tyBits (h.im 8 6) := by
  simp [vcmpOk, elemsOf_length, vecB_length]
theorem vcmpOk_getD {s : State} {h : Head} {e : Nat} (he : e < 1024 / tyBits (h.im 8 6)) : (vcmpOk s h).getD e false =
    vcmpHolds (h.im 8 6) (h.im 12 9) ((elemsOf (tyBits (h.im 8 6)) (readV (here s) h.a.toNat)).getD e 0)
      ((vecB s h (tyBits (h.im 8 6))).getD e 0) := by
  simp [vcmpOk, elemsOf_length, vecB_length, he, List.getD_eq_getElem?_getD]

/-- A lane holds `32 / w` elements. -/
theorem laneOf_eq {w : Nat} (hw : w = 16 ∨ w = 32) (e : Nat) : e / (32 / w) = w * e / 32 := by
  rcases hw with rfl | rfl <;> omega

/-- The mask of a compare. -/
def vcmpMask (s : State) (h : Head) : BitVec 32 :=
  maskOf fun k => laneActive s h k &&
    (((vcmpOk s h).drop (32 / tyBits (h.im 8 6) * k)).take (32 / tyBits (h.im 8 6))).all id

theorem vcmpMask_bit (s : State) (h : Head) {k : Nat} (hk : k < 32) : (vcmpMask s h).getLsbD k =
    (laneActive s h k && decide (∀ e < 1024 / tyBits (h.im 8 6), tyBits (h.im 8 6) * e / 32 = k →
      vcmpHolds (h.im 8 6) (h.im 12 9) ((elemsOf (tyBits (h.im 8 6)) (readV (here s) h.a.toNat)).getD e 0)
        ((vecB s h (tyBits (h.im 8 6))).getD e 0) = true)) := by
  have hw := tyBits_cases (h.im 8 6)
  rw [vcmpMask, getLsbD_maskOf _ hk]
  congr 1
  rw [Bool.eq_iff_iff, all_run (by rcases hw with hw | hw <;> rw [hw] <;> decide), decide_eq_true_eq, vcmpOk_length]
  refine forall_congr' fun e => forall_congr' fun he => ?_
  rw [laneOf_eq hw, vcmpOk_getD he]

theorem exec_vcmp_ok {h : Head} {s : State} (hi : Issues s Rows.vcmp ((Use.ofRow Rows.vcmp h).vecB h))
    (hu : Unbound s ((Use.ofRow Rows.vcmp h).vecB h)) :
    exec (.vcmp h) s = .next (advance h ((Use.ofRow Rows.vcmp h).vecB h) .seq (withM h (vcmpMask s h) s)) := by
  rw [exec_vcmp]
  exact runHead_completes hi hu rfl (by simp) (hu.congr rfl rfl)

/-! ### Selections -/

/-- What VSEL writes. -/
def vselResult (s : State) (h : Head) : VReg :=
  ofElems 32 (((elemsOf 32 (readV (here s) h.a.toNat)).zip (vecB s h 32)).zipIdx.map fun ((x, y), k) =>
    if (readM (here s) (h.im 2 0)).getLsbD k then x else y)

theorem vselResult_lane (s : State) (h : Head) {k : Nat} (hk : k < 32) : (lane (vselResult s h) k).toNat =
    if (readM (here s) (h.im 2 0)).getLsbD k then (lane (readV (here s) h.a.toNat) k).toNat else (vecB s h 32).getD k 0 := by
  have hA := elemsOf_length 32 (readV (here s) h.a.toNat)
  have hB := vecB_length s h 32
  have hb : (vecB s h 32).getD k 0 < 2 ^ 32 := by
    rw [List.getD_eq_getElem _ _ (by omega)]
    exact vecB_lt (List.getElem_mem _)
  have ha : (elemsOf 32 (readV (here s) h.a.toNat)).getD k 0 < 2 ^ 32 := by
    rw [List.getD_eq_getElem _ _ (by omega)]
    exact elemsOf_lt (List.getElem_mem _)
  rw [lane_toNat _ hk, lane_toNat _ hk, vselResult, elemsOf_ofElems (by decide) _ (by omega)]
  have helem : (((elemsOf 32 (readV (here s) h.a.toNat)).zip (vecB s h 32)).zipIdx.map fun ((x, y), k) =>
      if (readM (here s) (h.im 2 0)).getLsbD k then x else y).getD k 0 =
      if (readM (here s) (h.im 2 0)).getLsbD k then (elemsOf 32 (readV (here s) h.a.toNat)).getD k 0 else (vecB s h 32).getD k 0 := by
    simp [List.getD_eq_getElem?_getD, hA, hB, hk]
  rw [helem]
  split
  · exact Nat.mod_eq_of_lt ha
  · exact Nat.mod_eq_of_lt hb

theorem exec_vsel_ok {h : Head} {s : State} (hi : Issues s Rows.vsel ((Use.ofRow Rows.vsel h).vecB h))
    (hu : Unbound s ((Use.ofRow Rows.vsel h).vecB h)) :
    exec (.vsel h) s = .next (advance h ((Use.ofRow Rows.vsel h).vecB h) .seq (withV h (vselResult s h) s)) := by
  rw [exec_vsel]
  exact runHead_vector_quiet hi hu rfl

/-! ### Masks as operands -/

theorem effects_of_maskHead {mk : Head → Instr} {r : Row} {f : BitVec 32 → BitVec 32 → BitVec 32}
    (he : ∀ h s, exec (mk h) s = maskHead r h f s) (hr : r.d ≠ .v ∧ r.a ≠ .v ∧ r.b1 ≠ .v ∧ r.b2 ≠ .v) :
    Effects mk r fun h s => withM h (f (readM (here s) h.a.toNat) (readM (here s) h.b.toNat)) s :=
  effects_of _ he hr fun _ _ => rfl
theorem effects_of_maskInt {mk : Head → Instr} {r : Row} {f g : BitVec 32 → Nat} (hfg : ∀ m, f m = g m)
    (he : ∀ h s, exec (mk h) s = maskInt r h f s) (hr : r.d ≠ .v ∧ r.a ≠ .v ∧ r.b1 ≠ .v ∧ r.b2 ≠ .v) :
    Effects mk r fun h s => withInt h (BitVec.ofNat 64 (g (readM (here s) h.a.toNat))) s := by
  obtain rfl : f = g := funext hfg
  exact effects_of _ he hr fun _ _ => rfl

/-- The number of set bits. -/
def bitCount (m : BitVec 32) : Nat := ((List.range 32).filter fun k => m.getLsbD k).length
/-- The number of the first set bit, or 32. -/
def firstBit (m : BitVec 32) : Nat := ((List.range 32).find? fun k => m.getLsbD k).getD 32

theorem firstBit_spec (m : BitVec 32) : firstBit m ≤ 32 ∧ (∀ k < firstBit m, m.getLsbD k = false) ∧
    (firstBit m < 32 → m.getLsbD (firstBit m) = true) := by
  unfold firstBit
  cases hf : (List.range 32).find? fun k => m.getLsbD k with
  | none => simpa [List.find?_eq_none] using hf
  | some n =>
    rw [List.find?_range_eq_some] at hf
    obtain ⟨hbit, hmem, hbefore⟩ := hf
    rw [List.mem_range] at hmem
    exact ⟨Nat.le_of_lt hmem, fun k hk => by simpa using hbefore k hk, fun _ => hbit⟩

/-! ### Moves of lanes -/

/-- A map over the elements, by their places. -/
theorem map_elemsOf (w : Nat) (v : VReg) (g : Nat → Nat) :
    (elemsOf w v).map g = (List.range (1024 / w)).map fun e => g ((elemsOf w v).getD e 0) := by
  refine List.ext_getElem (by simp [elemsOf_length]) fun e h1 h2 => ?_
  simp [List.getD_eq_getElem?_getD, elemsOf_length, show e < 1024 / w by simpa using h2]

theorem exWidth_eq (h : Head) : exWidth h = if h.im 6 6 = 1 then 16 else 32 := by simp only [exWidth, beq_iff_eq]
theorem exIndex_eq (s : State) (h : Head) :
    exIndex s h = if h.b = 0 then h.im 5 0 else (gB s h).val.toNat % (1024 / exWidth h) := by simp only [exIndex, beq_iff_eq]

end Sys2Proof.Machine

namespace Sys2Proof
open Machine

/-- Settles O28. -/
theorem maskAndLaneHeadsWriteTheirResult : Obligations.MaskAndLaneHeadsWriteTheirResult := by
  refine ⟨fun h s hi hu => ⟨vcmpMask s h, exec_vcmp_ok hi hu, fun k hk => vcmpMask_bit s h hk⟩,
    fun h s hi hu => ⟨vselResult s h, exec_vsel_ok hi hu, fun k hk => vselResult_lane s h hk⟩,
    effects_of_maskHead (f := fun a b => a &&& b) exec_mand (by decide), effects_of_maskHead (f := fun a b => a ||| b) exec_mor (by decide), effects_of_maskHead (f := fun a b => a ^^^ b) exec_mxor (by decide),
    effects_of_maskHead (f := fun a _ => ~~~a) exec_mnot (by decide), ?_, ?_, ?_, ?_, ?_, ?_⟩
  · exact effects_of_maskInt (f := bitCount) (g := fun m => (List.range 32).countP fun k => m.getLsbD k)
      (fun _ => (List.countP_eq_length_filter ..).symm) exec_mpop (by decide)
  · intro h s hi
    obtain ⟨hle, hbefore, hat⟩ := firstBit_spec (readM (here s) h.a.toNat)
    exact ⟨_, hle, effects_of_maskInt (f := firstBit) (g := firstBit) (fun _ => rfl) exec_mfirst (by decide) h s hi (unbound_nil (ofRow_nil h (by decide))), hbefore, hat⟩
  · intro h s u w hi hu
    rw [exec_vperm, ← map_elemsOf w _ fun i => if 2 ^ (w - 1) ≤ i then 0 else (elemsOf w (readV (here s) h.a.toNat)).getD (i % (1024 / w)) 0]
    unfold execVperm
    simp only [beq_iff_eq]
    exact runHead_vector_quiet hi hu rfl
  · intro h s u w hi hu
    rw [exec_vbcast]
    unfold execVbcast
    simp only [beq_iff_eq]
    exact runHead_vector_quiet hi hu rfl
  · intro h s u w i x hi hu
    rw [exec_vextr]
    unfold execVextr
    simp only [exIndex_eq, exWidth_eq, beq_iff_eq]
    exact runHead_completes hi hu rfl (by simp) (hu.congr rfl rfl)
  · intro h s u w i hi hu
    rw [exec_vins]
    unfold execVins
    simp only [exIndex_eq, exWidth_eq]
    exact runHead_vector_quiet hi hu rfl

end Sys2Proof
end

section
set_option Elab.async false
/-! Vector functions, reductions and scans (R428 to R430). -/

namespace Sys2Proof.Machine

/-! ### The tree of a reduction (R429) -/

section
variable {α : Type} {f : α → α → α} {P : List α → α → Prop}

/-- What a node of the tree holds, of the values below it: nothing where there is none, else one that `P` ties to them. -/
def Covers (P : List α → α → Prop) (l : List α) : Option α → Prop
  | none => l = []
  | some v => l ≠ [] ∧ P l v

/-- A pair of nodes combined, a single one passed up. -/
def treePair (f : α → α → α) (o q : Option α) : Option α :=
  match o, q with
  | some a, some b => some (f a b)
  | some a, none => some a
  | none, b => b
theorem treeLevel_cons (o q : Option α) (r : List (Option α)) : treeLevel f (o :: q :: r) = treePair f o q :: treeLevel f r := by
  cases o <;> cases q <;> rfl

theorem Covers.pair {l m : List α} {o q : Option α} (hP : ∀ l m a b, P l a → P m b → P (l ++ m) (f a b)) (hl : Covers P l o)
    (hm : Covers P m q) : Covers P (l ++ m) (treePair f o q) := by
  cases o with
  | none =>
    obtain rfl : l = [] := hl
    exact hm
  | some a =>
    obtain ⟨hne, ha⟩ := hl
    cases q with
    | none =>
      obtain rfl : m = [] := hm
      rw [List.append_nil]
      exact ⟨hne, ha⟩
    | some b => exact ⟨by simp [hne], hP l m a b ha hm.2⟩

/-- One level of the tree covers the same values. -/
theorem treeLevel_covers (hP : ∀ l m a b, P l a → P m b → P (l ++ m) (f a b)) (os : List (Option α)) :
    ∀ ls, List.Forall₂ (Covers P) ls os → ∃ ms : List (List α), ms.flatten = ls.flatten ∧ List.Forall₂ (Covers P) ms (treeLevel f os) := by
  induction os using treeLevel.induct with
  | case1 => exact fun ls h => ⟨ls, rfl, h⟩
  | case2 o => exact fun ls h => ⟨ls, rfl, h⟩
  | case3 o q r ih =>
    rintro _ (_ | ⟨hl, _ | ⟨hm, hr⟩⟩)
    obtain ⟨ms, hms, hcov⟩ := ih _ hr
    rw [treeLevel_cons]
    exact ⟨_, by rw [List.flatten_cons, hms, List.append_assoc]; rfl, .cons (hl.pair hP hm) hcov⟩

theorem treeLevel_length (os : List (Option α)) : (treeLevel f os).length = (os.length + 1) / 2 := by
  induction os using treeLevel.induct with
  | case1 => simp [treeLevel]
  | case2 o => simp [treeLevel]
  | case3 o q r ih =>
    simp only [treeLevel, List.length_cons, ih]
    omega

theorem treeFold_covers (hP : ∀ l m a b, P l a → P m b → P (l ++ m) (f a b)) (n : Nat) :
    ∀ ls os, List.Forall₂ (Covers P) ls os → os.length ≤ 2 ^ n → Covers P ls.flatten (treeFold f n os) := by
  induction n with
  | zero =>
    rintro _ _ (_ | ⟨hl, _ | _⟩) hlen
    · rfl
    · simpa [treeFold] using hl
    · simp at hlen
  | succ n ih =>
    intro ls os hcov hlen
    obtain ⟨ms, hms, hnext⟩ := treeLevel_covers (f := f) hP os ls hcov
    rw [← hms]
    refine ih ms _ hnext ?_
    rw [treeLevel_length]
    rw [pow_succ] at hlen
    omega

end

/-- What an integer reduction gives from the active elements' values. -/
def Reduces (op w : Nat) (P : List Int → Int → Prop) (ns : List Int) (v : Int) : Prop :=
  if ns = [] then v = identI op w else P ns v

/-- The elements of a register with their activity. -/
def activity (s : State) (h : Head) (w : Nat) : List (Nat × Bool) :=
  (elemsOf w (readV (here s) h.a.toNat)).zipIdx.map fun (x, e) => (x, laneActive s h (laneOf w e))
/-- The integer result of a reduction. -/
def redInt (op w : Nat) (xs : List (Nat × Bool)) : Int :=
  (treeFold (combineI op) 6 (xs.map fun x => if x.2 then some (signedOf w x.1) else none)).getD (identI op w)

theorem redInt_reduces {op w : Nat} {P : List Int → Int → Prop} {xs : List (Nat × Bool)} (hlen : xs.length ≤ 64)
    (hone : ∀ x, P [x] x) (hP : ∀ l m a b, P l a → P m b → P (l ++ m) (combineI op a b)) :
    Reduces op w P ((xs.filter (·.2)).map fun x => signedOf w x.1) (redInt op w xs) := by
  have hflat : (xs.map fun x => if x.2 then [signedOf w x.1] else []).flatten = (xs.filter (·.2)).map fun x => signedOf w x.1 := by
    clear hlen
    induction xs with
    | nil => rfl
    | cons x xs ih => cases hx : x.2 <;> simp [hx, ih]
  have hcov : List.Forall₂ (Covers P) (xs.map fun x => if x.2 then [signedOf w x.1] else [])
      (xs.map fun x => if x.2 then some (signedOf w x.1) else none) := by
    rw [List.forall₂_map_left_iff, List.forall₂_map_right_iff]
    refine List.forall₂_same.mpr fun x _ => ?_
    cases x.2
    · rfl
    · exact ⟨by simp, hone _⟩
  have hfold := treeFold_covers (f := combineI op) hP 6 _ _ hcov (by simpa using hlen)
  rw [hflat] at hfold
  unfold Reduces redInt
  revert hfold
  cases treeFold (combineI op) 6 (xs.map fun x => if x.2 then some (signedOf w x.1) else none) with
  | none =>
    intro hnone
    exact (if_pos (show List.map _ _ = [] from hnone)).mpr rfl
  | some v =>
    rintro ⟨hne, hv⟩
    rwa [if_neg hne]

/-- The largest of a list. -/
def IsMax (ns : List Int) (v : Int) : Prop := v ∈ ns ∧ ∀ x ∈ ns, x ≤ v
/-- The smallest of a list. -/
def IsMin (ns : List Int) (v : Int) : Prop := v ∈ ns ∧ ∀ x ∈ ns, v ≤ x

theorem combine_sum (l m : List Int) (a b : Int) (ha : a = l.sum) (hb : b = m.sum) : combineI 0 a b = (l ++ m).sum := by
  rw [List.sum_append, ← ha, ← hb]; rfl
theorem combine_max (l m : List Int) (a b : Int) (ha : IsMax l a) (hb : IsMax m b) : IsMax (l ++ m) (combineI 1 a b) := by
  obtain ⟨hal, hla⟩ := ha
  obtain ⟨hbm, hmb⟩ := hb
  unfold combineI IsMax
  simp only [List.mem_append]
  split
  · exact ⟨.inr hbm, fun x hx => hx.elim (fun h => by have := hla x h; omega) (hmb x)⟩
  · exact ⟨.inl hal, fun x hx => hx.elim (hla x) (fun h => by have := hmb x h; omega)⟩
theorem combine_min (l m : List Int) (a b : Int) (ha : IsMin l a) (hb : IsMin m b) : IsMin (l ++ m) (combineI 2 a b) := by
  obtain ⟨hal, hla⟩ := ha
  obtain ⟨hbm, hmb⟩ := hb
  unfold combineI IsMin
  simp only [List.mem_append]
  split
  · exact ⟨.inr hbm, fun x hx => hx.elim (fun h => by have := hla x h; omega) (hmb x)⟩
  · exact ⟨.inl hal, fun x hx => hx.elim (hla x) (fun h => by have := hmb x h; omega)⟩

/-! ### The reduction heads -/

theorem activity_length (s : State) (h : Head) {t : Nat} : (activity s h (tyBits t)).length ≤ 64 := by
  rcases tyBits_cases t with hw | hw <;> simp [activity, elemsOf_length, hw]

/-- The float result of a reduction, with its flags. -/
def redFloat (op t : Nat) (xs : List (Nat × Bool)) : Nat × FFlags :=
  (treeFold (combineF op) 6 (xs.map fun x => if x.2 then some (widenF t x.1, (0 : FFlags)) else none)).getD (identF op, 0)

/-- The active elements, read off before or after their place is dropped. -/
theorem map_activity {β : Type} (s : State) (h : Head) (w : Nat) (g : Nat → β) :
    ((elemsOf w (readV (here s) h.a.toNat)).zipIdx.map fun (x, e) => if laneActive s h (laneOf w e) then some x else none).map
      (fun o => o.map g) = (activity s h w).map fun x => if x.2 then some (g x.1) else none := by
  rw [activity, List.map_map, List.map_map]
  refine List.map_congr_left fun p _ => ?_
  simp only [Function.comp]
  split <;> rfl

theorem vredHead_int {r : Row} {h : Head} {op : Nat} {s : State} (ht : 2 < h.im 8 6) (hi : Issues s r (Use.ofRow r h))
    (hu : Unbound s (Use.ofRow r h)) :
    vredHead r h op s = .next (advance h (Use.ofRow r h) .seq
      (withInt h (BitVec.ofInt 64 (redInt op (tyBits (h.im 8 6)) (activity s h (tyBits (h.im 8 6))))) s)) := by
  have hf : tyFloat (h.im 8 6) = false := by simp [tyFloat, ht]
  refine runHead_completes hi hu ?_ (by simp) (hu.congr rfl rfl)
  rw [X.bind_ok (X.get_apply s)]
  simp only [hf, Bool.false_eq_true, ↓reduceIte, map_activity]
  rfl

theorem vredHead_float {r : Row} {h : Head} {op : Nat} {s : State} (ht : h.im 8 6 ≤ 2) (hi : Issues s r (Use.ofRow r h))
    (hu : Unbound s (Use.ofRow r h)) :
    let o := redFloat op (h.im 8 6) (activity s h (tyBits (h.im 8 6)))
    vredHead r h op s = .next (advance h (Use.ofRow r h) .seq
      (withFlags (o.2 &&& (fOF ||| fNX ||| fNV)) (withInt h (BitVec.ofNat 64 o.1) s))) := by
  intro o
  have hf : tyFloat (h.im 8 6) = true := by simp [tyFloat, ht]
  refine runHead_completes hi hu ?_ (by simp) (hu.congr (by simp [withInt, withG]) (by simp [withInt, withG]))
  rw [X.bind_ok (X.get_apply s)]
  simp only [hf, ↓reduceIte, map_activity]
  rfl

/-! ### Scans (R430) -/

/-- Taking a word as signed keeps its residue. -/
theorem signedOf_emod (w : Nat) (n : Int) : signedOf w (n % (2 ^ w : Nat)).toNat % (2 ^ w : Nat) = n % (2 ^ w : Nat) := by
  have hpos : (0 : Int) < (2 ^ w : Nat) := by exact_mod_cast Nat.two_pow_pos w
  have hnn := Int.emod_nonneg n hpos.ne'
  have hcast : (((n % (2 ^ w : Nat)).toNat % 2 ^ w : Nat) : Int) = n % (2 ^ w : Nat) := by
    rw [Int.natCast_mod, Int.toNat_of_nonneg hnn, Int.emod_emod]
  unfold signedOf
  split
  · rw [hcast, Int.emod_emod]
  · rw [hcast, Int.sub_emod_right, Int.emod_emod]

theorem signedOf_add_emod (w : Nat) (n m : Int) :
    (signedOf w (n % (2 ^ w : Nat)).toNat + m) % (2 ^ w : Nat) = (n + m) % (2 ^ w : Nat) := by
  conv_lhs => rw [← Int.emod_add_emod, signedOf_emod, Int.emod_add_emod]

theorem scanI_getD (w : Nat) (ex : Bool) (xs : List (Nat × Bool)) : ∀ acc e, e < xs.length → (scanI w 0 ex xs acc).getD e 0 =
    if (xs.getD e (0, false)).2 then
      ((acc + (((xs.take (if ex then e else e + 1)).filter (·.2)).map fun x => signedOf w x.1).sum) % (2 ^ w : Nat)).toNat
    else 0 := by
  induction xs with
  | nil => intro _ _ he; simp at he
  | cons x xs ih =>
    intro acc e he
    obtain ⟨x, act⟩ := x
    cases act with
    | false =>
      cases e with
      | zero => simp [scanI]
      | succ e =>
        have hrest := ih acc e (by simpa using he)
        cases ex <;> simpa [scanI] using hrest
    | true =>
      have hacc := signedOf_emod w (acc + signedOf w x)
      cases e with
      | zero =>
        cases ex
        · simpa [scanI, combineI] using congrArg Int.toNat hacc
        · simp [scanI]
      | succ e =>
        have hrest := ih (signedOf w ((acc + signedOf w x) % (2 ^ w : Nat)).toNat) e (by simpa using he)
        rw [signedOf_add_emod, Int.add_assoc] at hrest
        cases ex <;> simpa [scanI, combineI] using hrest

/-- The registers of VSCAN. -/
def vscanUse (h : Head) : Use :=
  if h.im 12 12 == 1 then ((Use.ofRow Rows.vscan h).merged h).andG [h.b.toNat] else (Use.ofRow Rows.vscan h).merged h

theorem vscan_int {h : Head} {s : State} (ht : 2 < h.im 8 6) (hi : Issues s Rows.vscan (vscanUse h)) (hu : Unbound s (vscanUse h)) :
    let w := tyBits (h.im 8 6)
    exec (.vscan h) s = .next (advance h (vscanUse h) .seq (withV h (ofElems w (maskedElems s h w
      (scanI w (h.im 10 9) (h.im 11 11 == 1) (activity s h w)
        (if h.im 12 12 == 1 then signedOf w (gB s h).val.toNat else identI (h.im 10 9) w)))) s)) := by
  intro w
  have hf : tyFloat (h.im 8 6) = false := by simp [tyFloat, ht]
  rw [exec_vscan]
  refine runHead_vector_quiet hi hu ?_
  rw [X.bind_ok (X.get_apply s)]
  simp only [hf, Bool.false_eq_true, ↓reduceIte]
  rfl

theorem vscan_float {h : Head} {s : State} (ht : h.im 8 6 ≤ 2) (hi : Issues s Rows.vscan (vscanUse h)) (hu : Unbound s (vscanUse h)) :
    let w := tyBits (h.im 8 6)
    let o := scanF (h.im 8 6) (h.im 10 9) (h.im 11 11 == 1) (activity s h w)
      (if h.im 12 12 == 1 then (gB s h).val.toNat % 2 ^ 32 else identF (h.im 10 9), 0)
    exec (.vscan h) s = .next (advance h (vscanUse h) .seq (withFlags o.2 (withV h (ofElems w (maskedElems s h w o.1)) s))) := by
  intro w o
  have hf : tyFloat (h.im 8 6) = true := by simp [tyFloat, ht]
  rw [exec_vscan]
  refine runHead_vector hi hu ?_
  rw [X.bind_ok (X.get_apply s)]
  simp only [hf, ↓reduceIte]
  rfl

end Sys2Proof.Machine

namespace Sys2Proof
open Machine

/-- Settles O29. -/
theorem functionsReductionsAndScans : Obligations.FunctionsReductionsAndScans := by
  unfold Obligations.FunctionsReductionsAndScans
  intro act fn red
  have fn_ (mk : Head → Instr) (r : Row) (f : Nat → Val × FFlags) (he : ∀ h s, exec (mk h) s = vfnHead r h f s) : fn mk r f := by
    intro h s u w ys hi hu
    rw [he]
    exact runHead_vector hi hu rfl
  have red_ (mk : Head → Instr) (r : Row) (op : Nat) (ident : Nat → Int) (f : List Int → Int → Prop)
      (he : ∀ h s, exec (mk h) s = vredHead r h op s) (hident : ∀ w, identI op w = ident w) (hone : ∀ x, f [x] x)
      (hP : ∀ l m a b, f l a → f m b → f (l ++ m) (combineI op a b)) : red mk r op ident f := by
    intro h s u t w xs hi hu
    rw [he]
    refine ⟨fun ht => ⟨_, vredHead_int ht hi hu, ?_⟩, fun ht => vredHead_float ht hi hu⟩
    rw [← hident]
    exact redInt_reduces (activity_length s h) hone hP
  refine ⟨fn_ _ _ _ exec_vrcp, fn_ _ _ _ exec_vrsq, fn_ _ _ _ exec_vexp2, fn_ _ _ _ exec_vlog2, fn_ _ _ _ exec_vsqrt,
    fn_ _ _ _ exec_vtanh, ?_, ?_, ?_, ?_, scanI_getD⟩
  · exact red_ .vredsum Rows.vredsum 0 _ _ exec_vredsum (fun _ => rfl) (by simp) combine_sum
  · exact red_ .vredmax Rows.vredmax 1 _ _ exec_vredmax (fun _ => rfl) (fun x => ⟨List.mem_singleton_self x, fun y hy => (List.mem_singleton.mp hy).le⟩) combine_max
  · exact red_ .vredmin Rows.vredmin 2 _ _ exec_vredmin (fun _ => rfl) (fun x => ⟨List.mem_singleton_self x, fun y hy => (List.mem_singleton.mp hy).ge⟩) combine_min
  · exact fun h s hi hu => ⟨fun ht => vscan_int ht hi hu, fun ht => vscan_float ht hi hu⟩

end Sys2Proof
end

section
set_option Elab.async false
/-! Vector loads and stores (R435 to R438). -/

namespace Sys2Proof.Machine

/-! ### Reads that leave for other devices -/

theorem sendReads_sends (id : Nat) (ps : List Piece) (s : State) : SendsOnly s (sendReads id ps s) := by
  refine .foldl (fun s p => ?_) ..
  split
  · split
    · exact sendSeq_sends ..
    · rfl
  · rfl
@[simp] theorem withPend_cur (dst : Dst) (ps : List Piece) (fin : Fin_) (lat : Nat) (s : State) :
    (withPend dst ps fin lat s).cur = s.cur := rfl
@[simp] theorem withPend_cores (dst : Dst) (ps : List Piece) (fin : Fin_) (lat : Nat) (s : State) :
    (withPend dst ps fin lat s).cores = s.cores := rfl

/-- A read in flight binds no register. -/
theorem Unbound.of_issued {s : State} {u : Use} (hu : Unbound s u) (id : Nat) (dst : Dst) (ps : List Piece) (fin : Fin_) (lat : Nat) :
    Unbound (sendReads id ps (withPend dst ps fin lat s)) u :=
  hu.congr (by rw [(sendReads_sends ..).cur, withPend_cur]) (by rw [(sendReads_sends ..).cores, withPend_cores])

/-! ### Loads -/

/-- A load into a register that no stream has leaves its result outstanding. -/
theorem vecLoad_ok {s : State} {v : Nat} (hv : unitOf s s.cur v = none) (ps : List Piece) (fin : Fin_) :
    vecLoad v 1 ps fin s = .ok () (sendReads (here s).nextPend ps (withPend (.v v) ps fin 0 s)) := by
  have hb : boundV s v 1 = false := by simp [boundV, hv]
  unfold vecLoad
  rw [X.bind_ok (X.get_apply s)]
  simp only [hb, Bool.false_eq_true, ↓reduceIte]
  rfl

/-- The accesses of the active lanes of a head on words of 32 bits. -/
def wordAccs (s : State) (h : Head) : List LaneAcc := (activeLanes s h).map fun k => { lane := k, va := laneAddr s h k, n := 4 }

theorem vldPlain_ok {h : Head} {s t : State} {spans : List Span} {ps : List Piece}
    (ha : laneAccess (gA s h) false none (wordAccs s h) s = .ok spans s) (hl : loadPieces spans s = .ok ps t)
    (hv : unitOf t t.cur h.d.toNat = none) :
    vldPlain h s = .ok () (sendReads (here t).nextPend ps (withPend (.v h.d.toNat) ps (.lanes (activeLanes s h) (loadKeeps s h)) 0 t)) := by
  unfold vldPlain
  unfold wordAccs at ha
  rw [X.bind_ok (X.get_apply s), X.bind_ok ha, X.bind_ok hl]
  exact vecLoad_ok hv ps _

theorem mem_wv_of_merged {u : Use} {h : Head} {v : Nat} (hv : v ∈ u.wv) : v ∈ (u.merged h).wv := by
  unfold Use.merged; split <;> exact hv
theorem vldUse_unbound {r : Row} {h : Head} {t : State} (hd : r.d = .v) (hu : Unbound t (vldUse r h)) :
    unitOf t t.cur h.d.toNat = none :=
  hu _ (List.mem_append_right _ (mem_wv_of_merged (by simp [Use.ofRow, hd])))

/-- A load of words, at the head. -/
theorem runHead_vldPlain {r : Row} {h : Head} {body : X Next} {s t : State} {spans : List Span} {ps : List Piece} (hd : r.d = .v)
    (hb : ∀ w, vldPlain h s = .ok () w → body s = .ok .seq w) (hi : Issues s r (vldUse r h)) (hu : Unbound s (vldUse r h))
    (ha : laneAccess (gA s h) false none (wordAccs s h) s = .ok spans s) (hl : loadPieces spans s = .ok ps t)
    (ht : Unbound t (vldUse r h)) :
    runHead r h (vldUse r h) body s = .next (advance h (vldUse r h) .seq
      (sendReads (here t).nextPend ps (withPend (.v h.d.toNat) ps (.lanes (activeLanes s h) (loadKeeps s h)) 0 t))) :=
  runHead_completes hi hu (hb _ (vldPlain_ok ha hl (vldUse_unbound hd ht))) (by simp) (ht.of_issued _ _ _ _ _)

/-! ### Stores -/

theorem vstPlain_ok {h : Head} {join : Bool} {s t : State} {spans : List Span}
    (ha : laneAccess (gA s h) true none (wordAccs s h) s = .ok spans s)
    (hp : pushStores (partEntries s join (spans.zip ((activeLanes s h).map fun k => (lane (readV (here s) h.d.toNat) k).toNat))) s =
      .ok () t) : vstPlain h join s = .ok () t := by
  unfold vstPlain
  unfold wordAccs at ha
  rw [X.bind_ok (X.get_apply s), X.bind_ok ha]
  exact hp

/-- A body that does one thing and goes on in sequence. -/
theorem X.then_seq {f : X Unit} {s t : State} (h : f s = .ok () t) : (do f; pure Next.seq : X Next) s = .ok .seq t := by
  rw [X.bind_ok h]; rfl

theorem laneAddr_eq (s : State) (h : Head) (k : Nat) : laneAddr s h k =
    (((CapF.addr (gA s h) : Int) + (if h.f = 0 then ((gB s h).val.toNat + 4 * (k : Nat) : Int)
      else if h.f = 1 then k * (gB s h).val.toInt else (lane (readV (here s) h.b.toNat) k).toInt * (2 ^ h.im 6 5 : Nat))) %
        (2 ^ 57 : Nat)).toNat := by
  have h0 : h.f = 0 ↔ h.f.toNat = 0 := by rw [← BitVec.toNat_inj]; rfl
  have h1 : h.f = 1 ↔ h.f.toNat = 1 := by rw [← BitVec.toNat_inj]; rfl
  simp only [laneAddr, h0, h1]
  rcases h.f.toNat with _ | _ | n <;> simp

end Sys2Proof.Machine

namespace Sys2Proof
open Machine

/-- Settles O30. -/
theorem vectorLoadsAndStoresAccessTheirLanes : Obligations.VectorLoadsAndStoresAccessTheirLanes := by
  intro h s ks accs plainLd plainSt
  have ld (mk : Head → Instr) (r : Row) (body : X Next) (hd : r.d = .v) (he : exec (mk h) s = runHead r h (vldUse r h) body s)
      (hb : ∀ w, vldPlain h s = .ok () w → body s = .ok .seq w) : plainLd mk r := by
    intro spans ps t hi hu ha hl ht
    rw [he]
    exact runHead_vldPlain hd hb hi hu ha hl ht
  have st (mk : Head → Instr) (r : Row) (join : Bool) (body : X Next)
      (he : exec (mk h) s = runHead r h (Use.ofRow r h).srcD body s)
      (hb : ∀ w, vstPlain h join s = .ok () w → body s = .ok .seq w) : plainSt mk r join := by
    intro spans t u hi hu ha hp ht
    rw [he]
    exact runHead_completes hi hu (hb _ (vstPlain_ok ha hp)) (by simp) ht
  refine ⟨laneAddr_eq s h, fun h7 => ld .vld Rows.vld _ rfl (exec_vld h s) fun w hw => ?_,
    ld .vldS Rows.vldS _ rfl (exec_vldS h s) fun w hw => X.then_seq hw,
    ld .vldG Rows.vldG _ rfl (exec_vldG h s) fun w hw => X.then_seq hw,
    fun h7 => st .vst Rows.vst true _ (exec_vst h s) fun w hw => ?_,
    st .vstS Rows.vstS false _ (exec_vstS h s) fun w hw => X.then_seq hw,
    st .vstX Rows.vstX false _ (exec_vstX h s) fun w hw => X.then_seq hw, ?_, ?_⟩
  · rw [X.bind_ok (X.get_apply s)]
    simp only [h7, Nat.reduceBEq, Bool.false_eq_true, ↓reduceIte]
    exact X.then_seq hw
  · simp only [h7, Nat.reduceBEq, Bool.false_eq_true, ↓reduceIte]
    exact X.then_seq hw
  · intro f t h7 hi hu hf hl ht
    rw [exec_vld]
    refine runHead_completes hi hu ?_ (by simp) ht
    rw [X.bind_ok (X.get_apply s)]
    simp only [h7, BEq.rfl, ↓reduceIte]
    rw [X.bind_ok hf]
    exact X.then_seq hl
  · intro t u h7 hi hu hv ht
    rw [exec_vst]
    refine runHead_completes hi hu ?_ (by simp) ht
    simp only [h7, BEq.rfl, ↓reduceIte]
    exact X.then_seq hv

end Sys2Proof
end

section
set_option Elab.async false
/-! The IEEE formats: values of codes, rounding to nearest, exact sums and products (R315, R316, R319). -/

namespace Sys2Proof.Machine

/-! ### Values -/

/-- The rational that a sign, a magnitude and a power of two stand for. -/
def ratOf (n : Bool) (m : Nat) (e : Int) : ℚ := (if n then -(m : ℚ) else m) * (2 : ℚ) ^ e

/-- The sign as a factor. -/
def signQ (n : Bool) : ℚ := if n then -1 else 1
theorem signQ_abs (n : Bool) : |signQ n| = 1 := by cases n <;> simp [signQ]
theorem ratOf_eq (n : Bool) (m : Nat) (e : Int) : ratOf n m e = signQ n * ((m : ℚ) * 2 ^ e) := by
  cases n <;> simp [ratOf, signQ]
theorem ratOf_sub_abs (n : Bool) (m k : Nat) (e d : Int) : |ratOf n m e - ratOf n k d| = |(m : ℚ) * 2 ^ e - (k : ℚ) * 2 ^ d| := by
  rw [ratOf_eq, ratOf_eq, ← mul_sub, abs_mul, signQ_abs, one_mul]
theorem ratOf_ne_iff (n : Bool) (m k : Nat) (e d : Int) : ratOf n m e ≠ ratOf n k d ↔ (m : ℚ) * 2 ^ e ≠ (k : ℚ) * 2 ^ d := by
  rw [← sub_ne_zero, ← abs_ne_zero, ratOf_sub_abs, abs_ne_zero, sub_ne_zero]
/-- The sign as part of an integer. -/
theorem ratOf_signedMag (n : Bool) (m : Nat) (e : Int) : ratOf n m e = (signedMag n m : ℚ) * 2 ^ e := by
  cases n <;> simp [ratOf, signedMag]
theorem ratOf_ofInt (x : Int) (e : Int) : ratOf (decide (x < 0)) x.natAbs e = (x : ℚ) * 2 ^ e := by
  rw [ratOf_signedMag]
  congr 2
  by_cases hx : x < 0
  · simp only [signedMag, hx, decide_true, ↓reduceIte]; omega
  · simp only [signedMag, hx, decide_false, Bool.false_eq_true, ↓reduceIte]; omega

/-! ### Rounding to nearest even -/

/-- A quotient and its remainder, rounded to the nearest integer. -/
theorem nearest_near {q r d : Nat} (hr : r < d) :
    let n := if 2 * r < d then q else if 2 * r > d then q + 1 else if q % 2 == 0 then q else q + 1
    2 * |((q : ℚ) + (r : ℚ) / d) - n| ≤ 1 ∧ (r ≠ 0 ↔ ((q : ℚ) + (r : ℚ) / d) ≠ n) := by
  have hd : (0 : ℚ) < d := by exact_mod_cast Nat.lt_of_le_of_lt (Nat.zero_le r) hr
  have hnn : (0 : ℚ) ≤ r / d := by positivity
  have hlt : (r : ℚ) / d < 1 := by rw [div_lt_one hd]; exact_mod_cast hr
  have hzero : (r : ℚ) / d = 0 ↔ r = 0 := by simp [hd.ne']
  have hhalf : 2 * r ≤ d → (r : ℚ) / d ≤ 1 / 2 := fun h => by
    rw [div_le_div_iff₀ hd two_pos]
    exact_mod_cast (by omega : r * 2 ≤ 1 * d)
  have hhalf' : d ≤ 2 * r → 1 / 2 ≤ (r : ℚ) / d := fun h => by
    rw [div_le_div_iff₀ two_pos hd]
    exact_mod_cast (by omega : 1 * d ≤ r * 2)
  have hdown : 2 * r ≤ d → 2 * |((q : ℚ) + (r : ℚ) / d) - q| ≤ 1 ∧ (r ≠ 0 ↔ ((q : ℚ) + (r : ℚ) / d) ≠ q) := fun h => by
    rw [add_sub_cancel_left, abs_of_nonneg hnn]
    exact ⟨by linarith [hhalf h], (not_congr (add_eq_left.trans hzero)).symm⟩
  have hup : d ≤ 2 * r →
      2 * |((q : ℚ) + (r : ℚ) / d) - ((q + 1 : Nat) : ℚ)| ≤ 1 ∧ (r ≠ 0 ↔ ((q : ℚ) + (r : ℚ) / d) ≠ ((q + 1 : Nat) : ℚ)) := fun h => by
    push_cast
    rw [add_sub_add_left_eq_sub, abs_of_nonpos (by linarith)]
    refine ⟨by linarith [hhalf' h], ⟨fun _ heq => ?_, fun _ => by omega⟩⟩
    linarith
  dsimp only
  split
  · exact hdown (by omega)
  · split
    · exact hup (by omega)
    · split
      · exact hdown (by omega)
      · exact hup (by omega)

/-- What is rounded on a grid is within half a unit of the rounded value, and the same if and only if nothing is lost. -/
theorem halfEven_near (m : Nat) (sh : Int) :
    2 * |(m : ℚ) * 2 ^ sh - (halfEven m sh).1| ≤ 1 ∧ ((halfEven m sh).2 = true ↔ (m : ℚ) * 2 ^ sh ≠ (halfEven m sh).1) := by
  unfold halfEven
  by_cases h : 0 ≤ sh
  · have hz : (m : ℚ) * 2 ^ sh = (m * 2 ^ sh.toNat : Nat) := by
      push_cast
      rw [← zpow_natCast, Int.toNat_of_nonneg h]
    rw [if_pos h, hz]
    simp
  · have hz : (m : ℚ) * 2 ^ sh = (m / 2 ^ (-sh).toNat : Nat) + ((m % 2 ^ (-sh).toNat : Nat) : ℚ) / (2 ^ (-sh).toNat : Nat) := by
      have hdiv : (m : ℚ) = (2 ^ (-sh).toNat : Nat) * (m / 2 ^ (-sh).toNat : Nat) + (m % 2 ^ (-sh).toNat : Nat) := by
        exact_mod_cast (Nat.div_add_mod m _).symm
      have hpow : (2 : ℚ) ^ sh = ((2 ^ (-sh).toNat : Nat) : ℚ)⁻¹ := by
        push_cast
        rw [← zpow_natCast, Int.toNat_of_nonneg (by omega), ← zpow_neg, neg_neg]
      have hne : ((2 ^ (-sh).toNat : Nat) : ℚ) ≠ 0 := by exact_mod_cast (Nat.two_pow_pos _).ne'
      rw [hpow]
      nth_rw 1 [hdiv]
      field_simp
    rw [if_neg h, hz]
    have := nearest_near (q := m / 2 ^ (-sh).toNat) (Nat.mod_lt m (Nat.two_pow_pos (-sh).toNat))
    simpa only [bne_iff_ne] using this

/-- Rounding does not pass a power of two. -/
theorem halfEven_le {m k : Nat} {sh : Int} (h : (m : ℚ) * 2 ^ sh < 2 ^ k) : (halfEven m sh).1 ≤ 2 ^ k := by
  have hnear := (halfEven_near m sh).1
  have hle := neg_abs_le ((m : ℚ) * 2 ^ sh - (halfEven m sh).1)
  have hlt : ((halfEven m sh).1 : ℚ) < ((2 ^ k + 1 : Nat) : ℚ) := by push_cast; linarith
  exact Nat.lt_succ_iff.mp (by exact_mod_cast hlt)
theorem le_halfEven {m k : Nat} {sh : Int} (h : 2 ^ k ≤ (m : ℚ) * 2 ^ sh) : 2 ^ k ≤ (halfEven m sh).1 := by
  have hnear := (halfEven_near m sh).1
  have hle := le_abs_self ((m : ℚ) * 2 ^ sh - (halfEven m sh).1)
  have hlt : ((2 ^ k : Nat) : ℚ) < (((halfEven m sh).1 + 1 : Nat) : ℚ) := by push_cast; linarith
  exact Nat.lt_succ_iff.mp (by exact_mod_cast hlt)
theorem halfEven_zero (m : Nat) : halfEven m 0 = (m, false) := by simp [halfEven]

/-- The leading bit of a value. -/
theorem le_topExp {m : Nat} (hm : m ≠ 0) (e : Int) : (2 : ℚ) ^ topExp m e ≤ m * 2 ^ e := by
  rw [topExp, zpow_add₀ two_ne_zero, zpow_natCast]
  have : (2 ^ m.log2 : ℚ) ≤ m := by exact_mod_cast Nat.log2_self_le hm
  gcongr
theorem lt_topExp (m : Nat) (e : Int) : (m : ℚ) * 2 ^ e < 2 ^ (topExp m e + 1) := by
  rw [topExp, add_right_comm, zpow_add₀ two_ne_zero]
  have : (m : ℚ) < 2 ^ (m.log2 + 1) := by exact_mod_cast Nat.lt_log2_self
  have hcast : (2 : ℚ) ^ ((m.log2 : Int) + 1) = 2 ^ (m.log2 + 1) := by exact_mod_cast rfl
  rw [hcast]
  gcongr

/-! ### Codes -/

theorem infCode_lt (f : Ieee) : f.infCode < 2 ^ (f.eb + f.mb) := by
  rw [Ieee.infCode, pow_add]
  exact Nat.mul_lt_mul_of_pos_right (Nat.sub_lt (Nat.two_pow_pos _) one_pos) (Nat.two_pow_pos _)

section
variable {f : Ieee} (hf : 1 ≤ f.eb)
include hf

/-- The fields of a code below the sign. -/
theorem decodeIeee_signed (n : Bool) {c : Nat} (hc : c < 2 ^ (f.eb + f.mb)) : decodeIeee f (f.signBit n + c) =
    if c / 2 ^ f.mb = 2 ^ f.eb - 1 then (if c % 2 ^ f.mb = 0 then .inf n else .nan)
    else if c / 2 ^ f.mb = 0 then .num n (c % 2 ^ f.mb) (f.emin - f.mb)
    else .num n (2 ^ f.mb + c % 2 ^ f.mb) ((c / 2 ^ f.mb : Nat) - f.bias - f.mb) := by
  have hsplit : 2 ^ (f.eb + f.mb) = 2 ^ f.mb * 2 ^ f.eb := by rw [pow_add, Nat.mul_comm]
  have hneg : (bitsOf (f.signBit n + c) (f.eb + f.mb) (f.eb + f.mb) == 1) = n := by
    unfold bitsOf Ieee.signBit
    rw [Nat.add_sub_cancel_left]
    cases n
    · simp [Nat.div_eq_of_lt hc]
    · simp [Nat.add_div_left, Nat.div_eq_of_lt hc]
  have hex : bitsOf (f.signBit n + c) (f.eb + f.mb - 1) f.mb = c / 2 ^ f.mb := by
    have hlt : c / 2 ^ f.mb < 2 ^ f.eb := Nat.div_lt_of_lt_mul (hsplit ▸ hc)
    unfold bitsOf Ieee.signBit
    rw [show f.eb + f.mb - 1 + 1 - f.mb = f.eb by omega]
    cases n
    · simpa using Nat.mod_eq_of_lt hlt
    · rw [if_pos rfl, hsplit, Nat.mul_add_div (Nat.two_pow_pos _), Nat.add_mod_left, Nat.mod_eq_of_lt hlt]
  have hm : (f.signBit n + c) % 2 ^ f.mb = c % 2 ^ f.mb := by
    unfold Ieee.signBit
    cases n
    · simp
    · rw [if_pos rfl, hsplit, Nat.mul_add_mod]
  simp only [decodeIeee, hneg, hex, hm, beq_iff_eq]

/-- A code below infinity, by its place on the grid, stands for that place's value. -/
theorem decodeIeee_grid (n : Bool) {t r : Nat} (hr : r ≤ 2 ^ (f.mb + 1)) (ht : t = 0 ∨ 2 ^ f.mb ≤ r) (hc : t * 2 ^ f.mb + r < f.infCode) :
    ∃ k d, decodeIeee f (f.signBit n + (t * 2 ^ f.mb + r)) = .num n k d ∧ (k : ℚ) * 2 ^ d = r * 2 ^ ((t : Int) + (f.emin - f.mb)) := by
  have hpos := Nat.two_pow_pos f.mb
  have hne : (t * 2 ^ f.mb + r) / 2 ^ f.mb ≠ 2 ^ f.eb - 1 := by
    have : (t * 2 ^ f.mb + r) / 2 ^ f.mb < 2 ^ f.eb - 1 := by rwa [Nat.div_lt_iff_lt_mul hpos]
    omega
  rw [decodeIeee_signed hf n (hc.trans (infCode_lt f)), if_neg hne]
  rw [Nat.mul_comm t, Nat.mul_add_div hpos, Nat.mul_add_mod]
  rw [pow_succ] at hr
  rcases Nat.lt_trichotomy r (2 ^ f.mb) with hlt | heq | hgt
  · obtain rfl : t = 0 := ht.resolve_right (by omega)
    exact ⟨r, f.emin - f.mb, by simp [Nat.div_eq_of_lt hlt, Nat.mod_eq_of_lt hlt], by simp⟩
  · refine ⟨2 ^ f.mb, (t : Int) + (f.emin - f.mb), ?_, by rw [heq]⟩
    rw [heq, Nat.div_self hpos, Nat.mod_self, if_neg (by omega)]
    congr 1
    rw [Ieee.emin]
    push_cast
    ring
  · rcases Nat.lt_or_ge r (2 ^ f.mb * 2) with hlt | hge
    · have hdiv : r / 2 ^ f.mb = 1 := Nat.div_eq_of_lt_le (by omega) (by omega)
      have hmod : r % 2 ^ f.mb = r - 2 ^ f.mb := by rw [Nat.mod_eq_sub_mod hgt.le, Nat.mod_eq_of_lt (by omega)]
      refine ⟨r, (t : Int) + (f.emin - f.mb), ?_, rfl⟩
      rw [hdiv, hmod, if_neg (by omega), Nat.add_sub_cancel' hgt.le]
      congr 1
      rw [Ieee.emin]
      push_cast
      ring
    · obtain rfl : r = 2 ^ f.mb * 2 := by omega
      refine ⟨2 ^ f.mb, (t : Int) + (f.emin - f.mb) + 1, ?_, ?_⟩
      · rw [Nat.mul_div_cancel_left 2 hpos, Nat.mul_mod_right, if_neg (by omega), Nat.add_zero]
        congr 1
        rw [Ieee.emin]
        push_cast
        ring
      · rw [zpow_add_one₀ two_ne_zero]
        push_cast
        ring

end

/-- The exponent of the grid that a value is rounded on. -/
def gridExp (f : Ieee) (m : Nat) (e : Int) : Int := (if topExp m e < f.emin then f.emin else topExp m e) - f.mb

theorem roundIeee_num (f : Ieee) (n : Bool) {m : Nat} (hm : m ≠ 0) (e : Int) : roundIeee f (.num n m e) =
    let c := gridCode f.emin f.mb m e
    if f.infCode ≤ c.1 then (f.signBit n + f.infCode, fOF ||| fNX)
    else (f.signBit n + c.1, (if c.2 then fNX else 0) ||| (if c.2 && c.1 < 2 ^ f.mb then fUF else 0)) := by
  cases m with
  | zero => exact absurd rfl hm
  | succ m => rfl

/-- The place on the grid that a value is rounded to. -/
theorem gridCode_place (f : Ieee) {m : Nat} (hm : m ≠ 0) (e : Int) : ∃ t : Nat, (t : Int) + (f.emin - f.mb) = gridExp f m e ∧
    gridCode f.emin f.mb m e = (t * 2 ^ f.mb + (halfEven m (e - gridExp f m e)).1, (halfEven m (e - gridExp f m e)).2) ∧
    (halfEven m (e - gridExp f m e)).1 ≤ 2 ^ (f.mb + 1) ∧ (t = 0 ∨ 2 ^ f.mb ≤ (halfEven m (e - gridExp f m e)).1) := by
  have hge : f.emin - f.mb ≤ gridExp f m e := by unfold gridExp; split <;> omega
  have hscale (x : Int) : (m : ℚ) * 2 ^ (e - gridExp f m e) = m * 2 ^ e / 2 ^ gridExp f m e := by
    rw [zpow_sub₀ two_ne_zero, mul_div_assoc]
  refine ⟨(gridExp f m e - (f.emin - f.mb)).toNat, by omega, rfl, halfEven_le ?_, ?_⟩
  · have htop := lt_topExp m e
    have hexp : topExp m e + 1 ≤ (f.mb + 1 : Nat) + gridExp f m e := by unfold gridExp; split <;> push_cast <;> omega
    rw [hscale 0, div_lt_iff₀ (by positivity), ← zpow_natCast, ← zpow_add₀ two_ne_zero]
    exact htop.trans_le (zpow_le_zpow_right₀ one_le_two hexp)
  · by_cases hlow : topExp m e < f.emin
    · left
      rw [gridExp, if_pos hlow]
      omega
    · right
      refine le_halfEven ?_
      have hexp : (f.mb : Int) + gridExp f m e = topExp m e := by rw [gridExp, if_neg hlow]; omega
      rw [hscale 0, le_div_iff₀ (by positivity), ← zpow_natCast, ← zpow_add₀ two_ne_zero, hexp]
      exact le_topExp hm e

/-- A value that does not overflow is rounded to a value within half a unit, inexactly if and only if it changes. -/
theorem roundIeee_near {f : Ieee} (hf : 1 ≤ f.eb) (n : Bool) {m : Nat} (hm : m ≠ 0) (e : Int)
    (hof : (roundIeee f (.num n m e)).2.getLsbD 2 = false) : ∃ k d, decodeIeee f (roundIeee f (.num n m e)).1 = .num n k d ∧
      2 * |ratOf n m e - ratOf n k d| ≤ (2 : ℚ) ^ gridExp f m e ∧
      ((roundIeee f (.num n m e)).2.getLsbD 0 = true ↔ ratOf n m e ≠ ratOf n k d) := by
  obtain ⟨t, ht, hgrid, hr, hlow⟩ := gridCode_place f hm e
  rw [roundIeee_num f n hm] at hof ⊢
  rw [hgrid] at hof ⊢
  obtain ⟨hnear, hix⟩ := halfEven_near m (e - gridExp f m e)
  generalize halfEven m (e - gridExp f m e) = p at hof hr hlow hnear hix ⊢
  obtain ⟨r, ix⟩ := p
  dsimp only at hof hr hlow hnear hix ⊢
  have hc : t * 2 ^ f.mb + r < f.infCode := by
    by_contra hge
    rw [if_pos (by omega)] at hof
    exact absurd hof (by simp [fOF, fNX])
  rw [if_neg (by omega)]
  obtain ⟨k, d, hdec, hval⟩ := decodeIeee_grid hf n hr hlow hc
  have hpos : (0 : ℚ) < 2 ^ gridExp f m e := by positivity
  have hx : (m : ℚ) * 2 ^ e = m * 2 ^ (e - gridExp f m e) * 2 ^ gridExp f m e := by
    rw [mul_assoc, ← zpow_add₀ two_ne_zero, sub_add_cancel]
  rw [ht] at hval
  refine ⟨k, d, hdec, ?_, ?_⟩
  · rw [ratOf_sub_abs, hval, hx, ← sub_mul, abs_mul, abs_of_pos hpos, ← mul_assoc]
    exact mul_le_of_le_one_left hpos.le hnear
  · rw [ratOf_ne_iff, hval, hx, Ne, mul_left_inj' hpos.ne', ← Ne, ← hix]
    cases ix
    · simp
    · rw [if_pos rfl]
      split <;> simp [fNX, fUF]

/-- What a code stands for is rounded to the code. -/
theorem roundIeee_decode {f : Ieee} (hf : 1 ≤ f.eb) (n : Bool) {c : Nat} (hc : c < 2 ^ (f.eb + f.mb))
    (hnan : (decodeIeee f (f.signBit n + c)).isNan = false) :
    roundIeee f (decodeIeee f (f.signBit n + c)) = (f.signBit n + c, 0) := by
  have hpos := Nat.two_pow_pos f.mb
  have hdiv := Nat.div_add_mod c (2 ^ f.mb)
  have hmod := Nat.mod_lt c hpos
  rw [decodeIeee_signed hf n hc] at hnan ⊢
  by_cases hinf : c / 2 ^ f.mb = 2 ^ f.eb - 1
  · rw [if_pos hinf] at hnan ⊢
    split at hnan
    case isFalse => exact absurd hnan (by simp [Val.isNan])
    case isTrue hm =>
      rw [if_pos hm]
      have : f.infCode = c := by rw [Ieee.infCode, ← hinf, Nat.mul_comm]; omega
      rw [roundIeee, this]
  · rw [if_neg hinf]
    have hfin : c < f.infCode := by
      have hlt : c / 2 ^ f.mb < 2 ^ f.eb := Nat.div_lt_of_lt_mul (by rwa [← pow_add, Nat.add_comm])
      rw [Ieee.infCode, ← Nat.div_lt_iff_lt_mul hpos]
      omega
    by_cases hsub : c / 2 ^ f.mb = 0
    · rw [if_pos hsub]
      have hcm : c % 2 ^ f.mb = c := by rw [hsub] at hdiv; omega
      rw [hcm]
      by_cases hzero : c = 0
      · subst hzero; rfl
      · have hlog : c.log2 < f.mb := (Nat.log2_lt hzero).mpr (hcm ▸ hmod)
        have hq : gridExp f c (f.emin - f.mb) = f.emin - f.mb := by
          rw [gridExp, topExp, if_pos (by omega)]
        obtain ⟨t, ht, hgrid, -, -⟩ := gridCode_place f hzero (f.emin - f.mb)
        rw [hq] at ht hgrid
        obtain rfl : t = 0 := by omega
        rw [roundIeee_num f n hzero, hgrid, sub_self, halfEven_zero]
        simp [hfin]
    · rw [if_neg hsub]
      obtain ⟨m, hm⟩ : ∃ m, m = 2 ^ f.mb + c % 2 ^ f.mb := ⟨_, rfl⟩
      rw [← hm]
      have hm0 : m ≠ 0 := by omega
      have hlog : m.log2 = f.mb := (Nat.log2_eq_iff hm0).mpr ⟨by omega, by rw [pow_succ]; omega⟩
      have hone : (1 : Int) ≤ (c / 2 ^ f.mb : Nat) := by exact_mod_cast Nat.pos_of_ne_zero hsub
      have hq : gridExp f m ((c / 2 ^ f.mb : Nat) - f.bias - f.mb) = (c / 2 ^ f.mb : Nat) - f.bias - f.mb := by
        rw [gridExp, topExp, hlog, Ieee.emin, if_neg (by omega)]
        ring
      obtain ⟨t, ht, hgrid, -, -⟩ := gridCode_place f hm0 ((c / 2 ^ f.mb : Nat) - f.bias - f.mb)
      rw [hq] at ht hgrid
      have ht' : t + 1 = c / 2 ^ f.mb := by rw [Ieee.emin] at ht; omega
      have hcode : t * 2 ^ f.mb + m = c := by
        rw [hm, ← Nat.add_assoc, ← Nat.succ_mul, Nat.succ_eq_add_one, ht', Nat.mul_comm, hdiv]
      rw [roundIeee_num f n hm0, hgrid, sub_self, halfEven_zero]
      simp [hcode, hfin]

/-- A code is a sign and the code of a magnitude. -/
theorem code_eq_signed (f : Ieee) {c : Nat} (hc : c < 2 ^ (1 + f.eb + f.mb)) :
    ∃ n, ∃ k < 2 ^ (f.eb + f.mb), c = f.signBit n + k := by
  have hdouble : 2 ^ (1 + f.eb + f.mb) = 2 * 2 ^ (f.eb + f.mb) := by rw [Nat.add_assoc, pow_add, pow_one]
  by_cases h : c < 2 ^ (f.eb + f.mb)
  · exact ⟨false, c, h, by simp [Ieee.signBit]⟩
  · exact ⟨true, c - 2 ^ (f.eb + f.mb), by omega, by simp only [Ieee.signBit, ↓reduceIte]; omega⟩

/-! ### Exact sums and products -/

theorem signedMag_scale (n : Bool) (m : Nat) {e lo : Int} (h : lo ≤ e) :
    ((signedMag n (m * 2 ^ (e - lo).toNat) : Int) : ℚ) * 2 ^ lo = ratOf n m e := by
  have hpow : (2 : ℚ) ^ e = 2 ^ (e - lo).toNat * 2 ^ lo := by
    rw [← zpow_natCast, Int.toNat_of_nonneg (by omega), ← zpow_add₀ two_ne_zero, sub_add_cancel]
  rw [ratOf_signedMag, hpow]
  cases n <;> simp [signedMag] <;> ring

theorem addVal_exact (n : Bool) (m : Nat) (e : Int) (k : Bool) (l : Nat) (d : Int) :
    ∃ b x y, addVal (.num n m e) (.num k l d) = (.num b x y, 0) ∧ ratOf b x y = ratOf n m e + ratOf k l d := by
  obtain ⟨lo, hlo⟩ : ∃ lo, lo = if e < d then e else d := ⟨_, rfl⟩
  have hle : lo ≤ e := by rw [hlo]; split <;> omega
  have hld : lo ≤ d := by rw [hlo]; split <;> omega
  obtain ⟨x, hx⟩ : ∃ x, x = signedMag n (m * 2 ^ (e - lo).toNat) + signedMag k (l * 2 ^ (d - lo).toNat) := ⟨_, rfl⟩
  have hsum : (x : ℚ) * 2 ^ lo = ratOf n m e + ratOf k l d := by
    rw [← signedMag_scale n m hle, ← signedMag_scale k l hld, hx]
    push_cast
    ring
  have hadd : addVal (.num n m e) (.num k l d) =
      if x == 0 then (.num (n && k && m == 0 && l == 0) 0 lo, 0) else (.num (decide (x < 0)) x.natAbs lo, 0) := by
    rw [hx, hlo]; rfl
  rw [hadd, ← hsum]
  by_cases h0 : x = 0
  · exact ⟨_, 0, lo, by rw [if_pos (by simpa using h0)], by simp [ratOf, h0]⟩
  · exact ⟨_, _, _, by rw [if_neg (by simpa using h0)], ratOf_ofInt x lo⟩

theorem mulVal_exact (n : Bool) (m : Nat) (e : Int) (k : Bool) (l : Nat) (d : Int) :
    ∃ b x y, mulVal (.num n m e) (.num k l d) = (.num b x y, 0) ∧ ratOf b x y = ratOf n m e * ratOf k l d := by
  refine ⟨_, _, _, rfl, ?_⟩
  unfold ratOf
  rw [zpow_add₀ two_ne_zero]
  cases n <;> cases k <;> simp <;> ring

end Sys2Proof.Machine
end

section
set_option Elab.async false
/-! Conversions, the quantiser and the loads of tensors (R439 to R442). -/

namespace Sys2Proof.Machine

/-- A trap that its body raises is taken at the head. -/
theorem runHead_traps {r : Row} {h : Head} {u : Use} {body : X Next} {s t : State} {cause addr info : Nat} (hi : Issues s r u)
    (hu : Unbound s u) (hb : body s = .error (.trap cause addr info) t) :
    runHead r h u body s = .next (trapAt s cause addr info) := runHead_error hi hu hb

/-! ### VCVT (R439, R440) -/

/-- What a conversion gives at each destination position. -/
def vcvtResults (s : State) (h : Head) : List (Nat × Nat × FFlags) :=
  let f := readF (here s) (h.im 15 12)
  let sw := cvBits (h.im 8 6) f
  let dw := cvBits (h.im 11 9) f
  let act (p : Nat × Nat) : Bool := laneActive s h (if h.im 8 6 == 5 then laneOf dw p.2 else laneOf sw p.1)
  ((cvPairs (h.im 11 9) (h.im 8 6) (h.im 5 4) dw sw).filter act).map fun (i, j) =>
    (j, cvElem (h.im 11 9) (h.im 8 6) f ((elemsOf sw (readV (here s) h.a.toNat)).getD i 0))
/-- The new vD of a conversion. -/
def vcvtReg (s : State) (h : Head) : VReg :=
  let dw := cvBits (h.im 11 9) (readF (here s) (h.im 15 12))
  ofElems dw ((vcvtResults s h).foldl (fun d (j, y, _) => d.set j y) (elemsOf dw (readV (here s) h.d.toNat)))

theorem vcvt_ok {h : Head} {s : State} (hi : Issues s Rows.vcvt (Use.ofRow Rows.vcvt h).readD)
    (hu : Unbound s (Use.ofRow Rows.vcvt h).readD)
    (hn : let f := readF (here s) (h.im 15 12)
      let sw := cvBits (h.im 8 6) f
      let dw := cvBits (h.im 11 9) f
      h.im 11 9 = 5 ∨ h.im 8 6 = 5 →
        Fmt.cls f = 1 ∧ h.im 5 4 * (1024 / (if h.im 11 9 == 5 then sw else dw)) < 1024 / (if h.im 11 9 == 5 then dw else sw)) :
    exec (.vcvt h) s = .next (advance h (Use.ofRow Rows.vcvt h).readD .seq
      (withFlags ((vcvtResults s h).foldl (fun g y => g ||| y.2.2) 0) (withV h (vcvtReg s h) s))) := by
  rw [exec_vcvt]
  refine runHead_vector hi hu ?_
  rw [X.bind_ok (X.get_apply s)]
  dsimp only at hn ⊢
  have hfmt : ((h.im 11 9 == 5 || h.im 8 6 == 5) && Fmt.cls (readF (here s) (h.im 15 12)) != 1) = false := by
    by_cases hnar : h.im 11 9 = 5 ∨ h.im 8 6 = 5
    · simp [(hn hnar).1]
    · simp only [not_or] at hnar
      simp [hnar]
  have hpart : ((h.im 11 9 == 5 || h.im 8 6 == 5) &&
      decide (1024 / (if h.im 11 9 == 5 then cvBits (h.im 11 9) (readF (here s) (h.im 15 12)) else cvBits (h.im 8 6) (readF (here s) (h.im 15 12))) ≤
        h.im 5 4 * (1024 / (if h.im 11 9 == 5 then cvBits (h.im 8 6) (readF (here s) (h.im 15 12)) else cvBits (h.im 11 9) (readF (here s) (h.im 15 12)))))) = false := by
    by_cases hnar : h.im 11 9 = 5 ∨ h.im 8 6 = 5
    · rw [decide_eq_false (Nat.not_le.mpr (hn hnar).2), Bool.and_false]
    · simp only [not_or] at hnar
      simp [hnar]
  simp only [hfmt, hpart, Bool.false_eq_true, ↓reduceIte]
  rfl

theorem vcvt_trap {h : Head} {s : State} (hi : Issues s Rows.vcvt (Use.ofRow Rows.vcvt h).readD)
    (hu : Unbound s (Use.ofRow Rows.vcvt h).readD) (hn : h.im 11 9 = 5 ∨ h.im 8 6 = 5)
    (hf : Fmt.cls (readF (here s) (h.im 15 12)) ≠ 1) : exec (.vcvt h) s = .next (trapAt s 0x02 0 5) := by
  rw [exec_vcvt]
  refine runHead_traps (t := s) hi hu ?_
  rw [X.bind_ok (X.get_apply s)]
  have hfmt : ((h.im 11 9 == 5 || h.im 8 6 == 5) && Fmt.cls (readF (here s) (h.im 15 12)) != 1) = true := by
    simpa [hf] using hn
  simp only [hfmt, ↓reduceIte]
  rfl

/-! ### VQNT (R441) -/

/-- The registers of VQNT. -/
def vqntUse (h : Head) : Use :=
  let u : Use := { rg := [h.b.toNat], rv := (List.range (2 ^ h.im 1 0)).map (h.a.toNat + ·), wg := [h.d.toNat] }
  if h.im 2 2 == 1 then u.readD else u
/-- The elements of a block that VQNT has: all of them, or those of its registers. -/
def vqntPer (s : State) (h : Head) : Nat := Nat.min (2 ^ CapF.k (gB s h)) (32 * 2 ^ h.im 1 0)
/-- The parts of blocks that VQNT quantises. -/
def vqntParts (s : State) (h : Head) : List (List Val) :=
  chunksOf (vqntPer s h) (32 * 2 ^ h.im 1 0 / vqntPer s h)
    ((List.range (2 ^ h.im 1 0)).map fun i => (elemsOf 32 (readV (here s) (h.a.toNat + i))).map (decodeIeee fp32)).flatten
/-- The state with the largest scale byte outstanding for gD. -/
def vqntDone (h : Head) (ns : List Nat) (t : State) : State :=
  withPend (dstG h.d) [] (.cst (Cap.ofInt (BitVec.ofNat 64 (ns.foldl Nat.max 0)))) 6 t

section
variable {h : Head} {s : State} {f : W64} (hi : Issues s Rows.vqnt (vqntUse h)) (hu : Unbound s (vqntUse h))
  (hf : fmtCheck (gB s h) s = .ok f s) (hc : Fmt.cls f = 1) (hs : scaled (gB s h) = true)
  (hj : elemIndex f (gB s h) (CapF.addr (gB s h)) % (vqntPer s h : Nat) = 0)
include hi hu hf hc hs hj

theorem vqnt_own (ho : h.im 3 3 = 1) (ht : (gB s h).tag = true) :
    exec (.vqnt h) s = .next (advance h (vqntUse h) .seq (vqntDone h ((vqntParts s h).map fun p => (quantBlock f p none).1) s)) := by
  rw [exec_vqnt]
  refine runHead_completes hi hu ?_ (by simp) (hu.congr rfl rfl)
  rw [X.bind_ok (X.get_apply s)]
  dsimp only
  rw [X.bind_ok hf]
  unfold vqntPer at hj
  simp only [hc, hs, ho, hj, bne_self_eq_false, Bool.not_true, Bool.or_self, Bool.and_false, Bool.false_eq_true, ↓reduceIte, BEq.rfl]
  rw [X.bind_ok (X.ensure_of ht ..)]
  rfl

/-- The codes and scale bytes of the parts. -/
def vqntCodes (s : State) (h : Head) (f : W64) : List (Nat × List Nat × FFlags) :=
  (vqntParts s h).map fun p =>
    if 32 * 2 ^ h.im 1 0 < 2 ^ CapF.k (gB s h) then quantPart f p ((gD s h).val.toNat % 256)
    else quantBlock f p (if h.im 2 2 == 1 then some ((gD s h).val.toNat % 256) else none)
/-- The bytes of the codes. -/
def vqntBytes (s : State) (h : Head) (f : W64) : List Nat := codeParts f ((vqntCodes s h f).map (·.2.1)).flatten
/-- The accesses of VQNT: its codes, then its scale bytes. -/
def vqntAccs (s : State) (h : Head) (f : W64) : List LaneAcc :=
  ((vqntBytes s h f).zipIdx.map fun (_, i) => { lane := 0, va := (((CapF.addr (gB s h) : Int) + (i : Nat)) % (2 ^ 57 : Nat)).toNat, n := 1 }) ++
  (vqntCodes s h f).zipIdx.map fun (_, i) =>
    { lane := 0
      va := scaleAddr (gB s h) (elemIndex f (gB s h) (CapF.addr (gB s h)) / ((2 ^ CapF.k (gB s h) : Nat) : Int) + (i : Nat))
      n := 1
      data := false }

theorem vqnt_store (hb : 2 ^ CapF.k (gB s h) ≤ 32 * 2 ^ h.im 1 0 ∨ (h.im 2 2 == 1) = true) (ho : h.im 3 3 = 0)
    {spans : List Span} {t : State}
    (hk : check (gB s h) (CapF.addr (gB s h)) (vqntBytes s h f).length CapF.ST 1 s = .ok () s)
    (ha : laneAccess (gB s h) true none (vqntAccs s h f) s = .ok spans s)
    (hp : pushStores (partEntries s true (spans.zip (vqntBytes s h f ++ (vqntCodes s h f).map (·.1)))) s = .ok () t)
    (ht : Unbound t (vqntUse h)) :
    exec (.vqnt h) s = .next (advance h (vqntUse h) .seq (vqntDone h ((vqntCodes s h f).map (·.1))
      (withFlags ((vqntCodes s h f).foldl (fun g r => g ||| r.2.2) 0) t))) := by
  have hfits : (decide (32 * 2 ^ h.im 1 0 < 2 ^ CapF.k (gB s h)) && !(h.im 2 2 == 1)) = false := by
    rcases hb with hb | hb
    · rw [decide_eq_false (Nat.not_lt.mpr hb), Bool.false_and]
    · rw [hb, Bool.not_true, Bool.and_false]
  rw [exec_vqnt]
  refine runHead_completes hi hu ?_ (by simp) (ht.congr (withFlags_cur ..) (withFlags_cores ..))
  rw [X.bind_ok (X.get_apply s)]
  dsimp only
  rw [X.bind_ok hf]
  unfold vqntPer at hj
  simp only [hc, hs, ho, hj, hfits, bne_self_eq_false, Bool.not_true, Bool.or_self, Bool.false_and, Bool.false_eq_true, ↓reduceIte, BEq.rfl,
    Nat.reduceBEq]
  refine (X.bind_ok hk).trans ((X.bind_ok ha).trans ((X.bind_ok hp).trans ?_))
  rfl

end

/-! ### VDEQ (R442) -/

theorem vdeq_ok {h : Head} {s t : State} {f : W64} {u : Use}
    (hu0 : u = { rg := [h.a.toNat], wv := (List.range (2 ^ h.im 1 0)).map (h.d.toNat + ·) })
    (hi : Issues s Rows.vdeq u) (hu : Unbound s u) (hf : fmtCheck (gA s h) s = .ok f s)
    (hl : tensorLoad (gA s h) f (elemIndex f (gA s h) (CapF.addr (gA s h))) h.d.toNat (2 ^ h.im 1 0) (List.range (32 * 2 ^ h.im 1 0)) 0 s =
      .ok () t) (ht : Unbound t u) : exec (.vdeq h) s = .next (advance h u .seq t) := by
  subst hu0
  rw [exec_vdeq]
  refine runHead_completes hi hu ?_ (by simp) ht
  rw [X.bind_ok (X.get_apply s), X.bind_ok hf]
  exact X.then_seq hl

end Sys2Proof.Machine

namespace Sys2Proof
open Machine

theorem eb_pos {f : Ieee} (h : f = fp32 ∨ f = bf16 ∨ f = fp16) : 1 ≤ f.eb := by
  rcases h with rfl | rfl | rfl <;> decide

/-- Settles O31. -/
theorem conversionsRoundToNearest : Obligations.ConversionsRoundToNearest := by
  refine ⟨⟨fun h s hi hu => ⟨fun hn => vcvt_ok hi hu hn, fun hn hf => vcvt_trap hi hu hn hf⟩, ?_, ?_⟩, ?_, ?_, addVal_exact, mulVal_exact⟩
  · exact fun h s f hi hu hf hc hs hb hj => ⟨fun ho ht => vqnt_own hi hu hf hc hs hj ho ht, fun spans t ho hk ha hp ht =>
      vqnt_store hi hu hf hc hs hj (hb.imp_right fun h => h.resolve_right (by rw [ho]; decide)) ho hk ha hp ht⟩
  · exact fun h s f t hi hu hf hl ht => vdeq_ok rfl hi hu hf hl ht
  · exact fun f n m e hf hm hof => roundIeee_near (eb_pos hf) n hm e hof
  · intro f c hf hc hnan
    obtain ⟨n, k, hk, rfl⟩ := code_eq_signed f hc
    exact roundIeee_decode (eb_pos hf) n hk hnan

end Sys2Proof
end

section
set_option Elab.async false
/-! Stream bindings (R443 to R446). -/

namespace Sys2Proof.Machine

/-- The unit that SBIND makes from a shape record. -/
def boundUnit (s : State) (h : Head) (x : Nat) (tag : Bool) : SUnit :=
  let slices := (List.range 4).map (shapeSlice x (streamRank s))
  { cid := s.cur
    v := h.d.toNat
    tcap := ⟨BitVec.ofNat 64 (x / 2 ^ (8 * 0)), BitVec.ofNat 64 (x / 2 ^ (8 * 8)), tag⟩
    dims := (List.range 4).map (shapeDim x)
    strs := (List.range 4).map (shapeStr x)
    starts := slices.map (·.1)
    lens := slices.map (·.2)
    esz := 2 ^ h.im 5 4
    write := h.im 3 3 == 1
    cv := false
    fmt := 0
    slot := if h.im 6 6 == 1 then some ((gB s h).val.toNat % 128) else none
    pattern := leBytes 128 x }
/-- The registers of SBIND from a shape of the launch area. -/
def sbindUse (h : Head) : Use := { rg := if h.im 6 6 == 1 then [h.b.toNat] else [], nv := [h.d.toNat] }

theorem sbind_ok {h : Head} {s : State} {x k : Nat} {tag : Bool} (h2 : h.im 2 2 = 0) (h7 : h.im 7 7 = 0)
    (hi : Issues s Rows.sbind (sbindUse h)) (hfree : unitOf s s.cur h.d.toNat = none)
    (hx : shapeAt (windowOf (coreNo s.cur) + 0x3F080 + 128 * h.im 1 0) s = .ok (x, tag) s) (hok : shapeOk x = true)
    (hslot : h.im 6 6 = 1 → (SMap.get {} (stripOf s (stripNo (coreNo s.cur))).slots ((gB s h).val.toNat % 128)).st = .claimed ∧
      (SMap.get {} (stripOf s (stripNo (coreNo s.cur))).slots ((gB s h).val.toNat % 128)).asid = (here s).asid.toNat)
    (hk : freeUnit s = some k) :
    exec (.sbind h) s = .next (advance h (sbindUse h) .seq (setUnit (coreNo s.cur) k (some (boundUnit s h x tag)) s)) := by
  have huse : ({ rg := (if h.im 2 2 == 1 then [h.a.toNat] else []) ++ (if h.im 6 6 == 1 then [h.b.toNat] else [])
                 nv := [h.d.toNat] } : Use) = sbindUse h := by simp [h2, sbindUse]
  have hnil : ∀ t, Unbound t (sbindUse h) := fun t => unbound_nil rfl
  rw [exec_sbind]
  unfold execSbind
  dsimp only
  rw [huse]
  refine runHead_ok hi hnil ?_
  rw [X.bind_ok (X.get_apply s)]
  simp only [hfree, h2, h7, Option.isSome_none, Bool.false_eq_true, ↓reduceIte, Nat.reduceBEq]
  rw [X.bind_ok hx]
  simp only [hok, ↓reduceIte]
  split
  case isTrue h6 =>
    obtain ⟨hst, hasid⟩ := hslot (by simpa using h6)
    rw [X.bind_ok (X.ensure_of (by simp [hst, hasid]) ..), X.bind_ok (X.get_apply s), hk]
    simp only [boundUnit, h6, ↓reduceIte]
    rfl
  case isFalse h6 =>
    rw [X.bind_ok (X.get_apply s), hk]
    simp only [boundUnit, h6, ↓reduceIte]
    rfl

/-- The registers of a head that names stream registers. -/
theorem nameV_unbound {r : Row} (h : Head) (hr : r.d ≠ .v) (s : State) : Unbound s (Use.ofRow r h).nameV :=
  unbound_nil (by simp [Use.nameV, Use.ofRow, hr])

theorem sunbind_free {h : Head} {s : State} (hi : Issues s Rows.sunbind (Use.ofRow Rows.sunbind h).nameV)
    (hv : unitOf s s.cur h.a.toNat = none) :
    exec (.sunbind h) s = .next (advance h (Use.ofRow Rows.sunbind h).nameV .seq s) := by
  rw [exec_sunbind]
  refine runHead_ok hi (nameV_unbound h (by decide)) ?_
  rw [X.bind_ok (X.get_apply s)]
  simp only [hv]
  rfl

theorem sunbind_bound {h : Head} {s : State} {k : Nat} {u : SUnit} (hi : Issues s Rows.sunbind (Use.ofRow Rows.sunbind h).nameV)
    (hv : unitOf s s.cur h.a.toNat = some (k, u)) (hw : u.write = true → u.out = [] ∧ u.failed = none) :
    exec (.sunbind h) s = .next (advance h (Use.ofRow Rows.sunbind h).nameV .seq
      (zeroV h.a.toNat (setUnit (coreNo s.cur) k none s))) := by
  rw [exec_sunbind]
  refine runHead_ok hi (nameV_unbound h (by decide)) ?_
  rw [X.bind_ok (X.get_apply s)]
  simp only [hv]
  split
  case isTrue hwrite =>
    obtain ⟨hout, hfail⟩ := hw hwrite
    simp only [hout, hfail, List.isEmpty_nil, Bool.not_true, Bool.false_eq_true, ↓reduceIte]
    rfl
  case isFalse => rfl

theorem popIn_ok {s t : State} {v k : Nat} {u : SUnit} {x : VReg} (hv : unitOf s s.cur v = some (k, u)) (hw : u.write = false)
    (hp : popValue u s = .ok (x, none) t) : popIn v s = .ok () (modHere (fun c => { c with v := SMap.set 0 c.v v x }) t) := by
  unfold popIn
  rw [X.bind_ok (X.get_apply s)]
  simp only [hv, hw, Bool.false_eq_true, ↓reduceIte]
  rw [X.bind_ok hp]
  rfl
theorem popDone_ok {s : State} {v k : Nat} {u : SUnit} (hv : unitOf s s.cur v = some (k, u)) :
    popDone v s = .ok () (setUnit (coreNo s.cur) k (some (popped u)) s) := by
  unfold popDone
  rw [X.upd_apply, hv]

end Sys2Proof.Machine

namespace Sys2Proof
open Machine

/-- Settles O32. -/
theorem streamsAreBoundReadAndFreed : Obligations.StreamsAreBoundReadAndFreed :=
  ⟨fun _ _ _ _ _ h2 h7 hi hfree hx hok hslot hk => sbind_ok h2 h7 hi hfree hx hok hslot hk,
    fun _ _ hi => ⟨sunbind_free hi, fun _ _ => sunbind_bound hi⟩,
    fun h s hi => (exec_sstat h s).trans (runHead_ok hi (nameV_unbound h (by decide)) rfl),
    fun _ _ _ _ _ _ hv hw hp => ⟨popIn_ok hv hw hp, popDone_ok hv, rfl⟩⟩

end Sys2Proof
end

section
set_option Elab.async false
/-! Operand slots (R185, R450 to R452). -/

namespace Sys2Proof.Machine

/-! ### Slots of a strip -/

@[simp] theorem modSlot_cur (strip k : Nat) (f : Slot → Slot) (s : State) : (modSlot strip k f s).cur = s.cur := rfl
@[simp] theorem modSlot_ctxs (strip k : Nat) (f : Slot → Slot) (s : State) : (modSlot strip k f s).ctxs = s.ctxs := rfl

theorem get_filter_out {α : Type} {d : α} {p : Nat × α → Bool} {m : SMap α} {k : Nat} (h : ∀ x, p (k, x) = false) :
    SMap.get d (m.filter p) k = d := by
  induction m with
  | nil => rfl
  | cons e m ih =>
    obtain ⟨j, x⟩ := e
    cases hp : p (j, x) with
    | false => rw [List.filter_cons_of_neg (by simp [hp]), ih]
    | true =>
      have hne : k ≠ j := by rintro rfl; rw [h] at hp; cases hp
      rw [List.filter_cons_of_pos hp, SMap.get, if_neg (by simpa using hne), ih]

/-- What a claim makes of the slot. -/
def claimedSlot (s : State) (strip k asid : Nat) : Slot :=
  { st := .claimed
    asid := asid
    fill := if (SMap.get {} (stripOf s strip).slots k).asid == asid then some s.freeCtr else none }

theorem claimSlot_strip (strip k asid : Nat) (s : State) : stripOf (claimSlot strip k asid s) strip =
    { wipeSlot k (stripOf s strip) with slots := SMap.set {} (stripOf s strip).slots k (claimedSlot s strip k asid) } := by
  have hmod : stripOf (modSlot strip k (fun _ => claimedSlot s strip k asid) (modStrip strip (wipeSlot k) s)) strip =
      { wipeSlot k (stripOf s strip) with slots := SMap.set {} (stripOf s strip).slots k (claimedSlot s strip k asid) } := by
    rw [modSlot, stripOf_modStrip, stripOf_modStrip]; rfl
  have hclaim : claimSlot strip k asid s = if (SMap.get {} (stripOf s strip).slots k).asid == asid then
      { modSlot strip k (fun _ => claimedSlot s strip k asid) (modStrip strip (wipeSlot k) s) with
        freeCtr := (modSlot strip k (fun _ => claimedSlot s strip k asid) (modStrip strip (wipeSlot k) s)).freeCtr + 17408 }
      else modSlot strip k (fun _ => claimedSlot s strip k asid) (modStrip strip (wipeSlot k) s) := rfl
  rw [hclaim]
  split <;> exact hmod
@[simp] theorem claimSlot_cur (strip k asid : Nat) (s : State) : (claimSlot strip k asid s).cur = s.cur := by
  unfold claimSlot; dsimp only; split <;> rfl
@[simp] theorem claimSlot_ctxs (strip k asid : Nat) (s : State) : (claimSlot strip k asid s).ctxs = s.ctxs := by
  unfold claimSlot; dsimp only; split <;> rfl
@[simp] theorem claimSlot_copies (strip k asid : Nat) (s : State) : (claimSlot strip k asid s).prisms = s.prisms := by
  unfold claimSlot; dsimp only; split <;> rfl

theorem slotNow_claimSlot (s : State) (k asid : Nat) :
    slotNow (claimSlot (myStrip s) k asid s) k = claimedSlot s (myStrip s) k asid := by
  have hstrip : myStrip (claimSlot (myStrip s) k asid s) = myStrip s := by rw [myStrip, claimSlot_cur, myStrip]
  rw [slotNow, hstrip, claimSlot_strip, SMap.get_set_self]
theorem claimSlot_claims (s : State) (k : Nat) : claimedHere (claimSlot (myStrip s) k (here s).asid.toNat s) k = true := by
  have hhere : here (claimSlot (myStrip s) k (here s).asid.toNat s) = here s := by
    unfold here ctxOf; rw [claimSlot_ctxs, claimSlot_cur]
  rw [claimedHere, slotNow_claimSlot, hhere]
  simp [claimedSlot]

/-- A slot that another ASID held last is zero after its claim. -/
theorem claimSlot_zero {s : State} {k asid : Nat} (hne : (slotNow s k).asid ≠ asid) {i : Nat} (hi : i < 16384) :
    opByte (stripOf (claimSlot (myStrip s) k asid s) (myStrip s)) false (k * 16384 + i) = 0 := by
  have hdiv : (k * 16384 + i) / 16384 = k := by omega
  have hfill : (claimedSlot s (myStrip s) k asid).fill = none := if_neg (by simpa [slotNow] using hne)
  have hwiped : SMap.get none (wipeSlot k (stripOf s (myStrip s))).opmem (k * 16384 + i) = none :=
    get_filter_out fun x => by simp [hdiv]
  rw [claimSlot_strip, opByte]
  simp only [Bool.false_eq_true, ↓reduceIte, hwiped, hdiv, SMap.get_set_self, hfill]

/-! ### The slot heads -/

/-- The slot that operand a names. -/
abbrev slotArg (s : State) (h : Head) : Nat := (opA s h).toNat % 128

section
variable {h : Head} {s : State}

theorem sclaim_free (hi : Issues s Rows.sclaim (Use.ofRow Rows.sclaim h)) (hst : (slotNow s (slotArg s h)).st = .free) :
    exec (.sclaim h) s = .next (advance h (Use.ofRow Rows.sclaim h) .seq (claimSlot (myStrip s) (slotArg s h) (here s).asid.toNat s)) := by
  rw [exec_sclaim]
  refine runHead_ok hi (Row.Scalar.unbound (by decide) h) ?_
  unfold slotArg at hst
  rw [X.bind_ok (X.get_apply s)]
  simp only [hst]
  rfl
theorem sclaim_claimed (hi : Issues s Rows.sclaim (Use.ofRow Rows.sclaim h)) (hst : (slotNow s (slotArg s h)).st = .claimed) :
    exec (.sclaim h) s = .next (trapAt s 0x0F 0 0) := by
  rw [exec_sclaim]
  refine runHead_trap hi (Row.Scalar.unbound (by decide) h) (t := s) ?_
  unfold slotArg at hst
  rw [X.bind_ok (X.get_apply s)]
  simp only [hst]
  rfl

theorem srel_ok (hi : Issues s Rows.srel (Use.ofRow Rows.srel h)) (hc : claimedHere s (slotArg s h) = true) :
    exec (.srel h) s = .next (advance h (Use.ofRow Rows.srel h) .seq
      (if slotNamed s (myStrip s) (slotArg s h) then modSlot (myStrip s) (slotArg s h) (fun t => { t with st := .releasing }) s
        else freeSlot (myStrip s) (slotArg s h) s)) := by
  rw [exec_srel]
  refine runHead_ok hi (Row.Scalar.unbound (by decide) h) ?_
  rw [X.bind_ok (X.get_apply s), X.bind_ok (X.ensure_of hc ..)]
  unfold slotArg
  split <;> rfl
theorem srel_trap (hi : Issues s Rows.srel (Use.ofRow Rows.srel h)) (hc : claimedHere s (slotArg s h) = false) :
    exec (.srel h) s = .next (trapAt s 0x10 0 0) := by
  rw [exec_srel]
  refine runHead_trap hi (Row.Scalar.unbound (by decide) h) (t := s) ?_
  rw [X.bind_ok (X.get_apply s), X.bind_error (X.ensure_of_not hc ..)]

theorem sfmt_ok (hi : Issues s Rows.sfmt (Use.ofRow Rows.sfmt h)) (hf : slotFmtBad (fmtOf s (gB s h)) (gB s h) = false)
    (hc : claimedHere s (slotArg s h) = true) (hn : slotNamed s (myStrip s) (slotArg s h) = false) :
    exec (.sfmt h) s = .next (advance h (Use.ofRow Rows.sfmt h) .seq (modSlot (myStrip s) (slotArg s h)
      (fun t => { t with fmt := some (fmtOf s (gB s h), CapF.smode (gB s h), CapF.k (gB s h)) }) s)) := by
  rw [exec_sfmt]
  refine runHead_ok hi (Row.Scalar.unbound (by decide) h) ?_
  rw [X.bind_ok (X.get_apply s)]
  simp only [hf, Bool.false_eq_true, ↓reduceIte]
  rw [X.bind_ok (X.ensure_of hc ..), X.bind_ok (X.ensure_of (by rw [hn]; rfl) ..)]
  rfl

/-- The scale bytes that an SLOAD of eight rows reads. -/
def sloadScales (s : State) (h : Head) : Nat :=
  if scaled (gB s h) then ktOf (fmtOf s (gB s h)) / Nat.min (2 ^ CapF.k (gB s h)) (ktOf (fmtOf s (gB s h))) else 0
/-- Their accesses. -/
def sloadScaleAccs (s : State) (h : Head) : List LaneAcc :=
  ((rowAddrs (rowBase h (gB s h)) (gD s h).val.toInt).zipIdx.map fun (a, r) => (List.range (sloadScales s h)).map fun (i : Nat) =>
    ({ lane := r
       va := scaleAddr (gB s h) (elemIndex (fmtOf s (gB s h)) (gB s h) a / ((2 ^ CapF.k (gB s h) : Nat) : Int) + (i : Int))
       n := 1
       data := false } : LaneAcc)).flatten

theorem sload_ok {spans : List Span} {ps : List Piece} {t : State} (hi : Issues s Rows.sload (Use.ofRow Rows.sload h).srcD)
    (hc : claimedHere s (slotArg s h) = true)
    (hf : (slotNow s (slotArg s h)).fmt = some (fmtOf s (gB s h), CapF.smode (gB s h), CapF.k (gB s h)))
    (ha : rowAccess (gB s h) (rowAddrs (rowBase h (gB s h)) (gD s h).val.toInt) 128 64 false
      (fun a => scaled (gB s h) && elemIndex (fmtOf s (gB s h)) (gB s h) a %
        (Nat.min (2 ^ CapF.k (gB s h)) (ktOf (fmtOf s (gB s h))) : Nat) != 0) (sloadScaleAccs s h) s = .ok spans s)
    (hn : slotNamed s (myStrip s) (slotArg s h) = false) (hl : loadPieces spans s = .ok ps t) :
    exec (.sload h) s = .next (advance h (Use.ofRow Rows.sload h).srcD .seq (sendReads (here t).nextPend ps
      (withPend (.slotRow (slotArg s h) (rankNo (coreNo s.cur)) (scaled (gB s h))) ps (.rows (sloadScales s h)) 0 t))) := by
  rw [exec_sload]
  refine runHead_ok hi (Row.Scalar.unbound_srcD (by decide) h) ?_
  unfold slotArg at hf hn
  rw [X.bind_ok (X.get_apply s), X.bind_ok (X.ensure_of hc ..)]
  simp only [hf, bne_self_eq_false, Bool.false_eq_true, ↓reduceIte]
  refine (X.bind_ok ha).trans ((X.bind_ok (X.get_apply s)).trans ?_)
  simp only [hn, Bool.false_eq_true, ↓reduceIte]
  exact X.then_seq (issueLoad_ok hl _ _)

end

end Sys2Proof.Machine

namespace Sys2Proof
open Machine

/-- Settles O33. -/
theorem slotHeadsActOnTheirSlot : Obligations.SlotHeadsActOnTheirSlot := by
  intro h s k u c f
  refine ⟨fun hi => ⟨sclaim_free hi, sclaim_claimed hi⟩, ?_, fun hi => ⟨fun hc hn => ?_, fun hc hn => ?_, srel_trap hi⟩,
    fun hi hf hc hn => sfmt_ok hi hf hc hn, fun spans ps t hi hc hf ha hn hl => sload_ok hi hc hf ha hn hl⟩
  · rintro t rfl
    refine ⟨claimSlot_claims s k, ?_, fun hne i hi => claimSlot_zero hne hi⟩
    rw [slotNow_claimSlot]
    rfl
  · exact (srel_ok hi hc).trans (by rw [if_neg (by rw [hn]; decide)])
  · exact (srel_ok hi hc).trans (by rw [if_pos hn])

end Sys2Proof
end

section
set_option Elab.async false
/-! The accumulator heads (R458, R459). -/

namespace Sys2Proof.Machine

/-! ### Zeroed bytes -/

theorem leBytes_zero (n : Nat) : leBytes n 0 = List.replicate n 0 := by
  induction n with
  | zero => rfl
  | succ n ih => simp [leBytes, ih, List.replicate_succ]

theorem peek_byte (s : State) (a : Nat) : peek s a 1 = (SMap.get 0 s.ms.mem a).toNat := by simp [peek, peekBytes, leNat]

/-- A range written with zeros reads zero. -/
theorem peek_poke_zero (s : State) (a n b : Nat) :
    peek (poke a n 0 s) b 1 = if a ≤ b ∧ b < a + n then 0 else peek s b 1 := by
  split
  case isTrue hin =>
    have hget : SMap.get 0 (poke a n 0 s).ms.mem b = 0 := by
      rw [show (poke a n 0 s).ms.mem = pokeBytes s.ms.mem a (leBytes n 0) from rfl, get_pokeBytes, length_leBytes, if_pos hin,
        leBytes_zero, List.getD_eq_getElem?_getD, List.getElem?_replicate, if_pos (by omega)]
      rfl
    rw [peek_byte, hget]
    rfl
  case isFalse hout => exact peek_poke_disjoint s a n 0 b 1 (by omega)

/-! ### AZERO -/

/-- One row cleared where the mask has its bit. -/
def zeroRow (pa mask : Nat) (s : State) (r : Nat) : State := if mask.testBit r then poke (pa + 512 * r) 512 0 s else s
/-- Rows of 512 bytes from `pa`, cleared where the mask has a bit, for the first `n` bits. -/
def zeroRows (pa mask n : Nat) (s : State) : State := (List.range n).foldl (zeroRow pa mask) s

theorem zeroRow_cur (pa mask : Nat) (s : State) (r : Nat) : (zeroRow pa mask s r).cur = s.cur := by
  unfold zeroRow; split
  · exact poke_cur ..
  · rfl
theorem zeroRow_ctxs (pa mask : Nat) (s : State) (r : Nat) : (zeroRow pa mask s r).ctxs = s.ctxs := by
  unfold zeroRow; split
  · exact poke_ctxs ..
  · rfl
theorem peek_zeroRow (pa mask : Nat) (s : State) (r a : Nat) : peek (zeroRow pa mask s r) a 1 =
    if mask.testBit r = true ∧ pa + 512 * r ≤ a ∧ a < pa + 512 * r + 512 then 0 else peek s a 1 := by
  unfold zeroRow
  cases mask.testBit r with
  | false => rw [if_neg (by decide), if_neg (by simp)]
  | true =>
    rw [if_pos rfl, peek_poke_zero]
    exact if_congr (by simp) rfl rfl

theorem zeroRows_succ (pa mask n : Nat) (s : State) : zeroRows pa mask (n + 1) s = zeroRow pa mask (zeroRows pa mask n s) n := by
  rw [zeroRows, List.range_succ, List.foldl_append, List.foldl_cons, List.foldl_nil, zeroRows]
theorem zeroRows_cur (pa mask n : Nat) (s : State) : (zeroRows pa mask n s).cur = s.cur := by
  induction n with
  | zero => rfl
  | succ n ih => rw [zeroRows_succ, zeroRow_cur, ih]
theorem zeroRows_ctxs (pa mask n : Nat) (s : State) : (zeroRows pa mask n s).ctxs = s.ctxs := by
  induction n with
  | zero => rfl
  | succ n ih => rw [zeroRows_succ, zeroRow_ctxs, ih]
theorem peek_zeroRows_in {pa mask n r a : Nat} (s : State) (hr : r < n) (hbit : mask.testBit r = true)
    (ha : pa + 512 * r ≤ a ∧ a < pa + 512 * r + 512) : peek (zeroRows pa mask n s) a 1 = 0 := by
  induction n with
  | zero => omega
  | succ n ih =>
    rw [zeroRows_succ, peek_zeroRow]
    split
    · rfl
    · next hout =>
      refine ih ?_
      rcases Nat.lt_succ_iff_lt_or_eq.mp hr with hlt | rfl
      · exact hlt
      · exact absurd ⟨hbit, ha⟩ hout
theorem peek_zeroRows_out {pa mask n a : Nat} (s : State)
    (h : ∀ r < n, mask.testBit r = true → ¬(pa + 512 * r ≤ a ∧ a < pa + 512 * r + 512)) :
    peek (zeroRows pa mask n s) a 1 = peek s a 1 := by
  induction n with
  | zero => rfl
  | succ n ih =>
    rw [zeroRows_succ, peek_zeroRow, if_neg fun hin => h n (Nat.lt_succ_self n) hin.1 hin.2]
    exact ih fun r hr => h r (Nat.lt_succ_of_lt hr)

theorem zeroRows_inside (s : State) (pa mask : Nat) {r j : Nat} (hr : r < 8) (hj : j < 512) :
    peek (zeroRows pa mask 8 s) (pa + 512 * r + j) 1 = if mask.testBit r then 0 else peek s (pa + 512 * r + j) 1 := by
  split
  case isTrue hbit => exact peek_zeroRows_in s hr hbit (by omega)
  case isFalse hbit =>
    refine peek_zeroRows_out s fun q _ hq hin => hbit ?_
    obtain rfl : q = r := by omega
    exact hq
theorem zeroRows_outside (s : State) (pa mask : Nat) {a : Nat} (ha : a < pa ∨ pa + 4096 ≤ a) :
    peek (zeroRows pa mask 8 s) a 1 = peek s a 1 :=
  peek_zeroRows_out s fun q _ _ hin => by omega

/-- The rows that AZERO clears. -/
def azeroMask (h : Head) : Nat := if h.form == .T2 then h.im 7 0 else 0xFF

theorem zeroRow_eq (pa mask r : Nat) (s : State) :
    (if mask / 2 ^ r % 2 == 1 then poke (pa + 512 * r) 512 0 s else s) = zeroRow pa mask s r := by
  rw [zeroRow, Nat.testBit_eq_decide_div_mod_eq]
  simp only [beq_iff_eq, decide_eq_true_eq]
/-- AZERO finds its bank again at every row. -/
theorem azero_rows (b mask n : Nat) (s : State) :
    (List.range n).foldl (fun s r => if mask / 2 ^ r % 2 == 1 then poke (bankPa (coreNo s.cur) b + 512 * r) 512 0 s else s) s =
      zeroRows (bankPa (coreNo s.cur) b) mask n s := by
  induction n with
  | zero => rw [zeroRows, List.range_zero, List.foldl_nil, List.foldl_nil]
  | succ n ih => rw [zeroRows_succ, List.range_succ, List.foldl_append, ih, List.foldl_cons, List.foldl_nil, zeroRow_eq, zeroRows_cur]

theorem bankReady_ok {s : State} {b : Nat} (hb : bankHeld s b = false) : bankReady b s = .ok () s := by
  unfold bankReady
  rw [X.bind_ok (X.get_apply s)]
  simp only [hb, Bool.false_eq_true, ↓reduceIte]
  rfl

theorem azero_ok {h : Head} {s : State} (hb : bankHeld s h.d.toNat = false) (hi : Issues s Rows.azero {}) :
    exec (.azero h) s = .next (advance h {} .seq (zeroRows (bankPa (coreNo s.cur) h.d.toNat) (azeroMask h) 8 s)) := by
  rw [exec_azero]
  refine runHead_ok hi (fun _ => unbound_nil rfl) ?_
  rw [X.bind_ok (bankReady_ok hb)]
  refine X.then_seq ?_
  rw [X.upd_apply, azero_rows, azeroMask]

/-! ### ASCALE -/

/-- A code has a sign, an exponent and a mantissa. -/
theorem roundIeee_lt {f : Ieee} (hf : 1 ≤ f.mb) (v : Val) : (roundIeee f v).1 < 2 ^ (1 + f.eb + f.mb) := by
  have hdouble : 2 ^ (1 + f.eb + f.mb) = 2 ^ (f.eb + f.mb) + 2 ^ (f.eb + f.mb) := by rw [Nat.add_assoc, Nat.add_comm 1, pow_succ, Nat.mul_two]
  have hinf := infCode_lt f
  have hsign (n : Bool) : f.signBit n ≤ 2 ^ (f.eb + f.mb) := by cases n <;> simp [Ieee.signBit]
  cases v with
  | nan =>
    have hhalf : 2 ^ (f.mb - 1) < 2 ^ (f.eb + f.mb) := Nat.pow_lt_pow_right (by omega) (by omega)
    rw [hdouble]
    exact Nat.add_lt_add hinf hhalf
  | inf n =>
    rw [hdouble]
    exact Nat.add_lt_add_of_le_of_lt (hsign n) hinf
  | num n m e =>
    have hpos := Nat.two_pow_pos (f.eb + f.mb)
    rw [hdouble]
    by_cases hm : m = 0
    · subst hm
      exact (hsign n).trans_lt (Nat.lt_add_of_pos_right hpos)
    · rw [roundIeee_num f n hm]
      dsimp only
      split
      · exact Nat.add_lt_add_of_le_of_lt (hsign n) hinf
      · exact Nat.add_lt_add_of_le_of_lt (hsign n) (by omega)
theorem roundIeee_fp32_lt (v : Val) : (roundIeee fp32 v).1 < 2 ^ 32 := roundIeee_lt (f := fp32) (by decide) v

/-- Numbers put together lowest first are found again. -/
theorem foldr_word {β : Type} {w : Nat} {ys : List β} {f : β → Nat} (hlt : ∀ y ∈ ys, f y < 2 ^ w) {i : Nat} {y : β} (hy : ys[i]? = some y) :
    ys.foldr (fun y acc => f y + 2 ^ w * acc) 0 / 2 ^ (w * i) % 2 ^ w = f y := by
  have hmap : ys.foldr (fun y acc => f y + 2 ^ w * acc) 0 = (ys.map f).foldr (fun x acc => x % 2 ^ w + 2 ^ w * acc) 0 := by
    rw [List.foldr_map]
    exact List.foldr_ext _ _ _ fun y hy acc => by rw [Nat.mod_eq_of_lt (hlt y hy)]
  rw [hmap, foldr_digit, List.getD_eq_getElem?_getD, List.getElem?_map, hy]
  exact Nat.mod_eq_of_lt (hlt y (List.mem_of_getElem? hy))

/-- The bits of flags joined. -/
theorem foldl_flags {β : Type} (f : β → FFlags) (ys : List β) (g : FFlags) (b : Nat) :
    (ys.foldl (fun g y => g ||| f y) g).getLsbD b = (g.getLsbD b || ys.any fun y => (f y).getLsbD b) := by
  induction ys generalizing g with
  | nil => simp
  | cons y ys ih => simp [ih, Bool.or_assoc]

/-- What ASCALE multiplies by. -/
def ascaleBy (s : State) (h : Head) : Val :=
  if h.form == .T2 then .num false 1 (signedOf 8 (h.im 7 0)) else decodeIeee fp32 ((gA s h).val.toNat % 2 ^ 32)
/-- An element scaled, before it is rounded. -/
def ascaleElem (s : State) (h : Head) (i : Nat) : Val × FFlags :=
  mulVal (decodeIeee fp32 (peek s (bankPa (coreNo s.cur) h.d.toNat) 4096 / 2 ^ (32 * i) % 2 ^ 32)) (ascaleBy s h)
/-- A value rounded to a code, with the flags so far. The format is a variable so that the kernel does not compute with
the codes of FP32. -/
def roundedWord (f : Ieee) (p : Val × FFlags) : Nat × FFlags := ((roundIeee f p.1).1, p.2 ||| (roundIeee f p.1).2)
theorem roundedWord_fst (f : Ieee) (p : Val × FFlags) : (roundedWord f p).1 = (roundIeee f p.1).1 := rfl
theorem roundedWord_snd (f : Ieee) (p : Val × FFlags) : (roundedWord f p).2 = p.2 ||| (roundIeee f p.1).2 := rfl

/-- An element scaled and rounded. -/
def ascaleWord (s : State) (h : Head) (i : Nat) : Nat × FFlags := roundedWord fp32 (ascaleElem s h i)
theorem ascaleWord_lt (s : State) (h : Head) (i : Nat) : (ascaleWord s h i).1 < 2 ^ 32 := by
  rw [ascaleWord, roundedWord_fst]
  exact roundIeee_fp32_lt _
/-- The number that words make, and their flags. -/
def wordsOf (f : Nat → Nat × FFlags) (n : Nat) : Nat := ((List.range n).map f).foldr (fun y acc => y.1 + 2 ^ 32 * acc) 0
def flagsOf (f : Nat → Nat × FFlags) (n : Nat) : FFlags := ((List.range n).map f).foldl (fun g y => g ||| y.2) 0

theorem ascale_ok {h : Head} {s : State} (hb : bankHeld s h.d.toNat = false)
    (hi : Issues s Rows.ascale { rg := if h.form == .T2 then [] else [h.a.toNat] }) :
    exec (.ascale h) s = .next (advance h { rg := if h.form == .T2 then [] else [h.a.toNat] } .seq
      (withFlags (flagsOf (ascaleWord s h) 1024)
        (poke (bankPa (coreNo s.cur) h.d.toNat) 4096 (wordsOf (ascaleWord s h) 1024) s))) := by
  obtain ⟨f, hf, hex⟩ : ∃ f : Nat → Nat × FFlags, (∀ i, f i = ascaleWord s h i) ∧
      exec (.ascale h) s = .next (advance h { rg := if h.form == .T2 then [] else [h.a.toNat] } .seq
        (withFlags (flagsOf f 1024) (poke (bankPa (coreNo s.cur) h.d.toNat) 4096 (wordsOf f 1024) s))) := by
    apply Exists.intro
    constructor
    case right =>
      rw [exec_ascale]
      refine runHead_ok hi (fun _ => unbound_nil rfl) ?_
      rw [X.bind_ok (bankReady_ok hb), X.bind_ok (X.get_apply s)]
      refine (X.bind_ok (X.upd_apply ..)).trans (X.then_seq ?_)
      exact flags_apply _ _
    case left =>
      intro i
      unfold ascaleWord roundedWord ascaleElem ascaleBy
      generalize mulVal _ _ = p
      obtain ⟨v, g⟩ := p
      dsimp only
  rw [hex, funext hf]

theorem wordsOf_digit {f : Nat → Nat × FFlags} {n i : Nat} (hlt : ∀ k, (f k).1 < 2 ^ 32) (hi : i < n) :
    wordsOf f n / 2 ^ (32 * i) % 2 ^ 32 = (f i).1 := by
  refine foldr_word (f := Prod.fst) (y := f i) (fun y hy => ?_) ?_
  · obtain ⟨k, -, rfl⟩ := List.mem_map.mp hy
    exact hlt k
  · rw [List.getElem?_map, List.getElem?_range hi, Option.map_some]
theorem flagsOf_bit (f : Nat → Nat × FFlags) (n b : Nat) :
    (flagsOf f n).getLsbD b = true ↔ ∃ i < n, (f i).2.getLsbD b = true := by
  rw [flagsOf, foldl_flags (β := Nat × FFlags) Prod.snd, List.any_map]
  simp

/-! ### ASTORE, ALOAD and AMOVV -/

section
variable {h : Head} {s : State}

/-- An ASTORE stores the first of the lines that are left. -/
theorem astore_step {e : SbEntry} {r : List SbEntry} {t : State}
    (hes : (if (here s).storing.isEmpty then astoreLines h else pure (here s).storing) s = .ok (e :: r) s)
    (hi : Issues s Rows.astore { rg := [h.a.toNat, h.b.toNat] }) (hp : pushStores [e] s = .ok () t) :
    exec (.astore h) s = .next (advance h { rg := [h.a.toNat, h.b.toNat] } (if r = [] then .seq else .again)
      (modHere (fun x => { x with storing := r }) t)) := by
  rw [exec_astore]
  refine runHead_ok hi (fun _ => unbound_nil rfl) ?_ (by split <;> simp)
  rw [X.bind_ok (X.get_apply s)]
  split at hes
  case isTrue hst =>
    rw [if_pos hst]
    refine (X.bind_ok hes).trans ((X.bind_ok hp).trans ((X.bind_ok (X.upd_apply ..)).trans ?_))
    simp only [List.isEmpty_iff]
    rfl
  case isFalse hst =>
    rw [if_neg hst]
    refine (X.bind_ok hes).trans ((X.bind_ok hp).trans ((X.bind_ok (X.upd_apply ..)).trans ?_))
    simp only [List.isEmpty_iff]
    rfl

theorem astoreLines_ok {spans : List Span} (hb : bankHeld s h.d.toNat = false)
    (ha : rowAccess (gA s h) (rowAddrs (rowBase h (gA s h)) (bankStride s h)) 512 4 true (fun _ => false) [] s = .ok spans s) :
    astoreLines h s = .ok (storeEntries s s.cur false spans (peek s (bankPa (coreNo s.cur) h.d.toNat) 4096)) s := by
  unfold astoreLines
  rw [X.bind_ok (X.get_apply s), X.bind_ok ha, X.bind_ok (bankReady_ok hb)]
  rfl

theorem aload_ok {spans : List Span} {ps : List Piece} {t : State} (hb : bankHeld s h.d.toNat = false)
    (hi : Issues s Rows.aload { rg := [h.a.toNat, h.b.toNat] })
    (ha : rowAccess (gA s h) (rowAddrs (rowBase h (gA s h)) (bankStride s h)) 512 4 false (fun _ => false) [] s = .ok spans s)
    (hl : loadPieces spans s = .ok ps t) :
    exec (.aload h) s = .next (advance h { rg := [h.a.toNat, h.b.toNat] } .seq (sendReads (here t).nextPend ps
      (withPend (.bank (bankPa (coreNo s.cur) h.d.toNat)) ps (.rows 0) 0 t))) := by
  rw [exec_aload]
  refine runHead_ok hi (fun _ => unbound_nil rfl) ?_
  rw [X.bind_ok (X.get_apply s), X.bind_ok ha, X.bind_ok (bankReady_ok hb), X.bind_ok (X.get_apply s)]
  exact X.then_seq (issueLoad_ok hl _ _)

/-- The bytes of a bank that AMOVV moves. -/
def amovvAt (s : State) (h : Head) : Nat := bankPa (coreNo s.cur) h.a.toNat + 512 * h.im 2 0 + 128 * h.im 4 3

theorem amovv_into (hb : bankHeld s h.a.toNat = false) (h5 : h.im 5 5 = 1) (hi : Issues s Rows.amovv { rv := [h.d.toNat] })
    (hu : Unbound s { rv := [h.d.toNat] }) :
    exec (.amovv h) s = .next (advance h { rv := [h.d.toNat] } .seq (poke (amovvAt s h) 128 (readV (here s) h.d.toNat).toNat s)) := by
  rw [exec_amovv]
  unfold execAmovv
  simp only [h5, BEq.rfl, ↓reduceIte]
  refine runHead_completes hi hu ?_ (by simp) (hu.congr rfl rfl)
  rw [X.bind_ok (bankReady_ok hb)]
  rfl
theorem amovv_from (hb : bankHeld s h.a.toNat = false) (h5 : h.im 5 5 = 0) (hi : Issues s Rows.amovv { wv := [h.d.toNat] })
    (hu : Unbound s { wv := [h.d.toNat] }) :
    exec (.amovv h) s = .next (advance h { wv := [h.d.toNat] } .seq (withV h (BitVec.ofNat 1024 (peek s (amovvAt s h) 128)) s)) := by
  rw [exec_amovv]
  unfold execAmovv
  simp only [h5, Nat.reduceBEq, Bool.false_eq_true, ↓reduceIte]
  refine runHead_vector_quiet hi hu ?_
  rw [X.bind_ok (bankReady_ok hb)]
  rfl

end

end Sys2Proof.Machine

namespace Sys2Proof
open Machine

/-- Settles O34. -/
theorem accumulatorHeadsActOnTheirBank : Obligations.AccumulatorHeadsActOnTheirBank := by
  intro h s core rows pa
  refine ⟨fun hb => ⟨fun hi => ?_, ?_, ?_, ?_⟩, ?_, fun hb => ⟨fun h5 hi hu => amovv_into hb h5 hi hu, fun h5 hi hu => amovv_from hb h5 hi hu⟩⟩
  · refine ⟨_, azero_ok hb hi, zeroRows_ctxs .., fun r j hr hj => ?_, fun a ha => zeroRows_outside s _ _ ha⟩
    have hmask : azeroMask h = if h.form = .T2 then h.im 7 0 else 0xFF := by simp only [azeroMask, beq_iff_eq]
    rw [← hmask]
    exact zeroRows_inside s _ _ hr hj
  · intro u m old y hi
    have hy (i : Nat) : y i = ascaleElem s h i := by rw [ascaleElem, ascaleBy]
    refine ⟨_, _, ascale_ok hb hi, fun i hi => ?_, fun b _ => ?_⟩
    · rw [hy, wordsOf_digit (ascaleWord_lt s h) hi, ascaleWord, roundedWord_fst]
    · simp only [flagsOf_bit, hy, ascaleWord, roundedWord_snd]
  · intro spans e r t u hi hst ha hes hp
    refine astore_step ?_ hi hp
    rw [hst, ← hes]
    exact astoreLines_ok hb ha
  · exact fun spans ps t hi ha hl => aload_ok hb hi ha hl
  · intro e r t u hi hst hp
    exact astore_step (by rw [hst]; rfl) hi hp

end Sys2Proof
end

section
set_option Elab.async false
/-! MMA (R184, R454 to R457). -/

namespace Sys2Proof.Machine

/-- The stop that a body raises is the head's. -/
theorem perform_error {r : Row} {h : Head} {u : Use} {body : X Next} {s t : State} {st : Stop} (hi : Issues s r u)
    (hu : Unbound s u) (hb : body s = .error st t) : perform r h u body s = .error st t := by
  have mem : ∀ v ∈ u.rv.eraseDups, v ∈ u.rv ++ u.wv := fun v hv => by
    simp at hv ⊢; exact Or.inl hv
  have h1 := X.forM_idle (f := popIn) u.rv.eraseDups fun v hv => popIn_idle (hu v (mem v hv))
  have h2 := X.forM_idle (f := pushCheck) u.wv fun v hv => pushCheck_idle (hu v (by simp [hv]))
  unfold perform
  rw [X.bind_ok (pairGate_open hi.2.1), X.bind_ok h1, X.bind_ok h2, X.bind_error hb]

/-! ### The ranks that wait -/

/-- The wait of the issuing rank. -/
def mmaWaitOf (s : State) (h : Head) : MmaWait :=
  { cid := s.cur
    rank := rankNo (coreNo s.cur)
    ord := (firOf s s.cur).mmaOrd
    slotA := (opA s h).toNat % 128
    slotB := (gB s h).val.toNat % 128
    f := h.f.toNat
    bank := h.d.toNat
    z := h.im 0 0 == 1 }
/-- The waits of the strip with the issuing rank's. -/
def mmaWaits (s : State) (h : Head) : List MmaWait :=
  (stripOf s (stripNo (coreNo s.cur))).mmaWait.filter (·.rank != (mmaWaitOf s h).rank) ++ [mmaWaitOf s h]
/-- The issuing rank waits too. -/
def mmaArrived (s : State) (h : Head) : State :=
  modStrip (stripNo (coreNo s.cur)) (fun t => { t with mmaWait := t.mmaWait.filter (·.rank != (mmaWaitOf s h).rank) ++ [mmaWaitOf s h] }) s

theorem mmaArrived_waits (s : State) (h : Head) : (stripOf (mmaArrived s h) (stripNo (coreNo s.cur))).mmaWait = mmaWaits s h := by
  rw [mmaArrived, stripOf_modStrip, mmaWaits]

/-- Ranks agree when every two name the same slots and format pair. -/
theorem mmaAgree_iff (ws : List MmaWait) :
    mmaAgree ws = true ↔ ∀ x ∈ ws, ∀ y ∈ ws, x.slotA = y.slotA ∧ x.slotB = y.slotB ∧ x.f = y.f := by
  cases ws with
  | nil => simp [mmaAgree]
  | cons w r =>
    have hfirst : mmaAgree (w :: r) = true ↔ ∀ x ∈ w :: r, x.slotA = w.slotA ∧ x.slotB = w.slotB ∧ x.f = w.f := by
      simp [mmaAgree, and_assoc]
    rw [hfirst]
    constructor
    · intro h x hx y hy
      obtain ⟨ha, hb, hf⟩ := h x hx
      obtain ⟨ha', hb', hf'⟩ := h y hy
      exact ⟨ha.trans ha'.symm, hb.trans hb'.symm, hf.trans hf'.symm⟩
    · exact fun h x hx => h x hx w List.mem_cons_self

/-! ### The head -/

/-- What lets a rank arrive: a gang's firing past its gate, its slots claimed and of the head's formats, loaded and not
poisoned, room for an operation, and no load into its bank. -/
structure MmaReady (s : State) (h : Head) : Prop where
  gang : gangFiring s = true
  passed : (firOf s s.cur).gangPassed = true
  claimedA : claimedHere s ((opA s h).toNat % 128) = true
  claimedB : claimedHere s ((gB s h).val.toNat % 128) = true
  formatA : pairFmt h.f.toNat (slotNow s ((opA s h).toNat % 128)).fmt = true
  formatB : pairFmt h.f.toNat (slotNow s ((gB s h).val.toNat % 128)).fmt = true
  loadedA : slotLoading s ((opA s h).toNat % 128) = false
  loadedB : slotLoading s ((gB s h).val.toNat % 128) = false
  soundA : slotPoisoned s ((opA s h).toNat % 128) = false
  soundB : slotPoisoned s ((gB s h).val.toNat % 128) = false
  room : ((stripOf s (stripNo (coreNo s.cur))).ops.filter fun o => o.parts.any (·.rank == rankNo (coreNo s.cur))).length < 2
  bank : ((List.range 8).any fun j => (ctxOf s (coreNo s.cur * 8 + j)).pend.any fun p =>
    p.dst == .bank (bankPa (coreNo s.cur) h.d.toNat)) = false

section
variable {h : Head} {s : State} (hbad : (firOf s s.cur).mmaBad = false) (hg : (here s).granted = false)
include hbad hg

/-- A rank that may arrive arrives; the sixteenth forms the operation, the others wait. -/
theorem mmaBody_arrives (hr : MmaReady s h) : mmaBody h s =
    (if (mmaWaits s h).length == 16 then (do
      upd (mmaForm (stripNo (coreNo s.cur)))
      if mmaAgree (mmaWaits s h) then pure .seq else throw (.trap 0x02 0 3) : X Next)
    else throw (.wait .mma)) (mmaArrived s h) := by
  obtain ⟨hgang, hpassed, hca, hcb, hfa, hfb, hla, hlb, hsa, hsb, hroom, hbank⟩ := hr
  unfold mmaBody
  rw [X.bind_ok (X.get_apply s)]
  simp only [hbad, Bool.false_eq_true, ↓reduceIte]
  rw [X.bind_ok (answered_of_not hg .mma)]
  simp only [hgang, hpassed, Bool.not_true, Bool.false_eq_true, ↓reduceIte]
  rw [X.bind_ok (X.ensure_of (by rw [hca, hcb]; rfl) ..)]
  simp only [hfa, hfb, hla, hlb, hsa, hsb, hbank, Nat.not_le.mpr hroom, Bool.and_self, Bool.or_self, Bool.not_true, Bool.false_eq_true,
    ↓reduceIte]
  refine (X.bind_ok (X.upd_apply ..)).trans ((X.bind_ok (X.get_apply _)).trans ?_)
  have hw := mmaArrived_waits s h
  unfold mmaArrived mmaWaitOf at hw
  simp only [hw]
  rfl

theorem mma_outside (hi : Issues s Rows.mma (Use.ofRow Rows.mma h)) (hgang : gangFiring s = false) :
    exec (.mma h) s = .next (trapAt s 0x02 0 2) := by
  have hbody : mmaBody h s = .error (.trap 0x02 0 2) s := by
    unfold mmaBody
    rw [X.bind_ok (X.get_apply s)]
    simp only [hbad, Bool.false_eq_true, ↓reduceIte]
    rw [X.bind_ok (answered_of_not hg .mma)]
    simp only [hgang, Bool.not_false, Bool.false_eq_true, ↓reduceIte]
    rfl
  have hrun : (mmaBody h).run s = .error (.trap 0x02 0 2) s := hbody
  rw [exec_mma]
  unfold execMma
  simp only [hi.1, perform_error hi (Row.Scalar.unbound (by decide) h s) hbody, clearBad, hrun]
  rfl

theorem mma_forms (hi : Issues s Rows.mma (Use.ofRow Rows.mma h)) (hr : MmaReady s h) (h16 : (mmaWaits s h).length = 16)
    (ha : mmaAgree (mmaWaits s h) = true) :
    exec (.mma h) s = .next (advance h (Use.ofRow Rows.mma h) .seq (mmaForm (stripNo (coreNo s.cur)) (mmaArrived s h))) := by
  have hbody : mmaBody h s = .ok .seq (mmaForm (stripNo (coreNo s.cur)) (mmaArrived s h)) := by
    rw [mmaBody_arrives hbad hg hr, if_pos (by rw [h16]; rfl), X.bind_ok (X.upd_apply ..), if_pos ha]
    rfl
  have hu := Row.Scalar.unbound (r := Rows.mma) (by decide) h
  rw [exec_mma]
  unfold execMma
  simp only [hi.1, perform_ok hi.2.1 (hu s) hbody (by simp) (hu _)]

theorem mma_waits (hi : Issues s Rows.mma (Use.ofRow Rows.mma h)) (hr : MmaReady s h) (h16 : (mmaWaits s h).length ≠ 16) :
    exec (.mma h) s = .next (beginWait s.cur .mma (mmaArrived s h)) := by
  have hbody : mmaBody h s = .error (.wait .mma) (mmaArrived s h) := by
    rw [mmaBody_arrives hbad hg hr, if_neg (by simpa using h16)]
    rfl
  have hrun : (mmaBody h).run s = .error (.wait .mma) (mmaArrived s h) := hbody
  have hthread := hi.not_thread (by decide)
  have hconf := confirmed_of_refused hi (by decide) (by decide)
  rw [exec_mma]
  unfold execMma
  simp only [hi.1, perform_error hi (Row.Scalar.unbound (by decide) h s) hbody, clearBad, hrun, onStop, hthread, hconf,
    Bool.false_eq_true, ↓reduceIte]

end

end Sys2Proof.Machine

namespace Sys2Proof
open Machine

/-- Settles O35. -/
theorem mmaFormsWhenEveryRankArrives : Obligations.MmaFormsWhenEveryRankArrives := by
  intro h s u core strip a b w ws t hi hbad hg
  refine ⟨mma_outside hbad hg hi, fun h1 h2 h3 h4 h5 h6 h7 h8 h9 h10 h11 h12 => ?_, mmaAgree_iff ws⟩
  have hr : MmaReady s h := ⟨h1, h2, h3, h4, h5, h6, h7, h8, h9, h10, h11, h12⟩
  exact ⟨mma_forms hbad hg hi hr, mma_waits hbad hg hi hr⟩

end Sys2Proof
end

section
set_option Elab.async false
/-! Control registers (R343 to R345, R460 to R462). -/

namespace Sys2Proof.Machine

/-! ### Read after write -/

/-- A control register, from the parts of the state that hold it; `tbl` is the entry that TBLSEL selects. -/
def crReadOf (x : Ctx) (k : CoreSt) (t : StripSt) (r : DevRegs) (cyc dev core handle tbl m : Nat) : Nat :=
  match m with
  | 0x001 => cyc
  | 0x002 => dev % 2 ^ 14 * 2 ^ 12 + core
  | 0x003 => handle
  | 0x004 => x.fpflags.toNat
  | 0x022 => x.cpcnt.toNat
  | 0x023 => x.cpstr.toNat
  | 0x024 => x.cpmcast.toNat
  | 0x026 => x.cpctl.toNat
  | 0x100 => x.trappc.toNat
  | 0x101 => x.trapcause.toNat
  | 0x102 => x.trapaddr.toNat
  | 0x103 => x.trapinfo.toNat
  | 0x105 => x.asid.toNat
  | 0x106 => r.ptroot.toNat
  | 0x108 => k.spbase.toNat
  | 0x109 => k.spctl.toNat
  | 0x10A => t.gwlim.toNat
  | 0x10B => r.rtbase.toNat
  | 0x10C => r.htbase.toNat
  | 0x10D => r.pspbase.toNat
  | 0x10E => (if r.prbusy then 2 ^ 63 else 0) + r.prstatus.toNat * 2 ^ 60
  | 0x10F => r.prarg.toNat
  | 0x110 => r.srbase.toNat
  | 0x111 => r.srctl.toNat
  | 0x120 => x.tblsel.toNat
  | 0x121 => tbl
  | 0x300 => r.fwctl.toNat
  | _ => if 0x10 ≤ m && m ≤ 0x1F then (readF x (m - 0x10)).toNat else 0

theorem crRead_eq (s : State) (m : Nat) :
    crRead s m = crReadOf (here s) (coreOf s (lineCore s)) (stripOf s (stripNo (lineCore s))) s.regs s.cyc s.dev (lineCore s)
      (firOf s s.cur).handle (tblEntry s (here s)) m := rfl

section
variable {s : State} {m : Nat}

/-- A write to the context that keeps its firing, line and trap state is seen in the context alone. -/
theorem crRead_modHere (f : Ctx → Ctx) (hfl : (f (here s)).fl = (here s).fl) (hpc : (f (here s)).pc = (here s).pc)
    (hfir : (f (here s)).fir = (here s).fir) : ∃ tbl, crRead (modHere f s) m =
      crReadOf (f (here s)) (coreOf s (lineCore s)) (stripOf s (stripNo (lineCore s))) s.regs s.cyc s.dev (lineCore s)
        (firOf s s.cur).handle tbl m := by
  have hfirOf : firOf (modHere f s) s.cur = firOf s s.cur := by
    have : (ctxOf (modHere f s) s.cur).fir = (ctxOf s s.cur).fir := (congrArg Ctx.fir (here_modHere f s)).trans hfir
    rw [firOf, this, ← firOf]
  have hline : lineCore (modHere f s) = lineCore s := by
    rw [lineCore, here_modHere, hfl, hpc, modHere_cur, hfirOf]
    rfl
  refine ⟨tblEntry (modHere f s) (here (modHere f s)), (crRead_eq ..).trans ?_⟩
  generalize tblEntry _ _ = tbl
  rw [hline, modHere_cur, hfirOf, here_modHere]
  rfl
theorem crRead_modRegs (f : DevRegs → DevRegs) : ∃ tbl, crRead (modRegs f s) m =
    crReadOf (here s) (coreOf s (lineCore s)) (stripOf s (stripNo (lineCore s))) (f s.regs) s.cyc s.dev (lineCore s)
      (firOf s s.cur).handle tbl m := ⟨_, crRead_eq ..⟩
theorem crRead_modCore (f : CoreSt → CoreSt) : ∃ tbl, crRead (modCore (lineCore s) f s) m =
    crReadOf (here s) (f (coreOf s (lineCore s))) (stripOf s (stripNo (lineCore s))) s.regs s.cyc s.dev (lineCore s)
      (firOf s s.cur).handle tbl m := by
  refine ⟨tblEntry (modCore (lineCore s) f s) (here s), (crRead_eq ..).trans ?_⟩
  rw [show lineCore (modCore (lineCore s) f s) = lineCore s from rfl, coreOf_modCore]
  rfl
theorem crRead_modStrip (f : StripSt → StripSt) : ∃ tbl, crRead (modStrip (stripNo (lineCore s)) f s) m =
    crReadOf (here s) (coreOf s (lineCore s)) (f (stripOf s (stripNo (lineCore s)))) s.regs s.cyc s.dev (lineCore s)
      (firOf s s.cur).handle tbl m := by
  refine ⟨tblEntry (modStrip (stripNo (lineCore s)) f s) (here s), (crRead_eq ..).trans ?_⟩
  rw [show lineCore (modStrip (stripNo (lineCore s)) f s) = lineCore s from rfl, stripOf_modStrip]
  rfl

end

/-! ### One register of the parts changed -/

section
variable {x : Ctx} {k : CoreSt} {t : StripSt} {r : DevRegs} {cyc dev core handle tbl tbl' m : Nat} (hm : m ≠ 0x121)
include hm

theorem crReadOf_fpflags (v : BitVec 6) (hn : m ≠ 4) :
    crReadOf { x with fpflags := v } k t r cyc dev core handle tbl m = crReadOf x k t r cyc dev core handle tbl' m := by
  unfold crReadOf; split <;> simp_all [readF]
theorem crReadOf_cpcnt (v : W64) (hn : m ≠ 0x22) :
    crReadOf { x with cpcnt := v } k t r cyc dev core handle tbl m = crReadOf x k t r cyc dev core handle tbl' m := by
  unfold crReadOf; split <;> simp_all [readF]
theorem crReadOf_cpstr (v : W64) (hn : m ≠ 0x23) :
    crReadOf { x with cpstr := v } k t r cyc dev core handle tbl m = crReadOf x k t r cyc dev core handle tbl' m := by
  unfold crReadOf; split <;> simp_all [readF]
theorem crReadOf_cpmcast (v : W64) (hn : m ≠ 0x24) :
    crReadOf { x with cpmcast := v } k t r cyc dev core handle tbl m = crReadOf x k t r cyc dev core handle tbl' m := by
  unfold crReadOf; split <;> simp_all [readF]
theorem crReadOf_cpctl (v : W64) (hn : m ≠ 0x26) :
    crReadOf { x with cpctl := v } k t r cyc dev core handle tbl m = crReadOf x k t r cyc dev core handle tbl' m := by
  unfold crReadOf; split <;> simp_all [readF]
theorem crReadOf_trappc (v : W64) (hn : m ≠ 0x100) :
    crReadOf { x with trappc := v } k t r cyc dev core handle tbl m = crReadOf x k t r cyc dev core handle tbl' m := by
  unfold crReadOf; split <;> simp_all [readF]
theorem crReadOf_trapaddr (v : W64) (hn : m ≠ 0x102) :
    crReadOf { x with trapaddr := v } k t r cyc dev core handle tbl m = crReadOf x k t r cyc dev core handle tbl' m := by
  unfold crReadOf; split <;> simp_all [readF]
theorem crReadOf_trapinfo (v : W64) (hn : m ≠ 0x103) :
    crReadOf { x with trapinfo := v } k t r cyc dev core handle tbl m = crReadOf x k t r cyc dev core handle tbl' m := by
  unfold crReadOf; split <;> simp_all [readF]
theorem crReadOf_asid (v : BitVec 12) (hn : m ≠ 0x105) :
    crReadOf { x with asid := v } k t r cyc dev core handle tbl m = crReadOf x k t r cyc dev core handle tbl' m := by
  unfold crReadOf; split <;> simp_all [readF]
theorem crReadOf_tblsel (v : W64) (hn : m ≠ 0x120) :
    crReadOf { x with tblsel := v } k t r cyc dev core handle tbl m = crReadOf x k t r cyc dev core handle tbl' m := by
  unfold crReadOf; split <;> simp_all [readF]
theorem crReadOf_ptroot (v : W64) (hn : m ≠ 0x106) :
    crReadOf x k t { r with ptroot := v } cyc dev core handle tbl m = crReadOf x k t r cyc dev core handle tbl' m := by
  unfold crReadOf; split <;> simp_all
theorem crReadOf_rtbase (v : W64) (hn : m ≠ 0x10B) :
    crReadOf x k t { r with rtbase := v } cyc dev core handle tbl m = crReadOf x k t r cyc dev core handle tbl' m := by
  unfold crReadOf; split <;> simp_all
theorem crReadOf_htbase (v : W64) (hn : m ≠ 0x10C) :
    crReadOf x k t { r with htbase := v } cyc dev core handle tbl m = crReadOf x k t r cyc dev core handle tbl' m := by
  unfold crReadOf; split <;> simp_all
theorem crReadOf_pspbase (v : W64) (hn : m ≠ 0x10D) :
    crReadOf x k t { r with pspbase := v } cyc dev core handle tbl m = crReadOf x k t r cyc dev core handle tbl' m := by
  unfold crReadOf; split <;> simp_all
theorem crReadOf_prarg (v : W64) (hn : m ≠ 0x10F) :
    crReadOf x k t { r with prarg := v } cyc dev core handle tbl m = crReadOf x k t r cyc dev core handle tbl' m := by
  unfold crReadOf; split <;> simp_all
theorem crReadOf_srbase (v : W64) (hn : m ≠ 0x110) :
    crReadOf x k t { r with srbase := v } cyc dev core handle tbl m = crReadOf x k t r cyc dev core handle tbl' m := by
  unfold crReadOf; split <;> simp_all
theorem crReadOf_spbase (v : W64) (hn : m ≠ 0x108) :
    crReadOf x { k with spbase := v } t r cyc dev core handle tbl m = crReadOf x k t r cyc dev core handle tbl' m := by
  unfold crReadOf; split <;> simp_all
theorem crReadOf_gwlim (v : W64) (hn : m ≠ 0x10A) :
    crReadOf x k { t with gwlim := v } r cyc dev core handle tbl m = crReadOf x k t r cyc dev core handle tbl' m := by
  unfold crReadOf; split <;> simp_all
theorem crReadOf_fmts {g : SMap W64} (hg : 16 ≤ m → SMap.get 0 g (m - 16) = SMap.get 0 x.f (m - 16)) :
    crReadOf { x with f := g } k t r cyc dev core handle tbl m = crReadOf x k t r cyc dev core handle tbl' m := by
  have hfmt : (if 16 ≤ m && m ≤ 31 then (SMap.get 0 g (m - 16)).toNat else 0) =
      if 16 ≤ m && m ≤ 31 then (SMap.get 0 x.f (m - 16)).toNat else 0 := by
    by_cases h16 : 16 ≤ m
    · rw [hg h16]
    · simp [h16]
  clear hg
  unfold crReadOf readF; split <;> simp_all
theorem crReadOf_fmt (v : W64) {j : Nat} (hn : m ≠ 0x10 + j) :
    crReadOf (writeF x j v) k t r cyc dev core handle tbl m = crReadOf x k t r cyc dev core handle tbl' m :=
  crReadOf_fmts hm fun _ => SMap.get_set_ne _ _ _ (by omega)

end

/-! ### Writes -/

/-- The integer control registers that a write sets whole. -/
def crPlain : List Nat :=
  [4, 0x22, 0x23, 0x24, 0x26, 0x100, 0x102, 0x103, 0x105, 0x106, 0x108, 0x10A, 0x10B, 0x10C, 0x10D, 0x10F, 0x110, 0x120]

theorem mem_fmts {n : Nat} (hn : n ∈ List.range' 0x10 16) : ∃ j < 16, n = 0x10 + j := by
  rw [List.mem_range'] at hn
  obtain ⟨i, hi, rfl⟩ := hn
  exact ⟨i, hi, by omega⟩
theorem crReadOf_of_fmt (j : Nat) (hj : j < 16) (x : Ctx) (k : CoreSt) (t : StripSt) (r : DevRegs) (cyc dev core handle tbl : Nat) :
    crReadOf x k t r cyc dev core handle tbl (0x10 + j) = (readF x j).toNat := by
  interval_cases j <;> rfl
theorem crWrite_fmt (j : Nat) (hj : j < 16) (v : W64) (s : State) : crWrite (0x10 + j) v s = modHere (fun x => writeF x j v) s := by
  interval_cases j <;> rfl

section
variable {s : State} {n m : Nat} {v : W64}

/-- Another register does not see a write. -/
theorem crRead_crWrite_ne (hn : n ∈ crPlain ++ List.range' 0x10 16) (hmn : m ≠ n) (hm : m ≠ 0x121) :
    crRead (crWrite n v s) m = crRead s m := by
  rcases List.mem_append.mp hn with hn | hn
  · simp only [crPlain, List.mem_cons, List.not_mem_nil, or_false] at hn
    rcases hn with rfl | rfl | rfl | rfl | rfl | rfl | rfl | rfl | rfl | rfl | rfl | rfl | rfl | rfl | rfl | rfl | rfl | rfl
    · obtain ⟨tbl, ht⟩ := crRead_modHere (s := s) (m := m) (fun x => { x with fpflags := BitVec.ofNat 6 v.toNat }) rfl rfl rfl
      exact ht.trans (crReadOf_fpflags hm _ hmn)
    · obtain ⟨tbl, ht⟩ := crRead_modHere (s := s) (m := m) (fun x => { x with cpcnt := v }) rfl rfl rfl
      exact ht.trans (crReadOf_cpcnt hm _ hmn)
    · obtain ⟨tbl, ht⟩ := crRead_modHere (s := s) (m := m) (fun x => { x with cpstr := v }) rfl rfl rfl
      exact ht.trans (crReadOf_cpstr hm _ hmn)
    · obtain ⟨tbl, ht⟩ := crRead_modHere (s := s) (m := m) (fun x => { x with cpmcast := v }) rfl rfl rfl
      exact ht.trans (crReadOf_cpmcast hm _ hmn)
    · obtain ⟨tbl, ht⟩ := crRead_modHere (s := s) (m := m) (fun x => { x with cpctl := v }) rfl rfl rfl
      exact ht.trans (crReadOf_cpctl hm _ hmn)
    · obtain ⟨tbl, ht⟩ := crRead_modHere (s := s) (m := m) (fun x => { x with trappc := v }) rfl rfl rfl
      exact ht.trans (crReadOf_trappc hm _ hmn)
    · obtain ⟨tbl, ht⟩ := crRead_modHere (s := s) (m := m) (fun x => { x with trapaddr := v }) rfl rfl rfl
      exact ht.trans (crReadOf_trapaddr hm _ hmn)
    · obtain ⟨tbl, ht⟩ := crRead_modHere (s := s) (m := m) (fun x => { x with trapinfo := v }) rfl rfl rfl
      exact ht.trans (crReadOf_trapinfo hm _ hmn)
    · obtain ⟨tbl, ht⟩ := crRead_modHere (s := s) (m := m) (fun x => { x with asid := BitVec.ofNat 12 v.toNat }) rfl rfl rfl
      exact ht.trans (crReadOf_asid hm _ hmn)
    · obtain ⟨tbl, ht⟩ := crRead_modRegs (s := s) (m := m) fun r => { r with ptroot := v }
      exact ht.trans (crReadOf_ptroot hm _ hmn)
    · obtain ⟨tbl, ht⟩ := crRead_modCore (s := s) (m := m) fun k => { k with spbase := v }
      exact ht.trans (crReadOf_spbase hm _ hmn)
    · obtain ⟨tbl, ht⟩ := crRead_modStrip (s := s) (m := m) fun t => { t with gwlim := v }
      exact ht.trans (crReadOf_gwlim hm _ hmn)
    · obtain ⟨tbl, ht⟩ := crRead_modRegs (s := s) (m := m) fun r => { r with rtbase := v }
      exact ht.trans (crReadOf_rtbase hm _ hmn)
    · obtain ⟨tbl, ht⟩ := crRead_modRegs (s := s) (m := m) fun r => { r with htbase := v }
      exact ht.trans (crReadOf_htbase hm _ hmn)
    · obtain ⟨tbl, ht⟩ := crRead_modRegs (s := s) (m := m) fun r => { r with pspbase := v }
      exact ht.trans (crReadOf_pspbase hm _ hmn)
    · obtain ⟨tbl, ht⟩ := crRead_modRegs (s := s) (m := m) fun r => { r with prarg := v }
      exact ht.trans (crReadOf_prarg hm _ hmn)
    · obtain ⟨tbl, ht⟩ := crRead_modRegs (s := s) (m := m) fun r => { r with srbase := v }
      exact ht.trans (crReadOf_srbase hm _ hmn)
    · obtain ⟨tbl, ht⟩ := crRead_modHere (s := s) (m := m) (fun x => { x with tblsel := v }) rfl rfl rfl
      exact ht.trans (crReadOf_tblsel hm _ hmn)
  · obtain ⟨j, hj, rfl⟩ := mem_fmts hn
    rw [crWrite_fmt j hj]
    obtain ⟨tbl, ht⟩ := crRead_modHere (s := s) (m := m) (fun x => writeF x j v) rfl rfl rfl
    exact ht.trans (crReadOf_fmt hm _ hmn)


/-- The register written holds what was written: the reserved bits are 0. -/
theorem crRead_crWrite_same (hn : n ∈ crPlain ++ List.range' 0x10 16) (hok : crOk s n v = true) :
    crRead (crWrite n v s) n = v.toNat := by
  rcases List.mem_append.mp hn with hn | hn
  · simp only [crPlain, List.mem_cons, List.not_mem_nil, or_false] at hn
    rcases hn with rfl | rfl | rfl | rfl | rfl | rfl | rfl | rfl | rfl | rfl | rfl | rfl | rfl | rfl | rfl | rfl | rfl | rfl
    · obtain ⟨tbl, ht⟩ := crRead_modHere (s := s) (m := 4) (fun x => { x with fpflags := BitVec.ofNat 6 v.toNat }) rfl rfl rfl
      refine ht.trans ((BitVec.toNat_ofNat ..).trans (Nat.mod_eq_of_lt ?_))
      have hres : bitsOf v.toNat 63 6 = 0 := by simpa [crOk, crReserved] using hok
      have hlt := v.isLt
      simp only [bitsOf] at hres
      omega
    · exact (crRead_modHere (m := 0x22) (fun x => { x with cpcnt := v }) rfl rfl rfl).elim fun _ ht => ht
    · exact (crRead_modHere (m := 0x23) (fun x => { x with cpstr := v }) rfl rfl rfl).elim fun _ ht => ht
    · exact (crRead_modHere (m := 0x24) (fun x => { x with cpmcast := v }) rfl rfl rfl).elim fun _ ht => ht
    · exact (crRead_modHere (m := 0x26) (fun x => { x with cpctl := v }) rfl rfl rfl).elim fun _ ht => ht
    · exact (crRead_modHere (m := 0x100) (fun x => { x with trappc := v }) rfl rfl rfl).elim fun _ ht => ht
    · exact (crRead_modHere (m := 0x102) (fun x => { x with trapaddr := v }) rfl rfl rfl).elim fun _ ht => ht
    · exact (crRead_modHere (m := 0x103) (fun x => { x with trapinfo := v }) rfl rfl rfl).elim fun _ ht => ht
    · obtain ⟨tbl, ht⟩ := crRead_modHere (s := s) (m := 0x105) (fun x => { x with asid := BitVec.ofNat 12 v.toNat }) rfl rfl rfl
      refine ht.trans ((BitVec.toNat_ofNat ..).trans (Nat.mod_eq_of_lt ?_))
      have hres : bitsOf v.toNat 63 12 = 0 := by simpa [crOk, crReserved] using hok
      have hlt := v.isLt
      simp only [bitsOf] at hres
      omega
    · exact (crRead_modRegs (m := 0x106) fun r => { r with ptroot := v }).elim fun _ ht => ht
    · exact (crRead_modCore (m := 0x108) fun k => { k with spbase := v }).elim fun _ ht => ht
    · exact (crRead_modStrip (m := 0x10A) fun t => { t with gwlim := v }).elim fun _ ht => ht
    · exact (crRead_modRegs (m := 0x10B) fun r => { r with rtbase := v }).elim fun _ ht => ht
    · exact (crRead_modRegs (m := 0x10C) fun r => { r with htbase := v }).elim fun _ ht => ht
    · exact (crRead_modRegs (m := 0x10D) fun r => { r with pspbase := v }).elim fun _ ht => ht
    · exact (crRead_modRegs (m := 0x10F) fun r => { r with prarg := v }).elim fun _ ht => ht
    · exact (crRead_modRegs (m := 0x110) fun r => { r with srbase := v }).elim fun _ ht => ht
    · exact (crRead_modHere (m := 0x120) (fun x => { x with tblsel := v }) rfl rfl rfl).elim fun _ ht => ht
  · obtain ⟨j, hj, rfl⟩ := mem_fmts hn
    rw [crWrite_fmt j hj]
    obtain ⟨tbl, ht⟩ := crRead_modHere (s := s) (m := 0x10 + j) (fun x => writeF x j v) rfl rfl rfl
    refine ht.trans ?_
    rw [crReadOf_of_fmt j hj, readF, writeF, SMap.get_set_self]

/-- No control register is a byte of memory. -/
theorem crWrite_ms (hn : n ∈ crPlain ++ List.range' 0x10 16) : (crWrite n v s).ms = s.ms := by
  rcases List.mem_append.mp hn with hn | hn
  · simp only [crPlain, List.mem_cons, List.not_mem_nil, or_false] at hn
    rcases hn with rfl | rfl | rfl | rfl | rfl | rfl | rfl | rfl | rfl | rfl | rfl | rfl | rfl | rfl | rfl | rfl | rfl | rfl <;> rfl
  · obtain ⟨j, hj, rfl⟩ := mem_fmts hn
    rw [crWrite_fmt j hj]
    rfl

end

/-! ### The check of number and level (R344, R460) -/

section
variable {s : State} {n : Nat} {write : Bool}

/-- Below 0x200 a defined register is checked for its level alone. -/
theorem crCheck_defined (hn : n < 0x200) (hd : crDefined n = true) (h2F : n ≠ 0x2F) (hw : write = true → 3 < n) :
    crCheck s n write s = (do
      ensure (n < 0x100 || (here s).sup || (0x100 ≤ n && n ≤ 0x103 && !write && (here s).fl)) 0x05
      ensure (!(write && n == 0x121 && bitsOf (here s).tblsel.toNat 9 8 == 2)) 0x05 : X Unit) s := by
  have hlow : (write && decide (1 ≤ n) && decide (n ≤ 3)) = false := by
    cases write with
    | false => rfl
    | true => have := hw rfl; simp; omega
  have hill : (!crDefined n || n == 0x2F || (write && decide (1 ≤ n) && decide (n ≤ 3))) = false := by
    rw [hd, hlow, beq_false_of_ne h2F]
    rfl
  unfold crCheck
  simp only [show ¬ 0x200 ≤ n by omega, hill, Bool.false_eq_true, ↓reduceIte]

theorem crCheck_ok (hn : n < 0x200) (hd : crDefined n = true) (h2F : n ≠ 0x2F) (hw : write = true → 3 < n ∧ n ≠ 0x121)
    (hl : n < 0x100 ∨ (here s).sup = true ∨ (n ≤ 0x103 ∧ write = false ∧ (here s).fl = true)) : crCheck s n write s = .ok () s := by
  have hlevel : (decide (n < 0x100) || (here s).sup || (decide (0x100 ≤ n) && decide (n ≤ 0x103) && !write && (here s).fl)) = true := by
    rcases hl with h | h | ⟨hf, hr, hfl⟩
    · simp [h]
    · simp [h]
    · simp [hf, hr, hfl]
      omega
  have htbl : (!(write && n == 0x121 && bitsOf (here s).tblsel.toNat 9 8 == 2)) = true := by
    cases write with
    | false => rfl
    | true => simp [(hw rfl).2]
  rw [crCheck_defined hn hd h2F fun w => (hw w).1, X.bind_ok (X.ensure_of hlevel ..), X.ensure_of htbl]

theorem crCheck_level (hlo : 0x100 ≤ n) (hn : n < 0x200) (hd : crDefined n = true) (hsup : (here s).sup = false)
    (hf : 0x103 < n ∨ write = true ∨ (here s).fl = false) : crCheck s n write s = .error (.trap 0x05 0 0) s := by
  have hlevel : (decide (n < 0x100) || (here s).sup || (decide (0x100 ≤ n) && decide (n ≤ 0x103) && !write && (here s).fl)) = false := by
    have hlo' : ¬ n < 0x100 := by omega
    rcases hf with h | h | h
    · have : ¬ n ≤ 0x103 := by omega
      simp [hlo', hsup, this]
    · simp [hlo', hsup, h]
    · simp [hlo', hsup, h]
  rw [crCheck_defined hn hd (by omega) fun _ => by omega, X.bind_error (X.ensure_of_not hlevel ..)]

end

/-! ### MFC and MTC (R460, R462) -/

/-- The registers that the firmware keeps to itself (R343). -/
def crFirmware (s : State) (n : Nat) : Bool := 0x301 ≤ n && !isThread s.cur && controlCore s (coreNo s.cur)

theorem crFirmware_iff (s : State) (n : Nat) :
    crFirmware s n = true ↔ 0x301 ≤ n ∧ isThread s.cur = false ∧ controlCore s (coreNo s.cur) = true := by
  simp [crFirmware, and_assoc]

theorem flags_ready {s : State} {n : Nat} (h : n = 4 → flagsOpen s = false) : (n == 4 && flagsOpen s) = false := by
  by_cases hn : n = 4
  · rw [h hn, Bool.and_false]
  · rw [beq_false_of_ne hn, Bool.false_and]

section
variable {h : Head} {s : State}

theorem mfc_runs {t : State} (hf : ¬ crFirmware s (crNum h) = true) (ht : isThread s.cur = false)
    (hc : crCheck s (crNum h) false s = .ok () s) (hfl : crNum h = 4 → flagsOpen s = false) (hi : Issues s Rows.mfc (Use.ofRow Rows.mfc h))
    (hset : (if crCap (crNum h) then setG h.d (crReadCap s (crNum h))
      else if crWide (crNum h) then lateInt h.d (BitVec.ofNat 64 (crRead s (crNum h))) 14
      else setInt h.d (BitVec.ofNat 64 (crRead s (crNum h))) : X Unit) s = .ok () t) :
    exec (.mfc h) s = .next (advance h (Use.ofRow Rows.mfc h) .seq t) := by
  refine ((exec_mfc h s).trans (if_neg hf)).trans (runHead_ok hi ((by decide : Row.Scalar Rows.mfc).unbound h) ?_)
  rw [X.bind_ok (X.get_apply s)]
  simp only [ht, Bool.false_eq_true, ↓reduceIte]
  rw [X.bind_ok hc]
  simp only [flags_ready hfl, Bool.false_eq_true, ↓reduceIte]
  split at hset
  · next h1 => rw [if_pos h1]; exact X.bind_ok hset
  · next h1 =>
    rw [if_neg h1]
    split at hset
    · next h2 => rw [if_pos h2]; exact X.bind_ok hset
    · next h2 => rw [if_neg h2]; exact X.bind_ok hset

theorem mfc_thread {v : Nat} (hf : ¬ crFirmware s (crNum h) = true) (ht : isThread s.cur = true)
    (hv : crThread s (crNum h) = some v) (hi : Issues s Rows.mfc (Use.ofRow Rows.mfc h)) :
    exec (.mfc h) s = .next (advance h (Use.ofRow Rows.mfc h) .seq (withInt h (BitVec.ofNat 64 v) s)) := by
  refine ((exec_mfc h s).trans (if_neg hf)).trans (runHead_ok hi ((by decide : Row.Scalar Rows.mfc).unbound h) ?_)
  rw [X.bind_ok (X.get_apply s)]
  simp only [ht, ↓reduceIte, hv]
  rfl

/-- MTC after its checks. -/
def mtcBody (h : Head) (s : State) : X Next := do
  if crCap (crNum h) then
    upd (crWriteCap (crNum h) (gA s h))
    return .seq
  let v := opA s h
  ensure (crOk s (crNum h) v) 0x03
  if crNum h == 4 && flagsOpen s then throw .stall
  if crWide (crNum h) then release 3
  upd (crWrite (crNum h) v)
  pure .seq

theorem exec_mtc_core (hf : ¬ crFirmware s (crNum h) = true) :
    exec (.mtc h) s = runHead Rows.mtc h (Use.ofRow Rows.mtc h) (do
      let s ← get
      if isThread s.cur then illegal 0x09
      crCheck s (crNum h) true
      mtcBody h s) s := (exec_mtc h s).trans (if_neg hf)

theorem mtc_checked (ht : isThread s.cur = false) (hc : crCheck s (crNum h) true s = .ok () s) :
    (do let s ← get
        if isThread s.cur then illegal 0x09
        crCheck s (crNum h) true
        mtcBody h s : X Next) s = mtcBody h s s := by
  rw [X.bind_ok (X.get_apply s)]
  simp only [ht, Bool.false_eq_true, ↓reduceIte]
  exact X.bind_ok hc

theorem mtcBody_cap (hcap : crCap (crNum h) = true) : mtcBody h s s = .ok .seq (crWriteCap (crNum h) (gA s h) s) := by
  unfold mtcBody
  rw [if_pos hcap]
  rfl

theorem mtcBody_reserved (hcap : crCap (crNum h) = false) (hok : crOk s (crNum h) (opA s h) = false) :
    mtcBody h s s = .error (.trap 0x03 0 0) s := by
  unfold mtcBody
  simp only [hcap, Bool.false_eq_true, ↓reduceIte]
  exact X.bind_error (X.ensure_of_not hok ..)

theorem mtcBody_writes (hcap : crCap (crNum h) = false) (hok : crOk s (crNum h) (opA s h) = true)
    (hfl : crNum h = 4 → flagsOpen s = false) (hrel : crWide (crNum h) = true → releaseReady s s.cur 3 = true) :
    mtcBody h s s = .ok .seq (crWrite (crNum h) (opA s h) s) := by
  unfold mtcBody
  simp only [hcap, Bool.false_eq_true, ↓reduceIte]
  refine (X.bind_ok (X.ensure_of hok ..)).trans ?_
  simp only [flags_ready hfl, Bool.false_eq_true, ↓reduceIte]
  cases hw : crWide (crNum h) with
  | false => rfl
  | true =>
    simp only [↓reduceIte]
    refine (X.bind_ok (release_ok_of_lt (by decide) (hrel hw))).trans ?_
    rfl

end

end Sys2Proof.Machine

namespace Sys2Proof
open Machine

/-- Settles O36: the number and the level by `crCheck`, the value by the register's own field. -/
theorem controlRegistersAreReadAndWritten : Obligations.ControlRegistersAreReadAndWritten := by
  refine ⟨?_, fun s n write hn hd h2F hw hl => crCheck_ok hn hd h2F hw hl,
    fun s n write hlo hn hd hsup hf => crCheck_level hlo hn hd hsup hf,
    fun s n m v hn hok => ⟨crRead_crWrite_same hn hok, crRead_crWrite_ne hn, crWrite_ms hn⟩⟩
  intro h s n u firmware
  have hfw : crFirmware s n = true ↔ firmware := crFirmware_iff s n
  refine ⟨fun hf => ⟨if_pos (hfw.mpr hf), if_pos (hfw.mpr hf)⟩, ?_, ?_, ?_⟩
  · intro hf ht hc hfl hi
    refine mfc_runs (mt hfw.mp hf) ht hc hfl hi ?_
    split
    · rfl
    · split <;> rfl
  · intro v hf ht hv hi
    exact mfc_thread (mt hfw.mp hf) ht hv hi
  · intro hf ht hc hfl hi
    have hrun := exec_mtc_core (mt hfw.mp hf)
    have hu := (by decide : Row.Scalar Rows.mtc).unbound h
    refine ⟨fun hcap => ?_, fun hcap hok => ?_, fun hcap hok hrel => ?_⟩
    · exact hrun.trans (runHead_ok hi hu ((mtc_checked ht hc).trans (mtcBody_cap hcap)))
    · exact hrun.trans (runHead_trap hi hu ((mtc_checked ht hc).trans (mtcBody_reserved hcap hok)))
    · exact hrun.trans (runHead_ok hi hu ((mtc_checked ht hc).trans (mtcBody_writes hcap hok hfl hrel)))

end Sys2Proof
end

section
set_option Elab.async false
/-! Copies, lenses and mirror pairs (R188, R199, R463 to R467). -/

namespace Sys2Proof.Machine

/-! ### CPGO (R463) -/

theorem cpgo_runs {h : Head} {s : State} {c : Copy} (hlo : 1 ≤ h.d.toNat) (hhi : h.d.toNat ≤ 62)
    (hi : Issues s Rows.cpgo { wg := [h.d.toNat, h.d.toNat + 1] }) (hc : cpgoCheck s = .ok c s) (hd : drained s = true)
    (hr : copyRoom s c.core = true) :
    exec (.cpgo h) s = .next (advance h { wg := [h.d.toNat, h.d.toNat + 1] } .seq
      (withPend (.g (h.d.toNat + 1)) [] (.cst (Cap.ofInt (BitVec.ofNat 64 (s.cyc + 64 + Config.promiseSlack c.id)))) 1
        (withPend (.g h.d.toNat) [] (.cst (Cap.ofInt (BitVec.ofNat 64 c.xid))) 1
          (startCopy { c with promise := s.cyc + 64 + Config.promiseSlack c.id } s)))) := by
  have hfit : (decide (1 ≤ h.d.toNat) && decide (h.d.toNat ≤ 62)) = true := by simp [hlo, hhi]
  rw [exec_cpgo]
  unfold execCpgo
  simp only [hfit, ↓reduceIte]
  refine runHead_ok hi (fun _ => unbound_nil rfl) ?_
  simp only [Bool.not_true, Bool.false_eq_true, ↓reduceIte]
  refine (X.bind_ok hc).trans ((X.bind_ok (X.get_apply s)).trans ?_)
  simp only [hd, hr, Bool.not_true, Bool.or_self, Bool.false_eq_true, ↓reduceIte]
  rfl

theorem xid_startCopy (c : Copy) (s : State) : (coreOf (startCopy c s) c.core).xid = c.xid := by
  simp only [startCopy, coreOf_modCore]

/-- The range locks of a copy (R257). -/
def copyLocks (c : Copy) : List Lock :=
  let lock (lo hi : Nat) (dest : Bool) : Lock := { die := dieOfCore c.core, copy := c.id, asid := c.asid, lo := lo, hi := hi, dest := dest }
  lock c.srcLo c.srcHi false :: (if CpF.dkind c then [] else [lock c.dstLo c.dstHi true])

theorem copies_startCopy (c : Copy) (s : State) :
    (startCopy c s).cp.copies = s.cp.copies ++ [{ c with late := (copyLocks c).filter (flipHolds s) }] := rfl
theorem locks_startCopy (c : Copy) (s : State) :
    (startCopy c s).cp.locks = s.cp.locks ++ (copyLocks c).filter fun l => !flipHolds s l := rfl

/-- A lock of the copy is held now, or waits for the flip that holds it back. -/
theorem copyLocks_placed {c : Copy} {s : State} {l : Lock} (hl : l ∈ copyLocks c) :
    (flipHolds s l = true → l ∈ (copyLocks c).filter (flipHolds s)) ∧ (flipHolds s l = false → l ∈ (startCopy c s).cp.locks) := by
  refine ⟨fun h => List.mem_filter.mpr ⟨hl, h⟩, fun h => ?_⟩
  rw [locks_startCopy]
  exact List.mem_append_right _ (List.mem_filter.mpr ⟨hl, by simp [h]⟩)
theorem copyLocks_free (c : Copy) {s : State} (h : s.host.flip = none) : (copyLocks c).filter (flipHolds s) = [] := by
  simp [flipHolds, h]

/-! ### COMPOSE and DECOMPOSE (R188, R198) -/

section
variable {h : Head} {s : State}

theorem compose_claims (hi : Issues s Rows.compose {}) (hg : (here s).granted = false) (hb : composeBad s (h.im 4 0) = none) :
    exec (.compose h) s = .next (beginWait s.cur (.compose (h.im 4 0)) (claimLens (h.im 4 0) s)) := by
  rw [exec_compose]
  refine runHead_waits hi (by decide) (confirmed_of_refused hi (by decide) (by decide)) (fun _ => unbound_nil rfl) ?_ (by rfl)
  refine (X.bind_ok (X.get_apply s)).trans ((X.bind_ok (answered_of_not hg _)).trans ?_)
  simp only [Bool.false_eq_true, ↓reduceIte, hb]
  rfl

theorem compose_refused {sub : Nat} (hi : Issues s Rows.compose {}) (hg : (here s).granted = false)
    (hb : composeBad s (h.im 4 0) = some sub) : exec (.compose h) s = .next (trapAt s 0x17 0 sub) := by
  rw [exec_compose]
  refine runHead_trap hi (fun _ => unbound_nil rfl) ?_ (t := s)
  refine (X.bind_ok (X.get_apply s)).trans ((X.bind_ok (answered_of_not hg _)).trans ?_)
  simp only [Bool.false_eq_true, ↓reduceIte, hb]
  rfl

theorem compose_starts (hi : Issues s Rows.compose {}) (hg : (here s).granted = true) (hw : (here s).wait = .compose (h.im 4 0)) :
    exec (.compose h) s = .next (advance h {} .seq (modFir s.cur (fun f => { f with lens := some s.cur }) s)) := by
  rw [exec_compose]
  refine runHead_ok hi (fun _ => unbound_nil rfl) ?_
  refine (X.bind_ok (X.get_apply s)).trans ((X.bind_ok (answered_of hg hw)).trans ?_)
  rfl

theorem decompose_idle (hi : Issues s Rows.decompose {}) (hl : (firOf s s.cur).lens = none) :
    exec (.decompose h) s = .next (advance h {} .seq s) := by
  rw [exec_decompose]
  refine runHead_ok hi (fun _ => unbound_nil rfl) ?_
  refine (X.bind_ok (X.get_apply s)).trans ?_
  simp only [hl, Option.isNone_none, ↓reduceIte]
  rfl

theorem decompose_frees (hi : Issues s Rows.decompose {}) (hl : (firOf s s.cur).lens.isSome = true) (hp : (here s).pend = [])
    (hw : pushWaits s s.cur = false) (hsb : ∀ e ∈ (coreOf s (coreNo s.cur)).sb, e.cid ≠ s.cur) :
    exec (.decompose h) s = .next (advance h {} .seq (freeLens s.cur s)) := by
  have hstores : (pushWaits s s.cur == false && (coreOf s (coreNo s.cur)).sb.all fun e => e.cid != s.cur) = true := by
    simpa [hw] using hsb
  rw [exec_decompose]
  refine runHead_ok hi (fun _ => unbound_nil rfl) ?_
  refine (X.bind_ok (X.get_apply s)).trans ?_
  simp only [Option.isNone_eq_false_iff.mpr hl, Bool.false_eq_true, ↓reduceIte]
  refine (X.bind_ok (awaitResults_ok hp)).trans ?_
  simp only [hstores, Bool.not_true, Bool.false_eq_true, ↓reduceIte]
  rfl

end

/-! ### PAIR and UNPAIR (R199, R466, R467) -/

theorem core_of_issueStop {s : State} {r : Row} {u : Use} (hi : issueStop s r u = none) (hm : threadMajor r.major = false) :
    isThread s.cur = false := by
  cases ht : isThread s.cur with
  | false => rfl
  | true => simp [issueStop, ht, hm] at hi

theorem partnerOf_unpaired {s : State} {c : Nat} (h : (firOf s c).paired = false) : partnerOf s c = none := by
  simp [partnerOf, h]

/-- A head that leaves no partner has no side of the partner's. -/
theorem runHead_unpairs {r : Row} {h : Head} {u : Use} {body : X Next} {s t : State} {n : Next} (hi : issueStop s r u = none)
    (hg : (unconfirmed s && endsInterval r) = false) (hu : ∀ x, Unbound x u) (hb : body s = .ok n t) (hn : n ≠ .gone)
    (hp : partnerOf s s.cur = none ∨ partnerOf (advance h u n t) s.cur = none) :
    runHead r h u body s = .next (advance h u n t) := by
  simp only [runHead, hi, perform_ok hg (hu s) hb hn (hu t)]
  congr 1
  rcases hp with hp | hp
  · exact partnerHead_alone hp
  · unfold partnerHead
    rw [hp]
    cases partnerOf s s.cur <;> rfl

/-- Marker parking keeps the firing. -/
theorem fir_markerPark (c : Nat) (s : State) : (ctxOf (markerPark c s) c).fir = (ctxOf s c).fir := by
  unfold markerPark
  dsimp only
  split_ifs <;> simp

/-- The context of a head that has completed. -/
def headDone (pc : Pc) (x : Ctx) : Ctx :=
  { x with st := .issuing, pc := pc, wait := .none, granted := false, fetched := [], relBegun := false }
theorem advance_core {h : Head} {u : Use} {n : Next} {t : State} (ht : isThread t.cur = false) :
    advance h u n t = (let s := modHere (headDone (nextPc t n)) t
      let s := if n == .again then s else pairRetire u s
      if (n == .park || (h.s && n != .again)) && (here s).st != .waiting then markerPark s.cur s else s) := by
  show (if isThread t.cur then _ else _) = _
  simp only [ht, Bool.false_eq_true, ↓reduceIte]
  rfl

/-- Outside a pair and a thread a completed head keeps its firing. -/
theorem fir_advance {h : Head} {u : Use} {n : Next} {t : State} (ht : isThread t.cur = false) (hp : (firOf t t.cur).paired = false) :
    firOf (advance h u n t) t.cur = firOf t t.cur := by
  have hx : firOf (modHere (headDone (nextPc t n)) t) t.cur = firOf t t.cur := by
    show (here (modHere (headDone (nextPc t n)) t)).fir.getD {} = _
    rw [here_modHere]
    rfl
  have hret : pairRetire u (modHere (headDone (nextPc t n)) t) = modHere (headDone (nextPc t n)) t :=
    if_pos (by rw [modHere_cur, hx, hp]; rfl)
  rw [advance_core ht]
  dsimp only
  rw [hret, ite_self]
  split
  · rw [modHere_cur, firOf, fir_markerPark, ← firOf, hx]
  · exact hx

@[simp] theorem noteStall_cur (k : Nat) (s : State) : (noteStall k s).cur = s.cur := by
  unfold noteStall
  dsimp only
  split_ifs <;> rfl
@[simp] theorem modPools_cur (c : Nat) (f : CoreSt → CoreSt) (s : State) : (modPools c f s).cur = s.cur := by
  unfold modPools
  dsimp only
  split <;> rfl
@[simp] theorem partnerChunks_cur (c : Nat) (vec : Bool) (lo k : Nat) (s : State) : (partnerChunks c vec lo k s).cur = s.cur := by
  unfold partnerChunks
  split <;> rfl
@[simp] theorem addChunks_cur (c : Nat) (vec : Bool) (n : Nat) (s : State) : (addChunks c vec n s).cur = s.cur := by
  unfold addChunks
  dsimp only
  split <;> simp
@[simp] theorem grantGrows_cur (k n : Nat) (s : State) : (grantGrows k n s).cur = s.cur := by
  induction n generalizing s with
  | zero => rfl
  | succ n ih =>
    unfold grantGrows
    split
    · rfl
    · split
      · rw [ih, noteStall_cur]
        exact addChunks_cur ..
      · rfl
@[simp] theorem returnChunks_cur (c : Nat) (f : Firing) (s : State) : (returnChunks c f s).cur = s.cur := by
  unfold returnChunks
  exact grantGrows_cur ..
@[simp] theorem leaveSlot_cur (c : Nat) (s : State) : (leaveSlot c s).cur = s.cur := by
  unfold leaveSlot
  split <;> rfl
@[simp] theorem freeCtx_cur (c : Nat) (s : State) : (freeCtx c s).cur = s.cur := by
  unfold freeCtx
  dsimp only
  split
  · exact leaveSlot_cur ..
  · exact (noteStall_cur ..).trans (leaveSlot_cur ..)
@[simp] theorem freePair_cur (c : Nat) (s : State) : (freePair c s).cur = s.cur := by
  unfold freePair
  split
  · rfl
  · exact (returnChunks_cur ..).trans (freeCtx_cur ..)

/-- A firing that left its pair is in none (R467). -/
theorem unpaired_modFir (c : Nat) (s : State) : (firOf (modFir c (fun f => { f with paired := false }) s) c).paired = false := by
  rw [firOf, modFir, ctxOf_modCtx]
  cases (ctxOf s c).fir <;> rfl

/-- UNPAIR leaves no partner (R467). -/
theorem partnerOf_freePair {s : State} {h : Head} {u : Use} {n : Next} (ht : isThread s.cur = false) :
    partnerOf s s.cur = none ∨ partnerOf (advance h u n (freePair s.cur s)) s.cur = none := by
  cases hf : s.grp.pairs.find? (·.prim == s.cur) with
  | none =>
    left
    have hnone : s.grp.pairs.find? (fun p => p.prim == s.cur && p.part != s.cur) = none := by
      rw [List.find?_eq_none] at hf ⊢
      intro p hp
      simp [hf p hp]
    rw [partnerOf, hnone, Option.map_none, ite_self]
  | some p =>
    right
    have hun : (firOf (freePair s.cur s) s.cur).paired = false := by
      unfold freePair
      simp only [hf]
      exact unpaired_modFir ..
    have hcur := freePair_cur s.cur s
    have hfir : firOf (advance h u n (freePair s.cur s)) s.cur = firOf (freePair s.cur s) s.cur := by
      have := fir_advance (h := h) (u := u) (n := n) (t := freePair s.cur s) (by rwa [hcur]) (by rwa [hcur])
      rwa [hcur] at this
    exact partnerOf_unpaired (hfir ▸ hun)

section
variable {h : Head} {s : State}

theorem pairRecord_paired (hp : (firOf s s.cur).paired = true) : pairRecord s = s := by
  simp [pairRecord, hp]
theorem pairRecord_answered (hg : (here s).granted = true) (hw : (here s).wait = .pairPark) : pairRecord s = s := by
  simp [pairRecord, hg, hw]

theorem pair_again (hi : issueStop s Rows.pair {} = none) (hc : unconfirmed s = false) (hp : (firOf s s.cur).paired = true) :
    exec (.pair h) s = .next (advance h {} .seq s) ∨
    ∃ q y f, partnerOf s s.cur = some q ∧ exec (.pair h) s = .next (modGrp f (setCtx (advance h {} .seq s) q y)) := by
  rw [exec_pair, execPair, pairRecord_paired hp]
  refine runHead_mirrors hi (by rw [hc]; rfl) (unbound_nil rfl) ?_ (by exact Next.noConfusion) (unbound_nil rfl)
  refine (X.bind_ok (X.get_apply s)).trans ?_
  simp only [hp, ↓reduceIte]
  rfl

theorem pair_starts (hi : issueStop s Rows.pair {} = none) (hc : unconfirmed s = false) (hp : (firOf s s.cur).paired = false)
    (hg : (here s).granted = true) (hw : (here s).wait = .pairPark) :
    exec (.pair h) s = .next (advance h {} .seq (modFir s.cur (fun f => { f with paired := true }) s)) := by
  rw [exec_pair, execPair, pairRecord_answered hg hw]
  refine runHead_unpairs hi (by rw [hc]; rfl) (fun _ => unbound_nil rfl) ?_ (by exact Next.noConfusion) (.inl (partnerOf_unpaired hp))
  refine (X.bind_ok (X.get_apply s)).trans ?_
  simp only [hp, Bool.false_eq_true, ↓reduceIte]
  refine (X.bind_ok (answered_of hg hw)).trans ?_
  rfl

theorem unpair_idle (hi : issueStop s Rows.unpair {} = none) (hc : unconfirmed s = false) (hp : (firOf s s.cur).paired = false) :
    exec (.unpair h) s = .next (advance h {} .seq s) := by
  rw [exec_unpair]
  refine runHead_unpairs hi (by rw [hc]; rfl) (fun _ => unbound_nil rfl) ?_ (by exact Next.noConfusion) (.inl (partnerOf_unpaired hp))
  refine (X.bind_ok (X.get_apply s)).trans ?_
  simp only [hp, Bool.not_false, ↓reduceIte]
  rfl

theorem unpair_frees (hi : issueStop s Rows.unpair {} = none) (hc : unconfirmed s = false) (hp : (firOf s s.cur).paired = true)
    (hk : (firOf s s.cur).actor.checked = false) : exec (.unpair h) s = .next (advance h {} .seq (freePair s.cur s)) := by
  rw [exec_unpair]
  refine runHead_unpairs hi (by rw [hc]; rfl) (fun _ => unbound_nil rfl) ?_ (by exact Next.noConfusion)
    (partnerOf_freePair (core_of_issueStop hi (by decide)))
  refine (X.bind_ok (X.get_apply s)).trans ?_
  simp only [hp, hk, Bool.not_true, Bool.false_eq_true, ↓reduceIte]
  rfl

end

end Sys2Proof.Machine

namespace Sys2Proof
open Machine

/-- Settles O37: the bodies of the heads run, and UNPAIR leaves no partner whose side could follow. -/
theorem copiesLensesAndPairsStart : Obligations.CopiesLensesAndPairsStart := by
  refine ⟨fun h s c hlo hhi hi hc hd hr => cpgo_runs hlo hhi hi hc hd hr, fun c s => ⟨xid_startCopy c s, (copyLocks c).filter (flipHolds s), ?_, copyLocks_free c, ?_⟩,
    fun h s hi => ⟨compose_claims hi, fun sub => compose_refused hi, compose_starts hi⟩,
    fun h s hi => ⟨decompose_idle hi, decompose_frees hi⟩,
    fun h s hi hc => ⟨pair_again hi hc, pair_starts hi hc⟩,
    fun h s hi hc => ⟨unpair_idle hi hc, unpair_frees hi hc⟩⟩
  · rw [copies_startCopy]
    exact List.mem_append_right _ (List.mem_singleton_self _)
  · intro locked
    refine ⟨⟨_, rfl, rfl, rfl, rfl, rfl, copyLocks_placed (List.mem_cons_self ..)⟩, fun hd => ?_⟩
    have hmem : (⟨dieOfCore c.core, c.id, c.asid, c.dstLo, c.dstHi, true⟩ : Lock) ∈ copyLocks c := by
      simp [copyLocks, hd]
    exact ⟨_, rfl, rfl, rfl, rfl, rfl, copyLocks_placed hmem⟩

end Sys2Proof
end

section
set_option Elab.async false
/-! Supervision of firings and TLBINV (R468 to R472). -/

namespace Sys2Proof.Machine

/-- The handle that a supervisor's head names (R468). -/
abbrev handleArg (h : Head) (s : State) : Nat := (opA s h).toNat % 2 ^ 37

section
variable {h : Head} {s : State}

/-! ### A handle that names no firing of the device (R468) -/

theorem ctxSave_gone (hi : Issues s Rows.ctxSave (Use.ofRow Rows.ctxSave h)) (hg : handleGone s (handleArg h s) = true) :
    exec (.ctxSave h) s = .next (advance h (Use.ofRow Rows.ctxSave h) .seq (withLate h.d 2 14 s)) := by
  rw [exec_ctxSave]
  refine runHead_ok hi ((by decide : Row.Scalar Rows.ctxSave).unbound h) ?_
  refine (X.bind_ok (X.get_apply s)).trans ?_
  simp only [hg, ↓reduceIte]
  rfl
theorem ctxLoad_gone (hi : Issues s Rows.ctxLoad (Use.ofRow Rows.ctxLoad h)) (hg : handleGone s (handleArg h s) = true) :
    exec (.ctxLoad h) s = .next (advance h (Use.ofRow Rows.ctxLoad h) .seq (withLate h.d 2 14 s)) := by
  rw [exec_ctxLoad]
  refine runHead_ok hi ((by decide : Row.Scalar Rows.ctxLoad).unbound h) ?_
  refine (X.bind_ok (X.get_apply s)).trans ?_
  simp only [hg, ↓reduceIte]
  rfl
theorem ctxDrop_gone (hi : Issues s Rows.ctxDrop (Use.ofRow Rows.ctxDrop h)) (hg : handleGone s (handleArg h s) = true) :
    exec (.ctxDrop h) s = .next (advance h (Use.ofRow Rows.ctxDrop h) .seq (withLate h.d 2 14 s)) := by
  rw [exec_ctxDrop]
  refine runHead_ok hi ((by decide : Row.Scalar Rows.ctxDrop).unbound h) ?_
  refine (X.bind_ok (X.get_apply s)).trans ?_
  simp only [hg, ↓reduceIte]
  rfl

/-! ### A placed firing (R469 to R471) -/

theorem ctxSave_asks (hi : Issues s Rows.ctxSave (Use.ofRow Rows.ctxSave h)) (hg : handleGone s (handleArg h s) = false)
    (hv : savedOf s (handleArg h s) = none) (hc : handleCid (handleArg h s) ≠ s.cur)
    (hn : noSave (firOf s (handleCid (handleArg h s))) = false) (hr : requeueUsed s (coreNo (handleCid (handleArg h s))) < 8)
    (hw : ∀ k, (ctxOf s (handleCid (handleArg h s))).wait ≠ .compose k) :
    exec (.ctxSave h) s = .next (advance h (Use.ofRow Rows.ctxSave h) .seq
      (tryStop (handleCid (handleArg h s)) (askSave (handleCid (handleArg h s)) (h.b.toNat == 1) (some (s.cur, (here s).nextPend))
        (withPend (if h.d == 0 then .none else .g h.d.toNat) [] .status 14 s)))) := by
  have hself : (handleCid (handleArg h s) == s.cur) = false := beq_false_of_ne hc
  have hroom : (decide (8 ≤ requeueUsed s (coreNo (handleCid (handleArg h s))))) = false := by simpa using hr
  have hcomp : (match (ctxOf s (handleCid (handleArg h s))).wait with
      | .compose _ => true
      | _ => false) = false := by
    split
    · next k hk => exact absurd hk (hw k)
    · rfl
  rw [exec_ctxSave]
  refine runHead_ok hi ((by decide : Row.Scalar Rows.ctxSave).unbound h) ?_
  refine (X.bind_ok (X.get_apply s)).trans ?_
  simp only [hg, hv, Option.isSome_none, hself, hn, hroom, Bool.or_false, Bool.false_eq_true, ↓reduceIte]
  rfl

theorem ctxLoad_placed (hi : Issues s Rows.ctxLoad (Use.ofRow Rows.ctxLoad h)) (hg : handleGone s (handleArg h s) = false)
    (hv : savedOf s (handleArg h s) = none) :
    exec (.ctxLoad h) s = .next (advance h (Use.ofRow Rows.ctxLoad h) .seq (withLate h.d 3 14 s)) := by
  rw [exec_ctxLoad]
  refine runHead_ok hi ((by decide : Row.Scalar Rows.ctxLoad).unbound h) ?_
  refine (X.bind_ok (X.get_apply s)).trans ?_
  simp only [hg, hv, Bool.false_eq_true, ↓reduceIte]
  rfl

theorem ctxDrop_placed (hi : Issues s Rows.ctxDrop (Use.ofRow Rows.ctxDrop h)) (hg : handleGone s (handleArg h s) = false)
    (hv : savedOf s (handleArg h s) = none) (hc : handleCid (handleArg h s) ≠ s.cur) :
    exec (.ctxDrop h) s = .next (advance h (Use.ofRow Rows.ctxDrop h) .seq (withLate h.d 0 14
      (dropRecord (handleArg h s) (ctxOf s (handleCid (handleArg h s))).asid.toNat (abortPlaced (handleCid (handleArg h s)) s)))) := by
  have hself : (handleCid (handleArg h s) == s.cur) = false := beq_false_of_ne hc
  rw [exec_ctxDrop]
  refine runHead_ok hi ((by decide : Row.Scalar Rows.ctxDrop).unbound h) ?_
  refine (X.bind_ok (X.get_apply s)).trans ?_
  simp only [hg, hv, hself, Bool.false_eq_true, ↓reduceIte]
  rfl

/-! ### A saved firing (R470) -/

theorem ctxLoad_saved {v : Saved} (hi : Issues s Rows.ctxLoad (Use.ofRow Rows.ctxLoad h)) (hg : handleGone s (handleArg h s) = false)
    (hv : savedOf s (handleArg h s) = some v) (hheld : v.held = true) (hdone : v.complete = true)
    (hr : requeueUsed s (handleCore (handleArg h s)) < 8) :
    exec (.ctxLoad h) s = .next (advance h (Use.ofRow Rows.ctxLoad h) .seq
      (withLate h.d 0 14 (modSaved (handleCore (handleArg h s)) v.fir.handle (fun v => { v with held := false })
        (modCore (handleCore (handleArg h s)) (fun k => { k with
          fq := k.fq ++ [{ fir := v.fir, enq := s.cyc, restoreTo := some v.cid }] }) s)))) := by
  rw [exec_ctxLoad]
  refine runHead_ok hi ((by decide : Row.Scalar Rows.ctxLoad).unbound h) ?_
  refine (X.bind_ok (X.get_apply s)).trans ?_
  simp only [hg, hv, hheld, hdone, show ¬ 8 ≤ requeueUsed s (handleCore (handleArg h s)) by omega, Bool.and_self, Bool.not_true,
    Bool.false_eq_true, ↓reduceIte]
  rfl

/-! ### TLBINV (R294, R472) -/

theorem mem_tlbDrop (p : TlbEntry → Bool) (s : State) (e : TlbEntry) : e ∈ (tlbDrop p s).tr.tlb ↔ e ∈ s.tr.tlb ∧ ¬ p e = true := by
  simp [tlbDrop, modTr]

/-- A TLBINV head drops what its predicate names, and every walk in flight. -/
theorem tlbinvHead_drops {r : Row} {f : State → TlbEntry → Bool} {asid : State → Nat} {p : TlbEntry → Prop} (hr : r.Scalar)
    (hp : ∀ e, f s e = true ↔ p e) (ha : asid s ≤ 4095) (hi : Issues s r (Use.ofRow r h)) (hrel : releaseReady s s.cur 3 = true) :
    ∃ t, tlbinvHead r h f asid s = .next (advance h (Use.ofRow r h) .park (withPend .none [] .inv 0 t)) ∧
      t.tr.walks = [] ∧ t.ctxs = s.ctxs ∧ t.ms = s.ms ∧ (∀ e, e ∈ t.tr.tlb ↔ e ∈ s.tr.tlb ∧ ¬ p e) := by
  refine ⟨tlbDrop (f s) s, runHead_ok hi (hr.unbound h) ?_, rfl, rfl, rfl, fun e => ?_⟩
  · refine (X.bind_ok (X.get_apply s)).trans ?_
    simp only [show ¬ 4095 < asid s by omega, ↓reduceIte]
    refine (X.bind_ok (release_ok_of_lt (by decide) hrel)).trans ?_
    rfl
  · rw [mem_tlbDrop, hp]

end

end Sys2Proof.Machine

namespace Sys2Proof
open Machine

/-- Settles O38: each status by the case of its handle, TLBINV by the filter that it applies. -/
theorem supervisorHeadsControlFirings : Obligations.SupervisorHeadsControlFirings := by
  constructor
  · intro h s n c u
    refine ⟨fun hg => ⟨fun hi => ctxSave_gone hi hg, fun hi => ctxLoad_gone hi hg, fun hi => ctxDrop_gone hi hg⟩,
      fun hg hv hc => ⟨fun hn hr hw hi => ctxSave_asks hi hg hv hc hn hr hw, fun hi => ctxLoad_placed hi hg hv,
        fun hi => ctxDrop_placed hi hg hv hc⟩,
      fun v hg hv hheld hdone hr hi => ctxLoad_saved hi hg hv hheld hdone hr⟩
  · intro h s asid va inv
    refine ⟨fun ha => ⟨fun hi hrel => ?_, fun hi hrel => ?_⟩, fun hi hrel => ?_⟩
    · rw [exec_tlbinvVa]
      exact tlbinvHead_drops (by decide) (by simp [asid, va, and_assoc]) ha hi hrel
    · rw [exec_tlbinvAsid]
      exact tlbinvHead_drops (by decide) (by simp [asid]) ha hi hrel
    · rw [exec_tlbinvAll]
      exact tlbinvHead_drops (by decide) (by simp) (Nat.zero_le _) hi hrel

end Sys2Proof
end

section
set_option Elab.async false
/-! The heads of Prism threads (R473 to R479). -/

namespace Sys2Proof.Machine

section
variable {h : Head} {s : State}

/-! ### The block of a head (R473) -/

theorem servedBlock_ok {c : Cap} (hs : serves s (blockArg s c) = true) : servedBlock c s = .ok (blockArg s c) s := by
  unfold servedBlock
  rw [X.bind_ok (X.get_apply s)]
  simp only [hs, ↓reduceIte]
  rfl
theorem servedBlock_refused {c : Cap} (hs : serves s (blockArg s c) = false) : servedBlock c s = .error (.trap 0x02 0 0x0A) s := by
  unfold servedBlock
  rw [X.bind_ok (X.get_apply s)]
  simp only [hs, Bool.false_eq_true, ↓reduceIte]
  rfl

/-! ### TAGSET, DIRRD and DIRWR (R474, R475) -/

theorem tagset_completes {t : State} (hs : serves s (blockArg s (gA s h)) = true) (hi : Issues s Rows.tagset (Use.ofRow Rows.tagset h))
    (hn : (hereRun s).tagset = none) (hd : tagsetDo h (blockArg s (gA s h)) s = .ok () t)
    (hl : throughLeft t (blockArg s (gA s h)) = false) :
    exec (.tagset h) s = .next (advance h (Use.ofRow Rows.tagset h) .seq
      (modRun t.cur (fun r => { r with tagset := none }) (withInt h (BitVec.ofNat 64 ((hereRun t).tagset.getD 0)) t))) := by
  rw [exec_tagset]
  refine runHead_ok hi ((by decide : Row.Scalar Rows.tagset).unbound h) ?_
  refine (X.bind_ok (X.get_apply s)).trans ((X.bind_ok (servedBlock_ok hs)).trans ?_)
  simp only [hn, Option.isNone_none, ↓reduceIte]
  refine (X.bind_ok hd).trans ((X.bind_ok (X.get_apply t)).trans ?_)
  simp only [hl, Bool.false_eq_true, ↓reduceIte]
  rfl

theorem dirrd_reads (hs : serves s (blockArg s (gA s h)) = true) (hi : Issues s Rows.dirrd (Use.ofRow Rows.dirrd h)) :
    exec (.dirrd h) s = .next (advance h (Use.ofRow Rows.dirrd h) .seq
      (if h.im 0 0 == 1 then withInt h (txnWord s (prismNo s.cur) (blockArg s (gA s h))) s
      else dirTouch (prismNo s.cur) (dirKey s (prismNo s.cur) (blockArg s (gA s h)))
        (withInt h (dirImage s (prismNo s.cur) (blockArg s (gA s h))) s))) := by
  rw [exec_dirrd]
  refine runHead_ok hi ((by decide : Row.Scalar Rows.dirrd).unbound h) ?_
  refine (X.bind_ok (X.get_apply s)).trans ((X.bind_ok (servedBlock_ok hs)).trans ?_)
  split <;> rfl

/-- What DIRWR gives: gD's value, and the state with its entry or record written (R475). -/
abbrev dirwrDone (h : Head) (s : State) : W64 × State :=
  if h.im 0 0 == 1 then txnWrite (prismNo s.cur) (blockArg s (gA s h)) (gB s h).val s
  else dirWrite (prismNo s.cur) (blockArg s (gA s h)) (gB s h).val s
theorem dirwr_writes (hs : serves s (blockArg s (gA s h)) = true) (hi : Issues s Rows.dirwr (Use.ofRow Rows.dirwr h)) :
    exec (.dirwr h) s = .next (advance h (Use.ofRow Rows.dirwr h) .seq (withInt h (dirwrDone h s).1 (dirwrDone h s).2)) := by
  rw [exec_dirwr]
  refine runHead_ok hi ((by decide : Row.Scalar Rows.dirwr).unbound h) ?_
  exact (X.bind_ok (X.get_apply s)).trans ((X.bind_ok (servedBlock_ok hs)).trans rfl)

theorem dirrd_refused (hs : serves s (blockArg s (gA s h)) = false) (hi : Issues s Rows.dirrd (Use.ofRow Rows.dirrd h)) :
    exec (.dirrd h) s = .next (trapAt s 0x02 0 0x0A) := by
  rw [exec_dirrd]
  refine runHead_trap hi ((by decide : Row.Scalar Rows.dirrd).unbound h) (t := s) ?_
  exact (X.bind_ok (X.get_apply s)).trans (X.bind_error (servedBlock_refused hs))
theorem dirwr_refused (hs : serves s (blockArg s (gA s h)) = false) (hi : Issues s Rows.dirwr (Use.ofRow Rows.dirwr h)) :
    exec (.dirwr h) s = .next (trapAt s 0x02 0 0x0A) := by
  rw [exec_dirwr]
  refine runHead_trap hi ((by decide : Row.Scalar Rows.dirwr).unbound h) (t := s) ?_
  exact (X.bind_ok (X.get_apply s)).trans (X.bind_error (servedBlock_refused hs))

/-! ### REPLY (R476) -/

theorem reply_answers {own : Bool} {from_ : Option (Nat × Nat)} (hi : Issues s Rows.reply (Use.ofRow Rows.reply h))
    (hslot : replySlot s (hereRun s) (gA s h).val = some (own, from_)) :
    exec (.reply h) s = .next (advance h (Use.ofRow Rows.reply h) .seq (slotUsed own (gA s h).val
      (answerPkt from_ (h.im 1 0) (gB s h).val (replyData s (hereRun s) (h.im 1 0) (h.im 4 4 == 1)).1
        (replyData s (hereRun s) (h.im 1 0) (h.im 4 4 == 1)).2 s))) := by
  rw [exec_reply]
  refine runHead_ok hi ((by decide : Row.Scalar Rows.reply).unbound h) ?_
  refine (X.bind_ok (X.get_apply s)).trans ?_
  simp only [hslot]
  rfl
theorem reply_refused (hi : Issues s Rows.reply (Use.ofRow Rows.reply h)) (hslot : replySlot s (hereRun s) (gA s h).val = none) :
    exec (.reply h) s = .next (trapAt s 0x02 0 0x0A) := by
  rw [exec_reply]
  refine runHead_trap hi ((by decide : Row.Scalar Rows.reply).unbound h) (t := s) ?_
  refine (X.bind_ok (X.get_apply s)).trans ?_
  simp only [hslot]
  rfl

/-! ### FWD (R477) -/

/-- The block that goes with a FWD, and whether it is poisoned. -/
abbrev fwdPoison (h : Head) (s : State) : Bool :=
  if h.im 4 4 == 1 then (hereRun s).bufBad else poisonable s (blockArg s (gA s h)) && poisonAt s (blockArg s (gA s h)) 64
abbrev fwdData (h : Head) (s : State) : BitVec 512 :=
  if h.im 4 4 == 1 then (hereRun s).buf else BitVec.ofNat 512 (peek s (blockArg s (gA s h)) 64)
/-- The packet of a FWD. -/
abbrev fwdPkt (h : Head) (s : State) : Packet :=
  let x := fwdKind (h.im 3 0)
  let v := (gB s h).val.toNat
  { hdr := hdrBits { ty := x.1, ddev := v % 16384, sdev := s.dev, op := x.2.1, o := true, pz := x.2.2.2 && fwdPoison h s, scope := 4,
                     len := typeLen x.1, off := blockOff s (blockArg s (gA s h)) + (if x.2.2.1 then bitsOf v 31 16 % 64 else 0) },
    data := if x.2.2.2 then [fwdData h s] else [] }

theorem fwd_sends (hs : serves s (blockArg s (gA s h)) = true) (hi : Issues s Rows.fwd (Use.ofRow Rows.fwd h))
    (ht : threadNo s.cur < 6) (hk : h.im 3 0 < 11) (hd : (gB s h).val.toNat % 16384 ≠ s.dev)
    (hr : routable s ((gB s h).val.toNat % 16384) = true)
    (ha : fwdAsks (fwdKind (h.im 3 0)).1 (fwdKind (h.im 3 0)).2.1 = true → repReserved s (prismNo s.cur) < 32)
    (hsp : (prismOf s (prismNo s.cur)).spill = []) (hq : outQueued s (prismNo s.cur) < 32) :
    exec (.fwd h) s = .next (advance h (Use.ofRow Rows.fwd h) .seq
      (sendFwd (prismNo s.cur) (65536 * (hereRun s).tag + bitsOf (gB s h).val.toNat 31 16) (fwdPkt h s) s)) := by
  have hreq : ¬ 6 ≤ threadNo s.cur := by omega
  have hbad : (decide (11 ≤ h.im 3 0) || (gB s h).val.toNat % 16384 == s.dev) = false := by simp [hd, hk]
  have hask : (fwdAsks (fwdKind (h.im 3 0)).1 (fwdKind (h.im 3 0)).2.1 && decide (32 ≤ repReserved s (prismNo s.cur))) = false := by
    by_cases hx : fwdAsks (fwdKind (h.im 3 0)).1 (fwdKind (h.im 3 0)).2.1 = true
    · simp [hx, ha hx]
    · simp [hx]
  have hroom : ((prismOf s (prismNo s.cur)).spill.isEmpty && decide (outQueued s (prismNo s.cur) < 32)) = true := by simp [hsp, hq]
  rw [exec_fwd]
  refine runHead_ok hi ((by decide : Row.Scalar Rows.fwd).unbound h) ?_
  refine (X.bind_ok (X.get_apply s)).trans ?_
  simp only [hreq, ↓reduceIte]
  refine (X.bind_ok (servedBlock_ok hs)).trans ?_
  simp only [hbad, hask, hr, hroom, Bool.not_true, Bool.false_eq_true, ↓reduceIte]
  unfold fwdPkt fwdPoison fwdData
  cases h.im 4 4 == 1 <;> rfl

/-! ### BTX and HDONE (R478, R479) -/

theorem btx_records (hi : Issues s Rows.btx (Use.ofRow Rows.btx h)) {t : State}
    (ht : t = bbWrite (prismIo (prismNo s.cur)) 2 (prismNo s.cur + 256 * threadNo s.cur) (h.im 7 0) [(gA s h).val, (gB s h).val] s) :
    exec (.btx h) s = .next (advance h (Use.ofRow Rows.btx h) .seq
      (if h.im 8 8 = 1 then
        supRecord { code := 0x49, source := 2, unit := prismNo s.cur, addr := (gA s h).val.toNat, info := h.im 7 0 + threadNo s.cur * 256 } t
      else t)) := by
  subst ht
  rw [exec_btx]
  refine runHead_ok hi ((by decide : Row.Scalar Rows.btx).unbound h) ?_
  refine (X.bind_ok (X.get_apply s)).trans ?_
  by_cases hb : h.im 8 8 = 1
  · rw [if_pos hb]
    simp only [hb, beq_self_eq_true, ↓reduceIte]
    rfl
  · rw [if_neg hb]
    simp only [beq_false_of_ne hb, Bool.false_eq_true, ↓reduceIte]
    rfl

theorem hdone_ends (hi : Issues s Rows.hdone {}) :
    exec (.hdone h) s = .next (if h.im 0 0 = 1 then retryRun s.cur s else endRun s.cur s) := by
  rw [exec_hdone]
  refine runHead_gone hi (unbound_nil rfl) ?_
  refine (X.bind_ok (X.get_apply s)).trans ?_
  by_cases hb : h.im 0 0 = 1
  · simp only [hb, beq_self_eq_true, ↓reduceIte]
    rfl
  · simp only [hb, beq_false_of_ne hb, Bool.false_eq_true, ↓reduceIte]
    rfl

end

end Sys2Proof.Machine

namespace Sys2Proof
open Machine

/-- Settles O39: each head's body runs on the block that its Prism serves. -/
theorem prismHeadsActOnTheirBlock : Obligations.PrismHeadsActOnTheirBlock := by
  intro h s p blk u rec_
  refine ⟨fun hs => ⟨fun t hi hn hd hl => tagset_completes hs hi hn hd hl, fun hi => dirrd_reads hs hi,
      fun hi => dirwr_writes hs hi, ?_⟩, fun hs => ⟨dirrd_refused hs, dirwr_refused hs⟩,
    fun own from_ => reply_answers, reply_refused, fun t ht hi => btx_records hi ht, hdone_ends⟩
  intro v dd x buf bad data hi ht hk hd hr ha hsp hq
  exact fwd_sends hs hi ht hk hd hr ha hsp hq

end Sys2Proof
end

section
set_option Elab.async false
/-! Power-on and resets (R28 to R30, R85, R86, R91, R99). -/

namespace Sys2Proof.Machine

/-! ### A device that is left bare (R28) -/

/-- Nothing but host memory holds a byte, and no core, strip, Prism or fabric structure is in use. -/
def Bare (t : State) : Prop := t.cores = [] ∧ t.strips = [] ∧ t.prisms = [] ∧ t.net = [] ∧ ∀ a < hostBase, peek t a 1 = 0

theorem bare_bareDevice (s : State) : Bare (bareDevice s) := by
  refine ⟨rfl, rfl, rfl, rfl, fun a ha => ?_⟩
  have hout : ∀ x : Byte, (decide (hostBase ≤ a) && decide (a < 2 * hostBase)) = false := fun _ => by
    simp only [Bool.and_eq_false_imp, decide_eq_true_eq]
    omega
  rw [peek_byte]
  exact congrArg BitVec.toNat (get_filter_out hout)
theorem Bare.congr {s t : State} (h : Bare s) (hc : t.cores = s.cores) (hs : t.strips = s.strips) (hp : t.prisms = s.prisms)
    (hn : t.net = s.net) (hm : t.ms = s.ms) : Bare t := by
  obtain ⟨h1, h2, h3, h4, h5⟩ := h
  refine ⟨hc.trans h1, hs.trans h2, hp.trans h3, hn.trans h4, fun a ha => ?_⟩
  rw [peek_byte, hm, ← peek_byte]
  exact h5 a ha

/-! ### Boot (R91) -/

/-- Boot touches the registers, the functions, the firmware and the fabric alone. -/
theorem boot_frame (s : State) : (boot s).cores = s.cores ∧ (boot s).strips = s.strips ∧ (boot s).prisms = s.prisms ∧
    (boot s).net = s.net ∧ (boot s).ms = s.ms ∧ (boot s).ctxs = s.ctxs ∧ (boot s).firm.powered = s.firm.powered := by
  unfold boot
  dsimp only
  split
  · exact ⟨rfl, rfl, rfl, rfl, rfl, rfl, rfl⟩
  · split <;> exact ⟨rfl, rfl, rfl, rfl, rfl, rfl, rfl⟩
theorem boot_ctxs (s : State) : (boot s).ctxs = s.ctxs := by
  obtain ⟨-, -, -, -, -, hctx, -⟩ := boot_frame s
  exact hctx
theorem boot_powered (s : State) : (boot s).firm.powered = s.firm.powered := by
  obtain ⟨-, -, -, -, -, -, hp⟩ := boot_frame s
  exact hp
theorem bare_boot {s : State} (h : Bare s) : Bare (boot s) := by
  obtain ⟨hc, hs, hp, hn, hm, -, -⟩ := boot_frame s
  exact h.congr hc hs hp hn hm

theorem boot_slotA {s : State} (h : slotRefused s.firm s.firm.flashA = 0) :
    (boot s).firm.booted = true ∧ (boot s).firm.svc.bootedA = true := by
  unfold boot
  rw [h]
  exact ⟨rfl, rfl⟩
theorem boot_slotB {s : State} (ha : slotRefused s.firm s.firm.flashA ≠ 0) (hb : slotRefused s.firm s.firm.flashB = 0) :
    (boot s).firm.booted = true ∧ (boot s).firm.svc.bootedA = false := by
  unfold boot
  rw [hb]
  simp only [beq_false_of_ne ha, Bool.false_eq_true, ↓reduceIte, beq_self_eq_true]
  exact ⟨rfl, rfl⟩
theorem boot_fails {s : State} (ha : slotRefused s.firm s.firm.flashA ≠ 0) (hb : slotRefused s.firm s.firm.flashB ≠ 0) :
    (boot s).firm.booted = s.firm.booted := by
  unfold boot
  simp only [beq_false_of_ne ha, beq_false_of_ne hb, Bool.false_eq_true, ↓reduceIte]
  rfl

/-- The machine that boots at POWER_ON. -/
def poweredOn (s : State) : State := modFirm (fun f => { f with powered := true }) (bareDevice { s with cyc := 0 })
theorem bare_poweredOn (s : State) : Bare (poweredOn s) := (bare_bareDevice { s with cyc := 0 }).congr rfl rfl rfl rfl rfl

/-- The machine that boots after a device reset: the generations advance (R30). -/
def gensAfter (s : State) : SMap Ctx :=
  ((List.range 32768).map fun c => (c, ({ gen := (ctxOf s c).gen + 1 } : Ctx))).filter fun e => e.2 != {}
def resetWith (gens : SMap Ctx) (s : State) : State := bbFreeze (bbControl 0 0x6B [] { bareDevice s with ctxs := gens })
theorem deviceReset_eq (s : State) : deviceReset s = boot (resetWith (gensAfter s) s) := rfl
theorem bare_resetWith (gens : SMap Ctx) (s : State) : Bare (resetWith gens s) := (bare_bareDevice s).congr rfl rfl rfl rfl rfl
theorem ctxs_resetWith (gens : SMap Ctx) (s : State) : (resetWith gens s).ctxs = gens := rfl

/-- A map listed by its keys, without the entries at their default. -/
theorem get_listed {α : Type} [BEq α] [LawfulBEq α] (d : α) (g : Nat → α) (ks : List Nat) {k : Nat} (hk : k ∈ ks) :
    SMap.get d ((ks.map fun c => (c, g c)).filter fun e => e.2 != d) k = g k := by
  induction ks with
  | nil => cases hk
  | cons c ks ih =>
    by_cases hd : g c = d
    · rw [List.map_cons, List.filter_cons_of_neg (by simp [hd])]
      rcases List.mem_cons.mp hk with rfl | hk
      · by_cases hin : k ∈ ks
        · exact ih hin
        · rw [hd]
          have hnone (l : List Nat) (hl : k ∉ l) : SMap.get d ((l.map fun c => (c, g c)).filter fun e => e.2 != d) k = d := by
            induction l with
            | nil => rfl
            | cons j l ihl =>
              obtain ⟨hj, hl⟩ := not_or.mp (mt List.mem_cons.mpr hl)
              rw [List.map_cons, List.filter_cons]
              split
              · rw [SMap.get, if_neg (by simpa using hj), ihl hl]
              · exact ihl hl
          exact hnone ks hin
      · exact ih hk
    · rw [List.map_cons, List.filter_cons_of_pos (by simp [hd])]
      by_cases hkc : k = c
      · subst hkc
        simp [SMap.get]
      · rw [SMap.get, if_neg (by simpa using hkc)]
        exact ih ((List.mem_cons.mp hk).resolve_left hkc)

theorem ctxOf_deviceReset (s : State) {c : Nat} (hc : c < 32768) : ctxOf (deviceReset s) c = { gen := (ctxOf s c).gen + 1 } := by
  rw [deviceReset_eq, ctxOf, boot_ctxs, ctxs_resetWith, gensAfter]
  exact get_listed _ (fun c => ({ gen := (ctxOf s c).gen + 1 } : Ctx)) _ (List.mem_range.mpr hc)

/-! ### Function-level resets (R85) -/

/-- A vector event changes the coalescer and the pending bit of its function alone. -/
theorem fnOf_vecSend (f v : Nat) (s : State) : ∃ ic since pend,
    fnOf (vecSend f v s) f = { fnOf s f with icoal := ic, icoalSince := since, vpend := pend } := by
  unfold vecSend
  dsimp only
  split
  · exact ⟨_, _, _, fnOf_setFn ..⟩
  · exact ⟨_, _, _, fnOf_setFn ..⟩
theorem fnOf_vecEvent (f v : Nat) (s : State) : ∃ ic since pend,
    fnOf (vecEvent f v s) f = { fnOf s f with icoal := ic, icoalSince := since, vpend := pend } := by
  unfold vecEvent
  dsimp only
  split
  · obtain ⟨ic, since, pend, h⟩ := fnOf_vecSend f v (setFn s f { fnOf s f with
      icoal := SMap.set 1 (fnOf s f).icoal v (BitVec.ofNat 64 ((SMap.get 1 (fnOf s f).icoal v).toNat % 2 ^ 32 +
        Nat.min (bitsOf (SMap.get 1 (fnOf s f).icoal v).toNat 47 32 + 1) 65535 * 2 ^ 32))
      icoalSince := if bitsOf (SMap.get 1 (fnOf s f).icoal v).toNat 47 32 == 0 then SMap.insert (fnOf s f).icoalSince v s.cyc
        else (fnOf s f).icoalSince })
    rw [fnOf_setFn] at h
    exact ⟨ic, since, pend, h⟩
  · exact ⟨_, _, _, fnOf_setFn ..⟩
@[simp] theorem vecSend_tr (f v : Nat) (s : State) : (vecSend f v s).tr = s.tr := by
  unfold vecSend
  dsimp only
  split <;> rfl
@[simp] theorem vecEvent_tr (f v : Nat) (s : State) : (vecEvent f v s).tr = s.tr := by
  unfold vecEvent
  dsimp only
  split
  · rw [vecSend_tr]
    rfl
  · rfl

/-- No fault record belongs to a function. -/
def NoFaults (f : Nat) (s : State) : Prop := ∀ r ∈ s.tr.faults, r.fn ≠ f

theorem NoFaults.congr {f : Nat} {s t : State} (h : NoFaults f s) (ht : t.tr = s.tr) : NoFaults f t := by
  intro r hr
  rw [ht] at hr
  exact h r hr
/-- Records keep their function when they are marked or joined. -/
theorem NoFaults.map {f : Nat} {s : State} (h : NoFaults f s) {g : FaultRec → FaultRec} (hg : ∀ r, (g r).fn = r.fn) :
    NoFaults f (modTr (fun q => { q with faults := q.faults.map g }) s) := by
  intro r hr
  obtain ⟨x, hx, rfl⟩ := List.mem_map.mp hr
  rw [hg]
  exact h x hx

theorem noFaults_faultDrain {f : Nat} (k n : Nat) {s : State} (h : NoFaults f s) : NoFaults f (faultDrain k n s) := by
  induction n generalizing s with
  | zero => exact h
  | succ n ih =>
    unfold faultDrain
    split
    · exact h
    · dsimp only
      split
      · exact h
      split
      · split
        · exact h
        · exact h.congr (vecSend_tr ..)
      · refine ih (NoFaults.congr ?_ (vecEvent_tr ..))
        refine NoFaults.map (h.congr (by rw [setFn_tr, hostPoke_tr])) fun r => ?_
        split <;> rfl

theorem noFaults_openFault {f : Nat} {s : State} (h : NoFaults f s) {fr : FaultRec} (hf : fr.fn ≠ f) (who : Parked) :
    NoFaults f (openFault fr who s) := by
  unfold openFault
  dsimp only
  split_ifs
  · refine h.map fun r => ?_
    split <;> rfl
  · exact h
  · refine noFaults_faultDrain _ _ ?_
    intro r hr
    rcases List.mem_append.mp hr with hr | hr
    · exact h r hr
    · rw [List.mem_singleton.mp hr]
      exact hf

theorem noFaults_faultPending {f : Nat} {s : State} (h : NoFaults f s) (hp : ∀ p ∈ s.tr.pending, p.fr.fn ≠ f) :
    NoFaults f (faultPending s) := by
  unfold faultPending
  generalize s.tr.pending = l at hp
  induction l generalizing s with
  | nil => exact h
  | cons p l ih =>
    refine ih ?_ fun q hq => hp q (List.mem_cons_of_mem _ hq)
    dsimp only
    split
    · have hm : NoFaults f (modTr (fun q => { q with pending := q.pending.erase p }) s) := h
      exact noFaults_openFault hm (hp p (List.mem_cons_self ..)) _
    · exact h

/-- The registers of a function after its reset (R85). -/
def fnReset (x : Fn) : Fn :=
  { x with hvsel := 0, fqctl := BitVec.ofNat 64 (x.fqctl.toNat % 2 ^ 63), fqtail := 0, fqhead := 0, fqphase := true, icoal := [], icoalSince := [] }

/-- A function-level reset drops the function's faults, resets its registers and ends with its vector 1. -/
theorem resetFn_eq (f : Nat) (s : State) : ∃ s', resetFn f s = vecEvent f 1 (modFn f fnReset
    (modFe (fun x => { x with gangAges := x.gangAges.filter (·.fn != f) }) (faultPending
      (modTr (fun t => { t with faults := t.faults.filter (·.fn != f), pending := t.pending.filter (·.fr.fn != f) }) s')))) := ⟨_, rfl⟩

theorem noFaults_resetFn (f : Nat) (s : State) : NoFaults f (resetFn f s) := by
  obtain ⟨s', he⟩ := resetFn_eq f s
  have hdrop : NoFaults f (modTr (fun t => { t with
      faults := t.faults.filter (·.fn != f)
      pending := t.pending.filter (·.fr.fn != f) }) s') := fun r hr => by simpa using (List.mem_filter.mp hr).2
  have hpend := noFaults_faultPending hdrop fun p hp => by simpa using (List.mem_filter.mp hp).2
  rw [he]
  exact (hpend.congr (by rfl)).congr (vecEvent_tr ..)

theorem fnOf_resetFn (f : Nat) (s : State) : (fnOf (resetFn f s) f).hvsel = 0 ∧ (fnOf (resetFn f s) f).fqhead = 0 ∧
    (fnOf (resetFn f s) f).fqtail = 0 ∧ (fnOf (resetFn f s) f).fqctl.getLsbD 63 = false := by
  obtain ⟨s', he⟩ := resetFn_eq f s
  obtain ⟨ic, since, pend, hv⟩ := fnOf_vecEvent f 1 (modFn f fnReset
    (modFe (fun x => { x with gangAges := x.gangAges.filter (·.fn != f) }) (faultPending
      (modTr (fun t => { t with faults := t.faults.filter (·.fn != f), pending := t.pending.filter (·.fr.fn != f) }) s'))))
  rw [he, hv, fnOf_modFn]
  refine ⟨rfl, rfl, rfl, ?_⟩
  generalize fnOf _ f = x
  have hlt := Nat.mod_lt x.fqctl.toNat (y := 2 ^ 63) (by decide)
  show (BitVec.ofNat 64 (x.fqctl.toNat % 2 ^ 63)).getLsbD 63 = false
  rw [BitVec.getLsbD_ofNat, Nat.testBit_lt_two_pow hlt, Bool.and_false]

/-! ### Power (R27, R86) -/

theorem setThrottle_ok {die step : Nat} (hd : die < 4) (hs : step < 16) (s : State) :
    SMap.get 0 (setThrottle die step s).host.throttle die = step ∧ (setThrottle die step s).ctxs = s.ctxs ∧
      (setThrottle die step s).ms = s.ms := by
  unfold setThrottle
  simp only [show ¬ 4 ≤ die by omega, show ¬ 16 ≤ step by omega, decide_false, Bool.false_or]
  split
  · next h => exact ⟨by simpa using h, rfl, rfl⟩
  · exact ⟨SMap.get_set_self .., rfl, rfl⟩

/-- MGMTPWR holds the average, the highest and the throttle steps in fields of their own (R86). -/
theorem mgmtPwr_fields {avg peak steps : Nat} (ha : avg < 65536) (hp : peak < 65536) (hs : steps < 65536) :
    bitsOf (BitVec.ofNat 64 (avg * 2 ^ 32 + peak * 2 ^ 16 + steps)).toNat 47 32 = avg ∧
    bitsOf (BitVec.ofNat 64 (avg * 2 ^ 32 + peak * 2 ^ 16 + steps)).toNat 31 16 = peak := by
  rw [BitVec.toNat_ofNat]
  unfold bitsOf
  omega

end Sys2Proof.Machine

namespace Sys2Proof
open Machine

/-- Settles O40: what a reset builds is bare, and boot touches no part that it cleared. -/
theorem resetsClearTheMachine : Obligations.ResetsClearTheMachine := by
  unfold Obligations.ResetsClearTheMachine
  intro clear
  refine ⟨fun s => ⟨boot (poweredOn s), exec_powerOn s, ?_, bare_boot (bare_poweredOn s), ?_, ?_, ?_, ?_⟩,
    fun s hp => ⟨deviceReset s, ?_, ?_, fun c hc => ?_⟩,
    fun s => ⟨_, exec_standbyPowerLoss s, rfl, rfl, (bare_bareDevice s).congr rfl rfl rfl rfl rfl⟩,
    fun f s hv => ?_, fun f s h1 h64 hv => ⟨resetFn f s, ?_, ?_⟩, fun s => ⟨_, exec_pfFunctionLevelReset s, rfl⟩,
    fun die failed s hd hp => ?_, fun die s hd hp => ?_, fun die step s hd hs => ⟨?_, fun h0 => ?_⟩, fun pavg pmax temps s ha hm => ?_⟩
  · exact boot_powered (poweredOn s)
  · exact boot_ctxs (poweredOn s)
  · exact fun ha => boot_slotA (s := poweredOn s) ha
  · exact fun ha hb => boot_slotB (s := poweredOn s) ha hb
  · exact fun ha hb => boot_fails (s := poweredOn s) ha hb
  · rw [exec_deviceReset, execDeviceReset, if_pos hp]
  · rw [deviceReset_eq]
    exact bare_boot (bare_resetWith _ s)
  · rw [ctxOf_deviceReset s hc]
    exact ⟨rfl, rfl⟩
  · rw [exec_functionLevelReset, execFunctionLevelReset, if_neg]
    simp [fnHere, hv]
    omega
  · rw [exec_functionLevelReset, execFunctionLevelReset, if_pos]
    simp [fnHere, hv, h1, h64]
  · obtain ⟨h1, h2, h3, h4⟩ := fnOf_resetFn f s
    exact ⟨h1, h2, h3, h4, noFaults_resetFn f s⟩
  · intro ks
    rw [exec_computeDieReset]
    have hc : ¬ (decide (4 ≤ die) || !s.firm.powered) = true := by simp [hp, hd]
    exact congrArg Host.Outcome.next (if_neg hc)
  · rw [exec_thermalTrip, execThermalTrip, if_neg (by simp [hp, hd])]
  · exact ⟨_, exec_powerLimitWindow die step s, setThrottle_ok hd hs s⟩
  · refine ⟨setThrottle die step s, ?_, setThrottle_ok hd hs s⟩
    rw [exec_thermalThrottle, execThermalThrottle, if_neg (by simp; omega)]
  · have hmax : Nat.max (bitsOf s.host.mgmtPwr.toNat 31 16) pmax < 65536 :=
      Nat.max_lt.mpr ⟨Nat.mod_lt _ (by decide), hm⟩
    obtain ⟨h1, h2⟩ := mgmtPwr_fields ha hmax (Nat.mod_lt _ (by decide) :
      ((List.range 4).map fun d => SMap.get 0 s.host.throttle d * 2 ^ (4 * d)).sum % 65536 < 65536)
    refine ⟨_, exec_mgmtUpdate pavg pmax temps s, ?_⟩
    show bitsOf (BitVec.ofNat 64 (pavg % 65536 * 2 ^ 32 + Nat.max (bitsOf s.host.mgmtPwr.toNat 31 16) (pmax % 65536) * 2 ^ 16 + _)).toNat 47 32 = _ ∧
      bitsOf (BitVec.ofNat 64 (pavg % 65536 * 2 ^ 32 + Nat.max (bitsOf s.host.mgmtPwr.toNat 31 16) (pmax % 65536) * 2 ^ 16 + _)).toNat 31 16 = _ ∧
      (BitVec.ofNat 64 temps.toNat).toNat = _
    rw [Nat.mod_eq_of_lt ha, Nat.mod_eq_of_lt hm]
    refine ⟨h1, h2, ?_⟩
    rw [BitVec.toNat_ofNat, Nat.mod_eq_of_lt (by have := temps.isLt; omega)]

end Sys2Proof
end

section
set_option Elab.async false
/-! Containment, strip-map changes, scrubbing and mirror intervals (R17, R19, R99, R103, R201, R202). -/

namespace Sys2Proof.Machine

/-! ### CONTAIN (R94, R99) -/

section
variable {n : Nat} {body : State → State} {s : State} {r : Rect}

theorem svcCmd_runs (h : svcRuns s n = true) (ha : svcBuf s % 4096 = 0) : svcCmd n body s = body s := by
  simp [svcCmd, h, ha]
/-- A command whose body does nothing on an aligned buffer does nothing. -/
theorem svcCmd_idle (ha : svcBuf s % 4096 = 0) (hb : body s = s) : svcCmd n body s = s := by
  cases h : svcRuns s n with
  | false => simp [svcCmd, h]
  | true => rw [svcCmd_runs h ha, hb]

/-- A strip is being moved (R99). -/
def moving (s : State) : Bool := s.strips.any fun e => e.2.remap.isSome

theorem contain_moving {a : Nat} {f : State → Rect → Nat} {go : List Nat → State → State} (hm : moving s = true) :
    contain r a f go s = s := if_pos hm
theorem contain_other {a : Nat} {f : State → Rect → Nat} {go : List Nat → State → State} (hr : r ≠ rectRequest s)
    (ha : svcBuf s % 4096 = 0) : contain r a f go s = s := by
  unfold contain
  split
  · rfl
  · refine svcCmd_idle ha (if_pos ?_)
    simp [hr.symm]
theorem contain_runs {f : State → Rect → Nat} {go : List Nat → State → State} (hrun : svcRuns s 4 = true)
    (ha : svcBuf s % 4096 = 0) (hm : moving s = false) :
    contain (rectRequest s) (rectAction s) f go s = if f s (rectRequest s) != 0 then svcDone (f s (rectRequest s)) s
      else containDone (rectStrips (rectRequest s)) 0 (go (rectStrips (rectRequest s)) s) := by
  unfold contain
  rw [if_neg (by rw [← moving, hm]; decide), svcCmd_runs hrun ha, if_neg (by simp)]

/-- CONTAIN's three results, for the action of the request. -/
theorem contain_result {f : State → Rect → Nat} {go : List Nat → State → State} {a : Nat} (hrun : svcRuns s 4 = true)
    (ha : svcBuf s % 4096 = 0) (hm : moving s = false) (hact : rectAction s = a) :
    (f s (rectRequest s) = 0 → contain (rectRequest s) a f go s =
      containDone (rectStrips (rectRequest s)) 0 (go (rectStrips (rectRequest s)) s)) ∧
    (f s (rectRequest s) ≠ 0 → contain (rectRequest s) a f go s = svcDone (f s (rectRequest s)) s) := by
  rw [← hact, contain_runs hrun ha hm]
  refine ⟨fun h => if_neg (by simp [h]), fun h => if_pos (by simp [h])⟩

theorem execContainFence_runs (h : rectAction s < 3 ∨ r ≠ rectRequest s) :
    execContainFence r s = .next (contain r 0 rectRefused fenceStrips s) := by
  have hno : ¬ (svcRuns s 4 && rectRequest s == r && decide (3 ≤ rectAction s)) = true := by
    rcases h with h | h
    · have : ¬ 3 ≤ rectAction s := by omega
      simp [this]
    · simp [h.symm]
  rw [execContainFence, if_neg hno]

theorem releaseRefused_iff : releaseRefused s r = 0 ↔ rectRefused s r = 0 ∧ ∀ k ∈ rectStrips r, stripRole s k = 2 := by
  unfold releaseRefused
  by_cases h : rectRefused s r = 0
  · have hany : ((rectStrips r).any fun k => stripRole s k != 2) = true ↔ ¬ ∀ k ∈ rectStrips r, stripRole s k = 2 := by simp
    simp only [h, bne_self_eq_false, Bool.false_eq_true, ↓reduceIte, true_and]
    split
    · next hb => simpa using hany.mp hb
    · next hb => simpa using mt hany.mpr hb
  · simp [h]

end

/-- ROLE is written alone (R16). -/
theorem role_written (e : BitVec 32) {role : Nat} (hr : role < 4) :
    bitsOf (e &&& ~~~(0x60000000 : BitVec 32) ||| BitVec.ofNat 32 (role * 2 ^ 29)).toNat 30 29 = role := by
  have hfield (x : BitVec 32) : bitsOf x.toNat 30 29 = (x.extractLsb' 29 2).toNat := by
    rw [BitVec.extractLsb'_toNat, Nat.shiftRight_eq_div_pow]
    rfl
  have hkeep : (~~~(0x60000000 : BitVec 32)).extractLsb' 29 2 = 0#2 := by decide
  rw [hfield, BitVec.extractLsb'_or, BitVec.extractLsb'_and, hkeep, BitVec.and_zero, BitVec.zero_or, ← hfield, BitVec.toNat_ofNat]
  unfold bitsOf
  omega

theorem setRole_role {s : State} {k role : Nat} (hr : role < 4) : stripRole (setRole role s k) k = role := by
  have he : stripEntry (setRole role s k) k =
      stripEntry s k &&& ~~~(0x60000000 : BitVec 32) ||| BitVec.ofNat 32 (role * 2 ^ 29) := SMap.get_set_self ..
  rw [stripRole, he, role_written _ hr]
theorem setRole_other {s : State} {k role j : Nat} (hj : j ≠ k) : stripEntry (setRole role s k) j = stripEntry s j :=
  SMap.get_set_ne _ _ _ hj

/-! ### The mailbox's answer (R94) -/

@[simp] theorem vecSend_firm (f v : Nat) (s : State) : (vecSend f v s).firm = s.firm := by
  unfold vecSend
  dsimp only
  split <;> rfl
@[simp] theorem vecEvent_firm (f v : Nat) (s : State) : (vecEvent f v s).firm = s.firm := by
  unfold vecEvent
  dsimp only
  split
  · rw [vecSend_firm]
    rfl
  · rfl

theorem svcDone_ctl (st : Nat) (s : State) :
    (svcDone st s).firm.svc.ctl = BitVec.ofNat 32 (st * 2 ^ 16 + s.firm.svc.ctl.toNat % 4096) := by
  rw [svcDone, vecEvent_firm]
  rfl
theorem svcDone_idle {st : Nat} (hs : st < 256) (s : State) :
    (svcDone st s).firm.svc.ctl.getLsbD 31 = false ∧ bitsOf (svcDone st s).firm.svc.ctl.toNat 23 16 = st := by
  rw [svcDone_ctl]
  generalize s.firm.svc.ctl.toNat = n
  constructor
  · rw [BitVec.getLsbD_ofNat, Nat.testBit_lt_two_pow (by omega), Bool.and_false]
  · rw [BitVec.toNat_ofNat]
    unfold bitsOf
    omega

/-! ### Strip-map changes (R17, R19) -/

theorem stripMapChange_begins {k : Nat} {e : BitVec 32} {s : State} (hk : k < 256) (hr : (stripOf s k).remap = none)
    (hb : s.firm.booted = true) (hm : (s.strips.any fun x => x.2.remap.isSome) = false) (ho : mapOk s k e = true) :
    stripMapChange k e s = preemptStrip k (modStrip k (fun t => { t with remap := some e }) s) := by
  unfold stripMapChange
  simp only [hr, show ¬ 256 ≤ k by omega, hb, hm, ho, decide_false, Bool.not_true, Bool.or_self, Bool.false_eq_true, ↓reduceIte]
theorem stripMapChange_goes {k : Nat} {e e' : BitVec 32} {s : State} (hr : (stripOf s k).remap = some e') :
    stripMapChange k e s = if (stripOf s k).fenced then moveStrip k e' s
      else if stripIdle s k then modStrip k (fun t => { t with fenced := true }) s else preemptStrip k s := by
  unfold stripMapChange
  rw [hr]

/-- A strip that has moved takes its entry, and no TLB holds a translation of its own (R19). -/
theorem moveStrip_moved (k : Nat) (e : BitVec 32) (s : State) : stripEntry (moveStrip k e s) k = e &&& 0xE000007F ∧
    (stripOf (moveStrip k e s) k).remap = none ∧ (stripOf (moveStrip k e s) k).fenced = false ∧
    ∀ x ∈ (moveStrip k e s).tr.tlb, x.unit ≠ k := by
  unfold moveStrip
  generalize (stripCores [k]).foldl _ s = t
  dsimp only
  refine ⟨SMap.get_set_self .., ?_, ?_, fun x hx => ?_⟩
  · rw [stripOf_modStrip]
  · rw [stripOf_modStrip]
  · have hmem : x ∈ t.tr.tlb.filter fun x => x.unit != k := hx
    simpa using (List.mem_filter.mp hmem).2

theorem fencedAccessRetry_goes {i : Nat} {u : Susp} {s : State} (hu : s.ms.susp[i]? = some u) (hr : u.refused = some 2)
    (hm : (stripOf s ((64 * u.block - winBase) / 0x4000000)).remap = none) :
    execFencedAccessRetry i s = .next (wakeTags (fun b => b == u.block)
      (modMs (fun m => { m with susp := m.susp.set i { u with refused := none, allowed := true } }) s)) := by
  unfold execFencedAccessRetry
  simp only [hu, hr, hm, Option.isNone_none, beq_self_eq_true, Bool.and_self, ↓reduceIte]

/-! ### Scrubbing (R103) -/

theorem scrubPage_early {page : Nat} {s : State} (h : patrolDue s page = false) : scrubPage page s = s := by
  unfold scrubPage
  simp [h]

/-- The page after the visit: its errors corrected, its turn noted. -/
abbrev scrubbed (page : Nat) (s : State) : State :=
  correct (4096 * page) 4096 (modFirm (fun f => { f with patrolAt := SMap.set 0 f.patrolAt page (s.cyc + 1) }) s)

theorem scrubPage_due {page : Nat} {s : State} (he : (bootTable s).enc = true) (hp : 4096 * page < hbmTop)
    (hd : patrolDue s page = true) :
    scrubPage page s =
      if tagOfPage (scrubbed page s) page != pageTag (scrubbed page s).firm.boots (scrubbed page s).ms.mem page then
        supRecord { code := 0x4B, source := 7, unit := hbmPrism (4096 * page), addr := 4096 * page }
          (bbWrite (hbmPrism (4096 * page) / 12) 7 (hbmPrism (4096 * page)) 0x68 [BitVec.ofNat 64 (4096 * page)] (scrubbed page s))
      else scrubbed page s := by
  have hno : ¬ (!(bootTable s).enc || decide (hbmTop ≤ 4096 * page) || !patrolDue s page) = true := by
    simp [he, hd, hp]
  exact if_neg hno

/-! ### Mirror intervals (R201, R202) -/

section
variable {c : Nat} {p : Pair} {s : State}

theorem mirrorConfirm_confirms (hc : closedPair s c = some p) (ha : p.again = false) (hf : p.fp = p.fpP)
    (hr : (coreOf s (coreNo c)).sb.length + p.held.length ≤ 32) :
    (coreOf (mirrorConfirm c s) (coreNo c)).sb = (coreOf s (coreNo c)).sb ++ p.held ∧ (ctxOf (mirrorConfirm c s) c).st = .ready ∧
      (ctxOf (mirrorConfirm c s) c).g = (ctxOf s c).g := by
  have hgo : (p.fp != p.fpP || decide (32 < (coreOf s (coreNo c)).sb.length + p.held.length)) = false := by
    simp [hf, hr]
  obtain ⟨q, he⟩ : ∃ q, mirrorConfirm c s = modGrp q
      (modCtx c (fun x => { x with st := .ready, wait := if p.boundary then .none else .pair, granted := false })
        (modCore (coreNo c) (fun k => { k with sb := k.sb ++ p.held }) s)) := by
    unfold mirrorConfirm
    simp only [hc, hgo, ha, Bool.false_eq_true, ↓reduceIte]
    exact ⟨_, rfl⟩
  rw [he, coreOf_modGrp, coreOf_modCtx, coreOf_modCore, ctxOf_modGrp, ctxOf_modCtx, ctxOf_modCore]
  exact ⟨rfl, rfl, rfl⟩

theorem mirrorConfirm_waits (hc : closedPair s c = some p) (hf : p.fp ≠ p.fpP) : mirrorConfirm c s = s := by
  unfold mirrorConfirm
  simp [hc, hf]

@[simp] theorem modPools_ms (c : Nat) (f : CoreSt → CoreSt) (s : State) : (modPools c f s).ms = s.ms := by
  unfold modPools
  dsimp only
  split <;> rfl

/-- The context that goes back to a checkpoint (R202). -/
def atCheckpoint (c : Nat) (p : Pair) (fir : Firing) (s : State) : Ctx :=
  { p.check with
    st := .ready
    wait := .none
    granted := false
    fir := some fir
    gen := (ctxOf s c).gen
    ep := (ctxOf s c).ep
    nextPend := (ctxOf s c).nextPend }
theorem rollBack_eq (c : Nat) (p : Pair) (s : State) : ∃ f g q fir t, rollBack c p s =
    modGrp q (modCtx p.part g (setCtx (modPools c f s) c (p.landed.foldl arriveAgain (atCheckpoint c p fir t)))) := by
  unfold rollBack modPair atCheckpoint
  exact ⟨_, _, _, _, _, rfl⟩

theorem mirrorMismatch_rolls (hc : closedPair s c = some p) (ha : p.again = false) (hp : p.part ≠ c) :
    ∃ x, ctxOf (mirrorMismatch c s) c = p.landed.foldl arriveAgain x ∧ x.g = p.check.g ∧ x.v = p.check.v ∧ x.pc = p.check.pc ∧
      x.st = .ready ∧ (mirrorMismatch c s).ms = s.ms := by
  have he : mirrorMismatch c s = rollBack c p s := by
    unfold mirrorMismatch
    simp only [hc, ha, Bool.not_false, ↓reduceIte]
  obtain ⟨f, g, q, fir, t, hr⟩ := rollBack_eq c p s
  refine ⟨atCheckpoint c p fir t, ?_, rfl, rfl, rfl, rfl, ?_⟩
  · rw [he, hr, ctxOf_modGrp, ctxOf_modCtx_ne _ _ hp.symm, ctxOf_setCtx]
  · rw [he, hr]
    exact modPools_ms c f s

end

end Sys2Proof.Machine

namespace Sys2Proof
open Machine

/-- Settles O41: each event in the cases of its guard; the ROLE field, the answer word and the checkpoint by lemmas of their
own. -/
theorem containmentAndChecksAct : Obligations.ContainmentAndChecksAct := by
  unfold Obligations.ContainmentAndChecksAct
  refine ⟨?_, fun r failed s hr ha => ⟨?_, ?_, ?_⟩, fun s r => releaseRefused_iff,
    fun s k role hr => ⟨setRole_role hr, fun j hj => setRole_other hj⟩, fun st s hs => svcDone_idle hs s,
    fun k e s hk hr hb hm ho => ?_, fun k e e' s hr => ⟨fun hf hi => ?_, fun hf hi => ?_, fun hf => ?_⟩,
    fun i u s hu hr hm => (exec_fencedAccessRetry i s).trans (fencedAccessRetry_goes hu hr hm), ?_, ?_⟩
  · intro failed s hrun r ks mv
    refine ⟨fun h3 => ?_, fun h3 hm => ⟨?_, ?_, ?_⟩, fun ha hm => ⟨fun h0 => ?_, fun h1 => ?_, fun h2 => ?_⟩⟩
    · have hbad : (svcRuns s 4 && rectRequest s == r && decide (3 ≤ rectAction s)) = true := by simp [hrun, h3, r]
      rw [exec_containFence, execContainFence, if_pos hbad]
    · rw [exec_containFence, execContainFence_runs (.inl h3), contain_moving hm]
    · rw [exec_containReset, execContainReset, contain_moving hm]
    · rw [exec_containRelease, execContainRelease, contain_moving hm]
    · rw [exec_containFence, execContainFence_runs (.inl (by omega))]
      obtain ⟨hgo, hno⟩ := contain_result (f := rectRefused) (go := fenceStrips) hrun ha hm h0
      exact ⟨fun h => congrArg _ (hgo h), fun h => congrArg _ (hno h)⟩
    · rw [exec_containReset, execContainReset]
      obtain ⟨hgo, hno⟩ := contain_result (f := rectRefused) (go := fun ks s => resetStrips ks failed (fenceStrips ks s)) hrun ha hm h1
      exact ⟨fun h => congrArg _ (hgo h), fun h => congrArg _ (hno h)⟩
    · rw [exec_containRelease, execContainRelease]
      obtain ⟨hgo, hno⟩ := contain_result (f := releaseRefused) (go := fun ks s =>
        bbControl (ks.headD 0 / 128) 0x64 [ks.headD 0, ks.length] (ks.foldl (setRole 0) s)) hrun ha hm h2
      exact ⟨fun h => congrArg _ (hgo h), fun h => congrArg _ (hno h)⟩
  · rw [exec_containFence, execContainFence_runs (.inr hr), contain_other hr ha]
  · rw [exec_containReset, execContainReset, contain_other hr ha]
  · rw [exec_containRelease, execContainRelease, contain_other hr ha]
  · rw [exec_stripMapChange, execStripMapChange, stripMapChange_begins hk hr hb hm ho]
  · rw [exec_stripMapChange, execStripMapChange, stripMapChange_goes hr, hf, hi]
    rfl
  · rw [exec_stripMapChange, execStripMapChange, stripMapChange_goes hr, hf, hi]
    rfl
  · refine ⟨moveStrip k e' s, ?_, moveStrip_moved k e' s⟩
    rw [exec_stripMapChange, execStripMapChange, stripMapChange_goes hr, hf]
    rfl
  · intro page ecc bad u pa s t
    have hexec : exec (.patrolScrub page ecc bad) u = .next (scrubPage page s) := rfl
    refine ⟨fun hd => by rw [hexec, scrubPage_early hd], fun he hp hd => ?_⟩
    have hs := scrubPage_due he hp hd
    refine ⟨fun hne => ?_, fun heq => ?_⟩
    · rw [hexec, hs, if_pos (by simpa using hne)]
    · rw [hexec, hs, if_neg (by simpa using heq)]
  · intro c p s hc
    refine ⟨fun ha hf hr => ⟨_, exec_mirrorIntervalConfirm c s, mirrorConfirm_confirms hc ha hf hr⟩, fun hf => ?_, fun ha hp => ?_⟩
    · rw [exec_mirrorIntervalConfirm, execMirrorIntervalConfirm, mirrorConfirm_waits hc hf]
    · obtain ⟨x, hx⟩ := mirrorMismatch_rolls hc ha hp
      exact ⟨_, x, exec_mirrorMismatch c s, hx⟩

end Sys2Proof
end

section
set_option Elab.async false
/-! The service mailbox (R93 to R98, R104, R105). -/

namespace Sys2Proof.Machine

/-- A completed command keeps the mailbox but for its control word, and both black boxes. -/
theorem svcDone_firm (st : Nat) (s : State) : (svcDone st s).firm =
    { s.firm with svc := { s.firm.svc with ctl := BitVec.ofNat 32 (st * 2 ^ 16 + s.firm.svc.ctl.toNat % 4096) } } := by
  rw [svcDone, vecEvent_firm]
  rfl
@[simp] theorem bufWrite_firm (off n x : Nat) (s : State) : (bufWrite off n x s).firm = s.firm := rfl
theorem patchDone_svc (st : Nat) (s : State) : (patchDone st s).firm.svc =
    { s.firm.svc with ctl := BitVec.ofNat 32 (st * 2 ^ 16 + s.firm.svc.ctl.toNat % 4096) } := by
  rw [patchDone, svcDone_firm, bufWrite_firm]

section
variable {s : State}

/-! ### Hot patches (R98) -/

theorem patch_answers {ok : Bool} (hrun : svcRuns s 3 = true) (ha : svcBuf s % 4096 = 0) (hp : s.firm.svc.patch = none) :
    execPatch ok s = .next (if patchRefused s ok (patchImage s) != 0 then patchDone (patchRefused s ok (patchImage s)) s
      else modSvc (fun v => { v with patch := some (patchImage s), patchSince := s.cyc, gates := (patchImage s).inactive }) s) := by
  unfold execPatch
  rw [svcCmd_runs hrun ha]
  simp only [hp, Option.isSome_none, Bool.false_eq_true, ↓reduceIte]

theorem patchApply_applies {p : PatchImage} (hp : s.firm.svc.patch = some p) (hrun : svcRuns s 3 = true) (hq : patchQuiet s p = true) :
    ∃ t, execPatchApply s = .next t ∧ t.firm.svc.version = p.target ∧ t.firm.svc.patch = none ∧
      t.firm.svc.gates = [] ∧ t.firm.svc.waiting = [] ∧ t.firm.svc.patches = s.firm.svc.patches ++ [p.digest] ∧
      t.firm.svc.bodies = s.firm.svc.bodies ++ [(p.size, p.body)] := by
  unfold execPatchApply
  simp only [hp, hrun, hq, Bool.and_self, Bool.not_true, Bool.false_eq_true, ↓reduceIte]
  refine ⟨_, rfl, ?_⟩
  rw [patchDone_svc]
  exact ⟨rfl, rfl, rfl, rfl, rfl, rfl⟩

theorem patchQuiesceTimeout_gives_up {p : PatchImage} (hp : s.firm.svc.patch = some p) (hrun : svcRuns s 3 = true)
    (hq : patchQuiet s p = false) (ht : s.firm.svc.patchSince + 1000 * Config.cyclesPerUs ≤ s.cyc) :
    ∃ t, execPatchQuiesceTimeout s = .next t ∧ t.firm.svc.version = s.firm.svc.version ∧ t.firm.svc.patch = none ∧
      t.firm.svc.gates = [] := by
  unfold execPatchQuiesceTimeout
  simp only [hp, hrun, hq, ht, Bool.not_false, decide_true, Bool.and_self, ↓reduceIte]
  refine ⟨_, rfl, ?_⟩
  rw [patchDone_svc]
  exact ⟨rfl, rfl, rfl⟩

/-! ### COMMIT, BBCTL and FABCFG (R92, R95, R105) -/

theorem bbctlFreeze_answers (hrun : svcRuns s 6 = true) (ha : svcBuf s % 4096 = 0) :
    execBbctlFreeze s = .next (if bbRequest s == 1 then s else if bbRequest s != 0 then svcDone 2 s
      else svcDone 0 (bufWrite 0 64 (bbHeader (bbFreeze s)) (bbFreeze s))) := by
  unfold execBbctlFreeze
  rw [svcCmd_runs hrun ha]

theorem bbctlUnfreeze_unfreezes (hrun : svcRuns s 6 = true) (ha : svcBuf s % 4096 = 0) (h1 : bbRequest s = 1) :
    ∃ t, execBbctlUnfreeze s = .next t ∧ ∀ d < 2, (SMap.get {} t.firm.bb d).frozen = false ∧ (SMap.get {} t.firm.bb d).left = none := by
  unfold execBbctlUnfreeze
  rw [svcCmd_runs hrun ha]
  simp only [h1, bne_self_eq_false, Bool.false_eq_true, ↓reduceIte]
  refine ⟨_, rfl, fun d hd => ?_⟩
  rw [svcDone_firm, bufWrite_firm]
  dsimp only [modFirm]
  rcases (by omega : d = 0 ∨ d = 1) with rfl | rfl
  · rw [SMap.get_set_ne _ _ _ (by decide), SMap.get_set_self]
    exact ⟨rfl, rfl⟩
  · rw [SMap.get_set_self]
    exact ⟨rfl, rfl⟩

theorem fabcfg_answers {oks : List Bool} (hrun : svcRuns s 7 = true) (ha : svcBuf s % 4096 = 0) (h0 : bufRead s 0 4 ≠ 0)
    (h1 : bufRead s 0 4 ≤ 65535) (h2 : 16 + 16 * bufRead s 0 4 ≤ svcLen s) (h3 : bufRead s 4 12 = 0) :
    execFabcfg oks s = .next (svcDone (if (cfgAll (bufRead s 0 4) 0 oks s).2.1 then 0 else 6)
      (bufWrite 0 8 ((cfgAll (bufRead s 0 4) 0 oks s).1 +
        (if (cfgAll (bufRead s 0 4) 0 oks s).2.1 then 2 ^ 32 - 1 else (cfgAll (bufRead s 0 4) 0 oks s).1) * 2 ^ 32)
        (cfgAll (bufRead s 0 4) 0 oks s).2.2)) := by
  have hok : ¬ (bufRead s 0 4 == 0 || decide (65535 < bufRead s 0 4) || decide (svcLen s < 16 + 16 * bufRead s 0 4) ||
      bufRead s 4 12 != 0) = true := by
    simp [h0, h1, h2, h3]
  unfold execFabcfg
  rw [svcCmd_runs hrun ha]
  exact congrArg Host.Outcome.next (if_neg hok)

theorem blackboxFrozen_freezes {d : Nat} (h : (SMap.get {} s.firm.bb d).left = some 0) : ∃ t, execBlackboxFrozen d s = .next t ∧
    (SMap.get {} t.firm.bb d).frozen = true ∧ (SMap.get {} t.firm.bb d).entries = (SMap.get {} s.firm.bb d).entries := by
  unfold execBlackboxFrozen
  simp only [h, beq_self_eq_true, ↓reduceIte]
  refine ⟨_, rfl, ?_⟩
  dsimp only [modFirm]
  rw [SMap.get_set_self]
  exact ⟨rfl, rfl⟩

end

end Sys2Proof.Machine

namespace Sys2Proof
open Machine

/-- Settles O42: each command in the cases of its request, with what its completion leaves of the mailbox. -/
theorem mailboxCommandsAnswer : Obligations.MailboxCommandsAnswer := by
  refine ⟨fun s n hrun ha => ⟨?_, ?_, ?_, ?_, ?_, ?_⟩, fun s p hp hrun => ⟨fun hq => ?_, fun hq ht => ?_⟩, fun s d h => ?_⟩
  · rintro rfl
    rw [exec_getcert, execGetcert, svcCmd_runs hrun ha]
  · rintro rfl
    intro r
    rw [exec_attest, execAttest, svcCmd_runs hrun ha]
  · rintro ok rfl hp img
    rw [exec_patch, patch_answers hrun ha hp]
    refine ⟨fun h => ?_, fun h => ?_, fun h => ?_⟩
    · rw [if_neg (by simpa using h)]
    · rw [if_pos (by simpa using h)]
    · rw [patchRefused, h]
      rfl
  · rintro rfl
    intro t m
    rw [exec_commit, execCommit, svcCmd_runs hrun ha]
  · rintro rfl
    refine ⟨fun h => ?_, fun h => ?_, fun h => ?_⟩
    · rw [exec_bbctlFreeze, bbctlFreeze_answers hrun ha, h]
      rfl
    · rw [exec_bbctlUnfreeze]
      exact bbctlUnfreeze_unfreezes hrun ha h
    · rw [exec_bbctlFreeze, bbctlFreeze_answers hrun ha, if_neg (by simp; omega), if_pos (by simp; omega)]
  · rintro oks rfl k h0 h1 h2 h3 x
    rw [exec_fabcfg]
    exact fabcfg_answers hrun ha h0 h1 h2 h3
  · rw [exec_patchApply]
    exact patchApply_applies hp hrun hq
  · rw [exec_patchQuiesceTimeout]
    exact patchQuiesceTimeout_gives_up hp hrun hq ht
  · rw [exec_blackboxFrozen]
    exact blackboxFrozen_freezes h

end Sys2Proof
end

section
set_option Elab.async false
/-! The host interface (R61 to R86). -/

namespace Sys2Proof.Machine

/-! ### A function that the host does not reach (R61) -/

section
variable {f : Nat} {v : W64} {s : State}

theorem registers_unreached (h : fnHere s f = false) : execHvselWrite f v s = .next s ∧ execHstatWrite f v s = .next s ∧
    execQdirbaseWrite f v s = .next s ∧ (∀ off, execRegisterWrite f off v s = .next s) ∧ execFqheadWrite f v s = .next s ∧
    fresume f v s = s := by
  refine ⟨?_, ?_, ?_, fun off => ?_, ?_, ?_⟩
  · simp [execHvselWrite, h]
  · simp [execHstatWrite, h]
  · simp [execQdirbaseWrite, h]
  · simp [execRegisterWrite, registerWrite, h]
  · simp [execFqheadWrite, h]
  · simp [fresume, h]

/-! ### Registers (R63 to R75) -/

@[simp] theorem fnOf_hstatSet (f : Nat) (m : W64) (s : State) : fnOf (hstatSet f m s) f = { fnOf s f with hstat := (fnOf s f).hstat ||| m } :=
  fnOf_modFn ..
/-- The flags of HSTAT say nothing of VFCTL. -/
theorem vfctl_hstatSet (g f : Nat) (m : W64) (s : State) : (fnOf (hstatSet g m s) f).vfctl = (fnOf s f).vfctl := by
  by_cases h : f = g
  · rw [h, fnOf_hstatSet]
  · rw [hstatSet, fnOf_modFn_ne _ _ h]

/-- The value that HVSEL takes of a write: a VF has no PRV field (R65). -/
abbrev hvselArg (f : Nat) (v : W64) : Nat := if f = 0 then v.toNat else v.toNat / 16 * 16
/-- The write selects versions that the device has, while no queue is mapped (R65). -/
abbrev HvselOk (s : State) (f n : Nat) : Prop :=
  n < 65536 ∧ (∀ x ∈ [bitsOf n 15 12, bitsOf n 11 8, bitsOf n 7 4, bitsOf n 3 0], versionOk s x = true) ∧ fnMapped s f = false
theorem execHvselWrite_eq (hf : fnHere s f = true) : execHvselWrite f v s =
    .next (if HvselOk s f (hvselArg f v) then modFn f (fun x => { x with hvsel := BitVec.ofNat 64 (hvselArg f v) }) s
      else hstatSet f 0x40 s) := by
  have harg : (if f == 0 then v.toNat else v.toNat / 16 * 16) = hvselArg f v := by simp [hvselArg]
  unfold execHvselWrite
  rw [harg]
  simp only [hf, Bool.not_true, Bool.false_eq_true, ↓reduceIte]
  congr 1
  refine if_congr ?_ rfl rfl
  simp only [HvselOk, Bool.and_eq_true, decide_eq_true_eq, List.all_eq_true, Bool.not_eq_true', and_assoc]

theorem hvselWrite_selects (hf : fnHere s f = true) (ho : HvselOk s f (hvselArg f v)) :
    ∃ t, execHvselWrite f v s = .next t ∧ (fnOf t f).hvsel.toNat = hvselArg f v := by
  rw [execHvselWrite_eq hf, if_pos ho]
  refine ⟨_, rfl, ?_⟩
  rw [fnOf_modFn]
  obtain ⟨hlt, -, -⟩ := ho
  exact (BitVec.toNat_ofNat ..).trans (Nat.mod_eq_of_lt (by omega))
theorem hvselWrite_refuses (hf : fnHere s f = true) (ho : ¬ HvselOk s f (hvselArg f v)) :
    ∃ t, execHvselWrite f v s = .next t ∧ (fnOf t f).hvsel = (fnOf s f).hvsel ∧ (fnOf t f).hstat.getLsbD 6 = true := by
  rw [execHvselWrite_eq hf, if_neg ho]
  refine ⟨_, rfl, ?_⟩
  rw [fnOf_hstatSet]
  refine ⟨rfl, ?_⟩
  rw [BitVec.getLsbD_or, show (0x40 : W64).getLsbD 6 = true by decide, Bool.or_true]

theorem hstatWrite_clears (hf : fnHere s f = true) :
    ∃ t, execHstatWrite f v s = .next t ∧ (fnOf t f).hstat = (fnOf s f).hstat &&& ~~~(v &&& 0x78) := by
  rw [execHstatWrite, if_pos hf]
  refine ⟨_, rfl, ?_⟩
  rw [fnOf_modFn]

theorem vfctlWrite_writes (h64 : f < 64) (ho : vfctlOk s f (bitsOf v.toNat 51 18 * 2 ^ 18) = true) :
    ∃ t, execVfctlWrite f v s = .next t ∧ (fnOf t f).vfctl.toNat = bitsOf v.toNat 51 18 * 2 ^ 18 := by
  unfold execVfctlWrite
  simp only [show ¬ 64 ≤ f by omega, ho, ↓reduceIte]
  refine ⟨_, rfl, ?_⟩
  rw [fnOf_modFn]
  refine (BitVec.toNat_ofNat ..).trans (Nat.mod_eq_of_lt ?_)
  unfold bitsOf
  omega
theorem vfctlWrite_refuses (h64 : f < 64) (ho : vfctlOk s f (bitsOf v.toNat 51 18 * 2 ^ 18) = false) :
    ∃ t, execVfctlWrite f v s = .next t ∧ (fnOf t 0).hstat.getLsbD 3 = true ∧ (fnOf t f).vfctl = (fnOf s f).vfctl := by
  unfold execVfctlWrite
  simp only [show ¬ 64 ≤ f by omega, ho, Bool.false_eq_true, ↓reduceIte]
  refine ⟨_, rfl, ?_, vfctl_hstatSet ..⟩
  rw [fnOf_hstatSet, BitVec.getLsbD_or, show (0x08 : W64).getLsbD 3 = true by decide, Bool.or_true]

theorem qdirbaseWrite_writes (hf : fnHere s f = true) (hd : ∀ i < dirSize s f, descEn (descOf s f i) = false) :
    ∃ t, execQdirbaseWrite f v s = .next t ∧ (fnOf t f).qdirbase.toNat = v.toNat / 4096 * 4096 + v.toNat % 1024 := by
  have hno : ((List.range (dirSize s f)).any fun i => descEn (descOf s f i)) = false := by
    rw [List.any_eq_false]
    intro i hi
    simp [hd i (List.mem_range.mp hi)]
  unfold execQdirbaseWrite
  simp only [hf, hno, Bool.not_true, Bool.or_self, Bool.false_eq_true, ↓reduceIte]
  refine ⟨_, rfl, ?_⟩
  rw [fnOf_modFn]
  refine (BitVec.toNat_ofNat ..).trans (Nat.mod_eq_of_lt ?_)
  have := v.isLt
  omega

theorem fqbaseWrite (hf : fnHere s f = true) : ∃ t, execRegisterWrite f 0x0100 v s = .next t ∧ (fnOf t f).fqbase = v := by
  unfold execRegisterWrite registerWrite
  simp only [hf, Bool.not_true, Bool.false_eq_true, ↓reduceIte, beq_self_eq_true]
  refine ⟨_, rfl, ?_⟩
  rw [fnOf_modFn]

/-! ### Fault answers (R75) -/

/-- FRESUME with an action of R75 resumes every accessor that waits on the record. -/
theorem fresume_resumes {r : FaultRec} {id act : Nat} (hf : fnHere s f = true) (hid : id < 2 ^ 32) (ha : act < 2)
    (hv : v.toNat = id + act * 2 ^ 62) (hr : faultById s f id = some r) :
    fresume f v s = r.waiters.foldl (resumeOne r (act == 1)) (faultClose f r.id s) := by
  have hact : bitsOf v.toNat 63 62 = act := by
    rw [hv]
    unfold bitsOf
    omega
  have hz : bitsOf v.toNat 61 32 = 0 := by
    rw [hv]
    unfold bitsOf
    omega
  have hrec : faultById s f (v.toNat % 2 ^ 32) = some r := by rwa [hv, show (id + act * 2 ^ 62) % 2 ^ 32 = id by omega]
  unfold fresume
  simp only [hf, hrec, hz, hact, show ¬ 2 ≤ act by omega, Bool.not_true, Bool.false_eq_true, ↓reduceIte, decide_false,
    bne_self_eq_false, Bool.or_self]

/-! ### Interrupts (R77) -/

theorem coalesceTimer_sends {vec : Nat} {e : Nat × Nat} (h1 : bitsOf (SMap.get 1 (fnOf s f).icoal vec).toNat 31 16 ≠ 0)
    (h2 : bitsOf (SMap.get 1 (fnOf s f).icoal vec).toNat 47 32 ≠ 0) (he : (fnOf s f).icoalSince.find? (·.1 == vec) = some e)
    (hd : e.2 + bitsOf (SMap.get 1 (fnOf s f).icoal vec).toNat 31 16 * Config.cyclesPerUs ≤ s.cyc) :
    execCoalesceTimer f vec s = .next (vecSend f vec s) := by
  refine congrArg Host.Outcome.next (if_pos ?_)
  simp only [he, Option.any_some, Bool.and_eq_true, bne_iff_ne, decide_eq_true_eq]
  exact ⟨⟨h1, h2⟩, hd⟩
theorem msixUnmask_sends {vec : Nat} (hp : SMap.get false (fnOf s f).vpend vec = true) (hm : SMap.get false (fnOf s f).vmask vec = false) :
    ∃ t, execMsixUnmask f vec s = .next t ∧ t.host.msix = s.host.msix ++ [(f, vec)] ∧ SMap.get false (fnOf t f).vpend vec = false := by
  unfold execMsixUnmask
  simp only [hp, hm, Bool.not_false, Bool.and_self, ↓reduceIte]
  refine ⟨_, rfl, rfl, ?_⟩
  have hfn : fnOf (modHost (fun h => { h with msix := h.msix ++ [(f, vec)] })
      (setFn s f { fnOf s f with vpend := SMap.set false (fnOf s f).vpend vec false })) f =
      { fnOf s f with vpend := SMap.set false (fnOf s f).vpend vec false } := fnOf_setFn ..
  rw [hfn]
  show SMap.get false (SMap.set false _ vec false) vec = false
  exact SMap.get_set_self ..

end

/-! ### Host accesses and lines (R79 to R82) -/

/-- A correction touches neither bytes nor the host's side. -/
theorem countEcc_frame (s : State) (w : Nat) : (countEcc s w).ms.mem = s.ms.mem ∧ (countEcc s w).host = s.host := by
  unfold countEcc
  dsimp only
  split <;> exact ⟨rfl, rfl⟩
theorem correct_frame (pa n : Nat) (s : State) : (correct pa n s).ms.mem = s.ms.mem ∧ (correct pa n s).host = s.host := by
  unfold correct
  split
  · exact ⟨rfl, rfl⟩
  · exact ⟨foldl_keeps (g := fun s => s.ms.mem) (fun s w => (countEcc_frame s w).1) .., foldl_keeps (g := State.host)
      (fun s w => (countEcc_frame s w).2) ..⟩

section
variable {addr : Nat} {s : State}

/-- The block of a host access (R79). -/
abbrev hostBlock (addr : Nat) (s : State) : Nat := (addr - s.host.hdmBase) / 64 * 64
/-- The state that a host access finds: in device bias the line is recalled first (R82). -/
abbrev hostFinds (addr : Nat) (s : State) : State :=
  if SMap.get false s.host.hostBias (hostBlock addr s / 4096) then s else dropLine (hostBlock addr s) s

theorem hostMemAccess_serves {d : Option (BitVec 512)} (hb : s.host.hdmBase ≤ addr) (hp : hostBlock addr s < hbmSize s)
    (hf : (s.host.flip.any fun x => x.page == hostBlock addr s / 4096) = false) :
    execHostMemAccess addr d s = .next (hostServe (hostBlock addr s) d (hostFinds addr s)) := by
  refine congrArg Host.Outcome.next ((if_neg (by omega)).trans ?_)
  unfold hostAccess
  simp only [show ¬ hbmSize s ≤ hostBlock addr s by omega, hf, Bool.false_eq_true, ↓reduceIte]
theorem hostMemAccess_below {d : Option (BitVec 512)} (h : addr < s.host.hdmBase) : execHostMemAccess addr d s = .next s :=
  congrArg Host.Outcome.next (if_pos h)

theorem hostServe_reads (pa : Nat) (s : State) : (hostServe pa none s).ms.mem = s.ms.mem ∧ (hostServe pa none s).host.out =
    s.host.out ++ [(pa, if poisonAt s pa 64 then none else some (BitVec.ofNat 512 (peek s pa 64)))] := by
  obtain ⟨hmem, hhost⟩ := correct_frame pa 64 s
  refine ⟨hmem, ?_⟩
  show (correct pa 64 s).host.out ++ _ = _
  rw [hhost]

theorem h2dSnoop_misses {d : Option (BitVec 512)} (h : SMap.get none s.ms.l2 (blockOf (hostBase + addr % hostBase / 64 * 64)) = none) :
    execH2dSnoop addr d s = .next (match d with
      | some d => poke (hostBase + addr % hostBase / 64 * 64) 64 d.toNat s
      | none => s) := by
  unfold execH2dSnoop
  cases d <;> simp only [h]

theorem wakeTags_ms (p : Nat → Bool) (s : State) : (wakeTags p s).ms = s.ms := by
  unfold wakeTags
  dsimp only
  split <;> rfl

theorem peek_modMs (f : MemSt → MemSt) (a n : Nat) (s : State) (hf : (f s.ms).mem = s.ms.mem := by rfl) : peek (modMs f s) a n = peek s a n := by
  rw [peek, modMs_ms, hf, ← peek]

/-- Bytes that hold all of a word give the word back. -/
theorem peek_poke_bits (s : State) (a n : Nat) {w : Nat} (d : BitVec w) (hw : 8 * n = w := by rfl) : peek (poke a n d.toNat s) a n = d.toNat := by
  rw [peek_poke, hw, BitVec.toNat_mod_cancel]

/-- The CXL port's requests without those that a line answers (R80). -/
abbrev lineAnswered (pa : Nat) (own : Bool) (s : State) : State :=
  modPrism 50 (fun x => { x with req := x.req.filter fun m => !(m.block == pa && (m.ty == 6 || (own && (m.ty == 7 || m.ty == 8)))) }) s

theorem hostFill_fills {pa : Nat} {d : BitVec 512} {own : Bool} {m : PMsg} (hw : lineWanted s pa own = some m) (hs : spaceOf s pa = .host)
    (hu : suspUncached (lineAnswered pa own s) pa = false) :
    ∃ u, hostFill pa d own s = setAtag pa (if own then 2 else 1) u ∧ peek u pa 64 = d.toNat := by
  have hsp : spaceOf (lineAnswered pa own s) pa = .host := hs
  unfold hostFill
  simp only [hw, Option.isNone_some, Bool.false_eq_true, ↓reduceIte, hsp, hu]
  refine ⟨_, rfl, ?_⟩
  exact (peek_modMs ..).trans (peek_poke_bits _ pa 64 d)
theorem hostFill_passes {pa : Nat} {d : BitVec 512} {own : Bool} {m : PMsg} (hw : lineWanted s pa own = some m) (hs : spaceOf s pa = .host)
    (hu : suspUncached (lineAnswered pa own s) pa = true) :
    (hostFill pa d own s).ms.l2 = s.ms.l2 ∧ (hostFill pa d own s).ms.atag = s.ms.atag := by
  have hsp : spaceOf (lineAnswered pa own s) pa = .host := hs
  unfold hostFill
  simp only [hw, Option.isNone_some, Bool.false_eq_true, ↓reduceIte, hsp, hu, wakeTags_ms]
  exact ⟨rfl, rfl⟩

end

/-! ### Bias flips (R83, R84) -/

@[simp] theorem vecSend_flip (f v : Nat) (s : State) : (vecSend f v s).host.flip = s.host.flip := by
  unfold vecSend
  dsimp only
  split <;> rfl
@[simp] theorem vecEvent_flip (f v : Nat) (s : State) : (vecEvent f v s).host.flip = s.host.flip := by
  unfold vecEvent
  dsimp only
  split
  · rw [vecSend_flip]
    rfl
  · rfl
@[simp] theorem supRecord_flip (r : SupRec) (s : State) : (supRecord r s).host.flip = s.host.flip := by
  unfold supRecord
  rw [vecEvent_flip]
  split
  · rw [modRegs_host, poke_host]
  · rfl

section
variable {s : State}

theorem biasStart_starts {v : W64} (hgo : v.toNat / 2 ^ 63 = 1) (hf : s.host.flip = none)
    (hp : 4096 * (bitsOf s.host.biasAddr.toNat 39 12 + v.toNat % 1024 + 1) ≤ hbmSize s) :
    ∃ u, biasStart v s = pageTags (bitsOf s.host.biasAddr.toNat 39 12) 3 u ∧ u.host.flip =
      some { page := bitsOf s.host.biasAddr.toNat 39 12, left := v.toNat % 1024 + 1, toDevice := bitsOf v.toNat 62 62 == 1, since := s.cyc } := by
  have hbit : bitsOf v.toNat 63 63 = 1 := by
    unfold bitsOf
    omega
  unfold biasStart
  simp only [hbit, hf, Option.isSome_none, show ¬ hbmSize s < 4096 * (bitsOf s.host.biasAddr.toNat 39 12 + v.toNat % 1024 + 1) by omega,
    Nat.reduceBEq, Bool.false_eq_true, ↓reduceIte]
  exact ⟨_, rfl, rfl⟩

variable {x : Flip}

theorem flipPage_asks (hf : s.host.flip = some x) (ha : x.asked = false) (hl : lockCovers s x.page = false) (hd : x.toDevice = true) :
    (flipPage s).host.flip = some { x with asked := true } := by
  unfold flipPage
  simp only [hf, ha, hl, hd, Bool.or_self, Bool.false_eq_true, ↓reduceIte]
  rfl
theorem rdownnodata_goes (hf : s.host.flip = some x) (ha : x.asked = true) :
    execRdownnodataCompletion s = .next (flipNext x (protoTags x.page
      (modHost (fun h => { h with hostBias := SMap.set false h.hostBias x.page false }) s))) := by
  unfold execRdownnodataCompletion
  simp only [hf, ha, ↓reduceIte]
theorem biasFlipWait_notes (hf : s.host.flip = some x) (hn : x.late = false) (hd : x.since + 1000 * Config.cyclesPerUs < s.cyc)
    (hl : lockCovers s x.page = true) : ∃ t, execBiasFlipWaitTimeout s = .next t ∧ t.host.flip = some { x with late := true } := by
  unfold execBiasFlipWaitTimeout
  simp only [hf, hn, hd, hl, Bool.not_false, decide_true, Bool.and_self, ↓reduceIte]
  refine ⟨_, rfl, ?_⟩
  rw [supRecord_flip]
  rfl

end

end Sys2Proof.Machine

namespace Sys2Proof
open Machine

/-- Settles O43: each event in the cases of its guard. -/
theorem hostEventsAct : Obligations.HostEventsAct := by
  refine ⟨fun f v off s h => ?_, ?_, fun sel s => ⟨_, exec_blackboxSelWrite sel s, rfl, rfl⟩, ?_, ?_, ?_,
    fun addr d s h => (exec_hostMemAccess addr d s).trans (hostMemAccess_below h), ?_, ?_, ?_, ?_, ?_⟩
  · obtain ⟨h1, h2, h3, h4, h5, h6⟩ := registers_unreached (v := v) h
    exact ⟨(exec_hvselWrite f v s).trans h1, (exec_hstatWrite f v s).trans h2, (exec_qdirbaseWrite f v s).trans h3,
      (exec_registerWrite f off v s).trans (h4 off), (exec_fqheadWrite f v s).trans h5,
      (exec_fresumeRetry f v s).trans (congrArg _ h6), (exec_fresumeDeliver f v s).trans (congrArg _ h6)⟩
  · intro f v s h64 hf n ok
    rw [exec_hvselWrite, exec_hstatWrite, exec_vfctlWrite, exec_qdirbaseWrite, exec_registerWrite, exec_fqheadWrite]
    refine ⟨hvselWrite_selects hf, hvselWrite_refuses hf, hstatWrite_clears hf, vfctlWrite_writes h64, vfctlWrite_refuses h64,
      qdirbaseWrite_writes hf, fqbaseWrite hf, ?_⟩
    rw [execFqheadWrite, if_pos hf]
  · intro f id r s hf hid hr
    refine ⟨(exec_fresumeRetry ..).trans (congrArg Host.Outcome.next (fresume_resumes (act := 0) hf hid (by decide) ?_ hr)),
      (exec_fresumeDeliver ..).trans (congrArg Host.Outcome.next (fresume_resumes (act := 1) hf hid (by decide) ?_ hr))⟩
    · rw [BitVec.toNat_ofNat]
      omega
    · rw [BitVec.toNat_ofNat]
      omega
  · intro f vec e s ic h1 h2 he hd
    exact (exec_coalesceTimer f vec s).trans (coalesceTimer_sends h1 h2 he hd)
  · intro f vec s hp hm
    rw [exec_msixUnmask]
    exact msixUnmask_sends hp hm
  · intro addr s pa hb hp hf s1
    refine ⟨⟨_, (exec_hostMemAccess addr none s).trans (hostMemAccess_serves hb hp hf), hostServe_reads ..⟩, fun d => ?_⟩
    exact (exec_hostMemAccess addr (some d) s).trans (hostMemAccess_serves hb hp hf)
  · intro addr d s pa h
    exact ⟨(exec_h2dSnoop addr none s).trans (h2dSnoop_misses h), (exec_h2dSnoop addr (some d) s).trans (h2dSnoop_misses h)⟩
  · intro addr d own m s hw hs asked
    refine ⟨fun hu => ?_, fun hu => ?_⟩
    · obtain ⟨u, he, hp⟩ := hostFill_fills (d := d) hw hs hu
      exact ⟨_, u, exec_hostLineFill addr d own s, he, hp⟩
    · exact ⟨_, exec_hostLineFill addr d own s, hostFill_passes hw hs hu⟩
  · intro v s n page hgo hf hp
    obtain ⟨u, he, hu⟩ := biasStart_starts hgo hf hp
    exact ⟨_, u, exec_biasFlipStart v s, he, hu⟩
  · intro x s hf
    refine ⟨fun ha hl hd => ⟨_, exec_biasFlipPage s, flipPage_asks hf ha hl hd⟩, fun ha => (exec_rdownnodataCompletion s).trans
      (rdownnodata_goes hf ha), fun hn hd hl => ?_⟩
    rw [exec_biasFlipWaitTimeout]
    exact biasFlipWait_notes hf hn hd hl

end Sys2Proof
end

section
set_option Elab.async false
/-! Packets at their filter and at their home (R36, R44 to R48, R54). -/

namespace Sys2Proof.Machine

/-! ### Ports (R33, R36) -/

/-- A valid flit has come in at a port. -/
abbrev flitSeen (port : Nat) (s : State) : State := modPort port (fun x => { x with resends := 0, lastValid := s.cyc }) s

section
variable {port ty : Nat} {p : Packet} {go : Hdr → State → State} {s : State}

theorem comesIn_malformed {tys : List Nat} (hp : port < 26) (hu : (portOf s port).up = true) (hm : malformed p = true) :
    comesIn tys port p go s = malformedRecord port p s := by
  unfold comesIn
  simp only [show ¬ 26 ≤ port by omega, hu, hm, decide_false, Bool.not_true, Bool.or_self, Bool.false_eq_true, ↓reduceIte]
theorem comesIn_valid (hp : port < 26) (hu : (portOf s port).up = true) (hm : malformed p = false) (ht : (hdrOf p.hdr).ty = ty) :
    comesIn [ty] port p go s = if (hdrOf p.hdr).ddev == s.dev then go (hdrOf p.hdr) (flitSeen port s) else flitSeen port s := by
  unfold comesIn
  simp only [show ¬ 26 ≤ port by omega, hu, hm, ht, decide_false, Bool.not_true, Bool.or_self, Bool.false_eq_true, ↓reduceIte,
    List.contains_cons, beq_self_eq_true, Bool.true_or]
  rfl

theorem pktIn_malformed (hp : port < 18) (hu : (portOf s port).up = true) (hm : malformed p = true) :
    pktIn ty port p s = malformedRecord port p s := (if_neg (by omega)).trans (comesIn_malformed (by omega) hu hm)
theorem pktIn_here (hp : port < 18) (hu : (portOf s port).up = true) (hm : malformed p = false) (ht : (hdrOf p.hdr).ty = ty)
    (hd : (hdrOf p.hdr).ddev = s.dev) : pktIn ty port p s = sequencedIn port p (hdrOf p.hdr) (flitSeen port s) :=
  (if_neg (by omega)).trans ((comesIn_valid (by omega) hu hm ht).trans (if_pos (by simpa using hd)))
theorem pktIn_elsewhere (hp : port < 18) (hu : (portOf s port).up = true) (hm : malformed p = false) (ht : (hdrOf p.hdr).ty = ty)
    (hd : (hdrOf p.hdr).ddev ≠ s.dev) : pktIn ty port p s = flitSeen port s :=
  (if_neg (by omega)).trans ((comesIn_valid (by omega) hu hm ht).trans (if_neg (by simpa using hd)))
theorem rawIn_here (hp : port < 18) (hu : (portOf s port).up = true) (hm : malformed p = false) (ht : (hdrOf p.hdr).ty = ty)
    (hd : (hdrOf p.hdr).ddev = s.dev) : rawIn ty port p go s = go (hdrOf p.hdr) (flitSeen port s) :=
  (if_neg (by omega)).trans ((comesIn_valid (by omega) hu hm ht).trans (if_pos (by simpa using hd)))

end

/-! ### Duplicates (R44, R45) -/

/-- What goes out touches no filter. -/
theorem wire_filt (port : Nat) (p : Packet) (s : State) : (wire port p s).fab.filt = s.fab.filt := by
  unfold wire; dsimp only; split <;> rfl
theorem sendOut_filt (s : State) (e : OutPkt) : (sendOut s e).fab.filt = s.fab.filt := by
  unfold sendOut; dsimp only; split
  · rfl
  · split
    · exact wire_filt ..
    · rfl
theorem transmit_filt (port : Nat) (p : Packet) (s : State) : (transmit port p s).fab.filt = s.fab.filt := by
  unfold transmit; split
  · rfl
  · exact foldl_keeps (g := fun s => s.fab.filt) sendOut_filt ..
theorem sendRaw_filt (hd : Hdr) (data : List (BitVec 512)) (s : State) : (sendRaw hd data s).fab.filt = s.fab.filt := by
  unfold sendRaw; dsimp only; split
  · rfl
  · exact transmit_filt ..
theorem sendRaw_sends (hd : Hdr) (data : List (BitVec 512)) (s : State) : SendsOnly s (sendRaw hd data s) := by
  unfold sendRaw; dsimp only; split
  · rfl
  · exact transmit_sends ..

/-- Only the fabric differs, and nothing new waits at a filter. -/
def Answers (w : Nat) (s t : State) : Prop := SendsOnly s t ∧ (filtOf t w).waiting = (filtOf s w).waiting

theorem Answers.trans {w : Nat} {s t u : State} (h : Answers w s t) (k : Answers w t u) : Answers w s u :=
  ⟨h.1.trans k.1, k.2.trans h.2⟩
theorem answers_sendRaw (w : Nat) (hd : Hdr) (data : List (BitVec 512)) (s : State) : Answers w s (sendRaw hd data s) :=
  ⟨sendRaw_sends .., by rw [filtOf, sendRaw_filt, ← filtOf]⟩
theorem answers_ackDue (w : Nat) (s : State) : Answers w s (ackDue w s) := by
  unfold ackDue
  dsimp only
  split
  · exact ⟨.refl s, rfl⟩
  · refine ⟨rfl, ?_⟩
    have hf : filtOf (setFilt w { filtOf s w with since := some s.cyc } s) w = { filtOf s w with since := some s.cyc } := SMap.get_set_self ..
    rw [hf]
theorem answers_freeResults (w base : Nat) (s : State) : Answers w s (freeResults w base s) := by
  unfold freeResults
  split
  · exact ⟨.refl s, rfl⟩
  · exact ⟨rfl, rfl⟩

/-- The answer to a duplicate that is no read. -/
theorem answers_duplicate {w : Nat} {h : Hdr} (port : Nat) (p : Packet) (hn : h.ty ≠ 1) (s : State) : Answers w s (duplicate w h port p s) := by
  refine (answers_ackDue w s).trans ?_
  unfold duplicate
  dsimp only
  split
  · split
    · exact answers_sendRaw ..
    · exact answers_sendRaw ..
  · have hrd : (h.ty == tRD) = false := beq_false_of_ne hn
    rw [hrd]
    exact ⟨.refl _, rfl⟩

theorem filterPump_idle {w : Nat} {s : State} (h : (filtOf s w).waiting = []) : filterPump w s = s := by
  rw [filterPump, h]
  rfl

theorem sequencedIn_unknown {port : Nat} {p : Packet} {h : Hdr} {s : State} (hk : (filtOf s (2 * h.sdev + h.lane)).known = false) :
    sequencedIn port p h s = rawNak (2 * h.sdev + h.lane) h.seq 3 s := by
  unfold sequencedIn
  simp only [hk, Bool.not_false, ↓reduceIte]
/-- A number accepted before performs nothing. -/
theorem sequencedIn_again {port : Nat} {p : Packet} {h : Hdr} {s : State} {f : Filter} {d : Nat}
    (hf : filtOf s (2 * h.sdev + h.lane) = f) (hd : (h.seq + 65536 - f.cum) % 65536 = d) (hk : f.known = true) (hn : h.ty ≠ 1)
    (hw : f.waiting = []) (ha : d = 0 ∨ 63488 < d ∨ (d ≤ 2048 ∧ f.accepted.contains h.seq = true)) :
    SendsOnly s (sequencedIn port p h s) := by
  have hold : (decide (1 ≤ d) && decide (d ≤ 2048) && !f.accepted.contains h.seq) = false := by
    rcases ha with h0 | h1 | ⟨-, h2⟩
    · simp [h0]
    · simp [show ¬ d ≤ 2048 by omega]
    · rw [h2, Bool.not_true, Bool.and_false]
  have hdup : (d == 0 || decide (63488 < d) || decide (d ≤ 2048)) = true := by
    rcases ha with h0 | h1 | ⟨h2, -⟩
    · simp [h0]
    · simp [h1]
    · simp [h2]
  obtain ⟨hs, hwait⟩ := (answers_freeResults (2 * h.sdev + h.lane) h.base s).trans (answers_duplicate (h := h) port p hn _)
  unfold sequencedIn
  simp only [hf, hd, hk, hold, hdup, Bool.not_true, Bool.false_eq_true, ↓reduceIte]
  rwa [filterPump_idle (by rw [hwait, hf, hw])]

/-! ### What a write at a home leaves of the physical map (R48, R228) -/

/-- The same physical map and regions. -/
def SameMap (s t : State) : Prop := t.dev = s.dev ∧ t.regs = s.regs ∧ t.host = s.host ∧ bootTable t = bootTable s ∧
  ∀ p, (prismOf t p).regions = (prismOf s p).regions

theorem SameMap.refl (s : State) : SameMap s s := ⟨rfl, rfl, rfl, rfl, fun _ => rfl⟩
theorem SameMap.trans {s t u : State} (h : SameMap s t) (k : SameMap t u) : SameMap s u := by
  obtain ⟨h1, h2, h3, h4, h5⟩ := h
  obtain ⟨k1, k2, k3, k4, k5⟩ := k
  exact ⟨k1.trans h1, k2.trans h2, k3.trans h3, k4.trans h4, fun p => (k5 p).trans (h5 p)⟩
theorem SameMap.foldl {α : Type} {f : State → α → State} (h : ∀ s x, SameMap s (f s x)) (l : List α) (s : State) :
    SameMap s (l.foldl f s) := by
  induction l generalizing s with
  | nil => exact .refl s
  | cons x l ih => exact (h s x).trans (ih _)
theorem SameMap.modMs (f : MemSt → MemSt) (s : State) : SameMap s (modMs f s) := ⟨rfl, rfl, rfl, rfl, fun _ => rfl⟩
theorem SameMap.modCore (k : Nat) (f : CoreSt → CoreSt) (s : State) : SameMap s (modCore k f s) := ⟨rfl, rfl, rfl, rfl, fun _ => rfl⟩
theorem SameMap.modStrip (k : Nat) (f : StripSt → StripSt) (s : State) : SameMap s (modStrip k f s) :=
  ⟨rfl, rfl, rfl, rfl, fun _ => rfl⟩
theorem SameMap.modPrism (k : Nat) {f : PrismSt → PrismSt} (hf : ∀ x, (f x).regions = x.regions) (s : State) :
    SameMap s (modPrism k f s) := by
  refine ⟨rfl, rfl, rfl, rfl, fun p => ?_⟩
  by_cases hp : p = k
  · rw [hp, prismOf_modPrism, hf]
  · rw [prismOf_modPrism_ne _ _ hp]
theorem SameMap.bbWrite (d unit num event : Nat) (data : List W64) (s : State) : SameMap s (bbWrite d unit num event data s) :=
  ⟨rfl, rfl, rfl, rfl, fun _ => rfl⟩

section
variable {s t : State} (h : SameMap s t)
include h

theorem SameMap.spaceOf (pa : Nat) : spaceOf t pa = spaceOf s pa := by
  obtain ⟨-, hr, -, hb, -⟩ := h
  unfold Machine.spaceOf stripValid stripEntry
  rw [hr, hb]
theorem SameMap.localHbm (pa : Nat) : localHbm t pa = localHbm s pa := by
  rw [Machine.localHbm, h.spaceOf, ← Machine.localHbm]
theorem SameMap.protoOf (p pa : Nat) : protoOf t p pa = protoOf s p pa := by
  have hs := h.spaceOf pa
  obtain ⟨hd, hr, hh, hb, hp⟩ := h
  simp only [Machine.protoOf, regionOf, blockPlace, regOk, prvVer, fnOf, hs, hd, hh, hp]

end

theorem sameMap_countEcc (s : State) (w : Nat) : SameMap s (countEcc s w) := by
  unfold countEcc
  dsimp only
  split
  · exact .trans ⟨rfl, rfl, rfl, rfl, fun _ => rfl⟩ (.bbWrite ..)
  · exact ⟨rfl, rfl, rfl, rfl, fun _ => rfl⟩
theorem sameMap_correct (pa n : Nat) (s : State) : SameMap s (correct pa n s) := by
  unfold correct
  split
  · exact .refl s
  · exact .foldl sameMap_countEcc ..
theorem sameMap_poisonWord (pa n x : Nat) (s : State) (w : Nat) : SameMap s (poisonWord pa n x s w) := by
  unfold poisonWord
  split
  · exact .modMs ..
  · split
    · exact sameMap_correct ..
    · split
      · exact .refl s
      · exact ((SameMap.modMs ..).trans (.modPrism _ (fun _ => by rfl) _)).trans (.bbWrite ..)
theorem sameMap_poisonWrite (pa n x : Nat) (s : State) : SameMap s (poisonWrite pa n x s) := by
  unfold poisonWrite
  split
  · exact .refl s
  · exact .foldl (sameMap_poisonWord pa n x) ..
theorem sameMap_dropOwned (unit blk : Nat) (s : State) : SameMap s (dropOwned unit blk s) := by
  unfold dropOwned
  split
  · exact .modCore ..
  · exact .modStrip ..
theorem sameMap_takeOwner (pa : Nat) (unit : Option Nat) (s : State) : SameMap s (takeOwner pa unit s) := by
  unfold takeOwner
  split
  · split
    · exact .refl s
    · exact (SameMap.modMs _ s).trans (sameMap_dropOwned ..)
  · exact .refl s
theorem sameMap_tagWrite (tag : Bool) (pa n : Nat) (s : State) : SameMap s (if tag then setTag pa true s else clearTags pa n s) := by
  split
  · exact .modMs ..
  · exact .foldl (fun _ _ => .modMs ..) ..
/-- A line of the L2 that is written is dirty and registers its owner (R212, R220). -/
def lineMarked (pa : Nat) (owner : Option Nat) (s : State) : State :=
  match owner, SMap.get none s.ms.l2 (blockOf pa) with
  | none, none => s
  | _, l => modMs (fun m => { m with l2 := SMap.insert m.l2 (blockOf pa) (some { l.getD {} with dirty := true, owner := owner }) }) s
/-- What a write does once its bytes and tags stand in memory: poison, the L2 line, the scratchpad's dirty marks. -/
def lineWrite (pa n x : Nat) (owner : Option Nat) (s : State) : State :=
  match spaceOf s pa with
  | .hbm | .host | .remote _ _ => lineMarked pa owner (takeOwner pa owner (poisonWrite pa n x s))
  | .spad k off => modCore k (fun c => { c with
      spDirty := (List.range ((off + n - 1) / 64 - off / 64 + 1)).foldl (fun m j => SMap.set false m (off / 64 + j) true) c.spDirty }) s
  | _ => s
theorem memWrite_eq (pa n x : Nat) (tag : Bool) (owner : Option Nat) (s : State) : memWrite pa n x tag owner s =
    lineWrite pa n x owner (if tag then setTag pa true (poke pa n x s) else clearTags pa n (poke pa n x s)) := rfl
theorem sameMap_lineMarked (pa : Nat) (owner : Option Nat) (s : State) : SameMap s (lineMarked pa owner s) := by
  unfold lineMarked
  split
  · exact .refl s
  · exact .modMs ..
theorem sameMap_lineWrite (pa n x : Nat) (owner : Option Nat) (s : State) : SameMap s (lineWrite pa n x owner s) := by
  have hline : SameMap s (lineMarked pa owner (takeOwner pa owner (poisonWrite pa n x s))) :=
    ((sameMap_poisonWrite ..).trans (sameMap_takeOwner ..)).trans (sameMap_lineMarked ..)
  unfold lineWrite
  split
  · exact hline
  · exact hline
  · exact hline
  · exact .modCore ..
  · exact .refl s
theorem sameMap_memWrite (pa n x : Nat) (tag : Bool) (owner : Option Nat) (s : State) : SameMap s (memWrite pa n x tag owner s) := by
  rw [memWrite_eq]
  exact ((SameMap.modMs _ s).trans (sameMap_tagWrite tag pa n _)).trans (sameMap_lineWrite ..)

/-! ### Packets at their home (R48, R54) -/

section
variable {w seq pa : Nat} {h : Hdr} {s : State}

theorem unsuspend_idle {ty cid : Nat} (hs : s.ms.susp = []) : unsuspend pa ty cid s = s := by
  unfold unsuspend
  rw [hs]
  rfl

theorem pktAccess_goes {off ty : Nat} {bad : State → State} {go : Nat → State → Del} (ho : offsetPa s off = some pa)
    (hr : remapping s pa = false) (hg : homeGate s (pktCid w seq) pa ty = .go) (hs : s.ms.susp = []) :
    pktAccess w seq off ty bad go s = go pa s := by
  unfold pktAccess
  simp only [ho, hr, hg, Bool.false_eq_true, ↓reduceIte, unsuspend_idle hs]
theorem pktAccess_moving {off ty : Nat} {bad : State → State} {go : Nat → State → Del} (ho : offsetPa s off = some pa)
    (hr : remapping s pa = true) : pktAccess w seq off ty bad go s = .taken (refusePkt w seq 2 s) := by
  unfold pktAccess
  simp only [ho, hr, ↓reduceIte]

theorem pktCid_large (w seq : Nat) : 32768 ≤ pktCid w seq := by
  unfold pktCid
  omega
theorem homeWrite_hbm {n x cid : Nat} (hp : spaceOf s pa = .hbm) (hc : 32768 ≤ cid) :
    homeWrite pa n x false none cid s = memWrite pa n x false none s := by
  unfold homeWrite
  simp only [hp]
  unfold notePushed
  simp only [hc, decide_true, Bool.true_or, ↓reduceIte]

theorem homeBytes_hbm {n : Nat} (hp : spaceOf s pa = .hbm) : (homeBytes s pa n).1 = peek s pa n := by
  unfold homeBytes
  simp only [hp]

theorem doWr_writes (ho : offsetPa s (h.off / 64 * 64) = some pa) (hop : h.op = 0) (hr : remapping s pa = false)
    (hg : homeGate s (pktCid w seq) pa 1 = .go) (hp : spaceOf s pa = .hbm) (hs : s.ms.susp = []) (hz : h.pz = false)
    (hu : protoOf s (hbmPrism pa) pa ≠ 1) (d : BitVec 512) :
    doWr w seq h d s = .taken (markPerformed w seq (memWrite pa 64 d.toNat false none s)) := by
  have hupd : (protoOf (memWrite pa 64 d.toNat false none s) (hbmPrism pa) pa == 1) = false := by
    rw [(sameMap_memWrite ..).protoOf]
    exact beq_false_of_ne hu
  unfold doWr
  simp only [hop]
  rw [pktAccess_goes ho hr hg hs, homeWrite_hbm hp (pktCid_large w seq), hz]
  unfold writeDone
  simp only [Bool.false_and, Bool.false_eq_true, ↓reduceIte, hupd, Bool.and_false]

theorem doWr_moving (ho : offsetPa s (h.off / 64 * 64) = some pa) (hr : remapping s pa = true) (d : BitVec 512) :
    doWr w seq { h with op := 0 } d s = .taken (refusePkt w seq 2 s) := by
  unfold doWr
  exact pktAccess_moving ho hr

theorem doRd_reads (ho : offsetPa s (h.off / 64 * 64) = some pa) (hop : h.op = 6) (hr : remapping s pa = false)
    (hg : homeGate s (pktCid w seq) pa 0 = .go) (hp : spaceOf s pa = .hbm) (hs : s.ms.susp = []) (hb : poisonAt s pa 64 = false) :
    doRd w seq h s = .taken (sendRdata w seq (BitVec.ofNat 512 (peek s pa 64)) false (correct pa 64 s)) := by
  unfold doRd
  simp only [hop, beq_self_eq_true, Bool.or_true, Bool.not_true, Bool.false_eq_true, ↓reduceIte]
  rw [pktAccess_goes ho hr hg hs]
  simp only [hb, Bool.and_false, Bool.false_eq_true, ↓reduceIte, homeBytes_hbm hp]
theorem doRd_undefined (h3 : 3 < h.op) (h6 : h.op ≠ 6) (h8 : h.op ≠ 8) (h9 : h.op ≠ 9) :
    doRd w seq h s = .taken (refusePkt w seq 5 s) := by
  have hno : (decide (h.op ≤ 3) || h.op == 6) = false := by simp [h6, h3]
  unfold doRd
  split
  · next h => exact absurd h h8
  · next h => exact absurd h h9
  · simp only [hno, Bool.not_false, ↓reduceIte]

theorem doAmo_reads {a : Rmw} {fl : BitVec 512} (ho : offsetPa s h.off = some pa) (ha : pktRmw h.op fl = some a)
    (hr : remapping s pa = false) (hg : homeGate s (pktCid w seq) pa 2 = .go) (hp : spaceOf s pa = .hbm) (hs : s.ms.susp = [])
    (hb : poisonAt s pa a.w = false) (hf : (s.fab.fau.any fun o => overlaps o.pa o.n pa a.w) = false) :
    doAmo w seq h fl s = .taken (modFab (fun f => { f with fau := f.fau ++
      [{ pa := pa, n := a.w, old := peek s pa a.w, new := rmwNew a (peek s pa a.w), cid := pktCid w seq, from_ := some (w, seq) }] })
      (correct pa a.w s)) := by
  unfold doAmo
  simp only [ha]
  rw [pktAccess_goes ho hr hg hs]
  simp only [hp, hf, hb, Bool.false_eq_true, ↓reduceIte, homeBytes_hbm hp]

theorem fauWrite_answers {o : FauOp} (hf : o.from_ = some (w, seq)) (hg : homeGate s o.cid o.pa 2 = .go) (hs : s.ms.susp = []) :
    fauWrite s o = wakeReleases (sendAres w seq (BitVec.ofNat 64 o.old) false (match o.new with
      | some y => homeWrite o.pa o.n y false none o.cid (modFab (fun f => { f with fau := f.fau.erase o }) s)
      | none => modFab (fun f => { f with fau := f.fau.erase o }) s)) := by
  unfold fauWrite
  rw [unsuspend_idle hs]
  unfold fauAnswer
  cases o.new <;> simp only [hg, hf]

theorem doSig_undefined (hop : 1 < h.op) : doSig w seq h s = .taken (refusePkt w seq 5 s) := if_pos hop
theorem doSig_writes (hop : h.op ≤ 1) (ho : offsetPa s (h.off / 8 * 8) = some pa) (hr : remapping s pa = false)
    (hg : homeGate s (pktCid w seq) pa 2 = .go) (hp : spaceOf s pa = .hbm) (hs : s.ms.susp = []) :
    doSig w seq h s = .taken (markPerformed w seq (memWrite pa 8
      (if h.op = 1 then (peek s pa 8 + 1) % 2 ^ 64 else 1) false none s)) := by
  refine (if_neg (by omega)).trans ?_
  rw [pktAccess_goes ho hr hg hs]
  dsimp only
  rw [homeWrite_hbm hp (pktCid_large w seq)]
  by_cases h1 : h.op = 1
  · simp only [h1, beq_self_eq_true, ↓reduceIte]
  · simp only [h1, beq_false_of_ne h1, Bool.false_eq_true, ↓reduceIte]

end

/-- A sequenced packet of one type, at a port that is up. -/
theorem pktIn_cases (ty port : Nat) (p : Packet) (s : State) (hp : port < 18) (hu : (portOf s port).up = true) :
    (malformed p = true → Host.Outcome.next (pktIn ty port p s) = (.next (malformedRecord port p s) : Host.Outcome State Fault Refusal)) ∧
    (malformed p = false → (hdrOf p.hdr).ty = ty → (hdrOf p.hdr).ddev = s.dev →
      Host.Outcome.next (pktIn ty port p s) = (.next (sequencedIn port p (hdrOf p.hdr) (flitSeen port s)) : Host.Outcome State Fault Refusal)) ∧
    (malformed p = false → (hdrOf p.hdr).ty = ty → (hdrOf p.hdr).ddev ≠ s.dev →
      ∃ t, Host.Outcome.next (pktIn ty port p s) = (.next t : Host.Outcome State Fault Refusal) ∧ t.ms = s.ms ∧ t.ctxs = s.ctxs) :=
  ⟨fun hm => congrArg _ (pktIn_malformed hp hu hm), fun hm ht hd => congrArg _ (pktIn_here hp hu hm ht hd),
    fun hm ht hd => ⟨_, congrArg _ (pktIn_elsewhere hp hu hm ht hd), rfl, rfl⟩⟩

end Sys2Proof.Machine

namespace Sys2Proof
open Machine

/-- Settles O44: the checks of a port, the filter, and each packet at a home that lets it through. -/
theorem packetsMeetTheirFilterAndAct : Obligations.PacketsMeetTheirFilterAndAct := by
  unfold Obligations.PacketsMeetTheirFilterAndAct
  intro seq raw
  refine ⟨fun port p s => pktIn_cases 1 port p s, fun port p s => pktIn_cases 2 port p s, fun port p s => pktIn_cases 3 port p s,
    fun port p s => pktIn_cases 4 port p s, fun port p s => pktIn_cases 5 port p s, fun port p s => pktIn_cases 6 port p s,
    fun port p s => pktIn_cases 7 port p s, fun port p s => pktIn_cases 8 port p s, fun port p s => pktIn_cases 13 port p s,
    fun port p s hp hu hm ht hd => ?_, fun port p s hp hu hm ht hd => ?_, fun port p s hp hu hm ht hd => ?_,
    fun port p s hp hu hm ht hd => ?_, fun port p s hp hu hm ht hd => ?_, fun port p s hp hu hm ht hd => ?_, ?_,
    fun w seq h pa s ho hop hr hg hp hs hz hu d => doWr_writes ho hop hr hg hp hs hz hu d,
    fun w seq h pa s ho hop hr hg hp hs hb => doRd_reads ho hop hr hg hp hs hb,
    fun w seq h pa a fl s ho ha hr hg hp hs hb hf => doAmo_reads ho ha hr hg hp hs hb hf, ?_,
    fun w seq h pa s hop => ⟨doSig_undefined hop, doRd_undefined, fun ho hr d => doWr_moving ho hr d⟩,
    fun w seq h pa s hop ho hr hg hp hs => doSig_writes hop ho hr hg hp hs⟩
  · exact (exec_rdata port p s).trans (congrArg _ (rawIn_here hp hu hm ht hd))
  · exact (exec_ares port p s).trans (congrArg _ (rawIn_here hp hu hm ht hd))
  · refine (exec_ack port p s).trans (congrArg _ ((rawIn_here hp hu hm ht hd).trans ?_))
    simp only [beq_iff_eq]
  · refine (exec_sync port p s).trans (congrArg _ ((rawIn_here hp hu hm ht hd).trans ?_))
    simp only [beq_iff_eq]
  · exact (exec_nak port p s).trans (congrArg _ (rawIn_here hp hu hm ht hd))
  · exact (exec_barb port p s).trans (congrArg _ (rawIn_here hp hu hm ht hd))
  · intro port p h s w f d
    refine ⟨sequencedIn_unknown, fun hk hn hw ha => ?_⟩
    have hsend := sequencedIn_again (port := port) (p := p) (s := s) rfl rfl hk hn hw ha
    exact ⟨hsend.ms, by rw [hsend]⟩
  · intro o w seq s hf hg hs gone
    have hdone := fauWrite_answers hf hg hs
    refine ⟨fun hn => ?_, fun y hn => ?_⟩
    · rw [hdone, hn]
    · rw [hdone, hn]

end Sys2Proof
end

section
set_option Elab.async false
/-! Links, timers, failover and domain barriers (R33, R42, R50 to R60). -/

namespace Sys2Proof.Machine

@[simp] theorem portOf_modPort (p : Nat) (f : Port → Port) (s : State) : portOf (modPort p f s) p = f (portOf s p) := SMap.get_set_self ..
@[simp] theorem winOf_setWin (s : State) (w : Nat) (x : Window) : winOf (setWin s w x) w = x := SMap.get_set_self ..
theorem winOf_setWin_ne (s : State) {w v : Nat} (x : Window) (h : v ≠ w) : winOf (setWin s w x) v = winOf s v := SMap.get_set_ne _ _ _ h

/-! ### Links (R33, R60) -/

section
variable {port : Nat} {s : State}

theorem flitCrcResend_counts (hp : port < 26) (hu : (portOf s port).up = true) :
    ∃ t, execFlitCrcResend port s = .next t ∧ (portOf t port).resends = (portOf s port).resends + 1 := by
  have hgo : (decide (port < 26) && (portOf s port).up) = true := by simp [hp, hu]
  refine ⟨_, congrArg Host.Outcome.next (if_pos hgo), ?_⟩
  rw [portOf_modPort]
theorem idleFlit_sent (hp : port < 26) (hu : (portOf s port).up = true) :
    ∃ t, execIdleFlit port s = .next t ∧ (portOf t port).lastIdle = s.cyc := by
  have hgo : (decide (port < 26) && (portOf s port).up) = true := by simp [hp, hu]
  refine ⟨_, congrArg Host.Outcome.next (if_pos hgo), ?_⟩
  rw [portOf_modPort]
theorem flitIn_grants (hp : port < 26) (hu : (portOf s port).up = true) (a b : Nat) : flitIn port a b s =
    outPump (modPort port (fun x => { x with lastValid := s.cyc, credReq := x.credReq + a, credRep := x.credRep + b }) s) :=
  if_pos (by simp [hp, hu])

variable {o : LinkOffer}

theorem linkTraining_trained (hu : (portOf s port).up = true) (hc : o.commanded = false) : execLinkTraining port o s = .next s :=
  congrArg Host.Outcome.next (if_pos (by simp [hu, hc]))
/-- What both ends offer is taken (R60). -/
theorem linkTraining_trains (hp : port < 26) (hf : (bootTable s).fabric = true) (hu : (portOf s port).up = false ∨ o.commanded = true)
    (hv : o.versions ≠ 0) (hl : 2 ≤ o.lanes) : ∃ t, execLinkTraining port o s = .next t ∧ (portOf t port).up = true ∧
      (portOf t port).lanes = (if 4 ≤ o.lanes then 4 else 2) ∧ (portOf t port).ver11 = o.versions.getLsbD 1 ∧
      (portOf t port).rate224 = (o.versions.getLsbD 1 && o.rate224) := by
  have hgo : (decide (26 ≤ port) || !(bootTable s).fabric || ((portOf s port).up && !o.commanded)) = false := by
    rcases hu with h | h <;> simp [hp, hf, h]
  have hlanes : (if 4 ≤ o.lanes then 4 else if 2 ≤ o.lanes then 2 else 0) = if 4 ≤ o.lanes then 4 else 2 := by
    rw [if_pos hl]
  have hok : (o.versions == 0 || (if 4 ≤ o.lanes then 4 else if 2 ≤ o.lanes then 2 else 0) == 0) = false := by
    rw [hlanes, beq_false_of_ne hv]
    split <;> rfl
  have hport (c : Bool) (f : Port → Port) (data : List W64) :
      portOf (if c then modPort port f s else portRecord port 0x61 data (modPort port f s)) port = f (portOf s port) := by
    cases c
    · exact portOf_modPort ..
    · exact portOf_modPort ..
  unfold execLinkTraining
  simp only [hgo, hok, Bool.false_eq_true, ↓reduceIte]
  refine ⟨_, rfl, ?_⟩
  rw [hport]
  exact ⟨rfl, hlanes, rfl, rfl⟩
theorem linkTraining_stays (hp : port < 26) (hf : (bootTable s).fabric = true) (hu : (portOf s port).up = false)
    (hv : o.versions = 0 ∨ o.lanes < 2) : ∃ t, execLinkTraining port o s = .next t ∧ (portOf t port).up = false := by
  have hgo : (decide (26 ≤ port) || !(bootTable s).fabric || ((portOf s port).up && !o.commanded)) = false := by
    simp [hp, hf, hu]
  have hbad : (o.versions == 0 || (if 4 ≤ o.lanes then 4 else if 2 ≤ o.lanes then 2 else 0) == 0) = true := by
    rcases hv with h | h
    · simp [h]
    · rw [if_neg (by omega), if_neg (by omega)]
      simp
  have hdown : linkDown port s = s := by
    unfold linkDown
    simp only [hu, Bool.not_false, ↓reduceIte]
  unfold execLinkTraining
  simp only [hgo, hbad, hdown, Bool.false_eq_true, ↓reduceIte]
  exact ⟨_, rfl, hu⟩

end

/-! ### Timers (R42, R47, R50 to R53, R57) -/

@[simp] theorem vecSend_fab (f v : Nat) (s : State) : (vecSend f v s).fab = s.fab := by
  unfold vecSend
  dsimp only
  split <;> rfl
@[simp] theorem vecEvent_fab (f v : Nat) (s : State) : (vecEvent f v s).fab = s.fab := by
  unfold vecEvent
  dsimp only
  split
  · rw [vecSend_fab]
    rfl
  · rfl

theorem bbWrite_fab (d unit num event : Nat) (data : List W64) (s : State) : (bbWrite d unit num event data s).fab = s.fab := rfl

section
variable {dest : Nat} {s : State}

theorem ackTimer_eq (src lane : Nat) (hw : (filtOf s (2 * src + lane % 2)).waiting = []) : execAckTimer src lane s =
    .next (if (filtOf s (2 * src + lane % 2)).since.any fun t => t + Config.cyclesPerUs ≤ s.cyc then sendAck (2 * src + lane % 2) s else s) := by
  unfold execAckTimer
  simp only [filterPump_idle hw]

/-- A window whose sequence state is freed (R53). -/
def freedWin (s : State) (w : Nat) : State := setWin s w { allDown := (winOf s w).allDown, lastSent := (winOf s w).lastSent }
/-- The timeout frees both windows of its destination, and may raise a vector. -/
theorem unreachableTimeout_eq {since : Nat} (ha : activeCand (routeOf s dest) = none) (hd : (winOf s (2 * dest)).allDown = some since)
    (ht : since + 100 * Config.cyclesPerUs ≤ s.cyc) : ∃ (x : State) (first : Bool),
      execUnreachableTimeout dest s = .next (if first then vecEvent 0 1 (bbWrite (prismIo (portPrism (seqPort
          (freedWin (freedWin x (2 * dest)) (2 * dest + 1)) dest))) 6 (seqPort (freedWin (freedWin x (2 * dest)) (2 * dest + 1)) dest)
          0x53 [BitVec.ofNat 64 dest] (freedWin (freedWin x (2 * dest)) (2 * dest + 1)))
        else freedWin (freedWin x (2 * dest)) (2 * dest + 1)) := by
  unfold execUnreachableTimeout
  simp only [ha, hd, show ¬ s.cyc < since + 100 * Config.cyclesPerUs by omega, Option.isSome_none, Bool.false_eq_true, ↓reduceIte]
  exact ⟨_, _, rfl⟩
theorem unreachableTimeout_frees {since : Nat} (ha : activeCand (routeOf s dest) = none) (hd : (winOf s (2 * dest)).allDown = some since)
    (ht : since + 100 * Config.cyclesPerUs ≤ s.cyc) : ∃ t, execUnreachableTimeout dest s = .next t ∧
      (winOf t (2 * dest)).held = [] ∧ (winOf t (2 * dest + 1)).held = [] ∧ (winOf t (2 * dest)).synced = false := by
  have hloud {x y : State} (hx : y.fab = x.fab) (w : Nat) : winOf y w = winOf x w := by rw [winOf, hx, ← winOf]
  obtain ⟨x, first, he⟩ := unreachableTimeout_eq ha hd ht
  rw [he]
  have h0 : winOf (freedWin (freedWin x (2 * dest)) (2 * dest + 1)) (2 * dest) =
      { allDown := (winOf x (2 * dest)).allDown, lastSent := (winOf x (2 * dest)).lastSent } :=
    (winOf_setWin_ne _ _ (by omega)).trans (winOf_setWin ..)
  have h1 : (winOf (freedWin (freedWin x (2 * dest)) (2 * dest + 1)) (2 * dest + 1)).held = [] :=
    congrArg Window.held (winOf_setWin ..)
  refine ⟨_, rfl, ?_⟩
  generalize freedWin (freedWin x (2 * dest)) (2 * dest + 1) = y at h0 h1 ⊢
  cases first
  · exact ⟨congrArg Window.held h0, h1, congrArg Window.synced h0⟩
  · simp only [↓reduceIte]
    rw [hloud (vecEvent_fab ..), hloud (vecEvent_fab ..), hloud (bbWrite_fab ..), hloud (bbWrite_fab ..)]
    exact ⟨congrArg Window.held h0, h1, congrArg Window.synced h0⟩

theorem resyncHoldExpiry_lane1 (h0 : (winOf s (2 * dest)).holdUntil = none)
    (h1 : ∃ c, (winOf s (2 * dest + 1)).holdUntil = some c ∧ c ≤ s.cyc) :
    execResyncHoldExpiry dest s = .next (sendSync [2 * dest + 1] s) := by
  obtain ⟨c, hc, hle⟩ := h1
  unfold execResyncHoldExpiry
  simp [h0, hc, hle]
theorem resyncHoldExpiry_both (h : ∀ w ∈ [2 * dest, 2 * dest + 1], ∃ c, (winOf s w).holdUntil = some c ∧ c ≤ s.cyc) :
    execResyncHoldExpiry dest s = .next (sendSync [2 * dest, 2 * dest + 1] s) := by
  obtain ⟨c, hc, hle⟩ := h (2 * dest) (by simp)
  obtain ⟨d, hd, hle'⟩ := h (2 * dest + 1) (by simp)
  unfold execResyncHoldExpiry
  simp [hc, hle, hd, hle']
theorem postResetSync_lane0 (hr : routable s dest = true) (hd : dest < 16384) (ht : s.fab.resetAt + 1000 * Config.cyclesPerUs ≤ s.cyc)
    (hs : (winOf s (2 * dest)).synced = false) (hh : (winOf s (2 * dest)).holdUntil = none) (ha : (winOf s (2 * dest)).allDown = none)
    (h1 : (winOf s (2 * dest + 1)).synced = true) : execPostResetSync dest s = .next (sendSync [2 * dest] s) := by
  unfold execPostResetSync
  simp [hr, hd, ht, hs, hh, ha, h1]

theorem nakRetryResend_goes {i w due : Nat} {h : HeldPkt} (hi : s.fab.nakWait[i]? = some (w, h, due)) (hd : due ≤ s.cyc) :
    execNakRetryResend i s = .next (windowPump (w / 2) w 1 (setWin (modFab (fun f => { f with nakWait := f.nakWait.eraseIdx i }) s) w
      { winOf (modFab (fun f => { f with nakWait := f.nakWait.eraseIdx i }) s) w with
        queued := (winOf (modFab (fun f => { f with nakWait := f.nakWait.eraseIdx i }) s) w).queued ++ [h] })) := by
  unfold execNakRetryResend
  simp only [hi, show ¬ s.cyc < due by omega, ↓reduceIte]

end

/-! ### Domain barriers (R56) -/

/-- The hardware's fields of an entry are written, its other fields kept. -/
theorem domWith_fields (e : W64) {st ep n : Nat} (hs : st < 4) (he : ep < 256) (hn : n < 65536) :
    domState (domWith e st ep n) = st ∧ domEpoch (domWith e st ep n) = ep ∧ domCount (domWith e st ep n) = n ∧
      domBid (domWith e st ep n) = domBid e ∧ domExpect (domWith e st ep n) = domExpect e ∧
      (domWith e st ep n).getLsbD 63 = e.getLsbD 63 := by
  have hv : bitsOf e.toNat 63 63 < 2 := Nat.mod_lt _ (by decide)
  have hb : domBid e < 4096 := Nat.mod_lt _ (by decide)
  have hx : domExpect e < 65536 := Nat.mod_lt _ (by decide)
  have htop (x : W64) : x.getLsbD 63 = decide (bitsOf x.toNat 63 63 = 1) := by
    have hx := x.isLt
    rw [BitVec.getLsbD, Nat.testBit_eq_decide_div_mod_eq]
    rfl
  have hw : (domWith e st ep n).toNat = bitsOf e.toNat 63 63 * 2 ^ 63 + st * 2 ^ 61 + domBid e * 2 ^ 49 + ep * 2 ^ 41 +
      domExpect e * 2 ^ 25 + n * 2 ^ 9 := by
    rw [domWith, BitVec.toNat_ofNat, Nat.mod_eq_of_lt he, Nat.mod_eq_of_lt hn]
    exact Nat.mod_eq_of_lt (by omega)
  have hv' : bitsOf (domWith e st ep n).toNat 63 63 = bitsOf e.toNat 63 63 := by
    rw [hw]
    generalize bitsOf e.toNat 63 63 = v at hv
    unfold bitsOf
    omega
  refine ⟨?_, ?_, ?_, ?_, ?_, by rw [htop, htop, hv']⟩
  all_goals
    simp only [domState, domEpoch, domCount, domBid, domExpect] at hw hb hx ⊢
    rw [hw]
    generalize bitsOf e.toNat 63 63 = v at hv
    generalize bitsOf e.toNat 60 49 = b at hb
    generalize bitsOf e.toNat 40 25 = x at hx
    unfold bitsOf
    omega

end Sys2Proof.Machine

namespace Sys2Proof
open Machine

/-- Settles O45: each event in the cases of its guard, the entries of domain barriers field by field. -/
theorem linksAndTimersAct : Obligations.LinksAndTimersAct := by
  refine ⟨fun port s hp hu => ⟨flitCrcResend_counts hp hu, idleFlit_sent hp hu, flitIn_grants hp hu,
      fun hr => congrArg Host.Outcome.next (if_pos hr), exec_blockLockLoss port s, fun ht => congrArg Host.Outcome.next (if_pos ht)⟩,
    fun port o s hp hf => ⟨linkTraining_trained, linkTraining_trains hp hf, fun hv hu => linkTraining_stays hp hf hu hv⟩,
    ?_, ?_, fun dest c s ha => ?_, fun dest since s ha hd ht => unreachableTimeout_frees ha hd ht,
    fun dest s h0 h1 => resyncHoldExpiry_lane1 h0 h1, fun dest s h => resyncHoldExpiry_both h,
    fun i w h due s hi hd => nakRetryResend_goes hi hd, fun dest cand s hc hp hd => ?_, ?_,
    fun dest s hr hd ht hs hh ha h1 => postResetSync_lane0 hr hd ht hs hh ha h1, fun port fr s h18 h26 hu => ?_⟩
  · intro src lane s w hw
    rw [exec_ackTimer, ackTimer_eq src lane hw]
    refine ⟨?_, fun hn => congrArg Host.Outcome.next (if_neg ?_)⟩
    · rintro ⟨c, hc, hle⟩
      refine congrArg Host.Outcome.next (if_pos ?_)
      rw [hc]
      simpa using hle
    · rw [hn]
      exact Bool.false_ne_true
  · intro dest lane c s x hx hc hle
    refine congrArg Host.Outcome.next (if_pos ?_)
    have hne : x.held.isEmpty = false := by simpa using hx
    show (!x.held.isEmpty && x.timer.any _) = true
    rw [hne, hc]
    simpa using hle
  · exact congrArg Host.Outcome.next (if_pos (by rw [ha]; rfl))
  · exact congrArg Host.Outcome.next (if_pos (by simp [hc, hp, hd]))
  · intro i s hi e hv
    have hopen {k : Nat} (hst : domState e = k) : (decide (i < 64) && e.getLsbD 63 && domState e == k) = true := by
      simp [hi, hv, hst]
    refine ⟨fun hst hx => congrArg Host.Outcome.next (if_pos ?_), fun hst => congrArg Host.Outcome.next (if_pos (hopen hst)),
      fun c hst hf hle => congrArg Host.Outcome.next (if_pos ?_), fun st ep n hs he hn => domWith_fields e hs he hn⟩
    · rw [Bool.and_eq_true]
      exact ⟨hopen hst, by simpa using hx⟩
    · rw [Bool.and_eq_true, hf]
      exact ⟨hopen hst, by simpa using hle⟩
  · have hup : (decide (port < 18) || decide (26 ≤ port) || !(portOf s port).up) = false := by simp [hu]; omega
    rw [exec_scaleOutFrame]
    unfold execScaleOutFrame
    simp only [hup, Bool.false_eq_true, ↓reduceIte]
    refine ⟨fun hok => by rw [if_pos hok], fun hok => ⟨_, congrArg Host.Outcome.next (if_neg (by simp [hok])), rfl, rfl, rfl⟩⟩

end Sys2Proof
end

section
set_option Elab.async false
/-! The packet stream: which packet a turn of a queue takes, and what stops it (R113 to R126). -/
namespace Sys2Proof.Machine

/-! ### Checks that can stop -/

theorem FX.bind_ok {ε α β : Type} {x : EStateM ε State α} {f : α → EStateM ε State β} {s t : State} {a : α} (h : x s = .ok a t) :
    (x >>= f) s = f a t := by
  show EStateM.bind x f s = _
  rw [EStateM.bind, h]
theorem FX.bind_error {ε α β : Type} {x : EStateM ε State α} {f : α → EStateM ε State β} {s t : State} {e : ε} (h : x s = .error e t) :
    (x >>= f) s = .error e t := by
  show EStateM.bind x f s = _
  rw [EStateM.bind, h]

section
variable {q : Queue} {l : Level} {x : Nat} {put : Nat → State → State} {s t : State} {slot : Nat}

theorem feRun_ok {who : Nat} {a : FX (State → State)} {f : State → State} (h : a s = .ok f t) : feRun who q a s = f (feOver who q t) := by
  rw [feRun, h]
theorem feRun_error {who : Nat} {a : FX (State → State)} {e : FeStop} (h : a s = .error e t) : feRun who q a s = feStopped who q e t := by
  rw [feRun, h]

/-! ### The next packet of a queue -/

/-- What becomes of a packet that was taken: it is skipped, gives its signals, or acts. -/
def takePacket (q : Queue) (l : Level) (x : Nat) (put : Nat → State → State) : FX (State → State) :=
  if l.skip != 0 then pure (pastPacketWith q put (l.pos + 32 * pkSize x) fun l => { l with skip := l.skip - 1 })
  else if l.guardN != 0 then do
    let f ← abortDependant q x
    pure fun s => f (pastPacketWith q put (l.pos + 32 * pkSize x) (fun l => { l with guardN := l.guardN - 1 }) s)
  else do
    let r ← actPacket q l x
    pure fun s => r.2 (pastPacket q put r.1 s)

theorem issueX_takes {rest : List Level} {want : Option Nat} {t0 : State} (hl : q.levels = l :: rest) (hf : fetchPkt q l.pos s = .ok x t0)
    (hw : want.elim (pkB x) (fun t => pkTy x == t) = true) (hp : (if rest.isEmpty then rptrWrite q else pure fun _ s => s) t0 = .ok put t) :
    issueX q want s = takePacket q l x put t := by
  unfold issueX
  rw [hl]
  refine (FX.bind_ok hf).trans ?_
  have htail : pastPacketWith q put = fun next g s =>
      if rest.isEmpty && q.rptr < next then
        put next (modQ (isQ q.fn q.qidx) (fun q => { q with rptr := next, retired := (q.retired + 1) % 2 ^ 32 })
          (modLevel q.fn q.qidx (fun l => g (stepLevel next l)) s))
      else modLevel q.fn q.qidx (fun l => g (stepLevel next l)) s := by
    rw [show rest = q.levels.tail by rw [hl]; rfl]
    rfl
  simp only [hw, Bool.not_true, Bool.false_eq_true, ↓reduceIte, takePacket, pastPacket, htail]
  cases rest with
  | nil =>
    exact FX.bind_ok hp
  | cons l' rest' =>
    exact FX.bind_ok hp
theorem issueX_stops {rest : List Level} {want : Option Nat} {e : FeStop} (hl : q.levels = l :: rest) (hf : fetchPkt q l.pos s = .error e t) :
    issueX q want s = .error e t := by
  unfold issueX
  rw [hl]
  exact FX.bind_error hf

theorem issue_runs {q0 : Queue} (hs : slotQ s slot = some q0) (hm : mayIssue forPackets q0 = true) (hw : q0.wait = none) (want : Option Nat) :
    issue slot want s = feRun forPackets { q0 with levels := popLevels q0.levels }
      (issueX { q0 with levels := popLevels q0.levels } want) (setSlotQ slot (some { q0 with levels := popLevels q0.levels }) s) := by
  unfold issue
  simp only [hs, hm, hw, Bool.not_true, Option.isSome_none, Bool.or_false, Bool.false_eq_true, ↓reduceIte]
theorem issue_takes (h : NextPacket s slot q l x put t) {want : Option Nat} (hw : want.elim (pkB x) (fun t => pkTy x == t) = true) :
    issue slot want s = feRun forPackets q (takePacket q l x put) t := by
  obtain ⟨q0, rest, t0, hs, hm, hn, rfl, hl, hf, hp⟩ := h
  rw [issue_runs hs hm hn, feRun, issueX_takes hl hf hw hp]
  rfl
/-- A packet that acts does so, and the level stands past it. -/
theorem issue_acts (h : NextPacket s slot q l x put t) {want : Option Nat} (hw : want.elim (pkB x) (fun t => pkTy x == t) = true)
    (ha : PacketActs q l x) {next : Nat} {f : State → State} {u : State} (hp : actPacket q l x t = .ok (next, f) u) :
    issue slot want s = f (pastPacket q put next (feOver forPackets q u)) := by
  obtain ⟨hskip, hguard, -, -⟩ := ha
  rw [issue_takes h hw]
  refine feRun_ok (f := fun s => f (pastPacket q put next s)) ?_
  unfold takePacket
  simp only [hskip, hguard, bne_self_eq_false, Bool.false_eq_true, ↓reduceIte]
  exact FX.bind_ok hp
theorem issue_skips (h : NextPacket s slot q l x put t) {want : Option Nat} (hw : want.elim (pkB x) (fun t => pkTy x == t) = true)
    (hs : l.skip ≠ 0) : issue slot want s =
      pastPacketWith q put (l.pos + 32 * pkSize x) (fun l => { l with skip := l.skip - 1 }) (feOver forPackets q t) := by
  rw [issue_takes h hw]
  exact feRun_ok (congrFun (if_pos (by simpa using hs)) t)
theorem issue_aborts (h : NextPacket s slot q l x put t) {want : Option Nat} (hw : want.elim (pkB x) (fun t => pkTy x == t) = true)
    (hs : l.skip = 0) (hg : l.guardN ≠ 0) {f : State → State} {u : State} (hf : abortDependant q x t = .ok f u) : issue slot want s =
      f (pastPacketWith q put (l.pos + 32 * pkSize x) (fun l => { l with guardN := l.guardN - 1 }) (feOver forPackets q u)) := by
  have hgn : (l.guardN != 0) = true := by simpa using hg
  rw [issue_takes h hw]
  refine feRun_ok
    (f := fun s => f (pastPacketWith q put (l.pos + 32 * pkSize x) (fun l => { l with guardN := l.guardN - 1 }) s)) ?_
  unfold takePacket
  simp only [hs, hgn, bne_self_eq_false, Bool.false_eq_true, ↓reduceIte]
  exact FX.bind_ok hf
/-- A packet with B set waits for every packet before it (R115). -/
theorem issue_barrier_waits (h : NextPacket s slot q l x put t) (hb : pkB x = true) (hs : l.skip = 0) (hg : l.guardN = 0)
    (hq : q.issued ≠ []) : issue slot none s = feOver forPackets q t := by
  have hne : q.issued.isEmpty = false := by simpa using hq
  rw [issue_takes (want := none) h hb]
  refine (feRun_error (e := .room) (t := t) ?_).trans rfl
  unfold takePacket
  simp only [hs, hg, bne_self_eq_false, Bool.false_eq_true, ↓reduceIte]
  refine FX.bind_error ?_
  unfold actPacket
  simp only [hb, hne, Bool.true_or, Bool.not_false, Bool.true_and, ↓reduceIte]
  rfl
theorem issue_idle (h : (slotQ s slot).all (fun q => !mayIssue forPackets q || q.wait.isSome) = true) (want : Option Nat) :
    issue slot want s = s := by
  unfold issue
  split
  · rfl
  next q0 hq =>
    rw [hq] at h
    exact if_pos h
theorem issue_stops {q0 : Queue} {rest : List Level} {e : FeStop} (hs : slotQ s slot = some q0) (hm : mayIssue forPackets q0 = true)
    (hw : q0.wait = none) (hq : q = { q0 with levels := popLevels q0.levels }) (hl : q.levels = l :: rest)
    (hf : fetchPkt q l.pos (setSlotQ slot (some q) s) = .error e t) (want : Option Nat) :
    issue slot want s = feStopped forPackets q e t := by
  subst hq
  rw [issue_runs hs hm hw]
  exact feRun_error (issueX_stops hl hf)

/-- A packet of 32 bytes is checked, its version first (R114). -/
theorem fetchPkt_checks {off : Nat} (hc : fetchChunk q off s = .ok x s) (h1 : pkTy x ≠ 1 ∨ pkSize x ≠ 3) :
    fetchPkt q off s = (if pkVer x ≠ pktVer s q.fn then .error (.err 2) s
      else if pktOk q.fn false x = false then .error (.err 1) s else .ok x s) := by
  have hshort : (pkTy x == 1 && pkSize x == 3) = false := by
    rcases h1 with h | h <;> simp [h]
  unfold fetchPkt
  refine (FX.bind_ok hc).trans ?_
  simp only [hshort, Bool.false_eq_true, ↓reduceIte]
  by_cases hv : pkVer x = pktVer s q.fn
  · rw [if_neg (not_not_intro hv)]
    cases ho : pktOk q.fn false x
    · refine (FX.bind_ok (EStateM.run_pure x s)).trans (FX.bind_error ?_)
      unfold pktCheck
      refine (FX.bind_ok rfl).trans ?_
      simp only [hv, ho, bne_self_eq_false, Bool.not_false, Bool.false_eq_true, ↓reduceIte]
      rfl
    · refine (FX.bind_ok (EStateM.run_pure x s)).trans ((FX.bind_ok (a := ()) (t := s) ?_).trans rfl)
      unfold pktCheck
      refine (FX.bind_ok rfl).trans ?_
      simp only [hv, ho, bne_self_eq_false, Bool.not_true, Bool.false_eq_true, ↓reduceIte]
      rfl
  · rw [if_pos hv]
    have hne : (pkVer x != pktVer s q.fn) = true := by simpa using hv
    refine (FX.bind_ok (EStateM.run_pure x s)).trans (FX.bind_error ?_)
    unfold pktCheck
    refine (FX.bind_ok rfl).trans ?_
    simp only [hne, ↓reduceIte]
    rfl

end

/-! ### The steps that issue a packet -/

theorem exec_packetStep {mk : Nat → Instr} {ty : Nat} (h : (mk, ty) ∈ [(Instr.actmsg, 1), (Instr.sweep, 2), (Instr.signal, 3),
    (Instr.wait, 4), (Instr.write, 5), (Instr.pred, 6), (Instr.ind, 7), (Instr.loopPacket, 8), (Instr.ffence, 9), (Instr.intr, 10),
    (Instr.graph, 11)]) (slot : Nat) (s : State) : exec (mk slot) s = .next (issue slot (some ty) s) := by
  simp only [List.mem_cons, Prod.mk.injEq, List.not_mem_nil, or_false] at h
  rcases h with ⟨rfl, rfl⟩ | ⟨rfl, rfl⟩ | ⟨rfl, rfl⟩ | ⟨rfl, rfl⟩ | ⟨rfl, rfl⟩ | ⟨rfl, rfl⟩ | ⟨rfl, rfl⟩ | ⟨rfl, rfl⟩ | ⟨rfl, rfl⟩ |
    ⟨rfl, rfl⟩ | ⟨rfl, rfl⟩
  · exact exec_actmsg ..
  · exact exec_sweep ..
  · exact exec_signal ..
  · exact exec_wait ..
  · exact exec_write ..
  · exact exec_pred ..
  · exact exec_ind ..
  · exact exec_loopPacket ..
  · exact exec_ffence ..
  · exact exec_intr ..
  · exact exec_graph ..
theorem exec_issues {mk : Nat → Instr} (h : mk ∈ [Instr.actmsg, Instr.sweep, Instr.signal, Instr.wait, Instr.write, Instr.pred, Instr.ind,
    Instr.loopPacket, Instr.ffence, Instr.intr, Instr.graph, Instr.packetBarrierIssue]) (slot : Nat) (s : State) :
    ∃ want, exec (mk slot) s = .next (issue slot want s) := by
  simp only [List.mem_cons, List.not_mem_nil, or_false] at h
  rcases h with rfl | rfl | rfl | rfl | rfl | rfl | rfl | rfl | rfl | rfl | rfl | rfl
  · exact ⟨_, exec_actmsg ..⟩
  · exact ⟨_, exec_sweep ..⟩
  · exact ⟨_, exec_signal ..⟩
  · exact ⟨_, exec_wait ..⟩
  · exact ⟨_, exec_write ..⟩
  · exact ⟨_, exec_pred ..⟩
  · exact ⟨_, exec_ind ..⟩
  · exact ⟨_, exec_loopPacket ..⟩
  · exact ⟨_, exec_ffence ..⟩
  · exact ⟨_, exec_intr ..⟩
  · exact ⟨_, exec_graph ..⟩
  · exact ⟨_, exec_packetBarrierIssue ..⟩

end Sys2Proof.Machine

namespace Sys2Proof
open Machine

/-- Settles O46: the packet that a turn takes is skipped, aborted or acts; a failed read or check stops the queue. -/
theorem packetsIssueInOrder : Obligations.PacketsIssueInOrder := by
  refine ⟨fun s slot q l x put t h => ⟨fun mk hmk => ?_, fun next f u hb ha hp => ?_, fun hb hs hg hq => ?_⟩,
    fun s slot h mk hmk => ?_, fun s slot q0 hs hm hw q hq l rest st t hl hf => ?_,
    fun q off x s hc h1 => fetchPkt_checks hc h1⟩
  · rw [exec_packetStep hmk]
    have hty : (some (pkTy x)).elim (pkB x) (fun t => pkTy x == t) = true := beq_self_eq_true _
    exact ⟨fun hs => congrArg Host.Outcome.next (issue_skips h hty hs),
      fun f u hs hg hf => congrArg Host.Outcome.next (issue_aborts h hty hs hg hf),
      fun next f u ha hp => congrArg Host.Outcome.next (issue_acts h hty ha hp)⟩
  · exact (exec_packetBarrierIssue ..).trans (congrArg Host.Outcome.next (issue_acts (want := none) h hb ha hp))
  · exact (exec_packetBarrierIssue ..).trans (congrArg Host.Outcome.next (issue_barrier_waits h hb hs hg hq))
  · obtain ⟨want, hx⟩ := exec_issues hmk slot s
    rw [hx, issue_idle h]
  · exact ⟨(exec_packetBarrierIssue ..).trans (congrArg Host.Outcome.next (issue_stops hs hm hw hq hl hf none)),
      (exec_ffence ..).trans (congrArg Host.Outcome.next (issue_stops hs hm hw hq hl hf (some 9)))⟩

end Sys2Proof
end

section
set_option Elab.async false
/-! The effects of the packets (R117 to R127). -/
namespace Sys2Proof.Machine

section
variable {q : Queue} {l : Level} {x : Nat} {put : Nat → State → State} {s t u : State} {slot : Nat}

theorem pkW_lt (x k : Nat) : pkW x k < 2 ^ 64 := Nat.mod_lt _ (Nat.two_pow_pos 64)
theorem toNat_pkW (x k : Nat) : (BitVec.ofNat 64 (pkW x k)).toNat = pkW x k :=
  (BitVec.toNat_ofNat ..).trans (Nat.mod_eq_of_lt (pkW_lt x k))

/-! ### The rule of a packet that acts -/

/-- The rule of each type. -/
def packetRule (ty : Nat) (q : Queue) (l : Level) (x : Nat) : FX (Nat × (State → State)) :=
  match ty with
  | 0x01 => do pure (l.pos + 32 * pkSize x, ← actActmsg q x none)
  | 0x02 => do pure (l.pos + 32 * pkSize x, ← actSweep q x none)
  | 0x03 => do pure (l.pos + 32 * pkSize x, ← actStore 3 q x none)
  | 0x04 => do pure (l.pos + 32 * pkSize x, ← actWait q x none)
  | 0x05 => do pure (l.pos + 32 * pkSize x, ← actStore 5 q x none)
  | 0x06 => do pure (l.pos + 32 * pkSize x, ← actPred q x)
  | 0x07 => do pure (l.pos + 32 * pkSize x, ← actInd q x)
  | 0x08 => actLoop q l x
  | 0x09 => pure (l.pos + 32 * pkSize x, actFfence q)
  | 0x0A => pure (l.pos + 32 * pkSize x, actIntr q x none)
  | _ => do pure (l.pos + 32 * pkSize x, ← actGraph q x)

theorem actPacket_rule (ha : PacketActs q l x) : actPacket q l x t = packetRule (pkTy x) q l x t := by
  obtain ⟨-, -, hb, hn⟩ := ha
  have hfree : ((pkB x || pkTy x == 3 || pkTy x == 9) && !q.issued.isEmpty) = false := by
    by_cases h : pkB x = true ∨ pkTy x = 3 ∨ pkTy x = 9
    · simp [hb h]
    · simp only [not_or] at h
      simp [h]
  unfold actPacket packetRule
  simp only [hfree, show ¬ 64 ≤ openPackets q by omega, Bool.false_eq_true, ↓reduceIte] <;> rfl

/-- A packet that acts leaves what its rule's effect makes of the queue past the packet. -/
theorem issue_rule {ty : Nat} {r : Nat × (State → State)} (h : NextPacket s slot q l x put t) (ha : PacketActs q l x) (hty : pkTy x = ty)
    (hr : packetRule ty q l x t = .ok r u) : issue slot (some ty) s = r.2 (pastPacket q put r.1 (feOver forPackets q u)) :=
  issue_acts h (by simp [hty]) ha ((actPacket_rule ha).trans (by rw [hty, hr]))
theorem issue_effect {ty : Nat} {act : FX (State → State)} {f : State → State} (h : NextPacket s slot q l x put t) (ha : PacketActs q l x)
    (hty : pkTy x = ty) (hr : packetRule ty q l x = (do pure (l.pos + 32 * pkSize x, ← act))) (hf : act t = .ok f u) :
    issue slot (some ty) s = f (pastPacket q put (l.pos + 32 * pkSize x) (feOver forPackets q u)) :=
  issue_rule h ha hty (r := (_, f)) (by rw [hr]; exact FX.bind_ok hf)

/-! ### Reads and writes of the front end -/

theorem feGo_ok {asid va n align pa : Nat} {attr : W64} {write : Bool} (hv : va % align = 0)
    (h : feAccess s asid va n write = (.ok pa attr, u)) : feGo asid va n align write s = .ok (pa, attr) u := by
  unfold feGo
  simp only [hv, bne_self_eq_false, Bool.false_eq_true, ↓reduceIte]
  refine (FX.bind_ok rfl).trans ?_
  rw [h]
  rfl
theorem feLoad_ok {asid va n pa : Nat} {attr : W64} (hv : va % n = 0) (h : feAccess s asid va n false = (.ok pa attr, u)) :
    feLoad asid va n s = .ok (homeBytes u pa n).1 u := by
  unfold feLoad
  exact FX.bind_ok (feGo_ok hv h)

/-! ### The packets -/

theorem actInd_ok (h : q.levels.length < 3) : actInd q x t = .ok (modQ (isQ q.fn q.qidx) fun q => { q with
    levels := { base := pkW x 1, len := pkW x 2, loc := pkOp x == 1, pos := 0 } :: q.levels }) t := by
  unfold actInd
  simp only [show ¬ 3 ≤ q.levels.length by omega, ↓reduceIte]
  rfl

/-- A LOOP whose body holds no other: the next round, or past it. -/
theorem actLoop_ok (hb : pkW x 1 % 2 ^ 32 ≤ l.pos) (hh : holdsLoop q l.pos 64 (l.pos - pkW x 1 % 2 ^ 32) t = .ok false u) :
    actLoop q l x t = .ok (if l.loops + 1 < pkW x 1 / 2 ^ 32 then (l.pos - pkW x 1 % 2 ^ 32, modLevel q.fn q.qidx fun k => { k with loops := l.loops + 1 })
      else (l.pos + 32, modLevel q.fn q.qidx fun k => { k with loops := 0 })) u := by
  unfold actLoop
  simp only [show ¬ l.pos < pkW x 1 % 2 ^ 32 by omega, ↓reduceIte]
  refine (FX.bind_ok hh).trans ?_
  simp only [Bool.false_eq_true, ↓reduceIte]
  split <;> rfl

section
variable {pa : Nat} {attr : W64}

theorem actStore_value (ty : Nat) (hv : pkW x 1 % 8 = 0) (h : feAccess t q.asid (pkW x 1) 8 true = (.ok pa attr, u))
    (hd : feDirect u attr pa = none) (hop : pkOp x = 0) : actStore ty q x none t = .ok (feStore attr pa 8 (pkW x 2)) u := by
  unfold actStore
  refine (FX.bind_ok (feGo_ok hv h)).trans ((FX.bind_ok rfl).trans ?_)
  simp only [hd, hop]
  rfl
theorem actStore_sum (ty : Nat) (hv : pkW x 1 % 8 = 0) (h : feAccess t q.asid (pkW x 1) 8 true = (.ok pa attr, u))
    (hd : feDirect u attr pa = none) (hop : pkOp x = 1) (hp : (poisonable u pa && poisonAt u pa 8) = false) :
    actStore ty q x none t = .ok (fun s => feStore attr pa 8 (((homeBytes u pa 8).1 + pkW x 2) % 2 ^ 64) (correct pa 8 s)) u := by
  unfold actStore
  refine (FX.bind_ok (feGo_ok hv h)).trans ((FX.bind_ok rfl).trans ?_)
  simp only [hd, hop, hp, beq_self_eq_true, Bool.true_and, Bool.false_eq_true, ↓reduceIte]
  rfl
theorem actStore_direct (ty : Nat) {d off : Nat} (hv : pkW x 1 % 8 = 0) (h : feAccess t q.asid (pkW x 1) 8 true = (.ok pa attr, u))
    (hd : feDirect u attr pa = some (d, off)) : actStore ty q x none t = .ok (issueAs q { serial := 0, ty := ty } fun n s =>
      if pkOp x = 1 then
        sendSeq { ty := tAMO, ddev := d, o := true, off := off, scope := 5 } [BitVec.ofNat 512 (pkW x 2)] (some (feCid, n)) true s
      else feStoreAs n attr pa 8 (pkW x 2) s) u := by
  unfold actStore
  refine (FX.bind_ok (feGo_ok hv h)).trans ((FX.bind_ok rfl).trans ?_)
  simp only [hd, beq_iff_eq]
  rfl

theorem actWait_over (hv : pkW x 1 % 8 = 0) (h : feAccess t q.asid (pkW x 1) 8 false = (.ok pa attr, u))
    (hc : cmpHolds (pkCmp x) (homeBytes u pa 8).1 (pkW x 2) (pkW x 3) = true) : actWait q x none t =
      .ok (modLevel q.fn q.qidx fun k => { k with guardN := guardOf (pkCmp x) (homeBytes u pa 8).1 (pkNum x) }) u := by
  unfold actWait
  refine (FX.bind_ok (feLoad_ok hv h)).trans ?_
  simp only [toNat_pkW, hc, ↓reduceIte]
  rfl
theorem actWait_open (hv : pkW x 1 % 8 = 0) (h : feAccess t q.asid (pkW x 1) 8 false = (.ok pa attr, u))
    (hc : cmpHolds (pkCmp x) (homeBytes u pa 8).1 (pkW x 2) (pkW x 3) = false) : actWait q x none t =
      .ok (modQ (isQ q.fn q.qidx) fun q => { q with
        wait := some (pkW x 1, BitVec.ofNat 64 (pkW x 2), BitVec.ofNat 64 (pkW x 3), pkCmp x, pkNum x) }) u := by
  unfold actWait
  refine (FX.bind_ok (feLoad_ok hv h)).trans ?_
  simp only [toNat_pkW, hc, Bool.false_eq_true, ↓reduceIte]
  rfl
theorem actPred_holds (hv : pkW x 1 % 8 = 0) (h : feAccess t q.asid (pkW x 1) 8 false = (.ok pa attr, u))
    (hc : cmpHolds (pkCmp x) (homeBytes u pa 8).1 (pkW x 2) (pkW x 3) = true) : actPred q x t = .ok id u := by
  unfold actPred
  refine (FX.bind_ok (feLoad_ok hv h)).trans ?_
  simp only [hc, ↓reduceIte]
  rfl
theorem actPred_fails (hv : pkW x 1 % 8 = 0) (h : feAccess t q.asid (pkW x 1) 8 false = (.ok pa attr, u))
    (hc : cmpHolds (pkCmp x) (homeBytes u pa 8).1 (pkW x 2) (pkW x 3) = false) : actPred q x t =
      .ok (modLevel q.fn q.qidx fun k => { k with skip := pkNum x }) u := by
  unfold actPred
  refine (FX.bind_ok (feLoad_ok hv h)).trans ?_
  simp only [hc, Bool.false_eq_true, ↓reduceIte]
  rfl

/-- The message of an ACTMSG (R117). -/
def actmsgOf (q : Queue) (x sender n : Nat) : Msg :=
  { line := pkW x 1
    target := BitVec.ofNat 64 (pkW x 2)
    sender := sender
    asid := BitVec.ofNat 12 q.asid
    payload := (List.range 8).map fun k => Cap.ofInt (BitVec.ofNat 64 (pkW x (4 + k)))
    packet := some (q.fn, n)
    fn := q.fn
    queue := q.qidx }

theorem actActmsg_posts (hs : pkW x 3 % 8 = 0)
    (h : engineWalk t q.asid (pkW x 2) (kRead ||| kEngine) false = (.ok (pa, attr), u)) : ∃ f, actActmsg q x none t = .ok f u ∧
      ∀ p, (∀ d off, spaceOf p pa ≠ .remote d off) → ∃ k sender, (f p).net = p.net ++ [.msg k (actmsgOf q x sender p.fe.nextSerial)] := by
  unfold actActmsg
  simp only [hs, bne_self_eq_false, Bool.false_eq_true, ↓reduceIte]
  refine ⟨_, (FX.bind_ok rfl).trans (by rw [h]; rfl), fun p hp => ?_⟩
  dsimp only [issueAs]
  have hsp (g : FrontSt → FrontSt) (k : Queue → Queue) :
      spaceOf (modQ (isQ q.fn q.qidx) k (modFe g (freshWord p).2)) pa = spaceOf p pa := rfl
  simp only [hsp]
  exact ⟨_, _, rfl⟩

end

/-! ### Sweeps -/

section
variable {hd : List W64} {tags : Nat} {v : State}

theorem actSweep_refused (hh : feHeader q (pkW x 1) t = .ok (hd, tags) u) (h8 : hdrWord hd 5 % 8 = 0) (hc : sweepChecks q hd u = .ok none v) :
    actSweep q x none t = .ok (fun s => writeSignal q.fn q.qidx (sigAddr (hdrWord hd 5)) stRefused
      (modQ (isQ q.fn q.qidx) (fun q => { q with recFault := 0 }) s)) v := by
  unfold actSweep
  refine (FX.bind_ok hh).trans ?_
  simp only [h8, bne_self_eq_false, Bool.false_eq_true, ↓reduceIte]
  exact (FX.bind_ok hc).trans rfl

/-- The sweep that a SWEEP packet starts (R140). -/
def startedBy (q : Queue) (x : Nat) (hd : List W64) (tags : Nat) (shapes : List (Nat × Nat)) (s : State) : Sweep :=
  { id := s.fe.nextSweep
    serial := s.fe.nextSerial
    fn := q.fn
    queue := q.qidx
    asid := q.asid
    header := hd
    htags := tags
    arg := BitVec.ofNat 64 (pkW x 2)
    shapes := shapes
    node := none }

/-- The cores of a sweep's range are woken. -/
def wakeAll (ks : List Nat) (first id : Nat) (s : State) : State :=
  ks.foldl (fun s k => modCore (first + k) (fun c => { c with wakes := c.wakes ++ [id] }) s) s
theorem wakeAll_fe (ks : List Nat) (first id : Nat) (s : State) : (wakeAll ks first id s).fe = s.fe := by
  induction ks generalizing s with
  | nil => rfl
  | cons k ks ih => exact ih (modCore (first + k) (fun c => { c with wakes := c.wakes ++ [id] }) s)
theorem mem_wakeAll {j first id : Nat} (ks : List Nat) (s : State) (h : j ∈ ks ∨ id ∈ (coreOf s (first + j)).wakes) :
    id ∈ (coreOf (wakeAll ks first id s) (first + j)).wakes := by
  induction ks generalizing s with
  | nil => exact h.resolve_left List.not_mem_nil
  | cons k ks ih =>
    refine ih (modCore (first + k) (fun c => { c with wakes := c.wakes ++ [id] }) s) ?_
    by_cases hjk : j = k
    · subst hjk
      exact .inr (by simp)
    · rcases h with h | h
      · exact .inl (by simpa [hjk] using h)
      · exact .inr (by rwa [coreOf_modCore_ne _ _ (by omega)])

theorem actSweep_starts {shapes : List (Nat × Nat)} (hh : feHeader q (pkW x 1) t = .ok (hd, tags) u) (h8 : hdrWord hd 5 % 8 = 0)
    (hc : sweepChecks q hd u = .ok (some shapes) v) : ∃ f, actSweep q x none t = .ok f v ∧
      ∀ p, (f p).fe.sweeps = p.fe.sweeps ++ [startedBy q x hd tags shapes p] ∧
        ∀ k, k < hdrP hd → p.fe.nextSweep ∈ (coreOf (f p) (hdrFirst hd + k)).wakes := by
  unfold actSweep
  refine ⟨_, (FX.bind_ok hh).trans (.trans (by simp only [h8, bne_self_eq_false, Bool.false_eq_true, ↓reduceIte]; rfl)
    ((FX.bind_ok hc).trans rfl)), fun p => ?_⟩
  dsimp only [issueAs]
  exact ⟨congrArg FrontSt.sweeps (wakeAll_fe (List.range (hdrP hd)) (hdrFirst hd) _ _), fun k hk =>
    mem_wakeAll (List.range (hdrP hd)) _ (.inl (List.mem_range.mpr hk))⟩

end

end

/-! ### The tests (R120) -/

theorem cmpHolds_iff (cmp w value mask : Nat) : (cmpHolds 0 w value mask = true ↔ Nat.land w mask = value) ∧
    (cmpHolds 1 w value mask = true ↔ Nat.land w mask ≠ value) ∧ (cmpHolds 2 w value mask = true ↔ value ≤ Nat.land w mask) ∧
    (cmpHolds 3 w value mask = true ↔ Nat.land w mask < value) ∧
    (cmp = 4 → (cmpHolds cmp w value mask = true ↔ w / 2 ^ 56 % 256 ≠ 0)) :=
  ⟨beq_iff_eq, bne_iff_ne, decide_eq_true_iff, decide_eq_true_iff, fun h => by subst h; exact bne_iff_ne⟩

end Sys2Proof.Machine

namespace Sys2Proof
open Machine

/-- Settles O47: the rule of each type, evaluated and then applied past the packet. -/
theorem packetsHaveTheirEffect : Obligations.PacketsHaveTheirEffect := by
  refine ⟨fun s slot q l x put t h ha => ?_, fun cmp w value mask => cmpHolds_iff cmp w value mask⟩
  refine ⟨fun hty => ?_, fun hty => ?_, fun hty hn => ?_, fun u hty hb hh => ?_, fun pa attr u hv hacc => ⟨fun hd hop => ?_, fun hd hop hp => ?_,
    fun d off hd => ?_⟩, fun pa attr u hv hacc => ⟨fun hty hc => ?_, fun hty hc => ?_, fun hty hc => ?_, fun hty hc => ?_⟩,
    fun pa attr u hty h8 hw hsp => ?_, fun hd tags u v hty hh h8 => ⟨fun hc => ?_, fun shapes hc => ?_⟩, fun f u hty hg => ?_⟩
  · exact (exec_ffence ..).trans (congrArg Host.Outcome.next (issue_rule h ha hty (r := (_, actFfence q)) rfl))
  · exact (exec_intr ..).trans (congrArg Host.Outcome.next (issue_rule h ha hty (r := (_, actIntr q x none)) rfl))
  · exact (exec_ind ..).trans (congrArg Host.Outcome.next (issue_effect h ha hty rfl (actInd_ok hn)))
  · have hloop := (exec_loopPacket slot s).trans (congrArg Host.Outcome.next
      (issue_rule h ha hty (actLoop_ok hb hh)))
    refine ⟨fun hn => ?_, fun hn => ?_⟩
    · rw [hloop, if_pos hn]
    · rw [hloop, if_neg (by omega)]
  · have hact (ty : Nat) := actStore_value ty hv hacc hd hop
    exact ⟨fun hty => (exec_signal ..).trans (congrArg Host.Outcome.next (issue_effect h ha hty rfl (hact 3))),
      fun hty => (exec_write ..).trans (congrArg Host.Outcome.next (issue_effect h ha hty rfl (hact 5)))⟩
  · have hact (ty : Nat) := actStore_sum ty hv hacc hd hop hp
    exact ⟨fun hty => (exec_signal ..).trans (congrArg Host.Outcome.next (issue_effect h ha hty rfl (hact 3))),
      fun hty => (exec_write ..).trans (congrArg Host.Outcome.next (issue_effect h ha hty rfl (hact 5)))⟩
  · have hact (ty : Nat) := actStore_direct ty hv hacc hd
    exact ⟨fun hty => (exec_signal ..).trans (congrArg Host.Outcome.next (issue_effect h ha hty rfl (hact 3))),
      fun hty => (exec_write ..).trans (congrArg Host.Outcome.next (issue_effect h ha hty rfl (hact 5)))⟩
  · exact (exec_wait ..).trans (congrArg Host.Outcome.next (issue_effect h ha hty rfl (actWait_over hv hacc hc)))
  · exact (exec_wait ..).trans (congrArg Host.Outcome.next (issue_effect h ha hty rfl (actWait_open hv hacc hc)))
  · exact (exec_pred ..).trans (congrArg Host.Outcome.next (issue_effect h ha hty rfl (actPred_holds hv hacc hc)))
  · exact (exec_pred ..).trans (congrArg Host.Outcome.next (issue_effect h ha hty rfl (actPred_fails hv hacc hc)))
  · obtain ⟨f, hf, hpost⟩ := actActmsg_posts h8 hw
    obtain ⟨k, sender, hnet⟩ := hpost _ hsp
    exact ⟨_, _, k, (exec_actmsg ..).trans (congrArg Host.Outcome.next (issue_effect h ha hty rfl hf)), hnet, rfl,
      toNat_pkW x 2, rfl, rfl⟩
  · exact (exec_sweep ..).trans (congrArg Host.Outcome.next (issue_effect h ha hty rfl (actSweep_refused hh h8 hc)))
  · obtain ⟨f, hf, hstart⟩ := actSweep_starts hh h8 hc
    obtain ⟨hsweeps, hwakes⟩ := hstart (pastPacket q put (l.pos + 32 * pkSize x) (feOver forPackets q v))
    exact ⟨_, _, (exec_sweep ..).trans (congrArg Host.Outcome.next (issue_effect h ha hty rfl hf)), hsweeps, rfl, rfl, rfl,
      rfl, rfl, rfl, rfl, hwakes⟩
  · exact (exec_graph ..).trans (congrArg Host.Outcome.next (issue_effect h ha hty rfl hg))

end Sys2Proof
end

section
set_option Elab.async false
/-! Queues of the front end: rereading a WAIT, the end of a graph, write pointers, mapping and teardown (R70, R109 to R112, R120, R129,
R131). -/
namespace Sys2Proof.Machine

/-! ### Queues and the changes of the whole state -/

@[simp] theorem vecSend_fe (f v : Nat) (s : State) : (vecSend f v s).fe = s.fe := by
  unfold vecSend
  dsimp only
  split <;> rfl
@[simp] theorem vecEvent_fe (f v : Nat) (s : State) : (vecEvent f v s).fe = s.fe := by
  unfold vecEvent
  dsimp only
  split
  · rw [vecSend_fe]
    rfl
  · rfl
@[simp] theorem vecSend_ms (f v : Nat) (s : State) : (vecSend f v s).ms = s.ms := by
  unfold vecSend
  dsimp only
  split <;> rfl
@[simp] theorem vecEvent_ms (f v : Nat) (s : State) : (vecEvent f v s).ms = s.ms := by
  unfold vecEvent
  dsimp only
  split
  · rw [vecSend_ms]
    rfl
  · rfl
theorem countEcc_fe (s : State) (w : Nat) : (countEcc s w).fe = s.fe := by
  unfold countEcc
  dsimp only
  split <;> rfl
theorem correct_fe (pa n : Nat) (s : State) : (correct pa n s).fe = s.fe := by
  unfold correct
  split
  · rfl
  · exact foldl_keeps (g := State.fe) countEcc_fe ..
theorem unsuspend_fe (pa ty cid : Nat) (s : State) : (unsuspend pa ty cid s).fe = s.fe := by
  unfold unsuspend
  split <;> rfl
theorem engineWalk_fe (s : State) (asid va : Nat) (kind : BitVec 8) (user : Bool) : (engineWalk s asid va kind user).2.fe = s.fe := by
  unfold engineWalk
  split <;> rfl

section
variable {s t u : State}

theorem feRemote_ok_fe {asid d pa n pa' : Nat} {attr attr' : W64} (h : feRemote asid d pa n attr s = (.ok pa' attr', t)) : t = s := by
  unfold feRemote at h
  dsimp only at h
  split at h
  · simp at h
  · split at h
    · simp only [Prod.mk.injEq] at h
      exact h.2.symm
    · split at h
      · simp at h
      · simp at h
      · simp at h
/-- An access of the front end that is let through changes no queue. -/
theorem feAccess_ok_fe {asid va n pa : Nat} {attr : W64} {write : Bool} (h : feAccess s asid va n write = (.ok pa attr, t)) : t.fe = s.fe := by
  have hwalk := engineWalk_fe s asid va ((if write then kWrite else kRead) ||| kEngine) false
  unfold feAccess at h
  split at h
  · simp at h
  next pa0 attr0 s0 he =>
    rw [he] at hwalk
    dsimp only at h hwalk
    split at h
    · split at h
      · split at h
        · simp only [Prod.mk.injEq] at h
          rw [← h.2, hwalk]
        · simp at h
      · rw [feRemote_ok_fe h, hwalk]
    · split at h
      · simp at h
      · simp at h
      · split at h
        · simp only [Prod.mk.injEq] at h
          rw [← h.2, unsuspend_fe, hwalk]
        · split at h
          · simp at h
          · simp only [Prod.mk.injEq] at h
            rw [← h.2, correct_fe, unsuspend_fe, hwalk]

theorem slotQ_congr (h : t.fe = s.fe) (k : Nat) : slotQ t k = slotQ s k := by rw [slotQ, h, ← slotQ]
theorem allQs_congr (h : t.fe = s.fe) : allQs t = allQs s := by rw [allQs, h, ← allQs]

/-- A change of the queues that satisfy `p`. -/
def onQ (p : Queue → Bool) (g : Queue → Queue) (q : Queue) : Queue := if p q then g q else q
theorem onQ_of {p : Queue → Bool} {g : Queue → Queue} {q : Queue} (h : p q = true) : onQ p g q = g q := if_pos h
theorem slotQ_modQ (p : Queue → Bool) (g : Queue → Queue) (s : State) (k : Nat) : slotQ (modQ p g s) k = (slotQ s k).map (onQ p g) :=
  get_map_snd (d := none) (f := fun _ (q : Option Queue) => q.map (onQ p g)) (fun _ => rfl) k
theorem allQs_modQ (p : Queue → Bool) (g : Queue → Queue) (s : State) : allQs (modQ p g s) = (allQs s).map (onQ p g) := by
  show (s.fe.slots.map fun e => (e.1, e.2.map (onQ p g))).filterMap (·.2) ++ s.fe.off.map (onQ p g) = _
  rw [allQs, List.map_append, List.filterMap_map, List.map_filterMap]
  rfl
theorem isQ_self (q : Queue) : isQ q.fn q.qidx q = true := by simp [isQ]
@[simp] theorem slotQ_setSlotQ (k : Nat) (q : Option Queue) (s : State) : slotQ (setSlotQ k q s) k = q := SMap.get_set_self ..
theorem slotQ_setSlotQ_ne {j k : Nat} (q : Option Queue) (s : State) (h : j ≠ k) : slotQ (setSlotQ k q s) j = slotQ s j :=
  SMap.get_set_ne _ _ _ h

theorem mem_slots_of_erase {α : Type} {m : SMap α} {k : Nat} {e : Nat × α} (h : e ∈ SMap.erase m k) : e ∈ m := by
  induction m with
  | nil => exact h
  | cons x m ih =>
    unfold SMap.erase at h
    split at h
    · exact List.mem_cons_of_mem _ (ih h)
    · rcases List.mem_cons.mp h with h | h
      · exact List.mem_cons.mpr (.inl h)
      · exact List.mem_cons_of_mem _ (ih h)
theorem mem_insert_cases {α : Type} {m : SMap α} {k : Nat} {x : α} {e : Nat × α} (h : e ∈ SMap.insert m k x) : e = (k, x) ∨ e ∈ m := by
  induction m with
  | nil => exact .inl (by simpa [SMap.insert] using h)
  | cons y m ih =>
    unfold SMap.insert at h
    split at h
    · rcases List.mem_cons.mp h with h | h
      · exact .inl h
      · exact .inr (List.mem_cons_of_mem _ h)
    · split at h
      · exact List.mem_cons.mp h
      · rcases List.mem_cons.mp h with h | h
        · exact .inr (List.mem_cons.mpr (.inl h))
        · exact (ih h).imp_right (List.mem_cons_of_mem _)
/-- A queue after a slot is written is the one written or one from before. -/
theorem mem_allQs_setSlotQ {k : Nat} {q p : Queue} (h : p ∈ allQs (setSlotQ k (some q) s)) : p = q ∨ p ∈ allQs s := by
  rcases List.mem_append.mp h with h | h
  · obtain ⟨e, he, hp⟩ := List.mem_filterMap.mp h
    have hset : e ∈ SMap.insert s.fe.slots k (some q) := by
      have hins : SMap.set none s.fe.slots k (some q) = SMap.insert s.fe.slots k (some q) := by
        rw [SMap.set, if_neg (Option.some_ne_none q)]
      exact hins ▸ he
    rcases mem_insert_cases hset with rfl | hm
    · exact .inl (Option.some.inj hp).symm
    · exact .inr (List.mem_append.mpr (.inl (List.mem_filterMap.mpr ⟨e, hm, hp⟩)))
  · exact .inr (List.mem_append.mpr (.inr h))

/-- What the end of an access leaves of the queues: only the field of the access it held. -/
theorem feUsed_allQs (asid : Nat) (s : State) : allQs (feUsed asid s) = allQs s ∧ ∀ k, slotQ (feUsed asid s) k = slotQ s k := by
  unfold feUsed
  split
  · exact ⟨rfl, fun _ => rfl⟩
  · exact ⟨rfl, fun _ => rfl⟩
def dropHeld (who : Nat) (q : Queue) : Queue := if q.held == some who then { q with held := none } else q
/-- An access's end as a change of the queues. -/
theorem feOver_queues (who : Nat) (q : Queue) (s : State) : ∃ p, allQs (feOver who q s) = (allQs s).map (onQ p (dropHeld who)) ∧
    ∀ k, slotQ (feOver who q s) k = (slotQ s k).map (onQ p (dropHeld who)) := by
  obtain ⟨hall, hslot⟩ := feUsed_allQs q.asid s
  have hid : onQ (fun _ => false) (dropHeld who) = id := rfl
  unfold feOver
  dsimp only
  split
  · exact ⟨fun _ => false, by rw [hid, hall, List.map_id], fun k => by rw [hid, hslot, Option.map_id]; rfl⟩
  · exact ⟨isQ q.fn q.qidx, by rw [← hall]; exact allQs_modQ .., fun k => by rw [← hslot]; exact slotQ_modQ ..⟩
theorem feOver_congr {who : Nat} {q q' : Queue} (ha : q'.asid = q.asid) (hh : q'.held = q.held) (hf : q'.fn = q.fn) (hi : q'.qidx = q.qidx) :
    feOver who q' s = feOver who q s := by
  rw [feOver, feOver, ha, hh, hf, hi]
theorem dropHeld_fields (who : Nat) (p : Queue → Bool) (q : Queue) : (onQ p (dropHeld who) q).wptr = q.wptr ∧
    (onQ p (dropHeld who) q).rptr = q.rptr ∧ (onQ p (dropHeld who) q).failed = q.failed ∧
    ∀ f i, isQ f i (onQ p (dropHeld who) q) = isQ f i q := by
  unfold onQ dropHeld
  split
  · split
    · exact ⟨rfl, rfl, rfl, fun _ _ => rfl⟩
    · exact ⟨rfl, rfl, rfl, fun _ _ => rfl⟩
  · exact ⟨rfl, rfl, rfl, fun _ _ => rfl⟩

/-! ### WAIT_REREAD (R120) -/

theorem reread_plain {slot : Nat} {q : Queue} {w : Nat × W64 × W64 × Nat × Nat} (hs : slotQ s slot = some q) (hm : mayIssue forWait q = true)
    (hw : q.wait = some w) (ht : ∀ i ∈ q.issued, i.test = none) : reread slot s = feRun forWait q (rereadWait q w) s := by
  have hnone : q.issued.filter (·.test.isSome) = [] := List.filter_eq_nil_iff.mpr fun i hi => by simp [ht i hi]
  unfold reread
  simp only [hs, hm, hw, hnone, Bool.not_true, Bool.false_eq_true, ↓reduceIte, List.foldl_nil]
theorem rereadWait_holds {q : Queue} {a cmp guard pa : Nat} {value mask attr : W64} (ha : a % 8 = 0)
    (h : feAccess s q.asid a 8 false = (.ok pa attr, t)) (hc : cmpHolds cmp (homeBytes t pa 8).1 value.toNat mask.toNat = true) :
    rereadWait q (a, value, mask, cmp, guard) s = .ok (fun s => modLevel q.fn q.qidx
      (fun l => { l with guardN := guardOf cmp (homeBytes t pa 8).1 guard }) (modQ (isQ q.fn q.qidx) (fun q => { q with wait := none }) s)) t := by
  unfold rereadWait
  refine (FX.bind_ok (feLoad_ok ha h)).trans ?_
  rw [if_pos hc]
  rfl
theorem rereadWait_fails {q : Queue} {a cmp guard pa : Nat} {value mask attr : W64} (ha : a % 8 = 0)
    (h : feAccess s q.asid a 8 false = (.ok pa attr, t)) (hc : cmpHolds cmp (homeBytes t pa 8).1 value.toNat mask.toNat = false) :
    rereadWait q (a, value, mask, cmp, guard) s = .ok id t := by
  unfold rereadWait
  refine (FX.bind_ok (feLoad_ok ha h)).trans ?_
  rw [if_neg (by simp [hc])]
  rfl

end

/-! ### Graphs (R129, R130) -/

section
variable {s : State} {id : Nat} {g : Graph}

theorem graphOf_id (h : graphOf s id = some g) : g.id = id := by simpa using List.find?_some h
theorem graphOf_modGraph {f : Graph → Graph} (hf : ∀ x, (f x).id = x.id) (h : graphOf s id = some g) :
    graphOf (modGraph id f s) id = some (f g) := by
  have hid := graphOf_id h
  show (s.fe.graphs.map fun y => if y.id == id then f y else y).find? (·.id == id) = _
  have hcomp : ((·.id == id) ∘ fun y : Graph => if y.id == id then f y else y) = (·.id == id) := by
    funext y
    simp only [Function.comp]
    split <;> simp [hf]
  rw [List.find?_map, hcomp]
  rw [show s.fe.graphs.find? (·.id == id) = some g from h]
  simp [hid]

theorem nodeDone_id (i st : Nat) (g : Graph) : (nodeDone i st g).id = g.id := by
  unfold nodeDone
  split <;> rfl
/-- The counts of a node's successors fall by one each. -/
def countDown (ns : List NodeSt) (j : Nat) : List NodeSt :=
  match ns.getD j .done with
  | .waiting k => ns.set j (.waiting (k - 1))
  | _ => ns
theorem nodeDone_done (i : Nat) (g : Graph) :
    nodeDone i stDone g = { g with nodes := (g.succs.getD i []).foldl countDown (g.nodes.set i .done) } := rfl
theorem countDown_ne {ns : List NodeSt} {i j : Nat} (h : i ≠ j) : (countDown ns i)[j]? = ns[j]? := by
  unfold countDown
  split
  · rw [List.getElem?_set_ne h]
  · rfl
theorem countDown_self {ns : List NodeSt} {j k : Nat} (h : ns[j]? = some (.waiting k)) : (countDown ns j)[j]? = some (.waiting (k - 1)) := by
  obtain ⟨hj, -⟩ := List.getElem?_eq_some_iff.mp h
  unfold countDown
  rw [List.getD_eq_getElem?_getD, h]
  exact List.getElem?_set_self hj
theorem foldl_countDown_ne {is : List Nat} {j : Nat} (h : j ∉ is) (ns : List NodeSt) : (is.foldl countDown ns)[j]? = ns[j]? := by
  induction is generalizing ns with
  | nil => rfl
  | cons i is ih =>
    rw [List.mem_cons, not_or] at h
    obtain ⟨hi, hr⟩ := h
    exact (ih hr _).trans (countDown_ne (Ne.symm hi))
theorem foldl_countDown_mem {is : List Nat} {j k : Nat} (hn : is.Nodup) (hj : j ∈ is) {ns : List NodeSt} (h : ns[j]? = some (.waiting k)) :
    (is.foldl countDown ns)[j]? = some (.waiting (k - 1)) := by
  induction is generalizing ns with
  | nil => exact absurd hj List.not_mem_nil
  | cons i is ih =>
    obtain ⟨hi, hr⟩ := List.nodup_cons.mp hn
    by_cases hij : i = j
    · subst hij
      exact (foldl_countDown_ne hi _).trans (countDown_self h)
    · exact ih hr ((List.mem_cons.mp hj).resolve_left (Ne.symm hij)) ((countDown_ne hij).trans h)
theorem nodeDone_counts {i j k : Nat} (hj : j ∈ g.succs.getD i []) (hn : (g.succs.getD i []).Nodup) (hij : i ≠ j)
    (h : g.nodes[j]? = some (.waiting k)) : (nodeDone i stDone g).nodes[j]? = some (.waiting (k - 1)) := by
  rw [nodeDone_done]
  exact foldl_countDown_mem hn hj ((List.getElem?_set_ne hij).trans h)

/-- Marking nodes aborted. -/
theorem foldl_aborted_mem {is : List Nat} {j : Nat} (ns : List NodeSt) (hl : j < ns.length) (h : j ∈ is ∨ ns[j]? = some .aborted) :
    (is.foldl (fun ns j => ns.set j .aborted) ns)[j]? = some .aborted := by
  induction is generalizing ns with
  | nil => exact h.resolve_left List.not_mem_nil
  | cons i is ih =>
    refine ih _ (by simpa using hl) ?_
    by_cases hij : i = j
    · subst hij
      exact .inr (List.getElem?_set_self hl)
    · rw [List.getElem?_set_ne hij]
      exact h.imp_left fun hm => (List.mem_cons.mp hm).resolve_left (Ne.symm hij)
theorem length_foldl_set (is : List Nat) (ns : List NodeSt) : (is.foldl (fun ns j => ns.set j .aborted) ns).length = ns.length := by
  induction is generalizing ns with
  | nil => rfl
  | cons i is ih => exact (ih _).trans List.length_set
theorem abortBelow_keeps {succs : List (List Nat)} {j : Nat} (n : Nat) (is : List Nat) (ns : List NodeSt) (h : ns[j]? = some .aborted) :
    (abortBelow succs n is ns)[j]? = some .aborted := by
  induction n generalizing is ns with
  | zero => exact h
  | succ n ih =>
    unfold abortBelow
    dsimp only
    split
    · exact h
    · obtain ⟨hl, -⟩ := List.getElem?_eq_some_iff.mp h
      exact ih _ _ (foldl_aborted_mem ns hl (.inr h))
theorem nodeDone_aborts {i j st : Nat} (hi : i < g.nodes.length) (hj : j ∈ g.succs.getD i []) (hl : j < g.nodes.length) (hst : st ≠ stDone) :
    (nodeDone i st g).nodes[j]? = some .aborted := by
  obtain ⟨n, hn⟩ := Nat.exists_eq_succ_of_ne_zero (Nat.ne_zero_of_lt hi)
  have hnext : j ∈ (([i].flatMap fun i => g.succs.getD i []).eraseDups) := by
    rw [List.mem_eraseDups]
    simpa using hj
  have hne : (([i].flatMap fun i => g.succs.getD i []).eraseDups).isEmpty = false := by
    rw [List.isEmpty_eq_false_iff_exists_mem]
    exact ⟨j, hnext⟩
  unfold nodeDone
  rw [if_neg (by simpa using hst)]
  show (abortBelow g.succs g.nodes.length [i] (g.nodes.set i .aborted))[j]? = _
  rw [hn]
  unfold abortBelow
  simp only [hne, Bool.false_eq_true, ↓reduceIte]
  exact abortBelow_keeps _ _ _ (foldl_aborted_mem _ (by simpa using hl) (.inl hnext))

/-- A queue without one of its issued packets. -/
def withoutIssued (serial : Nat) (q : Queue) : Queue := { q with issued := q.issued.filter fun j => j.serial != serial }
theorem graphQueue_modQ {q : Queue} {serial fn qidx : Nat} (hq : graphQueue s g = some q) (hs : serial ≠ g.serial) :
    graphQueue (modQ (isQ fn qidx) (withoutIssued serial) s) g = some (onQ (isQ fn qidx) (withoutIssued serial) q) := by
  have hkeep (p : Queue) : ((withoutIssued serial p).issued.any (·.serial == g.serial)) = p.issued.any (·.serial == g.serial) := by
    unfold withoutIssued
    rw [List.any_filter]
    refine List.any_congr rfl fun j => ?_
    by_cases h : j.serial = g.serial
    · simp [h, Ne.symm hs]
    · simp [h]
  have hcomp : ((fun q : Queue => q.issued.any (·.serial == g.serial)) ∘ onQ (isQ fn qidx) (withoutIssued serial)) =
      fun q => q.issued.any (·.serial == g.serial) := by
    funext p
    simp only [Function.comp, onQ]
    split
    · exact hkeep p
    · rfl
  unfold graphQueue at hq ⊢
  rw [allQs_modQ, List.find?_map, hcomp, hq]
  rfl

/-- No node waits with a count of zero: nothing is launched. -/
theorem launchFrom_idle {q : Queue} (hg : graphOf s id = some g) (hq : graphQueue s g = some q) (is : List Nat)
    (h : ∀ i ∈ is, g.nodes.getD i .done ≠ .waiting 0) : launchFrom id is s = s := by
  induction is with
  | nil => rfl
  | cons i is ih =>
    have hi : (g.nodes.getD i .done != .waiting 0) = true := by simpa using h i List.mem_cons_self
    unfold launchFrom
    simp only [hg, hq]
    split
    · rfl
    · rw [hi, Bool.or_true, if_pos rfl]
      exact ih fun j hj => h j (List.mem_cons_of_mem _ hj)

/-- The last node's completion ends the graph. -/
theorem graphAdvance_last {node : Nat} {q : Queue} {i : Issued} (hg : graphOf s id = some g) (hq : graphQueue s g = some q)
    (hm : mayIssue (forGraph id) q = true) (hf : q.issued.find? (fun i => i.node == some (id, node) && i.done.isSome) = some i)
    (hs : i.serial ≠ g.serial) (hd : i.done = some stDone) (hc : g.cond = none) (hn : node < g.nodes.length)
    (hsucc : g.succs.getD node [] = []) (hall : ∀ k, k < g.nodes.length → k ≠ node → g.nodes[k]? = some .done) :
    graphAdvance id node s = completePacket g.serial stDone (modFe (fun f => { f with graphs := f.graphs.filter fun x => x.id != id })
      (feOver (forGraph id) q (modGraph id (nodeDone node stDone) (modQ (isQ q.fn q.qidx) (withoutIssued i.serial) s)))) := by
  have hdone (k : Nat) : (g.nodes.set node .done)[k]?.getD .done = .done := by
    rw [List.getElem?_set]
    split
    · rfl
    · rename_i hk
      by_cases hl : k < g.nodes.length
      · rw [hall k hl (Ne.symm hk)]
        rfl
      · rw [List.getElem?_eq_none (by omega)]
        rfl
  have hnd : nodeDone node stDone g = { g with nodes := g.nodes.set node .done } := by rw [nodeDone_done, hsucc]; rfl
  have hall' : ∀ x ∈ g.nodes.set node .done, x = .done := by
    intro x hx
    obtain ⟨k, hk⟩ := List.mem_iff_getElem?.mp hx
    simpa [hk] using hdone k
  have hg1 : graphOf (modGraph id (nodeDone node stDone) (modQ (isQ q.fn q.qidx) (withoutIssued i.serial) s)) id =
      some { g with nodes := g.nodes.set node .done } := by
    rw [← hnd]
    exact graphOf_modGraph (nodeDone_id _ _) hg
  have hq1 : graphQueue (modGraph id (nodeDone node stDone) (modQ (isQ q.fn q.qidx) (withoutIssued i.serial) s))
      { g with nodes := g.nodes.set node .done } = some (withoutIssued i.serial q) :=
    (graphQueue_modQ hq hs).trans (congrArg some (onQ_of (isQ_self q)))
  have hover : graphOver { g with nodes := g.nodes.set node .done } = true := by
    unfold graphOver
    rw [List.all_eq_true]
    intro e he
    obtain ⟨x, k⟩ := e
    simp [hall' x (List.fst_mem_of_mem_zipIdx he)]
  have hend (t : State) : graphEnd (withoutIssued i.serial q) { g with nodes := g.nodes.set node .done } t = .ok (fun s =>
      completePacket g.serial stDone (modFe (fun f => { f with graphs := f.graphs.filter (·.id != g.id) }) s)) t := by
    have hab : (g.nodes.set node .done).contains .aborted = false := by
      rw [List.contains_eq_any_beq, List.any_eq_false]
      intro x hx
      simp [hall' x hx]
    unfold graphEnd
    simp only [hab, hc, Bool.false_eq_true, ↓reduceIte]
    rfl
  have hlaunch := launchFrom_idle hg1 hq1 (List.range g.nodes.length) fun k hk => by
    rw [List.getD_eq_getElem?_getD, hdone]
    exact NodeSt.noConfusion
  unfold graphAdvance
  simp only [hg, hq, hf, hd, Option.getD_some]
  unfold launchAll
  have hm' : mayIssue (forGraph id) (withoutIssued i.serial q) = true := hm
  simp only [show (modQ (isQ q.fn q.qidx) fun q => { q with issued := q.issued.filter (·.serial != i.serial) }) s =
    modQ (isQ q.fn q.qidx) (withoutIssued i.serial) s from rfl, hlaunch, hg1, hq1, hm', hover, Bool.and_self, ↓reduceIte]
  rw [feRun_ok (hend _), graphOf_id hg]
  exact congrArg (fun x => completePacket g.serial stDone (modFe _ x)) (feOver_congr rfl rfl rfl rfl)

end

/-! ### The write pointer (R70, R109) -/

section
variable {s : State} {slot : Nat} {q : Queue}

/-- The queue as a poll takes it. -/
def polled (q : Queue) : Queue := if q.wait.isSome then q else { q with levels := popLevels q.levels }
theorem polled_fields (q : Queue) : (polled q).fn = q.fn ∧ (polled q).qidx = q.qidx ∧ (polled q).asid = q.asid ∧ (polled q).held = q.held ∧
    (polled q).loc = q.loc ∧ (polled q).wptrA = q.wptrA ∧ (polled q).wptr = q.wptr ∧ (polled q).rptr = q.rptr ∧ (polled q).log2 = q.log2 ∧
    (polled q).failed = q.failed := by
  unfold polled
  split <;> exact ⟨rfl, rfl, rfl, rfl, rfl, rfl, rfl, rfl, rfl, rfl⟩

theorem ptrRead_host {a : Nat} (hl : q.loc = false) (hb : hostBad s q.fn a 8 = false) : ptrRead q a s = .ok (hostPeek s q.fn a 8) s := by
  unfold ptrRead
  simp only [hl, Bool.false_eq_true, ↓reduceIte]
  refine (FX.bind_ok rfl).trans ?_
  simp only [hb, Bool.false_eq_true, ↓reduceIte]
  rfl
theorem ptrRead_bad {a : Nat} (hl : q.loc = false) (hb : hostBad s q.fn a 8 = true) : ptrRead q a s = .error (.err 3) s := by
  unfold ptrRead
  simp only [hl, Bool.false_eq_true, ↓reduceIte]
  refine (FX.bind_ok rfl).trans ?_
  simp only [hb, ↓reduceIte]
  rfl
theorem pollWptr_ok (hl : q.loc = false) (hb : hostBad s q.fn q.wptrA 8 = false) (h32 : hostPeek s q.fn q.wptrA 8 % 32 = 0)
    (hlo : q.wptr ≤ hostPeek s q.fn q.wptrA 8) (hhi : hostPeek s q.fn q.wptrA 8 ≤ q.rptr + 2 ^ q.log2) :
    pollWptr q s = .ok (modQ (isQ q.fn q.qidx) fun x => { x with wptr := hostPeek s q.fn q.wptrA 8 }) s := by
  unfold pollWptr
  refine (FX.bind_ok (ptrRead_host hl hb)).trans ?_
  generalize hostPeek s q.fn q.wptrA 8 = w at h32 hlo hhi
  have hok : (w % 32 != 0 || decide (w < q.wptr) || decide (q.rptr + 2 ^ q.log2 < w)) = false := by simp [h32, hlo, hhi]
  simp only [hok, Bool.false_eq_true, ↓reduceIte]
  rfl
theorem pollWptr_wrong (hl : q.loc = false) (hb : hostBad s q.fn q.wptrA 8 = false) (h : hostPeek s q.fn q.wptrA 8 % 32 ≠ 0 ∨
    hostPeek s q.fn q.wptrA 8 < q.wptr ∨ q.rptr + 2 ^ q.log2 < hostPeek s q.fn q.wptrA 8) : pollWptr q s = .error (.err 6) s := by
  unfold pollWptr
  refine (FX.bind_ok (ptrRead_host hl hb)).trans ?_
  generalize hostPeek s q.fn q.wptrA 8 = w at h
  have hbad : (w % 32 != 0 || decide (w < q.wptr) || decide (q.rptr + 2 ^ q.log2 < w)) = true := by
    simpa [or_assoc] using h
  simp only [hbad, ↓reduceIte]
  rfl
theorem pollWptr_bad (hl : q.loc = false) (hb : hostBad s q.fn q.wptrA 8 = true) : pollWptr q s = .error (.err 3) s := by
  unfold pollWptr
  exact FX.bind_error (ptrRead_bad hl hb)

/-- A read ahead of the packets moves no pointer of a queue. -/
def SamePointers (s t : State) : Prop := ∀ k p, slotQ s k = some p → ∃ p', slotQ t k = some p' ∧ p'.wptr = p.wptr ∧ p'.rptr = p.rptr
theorem SamePointers.refl (s : State) : SamePointers s s := fun _ p h => ⟨p, h, rfl, rfl⟩
theorem SamePointers.trans {s t u : State} (h : SamePointers s t) (h' : SamePointers t u) : SamePointers s u := by
  intro k p hp
  obtain ⟨p', hp', hw, hr⟩ := h k p hp
  obtain ⟨p'', hp'', hw', hr'⟩ := h' k p' hp'
  exact ⟨p'', hp'', hw'.trans hw, hr'.trans hr⟩
theorem SamePointers.of_fe {t : State} (h : t.fe = s.fe) : SamePointers s t := fun k p hp => ⟨p, (slotQ_congr h k).trans hp, rfl, rfl⟩
theorem SamePointers.modQ (p : Queue → Bool) {g : Queue → Queue} (hg : ∀ q, (g q).wptr = q.wptr ∧ (g q).rptr = q.rptr) (s : State) :
    SamePointers s (modQ p g s) := by
  intro k x hx
  refine ⟨onQ p g x, by rw [slotQ_modQ, hx]; rfl, ?_⟩
  unfold onQ
  split
  · exact hg x
  · exact ⟨rfl, rfl⟩

/-- What holds from every state to the one that a check which passes leaves. -/
def Passes {α : Type} (R : State → State → Prop) (x : FX α) : Prop := ∀ s a t, x s = .ok a t → R s t
theorem Passes.bind {α β : Type} {R : State → State → Prop} (htrans : ∀ {s t u}, R s t → R t u → R s u) {x : FX α} {f : α → FX β}
    (hx : Passes R x) (hf : ∀ a, Passes R (f a)) : Passes R (x >>= f) := by
  intro s b u h
  cases hs : x s with
  | ok a t =>
    rw [FX.bind_ok hs] at h
    exact htrans (hx s a t hs) (hf a t b u h)
  | error e t =>
    rw [FX.bind_error hs] at h
    injection h
theorem Passes.pure {α : Type} {R : State → State → Prop} (hrefl : ∀ s, R s s) (a : α) : Passes R (pure a : FX α) := by
  intro s b t h
  obtain ⟨-, rfl⟩ := EStateM.Result.ok.inj h
  exact hrefl s
theorem Passes.throw {α : Type} {R : State → State → Prop} (e : FeStop) : Passes R (throw e : FX α) := by
  intro s b t h
  injection h
theorem Passes.thrown {α β : Type} {R : State → State → Prop} (e : FeStop) (f : α → FX β) : Passes R ((MonadExcept.throw e : FX α) >>= f) := by
  intro s b t h
  injection (FX.bind_error (x := (MonadExcept.throw e : FX α)) (f := f) (e := e) (t := s) rfl).symm.trans h
theorem Passes.get {R : State → State → Prop} (hrefl : ∀ s, R s s) : Passes R (get : FX State) := by
  intro s b t h
  obtain ⟨-, rfl⟩ := EStateM.Result.ok.inj h
  exact hrefl s

/-- A passed check of an address changes no queue. -/
theorem feGo_passes (asid va n align : Nat) (write : Bool) : Passes (fun s t => t.fe = s.fe) (feGo asid va n align write) := by
  unfold feGo
  intro s r t h
  by_cases hv : va % align = 0
  · rw [if_neg (by simpa using hv)] at h
    have hm := (FX.bind_ok (x := (get : FX State)) (a := s) (t := s) rfl).symm.trans h
    rcases he : feAccess s asid va n write with ⟨⟨pa, attr⟩ | ⟨c, l⟩ | _ | _, u⟩ <;> rw [he] at hm
    · obtain ⟨-, rfl⟩ := EStateM.Result.ok.inj hm
      exact feAccess_ok_fe he
    all_goals injection hm
  · rw [if_pos (by simpa using hv)] at h
    injection h
theorem feLoad_passes (asid va n : Nat) : Passes (fun s t => t.fe = s.fe) (feLoad asid va n) := by
  unfold feLoad
  have htrans {s t u : State} (h : t.fe = s.fe) (h' : u.fe = t.fe) : u.fe = s.fe := h'.trans h
  refine .bind (R := fun s t => t.fe = s.fe) htrans (fun s r t h => feGo_passes asid va n n false s r t h) fun r => ?_
  exact .bind (R := fun s t => t.fe = s.fe) htrans (.get fun _ => rfl) fun _ => .pure (R := fun s t => t.fe = s.fe) (fun _ => rfl) _

theorem fetchAt_pointers (q : Queue) (k off : Nat) : Passes SamePointers (fetchAt q k off) := by
  have hhold (y : Nat) : Passes SamePointers (modify (modLevelAt q.fn q.qidx k (holdChunk off y)) : FX Unit) := by
    intro u a t h
    obtain ⟨-, rfl⟩ := EStateM.Result.ok.inj h
    exact .modQ (isQ q.fn q.qidx) (g := fun q => { q with levels := q.levels.modify k (holdChunk off y) }) (fun _ => ⟨rfl, rfl⟩) u
  have hload (a n : Nat) : Passes SamePointers (feLoad q.asid a n) := fun s x t h => .of_fe (feLoad_passes _ _ _ s x t h)
  have hend (y : Nat) : Passes SamePointers (do modify (modLevelAt q.fn q.qidx k (holdChunk off y)); pure y : FX Nat) :=
    .bind .trans (hhold y) fun _ => .pure .refl y
  unfold fetchAt
  split
  · exact .throw _
  next l _ =>
    split
    · exact .pure .refl _
    · dsimp only
      generalize (if (k + 1 == q.levels.length) = true then l.base + off % 2 ^ q.log2 else l.base + off) = a
      split
      · exact .thrown _ _
      · split
        · exact .thrown _ _
        · refine .bind .trans (.get .refl) fun _ => ?_
          split
          · exact .bind .trans (hload _ _) hend
          · split
            · exact .thrown _ _
            · exact .bind .trans (.get .refl) fun _ => .bind .trans (.pure .refl _) hend

theorem prefetch_pointers (k n off : Nat) (s : State) : SamePointers s (prefetch slot k n off s) := by
  induction n generalizing off s with
  | zero => exact .refl s
  | succ n ih =>
    unfold prefetch
    split
    · exact .refl s
    · split
      next x t h => exact (fetchAt_pointers _ k off s x t h).trans (ih _ _)
      next => exact .refl s

theorem prefetches_pointers (ls : List (Level × Nat)) (s : State) :
    SamePointers s (ls.foldl (fun s e => prefetch slot e.2 64 e.1.pos s) s) := by
  induction ls generalizing s with
  | nil => exact .refl s
  | cons e ls ih => exact (prefetch_pointers e.2 64 e.1.pos s).trans (ih _)

/-- The poll of a queue that may issue: its read, and then the reads ahead. -/
theorem wptrPoll_eq (hs : slotQ s slot = some q) (hm : mayIssue forPoll q = true) : ∃ g : Queue → List (Level × Nat), wptrPoll slot s =
    (match slotQ (feRun forPoll (polled q) (pollWptr (polled q)) (setSlotQ slot (some (polled q)) s)) slot with
    | some p => if mayIssue forPoll p then (g p).foldl (fun s e => prefetch slot e.2 64 e.1.pos s)
        (feRun forPoll (polled q) (pollWptr (polled q)) (setSlotQ slot (some (polled q)) s))
      else feRun forPoll (polled q) (pollWptr (polled q)) (setSlotQ slot (some (polled q)) s)
    | none => feRun forPoll (polled q) (pollWptr (polled q)) (setSlotQ slot (some (polled q)) s)) := by
  unfold wptrPoll
  simp only [hs, hm, Bool.not_true, Bool.false_eq_true, ↓reduceIte]
  exact ⟨fun p => p.levels.zipIdx, rfl⟩

theorem wptrPoll_moves (hs : slotQ s slot = some q) (hm : mayIssue forPoll q = true) (hl : q.loc = false)
    (hb : hostBad s q.fn q.wptrA 8 = false) (h32 : hostPeek s q.fn q.wptrA 8 % 32 = 0) (hlo : q.wptr ≤ hostPeek s q.fn q.wptrA 8)
    (hhi : hostPeek s q.fn q.wptrA 8 ≤ q.rptr + 2 ^ q.log2) :
    ∃ p, slotQ (wptrPoll slot s) slot = some p ∧ p.wptr = hostPeek s q.fn q.wptrA 8 ∧ p.rptr = q.rptr := by
  obtain ⟨g, he⟩ := wptrPoll_eq hs hm
  obtain ⟨hfn, hidx, -, -, hloc, hwa, hw, hr, hlog, -⟩ := polled_fields q
  have hok := feRun_ok (who := forPoll) (q := polled q) (pollWptr_ok (s := setSlotQ slot (some (polled q)) s) (q := polled q)
    (hloc.trans hl) (by rw [hfn, hwa]; exact hb) (by rw [hfn, hwa]; exact h32) (by rw [hfn, hwa, hw]; exact hlo)
    (by rw [hfn, hwa, hr, hlog]; exact hhi))
  rw [hfn, hidx, hwa] at hok
  obtain ⟨pr, -, hover⟩ := feOver_queues forPoll (polled q) (setSlotQ slot (some (polled q)) s)
  obtain ⟨-, hrp, -, his⟩ := dropHeld_fields forPoll pr (polled q)
  have hslot : slotQ (feRun forPoll (polled q) (pollWptr (polled q)) (setSlotQ slot (some (polled q)) s)) slot =
      some { onQ pr (dropHeld forPoll) (polled q) with wptr := hostPeek s q.fn q.wptrA 8 } := by
    rw [hok, slotQ_modQ, hover, slotQ_setSlotQ]
    refine congrArg some (onQ_of ?_)
    rw [his, ← hfn, ← hidx]
    exact isQ_self _
  rw [he]
  simp only [hslot]
  split
  · obtain ⟨p', hp', hw', hr'⟩ := prefetches_pointers (slot := slot) (g _) _ slot _ hslot
    exact ⟨p', hp', hw', hr'.trans (hrp.trans hr)⟩
  · exact ⟨_, hslot, rfl, hrp.trans hr⟩

theorem failQueue_slot {f i n k : Nat} (hf : ∀ p ∈ allQs s, isQ f i p = true → p.failed = false) (hs : slotQ s k = some q)
    (hq : isQ f i q = true) : ∃ p, slotQ (failQueue f i n s) k = some p ∧ p.failed = true := by
  have hnone : ((allQs s).any fun q => isQ f i q && q.failed) = false := by
    rw [List.any_eq_false]
    intro p hp
    by_cases h : isQ f i p = true
    · simp [hf p hp h]
    · simp [h]
  refine ⟨{ q with failed := true, err := n }, ?_, rfl⟩
  unfold failQueue
  simp only [hnone, Bool.false_eq_true, ↓reduceIte]
  rw [slotQ_congr (vecEvent_fe ..)]
  refine (slotQ_modQ (isQ f i) (fun q => { q with failed := true, err := n }) s k).trans ?_
  rw [hs]
  exact congrArg some (onQ_of hq)

theorem wptrPoll_fails {n : Nat} (hs : slotQ s slot = some q) (hm : mayIssue forPoll q = true)
    (he : pollWptr (polled q) (setSlotQ slot (some (polled q)) s) = .error (.err n) (setSlotQ slot (some (polled q)) s))
    (hf : ∀ p ∈ allQs s, isQ q.fn q.qidx p = true → p.failed = false) :
    wptrPoll slot s = failQueue q.fn q.qidx n (feOver forPoll q (setSlotQ slot (some (polled q)) s)) := by
  obtain ⟨g, hp⟩ := wptrPoll_eq hs hm
  obtain ⟨hfn, hidx, hasid, hheld, -, -, -, -, -, hfail⟩ := polled_fields q
  have hq0 : q.failed = false := by
    simp only [mayIssue, Bool.and_eq_true, Bool.not_eq_true'] at hm
    obtain ⟨⟨⟨⟨h, -⟩, -⟩, -⟩, -⟩ := hm
    exact h
  have hrun : feRun forPoll (polled q) (pollWptr (polled q)) (setSlotQ slot (some (polled q)) s) =
      failQueue q.fn q.qidx n (feOver forPoll q (setSlotQ slot (some (polled q)) s)) := by
    rw [feRun_error he, ← feOver_congr hasid hheld hfn hidx]
    show failQueue (polled q).fn (polled q).qidx n _ = _
    rw [hfn, hidx]
  obtain ⟨pr, hall, hover⟩ := feOver_queues forPoll q (setSlotQ slot (some (polled q)) s)
  obtain ⟨p, hslot, hpf⟩ := failQueue_slot (n := n) (f := q.fn) (i := q.qidx) (k := slot)
    (s := feOver forPoll q (setSlotQ slot (some (polled q)) s)) (q := onQ pr (dropHeld forPoll) (polled q))
    (fun p hp his => by
      rw [hall] at hp
      obtain ⟨p0, hp0, rfl⟩ := List.mem_map.mp hp
      obtain ⟨-, -, hfe, hise⟩ := dropHeld_fields forPoll pr p0
      rw [hfe]
      rcases mem_allQs_setSlotQ hp0 with rfl | hm0
      · rw [hfail, hq0]
      · exact hf p0 hm0 (by rwa [hise] at his))
    (by rw [hover, slotQ_setSlotQ]; rfl)
    (by
      obtain ⟨-, -, -, hise⟩ := dropHeld_fields forPoll pr (polled q)
      rw [hise, ← hfn, ← hidx]
      exact isQ_self _)
  have hno : mayIssue forPoll p = false := by simp [mayIssue, hpf]
  rw [hp, hrun]
  simp only [hslot, hno, Bool.false_eq_true, ↓reduceIte]

end

/-! ### Mapping (R109 to R112) -/

section
variable {s : State} {f i : Nat}

theorem find_allQs_none {p : Queue → Bool} (hm : (mappedQs s).find? (fun e => p e.2) = none) (ho : s.fe.off.find? p = none) :
    (allQs s).find? p = none := by
  rw [List.find?_eq_none] at hm ho ⊢
  intro q hq
  rcases List.mem_append.mp hq with h | h
  · obtain ⟨⟨k, x⟩, he, hp⟩ := List.mem_filterMap.mp h
    obtain rfl : x = some q := hp
    exact hm (k, q) (List.mem_filterMap.mpr ⟨(k, some q), he, rfl⟩)
  · exact ho q h
/-- Nothing waits to be written for a queue that the front end does not hold. -/
theorem drainSignals_none {n : Nat} (h : (allQs s).find? (isQ f i) = none) : drainSignals f i n s = s := by
  cases n with
  | zero => rfl
  | succ n =>
    unfold drainSignals
    rw [h]

section
variable (hf : f < 64) (hi : i < dirSize s f) (hr : fnReady s f = true) (hm : mappedOf s f i = none)
include hf hi hr hm

theorem pollUnmapped_refuses (he : descEn (descOf s f i) = true) (hfr : descFresh (descOf s f i) = true)
    (hok : descOk s f (descOf s f i) = false) : pollUnmapped f i s = failQueue f i 7 s := by
  unfold pollUnmapped
  simp only [hf, hi, hr, hm, he, hfr, hok, decide_true, Option.isNone_none, Bool.and_self, Bool.not_true, Bool.not_false, Bool.false_eq_true,
    ↓reduceIte]
  rfl
theorem pollUnmapped_waits (hk : keptOf s f i = none) (he : descEn (descOf s f i) = true) (hfr : descFresh (descOf s f i) = true)
    (hok : descOk s f (descOf s f i) = true) (hp : queuePending s f i = true) :
    (pollUnmapped f i s).fe.gangAges.any (fun a => a.fn == f && a.gang == gangKey (descOf s f i) i) = true := by
  unfold pollUnmapped
  simp only [hf, hi, hr, hm, he, hfr, hok, hp, decide_true, Option.isNone_none, Bool.and_self, Bool.not_true, Bool.false_eq_true,
    ↓reduceIte, drainSignals_none (find_allQs_none hm hk), Bool.true_and]
  split
  · simp [modFe]
  next h => simpa using h

end

theorem pollUnmapped_disabled (he : descEn (descOf s f i) = false) : pollUnmapped f i s = s := by
  unfold pollUnmapped
  simp only [he, Bool.and_false, Bool.false_and, Bool.not_false, ↓reduceIte]

section
variable {gang k : Nat}

theorem mapReads_one (hk : keptOf s f i = none) (hl : descLoc (descOf s f i) = false) (hb : hostBad s f (descOf s f i).rptr 8 = false) :
    mapReads f [i] s = .ok [newQueue s f i (descOf s f i) (hostPeek s f (descOf s f i).rptr 8)] s := by
  unfold mapReads
  refine (FX.bind_ok rfl).trans ?_
  simp only [hk]
  refine (FX.bind_ok (ptrRead_host (q := newQueue s f i (descOf s f i) 0) hl hb)).trans ?_
  exact (FX.bind_ok rfl).trans rfl
/-- A gang whose only unmapped member is valid is not refused. -/
theorem gang_not_refused (ht : gangTodo s f gang = [i]) (hp : gangPending s f gang = true) :
    (gangTodo s f gang).find? (fun i => descFresh (descOf s f i) && !descOk s f (descOf s f i)) = none := by
  have hmem : i ∈ gangTodo s f gang := by rw [ht]; exact List.mem_singleton_self i
  obtain ⟨hg, hnone⟩ := List.mem_filter.mp hmem
  have hvalid : gangValid s f gang = true := by
    simp only [gangPending, Bool.and_eq_true] at hp
    obtain ⟨⟨⟨-, h⟩, -⟩, -⟩ := hp
    exact h
  have hi := List.all_eq_true.mp hvalid i hg
  rw [Option.isNone_iff_eq_none] at hnone
  simp only [hnone, Option.isSome_none, Bool.false_or, Bool.and_eq_true] at hi
  rw [ht, List.find?_singleton, hi.2]
  simp
theorem gangMap_one (ht : gangTodo s f gang = [i]) (hp : gangPending s f gang = true) (hb : gangBehind s f gang = false)
    (hw : queueWaits s f i = false) (hq : ((mappedQs s).filter fun e => e.2.fn == f).length + 1 ≤ slotQuota s f) (hk : keptOf s f i = none)
    (hl : descLoc (descOf s f i) = false) (hbad : hostBad s f (descOf s f i).rptr 8 = false) : gangMap f gang s =
      mapQueue (newQueue s f i (descOf s f i) (hostPeek s f (descOf s f i).rptr 8))
        (modFe (fun x => { x with gangAges := x.gangAges.filter fun a => !(a.fn == f && a.gang == gang) }) s) := by
  unfold gangMap
  rw [gang_not_refused ht hp]
  have hroom : ¬ slotQuota s f < ((mappedQs s).filter fun e => e.2.fn == f).length + 1 := by omega
  simp only [ht, hp, hb, hw, Bool.not_true, List.any_cons, List.any_nil, Bool.or_self, Bool.false_eq_true, ↓reduceIte, List.length_singleton, hroom]
  unfold mapAll
  rw [mapReads_one hk hl hbad]
  rfl
theorem mapQueue_slots {q : Queue} (ho : openSlot s = some k) :
    ∃ j, slotQ (mapQueue q s) k = some { q with fslot := j } ∧ ∀ j, j ≠ k → slotQ (mapQueue q s) j = slotQ s j := by
  unfold mapQueue
  rw [ho]
  exact ⟨_, slotQ_setSlotQ .., fun j hj => slotQ_setSlotQ_ne _ _ hj⟩

end

/-! ### Teardown (R131) -/

theorem find_onQ {p : Queue → Bool} {g : Queue → Queue} {l : List Queue} {q : Queue}
    (h : (l.map (onQ p g)).find? p = some q) : ∃ x, p x = true ∧ q = g x := by
  have hp : p q = true := by simpa using List.find?_some h
  obtain ⟨x, -, hx⟩ := List.mem_map.mp (List.mem_of_find?_eq_some h)
  by_cases hpx : p x = true
  · exact ⟨x, hpx, (hx.symm.trans (onQ_of hpx))⟩
  · rw [onQ, if_neg hpx] at hx
    exact absurd (hx ▸ hp) hpx
/-- A queue torn down, with the signals that its packets owe. -/
def tornBy (sigs : List Nat) (q : Queue) : Queue :=
  { q with torn := true, parked := false, held := none, issued := [], sigs := sigs.map fun a => (a, stAborted) }
theorem teardownBegin_eq (q : Queue) (s : State) : ∃ u sigs, teardownBegin q s = modQ (isQ q.fn q.qidx) (tornBy sigs) u := ⟨_, _, rfl⟩
theorem teardownBegin_marks {q p : Queue} (h : anyQ (teardownBegin q s) q.fn q.qidx = some p) :
    p.torn = true ∧ p.issued = [] ∧ ∀ e ∈ p.sigs, e.2 = stAborted := by
  obtain ⟨u, sigs, he⟩ := teardownBegin_eq q s
  rw [anyQ, he, allQs_modQ] at h
  obtain ⟨x, -, rfl⟩ := find_onQ (g := tornBy sigs) h
  refine ⟨rfl, rfl, fun e he => ?_⟩
  obtain ⟨a, -, rfl⟩ := List.mem_map.mp he
  rfl

theorem teardown_ends {q p : Queue} {u : State} (hq : isQ f i q = true) (hu : u = (if q.torn then s else teardownBegin q s))
    (hp : anyQ u f i = some p) (hs : p.sigs = []) : teardown false q s = teardownEnd f i u := by
  obtain ⟨rfl, rfl⟩ : q.fn = f ∧ q.qidx = i := by simpa [isQ] using hq
  unfold teardown
  rw [← hu]
  simp [hp, hs, abortSignals]
theorem hostPeek_hostPoke (f a n x : Nat) (s : State) : hostPeek (hostPoke f a n x s) f a n = x % 2 ^ (8 * n) := by
  have h := peekBytes_pokeBytes s.ms.hostio (f * 2 ^ 64 + a % 2 ^ 64) (leBytes n x)
  rw [length_leBytes] at h
  rw [hostPeek, hostPoke, modMs_ms, h, leNat_leBytes]
theorem lor_0x80 (x : Nat) : Nat.lor x 0x80 % 2 ^ (8 * 1) / 128 % 2 = 1 := by
  have h : (Nat.lor x 0x80).testBit 7 = true := by
    show (x ||| 0x80).testBit 7 = true
    rw [Nat.testBit_or, show Nat.testBit 0x80 7 = true from rfl, Bool.or_true]
  rw [Nat.testBit_eq_decide_div_mod_eq, decide_eq_true_iff] at h
  omega
theorem teardownEnd_over (f i : Nat) (s : State) : anyQ (teardownEnd f i s) f i = none ∧
    hostPeek (teardownEnd f i s) f (descAddr (teardownEnd f i s) f i + 0x19) 1 / 128 % 2 = 1 := by
  unfold teardownEnd
  dsimp only
  generalize leaveFaults (· == .queue (1024 * f + i)) s = s
  constructor
  · rw [anyQ, allQs_congr (vecEvent_fe ..), List.find?_eq_none]
    intro q hq
    rcases List.mem_append.mp hq with h | h
    · obtain ⟨e, he, hp⟩ := List.mem_filterMap.mp h
      have := (List.mem_filter.mp he).2
      rw [hp] at this
      simpa using this
    · simpa using (List.mem_filter.mp h).2
  · have hms (v : Nat) (t : State) (a : Nat) : hostPeek (vecEvent f v t) f a 1 = hostPeek t f a 1 := by rw [hostPeek, vecEvent_ms, ← hostPeek]
    have haddr (v : Nat) (t : State) : descAddr (vecEvent f v t) f i = descAddr t f i := by
      obtain ⟨ic, since, pend, h⟩ := fnOf_vecEvent f v t
      rw [descAddr, h, ← descAddr]
    rw [hms, haddr]
    exact (congrArg (· / 128 % 2) (hostPeek_hostPoke ..)).trans (lor_0x80 _)

end

end Sys2Proof.Machine

namespace Sys2Proof
open Machine

/-- Settles O48: rereading, the last node, write pointers, mapping and the ends of a teardown. -/
theorem queuesAreMappedPolledAndTornDown : Obligations.QueuesAreMappedPolledAndTornDown := by
  refine ⟨fun s slot q a value mask cmp guard pa attr t hs hm hw ht ha hacc => ⟨fun hc => ?_, fun hc => ?_⟩,
    fun s id node g q i hg hq hm hf hs hd hc hn hsucc hall => ?_,
    fun g i j hi hj hn k hij hk => ⟨nodeDone_counts hj hn hij hk, fun st hst => ?_⟩,
    fun s slot q hs hm hl => ⟨fun hb h32 hlo hhi => ?_, fun hb hw hf => ?_, fun hb hf => ?_⟩,
    fun s f i hf hi hr hm hk => ⟨fun he => ?_, fun he hfr hok => ?_, fun he hok hfr hp => ?_⟩,
    fun s f gang i k ht hp hb hw hq hk hl hbad ho => ?_, fun s f i q hq => ⟨fun he htorn => ?_, fun u p h hu hp hs => ?_⟩,
    fun s q p h => teardownBegin_marks h, fun s f i => teardownEnd_over f i s⟩
  · exact (exec_waitReread ..).trans (congrArg Host.Outcome.next ((reread_plain hs hm hw ht).trans (feRun_ok (rereadWait_holds ha hacc hc))))
  · exact (exec_waitReread ..).trans (congrArg Host.Outcome.next ((reread_plain hs hm hw ht).trans (feRun_ok (rereadWait_fails ha hacc hc))))
  · exact (exec_graphNodeComplete ..).trans (congrArg Host.Outcome.next (graphAdvance_last hg hq hm hf hs hd hc hn hsucc hall))
  · obtain ⟨hl, -⟩ := List.getElem?_eq_some_iff.mp hk
    exact nodeDone_aborts hi hj hl hst
  · obtain ⟨p, hp, hw, hr⟩ := wptrPoll_moves hs hm hl hb h32 hlo hhi
    exact ⟨_, p, exec_wptrPoll .., hp, hw, hr⟩
  · obtain ⟨hfn, -, -, -, hloc, hwa, hwp, hr, hlog, -⟩ := polled_fields q
    refine (exec_wptrPoll ..).trans (congrArg Host.Outcome.next (wptrPoll_fails hs hm (pollWptr_wrong (hloc.trans hl) ?_ ?_) hf))
    · rw [hfn, hwa]
      exact hb
    · rw [hfn, hwa, hwp, hr, hlog]
      exact hw
  · obtain ⟨hfn, -, -, -, hloc, hwa, -⟩ := polled_fields q
    refine (exec_wptrPoll ..).trans (congrArg Host.Outcome.next (wptrPoll_fails hs hm (pollWptr_bad (hloc.trans hl) ?_) hf))
    rw [hfn, hwa]
    exact hb
  · exact (exec_unmappedQueuePoll ..).trans (congrArg Host.Outcome.next (pollUnmapped_disabled he))
  · exact (exec_unmappedQueuePoll ..).trans (congrArg Host.Outcome.next (pollUnmapped_refuses hf hi hr hm he hfr hok))
  · exact ⟨_, exec_unmappedQueuePoll .., pollUnmapped_waits hf hi hr hm hk he hfr hok hp⟩
  · obtain ⟨j, hk', hne⟩ := mapQueue_slots
      (s := modFe (fun x => { x with gangAges := x.gangAges.filter fun a => !(a.fn == f && a.gang == gang) }) s)
      (q := newQueue s f i (descOf s f i) (hostPeek s f (descOf s f i).rptr 8)) ho
    refine ⟨_, j, (exec_gangMap ..).trans (congrArg Host.Outcome.next (gangMap_one ht hp hb hw hq hk hl hbad)), hk', fun j hj => ?_⟩
    exact hne j hj
  · rw [exec_queueTeardown]
    unfold execQueueTeardown
    simp only [hq, he, htorn, Bool.not_false, Bool.and_self, ↓reduceIte]
  · have hq' : isQ f i q = true := List.find?_some (p := isQ f i) hq
    have hno : (descEn (descOf s f i) && !q.torn) = false := by
      rcases h with h | h <;> simp [h]
    rw [exec_queueTeardown]
    unfold execQueueTeardown
    simp only [hq, hno, Bool.false_eq_true, ↓reduceIte]
    exact congrArg Host.Outcome.next (teardown_ends hq' hu hp hs)

end Sys2Proof
end

section
set_option Elab.async false
/-! Firings begin and are moved: sweeps, FIFOs, messages, placement, saves and restores (R134, R141 to R169, R176, R488). -/
namespace Sys2Proof.Machine

/-! ### Sweeps (R141 to R146, R488) -/

section
variable {s t u : State} {core id : Nat} {w : Sweep}

theorem acceptWake_held {rest : List Nat} (hw : (coreOf s core).wakes = id :: rest) (hs : (coreOf s core).share.isSome = true) :
    acceptWake core s = s := by
  unfold acceptWake
  simp only [hw, hs, Bool.true_or, ↓reduceIte]
/-- A core without a share that reads the record of its oldest wake. -/
theorem acceptWake_reads {rest : List Nat} (hw : (coreOf s core).wakes = id :: rest) (hp : wakeParked s core = false)
    (hs : (coreOf s core).share = none) (hf : s.fe.sweeps.find? (·.id == id) = some w) {n : Nat}
    (hh : wakeHeld core w (hdrWord w.header 3) s = (n, t)) : acceptWake core s =
      (if n == 1 then t
      else if n == 2 then failShare core w t
      else match readActor t w.asid w.fn (hdrWord w.header 3) with
      | (.error (3, _), s) => failShare core w s
      | (.error (c, l), s) => openFault (mkFault s w.asid (hdrWord w.header 3) c l 0 (kRead ||| kEngine) false) (.wake core) s
      | (.ok none, s) => failShare core w s
      | (.ok (some a), s) => enumShare core 57 (modCore core (fun k => { k with
          wakes := rest
          share := some { sweep := id, actor := a, group := core - hdrFirst w.header
                          nextId := (core - hdrFirst w.header) * 2 ^ hdrShift w.header (hdrPlace w.header) } })
          (writeLaunch core w s))) := by
  unfold acceptWake
  simp only [hw, hs, hp, hf, hh, Option.isSome_none, Bool.or_self, Bool.false_eq_true, ↓reduceIte] <;> rfl

theorem sweepSignal_open (hf : s.fe.sweeps.find? (·.id == id) = some w) (h : w.reports.length < hdrP w.header) :
    execSweepSignal id s = .next s := by
  unfold execSweepSignal
  simp only [hf, h, ↓reduceIte]
theorem sweepSignal_over (hf : s.fe.sweeps.find? (·.id == id) = some w) (h : hdrP w.header ≤ w.reports.length) :
    execSweepSignal id s = .next (completePacket w.serial (if ∃ r ∈ w.reports, r.2 = stFailed then stFailed
      else if ∃ r ∈ w.reports, r.2 = stAborted then stAborted else stDone) (modGrp (fun g => { g with
        episodes := g.episodes.filter fun e => e.sweep != id }) (modFe (fun f => { f with
        sweeps := f.sweeps.filter fun x => x.id != id }) s))) := by
  unfold execSweepSignal
  simp only [hf, show ¬ w.reports.length < hdrP w.header by omega, ↓reduceIte, List.any_eq_true, beq_iff_eq]

end

/-! ### Placement (R134, R152, R158 to R161) -/

section
variable {s : State} {core : Nat}

@[simp] theorem noteStall_ctxs (core : Nat) (s : State) : (noteStall core s).ctxs = s.ctxs := by
  unfold noteStall
  dsimp only
  split_ifs <;> rfl
@[simp] theorem l1Acquire_ctxs (core : Nat) (s : State) : (l1Acquire core s).ctxs = s.ctxs := rfl
theorem placed_ctx (core : Nat) (x : Ctx) (c : Nat) (a : Actor) (s : State) :
    ctxOf (l1Acquire core (noteStall core (dirtyRange a core (setCtx s c x)))) c = x := by
  rw [ctxOf_congr (l1Acquire_ctxs ..), ctxOf_congr (noteStall_ctxs ..)]
  exact ctxOf_setCtx ..

/-- The start registers are written into the context, as far as its allotment goes. -/
def putStart (cch : Nat) (x : Ctx) (r : Nat × Cap) : Ctx := if r.1 < 8 * cch then writeG x r.1 r.2 else x
/-- What the start registers leave of a context. -/
theorem putStarts_frame (cch : Nat) (rs : List (Nat × Cap)) (x : Ctx) : (rs.foldl (putStart cch) x).st = x.st ∧
    (rs.foldl (putStart cch) x).pc = x.pc ∧ (rs.foldl (putStart cch) x).asid = x.asid ∧ (rs.foldl (putStart cch) x).m = x.m ∧
    (rs.foldl (putStart cch) x).fir = x.fir := by
  induction rs generalizing x with
  | nil => exact ⟨rfl, rfl, rfl, rfl, rfl⟩
  | cons r rs ih =>
    obtain ⟨hst, hpc, has, hm, hf⟩ := ih (putStart cch x r)
    have hx : (putStart cch x r).st = x.st ∧ (putStart cch x r).pc = x.pc ∧ (putStart cch x r).asid = x.asid ∧
        (putStart cch x r).m = x.m ∧ (putStart cch x r).fir = x.fir := by
      unfold putStart writeG
      split_ifs <;> exact ⟨rfl, rfl, rfl, rfl, rfl⟩
    obtain ⟨hst', hpc', has', hm', hf'⟩ := hx
    exact ⟨hst.trans hst', hpc.trans hpc', has.trans has', hm.trans hm', hf.trans hf'⟩

/-- A start register that the allotment holds reads as what it was given. -/
theorem readG_putStarts_ne {cch r : Nat} {rs : List (Nat × Cap)} (h : ∀ e ∈ rs, e.1 ≠ r) (x : Ctx) :
    readG (rs.foldl (putStart cch) x) r = readG x r := by
  induction rs generalizing x with
  | nil => rfl
  | cons e rs ih =>
    refine (ih (fun e he => h e (List.mem_cons_of_mem _ he)) _).trans ?_
    unfold putStart
    split
    · exact readG_writeG_ne x e.2 (Ne.symm (h e List.mem_cons_self))
    · rfl
theorem readG_putStarts {cch r : Nat} {v : Cap} {rs : List (Nat × Cap)} (hn : (rs.map Prod.fst).Nodup) (h : (r, v) ∈ rs) (h0 : r ≠ 0)
    (hr : r < 8 * cch) (x : Ctx) : readG (rs.foldl (putStart cch) x) r = v := by
  induction rs generalizing x with
  | nil => exact absurd h List.not_mem_nil
  | cons e rs ih =>
    rw [List.map_cons, List.nodup_cons] at hn
    obtain ⟨he, hn⟩ := hn
    rcases List.mem_cons.mp h with rfl | h
    · refine (readG_putStarts_ne (fun e' he' heq => he (List.mem_map.mpr ⟨e', he', heq⟩)) _).trans ?_
      rw [putStart, if_pos hr]
      exact readG_writeG x v h0
    · exact ih hn h _

/-- The context of a firing before its start registers are written (R134). -/
def freshCtx (core j : Nat) (f : Firing) (line : Nat) (s : State) : Ctx :=
  { idleCtx (ctxOf s (core * 8 + j)) with
    st := .ready
    gen := BitVec.ofNat 8 (nextGen s core j 255 (((ctxOf s (core * 8 + j)).gen.toNat + 1) % 256))
    asid := f.asid
    pc := ⟨line, 1⟩
    m := [(0, 0xFFFFFFFF)]
    dirtyG := (List.range (8 * f.cch)).tail.map fun r => (r, true)
    dirtyV := (List.range (4 * f.vch)).map fun r => (r, true)
    fir := some { f with handle := mkHandle s.dev core j (nextGen s core j 255 (((ctxOf s (core * 8 + j)).gen.toNat + 1) % 256)) } }
/-- The core after a placement has taken its chunks. -/
def chunksTaken (core j : Nat) (f : Firing) (s : State) : State :=
  modCore core (fun k => { k with
    poolC := k.poolC - (f.cch - (if j == 7 then 2 else 1))
    poolV := k.poolV - (f.vch - (if j == 7 then 1 else 0)) }) s
theorem placeFir_eq (core j : Nat) (f : Firing) (given : List (Nat × Cap)) (line : Nat) (s : State) : placeFir core j f given line s =
    l1Acquire core (noteStall core (dirtyRange f.actor core (setCtx (chunksTaken core j f s) (core * 8 + j)
      ((startRegs s core f given).foldl (putStart f.cch) (freshCtx core j f line s))))) := by
  unfold placeFir chunksTaken
  by_cases h : (j == 7) = true
  · simp only [h, ↓reduceIte]
    rfl
  · simp only [h, Bool.false_eq_true, ↓reduceIte]
    rfl
theorem ctxOf_placeFir (core j : Nat) (f : Firing) (given : List (Nat × Cap)) (line : Nat) (s : State) :
    ctxOf (placeFir core j f given line s) (core * 8 + j) = (startRegs s core f given).foldl (putStart f.cch) (freshCtx core j f line s) := by
  rw [placeFir_eq]
  exact placed_ctx ..
theorem placeFir_starts (core j : Nat) (f : Firing) (given : List (Nat × Cap)) (line : Nat) (s : State) :
    (ctxOf (placeFir core j f given line s) (core * 8 + j)).st = .ready ∧
    (ctxOf (placeFir core j f given line s) (core * 8 + j)).pc = ⟨line, 1⟩ ∧
    (ctxOf (placeFir core j f given line s) (core * 8 + j)).asid = f.asid ∧
    readM (ctxOf (placeFir core j f given line s) (core * 8 + j)) 0 = 0xFFFFFFFF ∧
    (ctxOf (placeFir core j f given line s) (core * 8 + j)).fir = (freshCtx core j f line s).fir := by
  rw [ctxOf_placeFir]
  obtain ⟨hst, hpc, has, hm, hf⟩ := putStarts_frame f.cch (startRegs s core f given) (freshCtx core j f line s)
  exact ⟨hst, hpc, has, by rw [readM, hm]; rfl, hf⟩
/-- A placement keeps what the core holds beside its pools, its L1 and its stall. -/
theorem coreOf_placeFir (core j : Nat) (f : Firing) (given : List (Nat × Cap)) (line : Nat) (s : State) :
    (coreOf (placeFir core j f given line s) core).share = (coreOf s core).share ∧
    (coreOf (placeFir core j f given line s) core).fq = (coreOf s core).fq ∧
    (coreOf (placeFir core j f given line s) core).spctl = (coreOf s core).spctl := by
  have hstall (t : State) : (coreOf (noteStall core t) core).share = (coreOf t core).share ∧ (coreOf (noteStall core t) core).fq =
      (coreOf t core).fq ∧ (coreOf (noteStall core t) core).spctl = (coreOf t core).spctl := by
    unfold noteStall
    dsimp only
    split_ifs <;> simp
  have hacq (t : State) : (coreOf (l1Acquire core t) core).share = (coreOf t core).share ∧ (coreOf (l1Acquire core t) core).fq =
      (coreOf t core).fq ∧ (coreOf (l1Acquire core t) core).spctl = (coreOf t core).spctl := by
    unfold l1Acquire
    simp
  have hdirty (t : State) : (coreOf (dirtyRange f.actor core t) core).share = (coreOf t core).share ∧
      (coreOf (dirtyRange f.actor core t) core).fq = (coreOf t core).fq ∧
      (coreOf (dirtyRange f.actor core t) core).spctl = (coreOf t core).spctl := by
    unfold dirtyRange
    rw [coreOf_modCore]
    exact ⟨rfl, rfl, rfl⟩
  rw [placeFir_eq]
  generalize (startRegs s core f given).foldl (putStart f.cch) (freshCtx core j f line s) = x
  obtain ⟨h1, h2, h3⟩ := hacq (noteStall core (dirtyRange f.actor core (setCtx (chunksTaken core j f s) (core * 8 + j) x)))
  obtain ⟨h4, h5, h6⟩ := hstall (dirtyRange f.actor core (setCtx (chunksTaken core j f s) (core * 8 + j) x))
  obtain ⟨h7, h8, h9⟩ := hdirty (setCtx (chunksTaken core j f s) (core * 8 + j) x)
  have htaken : (coreOf (chunksTaken core j f s) core).share = (coreOf s core).share ∧
      (coreOf (chunksTaken core j f s) core).fq = (coreOf s core).fq ∧
      (coreOf (chunksTaken core j f s) core).spctl = (coreOf s core).spctl := by
    unfold chunksTaken
    rw [coreOf_modCore]
    exact ⟨rfl, rfl, rfl⟩
  rw [h1, h2, h3, h4, h5, h6, h7, h8, h9]
  exact htaken

theorem refill_empty {n : Nat} (h : spCount (coreOf s core).spctl = 0) : refill core n s = s := by
  cases n with
  | zero => rfl
  | succ n =>
    unfold refill
    simp only [h, beq_self_eq_true, ↓reduceIte]
theorem enumShare_none {n : Nat} (h : (coreOf s core).share = none) : enumShare core n s = s := by
  cases n with
  | zero => rfl
  | succ n =>
    unfold enumShare
    simp only [h]

/-- The state in which a message is taken from its queue. -/
def messageTaken (core : Nat) (s : State) : State := setCore s core { coreOf s core with inbound := (coreOf s core).inbound.tail }
theorem firingPlace_message {m : Msg} {rest : List Msg} (hc : computeCore s core = true) (hsp : spCount (coreOf s core).spctl = 0)
    (hm : (coreOf s core).inbound = m :: rest) (hq : (coreOf s core).fq = []) (hs : (coreOf s core).share = none)
    (hr : (stripOf s (stripNo core)).remap = none) (hst : (ctxOf s (core * 8 + 7)).st = .free) (hf : (ctxOf s (core * 8 + 7)).fir = none) :
    execFiringPlace core s = .next (placeFir core 7 (msgFiring m) (msgRegs s core m) m.line (messageTaken core s)) := by
  have hfree : ((stripOf s (stripNo core)).remap.isNone && (ctxOf s (core * 8 + 7)).st == .free && (ctxOf s (core * 8 + 7)).fir.isNone) = true := by
    rw [hr, hst, hf]
    rfl
  have hplace : placeMsg core s = placeFir core 7 (msgFiring m) (msgRegs s core m) m.line (messageTaken core s) := by
    unfold placeMsg messageTaken
    simp only [hfree, hm, Bool.not_true, Bool.false_eq_true, ↓reduceIte, List.tail_cons]
  obtain ⟨hshare, hfq, hspc⟩ := coreOf_placeFir core 7 (msgFiring m) (msgRegs s core m) m.line (messageTaken core s)
  rw [messageTaken, coreOf_setCore] at hshare hfq hspc
  unfold execFiringPlace
  rw [hc, refill_empty hsp, hplace, refill_empty (by rw [messageTaken, hspc]; exact hsp)]
  have hhead : queueHead (placeFir core 7 (msgFiring m) (msgRegs s core m) m.line (messageTaken core s)) core = none := by
    unfold queueHead
    rw [messageTaken, hfq, hq]
    rfl
  simp only [hhead, Bool.not_true, Bool.false_eq_true, ↓reduceIte]
  rw [enumShare_none (by rw [messageTaken, hshare]; exact hs)]

/-- The start registers of a message are twelve different ones. -/
theorem msgRegs_nodup {m : Msg} (hl : m.payload.length = 8) : ((msgRegs s core m).map Prod.fst).Nodup := by
  have hz : (m.payload.zipIdx.map fun e => 4 + e.2) = (List.range 8).map (4 + ·) := by
    rw [← hl, List.range_eq_range', ← List.zipIdx_map_snd 0 m.payload, List.map_map]
    rfl
  have hkeys : (msgRegs s core m).map Prod.fst = [1, 2, 3] ++ (List.range 8).map (4 + ·) ++ [12] := by
    rw [← hz]
    simp [msgRegs, Function.comp_def]
  rw [hkeys]
  decide
theorem firingPlace_queue {j : Nat} {q : QFiring} (hc : computeCore s core = true) (hsp : spCount (coreOf s core).spctl = 0)
    (hm : (coreOf s core).inbound = []) (hs : (coreOf s core).share = none) (hq : queueHead s core = some q) (hr : q.restoreTo = none)
    (hch : q.fir.actor.checked = false) (hp : freePlace s core = some j) (hpl : placeable s core q.fir.cch q.fir.vch = true) :
    execFiringPlace core s = .next (modCore core (fun k => { k with fq := k.fq.erase q })
      (placeFir core j q.fir q.starts (CapF.addr q.fir.actor.code) s)) := by
  have hplace : placeMsg core s = s := by
    unfold placeMsg
    simp only [hm]
    split <;> rfl
  obtain ⟨hshare, -, -⟩ := coreOf_placeFir core j q.fir q.starts (CapF.addr q.fir.actor.code) s
  unfold execFiringPlace
  rw [hc, refill_empty hsp, hplace, refill_empty hsp]
  simp only [hq, hr, Bool.not_true, Bool.false_eq_true, ↓reduceIte, Option.isSome_none]
  unfold placeQueued
  simp only [hp, hpl, hch, Bool.not_true, Bool.not_false, Bool.false_eq_true, ↓reduceIte]
  rw [enumShare_none]
  rw [coreOf_modCore]
  exact hshare.trans hs

end

/-! ### FIFOs (R147 to R150) -/

section
variable {s : State} {core b : Nat}

theorem fifoFire_queues (hb : b < 16) (hc : computeCore s core = true) (hr : fifoRule s core b = true) : ∃ q,
    execFifoFire core b s = .next (modCore core (fun k => { k with fq := k.fq ++ [q] }) s) ∧ q.fir.path = .fifo b ∧
      q.fir.actor = bindingActor s core b ∧ q.starts = [(1, Cap.ofInt (BitVec.ofNat 64 (SMap.get 0 (coreOf s core).bindCount b)))] :=
  ⟨_, congrArg Host.Outcome.next (if_pos (by simp [hb, hc, hr])), rfl, rfl, rfl⟩

end

/-! ### Messages (R151 to R157) -/

section
variable {s : State} {core idx : Nat} {m : Msg}

section
variable (hn : netAt s idx = some (.msg core m))
include hn

theorem messageArrival_moving (hf : (stripOf s (stripNo core)).fenced = true) : execMessageArrival idx s = .next (match m.from_ with
    | some (w, seq) => refusePkt w seq 2 (netTake idx s)
    | none => s) := by
  unfold execMessageArrival
  simp only [hn, hf, ↓reduceIte] <;> rfl
theorem messageArrival_returned (hf : (stripOf s (stripNo core)).fenced = false)
    (hu : computeCore s core = false ∨ (m.reply = true ∧ liveHandle s m.target.toNat = false)) :
    execMessageArrival idx s = .next (undeliverable core m (netTake idx s)) := by
  have hret : (!computeCore s core || (m.reply && !liveHandle s m.target.toNat)) = true := by
    rcases hu with h | ⟨h, h'⟩
    · simp [h]
    · simp [h, h']
  unfold execMessageArrival
  simp only [hn, hf, hret, Bool.false_eq_true, ↓reduceIte]
theorem messageArrival_queued (hf : (stripOf s (stripNo core)).fenced = false) (hc : computeCore s core = true)
    (hl : m.reply = true → liveHandle s m.target.toNat = true) (hsp : spCount (coreOf s core).spctl = 0)
    (hr : inboundRoom (coreOf s core) m.reply = true) (hm : m.from_ = none) : execMessageArrival idx s =
      .next (netTake idx (setCore s core { coreOf s core with inbound := (coreOf s core).inbound ++ [m] })) := by
  have hstay : (!computeCore s core || (m.reply && !liveHandle s m.target.toNat)) = false := by
    rw [hc, Bool.not_true, Bool.false_or]
    cases hrep : m.reply
    · rfl
    · rw [hl hrep]
      rfl
  have henq : enqueueMsg core m s = some (setCore s core { coreOf s core with inbound := (coreOf s core).inbound ++ [m] }) :=
    if_pos (by rw [hsp, hr]; rfl)
  unfold execMessageArrival
  simp only [hn, hf, hstay, henq, hm, Bool.false_eq_true, ↓reduceIte]

end

theorem msgLeaves_first (hi : s.net[idx]? = some (.msg core m)) (ho : (s.net.take idx).all (fun x => match x with
      | .msg _ y => handleCore y.sender != handleCore m.sender
      | _ => true) = true) :
    msgLeaves idx s = { s with net := s.net.set idx (.msg core { m with left := true }) } := by
  unfold msgLeaves
  simp only [hi]
  refine if_neg ?_
  rw [List.any_eq_true]
  rintro ⟨x, hx, hsame⟩
  have hall := List.all_eq_true.mp ho x hx
  cases x with
  | msg c y =>
    simp only [Bool.and_eq_true, beq_iff_eq] at hsame
    simp [hsame.2] at hall
  | _ => exact Bool.false_ne_true hsame

theorem returnTo_placed {sender asid : Nat} {target : W64} (h : placedHandle s sender = true) : returnTo sender target asid s =
    endWait (handleCid sender) (modFir (handleCid sender) (fun f => { f with undelivered := f.undelivered ++ [target] }) s) := by
  unfold returnTo
  simp only [h, ↓reduceIte]

end

/-! ### The stall of a core and its pre-emption (R159, R162, R166) -/

section
variable {s : State} {core : Nat}

theorem growstall_idle (h : (coreOf s core).stallSince = none) : execGrowstall core s = .next s := by
  unfold execGrowstall
  simp only [h, Option.any_none, Bool.false_and, Bool.false_eq_true, ↓reduceIte]
theorem growstall_posts {c : Nat} (h : (coreOf s core).stallSince = some c) (hc : c + 2 ^ 20 ≤ s.cyc)
    (hp : (coreOf s core).stallPosted = false) : execGrowstall core s = .next (supRecord { code := 0x41, source := 0, unit := core }
      (modCore core (fun k => { k with stallPosted := true }) s)) := by
  have hany : ((coreOf s core).stallSince.any fun t => t + 2 ^ 20 ≤ s.cyc) = true := by
    rw [h, Option.any_some, decide_eq_true_iff]
    exact hc
  have hdue : (((coreOf s core).stallSince.any fun t => t + 2 ^ 20 ≤ s.cyc) && !(coreOf s core).stallPosted) = true := by
    rw [hany, hp]
    exact Bool.and_self true
  unfold execGrowstall
  dsimp only
  rw [if_pos hdue]
theorem noteStall_begins (hg : growStalled s core = true) (h : (coreOf s core).stallSince = none) :
    (coreOf (noteStall core s) core).stallSince = some s.cyc := by
  unfold noteStall
  simp [hg, h]
theorem noteStall_ends (hg : growStalled s core = false) : (coreOf (noteStall core s) core).stallSince = none := by
  unfold noteStall
  cases h : (coreOf s core).stallSince <;> simp [hg, h]

section
variable {j : Nat} (hs : (coreOf s core).slot = some j)
  (hw : (ctxOf s (core * 8 + j)).wait = .none ∨ ∃ p, (ctxOf s (core * 8 + j)).wait = .walk p) (hl : (firOf s (core * 8 + j)).lens = none)
include hs hw hl

theorem slotLimit_due : execSlotLimitExpiry core s =
    .next (if (coreOf s core).slotSince + 4096 ≤ s.cyc then markerPark (core * 8 + j) s else s) := by
  unfold execSlotLimitExpiry
  rcases hw with h | ⟨p, h⟩ <;> simp [hs, h, hl]

end

/-- A stop leaves the context SAVING. -/
theorem ctxOf_stopNow (c : Nat) (s : State) : (ctxOf (stopNow c s) c).st = .saving := by
  unfold stopNow
  dsimp only
  rw [ctxOf_congr (noteStall_ctxs ..), ctxOf_modCtx]
theorem preempt_stops {c : Nat} (hm : mayPreempt s c = true) (hs : stoppable s c = true) : (ctxOf (preempt c s) c).st = .saving := by
  have hmay := hm
  simp only [mayPreempt, Bool.and_eq_true, Option.isNone_iff_eq_none] at hm
  obtain ⟨⟨⟨⟨-, -⟩, hnone⟩, -⟩, -⟩ := hm
  have hasked : stoppable (askSave c false none s) c = true := hs
  simp only [stoppable, Bool.and_eq_true, Option.isSome_iff_exists, bne_iff_ne, ne_eq] at hs
  obtain ⟨⟨⟨⟨⟨⟨f, hf⟩, hst⟩, -⟩, -⟩, -⟩, -⟩ := hs
  have hfir : firOf s c = f := by rw [firOf, hf]; rfl
  have hsave : (saveOf (askSave c false none s) c).isNone = false := by
    rw [Option.isNone_eq_false_iff, saveOf, askSave, coreOf_modCore, List.find?_isSome]
    refine ⟨_, List.mem_append.mpr (.inr (List.mem_singleton_self _)), ?_⟩
    show (c == c && (ctxOf s c).fir.any fun g => g.handle == (firOf s c).handle) = true
    rw [hf, hfir]
    simp
  have hst' : ((ctxOf (askSave c false none s) c).st == .saving) = false := by
    show ((ctxOf s c).st == .saving) = false
    simpa using hst
  unfold preempt
  simp only [hnone, hmay, ↓reduceIte]
  unfold tryStop
  simp only [hsave, hst', hasked, Bool.or_self, Bool.false_eq_true, ↓reduceIte]
  exact ctxOf_stopNow c _

end

/-! ### Queue age, saves and neighbour writes (R161, R168, R169) -/

section
variable {s : State}

theorem priorityAgeing_due {core i : Nat} {q : QFiring} (h : (coreOf s core).fq[i]? = some q) (hd : q.enq + 2 ^ 20 ≤ s.cyc)
    (hp : q.fir.prio < 3) : execPriorityAgeing core i s = .next (modCore core (fun k => { k with
      fq := k.fq.set i { q with enq := s.cyc, fir := { q.fir with prio := q.fir.prio + 1 } } }) s) := by
  have hdue : (decide (q.enq + 2 ^ 20 ≤ s.cyc) && decide (q.fir.prio < 3)) = true := by
    rw [Bool.and_eq_true, decide_eq_true_iff, decide_eq_true_iff]
    exact ⟨hd, hp⟩
  unfold execPriorityAgeing
  simp only [h]
  rw [if_pos hdue]
theorem priorityAgeing_young {core i : Nat} {q : QFiring} (h : (coreOf s core).fq[i]? = some q) (hd : s.cyc < q.enq + 2 ^ 20) :
    execPriorityAgeing core i s = .next s := by
  have hyoung : ¬ (decide (q.enq + 2 ^ 20 ≤ s.cyc) && decide (q.fir.prio < 3)) = true := by
    rw [Bool.and_eq_true, decide_eq_true_iff, decide_eq_true_iff, not_and_or]
    exact .inl (Nat.not_le_of_lt hd)
  unfold execPriorityAgeing
  simp only [h]
  rw [if_neg hyoung]

theorem restore_reads {core : Nat} {q : QFiring} {v : Saved} {t : State} (hq : queueHead s core = some q) (hr : q.restoreTo.isSome = true)
    (hc : computeCore s core = true) (hv : (coreOf s core).saved.find? (fun v => v.fir.handle == q.fir.handle) = some v)
    (hcomp : v.complete = true) (hpark : v.parked = false) (hpl : placeable s core v.fir.cch v.fir.vch = true)
    (hu : v.units.length ≤ unitsFree s core) (hp : v.paired = false) (hread : readImage v s = .ok () t) :
    execRestore core s = .next t := by
  unfold execRestore
  simp only [hq, hr, hc, Bool.and_self, ↓reduceIte]
  unfold restoreHead
  simp only [hv, hcomp, hpark, hpl, hu, hp, hread, decide_true, Bool.not_true, Bool.not_false, Bool.and_self, Bool.false_and,
    Bool.false_eq_true, ↓reduceIte]

section
variable {idx cid handle reg sender : Nat} {isV : Bool} {cap : Cap} {vec : VReg}

section
variable (hn : netAt s idx = some (.nwrite cid handle isV reg cap vec sender))
include hn

theorem neighbourWrite_retired (hr : retiredCore s (coreNo cid) = true) :
    execNeighbourWriteArrival idx s = .next (returnWrite (coreNo cid) handle sender (netTake idx s)) := by
  unfold execNeighbourWriteArrival
  simp only [hn, hr, ↓reduceIte]
theorem neighbourWrite_arrives (hr : retiredCore s (coreNo cid) = false) (hs : savedOf s handle = none) :
    execNeighbourWriteArrival idx s = .next (if placedHandle s handle && handleCid handle == cid then
        placedWrite cid isV reg cap vec handle sender (netTake idx s)
      else returnWrite (coreNo cid) handle sender (netTake idx s)) := by
  unfold execNeighbourWriteArrival
  simp only [hn, hr, hs, Bool.false_eq_true, ↓reduceIte]

end

section
variable {c : Nat} (ha : (if isV then allotV c (ctxOf s c) reg else allotG c (ctxOf s c) reg) = true)
  (hm : SMap.get false (if isV then (ctxOf s c).armV else (ctxOf s c).armG) reg = false)
include ha hm

theorem placedWrite_holds (hl : (ctxOf s c).hold.length < 4) : (ctxOf (placedWrite c isV reg cap vec handle sender s) c).hold =
    (ctxOf s c).hold ++ [{ isV := isV, reg := reg, sender := sender, cap := cap, vec := vec }] := by
  unfold placedWrite
  simp only [ha, hm, show ¬ 4 ≤ (ctxOf s c).hold.length by omega, Bool.not_true, Bool.false_eq_true, ↓reduceIte, ctxOf_modCtx]
  rfl
theorem placedWrite_full (hl : 4 ≤ (ctxOf s c).hold.length) :
    placedWrite c isV reg cap vec handle sender s = returnWrite (coreNo c) handle sender s := by
  unfold placedWrite
  simp only [ha, hm, hl, Bool.not_true, Bool.false_eq_true, ↓reduceIte]

end

end

end

end Sys2Proof.Machine

namespace Sys2Proof
open Machine

/-- Settles O49: each event in the cases of its guard; a placement register by register. -/
theorem firingsBeginAndAreMoved : Obligations.FiringsBeginAndAreMoved := by
  refine ⟨fun id s w hf => ⟨fun h => ?_, fun h st hst => ?_⟩, fun core id rest s w n t hw hp hf hh => ⟨fun hs => ?_, fun hs => ⟨fun hn => ?_,
      fun hn => ?_, fun u hn hr => ?_, fun a u hn hr => ?_⟩⟩, fun core s m rest => ?_, ?_, ?_, fun core b s hb hc => ⟨fun hr => ?_, fun hr => ?_⟩,
    fun idx src core fifo bytes owner s hn => ?_, fun idx core consumer fifo n b k s hn hp => ?_, fun core e v s => ⟨fun he => ?_, fun he => ?_⟩,
    fun idx core m s hn => ⟨fun hf hm => ?_, fun w seq hf hm => ?_, fun hf hu => ?_, fun hf hc hl hsp hr hm => ?_⟩,
    fun idx core m s hi ho => msgLeaves_first hi ho, fun idx src st sender target line quiet asid packet s hn => ⟨fun p hp => ?_,
      fun hp hq hlt hpl => ?_, fun hp hq hge => ?_⟩, fun core i q s h => ⟨fun hd hp => ?_, fun hd => ?_⟩,
    fun core s => ⟨fun h => ?_, fun c h hc hp => ?_, fun hg h => noteStall_begins hg h, fun hg => noteStall_ends hg⟩,
    fun core j s hs hw hl => ⟨fun hd => ?_, fun hd => ?_⟩, fun cid s => ⟨fun hn hm => ?_, fun hm hs => ⟨_, exec_preempt .., preempt_stops hm hs⟩⟩,
    fun cid v s hv => ⟨fun h => ?_, fun hw hc => ?_⟩, fun core q v s t hq hr hc hv hcomp hpark hpl hu hp hread => ?_,
    fun idx cid handle isV reg cap vec sender s hn => ⟨fun hr => ?_, fun hr hs => ⟨fun hpl hcid => ?_, fun hpl => ?_⟩⟩,
    fun c isV reg cap vec handle sender s => ?_⟩
  · exact (exec_sweepSignal ..).trans (sweepSignal_open hf h)
  · subst hst
    exact (exec_sweepSignal ..).trans (sweepSignal_over hf h)
  · exact (exec_sweepWakeAccept ..).trans (congrArg Host.Outcome.next (acceptWake_held hw hs))
  · subst hn
    exact (exec_sweepWakeAccept ..).trans (congrArg Host.Outcome.next (acceptWake_reads hw hp hs hf hh))
  · subst hn
    exact (exec_sweepWakeAccept ..).trans (congrArg Host.Outcome.next (acceptWake_reads hw hp hs hf hh))
  · subst hn
    refine (exec_sweepWakeAccept ..).trans (congrArg Host.Outcome.next ((acceptWake_reads hw hp hs hf hh).trans ?_))
    rw [if_neg (by decide), if_neg (by decide), hr]
  · subst hn
    refine (exec_sweepWakeAccept ..).trans (congrArg Host.Outcome.next ((acceptWake_reads hw hp hs hf hh).trans ?_))
    rw [if_neg (by decide), if_neg (by decide), hr]
  · intro k hc hsp hm hq hs hr hst hf hl
    refine ⟨_, (exec_firingPlace ..).trans (firingPlace_message hc hsp hm hq hs hr hst hf), ?_⟩
    obtain ⟨hst, hpc, has, hmask, -⟩ := placeFir_starts core 7 (msgFiring m) (msgRegs s core m) m.line (messageTaken core s)
    have hread {r : Nat} {v : Cap} (h : (r, v) ∈ msgRegs s core m) (h0 : r ≠ 0) (h16 : r < 16) : readG (ctxOf (placeFir core 7 (msgFiring m)
        (msgRegs s core m) m.line (messageTaken core s)) (core * 8 + 7)) r = v := by
      rw [ctxOf_placeFir]
      exact readG_putStarts (cch := 2) (msgRegs_nodup hl) h h0 h16 _
    refine ⟨hst, hpc, has, hmask, hread (by simp [msgRegs]) (by decide) (by decide), hread (List.mem_append.mpr (.inl (List.mem_append.mpr (.inl (by simp [k]))))) (by decide) (by decide),
      hread (by simp [msgRegs]) (by decide) (by decide), fun i c hi => ?_, hread (by simp [msgRegs]) (by decide) (by decide)⟩
    obtain ⟨hi8, -⟩ := List.getElem?_eq_some_iff.mp hi
    refine hread (List.mem_append.mpr (.inl (List.mem_append.mpr (.inr (List.mem_map.mpr ⟨(c, i), ?_, rfl⟩))))) (by omega) (by omega)
    exact List.mk_mem_zipIdx_iff_getElem?.mpr hi
  · intro core j q s k hc hsp hm hs hq hr hch hp hpl
    exact (exec_firingPlace ..).trans (firingPlace_queue hc hsp hm hs hq hr hch hp hpl)
  · intro core j f given line s x
    obtain ⟨hst, hpc, has, hm, hf⟩ := placeFir_starts core j f given line s
    refine ⟨hst, hpc, has, hm, ?_⟩
    rw [show x.fir = _ from hf]
    simp [freshCtx]
  · exact (exec_fifoFire ..).trans (congrArg Host.Outcome.next (if_neg (by simp [hr])))
  · obtain ⟨q, he, hpath, hact, hstarts⟩ := fifoFire_queues hb hc hr
    exact ⟨_, q, (exec_fifoFire ..).trans he, congrArg CoreSt.fq (coreOf_modCore ..), hpath, hact, hstarts⟩
  · intro e fits
    rw [exec_fifoEntryArrival]
    unfold execFifoEntryArrival
    simp only [hn]
    refine ⟨fun h => congrArg Host.Outcome.next (if_neg ?_), fun h => congrArg Host.Outcome.next (if_pos ?_)⟩
    · show ¬ (!fits) = true
      simp [h]
    · show (!fits) = true
      simp [h]
  · rw [exec_creditReturn]
    unfold execCreditReturn
    simp only [hn, hp]
    rfl
  · exact (exec_fifoTableWrite ..).trans (congrArg Host.Outcome.next (if_pos he))
  · exact (exec_bindingWrite ..).trans (congrArg Host.Outcome.next (if_pos he))
  · exact (exec_messageArrival ..).trans ((messageArrival_moving hn hf).trans (by rw [hm]))
  · exact (exec_messageArrival ..).trans ((messageArrival_moving hn hf).trans (by rw [hm]))
  · exact (exec_messageArrival ..).trans (messageArrival_returned hn hf hu)
  · exact (exec_messageArrival ..).trans (messageArrival_queued hn hf hc hl hsp hr hm)
  · rw [exec_undeliverableReturn]
    unfold execUndeliverableReturn
    simp only [hn, hp]
  · rw [exec_undeliverableReturn]
    unfold execUndeliverableReturn
    simp only [hn, hp, hq, show ¬ 2 ^ 40 ≤ sender from Nat.not_le_of_lt hlt, ↓reduceIte]
    exact congrArg Host.Outcome.next (returnTo_placed hpl)
  · rw [exec_undeliverableReturn]
    unfold execUndeliverableReturn
    simp only [hn, hp, hq, hge, ↓reduceIte]
  · exact (exec_priorityAgeing ..).trans (priorityAgeing_due h hd hp)
  · exact (exec_priorityAgeing ..).trans (priorityAgeing_young h hd)
  · exact (exec_growstall ..).trans (growstall_idle h)
  · exact (exec_growstall ..).trans (growstall_posts h hc hp)
  · exact (exec_slotLimitExpiry ..).trans ((slotLimit_due hs hw hl).trans (by rw [if_pos hd]))
  · exact (exec_slotLimitExpiry ..).trans ((slotLimit_due hs hw hl).trans (by rw [if_neg (by omega)]))
  · rw [exec_preempt]
    unfold execPreempt preempt
    simp only [hn, hm, Bool.false_eq_true, ↓reduceIte]
  · rw [exec_saveComplete]
    unfold execSaveComplete
    simp only [hv]
    exact congrArg Host.Outcome.next (if_neg (by rcases h with h | h <;> simp [h]))
  · rw [exec_saveComplete]
    unfold execSaveComplete
    simp only [hv, hw, hc, Bool.not_false, Bool.and_self, ↓reduceIte]
  · exact (exec_restore ..).trans (restore_reads hq hr hc hv hcomp hpark hpl hu hp hread)
  · exact (exec_neighbourWriteArrival ..).trans (neighbourWrite_retired hn hr)
  · exact (exec_neighbourWriteArrival ..).trans ((neighbourWrite_arrives hn hr hs).trans (by simp [hpl, hcid]))
  · exact (exec_neighbourWriteArrival ..).trans ((neighbourWrite_arrives hn hr hs).trans (by simp [hpl]))
  · intro x ha hm
    exact ⟨placedWrite_holds ha hm, placedWrite_full ha hm⟩

end Sys2Proof
end

section
set_option Elab.async false
/-! Events of the memory system and of the engines: results, walks, stores, notices, replicas, streams, evictions, gangs, arrays, lenses,
pairs and copies (R164, R174 to R191, R211 to R220, R257, R290, R381, R457, R466). -/
namespace Sys2Proof.Machine

/-! ### Results (R174) -/

section
variable {s t : State} {cid idx : Nat} {p : Pend}

theorem performPieces_known (older : List Pend) {ps : List Piece} (h : ∀ q ∈ ps, q.known.isSome = true) (s : State) :
    performPieces cid older ps s = (ps, s) := by
  induction ps with
  | nil => rfl
  | cons q ps ih =>
    unfold performPieces
    simp only [h q List.mem_cons_self, Bool.true_or, ↓reduceIte, ih fun r hr => h r (List.mem_cons_of_mem _ hr)]
theorem performRmw_other (h : ∀ a red attr pl, p.fin ≠ .rmw a red attr pl) (s : State) : performRmw cid p s = (p, s) := by
  unfold performRmw
  split
  next a red attr pl he => exact absurd he (h a red attr pl)
  · rfl
theorem resultArrival_eq (hp : (ctxOf s cid).pend[idx]? = some p) (hk : ∀ q ∈ p.pieces, q.known.isSome = true)
    (hf : ∀ a red attr pl, p.fin ≠ .rmw a red attr pl) (ht : t = modCtx cid (fun x => { x with pend := x.pend.set idx p }) s) :
    execResultArrival cid idx s = .next (if arrives t cid p then wakeReleases (resultWakes cid
      (modCtx cid (fun x => { x with pend := x.pend.eraseIdx idx }) (deliverBoth cid p t))) else t) := by
  subst ht
  unfold execResultArrival
  simp only [hp, performRmw_other hf, performPieces_known _ hk]

theorem findSome_none {α β : Type} {f : α → Option β} {l : List α} (h : ∀ x ∈ l, f x = none) : l.findSome? f = none := by
  rwa [List.findSome?_eq_none_iff]
theorem deliverBoth_int {c r n : Nat} (hd : p.dst = .g r) (hf : p.fin = .int n false) (hb : ∀ q ∈ p.pieces, q.bad = none)
    (hp : partnerOf s c = none) : deliverBoth c p s =
      modCtx c (fun x => arriveG (writeG x r (Cap.ofInt (BitVec.ofNat 64 (piecesNat p.pieces)))) r) s := by
  unfold deliverBoth deliver deliverG
  simp only [hp, hd, hf, findSome_none hb, Bool.false_eq_true, ↓reduceIte]

/-! ### Walks (R290 to R293) -/

theorem mem_tlbKeep {unit : Nat} {e : TlbEntry} (hu : e.unit ≠ unit) (n : Nat) {es : List TlbEntry} (h : e ∈ es) : e ∈ tlbKeep unit n es := by
  induction es generalizing n with
  | nil => exact absurd h List.not_mem_nil
  | cons x es ih =>
    unfold tlbKeep
    split
    · exact (List.mem_cons.mp h).elim (fun he => List.mem_cons.mpr (.inl he)) fun he => List.mem_cons_of_mem _ (ih n he)
    next hx =>
      have hne : e ≠ x := fun he => hu (by simpa [← he] using hx)
      have hm := (List.mem_cons.mp h).resolve_left hne
      split
      · exact ih 0 hm
      · exact List.mem_cons_of_mem _ (ih _ hm)
/-- The TLBs of a unit hold a page. -/
def Installed (unit asid va size pa : Nat) (s : State) : Prop :=
  ∃ e ∈ s.tr.tlb, e.unit = unit ∧ e.asid = asid ∧ e.va = va ∧ e.size = size ∧ e.pa = pa
theorem tlbInstall_self (unit asid va size pa : Nat) (attr : W64) (s : State) :
    Installed unit asid va size pa (tlbInstall unit asid va size pa attr s) :=
  ⟨_, List.mem_cons_self, rfl, rfl, rfl, rfl, rfl⟩
theorem tlbInstall_keeps {unit asid va size pa : Nat} (unit' : Nat) (attr : W64) (h : Installed unit asid va size pa s) :
    Installed unit asid va size pa (tlbInstall unit' asid va size pa attr s) := by
  by_cases hu : unit = unit'
  · subst hu
    exact tlbInstall_self ..
  · obtain ⟨e, he, heu, hrest⟩ := h
    have hne : e.unit ≠ unit' := fun h => hu (heu.symm.trans h)
    refine ⟨e, List.mem_cons_of_mem _ (mem_tlbKeep hne _ (List.mem_filter.mpr ⟨he, ?_⟩)), heu, hrest⟩
    simp [hne]
theorem tlbInstalls_hold {w : Walk} {asid va size pa : Nat} {attr : W64} {ws : List Walk} (s : State)
    (h : w ∈ ws ∨ Installed w.unit asid va size pa s) :
    Installed w.unit asid va size pa (ws.foldl (fun s x => tlbInstall x.unit asid va size pa attr s) s) := by
  induction ws generalizing s with
  | nil => exact h.resolve_left List.not_mem_nil
  | cons x ws ih =>
    refine ih _ ?_
    rcases h with h | h
    · rcases List.mem_cons.mp h with rfl | h
      · exact .inr (tlbInstall_self ..)
      · exact .inl h
    · exact .inr (tlbInstall_keeps _ _ h)
theorem tlbInstalls_walks {asid va size pa : Nat} {attr : W64} (ws : List Walk) (s : State) :
    (ws.foldl (fun s x => tlbInstall x.unit asid va size pa attr s) s).tr.walks = s.tr.walks :=
  foldl_keeps (g := fun s => s.tr.walks) (f := fun s (x : Walk) => tlbInstall x.unit asid va size pa attr s) (fun _ _ => rfl) ..

section
variable {w : Walk} (hw : s.tr.walks[idx]? = some w)
include hw

theorem walkComplete_waits (hf : walkInFlight s idx w = false) : execTlbWalkComplete idx s = .next s := by
  unfold execTlbWalkComplete
  simp only [hw, hf, Bool.not_false, ↓reduceIte]
theorem walkComplete_leaf (hf : walkInFlight s idx w = true) {va size pa pte : Nat} {attr : W64}
    (ht : walkTable s w.asid (w.page * 4096) w.kind w.user = .leaf va size pa attr pte) (hlo : va ≤ w.page * 4096)
    (hhi : w.page * 4096 < va + size) (ha : leafAllows attr.toNat w.kind w.user = true) : ∃ t, execTlbWalkComplete idx s = .next t ∧
      w ∉ t.tr.walks ∧ Installed w.unit w.asid va size pa t := by
  have hcov : walkCovered w w va size attr = true := by simp [walkCovered, sameWalker, hlo, hhi, ha]
  obtain ⟨hi, rfl⟩ := List.getElem?_eq_some_iff.mp hw
  unfold execTlbWalkComplete
  simp only [hw, hf, ht, Bool.not_true, Bool.false_eq_true, ↓reduceIte]
  refine ⟨_, rfl, ?_, tlbInstalls_hold _ (.inl (List.mem_filter.mpr ⟨List.getElem_mem hi, hcov⟩))⟩
  rw [tlbInstalls_walks]
  intro h
  have := (List.mem_filter.mp h).2
  simp [hcov] at this
theorem walkComplete_fault (hf : walkInFlight s idx w = true) {c l : Nat}
    (ht : walkTable s w.asid (w.page * 4096) w.kind w.user = .fault c l) : ∃ t, execTlbWalkComplete idx s = .next t ∧
      w ∉ t.tr.walks ∧ t.tr.tlb = s.tr.tlb ∧ t.ms = s.ms := by
  unfold execTlbWalkComplete
  simp only [hw, hf, ht, Bool.not_true, Bool.false_eq_true, ↓reduceIte]
  refine ⟨_, rfl, fun h => ?_, rfl, rfl⟩
  have := (List.mem_filter.mp h).2
  simp [sameWalker] at this

end

end

/-! ### Stores, notices and replicas (R175, R211 to R219) -/

section
variable {s : State} {unit core idx : Nat} {e : SbEntry}

/-- A store under MCA 0 at its home: written and acknowledged. -/
abbrev storePerformed (unit : Nat) (e : SbEntry) (s : State) : State :=
  withHome e.pa e.home (homeWrite e.pa e.n e.data e.tag (some unit) e.cid)
    (unsuspend e.pa 1 e.cid (if e.fenced then s else noteLaunch e.cid e.pa e.n s))
theorem performMode_done (hm : e.mca = 0) (hg : homeGate s e.cid e.pa 1 = .go)
    (ho : ownerOf s (blockOf e.pa) = none ∨ ownerOf s (blockOf e.pa) = some unit) :
    performMode unit e s = .done (storePerformed unit e s) := by
  have hstore : performStore unit e s = .done (storePerformed unit e s) := by
    unfold performStore
    rcases ho with h | h <;> simp [hg, h, hm, storePerformed]
  unfold performMode
  simp [hm, hstore]
theorem performMode_noticed {k : Nat} (hm : e.mca = 0) (hg : homeGate s e.cid e.pa 1 = .go) (ho : ownerOf s (blockOf e.pa) = some k)
    (hk : k ≠ unit) : performMode unit e s = .wait (postNotice k (blockOf e.pa) s) := by
  have hstore : performStore unit e s = .wait (postNotice k (blockOf e.pa) s) := by
    unfold performStore
    simp [hg, ho, hk]
  unfold performMode
  simp [hm, hstore]
theorem storeAck_done {t : State} (he : (coreOf s core).sb[idx]? = some e) (hr : storeReady s core idx e = true)
    (hsp : ∀ d off, spaceOf s e.pa ≠ .remote d off) (hm : e.mca = 0) (hd : performMode core e s = .done t) :
    execStoreAck core idx s = .next (freeStore core idx (l1Store core e.pa e.n e.data e.tag t)) := by
  unfold execStoreAck
  cases hs : spaceOf s e.pa with
  | remote d off => exact absurd hs (hsp d off)
  | _ => simp [he, hr, hs, hd, hm]
theorem storeAck_waits {t : State} (he : (coreOf s core).sb[idx]? = some e) (hr : storeReady s core idx e = true)
    (hsp : ∀ d off, spaceOf s e.pa ≠ .remote d off) (hd : performMode core e s = .wait t) : execStoreAck core idx s = .next t := by
  unfold execStoreAck
  cases hs : spaceOf s e.pa with
  | remote d off => exact absurd hs (hsp d off)
  | _ => simp [he, hr, hs, hd]

theorem ownershipNotice_drops {src blk : Nat} (hn : netAt s idx = some (.notice src unit blk)) :
    ∃ t, execOwnershipNotice idx s = .next t ∧ ownerOf t blk ≠ some unit := by
  unfold execOwnershipNotice
  simp only [hn]
  refine ⟨_, rfl, ?_⟩
  generalize dropOwned unit blk (netTake idx s) = t
  rw [ownerOf, modMs_ms, SMap.get_set_self]
  cases h : SMap.get none t.ms.l2 blk with
  | none => simp
  | some l =>
    simp only [Option.map_some, Option.getD_some]
    split
    · simp
    next ho => simpa using ho

end

/-! ### Streams, evictions and waits (R164, R179, R212) -/

section
variable {s t : State} {core unit : Nat} {u : SUnit}

/-- A prefetch that has no place to go. -/
theorem streamPrefetch_stays (hu : SMap.get none (coreOf s core).units unit = some u)
    (h : u.write = true ∨ 4 ≤ u.ahead.length ∨ SU.total u ≤ u.pos + u.ahead.length * SU.per u) : execStreamPrefetch core unit s = .next s := by
  unfold execStreamPrefetch
  simp only [hu]
  rcases h with h | h | h <;> simp [h]
section
variable {y : Nat} {f : Option (Nat × Nat)} (hu : SMap.get none (coreOf s core).units unit = some u) (hw : u.write = false)
  (hl : u.ahead.length < 4) (hp : u.pos + u.ahead.length * SU.per u < SU.total u) (ha : ∀ a ∈ u.ahead, a.2.2 = none)
  (hr : regRead u (u.pos + u.ahead.length * SU.per u) (SU.per u) 0
    (modCtx u.cid (fun x => { x with fpflags := 0 }) { s with cur := u.cid }) = .ok (y, f) t)

include hw hl hp ha in
theorem prefetch_goes : (u.write || decide (4 ≤ u.ahead.length) || decide (SU.total u ≤ u.pos + u.ahead.length * SU.per u) ||
    (u.ahead.any fun a => a.2.2.isSome)) = false := by
  have hany : (u.ahead.any fun a => a.2.2.isSome) = false := by
    rw [List.any_eq_false]
    intro a hm
    simp [ha a hm]
  simp only [hw, hany, Bool.or_false, Bool.false_or, Bool.or_eq_false_iff, decide_eq_false_iff_not]
  omega

include hu hw hl hp ha hr

theorem streamPrefetch_locked {a : Nat} (hf : f = some (a, 5)) : execStreamPrefetch core unit s = .next s := by
  subst hf
  unfold execStreamPrefetch
  simp only [hu, prefetch_goes hw hl hp ha, hr, Bool.false_eq_true, ↓reduceIte]
theorem streamPrefetch_reads (hf : ∀ a, f ≠ some (a, 5)) : execStreamPrefetch core unit s =
    .next (wakeStreams (setUnit core unit (some { u with ahead := u.ahead ++ [(BitVec.ofNat 1024 y, (ctxOf t u.cid).fpflags, f)] })
      (modCtx u.cid (fun x => { x with fpflags := (ctxOf s u.cid).fpflags }) { t with cur := s.cur }))) := by
  unfold execStreamPrefetch
  simp only [hu, prefetch_goes hw hl hp ha, hr, Bool.false_eq_true, ↓reduceIte]

end

section
variable {line : Nat} {l : L2Line} (hl : SMap.get none s.ms.l2 line = some l)
include hl

theorem l2Eviction_pinned (hp : l.pinned.isSome = true) : execL2Eviction line s = .next s := by
  unfold execL2Eviction
  simp only [hl, hp, ↓reduceIte]
theorem l2Eviction_owned {k : Nat} (hp : l.pinned = none) (ho : l.owner = some k) : execL2Eviction line s = .next (postNotice k line s) := by
  unfold execL2Eviction
  simp only [hl, hp, ho, Option.isSome_none, Bool.false_eq_true, ↓reduceIte]
theorem l2Eviction_leaves (hp : l.pinned = none) (ho : l.owner = none) : ∃ t, execL2Eviction line s = .next t ∧ SMap.get none t.ms.l2 line = none := by
  unfold execL2Eviction
  simp only [hl, hp, ho, Option.isSome_none, Bool.false_eq_true, ↓reduceIte]
  refine ⟨_, rfl, ?_⟩
  show SMap.get none (SMap.set none (giveUpLine (64 * line) l s).ms.l2 line none) line = none
  exact SMap.get_set_self ..

end

/-! ### Gangs and arrays (R187, R457) -/

theorem mem_of_get {α : Type} {d x : α} {m : SMap α} {k : Nat} (h : SMap.get d m k = x) (hx : x ≠ d) : (k, x) ∈ m := by
  induction m with
  | nil => exact absurd h.symm hx
  | cons e m ih =>
    obtain ⟨j, y⟩ := e
    unfold SMap.get at h
    split at h
    next hk =>
      subst h
      exact List.mem_cons.mpr (.inl (by rw [beq_iff_eq.mp hk]))
    · exact List.mem_cons_of_mem _ (ih h)

/-- The strip's open barrier is counted now. -/
def gangCounts (s : State) (k : Nat) (t : StripSt) : Bool :=
  t.gangSince.isSome && !(t.gang.isEmpty && t.barmax.isEmpty) && !gangPausedNow s k
def gangCounted (s : State) (dt k : Nat) (t : StripSt) : StripSt :=
  if gangCounts s k t then { t with gangCount := t.gangCount + dt } else t
theorem stripOf_countGangs (dt strip : Nat) (s : State) : stripOf (countGangs dt s) strip = gangCounted s dt strip (stripOf s strip) := by
  have hdef (k : Nat) : gangCounted s dt k {} = {} := rfl
  have hcase : countGangs dt s = if s.strips.any fun e => gangCounts s e.1 e.2 then
      { s with strips := s.strips.map fun e => (e.1, gangCounted s dt e.1 e.2) } else s := by
    unfold countGangs
    refine if_congr Iff.rfl (congrArg (fun x => { s with strips := x }) (List.map_congr_left fun e _ => ?_)) rfl
    unfold gangCounted gangCounts
    dsimp only
    split <;> rfl
  rw [hcase]
  split
  · exact get_map_snd (f := gangCounted s dt) hdef strip
  next hno =>
    by_cases hc : gangCounts s strip (stripOf s strip) = true
    · refine absurd (List.any_eq_true.mpr ⟨(strip, stripOf s strip), mem_of_get rfl fun hd => ?_, hc⟩) hno
      have hd' : stripOf s strip = {} := hd
      rw [hd'] at hc
      exact Bool.false_ne_true hc
    · rw [gangCounted, if_neg hc]

theorem gangWatchdog_eq (strip : Nat) (s : State) (hs : (stripOf s strip).gangSince.isSome = true)
    (hg : (stripOf s strip).gang ≠ [] ∨ (stripOf s strip).barmax ≠ []) : execGangWatchdog strip s =
      .next (if bitsOf (stripOf s strip).gwlim.toNat 15 0 * 1024 != 0 && bitsOf (stripOf s strip).gwlim.toNat 15 0 * 1024 ≤
          (stripOf s strip).gangCount then
        supRecord { code := 0x11, source := 1, unit := strip, info := 256 } (modStrip strip (fun t => { t with gangCount := 0 }) s) else s) := by
  have hopen : ((stripOf s strip).gang.isEmpty && (stripOf s strip).barmax.isEmpty) = false := by
    rcases hg with h | h <;> simp [h]
  unfold execGangWatchdog
  dsimp only
  rw [hs, Bool.true_and, Bool.true_and, hopen, if_neg Bool.false_ne_true]

section
variable {strip : Nat} {o : ArrayOp} {r : List ArrayOp} (ho : (stripOf s strip).ops = o :: r)
include ho

theorem arrayStart_first (hs : o.started = none) : execArrayOperationStart strip s =
    .next (modStrip strip (fun t => { t with ops := { o with started := some s.cyc } :: r }) s) := by
  have hlast : opLast o = none := by rw [opLast, hs]; rfl
  unfold execArrayOperationStart modStrip
  dsimp only
  rw [ho, startOp, hlast]
theorem mmaRetire_eq {b : Nat} (hs : o.started = some b) : execMmaRetire strip s = (if b + arrayTime o.f - 1 + 24 ≤ s.cyc then
    .next (settleSlots strip (modStrip strip (fun t => { t with ops := r }) (o.parts.foldl (retirePart strip (stripOf s strip) o) s)))
    else .next s) := by
  have hlast : opLast o = some (b + arrayTime o.f - 1) := by rw [opLast, hs]; rfl
  unfold execMmaRetire
  simp only [ho, hlast, Option.any_some, decide_eq_true_eq]

end

end

/-! ### Lenses and pairs (R190 to R203) -/

section
variable {s : State} {cid : Nat}

section
variable {l : Lens} (hl : s.grp.lenses.find? (·.lead == cid) = some l)
include hl

theorem lensStart_eq (hs : l.started = false) (hw : (ctxOf s cid).st = .waiting) (hc : s.cyc ≠ l.claimed) : execLensStart cid s =
    .next (if !l.asked then stopElems l s else if !lensFree s l then s
      else grant cid (modGrp (fun g => { g with lenses := g.lenses.map fun x => if x.lead == cid then { x with started := true } else x }) s)) := by
  have hgo : (l.started || (ctxOf s cid).st != .waiting || s.cyc == l.claimed) = false := by simp [hs, hw, hc]
  unfold execLensStart
  simp only [hl, hgo, Bool.false_eq_true, ↓reduceIte]
theorem lensStart_claimed (hc : s.cyc = l.claimed) : execLensStart cid s = .next s := by
  unfold execLensStart
  simp only [hl, hc, beq_self_eq_true, Bool.or_true, ↓reduceIte]

end

theorem dealFrom_head {n : Nat} {d : Nat × Nat} (k : Nat) (line : Option Nat) {ds : List (Nat × Nat)} (h : ds.head? = some d) :
    (dealFrom s n k line ds).head? = some d := by
  induction k generalizing line ds with
  | zero => exact h
  | succ k ih =>
    cases line with
    | none => exact h
    | some line =>
      unfold dealFrom
      dsimp only
      split
      · exact h
      · exact ih _ (by rw [List.head?_append, h]; rfl)
/-- The first line dealt is the one at the program counter. -/
theorem dealFrom_first {n : Nat} (k line : Nat) : (dealFrom s n (k + 1) (some line) []).head? = some (line, line / 64 % n) :=
  dealFrom_head k _ rfl

theorem dealLens_ctxs (cid : Nat) (s : State) : (dealLens cid s).ctxs = s.ctxs := by
  unfold dealLens
  split
  · rfl
  · split <;> rfl
/-- The first lens of a lead is also the first that has started. -/
theorem find_started {l : Lens} {ls : List Lens} (h : ls.find? (·.lead == cid) = some l) (hs : l.started = true) :
    ls.find? (fun l => l.lead == cid && l.started) = some l := by
  rw [List.find?_eq_some_iff_append] at h ⊢
  obtain ⟨hlead, as, bs, rfl, has⟩ := h
  refine ⟨by rw [hlead, hs]; rfl, as, bs, rfl, fun a ha => ?_⟩
  have := has a ha
  simp only [Bool.not_eq_true'] at this
  rw [this]
  rfl
/-- A lens whose dealt lines are given up. -/
def undealt (cid : Nat) (x : Lens) : Lens := if x.lead == cid then { x with dealt := [] } else x
theorem dealLens_first {l : Lens} (hl : s.grp.lenses.find? (·.lead == cid) = some l) (hs : l.started = true) (hf : (ctxOf s cid).fl = false)
    (he : l.elems ≠ []) : ∃ k ∈ (dealLens cid (modGrp (fun g => { g with lenses := g.lenses.map (undealt cid) }) s)).grp.lenses,
      k.lead = cid ∧ k.dealt.head? = some ((ctxOf s cid).pc.line, (ctxOf s cid).pc.line / 64 % l.elems.length) := by
  have hlead : l.lead = cid := by simpa using List.find?_some hl
  have hund : undealt cid l = { l with dealt := [] } := if_pos (by simpa using hlead)
  have hcomp : ((fun l : Lens => l.lead == cid && l.started) ∘ undealt cid) = fun l => l.lead == cid && l.started := by
    funext x
    simp only [Function.comp, undealt]
    split <;> rfl
  have hfind : (s.grp.lenses.map (undealt cid)).find? (fun l => l.lead == cid && l.started) = some { l with dealt := [] } := by
    rw [List.find?_map, hcomp, find_started hl hs, ← hund]
    rfl
  obtain ⟨n, hn⟩ : ∃ n, 4 * l.elems.length = n + 1 :=
    Nat.exists_eq_succ_of_ne_zero (by have := List.length_pos_iff.mpr he; omega)
  unfold dealLens
  rw [show (ctxOf (modGrp (fun g => { g with lenses := g.lenses.map (undealt cid) }) s) cid).fl = false from hf, if_neg Bool.false_ne_true]
  simp only [show (modGrp (fun g => { g with lenses := g.lenses.map (undealt cid) }) s).grp.lenses = s.grp.lenses.map (undealt cid) from rfl,
    hfind, List.dropWhile_nil, List.getLast?_nil, hn]
  refine ⟨_, List.mem_map.mpr ⟨{ l with dealt := [] }, List.mem_of_find?_eq_some hfind, rfl⟩, ?_⟩
  simp only [hlead, beq_self_eq_true, ↓reduceIte, true_and]
  exact dealFrom_first ..

theorem pairStart_none (hw : (ctxOf s cid).wait = .pairPark) (hst : (ctxOf s cid).st = .waiting) (hg : (ctxOf s cid).granted = false)
    (hp : partnerPlace s (coreNo cid) (firOf s cid).cch (firOf s cid).vch = none) : execPairStart cid s = .next s := by
  unfold execPairStart
  simp only [hw, hst, hg, hp, beq_self_eq_true, Bool.not_false, Bool.and_self, ↓reduceIte]
theorem pairStart_opens {p : Nat} (hw : (ctxOf s cid).wait = .pairPark) (hst : (ctxOf s cid).st = .waiting)
    (hg : (ctxOf s cid).granted = false) (hp : partnerPlace s (coreNo cid) (firOf s cid).cch (firOf s cid).vch = some p) (hne : p ≠ cid) :
    ∃ t, execPairStart cid s = .next t ∧ (ctxOf t cid).granted = true ∧ (ctxOf t cid).st = .ready ∧ (ctxOf t p).st = .parked ∧
      ∃ k ∈ t.grp.pairs, k.prim = cid ∧ k.part = p := by
  unfold execPairStart
  simp only [hw, hst, hg, hp, beq_self_eq_true, Bool.not_false, Bool.and_self, ↓reduceIte]
  refine ⟨_, rfl, ?_, ?_, ?_, ?_⟩
  · rw [grant, ctxOf_modCtx]
  · rw [grant, ctxOf_modCtx]
  · rw [grant, ctxOf_modCtx_ne _ _ hne, modFir, ctxOf_modCtx_ne _ _ hne]
    show (ctxOf (openPair cid p s) p).st = _
    unfold openPair
    dsimp only
    rw [ctxOf_modGrp, ctxOf_modCtx]
  · refine ⟨_, List.mem_map.mpr ⟨_, List.mem_append.mpr (.inr (List.mem_singleton_self _)), rfl⟩, ?_, ?_⟩
    · dsimp only
      split <;> rfl
    · dsimp only
      split <;> rfl

end

/-! ### The end of a copy (R257) -/

section
variable {s t u w : State} {idx st fc pa : Nat} {c : Copy} {attr : W64}

theorem FX.bind_get {ε β : Type} (f : State → EStateM ε State β) (s : State) : (get >>= f) s = f s s := rfl
theorem FX.bind_modify {ε β : Type} (g : State → State) (f : PUnit → EStateM ε State β) (s : State) : (modify g >>= f) s = f () (g s) := rfl

theorem copyPublish_near (h : CpF.scope c < 4) : copyPublish c s = s := if_pos h
theorem copySettle_gone {id : Nat} (h : copyById s id = none) : copySettle id s = .ok () s := by
  unfold copySettle
  refine (FX.bind_get ..).trans ?_
  rw [h]
  rfl
theorem copySettle_ok {id : Nat} (h : copyById s id = some c) (hs : CpF.scope c < 4) (hset : copySettled s c = true) :
    copySettle id s = .ok () s := by
  unfold copySettle
  refine (FX.bind_get ..).trans ?_
  rw [h]
  refine (FX.bind_modify ..).trans ((FX.bind_get ..).trans ?_)
  rw [copyPublish_near hs, hset]
  rfl
theorem copyBefore_ok (h : copyById s c.id = some c) (hst : st ≠ 2) (hsig : CpF.sigen c = false) (hs : CpF.scope c < 4)
    (hset : copySettled s c = true) : copyBefore c st s = .ok () (freeLocks c.id s) := by
  have hcov : copyCovered s c.id = true := by
    simp only [copySettled, Bool.and_eq_true] at hset
    obtain ⟨⟨⟨⟨-, h⟩, -⟩, -⟩, -⟩ := hset
    exact h
  have hne : (st != 2) = true := by simpa using hst
  unfold copyBefore
  simp only [hne, hsig, Bool.false_and, Bool.false_eq_true, ↓reduceIte]
  refine (FX.bind_ok (copySettle_ok h hs hset)).trans ((FX.bind_get ..).trans ?_)
  simp only [hcov, Bool.not_true, Bool.false_eq_true, ↓reduceIte]
  rfl
theorem copyRecord_ok {fcode status : Nat} (hw : engineWalk s c.asid (ringEntry c.ring c.xid) (kWrite ||| kEngine) c.user = (.ok (pa, attr), t))
    {q : Nat} (hq : q = replicaPa attr (dieOfCore c.core) pa) (hsp : ∀ d off, spaceOf t q ≠ .remote d off)
    (hg : homeGate t (copyMark c.id) q 1 = .go) : copyRecord c status fcode s =
      .ok () (copyStore c attr q 32 (ringBytes c status fcode t.cyc) (unsuspend q 1 (copyMark c.id) t)) := by
  have hwalk : copyWalk c (ringEntry c.ring c.xid) kWrite s = .ok (q, attr) t := by
    unfold copyWalk
    refine (FX.bind_get ..).trans ?_
    rw [hw, hq]
    rfl
  unfold copyRecord
  refine (FX.bind_ok hwalk).trans ((FX.bind_get ..).trans ?_)
  cases hs : spaceOf t q with
  | remote d off => exact absurd hs (hsp d off)
  | _ =>
    simp only [hg]
    rfl
/-- The steps of a copy that has ended well: locks, record, and the copy is gone. -/
theorem copyEnd_ok (h : copyById s c.id = some c) (he : c.ended = some (st, fc)) (hrec : c.recorded = false) (hst : st ≠ 2)
    (hb : copyBefore c st s = .ok () t) (hr : copyRecord c (recordStatus c st t.cyc) fc t = .ok () u)
    (hw : w = modCopy c.id (fun c => { c with recorded := true, relBegun := false }) u) (hs : copySettle c.id w = .ok () w) :
    copyEnd c.id s = .ok () (copyGone c w) := by
  subst hw
  have hne : (st != 2) = true := by simpa using hst
  unfold copyEnd
  refine (FX.bind_get ..).trans ?_
  simp only [h, he, hrec, hne, Bool.not_false, ↓reduceIte]
  refine (FX.bind_ok hb).trans ((FX.bind_get ..).trans ((FX.bind_ok hr).trans ?_))
  exact (FX.bind_modify ..).trans ((FX.bind_ok hs).trans rfl)
theorem copyComplete_closes (hi : s.cp.copies[idx]? = some c) (ho : onEngine s idx c = true) (hp : c.parked = false) (hl : c.late = [])
    (he : c.ended = some (st, fc)) (hc : copyEnd c.id s = .ok () t) : execCopyComplete idx s = .next t := by
  have hlate : lateLocks c s = s := if_pos (by rw [hl]; rfl)
  unfold execCopyComplete
  simp only [hi, ho, hlate, ↓reduceIte]
  unfold copyRun
  simp only [hp, he, Option.isSome_some, Bool.false_eq_true, ↓reduceIte]
  unfold copyClose
  rw [hc]

end

end Sys2Proof.Machine

namespace Sys2Proof
open Machine

/-- Settles O50: each event in the cases of its guard. -/
theorem memoryEventsComplete : Obligations.MemoryEventsComplete := by
  refine ⟨fun cid idx p s hp hk hf => ?_, fun c p r n s hd hf hb hp => deliverBoth_int hd hf hb hp, fun idx w s hw hf => ?_,
    fun idx w s hw hf => ⟨fun va size pa attr pte ht hlo hhi ha => ?_, fun c l ht => ?_⟩,
    fun core idx e s he => ⟨fun hr => ?_, fun hr hsp hm hg => ⟨fun ho => ?_, fun k ho hk => ?_⟩⟩,
    fun strip idx a b e s he hb hm hg ho => ?_, fun idx src unit blk s hn => ?_, fun idx pa bytes tag src s hn => ?_,
    fun idx pa bytes tag unit i s hn hu t ht hi => ?_, fun core unit u s hu => ⟨fun h => ?_, fun y f t hw hl hp ha hr => ⟨fun a hf => ?_, fun hf => ?_⟩⟩,
    fun line l s hl => ⟨fun hp => ?_, fun k hp ho => ?_, fun hp ho => ?_⟩, fun strip dt s => ?_,
    fun strip o r s ho => ⟨fun hs => ?_, fun b hs hlt => ?_, fun b hs hle => ?_⟩,
    fun cid l s hl => ⟨fun hs hw hc => ⟨fun ha => ?_, fun ha hfree => ?_, fun ha hfree => ?_⟩, fun hc => ?_, ?_⟩,
    fun cid s hw hst hg => ⟨fun hp => ?_, fun p hp hne => ?_⟩, fun idx c s hi ho => ?_, ?_,
    fun cid a b s hw hst => ⟨fun h => ?_, fun h => ?_, fun h hm => ?_⟩, fun cid pa s hw hst => ⟨fun h => ?_, fun h => ?_⟩⟩
  · intro t
    rw [exec_resultArrival, resultArrival_eq hp hk hf rfl]
    exact ⟨fun h => congrArg Host.Outcome.next (if_pos h), fun h => congrArg Host.Outcome.next (if_neg (by rw [h]; exact Bool.false_ne_true))⟩
  · exact (exec_tlbWalkComplete ..).trans (walkComplete_waits hw hf)
  · obtain ⟨t, he, hn, hi⟩ := walkComplete_leaf hw hf ht hlo hhi ha
    exact ⟨t, (exec_tlbWalkComplete ..).trans he, hn, hi⟩
  · obtain ⟨t, he, hn, htlb, hms⟩ := walkComplete_fault hw hf ht
    exact ⟨t, (exec_tlbWalkComplete ..).trans he, hn, htlb, hms⟩
  · rw [exec_storeAck]
    unfold execStoreAck
    simp only [he, hr, Bool.not_false, ↓reduceIte]
  · exact (exec_storeAck ..).trans (storeAck_done he hr hsp hm (performMode_done hm hg ho))
  · exact (exec_storeAck ..).trans (storeAck_waits he hr hsp (performMode_noticed hm hg ho hk))
  · have hfirst : (((stripOf s strip).sauWait.take idx).any fun w => blockOf w.2.2.pa == blockOf e.pa) = false := by
      rw [List.any_eq_false]
      intro w hw
      simpa using hb w hw
    rw [exec_stripAtomicAck]
    unfold execStripAtomicAck
    simp only [he, hfirst, performMode_done (unit := 4096 + strip) hm hg (.inl ho), Bool.false_eq_true, ↓reduceIte]
  · obtain ⟨t, he, ho⟩ := ownershipNotice_drops hn
    exact ⟨t, (exec_ownershipNotice ..).trans he, ho⟩
  · rw [exec_replicaForward]
    unfold execReplicaForward
    simp only [hn]
  · subst ht
    rw [exec_replicaMarkAck]
    unfold execReplicaMarkAck
    simp only [hn, hu, ↓reduceIte]
    exact congrArg Host.Outcome.next (by rw [hi])
  · exact (exec_streamPrefetch ..).trans (streamPrefetch_stays hu h)
  · exact (exec_streamPrefetch ..).trans (streamPrefetch_locked hu hw hl hp ha hr hf)
  · exact (exec_streamPrefetch ..).trans (streamPrefetch_reads hu hw hl hp ha hr hf)
  · exact (exec_l2Eviction ..).trans (l2Eviction_pinned hl hp)
  · exact (exec_l2Eviction ..).trans (l2Eviction_owned hl hp ho)
  · obtain ⟨t, he, hn⟩ := l2Eviction_leaves hl hp ho
    exact ⟨t, (exec_l2Eviction ..).trans he, hn⟩
  · intro t hs hg lim
    have hopen : (t.gang.isEmpty && t.barmax.isEmpty) = false := by
      rcases hg with h | h <;> simp [h]
    refine ⟨?_, fun hl hle => ?_, fun hl => ?_⟩
    · rw [stripOf_countGangs, gangCounted, gangCounts]
      show (if t.gangSince.isSome && !(t.gang.isEmpty && t.barmax.isEmpty) && !gangPausedNow s strip then _ else _ : StripSt).gangCount = _
      rw [hs, hopen]
      cases gangPausedNow s strip <;> rfl
    · refine (exec_gangWatchdog ..).trans ((gangWatchdog_eq strip s hs hg).trans (congrArg Host.Outcome.next (if_pos ?_)))
      rw [Bool.and_eq_true, bne_iff_ne, decide_eq_true_iff]
      exact ⟨hl, hle⟩
    · refine (exec_gangWatchdog ..).trans ((gangWatchdog_eq strip s hs hg).trans (congrArg Host.Outcome.next (if_neg ?_)))
      rw [Bool.and_eq_true, bne_iff_ne, decide_eq_true_iff]
      rintro ⟨h0, hle⟩
      exact hl.elim h0 (Nat.not_lt_of_le hle)
  · exact (exec_arrayOperationStart ..).trans (arrayStart_first ho hs)
  · exact (exec_mmaRetire ..).trans ((mmaRetire_eq ho hs).trans (if_neg (Nat.not_le_of_lt hlt)))
  · exact (exec_mmaRetire ..).trans ((mmaRetire_eq ho hs).trans (if_pos hle))
  · exact (exec_lensStart ..).trans ((lensStart_eq hl hs hw hc).trans (by rw [ha]; rfl))
  · exact (exec_lensStart ..).trans ((lensStart_eq hl hs hw hc).trans (by rw [ha, hfree]; rfl))
  · exact (exec_lensStart ..).trans ((lensStart_eq hl hs hw hc).trans (by rw [ha, hfree]; rfl))
  · exact (exec_lensStart ..).trans (lensStart_claimed hl hc)
  · exact ⟨_, exec_lensBranchResolve .., dealLens_ctxs .., fun hs hf he => dealLens_first hl hs hf he⟩
  · exact (exec_pairStart ..).trans (pairStart_none hw hst hg hp)
  · obtain ⟨t, he, hrest⟩ := pairStart_opens hw hst hg hp hne
    exact ⟨t, (exec_pairStart ..).trans he, hrest⟩
  · rw [exec_copyComplete]
    unfold execCopyComplete
    simp only [hi, ho, Bool.false_eq_true, ↓reduceIte]
  · intro idx c st fc pa attr t s hi hc ho hp hl he hst hrec hsig hs hset hw q hq hsp hg w hwd hend
    have hsettle : copySettle c.id w = .ok () w := by
      cases hk : copyById w c.id with
      | none => exact copySettle_gone hk
      | some k =>
        obtain ⟨hk4, hkset⟩ := hend k hk
        exact copySettle_ok hk hk4 hkset
    exact (exec_copyComplete ..).trans (copyComplete_closes hi ho hp hl he (copyEnd_ok hc he hrec hst (copyBefore_ok hc hst hsig hs hset)
      (copyRecord_ok hw hq hsp hg) hwd hsettle))
  · rw [exec_waittExpiry]
    unfold execWaittExpiry
    simp only [hw, hst, h, beq_self_eq_true, decide_true, Bool.and_self, ↓reduceIte]
  · rw [exec_waittExpiry]
    unfold execWaittExpiry
    simp only [hw, hst, show ¬ a ≤ s.cyc from Nat.not_le_of_lt h, decide_false, Bool.and_false, Bool.false_eq_true, ↓reduceIte]
  · obtain ⟨c, hc, hcore, hxid, hprom⟩ := h
    have hdue : (s.cp.copies.any fun c => c.core == coreNo cid && c.xid == b && c.promise ≤ s.cyc &&
        !(((ctxOf s cid).fir.getD {}).missTaken.contains b)) = true := by
      rw [List.any_eq_true]
      exact ⟨c, hc, by rw [hm]; simp [hcore, hxid, hprom]⟩
    rw [exec_promiseMissed]
    unfold execPromiseMissed
    simp only [hw, hst, hdue, beq_self_eq_true, Bool.and_self, ↓reduceIte]
  · rw [exec_feWaiterRetry]
    unfold execFeWaiterRetry
    simp only [hw, hst, h, beq_self_eq_true, decide_true, Bool.and_self, ↓reduceIte]
  · rw [exec_feWaiterRetry]
    unfold execFeWaiterRetry
    simp only [hw, hst, show ¬ (ctxOf s cid).since + 256 ≤ s.cyc from Nat.not_le_of_lt h, decide_false, Bool.and_false, Bool.false_eq_true,
      ↓reduceIte]

end Sys2Proof
end

section
set_option Elab.async false
/-! The Prisms' own steps: dispatch of messages, what hardware answers, handler runs and the supervisor's commands (R228 to R251,
R477, R479, R489). -/
namespace Sys2Proof.Machine

/-! ### Dispatch (R231, R239, R241) -/

section
variable {s : State} {p idx th : Nat} {rep : Bool} {m : PMsg}

theorem bang {b : Bool} (h : b = false) : (!b) = true := by rw [h]; rfl
theorem not_bang {b : Bool} (h : b = true) : ¬ (!b) = true := by rw [h]; decide
theorem bit63_iff (n : Nat) : (n / 2 ^ 63 % 2 == 0) = !n.testBit 63 := by
  rw [Nat.testBit_eq_decide_div_mod_eq]
  rcases Nat.mod_two_eq_zero_or_one (n / 2 ^ 63) with h | h <;> simp only [h] <;> decide

/-- Only a notice LOST changes the state before its handler or its refusal. -/
abbrev heard (p : Nat) (m : PMsg) (s : State) : State := if m.ty == 0x0C then lostDo p m s else s
theorem heard_of_ne (h : m.ty ≠ 0x0C) (s : State) : heard p m s = s := if_neg (by rw [beq_iff_eq]; exact h)

theorem dispatchAt_behind (hm : (inbox s p rep)[idx]? = some m) (hf : firstMsg s p rep ≠ some idx) (o : Option Nat) :
    dispatchAt p rep idx o s = s := by
  unfold dispatchAt
  simp only [hm, bne_iff_ne, ne_eq, hf, not_false_eq_true, ↓reduceIte]

section
variable (hm : (inbox s p rep)[idx]? = some m) (hf : firstMsg s p rep = some idx)
include hm hf

theorem dispatchAt_hardware {u : State} (hu : hardware p m (dropMsg p rep idx s) = some u) (o : Option Nat) :
    dispatchAt p rep idx o s = u := by
  unfold dispatchAt
  simp only [hm, hf, bne_self_eq_false, Bool.false_eq_true, ↓reduceIte, hu]

variable (hu : hardware p m (dropMsg p rep idx s) = none)
include hu

theorem dispatchAt_refuses (he : (handlerEntry s p m).testBit 63 = false) (o : Option Nat) :
    dispatchAt p rep idx o s = noHandler p m (heard p m (dropMsg p rep idx s)) := by
  unfold dispatchAt
  simp only [hm, hf, bne_self_eq_false, Bool.false_eq_true, ↓reduceIte, hu, bit63_iff, he, Bool.not_false]
theorem dispatchAt_starts (he : (handlerEntry s p m).testBit 63 = true) :
    dispatchAt p rep idx (some th) s = startRun p th m (handlerEntry s p m) (heard p m (dropMsg p rep idx s)) := by
  unfold dispatchAt
  simp only [hm, hf, bne_self_eq_false, Bool.false_eq_true, ↓reduceIte, hu, bit63_iff, he, Bool.not_true]
theorem dispatchAt_waits (he : (handlerEntry s p m).testBit 63 = true) : dispatchAt p rep idx none s = s := by
  unfold dispatchAt
  simp only [hm, hf, bne_self_eq_false, Bool.false_eq_true, ↓reduceIte, hu, bit63_iff, he, Bool.not_true]

end

theorem dispatchTy_of (hm : (inbox s p rep)[idx]? = some m) :
    dispatchTy p rep idx m.ty s = roomAt p (dispatchAt p rep idx (freeThread s p rep) s) := by
  unfold dispatchTy
  rw [hm, Option.any_some, beq_self_eq_true, if_pos rfl]

/-- The steps that dispatch a message of one type, with their inbox. -/
theorem exec_ofType {mk : Nat → Nat → Instr} {ty : Nat}
    (h : (mk, rep, ty) ∈ [(Instr.gets, false, 0x00), (Instr.getm, false, 0x01), (Instr.puts, false, 0x02),
      (Instr.putm, false, 0x03), (Instr.probeAnswer, true, 0x04), (Instr.pdata, true, 0x05), (Instr.lread, false, 0x06),
      (Instr.lwrite, false, 0x07), (Instr.latom, false, 0x08), (Instr.grant, true, 0x0B), (Instr.update, false, 0x0B),
      (Instr.proxyProbe, false, 0x0A), (Instr.lost, false, 0x0C), (Instr.pushrel, false, 0x0D), (Instr.fwdNak, true, 0x3F)])
    (p idx : Nat) (s : State) : exec (mk p idx) s = .next (dispatchTy p rep idx ty s) := by
  simp only [List.mem_cons, List.not_mem_nil, Prod.mk.injEq, or_false] at h
  obtain ⟨rfl, rfl, rfl⟩ | ⟨rfl, rfl, rfl⟩ | ⟨rfl, rfl, rfl⟩ | ⟨rfl, rfl, rfl⟩ | ⟨rfl, rfl, rfl⟩ | ⟨rfl, rfl, rfl⟩ | ⟨rfl, rfl, rfl⟩ |
    ⟨rfl, rfl, rfl⟩ | ⟨rfl, rfl, rfl⟩ | ⟨rfl, rfl, rfl⟩ | ⟨rfl, rfl, rfl⟩ | ⟨rfl, rfl, rfl⟩ | ⟨rfl, rfl, rfl⟩ | ⟨rfl, rfl, rfl⟩ |
    ⟨rfl, rfl, rfl⟩ := h
  · exact exec_gets ..
  · exact exec_getm ..
  · exact exec_puts ..
  · exact exec_putm ..
  · exact exec_probeAnswer ..
  · exact exec_pdata ..
  · exact exec_lread ..
  · exact exec_lwrite ..
  · exact exec_latom ..
  · exact exec_grant ..
  · exact exec_update ..
  · exact exec_proxyProbe ..
  · exact exec_lost ..
  · exact exec_pushrel ..
  · exact exec_fwdNak ..

theorem prismDispatch_next {t : Nat} (hp : p < 51) (ht : t < 8) (hfree : SMap.get none (prismOf s p).thr t = none)
    (hf : firstMsg s p (decide (6 ≤ t)) = some idx) :
    exec (.prismDispatch p t) s = .next (roomAt p (dispatchAt p (decide (6 ≤ t)) idx (some t) s)) := by
  rw [exec_prismDispatch]
  unfold execPrismDispatch
  simp only [hf, show ¬ 51 ≤ p by omega, show ¬ 8 ≤ t by omega, hfree, decide_false, Bool.or_self, Option.isSome_none,
    Bool.false_eq_true, ↓reduceIte]

theorem retryRedispatch_eq (hm : (prismOf s p).req[idx]? = some m) {c : Nat} (hr : m.retryAt = some c) :
    exec (.retryRedispatch p idx) s =
      .next (if c ≤ s.cyc then roomAt p (dispatchAt p false idx (freeThread s p false) s) else s) := by
  have hlt : idx < (prismOf s p).req.length := (List.getElem?_eq_some_iff.mp hm).1
  have hin : inbox s p false = (prismOf s p).req := rfl
  rw [exec_retryRedispatch]
  unfold execRetryRedispatch
  simp only [show ¬ (prismOf s p).req.length ≤ idx by omega, decide_false, ↓reduceIte, hin, hm, Option.any_some, hr,
    decide_eq_true_eq]

/-! ### What hardware answers (R81, R239, R241) -/

section
variable (h0 : m.ty ≠ 0x0A) (h6 : ¬ (6 ≤ m.ty ∧ m.ty ≤ 8))
include h0 h6

theorem hardware_fast : hardware p m s = fastPath p m s := by
  unfold hardware
  rw [if_neg, if_neg]
  · simp only [Bool.and_eq_true, decide_eq_true_eq]
    exact fun h => h6 h.1.1
  · simp only [Bool.and_eq_true, beq_iff_eq]
    exact fun h => h0 h.1

end

/-- The block is one that the INV protocol's hardware serves: no LOCK, poison, transaction or busy tag (R241). -/
structure Fast (s : State) (p blk : Nat) : Prop where
  hbm : p < 24
  inv : protoOf s p blk = 0
  unlocked : (dirEntry s p blk).getLsbD 60 = false
  clean : (dirEntry s p blk).getLsbD 8 = false
  closed : txnOpen s p blk = false
  idle : atagOf s blk ≠ 3

theorem Fast.guard (h : Fast s p m.block) : (24 ≤ p || protoOf s p m.block != 0 || (dirEntry s p m.block).getLsbD 60 ||
    (dirEntry s p m.block).getLsbD 8 || txnOpen s p m.block || atagOf s m.block == 3) = false := by
  obtain ⟨hp, hi, hl, hc, ht, ha⟩ := h
  simp only [show ¬ 24 ≤ p by omega, hi, hl, hc, ht, beq_eq_false_iff_ne.mpr ha, decide_false, bne_self_eq_false, Bool.or_self]

theorem hardware_gets (hf : Fast s p m.block) (ht : m.ty = 0) : hardware p m s =
    if dirDst (dirEntry s p m.block) ≤ 1 then
      let e := dirEntry s p m.block
      let line := (SMap.get none (prismOf s p).dir (dirLine m.block)).isSome
      let k := if line then dirLine m.block else dirRegion m.block
      let sh := addSharer e (msgDev m)
      if dirRoom s p k then some (fastGrant p m k (dirWith e line 1 (dirSeq e + 1) sh.1 sh.2) 0 s) else none
    else none := by
  rw [hardware_fast (by omega) (by omega)]
  unfold fastPath
  simp only [hf.guard, ht, Bool.false_eq_true, ↓reduceIte, BEq.rfl, Bool.true_and, decide_eq_true_eq, Nat.reduceBEq, Bool.false_and]
theorem hardware_getm (hf : Fast s p m.block) (ht : m.ty = 1) : hardware p m s =
    if dirDst (dirEntry s p m.block) = 0 then
      let e := dirEntry s p m.block
      if dirRoom s p (dirLine m.block) then
        some (fastGrant p m (dirLine m.block) (dirWith e true 2 (dirSeq e + 1) false (oneSharer (msgDev m))) 1 s)
      else none
    else none := by
  rw [hardware_fast (by omega) (by omega)]
  unfold fastPath
  simp only [hf.guard, ht, Bool.false_eq_true, ↓reduceIte, BEq.rfl, Bool.true_and, beq_iff_eq, Nat.reduceBEq, Bool.false_and]
theorem hardware_putm (hf : Fast s p m.block) (ht : m.ty = 3) (hd : dirDst (dirEntry s p m.block) = 2)
    (ho : dirPtr0 (dirEntry s p m.block) = msgDev m) (hq : m.seq.toNat % 64 = dirSeq (dirEntry s p m.block) % 64) :
    hardware p m s =
      some (fastPutm p m (SMap.get none (prismOf s p).dir (dirLine m.block)).isSome (dirEntry s p m.block) s) := by
  rw [hardware_fast (by omega) (by omega)]
  unfold fastPath
  simp only [hf.guard, ht, hd, ho, hq, Bool.false_eq_true, ↓reduceIte, BEq.rfl, Bool.and_self, Nat.reduceBEq, Bool.false_and]

end

/-! ### A handler's start (R232) -/

theorem readG_startReg (r : Nat) (v : W64) (x : Ctx) {k : Nat} (hk : k ≠ 0) :
    readG (startReg r v x) k = if k = r then Cap.ofInt v else readG x k := by
  unfold readG startReg
  simp only [beq_iff_eq, hk, ↓reduceIte, SMap.get_set]
@[simp] theorem startReg_pc (r : Nat) (v : W64) (x : Ctx) : (startReg r v x).pc = x.pc := rfl

theorem startRun_eq (p t : Nat) (m : PMsg) (entry : Nat) (s : State) : ∃ g8 u,
    (SMap.get none (prismOf u p).thr t).isSome = true ∧
    startRun p t m entry s = setCtx u (32768 + 8 * p + t) (startReg 8 g8 (startReg 7 (dirImage s p m.block) (startReg 6 m.seq
      (startReg 5 m.requester (startReg 4 (BitVec.ofNat 64 m.block) { pc := ⟨bitsOf entry 55 6 * 64, 1⟩ }))))) :=
  ⟨_, _, by rw [prismOf_modPrism, SMap.get_set_self]; rfl, rfl⟩

/-! ### Handler runs (R236) -/

theorem prismNo_thread {p t : Nat} (ht : t < 8) : prismNo (32768 + 8 * p + t) = p := by
  unfold prismNo
  omega

theorem handlerWatchdog_eq {s : State} {p t : Nat} {r : ThrRun} (hp : p < 51) (ht : t < 8)
    (hr : runOf s (32768 + 8 * p + t) = some r) : exec (.handlerWatchdog p t) s =
      .next (if (prismOf s p).wd ≤ r.count then stopHandler (32768 + 8 * p + t) 0x15 false s else s) := by
  rw [exec_handlerWatchdog]
  unfold execHandlerWatchdog
  simp only [Nat.mod_eq_of_lt ht, hr, hp, decide_true, Bool.true_and, decide_eq_true_eq]

/-! ### The supervisor's commands: what they leave unchanged -/

theorem prismOf_congr {s t : State} (h : t.prisms = s.prisms) (p : Nat) : prismOf t p = prismOf s p := by
  unfold prismOf
  rw [h]
@[simp] theorem vecSend_prisms (f v : Nat) (s : State) : (vecSend f v s).prisms = s.prisms := by
  unfold vecSend
  dsimp only
  split <;> rfl
@[simp] theorem vecEvent_prisms (f v : Nat) (s : State) : (vecEvent f v s).prisms = s.prisms := by
  unfold vecEvent
  dsimp only
  split
  · rw [vecSend_prisms]
    rfl
  · rfl
@[simp] theorem supRecord_prisms (r : SupRec) (s : State) : (supRecord r s).prisms = s.prisms := by
  unfold supRecord
  rw [vecEvent_prisms]
  split
  · rw [modRegs_prisms, poke_prisms]
  · rfl

/-- A change of a list of Prisms reaches those in the list, and each once is enough when it is idempotent. -/
theorem prismOf_foldl_mod {β : Type} (g : PrismSt → β) (f : PrismSt → PrismSt) (b : β) (hf : ∀ x, g (f x) = b) (ps : List Nat) (s : State)
    {p : Nat} (hp : p ∈ ps ∨ g (prismOf s p) = b) : g (prismOf (ps.foldl (fun s p => modPrism p f s) s) p) = b := by
  induction ps generalizing s with
  | nil => exact hp.resolve_left List.not_mem_nil
  | cons q ps ih =>
    refine ih _ ?_
    by_cases hq : p = q
    · exact .inr (by rw [hq, prismOf_modPrism, hf])
    · rw [prismOf_modPrism_ne _ _ hq]
      exact hp.imp_left fun h => (List.mem_cons.mp h).resolve_left hq

@[simp] theorem prDone_prisms (n : Nat) (s : State) : (prDone n s).prisms = s.prisms := rfl
@[simp] theorem prDone_ms (n : Nat) (s : State) : (prDone n s).ms = s.ms := rfl
theorem prDone_idle (n : Nat) (s : State) : (prDone n s).regs.prbusy = false := rfl
theorem prDone_status (n : Nat) (s : State) : (prDone n s).regs.prstatus = BitVec.ofNat 3 n := rfl

/-- The entries that satisfy a test, listed by number. -/
theorem get_filtered (g : Nat → BitVec 128) (ok : BitVec 128 → Bool) (i : Nat) (ks : List Nat) :
    SMap.get 0 ((ks.map fun i => (i, g i)).filter fun r => ok r.2) i = if i ∈ ks ∧ ok (g i) = true then g i else 0 := by
  induction ks with
  | nil => exact (if_neg (fun h => List.not_mem_nil h.1)).symm
  | cons k ks ih =>
    rw [List.map_cons, List.filter_cons]
    by_cases hk : i = k
    · subst hk
      cases hok : ok (g i) with
      | true => simp [SMap.get]
      | false =>
        have hno (P : Prop) : ¬ (P ∧ ok (g i) = true) := fun h => Bool.false_ne_true (hok.symm.trans h.2)
        rw [if_neg Bool.false_ne_true, ih, if_neg (hno _), ← hok, if_neg (hno _)]
    · split
      · rw [SMap.get, if_neg (by simpa using hk), ih]
        simp [hk]
      · rw [ih]
        simp [hk]

/-- Every Prism takes the valid entries of the table; the others leave a record each (R228). -/
theorem rtsync_reads {s : State} (h : prUnder s 1 = true) : ∃ t, exec .rtsync s = .next t ∧ t.regs.prbusy = false ∧
    t.regs.prstatus = 0 ∧ ∀ p i, p < 51 → i < 4096 →
      SMap.get 0 (prismOf t p).regions i = if regV (regionRead s i) && regOk s (regionRead s i) then regionRead s i else 0 := by
  have hi (i : Nat) : i < 4096 ↔ i ∈ List.range 4096 := List.mem_range.symm
  have hq (p : Nat) : p < 51 ↔ p ∈ List.range 51 := List.mem_range.symm
  rw [exec_rtsync]
  unfold execRtsync
  simp only [h, Bool.not_true, Bool.false_eq_true, ↓reduceIte, hi, hq]
  generalize List.range 4096 = is
  generalize List.range 51 = ps
  refine ⟨_, rfl, rfl, rfl, fun p i hp hi => ?_⟩
  rw [prismOf_congr (prDone_prisms ..),
    prismOf_congr (foldl_keeps (g := State.prisms) (by intros; exact supRecord_prisms ..) ..)]
  refine (congrArg (SMap.get 0 · i) (prismOf_foldl_mod PrismSt.regions _
    ((is.map fun i => (i, regionRead s i)).filter fun r => regV r.2 && regOk s r.2) (by intro; rfl) _ _ (.inl hp))).trans ?_
  refine (get_filtered (regionRead s) (fun e => regV e && regOk s e) i is).trans ?_
  simp only [hi, true_and]

/-- The state in which a rebind has begun: every Prism holds the entry as read. -/
abbrev rebinding (i : Nat) (s : State) : State := modRegs (fun r => { r with prstep := true }) (regionHeld i (regionRead s i) s)
theorem regionHeld_dev (i : Nat) (e : BitVec 128) (s : State) : (regionHeld i e s).dev = s.dev :=
  foldl_keeps (g := State.dev) (by intros; rfl) ..

section
variable {s : State} (h : prUnder s 2 = true)
include h

theorem rebind_begins (h0 : s.regs.prstep = false) : exec .rebind s =
    .next (
      let i := prArgOf s % 4096
      let e := regionRead s i
      if !regV e || !regPend e || !regOk s e || regNproto e == 7 then prDone 2 s
      else if regHome e == s.dev then closeParts (inRegion e) (regionTags e 3 (rebinding i s))
      else giveUp e (regionTags e 3 (rebinding i s))) := by
  have hdev (i : Nat) : (rebinding i s).dev = s.dev := (modRegs_dev ..).trans (regionHeld_dev ..)
  rw [exec_rebind]
  unfold execRebind
  simp only [h, h0, Bool.not_true, Bool.not_false, Bool.false_eq_true, ↓reduceIte, hdev]
theorem rebind_elsewhere (h1 : s.regs.prstep = true)
    (hh : regHome (SMap.get 0 (prismOf s 0).regions (prArgOf s % 4096)) ≠ s.dev) : exec .rebind s =
    .next (
      let i := prArgOf s % 4096
      let held := SMap.get 0 (prismOf s 0).regions i
      if gaveUp held (giveUp held s) then rebindEnd i held (giveUp held s) else giveUp held s) := by
  rw [exec_rebind]
  unfold execRebind
  simp only [h, h1, Bool.not_true, Bool.false_eq_true, ↓reduceIte, bne_iff_ne, ne_eq, hh, not_false_eq_true]
/-- No copy of the region is left, and no step of the rebind is on its way. -/
structure Recalled (s : State) (e : BitVec 128) (p : Nat) : Prop where
  txn : ∀ x ∈ (prismOf s p).txn, inRegion e (64 * x.1) = false
  req : ∀ m ∈ (prismOf s p).req, m.ty ≠ 0x0E
  thr : ∀ x ∈ (prismOf s p).thr, ∀ r, x.2 = some r → r.msg.ty ≠ 0x0E
theorem rebind_ends (h1 : s.regs.prstep = true) (hh : regHome (SMap.get 0 (prismOf s 0).regions (prArgOf s % 4096)) = s.dev)
    (hc : regionCopies s (SMap.get 0 (prismOf s 0).regions (prArgOf s % 4096)) = [])
    (hp : ∀ p < 24, Recalled s (SMap.get 0 (prismOf s 0).regions (prArgOf s % 4096)) p) : exec .rebind s =
    .next (rebindEnd (prArgOf s % 4096) (SMap.get 0 (prismOf s 0).regions (prArgOf s % 4096)) s) := by
  rw [exec_rebind]
  unfold execRebind
  simp only [h, h1, hh, hc, Bool.not_true, Bool.false_eq_true, ↓reduceIte, bne_self_eq_false, List.isEmpty_nil, Bool.true_and]
  rw [if_pos]
  rw [Bool.not_eq_true', List.any_eq_false]
  intro p hlt
  obtain ⟨htx, hrq, hth⟩ := hp p (List.mem_range.mp hlt)
  rw [Bool.not_eq_true, Bool.or_eq_false_iff, Bool.or_eq_false_iff]
  refine ⟨⟨?_, ?_⟩, ?_⟩
  · exact List.any_eq_false.mpr fun x hx => by rw [htx x hx]; decide
  · exact List.any_eq_false.mpr fun m hm => by rw [beq_iff_eq]; exact hrq m hm
  · refine List.any_eq_false.mpr fun x hx => ?_
    rw [Option.any_eq_true]
    rintro ⟨r, hr, hty⟩
    exact hth x hx r hr (beq_iff_eq.mp hty)

end

theorem unbusy_eq {s : State} (h : prUnder s 3 = true) (h2 : bitsOf (prArgOf s) 3 2 = 0) :
    exec .unbusy s = .next (
      let p := prPrism s
      let blk := normPa s (s.regs.prarg.toNat % 2 ^ 56) / 64 * 64
      if prAll s || 51 ≤ p || servingPrism s blk != p then prDone 2 s
      else if atagOf s blk != 3 then prDone 3 s
      else prDone 0 (announce p (setAtag blk (bitsOf (prArgOf s) 1 0) (txnClose p blk s)))) := by
  have h3 : bitsOf (prArgOf s) 3 3 = 0 := by
    revert h2
    unfold bitsOf
    omega
  have h22 : bitsOf (prArgOf s) 2 2 = 0 := by
    revert h2
    unfold bitsOf
    omega
  rw [exec_unbusy]
  unfold execUnbusy
  simp only [h, h3, h22, Bool.not_true, Bool.false_eq_true, ↓reduceIte, Nat.reduceBEq]

theorem setwd_sets {s : State} (h : prUnder s 4 = true) (h0 : prArgOf s % 65536 ≠ 0) (hp : prAll s = true ∨ prPrism s < 51) :
    ∃ t, exec .setwd s = .next t ∧ t.regs.prbusy = false ∧ t.regs.prstatus = 0 ∧
      ∀ p, (prAll s = true ∧ p < 51) ∨ (prAll s = false ∧ p = prPrism s) → (prismOf t p).wd = prArgOf s % 65536 := by
  rw [exec_setwd]
  unfold execSetwd
  generalize prArgOf s % 65536 = lim at *
  simp only [h, Bool.not_true, Bool.false_eq_true, ↓reduceIte, beq_eq_false_iff_ne.mpr h0, Bool.false_or]
  cases ha : prAll s with
  | true =>
    simp only [Bool.not_true, Bool.false_and, Bool.false_eq_true, ↓reduceIte]
    generalize hr : List.range 51 = ps
    refine ⟨_, rfl, rfl, rfl, fun p hp => ?_⟩
    have hlt : p < 51 := (hp.resolve_right fun h => Bool.noConfusion h.1).2
    rw [prismOf_congr (prDone_prisms ..)]
    exact prismOf_foldl_mod PrismSt.wd _ lim (fun _ => rfl) _ _ (.inl (hr ▸ List.mem_range.mpr hlt))
  | false =>
    have hlt : prPrism s < 51 := hp.resolve_left (by rw [ha]; decide)
    simp only [show ¬ 51 ≤ prPrism s by omega, decide_false, Bool.and_false, Bool.false_eq_true, ↓reduceIte]
    refine ⟨_, rfl, rfl, rfl, fun p hp => ?_⟩
    obtain ⟨h, -⟩ | ⟨-, rfl⟩ := hp
    · exact h.elim
    · rw [prismOf_congr (prDone_prisms ..), prismOf_modPrism]

/-! ### Page migration (R250) -/

theorem peek_of_mem {s t : State} (h : t.ms.mem = s.ms.mem) (a n : Nat) : peek t a n = peek s a n := by
  unfold peek
  rw [h]
theorem letThrough_mem (p : Nat → Bool) (s : State) : (letThrough p s).ms.mem = s.ms.mem := by
  unfold letThrough
  dsimp only
  split
  · rfl
  · rw [wakeTags_ms]
    rfl
theorem setAtag_mem (pa t : Nat) (s : State) : (setAtag pa t s).ms.mem = s.ms.mem := letThrough_mem ..
theorem freeUp_ms (p : Nat) (s : State) : (freeUp p s).ms = s.ms := rfl
theorem dirPut_ms (p k : Nat) (e : Option W64) (s : State) : (dirPut p k e s).ms = s.ms := rfl
theorem dirFree_ms (p k : Nat) (s : State) : (dirFree p k s).ms = s.ms := by
  unfold dirFree
  split <;> rfl
theorem lockEntry_ms (p k : Nat) (d : W64) (s : State) :
    (if d == 0 then dirFree p k s else dirPut p k (some d) s).ms = s.ms := by
  split
  · exact dirFree_ms ..
  · exact dirPut_ms ..
theorem lockRoom_ms (c : Bool) (p k : Nat) (s : State) : (if c then dirPut p k (some 0) s else s).ms = s.ms := by
  split
  · exact dirPut_ms ..
  · rfl
theorem pageLock_ms (page : Nat) (on : Bool) (s : State) : (pageLock page on s).ms = s.ms := by
  refine foldl_keeps (g := State.ms) (fun s p => ?_) ..
  refine (foldl_keeps (g := State.ms) (fun s x => ?_) ..).trans ?_
  · exact lockEntry_ms ..
  · exact lockRoom_ms ..
/-- The bytes of a page are those of the page it was copied from. -/
theorem pageCopy_mem (old new : Nat) (s : State) : (pageCopy old new s).ms.mem = (poke new 4096 (peek s old 4096) s).ms.mem := by
  unfold pageCopy
  generalize 4096 = n
  dsimp only
  rw [foldl_keeps (g := fun s => s.ms.mem) (by intros; rfl), foldl_keeps (g := fun s => s.ms.mem) (by intros; rfl),
    foldl_keeps (g := fun s => s.ms.mem) (by intros; rfl)]

/-- The page is locked, and its blocks that are not busy are read-only. -/
def lockedPage (page : Nat) (s : State) : State :=
  (List.range 64).foldl (fun s k => if atagOf s (page + 64 * k) == 3 then s else setAtag (page + 64 * k) 1 s) (pageLock page true s)
theorem lockedPage_mem (page : Nat) (s : State) : (lockedPage page s).ms.mem = s.ms.mem := by
  unfold lockedPage
  generalize List.range 64 = ks
  refine (foldl_keeps (g := fun s => s.ms.mem) (fun t k => ?_) ks _).trans (congrArg MemSt.mem (pageLock_ms ..))
  split
  · rfl
  · exact setAtag_mem ..
theorem migrate_eq {s : State} (h : prUnder s 5 = true) : exec .migrate s = .next (
    let old := bitsOf s.regs.prarg.toNat 55 12 * 4096
    let new := prArgOf s % 2 ^ 44 * 4096
    if !localHbm s old || !localHbm s new then prDone 2 s
    else if pageHeld s old then prDone 3 s
    else prDone 0 (pageCopy old new (lockedPage old s))) := by
  rw [exec_migrate]
  unfold execMigrate
  simp only [h, Bool.not_true, Bool.false_eq_true, ↓reduceIte]
  rfl

end Sys2Proof.Machine

namespace Sys2Proof
open Machine

/-- Settles O51: a dispatch turns on what hardware answers, the handler-table entry and the free threads; the supervisor's commands
on their checks, with the frames of what they leave unchanged. -/
theorem prismsServeTheirMessages : Obligations.PrismsServeTheirMessages := by
  refine ⟨?_, ?_, ?_, ?_, ?_, ?_, ?_, ?_, ?_, ?_, ?_, ?_, ?_, ?_, ?_⟩
  · rintro mk rep ty hmk p idx m s hm rfl t rfl
    have hrun : exec (mk p idx) s = .next (roomAt p (dispatchAt p rep idx (freeThread s p rep) s)) :=
      (exec_ofType hmk p idx s).trans (congrArg Host.Outcome.next (dispatchTy_of hm))
    have hheard (t : State) : heard p m t = if m.ty = 0x0C then lostDo p m t else t := by
      simp only [heard, beq_iff_eq]
    rw [hrun, ← hheard]
    refine ⟨fun hf => by rw [dispatchAt_behind hm hf], fun hf => ⟨fun u hu => ?_, fun th hu he hth => ?_, fun hu he hth => ?_, fun hu he => ?_⟩⟩
    · rw [dispatchAt_hardware hm hf hu]
    · rw [hth, dispatchAt_starts hm hf hu he]
    · rw [hth, dispatchAt_waits hm hf hu he]
    · rw [dispatchAt_refuses hm hf hu he]
  · intro p m s e line k sh hp hi hl hc ht ha
    have hf : Fast s p m.block := ⟨hp, hi, hl, hc, ht, ha⟩
    refine ⟨fun h0 hd hr => ?_, fun h1 hd hr => ?_, fun h3 hd ho hq => hardware_putm hf h3 hd ho hq, fun h0 hd => ?_, fun h1 hd => ?_⟩
    · exact (hardware_gets hf h0).trans ((if_pos hd).trans (if_pos hr))
    · exact (hardware_getm hf h1).trans ((if_pos hd).trans (if_pos hr))
    · exact (hardware_gets hf h0).trans (if_neg (by change ¬ dirDst e ≤ 1; omega))
    · exact (hardware_getm hf h1).trans (if_neg (by change ¬ dirDst e = 0; omega))
  · intro p t m entry s x
    obtain ⟨g8, u, hthr, hrun⟩ := startRun_eq p t m entry s
    have hx : x = _ := (congrArg (ctxOf · (32768 + 8 * p + t)) hrun).trans (ctxOf_setCtx ..)
    rw [hx, hrun]
    have h4 : (4 : Nat) ≠ 0 := by decide
    have h5 : (5 : Nat) ≠ 0 := by decide
    have h6 : (6 : Nat) ≠ 0 := by decide
    have h7 : (7 : Nat) ≠ 0 := by decide
    refine ⟨rfl, ?_, ?_, ?_, ?_, hthr⟩
    · simp only [readG_startReg _ _ _ h4, Nat.reduceEqDiff, ↓reduceIte]
    · simp only [readG_startReg _ _ _ h5, Nat.reduceEqDiff, ↓reduceIte]
    · simp only [readG_startReg _ _ _ h6, Nat.reduceEqDiff, ↓reduceIte]
    · simp only [readG_startReg _ _ _ h7, Nat.reduceEqDiff, ↓reduceIte]
  · intro p t idx m s rep hp ht hfree hf hm hty hu he
    rw [prismDispatch_next hp ht hfree hf, dispatchAt_starts hm hf hu he, heard_of_ne hty]
  · intro p idx m c s hm hr
    refine ⟨fun hc => ?_, fun th hc hf hty hu he hth => ?_⟩
    · exact (retryRedispatch_eq hm hr).trans (congrArg Host.Outcome.next (if_neg (by omega)))
    · rw [retryRedispatch_eq hm hr, if_pos hc, hth, dispatchAt_starts hm hf hu he, heard_of_ne hty]
  · intro p t r s hp ht hr
    exact ⟨fun h => (handlerWatchdog_eq hp ht hr).trans (congrArg Host.Outcome.next (if_pos h)),
      fun h => (handlerWatchdog_eq hp ht hr).trans (congrArg Host.Outcome.next (if_neg (by omega)))⟩
  · intro p mark k rest s hs
    rw [exec_prismSpillDrain]
    unfold execPrismSpillDrain
    rw [hs]
    exact ⟨fun h => congrArg Host.Outcome.next (if_pos h), fun h => congrArg Host.Outcome.next (if_neg (by omega))⟩
  · intro p idx e d off s he hsp
    rw [exec_partialEntryTimeout]
    unfold execPartialEntryTimeout
    simp only [he, hsp]
    exact ⟨fun h => congrArg Host.Outcome.next (if_pos h), fun h => congrArg Host.Outcome.next (if_neg (Nat.not_le.mpr h))⟩
  · exact fun s h => rtsync_reads h
  · intro s h i e held
    refine ⟨fun h0 hbad => ?_, fun h0 hv hp ho hn t ht => ?_, fun h1 hh => rebind_elsewhere h h1 hh, fun h1 hh hc hp => ?_⟩
    · refine (rebind_begins h h0).trans (congrArg Host.Outcome.next (if_pos ?_))
      obtain hb | hb | hb | hb := hbad <;> simp only [i, e] at hb <;> simp [hb]
    · refine (rebind_begins h h0).trans (congrArg Host.Outcome.next ((if_neg ?_).trans ?_))
      · simp only [e, i] at hv hp ho hn
        simp [hv, hp, ho, hn]
      · simp only [beq_iff_eq, ht]
        rfl
    · exact rebind_ends h h1 hh hc fun p hlt => have ⟨ht, hr, hth⟩ := hp p hlt; ⟨ht, hr, hth⟩
  · intro s h p blk
    have hchecks (ha : prAll s = false) (hp : p < 51) (hs : servingPrism s blk = p) :
        ¬ (prAll s || decide (51 ≤ p) || servingPrism s blk != p) = true := by
      rw [Bool.or_eq_true, Bool.or_eq_true, decide_eq_true_eq, bne_iff_ne, ha]
      rintro ((h | h) | h)
      · exact Bool.false_ne_true h
      · omega
      · exact h hs
    refine ⟨fun hbad => ?_, fun ha hp hs ht => ?_, fun ha hp hs ht h2 => ?_⟩
    · rw [exec_unbusy]
      unfold execUnbusy
      refine congrArg Host.Outcome.next ((if_neg (not_bang h)).trans (if_pos ?_))
      rw [Bool.or_eq_true, Bool.or_eq_true, decide_eq_true_eq, bne_iff_ne]
      exact or_assoc.mpr hbad
    · rw [exec_unbusy]
      unfold execUnbusy
      refine congrArg Host.Outcome.next ((if_neg (not_bang h)).trans ((if_neg (hchecks ha hp hs)).trans (if_pos ?_)))
      exact bne_iff_ne.mpr ht
    · refine (unbusy_eq h h2).trans (congrArg Host.Outcome.next ((if_neg (hchecks ha hp hs)).trans (if_neg ?_)))
      exact fun hne => bne_iff_ne.mp hne ht
  · intro s h
    refine ⟨fun hbad => ?_, fun h0 hp => setwd_sets h h0 hp⟩
    rw [exec_setwd]
    unfold execSetwd
    refine congrArg Host.Outcome.next ((if_neg (not_bang h)).trans (if_pos ?_))
    obtain hb | ⟨ha, hb⟩ := hbad
    · simp [hb]
    · simp [ha, hb]
  · intro s h old new
    refine ⟨fun hbad => ?_, fun ho hn hh => ?_, fun ho hn hh => ⟨prDone 0 (pageCopy old new (lockedPage old s)), ?_, rfl, rfl, ?_⟩⟩
    · refine (migrate_eq h).trans (congrArg Host.Outcome.next (if_pos ?_))
      obtain hb | hb := hbad
      · exact Bool.or_eq_true_iff.mpr (.inl (by rw [hb]; rfl))
      · exact Bool.or_eq_true_iff.mpr (.inr (by rw [hb]; rfl))
    · exact (migrate_eq h).trans (congrArg Host.Outcome.next ((if_neg (by rw [ho, hn]; decide)).trans (if_pos hh)))
    · exact (migrate_eq h).trans (congrArg Host.Outcome.next ((if_neg (by rw [ho, hn]; decide)).trans (if_neg (by rw [hh]; decide))))
    · rw [peek_of_mem (congrArg MemSt.mem (prDone_ms ..)), peek_of_mem (pageCopy_mem ..), peek_poke,
        peek_of_mem (lockedPage_mem ..), Nat.mod_eq_of_lt (peek_lt ..)]
  · intro s h page locked
    rw [exec_migdone]
    unfold execMigdone
    simp only [h, Bool.not_true, Bool.false_eq_true, ↓reduceIte]
    refine ⟨fun hl => ?_, fun hl hk => ?_, fun hl hk => ⟨_, congrArg Host.Outcome.next ((if_neg (not_bang hl)).trans (if_neg (not_bang hk))), rfl, rfl⟩⟩
    · exact congrArg Host.Outcome.next (if_pos (bang hl))
    · exact congrArg Host.Outcome.next ((if_neg (not_bang hl)).trans (if_pos (bang hk)))
  · intro s h i hi
    have hnot (n : Nat) : (!prUnder s n) = true := by
      unfold prUnder
      rw [h]
      rfl
    simp only [List.mem_cons, List.not_mem_nil, or_false] at hi
    obtain rfl | rfl | rfl | rfl | rfl | rfl := hi
    · exact (exec_rtsync s).trans (congrArg Host.Outcome.next (if_pos (hnot 1)))
    · exact (exec_rebind s).trans (congrArg Host.Outcome.next (if_pos (hnot 2)))
    · exact (exec_unbusy s).trans (congrArg Host.Outcome.next (if_pos (hnot 3)))
    · exact (exec_setwd s).trans (congrArg Host.Outcome.next (if_pos (hnot 4)))
    · exact (exec_migrate s).trans (congrArg Host.Outcome.next (if_pos (hnot 5)))
    · exact (exec_migdone s).trans (congrArg Host.Outcome.next (if_pos (hnot 6)))

end Sys2Proof
end

section
set_option Elab.async false
/-! Words that the spec writes out, and the values right after reset (R8, R20, R60, R65, R226, R301, R464). -/

namespace Sys2Proof
open Machine

/-- Settles O55, by running the decoder on each word. -/
theorem wordsOfTheSpecDecode : Obligations.WordsOfTheSpecDecode := by
  refine ⟨?_, ?_, ?_, ?_, ?_, ?_, ?_, ?_, ?_, ?_, ?_⟩ <;> rfl

theorem fnOf_reset_vf {f : Nat} (h : f ≠ 0) : fnOf State.reset f = {} :=
  if_neg (by rw [beq_iff_eq]; exact h)
/-- What the PF and a VF both have after reset, every function has. -/
theorem fnOf_reset (P : Fn → Prop) (h0 : P (fnOf State.reset 0)) (hv : P {}) (f : Nat) : P (fnOf State.reset f) := by
  by_cases h : f = 0
  · rw [h]
    exact h0
  · rw [fnOf_reset_vf h]
    exact hv

/-- Settles O58: every map of the reset machine is empty, so each read gives the default of its map. -/
theorem resetLeavesTheStatedValues : Obligations.ResetLeavesTheStatedValues := by
  unfold Obligations.ResetLeavesTheStatedValues
  intro s
  refine ⟨?_, fun a => ⟨?_, ?_⟩, fun a ha => ?_, fun c => ⟨?_, ?_⟩, fun k => ?_, fun k => ?_, fun f => ⟨?_, ?_, ?_⟩, ?_, ?_, fun f hf => ?_, fun p => ?_, ?_, ?_⟩
  · exact ⟨rfl, rfl⟩
  · rfl
  · rfl
  · unfold atagOf
    rw [ha]
    rfl
  · rfl
  · rfl
  · rfl
  · rfl
  · exact (fnOf_reset (fun x => x.hvsel = 0) rfl rfl f)
  · exact (fnOf_reset (fun x => x.qdirbase = 0) rfl rfl f)
  · exact (fnOf_reset (fun x => x.fqctl.getLsbD 63 = false) rfl rfl f)
  · change bitsOf vfctl0.toNat 39 27 = 4096
    decide
  · change bitsOf vfctl0.toNat 26 18 = 256
    decide
  · rw [fnOf_reset_vf hf]
  · rfl
  · rfl
  · rfl

end Sys2Proof
end

section
set_option Elab.async false
/-! What a write at a home leaves in memory, and a buffered store's way there (R175, R212). -/
namespace Sys2Proof.Machine

/-! ### The bytes of the two memories -/

/-- Neither the physical map nor host memory has changed. -/
structure SameBytes (s t : State) : Prop where
  mem : t.ms.mem = s.ms.mem
  hostio : t.ms.hostio = s.ms.hostio

theorem SameBytes.refl (s : State) : SameBytes s s := ⟨rfl, rfl⟩
theorem SameBytes.trans {s t u : State} (h : SameBytes s t) (k : SameBytes t u) : SameBytes s u :=
  ⟨k.mem.trans h.mem, k.hostio.trans h.hostio⟩
theorem SameBytes.of_ms {s t : State} (h : t.ms = s.ms) : SameBytes s t := ⟨by rw [h], by rw [h]⟩
theorem SameBytes.foldl {α : Type} {f : State → α → State} (h : ∀ s x, SameBytes s (f s x)) (l : List α) (s : State) :
    SameBytes s (l.foldl f s) :=
  ⟨foldl_keeps (g := fun s => s.ms.mem) (fun s x => (h s x).mem) .., foldl_keeps (g := fun s => s.ms.hostio) (fun s x => (h s x).hostio) ..⟩
theorem SameBytes.modMs {f : MemSt → MemSt} {s : State} (h : (f s.ms).mem = s.ms.mem) (k : (f s.ms).hostio = s.ms.hostio) :
    SameBytes s (modMs f s) := ⟨h, k⟩
theorem SameBytes.ite {c : Prop} [Decidable c] {s t u : State} (ht : SameBytes s t) (hu : SameBytes s u) :
    SameBytes s (if c then t else u) := by
  split
  · exact ht
  · exact hu
theorem SameBytes.peek {s t : State} (h : SameBytes s t) (a n : Nat) : peek t a n = peek s a n := peek_of_mem h.mem a n

/-! ### Writes at the home -/

theorem sameBytes_countEcc (s : State) (w : Nat) : SameBytes s (countEcc s w) := by
  unfold countEcc
  exact .ite ⟨rfl, rfl⟩ ⟨rfl, rfl⟩
theorem sameBytes_correct (pa n : Nat) (s : State) : SameBytes s (correct pa n s) := by
  unfold correct
  exact .ite (.refl s) (.foldl sameBytes_countEcc _ _)
theorem sameBytes_poisonWord (pa n x : Nat) (s : State) (w : Nat) : SameBytes s (poisonWord pa n x s w) := by
  unfold poisonWord
  exact .ite ⟨rfl, rfl⟩ (.ite (sameBytes_correct ..) (.ite (.refl s) ⟨rfl, rfl⟩))
theorem sameBytes_poisonWrite (pa n x : Nat) (s : State) : SameBytes s (poisonWrite pa n x s) := by
  unfold poisonWrite
  exact .ite (.refl s) (.foldl (sameBytes_poisonWord pa n x) _ _)
theorem sameBytes_dropOwned (unit blk : Nat) (s : State) : SameBytes s (dropOwned unit blk s) := by
  unfold dropOwned
  exact .ite ⟨rfl, rfl⟩ ⟨rfl, rfl⟩
theorem sameBytes_takeOwner (pa : Nat) (unit : Option Nat) (s : State) : SameBytes s (takeOwner pa unit s) := by
  unfold takeOwner
  split
  · exact .ite (.refl s) ((SameBytes.modMs rfl rfl).trans (sameBytes_dropOwned ..))
  · exact .refl s
theorem sameBytes_clearTags (pa n : Nat) (s : State) : SameBytes s (clearTags pa n s) := by
  unfold clearTags
  exact .foldl (fun _ _ => .modMs rfl rfl) ..
theorem sameBytes_tagWrite (tag : Bool) (pa n : Nat) (s : State) :
    SameBytes s (if tag then setTag pa true s else clearTags pa n s) :=
  .ite ⟨rfl, rfl⟩ (sameBytes_clearTags ..)
theorem sameBytes_lineMarked (pa : Nat) (owner : Option Nat) (s : State) : SameBytes s (lineMarked pa owner s) := by
  unfold lineMarked
  split
  · exact .refl s
  · exact ⟨rfl, rfl⟩
theorem sameBytes_lineWrite (pa n x : Nat) (owner : Option Nat) (s : State) : SameBytes s (lineWrite pa n x owner s) := by
  have hline : SameBytes s (lineMarked pa owner (takeOwner pa owner (poisonWrite pa n x s))) :=
    ((sameBytes_poisonWrite ..).trans (sameBytes_takeOwner ..)).trans (sameBytes_lineMarked ..)
  unfold lineWrite
  split
  · exact hline
  · exact hline
  · exact hline
  · exact ⟨rfl, rfl⟩
  · exact .refl s
/-- A write at the home changes the bytes as `poke` does, and tags, poison and the L2 besides. -/
theorem sameBytes_memWrite (pa n x : Nat) (tag : Bool) (owner : Option Nat) (s : State) :
    SameBytes (poke pa n x s) (memWrite pa n x tag owner s) := by
  rw [memWrite_eq]
  exact (sameBytes_tagWrite ..).trans (sameBytes_lineWrite ..)
theorem sameBytes_withHome (pa home : Nat) (f : State → State) (s : State) : SameBytes (f s) (withHome pa home f s) := by
  unfold withHome
  exact .ite (.refl _) ⟨rfl, rfl⟩
theorem sameBytes_notePushed (cid pa : Nat) (s : State) : SameBytes s (notePushed cid pa s) := by
  unfold notePushed
  exact .ite (.refl s) ⟨rfl, rfl⟩
theorem sameBytes_homeWrite_hbm {pa : Nat} {s : State} (h : spaceOf s pa = .hbm) (n x : Nat) (tag : Bool) (owner : Option Nat) (writer : Nat) :
    SameBytes (poke pa n x s) (homeWrite pa n x tag owner writer s) := by
  unfold homeWrite
  rw [h]
  exact (sameBytes_memWrite ..).trans (sameBytes_notePushed ..)

/-! ### Host memory -/

theorem hostPeek_hostPoke_other (f g a b n k x : Nat) (s : State) (hfg : f ≠ g) (ha : a + n ≤ 2 ^ 64) (hb : b + k ≤ 2 ^ 64) :
    hostPeek (hostPoke f a n x s) g b k = hostPeek s g b k := by
  rw [hostPeek, hostPoke, modMs_ms, hostPeek]
  refine congrArg leNat (peekBytes_congr fun j h1 h2 => ?_)
  rw [get_pokeBytes, length_leBytes, if_neg (by omega)]

/-! ### A store of the buffer (R175) -/

theorem sameBytes_pumpUnit (core : Nat) (s : State) (k : Nat) : SameBytes s (pumpUnit core k s) := by
  unfold pumpUnit
  split
  · exact .refl s
  · exact ⟨rfl, rfl⟩
theorem sameBytes_wakeIf (p : Nat → Ctx → Bool) (s : State) : SameBytes s (wakeIf p s) := ⟨rfl, rfl⟩
theorem sameBytes_freeStore (core idx : Nat) (s : State) : SameBytes s (freeStore core idx s) := by
  have hpump (u : State) : SameBytes u ((List.range 8).foldl (fun s k => pumpUnit core k s) u) := .foldl (sameBytes_pumpUnit core) _ _
  unfold freeStore
  refine SameBytes.trans ?_ (sameBytes_wakeIf ..)
  refine SameBytes.trans ?_ (sameBytes_wakeIf ..)
  exact SameBytes.trans (.of_ms (modCore_ms ..)) (hpump _)
theorem sameBytes_l1Store (core pa n x : Nat) (tag : Bool) (s : State) : SameBytes s (l1Store core pa n x tag s) := by
  unfold l1Store
  split
  · exact .refl s
  · exact ⟨rfl, rfl⟩
theorem sameBytes_unsuspend (pa ty cid : Nat) (s : State) : SameBytes s (unsuspend pa ty cid s) := by
  unfold unsuspend
  exact .ite (.refl s) ⟨rfl, rfl⟩
theorem spaceOf_unsuspend (pa ty cid b : Nat) (s : State) : spaceOf (unsuspend pa ty cid s) b = spaceOf s b := by
  unfold unsuspend
  split
  · rfl
  · exact (SameMap.modMs ..).spaceOf b
theorem noteLaunch_hbm {cid pa n : Nat} {s : State} (h : spaceOf s pa = .hbm) : noteLaunch cid pa n s = s := by
  unfold noteLaunch
  rw [h]

section
variable {core unit idx : Nat} {e : SbEntry} {s : State}

theorem sameBytes_storePerformed (hs : spaceOf s e.pa = .hbm) :
    SameBytes (poke e.pa e.n e.data (unsuspend e.pa 1 e.cid s)) (storePerformed unit e s) := by
  unfold storePerformed
  rw [noteLaunch_hbm hs, ite_self]
  exact (sameBytes_homeWrite_hbm (by rw [spaceOf_unsuspend]; exact hs) ..).trans (sameBytes_withHome ..)
theorem peek_storePerformed (hs : spaceOf s e.pa = .hbm) (b k : Nat) :
    peek (storePerformed unit e s) b k = peek (poke e.pa e.n e.data s) b k := by
  rw [(sameBytes_storePerformed hs).peek]
  refine peek_of_mem ?_ b k
  exact congrArg (pokeBytes · e.pa (leBytes e.n e.data)) (sameBytes_unsuspend ..).mem

variable (he : (coreOf s core).sb[idx]? = some e) (hm : e.mca = 0) (hs : spaceOf s e.pa = .hbm) (hg : homeGate s e.cid e.pa 1 = .go)
include he hm hs hg

theorem storeAck_writes (hr : storeReady s core idx e = true)
    (ho : ownerOf s (blockOf e.pa) = none ∨ ownerOf s (blockOf e.pa) = some core) : ∃ t, exec (.storeAck core idx) s = .next t ∧
      ∀ b k, peek t b k = peek (poke e.pa e.n e.data s) b k := by
  have hsp : ∀ d off, spaceOf s e.pa ≠ .remote d off := fun d off h => by rw [hs] at h; exact Space.noConfusion h
  refine ⟨_, (exec_storeAck ..).trans (storeAck_done he hr hsp hm (performMode_done hm hg ho)), fun b k => ?_⟩
  rw [((sameBytes_l1Store ..).trans (sameBytes_freeStore ..)).peek]
  exact peek_storePerformed hs b k
/-- A store that its home does not take yet leaves memory as it is; one that is performed writes its bytes. -/
theorem storeAck_keeps_or_writes {t : State} (ht : exec (.storeAck core idx) s = .next t) :
    (∀ b k, peek t b k = peek s b k) ∨ ∀ b k, peek t b k = peek (poke e.pa e.n e.data s) b k := by
  have hsp : ∀ d off, spaceOf s e.pa ≠ .remote d off := fun d off h => by rw [hs] at h; exact Space.noConfusion h
  cases hr : storeReady s core idx e with
  | false =>
    rw [exec_storeAck] at ht
    unfold execStoreAck at ht
    simp only [he, hr, Bool.not_false, ↓reduceIte, Host.Outcome.next.injEq] at ht
    exact .inl fun b k => by rw [ht]
  | true =>
    by_cases ho : ownerOf s (blockOf e.pa) = none ∨ ownerOf s (blockOf e.pa) = some core
    · obtain ⟨u, hu, hmem⟩ := storeAck_writes he hm hs hg hr ho
      obtain rfl : u = t := Host.Outcome.next.inj (hu.symm.trans ht)
      exact .inr hmem
    · obtain ⟨hn, hc⟩ := not_or.mp ho
      obtain ⟨k, hk⟩ := Option.ne_none_iff_exists'.mp hn
      have hrun := (exec_storeAck core idx s).trans
        (storeAck_waits he hr hsp (performMode_noticed hm hg hk fun h => hc (h ▸ hk)))
      rw [Host.Outcome.next.inj (ht.symm.trans hrun)]
      refine .inl fun b k => ?_
      unfold postNotice
      dsimp only
      split <;> rfl

end

end Sys2Proof.Machine

namespace Sys2Proof
open Machine

/-- Settles O59: the bytes after a write at the home are those after `poke`. -/
theorem memoryGivesBackWhatWasWritten : Obligations.MemoryGivesBackWhatWasWritten := by
  refine ⟨fun pa n x tag owner s => ?_, fun pa n x tag owner s b k h => ?_, fun f a n x s _ => hostPeek_hostPoke ..,
    fun f a n x s g b k hfg ha hb => hostPeek_hostPoke_other f g a b n k x s hfg ha hb,
    fun core idx e s t he hm hs hg ht b hb => ?_, fun core idx e s he hr hm hs hg ho => ?_⟩
  · rw [(sameBytes_memWrite ..).peek, peek_poke]
  · rw [(sameBytes_memWrite ..).peek, peek_poke_disjoint _ _ _ _ _ _ h]
  · rcases storeAck_keeps_or_writes he hm hs hg ht with h | h
    · exact h b 1
    · rw [h, peek_poke_disjoint _ _ _ _ _ _ (by omega)]
  · obtain ⟨t, ht, hmem⟩ := storeAck_writes he hm hs hg hr (.inl ho)
    exact ⟨t, ht, by rw [hmem, peek_poke]⟩

end Sys2Proof
end

section
set_option Elab.async false
/-! What a head that computes into gD leaves as it is (R332, R337, R353). -/
namespace Sys2Proof.Machine

/-! ### The heads that compute into gD -/

/-- The head's body always succeeds in sequence, writes gD and nothing else, and names no v register. -/
def WritesG (mk : Head → Instr) (r : Row) : Prop := ∀ h, ∃ body : X Next,
  (∀ s, exec (mk h) s = runHead r h (Use.ofRow r h) body s) ∧ (∀ s, ∃ c, body s = .ok .seq (withG h c s)) ∧
  (Use.ofRow r h).rv ++ (Use.ofRow r h).wv = []

section
variable {mk : Head → Instr} {r : Row} (hr : r.d ≠ .v ∧ r.a ≠ .v ∧ r.b1 ≠ .v ∧ r.b2 ≠ .v)
include hr

theorem writesG_of_intHead {f : Head → W64 → W64 → W64} (he : ∀ h s, exec (mk h) s = intHead r h (f h) s) : WritesG mk r :=
  fun h => ⟨_, he h, fun _ => ⟨_, rfl⟩, ofRow_nil h hr⟩
theorem writesG_of_capHead {f : Cap → W64 → Cap} (he : ∀ h s, exec (mk h) s = capHead r h f s) : WritesG mk r :=
  fun h => ⟨_, he h, fun _ => ⟨_, rfl⟩, ofRow_nil h hr⟩
theorem writesG_of_getHead {f : Cap → W64} (he : ∀ h s, exec (mk h) s = getHead r h f s) : WritesG mk r :=
  fun h => ⟨_, he h, fun _ => ⟨_, rfl⟩, ofRow_nil h hr⟩

end

/-! ### What a completed head leaves -/

/-- What a context holds beside the state of its wait and its head. -/
def archOf (x : Ctx) : Ctx := { x with st := .free, wait := .none, since := 0, granted := false, fetched := [], relBegun := false }

/-- Between `s` and `t` context `c` at most waits, and no other context and no byte has changed. -/
structure OnlyWaits (c : Nat) (s t : State) : Prop where
  bytes : SameBytes s t
  own : archOf (ctxOf t c) = archOf (ctxOf s c)
  other : ∀ k, k ≠ c → ctxOf t k = ctxOf s k

theorem OnlyWaits.refl (c : Nat) (s : State) : OnlyWaits c s s := ⟨.refl s, rfl, fun _ _ => rfl⟩
theorem OnlyWaits.trans {c : Nat} {s t u : State} (h : OnlyWaits c s t) (k : OnlyWaits c t u) : OnlyWaits c s u :=
  ⟨h.bytes.trans k.bytes, k.own.trans h.own, fun j hj => (k.other j hj).trans (h.other j hj)⟩
theorem OnlyWaits.of_ctxs {c : Nat} {s t : State} (hm : t.ms = s.ms) (hc : t.ctxs = s.ctxs) : OnlyWaits c s t :=
  ⟨.of_ms hm, by rw [ctxOf_congr hc], fun k _ => by rw [ctxOf_congr hc]⟩
theorem OnlyWaits.setCtx {c : Nat} {x : Ctx} {s : State} (h : archOf x = archOf (ctxOf s c)) : OnlyWaits c s (setCtx s c x) :=
  ⟨.of_ms rfl, by rw [ctxOf_setCtx, h], fun _ hk => ctxOf_setCtx_ne s x hk⟩
theorem OnlyWaits.modCtx {c : Nat} {f : Ctx → Ctx} {s : State} (h : archOf (f (ctxOf s c)) = archOf (ctxOf s c)) :
    OnlyWaits c s (modCtx c f s) := .setCtx h
theorem onlyWaits_leaveSlot (c k : Nat) (s : State) : OnlyWaits c s (leaveSlot k s) := by
  unfold leaveSlot
  split
  · exact .refl c s
  · exact .of_ctxs (modCore_ms ..) (modCore_ctxs ..)
theorem ctxOf_leaveSlot (k c : Nat) (s : State) : ctxOf (leaveSlot k s) c = ctxOf s c := by
  unfold leaveSlot
  split
  · rfl
  · exact ctxOf_congr (modCore_ctxs ..) c
theorem onlyWaits_pairRetire (u : Use) (s : State) : OnlyWaits s.cur s (pairRetire u s) := by
  unfold pairRetire
  split
  · exact .refl _ s
  · dsimp only
    split
    · exact (OnlyWaits.of_ctxs (modGrp_ms ..) (modGrp_ctxs ..)).trans ((onlyWaits_leaveSlot ..).trans (.modCtx rfl))
    · exact .of_ctxs (modGrp_ms ..) (modGrp_ctxs ..)
theorem onlyWaits_markerPark (c : Nat) (s : State) : OnlyWaits c s (markerPark c s) := by
  have hset {x : Ctx} (h : archOf x = archOf (ctxOf s c)) : OnlyWaits c s (setCtx (leaveSlot c s) c x) :=
    (onlyWaits_leaveSlot c c s).trans (.setCtx (by rw [ctxOf_leaveSlot, h]))
  unfold markerPark
  dsimp only
  split
  · split
    · exact .refl c s
    · exact .setCtx rfl
  · split
    · exact hset rfl
    · exact hset rfl
theorem pairRetire_cur (u : Use) (s : State) : (pairRetire u s).cur = s.cur := by
  unfold pairRetire
  split
  · rfl
  · dsimp only
    split
    · rw [modCtx_cur, leaveSlot_cur, modGrp_cur]
    · rw [modGrp_cur]
/-- On a core a completed head moves its PC; what else it leaves beside its own state is that its context may wait. -/
theorem onlyWaits_advance {h : Head} {u : Use} {n : Next} {t : State} (ht : isThread t.cur = false) :
    OnlyWaits t.cur (modHere (headDone (nextPc t n)) t) (advance h u n t) := by
  have hret : OnlyWaits t.cur (modHere (headDone (nextPc t n)) t)
      (if n == .again then modHere (headDone (nextPc t n)) t else pairRetire u (modHere (headDone (nextPc t n)) t)) := by
    split
    · exact .refl _ _
    · exact onlyWaits_pairRetire u (modHere (headDone (nextPc t n)) t)
  have hcur : (if n == .again then modHere (headDone (nextPc t n)) t else pairRetire u (modHere (headDone (nextPc t n)) t)).cur = t.cur := by
    split
    · rfl
    · exact pairRetire_cur u (modHere (headDone (nextPc t n)) t)
  rw [advance_core ht]
  dsimp only
  generalize (if n == .again then modHere (headDone (nextPc t n)) t else pairRetire u (modHere (headDone (nextPc t n)) t)) = v
    at hret hcur ⊢
  split
  · rw [hcur]
    exact hret.trans (onlyWaits_markerPark ..)
  · exact hret

/-- The partner's context is another one (R199). -/
theorem partnerOf_ne {s : State} {c q : Nat} (h : partnerOf s c = some q) : q ≠ c := by
  unfold partnerOf at h
  split at h
  · obtain ⟨p, hp, rfl⟩ := Option.map_eq_some_iff.mp h
    have hpred := List.find?_some hp
    rw [Bool.and_eq_true, bne_iff_ne] at hpred
    exact hpred.2
  · exact absurd h (by simp)

/-- The registers, flags and trap registers that a head leaves, all but one g register, and where its PC goes. -/
def KeepsAllBut (r : Nat) (pc : Pc) (x y : Ctx) : Prop :=
  (∀ k, k ≠ r → readG y k = readG x k) ∧ readG y 0 = Cap.null ∧ y.v = x.v ∧ y.m = x.m ∧ y.f = x.f ∧ y.fpflags = x.fpflags ∧
    y.sup = x.sup ∧ y.fl = x.fl ∧ y.trappc = x.trappc ∧ y.trapcause = x.trapcause ∧ y.trapaddr = x.trapaddr ∧
    y.trapinfo = x.trapinfo ∧ y.pc = pc

theorem keepsAllBut_of_arch {r : Nat} {c : Cap} {pc : Pc} {x y : Ctx} (h : archOf y = archOf (headDone pc (writeG x r c))) :
    KeepsAllBut r pc x y := by
  have get {β : Type} (f : Ctx → β) (hf : ∀ z, f (archOf z) = f z) : f y = f (headDone pc (writeG x r c)) :=
    (hf y).symm.trans ((congrArg f h).trans (hf _))
  refine ⟨fun k hk => ?_, rfl, (get (·.v) fun _ => rfl).trans (writeG_v ..), (get (·.m) fun _ => rfl).trans (writeG_m ..),
    (get (·.f) fun _ => rfl).trans (writeG_f ..), (get (·.fpflags) fun _ => rfl).trans (writeG_fpflags ..),
    (get (·.sup) fun _ => rfl).trans (writeG_sup ..), (get (·.fl) fun _ => rfl).trans (writeG_fl ..),
    (get (·.trappc) fun _ => rfl).trans (writeG_trappc ..), (get (·.trapcause) fun _ => rfl).trans (writeG_trapcause ..),
    (get (·.trapaddr) fun _ => rfl).trans (writeG_trapaddr ..), (get (·.trapinfo) fun _ => rfl).trans (writeG_trapinfo ..),
    get (·.pc) fun _ => rfl⟩
  exact (get (readG · k) fun _ => rfl).trans (readG_writeG_ne x c hk)

/-- Wherever such a head issues it completes, and only gD, the PC and the state of its wait have changed. -/
theorem writesG_frame {mk : Head → Instr} {r : Row} (hw : WritesG mk r) (h : Head) {s : State} (hc : isThread s.cur = false)
    (hi : issueStop s r (Use.ofRow r h) = none) (hg : (unconfirmed s && endsInterval r) = false) :
    ∃ t, exec (mk h) s = .next t ∧ SameBytes s t ∧ (∀ c, c ≠ s.cur → partnerOf s s.cur ≠ some c → ctxOf t c = ctxOf s c) ∧
      KeepsAllBut h.d.toNat (pcAfter (ctxOf s s.cur).pc s.heads) (ctxOf s s.cur) (ctxOf t s.cur) := by
  obtain ⟨body, he, hb, hnil⟩ := hw h
  obtain ⟨c, hbody⟩ := hb s
  have hadv : OnlyWaits s.cur (modHere (headDone (nextPc (withG h c s) .seq)) (withG h c s))
      (advance h (Use.ofRow r h) .seq (withG h c s)) := onlyWaits_advance (t := withG h c s) hc
  have hpc : nextPc (withG h c s) .seq = pcAfter (ctxOf s s.cur).pc s.heads := by
    show pcAfter (here (withG h c s)).pc s.heads = _
    rw [withG, here_modHere, writeG_pc]
    rfl
  rw [hpc] at hadv
  have hother : ∀ k, k ≠ s.cur → ctxOf (advance h (Use.ofRow r h) .seq (withG h c s)) k = ctxOf s k := fun k hk =>
    (hadv.other k hk).trans ((ctxOf_modCtx_ne _ _ hk).trans (ctxOf_modCtx_ne _ _ hk))
  have hown : KeepsAllBut h.d.toNat (pcAfter (ctxOf s s.cur).pc s.heads) (ctxOf s s.cur)
      (ctxOf (advance h (Use.ofRow r h) .seq (withG h c s)) s.cur) := by
    refine keepsAllBut_of_arch (c := c) (hadv.own.trans (congrArg archOf ?_))
    exact (here_modHere ..).trans (congrArg _ (here_modHere ..))
  have hbytes : SameBytes s (advance h (Use.ofRow r h) .seq (withG h c s)) := 
    SameBytes.trans (t := modHere _ (withG h c s)) (.of_ms rfl) hadv.bytes
  rw [he]
  rcases runHead_mirrors hi hg (unbound_nil hnil) hbody Next.noConfusion (unbound_nil hnil) with hrun | ⟨q, y, f, hq, hrun⟩
  · exact ⟨_, hrun, hbytes, fun k hk _ => hother k hk, hown⟩
  · refine ⟨_, hrun, hbytes.trans (.of_ms rfl), fun k hk hkq => ?_, ?_⟩
    · exact (ctxOf_setCtx_ne _ _ fun hkq' => hkq (hq.trans (congrArg some hkq'.symm))).trans (hother k hk)
    · have hcur : ctxOf (modGrp f (setCtx (advance h (Use.ofRow r h) .seq (withG h c s)) q y)) s.cur =
          ctxOf (advance h (Use.ofRow r h) .seq (withG h c s)) s.cur := ctxOf_setCtx_ne _ _ (partnerOf_ne hq).symm
      rw [hcur]
      exact hown

end Sys2Proof.Machine

namespace Sys2Proof
open Machine

/-- Settles O60: each of these heads runs a body that only writes gD (`WritesG`), and what a completed head leaves follows. -/
theorem registerHeadsChangeOnlyTheirDestination : Obligations.RegisterHeadsChangeOnlyTheirDestination := by
  intro mk r hmem h s hc hi hg
  have hw : WritesG mk r := by
    revert hmem
    suffices hall : ∀ x ∈ [(Instr.add, Rows.add), (Instr.addW, Rows.addW), (Instr.sub, Rows.sub), (Instr.subW, Rows.subW),
      (Instr.mul, Rows.mul), (Instr.mulh, Rows.mulh), (Instr.mulhu, Rows.mulhu), (Instr.mulW, Rows.mulW), (Instr.and, Rows.and),
      (Instr.or, Rows.or), (Instr.xor, Rows.xor), (Instr.andn, Rows.andn), (Instr.shl, Rows.shl), (Instr.shr, Rows.shr),
      (Instr.sra, Rows.sra), (Instr.ror, Rows.ror), (Instr.seq, Rows.seq), (Instr.sne, Rows.sne), (Instr.slt, Rows.slt),
      (Instr.sge, Rows.sge), (Instr.sltu, Rows.sltu), (Instr.sgeu, Rows.sgeu), (Instr.min, Rows.min), (Instr.max, Rows.max),
      (Instr.minu, Rows.minu), (Instr.maxu, Rows.maxu), (Instr.clz, Rows.clz), (Instr.ctz, Rows.ctz), (Instr.popc, Rows.popc),
      (Instr.brev, Rows.brev), (Instr.bswap, Rows.bswap), (Instr.extu, Rows.extu), (Instr.ext, Rows.ext),
      (Instr.csub, Rows.csub), (Instr.mov, Rows.mov), (Instr.movd, Rows.movd), (Instr.cgetAddr, Rows.cgetAddr),
      (Instr.cgetBase, Rows.cgetBase), (Instr.cgetTop, Rows.cgetTop), (Instr.cgetLen, Rows.cgetLen),
      (Instr.cgetPerm, Rows.cgetPerm), (Instr.cgetFmt, Rows.cgetFmt), (Instr.cgetK, Rows.cgetK), (Instr.cgetTag, Rows.cgetTag)],
      WritesG x.1 x.2 from fun hmem => hall _ hmem
    simp only [List.forall_mem_cons, List.not_mem_nil, false_implies, implies_true, and_true]
    exact ⟨writesG_of_intHead (by decide) exec_add,
      writesG_of_intHead (by decide) exec_addW,
      writesG_of_intHead (by decide) exec_sub,
      writesG_of_intHead (by decide) exec_subW,
      writesG_of_intHead (by decide) exec_mul,
      writesG_of_intHead (by decide) exec_mulh,
      writesG_of_intHead (by decide) exec_mulhu,
      writesG_of_intHead (by decide) exec_mulW,
      writesG_of_intHead (by decide) exec_and,
      writesG_of_intHead (by decide) exec_or,
      writesG_of_intHead (by decide) exec_xor,
      writesG_of_intHead (by decide) exec_andn,
      writesG_of_intHead (by decide) exec_shl,
      writesG_of_intHead (by decide) exec_shr,
      writesG_of_intHead (by decide) exec_sra,
      writesG_of_intHead (by decide) exec_ror,
      writesG_of_intHead (by decide) exec_seq,
      writesG_of_intHead (by decide) exec_sne,
      writesG_of_intHead (by decide) exec_slt,
      writesG_of_intHead (by decide) exec_sge,
      writesG_of_intHead (by decide) exec_sltu,
      writesG_of_intHead (by decide) exec_sgeu,
      writesG_of_intHead (by decide) exec_min,
      writesG_of_intHead (by decide) exec_max,
      writesG_of_intHead (by decide) exec_minu,
      writesG_of_intHead (by decide) exec_maxu,
      writesG_of_intHead (by decide) exec_clz,
      writesG_of_intHead (by decide) exec_ctz,
      writesG_of_intHead (by decide) exec_popc,
      writesG_of_intHead (by decide) exec_brev,
      writesG_of_intHead (by decide) exec_bswap,
      writesG_of_intHead (by decide) exec_extu,
      writesG_of_intHead (by decide) exec_ext,
      writesG_of_intHead (by decide) exec_csub,
      writesG_of_capHead (by decide) exec_mov,
      writesG_of_capHead (by decide) exec_movd,
      writesG_of_getHead (by decide) exec_cgetAddr,
      writesG_of_getHead (by decide) exec_cgetBase,
      writesG_of_getHead (by decide) exec_cgetTop,
      writesG_of_getHead (by decide) exec_cgetLen,
      writesG_of_getHead (by decide) exec_cgetPerm,
      writesG_of_getHead (by decide) exec_cgetFmt,
      writesG_of_getHead (by decide) exec_cgetK,
      writesG_of_getHead (by decide) exec_cgetTag⟩
  obtain ⟨t, ht, hbytes, hother, hown⟩ := writesG_frame hw h hc hi hg
  exact ⟨t, ht, fun a => hbytes.peek a 1, hother, hown⟩

end Sys2Proof
end

section
set_option Elab.async false
/-! The turn that a step gives: an event, a packet, or the head at the program counter (R162, R300, R329 to R336). -/
namespace Sys2Proof.Machine

/-! ### Fetching and decoding -/

section
variable {l : Line} {s : State}

theorem decodeAt_bad {info : Nat} (h : lineBad l (here s).pc.head = some info) : decodeAt l s = .error (.trap 0x01 0 info) s := by
  unfold decodeAt
  rw [X.bind_ok (X.get_apply s), h]
  rfl
theorem decodeAt_illegal {sub : Nat} (h : lineBad l (here s).pc.head = none) (hd : decodeLine l (here s).pc.head = .error sub) :
    decodeAt l s = .error (.trap 0x02 0 sub) { s with heads := headsOf l } := by
  unfold decodeAt
  rw [X.bind_ok (X.get_apply s), h]
  exact (X.bind_ok (X.upd_apply ..)).trans (by rw [hd]; rfl)
theorem decodeAt_ok {i : Instr} (h : lineBad l (here s).pc.head = none) (hd : decodeLine l (here s).pc.head = .ok i) :
    decodeAt l s = .ok i { s with heads := headsOf l } := by
  unfold decodeAt
  rw [X.bind_ok (X.get_apply s), h]
  exact (X.bind_ok (X.upd_apply ..)).trans (by rw [hd]; rfl)

/-- A line that the L1I holds is decoded as it stands there. -/
theorem fetchCore_hits {w v : State} {pa : Nat} {attr : W64} {x : L1ILine} (ht : translate (here w).pc.line kExec w = .ok (pa, attr) v)
    (hx : SMap.get none (coreOf v (coreNo w.cur)).l1i (blockOf (replicaPa attr (dieOfCore (coreNo w.cur)) pa)) = some x) :
    fetchCore w = decodeAt x.data v := by
  have hline : fetchLine (coreNo w.cur) (replicaPa attr (dieOfCore (coreNo w.cur)) pa) v = .ok x.data v := by
    unfold fetchLine
    rw [X.bind_ok (X.get_apply v), hx]
    rfl
  unfold fetchCore
  exact (X.bind_ok (X.get_apply w)).trans ((X.bind_ok ht).trans (X.bind_ok hline))

/-- A Prism thread's line is read at its physical address (R230). -/
theorem fetchThread_reads (hp : poisonAt s (here s).pc.line 64 = false) :
    fetchThread s = decodeAt (BitVec.ofNat 512 (peek s (here s).pc.line 64)) (correct (here s).pc.line 64 s) := by
  have hupd : (upd (correct (here s).pc.line 64) : X Unit) s = .ok () (correct (here s).pc.line 64 s) := X.upd_apply ..
  unfold fetchThread
  refine (X.bind_ok (X.get_apply s)).trans ?_
  rw [if_neg (by rw [hp]; exact Bool.false_ne_true)]
  exact X.bind_ok hupd

theorem fetchTurn_ok {f : X Instr} {i : Instr} {t : State} (h : f s = .ok i t) : fetchTurn f s = .run i t := by
  unfold fetchTurn
  rw [h]
theorem fetchTurn_trap {f : X Instr} {c a n : Nat} {t : State} (h : f s = .error (.trap c a n) t) :
    fetchTurn f s = .done (trapAt s c a n) := by
  unfold fetchTurn
  rw [h]
  rfl

end

/-! ### The turn of a core -/

section
variable {k j : Nat} {s : State}

theorem coreTurn_chosen (hk : computeCore s k = true ∨ controlCore s k = true) (hj : selectCtx s k = some j)
    (hm : markerHeld s (k * 8 + j) = false) {w : State}
    (hw : ((here (takeSlot k j s)).granted = false ∧ ((here (takeSlot k j s)).fir.getD {}).undelivered = [] ∧
        saveOf (takeSlot k j s) (takeSlot k j s).cur = none ∧ w = dealLens (takeSlot k j s).cur (takeSlot k j s)) ∨
      ((here (takeSlot k j s)).granted = true ∧ (∀ a b c, (here (takeSlot k j s)).wait ≠ .fault a b c) ∧ w = takeSlot k j s)) :
    coreTurn k s = fetchTurn fetchCore w := by
  have hrun : (!computeCore s k && !controlCore s k) = false := by
    rcases hk with h | h
    · rw [h, Bool.not_true, Bool.false_and]
    · rw [h, Bool.not_true, Bool.and_false]
  unfold coreTurn
  simp only [hrun, hj, hm, Bool.false_eq_true, ↓reduceIte]
  rcases hw with ⟨hg, hu, hs, rfl⟩ | ⟨hg, hf, rfl⟩
  · simp only [hg, hu, hs, ite_self, Option.isSome_none, Bool.false_and, Bool.false_eq_true, ↓reduceIte]
  · have hnot : ∀ a b c, (here (takeSlot k j s)).wait = .fault a b c → False := hf
    simp only [hg]
theorem coreTurn_firmware (hk : controlCore s k = true) (hj : selectCtx s k = none)
    (hfree : ∀ j < 8, (ctxOf s (k * 8 + j)).st = .free) : coreTurn k s = .stop .firmwareCore := by
  have hall : ((List.range 8).all fun j => (ctxOf s (k * 8 + j)).st == .free) = true :=
    List.all_eq_true.mpr fun j hj => beq_iff_eq.mpr (hfree j (List.mem_range.mp hj))
  unfold coreTurn
  simp only [hk, hj, hall, Bool.not_true, Bool.and_false, Bool.and_self, Bool.false_eq_true, ↓reduceIte]

end

/-! ### The step -/

section
variable {s u : State} {i : Instr} {dt : Nat} {env : List Env} {rest : List Input}

theorem step_run {t : State} (h : nextTurn s = .run i t) : step s = exec i t := by
  unfold step
  rw [h]
theorem step_done {t : State} (h : nextTurn s = .done t) : step s = .next t := by
  unfold step
  rw [h]
theorem step_stop {f : Fault} (h : nextTurn s = .stop f) : step s = .fault f := by
  unfold step
  rw [h]

/-- With an empty agenda the core in focus has the turn. -/
theorem nextTurn_core (ha : s.agenda = []) (hp : (elapse 1 [] s).firm.powered = true) :
    nextTurn s = coreTurn s.focus (elapse 1 [] s) := by
  unfold nextTurn
  rw [ha]
  exact if_pos hp
theorem nextTurn_agenda {a : Act} (ha : s.agenda = ⟨dt, a, env⟩ :: rest) :
    nextTurn s = turnOf a (elapse dt env { s with agenda := rest }) := by
  unfold nextTurn
  rw [ha]

theorem threadTurn_fetches {p t : Nat} (hp : p < 51) (ht : t < 8) (hr : (runOf s (32768 + 8 * p + t)).isSome = true) :
    threadTurn p t s = fetchTurn fetchThread { s with cur := 32768 + 8 * p + t } := by
  unfold threadTurn
  simp only [Nat.mod_eq_of_lt ht, hp, hr, decide_true, Bool.and_self, ↓reduceIte]

theorem packetTurn_runs {slot x : Nat} {q0 q : Queue} {t : State} (hq : slotQ s slot = some q0) (hm : mayIssue forPackets q0 = true)
    (hw : q0.wait = none) (he : q = { q0 with levels := popLevels q0.levels })
    (hf : (fetchPkt q ((q.levels.head?.map (·.pos)).getD 0)) (setSlotQ slot (some q) s) = .ok x t) (hi : packetStep slot x = some i) :
    packetTurn slot s = .run i t := by
  subst he
  have hsigs : (!q0.sigs.isEmpty && !q0.torn) = false := by
    unfold mayIssue at hm
    simp only [Bool.and_eq_true] at hm
    obtain ⟨⟨_, hs⟩, _⟩ := hm
    rw [hs, Bool.not_true, Bool.false_and]
  unfold packetTurn
  rw [hq]
  dsimp only at hf ⊢
  rw [if_neg (by rw [hsigs]; decide), if_neg (by rw [hw]; decide), if_neg (not_bang hm), hf]
  dsimp only
  rw [hi]

/-- With nothing at the fabric atomic unit and no barrier open, cycles only pass. -/
theorem elapse_idle (hf : s.fab.fau = []) (hg : ∀ e ∈ s.strips, e.2.gangSince = none) (dt : Nat) :
    elapse dt [] s = { s with cyc := s.cyc + dt } := by
  have hcount : countGangs dt { s with cyc := s.cyc + dt } = { s with cyc := s.cyc + dt } := by
    unfold countGangs
    refine if_neg ?_
    rw [Bool.not_eq_true, List.any_eq_false]
    intro e he
    have hno := hg e he
    simp only [hno, Option.isSome_none, Bool.false_and, Bool.false_eq_true, not_false_eq_true]
  unfold elapse
  rw [hcount, List.foldl_nil]
  unfold fauTurn
  exact if_pos (by rw [hf]; rfl)

end

end Sys2Proof.Machine

namespace Sys2Proof
open Machine

/-- Settles O56: the turn of each kind of input, and of a core in focus. -/
theorem stepRunsTheDecodedHead : Obligations.StepRunsTheDecodedHead := by
  refine ⟨fun s dt i env rest ha => step_run (nextTurn_agenda ha), fun s dt hf hg => elapse_idle hf hg dt, ?_, ?_, ?_, ?_⟩
  · rintro s s0 j u w pa attr v l ha rfl hp hk hj hm rfl hw ht hl
    have hturn := (nextTurn_core ha hp).trans (coreTurn_chosen hk hj hm hw)
    have hfetch := fetchCore_hits ht hl
    refine ⟨fun info hb => step_done ?_, fun sub hb hd => step_done ?_, fun i hb hd => step_run ?_⟩
    · exact hturn.trans (fetchTurn_trap (hfetch.trans (decodeAt_bad hb)))
    · exact hturn.trans (fetchTurn_trap (hfetch.trans (decodeAt_illegal hb hd)))
    · exact hturn.trans (fetchTurn_ok (hfetch.trans (decodeAt_ok hb hd)))
  · rintro s dt env p t rest i u ha hp ht rfl hpow v line hr hpo hb hd
    refine step_run ((nextTurn_agenda ha).trans ((if_pos hpow).trans ((threadTurn_fetches (s := elapse dt env { s with agenda := rest }) hp ht hr).trans (fetchTurn_ok ?_))))
    exact (fetchThread_reads hpo).trans (decodeAt_ok hb hd)
  · rintro s dt env slot rest q0 q x t i u ha rfl hpow hq hm hw he hf hi
    exact step_run ((nextTurn_agenda ha).trans ((if_pos hpow).trans (packetTurn_runs hq hm hw he hf hi)))
  · rintro s s0 ha rfl hpow hk hj hfree
    exact step_stop ((nextTurn_core ha hpow).trans (coreTurn_firmware hk hj hfree))

end Sys2Proof
end

section
set_option Elab.async false
/-! Steps keep both memories canonical: the parts that every such proof is made of. A function keeps them when no branch of it does
more to a memory than write bytes, so the conditions of its branches never matter. -/
namespace Sys2Proof.Machine

/-! ### States -/

section
variable {s t u : State}

/-- Another state with the same memories. -/
theorem memOk_mk {agenda : List Input} {cur heads focus freeCtr cyc dev : Nat} {ctxs : SMap Ctx} {cores : SMap CoreSt} {strips : SMap StripSt}
    {regs : DevRegs} {tr : TransSt} {cp : CopySt} {net : List NetMsg} {grp : GroupSt} {host : HostSt} {firm : FirmSt} {fe : FrontSt}
    {fab : FabSt} {prisms : SMap PrismSt} (h : s.memOk) :
    (State.mk agenda cur heads focus freeCtr cyc dev s.ms ctxs cores strips regs tr cp net grp host firm fe fab prisms).memOk := h
theorem memOk_ite {c : Prop} [Decidable c] (ht : t.memOk) (hu : u.memOk) : (if c then t else u).memOk := by
  split
  · exact ht
  · exact hu
theorem memOk_foldl {α : Type} {f : State → α → State} {l : List α} (hf : ∀ s x, s.memOk → (f s x).memOk) (h : s.memOk) :
    (l.foldl f s).memOk := by
  induction l generalizing s with
  | nil => exact h
  | cons x l ih => exact ih (hf s x h)
theorem memOk_modMs {f : MemSt → MemSt} (h : s.memOk)
    (hf : ∀ m, (f m).mem = m.mem ∧ (f m).hostio = m.hostio := by exact fun _ => ⟨rfl, rfl⟩) : (modMs f s).memOk := by
  obtain ⟨hm, hh⟩ := h
  obtain ⟨em, eh⟩ := hf s.ms
  exact ⟨by rw [modMs_ms, em]; exact hm, by rw [modMs_ms, eh]; exact hh⟩
theorem memOk_poke {a n x : Nat} (h : s.memOk) : (poke a n x s).memOk := by
  obtain ⟨hm, hh⟩ := h
  exact ⟨wf_poke s a n x hm, hh⟩
theorem memOk_hostPoke {f a n x : Nat} (h : s.memOk) : (hostPoke f a n x s).memOk := by
  obtain ⟨hm, hh⟩ := h
  exact ⟨hm, wf_hostPoke s f a n x hh⟩
/-- A state that comes with a value. -/
theorem memOk_snd {α : Type} {p : α × State} {a : α} (h : p.2.memOk) (e : p = (a, s)) : s.memOk := by
  rw [e] at h
  exact h

theorem memOk_snd_ite {α : Type} {c : Prop} [Decidable c] {p q : α × State} (hp : p.2.memOk) (hq : q.2.memOk) :
    (if c then p else q).2.memOk := by
  split
  · exact hp
  · exact hq
theorem memOk_snd_foldl {α β : Type} {f : α × State → β → α × State} {l : List β} {p : α × State}
    (hf : ∀ p x, p.2.memOk → (f p x).2.memOk) (h : p.2.memOk) : (l.foldl f p).2.memOk := by
  induction l generalizing p with
  | nil => exact h
  | cons x l ih => exact ih (hf p x h)

end

/-! ### States that may be there, and next states -/

/-- The state, if there is one, has canonical memories. -/
def OkOpt : Option State → Prop
  | some t => t.memOk
  | none => True
theorem OkOpt.get {o : Option State} {t : State} (h : OkOpt o) (e : o = some t) : t.memOk := by
  rw [e] at h
  exact h
theorem OkOpt.getD {o : Option State} {s : State} (h : OkOpt o) (hs : s.memOk) : (o.getD s).memOk := by
  cases o with
  | some t => exact h
  | none => exact hs
theorem OkOpt.ite {c : Prop} [Decidable c] {o p : Option State} (ho : OkOpt o) (hp : OkOpt p) : OkOpt (if c then o else p) := by
  split
  · exact ho
  · exact hp

/-- The next state, if there is one, has canonical memories. -/
def OkStep : Host.Outcome State Fault Refusal → Prop
  | .next t => t.memOk
  | _ => True
theorem OkStep.ite {c : Prop} [Decidable c] {o p : Host.Outcome State Fault Refusal} (ho : OkStep o) (hp : OkStep p) :
    OkStep (if c then o else p) := by
  split
  · exact ho
  · exact hp

/-- The state in the outcome of a turn, of a delivery and of a store has canonical memories. -/
def OkTurn : Turn → Prop
  | .run _ t => t.memOk
  | .done t => t.memOk
  | .stop _ => True
def OkDel : Del → Prop
  | .taken t => t.memOk
  | .wait t => t.memOk
def OkStoreRes : StoreRes → Prop
  | .done t => t.memOk
  | .wait t => t.memOk
theorem OkTurn.ite {c : Prop} [Decidable c] {o p : Turn} (ho : OkTurn o) (hp : OkTurn p) : OkTurn (if c then o else p) := by
  split
  · exact ho
  · exact hp
theorem OkDel.ite {c : Prop} [Decidable c] {o p : Del} (ho : OkDel o) (hp : OkDel p) : OkDel (if c then o else p) := by
  split
  · exact ho
  · exact hp
theorem OkStoreRes.ite {c : Prop} [Decidable c] {o p : StoreRes} (ho : OkStoreRes o) (hp : OkStoreRes p) :
    OkStoreRes (if c then o else p) := by
  split
  · exact ho
  · exact hp
theorem OkTurn.run {o : Turn} {i : Instr} {t : State} (h : OkTurn o) (e : o = .run i t) : t.memOk := by
  rw [e] at h
  exact h
theorem OkTurn.done {o : Turn} {t : State} (h : OkTurn o) (e : o = .done t) : t.memOk := by
  rw [e] at h
  exact h
theorem OkDel.taken {o : Del} {t : State} (h : OkDel o) (e : o = .taken t) : t.memOk := by
  rw [e] at h
  exact h
theorem OkDel.wait {o : Del} {t : State} (h : OkDel o) (e : o = .wait t) : t.memOk := by
  rw [e] at h
  exact h
theorem OkStoreRes.done {o : StoreRes} {t : State} (h : OkStoreRes o) (e : o = .done t) : t.memOk := by
  rw [e] at h
  exact h
theorem OkStoreRes.wait {o : StoreRes} {t : State} (h : OkStoreRes o) (e : o = .wait t) : t.memOk := by
  rw [e] at h
  exact h
/-- A function on states that keeps their memories canonical. -/
abbrev OkFn (f : State → State) : Prop := ∀ s, s.memOk → (f s).memOk

/-! ### Parts of a head or of a packet -/

section
variable {ε α β : Type} {P : α → Prop} {Q : β → Prop}

/-- From canonical memories `x` leaves canonical ones, whether it succeeds or stops, and a value that satisfies `P`. -/
def KeepsP (P : α → Prop) (x : EStateM ε State α) : Prop := ∀ s : State, s.memOk → match x s with
  | .ok a t => P a ∧ t.memOk
  | .error _ t => t.memOk
/-- The same with nothing said of the value. -/
abbrev Keeps (x : EStateM ε State α) : Prop := KeepsP (fun _ => True) x

variable {x : EStateM ε State α} {f : α → EStateM ε State β} {s t : State}

theorem KeepsP.ok (h : KeepsP P x) (hs : s.memOk) {a : α} (e : x s = .ok a t) : P a ∧ t.memOk := by
  have := h s hs
  rw [e] at this
  exact this
theorem KeepsP.ok_memOk (h : KeepsP P x) (hs : s.memOk) {a : α} (e : x s = .ok a t) : t.memOk :=
  have ⟨_, ht⟩ := h.ok hs e
  ht
theorem KeepsP.ok_val (h : KeepsP P x) (hs : s.memOk) {a : α} (e : x s = .ok a t) : P a :=
  have ⟨ha, _⟩ := h.ok hs e
  ha
theorem KeepsP.error (h : KeepsP P x) (hs : s.memOk) {e : ε} (he : x s = .error e t) : t.memOk := by
  have := h s hs
  rw [he] at this
  exact this
theorem keepsP_of (hok : ∀ s t a, s.memOk → x s = .ok a t → P a ∧ t.memOk) (herr : ∀ s t e, s.memOk → x s = .error e t → t.memOk) :
    KeepsP P x := by
  intro s hs
  cases h : x s with
  | ok a t => exact hok s t a hs h
  | error e t => exact herr s t e hs h
theorem keeps_pure {a : α} (h : P a) : KeepsP P (pure a : EStateM ε State α) := fun _ hs => ⟨h, hs⟩
theorem keeps_throw {e : ε} : KeepsP P (throw e : EStateM ε State α) := fun _ hs => hs
theorem keeps_get : KeepsP State.memOk (get : EStateM ε State State) := fun _ hs => ⟨hs, hs⟩
theorem keeps_set (h : t.memOk) : Keeps (set t : EStateM ε State PUnit) := fun _ _ => ⟨trivial, h⟩
theorem keeps_modify {f : State → State} (h : ∀ s, s.memOk → (f s).memOk) : Keeps (modify f : EStateM ε State PUnit) :=
  fun s hs => ⟨trivial, h s hs⟩
theorem bind_ok_of (hx : KeepsP P x) (hs : s.memOk) {b : β} (h : (x >>= f) s = .ok b t) :
    ∃ a u, P a ∧ u.memOk ∧ f a u = .ok b t := by
  change EStateM.bind x f s = _ at h
  unfold EStateM.bind at h
  cases hxs : x s with
  | ok a u =>
    rw [hxs] at h
    obtain ⟨ha, hu⟩ := hx.ok hs hxs
    exact ⟨a, u, ha, hu, h⟩
  | error e u =>
    rw [hxs] at h
    cases h
theorem bind_error_of (hx : KeepsP P x) (hs : s.memOk) {e : ε} (h : (x >>= f) s = .error e t) :
    t.memOk ∨ ∃ a u, P a ∧ u.memOk ∧ f a u = .error e t := by
  change EStateM.bind x f s = _ at h
  unfold EStateM.bind at h
  cases hxs : x s with
  | ok a u =>
    rw [hxs] at h
    obtain ⟨ha, hu⟩ := hx.ok hs hxs
    exact .inr ⟨a, u, ha, hu, h⟩
  | error e' u =>
    rw [hxs] at h
    cases h
    exact .inl (hx.error hs hxs)
theorem KeepsP.bind (hx : KeepsP P x) (hf : ∀ a, P a → KeepsP Q (f a)) : KeepsP Q (x >>= f) := by
  refine keepsP_of (fun s t b hs h => ?_) fun s t e hs h => ?_
  · obtain ⟨a, u, ha, hu, hfa⟩ := bind_ok_of hx hs h
    exact (hf a ha).ok hu hfa
  · obtain ht | ⟨a, u, ha, hu, hfa⟩ := bind_error_of hx hs h
    · exact ht
    · exact (hf a ha).error hu hfa
theorem Keeps.bind (hx : Keeps x) (hf : ∀ a, KeepsP Q (f a)) : KeepsP Q (x >>= f) := KeepsP.bind hx fun a _ => hf a
/-- Nothing follows a stop. -/
theorem keeps_throw_bind {e : ε} {P : β → Prop} : KeepsP P (throw e >>= f : EStateM ε State β) := fun _ hs => hs
theorem KeepsP.ite {c : Prop} [Decidable c] {x y : EStateM ε State α} (hx : KeepsP P x) (hy : KeepsP P y) :
    KeepsP P (if c then x else y) := by
  split
  · exact hx
  · exact hy

/-- A check before the rest. -/
theorem KeepsP.checked {c : Prop} [Decidable c] {x : EStateM ε State PUnit} {f : PUnit → EStateM ε State β} (hx : Keeps x)
    (hf : ∀ u, KeepsP Q (f u)) : KeepsP Q (if c then x >>= f else f ⟨⟩) := .ite (hx.bind hf) (hf _)
/-- A value from one of two parts before the rest. -/
theorem KeepsP.join {c : Prop} [Decidable c] {x y : EStateM ε State α} {f : α → EStateM ε State β} (hx : Keeps x) (hy : Keeps y)
    (hf : ∀ a, KeepsP Q (f a)) : KeepsP Q (if c then x >>= f else y >>= f) := .ite (hx.bind hf) (hy.bind hf)

end

section
variable {ε α : Type}

theorem keeps_mapM {β : Type} {f : α → EStateM ε State β} (hf : ∀ a, Keeps (f a)) (l : List α) : Keeps (l.mapM f) := by
  induction l with
  | nil => exact keeps_pure trivial
  | cons a l ih =>
    rw [List.mapM_cons]
    exact (hf a).bind fun _ => ih.bind fun _ => keeps_pure trivial
theorem keeps_foldlM {β : Type} {f : β → α → EStateM ε State β} (hf : ∀ b a, Keeps (f b a)) (l : List α) (b : β) :
    Keeps (l.foldlM f b) := by
  induction l generalizing b with
  | nil => exact keeps_pure trivial
  | cons a l ih =>
    rw [List.foldlM_cons]
    exact (hf b a).bind fun _ => ih _
theorem keeps_forM {f : α → EStateM ε State PUnit} (hf : ∀ a, Keeps (f a)) (l : List α) : Keeps (l.forM f) := by
  induction l with
  | nil => exact keeps_pure trivial
  | cons a l ih => exact (hf a).bind fun _ => ih

end

end Sys2Proof.Machine
end

section
set_option Elab.async false
/-! Steps keep both memories canonical: records, walks, tables and messages. -/
namespace Sys2Proof.Machine

/-! ### Basic -/

theorem keeps_raise {α : Type} {P : α → Prop} {cause addr info : Nat} : KeepsP P (raise cause addr info) := keeps_throw
theorem keeps_illegal {α : Type} {P : α → Prop} {sub : Nat} : KeepsP P (illegal sub) := keeps_raise
theorem keeps_raise_bind {α β : Type} {P : β → Prop} {cause addr info : Nat} {f : α → X β} : KeepsP P (raise cause addr info >>= f) :=
  keeps_throw_bind
theorem keeps_illegal_bind {α β : Type} {P : β → Prop} {sub : Nat} {f : α → X β} : KeepsP P (illegal sub >>= f) := keeps_throw_bind
theorem keeps_ensure {c : Bool} {cause addr info : Nat} : Keeps (ensure c cause addr info) := .ite (keeps_pure trivial) keeps_raise
theorem keeps_upd {f : State → State} (hf : ∀ s, s.memOk → (f s).memOk) : Keeps (upd f) := keeps_modify hf

/-! ### Contexts, cores, strips -/

theorem memOk_setCtx {s : State} {c : Nat} {x : Ctx} (hs : s.memOk) : (setCtx s c x).memOk := memOk_mk hs
theorem memOk_modCtx {c : Nat} {f : Ctx → Ctx} {s : State} (hs : s.memOk) : (modCtx c f s).memOk := memOk_setCtx hs
theorem memOk_setCore {s : State} {k : Nat} {x : CoreSt} (hs : s.memOk) : (setCore s k x).memOk := memOk_mk hs
theorem memOk_modCore {k : Nat} {f : CoreSt → CoreSt} {s : State} (hs : s.memOk) : (modCore k f s).memOk := memOk_setCore hs
theorem memOk_setStrip {s : State} {k : Nat} {x : StripSt} (hs : s.memOk) : (setStrip s k x).memOk := memOk_mk hs
theorem memOk_modStrip {k : Nat} {f : StripSt → StripSt} {s : State} (hs : s.memOk) : (modStrip k f s).memOk := memOk_setStrip hs
theorem memOk_setPrism {s : State} {p : Nat} {x : PrismSt} (hs : s.memOk) : (setPrism s p x).memOk := memOk_mk hs
theorem memOk_modPrism {p : Nat} {f : PrismSt → PrismSt} {s : State} (hs : s.memOk) : (modPrism p f s).memOk := memOk_setPrism hs
theorem memOk_setFn {s : State} {f : Nat} {x : Fn} (hs : s.memOk) : (setFn s f x).memOk := memOk_mk hs
theorem memOk_modFn {f : Nat} {g : Fn → Fn} {s : State} (hs : s.memOk) : (modFn f g s).memOk := memOk_setFn hs
theorem memOk_modTr {f : TransSt → TransSt} {s : State} (hs : s.memOk) : (modTr f s).memOk := memOk_mk hs
theorem memOk_modCp {f : CopySt → CopySt} {s : State} (hs : s.memOk) : (modCp f s).memOk := memOk_mk hs
theorem memOk_modGrp {f : GroupSt → GroupSt} {s : State} (hs : s.memOk) : (modGrp f s).memOk := memOk_mk hs
theorem memOk_modFe {f : FrontSt → FrontSt} {s : State} (hs : s.memOk) : (modFe f s).memOk := memOk_mk hs
theorem memOk_modFab {f : FabSt → FabSt} {s : State} (hs : s.memOk) : (modFab f s).memOk := memOk_mk hs
theorem memOk_modHost {f : HostSt → HostSt} {s : State} (hs : s.memOk) : (modHost f s).memOk := memOk_mk hs
theorem memOk_modFirm {f : FirmSt → FirmSt} {s : State} (hs : s.memOk) : (modFirm f s).memOk := memOk_mk hs
theorem memOk_modRegs {f : DevRegs → DevRegs} {s : State} (hs : s.memOk) : (modRegs f s).memOk := memOk_mk hs
theorem memOk_modHere {f : Ctx → Ctx} {s : State} (hs : s.memOk) : (modHere f s).memOk := memOk_modCtx hs

/-! ### Free values -/

theorem memOk_freshWord {s : State} (hs : s.memOk) : (freshWord s).2.memOk := memOk_mk hs
theorem memOk_freshByte {s : State} (hs : s.memOk) : (freshByte s).2.memOk := memOk_mk hs
theorem memOk_freshBytes {n : Nat} {s : State} (hs : s.memOk) : (freshBytes n s).2.memOk := by
  induction n generalizing s with
  | zero => exact hs
  | succ n ih => exact ih (memOk_freshByte hs)
theorem memOk_freeOverlap {lo hi a : Int} {x n : Nat} {s : State} (hs : s.memOk) : (freeOverlap lo hi a x n s).2.memOk := by
  induction n generalizing s with
  | zero => exact hs
  | succ n ih => exact memOk_snd_ite (memOk_freshByte (ih hs)) (ih hs)

/-! ### Handles (R156) -/

theorem memOk_modFir {c : Nat} {f : Firing → Firing} {s : State} (hs : s.memOk) : (modFir c f s).memOk := memOk_modCtx hs
theorem memOk_modBoth {c : Nat} {f : Ctx → Ctx} {s : State} (hs : s.memOk) : (modBoth c f s).memOk := by
  unfold modBoth
  split
  · exact memOk_modCtx (memOk_modCtx hs)
  · exact memOk_modCtx hs

/-! ### The physical map (R205, R207) -/

theorem memOk_strike {s : State} {e : Nat × Nat} (hs : s.memOk) : (strike s e).memOk :=
  memOk_ite hs (memOk_ite (memOk_ite (memOk_modMs hs) hs) (memOk_ite hs (memOk_modMs hs)))

/-! ### Black box -/

theorem memOk_bbWrite {d unit num event : Nat} {data : List W64} {s : State} (hs : s.memOk) : (bbWrite d unit num event data s).memOk :=
  memOk_modFirm hs
theorem memOk_bbFreeze {s : State} (hs : s.memOk) : (bbFreeze s).memOk := memOk_modFirm hs

/-! ### MSI-X (R77) -/

theorem memOk_vecSend {f v : Nat} {s : State} (hs : s.memOk) : (vecSend f v s).memOk :=
  memOk_ite (memOk_setFn hs) (memOk_modHost (memOk_setFn hs))
theorem memOk_vecEvent {f v : Nat} {s : State} (hs : s.memOk) : (vecEvent f v s).memOk :=
  memOk_ite (memOk_vecSend (memOk_setFn hs)) (memOk_setFn hs)

/-! ### Supervisor records -/

theorem memOk_supRecord {r : SupRec} {s : State} (hs : s.memOk) : (supRecord r s).memOk :=
  memOk_vecEvent (memOk_ite (memOk_modRegs (memOk_poke hs)) (memOk_modRegs (memOk_bbWrite hs)))
theorem memOk_postedFail {cid pa status : Nat} {s : State} (hs : s.memOk) : (postedFail cid pa status s).memOk :=
  memOk_supRecord (memOk_bbWrite hs)

/-! ### Fault records -/

theorem memOk_faultDrain {f n : Nat} {s : State} (hs : s.memOk) : (faultDrain f n s).memOk := by
  induction n generalizing s with
  | zero => exact hs
  | succ n ih =>
    unfold faultDrain
    split
    · exact hs
    · exact memOk_ite hs (memOk_ite (memOk_ite hs (memOk_vecSend (memOk_setFn hs))) (ih (memOk_vecEvent (memOk_modTr (memOk_setFn
        (memOk_hostPoke hs))))))
theorem memOk_openFault {fr : FaultRec} {who : Parked} {s : State} (hs : s.memOk) : (openFault fr who s).memOk :=
  memOk_ite (memOk_modTr hs) (memOk_ite (memOk_modTr hs) (memOk_faultDrain (memOk_modTr hs)))
theorem memOk_faultPending {s : State} (hs : s.memOk) : (faultPending s).memOk :=
  memOk_foldl (fun _ _ hu => memOk_ite (memOk_openFault (memOk_modTr hu)) hu) hs
theorem memOk_faultClose {f id : Nat} {s : State} (hs : s.memOk) : (faultClose f id s).memOk := memOk_faultPending (memOk_modTr hs)

/-! ### The walk -/

theorem memOk_setAD {pte : Nat} {write : Bool} {s : State} (hs : s.memOk) : (setAD pte write s).memOk := memOk_poke hs
theorem memOk_engineWalk {s : State} {asid va : Nat} {kind : BitVec 8} {user : Bool} (hs : s.memOk) :
    (engineWalk s asid va kind user).2.memOk := by
  unfold engineWalk
  split
  · exact hs
  · exact memOk_setAD hs

/-! ### The TLBs -/

theorem memOk_startWalk {w : Walk} {s : State} (hs : s.memOk) : (startWalk w s).memOk := memOk_ite hs (memOk_modTr hs)
theorem keeps_translate {va : Nat} {kind : BitVec 8} : Keeps (translate va kind) := by
  unfold translate
  refine keeps_get.bind fun _ _ => ?_
  refine KeepsP.ite (keeps_pure trivial) ?_
  dsimp only
  split
  · exact keeps_pure trivial
  · refine KeepsP.ite ?_ ?_
    · split
      · exact (keeps_upd (fun _ hu1 => memOk_setAD hu1)).bind fun _ => keeps_pure trivial
      · exact KeepsP.ite keeps_raise_bind keeps_throw_bind
    · exact (keeps_upd (fun _ hu2 => memOk_startWalk hu2)).bind fun _ => keeps_throw

/-! ### Actors -/

theorem memOk_readActor {s : State} {asid f va : Nat} (hs : s.memOk) : (readActor s asid f va).2.memOk := by
  unfold readActor
  refine memOk_snd_ite hs ?_
  split
  · rename_i heq
    exact memOk_snd (memOk_engineWalk hs) heq
  · rename_i heq
    exact memOk_snd_ite (memOk_snd (memOk_engineWalk hs) heq) (memOk_snd (memOk_engineWalk hs) heq)

/-! ### FIFO table (R147) -/

theorem memOk_setFifo {core e : Nat} {v : BitVec 128} {s : State} (hs : s.memOk) : (setFifo core e v s).memOk := memOk_modCore hs

/-! ### Binding table (R148) and credits -/

theorem memOk_bindWritten {core e : Nat} {v : BitVec 128} {owner : Nat × Nat} {s : State} (hs : s.memOk) :
    (bindWritten core e v owner s).memOk :=
  memOk_modCore (memOk_snd_ite (memOk_readActor hs) hs)
theorem memOk_setCred {core b k n : Nat} {s : State} (hs : s.memOk) : (setCred core b k n s).memOk := memOk_modCore hs

/-! ### The control page as memory (R207) -/

theorem memOk_ctlWrite {core off n x : Nat} {owner : Nat × Nat} {s : State} (hs : s.memOk) : (ctlWrite core off n x owner s).memOk :=
  memOk_ite (memOk_setFifo hs) (memOk_ite (memOk_bindWritten hs) (memOk_ite (memOk_foldl (fun _ _ hu => memOk_setCred hu) hs) hs))

/-! ### Send -/

theorem memOk_setWin {s : State} {w : Nat} {x : Window} (hs : s.memOk) : (setWin s w x).memOk := memOk_modFab hs
theorem memOk_modPort {p : Nat} {f : Port → Port} {s : State} (hs : s.memOk) : (modPort p f s).memOk := memOk_modFab hs
theorem memOk_wire {port : Nat} {p : Packet} {s : State} (hs : s.memOk) : (wire port p s).memOk :=
  memOk_modFab (memOk_ite hs (memOk_modFab hs))
theorem memOk_sendOut {s : State} {e : OutPkt} (hs : s.memOk) : (sendOut s e).memOk :=
  memOk_ite (memOk_modFab hs) (memOk_ite (memOk_wire (memOk_modPort hs)) (memOk_modFab (memOk_modPort hs)))
theorem memOk_outPump {s : State} (hs : s.memOk) : (outPump s).memOk := memOk_foldl (fun _ _ hu => memOk_sendOut hu) (memOk_modFab hs)
theorem memOk_transmit {port : Nat} {p : Packet} {s : State} (hs : s.memOk) : (transmit port p s).memOk :=
  memOk_ite hs (memOk_outPump (memOk_modFab hs))
theorem memOk_sendHeld {dest w : Nat} {rp : Bool} {h : HeldPkt} {s : State} (hs : s.memOk) : (sendHeld dest w rp h s).memOk := by
  unfold sendHeld
  dsimp only
  split
  · exact hs
  · exact memOk_transmit hs
theorem memOk_windowPump {dest w n : Nat} {s : State} (hs : s.memOk) : (windowPump dest w n s).memOk := by
  induction n generalizing s with
  | zero => exact hs
  | succ n ih =>
    unfold windowPump
    dsimp only
    split
    · exact hs
    · exact memOk_ite hs (ih (memOk_sendHeld (memOk_setWin hs)))
theorem memOk_portPump {port : Nat} {s : State} (hs : s.memOk) : (portPump port s).memOk :=
  memOk_foldl (fun _ _ hu => memOk_ite (memOk_windowPump hu) hu) hs
theorem memOk_sendSeqQ {hd : Hdr} {data : List (BitVec 512)} {cid : Option (Nat × Nat)} {wants : Bool} {quiet : Option Cap} {s : State}
    (hs : s.memOk) :
    (sendSeqQ hd data cid wants quiet s).memOk :=
  memOk_windowPump (memOk_setWin hs)
theorem memOk_sendSeq {hd : Hdr} {data : List (BitVec 512)} {cid : Option (Nat × Nat)} {wants : Bool} {s : State} (hs : s.memOk) :
    (sendSeq hd data cid wants s).memOk :=
  memOk_sendSeqQ hs
theorem memOk_sendRaw {hd : Hdr} {data : List (BitVec 512)} {s : State} (hs : s.memOk) : (sendRaw hd data s).memOk := by
  unfold sendRaw
  dsimp only
  split
  · exact hs
  · exact memOk_transmit hs

end Sys2Proof.Machine
end

section
set_option Elab.async false
/-! Steps keep both memories canonical: accesses and the operations beneath the heads. -/
namespace Sys2Proof.Machine

/-! ### Tags and suspension -/

theorem memOk_wakeTags {p : Nat → Bool} {s : State} (hs : s.memOk) : (wakeTags p s).memOk := memOk_ite hs (memOk_mk hs)
theorem memOk_letThrough {p : Nat → Bool} {s : State} (hs : s.memOk) : (letThrough p s).memOk :=
  memOk_ite hs (memOk_wakeTags (memOk_modMs hs))
theorem memOk_refuseSusp {p : Nat → Bool} {tys : List Nat} {status : Nat} {s : State} (hs : s.memOk) :
    (refuseSusp p tys status s).memOk :=
  memOk_wakeTags (memOk_modMs hs)
theorem memOk_setAtag {pa t : Nat} {s : State} (hs : s.memOk) : (setAtag pa t s).memOk := memOk_letThrough (memOk_modMs hs)
theorem memOk_postReq {p : Nat} {m : PMsg} {s : State} (hs : s.memOk) : (postReq p m s).memOk := memOk_ite hs (memOk_modPrism hs)
theorem memOk_postSusp {blk ty : Nat} {s : State} (hs : s.memOk) : (postSusp blk ty s).memOk :=
  memOk_ite hs (by split; exacts [memOk_postReq hs, hs])
theorem memOk_announce {p : Nat} {s : State} (hs : s.memOk) : (announce p s).memOk :=
  memOk_foldl (fun _ _ hu => memOk_ite (memOk_postSusp hu) hu) hs
theorem memOk_refuseOldest {blk ty status : Nat} {s : State} (hs : s.memOk) : (refuseOldest blk ty status s).memOk := by
  unfold refuseOldest
  split
  · exact memOk_wakeTags (memOk_modMs hs)
  · exact hs
theorem memOk_suspendAs {pa ty cid handle : Nat} {post : Bool} {s : State} (hs : s.memOk) : (suspendAs pa ty cid handle post s).memOk :=
  memOk_ite (memOk_postSusp (memOk_ite hs (memOk_modMs hs))) (memOk_ite hs (memOk_modMs hs))
theorem memOk_suspend {pa ty cid : Nat} {post : Bool} {s : State} (hs : s.memOk) : (suspend pa ty cid post s).memOk := memOk_suspendAs hs
theorem memOk_unsuspend {pa ty cid : Nat} {s : State} (hs : s.memOk) : (unsuspend pa ty cid s).memOk := memOk_ite hs (memOk_modMs hs)

/-! ### Performing reads and writes at the home -/

theorem memOk_countEcc {s : State} {w : Nat} (hs : s.memOk) : (countEcc s w).memOk :=
  memOk_ite (memOk_bbWrite (memOk_modFirm (memOk_modMs hs))) (memOk_modFirm (memOk_modMs hs))
theorem memOk_correct {pa n : Nat} {s : State} (hs : s.memOk) : (correct pa n s).memOk :=
  memOk_ite hs (memOk_foldl (fun _ _ hu => memOk_countEcc hu) hs)
theorem memOk_winPut {core off n x : Nat} {tag : Bool} {writer : Nat} {s : State} (hs : s.memOk) :
    (winPut core off n x tag writer s).memOk :=
  memOk_ite (memOk_ite (memOk_postedFail hs) (memOk_modBoth hs)) (memOk_ite (memOk_postedFail hs) (memOk_modBoth hs))
theorem memOk_winWrite {core off n x : Nat} {tag : Bool} {writer : Nat} {s : State} (hs : s.memOk) :
    (winWrite core off n x tag writer s).memOk :=
  memOk_foldl (fun _ _ hu => memOk_winPut hu) hs
theorem memOk_clearTags {pa n : Nat} {s : State} (hs : s.memOk) : (clearTags pa n s).memOk :=
  memOk_foldl (fun _ _ hu => memOk_modMs hu) hs
theorem memOk_setTag {pa : Nat} {t : Bool} {s : State} (hs : s.memOk) : (setTag pa t s).memOk := memOk_modMs hs
theorem memOk_poisonWord {pa n x : Nat} {s : State} {w : Nat} (hs : s.memOk) : (poisonWord pa n x s w).memOk :=
  memOk_ite (memOk_modMs hs) (memOk_ite (memOk_correct hs) (memOk_ite hs (memOk_bbWrite (memOk_modPrism (memOk_modMs hs)))))
theorem memOk_poisonWrite {pa n x : Nat} {s : State} (hs : s.memOk) : (poisonWrite pa n x s).memOk :=
  memOk_ite hs (memOk_foldl (fun _ _ hu => memOk_poisonWord hu) hs)
theorem memOk_dropOwned {unit blk : Nat} {s : State} (hs : s.memOk) : (dropOwned unit blk s).memOk :=
  memOk_ite (memOk_modCore hs) (memOk_modStrip hs)
theorem memOk_takeOwner {pa : Nat} {unit : Option Nat} {s : State} (hs : s.memOk) : (takeOwner pa unit s).memOk := by
  unfold takeOwner
  split
  · exact memOk_ite hs (memOk_dropOwned (memOk_modMs hs))
  · exact hs
theorem memOk_memWrite {pa n x : Nat} {tag : Bool} {owner : Option Nat} {s : State} (hs : s.memOk) :
    (memWrite pa n x tag owner s).memOk := by
  unfold memWrite
  have hw : (if tag then setTag pa true (poke pa n x s) else clearTags pa n (poke pa n x s)).memOk :=
    memOk_ite (memOk_setTag (memOk_poke hs)) (memOk_clearTags (memOk_poke hs))
  have ht := memOk_takeOwner (pa := pa) (unit := owner) (memOk_poisonWrite (pa := pa) (n := n) (x := x) hw)
  dsimp only
  split
  case h_4 => exact memOk_modCore hw
  case h_5 => exact hw
  all_goals
    split
    · exact ht
    · exact memOk_modMs ht
theorem memOk_withHome {pa home : Nat} {f : State → State} {s : State} (hf2 : OkFn f) (hs : s.memOk) : (withHome pa home f s).memOk :=
  memOk_ite (hf2 _ hs) (memOk_modMs (hf2 _ hs))
theorem memOk_notePushed {cid pa : Nat} {s : State} (hs : s.memOk) : (notePushed cid pa s).memOk := memOk_ite hs (memOk_modCore hs)
theorem memOk_noteLaunch {cid pa n : Nat} {s : State} (hs : s.memOk) : (noteLaunch cid pa n s).memOk := by
  unfold noteLaunch
  split
  · exact memOk_ite hs (memOk_modCore hs)
  · exact hs
theorem memOk_launchFence {cid : Nat} {s : State} (hs : s.memOk) : (launchFence cid s).memOk :=
  memOk_ite (memOk_mk (memOk_ite hs (memOk_modCore hs))) (memOk_ite hs (memOk_modCore hs))
theorem memOk_homeWrite {pa n x : Nat} {tag : Bool} {owner : Option Nat} {writer : Nat} {s : State} (hs : s.memOk) :
    (homeWrite pa n x tag owner writer s).memOk := by
  unfold homeWrite
  split
  · exact memOk_winWrite hs
  · exact memOk_ctlWrite hs
  · exact hs
  · exact memOk_notePushed (memOk_memWrite hs)
  · exact memOk_memWrite hs

/-! ### The L1 (R211 to R213) -/

theorem memOk_l1Put {core blk : Nat} {l : L1Line} {s : State} (hs : s.memOk) : (l1Put core blk l s).memOk :=
  memOk_ite (memOk_modCore hs) (memOk_mk (memOk_modCore hs))
theorem memOk_l1iPut {core blk : Nat} {l : L1ILine} {s : State} (hs : s.memOk) : (l1iPut core blk l s).memOk :=
  memOk_ite (memOk_modCore hs) (memOk_mk (memOk_modCore hs))
theorem memOk_l1Fill {core pa : Nat} {s : State} (hs : s.memOk) : (l1Fill core pa s).memOk := memOk_l1Put (memOk_correct hs)
theorem memOk_l1Store {core pa n x : Nat} {tag : Bool} {s : State} (hs : s.memOk) : (l1Store core pa n x tag s).memOk := by
  unfold l1Store
  split
  · exact hs
  · exact memOk_modCore hs
theorem memOk_l1Acquire {core : Nat} {s : State} (hs : s.memOk) : (l1Acquire core s).memOk := memOk_modCore hs
theorem memOk_markSeen {cid : Nat} {p : SbEntry → Bool} {s : State} (hs : s.memOk) : (markSeen cid p s).memOk := memOk_modCore hs
theorem memOk_acquire {scope : Nat} {s : State} (hs : s.memOk) : (acquire scope s).memOk :=
  memOk_ite hs (memOk_ite (memOk_markSeen hs) (memOk_l1Acquire hs))

/-! ### The fingerprint of checked execution (R201) -/

theorem keeps_pushStores {es : List SbEntry} : Keeps (pushStores es) :=
  keeps_get.bind fun _ _ => KeepsP.ite (KeepsP.ite keeps_throw_bind (keeps_upd (fun _ hu1 => memOk_modGrp hu1))) (KeepsP.ite keeps_throw
    (keeps_upd (fun _ hu2 => memOk_modCore hu2)))

/-! ### Checks (R347, R391) -/

theorem keeps_check {c : Cap} {ea n p align : Nat} : Keeps (check c ea n p align) :=
  keeps_get.bind fun _ _ => KeepsP.ite keeps_ensure (keeps_ensure.bind fun _ => keeps_ensure.bind fun _ => keeps_ensure.bind fun _ =>
    keeps_ensure)
theorem keeps_windowCheck {c : Cap} {ea pa : Nat} : Keeps (windowCheck c ea pa) := by
  unfold windowCheck
  refine keeps_get.bind fun _ _ => ?_
  split
  · exact keeps_ensure
  · exact keeps_ensure
  · exact keeps_pure trivial
theorem keeps_spansOf {kind : BitVec 8} {ps : List (Nat × Nat)} : Keeps (spansOf kind ps) := by
  induction ps with
  | nil => exact keeps_pure trivial
  | cons x xs ih => exact keeps_translate.bind fun _ => Keeps.bind ih fun _ => keeps_pure trivial
theorem keeps_access {c : Cap} {ea n p align : Nat} {kind : BitVec 8} {write : Bool} : Keeps (access c ea n p align kind write) :=
  keeps_check.bind fun _ => keeps_spansOf.bind fun _ => (keeps_forM (fun _ => keeps_windowCheck) _).bind fun _ => keeps_get.bind fun _ _
    => keeps_ensure.bind fun _ => keeps_pure trivial

/-! ### Issuing loads and stores -/

theorem memOk_withPend {dst : Dst} {pieces : List Piece} {fin : Fin_} {lat : Nat} {s : State} (hs : s.memOk) :
    (withPend dst pieces fin lat s).memOk :=
  memOk_modHere hs
theorem keeps_addPend {dst : Dst} {pieces : List Piece} {fin : Fin_} {lat : Nat} : Keeps (addPend dst pieces fin lat) :=
  keeps_upd (fun _ hu => memOk_withPend hu)
theorem memOk_sendRead {d off n id : Nat} {s : State} (hs : s.memOk) : (sendRead d off n id s).memOk := memOk_sendSeq hs
theorem keeps_loadPiece {sp : Span} : Keeps (loadPiece sp) := by
  unfold loadPiece
  refine keeps_get.bind fun _ _ => ?_
  refine KeepsP.ite keeps_throw_bind ?_
  split
  · exact keeps_throw
  · exact (keeps_upd (fun _ hu1 => memOk_markSeen hu1)).bind fun _ => keeps_pure trivial
  · exact KeepsP.ite (keeps_pure trivial) (keeps_pure trivial)
  · refine KeepsP.ite (keeps_pure trivial) ?_
    split
    · exact KeepsP.ite keeps_raise ((keeps_upd (fun _ hu2 => memOk_correct hu2)).bind fun _ => keeps_pure trivial)
    · exact keeps_throw
    · exact keeps_raise
theorem keeps_loadPieces {sps : List Span} : Keeps (loadPieces sps) := by
  induction sps with
  | nil => exact keeps_pure trivial
  | cons x xs ih => exact keeps_loadPiece.bind fun _ => Keeps.bind ih fun _ => keeps_pure trivial
theorem memOk_sendReads {id : Nat} {ps : List Piece} {s : State} (hs : s.memOk) : (sendReads id ps s).memOk :=
  memOk_foldl (fun _ _ hu => (by split; exacts [memOk_ite (memOk_sendRead hu) hu, hu])) hs
theorem keeps_issuePieces {dst : Dst} {ps : List Piece} {fin : Fin_} {lat : Nat} : Keeps (issuePieces dst ps fin lat) :=
  keeps_get.bind fun _ _ => keeps_addPend.bind fun _ => keeps_upd (fun _ hu1 => memOk_sendReads hu1)
theorem keeps_issueLoad {dst : Dst} {spans : List Span} {fin : Fin_} : Keeps (issueLoad dst spans fin) :=
  keeps_loadPieces.bind fun _ => keeps_issuePieces
theorem keeps_threadStore {e : SbEntry} : Keeps (threadStore e) := by
  unfold threadStore
  refine keeps_get.bind fun _ _ => ?_
  split
  · exact KeepsP.ite (keeps_upd (fun _ hu1 => memOk_sendSeq hu1)) (keeps_upd (fun _ hu2 => memOk_postedFail hu2))
  · split
    · exact keeps_upd (fun _ hu3 => memOk_homeWrite hu3)
    · exact keeps_throw
    · exact keeps_upd (fun _ hu4 => memOk_postedFail hu4)
theorem keeps_issueStore {spans : List Span} {x : Nat} {tag : Bool} : Keeps (issueStore spans x tag) :=
  keeps_get.bind fun _ _ => KeepsP.ite (KeepsP.ite keeps_throw_bind (keeps_forM (fun _ => keeps_threadStore) _)) keeps_pushStores

/-! ### Release (R266) -/

theorem memOk_flushPartials {s : State} (hs : s.memOk) : (flushPartials s).memOk :=
  memOk_foldl (fun _ _ hu => memOk_ite hu (memOk_foldl (fun _ _ hu1 => (by split; exacts [memOk_sendSeq (memOk_modPrism hu1), hu1])) hu))
    hs
theorem memOk_postPushrels {cid : Nat} {homes : List Nat} {s : State} (hs : s.memOk) : (postPushrels cid homes s).2.memOk :=
  memOk_snd_foldl (fun _ _ hu => memOk_snd_ite hu (memOk_postReq hu)) hs
theorem memOk_notePush {pa : Nat} {s : State} (hs : s.memOk) : (notePush pa s).memOk := memOk_ite hs (memOk_modPrism hs)
theorem memOk_sendPushrels {who : Nat} {s : State} (hs : s.memOk) : (sendPushrels who s).memOk :=
  memOk_foldl (fun _ _ hu => memOk_foldl (fun _ _ hu1 => (by split; exacts [memOk_sendSeq hu1, hu1])) (memOk_modPrism hu)) hs
theorem memOk_releaseBegin {scope : Nat} {s : State} (hs : s.memOk) : (releaseBegin scope s).memOk := by
  unfold releaseBegin
  exact memOk_ite hs (memOk_modHere (memOk_postPushrels (memOk_ite (memOk_ite hs (memOk_modHere (memOk_flushPartials hs))) (memOk_modHere
    (memOk_sendPushrels (memOk_ite (memOk_ite hs (memOk_modHere (memOk_flushPartials hs))) (memOk_modCore (memOk_ite hs (memOk_modHere
    (memOk_flushPartials hs))))))))))
theorem keeps_release {scope : Nat} : Keeps (release scope) :=
  (keeps_upd (fun _ hu => memOk_releaseBegin hu)).bind fun _ => keeps_get.bind fun _ _ => KeepsP.ite (keeps_pure trivial) keeps_throw

/-! ### Lanes -/

theorem memOk_setFilt {w : Nat} {f : Filter} {s : State} (hs : s.memOk) : (setFilt w f s).memOk := memOk_modFab hs
theorem memOk_sendAck {w : Nat} {s : State} (hs : s.memOk) : (sendAck w s).memOk := memOk_sendRaw (memOk_setFilt hs)
theorem memOk_markPerformed {w seq : Nat} {s : State} (hs : s.memOk) : (markPerformed w seq s).memOk :=
  memOk_ite hs (memOk_ite (memOk_sendAck (memOk_setFilt hs)) (memOk_setFilt hs))
theorem memOk_record {w seq : Nat} {val : W64} {nak pz : Bool} {s : State} (hs : s.memOk) : (record w seq val nak pz s).memOk :=
  memOk_ite hs (memOk_modFab hs)
theorem memOk_rawNak {w seq status : Nat} {s : State} (hs : s.memOk) : (rawNak w seq status s).memOk := memOk_sendRaw hs
theorem memOk_refusePkt {w seq status : Nat} {s : State} (hs : s.memOk) : (refusePkt w seq status s).memOk :=
  memOk_ite hs (memOk_markPerformed (memOk_rawNak (memOk_record hs)))
theorem memOk_rawAres {w seq : Nat} {val : W64} {pz : Bool} {s : State} (hs : s.memOk) : (rawAres w seq val pz s).memOk :=
  memOk_sendRaw hs
theorem memOk_sendAres {w seq : Nat} {val : W64} {pz : Bool} {s : State} (hs : s.memOk) : (sendAres w seq val pz s).memOk :=
  memOk_markPerformed (memOk_rawAres (memOk_record hs))
theorem memOk_sendRdata {w seq : Nat} {data : BitVec 512} {pz : Bool} {s : State} (hs : s.memOk) : (sendRdata w seq data pz s).memOk :=
  memOk_markPerformed (memOk_sendRaw hs)

/-! ### Packets that a Prism's run performs (R42, R246, R248) -/

theorem memOk_prbPump {s : State} (hs : s.memOk) : (prbPump s).memOk :=
  memOk_ite hs (memOk_foldl (fun _ _ hu => memOk_markPerformed hu) (memOk_modFab hs))
theorem memOk_performedBy {p mark : Nat} {from_ : Option (Nat × Nat)} {s : State} (hs : s.memOk) :
    (performedBy p mark from_ s).memOk := by
  unfold performedBy
  split
  · exact hs
  · exact memOk_prbPump (memOk_modFab hs)

/-! ### Front -/

theorem memOk_setSlotQ {k : Nat} {q : Option Queue} {s : State} (hs : s.memOk) : (setSlotQ k q s).memOk := memOk_modFe hs
theorem memOk_modQ {p : Queue → Bool} {g : Queue → Queue} {s : State} (hs : s.memOk) : (modQ p g s).memOk := memOk_modFe hs
theorem memOk_failQueue {fn qidx err : Nat} {s : State} (hs : s.memOk) : (failQueue fn qidx err s).memOk :=
  memOk_ite hs (memOk_vecEvent (memOk_hostPoke (memOk_hostPoke (memOk_modQ hs))))
theorem memOk_feRemote {asid d pa n : Nat} {attr : W64} {s : State} (hs : s.memOk) : (feRemote asid d pa n attr s).2.memOk := by
  unfold feRemote
  refine memOk_snd_ite hs ?_
  split
  · exact hs
  · split
    · exact memOk_modFe hs
    · exact hs
    · exact memOk_sendSeq (memOk_modFe hs)
theorem memOk_feUsed {asid : Nat} {s : State} (hs : s.memOk) : (feUsed asid s).memOk := memOk_ite hs (memOk_modFe hs)
theorem memOk_feAnswer {mark ans : Nat} {data : BitVec 512} {s : State} (hs : s.memOk) : (feAnswer mark ans data s).memOk :=
  memOk_modFe (memOk_ite (memOk_clearTags (memOk_poke hs)) hs)
theorem memOk_feAccess {s : State} {asid va n : Nat} {write : Bool} (hs : s.memOk) : (feAccess s asid va n write).2.memOk := by
  unfold feAccess
  split
  · rename_i heq
    exact memOk_snd (memOk_engineWalk hs) heq
  · rename_i heq
    dsimp only
    split
    · exact memOk_snd_ite (memOk_snd_ite (memOk_snd (memOk_engineWalk hs) heq) (memOk_snd (memOk_engineWalk hs) heq)) (memOk_feRemote
        (memOk_snd (memOk_engineWalk hs) heq))
    · split
      · exact memOk_unsuspend (memOk_snd (memOk_engineWalk hs) heq)
      · exact memOk_suspendAs (memOk_snd (memOk_engineWalk hs) heq)
      · exact memOk_snd_ite (memOk_unsuspend (memOk_snd (memOk_engineWalk hs) heq)) (memOk_snd_ite (memOk_unsuspend (memOk_snd
          (memOk_engineWalk hs) heq)) (memOk_correct (memOk_unsuspend (memOk_snd (memOk_engineWalk hs) heq))))
theorem memOk_feStoreAs {id : Nat} {attr : W64} {pa n x : Nat} {s : State} (hs : s.memOk) : (feStoreAs id attr pa n x s).memOk := by
  unfold feStoreAs
  split
  · exact memOk_sendSeq (memOk_notePush hs)
  · exact memOk_foldl (fun _ _ hu => memOk_homeWrite hu) hs
theorem memOk_feStore {attr : W64} {pa n x : Nat} {s : State} (hs : s.memOk) : (feStore attr pa n x s).memOk := memOk_feStoreAs hs
theorem memOk_feFault {q : Queue} {va cause level : Nat} {write : Bool} {s : State} (hs : s.memOk) :
    (feFault q va cause level write s).memOk :=
  memOk_ite (memOk_failQueue hs) (memOk_openFault (memOk_modQ hs))
theorem memOk_drainSignals {fn qidx n : Nat} {s : State} (hs : s.memOk) : (drainSignals fn qidx n s).memOk := by
  induction n generalizing s with
  | zero => exact hs
  | succ n ih =>
    unfold drainSignals
    split
    · exact hs
    · split
      · exact hs
      · refine memOk_ite hs ?_
        refine memOk_ite (memOk_failQueue (memOk_modQ hs)) ?_
        split
        · rename_i heq
          exact memOk_feFault (memOk_ite (memOk_modQ (memOk_snd (memOk_feAccess hs) heq)) (memOk_snd (memOk_feAccess hs) heq))
        · rename_i heq
          exact memOk_failQueue (memOk_modQ (memOk_snd (memOk_feAccess hs) heq))
        · rename_i heq
          exact memOk_snd (memOk_feAccess hs) heq
        · rename_i heq
          exact ih (memOk_modQ (memOk_feStore (memOk_snd (memOk_feAccess hs) heq)))
theorem memOk_writeSignal {fn qidx addr status : Nat} {s : State} (hs : s.memOk) : (writeSignal fn qidx addr status s).memOk :=
  memOk_ite hs (memOk_drainSignals (memOk_modQ hs))
theorem memOk_completePacket {serial status : Nat} {s : State} (hs : s.memOk) : (completePacket serial status s).memOk := by
  unfold completePacket
  split
  · exact hs
  · exact memOk_writeSignal (memOk_modQ hs)

/-! ### Waking contexts -/

theorem memOk_wakeIf {p : Nat → Ctx → Bool} {s : State} (hs : s.memOk) : (wakeIf p s).memOk := memOk_mk hs
theorem memOk_wakeReleases {s : State} (hs : s.memOk) : (wakeReleases s).memOk := memOk_wakeIf hs
theorem memOk_grant {c : Nat} {s : State} (hs : s.memOk) : (grant c s).memOk := memOk_modCtx hs
theorem memOk_leaveSlot {c : Nat} {s : State} (hs : s.memOk) : (leaveSlot c s).memOk := memOk_ite hs (memOk_modCore hs)

/-! ### Chunks (R158, R159) -/

theorem memOk_modPools {c : Nat} {f : CoreSt → CoreSt} {s : State} (hs : s.memOk) : (modPools c f s).memOk := by
  unfold modPools
  dsimp only
  split
  · exact memOk_modCore (memOk_modCore hs)
  · exact memOk_modCore hs
theorem memOk_partnerChunks {c : Nat} {vec : Bool} {lo k : Nat} {s : State} (hs : s.memOk) : (partnerChunks c vec lo k s).memOk := by
  unfold partnerChunks
  split
  · exact hs
  · exact memOk_modCtx hs
theorem memOk_addChunks {c : Nat} {vec : Bool} {n : Nat} {s : State} (hs : s.memOk) : (addChunks c vec n s).memOk :=
  memOk_ite (memOk_modPools (memOk_partnerChunks (memOk_setCtx hs))) (memOk_modPools (memOk_partnerChunks (memOk_setCtx hs)))
theorem memOk_noteStall {core : Nat} {s : State} (hs : s.memOk) : (noteStall core s).memOk :=
  memOk_ite (memOk_ite hs (memOk_setCore hs)) (memOk_ite (memOk_setCore hs) hs)
theorem memOk_grantGrows {core n : Nat} {s : State} (hs : s.memOk) : (grantGrows core n s).memOk := by
  induction n generalizing s with
  | zero => exact hs
  | succ n ih =>
    unfold grantGrows
    split
    · exact hs
    · exact memOk_ite (ih (memOk_noteStall (memOk_grant (memOk_addChunks hs)))) hs
theorem memOk_returnChunks {c : Nat} {f : Firing} {s : State} (hs : s.memOk) : (returnChunks c f s).memOk :=
  memOk_grantGrows (memOk_modCore hs)

/-! ### The end of a firing -/

theorem memOk_unbindAll {c : Nat} {s : State} (hs : s.memOk) : (unbindAll c s).memOk := memOk_modCore hs
theorem memOk_shareReport {core : Nat} {s : State} (hs : s.memOk) : (shareReport core s).memOk := by
  unfold shareReport
  split
  · exact hs
  · exact memOk_ite (memOk_modFe (memOk_modCore hs)) hs
theorem memOk_informEnd {core : Nat} {f : Firing} {status : Nat} {s : State} (hs : s.memOk) : (informEnd core f status s).memOk := by
  unfold informEnd
  split
  · exact memOk_shareReport (memOk_modCore hs)
  · exact memOk_modCore hs
  · exact hs
  · split
    · exact memOk_completePacket hs
    · exact hs
theorem memOk_freeCtx {c : Nat} {s : State} (hs : s.memOk) : (freeCtx c s).memOk := by
  unfold freeCtx
  exact memOk_ite (memOk_modCtx (memOk_ite (memOk_modMs (memOk_leaveSlot (memOk_unbindAll hs))) (memOk_modStrip (memOk_modMs
    (memOk_leaveSlot (memOk_unbindAll hs)))))) (memOk_noteStall (memOk_modCtx (memOk_ite (memOk_modMs (memOk_leaveSlot (memOk_unbindAll
    hs))) (memOk_modStrip (memOk_modMs (memOk_leaveSlot (memOk_unbindAll hs)))))))
theorem memOk_freePair {c : Nat} {s : State} (hs : s.memOk) : (freePair c s).memOk := by
  unfold freePair
  split
  · exact hs
  · exact memOk_modFir (memOk_modGrp (memOk_returnChunks (memOk_freeCtx hs)))
theorem memOk_freeLens {c : Nat} {s : State} (hs : s.memOk) : (freeLens c s).memOk := by
  unfold freeLens
  split
  · exact hs
  · exact memOk_foldl (fun _ _ hu => memOk_grantGrows hu) (memOk_modFir (memOk_modGrp (memOk_foldl (fun _ _ hu1 => memOk_modCore hu1)
      hs)))
theorem memOk_answerSave {who : Option (Nat × Nat)} {status : Nat} {s : State} (hs : s.memOk) : (answerSave who status s).memOk := by
  unfold answerSave
  split
  · exact hs
  · exact memOk_modCtx hs
theorem memOk_dropSaved {core handle status : Nat} {s : State} (hs : s.memOk) : (dropSaved core handle status s).memOk :=
  memOk_foldl (fun _ _ hu => memOk_answerSave hu) (memOk_ite hs (memOk_modCore hs))
theorem memOk_endFiring {c status : Nat} {s : State} (hs : s.memOk) : (endFiring c status s).memOk := by
  unfold endFiring
  split
  · exact hs
  · exact memOk_wakeReleases (memOk_informEnd (memOk_returnChunks (memOk_freeCtx (memOk_dropSaved (memOk_freeLens (memOk_freePair hs))))))
theorem memOk_stopFiring {c cause : Nat} {s : State} (hs : s.memOk) : (stopFiring c cause s).memOk := memOk_endFiring (memOk_supRecord hs)

/-! ### Traps -/

theorem memOk_gangPeer {c : Nat} {s : State} (hs : s.memOk) : (gangPeer c s).memOk := memOk_ite (memOk_supRecord hs) hs
theorem memOk_takeTrap {c cause addr info : Nat} {s : State} (hs : s.memOk) : (takeTrap c cause addr info s).memOk := by
  unfold takeTrap
  exact memOk_ite (memOk_stopFiring (memOk_setCtx (memOk_gangPeer (memOk_leaveSlot hs)))) (memOk_ite (memOk_setCtx (memOk_gangPeer
    (memOk_leaveSlot hs))) (memOk_ite (memOk_setCtx (memOk_gangPeer (memOk_leaveSlot hs))) (memOk_stopFiring (memOk_setCtx (memOk_gangPeer
    (memOk_leaveSlot hs))))))
theorem memOk_returnFromTrap {c : Nat} {pc : Pc} {s : State} (hs : s.memOk) : (returnFromTrap c pc s).memOk := memOk_modCtx hs

/-! ### Recorded wakes (R379) -/

theorem okOpt_wakeImage {v : Saved} {s : State} (hs : s.memOk) : OkOpt (wakeImage v s) := by
  unfold wakeImage
  split
  · rename_i heq
    exact trivial
  · rename_i heq
    dsimp only
    split
    · exact memOk_homeWrite (memOk_snd (memOk_engineWalk hs) heq)
    · exact trivial
theorem memOk_recordWake {h : Nat} {s : State} (hs : s.memOk) : (recordWake h s).memOk := by
  unfold recordWake
  dsimp only
  split
  · exact OkOpt.getD (okOpt_wakeImage hs) (memOk_modCore hs)
  · exact memOk_ite (memOk_modCtx (memOk_modFir hs)) (memOk_modFir hs)

/-! ### Results that return (R162, R172) -/

theorem memOk_resultWakes {c : Nat} {s : State} (hs : s.memOk) : (resultWakes c s).memOk := memOk_modCtx hs

/-! ### Handler -/

theorem memOk_modRun {c : Nat} {f : ThrRun → ThrRun} {s : State} (hs : s.memOk) : (modRun c f s).memOk := memOk_modPrism hs
theorem memOk_settleSlot {c : Nat} {r : ThrRun} {s : State} (hs : s.memOk) : (settleSlot c r s).memOk :=
  memOk_ite hs (memOk_ite (memOk_modPrism hs) (memOk_modPrism hs))
theorem memOk_runAnswered {p : Nat} {r : ThrRun} {s : State} (hs : s.memOk) : (runAnswered p r s).memOk :=
  memOk_ite hs (memOk_ite (memOk_refuseSusp hs) (memOk_postSusp hs))
theorem memOk_endRun {c : Nat} {s : State} (hs : s.memOk) : (endRun c s).memOk := by
  unfold endRun
  split
  · exact hs
  · exact memOk_wakeReleases (memOk_runAnswered (memOk_setCtx (memOk_ite (memOk_modPrism (memOk_settleSlot hs)) (memOk_performedBy
      (memOk_modPrism (memOk_settleSlot hs))))))
theorem memOk_stopHandler {c code : Nat} {ende : Bool} {s : State} (hs : s.memOk) : (stopHandler c code ende s).memOk := by
  unfold stopHandler
  split
  · exact hs
  · exact memOk_endRun (memOk_bbWrite (memOk_supRecord (memOk_setAtag hs)))

/-! ### Perform -/

theorem memOk_performRead {cid pa n : Nat} {viaL1 : Bool} {s : State} (hs : s.memOk) : (performRead cid pa n viaL1 s).2.memOk := by
  unfold performRead
  refine memOk_snd_ite hs ?_
  split
  · exact memOk_unsuspend hs
  · exact memOk_suspend hs
  · exact memOk_snd_ite (memOk_unsuspend hs) (memOk_snd_ite (memOk_l1Fill (memOk_unsuspend hs)) (memOk_correct (memOk_unsuspend hs)))
theorem keeps_remoteNow {d off pa n : Nat} : Keeps (remoteNow d off pa n) := by
  unfold remoteNow
  refine keeps_get.bind fun _ _ => ?_
  split
  · exact keeps_pure trivial
  · exact KeepsP.ite (keeps_pure trivial) (KeepsP.ite keeps_throw ((keeps_upd (fun _ hu1 => memOk_sendRead hu1)).bind fun _ =>
      keeps_throw))
theorem keeps_readNow {pa n : Nat} {viaL1 : Bool} {direct : Option (Nat × Nat)} : Keeps (readNow pa n viaL1 direct) := by
  unfold readNow
  refine keeps_get.bind fun _ hu => ?_
  refine KeepsP.ite keeps_throw_bind ?_
  split
  · exact keeps_throw
  · exact (keeps_upd (fun _ hu1 => memOk_markSeen hu1)).bind fun _ => keeps_pure trivial
  · split
    · exact keeps_remoteNow
    · exact (keeps_set (memOk_performRead hu)).bind fun _ => keeps_pure trivial

/-! ### Tensors -/

theorem memOk_withFlags {g : FFlags} {s : State} (hs : s.memOk) : (withFlags g s).memOk := memOk_ite hs (memOk_modHere hs)
theorem keeps_flags {g : FFlags} : Keeps (flags g) := keeps_upd (fun _ hu => memOk_withFlags hu)

end Sys2Proof.Machine
end

section
set_option Elab.async false
/-! Steps keep both memories canonical: streams, operands and the frame of a head. -/
namespace Sys2Proof.Machine

/-! ### Streams -/

theorem memOk_setUnit {core k : Nat} {u : Option SUnit} {s : State} (hs : s.memOk) : (setUnit core k u s).memOk := memOk_modCore hs
theorem keeps_valueRead {p n : Nat} {c : Bool} {d : Option (Nat × Nat)} {α : Type} {f : Nat → Bool → α} {r : α} : Keeps (do
    match ← readNow p n c d with
    | .val x y => return f x y
    | .poison _ => return r
    | .held => throw .stall : X α) := by
  refine keeps_readNow.bind fun r => ?_
  cases r with
  | val => exact keeps_pure trivial
  | poison => exact keeps_pure trivial
  | held => exact keeps_throw
theorem keeps_elemRead {u : SUnit} {a : Nat} : Keeps (elemRead u a) := by
  unfold elemRead
  split
  · exact keeps_pure trivial
  · refine keeps_get.bind fun _ _ => ?_
    cases u.slot with
    | some k =>
      cases slotOffset u a with
      | none => exact keeps_pure trivial
      | some off => exact keeps_pure trivial
    | none =>
      refine keeps_translate.bind fun _ => keeps_get.bind fun _ _ => ?_
      dsimp only
      split
      · exact KeepsP.ite (keeps_pure trivial) (KeepsP.ite (keeps_pure trivial) keeps_valueRead)
      · exact KeepsP.ite (keeps_pure trivial) (KeepsP.ite (keeps_pure trivial) keeps_valueRead)
      · exact KeepsP.ite (keeps_pure trivial) keeps_valueRead
theorem keeps_elemScale {u : SUnit} {a : Nat} : Keeps (elemScale u a) :=
  KeepsP.ite (keeps_pure trivial) (keeps_translate.bind fun _ => keeps_get.bind fun _ _ => keeps_valueRead)
theorem keeps_regRead {u : SUnit} {n k e : Nat} : Keeps (regRead u n k e) := by
  induction k generalizing e with
  | zero => exact keeps_pure trivial
  | succ n ih =>
    unfold regRead
    refine KeepsP.ite (keeps_pure trivial) ?_
    refine keeps_elemRead.bind fun _ => ?_
    split
    · exact keeps_pure trivial
    · exact KeepsP.ite (keeps_elemScale.bind fun _ => keeps_flags.bind fun _ => Keeps.bind (keeps_pure trivial) fun _ => Keeps.bind ih fun
        _ => keeps_pure trivial) (Keeps.bind (keeps_pure trivial) fun _ => Keeps.bind ih fun _ => keeps_pure trivial)
theorem keeps_popValue {u : SUnit} : Keeps (popValue u) := by
  unfold popValue
  split
  · split
    · exact keeps_regRead.bind fun _ => keeps_pure trivial
    · exact KeepsP.checked keeps_flags (fun _ => keeps_pure trivial)
  · exact keeps_regRead.bind fun _ => keeps_pure trivial
theorem keeps_popIn {v : Nat} : Keeps (popIn v) := by
  unfold popIn
  refine keeps_get.bind fun _ _ => ?_
  split
  · exact keeps_pure trivial
  · refine KeepsP.ite keeps_illegal_bind ?_
    refine keeps_popValue.bind fun _ => ?_
    dsimp only
    split
    · exact keeps_throw
    · exact keeps_upd (fun _ hu1 => memOk_modHere hu1)
theorem keeps_popDone {v : Nat} : Keeps (popDone v) := keeps_upd (fun _ hu => (by split; exacts [memOk_setUnit hu, hu]))
theorem keeps_pushCheck {v : Nat} : Keeps (pushCheck v) := by
  unfold pushCheck
  refine keeps_get.bind fun _ _ => ?_
  split
  · exact keeps_pure trivial
  · refine KeepsP.ite keeps_illegal_bind ?_
    dsimp only
    split
    · exact keeps_throw_bind
    · refine KeepsP.ite keeps_throw_bind ?_
      split
      · exact KeepsP.ite keeps_throw (keeps_pure trivial)
      · exact keeps_pure trivial
/-- One element of a push. The kernel must not compare two matches on `slotOffset`, so this speaks of the recursion's step itself. -/
theorem keeps_pushStep {x : VReg} {n i : Nat} {u : SUnit} {out : List SbEntry} {rest : @Nat.below (fun _ => Nat → SUnit → List SbEntry → X (SUnit × List SbEntry)) (n + 1)}
    (h : ∀ i u out, Keeps (rest.1 i u out)) : Keeps (regPush._f x (n + 1) rest i u out) := by
  unfold regPush._f
  dsimp only
  refine KeepsP.ite (keeps_pure trivial) ?_
  cases SU.bad u (SU.addr u u.pos) with
  | some sub => exact keeps_pure trivial
  | none =>
    refine keeps_get.bind fun _ _ => ?_
    cases u.slot with
    | some sl =>
      cases slotOffset u (SU.addr u u.pos) with
      | none => exact keeps_pure trivial
      | some off => exact (keeps_upd (fun _ hu => memOk_modStrip hu)).bind fun _ => h _ _ _
    | none =>
      refine keeps_translate.bind fun _ => keeps_get.bind fun _ _ => ?_
      split
      · exact KeepsP.ite (keeps_pure trivial) (KeepsP.ite (keeps_pure trivial) (keeps_flags.bind fun _ => h _ _ _))
      · exact KeepsP.ite (keeps_pure trivial) (KeepsP.ite (keeps_pure trivial) (keeps_flags.bind fun _ => h _ _ _))
      · exact KeepsP.ite (keeps_pure trivial) (keeps_flags.bind fun _ => h _ _ _)
theorem keeps_regPush {x : VReg} {k i : Nat} {u : SUnit} {out : List SbEntry} : Keeps (regPush x k i u out) := by
  delta regPush
  induction k generalizing i u out with
  | zero => exact keeps_pure trivial
  | succ n ih =>
    exact keeps_pushStep fun _ _ _ => ih
theorem memOk_pumpUnit {core k : Nat} {s : State} (hs : s.memOk) : (pumpUnit core k s).memOk := by
  unfold pumpUnit
  split
  · exact hs
  · exact memOk_modCore (memOk_setUnit hs)
theorem keeps_pushOut {v : Nat} : Keeps (pushOut v) := by
  unfold pushOut
  refine keeps_get.bind fun _ _ => ?_
  split
  · exact keeps_pure trivial
  · exact keeps_regPush.bind fun _ => keeps_upd (fun _ hu1 => memOk_pumpUnit (memOk_setUnit hu1))

/-! ### Operands and results -/

theorem keeps_setG {r : BitVec 6} {c : Cap} : Keeps (setG r c) := keeps_upd (fun _ hu => memOk_modHere hu)
theorem keeps_setInt {r : BitVec 6} {v : W64} : Keeps (setInt r v) := keeps_setG
theorem keeps_setV {r : BitVec 6} {v : VReg} : Keeps (setV r v) := keeps_upd (fun _ hu => memOk_modHere hu)

/-! ### Completion -/

theorem memOk_pairRetire {u : Use} {s : State} (hs : s.memOk) : (pairRetire u s).memOk :=
  memOk_ite hs (memOk_ite (memOk_modCtx (memOk_leaveSlot (memOk_modGrp hs))) (memOk_modGrp hs))
theorem memOk_markerPark {c : Nat} {s : State} (hs : s.memOk) : (markerPark c s).memOk :=
  memOk_ite (memOk_ite hs (memOk_setCtx hs)) (memOk_ite (memOk_setCtx (memOk_leaveSlot hs)) (memOk_setCtx (memOk_leaveSlot hs)))
theorem memOk_countRun {c : Nat} {s : State} (hs : s.memOk) : (countRun c s).memOk := by
  unfold countRun
  dsimp only
  split
  · exact memOk_ite (memOk_stopHandler (memOk_modRun hs)) (memOk_modRun hs)
  · exact memOk_modRun hs
theorem memOk_advance {h : Head} {u : Use} {n : Next} {s : State} (hs : s.memOk) : (advance h u n s).memOk :=
  memOk_ite (memOk_ite (memOk_modHere hs) (memOk_countRun (memOk_modHere hs))) (memOk_ite (memOk_markerPark (memOk_ite (memOk_modHere hs)
    (memOk_pairRetire (memOk_modHere hs)))) (memOk_ite (memOk_modHere hs) (memOk_pairRetire (memOk_modHere hs))))
theorem keeps_retire {h : Head} {u : Use} {n : Next} : Keeps (retire h u n) := by
  unfold retire
  split
  · exact keeps_pure trivial
  · exact (keeps_forM (fun _ => keeps_popDone) _).bind fun _ => (keeps_forM (fun _ => keeps_pushOut) _).bind fun _ => keeps_upd (fun _ hu
      => memOk_advance hu)

/-! ### Stops -/

theorem memOk_keepRequests {s t : State} (hs : s.memOk) : (keepRequests s t).memOk := hs
theorem memOk_beginWait {c : Nat} {w : Wait} {s : State} (hs : s.memOk) : (beginWait c w s).memOk := by
  unfold beginWait
  dsimp only
  split
  · exact memOk_noteStall (memOk_setCtx (memOk_leaveSlot hs))
  · exact memOk_setCtx (memOk_leaveSlot hs)
theorem memOk_closeInterval {c : Nat} {s : State} (hs : s.memOk) : (closeInterval c s).memOk := memOk_modGrp hs
theorem memOk_streamTaken {v : Nat} {s : State} (hs : s.memOk) : (streamTaken v s).memOk := by
  unfold streamTaken
  split
  · exact memOk_setUnit hs
  · exact hs
theorem memOk_nextInterval {c : Nat} {s : State} (hs : s.memOk) : (nextInterval c s).memOk := memOk_ite hs (memOk_modGrp hs)
theorem memOk_trapAt {s : State} {cause addr info : Nat} (hs : s.memOk) : (trapAt s cause addr info).memOk :=
  memOk_ite (memOk_stopHandler hs) (memOk_ite (memOk_modHere (memOk_leaveSlot hs)) (memOk_ite (memOk_beginWait (memOk_closeInterval hs))
    (memOk_nextInterval (memOk_takeTrap (memOk_modFir hs)))))
theorem memOk_faultAt {s : State} {va cause level : Nat} {kind : BitVec 8} (hs : s.memOk) : (faultAt s va cause level kind).memOk :=
  memOk_beginWait (memOk_openFault (memOk_gangPeer hs))
theorem memOk_onStop {s t : State} {x2 : Stop} (hs : s.memOk) (ht : t.memOk) : (onStop s t x2).memOk := by
  unfold onStop
  split
  · exact memOk_trapAt hs
  · exact memOk_ite (memOk_trapAt (memOk_streamTaken hs)) (memOk_trapAt hs)
  · exact memOk_ite hs (memOk_modHere (memOk_keepRequests hs))
  · exact memOk_ite hs (memOk_modHere (memOk_keepRequests hs))
  · exact memOk_ite hs (memOk_ite (memOk_beginWait (memOk_closeInterval hs)) (memOk_faultAt (memOk_keepRequests hs)))
  · exact memOk_beginWait (memOk_keepRequests hs)
  · exact memOk_beginWait (memOk_closeInterval (memOk_mk hs))
  · exact memOk_ite (memOk_modHere ht) (memOk_ite (memOk_beginWait (memOk_closeInterval hs)) (memOk_beginWait ht))

/-! ### The runner -/

theorem keeps_pairGate {r : Row} {u : Use} : Keeps (pairGate r u) :=
  keeps_get.bind fun _ _ => KeepsP.ite ((keeps_upd (fun _ hu1 => memOk_modGrp hu1)).bind fun _ => keeps_throw) (keeps_pure trivial)
theorem keeps_perform {r : Row} {h : Head} {u : Use} {body : X Next} (hf3 : Keeps body) : Keeps (perform r h u body) :=
  keeps_pairGate.bind fun _ => (keeps_forM (fun _ => keeps_popIn) _).bind fun _ => (keeps_forM (fun _ => keeps_pushCheck) _).bind fun _ =>
    Keeps.bind hf3 fun _ => keeps_retire
theorem memOk_partnerHead {r : Row} {u : Use} {body : X Next} {s t : State} (ht : t.memOk) : (partnerHead r u body s t).memOk := by
  unfold partnerHead
  split
  · exact memOk_modGrp (memOk_setCtx ht)
  · exact ht
theorem okStep_runHead {r : Row} {h : Head} {u : Use} {body : X Next} {s : State} (hf3 : Keeps body) (hs : s.memOk) :
    OkStep (runHead r h u body s) := by
  unfold runHead
  split
  · exact memOk_onStop hs hs
  · split
    · rename_i heq
      exact memOk_partnerHead (KeepsP.ok_memOk (keeps_perform hf3) hs heq)
    · rename_i heq
      exact memOk_onStop hs (KeepsP.error (keeps_perform hf3) hs heq)
theorem okStep_intHead {r : Row} {h : Head} {f : W64 → W64 → W64} {s : State} (hs : s.memOk) : OkStep (intHead r h f s) :=
  okStep_runHead (keeps_get.bind fun _ _ => keeps_setInt.bind fun _ => keeps_pure trivial) hs
theorem okStep_capHead {r : Row} {h : Head} {f : Cap → W64 → Cap} {s : State} (hs : s.memOk) : OkStep (capHead r h f s) :=
  okStep_runHead (keeps_get.bind fun _ _ => keeps_setG.bind fun _ => keeps_pure trivial) hs
theorem keeps_answered {w : Wait} : Keeps (answered w) := keeps_get.bind fun _ _ => keeps_pure trivial

/-! ### Fetch -/

theorem memOk_takeSlot {core j : Nat} {s : State} (hs : s.memOk) : (takeSlot core j s).memOk := memOk_mk (memOk_modCtx (memOk_modCore hs))
theorem keeps_fetchLine {core pa : Nat} : Keeps (fetchLine core pa) := by
  unfold fetchLine
  refine keeps_get.bind fun _ hu => ?_
  split
  · exact keeps_pure trivial
  · split
    · rename_i heq
      exact (keeps_set (memOk_snd (memOk_performRead hu) heq)).bind fun _ => keeps_throw
    · rename_i heq
      exact keeps_raise
    · rename_i heq
      exact (keeps_set (memOk_ite (memOk_l1iPut (memOk_snd (memOk_performRead hu) heq)) (memOk_snd (memOk_performRead hu) heq))).bind fun
        _ => keeps_pure trivial
theorem keeps_decodeAt {l : Line} : Keeps (decodeAt l) := by
  unfold decodeAt
  refine keeps_get.bind fun _ _ => ?_
  split
  · exact keeps_raise
  · exact (keeps_upd (fun _ hu1 => memOk_mk hu1)).bind fun _ => (by split; exacts [keeps_illegal, keeps_pure trivial])
theorem keeps_fetchCore : Keeps fetchCore :=
  keeps_get.bind fun _ _ => keeps_translate.bind fun _ => keeps_fetchLine.bind fun _ => keeps_decodeAt
theorem keeps_fetchThread : Keeps fetchThread :=
  keeps_get.bind fun _ _ => KeepsP.ite keeps_raise_bind ((keeps_upd (fun _ hu1 => memOk_correct hu1)).bind fun _ => keeps_decodeAt)
theorem okTurn_fetchTurn {f : X Instr} {s : State} (hf0 : Keeps f) (hs : s.memOk) : OkTurn (fetchTurn f s) := by
  unfold fetchTurn
  split
  · rename_i heq
    exact KeepsP.ok_memOk hf0 hs heq
  · rename_i heq
    exact memOk_onStop hs (KeepsP.error hf0 hs heq)

end Sys2Proof.Machine
end

section
set_option Elab.async false
/-! Steps keep both memories canonical: the scalar heads. -/
namespace Sys2Proof.Machine

/-! ### Shapes -/

theorem memOk_withLate {d : BitVec 6} {v : W64} {lat : Nat} {s : State} (hs : s.memOk) : (withLate d v lat s).memOk :=
  memOk_ite (memOk_modHere hs) (memOk_withPend hs)
theorem keeps_lateInt {d : BitVec 6} {v : W64} {lat : Nat} : Keeps (lateInt d v lat) := keeps_upd (fun _ hu => memOk_withLate hu)
theorem okStep_divHead {r : Row} {h : Head} {signed : Bool} {f : W64 → W64 → W64} {s : State} (hs : s.memOk) :
    OkStep (divHead r h signed f s) :=
  okStep_runHead (keeps_get.bind fun _ _ => keeps_lateInt.bind fun _ => keeps_pure trivial) hs
theorem okStep_selHead {r : Row} {h : Head} {onZero : Bool} {s : State} (hs : s.memOk) : OkStep (selHead r h onZero s) :=
  okStep_runHead (keeps_get.bind fun _ _ => keeps_setG.bind fun _ => keeps_pure trivial) hs

/-! ### The heads -/

theorem okStep_execNop {h : Head} {s : State} (hs : s.memOk) : OkStep (execNop h s) := okStep_runHead (keeps_pure trivial) hs
theorem okStep_execAdd {h : Head} {s : State} (hs : s.memOk) : OkStep (execAdd h s) := okStep_intHead hs
theorem okStep_execAddW {h : Head} {s : State} (hs : s.memOk) : OkStep (execAddW h s) := okStep_intHead hs
theorem okStep_execSub {h : Head} {s : State} (hs : s.memOk) : OkStep (execSub h s) := okStep_intHead hs
theorem okStep_execSubW {h : Head} {s : State} (hs : s.memOk) : OkStep (execSubW h s) := okStep_intHead hs
theorem okStep_execMul {h : Head} {s : State} (hs : s.memOk) : OkStep (execMul h s) := okStep_intHead hs
theorem okStep_execMulh {h : Head} {s : State} (hs : s.memOk) : OkStep (execMulh h s) := okStep_intHead hs
theorem okStep_execMulhu {h : Head} {s : State} (hs : s.memOk) : OkStep (execMulhu h s) := okStep_intHead hs
theorem okStep_execMulW {h : Head} {s : State} (hs : s.memOk) : OkStep (execMulW h s) := okStep_intHead hs
theorem okStep_execDiv {h : Head} {s : State} (hs : s.memOk) : OkStep (execDiv h s) := okStep_divHead hs
theorem okStep_execDivu {h : Head} {s : State} (hs : s.memOk) : OkStep (execDivu h s) := okStep_divHead hs
theorem okStep_execRem {h : Head} {s : State} (hs : s.memOk) : OkStep (execRem h s) := okStep_divHead hs
theorem okStep_execRemu {h : Head} {s : State} (hs : s.memOk) : OkStep (execRemu h s) := okStep_divHead hs
theorem okStep_execAnd {h : Head} {s : State} (hs : s.memOk) : OkStep (execAnd h s) := okStep_intHead hs
theorem okStep_execOr {h : Head} {s : State} (hs : s.memOk) : OkStep (execOr h s) := okStep_intHead hs
theorem okStep_execXor {h : Head} {s : State} (hs : s.memOk) : OkStep (execXor h s) := okStep_intHead hs
theorem okStep_execAndn {h : Head} {s : State} (hs : s.memOk) : OkStep (execAndn h s) := okStep_intHead hs
theorem okStep_execShl {h : Head} {s : State} (hs : s.memOk) : OkStep (execShl h s) := okStep_intHead hs
theorem okStep_execShr {h : Head} {s : State} (hs : s.memOk) : OkStep (execShr h s) := okStep_intHead hs
theorem okStep_execSra {h : Head} {s : State} (hs : s.memOk) : OkStep (execSra h s) := okStep_intHead hs
theorem okStep_execRor {h : Head} {s : State} (hs : s.memOk) : OkStep (execRor h s) := okStep_intHead hs
theorem okStep_execSeq {h : Head} {s : State} (hs : s.memOk) : OkStep (execSeq h s) := okStep_intHead hs
theorem okStep_execSne {h : Head} {s : State} (hs : s.memOk) : OkStep (execSne h s) := okStep_intHead hs
theorem okStep_execSlt {h : Head} {s : State} (hs : s.memOk) : OkStep (execSlt h s) := okStep_intHead hs
theorem okStep_execSge {h : Head} {s : State} (hs : s.memOk) : OkStep (execSge h s) := okStep_intHead hs
theorem okStep_execSltu {h : Head} {s : State} (hs : s.memOk) : OkStep (execSltu h s) := okStep_intHead hs
theorem okStep_execSgeu {h : Head} {s : State} (hs : s.memOk) : OkStep (execSgeu h s) := okStep_intHead hs
theorem okStep_execMin {h : Head} {s : State} (hs : s.memOk) : OkStep (execMin h s) := okStep_intHead hs
theorem okStep_execMax {h : Head} {s : State} (hs : s.memOk) : OkStep (execMax h s) := okStep_intHead hs
theorem okStep_execMinu {h : Head} {s : State} (hs : s.memOk) : OkStep (execMinu h s) := okStep_intHead hs
theorem okStep_execMaxu {h : Head} {s : State} (hs : s.memOk) : OkStep (execMaxu h s) := okStep_intHead hs
theorem okStep_execClz {h : Head} {s : State} (hs : s.memOk) : OkStep (execClz h s) := okStep_intHead hs
theorem okStep_execCtz {h : Head} {s : State} (hs : s.memOk) : OkStep (execCtz h s) := okStep_intHead hs
theorem okStep_execPopc {h : Head} {s : State} (hs : s.memOk) : OkStep (execPopc h s) := okStep_intHead hs
theorem okStep_execBrev {h : Head} {s : State} (hs : s.memOk) : OkStep (execBrev h s) := okStep_intHead hs
theorem okStep_execBswap {h : Head} {s : State} (hs : s.memOk) : OkStep (execBswap h s) := okStep_intHead hs
theorem okStep_execExt {h : Head} {s : State} (hs : s.memOk) : OkStep (execExt h s) := okStep_intHead hs
theorem okStep_execExtu {h : Head} {s : State} (hs : s.memOk) : OkStep (execExtu h s) := okStep_intHead hs
theorem okStep_execIns {h : Head} {s : State} (hs : s.memOk) : OkStep (execIns h s) :=
  okStep_runHead (keeps_get.bind fun _ _ => keeps_setInt.bind fun _ => keeps_pure trivial) hs
theorem okStep_execCsel {h : Head} {s : State} (hs : s.memOk) : OkStep (execCsel h s) := okStep_selHead hs
theorem okStep_execCselz {h : Head} {s : State} (hs : s.memOk) : OkStep (execCselz h s) := okStep_selHead hs
theorem okStep_execMadd {h : Head} {s : State} (hs : s.memOk) : OkStep (execMadd h s) :=
  okStep_runHead (keeps_get.bind fun _ _ => keeps_setInt.bind fun _ => keeps_pure trivial) hs

/-! ### Transfers -/

theorem keeps_capTarget {c : Cap} : Keeps (capTarget c) := keeps_get.bind fun _ _ => keeps_check.bind fun _ => keeps_pure trivial
theorem okStep_branchHead {r : Row} {h : Head} {f : W64 → W64 → Bool} {s : State} (hs : s.memOk) : OkStep (branchHead r h f s) :=
  okStep_runHead (keeps_get.bind fun _ _ => keeps_pure trivial) hs
theorem okStep_execBeq {h : Head} {s : State} (hs : s.memOk) : OkStep (execBeq h s) := okStep_branchHead hs
theorem okStep_execBne {h : Head} {s : State} (hs : s.memOk) : OkStep (execBne h s) := okStep_branchHead hs
theorem okStep_execBlt {h : Head} {s : State} (hs : s.memOk) : OkStep (execBlt h s) := okStep_branchHead hs
theorem okStep_execBge {h : Head} {s : State} (hs : s.memOk) : OkStep (execBge h s) := okStep_branchHead hs
theorem okStep_execBltu {h : Head} {s : State} (hs : s.memOk) : OkStep (execBltu h s) := okStep_branchHead hs
theorem okStep_execBgeu {h : Head} {s : State} (hs : s.memOk) : OkStep (execBgeu h s) := okStep_branchHead hs
theorem okStep_execBz {h : Head} {s : State} (hs : s.memOk) : OkStep (execBz h s) := okStep_branchHead hs
theorem okStep_execBnz {h : Head} {s : State} (hs : s.memOk) : OkStep (execBnz h s) := okStep_branchHead hs
theorem okStep_execJmp {h : Head} {s : State} (hs : s.memOk) : OkStep (execJmp h s) :=
  okStep_runHead (keeps_get.bind fun _ _ => keeps_pure trivial) hs
theorem okStep_viaHead {r : Row} {h : Head} {s : State} (hs : s.memOk) : OkStep (viaHead r h s) :=
  okStep_runHead (keeps_get.bind fun _ _ => keeps_capTarget.bind fun _ => keeps_pure trivial) hs
theorem okStep_execJmpC {h : Head} {s : State} (hs : s.memOk) : OkStep (execJmpC h s) := okStep_viaHead hs
theorem okStep_execRet {h : Head} {s : State} (hs : s.memOk) : OkStep (execRet h s) := okStep_viaHead hs
theorem okStep_execCall {h : Head} {s : State} (hs : s.memOk) : OkStep (execCall h s) :=
  okStep_runHead (keeps_get.bind fun _ _ => keeps_setG.bind fun _ => keeps_pure trivial) hs
theorem okStep_execCallC {h : Head} {s : State} (hs : s.memOk) : OkStep (execCallC h s) :=
  okStep_runHead (keeps_get.bind fun _ _ => keeps_capTarget.bind fun _ => keeps_setG.bind fun _ => keeps_pure trivial) hs
theorem okStep_execLoop {h : Head} {s : State} (hs : s.memOk) : OkStep (execLoop h s) :=
  okStep_runHead (keeps_get.bind fun _ _ => KeepsP.ite (keeps_setInt.bind fun _ => keeps_pure trivial) (keeps_setInt.bind fun _ =>
    keeps_pure trivial)) hs

/-! ### The end of a firing -/

theorem keeps_awaitResults : Keeps awaitResults := keeps_get.bind fun _ _ => KeepsP.ite (keeps_pure trivial) keeps_throw
theorem memOk_wakeHandle {h : Nat} {s : State} (hs : s.memOk) : (wakeHandle h s).memOk :=
  memOk_ite (memOk_recordWake hs) (memOk_supRecord hs)
theorem okStep_endHead {r : Row} {h : Head} {status : Nat} {s : State} (hs : s.memOk) : OkStep (endHead r h status s) := by
  unfold endHead
  refine okStep_runHead ?_ hs
  refine keeps_get.bind fun _ _ => ?_
  refine KeepsP.ite ?_ ?_
  · exact KeepsP.join (keeps_upd (fun _ hu1 => memOk_endRun hu1)) (keeps_upd (fun _ hu2 => memOk_stopHandler (memOk_modRun hu2))) (fun _
      => keeps_pure trivial)
  · refine keeps_awaitResults.bind fun _ => ?_
    dsimp only
    split
    · exact keeps_throw_bind
    · exact KeepsP.ite keeps_illegal_bind (keeps_release.bind fun _ => KeepsP.checked (keeps_upd (fun _ hu3 => memOk_wakeHandle hu3)) (fun
        _ => (keeps_upd (fun _ hu4 => memOk_endFiring hu4)).bind fun _ => keeps_pure trivial))
theorem okStep_execEndFiring {h : Head} {s : State} (hs : s.memOk) : OkStep (execEndFiring h s) := okStep_endHead hs
theorem okStep_execEnde {h : Head} {s : State} (hs : s.memOk) : OkStep (execEnde h s) := okStep_endHead hs
theorem okStep_execYield {h : Head} {s : State} (hs : s.memOk) : OkStep (execYield h s) := okStep_runHead (keeps_pure trivial) hs

/-! ### Waits -/

theorem keeps_promiseCheck {c : Copy} : Keeps (promiseCheck c) := keeps_get.bind fun _ _ => KeepsP.ite keeps_raise (keeps_pure trivial)
theorem okStep_execWaitt {h : Head} {s : State} (hs : s.memOk) : OkStep (execWaitt h s) := by
  unfold execWaitt
  refine okStep_runHead ?_ hs
  refine keeps_get.bind fun _ _ => ?_
  refine keeps_answered.bind fun _ => ?_
  refine KeepsP.ite (keeps_pure trivial) ?_
  split
  · exact keeps_promiseCheck.bind fun _ => KeepsP.ite (keeps_pure trivial) keeps_throw
  · exact KeepsP.ite ((keeps_upd (fun _ hu1 => memOk_acquire hu1)).bind fun _ => keeps_pure trivial) (KeepsP.ite (keeps_pure trivial)
      keeps_throw)
theorem okStep_execWaiteMsg {h : Head} {s : State} (hs : s.memOk) : OkStep (execWaiteMsg h s) :=
  okStep_runHead (keeps_get.bind fun _ _ => KeepsP.ite ((keeps_upd (fun _ hu1 => memOk_modFir hu1)).bind fun _ => (keeps_upd (fun _ hu2 =>
    memOk_acquire hu2)).bind fun _ => keeps_pure trivial) keeps_throw) hs
theorem keeps_stallAs {α : Type} {w : Wait} {x : X α} (h : Keeps x) : Keeps (stallAs w x) := by
  intro s hs
  unfold stallAs
  simp only [tryCatch, tryCatchThe, MonadExceptOf.tryCatch, EStateM.tryCatch]
  cases e : x s with
  | ok a t => exact ⟨trivial, h.ok_memOk hs e⟩
  | error e' t => exact h.error hs e
theorem okStep_execWaiteStr {h : Head} {s : State} (hs : s.memOk) : OkStep (execWaiteStr h s) := by
  unfold execWaiteStr
  refine okStep_runHead ?_ hs
  refine keeps_get.bind fun _ _ => ?_
  split
  · exact keeps_pure trivial
  · refine KeepsP.ite ?_ ?_
    · dsimp only
      split
      · exact keeps_throw_bind
      · exact KeepsP.ite (keeps_pure trivial) keeps_throw
    · exact KeepsP.ite (keeps_pure trivial) ((keeps_stallAs keeps_popValue).bind fun _ => keeps_pure trivial)
theorem okStep_execWaiteRing {h : Head} {s : State} (hs : s.memOk) : OkStep (execWaiteRing h s) := by
  unfold execWaiteRing
  refine okStep_runHead ?_ hs
  refine keeps_get.bind fun _ _ => ?_
  refine keeps_answered.bind fun _ => ?_
  refine KeepsP.ite (keeps_pure trivial) ?_
  split
  · exact keeps_promiseCheck.bind fun _ => keeps_throw
  · exact (keeps_upd (fun _ hu1 => memOk_acquire hu1)).bind fun _ => keeps_pure trivial
theorem okStep_execWaiteSlot {h : Head} {s : State} (hs : s.memOk) : OkStep (execWaiteSlot h s) :=
  okStep_runHead (keeps_get.bind fun _ _ => KeepsP.ite keeps_throw (keeps_pure trivial)) hs

/-! ### FIRE -/

theorem keeps_readGranules {c : Cap} {va n : Nat} : Keeps (readGranules c va n) := by
  induction n generalizing va with
  | zero => exact keeps_pure trivial
  | succ n ih =>
    unfold readGranules
    refine keeps_translate.bind fun _ => ?_
    refine keeps_windowCheck.bind fun _ => ?_
    refine keeps_get.bind fun _ _ => ?_
    refine keeps_ensure.bind fun _ => ?_
    refine keeps_readNow.bind fun _ => ?_
    split
    · exact keeps_throw
    · exact keeps_raise
    · exact Keeps.bind ih fun _ => keeps_pure trivial
theorem okStep_execFire {h : Head} {s : State} (hs : s.memOk) : OkStep (execFire h s) := by
  unfold execFire
  refine okStep_runHead ?_ hs
  refine keeps_get.bind fun _ _ => ?_
  refine keeps_check.bind fun _ => ?_
  refine KeepsP.ite (keeps_setInt.bind fun _ => keeps_pure trivial) ?_
  refine keeps_readGranules.bind fun _ => ?_
  dsimp only
  split
  · exact keeps_raise
  · exact KeepsP.ite ((keeps_upd (fun _ hu1 => memOk_modCore hu1)).bind fun _ => keeps_lateInt.bind fun _ => keeps_pure trivial)
      (keeps_lateInt.bind fun _ => keeps_pure trivial)

/-! ### GROW and SHRINK -/

theorem okStep_growHead {r : Row} {h : Head} {vec : Bool} {s : State} (hs : s.memOk) : OkStep (growHead r h vec s) :=
  okStep_runHead (keeps_get.bind fun _ _ => keeps_answered.bind fun _ => KeepsP.ite (keeps_pure trivial) (KeepsP.ite keeps_illegal_bind
    (KeepsP.ite ((keeps_upd (fun _ hu1 => memOk_addChunks hu1)).bind fun _ => keeps_pure trivial) keeps_throw))) hs
theorem okStep_execGrowC {h : Head} {s : State} (hs : s.memOk) : OkStep (execGrowC h s) := okStep_growHead hs
theorem okStep_execGrowV {h : Head} {s : State} (hs : s.memOk) : OkStep (execGrowV h s) := okStep_growHead hs
theorem memOk_shrunk {c : Nat} {vec : Bool} {n : Nat} {s : State} (hs : s.memOk) : (shrunk c vec n s).memOk :=
  memOk_grantGrows (memOk_modPools (by split; exacts [memOk_modCtx (memOk_modCtx hs), memOk_modCtx hs]))
theorem okStep_shrinkHead {r : Row} {h : Head} {vec : Bool} {s : State} (hs : s.memOk) : OkStep (shrinkHead r h vec s) :=
  okStep_runHead (keeps_get.bind fun _ _ => KeepsP.ite keeps_illegal_bind (KeepsP.ite keeps_throw_bind ((keeps_upd (fun _ hu1 =>
    memOk_shrunk hu1)).bind fun _ => keeps_pure trivial))) hs
theorem okStep_execShrinkC {h : Head} {s : State} (hs : s.memOk) : OkStep (execShrinkC h s) := okStep_shrinkHead hs
theorem okStep_execShrinkV {h : Head} {s : State} (hs : s.memOk) : OkStep (execShrinkV h s) := okStep_shrinkHead hs

/-! ### Software traps and return -/

theorem okStep_execTrap {h : Head} {s : State} (hs : s.memOk) : OkStep (execTrap h s) := okStep_runHead keeps_raise hs
theorem keeps_afterTrap {s : State} : Keeps (afterTrap s) :=
  keeps_translate.bind fun _ => keeps_fetchLine.bind fun _ => keeps_pure trivial
theorem okStep_execEret {h : Head} {s : State} (hs : s.memOk) : OkStep (execEret h s) := by
  unfold execEret
  refine okStep_runHead ?_ hs
  refine keeps_get.bind fun _ _ => ?_
  exact KeepsP.ite keeps_illegal_bind (KeepsP.ite (keeps_capTarget.bind fun _ => (keeps_upd (fun _ hu1 => memOk_returnFromTrap hu1)).bind
    fun _ => keeps_pure trivial) (KeepsP.ite (keeps_afterTrap.bind fun _ => (keeps_upd (fun _ hu2 => memOk_returnFromTrap hu2)).bind fun _
    => keeps_pure trivial) (Keeps.bind (keeps_pure trivial) fun _ => (keeps_upd (fun _ hu3 => memOk_returnFromTrap hu3)).bind fun _ =>
    keeps_pure trivial)))

/-! ### Loads and stores -/

theorem okStep_execLd {h : Head} {s : State} (hs : s.memOk) : OkStep (execLd h s) :=
  okStep_runHead (keeps_get.bind fun _ _ => keeps_access.bind fun _ => keeps_issueLoad.bind fun _ => keeps_pure trivial) hs
theorem okStep_execSt {h : Head} {s : State} (hs : s.memOk) : OkStep (execSt h s) :=
  okStep_runHead (keeps_get.bind fun _ _ => keeps_access.bind fun _ => keeps_issueStore.bind fun _ => keeps_pure trivial) hs
theorem okStep_execLdc {h : Head} {s : State} (hs : s.memOk) : OkStep (execLdc h s) :=
  okStep_runHead (keeps_get.bind fun _ _ => keeps_access.bind fun _ => keeps_issueLoad.bind fun _ => keeps_pure trivial) hs
theorem keeps_stcCheck {c x : Cap} {ea pa : Nat} : Keeps (stcCheck c x ea pa) :=
  keeps_windowCheck.bind fun _ => keeps_get.bind fun _ _ => KeepsP.ite (keeps_ensure.bind fun _ => keeps_ensure) (keeps_pure trivial)
theorem okStep_execStc {h : Head} {s : State} (hs : s.memOk) : OkStep (execStc h s) :=
  okStep_runHead (keeps_get.bind fun _ _ => keeps_check.bind fun _ => keeps_ensure.bind fun _ => keeps_translate.bind fun _ =>
    keeps_stcCheck.bind fun _ => keeps_get.bind fun _ _ => keeps_ensure.bind fun _ => keeps_issueStore.bind fun _ => keeps_pure trivial)
    hs

/-! ### LDAQ, STRL and fences -/

theorem keeps_readHome {sp : Span} {scope : Nat} : Keeps (readHome sp scope) := by
  unfold readHome
  refine keeps_get.bind fun _ _ => ?_
  refine KeepsP.ite keeps_throw_bind ?_
  refine KeepsP.ite keeps_throw_bind ?_
  refine keeps_readNow.bind fun _ => ?_
  split
  · exact keeps_throw
  · exact KeepsP.ite keeps_raise_bind (keeps_pure trivial)
  · exact keeps_pure trivial
theorem okStep_execLdaq {h : Head} {s : State} (hs : s.memOk) : OkStep (execLdaq h s) :=
  okStep_runHead (keeps_get.bind fun _ _ => keeps_access.bind fun _ => (keeps_mapM (fun _ => keeps_readHome) _).bind fun _ =>
    keeps_issuePieces.bind fun _ => (keeps_upd (fun _ hu1 => memOk_acquire hu1)).bind fun _ => keeps_pure trivial) hs
theorem okStep_execStrl {h : Head} {s : State} (hs : s.memOk) : OkStep (execStrl h s) :=
  okStep_runHead (keeps_get.bind fun _ _ => keeps_access.bind fun _ => keeps_release.bind fun _ => keeps_issueStore.bind fun _ =>
    keeps_pure trivial) hs
theorem keeps_storeFence {scope : Nat} : Keeps (storeFence scope) :=
  keeps_awaitResults.bind fun _ => keeps_get.bind fun _ _ => KeepsP.ite (keeps_pure trivial) (KeepsP.ite keeps_release (KeepsP.ite
    (keeps_upd (fun _ hu1 => memOk_modHere hu1)) (keeps_pure trivial)))
theorem okStep_execFenceAr {h : Head} {s : State} (hs : s.memOk) : OkStep (execFenceAr h s) :=
  okStep_runHead (keeps_storeFence.bind fun _ => (keeps_upd (fun _ hu => memOk_launchFence (memOk_acquire hu))).bind fun _ => keeps_pure
    trivial) hs
theorem okStep_execFenceAcq {h : Head} {s : State} (hs : s.memOk) : OkStep (execFenceAcq h s) :=
  okStep_runHead (keeps_awaitResults.bind fun _ => (keeps_upd (fun _ hu => memOk_launchFence (memOk_acquire hu))).bind fun _ => keeps_pure
    trivial) hs
theorem okStep_execFenceRel {h : Head} {s : State} (hs : s.memOk) : OkStep (execFenceRel h s) :=
  okStep_runHead (keeps_storeFence.bind fun _ => (keeps_upd (fun _ hu => memOk_launchFence hu)).bind fun _ => keeps_pure trivial) hs
theorem memOk_dropL1i {core : Nat} {s : State} (hs : s.memOk) : (dropL1i core s).memOk := memOk_modCore hs
theorem okStep_execFenceFull {h : Head} {s : State} (hs : s.memOk) : OkStep (execFenceFull h s) := by
  unfold execFenceFull
  exact okStep_runHead (keeps_awaitResults.bind fun _ => keeps_get.bind fun _ _ => KeepsP.ite keeps_throw_bind (keeps_release.bind fun _
    => (keeps_upd (fun _ hu1 => memOk_launchFence (memOk_acquire hu1))).bind fun _ => keeps_get.bind fun _ _ => KeepsP.checked (keeps_upd
    (fun _ hu3 => memOk_dropL1i hu3)) (fun _ => keeps_pure trivial))) hs

/-! ### MOVB and FILL (R397, R398) -/

theorem keeps_readSpans {sps : List Span} : Keeps (readSpans sps) := by
  induction sps with
  | nil => exact keeps_pure trivial
  | cons x xs ih =>
    unfold readSpans
    refine keeps_get.bind fun _ _ => ?_
    refine keeps_readNow.bind fun _ => ?_
    split
    · exact keeps_throw
    · exact keeps_raise
    · exact Keeps.bind ih fun _ => keeps_pure trivial
theorem keeps_moveOverlap {a da n k x : Nat} : Keeps (moveOverlap a da n k x) :=
  keeps_get.bind fun _ hu => (keeps_set (memOk_modHere (memOk_freeOverlap hu))).bind fun _ => keeps_pure trivial
theorem keeps_moveStep {h : Head} {copy : Bool} : Keeps (moveStep h copy) := by
  unfold moveStep
  refine keeps_get.bind fun _ _ => ?_
  refine KeepsP.ite (keeps_pure trivial) ?_
  refine keeps_check.bind fun _ => ?_
  refine KeepsP.checked keeps_check (fun _ => ?_)
  refine KeepsP.join keeps_spansOf (keeps_pure trivial) (fun _ => ?_)
  refine keeps_spansOf.bind fun _ => ?_
  refine (keeps_forM (fun _ => keeps_windowCheck) _).bind fun _ => ?_
  exact (keeps_forM (fun _ => keeps_windowCheck) _).bind fun _ => keeps_get.bind fun _ _ => keeps_ensure.bind fun _ => keeps_ensure.bind
    fun _ => KeepsP.join keeps_readSpans (keeps_pure trivial) (fun _ => KeepsP.join keeps_moveOverlap (keeps_pure trivial) (fun _ =>
    keeps_issueStore.bind fun _ => keeps_setG.bind fun _ => KeepsP.checked keeps_setG (fun _ => keeps_setInt.bind fun _ => keeps_pure
    trivial)))
theorem okStep_execMovb {h : Head} {s : State} (hs : s.memOk) : OkStep (execMovb h s) := okStep_runHead keeps_moveStep hs
theorem okStep_execFill {h : Head} {s : State} (hs : s.memOk) : OkStep (execFill h s) := okStep_runHead keeps_moveStep hs

/-! ### Pinning and cache control (R399, R400) -/

theorem memOk_softLines {a n : Nat} {kind : BitVec 8} {f : Nat → W64 → State → State} {s : State} (hf3 : ∀ x0 x1 x2, x2.memOk → (f x0 x1
    x2).memOk) (hs : s.memOk) :
    (softLines a n kind f s).memOk :=
  memOk_foldl (fun _ _ hu => (by split; exacts [hu, hf3 _ _ _ hu])) hs
theorem memOk_fillL1i {core pa : Nat} {pin : Bool} {s : State} (hs : s.memOk) : (fillL1i core pa pin s).memOk := memOk_l1iPut hs
theorem memOk_fillL2 {attr : W64} {pa : Nat} {pin : Bool} {s : State} (hs : s.memOk) : (fillL2 attr pa pin s).memOk :=
  memOk_ite hs (memOk_withHome (fun _ hu => memOk_modMs hu) hs)
theorem keeps_checkedLines {kind : BitVec 8} {ls : List Nat} : Keeps (checkedLines kind ls) := by
  induction ls with
  | nil => exact keeps_pure trivial
  | cons x xs ih =>
    unfold checkedLines
    refine keeps_translate.bind fun _ => ?_
    refine keeps_get.bind fun _ _ => ?_
    dsimp only
    split
    · exact (keeps_upd (fun _ hu1 => memOk_suspend hu1)).bind fun _ => keeps_throw
    · exact (keeps_upd (fun _ hu2 => memOk_unsuspend hu2)).bind fun _ => ih
    · exact (keeps_upd (fun _ hu3 => memOk_unsuspend hu3)).bind fun _ => Keeps.bind ih fun _ => keeps_pure trivial
theorem okStep_execIpinL1i {h : Head} {s : State} (hs : s.memOk) : OkStep (execIpinL1i h s) :=
  okStep_runHead (keeps_get.bind fun _ _ => keeps_check.bind fun _ => keeps_checkedLines.bind fun _ => KeepsP.checked (keeps_forM (fun _
    => keeps_upd (fun _ hu1 => memOk_fillL1i hu1)) _) (fun _ => keeps_pure trivial)) hs
theorem okStep_execIpinL2 {h : Head} {s : State} (hs : s.memOk) : OkStep (execIpinL2 h s) :=
  okStep_runHead (keeps_get.bind fun _ _ => keeps_check.bind fun _ => keeps_checkedLines.bind fun _ => (keeps_forM (fun _ => keeps_upd
    (fun _ hu1 => memOk_fillL2 hu1)) _).bind fun _ => keeps_pure trivial) hs
theorem okStep_softHead {r : Row} {h : Head} {kind : BitVec 8} {f : Nat → W64 → State → State} {s : State} (hf3 : ∀ x0 x1 x2, x2.memOk →
    (f x0 x1 x2).memOk) (hs : s.memOk) :
    OkStep (softHead r h kind f s) :=
  okStep_runHead (keeps_get.bind fun _ _ => (keeps_upd (fun _ hu1 => memOk_softLines hf3 hu1)).bind fun _ => keeps_pure trivial) hs
theorem okStep_execIpinPf1 {h : Head} {s : State} (hs : s.memOk) : OkStep (execIpinPf1 h s) :=
  okStep_softHead (fun _ _ _ hu => memOk_ite (memOk_fillL1i hu) hu) hs
theorem okStep_execIpinPf2 {h : Head} {s : State} (hs : s.memOk) : OkStep (execIpinPf2 h s) :=
  okStep_softHead (fun _ _ _ hu => memOk_ite (memOk_fillL2 hu) hu) hs
theorem okStep_execIpinUn {h : Head} {s : State} (hs : s.memOk) : OkStep (execIpinUn h s) :=
  okStep_softHead (fun _ _ _ hu => memOk_modMs (memOk_ite hu (memOk_modCore hu))) hs
theorem memOk_sendPutm {pa : Nat} {seq : BitVec 16} {s : State} (hs : s.memOk) : (sendPutm pa seq s).memOk := by
  unfold sendPutm
  split
  · exact memOk_sendSeq hs
  · exact hs
theorem memOk_slicePutm {pa : Nat} {seq : BitVec 16} {s : State} (hs : s.memOk) : (slicePutm pa seq s).memOk :=
  memOk_mk (memOk_sendPutm (memOk_mk hs))
theorem memOk_sendPuts {pa : Nat} {seq : BitVec 16} {s : State} (hs : s.memOk) : (sendPuts pa seq s).memOk := by
  unfold sendPuts
  split
  · exact memOk_sendSeq hs
  · exact hs
theorem memOk_giveUpLine {pa : Nat} {l : L2Line} {s : State} (hs : s.memOk) : (giveUpLine pa l s).memOk :=
  memOk_ite (memOk_modMs (memOk_modHost hs)) (memOk_ite (memOk_slicePutm hs) (memOk_sendPuts hs))
theorem memOk_evictData {pa : Nat} {seq : BitVec 16} {s : State} (hs : s.memOk) : (evictData pa seq s).memOk :=
  memOk_ite (memOk_modHost hs) (memOk_sendPutm hs)
theorem memOk_writeBack {pa : Nat} {s : State} (hs : s.memOk) : (writeBack pa s).memOk := by
  unfold writeBack
  split
  · exact memOk_ite (memOk_evictData (memOk_modMs hs)) hs
  · exact hs
theorem okStep_execCacheWb {h : Head} {s : State} (hs : s.memOk) : OkStep (execCacheWb h s) :=
  okStep_runHead (keeps_get.bind fun _ _ => keeps_check.bind fun _ => keeps_checkedLines.bind fun _ => KeepsP.ite keeps_throw_bind
    ((keeps_forM (fun _ => keeps_upd (fun _ hu1 => memOk_writeBack hu1)) _).bind fun _ => keeps_pure trivial)) hs
theorem okStep_execCacheInv {h : Head} {s : State} (hs : s.memOk) : OkStep (execCacheInv h s) :=
  okStep_softHead (fun _ _ _ hu => memOk_ite hu (memOk_modCore hu)) hs
theorem okStep_execCachePf1 {h : Head} {s : State} (hs : s.memOk) : OkStep (execCachePf1 h s) :=
  okStep_softHead (fun _ _ _ hu => memOk_ite (memOk_l1Fill hu) hu) hs
theorem okStep_execCachePf2 {h : Head} {s : State} (hs : s.memOk) : OkStep (execCachePf2 h s) :=
  okStep_softHead (fun _ _ _ hu => memOk_ite (memOk_fillL2 hu) hu) hs

/-! ### Partial buffers -/

theorem memOk_addToMem {e : Partial} {s : State} (hs : s.memOk) : (addToMem e s).memOk :=
  memOk_foldl (fun _ _ hu => memOk_ite (memOk_memWrite hu) hu) hs
theorem memOk_sendRedc {who : Nat} {e : Partial} {s : State} (hs : s.memOk) : (sendRedc who e s).memOk := by
  unfold sendRedc
  split
  · exact memOk_sendSeq hs
  · exact hs
theorem memOk_evictPartial {who : Nat} {e : Partial} {s : State} (hs : s.memOk) : (evictPartial who e s).memOk := by
  unfold evictPartial
  split
  · exact memOk_sendRedc hs
  · exact memOk_addToMem hs
theorem memOk_intoPartial {who p : Nat} {e : Partial} {s : State} (hs : s.memOk) : (intoPartial who p e s).memOk := by
  unfold intoPartial
  refine memOk_ite (memOk_setPrism hs) ?_
  split
  · exact memOk_ite (memOk_evictPartial (memOk_setPrism hs)) (memOk_setPrism hs)
  · exact memOk_setPrism hs
theorem memOk_redAtHome {who p : Nat} {e : Partial} {s : State} (hs : s.memOk) : (redAtHome who p e s).2.memOk := by
  unfold redAtHome
  split
  · exact memOk_snd_ite hs (memOk_snd_ite (memOk_addToMem hs) (memOk_intoPartial (memOk_setAtag hs)))
  · exact hs

/-! ### Atomics -/

theorem keeps_atomicGate {pa : Nat} : Keeps (atomicGate pa) := by
  unfold atomicGate
  refine keeps_get.bind fun _ _ => ?_
  split
  · exact (keeps_upd (fun _ hu1 => memOk_unsuspend hu1)).bind fun _ => keeps_pure trivial
  · exact KeepsP.ite keeps_throw_bind ((keeps_upd (fun _ hu2 => memOk_suspend hu2)).bind fun _ => keeps_throw)
  · exact (keeps_upd (fun _ hu3 => memOk_unsuspend hu3)).bind fun _ => keeps_get.bind fun _ _ => KeepsP.ite (keeps_pure trivial)
      ((keeps_upd (fun _ hu5 => memOk_correct hu5)).bind fun _ => keeps_pure trivial)
theorem keeps_atomicReady {pa n : Nat} : Keeps (atomicReady pa n) := keeps_get.bind fun _ _ => KeepsP.ite keeps_throw (keeps_pure trivial)
theorem memOk_dropWords {core pa n : Nat} {s : State} (hs : s.memOk) : (dropWords core pa n s).memOk := by
  unfold dropWords
  split
  · exact hs
  · exact memOk_modCore hs
theorem memOk_replicate {attr : W64} {pa n x : Nat} {s : State} (hs : s.memOk) : (replicate attr pa n x s).memOk :=
  memOk_ite hs (memOk_foldl (fun _ _ hu => memOk_ite (memOk_memWrite hu) (memOk_mk hu)) hs)
theorem keeps_rmwHome {a : Rmw} {attr : W64} {pa : Nat} : Keeps (rmwHome a attr pa) := by
  unfold rmwHome
  refine keeps_atomicGate.bind fun _ => ?_
  split
  · exact keeps_pure trivial
  · refine keeps_get.bind fun _ _ => ?_
    refine Keeps.bind ?_ fun _ => ?_
    · refine keeps_upd (fun _ hu1 => ?_)
      refine memOk_ite ?_ ?_
      · split
        · exact memOk_replicate (memOk_homeWrite (memOk_noteLaunch hu1))
        · exact hu1
      · exact memOk_dropWords (by split; exacts [memOk_replicate (memOk_homeWrite (memOk_noteLaunch hu1)), hu1])
    · exact keeps_pure trivial
theorem keeps_rmwL1 {a : Rmw} {attr : W64} {pa : Nat} {late : Bool} : Keeps (rmwL1 a attr pa late) := by
  unfold rmwL1
  refine keeps_get.bind fun _ _ => KeepsP.ite keeps_throw_bind ?_
  extract_lets own rest
  have hrest : ∀ u, Keeps (rest u) := by
    intro u
    refine keeps_get.bind fun _ _ => ?_
    extract_lets write
    have hwrite : ∀ x, Keeps (write x) := by
      intro x
      dsimp only [write]
      split
      · exact keeps_pure trivial
      · exact KeepsP.ite (keeps_pushStores.bind fun _ => keeps_pure trivial) (KeepsP.ite keeps_throw_bind ((keeps_upd (fun _ hu =>
          memOk_modCore hu)).bind fun _ => keeps_pure trivial))
    split
    · exact keeps_throw_bind
    · exact (keeps_upd (fun _ hu => memOk_markSeen hu)).bind fun _ => Keeps.bind (keeps_pure trivial) hwrite
    · exact Keeps.bind (keeps_pure trivial) hwrite
  refine KeepsP.ite (KeepsP.ite keeps_throw_bind (keeps_atomicGate.bind fun _ => ?_)) (hrest ⟨⟩)
  split
  · exact keeps_pure trivial
  · exact (keeps_upd (fun _ hu => memOk_l1Fill hu)).bind hrest
theorem memOk_sauLine {strip pa home : Nat} {s : State} (hs : s.memOk) : (sauLine strip pa home s).2.memOk := by
  unfold sauLine
  split
  · exact hs
  · exact memOk_modStrip (memOk_modMs (memOk_takeOwner hs))
theorem keeps_rmwSau {a : Rmw} {attr : W64} {pa id : Nat} : Keeps (rmwSau a attr pa id) := by
  unfold rmwSau
  refine keeps_atomicGate.bind fun _ => ?_
  split
  · exact keeps_pure trivial
  · refine keeps_get.bind fun _ hu => ?_
    refine (keeps_set (memOk_sauLine hu)).bind fun _ => ?_
    refine (keeps_upd (fun _ hu1 => memOk_dropWords hu1)).bind fun _ => ?_
    split
    · exact keeps_pure trivial
    · exact (keeps_upd (fun _ hu2 => memOk_modStrip hu2)).bind fun _ => keeps_pure trivial
theorem keeps_rmwFau {a : Rmw} {pa id : Nat} : Keeps (rmwFau a pa id) := by
  unfold rmwFau
  refine keeps_get.bind fun _ _ => ?_
  refine KeepsP.ite keeps_throw_bind ?_
  refine keeps_atomicGate.bind fun _ => ?_
  split
  · exact keeps_pure trivial
  · exact keeps_get.bind fun _ _ => (keeps_upd (fun _ hu2 => memOk_modFab hu2)).bind fun _ => (keeps_upd (fun _ hu3 => memOk_dropWords
      hu3)).bind fun _ => keeps_pure trivial
theorem memOk_rmwPacket {a : Rmw} {d off scope id : Nat} {s : State} (hs : s.memOk) : (rmwPacket a d off scope id s).memOk :=
  memOk_sendSeq (memOk_notePush hs)
theorem keeps_atomicAddr {ea n : Nat} {kind : BitVec 8} : Keeps (atomicAddr ea n kind) := by
  unfold atomicAddr
  refine keeps_translate.bind fun _ => ?_
  refine keeps_get.bind fun _ _ => ?_
  dsimp only
  split
  · exact keeps_raise_bind
  · exact keeps_raise_bind
  · exact keeps_raise_bind
  · exact keeps_ensure.bind fun _ => keeps_pure trivial
theorem keeps_giveOld {dst : Dst} {w : Nat} {o : Old} : Keeps (giveOld dst w o) :=
  keeps_get.bind fun _ _ => (by split; exacts [keeps_addPend, KeepsP.ite keeps_raise_bind keeps_addPend])
theorem keeps_performAt {a : Rmw} {attr : W64} {p : Place} {id : Nat} {late : Bool} : Keeps (performAt a attr p id late) := by
  unfold performAt
  split
  · exact keeps_rmwL1.bind fun _ => keeps_pure trivial
  · exact KeepsP.ite (keeps_atomicReady.bind fun _ => keeps_get.bind fun _ _ => KeepsP.ite keeps_throw_bind (keeps_rmwHome.bind fun _ =>
      keeps_pure trivial)) (keeps_rmwHome.bind fun _ => keeps_pure trivial)
  · exact KeepsP.checked keeps_atomicReady (fun _ => keeps_rmwSau.bind fun _ => keeps_pure trivial)
  · exact KeepsP.ite (keeps_atomicReady.bind fun _ => keeps_get.bind fun _ _ => KeepsP.ite keeps_throw_bind keeps_rmwFau) keeps_rmwFau
  · exact keeps_pure trivial
theorem keeps_heldOn {a : Rmw} {red : Bool} {attr : W64} {dst : Dst} {p : Place} {m : X (Option Old)} (h : Keeps m) :
    Keeps (heldOn a red attr dst p m) := by
  refine keepsP_of (fun s t o hs e => ⟨trivial, ?_⟩) fun s t e hs he => ?_
  · unfold heldOn at e
    split at e
    · rename_i heq
      cases e
      exact h.ok_memOk hs heq
    · rename_i heq
      cases e
      exact memOk_withPend (h.error hs heq)
    · cases e
  · unfold heldOn at he
    split at he
    · cases he
    · cases he
    · rename_i heq
      cases he
      exact h.error hs heq
theorem keeps_atomicBody {h : Head} {a : Rmw} : Keeps (atomicBody h a) := by
  unfold atomicBody
  refine keeps_get.bind fun _ _ => ?_
  refine keeps_check.bind fun _ => ?_
  refine keeps_atomicAddr.bind fun _ => ?_
  refine KeepsP.checked keeps_release (fun _ => ?_)
  refine keeps_get.bind fun _ _ => ?_
  dsimp only
  split
  · refine KeepsP.ite keeps_throw_bind ?_
    refine KeepsP.ite ?_ ?_
    · exact keeps_addPend.bind fun _ => (keeps_upd (fun _ hu2 => memOk_rmwPacket hu2)).bind fun _ => Keeps.bind (keeps_pure trivial) fun _
        => KeepsP.ite ((keeps_upd (fun _ hu3 => memOk_acquire hu3)).bind fun _ => keeps_pure trivial) (keeps_pure trivial)
    · exact keeps_giveOld.bind fun _ => Keeps.bind (keeps_pure trivial) fun _ => KeepsP.ite ((keeps_upd (fun _ hu4 => memOk_acquire
        hu4)).bind fun _ => keeps_pure trivial) (keeps_pure trivial)
  · refine (keeps_heldOn keeps_performAt).bind fun _ => ?_
    split
    · exact Keeps.bind (keeps_pure trivial) fun _ => KeepsP.ite ((keeps_upd (fun _ hu5 => memOk_acquire hu5)).bind fun _ => keeps_pure
        trivial) (keeps_pure trivial)
    · exact keeps_addPend.bind fun _ => Keeps.bind (keeps_pure trivial) fun _ => KeepsP.ite ((keeps_upd (fun _ hu6 => memOk_acquire
        hu6)).bind fun _ => keeps_pure trivial) (keeps_pure trivial)
    · exact keeps_giveOld.bind fun _ => Keeps.bind (keeps_pure trivial) fun _ => KeepsP.ite ((keeps_upd (fun _ hu7 => memOk_acquire
        hu7)).bind fun _ => keeps_pure trivial) (keeps_pure trivial)
theorem okStep_amoHead {r : Row} {h : Head} {s : State} (hs : s.memOk) : OkStep (amoHead r h s) :=
  okStep_runHead (keeps_get.bind fun _ _ => keeps_atomicBody) hs
theorem okStep_execAadd {h : Head} {s : State} (hs : s.memOk) : OkStep (execAadd h s) := okStep_amoHead hs
theorem okStep_execAand {h : Head} {s : State} (hs : s.memOk) : OkStep (execAand h s) := okStep_amoHead hs
theorem okStep_execAor {h : Head} {s : State} (hs : s.memOk) : OkStep (execAor h s) := okStep_amoHead hs
theorem okStep_execAxor {h : Head} {s : State} (hs : s.memOk) : OkStep (execAxor h s) := okStep_amoHead hs
theorem okStep_execAmin {h : Head} {s : State} (hs : s.memOk) : OkStep (execAmin h s) := okStep_amoHead hs
theorem okStep_execAmax {h : Head} {s : State} (hs : s.memOk) : OkStep (execAmax h s) := okStep_amoHead hs
theorem okStep_execAminu {h : Head} {s : State} (hs : s.memOk) : OkStep (execAminu h s) := okStep_amoHead hs
theorem okStep_execAmaxu {h : Head} {s : State} (hs : s.memOk) : OkStep (execAmaxu h s) := okStep_amoHead hs
theorem okStep_execAswp {h : Head} {s : State} (hs : s.memOk) : OkStep (execAswp h s) := okStep_amoHead hs
theorem okStep_execAfadd {h : Head} {s : State} (hs : s.memOk) : OkStep (execAfadd h s) := okStep_amoHead hs
theorem okStep_execAfmax {h : Head} {s : State} (hs : s.memOk) : OkStep (execAfmax h s) := okStep_amoHead hs
theorem okStep_execAcas {h : Head} {s : State} (hs : s.memOk) : OkStep (execAcas h s) :=
  okStep_runHead (keeps_get.bind fun _ _ => keeps_atomicBody) hs

/-! ### RED (R405) -/

theorem memOk_redDomain {a : Rmw} {pa : Nat} {s : State} (hs : s.memOk) : (redDomain a pa s).memOk := by
  unfold redDomain
  split
  · exact memOk_ite (memOk_intoPartial hs) (memOk_postedFail hs)
  · exact memOk_ite (memOk_postedFail hs) (memOk_ite (memOk_postedFail hs) (memOk_ite (memOk_redAtHome hs) (memOk_postedFail
      (memOk_redAtHome hs))))
theorem keeps_redPlaced {a : Rmw} {attr : W64} {pa scope : Nat} : Keeps (redPlaced a attr pa scope) := by
  unfold redPlaced
  refine keeps_get.bind fun _ _ => ?_
  extract_lets rest
  have hrest : ∀ o, Keeps (rest o) := by
    intro o
    dsimp only [rest]
    split
    · exact keeps_upd (fun _ hu => memOk_postedFail hu)
    · exact keeps_pure trivial
  have hnone (o : Option Old) : Keeps (pure o >>= rest) := Keeps.bind (keeps_pure trivial) hrest
  split
  · exact KeepsP.ite keeps_throw_bind (KeepsP.ite ((keeps_upd (fun _ hu => memOk_rmwPacket hu)).bind fun _ => hnone _) (hnone _))
  · refine (keeps_heldOn keeps_performAt).bind fun _ => ?_
    split <;> exact hnone _
theorem okStep_redHead {r : Row} {h : Head} {s : State} (hs : s.memOk) : OkStep (redHead r h s) := by
  unfold redHead
  exact okStep_runHead (keeps_get.bind fun _ _ => keeps_check.bind fun _ => keeps_atomicAddr.bind fun _ => KeepsP.checked keeps_release
    (fun _ => keeps_get.bind fun _ _ => KeepsP.ite keeps_throw_bind (KeepsP.join (keeps_upd (fun _ hu2 => memOk_redDomain hu2))
    keeps_redPlaced (fun _ => keeps_pure trivial)))) hs
theorem okStep_execRedadd {h : Head} {s : State} (hs : s.memOk) : OkStep (execRedadd h s) := okStep_redHead hs
theorem okStep_execRedand {h : Head} {s : State} (hs : s.memOk) : OkStep (execRedand h s) := okStep_redHead hs
theorem okStep_execRedor {h : Head} {s : State} (hs : s.memOk) : OkStep (execRedor h s) := okStep_redHead hs
theorem okStep_execRedxor {h : Head} {s : State} (hs : s.memOk) : OkStep (execRedxor h s) := okStep_redHead hs
theorem okStep_execRedmin {h : Head} {s : State} (hs : s.memOk) : OkStep (execRedmin h s) := okStep_redHead hs
theorem okStep_execRedmax {h : Head} {s : State} (hs : s.memOk) : OkStep (execRedmax h s) := okStep_redHead hs
theorem okStep_execRedminu {h : Head} {s : State} (hs : s.memOk) : OkStep (execRedminu h s) := okStep_redHead hs
theorem okStep_execRedmaxu {h : Head} {s : State} (hs : s.memOk) : OkStep (execRedmaxu h s) := okStep_redHead hs
theorem okStep_execRedfadd {h : Head} {s : State} (hs : s.memOk) : OkStep (execRedfadd h s) := okStep_redHead hs
theorem okStep_execRedfmax {h : Head} {s : State} (hs : s.memOk) : OkStep (execRedfmax h s) := okStep_redHead hs

/-! ### CapOps -/

theorem okStep_getHead {r : Row} {h : Head} {f : Cap → W64} {s : State} (hs : s.memOk) : OkStep (getHead r h f s) :=
  okStep_runHead (keeps_get.bind fun _ _ => keeps_setInt.bind fun _ => keeps_pure trivial) hs
theorem okStep_setbHead {r : Row} {h : Head} {outward : Bool} {s : State} (hs : s.memOk) : OkStep (setbHead r h outward s) := by
  unfold setbHead
  refine okStep_runHead ?_ hs
  refine keeps_get.bind fun _ _ => ?_
  dsimp only
  split
  · exact keeps_raise_bind
  · exact keeps_setG.bind fun _ => keeps_pure trivial
theorem okStep_execCinc {h : Head} {s : State} (hs : s.memOk) : OkStep (execCinc h s) := okStep_capHead hs
theorem okStep_execCseta {h : Head} {s : State} (hs : s.memOk) : OkStep (execCseta h s) := okStep_capHead hs
theorem okStep_execCsetb {h : Head} {s : State} (hs : s.memOk) : OkStep (execCsetb h s) := okStep_setbHead hs
theorem okStep_execCsetbO {h : Head} {s : State} (hs : s.memOk) : OkStep (execCsetbO h s) := okStep_setbHead hs
theorem okStep_execCperm {h : Head} {s : State} (hs : s.memOk) : OkStep (execCperm h s) := okStep_capHead hs
theorem okStep_execCfmt {h : Head} {s : State} (hs : s.memOk) : OkStep (execCfmt h s) := okStep_capHead hs
theorem okStep_execCgetAddr {h : Head} {s : State} (hs : s.memOk) : OkStep (execCgetAddr h s) := okStep_getHead hs
theorem okStep_execCgetBase {h : Head} {s : State} (hs : s.memOk) : OkStep (execCgetBase h s) := okStep_getHead hs
theorem okStep_execCgetLen {h : Head} {s : State} (hs : s.memOk) : OkStep (execCgetLen h s) := okStep_getHead hs
theorem okStep_execCgetPerm {h : Head} {s : State} (hs : s.memOk) : OkStep (execCgetPerm h s) := okStep_getHead hs
theorem okStep_execCgetFmt {h : Head} {s : State} (hs : s.memOk) : OkStep (execCgetFmt h s) := okStep_getHead hs
theorem okStep_execCgetK {h : Head} {s : State} (hs : s.memOk) : OkStep (execCgetK h s) := okStep_getHead hs
theorem okStep_execCgetTag {h : Head} {s : State} (hs : s.memOk) : OkStep (execCgetTag h s) := okStep_getHead hs
theorem okStep_execCgetTop {h : Head} {s : State} (hs : s.memOk) : OkStep (execCgetTop h s) := okStep_getHead hs
theorem okStep_execMov {h : Head} {s : State} (hs : s.memOk) : OkStep (execMov h s) := okStep_capHead hs
theorem okStep_execMovd {h : Head} {s : State} (hs : s.memOk) : OkStep (execMovd h s) := okStep_capHead hs
theorem okStep_execCsub {h : Head} {s : State} (hs : s.memOk) : OkStep (execCsub h s) := okStep_intHead hs
theorem okStep_execCchk {h : Head} {s : State} (hs : s.memOk) : OkStep (execCchk h s) :=
  okStep_runHead (keeps_get.bind fun _ _ => keeps_ensure.bind fun _ => keeps_ensure.bind fun _ => keeps_ensure.bind fun _ => keeps_pure
    trivial) hs

end Sys2Proof.Machine
end

section
set_option Elab.async false
/-! Steps keep both memories canonical: barriers, messages, copies and the Prism heads. -/
namespace Sys2Proof.Machine

/-! ### Full/empty words (R406, R407) -/

theorem memOk_setFull {pa : Nat} {b : Bool} {s : State} (hs : s.memOk) : (setFull pa b s).memOk := memOk_modMs hs
theorem memOk_feGrant {w : FeWait} {x : Nat} {s : State} (hs : s.memOk) : (feGrant w x s).memOk := memOk_modCtx (memOk_modMs hs)
theorem memOk_feServe {pa n : Nat} {s : State} (hs : s.memOk) : (feServe pa n s).memOk := by
  induction n generalizing s with
  | zero => exact hs
  | succ n ih =>
    unfold feServe
    refine memOk_ite ?_ ?_
    · split
      · exact hs
      · exact ih (memOk_ite (memOk_setFull (memOk_feGrant hs)) (memOk_feGrant hs))
    · split
      · exact hs
      · exact ih (memOk_setFull (memOk_feGrant (memOk_memWrite hs)))
theorem keeps_feWait {pa op val : Nat} : Keeps (feWait pa op val) :=
  keeps_get.bind fun _ _ => KeepsP.checked (keeps_upd (fun _ hu1 => memOk_modMs hu1)) (fun _ => keeps_throw)
theorem keeps_feServed {pa : Nat} : Keeps (feServed pa) := keeps_get.bind fun _ _ => (by dsimp only; split <;> exact keeps_pure trivial)
theorem keeps_feWord {h : Head} {perm : Nat} {kind : BitVec 8} : Keeps (feWord h perm kind) := by
  unfold feWord
  refine keeps_get.bind fun _ _ => ?_
  refine keeps_check.bind fun _ => ?_
  refine keeps_translate.bind fun _ => ?_
  refine keeps_get.bind fun _ _ => ?_
  dsimp only
  split
  · exact keeps_ensure.bind fun _ => keeps_pure trivial
  · exact keeps_raise_bind
theorem okStep_feRead {r : Row} {h : Head} {perm : Nat} {kind : BitVec 8} {op : Nat} {f : Nat → Bool → Option (Nat × Bool)} {acq : Bool →
    Bool} {s : State} (hs : s.memOk) :
    OkStep (feRead r h perm kind op f acq s) := by
  unfold feRead
  refine okStep_runHead ?_ hs
  refine keeps_feWord.bind fun _ => ?_
  refine keeps_feServed.bind fun _ => ?_
  split
  · exact (keeps_upd (fun _ hu => memOk_acquire hu)).bind fun _ => keeps_lateInt.bind fun _ => keeps_pure trivial
  · refine keeps_atomicReady.bind fun _ => ?_
    refine keeps_get.bind fun _ _ => ?_
    refine KeepsP.ite (keeps_giveOld.bind fun _ => keeps_pure trivial) ?_
    split
    · exact keeps_feWait.bind fun _ => keeps_pure trivial
    · exact KeepsP.checked (keeps_upd (fun _ hu2 => memOk_feServe (memOk_setFull hu2))) (fun _ => KeepsP.checked (keeps_upd (fun _ hu3 =>
        memOk_acquire hu3)) (fun _ => keeps_lateInt.bind fun _ => keeps_pure trivial))
theorem okStep_execTake {h : Head} {s : State} (hs : s.memOk) : OkStep (execTake h s) := okStep_feRead hs
theorem okStep_execPeek {h : Head} {s : State} (hs : s.memOk) : OkStep (execPeek h s) := okStep_feRead hs
theorem okStep_execTrytake {h : Head} {s : State} (hs : s.memOk) : OkStep (execTrytake h s) := okStep_feRead hs
theorem okStep_execFeget {h : Head} {s : State} (hs : s.memOk) : OkStep (execFeget h s) := okStep_feRead hs
theorem okStep_feWrite {r : Row} {h : Head} {waits : Bool} {f : Nat → Nat → State → State} {s : State} (hf3 : ∀ x0 x1 x2, x2.memOk → (f x0
    x1 x2).memOk) (hs : s.memOk) :
    OkStep (feWrite r h waits f s) := by
  unfold feWrite
  exact okStep_runHead (keeps_feWord.bind fun _ => keeps_feServed.bind fun _ => KeepsP.ite (keeps_pure trivial) (keeps_release.bind fun _
    => keeps_atomicReady.bind fun _ => keeps_get.bind fun _ _ => KeepsP.ite ((keeps_upd (fun _ hu1 => memOk_postedFail hu1)).bind fun _ =>
    keeps_pure trivial) (KeepsP.checked keeps_feWait (fun _ => (keeps_upd (fun _ hu2 => memOk_feServe (hf3 _ _ _ hu2))).bind fun _ =>
    keeps_pure trivial)))) hs
theorem memOk_feFill {pa v : Nat} {s : State} (hs : s.memOk) : (feFill pa v s).memOk := memOk_setFull (memOk_memWrite hs)
theorem okStep_execPut {h : Head} {s : State} (hs : s.memOk) : OkStep (execPut h s) := okStep_feWrite (fun _ _ _ hu => memOk_feFill hu) hs
theorem okStep_execFput {h : Head} {s : State} (hs : s.memOk) : OkStep (execFput h s) :=
  okStep_feWrite (fun _ _ _ hu => memOk_feFill hu) hs
theorem okStep_execFclr {h : Head} {s : State} (hs : s.memOk) : OkStep (execFclr h s) :=
  okStep_feWrite (fun _ _ _ hu => memOk_setFull hu) hs

/-! ### Sweep barriers (R408, R409) -/

theorem memOk_arriveBar {w : Sweep} {level k : Nat} {f : Firing} {s : State} (hs : s.memOk) : (arriveBar w level k f s).memOk :=
  memOk_ite (memOk_mk (memOk_modGrp hs)) (memOk_modGrp hs)
theorem keeps_nextArrival {level : Nat} : Keeps (nextArrival level) :=
  keeps_get.bind fun _ _ => (keeps_upd (fun _ hu1 => memOk_modFir hu1)).bind fun _ => keeps_pure trivial
theorem keeps_barLevel {level : Nat} : Keeps (barLevel level) := by
  unfold barLevel
  refine keeps_get.bind fun _ _ => ?_
  split
  · exact keeps_pure trivial
  · exact keeps_answered.bind fun _ => KeepsP.ite ((keeps_upd (fun _ hu1 => memOk_acquire hu1)).bind fun _ => keeps_pure trivial)
      (keeps_release.bind fun _ => keeps_nextArrival.bind fun _ => (keeps_upd (fun _ hu2 => memOk_arriveBar hu2)).bind fun _ =>
      keeps_get.bind fun _ _ => KeepsP.ite ((keeps_upd (fun _ hu4 => memOk_acquire hu4)).bind fun _ => keeps_pure trivial) keeps_throw)
theorem keeps_barinLevel {level : Nat} : Keeps (barinLevel level) := by
  unfold barinLevel
  refine keeps_get.bind fun _ _ => ?_
  dsimp only
  split
  · refine keeps_release.bind fun _ => ?_
    refine keeps_nextArrival.bind fun _ => ?_
    split
    · exact (keeps_upd (fun _ hu1 => memOk_arriveBar hu1)).bind fun _ => (keeps_upd (fun _ hu2 => memOk_modFir hu2)).bind fun _ =>
        keeps_pure trivial
    · exact (keeps_upd (fun _ hu3 => memOk_modFir hu3)).bind fun _ => keeps_pure trivial
  · refine keeps_nextArrival.bind fun _ => ?_
    split
    · exact (keeps_upd (fun _ hu4 => memOk_arriveBar hu4)).bind fun _ => (keeps_upd (fun _ hu5 => memOk_modFir hu5)).bind fun _ =>
        keeps_pure trivial
    · exact (keeps_upd (fun _ hu6 => memOk_modFir hu6)).bind fun _ => keeps_pure trivial
theorem keeps_barwtLevel {level : Nat} : Keeps (barwtLevel level) := by
  unfold barwtLevel
  refine keeps_get.bind fun _ _ => ?_
  refine KeepsP.ite keeps_illegal_bind ?_
  dsimp only
  split
  · exact (keeps_upd (fun _ hu1 => memOk_modFir hu1)).bind fun _ => keeps_pure trivial
  · exact KeepsP.checked (keeps_upd (fun _ hu2 => memOk_arriveBar hu2)) (fun _ => keeps_answered.bind fun _ => keeps_get.bind fun _ _ =>
      KeepsP.ite ((keeps_upd (fun _ hu4 => memOk_modFir hu4)).bind fun _ => (keeps_upd (fun _ hu5 => memOk_acquire hu5)).bind fun _ =>
      keeps_pure trivial) keeps_throw)
theorem memOk_withdrawBar {c : Nat} {s : State} (hs : s.memOk) : (withdrawBar c s).memOk := by
  unfold withdrawBar
  dsimp only
  split
  · split
    · exact memOk_ite (memOk_modGrp hs) (memOk_modFir (memOk_modGrp hs))
    · exact memOk_modGrp hs
  · exact hs

/-! ### Domain barriers (R55, R56, R410) -/

theorem memOk_setDom {i : Nat} {e : W64} {s : State} (hs : s.memOk) : (setDom i e s).memOk := memOk_modFab hs
theorem keeps_domIndex {h : Head} : Keeps (domIndex h) := keeps_get.bind fun _ _ => KeepsP.ite keeps_illegal_bind (keeps_pure trivial)
theorem keeps_arriveDom {i : Nat} : Keeps (arriveDom i) :=
  keeps_get.bind fun _ _ => KeepsP.ite keeps_throw_bind ((keeps_upd (fun _ hu1 => memOk_setDom hu1)).bind fun _ => keeps_pure trivial)
theorem keeps_barDom {h : Head} : Keeps (barDom h) := by
  unfold barDom
  refine keeps_domIndex.bind fun _ => ?_
  refine keeps_get.bind fun _ _ => ?_
  dsimp only
  split
  · exact KeepsP.ite (KeepsP.ite keeps_throw_bind ((keeps_upd (fun _ hu1 => memOk_acquire hu1)).bind fun _ => keeps_pure trivial))
      (keeps_release.bind fun _ => keeps_arriveDom.bind fun _ => keeps_throw)
  · exact keeps_release.bind fun _ => keeps_arriveDom.bind fun _ => keeps_throw
theorem keeps_barinDom {h : Head} : Keeps (barinDom h) :=
  keeps_domIndex.bind fun _ => keeps_release.bind fun _ => keeps_arriveDom.bind fun _ => keeps_get.bind fun _ _ => (keeps_upd (fun _ hu1
    => memOk_modFir hu1)).bind fun _ => keeps_pure trivial
theorem keeps_barwtDom {h : Head} : Keeps (barwtDom h) :=
  keeps_domIndex.bind fun _ => keeps_get.bind fun _ _ => KeepsP.ite keeps_illegal_bind (KeepsP.ite keeps_throw_bind ((keeps_upd (fun _ hu1
    => memOk_modFir hu1)).bind fun _ => (keeps_upd (fun _ hu2 => memOk_acquire hu2)).bind fun _ => keeps_pure trivial))
theorem memOk_withdrawDom {c : Nat} {s : State} (hs : s.memOk) : (withdrawDom c s).2.memOk := by
  unfold withdrawDom
  split
  · exact memOk_snd_ite hs (memOk_snd_ite (memOk_setDom hs) hs)
  · exact hs
theorem okStep_execBar {h : Head} {s : State} (hs : s.memOk) : OkStep (execBar h s) :=
  okStep_runHead (KeepsP.ite keeps_barDom keeps_barLevel) hs
theorem okStep_execBarin {h : Head} {s : State} (hs : s.memOk) : OkStep (execBarin h s) :=
  okStep_runHead (KeepsP.ite keeps_barinDom keeps_barinLevel) hs
theorem okStep_execBarwt {h : Head} {s : State} (hs : s.memOk) : OkStep (execBarwt h s) :=
  okStep_runHead (KeepsP.ite keeps_barwtDom keeps_barwtLevel) hs

/-! ### The wired barrier (R183, R187, R411, R412) -/

theorem memOk_gangRecords {strip : Nat} {s : State} (hs : s.memOk) : (gangRecords strip s).memOk :=
  memOk_foldl (fun _ _ hu => memOk_supRecord hu) hs
theorem memOk_gangOpen {strip : Nat} {s : State} (hs : s.memOk) : (gangOpen strip s).memOk :=
  memOk_ite (memOk_gangRecords (memOk_modStrip hs)) hs
theorem memOk_gangRelease {strip : Nat} {cs : List Nat} {v : Nat} {s : State} (hs : s.memOk) : (gangRelease strip cs v s).memOk :=
  memOk_foldl (fun _ _ hu => memOk_ite hu (memOk_modCtx hu)) (memOk_modStrip hs)
theorem okStep_execGang {h : Head} {s : State} (hs : s.memOk) : OkStep (execGang h s) := by
  unfold execGang
  refine okStep_runHead ?_ hs
  refine keeps_get.bind fun _ _ => ?_
  refine KeepsP.ite keeps_illegal_bind ?_
  refine keeps_answered.bind fun _ => ?_
  refine KeepsP.ite ?_ ?_
  · exact (keeps_upd (fun _ hu1 => memOk_acquire hu1)).bind fun _ => (keeps_upd (fun _ hu2 => memOk_modFir hu2)).bind fun _ => keeps_pure
      trivial
  · exact keeps_release.bind fun _ => (keeps_upd (fun _ hu3 => memOk_gangOpen hu3)).bind fun _ => (keeps_upd (fun _ hu4 => memOk_modStrip
      hu4)).bind fun _ => keeps_get.bind fun _ _ => KeepsP.ite ((keeps_upd (fun _ hu6 => memOk_gangRelease hu6)).bind fun _ => (keeps_upd
      (fun _ hu7 => memOk_acquire hu7)).bind fun _ => (keeps_upd (fun _ hu8 => memOk_modFir hu8)).bind fun _ => keeps_pure trivial)
      keeps_throw
theorem okStep_execBarmax {h : Head} {s : State} (hs : s.memOk) : OkStep (execBarmax h s) := by
  unfold execBarmax
  refine okStep_runHead ?_ hs
  refine keeps_get.bind fun _ _ => ?_
  refine KeepsP.ite keeps_illegal_bind ?_
  refine keeps_answered.bind fun _ => ?_
  refine KeepsP.ite ?_ ?_
  · exact (keeps_upd (fun _ hu1 => memOk_acquire hu1)).bind fun _ => keeps_lateInt.bind fun _ => keeps_pure trivial
  · exact keeps_release.bind fun _ => (keeps_upd (fun _ hu2 => memOk_gangOpen hu2)).bind fun _ => (keeps_upd (fun _ hu3 => memOk_modStrip
      hu3)).bind fun _ => keeps_get.bind fun _ _ => KeepsP.ite ((keeps_upd (fun _ hu5 => memOk_gangRelease hu5)).bind fun _ => (keeps_upd
      (fun _ hu6 => memOk_acquire hu6)).bind fun _ => keeps_lateInt.bind fun _ => keeps_pure trivial) keeps_throw

/-! ### Messages -/

theorem memOk_postNet {m : NetMsg} {s : State} (hs : s.memOk) : (postNet m s).memOk := memOk_mk hs

/-! ### SEND (R413, R414) -/

theorem keeps_checkNamed {reg : Nat} {c : Cap} {ea n p align : Nat} : Keeps (checkNamed reg c ea n p align) :=
  keeps_ensure.bind fun _ => keeps_ensure.bind fun _ => keeps_ensure.bind fun _ => keeps_ensure
theorem keeps_ringCheck {c : Cap} : Keeps (ringCheck c) := KeepsP.ite keeps_illegal_bind keeps_checkNamed
theorem memOk_postMsg {t : Target} {m : Msg} {s : State} (hs : s.memOk) : (postMsg t m s).memOk := by
  unfold postMsg
  split
  · exact memOk_postNet hs
  · exact memOk_ite (memOk_sendSeqQ hs) (memOk_postNet hs)
theorem keeps_sendTarget {h : Head} {form : Nat} : Keeps (sendTarget h form) := by
  unfold sendTarget
  refine keeps_get.bind fun _ _ => ?_
  dsimp only
  split
  · exact keeps_check.bind fun _ => keeps_translate.bind fun _ => keeps_get.bind fun _ _ => (by split <;> exact keeps_pure trivial)
  · exact keeps_pure trivial
  · exact keeps_pure trivial
theorem okStep_sendHead {r : Row} {h : Head} {form : Nat} {s : State} (hs : s.memOk) : OkStep (sendHead r h form s) := by
  unfold sendHead
  exact okStep_runHead (keeps_get.bind fun _ _ => keeps_check.bind fun _ => keeps_sendTarget.bind fun _ => KeepsP.checked keeps_ringCheck
    (fun _ => keeps_get.bind fun _ _ => keeps_ensure.bind fun _ => keeps_release.bind fun _ => (keeps_upd (fun _ hu2 => memOk_postMsg
    hu2)).bind fun _ => keeps_pure trivial)) hs
theorem okStep_execSend {h : Head} {s : State} (hs : s.memOk) : OkStep (execSend h s) := okStep_sendHead hs
theorem okStep_execSendC {h : Head} {s : State} (hs : s.memOk) : OkStep (execSendC h s) := okStep_sendHead hs
theorem okStep_execSendR {h : Head} {s : State} (hs : s.memOk) : OkStep (execSendR h s) := okStep_sendHead hs

/-! ### NPUT (R415, R176) -/

theorem okStep_execNput {h : Head} {s : State} (hs : s.memOk) : OkStep (execNput h s) :=
  okStep_runHead (keeps_get.bind fun _ _ => keeps_release.bind fun _ => keeps_get.bind fun _ _ => KeepsP.join (keeps_upd (fun _ hu2 =>
    memOk_postNet hu2)) (keeps_upd (fun _ hu3 => memOk_postNet hu3)) (fun _ => keeps_pure trivial)) hs
theorem okStep_execNputArm {h : Head} {s : State} (hs : s.memOk) : OkStep (execNputArm h s) :=
  okStep_runHead (keeps_get.bind fun _ _ => KeepsP.ite keeps_throw_bind ((keeps_upd (fun _ hu1 => memOk_modHere hu1)).bind fun _ =>
    keeps_pure trivial)) hs

/-! ### FIFOs (R150, R416, R417) -/

theorem okStep_execPush {h : Head} {s : State} (hs : s.memOk) : OkStep (execPush h s) := by
  unfold execPush
  exact okStep_runHead (keeps_get.bind fun _ _ => KeepsP.ite keeps_illegal_bind (keeps_access.bind fun _ => keeps_release.bind fun _ =>
    keeps_readSpans.bind fun _ => (keeps_upd (fun _ hu1 => memOk_setCred hu1)).bind fun _ => (keeps_upd (fun _ hu2 => memOk_postNet
    hu2)).bind fun _ => keeps_pure trivial)) hs
theorem okStep_execConsume {h : Head} {s : State} (hs : s.memOk) : OkStep (execConsume h s) :=
  okStep_runHead (keeps_get.bind fun _ _ => KeepsP.ite keeps_illegal_bind (keeps_release.bind fun _ => (keeps_upd (fun _ hu1 =>
    memOk_setFifo hu1)).bind fun _ => (keeps_upd (fun _ hu2 => memOk_postNet hu2)).bind fun _ => keeps_pure trivial)) hs

/-! ### CPGO (R463) -/

theorem keeps_patternCheck {reg : Nat} {c : Copy} {cap : Cap} {a : Int} {st : Bool} : Keeps (patternCheck reg c cap a st) :=
  KeepsP.ite keeps_raise (keeps_pure trivial)
theorem keeps_cpgoCheck : Keeps cpgoCheck := by
  unfold cpgoCheck
  exact keeps_get.bind fun _ _ => keeps_checkNamed.bind fun _ => keeps_checkNamed.bind fun _ => keeps_ringCheck.bind fun _ => KeepsP.ite
    keeps_illegal_bind (keeps_patternCheck.bind fun _ => keeps_translate.bind fun _ => KeepsP.ite (keeps_translate.bind fun _ =>
    keeps_pure trivial) (keeps_translate.bind fun _ => (keeps_forM (fun _ => keeps_patternCheck) _).bind fun _ => keeps_translate.bind fun
    _ => keeps_pure trivial))
theorem memOk_startCopy {c : Copy} {s : State} (hs : s.memOk) : (startCopy c s).memOk := memOk_modCore (memOk_modCp hs)
theorem okStep_execCpgo {h : Head} {s : State} (hs : s.memOk) : OkStep (execCpgo h s) := by
  unfold execCpgo
  exact okStep_runHead (KeepsP.ite keeps_illegal_bind (keeps_cpgoCheck.bind fun _ => keeps_get.bind fun _ _ => KeepsP.ite keeps_throw_bind
    ((keeps_upd (fun _ hu1 => memOk_startCopy hu1)).bind fun _ => keeps_addPend.bind fun _ => keeps_addPend.bind fun _ => keeps_pure
    trivial))) hs

/-! ### The engines -/

theorem memOk_modCopy {id : Nat} {f : Copy → Copy} {s : State} (hs : s.memOk) : (modCopy id f s).memOk := memOk_modCp hs
theorem keeps_copyWalk {c : Copy} {va : Nat} {kind : BitVec 8} : Keeps (copyWalk c va kind) := by
  unfold copyWalk
  refine keeps_get.bind fun _ hu => ?_
  split
  · rename_i heq
    exact KeepsP.ite keeps_throw keeps_throw
  · rename_i heq
    exact (keeps_set (memOk_snd (memOk_engineWalk hu) heq)).bind fun _ => keeps_pure trivial
theorem keeps_copyGate {c : Copy} {pa ty : Nat} : Keeps (copyGate c pa ty) := by
  unfold copyGate
  refine keeps_get.bind fun _ hu => ?_
  split
  · exact keeps_throw
  · exact keeps_throw
  · exact (keeps_set (memOk_suspendAs hu)).bind fun _ => keeps_throw
  · exact keeps_set (memOk_unsuspend hu)
theorem keeps_copySys {cap : Cap} {pa : Nat} : Keeps (copySys cap pa) := by
  unfold copySys
  refine keeps_get.bind fun _ _ => ?_
  split
  · exact KeepsP.ite keeps_throw (keeps_pure trivial)
  · exact KeepsP.ite keeps_throw (keeps_pure trivial)
  · exact keeps_pure trivial
theorem keeps_copyRead {c : Copy} {va n : Nat} : Keeps (copyRead c va n) := by
  unfold copyRead
  refine keeps_copyWalk.bind fun _ => ?_
  refine keeps_copySys.bind fun _ => ?_
  refine keeps_get.bind fun _ hu => ?_
  split
  · dsimp only
    split
    · exact keeps_pure trivial
    · exact KeepsP.ite keeps_throw keeps_throw
    · exact KeepsP.ite keeps_throw_bind (KeepsP.checked (keeps_set (memOk_sendSeq (memOk_modCopy hu))) (fun _ => keeps_throw))
  · exact keeps_copyGate.bind fun _ => keeps_get.bind fun _ hu1 => KeepsP.ite keeps_throw_bind ((keeps_set (memOk_correct hu1)).bind fun _
      => keeps_pure trivial)
theorem memOk_copyWrm {c : Copy} {d off n x : Nat} {s : State} (hs : s.memOk) : (copyWrm c d off n x s).memOk :=
  memOk_sendSeq (memOk_notePush hs)
theorem memOk_copyStore {c : Copy} {attr : W64} {pa n x : Nat} {s : State} (hs : s.memOk) : (copyStore c attr pa n x s).memOk :=
  memOk_foldl (fun _ _ hu => memOk_modCopy (memOk_homeWrite hu)) hs
theorem keeps_copyReg {c : Copy} {core off n x : Nat} {last : Bool} : Keeps (copyReg c core off n x last) :=
  keeps_get.bind fun _ hu => KeepsP.ite (keeps_set (memOk_postNet (memOk_modCopy hu))) (keeps_set (memOk_modCopy hu))
theorem keeps_copyWrite {c : Copy} {off : Int} {n x : Nat} {last : Bool} {k : Nat} : Keeps (copyWrite c off n x last k) := by
  unfold copyWrite
  refine KeepsP.ite (keeps_modify (fun _ hu => memOk_modStrip hu)) ?_
  refine keeps_copyWalk.bind fun _ => ?_
  refine keeps_get.bind fun _ hu1 => ?_
  refine (keeps_set (memOk_freeOverlap hu1)).bind fun _ => ?_
  split
  · exact KeepsP.ite (keeps_set (memOk_copyWrm (memOk_freeOverlap hu1))) keeps_throw
  · exact keeps_copyReg
  · exact keeps_copySys.bind fun _ => keeps_copyGate.bind fun _ => keeps_modify (fun _ hu2 => memOk_copyStore hu2)
theorem keeps_copyRefused {c : Copy} {k : Nat} : Keeps (copyRefused c k) :=
  KeepsP.ite (keeps_get.bind fun _ _ => keeps_pure trivial) (keeps_copyWalk.bind fun _ => keeps_get.bind fun _ _ =>
    (by split <;> exact keeps_pure trivial))
theorem keeps_copyDests {c : Copy} : Keeps (copyDests c) :=
  KeepsP.ite (keeps_pure trivial) (KeepsP.ite (keeps_pure trivial) (keeps_copyWalk.bind fun _ => keeps_get.bind fun _ _ =>
    (by split <;> exact keeps_pure trivial)))
theorem keeps_copyBegin {id : Nat} : Keeps (copyBegin id) := by
  refine keeps_get.bind fun _ _ => ?_
  split
  · exact keeps_pure trivial
  · refine .ite keeps_throw_bind (.ite (keeps_pure trivial) (keeps_copyDests.bind fun _ => ?_))
    refine Keeps.bind (keeps_foldlM (fun _ _ => ?_) _ _) fun _ => keeps_modify fun _ hu => memOk_modCopy hu
    refine .ite (keeps_copyRefused.bind fun _ => ?_) (keeps_pure trivial)
    exact .ite (keeps_pure trivial) (keeps_pure trivial)
theorem keeps_copyPart {c : Copy} : Keeps (copyPart c) :=
  keeps_copyRead.bind fun _ => keeps_copyDests.bind fun _ => (keeps_forM (fun _ => keeps_copyWrite) _).bind fun _ => keeps_modify (fun _
    hu => memOk_modCopy hu)
theorem keeps_copyMove {id n : Nat} : Keeps (copyMove id n) := by
  induction n with
  | zero => exact keeps_pure trivial
  | succ n ih =>
    unfold copyMove
    refine keeps_get.bind fun _ _ => ?_
    split
    · exact keeps_pure trivial
    · exact KeepsP.ite (keeps_copyPart.bind fun _ => ih) (keeps_modify (fun _ hu1 => memOk_modCopy hu1))
theorem keeps_copySignal {c : Copy} : Keeps (copySignal c) := by
  unfold copySignal
  refine keeps_get.bind fun _ hu => ?_
  refine KeepsP.ite ?_ ?_
  · exact KeepsP.ite (keeps_set (memOk_modCopy (memOk_sendSeq hu))) (keeps_set (memOk_modCopy (memOk_postedFail hu)))
  · split
    · exact keeps_set (memOk_modCopy (memOk_postedFail hu))
    · split
      · exact keeps_set (memOk_modCopy (memOk_postedFail hu))
      · exact (keeps_set (memOk_suspendAs hu)).bind fun _ => keeps_throw
      · exact keeps_set (memOk_modCopy (memOk_homeWrite (memOk_unsuspend hu)))
theorem keeps_copyRecord {c : Copy} {status fcode : Nat} : Keeps (copyRecord c status fcode) := by
  unfold copyRecord
  refine keeps_copyWalk.bind fun _ => ?_
  refine keeps_get.bind fun _ hu => ?_
  dsimp only
  split
  · exact keeps_set (memOk_ite (memOk_copyWrm hu) (memOk_postedFail hu))
  · split
    · exact keeps_set (memOk_postedFail hu)
    · exact (keeps_set (memOk_suspendAs hu)).bind fun _ => keeps_throw
    · exact keeps_set (memOk_copyStore (memOk_unsuspend hu))
theorem memOk_copyGone {c : Copy} {s : State} (hs : s.memOk) : (copyGone c s).memOk :=
  memOk_wakeReleases (memOk_ite (memOk_foldl (fun _ _ hu => memOk_grant hu) (memOk_modMs (memOk_modCp hs))) (memOk_l1Acquire (memOk_foldl
    (fun _ _ hu1 => memOk_grant hu1) (memOk_modMs (memOk_modCp hs)))))
theorem memOk_copyPublish {c : Copy} {s : State} (hs : s.memOk) : (copyPublish c s).memOk :=
  memOk_ite hs (memOk_modCopy (memOk_postPushrels (memOk_ite hs (memOk_modCopy (memOk_sendPushrels hs)))))
theorem keeps_copySettle {id : Nat} : Keeps (copySettle id) := by
  unfold copySettle
  refine keeps_get.bind fun _ _ => ?_
  split
  · exact keeps_pure trivial
  · exact (keeps_modify (fun _ hu1 => memOk_copyPublish hu1)).bind fun _ => keeps_get.bind fun _ _ => KeepsP.ite keeps_throw (keeps_pure
      trivial)
theorem memOk_freeLocks {id : Nat} {s : State} (hs : s.memOk) : (freeLocks id s).memOk := memOk_modCopy (memOk_modCp hs)
theorem keeps_copyBefore {c : Copy} {st : Nat} : Keeps (copyBefore c st) :=
  KeepsP.ite (keeps_copySettle.bind fun _ => KeepsP.checked keeps_copySignal (fun _ => keeps_get.bind fun _ _ => KeepsP.ite
    keeps_throw_bind (keeps_modify (fun _ hu1 => memOk_freeLocks hu1)))) (keeps_modify (fun _ hu2 => memOk_freeLocks hu2))
theorem keeps_copyEnd {id : Nat} : Keeps (copyEnd id) := by
  unfold copyEnd
  refine keeps_get.bind fun _ _ => ?_
  split
  · exact keeps_pure trivial
  · split
    · exact keeps_pure trivial
    · exact KeepsP.ite (keeps_copyBefore.bind fun _ => keeps_get.bind fun _ _ => keeps_copyRecord.bind fun _ => (keeps_modify (fun _ hu2
        => memOk_modCopy hu2)).bind fun _ => KeepsP.checked keeps_copySettle (fun _ => keeps_modify (fun _ hu3 => memOk_copyGone hu3)))
        (KeepsP.checked keeps_copySettle (fun _ => keeps_modify (fun _ hu4 => memOk_copyGone hu4)))
theorem memOk_copyFault {c : Copy} {va cause level : Nat} {kind : BitVec 8} {s : State} (hs : s.memOk) :
    (copyFault c va cause level kind s).memOk :=
  memOk_openFault (memOk_modCopy hs)
theorem memOk_copyClose {c : Copy} {s : State} (hs : s.memOk) : (copyClose c s).memOk := by
  unfold copyClose
  split
  · rename_i heq
    exact KeepsP.ok_memOk keeps_copyEnd hs heq
  · rename_i heq
    exact memOk_copyFault (KeepsP.error keeps_copyEnd hs heq)
  · rename_i heq
    exact memOk_modCopy (KeepsP.error keeps_copyEnd hs heq)
  · rename_i heq
    exact KeepsP.error keeps_copyEnd hs heq
theorem memOk_copyRun {c : Copy} {s : State} (hs : s.memOk) : (copyRun c s).memOk := by
  unfold copyRun
  refine memOk_ite hs ?_
  refine memOk_ite (memOk_copyClose hs) ?_
  split
  · rename_i heq
    exact memOk_copyClose (KeepsP.ok_memOk (keeps_copyBegin.bind fun _ => keeps_copyMove) hs heq)
  · rename_i heq
    exact memOk_copyClose (memOk_modCopy (KeepsP.error (keeps_copyBegin.bind fun _ => keeps_copyMove) hs heq))
  · rename_i heq
    exact memOk_copyFault (KeepsP.error (keeps_copyBegin.bind fun _ => keeps_copyMove) hs heq)
  · rename_i heq
    exact KeepsP.error (keeps_copyBegin.bind fun _ => keeps_copyMove) hs heq
theorem memOk_lateLocks {c : Copy} {s : State} (hs : s.memOk) : (lateLocks c s).memOk := memOk_ite hs (memOk_modCopy (memOk_modCp hs))
theorem okStep_execCopyComplete {idx : Nat} {s : State} (hs : s.memOk) : OkStep (execCopyComplete idx s) := by
  unfold execCopyComplete
  split
  · exact memOk_ite (memOk_copyRun (memOk_lateLocks hs)) hs
  · exact hs
theorem memOk_leaveFaults {p : Parked → Bool} {s : State} (hs : s.memOk) : (leaveFaults p s).memOk := memOk_faultPending (memOk_modTr hs)
theorem memOk_copyCancel {c : Copy} {s : State} (hs : s.memOk) : (copyCancel c s).memOk :=
  memOk_ite (memOk_copyGone (memOk_modCopy (memOk_leaveFaults hs))) (memOk_copyClose (memOk_modCopy (memOk_leaveFaults hs)))
theorem memOk_cancelCopies {handle : Nat} {s : State} (hs : s.memOk) : (cancelCopies handle s).memOk :=
  memOk_foldl (fun _ _ hu => memOk_copyCancel hu) hs
theorem okStep_execPromiseMissed {cid : Nat} {s : State} (hs : s.memOk) : OkStep (execPromiseMissed cid s) := by
  unfold execPromiseMissed
  dsimp only
  split
  · exact memOk_ite (memOk_modCtx hs) hs
  · exact memOk_ite (memOk_modCtx hs) hs
  · exact hs
theorem okStep_execWaittExpiry {cid : Nat} {s : State} (hs : s.memOk) : OkStep (execWaittExpiry cid s) := by
  unfold execWaittExpiry
  dsimp only
  split
  · exact memOk_ite (memOk_modCtx hs) hs
  · exact hs

/-! ### Blocks and the run -/

theorem keeps_servedBlock {c : Cap} : Keeps (servedBlock c) := keeps_get.bind fun _ _ => KeepsP.ite (keeps_pure trivial) keeps_illegal

/-! ### The directory and transaction records (R233, R237, R238, R475) -/

theorem memOk_dirTouch {p : Nat} {k : Option Nat} {s : State} (hs : s.memOk) : (dirTouch p k s).memOk := by
  unfold dirTouch
  split
  · exact memOk_modPrism hs
  · exact hs
theorem memOk_freeUp {p : Nat} {s : State} (hs : s.memOk) : (freeUp p s).memOk := memOk_modPrism hs
theorem memOk_dirPut {p k : Nat} {e : Option W64} {s : State} (hs : s.memOk) : (dirPut p k e s).memOk := memOk_modPrism hs
theorem memOk_dirFree {p k : Nat} {s : State} (hs : s.memOk) : (dirFree p k s).memOk := memOk_ite (memOk_freeUp (memOk_dirPut hs)) hs
theorem memOk_txnClose {p blk : Nat} {s : State} (hs : s.memOk) : (txnClose p blk s).memOk := by
  unfold txnClose
  split
  · exact hs
  · exact memOk_freeUp (memOk_foldl (fun _ _ hu => memOk_performedBy hu) (memOk_modPrism hs))

/-! ### TAGSET (R474) -/

theorem memOk_poisonBlock {blk : Nat} {s : State} (hs : s.memOk) : (poisonBlock blk s).memOk := memOk_modMs hs
theorem memOk_tagFill {blk : Nat} {r : ThrRun} {s : State} (hs : s.memOk) : (tagFill blk r s).memOk :=
  memOk_ite (memOk_ite (memOk_poisonBlock (memOk_memWrite hs)) (memOk_memWrite hs)) (memOk_ite (memOk_poisonBlock (memOk_modMs
    (memOk_clearTags (memOk_poke hs)))) (memOk_modMs (memOk_clearTags (memOk_poke hs))))
theorem memOk_tagTake {blk t : Nat} {s : State} (hs : s.memOk) : (tagTake blk t s).memOk :=
  memOk_ite (memOk_modMs (memOk_ite (memOk_modRun (memOk_correct hs)) hs)) (memOk_ite (memOk_modRun (memOk_correct hs)) hs)
theorem keeps_tagsetDo {h : Head} {blk : Nat} : Keeps (tagsetDo h blk) := by
  unfold tagsetDo
  exact keeps_get.bind fun _ _ => KeepsP.checked (keeps_upd (fun _ hu1 => memOk_tagFill hu1)) (fun _ => KeepsP.ite (KeepsP.checked
    (keeps_upd (fun _ hu2 => memOk_takeOwner hu2)) (fun _ => (keeps_upd (fun _ hu3 => memOk_tagTake hu3)).bind fun _ => keeps_upd (fun _
    hu4 => memOk_modRun (memOk_setAtag hu4)))) (keeps_upd (fun _ hu5 => memOk_modRun (memOk_setAtag hu5))))
theorem okStep_execTagset {h : Head} {s : State} (hs : s.memOk) : OkStep (execTagset h s) := by
  unfold execTagset
  exact okStep_runHead (keeps_get.bind fun _ _ => keeps_servedBlock.bind fun _ => KeepsP.checked keeps_tagsetDo (fun _ => keeps_get.bind
    fun _ _ => KeepsP.ite keeps_throw_bind (keeps_setInt.bind fun _ => (keeps_upd (fun _ hu2 => memOk_modRun hu2)).bind fun _ =>
    keeps_pure trivial))) hs

/-! ### DIRRD and DIRWR (R475) -/

theorem okStep_execDirrd {h : Head} {s : State} (hs : s.memOk) : OkStep (execDirrd h s) :=
  okStep_runHead (keeps_get.bind fun _ _ => keeps_servedBlock.bind fun _ => KeepsP.ite (keeps_setInt.bind fun _ => keeps_pure trivial)
    (keeps_setInt.bind fun _ => (keeps_upd (fun _ hu1 => memOk_dirTouch hu1)).bind fun _ => keeps_pure trivial)) hs
theorem memOk_dirWrite {p blk : Nat} {v : W64} {s : State} (hs : s.memOk) : (dirWrite p blk v s).2.memOk :=
  memOk_snd_ite (memOk_dirFree hs) (memOk_snd_ite (memOk_dirPut hs) hs)
theorem memOk_txnWrite {p blk : Nat} {v : W64} {s : State} (hs : s.memOk) : (txnWrite p blk v s).2.memOk :=
  memOk_snd_ite (memOk_txnClose hs) (memOk_snd_ite hs (memOk_ite (memOk_setAtag (memOk_modPrism hs)) (memOk_modPrism hs)))
theorem okStep_execDirwr {h : Head} {s : State} (hs : s.memOk) : OkStep (execDirwr h s) :=
  okStep_runHead (keeps_get.bind fun _ hu => keeps_servedBlock.bind fun _ => (keeps_set (memOk_snd_ite (memOk_txnWrite hu) (memOk_dirWrite
    hu))).bind fun _ => keeps_setInt.bind fun _ => keeps_pure trivial) hs

/-! ### REPLY (R476) -/

theorem memOk_answerPkt {from_ : Option (Nat × Nat)} {kind : Nat} {w : W64} {data : BitVec 512} {pz : Bool} {s : State} (hs : s.memOk) :
    (answerPkt from_ kind w data pz s).memOk := by
  unfold answerPkt
  split
  · exact hs
  · refine memOk_ite hs ?_
    dsimp only
    split
    · exact memOk_refusePkt hs
    · exact memOk_sendRaw hs
    · exact memOk_markPerformed (memOk_sendRaw hs)
theorem memOk_slotUsed {own : Bool} {who : W64} {s : State} (hs : s.memOk) : (slotUsed own who s).memOk :=
  memOk_ite (memOk_modRun (memOk_modPrism hs)) (memOk_modPrism (memOk_modPrism hs))
theorem okStep_execReply {h : Head} {s : State} (hs : s.memOk) : OkStep (execReply h s) := by
  unfold execReply
  refine okStep_runHead ?_ hs
  refine keeps_get.bind fun _ _ => ?_
  dsimp only
  split
  · exact keeps_illegal
  · exact (keeps_upd (fun _ hu1 => memOk_slotUsed (memOk_answerPkt hu1))).bind fun _ => keeps_pure trivial

/-! ### FWD (R234, R240, R477, R489) -/

theorem memOk_fwdRefused {p blk ddev seq status : Nat} {gets : Bool} {s : State} (hs : s.memOk) :
    (fwdRefused p blk ddev seq status gets s).memOk :=
  memOk_modPrism (memOk_ite (memOk_refuseSusp hs) hs)
theorem memOk_sendFwd {p mark : Nat} {k : Packet} {s : State} (hs : s.memOk) : (sendFwd p mark k s).memOk := memOk_sendSeq hs
theorem memOk_spillFwd {p mark : Nat} {k : Packet} {s : State} (hs : s.memOk) : (spillFwd p mark k s).memOk := by
  unfold spillFwd
  generalize 128 = n
  dsimp only
  exact memOk_ite (memOk_poke (memOk_freshBytes (memOk_modPrism hs))) (memOk_freshBytes (memOk_modPrism hs))
theorem keeps_fwdBody {h : Head} : Keeps (fwdBody h) := by
  unfold fwdBody
  refine keeps_get.bind fun _ _ => ?_
  refine KeepsP.ite ?_ ?_
  · exact (keeps_upd (fun _ hu1 => memOk_stopHandler hu1)).bind fun _ => keeps_pure trivial
  · exact keeps_servedBlock.bind fun _ => KeepsP.ite keeps_illegal_bind (KeepsP.ite keeps_throw_bind (KeepsP.ite ((keeps_upd (fun _ hu2 =>
      memOk_fwdRefused hu2)).bind fun _ => keeps_pure trivial) (KeepsP.ite ((keeps_upd (fun _ hu3 => memOk_sendFwd hu3)).bind fun _ =>
      keeps_pure trivial) (KeepsP.ite keeps_throw_bind ((keeps_upd (fun _ hu4 => memOk_spillFwd hu4)).bind fun _ => keeps_pure
      trivial)))))
theorem okStep_execFwd {h : Head} {s : State} (hs : s.memOk) : OkStep (execFwd h s) := okStep_runHead keeps_fwdBody hs

/-! ### BTX and HDONE (R478, R479) -/

theorem okStep_execBtx {h : Head} {s : State} (hs : s.memOk) : OkStep (execBtx h s) :=
  okStep_runHead (keeps_get.bind fun _ _ => (keeps_upd (fun _ hu1 => memOk_bbWrite hu1)).bind fun _ => KeepsP.checked (keeps_upd (fun _
    hu2 => memOk_supRecord hu2)) (fun _ => keeps_pure trivial)) hs
theorem memOk_retryRun {c : Nat} {s : State} (hs : s.memOk) : (retryRun c s).memOk := by
  unfold retryRun
  split
  · exact hs
  · exact memOk_setCtx (memOk_modPrism hs)
theorem okStep_execHdone {h : Head} {s : State} (hs : s.memOk) : OkStep (execHdone h s) :=
  okStep_runHead (keeps_get.bind fun _ _ => KeepsP.join (keeps_upd (fun _ hu1 => memOk_retryRun hu1)) (keeps_upd (fun _ hu2 =>
    memOk_endRun hu2)) (fun _ => keeps_pure trivial)) hs

end Sys2Proof.Machine
end

section
set_option Elab.async false
/-! Steps keep both memories canonical: what a Prism serves and the packets of the fabric. -/
namespace Sys2Proof.Machine

/-! ### Inboxes -/

theorem memOk_dropMsg {p : Nat} {rep : Bool} {idx : Nat} {s : State} (hs : s.memOk) : (dropMsg p rep idx s).memOk := memOk_modPrism hs

/-! ### Starting a handler (R231, R232, R484) -/

theorem memOk_startRun {p t : Nat} {m : PMsg} {entry : Nat} {s : State} (hs : s.memOk) : (startRun p t m entry s).memOk :=
  memOk_setCtx (memOk_modPrism (memOk_dirTouch hs))
theorem memOk_noHandler {p : Nat} {m : PMsg} {s : State} (hs : s.memOk) : (noHandler p m s).memOk := by
  unfold noHandler
  refine memOk_ite (memOk_supRecord hs) ?_
  refine memOk_supRecord ?_
  split
  · exact memOk_refusePkt (memOk_ite (memOk_refuseOldest hs) hs)
  · exact memOk_ite (memOk_refuseOldest hs) hs

/-! ### Directory entries in hardware (R237 to R239, R241) -/

theorem memOk_fastGrant {p : Nat} {m : PMsg} {k : Nat} {e : W64} {kind : Nat} {s : State} (hs : s.memOk) :
    (fastGrant p m k e kind s).memOk :=
  memOk_answerPkt (memOk_setAtag (memOk_dirPut hs))
theorem memOk_fastPutm {p : Nat} {m : PMsg} {line : Bool} {e : W64} {s : State} (hs : s.memOk) : (fastPutm p m line e s).memOk := by
  unfold fastPutm
  exact memOk_performedBy (memOk_ite (memOk_ite (memOk_poisonBlock (memOk_memWrite hs)) (memOk_memWrite hs)) (memOk_setAtag (memOk_ite
    (memOk_dirFree (memOk_ite (memOk_poisonBlock (memOk_memWrite hs)) (memOk_memWrite hs))) (memOk_dirPut (memOk_ite (memOk_poisonBlock
    (memOk_memWrite hs)) (memOk_memWrite hs))))))
theorem okOpt_fastPath {p : Nat} {m : PMsg} {s : State} (hs : s.memOk) : OkOpt (fastPath p m s) :=
  OkOpt.ite trivial (OkOpt.ite (OkOpt.ite (memOk_fastGrant hs) trivial) (OkOpt.ite (OkOpt.ite (memOk_fastGrant hs) trivial) (OkOpt.ite
    (memOk_fastPutm hs) trivial)))
theorem memOk_lostDo {p : Nat} {m : PMsg} {s : State} (hs : s.memOk) : (lostDo p m s).memOk :=
  memOk_ite hs (memOk_setAtag (memOk_dirPut (memOk_poisonBlock (memOk_bbWrite hs))))
theorem okOpt_hardware {p : Nat} {m : PMsg} {s : State} (hs : s.memOk) : OkOpt (hardware p m s) :=
  OkOpt.ite (memOk_performedBy hs) (OkOpt.ite (memOk_postReq hs) (okOpt_fastPath hs))
theorem memOk_dispatchAt {p : Nat} {rep : Bool} {idx : Nat} {thread : Option Nat} {s : State} (hs : s.memOk) :
    (dispatchAt p rep idx thread s).memOk := by
  unfold dispatchAt
  split
  · exact hs
  · refine memOk_ite hs ?_
    split
    · rename_i heq
      exact OkOpt.get (okOpt_hardware (memOk_dropMsg hs)) heq
    · refine memOk_ite ?_ ?_
      · exact memOk_noHandler (memOk_ite (memOk_lostDo (memOk_dropMsg hs)) (memOk_dropMsg hs))
      · split
        · exact memOk_startRun (memOk_ite (memOk_lostDo (memOk_dropMsg hs)) (memOk_dropMsg hs))
        · exact hs
theorem memOk_roomAt {p : Nat} {s : State} (hs : s.memOk) : (roomAt p s).memOk := memOk_wakeReleases (memOk_announce hs)
theorem memOk_dispatchTy {p : Nat} {rep : Bool} {idx ty : Nat} {s : State} (hs : s.memOk) : (dispatchTy p rep idx ty s).memOk :=
  memOk_ite (memOk_roomAt (memOk_dispatchAt hs)) hs
theorem okStep_execPrismDispatch {prism thread : Nat} {s : State} (hs : s.memOk) : OkStep (execPrismDispatch prism thread s) := by
  unfold execPrismDispatch
  dsimp only
  split
  · exact memOk_ite hs (memOk_roomAt (memOk_dispatchAt hs))
  · exact hs
theorem okStep_execGets {prism idx : Nat} {s : State} (hs : s.memOk) : OkStep (execGets prism idx s) := memOk_dispatchTy hs
theorem okStep_execGetm {prism idx : Nat} {s : State} (hs : s.memOk) : OkStep (execGetm prism idx s) := memOk_dispatchTy hs
theorem okStep_execPuts {prism idx : Nat} {s : State} (hs : s.memOk) : OkStep (execPuts prism idx s) := memOk_dispatchTy hs
theorem okStep_execPutm {prism idx : Nat} {s : State} (hs : s.memOk) : OkStep (execPutm prism idx s) := memOk_dispatchTy hs
theorem okStep_execProbeAnswer {prism idx : Nat} {s : State} (hs : s.memOk) : OkStep (execProbeAnswer prism idx s) := memOk_dispatchTy hs
theorem okStep_execPdata {prism idx : Nat} {s : State} (hs : s.memOk) : OkStep (execPdata prism idx s) := memOk_dispatchTy hs
theorem okStep_execLread {prism idx : Nat} {s : State} (hs : s.memOk) : OkStep (execLread prism idx s) := memOk_dispatchTy hs
theorem okStep_execLwrite {prism idx : Nat} {s : State} (hs : s.memOk) : OkStep (execLwrite prism idx s) := memOk_dispatchTy hs
theorem okStep_execLatom {prism idx : Nat} {s : State} (hs : s.memOk) : OkStep (execLatom prism idx s) := memOk_dispatchTy hs
theorem okStep_execGrant {prism idx : Nat} {s : State} (hs : s.memOk) : OkStep (execGrant prism idx s) := memOk_dispatchTy hs
theorem okStep_execUpdate {prism idx : Nat} {s : State} (hs : s.memOk) : OkStep (execUpdate prism idx s) := memOk_dispatchTy hs
theorem okStep_execProxyProbe {prism idx : Nat} {s : State} (hs : s.memOk) : OkStep (execProxyProbe prism idx s) := memOk_dispatchTy hs
theorem okStep_execLost {prism idx : Nat} {s : State} (hs : s.memOk) : OkStep (execLost prism idx s) := memOk_dispatchTy hs
theorem okStep_execPushrel {prism idx : Nat} {s : State} (hs : s.memOk) : OkStep (execPushrel prism idx s) := memOk_dispatchTy hs
theorem okStep_execFwdNak {prism idx : Nat} {s : State} (hs : s.memOk) : OkStep (execFwdNak prism idx s) := memOk_dispatchTy hs
theorem okStep_execRetryRedispatch {prism idx : Nat} {s : State} (hs : s.memOk) : OkStep (execRetryRedispatch prism idx s) :=
  memOk_ite (memOk_roomAt (memOk_dispatchAt hs)) hs
theorem okStep_execHandlerWatchdog {prism thread : Nat} {s : State} (hs : s.memOk) : OkStep (execHandlerWatchdog prism thread s) := by
  unfold execHandlerWatchdog
  dsimp only
  split
  · exact memOk_ite (memOk_stopHandler hs) hs
  · exact hs
theorem okStep_execPrismSpillDrain {prism : Nat} {s : State} (hs : s.memOk) : OkStep (execPrismSpillDrain prism s) := by
  unfold execPrismSpillDrain
  split
  · exact memOk_ite (memOk_sendFwd (memOk_modPrism hs)) hs
  · exact hs
theorem okStep_execPartialEntryTimeout {prism idx : Nat} {s : State} (hs : s.memOk) : OkStep (execPartialEntryTimeout prism idx s) := by
  unfold execPartialEntryTimeout
  split
  · split
    · exact memOk_ite (memOk_sendRedc (memOk_modPrism hs)) hs
    · exact hs
  · exact hs

/-! ### Closing reductions (R245) -/

theorem memOk_closeParts {inside : Nat → Bool} {s : State} (hs : s.memOk) : (closeParts inside s).memOk :=
  memOk_foldl (fun _ _ hu => memOk_addToMem hu) (memOk_foldl (fun _ _ hu1 => memOk_modPrism hu1) hs)
theorem memOk_closeBid {bid : Nat} {s : State} (hs : s.memOk) : (closeBid bid s).memOk :=
  memOk_ite hs (memOk_foldl (fun _ _ hu => memOk_setAtag hu) (memOk_closeParts hs))

/-! ### The supervisor's commands (R229, R235, R250) -/

theorem memOk_prDone {status : Nat} {s : State} (hs : s.memOk) : (prDone status s).memOk := memOk_modRegs hs
theorem memOk_regionHeld {i : Nat} {e : BitVec 128} {s : State} (hs : s.memOk) : (regionHeld i e s).memOk :=
  memOk_foldl (fun _ _ hu => memOk_modPrism hu) hs
theorem okStep_execRtsync {s : State} (hs : s.memOk) : OkStep (execRtsync s) :=
  memOk_ite hs (memOk_prDone (memOk_foldl (fun _ _ hu => memOk_supRecord hu) (memOk_foldl (fun _ _ hu1 => memOk_modPrism hu1) hs)))
theorem memOk_regionTags {e : BitVec 128} {t : Nat} {s : State} (hs : s.memOk) : (regionTags e t s).memOk :=
  memOk_letThrough (memOk_foldl (fun _ _ hu => memOk_modMs hu) (memOk_modMs hs))
theorem memOk_rebindEnd {i : Nat} {e : BitVec 128} {s : State} (hs : s.memOk) : (rebindEnd i e s).memOk :=
  memOk_prDone (memOk_regionTags (memOk_regionHeld (memOk_memWrite (memOk_ite (memOk_foldl (fun _ _ hu => memOk_modPrism hu) hs) hs))))
theorem memOk_giveUp {e : BitVec 128} {s : State} (hs : s.memOk) : (giveUp e s).memOk :=
  memOk_foldl (fun _ _ hu => memOk_foldl (fun _ _ hu1 => memOk_sendRedc hu1) (memOk_modPrism hu)) (memOk_foldl (fun _ _ hu2 => memOk_modMs
    (memOk_ite (memOk_slicePutm (memOk_takeOwner hu2)) (memOk_sendPuts (memOk_takeOwner hu2)))) hs)
theorem okStep_execRebind {s : State} (hs : s.memOk) : OkStep (execRebind s) := by
  unfold execRebind
  exact memOk_ite hs (memOk_ite (memOk_ite (memOk_prDone hs) (memOk_ite (memOk_closeParts (memOk_regionTags (memOk_modRegs
    (memOk_regionHeld hs)))) (memOk_giveUp (memOk_regionTags (memOk_modRegs (memOk_regionHeld hs)))))) (memOk_ite (memOk_ite
    (memOk_rebindEnd (memOk_giveUp hs)) (memOk_giveUp hs)) (memOk_ite (memOk_rebindEnd hs) (memOk_foldl (fun _ _ hu => memOk_ite hu
    (memOk_postReq hu)) hs))))
theorem memOk_refuseMsgs {p blk : Nat} {s : State} (hs : s.memOk) : (refuseMsgs p blk s).memOk :=
  memOk_foldl (fun _ _ hu => (by split; exacts [memOk_refusePkt hu, hu])) (memOk_modPrism hs)
theorem okStep_execUnbusy {s : State} (hs : s.memOk) : OkStep (execUnbusy s) := by
  unfold execUnbusy
  refine memOk_ite hs (memOk_ite (memOk_prDone hs) (memOk_ite (memOk_prDone hs) ?_))
  extract_lets closed cleared kept refused
  have hclosed : closed.memOk := memOk_txnClose hs
  have hcleared : cleared.memOk := memOk_memWrite hclosed
  have hkept : kept.memOk := by
    refine memOk_ite ?_ hclosed
    split
    · exact memOk_dirPut hcleared
    · exact hcleared
  exact memOk_prDone (memOk_announce (memOk_setAtag (memOk_ite (memOk_refuseMsgs (memOk_refuseSusp hkept)) hkept)))
theorem okStep_execSetwd {s : State} (hs : s.memOk) : OkStep (execSetwd s) :=
  memOk_ite hs (memOk_ite (memOk_prDone hs) (memOk_prDone (memOk_ite (memOk_foldl (fun _ _ hu => memOk_modPrism hu) hs) (memOk_modPrism
    hs))))
theorem memOk_pageLock {page : Nat} {on : Bool} {s : State} (hs : s.memOk) : (pageLock page on s).memOk :=
  memOk_foldl (fun _ _ hu => memOk_foldl (fun _ _ hu1 => memOk_ite (memOk_dirFree hu1) (memOk_dirPut hu1)) (memOk_ite (memOk_dirPut hu)
    hu)) hs
theorem memOk_pageCopy {old new : Nat} {s : State} (hs : s.memOk) : (pageCopy old new s).memOk :=
  memOk_foldl (fun _ _ hu => memOk_modMs hu) (memOk_foldl (fun _ _ hu1 => memOk_modMs hu1) (memOk_foldl (fun _ _ hu2 => memOk_setTag hu2)
    (memOk_poke hs)))
theorem okStep_execMigrate {s : State} (hs : s.memOk) : OkStep (execMigrate s) :=
  memOk_ite hs (memOk_ite (memOk_prDone hs) (memOk_ite (memOk_prDone hs) (memOk_prDone (memOk_pageCopy (memOk_foldl (fun _ _ hu =>
    memOk_ite hu (memOk_setAtag hu)) (memOk_pageLock hs))))))
theorem memOk_retryStores {page : Nat} {s : State} (hs : s.memOk) : (retryStores page s).memOk :=
  memOk_foldl (fun _ _ hu => memOk_postedFail hu) (memOk_mk hs)
theorem memOk_retryPackets {page : Nat} {s : State} (hs : s.memOk) : (retryPackets page s).memOk :=
  memOk_foldl (fun _ _ hu => memOk_refusePkt (memOk_setFilt hu)) hs
theorem okStep_execMigdone {s : State} (hs : s.memOk) : OkStep (execMigdone s) :=
  memOk_ite hs (memOk_ite (memOk_prDone hs) (memOk_ite (memOk_prDone hs) (memOk_prDone (memOk_pageLock (memOk_foldl (fun _ _ hu =>
    memOk_modPrism hu) (memOk_modMs (memOk_wakeTags (memOk_retryPackets (memOk_retryStores hs)))))))))

/-! ### Ports -/

theorem memOk_portRecord {port event : Nat} {data : List W64} {s : State} (hs : s.memOk) : (portRecord port event data s).memOk :=
  memOk_bbWrite hs
theorem memOk_malformedRecord {port : Nat} {p : Packet} {s : State} (hs : s.memOk) : (malformedRecord port p s).memOk :=
  memOk_portRecord (memOk_modPrism hs)
theorem memOk_comesIn {tys : List Nat} {port : Nat} {p : Packet} {go : Hdr → State → State} {s : State} (hf3 : ∀ x0 x1, x1.memOk → (go x0
    x1).memOk) (hs : s.memOk) :
    (comesIn tys port p go s).memOk :=
  memOk_ite hs (memOk_ite (memOk_malformedRecord hs) (memOk_ite hs (memOk_ite (hf3 _ _ (memOk_modPort hs)) (memOk_modPort hs))))

/-! ### Accesses of packets at their homes -/

theorem okDel_pktAccess {w seq off ty : Nat} {bad : State → State} {go : Nat → State → Del} {s : State} (hf4 : OkFn bad) (hf5 : ∀ x0 x1,
    x1.memOk → OkDel (go x0 x1)) (hs : s.memOk) :
    OkDel (pktAccess w seq off ty bad go s) := by
  unfold pktAccess
  split
  · exact memOk_refusePkt hs
  · refine OkDel.ite (memOk_refusePkt hs) ?_
    dsimp only
    split
    · exact hf4 _ (memOk_unsuspend hs)
    · exact memOk_refusePkt (memOk_unsuspend hs)
    · exact memOk_suspendAs (memOk_snd_ite hs (memOk_freshWord hs))
    · exact hf5 _ _ (memOk_unsuspend hs)
theorem memOk_lostWrite {w seq off : Nat} {s : State} (hs : s.memOk) : (lostWrite w seq off s).memOk :=
  memOk_markPerformed (memOk_supRecord hs)
theorem memOk_writeDone {w seq pa : Nat} {s : State} (hs : s.memOk) : (writeDone w seq pa s).memOk :=
  memOk_ite (memOk_performedBy hs) (memOk_markPerformed hs)
theorem okDel_toPrism {p : Nat} {m : PMsg} {s : State} (hs : s.memOk) : OkDel (toPrism p m s) := OkDel.ite hs (memOk_postReq hs)
theorem memOk_pktReq {dev : Nat} {s : State} (hs : s.memOk) : (pktReq dev s).2.memOk := memOk_freshWord hs
theorem okDel_homeMsg {w seq ty : Nat} {h : Hdr} {data : Option (BitVec 512)} {s : State} (hs : s.memOk) :
    OkDel (homeMsg w seq ty h data s) := by
  unfold homeMsg
  split
  · exact memOk_refusePkt hs
  · dsimp only
    exact OkDel.ite (memOk_refusePkt hs) (okDel_toPrism (memOk_pktReq hs))
theorem okDel_proxyMsg {w seq ty sq : Nat} {h : Hdr} {data : Option (BitVec 512)} {s : State} (hs : s.memOk) :
    OkDel (proxyMsg w seq ty sq h data s) := by
  unfold proxyMsg
  dsimp only
  exact okDel_toPrism (memOk_pktReq hs)

/-! ### What each request does (R35, R54, R240) -/

theorem okDel_doRd {w seq : Nat} {h : Hdr} {s : State} (hs : s.memOk) : OkDel (doRd w seq h s) := by
  unfold doRd
  split
  · exact okDel_homeMsg hs
  · exact okDel_homeMsg hs
  · exact OkDel.ite (memOk_refusePkt hs) (okDel_pktAccess (fun _ hu => memOk_sendRdata hu) (fun _ _ hu1 => OkDel.ite (memOk_sendRdata hu1)
      (memOk_sendRdata (memOk_correct hu1))) hs)
theorem okDel_doWr {w seq : Nat} {h : Hdr} {data : BitVec 512} {s : State} (hs : s.memOk) : OkDel (doWr w seq h data s) := by
  unfold doWr
  split
  · exact okDel_pktAccess (fun _ hu => memOk_lostWrite hu) (fun _ _ hu1 => memOk_writeDone (memOk_ite (memOk_poisonBlock (memOk_homeWrite
      hu1)) (memOk_homeWrite hu1))) hs
  · exact okDel_homeMsg hs
  · exact okDel_proxyMsg hs
  · exact memOk_refusePkt hs
theorem okDel_doWrm {w seq : Nat} {h : Hdr} {mask data : BitVec 512} {s : State} (hs : s.memOk) : OkDel (doWrm w seq h mask data s) := by
  unfold doWrm
  refine okDel_pktAccess (fun _ hu => memOk_lostWrite hu) (fun _ _ hu => memOk_writeDone (memOk_ite (memOk_poisonBlock ?_) ?_)) hs
  · exact memOk_foldl (fun _ _ hv => memOk_homeWrite hv) hu
  · exact memOk_foldl (fun _ _ hv => memOk_homeWrite hv) hu
theorem okDel_doAmo {w seq : Nat} {h : Hdr} {flit : BitVec 512} {s : State} (hs : s.memOk) : OkDel (doAmo w seq h flit s) := by
  unfold doAmo
  split
  · exact memOk_refusePkt hs
  · refine okDel_pktAccess (fun _ hu => memOk_sendAres hu) (fun _ _ hu1 => ?_) hs
    split
    · exact OkDel.ite hu1 (OkDel.ite (memOk_sendAres hu1) (memOk_modFab (memOk_correct hu1)))
    · exact memOk_sendAres (by split; exacts [memOk_homeWrite hu1, hu1])
    · exact memOk_refusePkt hu1
theorem okDel_doRedc {w seq port : Nat} {h : Hdr} {mask data : BitVec 512} {s : State} (hs : s.memOk) :
    OkDel (doRedc w seq port h mask data s) := by
  unfold doRedc
  split
  · exact memOk_refusePkt hs
  · exact OkDel.ite (memOk_refusePkt hs) (OkDel.ite (memOk_lostWrite hs) (memOk_ite (memOk_markPerformed (memOk_redAtHome hs))
      (memOk_refusePkt (memOk_redAtHome hs))))
theorem okDel_doMsg {w seq : Nat} {h : Hdr} {fl : List (BitVec 512)} {s : State} (hs : s.memOk) : OkDel (doMsg w seq h fl s) := by
  unfold doMsg
  refine OkDel.ite (memOk_postNet hs) ?_
  split
  · split
    · exact memOk_refusePkt hs
    · exact memOk_postNet hs
  · exact memOk_postNet hs
theorem okDel_doSig {w seq : Nat} {h : Hdr} {s : State} (hs : s.memOk) : OkDel (doSig w seq h s) :=
  OkDel.ite (memOk_refusePkt hs) (okDel_pktAccess (fun _ hu => memOk_lostWrite hu) (fun _ _ hu1 => memOk_markPerformed (memOk_homeWrite
    hu1)) hs)
theorem okDel_doPrb {w seq : Nat} {h : Hdr} {s : State} (hs : s.memOk) : OkDel (doPrb w seq h s) := by
  unfold doPrb
  split
  · exact okDel_proxyMsg hs
  · exact okDel_proxyMsg hs
  · exact okDel_proxyMsg hs
  · exact okDel_homeMsg hs
  · exact okDel_homeMsg hs
  · exact okDel_homeMsg hs
  · exact memOk_refusePkt hs
theorem okDel_deliverPkt {w seq port : Nat} {p : Packet} {s : State} (hs : s.memOk) : OkDel (deliverPkt w seq port p s) := by
  unfold deliverPkt
  dsimp only
  split
  · exact okDel_doRd hs
  · exact okDel_doWr hs
  · exact okDel_doWrm hs
  · exact okDel_doAmo hs
  · exact okDel_doRedc hs
  · exact okDel_doSig hs
  · exact okDel_doPrb hs
  · exact okDel_doMsg hs

/-! ### Filters and order (R44 to R46) -/

theorem memOk_tryDeliver {w : Nat} {s : State} {e : Nat × Nat × Packet} (hs : s.memOk) : (tryDeliver w s e).memOk := by
  unfold tryDeliver
  refine memOk_ite hs ?_
  split
  · rename_i heq
    exact OkDel.wait (okDel_deliverPkt hs) heq
  · rename_i heq
    exact memOk_setFilt (OkDel.taken (okDel_deliverPkt hs) heq)
theorem memOk_filterPump {w : Nat} {s : State} (hs : s.memOk) : (filterPump w s).memOk :=
  memOk_foldl (fun _ _ hu => memOk_tryDeliver hu) hs
theorem memOk_pumpAll {s : State} (hs : s.memOk) : (pumpAll s).memOk := memOk_foldl (fun _ _ hu => memOk_filterPump hu) hs

/-! ### The fabric atomic unit and the CXL port Prism (R262, R272) -/

theorem memOk_fauAnswer {o : FauOp} {bad : Option Nat} {s : State} (hs : s.memOk) : (fauAnswer o bad s).memOk := by
  unfold fauAnswer
  split
  · exact memOk_sendAres hs
  · exact memOk_sendAres hs
  · exact memOk_refusePkt hs
  · exact memOk_ite hs (memOk_ite (by split; exacts [memOk_postedFail hs, hs]) (memOk_ite (memOk_modCtx hs) (memOk_l1Acquire (memOk_modCtx
      hs))))
theorem memOk_fauWrite {s : State} {o : FauOp} (hs : s.memOk) : (fauWrite s o).memOk := by
  unfold fauWrite
  dsimp only
  split
  · exact memOk_wakeReleases (memOk_fauAnswer (memOk_modFab (memOk_unsuspend hs)))
  · exact memOk_ite hs (memOk_suspend hs)
  · refine memOk_wakeReleases ?_
    refine memOk_fauAnswer ?_
    split
    · exact memOk_homeWrite (memOk_modFab (memOk_unsuspend hs))
    · exact memOk_modFab (memOk_unsuspend hs)
theorem memOk_fauTurn {s : State} (hs : s.memOk) : (fauTurn s).memOk :=
  memOk_ite hs (memOk_pumpAll (memOk_modFab (memOk_foldl (fun _ _ hu => memOk_fauWrite hu) hs)))
theorem memOk_freeResults {w base : Nat} {s : State} (hs : s.memOk) : (freeResults w base s).memOk := memOk_ite hs (memOk_modFab hs)
theorem memOk_ackDue {w : Nat} {s : State} (hs : s.memOk) : (ackDue w s).memOk := memOk_ite hs (memOk_setFilt hs)
theorem memOk_duplicate {w : Nat} {h : Hdr} {port : Nat} {p : Packet} {s : State} (hs : s.memOk) : (duplicate w h port p s).memOk := by
  unfold duplicate
  dsimp only
  split
  · exact memOk_ite (memOk_rawNak (memOk_ackDue hs)) (memOk_rawAres (memOk_ackDue hs))
  · exact memOk_ite (memOk_filterPump (memOk_setFilt (memOk_ackDue hs))) (memOk_ackDue hs)
theorem memOk_sequencedIn {port : Nat} {p : Packet} {h : Hdr} {s : State} (hs : s.memOk) : (sequencedIn port p h s).memOk :=
  memOk_ite (memOk_rawNak hs) (memOk_ite (memOk_ite (memOk_freeResults hs) (memOk_filterPump (memOk_setFilt (memOk_freeResults hs))))
    (memOk_ite (memOk_filterPump (memOk_duplicate (memOk_freeResults hs))) (memOk_malformedRecord (memOk_freeResults hs))))
theorem memOk_pktIn {ty port : Nat} {p : Packet} {s : State} (hs : s.memOk) : (pktIn ty port p s).memOk :=
  memOk_ite hs (memOk_comesIn (fun _ _ hu => memOk_sequencedIn hu) hs)
theorem okStep_execRd {port : Nat} {p : Packet} {s : State} (hs : s.memOk) : OkStep (execRd port p s) := memOk_pktIn hs
theorem okStep_execWr {port : Nat} {p : Packet} {s : State} (hs : s.memOk) : OkStep (execWr port p s) := memOk_pktIn hs
theorem okStep_execWrm {port : Nat} {p : Packet} {s : State} (hs : s.memOk) : OkStep (execWrm port p s) := memOk_pktIn hs
theorem okStep_execAmo {port : Nat} {p : Packet} {s : State} (hs : s.memOk) : OkStep (execAmo port p s) := memOk_pktIn hs
theorem okStep_execRedc {port : Nat} {p : Packet} {s : State} (hs : s.memOk) : OkStep (execRedc port p s) := memOk_pktIn hs
theorem okStep_execMsg {port : Nat} {p : Packet} {s : State} (hs : s.memOk) : OkStep (execMsg port p s) := memOk_pktIn hs
theorem okStep_execSig {port : Nat} {p : Packet} {s : State} (hs : s.memOk) : OkStep (execSig port p s) := memOk_pktIn hs
theorem okStep_execPrb {port : Nat} {p : Packet} {s : State} (hs : s.memOk) : OkStep (execPrb port p s) := memOk_pktIn hs
theorem okStep_execMrep {port : Nat} {p : Packet} {s : State} (hs : s.memOk) : OkStep (execMrep port p s) := memOk_pktIn hs

end Sys2Proof.Machine
end

section
set_option Elab.async false
/-! Steps keep both memories canonical: vector and matrix heads, and the life of a firing. -/
namespace Sys2Proof.Machine

/-! ### Elements (R339, R420) -/

theorem keeps_putElems {h : Head} {w : Nat} {xs : List Nat} : Keeps (putElems h w xs) := keeps_get.bind fun _ _ => keeps_setV
theorem okStep_vecHead {r : Row} {h : Head} {t : Nat} {readsD : Bool} {f : Nat → Nat → Nat → Nat × FFlags} {s : State} (hs : s.memOk) :
    OkStep (vecHead r h t readsD f s) :=
  okStep_runHead (keeps_get.bind fun _ _ => keeps_putElems.bind fun _ => keeps_flags.bind fun _ => keeps_pure trivial) hs

/-! ### Element arithmetic (R422) -/

theorem okStep_execVadd {h : Head} {s : State} (hs : s.memOk) : OkStep (execVadd h s) := okStep_vecHead hs
theorem okStep_execVsub {h : Head} {s : State} (hs : s.memOk) : OkStep (execVsub h s) := okStep_vecHead hs
theorem okStep_execVmul {h : Head} {s : State} (hs : s.memOk) : OkStep (execVmul h s) := okStep_vecHead hs
theorem okStep_execVfma {h : Head} {s : State} (hs : s.memOk) : OkStep (execVfma h s) := okStep_vecHead hs
theorem okStep_execVfms {h : Head} {s : State} (hs : s.memOk) : OkStep (execVfms h s) := okStep_vecHead hs
theorem okStep_execVmin {h : Head} {s : State} (hs : s.memOk) : OkStep (execVmin h s) := okStep_vecHead hs
theorem okStep_execVmax {h : Head} {s : State} (hs : s.memOk) : OkStep (execVmax h s) := okStep_vecHead hs

/-! ### Logic and shifts (R423, R424) -/

theorem okStep_execVand {h : Head} {s : State} (hs : s.memOk) : OkStep (execVand h s) := okStep_vecHead hs
theorem okStep_execVor {h : Head} {s : State} (hs : s.memOk) : OkStep (execVor h s) := okStep_vecHead hs
theorem okStep_execVxor {h : Head} {s : State} (hs : s.memOk) : OkStep (execVxor h s) := okStep_vecHead hs
theorem okStep_execVandn {h : Head} {s : State} (hs : s.memOk) : OkStep (execVandn h s) := okStep_vecHead hs
theorem okStep_vshHead {r : Row} {h : Head} {f : Nat → Nat → Nat → Nat} {s : State} (hs : s.memOk) : OkStep (vshHead r h f s) :=
  okStep_runHead (keeps_get.bind fun _ _ => keeps_putElems.bind fun _ => keeps_pure trivial) hs
theorem okStep_execVshl {h : Head} {s : State} (hs : s.memOk) : OkStep (execVshl h s) := okStep_vshHead hs
theorem okStep_execVshr {h : Head} {s : State} (hs : s.memOk) : OkStep (execVshr h s) := okStep_vshHead hs
theorem okStep_execVsra {h : Head} {s : State} (hs : s.memOk) : OkStep (execVsra h s) := okStep_vshHead hs

/-! ### Compares, selection and masks (R425 to R427) -/

theorem keeps_setM {r : Nat} {v : BitVec 32} : Keeps (setM r v) := keeps_upd (fun _ hu => memOk_modHere hu)
theorem okStep_execVcmp {h : Head} {s : State} (hs : s.memOk) : OkStep (execVcmp h s) :=
  okStep_runHead (keeps_get.bind fun _ _ => keeps_setM.bind fun _ => keeps_pure trivial) hs
theorem okStep_execVsel {h : Head} {s : State} (hs : s.memOk) : OkStep (execVsel h s) :=
  okStep_runHead (keeps_get.bind fun _ _ => keeps_setV.bind fun _ => keeps_pure trivial) hs
theorem okStep_maskHead {r : Row} {h : Head} {f : BitVec 32 → BitVec 32 → BitVec 32} {s : State} (hs : s.memOk) :
    OkStep (maskHead r h f s) :=
  okStep_runHead (keeps_get.bind fun _ _ => keeps_setM.bind fun _ => keeps_pure trivial) hs
theorem okStep_execMand {h : Head} {s : State} (hs : s.memOk) : OkStep (execMand h s) := okStep_maskHead hs
theorem okStep_execMor {h : Head} {s : State} (hs : s.memOk) : OkStep (execMor h s) := okStep_maskHead hs
theorem okStep_execMxor {h : Head} {s : State} (hs : s.memOk) : OkStep (execMxor h s) := okStep_maskHead hs
theorem okStep_execMnot {h : Head} {s : State} (hs : s.memOk) : OkStep (execMnot h s) := okStep_maskHead hs
theorem okStep_maskInt {r : Row} {h : Head} {f : BitVec 32 → Nat} {s : State} (hs : s.memOk) : OkStep (maskInt r h f s) :=
  okStep_runHead (keeps_get.bind fun _ _ => keeps_setInt.bind fun _ => keeps_pure trivial) hs
theorem okStep_execMpop {h : Head} {s : State} (hs : s.memOk) : OkStep (execMpop h s) := okStep_maskInt hs
theorem okStep_execMfirst {h : Head} {s : State} (hs : s.memOk) : OkStep (execMfirst h s) := okStep_maskInt hs

/-! ### Functions (R326, R428) -/

theorem okStep_vfnHead {r : Row} {h : Head} {f : Nat → Val × FFlags} {s : State} (hs : s.memOk) : OkStep (vfnHead r h f s) :=
  okStep_runHead (keeps_get.bind fun _ _ => keeps_putElems.bind fun _ => keeps_flags.bind fun _ => keeps_pure trivial) hs
theorem okStep_execVrcp {h : Head} {s : State} (hs : s.memOk) : OkStep (execVrcp h s) := okStep_vfnHead hs
theorem okStep_execVrsq {h : Head} {s : State} (hs : s.memOk) : OkStep (execVrsq h s) := okStep_vfnHead hs
theorem okStep_execVexp2 {h : Head} {s : State} (hs : s.memOk) : OkStep (execVexp2 h s) := okStep_vfnHead hs
theorem okStep_execVlog2 {h : Head} {s : State} (hs : s.memOk) : OkStep (execVlog2 h s) := okStep_vfnHead hs
theorem okStep_execVsqrt {h : Head} {s : State} (hs : s.memOk) : OkStep (execVsqrt h s) := okStep_vfnHead hs
theorem okStep_execVtanh {h : Head} {s : State} (hs : s.memOk) : OkStep (execVtanh h s) := okStep_vfnHead hs

/-! ### Reductions and scans (R429, R430) -/

theorem okStep_vredHead {r : Row} {h : Head} {op : Nat} {s : State} (hs : s.memOk) : OkStep (vredHead r h op s) :=
  okStep_runHead (keeps_get.bind fun _ _ => KeepsP.ite (keeps_setInt.bind fun _ => keeps_flags.bind fun _ => keeps_pure trivial)
    (keeps_setInt.bind fun _ => keeps_pure trivial)) hs
theorem okStep_execVredsum {h : Head} {s : State} (hs : s.memOk) : OkStep (execVredsum h s) := okStep_vredHead hs
theorem okStep_execVredmax {h : Head} {s : State} (hs : s.memOk) : OkStep (execVredmax h s) := okStep_vredHead hs
theorem okStep_execVredmin {h : Head} {s : State} (hs : s.memOk) : OkStep (execVredmin h s) := okStep_vredHead hs
theorem okStep_execVscan {h : Head} {s : State} (hs : s.memOk) : OkStep (execVscan h s) :=
  okStep_runHead (keeps_get.bind fun _ _ => KeepsP.ite (keeps_putElems.bind fun _ => keeps_flags.bind fun _ => keeps_pure trivial)
    (keeps_putElems.bind fun _ => keeps_pure trivial)) hs

/-! ### Moving lanes (R431 to R434) -/

theorem okStep_execVperm {h : Head} {s : State} (hs : s.memOk) : OkStep (execVperm h s) :=
  okStep_runHead (keeps_get.bind fun _ _ => keeps_putElems.bind fun _ => keeps_pure trivial) hs
theorem okStep_execVbcast {h : Head} {s : State} (hs : s.memOk) : OkStep (execVbcast h s) :=
  okStep_runHead (keeps_get.bind fun _ _ => keeps_putElems.bind fun _ => keeps_pure trivial) hs
theorem okStep_execVextr {h : Head} {s : State} (hs : s.memOk) : OkStep (execVextr h s) :=
  okStep_runHead (keeps_get.bind fun _ _ => keeps_setInt.bind fun _ => keeps_pure trivial) hs
theorem okStep_execVins {h : Head} {s : State} (hs : s.memOk) : OkStep (execVins h s) :=
  okStep_runHead (keeps_get.bind fun _ _ => keeps_setV.bind fun _ => keeps_pure trivial) hs
theorem okStep_execVmov {h : Head} {s : State} (hs : s.memOk) : OkStep (execVmov h s) :=
  okStep_runHead (keeps_get.bind fun _ _ => keeps_setV.bind fun _ => keeps_pure trivial) hs

/-! ### The accesses of a vector head (R436) -/

theorem keeps_failAt {ls : List LaneAcc} {bad : LaneAcc → Bool} {cause sub : Nat} : Keeps (failAt ls bad cause sub) := by
  unfold failAt
  split
  · exact keeps_raise
  · exact keeps_pure trivial
theorem keeps_laneWalk {kind : BitVec 8} {l : LaneAcc} : Keeps (fun s => match translate l.va kind s with
    | .error (.trap c a i) t => .error (.trap c a (l.lane % 32 * 256 + i)) t
    | r => r : X (Nat × W64)) := by
  refine keepsP_of (fun s t a hs e => ⟨trivial, ?_⟩) fun s t e hs he => ?_
  · split at e
    · cases e
    · exact keeps_translate.ok_memOk hs e
  · split at he
    · rename_i heq
      cases he
      exact keeps_translate.error hs heq
    · exact keeps_translate.error hs he
theorem keeps_laneSpans {kind : BitVec 8} {ls : List LaneAcc} : Keeps (laneSpans kind ls) := by
  induction ls with
  | nil => exact keeps_pure trivial
  | cons l rest ih => exact keeps_laneWalk.bind fun _ => ih.bind fun _ => keeps_pure trivial
theorem keeps_laneAccess {c : Cap} {write : Bool} {mis : Option Nat} {ls : List LaneAcc} : Keeps (laneAccess c write mis ls) := by
  unfold laneAccess
  refine keeps_failAt.bind fun _ => ?_
  refine keeps_failAt.bind fun _ => ?_
  refine keeps_failAt.bind fun _ => ?_
  dsimp only
  split
  · exact keeps_raise_bind
  · refine keeps_failAt.bind fun _ => ?_
    refine keeps_laneSpans.bind fun _ => ?_
    refine keeps_get.bind fun _ _ => ?_
    refine KeepsP.ite (keeps_failAt.bind fun _ => keeps_pure trivial) ?_
    split
    · exact keeps_raise_bind
    · exact keeps_failAt.bind fun _ => keeps_pure trivial

/-! ### What a vector load delivers -/

theorem keeps_pieceNow {p : Piece} {va : Nat} : Keeps (pieceNow p va) := by
  unfold pieceNow
  split
  · exact keeps_pure trivial
  · refine keeps_get.bind fun _ _ => ?_
    refine keeps_readNow.bind fun _ => ?_
    split
    · exact keeps_pure trivial
    · exact keeps_raise
    · exact keeps_throw
theorem keeps_vecLoad {v n : Nat} {ps : List Piece} {fin : Fin_} : Keeps (vecLoad v n ps fin) :=
  keeps_get.bind fun _ _ => KeepsP.ite ((keeps_mapM (fun _ => keeps_pieceNow) _).bind fun _ => (keeps_upd (fun _ hu1 => memOk_modHere
    hu1)).bind fun _ => keeps_flags) keeps_issuePieces

/-! ### VLD and VST (R435 to R438) -/

theorem keeps_vldPlain {h : Head} : Keeps (vldPlain h) :=
  keeps_get.bind fun _ _ => keeps_laneAccess.bind fun _ => keeps_loadPieces.bind fun _ => keeps_vecLoad
theorem keeps_fmtCheck {c : Cap} : Keeps (fmtCheck c) := keeps_get.bind fun _ _ => KeepsP.ite keeps_illegal_bind (keeps_pure trivial)
theorem keeps_tensorLoad {c : Cap} {f : W64} {j0 : Int} {v regs : Nat} {ks : List Nat} {old : VReg} :
    Keeps (tensorLoad c f j0 v regs ks old) :=
  keeps_laneAccess.bind fun _ => keeps_loadPieces.bind fun _ => keeps_vecLoad
theorem okStep_execVld {h : Head} {s : State} (hs : s.memOk) : OkStep (execVld h s) :=
  okStep_runHead (keeps_get.bind fun _ _ => KeepsP.ite (keeps_fmtCheck.bind fun _ => keeps_tensorLoad.bind fun _ => keeps_pure trivial)
    (keeps_vldPlain.bind fun _ => keeps_pure trivial)) hs
theorem okStep_execVldS {h : Head} {s : State} (hs : s.memOk) : OkStep (execVldS h s) :=
  okStep_runHead (keeps_vldPlain.bind fun _ => keeps_pure trivial) hs
theorem okStep_execVldG {h : Head} {s : State} (hs : s.memOk) : OkStep (execVldG h s) :=
  okStep_runHead (keeps_vldPlain.bind fun _ => keeps_pure trivial) hs
theorem keeps_vstPlain {h : Head} {join : Bool} : Keeps (vstPlain h join) :=
  keeps_get.bind fun _ _ => keeps_laneAccess.bind fun _ => keeps_pushStores
theorem keeps_vstCv {h : Head} : Keeps (vstCv h) :=
  keeps_get.bind fun _ _ => keeps_fmtCheck.bind fun _ => KeepsP.ite keeps_illegal_bind (keeps_laneAccess.bind fun _ =>
    keeps_pushStores.bind fun _ => keeps_flags)
theorem okStep_execVst {h : Head} {s : State} (hs : s.memOk) : OkStep (execVst h s) :=
  okStep_runHead (KeepsP.join keeps_vstCv keeps_vstPlain (fun _ => keeps_pure trivial)) hs
theorem okStep_execVstS {h : Head} {s : State} (hs : s.memOk) : OkStep (execVstS h s) :=
  okStep_runHead (keeps_vstPlain.bind fun _ => keeps_pure trivial) hs
theorem okStep_execVstX {h : Head} {s : State} (hs : s.memOk) : OkStep (execVstX h s) :=
  okStep_runHead (keeps_vstPlain.bind fun _ => keeps_pure trivial) hs

/-! ### VCVT (R439, R440) -/

theorem okStep_execVcvt {h : Head} {s : State} (hs : s.memOk) : OkStep (execVcvt h s) :=
  okStep_runHead (keeps_get.bind fun _ _ => KeepsP.ite keeps_illegal_bind (KeepsP.ite keeps_illegal_bind (keeps_setV.bind fun _ =>
    keeps_flags.bind fun _ => keeps_pure trivial))) hs

/-! ### VQNT and VDEQ (R441, R442) -/

theorem okStep_execVqnt {h : Head} {s : State} (hs : s.memOk) : OkStep (execVqnt h s) := by
  unfold execVqnt
  refine okStep_runHead ?_ hs
  refine keeps_get.bind fun _ _ => ?_
  refine keeps_fmtCheck.bind fun _ => ?_
  refine KeepsP.ite keeps_illegal_bind ?_
  refine KeepsP.ite keeps_illegal_bind ?_
  refine KeepsP.ite ?_ ?_
  · refine keeps_ensure.bind fun _ => ?_
    dsimp only
    split
    · exact keeps_raise_bind
    · exact keeps_addPend.bind fun _ => keeps_pure trivial
  · exact keeps_check.bind fun _ => keeps_laneAccess.bind fun _ => keeps_pushStores.bind fun _ => keeps_flags.bind fun _ =>
      keeps_addPend.bind fun _ => keeps_pure trivial
theorem okStep_execVdeq {h : Head} {s : State} (hs : s.memOk) : OkStep (execVdeq h s) :=
  okStep_runHead (keeps_get.bind fun _ _ => keeps_fmtCheck.bind fun _ => keeps_tensorLoad.bind fun _ => keeps_pure trivial) hs

/-! ### Stream bindings (R443 to R446) -/

theorem keeps_shapeAt {pa : Nat} : Keeps (shapeAt pa) := keeps_get.bind fun _ _ => KeepsP.ite keeps_throw_bind (keeps_pure trivial)
theorem keeps_bindUnit {core : Nat} {u : State → SUnit} : Keeps (do
    let s ← get
    match freeUnit s with
    | none => do
      throw (.trap 0x13 0 7)
      pure .seq
    | some k => do
      upd (setUnit core k (some (u s)))
      pure .seq : X Next) := by
  refine keeps_get.bind fun s _ => ?_
  cases freeUnit s with
  | none => exact keeps_throw_bind
  | some k => exact (keeps_upd (fun _ hu => memOk_setUnit hu)).bind fun _ => keeps_pure trivial
theorem okStep_execSbind {h : Head} {s : State} (hs : s.memOk) : OkStep (execSbind h s) := by
  unfold execSbind
  refine okStep_runHead (keeps_get.bind fun _ _ => KeepsP.ite keeps_illegal_bind ?_) hs
  extract_lets core write cv slot done sl rest
  have hrest : ∀ x, Keeps (rest x) := by
    intro x
    refine KeepsP.ite ?_ keeps_illegal_bind
    refine KeepsP.ite (KeepsP.ite keeps_illegal_bind (KeepsP.ite keeps_illegal_bind ?_)) ?_
    · exact KeepsP.checked keeps_ensure fun _ => keeps_bindUnit
    · exact KeepsP.checked keeps_ensure fun _ => keeps_bindUnit
  refine KeepsP.ite (keeps_access.bind fun _ => keeps_get.bind fun _ _ => KeepsP.ite ?_ keeps_illegal_bind) (keeps_shapeAt.bind hrest)
  split
  · exact keeps_shapeAt.bind hrest
  · exact Keeps.bind (keeps_pure trivial) hrest
theorem memOk_zeroV {v : Nat} {s : State} (hs : s.memOk) : (zeroV v s).memOk := memOk_modHere hs
theorem okStep_execSunbind {h : Head} {s : State} (hs : s.memOk) : OkStep (execSunbind h s) := by
  unfold execSunbind
  refine okStep_runHead ?_ hs
  refine keeps_get.bind fun _ _ => ?_
  dsimp only
  split
  · exact keeps_pure trivial
  · refine KeepsP.ite ?_ ?_
    · refine KeepsP.ite keeps_throw_bind ?_
      split
      · exact keeps_throw_bind
      · exact (keeps_upd (fun _ hu1 => memOk_zeroV (memOk_setUnit hu1))).bind fun _ => keeps_pure trivial
    · exact (keeps_upd (fun _ hu2 => memOk_zeroV (memOk_setUnit hu2))).bind fun _ => keeps_pure trivial
theorem okStep_execSstat {h : Head} {s : State} (hs : s.memOk) : OkStep (execSstat h s) :=
  okStep_runHead (keeps_get.bind fun _ _ => keeps_addPend.bind fun _ => keeps_pure trivial) hs

/-! ### Slots -/

theorem memOk_modSlot {strip k : Nat} {f : Slot → Slot} {s : State} (hs : s.memOk) : (modSlot strip k f s).memOk := memOk_modStrip hs
theorem memOk_claimSlot {strip k asid : Nat} {s : State} (hs : s.memOk) : (claimSlot strip k asid s).memOk :=
  memOk_ite (memOk_mk (memOk_modSlot (memOk_modStrip hs))) (memOk_modSlot (memOk_modStrip hs))
theorem memOk_freeSlot {strip k : Nat} {s : State} (hs : s.memOk) : (freeSlot strip k s).memOk := memOk_wakeIf (memOk_modSlot hs)
theorem okStep_execSclaim {h : Head} {s : State} (hs : s.memOk) : OkStep (execSclaim h s) := by
  unfold execSclaim
  refine okStep_runHead ?_ hs
  refine keeps_get.bind fun _ _ => ?_
  dsimp only
  split
  · exact keeps_throw_bind
  · exact keeps_raise_bind
  · exact (keeps_upd (fun _ hu1 => memOk_claimSlot hu1)).bind fun _ => keeps_pure trivial
theorem okStep_execSrel {h : Head} {s : State} (hs : s.memOk) : OkStep (execSrel h s) :=
  okStep_runHead (keeps_get.bind fun _ _ => keeps_ensure.bind fun _ => KeepsP.join (keeps_upd (fun _ hu1 => memOk_modSlot hu1)) (keeps_upd
    (fun _ hu2 => memOk_freeSlot hu2)) (fun _ => keeps_pure trivial)) hs
theorem okStep_execSfmt {h : Head} {s : State} (hs : s.memOk) : OkStep (execSfmt h s) :=
  okStep_runHead (keeps_get.bind fun _ _ => KeepsP.ite keeps_illegal_bind (keeps_ensure.bind fun _ => keeps_ensure.bind fun _ =>
    (keeps_upd (fun _ hu1 => memOk_modSlot hu1)).bind fun _ => keeps_pure trivial)) hs

/-! ### Rows (R452, R459) -/

theorem keeps_rowAccess {c : Cap} {rows : List Nat} {n align : Nat} {write : Bool} {mis : Nat → Bool} {extra : List LaneAcc} :
    Keeps (rowAccess c rows n align write mis extra) := by
  unfold rowAccess
  refine keeps_failAt.bind fun _ => ?_
  refine keeps_failAt.bind fun _ => ?_
  refine keeps_failAt.bind fun _ => ?_
  refine keeps_failAt.bind fun _ => ?_
  refine keeps_laneSpans.bind fun _ => ?_
  refine keeps_get.bind fun _ _ => ?_
  refine KeepsP.ite (keeps_failAt.bind fun _ => keeps_pure trivial) ?_
  split
  · exact keeps_raise_bind
  · exact keeps_failAt.bind fun _ => keeps_pure trivial
theorem okStep_execSload {h : Head} {s : State} (hs : s.memOk) : OkStep (execSload h s) := by
  unfold execSload
  refine okStep_runHead ?_ hs
  refine keeps_get.bind fun _ _ => ?_
  refine keeps_ensure.bind fun _ => ?_
  dsimp only
  split
  · exact keeps_illegal_bind
  · exact KeepsP.ite keeps_illegal_bind (keeps_rowAccess.bind fun _ => keeps_get.bind fun _ _ => KeepsP.ite keeps_throw_bind
      (keeps_issueLoad.bind fun _ => keeps_pure trivial))

/-! ### Banks -/

theorem keeps_bankReady {b : Nat} : Keeps (bankReady b) := keeps_get.bind fun _ _ => KeepsP.ite keeps_throw (keeps_pure trivial)
theorem okStep_execAzero {h : Head} {s : State} (hs : s.memOk) : OkStep (execAzero h s) :=
  okStep_runHead (keeps_bankReady.bind fun _ => (keeps_upd (fun _ hu => memOk_foldl (fun _ _ hu1 => memOk_ite (memOk_poke hu1) hu1)
    hu)).bind fun _ => keeps_pure trivial) hs
theorem keeps_astoreLines {h : Head} : Keeps (astoreLines h) :=
  keeps_get.bind fun _ _ => keeps_rowAccess.bind fun _ => keeps_bankReady.bind fun _ => keeps_get.bind fun _ _ => keeps_pure trivial
theorem keeps_storeNext {es : List SbEntry} : Keeps (match es with
    | [] => pure .seq
    | e :: r => do
      pushStores [e]
      upd (modHere fun x => { x with storing := r })
      pure (if r.isEmpty then .seq else .again) : X Next) := by
  cases es with
  | nil => exact keeps_pure trivial
  | cons e r => exact keeps_pushStores.bind fun _ => (keeps_upd (fun _ hu => memOk_modHere hu)).bind fun _ => keeps_pure trivial
theorem okStep_execAstore {h : Head} {s : State} (hs : s.memOk) : OkStep (execAstore h s) := by
  unfold execAstore
  refine okStep_runHead (keeps_get.bind fun _ _ => ?_) hs
  exact KeepsP.ite (keeps_astoreLines.bind fun _ => keeps_storeNext) (Keeps.bind (keeps_pure trivial) fun _ => keeps_storeNext)
theorem okStep_execAload {h : Head} {s : State} (hs : s.memOk) : OkStep (execAload h s) :=
  okStep_runHead (keeps_get.bind fun _ _ => keeps_rowAccess.bind fun _ => keeps_bankReady.bind fun _ => keeps_get.bind fun _ _ =>
    keeps_issueLoad.bind fun _ => keeps_pure trivial) hs
theorem okStep_execAscale {h : Head} {s : State} (hs : s.memOk) : OkStep (execAscale h s) :=
  okStep_runHead (keeps_bankReady.bind fun _ => keeps_get.bind fun _ _ => (keeps_upd (fun _ hu1 => memOk_poke hu1)).bind fun _ =>
    keeps_flags.bind fun _ => keeps_pure trivial) hs
theorem okStep_execAmovv {h : Head} {s : State} (hs : s.memOk) : OkStep (execAmovv h s) :=
  okStep_runHead (keeps_bankReady.bind fun _ => keeps_get.bind fun _ _ => KeepsP.join (keeps_upd (fun _ hu1 => memOk_poke hu1)) keeps_setV
    (fun _ => keeps_pure trivial)) hs

/-! ### MMA (R184, R454 to R457) -/

theorem memOk_mmaAnswer {ok : Bool} {c : Nat} {s : State} (hs : s.memOk) : (mmaAnswer ok c s).memOk := memOk_modCtx hs
theorem memOk_mmaForm {strip : Nat} {s : State} (hs : s.memOk) : (mmaForm strip s).memOk :=
  memOk_foldl (fun _ _ hu => memOk_mmaAnswer hu) (memOk_modStrip hs)
theorem keeps_mmaBody {h : Head} : Keeps (mmaBody h) := by
  unfold mmaBody
  refine keeps_get.bind fun _ _ => ?_
  refine KeepsP.ite keeps_illegal_bind ?_
  refine keeps_answered.bind fun _ => ?_
  refine KeepsP.ite (keeps_pure trivial) ?_
  refine KeepsP.ite keeps_illegal_bind ?_
  refine KeepsP.ite keeps_illegal_bind ?_
  exact keeps_ensure.bind fun _ => KeepsP.ite keeps_illegal_bind (KeepsP.ite keeps_throw_bind (KeepsP.ite keeps_raise_bind (KeepsP.ite
    keeps_throw_bind (KeepsP.ite keeps_throw_bind ((keeps_upd (fun _ hu1 => memOk_modStrip hu1)).bind fun _ => keeps_get.bind fun _ _ =>
    KeepsP.ite ((keeps_upd (fun _ hu3 => memOk_mmaForm hu3)).bind fun _ => KeepsP.ite (keeps_pure trivial) keeps_throw) keeps_throw)))))
theorem memOk_clearBad {h : Head} {s t : State} (ht : t.memOk) : (clearBad h s t).memOk := by
  unfold clearBad
  dsimp only
  split
  · rename_i heq
    exact memOk_ite (memOk_modSlot (memOk_modSlot ht)) ht
  · exact ht
theorem okStep_execMma {h : Head} {s : State} (hs : s.memOk) : OkStep (execMma h s) := by
  unfold execMma
  dsimp only
  split
  · exact memOk_onStop hs hs
  · split
    · rename_i heq
      exact KeepsP.ok_memOk (keeps_perform keeps_mmaBody) hs heq
    · rename_i heq
      exact memOk_trapAt (memOk_mk hs)
    · rename_i heq
      exact memOk_clearBad (memOk_onStop hs (KeepsP.error (keeps_perform keeps_mmaBody) hs heq))
theorem okStep_execArrayOperationStart {strip : Nat} {s : State} (hs : s.memOk) : OkStep (execArrayOperationStart strip s) :=
  memOk_modStrip hs
theorem memOk_retirePart {strip : Nat} {t : StripSt} {o : ArrayOp} {s : State} {p : MmaPart} (hs : s.memOk) :
    (retirePart strip t o s p).memOk :=
  memOk_wakeReleases (memOk_resultWakes (memOk_modCtx (memOk_poke (memOk_snd_ite (memOk_freshBytes hs) hs))))
theorem memOk_settleSlots {strip : Nat} {s : State} (hs : s.memOk) : (settleSlots strip s).memOk :=
  memOk_foldl (fun _ _ hu => memOk_ite (memOk_freeSlot hu) hu) hs
theorem okStep_execMmaRetire {strip : Nat} {s : State} (hs : s.memOk) : OkStep (execMmaRetire strip s) := by
  unfold execMmaRetire
  dsimp only
  split
  · exact hs
  · exact OkStep.ite (memOk_settleSlots (memOk_modStrip (memOk_foldl (fun _ _ hu => memOk_retirePart hu) hs))) hs

/-! ### Mirror partners (R199) -/

theorem memOk_openPair {c part : Nat} {s : State} (hs : s.memOk) : (openPair c part s).memOk :=
  memOk_modGrp (memOk_modCtx (memOk_modCore (memOk_modFir hs)))
theorem memOk_pairless {core handle : Nat} {s : State} (hs : s.memOk) : (pairless core handle s).memOk := memOk_supRecord hs

/-! ### Placement (R134) -/

theorem memOk_dirtyRange {a : Actor} {core : Nat} {s : State} (hs : s.memOk) : (dirtyRange a core s).memOk := memOk_modCore hs
theorem memOk_placeFir {core j : Nat} {f : Firing} {given : List (Nat × Cap)} {line : Nat} {s : State} (hs : s.memOk) :
    (placeFir core j f given line s).memOk :=
  memOk_l1Acquire (memOk_noteStall (memOk_dirtyRange (memOk_setCtx (memOk_modCore hs))))
theorem memOk_placeQueued {core : Nat} {q : QFiring} {s : State} (hs : s.memOk) : (placeQueued core q s).memOk := by
  unfold placeQueued
  dsimp only
  split
  · exact hs
  · refine memOk_ite hs ?_
    refine memOk_ite (memOk_modCore (memOk_placeFir hs)) ?_
    exact memOk_ite (memOk_ite hs (memOk_pairless (memOk_modCore hs)))
      (by split; exacts [hs, memOk_openPair (memOk_modCore (memOk_placeFir hs))])
theorem memOk_placeMsg {core : Nat} {s : State} (hs : s.memOk) : (placeMsg core s).memOk :=
  memOk_ite hs (by split; exacts [memOk_placeFir (memOk_setCore hs), hs])

/-! ### Abort (R131, R171) -/

theorem memOk_forget {handle : Nat} {s : State} (hs : s.memOk) : (forget handle s).memOk := memOk_cancelCopies (memOk_leaveFaults hs)
theorem memOk_strikeBanks {c : Nat} {s : State} (hs : s.memOk) : (strikeBanks c s).memOk := by
  delta strikeBanks
  generalize 4096 = n
  generalize stripNo _ = st
  refine memOk_ite (memOk_foldl (fun u i hu => ?_) (memOk_modStrip hs)) hs
  have hf : (freshBytes n u).2.memOk := memOk_freshBytes hu
  revert hf
  cases freshBytes n u with
  | mk x t => exact memOk_poke
theorem memOk_abortPlaced {c : Nat} {s : State} (hs : s.memOk) : (abortPlaced c s).memOk := by
  unfold abortPlaced
  split
  · exact hs
  · exact memOk_endFiring (memOk_withdrawBar (memOk_forget (memOk_strikeBanks hs)))
theorem memOk_abortSaved {v : Saved} {status : Nat} {s : State} (hs : s.memOk) : (abortSaved v status s).memOk :=
  memOk_informEnd (memOk_dropSaved (memOk_modCore (memOk_forget hs)))
theorem memOk_abortQueued {core : Nat} {q : QFiring} {s : State} (hs : s.memOk) : (abortQueued core q s).memOk :=
  memOk_informEnd (memOk_modCore hs)
theorem memOk_abortCore {core : Nat} {p : Firing → Bool} {s : State} (hs : s.memOk) : (abortCore core p s).memOk :=
  memOk_foldl (fun _ _ hu => memOk_abortQueued hu) (memOk_foldl (fun _ _ hu1 => memOk_abortSaved hu1) (memOk_foldl (fun _ _ hu2 =>
    memOk_ite (memOk_abortPlaced hu2) hu2) hs))

/-! ### Stopping for a save (R166 to R168) -/

theorem memOk_modSaved {core handle : Nat} {g : Saved → Saved} {s : State} (hs : s.memOk) : (modSaved core handle g s).memOk :=
  memOk_modCore hs
theorem memOk_askSave {c : Nat} {held : Bool} {who : Option (Nat × Nat)} {s : State} (hs : s.memOk) : (askSave c held who s).memOk :=
  memOk_modCore hs
theorem memOk_stopNow {c : Nat} {s : State} (hs : s.memOk) : (stopNow c s).memOk :=
  memOk_noteStall (memOk_modCtx (memOk_modSaved (memOk_freeLens (memOk_freePair (memOk_leaveSlot (memOk_modMs (memOk_modStrip
    (memOk_withdrawDom (memOk_withdrawBar hs)))))))))
theorem memOk_tryStop {c : Nat} {s : State} (hs : s.memOk) : (tryStop c s).memOk :=
  memOk_ite hs (memOk_ite (memOk_stopNow hs) (memOk_ite (memOk_beginWait (memOk_closeInterval hs)) hs))

/-! ### Writing and reading an image (R307, R308) -/

theorem keeps_saveReach {v : Saved} {user : Bool} {off : Nat} {write : Bool} : Keeps (saveReach v user off write) := by
  unfold saveReach
  refine keeps_get.bind fun _ hu => ?_
  split
  · rename_i heq
    exact keeps_throw
  · rename_i heq
    dsimp only
    split
    · exact keeps_throw
    · exact (keeps_set (memOk_suspendAs (memOk_snd (memOk_engineWalk hu) heq))).bind fun _ => keeps_throw
    · exact (keeps_set (memOk_unsuspend (memOk_snd (memOk_engineWalk hu) heq))).bind fun _ => keeps_pure trivial
theorem keeps_saveField {v : Saved} {user : Bool} {g : Field} : Keeps (saveField v user g) :=
  keeps_saveReach.bind fun _ => keeps_modify (fun _ hu => memOk_foldl (fun _ _ hu1 => memOk_homeWrite hu1) hu)
theorem keeps_restoreField {v : Saved} {user : Bool} {off : Nat} : Keeps (restoreField v user off) :=
  keeps_saveReach.bind fun _ => keeps_get.bind fun _ hu => KeepsP.ite keeps_throw_bind ((keeps_set (memOk_correct hu)).bind fun _ =>
    keeps_pure trivial)
theorem keeps_restoreBytes {v : Saved} {user : Bool} {off n : Nat} : Keeps (restoreBytes v user off n) := by
  induction n generalizing off with
  | zero => exact keeps_pure trivial
  | succ n ih => exact keeps_restoreField.bind fun _ => Keeps.bind ih fun _ => keeps_pure trivial
theorem memOk_saveFail {v : Saved} {s : State} (hs : s.memOk) : (saveFail v s).memOk :=
  memOk_ite (memOk_abortPlaced (memOk_answerSave (memOk_modSaved (memOk_supRecord hs)))) (memOk_abortSaved (memOk_answerSave
    (memOk_modSaved (memOk_supRecord hs))))
theorem memOk_saveStop {v : Saved} {st : SaveStop} {s : State} (hs : s.memOk) : (saveStop v st s).memOk := by
  unfold saveStop
  split
  · exact hs
  · exact memOk_saveFail hs
  · exact memOk_openFault (memOk_modSaved hs)
theorem memOk_writeImage {v : Saved} {s : State} (hs : s.memOk) : (writeImage v s).memOk := by
  unfold writeImage
  refine memOk_ite (memOk_saveFail hs) ?_
  dsimp only
  split
  · rename_i heq
    exact memOk_saveStop (KeepsP.error (keeps_forM (fun _ => keeps_saveField) _) hs heq)
  · rename_i heq
    exact memOk_modSaved (memOk_modCtx (memOk_modCore (KeepsP.ok_memOk (keeps_forM (fun _ => keeps_saveField) _) hs heq)))
theorem keeps_restoreHold {v : Saved} {user : Bool} {base n : Nat} : Keeps (restoreHold v user base n) := by
  induction n generalizing base with
  | zero => exact keeps_pure trivial
  | succ n ih =>
    unfold restoreHold
    exact keeps_restoreField.bind fun _ => keeps_restoreField.bind fun _ => keeps_restoreBytes.bind fun _ => Keeps.bind ih fun _ =>
      keeps_pure trivial
theorem keeps_restoreSpad {v : Saved} {user : Bool} {ls : List Nat} : Keeps (restoreSpad v user ls) := by
  induction ls with
  | nil => exact keeps_pure trivial
  | cons x xs ih => exact keeps_restoreField.bind fun _ => (keeps_modify (fun _ hu => memOk_setTag (memOk_poke hu))).bind fun _ => ih
theorem memOk_rebind {core : Nat} {us : List (Nat × SUnit)} {pos : List Nat} {s : State} (hs : s.memOk) :
    (rebind core us pos s).memOk := by
  refine memOk_foldl (fun u x hu => ?_) hs
  obtain ⟨⟨k, v⟩, p⟩ := x
  dsimp only
  split
  · exact memOk_setUnit hu
  · exact hu
theorem keeps_readImage {v : Saved} : Keeps (readImage v) := by
  unfold readImage
  refine keeps_restoreBytes.bind fun _ => ?_
  refine KeepsP.ite keeps_throw_bind ?_
  refine keeps_restoreBytes.bind fun _ => ?_
  refine (keeps_mapM (fun _ => keeps_restoreBytes) _).bind fun _ => ?_
  refine (keeps_mapM (fun _ => keeps_restoreField) _).bind fun _ => ?_
  refine (keeps_mapM (fun _ => keeps_restoreBytes) _).bind fun _ => ?_
  refine KeepsP.ite ?_ ?_
  · exact keeps_restoreBytes.bind fun _ => (keeps_modify (fun _ hu => memOk_poke hu)).bind fun _ => keeps_restoreSpad.bind fun _ =>
      keeps_restoreHold.bind fun _ => keeps_get.bind fun _ _ => keeps_modify (fun _ hu2 => memOk_noteStall (memOk_l1Acquire (memOk_rebind
      (memOk_modCore (memOk_setCtx hu2)))))
  · exact keeps_restoreSpad.bind fun _ => keeps_restoreHold.bind fun _ => keeps_get.bind fun _ _ => keeps_modify (fun _ hu4 =>
      memOk_noteStall (memOk_l1Acquire (memOk_rebind (memOk_modCore (memOk_setCtx hu4)))))

end Sys2Proof.Machine
end

section
set_option Elab.async false
/-! Steps keep both memories canonical: firings, the system heads and results. -/
namespace Sys2Proof.Machine

/-! ### Sweeps on a core (R141, R143, R145, R488) -/

theorem memOk_enumShare {core n : Nat} {s : State} (hs : s.memOk) : (enumShare core n s).memOk := by
  induction n generalizing s with
  | zero => exact hs
  | succ n ih =>
    unfold enumShare
    split
    · exact hs
    · split
      · exact hs
      · exact memOk_ite hs (memOk_ite (memOk_shareReport (memOk_modCore hs)) (memOk_ite hs (ih (memOk_modCore hs))))
theorem memOk_writeTagged {pa n x t : Nat} {s : State} (hs : s.memOk) : (writeTagged pa n x t s).memOk := by
  induction n generalizing pa x t s with
  | zero => exact hs
  | succ n ih => exact ih (memOk_memWrite hs)
theorem memOk_writeLaunch {core : Nat} {w : Sweep} {s : State} (hs : s.memOk) : (writeLaunch core w s).memOk := by
  unfold writeLaunch
  generalize 216 = n
  refine memOk_modCore (memOk_writeTagged (memOk_foldl (fun _ _ hu => ?_) (memOk_writeTagged (memOk_writeTagged hs))))
  exact memOk_writeTagged hu
theorem memOk_failShare {core : Nat} {w : Sweep} {s : State} (hs : s.memOk) : (failShare core w s).memOk :=
  memOk_modFe (memOk_modCore (memOk_supRecord hs))
theorem memOk_wakeHeld {core : Nat} {w : Sweep} {va : Nat} {s : State} (hs : s.memOk) : (wakeHeld core w va s).2.memOk := by
  unfold wakeHeld
  refine memOk_snd_ite hs ?_
  split
  · exact hs
  · dsimp only
    split
    · split
      · rename_i heq
        exact memOk_snd (memOk_feRemote hs) heq
      · rename_i heq
        exact memOk_snd (memOk_feRemote hs) heq
      · rename_i heq
        exact memOk_feUsed (memOk_snd (memOk_feRemote hs) heq)
    · refine memOk_snd_foldl (fun _ _ hu => ?_) hs
      split
      · exact memOk_suspendAs hu
      · exact memOk_unsuspend hu
      · exact memOk_unsuspend hu
theorem memOk_acceptWake {core : Nat} {s : State} (hs : s.memOk) : (acceptWake core s).memOk := by
  unfold acceptWake
  dsimp only
  split
  · exact hs
  · refine memOk_ite hs ?_
    split
    · exact memOk_modCore hs
    · refine memOk_ite (memOk_wakeHeld hs) ?_
      refine memOk_ite (memOk_failShare (memOk_wakeHeld hs)) ?_
      split
      · rename_i heq
        exact memOk_failShare (memOk_snd (memOk_readActor (memOk_wakeHeld hs)) heq)
      · rename_i heq
        exact memOk_openFault (memOk_snd (memOk_readActor (memOk_wakeHeld hs)) heq)
      · rename_i heq
        exact memOk_failShare (memOk_snd (memOk_readActor (memOk_wakeHeld hs)) heq)
      · rename_i heq
        exact memOk_enumShare (memOk_modCore (memOk_writeLaunch (memOk_snd (memOk_readActor (memOk_wakeHeld hs)) heq)))
theorem okStep_execSweepWakeAccept {core : Nat} {s : State} (hs : s.memOk) : OkStep (execSweepWakeAccept core s) := memOk_acceptWake hs
theorem okStep_execSweepSignal {sweep : Nat} {s : State} (hs : s.memOk) : OkStep (execSweepSignal sweep s) := by
  unfold execSweepSignal
  split
  · exact hs
  · exact memOk_ite hs (memOk_completePacket (memOk_modGrp (memOk_modFe hs)))

/-! ### The inbound queue and the spill ring (R152 to R154) -/

theorem memOk_refill {core n : Nat} {s : State} (hs : s.memOk) : (refill core n s).memOk := by
  induction n generalizing s with
  | zero => exact hs
  | succ n ih => exact memOk_ite hs (memOk_ite hs (ih (memOk_setCore hs)))
theorem okOpt_enqueueMsg {core : Nat} {m : Msg} {s : State} (hs : s.memOk) : OkOpt (enqueueMsg core m s) :=
  OkOpt.ite (memOk_setCore hs) (OkOpt.ite trivial (OkOpt.ite trivial (memOk_setCore (memOk_memWrite hs))))
theorem memOk_netTake {idx : Nat} {s : State} (hs : s.memOk) : (netTake idx s).memOk := memOk_mk hs
theorem memOk_undeliverable {core : Nat} {m : Msg} {s : State} (hs : s.memOk) : (undeliverable core m s).memOk := by
  unfold undeliverable
  dsimp only
  split
  · exact memOk_refusePkt hs
  · exact memOk_postNet hs
theorem memOk_msgLeaves {idx : Nat} {s : State} (hs : s.memOk) : (msgLeaves idx s).memOk := by
  unfold msgLeaves
  split
  · exact memOk_ite hs (memOk_mk hs)
  · exact hs
theorem okStep_execMessageArrival {idx : Nat} {s : State} (hs : s.memOk) : OkStep (execMessageArrival idx s) := by
  unfold execMessageArrival
  split
  · refine memOk_ite ?_ ?_
    · split
      · exact memOk_refusePkt (memOk_netTake hs)
      · exact hs
    · refine memOk_ite (memOk_undeliverable (memOk_netTake hs)) ?_
      split
      · exact hs
      · rename_i heq
        dsimp only
        split
        · exact memOk_markPerformed (memOk_netTake (OkOpt.get (okOpt_enqueueMsg hs) heq))
        · exact memOk_netTake (OkOpt.get (okOpt_enqueueMsg hs) heq)
  · exact hs

/-! ### Undeliverable returns (R157, R300, R414) -/

theorem okOpt_quietRecord {core asid fcode : Nat} {ring : Cap} {target : W64} {line : Nat} {s : State} (hs : s.memOk) :
    OkOpt (quietRecord core asid fcode ring target line s) := by
  unfold quietRecord
  dsimp only
  split
  · rename_i heq
    exact memOk_supRecord (memOk_snd (memOk_engineWalk (memOk_modCore hs)) heq)
  · rename_i heq
    split
    · exact memOk_ite (memOk_sendSeq (memOk_snd (memOk_engineWalk (memOk_modCore hs)) heq)) (memOk_supRecord (memOk_snd (memOk_engineWalk
        (memOk_modCore hs)) heq))
    · split
      · exact memOk_supRecord (memOk_snd (memOk_engineWalk (memOk_modCore hs)) heq)
      · exact trivial
      · exact memOk_foldl (fun _ _ hu => memOk_homeWrite hu) (memOk_snd (memOk_engineWalk (memOk_modCore hs)) heq)
theorem memOk_endWait {c : Nat} {s : State} (hs : s.memOk) : (endWait c s).memOk :=
  memOk_ite hs (memOk_ite hs (memOk_modCtx (memOk_modMs (memOk_modStrip (memOk_withdrawDom (memOk_withdrawBar hs))))))
theorem memOk_returnTo {sender : Nat} {target : W64} {asid : Nat} {s : State} (hs : s.memOk) : (returnTo sender target asid s).memOk :=
  memOk_ite (memOk_endWait (memOk_modFir hs)) (memOk_ite (memOk_modCore hs) (memOk_supRecord hs))
theorem okStep_execUndeliverableReturn {idx : Nat} {s : State} (hs : s.memOk) : OkStep (execUndeliverableReturn idx s) := by
  unfold execUndeliverableReturn
  split
  · dsimp only
    split
    · exact memOk_completePacket (memOk_netTake hs)
    · exact OkOpt.getD (okOpt_quietRecord (memOk_netTake hs)) hs
    · exact memOk_ite (memOk_modCopy (memOk_netTake hs)) (memOk_returnTo (memOk_netTake hs))
  · exact hs

/-! ### FIFOs (R147 to R150, R416) -/

theorem okStep_execFifoFire {core binding : Nat} {s : State} (hs : s.memOk) : OkStep (execFifoFire core binding s) :=
  memOk_ite (memOk_modCore hs) hs
theorem memOk_notePusher {core : Nat} {owner : Nat × Nat} {s t : State} (ht : t.memOk) : (notePusher core owner s t).memOk :=
  memOk_foldl (fun _ _ hu => memOk_ite (memOk_modCore hu) hu) ht
theorem okStep_execFifoEntryArrival {idx : Nat} {s : State} (hs : s.memOk) : OkStep (execFifoEntryArrival idx s) := by
  unfold execFifoEntryArrival
  split
  · exact memOk_ite (memOk_supRecord (memOk_postNet (memOk_netTake hs))) (memOk_notePusher (memOk_setFifo (memOk_memWrite (memOk_netTake
      hs))))
  · exact hs
theorem okStep_execCreditReturn {idx : Nat} {s : State} (hs : s.memOk) : OkStep (execCreditReturn idx s) := by
  unfold execCreditReturn
  split
  · dsimp only
    split
    · exact memOk_setCred (memOk_netTake hs)
    · exact memOk_netTake hs
  · exact hs
theorem okStep_execFifoTableWrite {core entry : Nat} {v : BitVec 128} {s : State} (hs : s.memOk) :
    OkStep (execFifoTableWrite core entry v s) :=
  memOk_ite (memOk_setFifo hs) hs
theorem okStep_execBindingWrite {core entry : Nat} {v : BitVec 128} {s : State} (hs : s.memOk) :
    OkStep (execBindingWrite core entry v s) :=
  memOk_ite (memOk_bindWritten hs) hs

/-! ### The firing queue (R134, R158 to R161) -/

theorem okStep_execFiringPlace {core : Nat} {s : State} (hs : s.memOk) : OkStep (execFiringPlace core s) := by
  unfold execFiringPlace
  refine memOk_ite hs ?_
  dsimp only
  split
  · exact memOk_ite (memOk_refill (memOk_placeMsg (memOk_refill hs))) (memOk_enumShare (memOk_placeQueued (memOk_refill (memOk_placeMsg
      (memOk_refill hs)))))
  · exact memOk_enumShare (memOk_refill (memOk_placeMsg (memOk_refill hs)))
theorem okStep_execPriorityAgeing {core idx : Nat} {s : State} (hs : s.memOk) : OkStep (execPriorityAgeing core idx s) := by
  unfold execPriorityAgeing
  split
  · exact memOk_ite (memOk_modCore hs) hs
  · exact hs
theorem okStep_execGrowstall {core : Nat} {s : State} (hs : s.memOk) : OkStep (execGrowstall core s) :=
  memOk_ite (memOk_supRecord (memOk_modCore hs)) hs
theorem okStep_execSlotLimitExpiry {core : Nat} {s : State} (hs : s.memOk) : OkStep (execSlotLimitExpiry core s) := by
  unfold execSlotLimitExpiry
  dsimp only
  split
  · exact memOk_ite (memOk_markerPark hs) hs
  · exact hs

/-! ### Pre-emption and restore (R166 to R168, R306 to R308) -/

theorem memOk_preempt {c : Nat} {s : State} (hs : s.memOk) : (preempt c s).memOk := by
  unfold preempt
  split
  · exact memOk_ite (memOk_tryStop (memOk_askSave hs)) hs
  · exact memOk_ite (memOk_tryStop hs) (memOk_ite (memOk_writeImage hs) hs)
theorem okStep_execPreempt {cid : Nat} {s : State} (hs : s.memOk) : OkStep (execPreempt cid s) := memOk_preempt hs
theorem memOk_completeSave {v : Saved} {s : State} (hs : s.memOk) : (completeSave v s).memOk :=
  memOk_wakeReleases (memOk_answerSave (memOk_ite (memOk_returnChunks (memOk_freeCtx (memOk_modSaved hs))) (memOk_modCore
    (memOk_returnChunks (memOk_freeCtx (memOk_modSaved hs))))))
theorem okStep_execSaveComplete {cid : Nat} {s : State} (hs : s.memOk) : OkStep (execSaveComplete cid s) := by
  unfold execSaveComplete
  split
  · exact memOk_ite (memOk_completeSave hs) hs
  · exact hs
theorem memOk_restoreHead {core : Nat} {q : QFiring} {s : State} (hs : s.memOk) : (restoreHead core q s).memOk := by
  unfold restoreHead
  split
  · exact hs
  · refine memOk_ite hs ?_
    refine memOk_ite (memOk_ite hs (memOk_pairless (memOk_modCore hs))) ?_
    split
    · rename_i heq
      exact memOk_saveStop (KeepsP.error keeps_readImage hs heq)
    · rename_i heq
      split
      · exact memOk_openPair (KeepsP.ok_memOk keeps_readImage hs heq)
      · exact KeepsP.ok_memOk keeps_readImage hs heq
theorem okStep_execRestore {core : Nat} {s : State} (hs : s.memOk) : OkStep (execRestore core s) := by
  unfold execRestore
  split
  · exact memOk_ite (memOk_restoreHead hs) hs
  · exact hs

/-! ### Neighbour writes (R169, R176) -/

theorem memOk_returnWrite {core handle sender : Nat} {s : State} (hs : s.memOk) : (returnWrite core handle sender s).memOk :=
  memOk_postNet hs
theorem keeps_writeToImage {v : Saved} {isV : Bool} {reg : Nat} {cap : Cap} {vec : VReg} {sender : Nat} :
    Keeps (writeToImage v isV reg cap vec sender) :=
  keeps_restoreField.bind fun _ => KeepsP.ite ((keeps_forM (fun _ => keeps_saveField) _).bind fun _ => keeps_pure trivial) (KeepsP.ite
    ((keeps_forM (fun _ => keeps_saveField) _).bind fun _ => keeps_pure trivial) (keeps_pure trivial))
theorem memOk_placedWrite {c : Nat} {isV : Bool} {reg : Nat} {cap : Cap} {vec : VReg} {handle sender : Nat} {s : State} (hs : s.memOk) :
    (placedWrite c isV reg cap vec handle sender s).memOk :=
  memOk_ite (memOk_returnWrite hs) (memOk_ite (memOk_modCtx (memOk_modBoth (memOk_modGrp hs))) (memOk_ite (memOk_returnWrite hs)
    (memOk_modCtx (memOk_modGrp hs))))
theorem okStep_execNeighbourWriteArrival {idx : Nat} {s : State} (hs : s.memOk) : OkStep (execNeighbourWriteArrival idx s) := by
  unfold execNeighbourWriteArrival
  split
  · refine memOk_ite (memOk_returnWrite (memOk_netTake hs)) ?_
    split
    · refine memOk_ite (memOk_ite hs (memOk_placedWrite (memOk_netTake hs))) ?_
      refine memOk_ite hs ?_
      refine memOk_ite (memOk_returnWrite (memOk_netTake hs)) ?_
      split
      · rename_i heq
        exact KeepsP.ok_memOk keeps_writeToImage (memOk_netTake hs) heq
      · rename_i heq
        exact memOk_returnWrite (KeepsP.ok_memOk keeps_writeToImage (memOk_netTake hs) heq)
      · rename_i heq
        exact memOk_saveFail (KeepsP.error keeps_writeToImage (memOk_netTake hs) heq)
      · rename_i heq
        exact memOk_saveStop (memOk_mk (KeepsP.error keeps_writeToImage (memOk_netTake hs) heq))
    · exact memOk_ite (memOk_placedWrite (memOk_netTake hs)) (memOk_returnWrite (memOk_netTake hs))
  · exact hs

/-! ### Control registers (R343 to R345) -/

theorem keeps_crCheck {s : State} {n : Nat} {write : Bool} : Keeps (crCheck s n write) :=
  KeepsP.ite (KeepsP.ite keeps_illegal_bind keeps_ensure) (KeepsP.ite keeps_illegal_bind (keeps_ensure.bind fun _ => keeps_ensure))
theorem okStep_execMfc {h : Head} {s : State} (hs : s.memOk) : OkStep (execMfc h s) := by
  unfold execMfc
  refine OkStep.ite trivial ?_
  refine okStep_runHead ?_ hs
  refine keeps_get.bind fun _ _ => ?_
  refine KeepsP.ite ?_ ?_
  · dsimp only
    split
    · exact keeps_setInt.bind fun _ => keeps_pure trivial
    · exact keeps_illegal_bind
  · exact keeps_crCheck.bind fun _ => KeepsP.ite keeps_throw_bind (KeepsP.ite (keeps_setG.bind fun _ => keeps_pure trivial) (KeepsP.ite
      (keeps_lateInt.bind fun _ => keeps_pure trivial) (keeps_setInt.bind fun _ => keeps_pure trivial)))
theorem memOk_tblWrite {v : W64} {s : State} (hs : s.memOk) : (tblWrite v s).memOk := memOk_ite (memOk_modRegs hs) (memOk_modRegs hs)
theorem memOk_crWrite {n : Nat} {v : W64} {s : State} (hs : s.memOk) : (crWrite n v s).memOk := by
  unfold crWrite
  dsimp only
  split
  · exact memOk_modHere hs
  · exact memOk_modHere hs
  · exact memOk_modHere hs
  · exact memOk_modHere hs
  · exact memOk_modHere hs
  · exact memOk_modHere hs
  · exact memOk_modHere hs
  · exact memOk_modHere hs
  · exact memOk_modHere hs
  · exact memOk_modHere hs
  · exact memOk_modRegs hs
  · exact memOk_modCore hs
  · exact memOk_modCore hs
  · exact memOk_modStrip hs
  · exact memOk_modRegs hs
  · exact memOk_modRegs hs
  · exact memOk_modRegs hs
  · exact memOk_modRegs hs
  · exact memOk_modRegs hs
  · exact memOk_modRegs hs
  · exact memOk_modRegs hs
  · exact memOk_modHere hs
  · exact memOk_tblWrite hs
  · exact memOk_ite (memOk_modHere hs) hs
theorem memOk_crWriteCap {n : Nat} {c : Cap} {s : State} (hs : s.memOk) : (crWriteCap n c s).memOk := by
  unfold crWriteCap
  split
  · exact memOk_modHere hs
  · exact memOk_modHere hs
  · exact memOk_modHere hs
  · exact memOk_modCore hs
  · exact memOk_modCore hs
theorem okStep_execMtc {h : Head} {s : State} (hs : s.memOk) : OkStep (execMtc h s) := by
  unfold execMtc
  exact OkStep.ite trivial (okStep_runHead (keeps_get.bind fun _ _ => KeepsP.ite keeps_illegal_bind (keeps_crCheck.bind fun _ =>
    KeepsP.ite ((keeps_upd (fun _ hu1 => memOk_crWriteCap hu1)).bind fun _ => keeps_pure trivial) (keeps_ensure.bind fun _ => KeepsP.ite
    keeps_throw_bind (KeepsP.checked keeps_release (fun _ => (keeps_upd (fun _ hu2 => memOk_crWrite hu2)).bind fun _ => keeps_pure
    trivial))))) hs)

/-! ### Dealing lines in a lens (R191) -/

theorem memOk_dealLens {cid : Nat} {s : State} (hs : s.memOk) : (dealLens cid s).memOk :=
  memOk_ite hs (by split; exacts [hs, memOk_modGrp hs])

/-! ### The lens (R188 to R198, R464, R465) -/

theorem memOk_loseLens {l : Lens} {s : State} (hs : s.memOk) : (loseLens l s).memOk :=
  memOk_mk (memOk_trapAt (memOk_modCtx (memOk_mk (memOk_modGrp (memOk_foldl (fun _ _ hu => memOk_modCore hu) hs)))))
theorem memOk_claimLens {n : Nat} {s : State} (hs : s.memOk) : (claimLens n s).memOk :=
  memOk_foldl (fun _ _ hu => memOk_modCore hu) (memOk_modGrp (memOk_foldl (fun _ _ hu1 => memOk_loseLens hu1) hs))
theorem memOk_stopElems {l : Lens} {s : State} (hs : s.memOk) : (stopElems l s).memOk :=
  memOk_foldl (fun _ _ hu => memOk_tryStop (memOk_askSave hu)) (memOk_modGrp hs)
theorem okStep_execCompose {h : Head} {s : State} (hs : s.memOk) : OkStep (execCompose h s) := by
  unfold execCompose
  refine okStep_runHead ?_ hs
  refine keeps_get.bind fun _ _ => ?_
  refine keeps_answered.bind fun _ => ?_
  refine KeepsP.ite ?_ ?_
  · exact (keeps_upd (fun _ hu1 => memOk_modFir hu1)).bind fun _ => keeps_pure trivial
  · split
    · exact keeps_raise
    · exact (keeps_upd (fun _ hu2 => memOk_claimLens hu2)).bind fun _ => keeps_throw
theorem okStep_execLensStart {cid : Nat} {s : State} (hs : s.memOk) : OkStep (execLensStart cid s) := by
  unfold execLensStart
  split
  · exact memOk_ite hs (memOk_ite (memOk_stopElems hs) (memOk_ite hs (memOk_grant (memOk_modGrp hs))))
  · exact hs
theorem okStep_execLensBranchResolve {cid : Nat} {s : State} (hs : s.memOk) : OkStep (execLensBranchResolve cid s) :=
  memOk_dealLens (memOk_modGrp hs)
theorem okStep_execDecompose {h : Head} {s : State} (hs : s.memOk) : OkStep (execDecompose h s) :=
  okStep_runHead (keeps_get.bind fun _ _ => KeepsP.ite (keeps_pure trivial) (keeps_awaitResults.bind fun _ => KeepsP.ite keeps_throw_bind
    ((keeps_upd (fun _ hu1 => memOk_freeLens hu1)).bind fun _ => keeps_pure trivial))) hs

/-! ### Mirror pairs (R199 to R203, R466, R467) -/

theorem memOk_pairRecord {s : State} (hs : s.memOk) : (pairRecord s).memOk := memOk_ite (memOk_pairless hs) hs
theorem okStep_execPair {h : Head} {s : State} (hs : s.memOk) : OkStep (execPair h s) := by
  unfold execPair
  exact okStep_runHead (keeps_get.bind fun _ _ => KeepsP.ite (keeps_pure trivial) (keeps_answered.bind fun _ => KeepsP.ite ((keeps_upd
    (fun _ hu1 => memOk_modFir hu1)).bind fun _ => keeps_pure trivial) (KeepsP.ite keeps_illegal_bind (KeepsP.ite keeps_illegal_bind
    keeps_throw)))) (memOk_pairRecord hs)
theorem okStep_execPairStart {cid : Nat} {s : State} (hs : s.memOk) : OkStep (execPairStart cid s) := by
  unfold execPairStart
  refine memOk_ite ?_ hs
  split
  · exact memOk_grant (memOk_modFir (memOk_modGrp (memOk_openPair hs)))
  · exact hs
theorem okStep_execUnpair {h : Head} {s : State} (hs : s.memOk) : OkStep (execUnpair h s) :=
  okStep_runHead (keeps_get.bind fun _ _ => KeepsP.ite (keeps_pure trivial) (KeepsP.ite keeps_illegal_bind ((keeps_upd (fun _ hu1 =>
    memOk_freePair hu1)).bind fun _ => keeps_pure trivial))) hs

/-! ### Supervisor control of firings (R468 to R471) -/

theorem okStep_execCtxSave {h : Head} {s : State} (hs : s.memOk) : OkStep (execCtxSave h s) :=
  okStep_runHead (keeps_get.bind fun _ _ => KeepsP.ite (keeps_lateInt.bind fun _ => keeps_pure trivial) (keeps_addPend.bind fun _ =>
    (keeps_upd (fun _ hu1 => memOk_tryStop (memOk_askSave hu1))).bind fun _ => keeps_pure trivial)) hs
theorem okStep_execCtxLoad {h : Head} {s : State} (hs : s.memOk) : OkStep (execCtxLoad h s) := by
  unfold execCtxLoad
  refine okStep_runHead ?_ hs
  refine keeps_get.bind fun _ _ => ?_
  dsimp only
  split
  · exact KeepsP.ite (keeps_lateInt.bind fun _ => keeps_pure trivial) (KeepsP.ite (keeps_lateInt.bind fun _ => keeps_pure trivial)
      ((keeps_upd (fun _ hu1 => memOk_modCore hu1)).bind fun _ => (keeps_upd (fun _ hu2 => memOk_modSaved hu2)).bind fun _ =>
      keeps_lateInt.bind fun _ => keeps_pure trivial))
  · exact keeps_lateInt.bind fun _ => keeps_pure trivial
theorem memOk_dropRecord {n asid : Nat} {s : State} (hs : s.memOk) : (dropRecord n asid s).memOk := memOk_supRecord hs
theorem okStep_execCtxDrop {h : Head} {s : State} (hs : s.memOk) : OkStep (execCtxDrop h s) := by
  unfold execCtxDrop
  refine okStep_runHead ?_ hs
  refine keeps_get.bind fun _ _ => ?_
  refine KeepsP.ite (keeps_lateInt.bind fun _ => keeps_pure trivial) ?_
  split
  · exact KeepsP.join (keeps_upd (fun _ hu1 => memOk_abortPlaced hu1)) (keeps_upd (fun _ hu2 => memOk_abortSaved hu2)) (fun _ =>
      (keeps_upd (fun _ hu3 => memOk_dropRecord hu3)).bind fun _ => keeps_lateInt.bind fun _ => keeps_pure trivial)
  · exact (keeps_upd (fun _ hu4 => memOk_dropRecord (memOk_abortPlaced hu4))).bind fun _ => KeepsP.ite (keeps_pure trivial)
      (keeps_lateInt.bind fun _ => keeps_pure trivial)

/-! ### TLBINV (R294, R472) -/

theorem memOk_tlbDrop {p : TlbEntry → Bool} {s : State} (hs : s.memOk) : (tlbDrop p s).memOk := memOk_modTr hs
theorem okStep_tlbinvHead {r : Row} {h : Head} {f : State → TlbEntry → Bool} {asid : State → Nat} {s : State} (hs : s.memOk) :
    OkStep (tlbinvHead r h f asid s) :=
  okStep_runHead (keeps_get.bind fun _ _ => KeepsP.ite keeps_illegal_bind (keeps_release.bind fun _ => (keeps_upd (fun _ hu1 =>
    memOk_tlbDrop hu1)).bind fun _ => keeps_addPend.bind fun _ => keeps_pure trivial)) hs
theorem okStep_execTlbinvVa {h : Head} {s : State} (hs : s.memOk) : OkStep (execTlbinvVa h s) := okStep_tlbinvHead hs
theorem okStep_execTlbinvAsid {h : Head} {s : State} (hs : s.memOk) : OkStep (execTlbinvAsid h s) := okStep_tlbinvHead hs
theorem okStep_execTlbinvAll {h : Head} {s : State} (hs : s.memOk) : OkStep (execTlbinvAll h s) := okStep_tlbinvHead hs

/-! ### Outstanding results (R174, R392) -/

theorem memOk_performPieces {cid : Nat} {older : List Pend} {ps : List Piece} {s : State} (hs : s.memOk) : (performPieces cid older ps
    s).2.memOk := by
  induction ps generalizing s with
  | nil => exact hs
  | cons x xs ih =>
    unfold performPieces
    refine ih ?_
    refine memOk_snd_ite hs ?_
    split
    · rename_i heq
      exact memOk_snd (memOk_performRead hs) heq
    · rename_i heq
      exact memOk_snd (memOk_performRead hs) heq
    · rename_i heq
      exact memOk_snd (memOk_performRead hs) heq
theorem memOk_deliverG {c r : Nat} {v : Cap} {bad : Option Nat} {s : State} (hs : s.memOk) : (deliverG c r v bad s).memOk :=
  memOk_modCtx hs
theorem memOk_deliverV {c r n : Nat} {f : Nat → VReg} {bad : Option Nat} {s : State} (hs : s.memOk) : (deliverV c r n f bad s).memOk :=
  memOk_foldl (fun _ _ hu => memOk_modCtx hu) hs
theorem memOk_deliverRows {c slot rank nsc : Nat} {ps : List Piece} {s : State} (hs : s.memOk) :
    (deliverRows c slot rank nsc ps s).memOk :=
  memOk_ite (memOk_foldl (fun _ _ hu => memOk_modStrip hu) (memOk_snd_foldl (fun _ _ hu1 => memOk_modStrip hu1) hs)) (memOk_modStrip
    (memOk_foldl (fun _ _ hu2 => memOk_modStrip hu2) (memOk_snd_foldl (fun _ _ hu3 => memOk_modStrip hu3) hs)))
theorem memOk_deliverBank {pa : Nat} {ps : List Piece} {s : State} (hs : s.memOk) : (deliverBank pa ps s).memOk :=
  memOk_snd_foldl (fun _ _ hu => memOk_snd_ite (memOk_foldl (fun _ _ hu1 => memOk_poke (memOk_freshByte hu1)) hu) (memOk_poke hu)) hs
theorem memOk_deliver {c : Nat} {p : Pend} {s : State} (hs : s.memOk) : (deliver c p s).memOk := by
  unfold deliver
  dsimp only
  split
  · exact hs
  · exact memOk_deliverG hs
  · exact memOk_ite (memOk_deliverV hs) (memOk_modCtx (memOk_deliverV hs))
  · exact memOk_ite (memOk_deliverV hs) (memOk_modCtx (memOk_deliverV hs))
  · exact memOk_deliverBank hs
  · exact memOk_deliverRows hs
theorem memOk_deliverBoth {c : Nat} {p : Pend} {s : State} (hs : s.memOk) : (deliverBoth c p s).memOk := by
  unfold deliverBoth
  split
  · exact memOk_deliver hs
  · exact memOk_modGrp (memOk_deliver (memOk_deliver hs))
theorem memOk_performRmw {cid : Nat} {p : Pend} {s : State} (hs : s.memOk) : (performRmw cid p s).2.memOk := by
  unfold performRmw
  split
  · dsimp only
    split
    · rename_i heq
      exact memOk_mk (memOk_modCtx (KeepsP.error keeps_performAt (memOk_mk (memOk_modCtx hs)) heq))
    · rename_i heq
      split
      · exact memOk_mk (memOk_modCtx (KeepsP.ok_memOk keeps_performAt (memOk_mk (memOk_modCtx hs)) heq))
      · exact memOk_snd_ite (memOk_postedFail (memOk_mk (memOk_modCtx (KeepsP.ok_memOk keeps_performAt (memOk_mk (memOk_modCtx hs))
          heq)))) (memOk_mk (memOk_modCtx (KeepsP.ok_memOk keeps_performAt (memOk_mk (memOk_modCtx hs)) heq)))
      · exact memOk_mk (memOk_modCtx (KeepsP.ok_memOk keeps_performAt (memOk_mk (memOk_modCtx hs)) heq))
  · exact hs
theorem okStep_execResultArrival {cid idx : Nat} {s : State} (hs : s.memOk) : OkStep (execResultArrival cid idx s) := by
  unfold execResultArrival
  split
  · exact hs
  · exact memOk_ite (memOk_wakeReleases (memOk_resultWakes (memOk_modCtx (memOk_deliverBoth (memOk_modCtx (memOk_performPieces
      (memOk_performRmw hs))))))) (memOk_modCtx (memOk_performPieces (memOk_performRmw hs)))

/-! ### Walks (R290 to R293) -/

theorem memOk_tlbInstall {unit asid va size pa : Nat} {attr : W64} {s : State} (hs : s.memOk) :
    (tlbInstall unit asid va size pa attr s).memOk :=
  memOk_modTr hs
theorem okStep_execTlbWalkComplete {idx : Nat} {s : State} (hs : s.memOk) : OkStep (execTlbWalkComplete idx s) := by
  unfold execTlbWalkComplete
  split
  · exact hs
  · refine memOk_ite hs ?_
    split
    · exact memOk_foldl (fun _ _ hu => memOk_tlbInstall hu) (memOk_modTr (memOk_setAD hs))
    · exact memOk_mk (memOk_modTr hs)

/-! ### Stores (R175, R211, R212, R217, R218) -/

theorem memOk_postNotice {unit blk : Nat} {s : State} (hs : s.memOk) : (postNotice unit blk s).memOk := memOk_ite hs (memOk_postNet hs)
theorem memOk_sendStore {d off : Nat} {e : SbEntry} {id : Nat} {s : State} (hs : s.memOk) : (sendStore d off e id s).memOk :=
  memOk_ite (memOk_sendSeq (memOk_notePush hs)) (memOk_sendSeq (memOk_notePush hs))
theorem okStoreRes_performStore {unit : Nat} {e : SbEntry} {s : State} (hs : s.memOk) : OkStoreRes (performStore unit e s) := by
  unfold performStore
  split
  · exact memOk_postedFail (memOk_unsuspend hs)
  · exact memOk_suspend hs
  · dsimp only
    split
    · exact OkStoreRes.ite (memOk_postNotice hs) (memOk_withHome (fun _ hu => memOk_homeWrite hu) (memOk_unsuspend (memOk_ite hs
        (memOk_noteLaunch hs))))
    · exact memOk_withHome (fun _ hu1 => memOk_homeWrite hu1) (memOk_unsuspend (memOk_ite hs (memOk_noteLaunch hs)))
theorem okStoreRes_performMode {unit : Nat} {e : SbEntry} {s : State} (hs : s.memOk) : OkStoreRes (performMode unit e s) := by
  unfold performMode
  refine OkStoreRes.ite ?_ ?_
  · refine OkStoreRes.ite hs ?_
    split
    · exact memOk_postedFail (memOk_unsuspend hs)
    · exact memOk_suspend hs
    · exact memOk_postNet (memOk_unsuspend hs)
  · split
    · rename_i heq
      exact OkStoreRes.wait (okStoreRes_performStore hs) heq
    · rename_i heq
      exact OkStoreRes.ite (OkStoreRes.done (okStoreRes_performStore hs) heq) (memOk_foldl (fun _ _ hu => memOk_postNet hu)
        (OkStoreRes.done (okStoreRes_performStore hs) heq))
theorem memOk_wakeStreams {s : State} (hs : s.memOk) : (wakeStreams s).memOk := memOk_wakeIf hs
theorem memOk_freeStore {core idx : Nat} {s : State} (hs : s.memOk) : (freeStore core idx s).memOk :=
  memOk_wakeStreams (memOk_wakeReleases (memOk_foldl (fun _ _ hu => memOk_pumpUnit hu) (memOk_modCore hs)))
theorem okStep_execStoreAck {core idx : Nat} {s : State} (hs : s.memOk) : OkStep (execStoreAck core idx s) := by
  unfold execStoreAck
  split
  · exact hs
  · refine memOk_ite hs ?_
    split
    · refine memOk_ite ?_ ?_
      · split
        · rename_i heq
          exact memOk_freeStore (memOk_l1Store (OkStoreRes.done (okStoreRes_performMode hs) heq))
        · rename_i heq
          exact OkStoreRes.wait (okStoreRes_performMode hs) heq
      · exact memOk_ite (memOk_ite hs (memOk_freeStore hs)) (memOk_ite (memOk_freeStore (memOk_postedFail hs)) (memOk_modCore
          (memOk_modCtx (memOk_sendStore hs))))
    · split
      · rename_i heq
        exact memOk_freeStore (memOk_ite (OkStoreRes.done (okStoreRes_performMode hs) heq) (memOk_l1Store (OkStoreRes.done
          (okStoreRes_performMode hs) heq)))
      · rename_i heq
        exact OkStoreRes.wait (okStoreRes_performMode hs) heq
theorem memOk_freeSau {strip idx : Nat} {s : State} (hs : s.memOk) : (freeSau strip idx s).memOk := memOk_wakeReleases (memOk_modStrip hs)
theorem okStep_execStripAtomicAck {strip idx : Nat} {s : State} (hs : s.memOk) : OkStep (execStripAtomicAck strip idx s) := by
  unfold execStripAtomicAck
  dsimp only
  split
  · exact hs
  · refine memOk_ite hs ?_
    split
    · rename_i heq
      exact memOk_freeSau (OkStoreRes.done (okStoreRes_performMode hs) heq)
    · rename_i heq
      exact OkStoreRes.wait (okStoreRes_performMode hs) heq
theorem okStep_execOwnershipNotice {idx : Nat} {s : State} (hs : s.memOk) : OkStep (execOwnershipNotice idx s) := by
  unfold execOwnershipNotice
  split
  · exact memOk_modMs (memOk_dropOwned (memOk_netTake hs))
  · exact hs
theorem okStep_execReplicaForward {idx : Nat} {s : State} (hs : s.memOk) : OkStep (execReplicaForward idx s) := by
  unfold execReplicaForward
  split
  · exact memOk_wakeReleases (memOk_memWrite (memOk_netTake hs))
  · exact hs
theorem okStep_execReplicaMarkAck {idx : Nat} {s : State} (hs : s.memOk) : OkStep (execReplicaMarkAck idx s) := by
  unfold execReplicaMarkAck
  split
  · refine memOk_ite ?_ ?_
    · split
      · exact memOk_freeStore (memOk_l1Store (memOk_wakeTags (memOk_foldl (fun _ _ hu => memOk_withHome (fun _ hu1 => memOk_memWrite hu1)
          hu) (memOk_netTake hs))))
      · exact memOk_wakeTags (memOk_foldl (fun _ _ hu2 => memOk_withHome (fun _ hu3 => memOk_memWrite hu3) hu2) (memOk_netTake hs))
    · split
      · exact memOk_freeSau (memOk_wakeTags (memOk_foldl (fun _ _ hu4 => memOk_withHome (fun _ hu5 => memOk_memWrite hu5) hu4)
          (memOk_netTake hs)))
      · exact memOk_wakeTags (memOk_foldl (fun _ _ hu6 => memOk_withHome (fun _ hu7 => memOk_memWrite hu7) hu6) (memOk_netTake hs))
  · exact hs

/-! ### Streams, evictions and waiters -/

theorem okStep_execStreamPrefetch {core unit : Nat} {s : State} (hs : s.memOk) : OkStep (execStreamPrefetch core unit s) := by
  unfold execStreamPrefetch
  split
  · exact hs
  · refine memOk_ite hs ?_
    dsimp only
    split
    · rename_i heq
      exact memOk_mk (memOk_keepRequests hs)
    · rename_i heq
      split
      · exact hs
      · exact memOk_wakeStreams (memOk_setUnit (memOk_modCtx (memOk_mk (KeepsP.ok_memOk keeps_regRead (memOk_modCtx (memOk_mk hs)) heq))))
theorem okStep_execL2Eviction {line : Nat} {s : State} (hs : s.memOk) : OkStep (execL2Eviction line s) := by
  unfold execL2Eviction
  split
  · exact hs
  · exact memOk_ite hs (by split; exacts [memOk_postNotice hs, memOk_modMs (memOk_giveUpLine hs)])
theorem okStep_execGangWatchdog {strip : Nat} {s : State} (hs : s.memOk) : OkStep (execGangWatchdog strip s) :=
  memOk_ite (memOk_modStrip hs) (memOk_ite (memOk_supRecord (memOk_modStrip hs)) hs)
theorem okStep_execFeWaiterRetry {cid : Nat} {s : State} (hs : s.memOk) : OkStep (execFeWaiterRetry cid s) := by
  unfold execFeWaiterRetry
  dsimp only
  split
  · exact memOk_ite (memOk_modCtx hs) hs
  · exact hs

end Sys2Proof.Machine
end

section
set_option Elab.async false
/-! Steps keep both memories canonical: links, the packets of a queue and the queues. -/
namespace Sys2Proof.Machine

/-! ### The request that a reply answers -/

theorem memOk_modHeld {w seq : Nat} {f : HeldPkt → HeldPkt} {s : State} (hs : s.memOk) : (modHeld w seq f s).memOk := memOk_setWin hs
theorem memOk_windowFree {w : Nat} {moved : Bool} {s : State} (hs : s.memOk) : (windowFree w moved s).memOk :=
  memOk_wakeReleases (memOk_prbPump (memOk_portPump (memOk_windowPump (memOk_setWin hs))))
theorem memOk_answeredPkt {w seq : Nat} {s : State} (hs : s.memOk) : (answeredPkt w seq s).memOk := memOk_windowFree (memOk_modHeld hs)
theorem memOk_answerPiece {c id : Nat} {k : Hdr} {val : Piece → Nat} {bad : Option Nat} {s : State} (hs : s.memOk) :
    (answerPiece c id k val bad s).memOk :=
  memOk_modCtx hs
theorem memOk_answerFetch {c : Nat} {k : Hdr} {val : Nat → Nat → Nat} {bad : Option Nat} {s : State} (hs : s.memOk) :
    (answerFetch c k val bad s).memOk := by
  unfold answerFetch
  split
  · split
    · exact memOk_ite (memOk_modCtx hs) hs
    · exact hs
  · exact hs
theorem memOk_answerCopy {c blk : Nat} {ok : Bool} {x : Nat} {s : State} (hs : s.memOk) : (answerCopy c blk ok x s).memOk :=
  memOk_modCopy hs
theorem memOk_proxyReply {p ty dev off seq : Nat} {data : Option (BitVec 512)} {pz : Bool} {s : State} (hs : s.memOk) :
    (proxyReply p ty dev off seq data pz s).memOk := by
  unfold proxyReply
  dsimp only
  exact memOk_modPrism (memOk_pktReq hs)
theorem memOk_answerWith {h : HeldPkt} {off : Nat} {data : BitVec 512} {pz : Bool} {s : State} (hs : s.memOk) :
    (answerWith h off data pz s).memOk := by
  unfold answerWith
  dsimp only
  split
  · exact hs
  · exact memOk_ite (memOk_proxyReply hs) (memOk_ite (memOk_ite (memOk_feAnswer hs) (memOk_completePacket hs)) (memOk_ite
      (memOk_answerCopy hs) (memOk_ite (memOk_ite (memOk_ite hs (memOk_answerPiece hs)) (memOk_ite (memOk_answerFetch hs)
      (memOk_answerPiece hs))) (memOk_l1Acquire (memOk_ite (memOk_ite hs (memOk_answerPiece hs)) (memOk_ite (memOk_answerFetch hs)
      (memOk_answerPiece hs)))))))
theorem memOk_replyIn {tys : List Nat} {p : Packet} {k : Hdr} {s : State} (hs : s.memOk) : (replyIn tys p k s).memOk := by
  unfold replyIn
  dsimp only
  split
  · exact hs
  · exact memOk_ite (memOk_answeredPkt (memOk_answerWith hs)) hs

/-! ### Requests that fail (R47, R49) -/

theorem memOk_failPosted {c pa st : Nat} {s : State} (hs : s.memOk) : (failPosted c pa st s).memOk :=
  memOk_ite (memOk_supRecord (memOk_bbWrite hs)) (memOk_postedFail hs)
theorem memOk_failCopy {c blk pa st : Nat} {isRead isData : Bool} {s : State} (hs : s.memOk) :
    (failCopy c blk pa st isRead isData s).memOk := by
  unfold failCopy
  split
  · exact hs
  · exact memOk_ite (memOk_answerCopy hs) (memOk_ite (memOk_modCopy hs) (memOk_failPosted hs))
theorem memOk_failPkt {h : HeldPkt} {st : Nat} {s : State} (hs : s.memOk) : (failPkt h st s).memOk := by
  unfold failPkt
  dsimp only
  split
  · exact hs
  · exact memOk_ite (memOk_fwdRefused hs) (memOk_ite (memOk_ite (memOk_completePacket hs) (memOk_postNet hs)) (memOk_ite (memOk_failCopy
      hs) (memOk_ite (memOk_feAnswer hs) (memOk_ite (memOk_completePacket (memOk_failPosted hs)) (memOk_ite (memOk_ite (memOk_answerFetch
      hs) (memOk_answerPiece hs)) (memOk_ite (memOk_answerPiece hs) (memOk_failPosted hs)))))))
theorem memOk_syncLane {s : State} {w : Nat} (hs : s.memOk) : (syncLane s w).memOk := memOk_setWin (memOk_sendRaw hs)
theorem memOk_sendSync {ws : List Nat} {s : State} (hs : s.memOk) : (sendSync ws s).memOk :=
  memOk_foldl (fun _ _ hu => memOk_windowPump hu) (memOk_foldl (fun _ _ hu1 => memOk_syncLane hu1) hs)
theorem memOk_failWindow {w st : Nat} {all : Bool} {s : State} (hs : s.memOk) : (failWindow w st all s).memOk :=
  memOk_wakeReleases (memOk_prbPump (memOk_foldl (fun _ _ hu => memOk_failPkt hu) (memOk_setWin hs)))
theorem memOk_nakIn {k : Hdr} {s : State} (hs : s.memOk) : (nakIn k s).memOk := by
  unfold nakIn
  dsimp only
  split
  · exact hs
  · exact memOk_ite (memOk_sendSync (memOk_failWindow (memOk_failWindow hs))) (memOk_ite (memOk_ite (memOk_failPkt (memOk_answeredPkt hs))
      (memOk_modFab (memOk_answeredPkt hs))) (memOk_answeredPkt (memOk_failPkt hs)))
theorem okStep_execNakRetryResend {idx : Nat} {s : State} (hs : s.memOk) : OkStep (execNakRetryResend idx s) := by
  unfold execNakRetryResend
  split
  · exact hs
  · exact memOk_ite hs (memOk_windowPump (memOk_setWin (memOk_modFab hs)))

/-! ### Acknowledgements (R42) -/

theorem memOk_ackIn {k : Hdr} {s : State} (hs : s.memOk) : (ackIn k s).memOk := by
  unfold ackIn
  refine memOk_windowFree ?_
  refine memOk_foldl (fun _ _ hu => ?_) (memOk_setWin hs)
  dsimp only
  split
  · exact memOk_ite (memOk_proxyReply hu) (memOk_ite (memOk_completePacket hu) hu)
  · exact hu
theorem memOk_forgetPkts {w : Nat} {s : State} (hs : s.memOk) : (forgetPkts w s).memOk := memOk_modMs (memOk_modFab (memOk_mk hs))
theorem memOk_syncIn {k : Hdr} {s : State} (hs : s.memOk) : (syncIn k s).memOk :=
  memOk_setFilt (memOk_ite (memOk_forgetPkts hs) (memOk_modFab (memOk_forgetPkts hs)))
theorem memOk_rawIn {ty port : Nat} {p : Packet} {go : Hdr → State → State} {s : State} (hf3 : ∀ x0 x1, x1.memOk → (go x0 x1).memOk) (hs :
    s.memOk) :
    (rawIn ty port p go s).memOk :=
  memOk_ite hs (memOk_comesIn hf3 hs)
theorem okStep_execRdata {port : Nat} {p : Packet} {s : State} (hs : s.memOk) : OkStep (execRdata port p s) :=
  memOk_rawIn (fun _ _ hu => memOk_replyIn hu) hs
theorem okStep_execAres {port : Nat} {p : Packet} {s : State} (hs : s.memOk) : OkStep (execAres port p s) :=
  memOk_rawIn (fun _ _ hu => memOk_replyIn hu) hs
theorem okStep_execNak {port : Nat} {p : Packet} {s : State} (hs : s.memOk) : OkStep (execNak port p s) :=
  memOk_rawIn (fun _ _ hu => memOk_nakIn hu) hs
theorem okStep_execAck {port : Nat} {p : Packet} {s : State} (hs : s.memOk) : OkStep (execAck port p s) :=
  memOk_rawIn (fun _ _ hu => memOk_ite (memOk_ackIn hu) hu) hs
theorem okStep_execSync {port : Nat} {p : Packet} {s : State} (hs : s.memOk) : OkStep (execSync port p s) :=
  memOk_rawIn (fun _ _ hu => memOk_ite (memOk_syncIn hu) hu) hs

/-! ### Failover (R50, R51) -/

theorem memOk_setRoute {dest : Nat} {r : BitVec 32} {s : State} (hs : s.memOk) : (setRoute dest r s).memOk := memOk_modFab hs
theorem memOk_resendAll {dest w : Nat} {s : State} (hs : s.memOk) : (resendAll dest w s).memOk :=
  memOk_setWin (memOk_foldl (fun _ _ hu => memOk_sendHeld hu) hs)
theorem memOk_noteDown {dest : Nat} {s : State} (hs : s.memOk) : (noteDown dest s).memOk := memOk_ite hs (memOk_setWin (memOk_setWin hs))
theorem memOk_failover {dest : Nat} {s : State} (hs : s.memOk) : (failover dest s).memOk := by
  unfold failover
  split
  · exact hs
  · exact memOk_noteDown (memOk_resendAll (memOk_resendAll (memOk_setRoute (memOk_modFab hs))))
theorem okStep_execTackExpiry {dest lane : Nat} {s : State} (hs : s.memOk) : OkStep (execTackExpiry dest lane s) :=
  memOk_ite (memOk_failover hs) hs
theorem okStep_execUnreachableTimeout {dest : Nat} {s : State} (hs : s.memOk) : OkStep (execUnreachableTimeout dest s) := by
  unfold execUnreachableTimeout
  refine memOk_ite hs ?_
  split
  · exact hs
  · exact memOk_ite hs (memOk_ite (memOk_vecEvent (memOk_portRecord (memOk_setWin (memOk_setWin (memOk_failWindow (memOk_failWindow
      (memOk_foldl (fun _ _ hu => memOk_failPkt hu) (memOk_modFab hs)))))))) (memOk_setWin (memOk_setWin (memOk_failWindow
      (memOk_failWindow (memOk_foldl (fun _ _ hu1 => memOk_failPkt hu1) (memOk_modFab hs)))))))
theorem memOk_routeBack {dest : Nat} {s : State} (hs : s.memOk) : (routeBack dest s).memOk := by
  unfold routeBack
  exact memOk_ite (memOk_ite (memOk_ite hs (memOk_ite (memOk_windowPump (memOk_resendAll (memOk_setWin hs))) (memOk_setWin hs)))
    (memOk_ite (memOk_windowPump (memOk_resendAll (memOk_setWin (memOk_ite hs (memOk_ite (memOk_windowPump (memOk_resendAll (memOk_setWin
    hs))) (memOk_setWin hs)))))) (memOk_setWin (memOk_ite hs (memOk_ite (memOk_windowPump (memOk_resendAll (memOk_setWin hs)))
    (memOk_setWin hs)))))) hs
theorem okStep_execResyncHoldExpiry {dest : Nat} {s : State} (hs : s.memOk) : OkStep (execResyncHoldExpiry dest s) := memOk_sendSync hs
theorem okStep_execPathCheck {dest cand : Nat} {ok : Bool} {s : State} (hs : s.memOk) : OkStep (execPathCheck dest cand ok s) :=
  memOk_ite (memOk_routeBack (memOk_setRoute hs)) hs
theorem okStep_execPostResetSync {dest : Nat} {s : State} (hs : s.memOk) : OkStep (execPostResetSync dest s) :=
  memOk_ite (memOk_sendSync hs) hs
theorem okStep_execAckTimer {src lane : Nat} {s : State} (hs : s.memOk) : OkStep (execAckTimer src lane s) :=
  memOk_ite (memOk_sendAck (memOk_filterPump hs)) (memOk_filterPump hs)

/-! ### Links (R33, R60) -/

theorem memOk_routeLost {port : Nat} {s : State} {dest : Nat} (hs : s.memOk) : (routeLost port s dest).memOk :=
  memOk_ite hs (memOk_ite (memOk_failover (memOk_setRoute hs)) (memOk_setRoute hs))
theorem memOk_linkDown {port : Nat} {s : State} (hs : s.memOk) : (linkDown port s).memOk :=
  memOk_ite hs (memOk_foldl (fun _ _ hu => memOk_routeLost hu) (memOk_modFab (memOk_portRecord (memOk_modPort hs))))
theorem okStep_execFlitCrcResend {port : Nat} {s : State} (hs : s.memOk) : OkStep (execFlitCrcResend port s) :=
  memOk_ite (memOk_modPort hs) hs
theorem okStep_execLinkResendFailureLimit {port : Nat} {s : State} (hs : s.memOk) : OkStep (execLinkResendFailureLimit port s) :=
  memOk_ite (memOk_linkDown hs) hs
theorem okStep_execBlockLockLoss {port : Nat} {s : State} (hs : s.memOk) : OkStep (execBlockLockLoss port s) := memOk_linkDown hs
theorem okStep_execLinkIdleTimeout {port : Nat} {s : State} (hs : s.memOk) : OkStep (execLinkIdleTimeout port s) :=
  memOk_ite (memOk_linkDown hs) hs
theorem okStep_execIdleFlit {port : Nat} {s : State} (hs : s.memOk) : OkStep (execIdleFlit port s) := memOk_ite (memOk_modPort hs) hs
theorem memOk_flitIn {port a b : Nat} {s : State} (hs : s.memOk) : (flitIn port a b s).memOk :=
  memOk_ite (memOk_outPump (memOk_modPort hs)) hs
theorem memOk_toColumn {event : Nat} {data : List W64} {s : State} (hs : s.memOk) : (toColumn event data s).memOk := memOk_modFirm hs
theorem okStep_execLinkTraining {port : Nat} {peer : LinkOffer} {s : State} (hs : s.memOk) : OkStep (execLinkTraining port peer s) :=
  memOk_ite hs (memOk_ite (memOk_toColumn (memOk_portRecord (memOk_linkDown hs))) (memOk_ite (memOk_modPort hs) (memOk_portRecord
    (memOk_modPort hs))))

/-! ### Domain barriers (R55, R56) -/

theorem memOk_baraOn {i v cand : Nat} {s : State} (hs : s.memOk) : (baraOn i v cand s).memOk := memOk_transmit (memOk_modFab hs)
theorem memOk_sendBara {i : Nat} {s : State} (hs : s.memOk) : (sendBara i s).memOk := by
  unfold sendBara
  split
  · exact memOk_baraOn hs
  · exact memOk_baraOn (memOk_freshWord hs)
theorem memOk_resendBara {i : Nat} {s : State} (hs : s.memOk) : (resendBara i s).memOk := by
  unfold resendBara
  split
  · exact memOk_baraOn hs
  · exact memOk_sendBara hs
theorem okStep_execBaraSend {entry : Nat} {s : State} (hs : s.memOk) : OkStep (execBaraSend entry s) :=
  memOk_ite (memOk_sendBara (memOk_setDom hs)) hs
theorem okStep_execTreeNotice {entry : Nat} {s : State} (hs : s.memOk) : OkStep (execTreeNotice entry s) :=
  memOk_ite (memOk_resendBara hs) hs
theorem okStep_execBarbTimeout {entry : Nat} {s : State} (hs : s.memOk) : OkStep (execBarbTimeout entry s) :=
  memOk_ite (memOk_resendBara hs) hs
theorem memOk_domRelease {i ep : Nat} {s : State} (hs : s.memOk) : (domRelease i ep s).memOk := memOk_mk hs
theorem memOk_releaseDom {i : Nat} {s : State} (hs : s.memOk) : (releaseDom i s).memOk :=
  memOk_closeBid (memOk_domRelease (memOk_setDom hs))
theorem memOk_barbIn {k : Hdr} {s : State} (hs : s.memOk) : (barbIn k s).memOk := memOk_foldl (fun _ _ hu => memOk_releaseDom hu) hs
theorem okStep_execBarb {port : Nat} {p : Packet} {s : State} (hs : s.memOk) : OkStep (execBarb port p s) :=
  memOk_rawIn (fun _ _ hu => memOk_barbIn hu) hs

/-! ### Scale-out frames (R59) -/

theorem memOk_receive {port : Nat} {p : Packet} {s : State} (hs : s.memOk) : (receive port p s).memOk := by
  unfold receive
  refine memOk_comesIn (fun _ _ hu => ?_) hs
  split
  · exact memOk_replyIn hu
  · exact memOk_replyIn hu
  · exact memOk_ite (memOk_syncIn hu) (memOk_ackIn hu)
  · exact memOk_nakIn hu
  · exact memOk_barbIn hu
  · exact memOk_sequencedIn hu
theorem okStep_execScaleOutFrame {port : Nat} {fr : Frame} {s : State} (hs : s.memOk) : OkStep (execScaleOutFrame port fr s) :=
  memOk_ite hs (memOk_ite (memOk_foldl (fun _ _ hu => memOk_receive hu) hs) (memOk_modFab hs))

/-! ### Accesses of the front end (R487) -/

theorem memOk_feOver {who : Nat} {q : Queue} {s : State} (hs : s.memOk) : (feOver who q s).memOk :=
  memOk_ite (memOk_feUsed hs) (memOk_modQ (memOk_feUsed hs))
theorem memOk_feStopped {who : Nat} {q : Queue} {st : FeStop} {s : State} (hs : s.memOk) : (feStopped who q st s).memOk := by
  unfold feStopped
  split
  · exact memOk_feFault (memOk_feOver (memOk_ite (memOk_modQ hs) hs))
  · exact memOk_failQueue (memOk_feOver hs)
  · exact memOk_modQ hs
  · exact memOk_feOver hs
theorem memOk_feRun {who : Nat} {q : Queue} {x : FX (State → State)} {s : State} (hf2 : KeepsP OkFn x) (hs : s.memOk) :
    (feRun who q x s).memOk := by
  unfold feRun
  split
  · rename_i heq
    exact (KeepsP.ok_val hf2 hs heq) _ (memOk_feOver (KeepsP.ok_memOk hf2 hs heq))
  · rename_i heq
    exact memOk_feStopped (KeepsP.error hf2 hs heq)
theorem keeps_feGo {asid va n align : Nat} {write : Bool} : Keeps (feGo asid va n align write) := by
  unfold feGo
  refine KeepsP.ite keeps_throw_bind ?_
  refine keeps_get.bind fun _ hu => ?_
  split
  · rename_i heq
    exact (keeps_set (memOk_snd (memOk_feAccess hu) heq)).bind fun _ => keeps_pure trivial
  · rename_i heq
    exact (keeps_set (memOk_snd (memOk_feAccess hu) heq)).bind fun _ => keeps_throw
  · rename_i heq
    exact (keeps_set (memOk_snd (memOk_feAccess hu) heq)).bind fun _ => keeps_throw
  · rename_i heq
    exact (keeps_set (memOk_snd (memOk_feAccess hu) heq)).bind fun _ => keeps_throw
theorem keeps_feLoad {asid va n : Nat} : Keeps (feLoad asid va n) := keeps_feGo.bind fun _ => keeps_get.bind fun _ _ => keeps_pure trivial
theorem keeps_feChunks {asid va n : Nat} : Keeps (feChunks asid va n) := by
  induction n generalizing va with
  | zero => exact keeps_pure trivial
  | succ n ih => exact keeps_feLoad.bind fun _ => Keeps.bind ih fun _ => keeps_pure trivial
theorem keeps_ptrRead {q : Queue} {a : Nat} : Keeps (ptrRead q a) :=
  KeepsP.ite keeps_feLoad (keeps_get.bind fun _ _ => KeepsP.ite keeps_throw (keeps_get.bind fun _ _ => keeps_pure trivial))
theorem keeps_rptrWrite {q : Queue} : KeepsP (fun a => ∀ x0 x1, x1.memOk → (a x0 x1).memOk) (rptrWrite q) :=
  KeepsP.ite (keeps_feGo.bind fun _ => keeps_pure (fun _ _ hu => memOk_feStore hu)) (keeps_pure (fun _ _ hu1 => memOk_hostPoke hu1))

/-! ### Levels (R123, R126) -/

theorem memOk_modLevelAt {fn qidx k : Nat} {g : Level → Level} {s : State} (hs : s.memOk) : (modLevelAt fn qidx k g s).memOk :=
  memOk_modQ hs
theorem memOk_modLevel {fn qidx : Nat} {g : Level → Level} {s : State} (hs : s.memOk) : (modLevel fn qidx g s).memOk :=
  memOk_modLevelAt hs
theorem keeps_fetchAt {q : Queue} {k off : Nat} : Keeps (fetchAt q k off) := by
  unfold fetchAt
  split
  · exact keeps_throw
  · split
    · exact keeps_pure trivial
    · exact KeepsP.ite keeps_throw_bind (KeepsP.ite keeps_throw_bind (keeps_get.bind fun _ _ => KeepsP.ite (keeps_feLoad.bind fun _ =>
        (keeps_modify (fun _ hu1 => memOk_modLevelAt hu1)).bind fun _ => keeps_pure trivial) (KeepsP.ite keeps_throw_bind (keeps_get.bind
        fun _ _ => Keeps.bind (keeps_pure trivial) fun _ => (keeps_modify (fun _ hu3 => memOk_modLevelAt hu3)).bind fun _ => keeps_pure
        trivial))))
theorem keeps_fetchChunk {q : Queue} {off : Nat} : Keeps (fetchChunk q off) := keeps_fetchAt

/-! ### Packets (R113, R114) -/

theorem keeps_pktCheck {fn : Nat} {node : Bool} {x : Nat} : Keeps (pktCheck fn node x) :=
  keeps_get.bind fun _ _ => KeepsP.ite keeps_throw_bind (KeepsP.ite keeps_throw (keeps_pure trivial))
theorem keeps_fetchPkt {q : Queue} {off : Nat} : Keeps (fetchPkt q off) := by
  unfold fetchPkt
  exact keeps_fetchChunk.bind fun _ => KeepsP.ite (keeps_fetchChunk.bind fun _ => keeps_fetchChunk.bind fun _ => Keeps.bind (keeps_pure
    trivial) fun _ => keeps_pktCheck.bind fun _ => keeps_pure trivial) (Keeps.bind (keeps_pure trivial) fun _ => keeps_pktCheck.bind fun _
    => keeps_pure trivial)

/-! ### Completion -/

theorem memOk_issueAs {q : Queue} {i : Issued} {k : Nat → State → State} {s : State} (hf2 : ∀ x0 x1, x1.memOk → (k x0 x1).memOk) (hs :
    s.memOk) :
    (issueAs q i k s).memOk :=
  hf2 _ _ (memOk_modQ (memOk_modFe hs))
theorem memOk_doneNow {q : Queue} {ty status : Nat} {node : Option (Nat × Nat)} {s : State} (hs : s.memOk) :
    (doneNow q ty status node s).memOk :=
  memOk_ite (memOk_issueAs (fun _ _ hu => hu) hs) hs

/-! ### What each packet does -/

theorem keeps_actActmsg {q : Queue} {x : Nat} {node : Option (Nat × Nat)} : KeepsP OkFn (actActmsg q x node) := by
  unfold actActmsg
  refine KeepsP.ite keeps_throw_bind ?_
  refine keeps_get.bind fun _ hu => ?_
  split
  · rename_i heq
    exact (keeps_set (memOk_snd (memOk_engineWalk hu) heq)).bind fun _ => keeps_throw
  · rename_i heq
    refine (keeps_set (memOk_snd (memOk_engineWalk hu) heq)).bind fun _ => ?_
    refine keeps_pure (fun _ hu1 => ?_)
    refine memOk_issueAs (fun _ _ hu2 => ?_) (memOk_freshWord hu1)
    dsimp only
    split
    · exact memOk_ite (memOk_sendSeqQ hu2) (memOk_postNet hu2)
    · exact memOk_postNet hu2
theorem keeps_feRecord {q : Queue} {va : Nat} : Keeps (feRecord q va) := by
  unfold feRecord
  refine KeepsP.ite (keeps_pure trivial) ?_
  extract_lets reach
  have hreach (a : Nat) : Keeps (reach a) := by
    refine keeps_get.bind fun s hs => ?_
    have hu {o : FeRes} {t : State} (e : feAccess s q.asid a 64 false = (o, t)) : t.memOk := memOk_snd (memOk_feAccess hs) e
    split
    · exact (keeps_set (hu ‹_›)).bind fun _ => keeps_pure trivial
    · exact (keeps_set (hu ‹_›)).bind fun _ => keeps_pure trivial
    · exact (keeps_set (hu ‹_›)).bind fun _ => keeps_throw
    · exact (keeps_set (hu ‹_›)).bind fun _ => KeepsP.ite (keeps_pure trivial) keeps_throw
  refine (hreach _).bind fun _ => ?_
  split
  · exact keeps_pure trivial
  · refine (hreach _).bind fun _ => ?_
    split <;> exact keeps_pure trivial
theorem keeps_feShapes {q : Queue} {p va n : Nat} : Keeps (feShapes q p va n) := by
  induction n generalizing p va with
  | zero => exact keeps_pure trivial
  | succ n ih =>
    unfold feShapes
    refine keeps_feRecord.bind fun _ => ?_
    split
    · exact keeps_pure trivial
    · exact keeps_get.bind fun _ _ => KeepsP.ite (keeps_pure trivial) (Keeps.bind ih fun _ => (by split <;> exact keeps_pure trivial))
theorem keeps_feHeader {q : Queue} {va : Nat} : Keeps (feHeader q va) :=
  keeps_feGo.bind fun _ => keeps_get.bind fun _ _ => keeps_pure trivial
theorem keeps_sweepChecks {q : Queue} {hd : List W64} : Keeps (sweepChecks q hd) := by
  unfold sweepChecks
  refine keeps_get.bind fun _ _ => ?_
  refine KeepsP.ite (keeps_pure trivial) ?_
  refine keeps_feRecord.bind fun _ => ?_
  split
  · exact keeps_pure trivial
  · refine keeps_get.bind fun _ _ => ?_
    dsimp only
    split
    · exact keeps_pure trivial
    · exact KeepsP.ite (keeps_pure trivial) keeps_feShapes
theorem keeps_actSweep {q : Queue} {x : Nat} {node : Option (Nat × Nat)} : KeepsP OkFn (actSweep q x node) := by
  unfold actSweep
  refine keeps_feHeader.bind fun _ => ?_
  refine KeepsP.ite keeps_throw_bind ?_
  refine keeps_sweepChecks.bind fun _ => ?_
  split
  · exact keeps_pure (fun _ hu => memOk_writeSignal (memOk_doneNow (memOk_modQ hu)))
  · exact keeps_pure (fun _ hu1 => memOk_issueAs (fun _ _ hu2 => memOk_foldl (fun _ _ hu3 => memOk_modCore hu3) (memOk_modFe hu2))
      (memOk_modQ hu1))
theorem keeps_actStore {ty : Nat} {q : Queue} {x : Nat} {node : Option (Nat × Nat)} : KeepsP OkFn (actStore ty q x node) := by
  unfold actStore
  refine keeps_feGo.bind fun _ => ?_
  refine keeps_get.bind fun _ _ => ?_
  split
  · exact keeps_pure (fun _ hu1 => memOk_issueAs (fun _ _ hu2 => memOk_ite (memOk_sendSeq hu2) (memOk_feStoreAs hu2)) hu1)
  · exact KeepsP.ite keeps_throw_bind (keeps_pure (fun _ hu3 => memOk_doneNow (memOk_feStore (memOk_ite (memOk_correct hu3) hu3))))
theorem keeps_actWait {q : Queue} {x : Nat} {node : Option (Nat × Nat)} : KeepsP OkFn (actWait q x node) :=
  keeps_feLoad.bind fun _ => KeepsP.ite (keeps_pure (fun _ hu => memOk_doneNow (memOk_ite hu (memOk_modLevel hu)))) (KeepsP.ite
    (keeps_pure (fun _ hu1 => memOk_issueAs (fun _ _ hu2 => hu2) hu1)) (keeps_pure (fun _ hu3 => memOk_modQ hu3)))
theorem keeps_actPred {q : Queue} {x : Nat} : KeepsP OkFn (actPred q x) :=
  keeps_feLoad.bind fun _ => KeepsP.ite (keeps_pure (fun _ hu => hu)) (keeps_pure (fun _ hu1 => memOk_modLevel hu1))
theorem keeps_actInd {q : Queue} {x : Nat} : KeepsP OkFn (actInd q x) :=
  KeepsP.ite keeps_throw_bind (keeps_pure (fun _ hu => memOk_modQ hu))
theorem keeps_holdsLoop {q : Queue} {top n off : Nat} : Keeps (holdsLoop q top n off) := by
  induction n generalizing off with
  | zero => exact keeps_pure trivial
  | succ n ih => exact KeepsP.ite (keeps_pure trivial) (keeps_fetchChunk.bind fun _ => KeepsP.ite (keeps_pure trivial) ih)
theorem keeps_actLoop {q : Queue} {l : Level} {x : Nat} : KeepsP (fun a => OkFn a.2) (actLoop q l x) :=
  KeepsP.ite keeps_throw_bind (keeps_holdsLoop.bind fun _ => KeepsP.ite keeps_throw_bind (KeepsP.ite (keeps_pure (fun _ hu =>
    memOk_modLevel hu)) (keeps_pure (fun _ hu1 => memOk_modLevel hu1))))
theorem memOk_actFfence {q : Queue} {s : State} (hs : s.memOk) : (actFfence q s).memOk := memOk_modLevel hs
theorem memOk_actIntr {q : Queue} {x : Nat} {node : Option (Nat × Nat)} {s : State} (hs : s.memOk) : (actIntr q x node s).memOk :=
  memOk_doneNow (memOk_vecEvent (memOk_modFn hs))

/-! ### Graphs (R128 to R130) -/

theorem keeps_feNodes {asid nnode va n : Nat} : Keeps (feNodes asid nnode va n) := by
  induction n generalizing va with
  | zero => exact keeps_pure trivial
  | succ n ih =>
    unfold feNodes
    refine keeps_feLoad.bind fun _ => ?_
    split
    · exact keeps_throw
    · exact Keeps.bind ih fun _ => keeps_pure trivial
theorem keeps_feNodeConds {asid : Nat} {ls : List Nat} : Keeps (feNodeConds asid ls) := by
  induction ls with
  | nil => exact keeps_pure trivial
  | cons x xs ih => exact keeps_feLoad.bind fun _ => KeepsP.ite keeps_throw_bind (Keeps.bind ih fun _ => keeps_pure trivial)
theorem keeps_feGraph {q : Queue} {desc : Nat} : Keeps (feGraph q desc) := by
  unfold feGraph
  exact keeps_feLoad.bind fun _ => keeps_get.bind fun _ _ => KeepsP.ite keeps_throw_bind (KeepsP.ite keeps_throw_bind (keeps_feNodes.bind
    fun _ => KeepsP.ite keeps_throw_bind (KeepsP.ite keeps_throw_bind (keeps_feNodeConds.bind fun _ => KeepsP.ite keeps_throw_bind
    (keeps_pure trivial)))))
theorem memOk_modGraph {g : Nat} {f : Graph → Graph} {s : State} (hs : s.memOk) : (modGraph g f s).memOk := memOk_modFe hs
theorem keeps_actNode {q : Queue} {x : Nat} {node : Option (Nat × Nat)} : KeepsP OkFn (actNode q x node) := by
  unfold actNode
  split
  · exact keeps_actActmsg
  · exact keeps_actSweep
  · exact keeps_actStore
  · exact keeps_actWait
  · exact keeps_actStore
  · exact keeps_pure (fun _ hu => memOk_actIntr hu)
  · exact keeps_throw
theorem keeps_launchNode {q : Queue} {g : Graph} {n : Nat} : KeepsP OkFn (launchNode q g n) := by
  unfold launchNode
  exact keeps_feLoad.bind fun _ => KeepsP.ite (keeps_feChunks.bind fun _ => Keeps.bind (keeps_pure trivial) fun _ => KeepsP.ite
    keeps_throw_bind (keeps_pktCheck.bind fun _ => KeepsP.ite keeps_throw_bind keeps_actNode)) (Keeps.bind (keeps_pure trivial) fun _ =>
    KeepsP.ite keeps_throw_bind (keeps_pktCheck.bind fun _ => KeepsP.ite keeps_throw_bind keeps_actNode))
theorem memOk_launchFrom {g : Nat} {ls : List Nat} {s : State} (hs : s.memOk) : (launchFrom g ls s).memOk := by
  induction ls generalizing s with
  | nil => exact hs
  | cons x xs ih =>
    unfold launchFrom
    split
    · exact hs
    · split
      · exact hs
      · refine memOk_ite hs ?_
        refine memOk_ite (ih hs) ?_
        split
        · rename_i heq
          exact ih ((KeepsP.ok_val keeps_launchNode hs heq) _ (memOk_modGraph (memOk_feOver (KeepsP.ok_memOk keeps_launchNode hs heq))))
        · rename_i heq
          exact ih (memOk_feOver (KeepsP.error keeps_launchNode hs heq))
        · rename_i heq
          exact memOk_feStopped (KeepsP.error keeps_launchNode hs heq)
theorem memOk_launchAll {g n : Nat} {s : State} (hs : s.memOk) : (launchAll g n s).memOk := memOk_launchFrom hs
theorem keeps_actGraph {q : Queue} {x : Nat} : KeepsP OkFn (actGraph q x) :=
  keeps_feGraph.bind fun _ => keeps_get.bind fun _ _ => KeepsP.ite keeps_throw_bind (keeps_feGo.bind fun _ => keeps_pure (fun _ hu1 =>
    memOk_issueAs (fun _ _ hu2 => memOk_launchAll (memOk_feStore (memOk_modFe hu2))) hu1))
theorem keeps_graphEnd {q : Queue} {g : Graph} : KeepsP OkFn (graphEnd q g) := by
  unfold graphEnd
  refine KeepsP.ite ?_ ?_
  · exact keeps_pure (fun _ hu => memOk_completePacket (memOk_modFe hu))
  · split
    · exact keeps_pure (fun _ hu1 => memOk_completePacket (memOk_modFe hu1))
    · exact keeps_feLoad.bind fun _ => KeepsP.ite keeps_throw_bind (keeps_pktCheck.bind fun _ => keeps_feLoad.bind fun _ => KeepsP.ite
        (keeps_feGo.bind fun _ => keeps_pure (fun _ hu2 => memOk_launchAll (memOk_feStore (memOk_modGraph hu2)))) (keeps_pure (fun _ hu3
        => memOk_completePacket (memOk_modFe hu3))))
theorem memOk_graphAdvance {id node : Nat} {s : State} (hs : s.memOk) : (graphAdvance id node s).memOk := by
  unfold graphAdvance
  split
  · exact hs
  · split
    · exact hs
    · dsimp only
      split
      · exact memOk_launchAll (by split; exacts [memOk_modGraph (memOk_modQ hs), hs])
      · split
        · refine memOk_ite ?_ ?_
          · exact memOk_feRun keeps_graphEnd (memOk_launchAll (by split; exacts [memOk_modGraph (memOk_modQ hs), hs]))
          · exact memOk_launchAll (by split; exacts [memOk_modGraph (memOk_modQ hs), hs])
        · exact memOk_launchAll (by split; exacts [memOk_modGraph (memOk_modQ hs), hs])
theorem okStep_execGraphNodeComplete {graph node : Nat} {s : State} (hs : s.memOk) : OkStep (execGraphNodeComplete graph node s) :=
  memOk_graphAdvance hs

/-! ### Issue (R115, R120, R122) -/

theorem keeps_abortDependant {q : Queue} {x : Nat} : KeepsP OkFn (abortDependant q x) := by
  unfold abortDependant
  dsimp only
  split
  · exact KeepsP.ite keeps_throw_bind (keeps_pure (fun _ hu => memOk_writeSignal hu))
  · exact keeps_feHeader.bind fun _ => KeepsP.ite keeps_throw_bind (keeps_pure (fun _ hu1 => memOk_writeSignal hu1))
  · exact KeepsP.ite keeps_throw_bind (keeps_pure (fun _ hu2 => memOk_writeSignal hu2))
  · exact keeps_feLoad.bind fun _ => KeepsP.ite keeps_throw_bind (keeps_pure (fun _ hu3 => memOk_writeSignal hu3))
  · exact keeps_pure (fun _ hu4 => hu4)
theorem keeps_actPacket {q : Queue} {l : Level} {x : Nat} : KeepsP (fun a => OkFn a.2) (actPacket q l x) := by
  unfold actPacket
  refine KeepsP.ite keeps_throw_bind ?_
  refine KeepsP.ite keeps_throw_bind ?_
  split
  · exact keeps_actActmsg.bind fun _ hf => keeps_pure hf
  · exact keeps_actSweep.bind fun _ hf1 => keeps_pure hf1
  · exact keeps_actStore.bind fun _ hf2 => keeps_pure hf2
  · exact keeps_actWait.bind fun _ hf3 => keeps_pure hf3
  · exact keeps_actStore.bind fun _ hf4 => keeps_pure hf4
  · exact keeps_actPred.bind fun _ hf5 => keeps_pure hf5
  · exact keeps_actInd.bind fun _ hf6 => keeps_pure hf6
  · exact keeps_actLoop
  · exact keeps_pure (fun _ hu7 => memOk_actFfence hu7)
  · exact keeps_pure (fun _ hu8 => memOk_actIntr hu8)
  · exact keeps_actGraph.bind fun _ hf9 => keeps_pure hf9
/-- Moving a level on past its packet, with the read pointer written when the level is the queue's own. -/
theorem memOk_movedPast {put : Nat → State → State} (hp : ∀ n, OkFn (put n)) {fn qidx n : Nat} {g : Level → Level} {p : Queue → Bool}
    {f : Queue → Queue} {c : Bool} {s : State} (hs : s.memOk) :
    (if c then put n (modQ p f (modLevel fn qidx g s)) else modLevel fn qidx g s).memOk :=
  memOk_ite (hp _ _ (memOk_modQ (memOk_modLevel hs))) (memOk_modLevel hs)
theorem keeps_issueX {q : Queue} {want : Option Nat} : KeepsP OkFn (issueX q want) := by
  unfold issueX
  split
  · exact keeps_throw
  · refine keeps_fetchPkt.bind fun _ => KeepsP.ite keeps_throw_bind ?_
    refine KeepsP.ite (keeps_rptrWrite.bind fun put hp => ?_)
      (KeepsP.bind (P := fun put => ∀ n, OkFn (put n)) (keeps_pure fun _ _ h => h) fun put hp => ?_)
    all_goals
      refine KeepsP.ite (keeps_pure fun _ hu => memOk_movedPast hp hu) (KeepsP.ite ?_ ?_)
      · exact keeps_abortDependant.bind fun _ hf => keeps_pure fun _ hu => hf _ (memOk_movedPast hp hu)
      · exact keeps_actPacket.bind fun _ hf => keeps_pure fun _ hu => hf _ (memOk_movedPast hp hu)
theorem memOk_issue {slot : Nat} {want : Option Nat} {s : State} (hs : s.memOk) : (issue slot want s).memOk := by
  unfold issue
  split
  · exact hs
  · exact memOk_ite hs (memOk_feRun keeps_issueX (memOk_setSlotQ hs))
theorem okStep_execActmsg {slot : Nat} {s : State} (hs : s.memOk) : OkStep (execActmsg slot s) := memOk_issue hs
theorem okStep_execSweep {slot : Nat} {s : State} (hs : s.memOk) : OkStep (execSweep slot s) := memOk_issue hs
theorem okStep_execSignal {slot : Nat} {s : State} (hs : s.memOk) : OkStep (execSignal slot s) := memOk_issue hs
theorem okStep_execWait {slot : Nat} {s : State} (hs : s.memOk) : OkStep (execWait slot s) := memOk_issue hs
theorem okStep_execWrite {slot : Nat} {s : State} (hs : s.memOk) : OkStep (execWrite slot s) := memOk_issue hs
theorem okStep_execPred {slot : Nat} {s : State} (hs : s.memOk) : OkStep (execPred slot s) := memOk_issue hs
theorem okStep_execInd {slot : Nat} {s : State} (hs : s.memOk) : OkStep (execInd slot s) := memOk_issue hs
theorem okStep_execLoopPacket {slot : Nat} {s : State} (hs : s.memOk) : OkStep (execLoopPacket slot s) := memOk_issue hs
theorem okStep_execFfence {slot : Nat} {s : State} (hs : s.memOk) : OkStep (execFfence slot s) := memOk_issue hs
theorem okStep_execIntr {slot : Nat} {s : State} (hs : s.memOk) : OkStep (execIntr slot s) := memOk_issue hs
theorem okStep_execGraph {slot : Nat} {s : State} (hs : s.memOk) : OkStep (execGraph slot s) := memOk_issue hs
theorem okStep_execPacketBarrierIssue {slot : Nat} {s : State} (hs : s.memOk) : OkStep (execPacketBarrierIssue slot s) := memOk_issue hs

/-! ### WAIT_REREAD (R120) -/

theorem keeps_rereadWait {q : Queue} {w : Nat × W64 × W64 × Nat × Nat} : KeepsP OkFn (rereadWait q w) :=
  keeps_feLoad.bind fun _ => KeepsP.ite (keeps_pure (fun _ hu => memOk_modLevel (memOk_modQ hu))) (keeps_pure (fun _ hu1 => hu1))
theorem keeps_rereadNode {q : Queue} {i : Issued} : KeepsP OkFn (rereadNode q i) := by
  unfold rereadNode
  split
  · exact keeps_pure (fun _ hu => hu)
  · exact keeps_feLoad.bind fun _ => KeepsP.ite (keeps_pure (fun _ hu1 => memOk_modQ hu1)) (keeps_pure (fun _ hu2 => hu2))
theorem memOk_reread {slot : Nat} {s : State} (hs : s.memOk) : (reread slot s).memOk := by
  unfold reread
  split
  · exact hs
  · refine memOk_ite hs ?_
    refine memOk_foldl (fun _ _ hu => ?_) ?_
    · split
      · exact memOk_ite (memOk_feRun keeps_rereadNode hu) hu
      · exact hu
    · split
      · exact memOk_feRun keeps_rereadWait hs
      · exact hs
theorem okStep_execWaitReread {slot : Nat} {s : State} (hs : s.memOk) : OkStep (execWaitReread slot s) := memOk_reread hs

/-! ### The turn of a slot -/

theorem okTurn_packetTurn {slot : Nat} {s : State} (hs : s.memOk) : OkTurn (packetTurn slot s) := by
  unfold packetTurn
  split
  · exact hs
  · refine OkTurn.ite (memOk_drainSignals hs) ?_
    refine OkTurn.ite (OkTurn.ite hs hs) ?_
    refine OkTurn.ite hs ?_
    dsimp only
    split
    · rename_i heq
      split <;> exact KeepsP.ok_memOk keeps_fetchPkt (memOk_setSlotQ hs) heq
    · rename_i heq
      exact memOk_feStopped (KeepsP.error keeps_fetchPkt (memOk_setSlotQ hs) heq)

/-! ### Descriptors (R108, R109) -/

theorem memOk_refuseDesc {f i : Nat} {s : State} (hs : s.memOk) : (refuseDesc f i s).memOk := memOk_failQueue hs

/-! ### Pending gangs (R111) -/

theorem memOk_pollUnmapped {f i : Nat} {s : State} (hs : s.memOk) : (pollUnmapped f i s).memOk :=
  memOk_ite hs (memOk_ite hs (memOk_ite (memOk_refuseDesc hs) (memOk_ite (memOk_modFe (memOk_drainSignals hs)) (memOk_drainSignals hs))))
theorem okStep_execUnmappedQueuePoll {f q : Nat} {s : State} (hs : s.memOk) : OkStep (execUnmappedQueuePoll f q s) :=
  memOk_pollUnmapped hs

/-! ### Mapping (R111, R112) -/

theorem memOk_unmapQueue {slot : Nat} {q : Queue} {s : State} (hs : s.memOk) : (unmapQueue slot q s).memOk := by
  unfold unmapQueue
  refine memOk_modFe ?_
  split
  · rename_i heq
    exact (KeepsP.ok_val keeps_rptrWrite hs heq) _ _ (KeepsP.ok_memOk keeps_rptrWrite hs heq)
  · rename_i heq
    exact hs
theorem memOk_unmapGang {f gang : Nat} {s : State} (hs : s.memOk) : (unmapGang f gang s).memOk :=
  memOk_foldl (fun _ _ hu => memOk_unmapQueue hu) hs
theorem keeps_mapReads {f : Nat} {qs : List Nat} : Keeps (mapReads f qs) := by
  induction qs with
  | nil => exact keeps_pure trivial
  | cons x xs ih =>
    unfold mapReads
    refine keeps_get.bind fun _ _ => ?_
    dsimp only
    split
    · exact Keeps.bind (keeps_pure trivial) fun _ => Keeps.bind ih fun _ => keeps_pure trivial
    · exact keeps_ptrRead.bind fun _ => Keeps.bind (keeps_pure trivial) fun _ => Keeps.bind ih fun _ => keeps_pure trivial
theorem memOk_mapQueue {q : Queue} {s : State} (hs : s.memOk) : (mapQueue q s).memOk := by
  unfold mapQueue
  split
  · exact hs
  · exact memOk_setSlotQ (memOk_modFe hs)
theorem memOk_mapAll {f gang : Nat} {todo : List Nat} {s : State} (hs : s.memOk) : (mapAll f gang todo s).memOk := by
  unfold mapAll
  split
  · rename_i heq
    exact memOk_foldl (fun _ _ hu => memOk_mapQueue hu) (memOk_modFe (KeepsP.ok_memOk keeps_mapReads hs heq))
  · rename_i heq
    split
    · exact memOk_feStopped (KeepsP.error keeps_mapReads hs heq)
    · exact KeepsP.error keeps_mapReads hs heq
theorem memOk_gangMap {f gang : Nat} {s : State} (hs : s.memOk) : (gangMap f gang s).memOk := by
  unfold gangMap
  split
  · exact memOk_ite (memOk_refuseDesc hs) hs
  · exact memOk_ite hs (memOk_ite (by split; exacts [memOk_unmapGang hs, hs]) (memOk_mapAll hs))
theorem okStep_execGangMap {f gang : Nat} {s : State} (hs : s.memOk) : OkStep (execGangMap f gang s) := memOk_gangMap hs

/-! ### The write pointer (R70, R109, R126) -/

theorem memOk_prefetch {slot k n off : Nat} {s : State} (hs : s.memOk) : (prefetch slot k n off s).memOk := by
  induction n generalizing off s with
  | zero => exact hs
  | succ n ih =>
    unfold prefetch
    split
    · exact hs
    · split
      · rename_i heq
        exact ih (KeepsP.ok_memOk keeps_fetchAt hs heq)
      · rename_i heq
        exact hs
theorem keeps_pollWptr {q : Queue} : KeepsP OkFn (pollWptr q) :=
  keeps_ptrRead.bind fun _ => KeepsP.ite keeps_throw_bind (keeps_pure (fun _ hu => memOk_modQ hu))
theorem memOk_wptrPoll {slot : Nat} {s : State} (hs : s.memOk) : (wptrPoll slot s).memOk := by
  unfold wptrPoll
  split
  · exact hs
  · refine memOk_ite hs ?_
    dsimp only
    split
    · exact memOk_ite (memOk_foldl (fun _ _ hu => memOk_prefetch hu) (memOk_feRun keeps_pollWptr (memOk_setSlotQ hs))) (memOk_feRun
        keeps_pollWptr (memOk_setSlotQ hs))
    · exact memOk_feRun keeps_pollWptr (memOk_setSlotQ hs)
theorem okStep_execWptrPoll {slot : Nat} {s : State} (hs : s.memOk) : OkStep (execWptrPoll slot s) := memOk_wptrPoll hs

/-! ### Teardown (R131, R132) -/

theorem memOk_abortSignals {reset : Bool} {f i n : Nat} {s : State} (hs : s.memOk) : (abortSignals reset f i n s).memOk := by
  induction n generalizing s with
  | zero => exact hs
  | succ n ih =>
    unfold abortSignals
    split
    · exact hs
    · split
      · exact hs
      · refine memOk_ite hs ?_
        refine memOk_ite (ih (memOk_modQ hs)) ?_
        split
        · rename_i heq
          exact ih (memOk_modQ (memOk_feStore (memOk_snd (memOk_feAccess hs) heq)))
        · rename_i heq
          exact ih (memOk_modQ (memOk_snd (memOk_feAccess hs) heq))
        · rename_i heq
          exact memOk_snd (memOk_feAccess hs) heq
        · rename_i heq
          exact memOk_ite (ih (memOk_modQ (memOk_snd (memOk_feAccess hs) heq))) (memOk_feFault (memOk_snd (memOk_feAccess hs) heq))
theorem memOk_dropWork {f i : Nat} {sweeps : List Nat} {core : Nat} {s : State} (hs : s.memOk) : (dropWork f i sweeps core s).memOk := by
  unfold dropWork
  refine memOk_modCore ?_
  have h := memOk_abortCore (core := core) (p := fun x => x.fn == f && x.queue == i) hs
  exact memOk_ite (memOk_leaveFaults h) h
theorem memOk_teardownBegin {q : Queue} {s : State} (hs : s.memOk) : (teardownBegin q s).memOk :=
  memOk_modQ (memOk_leaveFaults (memOk_modGrp (memOk_modFe (memOk_foldl (fun _ _ hu => memOk_copyCancel hu) (memOk_mk (memOk_foldl (fun _
    _ hu1 => memOk_dropWork hu1) (memOk_modQ (memOk_modFe hs))))))))
theorem memOk_teardownEnd {f i : Nat} {s : State} (hs : s.memOk) : (teardownEnd f i s).memOk :=
  memOk_vecEvent (memOk_hostPoke (memOk_modFe (memOk_leaveFaults hs)))
theorem memOk_teardown {reset : Bool} {q : Queue} {s : State} (hs : s.memOk) : (teardown reset q s).memOk :=
  memOk_ite (memOk_teardownEnd (memOk_abortSignals (memOk_ite hs (memOk_teardownBegin hs)))) (memOk_abortSignals (memOk_ite hs
    (memOk_teardownBegin hs)))
theorem okStep_execQueueTeardown {f q : Nat} {s : State} (hs : s.memOk) : OkStep (execQueueTeardown f q s) := by
  unfold execQueueTeardown
  split
  · exact memOk_ite hs (memOk_teardown hs)
  · exact hs

end Sys2Proof.Machine
end

section
set_option Elab.async false
/-! Steps keep both memories canonical: host registers, service, firmware and the step. -/
namespace Sys2Proof.Machine

/-! ### HostRegs -/

theorem memOk_hstatSet {f : Nat} {m : W64} {s : State} (hs : s.memOk) : (hstatSet f m s).memOk := memOk_modFn hs

/-! ### Version selection and resources (R64 to R69) -/

theorem okStep_execHvselWrite {f : Nat} {v : W64} {s : State} (hs : s.memOk) : OkStep (execHvselWrite f v s) :=
  memOk_ite hs (memOk_ite (memOk_modFn hs) (memOk_hstatSet hs))
theorem okStep_execHstatWrite {f : Nat} {v : W64} {s : State} (hs : s.memOk) : OkStep (execHstatWrite f v s) :=
  memOk_ite (memOk_modFn hs) hs
theorem okStep_execVfctlWrite {f : Nat} {v : W64} {s : State} (hs : s.memOk) : OkStep (execVfctlWrite f v s) :=
  memOk_ite hs (memOk_ite (memOk_modFn hs) (memOk_hstatSet hs))
theorem okStep_execQdirbaseWrite {f : Nat} {v : W64} {s : State} (hs : s.memOk) : OkStep (execQdirbaseWrite f v s) :=
  memOk_ite hs (memOk_modFn hs)

/-! ### Plain registers (R63, R72, R77, R83, R93) -/

theorem memOk_svcCtlWrite {v : Nat} {s : State} (hs : s.memOk) : (svcCtlWrite v s).memOk :=
  memOk_ite (memOk_ite hs (memOk_modFirm hs)) (memOk_ite (memOk_modFirm hs) (memOk_ite (memOk_modFirm hs) (memOk_modFirm hs)))
theorem memOk_vtabWrite {f vec : Nat} {high : Bool} {v : Nat} {s : State} (hs : s.memOk) : (vtabWrite f vec high v s).memOk :=
  memOk_modFn hs
theorem memOk_registerWrite {f off : Nat} {v : W64} {s : State} (hs : s.memOk) : (registerWrite f off v s).memOk := by
  unfold registerWrite
  exact memOk_ite hs (memOk_ite (memOk_modFn hs) (memOk_ite (memOk_faultDrain (memOk_modFn hs)) (memOk_ite (memOk_modFn hs) (memOk_ite
    (memOk_vtabWrite hs) (memOk_ite hs (memOk_ite (memOk_modHost hs) (memOk_ite (memOk_svcCtlWrite hs) (memOk_ite (memOk_modFirm hs)
    (memOk_ite (memOk_modFirm hs) hs)))))))))
theorem okStep_execRegisterWrite {f off : Nat} {v : W64} {s : State} (hs : s.memOk) : OkStep (execRegisterWrite f off v s) :=
  memOk_registerWrite hs
theorem okStep_execBlackboxSelWrite {sel : Bool} {s : State} (hs : s.memOk) : OkStep (execBlackboxSelWrite sel s) := memOk_modFirm hs

/-! ### Fault answers (R74, R75) -/

theorem okStep_execFqheadWrite {f : Nat} {v : W64} {s : State} (hs : s.memOk) : OkStep (execFqheadWrite f v s) :=
  memOk_ite (memOk_faultDrain (memOk_modFn hs)) hs
theorem memOk_resumeFiring {h : Nat} {deliver : Bool} {s : State} (hs : s.memOk) : (resumeFiring h deliver s).memOk :=
  memOk_ite (memOk_modCtx hs) (memOk_modCore hs)
theorem memOk_resumeCopy {id cause : Nat} {deliver : Bool} {s : State} (hs : s.memOk) : (resumeCopy id cause deliver s).memOk := by
  unfold resumeCopy
  split
  · exact hs
  · exact memOk_ite (memOk_modCopy hs) (memOk_ite (memOk_modCopy hs) (memOk_modCopy hs))
theorem memOk_resumeQueue {f i va : Nat} {deliver : Bool} {s : State} (hs : s.memOk) : (resumeQueue f i va deliver s).memOk :=
  memOk_ite (memOk_modQ hs) (memOk_ite (memOk_modQ hs) (memOk_ite (memOk_modQ hs) (memOk_failQueue (memOk_modQ hs))))
theorem memOk_resumeWake {core : Nat} {deliver : Bool} {s : State} (hs : s.memOk) : (resumeWake core deliver s).memOk := by
  unfold resumeWake
  refine memOk_ite hs ?_
  split
  · split
    · exact memOk_modFe (memOk_modCore (memOk_supRecord hs))
    · exact hs
  · exact hs
theorem memOk_resumeSave {h : Nat} {deliver : Bool} {s : State} (hs : s.memOk) : (resumeSave h deliver s).memOk := by
  unfold resumeSave
  split
  · exact hs
  · exact memOk_ite (memOk_saveFail hs) (memOk_modSaved hs)
theorem memOk_resumeOne {r : FaultRec} {deliver : Bool} {s : State} {p : Parked} (hs : s.memOk) : (resumeOne r deliver s p).memOk := by
  unfold resumeOne
  split
  · exact memOk_resumeFiring hs
  · exact memOk_resumeCopy hs
  · exact memOk_resumeQueue hs
  · exact memOk_resumeWake hs
  · exact memOk_resumeSave hs
theorem memOk_fresume {f : Nat} {v : W64} {s : State} (hs : s.memOk) : (fresume f v s).memOk := by
  unfold fresume
  refine memOk_ite hs ?_
  split
  · exact memOk_hstatSet hs
  · exact memOk_ite (memOk_hstatSet hs) (memOk_foldl (fun _ _ hu => memOk_resumeOne hu) (memOk_faultClose hs))
theorem okStep_execFresumeRetry {f : Nat} {v : W64} {s : State} (hs : s.memOk) : OkStep (execFresumeRetry f v s) := memOk_fresume hs
theorem okStep_execFresumeDeliver {f : Nat} {v : W64} {s : State} (hs : s.memOk) : OkStep (execFresumeDeliver f v s) := memOk_fresume hs

/-! ### Interrupts (R77) -/

theorem okStep_execCoalesceTimer {f vec : Nat} {s : State} (hs : s.memOk) : OkStep (execCoalesceTimer f vec s) :=
  memOk_ite (memOk_vecSend hs) hs
theorem okStep_execMsixUnmask {f vec : Nat} {s : State} (hs : s.memOk) : OkStep (execMsixUnmask f vec s) :=
  memOk_ite (memOk_modHost (memOk_setFn hs)) hs

/-! ### CXL.mem and CXL.cache (R79 to R82) -/

theorem memOk_dropLine {pa : Nat} {s : State} (hs : s.memOk) : (dropLine pa s).memOk := memOk_modMs (memOk_takeOwner hs)
theorem memOk_hostServe {pa : Nat} {data : Option (BitVec 512)} {s : State} (hs : s.memOk) : (hostServe pa data s).memOk := by
  unfold hostServe
  split
  · exact memOk_memWrite hs
  · exact memOk_modHost (memOk_correct hs)
theorem memOk_hostAccess {addr : Nat} {data : Option (BitVec 512)} {s : State} (hs : s.memOk) : (hostAccess addr data s).memOk :=
  memOk_ite (memOk_ite hs (memOk_modHost hs)) (memOk_ite (memOk_modHost hs) (memOk_hostServe (memOk_ite hs (memOk_dropLine hs))))
theorem okStep_execHostMemAccess {addr : Nat} {data : Option (BitVec 512)} {s : State} (hs : s.memOk) :
    OkStep (execHostMemAccess addr data s) :=
  memOk_ite hs (memOk_hostAccess hs)
theorem okStep_execH2dSnoop {addr : Nat} {data : Option (BitVec 512)} {s : State} (hs : s.memOk) : OkStep (execH2dSnoop addr data s) := by
  unfold execH2dSnoop
  dsimp only
  split
  · refine memOk_poke ?_
    split
    · exact memOk_modMs (memOk_dropLine (memOk_ite (memOk_modHost hs) hs))
    · exact hs
  · split
    · exact memOk_modMs (memOk_dropLine (memOk_ite (memOk_modHost hs) hs))
    · exact hs
theorem memOk_hostFill {pa : Nat} {data : BitVec 512} {own : Bool} {s : State} (hs : s.memOk) : (hostFill pa data own s).memOk := by
  unfold hostFill
  refine memOk_ite hs ?_
  dsimp only
  split
  · exact memOk_ite (memOk_wakeTags (memOk_modMs (memOk_poke (memOk_modPrism hs)))) (memOk_setAtag (memOk_modMs (memOk_poke
      (memOk_modPrism hs))))
  · exact memOk_wakeTags (memOk_modMs (memOk_ite (memOk_modPrism hs) (memOk_memWrite (memOk_modPrism hs))))
theorem okStep_execHostLineFill {addr : Nat} {data : BitVec 512} {own : Bool} {s : State} (hs : s.memOk) :
    OkStep (execHostLineFill addr data own s) :=
  memOk_hostFill hs

/-! ### Bias flips (R83, R84) -/

theorem memOk_biasStatus {busy : Bool} {st : Nat} {s : State} (hs : s.memOk) : (biasStatus busy st s).memOk := memOk_modHost hs
theorem memOk_pageTags {page t : Nat} {s : State} (hs : s.memOk) : (pageTags page t s).memOk :=
  memOk_foldl (fun _ _ hu => memOk_ite hu (memOk_setAtag hu)) hs
theorem memOk_protoTags {page : Nat} {s : State} (hs : s.memOk) : (protoTags page s).memOk :=
  memOk_foldl (fun _ _ hu => memOk_setAtag hu) hs
theorem memOk_biasStart {v : W64} {s : State} (hs : s.memOk) : (biasStart v s).memOk :=
  memOk_ite (memOk_modHost hs) (memOk_ite (memOk_biasStatus hs) (memOk_ite (memOk_biasStatus (memOk_modHost hs)) (memOk_pageTags
    (memOk_biasStatus (memOk_modHost (memOk_modHost hs))))))
theorem okStep_execBiasFlipStart {v : W64} {s : State} (hs : s.memOk) : OkStep (execBiasFlipStart v s) := memOk_biasStart hs
theorem memOk_serveHeld {page : Nat} {s : State} (hs : s.memOk) : (serveHeld page s).memOk :=
  memOk_foldl (fun _ _ hu => memOk_hostAccess hu) (memOk_modHost hs)
theorem memOk_flipNext {x : Flip} {s : State} (hs : s.memOk) : (flipNext x s).memOk :=
  memOk_ite (memOk_vecEvent (memOk_biasStatus (memOk_serveHeld (memOk_modHost hs)))) (memOk_pageTags (memOk_serveHeld (memOk_modHost hs)))
theorem memOk_flipPage {s : State} (hs : s.memOk) : (flipPage s).memOk := by
  unfold flipPage
  split
  · exact hs
  · exact memOk_ite hs (memOk_ite (memOk_modHost hs) (memOk_flipNext (memOk_pageTags (memOk_modHost (memOk_foldl (fun _ _ hu =>
      memOk_dropLine hu) hs)))))
theorem okStep_execBiasFlipPage {s : State} (hs : s.memOk) : OkStep (execBiasFlipPage s) := memOk_flipPage hs
theorem okStep_execRdownnodataCompletion {s : State} (hs : s.memOk) : OkStep (execRdownnodataCompletion s) := by
  unfold execRdownnodataCompletion
  split
  · exact memOk_ite (memOk_flipNext (memOk_protoTags (memOk_modHost hs))) hs
  · exact hs
theorem okStep_execBiasFlipWaitTimeout {s : State} (hs : s.memOk) : OkStep (execBiasFlipWaitTimeout s) := by
  unfold execBiasFlipWaitTimeout
  split
  · exact memOk_ite (memOk_supRecord (memOk_modHost hs)) hs
  · exact hs

/-! ### What a read of BAR0 returns (R63) -/

theorem memOk_barReadDone {f off : Nat} {s : State} (hs : s.memOk) : (barReadDone f off s).memOk := memOk_ite (memOk_modHost hs) hs

/-! ### Function-level resets (R85) -/

theorem memOk_resetFn {f : Nat} {s : State} (hs : s.memOk) : (resetFn f s).memOk :=
  memOk_vecEvent (memOk_modFn (memOk_modFe (memOk_faultPending (memOk_modTr (memOk_foldl (fun _ _ hu => memOk_teardownEnd hu) (memOk_foldl
    (fun _ _ hu1 => memOk_teardown hu1) hs))))))
theorem memOk_setSriov {on : Bool} {s : State} (hs : s.memOk) : (setSriov on s).memOk :=
  memOk_ite hs (memOk_ite (memOk_modHost hs) (memOk_modHost (memOk_foldl (fun _ _ hu => memOk_resetFn hu) hs)))
theorem okStep_execFunctionLevelReset {f : Nat} {s : State} (hs : s.memOk) : OkStep (execFunctionLevelReset f s) :=
  memOk_ite (memOk_resetFn hs) hs
theorem okStep_execPfFunctionLevelReset {s : State} (hs : s.memOk) : OkStep (execPfFunctionLevelReset s) :=
  memOk_modHost (memOk_foldl (fun _ _ hu => memOk_resetFn hu) hs)

/-! ### Service -/

theorem memOk_modSvc {f : Svc → Svc} {s : State} (hs : s.memOk) : (modSvc f s).memOk := memOk_modFirm hs
theorem memOk_svcDone {st : Nat} {s : State} (hs : s.memOk) : (svcDone st s).memOk := memOk_vecEvent (memOk_modSvc hs)
theorem memOk_bufWrite {off n x : Nat} {s : State} (hs : s.memOk) : (bufWrite off n x s).memOk := memOk_hostPoke hs
theorem memOk_svcCmd {n : Nat} {body : State → State} {s : State} (hf1 : OkFn body) (hs : s.memOk) : (svcCmd n body s).memOk :=
  memOk_ite hs (memOk_ite (memOk_svcDone hs) (hf1 _ hs))

/-! ### Identity (R96, R97) -/

theorem okStep_execGetcert {s : State} (hs : s.memOk) : OkStep (execGetcert s) :=
  memOk_svcCmd (fun _ hu => memOk_svcDone (memOk_bufWrite hu)) hs
theorem okStep_execAttest {s : State} (hs : s.memOk) : OkStep (execAttest s) :=
  memOk_svcCmd (fun _ hu => memOk_svcDone (memOk_bufWrite (memOk_bufWrite hu))) hs

/-! ### Hot patches (R98) -/

theorem memOk_fnCall {i : Nat} {s : State} (hs : s.memOk) : (fnCall i s).memOk := memOk_modSvc hs
theorem memOk_fnBack {i : Nat} {s : State} (hs : s.memOk) : (fnBack i s).memOk := memOk_modSvc hs
theorem memOk_patchDone {st : Nat} {s : State} (hs : s.memOk) : (patchDone st s).memOk := memOk_svcDone (memOk_bufWrite hs)
theorem okStep_execPatch {sigOk : Bool} {s : State} (hs : s.memOk) : OkStep (execPatch sigOk s) :=
  memOk_svcCmd (fun _ hu => memOk_ite hu (memOk_ite (memOk_patchDone hu) (memOk_modSvc hu))) hs
theorem okStep_execPatchApply {s : State} (hs : s.memOk) : OkStep (execPatchApply s) := by
  unfold execPatchApply
  split
  · exact memOk_ite hs (memOk_patchDone (memOk_modSvc (memOk_bbWrite (memOk_modSvc hs))))
  · exact hs
theorem okStep_execPatchQuiesceTimeout {s : State} (hs : s.memOk) : OkStep (execPatchQuiesceTimeout s) := by
  unfold execPatchQuiesceTimeout
  split
  · exact memOk_ite (memOk_patchDone (memOk_modSvc hs)) hs
  · exact hs

/-! ### COMMIT and BBCTL (R92, R94, R105) -/

theorem okStep_execCommit {s : State} (hs : s.memOk) : OkStep (execCommit s) :=
  memOk_svcCmd (fun _ hu => memOk_svcDone (memOk_bufWrite (memOk_modSvc hu))) hs
theorem okStep_execBbctlFreeze {s : State} (hs : s.memOk) : OkStep (execBbctlFreeze s) :=
  memOk_svcCmd (fun _ hu => memOk_ite hu (memOk_ite (memOk_svcDone hu) (memOk_svcDone (memOk_bufWrite (memOk_bbFreeze hu))))) hs
theorem okStep_execBbctlUnfreeze {s : State} (hs : s.memOk) : OkStep (execBbctlUnfreeze s) :=
  memOk_svcCmd (fun _ hu => memOk_ite hu (memOk_svcDone (memOk_bufWrite (memOk_modFirm hu)))) hs
theorem okStep_execBlackboxFrozen {die : Nat} {s : State} (hs : s.memOk) : OkStep (execBlackboxFrozen die s) :=
  memOk_ite (memOk_modFirm hs) hs

/-! ### FABCFG (R95) -/

/-- The state of an entry that is written has canonical memories. -/
def OkCfg : Option (List Bool × State) → Prop
  | some p => p.2.memOk
  | none => True
theorem OkCfg.ite {c : Prop} [Decidable c] {x y : Option (List Bool × State)} (hx : OkCfg x) (hy : OkCfg y) :
    OkCfg (if c then x else y) := by
  split
  · exact hx
  · exact hy
theorem okCfg_cfgRoute {dest v : Nat} {oks : List Bool} {s : State} (hs : s.memOk) : OkCfg (cfgRoute dest v oks s) := by
  unfold cfgRoute
  generalize BitVec.ofNat 32 _ = r
  refine .ite trivial ?_
  split
  exact memOk_noteDown (memOk_routeBack (memOk_setRoute hs))
theorem okOpt_cfgDom {i v : Nat} {s : State} (hs : s.memOk) : OkOpt (cfgDom i v s) := OkOpt.ite trivial (memOk_setDom hs)
theorem okCfg_map {oks : List Bool} {o : Option State} (h : OkOpt o) : OkCfg (o.map fun s => (oks, s)) := by
  cases o with
  | some t => exact h
  | none => trivial
theorem okCfg_cfgEntry {x : Nat} {oks : List Bool} {s : State} (hs : s.memOk) : OkCfg (cfgEntry x oks s) := by
  unfold cfgEntry
  refine .ite trivial ?_
  split
  · exact okCfg_cfgRoute hs
  · exact okCfg_map (okOpt_cfgDom hs)
  · exact .ite trivial (memOk_modFab hs)
  · trivial
theorem memOk_cfgAll {n k : Nat} {oks : List Bool} {s : State} (hs : s.memOk) : (cfgAll n k oks s).2.2.memOk := by
  induction n generalizing k oks s with
  | zero => exact hs
  | succ n ih =>
    have he := okCfg_cfgEntry (x := bufRead s (16 + 16 * k) 16) (oks := oks) hs
    unfold cfgAll
    split
    · exact hs
    · rename_i heq
      rw [heq] at he
      exact ih he
theorem okStep_execFabcfg {pathOk : List Bool} {s : State} (hs : s.memOk) : OkStep (execFabcfg pathOk s) :=
  memOk_svcCmd (fun _ hu => memOk_ite (memOk_svcDone hu) (memOk_svcDone (memOk_bufWrite (memOk_cfgAll hu)))) hs

/-! ### Firmware -/

theorem memOk_bbControl {io event : Nat} {data : List Nat} {s : State} (hs : s.memOk) : (bbControl io event data s).memOk :=
  memOk_bbWrite hs

/-! ### Fencing (R99, R100) -/

theorem memOk_setRole {role : Nat} {s : State} {k : Nat} (hs : s.memOk) : (setRole role s k).memOk := memOk_modRegs hs
theorem memOk_fenceCore {s : State} {core : Nat} (hs : s.memOk) : (fenceCore s core).memOk :=
  memOk_foldl (fun _ _ hu => memOk_undeliverable hu) (memOk_modCore (memOk_modFe (memOk_leaveFaults (memOk_shareReport (memOk_modCore
    (memOk_abortCore hs))))))
theorem memOk_fenceStrips {ks : List Nat} {s : State} (hs : s.memOk) : (fenceStrips ks s).memOk := by
  unfold fenceStrips
  exact memOk_bbControl (memOk_foldl (fun _ _ hu => memOk_modCtx hu) (memOk_modMs (memOk_foldl (fun _ _ hu1 => memOk_fenceCore hu1)
    (memOk_foldl (fun _ _ hu2 => memOk_abortPlaced hu2) (memOk_bbControl (memOk_bbControl (memOk_foldl (fun _ _ hu3 => memOk_setRole hu3)
    hs)))))))

/-! ### Resetting strips (R28 to R30, R251) -/

theorem memOk_resetLine {failed : List Nat} {s : State} {e : Nat × L2Line} (hs : s.memOk) : (resetLine failed s e).memOk := by
  unfold resetLine
  refine memOk_modMs ?_
  split
  · exact memOk_ite (memOk_bbControl (memOk_sendSeq hs)) (memOk_ite (memOk_slicePutm hs) (memOk_sendPuts hs))
  · exact memOk_ite (memOk_bbControl (memOk_poisonBlock hs)) hs
theorem memOk_keep {p : Nat × Byte → Bool} {f : MemSt → MemSt} {s : State} (hs : s.memOk)
    (hf : ∀ m, (f m).mem = m.mem.filter p ∧ (f m).hostio = m.hostio) : (modMs f s).memOk := by
  obtain ⟨hm, hh⟩ := hs
  obtain ⟨em, eh⟩ := hf s.ms
  exact ⟨by rw [modMs_ms, em]; exact SMap.wf_filter _ hm, by rw [modMs_ms, eh]; exact hh⟩
theorem memOk_clearStrips {ks : List Nat} {s : State} (hs : s.memOk) : (clearStrips ks s).memOk :=
  memOk_modTr (memOk_keep (p := fun e => !inWindows ks (1 * e.1)) (memOk_mk hs) fun _ => ⟨rfl, rfl⟩)
theorem memOk_resetStrips {ks failed : List Nat} {s : State} (hs : s.memOk) : (resetStrips ks failed s).memOk :=
  memOk_bbControl (memOk_clearStrips (memOk_foldl (fun _ _ hu => memOk_resetLine hu) hs))

/-! ### CONTAIN (R94, R99) -/

theorem memOk_containDone {ks : List Nat} {st : Nat} {s : State} (hs : s.memOk) : (containDone ks st s).memOk :=
  memOk_svcDone (memOk_bufWrite hs)
theorem memOk_contain {r : Rect} {action : Nat} {refused : State → Rect → Nat} {go : List Nat → State → State} {s : State} (hf3 : ∀ x0 x1,
    x1.memOk → (go x0 x1).memOk) (hs : s.memOk) :
    (contain r action refused go s).memOk :=
  memOk_ite hs (memOk_svcCmd (fun _ hu => memOk_ite hu (memOk_ite (memOk_svcDone hu) (memOk_containDone (hf3 _ _ hu)))) hs)
theorem okStep_execContainFence {r : Rect} {s : State} (hs : s.memOk) : OkStep (execContainFence r s) :=
  memOk_ite (memOk_svcDone hs) (memOk_contain (fun _ _ hu => memOk_fenceStrips hu) hs)
theorem okStep_execContainReset {r : Rect} {failed : List Nat} {s : State} (hs : s.memOk) : OkStep (execContainReset r failed s) :=
  memOk_contain (fun _ _ hu => memOk_resetStrips (memOk_fenceStrips hu)) hs
theorem okStep_execContainRelease {r : Rect} {s : State} (hs : s.memOk) : OkStep (execContainRelease r s) :=
  memOk_contain (fun _ _ hu => memOk_bbControl (memOk_foldl (fun _ _ hu1 => memOk_setRole hu1) hu)) hs
theorem okStep_execComputeDieReset {die : Nat} {failed : List Nat} {s : State} (hs : s.memOk) :
    OkStep (execComputeDieReset die failed s) :=
  memOk_ite hs (memOk_vecEvent (memOk_bbFreeze (memOk_bbControl (memOk_resetStrips (memOk_fenceStrips hs)))))

/-! ### Boot (R90 to R92) -/

theorem memOk_bareDevice {s : State} (hs : s.memOk) : (bareDevice s).memOk := by
  obtain ⟨hm, hh⟩ := hs
  exact ⟨SMap.wf_filter _ hm, hh⟩
theorem memOk_bootFrom {isA : Bool} {t : FlashSlot} {s : State} (hs : s.memOk) : (bootFrom isA t s).memOk := memOk_mk hs
theorem memOk_boot {s : State} (hs : s.memOk) : (boot s).memOk :=
  memOk_ite (memOk_bootFrom hs) (memOk_ite (memOk_bootFrom hs) (memOk_bbControl (memOk_mk hs)))
theorem okStep_execPowerOn {s : State} (hs : s.memOk) : OkStep (execPowerOn s) :=
  memOk_boot (memOk_modFirm (memOk_bareDevice (memOk_mk hs)))
theorem memOk_deviceReset {s : State} (hs : s.memOk) : (deviceReset s).memOk :=
  memOk_boot (memOk_bbFreeze (memOk_bbControl (memOk_mk (memOk_bareDevice hs))))
theorem okStep_execDeviceReset {s : State} (hs : s.memOk) : OkStep (execDeviceReset s) := memOk_ite (memOk_deviceReset hs) hs
theorem okStep_execStandbyPowerLoss {s : State} (hs : s.memOk) : OkStep (execStandbyPowerLoss s) := memOk_modFirm (memOk_bareDevice hs)

/-! ### Power and temperature (R27, R86) -/

theorem memOk_setThrottle {die step : Nat} {s : State} (hs : s.memOk) : (setThrottle die step s).memOk :=
  memOk_ite hs (memOk_bbControl (memOk_modHost hs))
theorem okStep_execPowerLimitWindow {die step : Nat} {s : State} (hs : s.memOk) : OkStep (execPowerLimitWindow die step s) :=
  memOk_setThrottle hs
theorem okStep_execThermalThrottle {die step : Nat} {s : State} (hs : s.memOk) : OkStep (execThermalThrottle die step s) :=
  memOk_ite hs (memOk_setThrottle hs)
theorem okStep_execThermalTrip {die : Nat} {s : State} (hs : s.memOk) : OkStep (execThermalTrip die s) :=
  memOk_ite hs (memOk_deviceReset (memOk_bbControl hs))
theorem okStep_execMgmtUpdate {pavg last : Nat} {temps : BitVec 48} {s : State} (hs : s.memOk) :
    OkStep (execMgmtUpdate pavg last temps s) :=
  memOk_modHost hs

/-! ### Strip-map changes (R17, R19) -/

theorem memOk_preemptStrip {k : Nat} {s : State} (hs : s.memOk) : (preemptStrip k s).memOk :=
  memOk_foldl (fun _ _ hu => memOk_foldl (fun _ _ hu1 => memOk_preempt hu1) hu) (memOk_foldl (fun _ _ hu2 => memOk_preempt hu2) hs)
theorem memOk_moveStrip {k : Nat} {e : BitVec 32} {s : State} (hs : s.memOk) : (moveStrip k e s).memOk :=
  memOk_modStrip (memOk_modMs (memOk_modRegs (memOk_modTr (memOk_foldl (fun _ _ hu => memOk_modCore hu) hs))))
theorem memOk_stripMapChange {k : Nat} {e : BitVec 32} {s : State} (hs : s.memOk) : (stripMapChange k e s).memOk := by
  unfold stripMapChange
  split
  · exact memOk_ite (memOk_moveStrip hs) (memOk_ite (memOk_modStrip hs) (memOk_preemptStrip hs))
  · exact memOk_ite hs (memOk_preemptStrip (memOk_modStrip hs))
theorem okStep_execStripMapChange {strip : Nat} {entry : BitVec 32} {s : State} (hs : s.memOk) :
    OkStep (execStripMapChange strip entry s) :=
  memOk_stripMapChange hs
theorem okStep_execFencedAccessRetry {idx : Nat} {s : State} (hs : s.memOk) : OkStep (execFencedAccessRetry idx s) := by
  unfold execFencedAccessRetry
  split
  · exact memOk_ite (memOk_wakeTags (memOk_modMs hs)) hs
  · exact hs

/-! ### Scrubbing (R102, R103) -/

theorem memOk_upsets {page : Nat} {ecc : List Nat} {bad : Bool} {s : State} (hs : s.memOk) : (upsets page ecc bad s).memOk :=
  memOk_ite (memOk_strike (memOk_foldl (fun _ _ hu => memOk_strike hu) hs)) (memOk_foldl (fun _ _ hu1 => memOk_strike hu1) hs)
theorem memOk_scrubPage {page : Nat} {s : State} (hs : s.memOk) : (scrubPage page s).memOk :=
  memOk_ite hs (memOk_ite (memOk_supRecord (memOk_bbWrite (memOk_correct (memOk_modFirm hs)))) (memOk_correct (memOk_modFirm hs)))
theorem okStep_execPatrolScrub {page : Nat} {ecc : List Nat} {integBad : Bool} {s : State} (hs : s.memOk) :
    OkStep (execPatrolScrub page ecc integBad s) :=
  memOk_scrubPage (memOk_upsets hs)

/-! ### Mirror pairs (R101, R201, R202) -/

theorem memOk_modPair {c : Nat} {f : Pair → Pair} {s : State} (hs : s.memOk) : (modPair c f s).memOk := memOk_modGrp hs
theorem memOk_mirrorConfirm {c : Nat} {s : State} (hs : s.memOk) : (mirrorConfirm c s).memOk := by
  unfold mirrorConfirm
  split
  · exact hs
  · exact memOk_ite hs (memOk_modPair (memOk_ite (memOk_supRecord (memOk_modCtx (memOk_modCore hs))) (memOk_modCtx (memOk_modCore hs))))
theorem okStep_execMirrorIntervalConfirm {cid : Nat} {s : State} (hs : s.memOk) : OkStep (execMirrorIntervalConfirm cid s) :=
  memOk_mirrorConfirm hs
theorem memOk_rollBack {c : Nat} {p : Pair} {s : State} (hs : s.memOk) : (rollBack c p s).memOk :=
  memOk_modPair (memOk_modCtx (memOk_setCtx (memOk_modPools hs)))
theorem memOk_mirrorMismatch {c : Nat} {s : State} (hs : s.memOk) : (mirrorMismatch c s).memOk := by
  unfold mirrorMismatch
  split
  · exact hs
  · exact memOk_ite (memOk_rollBack hs) (memOk_vecEvent (memOk_fenceStrips (memOk_bbFreeze (memOk_bbControl (memOk_supRecord hs)))))
theorem okStep_execMirrorMismatch {cid : Nat} {s : State} (hs : s.memOk) : OkStep (execMirrorMismatch cid s) := memOk_mirrorMismatch hs

/-! ### Dispatch -/

theorem okStep_exec {i : Instr} {s : State} (hs : s.memOk) : OkStep (exec i s) := by
  cases i with
  | nop => exact okStep_execNop hs
  | add => exact okStep_execAdd hs
  | addW => exact okStep_execAddW hs
  | sub => exact okStep_execSub hs
  | subW => exact okStep_execSubW hs
  | mul => exact okStep_execMul hs
  | mulh => exact okStep_execMulh hs
  | mulhu => exact okStep_execMulhu hs
  | mulW => exact okStep_execMulW hs
  | div => exact okStep_execDiv hs
  | divu => exact okStep_execDivu hs
  | rem => exact okStep_execRem hs
  | remu => exact okStep_execRemu hs
  | and => exact okStep_execAnd hs
  | or => exact okStep_execOr hs
  | xor => exact okStep_execXor hs
  | andn => exact okStep_execAndn hs
  | shl => exact okStep_execShl hs
  | shr => exact okStep_execShr hs
  | sra => exact okStep_execSra hs
  | ror => exact okStep_execRor hs
  | seq => exact okStep_execSeq hs
  | sne => exact okStep_execSne hs
  | slt => exact okStep_execSlt hs
  | sge => exact okStep_execSge hs
  | sltu => exact okStep_execSltu hs
  | sgeu => exact okStep_execSgeu hs
  | min => exact okStep_execMin hs
  | max => exact okStep_execMax hs
  | minu => exact okStep_execMinu hs
  | maxu => exact okStep_execMaxu hs
  | clz => exact okStep_execClz hs
  | ctz => exact okStep_execCtz hs
  | popc => exact okStep_execPopc hs
  | brev => exact okStep_execBrev hs
  | bswap => exact okStep_execBswap hs
  | ext => exact okStep_execExt hs
  | extu => exact okStep_execExtu hs
  | ins => exact okStep_execIns hs
  | csel => exact okStep_execCsel hs
  | cselz => exact okStep_execCselz hs
  | madd => exact okStep_execMadd hs
  | cinc => exact okStep_execCinc hs
  | cseta => exact okStep_execCseta hs
  | csetb => exact okStep_execCsetb hs
  | csetbO => exact okStep_execCsetbO hs
  | cperm => exact okStep_execCperm hs
  | cfmt => exact okStep_execCfmt hs
  | cgetAddr => exact okStep_execCgetAddr hs
  | cgetBase => exact okStep_execCgetBase hs
  | cgetLen => exact okStep_execCgetLen hs
  | cgetPerm => exact okStep_execCgetPerm hs
  | cgetFmt => exact okStep_execCgetFmt hs
  | cgetK => exact okStep_execCgetK hs
  | cgetTag => exact okStep_execCgetTag hs
  | cgetTop => exact okStep_execCgetTop hs
  | mov => exact okStep_execMov hs
  | movd => exact okStep_execMovd hs
  | csub => exact okStep_execCsub hs
  | cchk => exact okStep_execCchk hs
  | beq => exact okStep_execBeq hs
  | bne => exact okStep_execBne hs
  | blt => exact okStep_execBlt hs
  | bge => exact okStep_execBge hs
  | bltu => exact okStep_execBltu hs
  | bgeu => exact okStep_execBgeu hs
  | bz => exact okStep_execBz hs
  | bnz => exact okStep_execBnz hs
  | jmp => exact okStep_execJmp hs
  | jmpC => exact okStep_execJmpC hs
  | call => exact okStep_execCall hs
  | callC => exact okStep_execCallC hs
  | ret => exact okStep_execRet hs
  | loop => exact okStep_execLoop hs
  | endFiring => exact okStep_execEndFiring hs
  | ende => exact okStep_execEnde hs
  | yield => exact okStep_execYield hs
  | waitt => exact okStep_execWaitt hs
  | waiteMsg => exact okStep_execWaiteMsg hs
  | waiteStr => exact okStep_execWaiteStr hs
  | waiteRing => exact okStep_execWaiteRing hs
  | waiteSlot => exact okStep_execWaiteSlot hs
  | fire => exact okStep_execFire hs
  | trap => exact okStep_execTrap hs
  | eret => exact okStep_execEret hs
  | growC => exact okStep_execGrowC hs
  | growV => exact okStep_execGrowV hs
  | shrinkC => exact okStep_execShrinkC hs
  | shrinkV => exact okStep_execShrinkV hs
  | ld => exact okStep_execLd hs
  | st => exact okStep_execSt hs
  | ldc => exact okStep_execLdc hs
  | stc => exact okStep_execStc hs
  | ldaq => exact okStep_execLdaq hs
  | strl => exact okStep_execStrl hs
  | fenceAr => exact okStep_execFenceAr hs
  | fenceAcq => exact okStep_execFenceAcq hs
  | fenceRel => exact okStep_execFenceRel hs
  | fenceFull => exact okStep_execFenceFull hs
  | movb => exact okStep_execMovb hs
  | fill => exact okStep_execFill hs
  | ipinL1i => exact okStep_execIpinL1i hs
  | ipinL2 => exact okStep_execIpinL2 hs
  | ipinPf1 => exact okStep_execIpinPf1 hs
  | ipinPf2 => exact okStep_execIpinPf2 hs
  | ipinUn => exact okStep_execIpinUn hs
  | cacheWb => exact okStep_execCacheWb hs
  | cacheInv => exact okStep_execCacheInv hs
  | cachePf1 => exact okStep_execCachePf1 hs
  | cachePf2 => exact okStep_execCachePf2 hs
  | aadd => exact okStep_execAadd hs
  | aand => exact okStep_execAand hs
  | aor => exact okStep_execAor hs
  | axor => exact okStep_execAxor hs
  | amin => exact okStep_execAmin hs
  | amax => exact okStep_execAmax hs
  | aminu => exact okStep_execAminu hs
  | amaxu => exact okStep_execAmaxu hs
  | aswp => exact okStep_execAswp hs
  | afadd => exact okStep_execAfadd hs
  | afmax => exact okStep_execAfmax hs
  | acas => exact okStep_execAcas hs
  | redadd => exact okStep_execRedadd hs
  | redand => exact okStep_execRedand hs
  | redor => exact okStep_execRedor hs
  | redxor => exact okStep_execRedxor hs
  | redmin => exact okStep_execRedmin hs
  | redmax => exact okStep_execRedmax hs
  | redminu => exact okStep_execRedminu hs
  | redmaxu => exact okStep_execRedmaxu hs
  | redfadd => exact okStep_execRedfadd hs
  | redfmax => exact okStep_execRedfmax hs
  | take => exact okStep_execTake hs
  | peek => exact okStep_execPeek hs
  | trytake => exact okStep_execTrytake hs
  | feget => exact okStep_execFeget hs
  | put => exact okStep_execPut hs
  | fput => exact okStep_execFput hs
  | fclr => exact okStep_execFclr hs
  | bar => exact okStep_execBar hs
  | barin => exact okStep_execBarin hs
  | barwt => exact okStep_execBarwt hs
  | barmax => exact okStep_execBarmax hs
  | gang => exact okStep_execGang hs
  | send => exact okStep_execSend hs
  | sendC => exact okStep_execSendC hs
  | sendR => exact okStep_execSendR hs
  | nput => exact okStep_execNput hs
  | nputArm => exact okStep_execNputArm hs
  | push => exact okStep_execPush hs
  | consume => exact okStep_execConsume hs
  | vadd => exact okStep_execVadd hs
  | vsub => exact okStep_execVsub hs
  | vmul => exact okStep_execVmul hs
  | vfma => exact okStep_execVfma hs
  | vfms => exact okStep_execVfms hs
  | vmin => exact okStep_execVmin hs
  | vmax => exact okStep_execVmax hs
  | vand => exact okStep_execVand hs
  | vor => exact okStep_execVor hs
  | vxor => exact okStep_execVxor hs
  | vandn => exact okStep_execVandn hs
  | vshl => exact okStep_execVshl hs
  | vshr => exact okStep_execVshr hs
  | vsra => exact okStep_execVsra hs
  | vcmp => exact okStep_execVcmp hs
  | vsel => exact okStep_execVsel hs
  | mand => exact okStep_execMand hs
  | mor => exact okStep_execMor hs
  | mxor => exact okStep_execMxor hs
  | mnot => exact okStep_execMnot hs
  | mpop => exact okStep_execMpop hs
  | mfirst => exact okStep_execMfirst hs
  | vrcp => exact okStep_execVrcp hs
  | vrsq => exact okStep_execVrsq hs
  | vexp2 => exact okStep_execVexp2 hs
  | vlog2 => exact okStep_execVlog2 hs
  | vsqrt => exact okStep_execVsqrt hs
  | vtanh => exact okStep_execVtanh hs
  | vredsum => exact okStep_execVredsum hs
  | vredmax => exact okStep_execVredmax hs
  | vredmin => exact okStep_execVredmin hs
  | vscan => exact okStep_execVscan hs
  | vperm => exact okStep_execVperm hs
  | vbcast => exact okStep_execVbcast hs
  | vextr => exact okStep_execVextr hs
  | vins => exact okStep_execVins hs
  | vmov => exact okStep_execVmov hs
  | vld => exact okStep_execVld hs
  | vldS => exact okStep_execVldS hs
  | vldG => exact okStep_execVldG hs
  | vst => exact okStep_execVst hs
  | vstS => exact okStep_execVstS hs
  | vstX => exact okStep_execVstX hs
  | vcvt => exact okStep_execVcvt hs
  | vqnt => exact okStep_execVqnt hs
  | vdeq => exact okStep_execVdeq hs
  | sbind => exact okStep_execSbind hs
  | sunbind => exact okStep_execSunbind hs
  | sstat => exact okStep_execSstat hs
  | sclaim => exact okStep_execSclaim hs
  | srel => exact okStep_execSrel hs
  | sfmt => exact okStep_execSfmt hs
  | sload => exact okStep_execSload hs
  | mma => exact okStep_execMma hs
  | azero => exact okStep_execAzero hs
  | astore => exact okStep_execAstore hs
  | aload => exact okStep_execAload hs
  | ascale => exact okStep_execAscale hs
  | amovv => exact okStep_execAmovv hs
  | mfc => exact okStep_execMfc hs
  | mtc => exact okStep_execMtc hs
  | cpgo => exact okStep_execCpgo hs
  | compose => exact okStep_execCompose hs
  | decompose => exact okStep_execDecompose hs
  | pair => exact okStep_execPair hs
  | unpair => exact okStep_execUnpair hs
  | ctxSave => exact okStep_execCtxSave hs
  | ctxLoad => exact okStep_execCtxLoad hs
  | ctxDrop => exact okStep_execCtxDrop hs
  | tlbinvVa => exact okStep_execTlbinvVa hs
  | tlbinvAsid => exact okStep_execTlbinvAsid hs
  | tlbinvAll => exact okStep_execTlbinvAll hs
  | tagset => exact okStep_execTagset hs
  | dirrd => exact okStep_execDirrd hs
  | dirwr => exact okStep_execDirwr hs
  | reply => exact okStep_execReply hs
  | fwd => exact okStep_execFwd hs
  | btx => exact okStep_execBtx hs
  | hdone => exact okStep_execHdone hs
  | actmsg => exact okStep_execActmsg hs
  | sweep => exact okStep_execSweep hs
  | signal => exact okStep_execSignal hs
  | wait => exact okStep_execWait hs
  | waitReread => exact okStep_execWaitReread hs
  | write => exact okStep_execWrite hs
  | pred => exact okStep_execPred hs
  | ind => exact okStep_execInd hs
  | loopPacket => exact okStep_execLoopPacket hs
  | ffence => exact okStep_execFfence hs
  | intr => exact okStep_execIntr hs
  | graph => exact okStep_execGraph hs
  | packetBarrierIssue => exact okStep_execPacketBarrierIssue hs
  | powerOn => exact okStep_execPowerOn hs
  | deviceReset => exact okStep_execDeviceReset hs
  | functionLevelReset => exact okStep_execFunctionLevelReset hs
  | pfFunctionLevelReset => exact okStep_execPfFunctionLevelReset hs
  | computeDieReset => exact okStep_execComputeDieReset hs
  | standbyPowerLoss => exact okStep_execStandbyPowerLoss hs
  | powerLimitWindow => exact okStep_execPowerLimitWindow hs
  | thermalThrottle => exact okStep_execThermalThrottle hs
  | thermalTrip => exact okStep_execThermalTrip hs
  | mgmtUpdate => exact okStep_execMgmtUpdate hs
  | stripMapChange => exact okStep_execStripMapChange hs
  | fencedAccessRetry => exact okStep_execFencedAccessRetry hs
  | flitCrcResend => exact okStep_execFlitCrcResend hs
  | linkResendFailureLimit => exact okStep_execLinkResendFailureLimit hs
  | blockLockLoss => exact okStep_execBlockLockLoss hs
  | linkIdleTimeout => exact okStep_execLinkIdleTimeout hs
  | idleFlit => exact okStep_execIdleFlit hs
  | linkTraining => exact okStep_execLinkTraining hs
  | rd => exact okStep_execRd hs
  | wr => exact okStep_execWr hs
  | wrm => exact okStep_execWrm hs
  | amo => exact okStep_execAmo hs
  | redc => exact okStep_execRedc hs
  | msg => exact okStep_execMsg hs
  | sig => exact okStep_execSig hs
  | prb => exact okStep_execPrb hs
  | rdata => exact okStep_execRdata hs
  | ares => exact okStep_execAres hs
  | ack => exact okStep_execAck hs
  | nak => exact okStep_execNak hs
  | mrep => exact okStep_execMrep hs
  | sync => exact okStep_execSync hs
  | ackTimer => exact okStep_execAckTimer hs
  | tackExpiry => exact okStep_execTackExpiry hs
  | unreachableTimeout => exact okStep_execUnreachableTimeout hs
  | resyncHoldExpiry => exact okStep_execResyncHoldExpiry hs
  | nakRetryResend => exact okStep_execNakRetryResend hs
  | pathCheck => exact okStep_execPathCheck hs
  | baraSend => exact okStep_execBaraSend hs
  | barb => exact okStep_execBarb hs
  | treeNotice => exact okStep_execTreeNotice hs
  | barbTimeout => exact okStep_execBarbTimeout hs
  | postResetSync => exact okStep_execPostResetSync hs
  | scaleOutFrame => exact okStep_execScaleOutFrame hs
  | hvselWrite => exact okStep_execHvselWrite hs
  | hstatWrite => exact okStep_execHstatWrite hs
  | vfctlWrite => exact okStep_execVfctlWrite hs
  | qdirbaseWrite => exact okStep_execQdirbaseWrite hs
  | registerWrite => exact okStep_execRegisterWrite hs
  | blackboxSelWrite => exact okStep_execBlackboxSelWrite hs
  | fqheadWrite => exact okStep_execFqheadWrite hs
  | fresumeRetry => exact okStep_execFresumeRetry hs
  | fresumeDeliver => exact okStep_execFresumeDeliver hs
  | coalesceTimer => exact okStep_execCoalesceTimer hs
  | msixUnmask => exact okStep_execMsixUnmask hs
  | biasFlipStart => exact okStep_execBiasFlipStart hs
  | biasFlipPage => exact okStep_execBiasFlipPage hs
  | biasFlipWaitTimeout => exact okStep_execBiasFlipWaitTimeout hs
  | hostMemAccess => exact okStep_execHostMemAccess hs
  | h2dSnoop => exact okStep_execH2dSnoop hs
  | hostLineFill => exact okStep_execHostLineFill hs
  | wptrPoll => exact okStep_execWptrPoll hs
  | getcert => exact okStep_execGetcert hs
  | attest => exact okStep_execAttest hs
  | patch => exact okStep_execPatch hs
  | patchApply => exact okStep_execPatchApply hs
  | patchQuiesceTimeout => exact okStep_execPatchQuiesceTimeout hs
  | containFence => exact okStep_execContainFence hs
  | containReset => exact okStep_execContainReset hs
  | containRelease => exact okStep_execContainRelease hs
  | commit => exact okStep_execCommit hs
  | bbctlFreeze => exact okStep_execBbctlFreeze hs
  | bbctlUnfreeze => exact okStep_execBbctlUnfreeze hs
  | blackboxFrozen => exact okStep_execBlackboxFrozen hs
  | fabcfg => exact okStep_execFabcfg hs
  | patrolScrub => exact okStep_execPatrolScrub hs
  | graphNodeComplete => exact okStep_execGraphNodeComplete hs
  | gangMap => exact okStep_execGangMap hs
  | unmappedQueuePoll => exact okStep_execUnmappedQueuePoll hs
  | queueTeardown => exact okStep_execQueueTeardown hs
  | sweepSignal => exact okStep_execSweepSignal hs
  | sweepWakeAccept => exact okStep_execSweepWakeAccept hs
  | firingPlace => exact okStep_execFiringPlace hs
  | fifoFire => exact okStep_execFifoFire hs
  | fifoEntryArrival => exact okStep_execFifoEntryArrival hs
  | creditReturn => exact okStep_execCreditReturn hs
  | fifoTableWrite => exact okStep_execFifoTableWrite hs
  | bindingWrite => exact okStep_execBindingWrite hs
  | messageArrival => exact okStep_execMessageArrival hs
  | undeliverableReturn => exact okStep_execUndeliverableReturn hs
  | growstall => exact okStep_execGrowstall hs
  | priorityAgeing => exact okStep_execPriorityAgeing hs
  | slotLimitExpiry => exact okStep_execSlotLimitExpiry hs
  | resultArrival => exact okStep_execResultArrival hs
  | feWaiterRetry => exact okStep_execFeWaiterRetry hs
  | preempt => exact okStep_execPreempt hs
  | saveComplete => exact okStep_execSaveComplete hs
  | restore => exact okStep_execRestore hs
  | neighbourWriteArrival => exact okStep_execNeighbourWriteArrival hs
  | storeAck => exact okStep_execStoreAck hs
  | streamPrefetch => exact okStep_execStreamPrefetch hs
  | ownershipNotice => exact okStep_execOwnershipNotice hs
  | stripAtomicAck => exact okStep_execStripAtomicAck hs
  | replicaForward => exact okStep_execReplicaForward hs
  | replicaMarkAck => exact okStep_execReplicaMarkAck hs
  | l2Eviction => exact okStep_execL2Eviction hs
  | gangWatchdog => exact okStep_execGangWatchdog hs
  | arrayOperationStart => exact okStep_execArrayOperationStart hs
  | mmaRetire => exact okStep_execMmaRetire hs
  | lensStart => exact okStep_execLensStart hs
  | lensBranchResolve => exact okStep_execLensBranchResolve hs
  | mirrorIntervalConfirm => exact okStep_execMirrorIntervalConfirm hs
  | mirrorMismatch => exact okStep_execMirrorMismatch hs
  | pairStart => exact okStep_execPairStart hs
  | prismDispatch => exact okStep_execPrismDispatch hs
  | gets => exact okStep_execGets hs
  | getm => exact okStep_execGetm hs
  | puts => exact okStep_execPuts hs
  | putm => exact okStep_execPutm hs
  | pdata => exact okStep_execPdata hs
  | probeAnswer => exact okStep_execProbeAnswer hs
  | lread => exact okStep_execLread hs
  | lwrite => exact okStep_execLwrite hs
  | latom => exact okStep_execLatom hs
  | grant => exact okStep_execGrant hs
  | update => exact okStep_execUpdate hs
  | proxyProbe => exact okStep_execProxyProbe hs
  | lost => exact okStep_execLost hs
  | pushrel => exact okStep_execPushrel hs
  | fwdNak => exact okStep_execFwdNak hs
  | handlerWatchdog => exact okStep_execHandlerWatchdog hs
  | prismSpillDrain => exact okStep_execPrismSpillDrain hs
  | retryRedispatch => exact okStep_execRetryRedispatch hs
  | rtsync => exact okStep_execRtsync hs
  | rebind => exact okStep_execRebind hs
  | unbusy => exact okStep_execUnbusy hs
  | setwd => exact okStep_execSetwd hs
  | migrate => exact okStep_execMigrate hs
  | migdone => exact okStep_execMigdone hs
  | partialEntryTimeout => exact okStep_execPartialEntryTimeout hs
  | copyComplete => exact okStep_execCopyComplete hs
  | promiseMissed => exact okStep_execPromiseMissed hs
  | tlbWalkComplete => exact okStep_execTlbWalkComplete hs
  | waittExpiry => exact okStep_execWaittExpiry hs
  | rdownnodataCompletion => exact okStep_execRdownnodataCompletion hs

/-! ### Next -/

theorem memOk_countGangs {dt : Nat} {s : State} (hs : s.memOk) : (countGangs dt s).memOk := memOk_ite (memOk_mk hs) hs
theorem memOk_worldActs {s : State} {e : Env} (hs : s.memOk) : (worldActs s e).memOk := by
  unfold worldActs
  split
  · exact memOk_strike hs
  · exact memOk_fnCall hs
  · exact memOk_fnBack hs
  · exact memOk_barReadDone hs
  · exact memOk_setSriov hs
  · exact memOk_modHost hs
  · exact memOk_flitIn hs
  · exact memOk_msgLeaves hs
theorem memOk_elapse {dt : Nat} {env : List Env} {s : State} (hs : s.memOk) : (elapse dt env s).memOk :=
  memOk_foldl (fun _ _ hu => memOk_worldActs hu) (memOk_fauTurn (memOk_countGangs (memOk_mk hs)))
theorem okTurn_coreTurn {core : Nat} {s : State} (hs : s.memOk) : OkTurn (coreTurn core s) := by
  unfold coreTurn
  refine OkTurn.ite hs ?_
  split
  · exact OkTurn.ite trivial hs
  · refine OkTurn.ite hs ?_
    dsimp only
    split
    · exact OkTurn.ite (memOk_trapAt (memOk_takeSlot hs)) (memOk_modHere (memOk_leaveSlot (memOk_takeSlot hs)))
    · exact okTurn_fetchTurn keeps_fetchCore (memOk_takeSlot hs)
    · exact OkTurn.ite (memOk_trapAt (memOk_modFir (memOk_takeSlot hs))) (memOk_trapAt (memOk_takeSlot hs))
    · exact OkTurn.ite (memOk_tryStop (memOk_takeSlot hs)) (okTurn_fetchTurn keeps_fetchCore (memOk_dealLens (memOk_takeSlot hs)))
theorem okTurn_threadTurn {p t : Nat} {s : State} (hs : s.memOk) : OkTurn (threadTurn p t s) :=
  OkTurn.ite (okTurn_fetchTurn keeps_fetchThread (memOk_mk hs)) hs
theorem okTurn_turnOf {a : Act} {s : State} (hs : s.memOk) : OkTurn (turnOf a s) := by
  unfold turnOf
  split
  · exact hs
  · exact OkTurn.ite (okTurn_coreTurn hs) hs
  · exact OkTurn.ite (okTurn_threadTurn hs) hs
  · exact OkTurn.ite (okTurn_packetTurn hs) hs
theorem okTurn_nextTurn {s : State} (hs : s.memOk) : OkTurn (nextTurn s) := by
  unfold nextTurn
  split
  · exact okTurn_turnOf (memOk_elapse hs)
  · exact okTurn_turnOf (memOk_elapse (memOk_mk hs))


/-! ### Step -/

theorem okStep_step {s : State} (hs : s.memOk) : OkStep (step s) := by
  unfold step
  split
  · rename_i heq
    exact okStep_exec (OkTurn.run (okTurn_nextTurn hs) heq)
  · rename_i heq
    exact OkTurn.done (okTurn_nextTurn hs) heq
  · exact trivial

end Sys2Proof.Machine

namespace Sys2Proof
open Machine

/-- Settles O57: a memory is changed only by writes of bytes and, where strips or the device are cleared, by leaving bytes out; both keep
the canonical form, and so does every function that a step is made of. -/
theorem stepKeepsMemoryCanonical : Obligations.StepKeepsMemoryCanonical := by
  unfold Obligations.StepKeepsMemoryCanonical
  intro s t hs h
  have hstep := okStep_step hs
  rw [h] at hstep
  exact hstep

end Sys2Proof
end
